-- ==== Sys2Proof/Word.lean ====
section
/-!
DEFINITION. The word types of the S4 and their plainest views (R10, R24, R48, R53).
-/

namespace Sys2Proof

/-- A byte of memory (R10). -/
abbrev Byte := BitVec 8
/-- A 32-bit lane register element (R24). -/
abbrev W32 := BitVec 32
/-- A 64-bit scalar register value (R24). -/
abbrev W64 := BitVec 64
/-- One bit per lane of a gang: active masks, enable masks, predicates (R17, R20). -/
abbrev Mask := BitVec 32
/-- The number of a scalar register s0 to s63 (R24). -/
abbrev SReg := Fin 64
/-- The number of a scalar condition register k0 to k3 (R24). -/
abbrev KReg := Fin 4
/-- The number of a lane register v0 to v191 (R24, R25). -/
abbrev VReg := Fin 192
/-- The number of a predicate p0 to p7 (R24). -/
abbrev PReg := Fin 8
/-- The number of a queue register q0 to q15 (R24, R28). -/
abbrev QReg := Fin 16
/-- One lane register: a 32-bit element in each of the 32 lanes (R24). -/
abbrev LaneVec := Vector W32 32

/-- The 32 lanes of a gang in ascending order (R17). -/
def lanes : List (Fin 32) :=
  [0, 1, 2, 3, 4, 5, 6, 7, 8, 9, 10, 11, 12, 13, 14, 15,
   16, 17, 18, 19, 20, 21, 22, 23, 24, 25, 26, 27, 28, 29, 30, 31]

/-- The lane register whose lane n holds f n. -/
def laneMap (f : Fin 32 → W32) : LaneVec :=
  ⟨⟨lanes.map f⟩, by simp [lanes]⟩

/-- The lane register that holds x in every lane. -/
def laneConst (x : W32) : LaneVec := laneMap fun _ => x

end Sys2Proof
end

