-- ==== Sys2Proof/Syntax/Names.lean ====
section
/-!
DEFINITION. The operand names and modifier fields that instructions carry, as closed sets of names
(chapters 02, 05 to 09 of the spec). What the bits of each are stands in Sys2Proof/Decode.lean.
-/

namespace Sys2Proof

/-- The comparisons of `scmp` and `icmp` (R132, R176). -/
inductive Cond where
  | eq | ne | lt | le | gt | ge | tst
  deriving DecidableEq, Repr

/-- The scopes of an access (R139, R203). -/
inductive Scope where
  | crew | cluster | device | fabric
  deriving DecidableEq, Repr

/-- The orderings of an access or a fence (R140, R203). -/
inductive Order where
  | relaxed | acq | rel | acqrel
  deriving DecidableEq, Repr

/-- The orderings a fence may have (R141, R215). -/
inductive FenceOrder where
  | acq | rel | acqrel
  deriving DecidableEq, Repr

/-- The conditions of `swait` (R142). -/
inductive WaitCond where
  | ne | eq | geu | ltu | ge | lt
  deriving DecidableEq, Repr

/-- The sizes of `sld` and `sst` (R138). -/
inductive ScalarSize where
  | n64 | n32 | n16 | n8
  deriving DecidableEq, Repr

/-- The operations of `satom` (R140). -/
inductive SAtomOp where
  | add | and | or | xor | min | max | minu | maxu | exch | cas
  deriving DecidableEq, Repr

/-- The operations of `atom` (R210). -/
inductive AtomOp where
  | add | and | or | xor | min | max | minu | maxu | exch | cas | fadd | fmin | fmax
  deriving DecidableEq, Repr

/-- The operations of `red` (R212). -/
inductive RedOp where
  | add | and | or | xor | min | max | minu | maxu | fadd | fmin | fmax
  deriving DecidableEq, Repr

/-- Where `slrd` finds the lane it reads (R146). -/
inductive LaneSel where
  | imm (lane : Fin 32)
  | reg (b : SReg)
  deriving DecidableEq, Repr

/-- The states a berth can be moved to or waited for (R35, R150, R152). -/
inductive BerthTarget where
  | filling | full | draining
  deriving DecidableEq, Repr

/-- The memory that `xdrain` waits for (R156). -/
inductive DrainPath where
  | inward | outward | peer | fabric | tun
  deriving DecidableEq, Repr

/-- The Hadamard segment length of an MMA or a `qpack` (R188, R233). -/
inductive Hadamard where
  | none | hd16 | hd32
  deriving DecidableEq, Repr

/-- The flags of an MMA word (R233): gather, sparse, Hadamard, column fetch of A and of B. -/
structure MmaMod where
  g : Bool
  p : Bool
  hd : Hadamard
  ta : Bool
  tb : Bool
  deriving DecidableEq, Repr

/-- The accumulator selector T (R232). -/
structure AccSel where
  core : Fin 4
  slot : Fin 32
  tile : Fin 32
  deriving DecidableEq, Repr

/-- The output formats of `acc.st` (R253). -/
inductive AccFmt where
  | raw | f32 | bf16 | e4m3 | e5m2 | bx8 | bx6 | bx4
  deriving DecidableEq, Repr

/-- The rounding modes that have no random bits (R100). -/
inductive Rm where
  | rne | rz | rd | ru
  deriving DecidableEq, Repr

/-- The rounding modes, stochastic rounding among them (R100). -/
inductive RmSr where
  | rne | rz | rd | ru | sr
  deriving DecidableEq, Repr

/-- The scopes of `mfence` (R257). -/
inductive MfenceScope where
  | cluster | device
  deriving DecidableEq, Repr

/-- A name of the lane operand space (R26, R55). -/
inductive Opd where
  | v (n : VReg)
  | q (n : QReg)
  | p (n : PReg)
  | zero | laneid | gangid | crewid | gslot | coreid
  | s (n : Fin 32)
  deriving DecidableEq, Repr

/-- A source slot that may be replaced by the immediate X (R56). -/
inductive Src where
  | reg (o : Opd)
  | imm (x : W32)
  deriving DecidableEq, Repr

/-- The timing and guard fields of a lane word (R53). -/
structure LaneHdr where
  u : Bool
  e : Bool
  stall : Fin 16
  gn : Bool
  gp : PReg
  st : Fin 8
  wm : BitVec 6
  deriving DecidableEq, Repr

/-- The integer types of the TY field (R172). -/
inductive IntTy where
  | i32 | n32 | i64 | n64
  deriving DecidableEq, Repr

/-- The floating type page of a lane word (R73). -/
inductive Page where
  | f32 | f16 | bf16
  deriving DecidableEq, Repr

/-- The floating-point modifier fields (R177). -/
structure FMod where
  rm : Rm
  sat : Bool
  na : Bool
  nb : Bool
  nc : Bool
  deriving DecidableEq, Repr

/-- The comparisons of `fcmp` (R180). -/
inductive FCond where
  | eq | ne | lt | le | gt | ge | num | nan
  deriving DecidableEq, Repr

/-- The types that `cvt` converts between (R184). -/
inductive CvtTy where
  | f32 | f16 | bf16 | e4m3 | e5m2 | i32 | n32 | i16 | n16 | i8 | n8 | fx64
  deriving DecidableEq, Repr

/-- The modifier fields of `cvt` (R184). -/
structure CvtMod where
  dty : CvtTy
  sty : CvtTy
  rm : Rm
  sat : Bool
  spos : Fin 4
  dpos : Fin 4
  p : Fin 64
  deriving DecidableEq, Repr

/-- The destination types of `cvt.sr` (R186). -/
inductive SrTy where
  | f16 | bf16 | e4m3 | e5m2
  deriving DecidableEq, Repr

/-- The modifier fields of `cvt.sr` (R186). -/
structure CvtSrMod where
  dty : SrTy
  sat : Bool
  dpos : Fin 4
  rbits : Fin 64
  deriving DecidableEq, Repr

/-- How `qpack` rounds: a fixed mode, or stochastically with RBITS bits of operand B (R188, R189). -/
inductive QRound where
  | fixed (rm : Rm)
  | sr (rbits : Fin 64) (b : Opd)
  deriving DecidableEq, Repr

/-- The modifier fields of `qpack` (R188). -/
structure QPackMod where
  k : Fin 4
  bsel : Fin 4
  hd : Hadamard
  rnd : QRound
  deriving DecidableEq, Repr

/-- The modes of `xlane` (R194). -/
inductive XMode where
  | abs | rel | xor | rot
  deriving DecidableEq, Repr

/-- The modes of `vote` (R196). -/
inductive VoteMode where
  | and | or | same | mask | count
  deriving DecidableEq, Repr

/-- The operations of `lscan` (R197). -/
inductive ScanOp where
  | addI32 | addF32 | minI32 | maxI32 | minN32 | maxN32 | minF32 | maxF32
  deriving DecidableEq, Repr

/-- The element types of `cmp24` (R198). -/
inductive Cmp24Ty where
  | bf16 | f16 | e4m3 | e5m2
  deriving DecidableEq, Repr

/-- The access sizes of row-8 words (R203). -/
inductive MemSize where
  | b8 | b16 | b32 | b64
  deriving DecidableEq, Repr

/-- The pixel formats of `fbw` (R285). -/
inductive PixelFmt where
  | rgba8 | rgba16f | rgba32f
  deriving DecidableEq, Repr

end Sys2Proof
end

