-- ==== Sys2Proof/Syntax/Events.lean ====
section
/-!
DEFINITION. The plain data that events of the package carry: who waits on a monitor, a host memory
request, a Balane packet and a Balane frame (R292, R419, R423, R446).
-/

namespace Sys2Proof

/-- An agent that can sleep on a line monitor (R292). -/
inductive Waiter where
  | scalar (g : Nat)
  | lane (g slot : Nat)
  | pilot (cl : Nat)
  deriving DecidableEq, Repr

/-- A host request through a Fueveip link, to the memory aperture or to the control aperture (R446 to R448): the bytes to
write, or none to read `len` bytes. -/
structure HostRequest where
  link : Fin 2
  control : Bool
  addr : Nat
  write : Option (List Byte)
  len : Nat
  deriving DecidableEq, Repr

/-- A Balane packet (R423): the fields of its header and its payload. `tout` is the collective packets' use of the
word at 0x10, and their `pa` is {CID, chunk}. -/
structure FabPacket where
  dpkg : Nat
  spkg : Nat
  opc : Nat
  control : Bool
  rsv : Bool
  seq : Nat
  keyid : Nat
  pa : Nat
  rid : Nat
  scope : Scope
  ord : Order
  aop : Nat
  sz : MemSize
  p : Nat
  tout : W32
  aux : W32
  aux2 : W64
  payload : List Byte
  /-- of a collective packet: the switch that takes it, and the members that a partial lacks (R431, R434) -/
  sw : Nat
  miss : W64
  /-- every reserved field is 0 -/
  clean : Bool
  deriving DecidableEq, Repr

/-- A Balane frame as the link carries it (R419, R420): its header in clear, its enciphered flits and its tag. `sent` is
what the sender put into it: of a frame that does not verify, the packets that the link may come to lose (R421). -/
structure Frame where
  head : List Byte
  flits : List Byte
  tag : List Byte
  sent : List FabPacket
  deriving DecidableEq, Repr

end Sys2Proof
end

