-- ==== Sys2Proof/Syntax.lean ====
section
/-!
DEFINITION. The instructions and events of the S4: one constructor per row of spec/opcode_table.json.
Scalar words come first (chapters 02, 05, 08), then lane words with their timing and guard fields h
(chapters 02, 06, 07, 09), then the events of the package (chapters 10 to 18, spec/95).
-/

namespace Sys2Proof

/-- An instruction or event: one row of the table of operations and events. -/
inductive Instr where
  /-- `SADD`: sd := sa + sb (R130). -/
  | sadd (d a b : SReg)
  /-- `SSUB`: sd := sa - sb (R130). -/
  | ssub (d a b : SReg)
  /-- `SMUL`: sd := low 64 bits of sa * sb (R130). -/
  | smul (d a b : SReg)
  /-- `SMULH`: sd := bits 127:64 of the product, unsigned when N (R130). -/
  | smulh (n : Bool) (d a b : SReg)
  /-- `SDIV`: sd := quotient, unsigned when N (R131). -/
  | sdiv (n : Bool) (d a b : SReg)
  /-- `SMIN`: sd := the smaller, unsigned when N (R130). -/
  | smin (n : Bool) (d a b : SReg)
  /-- `SMAX`: sd := the larger, unsigned when N (R130). -/
  | smax (n : Bool) (d a b : SReg)
  /-- `SAND`: bitwise AND (R130). -/
  | sand (d a b : SReg)
  /-- `SOR`: bitwise OR (R130). -/
  | sor (d a b : SReg)
  /-- `SXOR`: bitwise XOR (R130). -/
  | sxor (d a b : SReg)
  /-- `SSHL`: shift left by sb[5:0] (R130). -/
  | sshl (d a b : SReg)
  /-- `SSHR`: logical shift right by sb[5:0] (R130). -/
  | sshr (d a b : SReg)
  /-- `SSRA`: arithmetic shift right by sb[5:0] (R130). -/
  | ssra (d a b : SReg)
  /-- `SCLZ`: leading zero bits of sa (R130). -/
  | sclz (d a : SReg)
  /-- `SPOPC`: one bits of sa (R130). -/
  | spopc (d a : SReg)
  /-- `SMOV`: sd := sa (R130). -/
  | smov (d a : SReg)
  /-- `SCMP`: k := sa COND sb, unsigned when N (R132). -/
  | scmp (c : Cond) (n : Bool) (k : KReg) (a b : SReg)
  /-- `SSEL`: sd := if k0 then sa else sb (R130). -/
  | ssel (d a b : SReg)
  /-- `SLEA`: sd := sa + 4 * sb (R133). -/
  | slea (d a b : SReg)
  /-- `SADD_IMM`: form B (R130). -/
  | saddImm (d a : SReg) (i : BitVec 13)
  /-- `SMUL_IMM`: form B (R130). -/
  | smulImm (d a : SReg) (i : BitVec 13)
  /-- `SAND_IMM`: form B (R130). -/
  | sandImm (d a : SReg) (i : BitVec 13)
  /-- `SOR_IMM`: form B (R130). -/
  | sorImm (d a : SReg) (i : BitVec 13)
  /-- `SXOR_IMM`: form B (R130). -/
  | sxorImm (d a : SReg) (i : BitVec 13)
  /-- `SSHL_IMM`: form B, count imm13 from 0 to 63 (R130). -/
  | sshlImm (d a : SReg) (i : BitVec 13)
  /-- `SSHR_IMM`: form B, count imm13 from 0 to 63 (R130). -/
  | sshrImm (d a : SReg) (i : BitVec 13)
  /-- `SSRA_IMM`: form B, count imm13 from 0 to 63 (R130). -/
  | ssraImm (d a : SReg) (i : BitVec 13)
  /-- `SMIN_IMM`: form B, signed (R130). -/
  | sminImm (d a : SReg) (i : BitVec 13)
  /-- `SMAX_IMM`: form B, signed (R130). -/
  | smaxImm (d a : SReg) (i : BitVec 13)
  /-- `SCMP_IMM`: form B, signed (R132). -/
  | scmpImm (c : Cond) (k : KReg) (a : SReg) (i : BitVec 13)
  /-- `SLEA_IMM`: sd := address of the word + 4 * imm13 (R133). -/
  | sleaImm (d : SReg) (i : BitVec 13)
  /-- `SMOVI`: sd := sext(imm13) (R130). -/
  | smovi (d : SReg) (i : BitVec 13)
  /-- `SMOVH`: high half of sd := y[31:0] (R130). -/
  | smovh (d : SReg) (i : BitVec 13)
  /-- `SMOVI_LONG`: long form of smovi (R71, R130). -/
  | smoviLong (d : SReg) (i : W32)
  /-- `SMOVH_LONG`: long form of smovh (R71, R130). -/
  | smovhLong (d : SReg) (i : W32)
  /-- `SADD_LONG`: long form of sadd (R71, R130). -/
  | saddLong (d a : SReg) (i : W32)
  /-- `SAND_LONG`: long form of sand (R71, R130). -/
  | sandLong (d a : SReg) (i : W32)
  /-- `SOR_LONG`: long form of sor (R71, R130). -/
  | sorLong (d a : SReg) (i : W32)
  /-- `SXOR_LONG`: long form of sxor (R71, R130). -/
  | sxorLong (d a : SReg) (i : W32)
  /-- `SB`: branch (R134). -/
  | sb (off : BitVec 22)
  /-- `SBK`: branch if k xor SENSE (R134). -/
  | sbk (k : KReg) (sense : Bool) (off : BitVec 22)
  /-- `SCALL`: s63 := A + 4, branch (R134). -/
  | scall (off : BitVec 22)
  /-- `SRET`: SPC := sa (R134). -/
  | sret (a : SReg)
  /-- `SJMPR`: SPC := sa (R134). -/
  | sjmpr (a : SReg)
  /-- `SJMPR_L`: sd := A + 4, SPC := sa (R134). -/
  | sjmprL (d a : SReg)
  /-- `SLOOP`: arms a repeat of the first n words of the next block (R135). -/
  | sloop (a : SReg) (n : BitVec 13)
  /-- `SEXIT`: ends the gang or the pilot program (R136). -/
  | sexit
  /-- `SNOP`: no effect (R136). -/
  | snop
  /-- `SLD`: 8-byte load (R138). -/
  | sld (d a : SReg) (i : BitVec 13)
  /-- `SST`: 8-byte store (R138). -/
  | sst (d a : SReg) (i : BitVec 13)
  /-- `SLD_LONG`: sized load (R138). -/
  | sldLong (sz : ScalarSize) (sgn : Bool) (d a : SReg) (i : W32)
  /-- `SST_LONG`: sized store (R138). -/
  | sstLong (sz : ScalarSize) (d a : SReg) (i : W32)
  /-- `SLDV`: waits for a version word (R139). -/
  | sldv (sc : Scope) (d a b : SReg) (i : W32)
  /-- `SATOM`: scalar atomic (R140). -/
  | satom (op : SAtomOp) (o : Order) (sc : Scope) (d a b : SReg) (i : BitVec 24)
  /-- `SFENCE`: scalar fence (R141). -/
  | sfence (o : FenceOrder) (sc : Scope)
  /-- `SWAIT`: waits for a condition (R142). -/
  | swait (c : WaitCond) (acq : Bool) (d a b : SReg)
  /-- `LDISP`: dispatches lane block n (R144). -/
  | ldisp (n : BitVec 13)
  /-- `LDISP_REG`: dispatches lane block sa[29:0] + n (R144). -/
  | ldispReg (a : SReg) (n : BitVec 13)
  /-- `LSYNC`: settles lane work (R145). -/
  | lsync
  /-- `SLRD`: reads one lane of a base register (R146). -/
  | slrd (d : SReg) (n : Fin 64) (l : LaneSel)
  /-- `BAR_INIT`: sets EXPECT of a barrier (R147). -/
  | barInit (b : BitVec 7) (a : SReg)
  /-- `BAR_ARR`: arrives (R147). -/
  | barArr (d : SReg) (b : BitVec 7)
  /-- `BAR_WT`: waits for a phase (R147). -/
  | barWt (b : BitVec 7) (a : SReg)
  /-- `BAR_SYNC`: arrives and waits (R147). -/
  | barSync (b : BitVec 7)
  /-- `BAR_EXP`: announces bytes (R147). -/
  | barExp (b : BitVec 7) (a : SReg)
  /-- `FBAR`: fabric or device-wide barrier (R148). -/
  | fbar (d a : SReg)
  /-- `BTH_TAKE`: takes a free berth (R149). -/
  | bthTake (d a b : SReg)
  /-- `BTH_PASS`: passes a berth (R151). -/
  | bthPass (a b : SReg)
  /-- `BTH_WAIT`: waits for a berth (R152). -/
  | bthWait (a : SReg) (t : BerthTarget)
  /-- `BTH_SET`: changes a berth's state (R150). -/
  | bthSet (a b : SReg) (t : BerthTarget)
  /-- `BTH_FREE`: frees a berth (R153). -/
  | bthFree (a : SReg)
  /-- `BTH_QUERY`: reads half a berth entry (R153). -/
  | bthQuery (hi : Bool) (d a : SReg)
  /-- `XREG_ACQ`: takes an extended block (R154). -/
  | xregAcq
  /-- `XREG_REL`: returns the extended block (R154). -/
  | xregRel
  /-- `XCPY`: supplies one slice of a copy (R155). -/
  | xcpy (a b : SReg)
  /-- `XDRAIN`: waits for copies (R156). -/
  | xdrain (p : DrainPath)
  /-- `SRT`: queues a sort (R157). -/
  | srt (a : SReg)
  /-- `XCOL`: starts a collective (R158). -/
  | xcol (a : SReg)
  /-- `TQ_TAKE`: takes a tile (R159). -/
  | tqTake (d a : SReg)
  /-- `TQ_STEAL`: steals tiles (R159). -/
  | tqSteal (d a : SReg)
  /-- `TQ_GIVE`: gives tiles (R159). -/
  | tqGive (a b : SReg)
  /-- `GLAUNCH`: launches a child grid (R163). -/
  | glaunch (q : Fin 64) (d a b : SReg)
  /-- `WSPLIT`: detaches weight (R162). -/
  | wsplit (d a : SReg)
  /-- `WRET`: returns weight (R162). -/
  | wret (a : SReg)
  /-- `CSRR`: reads a control register (R164). -/
  | csrr (n : BitVec 12) (d : SReg)
  /-- `CSRW`: writes a control register (R164). -/
  | csrw (n : BitVec 12) (a : SReg)
  /-- `TRAP`: raises USER_TRAP (R165). -/
  | trap (n : BitVec 12)
  /-- `ERET`: ends a trap handler (R165, R377). -/
  | eret
  /-- `SPCHK`: safe point n (R166). -/
  | spchk (n : Fin 16)
  /-- `MMA_BF16`: matrix multiply (R233, R235). -/
  | mmaBf16 (m : MmaMod) (d a b : SReg) (t : AccSel)
  /-- `MMA_F16`: matrix multiply (R233, R235). -/
  | mmaF16 (m : MmaMod) (d a b : SReg) (t : AccSel)
  /-- `MMA_E4M3`: matrix multiply (R233, R235). -/
  | mmaE4m3 (m : MmaMod) (d a b : SReg) (t : AccSel)
  /-- `MMA_E5M2`: matrix multiply (R233, R235). -/
  | mmaE5m2 (m : MmaMod) (d a b : SReg) (t : AccSel)
  /-- `MMA_BX8`: matrix multiply (R233, R235). -/
  | mmaBx8 (m : MmaMod) (d a b : SReg) (t : AccSel)
  /-- `MMA_BX6`: matrix multiply (R233, R235). -/
  | mmaBx6 (m : MmaMod) (d a b : SReg) (t : AccSel)
  /-- `MMA_BX4`: matrix multiply (R233, R235). -/
  | mmaBx4 (m : MmaMod) (d a b : SReg) (t : AccSel)
  /-- `MMA_LUT4`: matrix multiply (R233, R235). -/
  | mmaLut4 (m : MmaMod) (d a b : SReg) (t : AccSel)
  /-- `MMA_I8`: matrix multiply (R233, R235). -/
  | mmaI8 (m : MmaMod) (d a b : SReg) (t : AccSel)
  /-- `ACC_CLR`: clears rows; n is the row count minus one (R251). -/
  | accClr (t : AccSel) (row n : Fin 64)
  /-- `ACC_LD`: loads raw rows (R252). -/
  | accLd (t : AccSel) (row n : Fin 64) (a : SReg)
  /-- `ACC_ST`: stores rows (R253). -/
  | accSt (f : AccFmt) (rm : RmSr) (sat : Bool) (t : AccSel) (row n : Fin 64) (a b : SReg)
  /-- `ACC_ADD`: adds an f32 tile (R254). -/
  | accAdd (t : AccSel) (row n : Fin 64) (a : SReg)
  /-- `ACC_RENORM`: renormalises rows (R255). -/
  | accRenorm (t : AccSel) (row n : Fin 64) (a : SReg)
  /-- `ACC_HDR`: reads a row header and a count (R256). -/
  | accHdr (w : Bool) (d : SReg) (t : AccSel) (row : Fin 64)
  /-- `ACC_SCALE`: adds to row exponents (R255). -/
  | accScale (t : AccSel) (row n : Fin 64) (a : SReg)
  /-- `CTAB_W`: writes a quarter of the LUT4 table (R258). -/
  | ctabW (core q : Fin 4) (a : SReg)
  /-- `MWT`: waits for MMAs (R259). -/
  | mwt (n : Fin 64)
  /-- `MFENCE`: waits for and releases contributions (R259). -/
  | mfence (sc : MfenceScope)
  /-- `MBX_TAKE`: takes a mailbox entry (R260). -/
  | mbxTake (d a : SReg)
  /-- `RQ_SEND`: sends a result-queue entry (R260). -/
  | rqSend (q : Fin 32) (a : SReg)
  /-- `IADD`: a + b (R173). -/
  | iadd (h : LaneHdr) (ty : IntTy) (sat : Bool) (d a : Opd) (b : Src)
  /-- `ISUB`: a - b (R173). -/
  | isub (h : LaneHdr) (ty : IntTy) (sat : Bool) (d a : Opd) (b : Src)
  /-- `IMUL`: a * b (R173). -/
  | imul (h : LaneHdr) (ty : IntTy) (sat : Bool) (d a : Opd) (b : Src)
  /-- `IMAD`: a * b + c (R173). -/
  | imad (h : LaneHdr) (ty : IntTy) (sat : Bool) (d a : Opd) (b c : Src)
  /-- `IMULH`: high half of the product; n selects .n32 (R173). -/
  | imulh (h : LaneHdr) (n : Bool) (d a : Opd) (b : Src)
  /-- `IDP4`: four-way byte dot product (R174). -/
  | idp4 (h : LaneHdr) (as bs sat : Bool) (d a : Opd) (b c : Src)
  /-- `IABS`: absolute value; wide selects .i64 (R173). -/
  | iabs (h : LaneHdr) (wide sat : Bool) (d a : Opd)
  /-- `IMIN`: the smaller (R173). -/
  | imin (h : LaneHdr) (ty : IntTy) (d a : Opd) (b : Src)
  /-- `IMAX`: the larger (R173). -/
  | imax (h : LaneHdr) (ty : IntTy) (d a : Opd) (b : Src)
  /-- `ICMP`: compare (R176). -/
  | icmp (h : LaneHdr) (ty : IntTy) (cc : Cond) (d : PReg) (a : Opd) (b : Src)
  /-- `ISEL`: select by predicate (R176). -/
  | isel (h : LaneHdr) (ty : IntTy) (d : Opd) (a b : Src) (c : PReg)
  /-- `BOOL3`: three-input truth table (R176). -/
  | bool3 (h : LaneHdr) (t : BitVec 8) (d : Opd) (a b c : Src)
  /-- `POPC`: one bits (R173). -/
  | popc (h : LaneHdr) (d a : Opd)
  /-- `CLZ`: leading zero bits (R173). -/
  | clz (h : LaneHdr) (d a : Opd)
  /-- `BREV`: bit reversal (R173). -/
  | brev (h : LaneHdr) (d a : Opd)
  /-- `ISHL`: shift left (R175). -/
  | ishl (h : LaneHdr) (ty : IntTy) (d a : Opd) (b : Src)
  /-- `ISHR`: logical shift right (R175). -/
  | ishr (h : LaneHdr) (ty : IntTy) (d a : Opd) (b : Src)
  /-- `ISRA`: arithmetic shift right (R175). -/
  | isra (h : LaneHdr) (ty : IntTy) (d a : Opd) (b : Src)
  /-- `ISHF`: funnel shift (R175). -/
  | ishf (h : LaneHdr) (left : Bool) (d a b : Opd) (c : Src)
  /-- `BFE`: bit-field extract; n selects .n32 (R175). -/
  | bfe (h : LaneHdr) (n : Bool) (d a : Opd) (b : Src)
  /-- `BFI`: bit-field insert (R175). -/
  | bfi (h : LaneHdr) (d a b : Opd) (c : Src)
  /-- `FADD`: a + b (R178). -/
  | fadd (h : LaneHdr) (pg : Page) (m : FMod) (d a : Opd) (b : Src)
  /-- `FMUL`: a * b (R178). -/
  | fmul (h : LaneHdr) (pg : Page) (m : FMod) (d a : Opd) (b : Src)
  /-- `FFMA`: a * b + c (R178). -/
  | ffma (h : LaneHdr) (pg : Page) (m : FMod) (d a : Opd) (b c : Src)
  /-- `FMIN`: the smaller (R179). -/
  | fmin (h : LaneHdr) (pg : Page) (d a : Opd) (b : Src)
  /-- `FMAX`: the larger (R179). -/
  | fmax (h : LaneHdr) (pg : Page) (d a : Opd) (b : Src)
  /-- `FCMP`: compare (R180). -/
  | fcmp (h : LaneHdr) (pg : Page) (cc : FCond) (hi : Bool) (d : PReg) (a : Opd) (b : Src)
  /-- `FCLASS`: class mask (R181). -/
  | fclass (h : LaneHdr) (pg : Page) (d a : Opd)
  /-- `FSCALE`: a * 2^n (R182). -/
  | fscale (h : LaneHdr) (rm : Rm) (sat : Bool) (d a : Opd) (b : Src)
  /-- `FDOT2`: two-way dot product; bf selects .bf16 (R178). -/
  | fdot2 (h : LaneHdr) (bf : Bool) (m : FMod) (d a b c : Opd)
  /-- `FRCP`: 1 / x (R183). -/
  | frcp (h : LaneHdr) (d a : Opd)
  /-- `FRSQ`: 1 / sqrt x (R183). -/
  | frsq (h : LaneHdr) (d a : Opd)
  /-- `FSQRT`: sqrt x (R183). -/
  | fsqrt (h : LaneHdr) (d a : Opd)
  /-- `FEX2`: 2^x (R183). -/
  | fex2 (h : LaneHdr) (d a : Opd)
  /-- `FLG2`: log2 x (R183). -/
  | flg2 (h : LaneHdr) (d a : Opd)
  /-- `FSIN`: sin(2 pi x) (R183). -/
  | fsin (h : LaneHdr) (d a : Opd)
  /-- `FCOS`: cos(2 pi x) (R183). -/
  | fcos (h : LaneHdr) (d a : Opd)
  /-- `CVT`: conversion (R184). -/
  | cvt (h : LaneHdr) (m : CvtMod) (d a : Opd)
  /-- `CVT_SR`: stochastic conversion (R186). -/
  | cvtSr (h : LaneHdr) (m : CvtSrMod) (d a b : Opd)
  /-- `HDM_16`: Hadamard transform of 16 (R187). -/
  | hdm16 (h : LaneHdr) (d : Opd) (a : VReg)
  /-- `HDM_32`: Hadamard transform of 32 (R187). -/
  | hdm32 (h : LaneHdr) (d : Opd) (a : VReg)
  /-- `QPACK_BX8`: block quantisation (R189). -/
  | qpackBx8 (h : LaneHdr) (m : QPackMod) (d a c : VReg)
  /-- `QPACK_BX6`: block quantisation (R189). -/
  | qpackBx6 (h : LaneHdr) (m : QPackMod) (d a c : VReg)
  /-- `QPACK_BX4`: block quantisation (R189). -/
  | qpackBx4 (h : LaneHdr) (m : QPackMod) (d a c : VReg)
  /-- `QUNPACK_BX8`: block expansion (R190). -/
  | qunpackBx8 (h : LaneHdr) (k bsel : Fin 4) (d : Opd) (a c : VReg)
  /-- `QUNPACK_BX6`: block expansion (R190). -/
  | qunpackBx6 (h : LaneHdr) (k bsel : Fin 4) (d : Opd) (a c : VReg)
  /-- `QUNPACK_BX4`: block expansion (R190). -/
  | qunpackBx4 (h : LaneHdr) (k bsel : Fin 4) (d : Opd) (a c : VReg)
  /-- `BXDOT_BX8`: block dot product (R191). -/
  | bxdotBx8 (h : LaneHdr) (rm : Rm) (bsa bsb : Fin 4) (d : Opd) (a b : VReg) (c : Opd)
  /-- `BXDOT_BX6`: block dot product (R191). -/
  | bxdotBx6 (h : LaneHdr) (rm : Rm) (bsa bsb : Fin 4) (d : Opd) (a b : VReg) (c : Opd)
  /-- `BXDOT_BX4`: block dot product (R191). -/
  | bxdotBx4 (h : LaneHdr) (rm : Rm) (bsa bsb : Fin 4) (d : Opd) (a b : VReg) (c : Opd)
  /-- `MOV`: copy (R192). -/
  | mov (h : LaneHdr) (w64 : Bool) (d a : Opd)
  /-- `MOVI`: D := X (R192). -/
  | movi (h : LaneHdr) (d : Opd) (x : W32)
  /-- `XLANE`: moves values between lanes (R194). -/
  | xlane (h : LaneHdr) (mode : XMode) (vp : PReg) (w64 : Bool) (d a : Opd) (b : Src)
  /-- `VOTE`: combines a predicate over lanes (R196). -/
  | vote (h : LaneHdr) (mode : VoteMode) (d : Opd) (a : PReg)
  /-- `RDLANE`: broadcasts one lane (R195). -/
  | rdlane (h : LaneHdr) (vp : PReg) (d : Opd) (a : VReg) (b : Src)
  /-- `LSCAN`: prefix over lanes (R197). -/
  | lscan (h : LaneHdr) (op : ScanOp) (excl : Bool) (d : Opd) (a : VReg)
  /-- `CMP24`: keeps two of four (R198). -/
  | cmp24 (h : LaneHdr) (ty : Cmp24Ty) (d a : VReg)
  /-- `PSET`: predicate truth table (R199). -/
  | pset (h : LaneHdr) (t : BitVec 8) (d a b c : PReg)
  /-- `PMOV`: moves between predicates and registers (R200). -/
  | pmov (h : LaneHdr) (mask : Bool) (d a : Opd)
  /-- `LD`: plain load (R206). -/
  | ld (h : LaneHdr) (off : BitVec 16) (sz : MemSize) (sgn : Bool) (d a b : Opd)
  /-- `ST`: plain store (R206). -/
  | st (h : LaneHdr) (off : BitVec 16) (sz : MemSize) (a b c : Opd)
  /-- `LD_R`: relaxed strong load (R207). -/
  | ldR (h : LaneHdr) (off : BitVec 16) (sc : Scope) (acq w64 : Bool) (d a b : Opd)
  /-- `ST_R`: relaxed strong store (R207). -/
  | stR (h : LaneHdr) (off : BitVec 16) (sc : Scope) (rel w64 : Bool) (a b c : Opd)
  /-- `LDV`: waits for a version word (R208). -/
  | ldv (h : LaneHdr) (off : BitVec 16) (sc : Scope) (d a b c : Opd)
  /-- `LDS`: scratchpad load (R209). -/
  | lds (h : LaneHdr) (off : BitVec 16) (sz : MemSize) (sgn : Bool) (d a b : Opd)
  /-- `STS`: scratchpad store (R209). -/
  | sts (h : LaneHdr) (off : BitVec 16) (sz : MemSize) (a b c : Opd)
  /-- `ATOM`: atomic (R210). -/
  | atom (h : LaneHdr) (off : BitVec 16) (op : AtomOp) (o : Order) (sc : Scope) (w64 : Bool) (d a b c : Opd)
  /-- `ATOM_X`: exact FX64 add (R211). -/
  | atomX (h : LaneHdr) (off : BitVec 16) (xf : Bool) (p : Fin 64) (rel : Bool) (sc : Scope) (d a c : Opd)
  /-- `RED`: reduction (R212). -/
  | red (h : LaneHdr) (off : BitVec 16) (op : RedOp) (rel : Bool) (sc : Scope) (w64 : Bool) (a c : Opd)
  /-- `MWAIT`: waits for a change (R214). -/
  | mwait (h : LaneHdr) (off : BitVec 16) (w64 : Bool) (a b c : Opd)
  /-- `FENCE`: lane fence (R215). -/
  | fence (h : LaneHdr) (o : FenceOrder) (sc : Scope)
  /-- `BRA`: divergent branch (R218). -/
  | bra (h : LaneHdr) (target join : BitVec 30)
  /-- `BRA_LOOP`: enters a loop (R219). -/
  | braLoop (h : LaneHdr) (latch exitJoin : BitVec 30)
  /-- `BRK`: leaves a loop (R220). -/
  | brk (h : LaneHdr)
  /-- `CONT`: continues a loop (R220). -/
  | cont (h : LaneHdr)
  /-- `JOIN`: reconverges (R221). -/
  | join (h : LaneHdr)
  /-- `JOIN_LATCH`: loop latch (R221). -/
  | joinLatch (h : LaneHdr)
  /-- `CALL`: call (R222). -/
  | call (h : LaneHdr) (target : BitVec 30)
  /-- `RET`: return (R222). -/
  | ret (h : LaneHdr)
  /-- `EXIT`: ends lanes of the block (R223). -/
  | exit (h : LaneHdr)
  /-- `EXIT_KILL`: ends lanes for the life of the gang (R223). -/
  | exitKill (h : LaneHdr)
  /-- `NAP`: yields (R226). -/
  | nap (h : LaneHdr) (n : BitVec 16)
  /-- `RGN`: starts an idempotent region (R228). -/
  | rgn (h : LaneHdr)
  /-- `GPROJ`: projects Gaussians (R269). -/
  | gproj (h : LaneHdr) (d : QReg) (a : Opd) (b : Fin 32)
  /-- `PPROJ`: projects points (R269). -/
  | pproj (h : LaneHdr) (d : QReg) (a : Opd) (b : Fin 32)
  /-- `GEVAL`: evaluates a splat (R272). -/
  | geval (h : LaneHdr) (d : VReg) (a b : Opd)
  /-- `GBLEND`: blends a splat (R273). -/
  | gblend (h : LaneHdr) (vp : PReg) (d : VReg) (a b : Opd)
  /-- `GBACK`: backward pass (R274). -/
  | gback (h : LaneHdr) (vp : PReg) (d : VReg) (a b : Opd) (c : VReg)
  /-- `GSCAT`: scatters gradients (R275). -/
  | gscat (h : LaneHdr) (tmask : BitVec 16) (fx : Bool) (p : Fin 64) (a : Opd) (c : VReg)
  /-- `RGEN`: writes a camera ray (R281). -/
  | rgen (h : LaneHdr) (a : Fin 32) (b c : Opd)
  /-- `TRACE`: traces rays (R282). -/
  | trace (h : LaneHdr) (pb : Fin 64) (d : QReg) (a : Opd) (b : Fin 32) (c : Opd)
  /-- `RAYLD`: reads a ray word (R280). -/
  | rayld (h : LaneHdr) (word : Fin 32) (w64 : Bool) (d : Opd) (a : Fin 32) (b : Opd)
  /-- `RAYST`: writes a ray word (R280). -/
  | rayst (h : LaneHdr) (word : Fin 32) (w64 : Bool) (a : Fin 32) (b c : Opd)
  /-- `HITQ`: reads a hit (R284). -/
  | hitq (h : LaneHdr) (d : VReg) (a : Fin 32) (b : Opd)
  /-- `RPUSH`: takes a ray (R279). -/
  | rpush (h : LaneHdr) (d : Opd) (a : Fin 32)
  /-- `RPOP`: frees a ray (R279). -/
  | rpop (h : LaneHdr) (a : Fin 32) (b : Opd)
  /-- `FBW`: writes pixels (R285). -/
  | fbw (h : LaneHdr) (off : BitVec 16) (f : PixelFmt) (a b : Opd) (c : VReg)
  /-- `LANE_DISPATCH`: gang g loads the oldest dispatch-queue entry (R21). -/
  | laneDispatch (g : Nat)
  /-- `ISSUE_SLOT_ARBITRATION`: a freed issue slot chooses a run (R366). -/
  | issueSlotArbitration (core slot : Nat)
  /-- `RESULT_LANDING`: due fixed-latency results of gang g land (R59). -/
  | resultLanding (g : Nat)
  /-- `VAR_COMPLETION`: pending var operation i of gang g completes (R61). -/
  | varCompletion (g i : Nat)
  /-- `NAP_EXPIRY`: a napping slot resumes (R226). -/
  | napExpiry (g slot : Nat)
  /-- `MONITOR_FIRE`: a line monitor wakes a waiter (R292). -/
  | monitorFire (w : Waiter)
  /-- `MONITOR_POLL_TIMER`: a waiter without a monitor re-checks (R292). -/
  | monitorPollTimer (w : Waiter)
  /-- `TRAP_DELIVERY`: a pending fault of gang g is delivered (R375). -/
  | trapDelivery (g slot : Nat)
  /-- `CREW_RETIRE`: crew c retires (R136). -/
  | crewRetire (c : Nat)
  /-- `GRID_RETIRE`: grid g retires (R356). -/
  | gridRetire (g : Nat)
  /-- `WEIGHT_GRANT`: the root answers the oldest grant request of crew c (R161). -/
  | weightGrant (c : Nat)
  /-- `PACKET_ADMISSION`: the dispatcher consumes the head packet of queue q (R352). -/
  | packetAdmission (q : Nat)
  /-- `CREW_PLACEMENT`: the next crew or convoy of grid g is placed (R363). -/
  | crewPlacement (g : Nat)
  /-- `PLACEMENT_BACKOFF_EXPIRY`: a dispatcher retries (R364). -/
  | placementBackoffExpiry (d : Nat)
  /-- `PREEMPT_REQUEST`: crews are chosen for pre-emption (R371). -/
  | preemptRequest (g : Nat)
  /-- `PREEMPT_WITHDRAW_TIMEOUT`: a pre-emption is withdrawn (R383). -/
  | preemptWithdrawTimeout (c : Nat)
  /-- `CREW_RESTORE`: a pre-empted crew is placed again (R384). -/
  | crewRestore (c : Nat)
  /-- `CREW_KILL`: a replayable crew is killed (R386). -/
  | crewKill (c : Nat)
  /-- `KILLED_CREW_RESTORE`: a killed crew is restored (R389). -/
  | killedCrewRestore (c : Nat)
  /-- `MMA_EXECUTE`: a matrix engine starts its next MMA (R231). -/
  | mmaExecute (core : Nat)
  /-- `ACC_BATCH_APPLY`: the accumulator port applies a contribution (R246). -/
  | accBatchApply (core : Nat)
  /-- `CTAB_APPLY`: a queued table write takes effect (R258). -/
  | ctabApply (core : Nat)
  /-- `COPY_PART_COMPLETE`: a copy part is performed (R307). -/
  | copyPartComplete (cl i : Nat)
  /-- `COPY_COMPLETE`: a copy completes (R341). -/
  | copyComplete (cl i : Nat)
  /-- `COPY_ERROR_COMPLETE`: a copy ends with an error (R342). -/
  | copyErrorComplete (cl i : Nat)
  /-- `FAULT_QUEUE_POST`: an agent posts a fault entry (R306). -/
  | faultQueuePost (i : Nat)
  /-- `ENGINE_RESUME_ON_ACK`: a paused agent reads ACK (R306). -/
  | engineResumeOnAck (i : Nat)
  /-- `SORT_START`: the sort engine starts its next sort (R157). -/
  | sortStart (d : Nat)
  /-- `SORT_COMPLETE`: a sort completes (R157). -/
  | sortComplete (d : Nat)
  /-- `PROJECTION_ENTRY_START`: the projection stage takes an entry (R269). -/
  | projectionEntryStart (cl : Nat)
  /-- `PROJECTION_ITEM_DONE`: an item's output is written (R271). -/
  | projectionItemDone (cl : Nat)
  /-- `TRAVERSAL_START`: the traversal unit takes an entry (R282). -/
  | traversalStart (cl : Nat)
  /-- `TRAVERSAL_END`: a ray's traversal ends (R282). -/
  | traversalEnd (cl i : Nat)
  /-- `GEN_JOB_CONSUME`: the generator consumes a job slot (R398). -/
  | genJobConsume (d : Nat)
  /-- `GEN_RAY_EMIT`: the generator emits rays (R400). -/
  | genRayEmit (d i : Nat)
  /-- `TUN_MERGE`: a home slice applies a contribution (R294). -/
  | tunMerge (i : Nat)
  /-- `TUN_EVICTION`: a tun line is evicted (R295). -/
  | tunEviction (line : Nat)
  /-- `LINE_EVICTION`: a home slice evicts a line (R293). -/
  | lineEviction (line : Nat)
  /-- `PAGE_WALK`: a walker completes a translation (R302). -/
  | pageWalk (die asid : Nat) (va : W64)
  /-- `ECC_ERROR`: a soft error is corrected or poisons 8 bytes (R296). -/
  | eccError (granule : Nat) (hard : Bool)
  /-- `XCMD_INVALIDATE_PAGE`: queues removal of one page (R304). -/
  | xcmdInvalidatePage (asid : BitVec 12)
  /-- `XCMD_INVALIDATE_RANGE`: queues removal of a range (R304). -/
  | xcmdInvalidateRange (asid : BitVec 12) (n : W32)
  /-- `XCMD_INVALIDATE_ASID`: queues removal of an ASID (R304). -/
  | xcmdInvalidateAsid (asid : BitVec 12)
  /-- `XCMD_INVALIDATE_ALL`: queues removal of every translation (R304). -/
  | xcmdInvalidateAll
  /-- `INVALIDATION_COMPLETE`: an invalidation command completes (R304). -/
  | invalidationComplete
  /-- `HOST_MEMORY_ACCESS`: a host memory request is performed (R446). -/
  | hostMemoryAccess (r : HostRequest)
  /-- `REGISTER_WRITE`: a host control-register write (R448). -/
  | registerWrite (off : Nat) (v : W64)
  /-- `FEATURE_LOCK`: a write of FLOCK (R450). -/
  | featureLock
  /-- `PARTITION_FEATURE_MASK_WRITE`: a write of a partition's feature mask (R354). -/
  | partitionFeatureMaskWrite (n : Fin 4) (v : W64)
  /-- `GENERATOR_ENABLE`: a write of EN (R397). -/
  | generatorEnable (d : Fin 4) (on : Bool)
  /-- `KEY_LOAD`: loads a memory key (R456). -/
  | keyLoad (id : BitVec 12)
  /-- `KEY_REMOVE`: removes a memory key (R456). -/
  | keyRemove (id : BitVec 12)
  /-- `LINK_KEY_LOAD`: a write of NRX (R457). -/
  | linkKeyLoad (p : Fin 16) (v : W64)
  /-- `LINK_BRINGUP`: a port brings its link up (R457). -/
  | linkBringup (p : Fin 16)
  /-- `ATTEST_REQUEST`: a write of the word that requests a report (R458). -/
  | attestRequest (v : W64)
  /-- `ATTEST_REPORT_DONE`: the report is written (R458). -/
  | attestReportDone
  /-- `MKILL`: a write of MKILL (R459). -/
  | mkill (grid : W64)
  /-- `MAILBOX_POST`: the harbourmaster posts a report (R459). -/
  | mailboxPost
  /-- `POWER_ON_RESET`: the package starts (R452). -/
  | powerOnReset
  /-- `WATCHDOG_RESET`: a watchdog restart (R453). -/
  | watchdogReset
  /-- `I3C_RESET`: a reset over I3C (R460). -/
  | i3cReset
  /-- `MARGIN_REPLAN`: frequencies are re-planned (R454). -/
  | marginReplan
  /-- `POWER_WINDOW_TIMER`: a 10 ms power window ends (R455). -/
  | powerWindowTimer (watts : Nat)
  /-- `PCAP_WRITE`: sets the power limit (R455). -/
  | pcapWrite (v : W32)
  /-- `COOLANT_EXCURSION`: coolant leaves its range (R455). -/
  | coolantExcursion
  /-- `COOLANT_RESTORED`: coolant is back in range (R455). -/
  | coolantRestored
  /-- `FRAME_RECEIVE`: a link receiver checks a frame (R421). -/
  | frameReceive (p : Fin 16) (f : Frame)
  /-- `RETRY_REQUEST_RECEIVE`: a sender resends (R421). -/
  | retryRequestReceive (p : Fin 16) (n : W64)
  /-- `TOTALS_FRAME_TIMER`: a totals frame is sent (R427). -/
  | totalsFrameTimer (p : Fin 16)
  /-- `TOTALS_FRAME_RECEIVE`: a totals frame arrives (R427). -/
  | totalsFrameReceive (p : Fin 16) (rcvd freed : W64)
  /-- `FAB_RD`: a remote read is performed (R424). -/
  | fabRd (k : FabPacket)
  /-- `FAB_RDR`: a read answer arrives (R425). -/
  | fabRdr (k : FabPacket)
  /-- `FAB_WR`: a remote write is performed (R424). -/
  | fabWr (k : FabPacket)
  /-- `FAB_WRA`: a write acknowledgement arrives (R424). -/
  | fabWra (k : FabPacket)
  /-- `FAB_ATM`: remote atomics are performed (R424). -/
  | fabAtm (k : FabPacket)
  /-- `FAB_ATR`: atomic answers arrive (R424). -/
  | fabAtr (k : FabPacket)
  /-- `FAB_RED`: remote reductions are performed (R424). -/
  | fabRed (k : FabPacket)
  /-- `FAB_BLK`: bulk bytes are performed (R424). -/
  | fabBlk (k : FabPacket)
  /-- `FAB_BLKA`: a bulk acknowledgement arrives (R424). -/
  | fabBlka (k : FabPacket)
  /-- `FAB_DROP`: a bulk packet was dropped (R428). -/
  | fabDrop (k : FabPacket)
  /-- `FAB_RESV`: a reservation is requested (R428). -/
  | fabResv (k : FabPacket)
  /-- `FAB_RGNT`: a reservation is granted (R428). -/
  | fabRgnt (k : FabPacket)
  /-- `RESERVATION_WINDOW_EXPIRY`: a reservation lapses (R428). -/
  | reservationWindowExpiry (p : Fin 16)
  /-- `FAB_MON`: a monitored peer line was written (R424). -/
  | fabMon (k : FabPacket)
  /-- `FAB_CTB`: a switch combines a contribution (R431). -/
  | fabCtb (k : FabPacket)
  /-- `FAB_CRS`: a result chunk arrives (R431). -/
  | fabCrs (k : FabPacket)
  /-- `FAB_CLOSED`: a closed-slot answer arrives (R434). -/
  | fabClosed (k : FabPacket)
  /-- `COLLECTIVE_SLOT_TIMEOUT`: a switch slot times out (R434). -/
  | collectiveSlotTimeout (slot : Nat)
  /-- `COLLECTIVE_SLOT_FREE`: a closed slot is freed (R434). -/
  | collectiveSlotFree (slot : Nat)
  /-- `FAB_WGT`: a weight message arrives (R424). -/
  | fabWgt (k : FabPacket)
  /-- `FAB_ERR`: an error answer arrives (R424). -/
  | fabErr (k : FabPacket)
  /-- `FBAR_ARRIVAL`: the barrier home performs an arrival (R439). -/
  | fbarArrival (i : Nat)
  /-- `FBAR_TIMEOUT`: a barrier instance times out (R441). -/
  | fbarTimeout (i : Nat)
  /-- `KEY_COMMAND_COMPLETE`: a key command completes (R456). -/
  | keyCommandComplete
  deriving DecidableEq, Repr

end Sys2Proof
end

