-- ==== Sys2Proof/WellFormed.lean ====
section
/-!
DEFINITION. Which instructions are legal encodings: the static checks of R55 to R62, R76, R168 to R172,
R202, R203, R216, R262 and R263, each refused under a name of its own. The checks that need the state
(features, streams, the extended block, queue bindings) stand in Sys2Proof/Machine.
-/

namespace Sys2Proof

/-- The classes of an operand slot (R168, R262, R263). -/
inductive Cls where
  | r | r64 | v | pair | p | s | q
  | grp (n : Nat)
  deriving DecidableEq, Repr

/-- The latency classes (R60). -/
inductive Lat where
  | fix (l : Nat)
  | var
  deriving DecidableEq, Repr

/-- The operands and static properties of a lane word (R170, R202, R216, R262). -/
structure LaneInfo where
  hdr : LaneHdr
  d : Option (Opd × Cls) := none
  a : Option (Src × Cls) := none
  b : Option (Src × Cls) := none
  c : Option (Src × Cls) := none
  lat : Lat
  /-- U-capable (R57) -/
  uni : Bool := true
  /-- a control word of R216 -/
  ctl : Bool := false
  /-- a control word that must be unguarded (R216) -/
  unguarded : Bool := false
  /-- must end its run (R58) -/
  ends : Bool := false
  /-- predicates that the modifier word names as destinations (R65) -/
  preds : List PReg := []
  /-- needs a token whatever its destination is (R262) -/
  token : Bool := false
  /-- its D and C registers are read and changed (R189) -/
  scale : Bool := false
  deriving DecidableEq, Repr

/-- Why an instruction is no legal encoding. Each of them is an ILLEGAL_OP of R76. -/
inductive IllForm where
  | slotClass       -- a name outside the slot's class (R55, R168)
  | twoImmediates   -- more than one slot replaced by X (R56)
  | queueTwice      -- one queue in two source slots (R55)
  | uniform         -- U where not allowed (R57)
  | tokenSeven      -- ST = 7 (R53)
  | varNeedsToken   -- a var word with a register destination and ST = 0 (R62)
  | runEnd          -- a control word with E = 0 (R58)
  | controlFields   -- S or ST of a control word not zero (R216)
  | guarded         -- a guard on an unguarded control word (R216)
  | modifier        -- a modifier value outside the accepted set
  | immediate       -- an immediate outside its range
  | unusedRegister  -- an unused register field that is not zero
  deriving DecidableEq, Repr

/-- A TY of 64 bits (R172). -/
def IntTy.wide : IntTy → Bool
  | .i64 | .n64 => true
  | .i32 | .n32 => false

/-- The class of a slot that is 64 bits wide when w holds. -/
def clsW (w : Bool) : Cls := if w then .r64 else .r

/-- A register operand as a source slot. -/
def slot (k : Cls) (o : Opd) : Option (Src × Cls) := some (.reg o, k)

/-- The registers a slot of the class names, from its first register. -/
def Cls.regs (k : Cls) (n : Nat) : List Nat :=
  match k with
  | .r64 | .pair => [n, n + 1]
  | .grp m => (List.range m).map (n + ·)
  | .r | .v | .p | .s | .q => [n]

/-- A register number that may begin a slot of the class (R24, R263). -/
def Cls.baseOk (k : Cls) (n : VReg) : Bool :=
  match k with
  | .r64 | .pair => n.val % 2 == 0
  | .grp m => n.val % m == 0 && n.val + m ≤ 192
  | .r | .v => true
  | .p | .s | .q => false

/-- A name that a source slot of the class accepts (R168, R262). -/
def srcOk (k : Cls) : Src → Bool
  | .imm _ => match k with
    | .r | .r64 => true
    | _ => false
  | .reg (.v n) => k.baseOk n
  | .reg (.q _) => k == .r
  | .reg (.p _) => k == .p
  | .reg (.s _) => k == .r || k == .r64 || k == .s
  | .reg .zero | .reg .laneid | .reg .gangid | .reg .crewid | .reg .gslot | .reg .coreid =>
    k == .r || k == .r64

/-- A name that a destination slot of the class accepts (R26, R168). -/
def dstOk (k : Cls) : Opd → Bool
  | .v n => k.baseOk n
  | .q _ => k == .r || k == .q
  | .p _ => k == .p
  | .zero => k == .r || k == .r64
  | .laneid | .gangid | .crewid | .gslot | .coreid | .s _ => false

/-- A width of 8, 16, 32 or 64 bits of a conversion type (R184). -/
def CvtTy.width : CvtTy → Nat
  | .f32 | .i32 | .n32 => 32
  | .f16 | .bf16 | .i16 | .n16 => 16
  | .e4m3 | .e5m2 | .i8 | .n8 => 8
  | .fx64 => 64

/-- A position within a lane register that the type has (R184). -/
def CvtTy.posOk (t : CvtTy) (pos : Fin 4) : Bool := t.width ≥ 32 && pos.val == 0
  || t.width == 16 && pos.val < 2 || t.width == 8

/-- The conversions that R184 accepts. -/
def CvtMod.ok (m : CvtMod) : Bool :=
  m.sty.posOk m.spos && m.dty.posOk m.dpos
  && (m.dty != .fx64 || m.sty == .f32) && (m.sty != .fx64 || m.dty == .f32)
  && (m.p.val == 0 || m.dty == .fx64 || m.sty == .fx64)

/-- The stochastic conversions that R186 accepts. -/
def CvtSrMod.ok (m : CvtSrMod) : Bool :=
  m.rbits.val ≤ 32 && match m.dty with
    | .f16 | .bf16 => m.dpos.val < 2
    | .e4m3 | .e5m2 => true

/-- A MemSize of 64 bits. -/
def MemSize.wide : MemSize → Bool
  | .b64 => true
  | .b8 | .b16 | .b32 => false

/-- The random operand of `qpack` (R189): read only under RM = 4. -/
def QRound.slot : QRound → Option (Src × Cls)
  | .fixed _ => none
  | .sr _ b => some (.reg b, .r)

/-- RBITS is at most 32 (R188). -/
def QRound.ok : QRound → Bool
  | .fixed _ => true
  | .sr r _ => r.val ≤ 32

def infoInt (h : LaneHdr) (w : Bool) (l4 l6 : Nat) (d a : Opd) (b : Src) : LaneInfo :=
  { hdr := h, d := some (d, clsW w), a := slot (clsW w) a, b := some (b, clsW w),
    lat := .fix (if w then l6 else l4) }

def infoShift (h : LaneHdr) (w : Bool) (d a : Opd) (b : Src) : LaneInfo :=
  { hdr := h, d := some (d, clsW w), a := slot (clsW w) a, b := some (b, .r),
    lat := .fix (if w then 6 else 4) }

def infoUn (h : LaneHdr) (l : Nat) (d a : Opd) : LaneInfo :=
  { hdr := h, d := some (d, .r), a := slot .r a, lat := .fix l }

def infoBin (h : LaneHdr) (l : Nat) (d a : Opd) (b : Src) : LaneInfo :=
  { hdr := h, d := some (d, .r), a := slot .r a, b := some (b, .r), lat := .fix l }

def infoTri (h : LaneHdr) (l : Nat) (d a : Opd) (b c : Src) : LaneInfo :=
  { hdr := h, d := some (d, .r), a := slot .r a, b := some (b, .r), c := some (c, .r), lat := .fix l }

def infoQpack (h : LaneHdr) (m : QPackMod) (d a c : VReg) : LaneInfo :=
  { hdr := h, d := some (.v d, .v), a := slot .v (.v a), b := m.rnd.slot, c := slot .v (.v c),
    lat := .fix 10, uni := false, scale := true }

def infoQunpack (h : LaneHdr) (d : Opd) (a c : VReg) : LaneInfo :=
  { hdr := h, d := some (d, .r), a := slot .v (.v a), c := slot .v (.v c), lat := .fix 4, uni := false }

def infoBxdot (h : LaneHdr) (d : Opd) (a b : VReg) (c : Opd) : LaneInfo :=
  { hdr := h, d := some (d, .r), a := slot .pair (.v a), b := slot .pair (.v b), c := slot .r c,
    lat := .fix 6, uni := false }

def infoCtl (h : LaneHdr) (unguarded : Bool) : LaneInfo :=
  { hdr := h, lat := .fix 4, uni := false, ctl := true, unguarded := unguarded, ends := true }

/-- The operands and static properties of a lane word; none for scalar words and events. -/
def Instr.laneInfo : Instr → Option LaneInfo
  | .iadd h ty _ d a b => some (infoInt h ty.wide 4 6 d a b)
  | .isub h ty _ d a b => some (infoInt h ty.wide 4 6 d a b)
  | .imul h ty _ d a b => some (infoInt h ty.wide 6 8 d a b)
  | .imad h ty _ d a b c => some { infoInt h ty.wide 6 8 d a b with c := some (c, clsW ty.wide) }
  | .imulh h _ d a b => some (infoBin h 6 d a b)
  | .idp4 h _ _ _ d a b c => some (infoTri h 6 d a b c)
  | .iabs h w _ d a =>
    some { hdr := h, d := some (d, clsW w), a := slot (clsW w) a, lat := .fix (if w then 6 else 4) }
  | .imin h ty d a b => some (infoInt h ty.wide 4 6 d a b)
  | .imax h ty d a b => some (infoInt h ty.wide 4 6 d a b)
  | .icmp h ty _ d a b => some { infoInt h ty.wide 4 6 .zero a b with d := some (.p d, .p) }
  | .isel h ty d a b c =>
    some { hdr := h, d := some (d, clsW ty.wide), a := some (a, clsW ty.wide),
           b := some (b, clsW ty.wide), c := slot .p (.p c), lat := .fix 4 }
  | .bool3 h _ d a b c =>
    some { hdr := h, d := some (d, .r), a := some (a, .r), b := some (b, .r), c := some (c, .r), lat := .fix 4 }
  | .popc h d a => some (infoUn h 4 d a)
  | .clz h d a => some (infoUn h 4 d a)
  | .brev h d a => some (infoUn h 4 d a)
  | .ishl h ty d a b => some (infoShift h ty.wide d a b)
  | .ishr h ty d a b => some (infoShift h ty.wide d a b)
  | .isra h ty d a b => some (infoShift h ty.wide d a b)
  | .ishf h _ d a b c => some (infoTri h 4 d a (.reg b) c)
  | .bfe h _ d a b => some (infoBin h 4 d a b)
  | .bfi h d a b c => some (infoTri h 4 d a (.reg b) c)
  | .fadd h _ _ d a b => some (infoBin h 6 d a b)
  | .fmul h _ _ d a b => some (infoBin h 6 d a b)
  | .ffma h _ _ d a b c => some (infoTri h 6 d a b c)
  | .fmin h _ d a b => some (infoBin h 4 d a b)
  | .fmax h _ d a b => some (infoBin h 4 d a b)
  | .fcmp h _ _ _ d a b => some { infoBin h 4 .zero a b with d := some (.p d, .p) }
  | .fclass h _ d a => some (infoUn h 4 d a)
  | .fscale h _ _ d a b => some (infoBin h 4 d a b)
  | .fdot2 h _ _ d a b c => some (infoTri h 6 d a (.reg b) (.reg c))
  | .frcp h d a => some (infoUn h 10 d a)
  | .frsq h d a => some (infoUn h 10 d a)
  | .fsqrt h d a => some (infoUn h 10 d a)
  | .fex2 h d a => some (infoUn h 10 d a)
  | .flg2 h d a => some (infoUn h 10 d a)
  | .fsin h d a => some (infoUn h 10 d a)
  | .fcos h d a => some (infoUn h 10 d a)
  | .cvt h m d a =>
    some { hdr := h, d := some (d, clsW (m.dty == .fx64)), a := slot (clsW (m.sty == .fx64)) a,
           lat := .fix (if m.dty == .fx64 || m.sty == .fx64 then 6 else 4) }
  | .cvtSr h _ d a b => some (infoBin h 6 d a (.reg b))
  | .hdm16 h d a => some { infoUn h 10 d (.v a) with a := slot .v (.v a), uni := false }
  | .hdm32 h d a => some { infoUn h 10 d (.v a) with a := slot .v (.v a), uni := false }
  | .qpackBx8 h m d a c => some (infoQpack h m d a c)
  | .qpackBx6 h m d a c => some (infoQpack h m d a c)
  | .qpackBx4 h m d a c => some (infoQpack h m d a c)
  | .qunpackBx8 h _ _ d a c => some (infoQunpack h d a c)
  | .qunpackBx6 h _ _ d a c => some (infoQunpack h d a c)
  | .qunpackBx4 h _ _ d a c => some (infoQunpack h d a c)
  | .bxdotBx8 h _ _ _ d a b c => some (infoBxdot h d a b c)
  | .bxdotBx6 h _ _ _ d a b c => some (infoBxdot h d a b c)
  | .bxdotBx4 h _ _ _ d a b c => some (infoBxdot h d a b c)
  | .mov h w d a => some { hdr := h, d := some (d, clsW w), a := slot (clsW w) a, lat := .fix 4 }
  | .movi h d x => some { hdr := h, d := some (d, .r), a := some (.imm x, .r), lat := .fix 4 }
  | .xlane h _ vp w d a b =>
    some { hdr := h, d := some (d, clsW w), a := slot (if w then .r64 else .v) a, b := some (b, .r),
           lat := .fix 6, uni := false, preds := [vp] }
  | .vote h m d a =>
    some { hdr := h, d := some (d, match m with
             | .and | .or | .same => .p
             | .mask | .count => .r),
           a := slot .p (.p a), lat := .fix 4, uni := false }
  | .rdlane h vp d a b =>
    some { hdr := h, d := some (d, .r), a := slot .v (.v a), b := some (b, .r), lat := .fix 6,
           uni := false, preds := [vp] }
  | .lscan h _ _ d a => some { hdr := h, d := some (d, .r), a := slot .v (.v a), lat := .fix 8, uni := false }
  | .cmp24 h ty d a =>
    some { hdr := h, d := some (.v d, .pair),
           a := slot (match ty with
             | .bf16 | .f16 => .pair
             | .e4m3 | .e5m2 => .v) (.v a), lat := .fix 6 }
  | .pset h _ d a b c =>
    some { hdr := h, d := some (.p d, .p), a := slot .p (.p a), b := slot .p (.p b), c := slot .p (.p c),
           lat := .fix 4 }
  | .pmov h _ d a =>
    some { hdr := h, d := some (d, match d with | .p _ => .p | _ => .r),
           a := slot (match a with | .p _ => .p | _ => .r) a, lat := .fix 4 }
  | .ld h _ sz _ d a b =>
    some { hdr := h, d := some (d, clsW sz.wide), a := slot .r64 a, b := slot .r b, lat := .var }
  | .st h _ sz a b c =>
    some { hdr := h, a := slot .r64 a, b := slot .r b, c := slot (clsW sz.wide) c, lat := .var, uni := false }
  | .ldR h _ _ _ w d a b =>
    some { hdr := h, d := some (d, clsW w), a := slot .r64 a, b := slot .r b, lat := .var }
  | .stR h _ _ _ w a b c =>
    some { hdr := h, a := slot .r64 a, b := slot .r b, c := slot (clsW w) c, lat := .var, uni := false }
  | .ldv h _ _ d a b c =>
    some { hdr := h, d := some (d, .r64), a := slot .r64 a, b := slot .r b, c := slot .r64 c, lat := .var }
  | .lds h _ sz _ d a b =>
    some { hdr := h, d := some (d, clsW sz.wide), a := slot .r a, b := slot .r b, lat := .var }
  | .sts h _ sz a b c =>
    some { hdr := h, a := slot .r a, b := slot .r b, c := slot (clsW sz.wide) c, lat := .var, uni := false }
  | .atom h _ op _ _ w d a b c =>
    some { hdr := h, d := some (d, clsW w), a := slot .r64 a,
           b := if op == .cas then slot (clsW w) b else none, c := slot (clsW w) c, lat := .var, uni := false }
  | .atomX h _ xf _ _ _ d a c =>
    some { hdr := h, d := some (d, .r64), a := slot .r64 a, c := slot (clsW (!xf)) c, lat := .var, uni := false }
  | .red h _ _ _ _ w a c =>
    some { hdr := h, a := slot .r64 a, c := slot (clsW w) c, lat := .var, uni := false }
  | .mwait h _ w a b c =>
    some { hdr := h, a := slot .r64 a, b := slot .r b, c := slot (clsW w) c, lat := .var, uni := false,
           ends := true }
  | .fence h _ _ => some { hdr := h, lat := .var, uni := false }
  | .bra h _ _ => some (infoCtl h false)
  | .braLoop h _ _ => some (infoCtl h true)
  | .brk h => some (infoCtl h false)
  | .cont h => some (infoCtl h false)
  | .join h => some (infoCtl h true)
  | .joinLatch h => some (infoCtl h true)
  | .call h _ => some (infoCtl h true)
  | .ret h => some (infoCtl h false)
  | .exit h => some (infoCtl h false)
  | .exitKill h => some (infoCtl h false)
  | .nap h _ => some (infoCtl h true)
  | .rgn h => some (infoCtl h true)
  | .gproj h d a b =>
    some { hdr := h, d := some (.q d, .q), a := slot .r a, b := slot .s (.s b), lat := .var, uni := false }
  | .pproj h d a b =>
    some { hdr := h, d := some (.q d, .q), a := slot .r a, b := slot .s (.s b), lat := .var, uni := false }
  | .geval h d a b =>
    some { hdr := h, d := some (.v d, .v), a := slot .r64 a, b := slot .r b, lat := .var, uni := false }
  | .gblend h vp d a b =>
    some { hdr := h, d := some (.v d, .grp 8), a := slot .r a, b := slot .r64 b, lat := .var, uni := false,
           preds := [vp] }
  | .gback h vp d a b c =>
    some { hdr := h, d := some (.v d, .grp 16), a := slot .r64 a, b := slot .r b, c := slot (.grp 16) (.v c),
           lat := .var, uni := false, preds := [vp] }
  | .gscat h _ _ _ a c =>
    some { hdr := h, a := slot .r64 a, c := slot (.grp 16) (.v c), lat := .var, uni := false }
  | .rgen h a b c =>
    some { hdr := h, a := slot .s (.s a), b := slot .r b, c := slot .r c, lat := .var, uni := false }
  | .trace h _ d a b c =>
    some { hdr := h, d := some (.q d, .q), a := slot .r a, b := slot .s (.s b), c := slot .r c, lat := .var,
           uni := false }
  | .rayld h _ w d a b =>
    some { hdr := h, d := some (d, clsW w), a := slot .s (.s a), b := slot .r b, lat := .var, uni := false,
           token := true }
  | .rayst h _ w a b c =>
    some { hdr := h, a := slot .s (.s a), b := slot .r b, c := slot (clsW w) c, lat := .var, uni := false }
  | .hitq h d a b =>
    some { hdr := h, d := some (.v d, .grp 4), a := slot .s (.s a), b := slot .r b, lat := .var, uni := false }
  | .rpush h d a =>
    some { hdr := h, d := some (d, .r), a := slot .s (.s a), lat := .var, uni := false, token := true }
  | .rpop h a b => some { hdr := h, a := slot .s (.s a), b := slot .r b, lat := .var, uni := false }
  | .fbw h _ _ a b c =>
    some { hdr := h, a := slot .r64 a, b := slot .r b, c := slot (.grp 4) (.v c), lat := .var, uni := false }
  | _ => none

/-- The slots A, B and C in order, with those that are used. -/
def LaneInfo.srcs (i : LaneInfo) : List (Src × Cls) := [i.a, i.b, i.c].filterMap id

/-- The queues that the source slots pop. -/
def LaneInfo.pops (i : LaneInfo) : List QReg :=
  i.srcs.filterMap fun x => match x.1 with
    | .reg (.q n) => some n
    | _ => none

/-- The queue that the destination slot pushes. -/
def LaneInfo.push (i : LaneInfo) : Option QReg :=
  match i.d with
  | some (.q n, _) => some n
  | _ => none

/-- How many slots hold the immediate X. -/
def LaneInfo.imms (i : LaneInfo) : Nat :=
  (i.srcs.filter fun x => match x.1 with
    | .imm _ => true
    | .reg _ => false).length

/-- A register or predicate destination, as R62 counts them: a queue register too, where the slot takes any register
(R202). -/
def LaneInfo.hasRegDst (i : LaneInfo) : Bool :=
  match i.d with
  | some (.v _, _) => true
  | some (.p _, _) => true
  | some (.q _, k) => k == .r
  | _ => false

/-- The static check of a lane word's slots and timing fields. -/
def LaneInfo.illForm (i : LaneInfo) : Option IllForm :=
  if !(i.srcs.all fun x => srcOk x.2 x.1) then some .slotClass
  else if !(match i.d with
    | some (o, k) => dstOk k o
    | none => true) then some .slotClass
  else if i.imms > 1 then some .twoImmediates
  else if !(decide i.pops.Nodup) then some .queueTwice
  else if i.hdr.u && !(i.uni && i.pops.isEmpty && i.push.isNone) then some .uniform
  else if i.hdr.st.val == 7 then some .tokenSeven
  else if i.lat == .var && (i.hasRegDst || i.token) && i.hdr.st.val == 0 then some .varNeedsToken
  else if i.ends && !i.hdr.e then some .runEnd
  else if i.ctl && (i.hdr.stall.val != 0 || i.hdr.st.val != 0) then some .controlFields
  else if i.unguarded && (i.hdr.gn || i.hdr.gp.val != 7) then some .guarded
  else none

/-- The checks of modifier and immediate values that are particular to one instruction. -/
def Instr.modOk : Instr → Option IllForm
  | .sshlImm _ _ i => if i.toNat < 64 then none else some .immediate
  | .sshrImm _ _ i => if i.toNat < 64 then none else some .immediate
  | .ssraImm _ _ i => if i.toNat < 64 then none else some .immediate
  | .sloop _ n => if n.toNat != 0 && n.toNat < 4096 then none else some .immediate
  | .sldLong sz sgn _ _ _ => if sgn && sz == .n64 then some .modifier else none
  | .bthSet _ b t => if t != .full && b.val != 0 then some .unusedRegister else none
  | .mmaBf16 m d _ _ _ => if !m.g && d.val != 0 then some .unusedRegister else none
  | .mmaF16 m d _ _ _ => if !m.g && d.val != 0 then some .unusedRegister else none
  | .mmaE4m3 m d _ _ _ => if !m.g && d.val != 0 then some .unusedRegister else none
  | .mmaE5m2 m d _ _ _ => if !m.g && d.val != 0 then some .unusedRegister else none
  | .mmaBx8 m d _ _ _ => if !m.g && d.val != 0 then some .unusedRegister else none
  | .mmaBx6 m d _ _ _ => if !m.g && d.val != 0 then some .unusedRegister else none
  | .mmaBx4 m d _ _ _ => if !m.g && d.val != 0 then some .unusedRegister else none
  | .mmaLut4 m d _ _ _ => if !m.g && d.val != 0 then some .unusedRegister else none
  | .mmaI8 m d _ _ _ => if !m.g && d.val != 0 then some .unusedRegister else none
  | .accSt f rm sat _ _ _ _ b =>
    if f == .raw && (rm != .rne || sat) then some .modifier
    else if rm != .sr && b.val != 0 then some .unusedRegister else none
  | .fadd _ _ m _ _ _ => if m.nc then some .modifier else none
  | .fmul _ _ m _ _ _ => if m.nc then some .modifier else none
  | .fcmp _ pg _ hi _ _ _ => if hi && pg == .f32 then some .modifier else none
  | .cvt _ m _ _ => if m.ok then none else some .modifier
  | .cvtSr _ m _ _ _ => if m.ok then none else some .modifier
  | .qpackBx8 _ m _ _ _ => if m.rnd.ok then none else some .modifier
  | .qpackBx6 _ m _ _ _ => if m.rnd.ok then none else some .modifier
  | .qpackBx4 _ m _ _ _ => if m.rnd.ok then none else some .modifier
  | .pmov _ mask d a => match d, a with
    | .p _, .p _ => if mask then some .modifier else none
    | .p _, _ => none
    | _, .p _ => if mask then some .modifier else none
    | _, _ => some .slotClass
  | .ld _ _ sz sgn _ _ _ => if sgn && sz != .b8 && sz != .b16 then some .modifier else none
  | .lds _ _ sz sgn _ _ _ => if sgn && sz != .b8 && sz != .b16 then some .modifier else none
  | .atom _ _ op _ _ w _ _ b _ =>
    if w && (op == .fadd || op == .fmin || op == .fmax) then some .modifier
    else if op != .cas && b != .v 0 then some .unusedRegister else none
  | .red _ _ op _ _ w _ _ =>
    if w && (op == .fadd || op == .fmin || op == .fmax) then some .modifier else none
  | .nap _ n => if n.toNat == 0 then some .immediate else none
  | .gscat _ tm fx p _ _ =>
    if tm.toNat == 0 || (!fx && p.val != 0) then some .modifier else none
  | _ => none

/-- The first static check that an instruction fails. -/
def Instr.illForm (i : Instr) : Option IllForm :=
  match i.laneInfo with
  | some li => match li.illForm with
    | some e => some e
    | none => i.modOk
  | none => i.modOk

/-- A legal encoding, as far as the word alone decides it (R76). -/
def Instr.wf (i : Instr) : Bool := i.illForm.isNone

end Sys2Proof
end

