-- ==== Sys2Proof/Decode.lean ====
section
/-!
DEFINITION. The encodings of chapter 02 and of the encoding tables of chapters 05 to 09: a decoder, total on
any bytes, which refuses by name, and after it the encoder. A refused word is an ILLEGAL_OP (R76).
-/

namespace Sys2Proof

/-- Why the decoder refuses a word (R76). -/
inductive DecErr where
  | unassignedOpcode   -- an unassigned scalar opcode, lane cell or row
  | unassignedFunc     -- an unassigned func of a group
  | reservedValue      -- a reserved value of a field
  | reservedField      -- a reserved or unused field that is not zero
  | operandName        -- a name R55 refuses
  | page               -- page and cell not accepted (R73)
  | immediateForm      -- an F value not permitted (R56)
  | illFormed (e : IllForm)
  deriving DecidableEq, Repr

abbrev Dec := Except DecErr

/-- Bits [lo + n - 1 : lo] of a word. -/
def fld (w lo n : Nat) : Nat := w / 2 ^ lo % 2 ^ n

/-- A one-bit field. -/
def flag (w lo : Nat) : Bool := fld w lo 1 == 1

/-- A bit as a number. -/
def bit (b : Bool) : Nat := if b then 1 else 0

/-- Refuses a reserved or unused field that is not zero (R76). -/
def zeroed (x : Nat) : Dec Unit := if x = 0 then .ok () else .error .reservedField

/-- The code of a FenceOrder field (R141, R215). -/
def FenceOrder.code : FenceOrder → Nat
  | .acq => 1
  | .rel => 2
  | .acqrel => 3

/-- The FenceOrder a code stands for (R141, R215). -/
def FenceOrder.ofCode : Nat → Dec FenceOrder
  | 1 => .ok .acq
  | 2 => .ok .rel
  | 3 => .ok .acqrel
  | _ => .error .reservedValue

theorem FenceOrder.ofCode_code (x : FenceOrder) : FenceOrder.ofCode x.code = .ok x := by cases x <;> rfl

/-- The code of a BerthTarget field (R35, R150). -/
def BerthTarget.code : BerthTarget → Nat
  | .filling => 1
  | .full => 2
  | .draining => 3

/-- The BerthTarget a code stands for (R35, R150). -/
def BerthTarget.ofCode : Nat → Dec BerthTarget
  | 1 => .ok .filling
  | 2 => .ok .full
  | 3 => .ok .draining
  | _ => .error .reservedValue

theorem BerthTarget.ofCode_code (x : BerthTarget) : BerthTarget.ofCode x.code = .ok x := by cases x <;> rfl

/-- The code of a MfenceScope field (R257). -/
def MfenceScope.code : MfenceScope → Nat
  | .cluster => 1
  | .device => 2

/-- The MfenceScope a code stands for (R257). -/
def MfenceScope.ofCode : Nat → Dec MfenceScope
  | 1 => .ok .cluster
  | 2 => .ok .device
  | _ => .error .reservedValue

theorem MfenceScope.ofCode_code (x : MfenceScope) : MfenceScope.ofCode x.code = .ok x := by cases x <;> rfl

/-- The code of a RedOp field (R212). -/
def RedOp.code : RedOp → Nat
  | .add => 0
  | .and => 1
  | .or => 2
  | .xor => 3
  | .min => 4
  | .max => 5
  | .minu => 6
  | .maxu => 7
  | .fadd => 10
  | .fmin => 11
  | .fmax => 12

/-- The RedOp a code stands for (R212). -/
def RedOp.ofCode : Nat → Dec RedOp
  | 0 => .ok .add
  | 1 => .ok .and
  | 2 => .ok .or
  | 3 => .ok .xor
  | 4 => .ok .min
  | 5 => .ok .max
  | 6 => .ok .minu
  | 7 => .ok .maxu
  | 10 => .ok .fadd
  | 11 => .ok .fmin
  | 12 => .ok .fmax
  | _ => .error .reservedValue

theorem RedOp.ofCode_code (x : RedOp) : RedOp.ofCode x.code = .ok x := by cases x <;> rfl

/-- The code of a SrTy field (R186). -/
def SrTy.code : SrTy → Nat
  | .f16 => 1
  | .bf16 => 2
  | .e4m3 => 3
  | .e5m2 => 4

/-- The SrTy a code stands for (R186). -/
def SrTy.ofCode : Nat → Dec SrTy
  | 1 => .ok .f16
  | 2 => .ok .bf16
  | 3 => .ok .e4m3
  | 4 => .ok .e5m2
  | _ => .error .reservedValue

theorem SrTy.ofCode_code (x : SrTy) : SrTy.ofCode x.code = .ok x := by cases x <;> rfl

/-- The code of a Cond field (R132, R176). -/
def Cond.code : Cond → Nat
  | .eq => 0
  | .ne => 1
  | .lt => 2
  | .le => 3
  | .gt => 4
  | .ge => 5
  | .tst => 6

/-- The Cond a code stands for (R132, R176). -/
def Cond.ofCode : Nat → Dec Cond
  | 0 => .ok .eq
  | 1 => .ok .ne
  | 2 => .ok .lt
  | 3 => .ok .le
  | 4 => .ok .gt
  | 5 => .ok .ge
  | 6 => .ok .tst
  | _ => .error .reservedValue

theorem Cond.ofCode_code (x : Cond) : Cond.ofCode x.code = .ok x := by cases x <;> rfl

/-- The code of a Scope field (R139, R203). -/
def Scope.code : Scope → Nat
  | .crew => 0
  | .cluster => 1
  | .device => 2
  | .fabric => 3

/-- The Scope a code stands for (R139, R203). -/
def Scope.ofCode : Nat → Dec Scope
  | 0 => .ok .crew
  | 1 => .ok .cluster
  | 2 => .ok .device
  | 3 => .ok .fabric
  | _ => .error .reservedValue

theorem Scope.ofCode_code (x : Scope) : Scope.ofCode x.code = .ok x := by cases x <;> rfl

/-- The code of a Order field (R140, R203). -/
def Order.code : Order → Nat
  | .relaxed => 0
  | .acq => 1
  | .rel => 2
  | .acqrel => 3

/-- The Order a code stands for (R140, R203). -/
def Order.ofCode : Nat → Dec Order
  | 0 => .ok .relaxed
  | 1 => .ok .acq
  | 2 => .ok .rel
  | 3 => .ok .acqrel
  | _ => .error .reservedValue

theorem Order.ofCode_code (x : Order) : Order.ofCode x.code = .ok x := by cases x <;> rfl

/-- The code of a WaitCond field (R142). -/
def WaitCond.code : WaitCond → Nat
  | .ne => 0
  | .eq => 1
  | .geu => 2
  | .ltu => 3
  | .ge => 4
  | .lt => 5

/-- The WaitCond a code stands for (R142). -/
def WaitCond.ofCode : Nat → Dec WaitCond
  | 0 => .ok .ne
  | 1 => .ok .eq
  | 2 => .ok .geu
  | 3 => .ok .ltu
  | 4 => .ok .ge
  | 5 => .ok .lt
  | _ => .error .reservedValue

theorem WaitCond.ofCode_code (x : WaitCond) : WaitCond.ofCode x.code = .ok x := by cases x <;> rfl

/-- The code of a ScalarSize field (R138). -/
def ScalarSize.code : ScalarSize → Nat
  | .n64 => 0
  | .n32 => 1
  | .n16 => 2
  | .n8 => 3

/-- The ScalarSize a code stands for (R138). -/
def ScalarSize.ofCode : Nat → Dec ScalarSize
  | 0 => .ok .n64
  | 1 => .ok .n32
  | 2 => .ok .n16
  | 3 => .ok .n8
  | _ => .error .reservedValue

theorem ScalarSize.ofCode_code (x : ScalarSize) : ScalarSize.ofCode x.code = .ok x := by cases x <;> rfl

/-- The code of a SAtomOp field (R140). -/
def SAtomOp.code : SAtomOp → Nat
  | .add => 0
  | .and => 1
  | .or => 2
  | .xor => 3
  | .min => 4
  | .max => 5
  | .minu => 6
  | .maxu => 7
  | .exch => 8
  | .cas => 9

/-- The SAtomOp a code stands for (R140). -/
def SAtomOp.ofCode : Nat → Dec SAtomOp
  | 0 => .ok .add
  | 1 => .ok .and
  | 2 => .ok .or
  | 3 => .ok .xor
  | 4 => .ok .min
  | 5 => .ok .max
  | 6 => .ok .minu
  | 7 => .ok .maxu
  | 8 => .ok .exch
  | 9 => .ok .cas
  | _ => .error .reservedValue

theorem SAtomOp.ofCode_code (x : SAtomOp) : SAtomOp.ofCode x.code = .ok x := by cases x <;> rfl

/-- The code of a AtomOp field (R210). -/
def AtomOp.code : AtomOp → Nat
  | .add => 0
  | .and => 1
  | .or => 2
  | .xor => 3
  | .min => 4
  | .max => 5
  | .minu => 6
  | .maxu => 7
  | .exch => 8
  | .cas => 9
  | .fadd => 10
  | .fmin => 11
  | .fmax => 12

/-- The AtomOp a code stands for (R210). -/
def AtomOp.ofCode : Nat → Dec AtomOp
  | 0 => .ok .add
  | 1 => .ok .and
  | 2 => .ok .or
  | 3 => .ok .xor
  | 4 => .ok .min
  | 5 => .ok .max
  | 6 => .ok .minu
  | 7 => .ok .maxu
  | 8 => .ok .exch
  | 9 => .ok .cas
  | 10 => .ok .fadd
  | 11 => .ok .fmin
  | 12 => .ok .fmax
  | _ => .error .reservedValue

theorem AtomOp.ofCode_code (x : AtomOp) : AtomOp.ofCode x.code = .ok x := by cases x <;> rfl

/-- The code of a DrainPath field (R156). -/
def DrainPath.code : DrainPath → Nat
  | .inward => 0
  | .outward => 1
  | .peer => 2
  | .fabric => 3
  | .tun => 4

/-- The DrainPath a code stands for (R156). -/
def DrainPath.ofCode : Nat → Dec DrainPath
  | 0 => .ok .inward
  | 1 => .ok .outward
  | 2 => .ok .peer
  | 3 => .ok .fabric
  | 4 => .ok .tun
  | _ => .error .reservedValue

theorem DrainPath.ofCode_code (x : DrainPath) : DrainPath.ofCode x.code = .ok x := by cases x <;> rfl

/-- The code of a Hadamard field (R188, R233). -/
def Hadamard.code : Hadamard → Nat
  | .none => 0
  | .hd16 => 1
  | .hd32 => 2

/-- The Hadamard a code stands for (R188, R233). -/
def Hadamard.ofCode : Nat → Dec Hadamard
  | 0 => .ok .none
  | 1 => .ok .hd16
  | 2 => .ok .hd32
  | _ => .error .reservedValue

theorem Hadamard.ofCode_code (x : Hadamard) : Hadamard.ofCode x.code = .ok x := by cases x <;> rfl

/-- The code of a AccFmt field (R253). -/
def AccFmt.code : AccFmt → Nat
  | .raw => 0
  | .f32 => 1
  | .bf16 => 2
  | .e4m3 => 3
  | .e5m2 => 4
  | .bx8 => 5
  | .bx6 => 6
  | .bx4 => 7

/-- The AccFmt a code stands for (R253). -/
def AccFmt.ofCode : Nat → Dec AccFmt
  | 0 => .ok .raw
  | 1 => .ok .f32
  | 2 => .ok .bf16
  | 3 => .ok .e4m3
  | 4 => .ok .e5m2
  | 5 => .ok .bx8
  | 6 => .ok .bx6
  | 7 => .ok .bx4
  | _ => .error .reservedValue

theorem AccFmt.ofCode_code (x : AccFmt) : AccFmt.ofCode x.code = .ok x := by cases x <;> rfl

/-- The code of a Rm field (R100). -/
def Rm.code : Rm → Nat
  | .rne => 0
  | .rz => 1
  | .rd => 2
  | .ru => 3

/-- The Rm a code stands for (R100). -/
def Rm.ofCode : Nat → Dec Rm
  | 0 => .ok .rne
  | 1 => .ok .rz
  | 2 => .ok .rd
  | 3 => .ok .ru
  | _ => .error .reservedValue

theorem Rm.ofCode_code (x : Rm) : Rm.ofCode x.code = .ok x := by cases x <;> rfl

/-- The code of a RmSr field (R100). -/
def RmSr.code : RmSr → Nat
  | .rne => 0
  | .rz => 1
  | .rd => 2
  | .ru => 3
  | .sr => 4

/-- The RmSr a code stands for (R100). -/
def RmSr.ofCode : Nat → Dec RmSr
  | 0 => .ok .rne
  | 1 => .ok .rz
  | 2 => .ok .rd
  | 3 => .ok .ru
  | 4 => .ok .sr
  | _ => .error .reservedValue

theorem RmSr.ofCode_code (x : RmSr) : RmSr.ofCode x.code = .ok x := by cases x <;> rfl

/-- The code of a IntTy field (R172). -/
def IntTy.code : IntTy → Nat
  | .i32 => 0
  | .n32 => 1
  | .i64 => 2
  | .n64 => 3

/-- The IntTy a code stands for (R172). -/
def IntTy.ofCode : Nat → Dec IntTy
  | 0 => .ok .i32
  | 1 => .ok .n32
  | 2 => .ok .i64
  | 3 => .ok .n64
  | _ => .error .reservedValue

theorem IntTy.ofCode_code (x : IntTy) : IntTy.ofCode x.code = .ok x := by cases x <;> rfl

/-- The code of a Page field (R73). -/
def Page.code : Page → Nat
  | .f32 => 0
  | .f16 => 1
  | .bf16 => 2

/-- The Page a code stands for (R73). -/
def Page.ofCode : Nat → Dec Page
  | 0 => .ok .f32
  | 1 => .ok .f16
  | 2 => .ok .bf16
  | _ => .error .reservedValue

theorem Page.ofCode_code (x : Page) : Page.ofCode x.code = .ok x := by cases x <;> rfl

/-- The code of a FCond field (R180). -/
def FCond.code : FCond → Nat
  | .eq => 0
  | .ne => 1
  | .lt => 2
  | .le => 3
  | .gt => 4
  | .ge => 5
  | .num => 6
  | .nan => 7

/-- The FCond a code stands for (R180). -/
def FCond.ofCode : Nat → Dec FCond
  | 0 => .ok .eq
  | 1 => .ok .ne
  | 2 => .ok .lt
  | 3 => .ok .le
  | 4 => .ok .gt
  | 5 => .ok .ge
  | 6 => .ok .num
  | 7 => .ok .nan
  | _ => .error .reservedValue

theorem FCond.ofCode_code (x : FCond) : FCond.ofCode x.code = .ok x := by cases x <;> rfl

/-- The code of a CvtTy field (R184). -/
def CvtTy.code : CvtTy → Nat
  | .f32 => 0
  | .f16 => 1
  | .bf16 => 2
  | .e4m3 => 3
  | .e5m2 => 4
  | .i32 => 5
  | .n32 => 6
  | .i16 => 7
  | .n16 => 8
  | .i8 => 9
  | .n8 => 10
  | .fx64 => 11

/-- The CvtTy a code stands for (R184). -/
def CvtTy.ofCode : Nat → Dec CvtTy
  | 0 => .ok .f32
  | 1 => .ok .f16
  | 2 => .ok .bf16
  | 3 => .ok .e4m3
  | 4 => .ok .e5m2
  | 5 => .ok .i32
  | 6 => .ok .n32
  | 7 => .ok .i16
  | 8 => .ok .n16
  | 9 => .ok .i8
  | 10 => .ok .n8
  | 11 => .ok .fx64
  | _ => .error .reservedValue

theorem CvtTy.ofCode_code (x : CvtTy) : CvtTy.ofCode x.code = .ok x := by cases x <;> rfl

/-- The code of a XMode field (R194). -/
def XMode.code : XMode → Nat
  | .abs => 0
  | .rel => 1
  | .xor => 2
  | .rot => 3

/-- The XMode a code stands for (R194). -/
def XMode.ofCode : Nat → Dec XMode
  | 0 => .ok .abs
  | 1 => .ok .rel
  | 2 => .ok .xor
  | 3 => .ok .rot
  | _ => .error .reservedValue

theorem XMode.ofCode_code (x : XMode) : XMode.ofCode x.code = .ok x := by cases x <;> rfl

/-- The code of a VoteMode field (R196). -/
def VoteMode.code : VoteMode → Nat
  | .and => 0
  | .or => 1
  | .same => 2
  | .mask => 3
  | .count => 4

/-- The VoteMode a code stands for (R196). -/
def VoteMode.ofCode : Nat → Dec VoteMode
  | 0 => .ok .and
  | 1 => .ok .or
  | 2 => .ok .same
  | 3 => .ok .mask
  | 4 => .ok .count
  | _ => .error .reservedValue

theorem VoteMode.ofCode_code (x : VoteMode) : VoteMode.ofCode x.code = .ok x := by cases x <;> rfl

/-- The code of a ScanOp field (R197). -/
def ScanOp.code : ScanOp → Nat
  | .addI32 => 0
  | .addF32 => 1
  | .minI32 => 2
  | .maxI32 => 3
  | .minN32 => 4
  | .maxN32 => 5
  | .minF32 => 6
  | .maxF32 => 7

/-- The ScanOp a code stands for (R197). -/
def ScanOp.ofCode : Nat → Dec ScanOp
  | 0 => .ok .addI32
  | 1 => .ok .addF32
  | 2 => .ok .minI32
  | 3 => .ok .maxI32
  | 4 => .ok .minN32
  | 5 => .ok .maxN32
  | 6 => .ok .minF32
  | 7 => .ok .maxF32
  | _ => .error .reservedValue

theorem ScanOp.ofCode_code (x : ScanOp) : ScanOp.ofCode x.code = .ok x := by cases x <;> rfl

/-- The code of a Cmp24Ty field (R198). -/
def Cmp24Ty.code : Cmp24Ty → Nat
  | .bf16 => 0
  | .f16 => 1
  | .e4m3 => 2
  | .e5m2 => 3

/-- The Cmp24Ty a code stands for (R198). -/
def Cmp24Ty.ofCode : Nat → Dec Cmp24Ty
  | 0 => .ok .bf16
  | 1 => .ok .f16
  | 2 => .ok .e4m3
  | 3 => .ok .e5m2
  | _ => .error .reservedValue

theorem Cmp24Ty.ofCode_code (x : Cmp24Ty) : Cmp24Ty.ofCode x.code = .ok x := by cases x <;> rfl

/-- The code of a MemSize field (R203). -/
def MemSize.code : MemSize → Nat
  | .b8 => 0
  | .b16 => 1
  | .b32 => 2
  | .b64 => 3

/-- The MemSize a code stands for (R203). -/
def MemSize.ofCode : Nat → Dec MemSize
  | 0 => .ok .b8
  | 1 => .ok .b16
  | 2 => .ok .b32
  | 3 => .ok .b64
  | _ => .error .reservedValue

theorem MemSize.ofCode_code (x : MemSize) : MemSize.ofCode x.code = .ok x := by cases x <;> rfl

/-- The code of a PixelFmt field (R285). -/
def PixelFmt.code : PixelFmt → Nat
  | .rgba8 => 0
  | .rgba16f => 1
  | .rgba32f => 2

/-- The PixelFmt a code stands for (R285). -/
def PixelFmt.ofCode : Nat → Dec PixelFmt
  | 0 => .ok .rgba8
  | 1 => .ok .rgba16f
  | 2 => .ok .rgba32f
  | _ => .error .reservedValue

theorem PixelFmt.ofCode_code (x : PixelFmt) : PixelFmt.ofCode x.code = .ok x := by cases x <;> rfl
/-! ## Operand names (R26, R55) -/

/-- The name code of an operand. -/
def Opd.code : Opd → Nat
  | .v n => n.val
  | .q n => 0xC0 + n.val
  | .p n => 0xD0 + n.val
  | .zero => 0xD8
  | .laneid => 0xD9
  | .gangid => 0xDA
  | .crewid => 0xDB
  | .gslot => 0xDC
  | .coreid => 0xDD
  | .s n => 0xE0 + n.val

/-- The operand a name code stands for; 0xDE and 0xDF are reserved. -/
def Opd.ofCode (c : Nat) : Dec Opd :=
  if c < 0xC0 then .ok (.v (Fin.ofNat 192 c))
  else if c < 0xD0 then .ok (.q (Fin.ofNat 16 (c - 0xC0)))
  else if c < 0xD8 then .ok (.p (Fin.ofNat 8 (c - 0xD0)))
  else if c = 0xD8 then .ok .zero
  else if c = 0xD9 then .ok .laneid
  else if c = 0xDA then .ok .gangid
  else if c = 0xDB then .ok .crewid
  else if c = 0xDC then .ok .gslot
  else if c = 0xDD then .ok .coreid
  else if c < 0xE0 then .error .operandName
  else if c < 0x100 then .ok (.s (Fin.ofNat 32 (c - 0xE0)))
  else .error .operandName

theorem Opd.ofCode_code (o : Opd) : Opd.ofCode o.code = .ok o := by
  cases o with
  | v n => have := n.isLt; simp [code, ofCode, this]
  | q n =>
    have := n.isLt
    simp [code, ofCode, show 192 + n.val < 208 by omega]
  | p n =>
    have := n.isLt
    simp [code, ofCode, show ¬ 208 + n.val < 192 by omega, show ¬ 208 + n.val < 208 by omega,
      show 208 + n.val < 216 by omega]
  | s n =>
    have := n.isLt
    simp [code, ofCode, show ¬ 224 + n.val < 192 by omega, show ¬ 224 + n.val < 208 by omega,
      show ¬ 224 + n.val < 216 by omega, show ¬ 224 + n.val = 216 by omega,
      show ¬ 224 + n.val = 217 by omega, show ¬ 224 + n.val = 218 by omega,
      show ¬ 224 + n.val = 219 by omega, show ¬ 224 + n.val = 220 by omega,
      show ¬ 224 + n.val = 221 by omega, show ¬ 224 + n.val < 224 by omega,
      show 224 + n.val < 256 by omega]
  | zero => rfl
  | laneid => rfl
  | gangid => rfl
  | crewid => rfl
  | gslot => rfl
  | coreid => rfl

theorem Opd.code_lt (o : Opd) : o.code < 256 := by
  cases o <;> simp [code] <;> omega

/-- A name that must be a lane register. -/
def vregOf (c : Nat) : Dec VReg :=
  if c < 192 then .ok (Fin.ofNat 192 c) else .error .operandName

/-- A name that must be a predicate. -/
def pregOf (c : Nat) : Dec PReg :=
  if 0xD0 ≤ c ∧ c < 0xD8 then .ok (Fin.ofNat 8 (c - 0xD0)) else .error .operandName

/-- A name that must be a queue register. -/
def qregOf (c : Nat) : Dec QReg :=
  if 0xC0 ≤ c ∧ c < 0xD0 then .ok (Fin.ofNat 16 (c - 0xC0)) else .error .operandName

/-- A name that must be one of s0 to s31. -/
def sregOf (c : Nat) : Dec (Fin 32) :=
  if 0xE0 ≤ c ∧ c < 0x100 then .ok (Fin.ofNat 32 (c - 0xE0)) else .error .operandName

/-! ## Scalar words (R48 to R51, R69 to R71) -/

/-- The scalar register field at a bit position. -/
def sreg (w lo : Nat) : SReg := Fin.ofNat 64 (fld w lo 6)

/-- The accumulator selector in the low 12 bits of word 1 (R232). -/
def accSel (w : Nat) : AccSel :=
  { core := Fin.ofNat 4 (fld w 10 2), slot := Fin.ofNat 32 (fld w 5 5), tile := Fin.ofNat 32 (fld w 0 5) }

/-- The ALU group, opcode 0x01 (R70). -/
def decodeAlu (w : Nat) : Dec Instr := do
  let d := sreg w 19
  let a := sreg w 13
  let b := sreg w 7
  let n := flag w 6
  let noN (i : Instr) : Dec Instr := if n then .error .reservedField else .ok i
  let noB (i : Instr) : Dec Instr := do zeroed (fld w 7 6); noN i
  match fld w 0 6 with
  | 0x00 => noN (.sadd d a b)
  | 0x01 => noN (.ssub d a b)
  | 0x02 => noN (.smul d a b)
  | 0x03 => .ok (.smulh n d a b)
  | 0x04 => .ok (.sdiv n d a b)
  | 0x05 => .ok (.smin n d a b)
  | 0x06 => .ok (.smax n d a b)
  | 0x07 => noN (.sand d a b)
  | 0x08 => noN (.sor d a b)
  | 0x09 => noN (.sxor d a b)
  | 0x0A => noN (.sshl d a b)
  | 0x0B => noN (.sshr d a b)
  | 0x0C => noN (.ssra d a b)
  | 0x0D => noB (.sclz d a)
  | 0x0E => noB (.spopc d a)
  | 0x0F => noB (.smov d a)
  | 0x10 => do
    zeroed (fld w 21 1)
    let c ← Cond.ofCode (fld w 22 3)
    .ok (.scmp c n (Fin.ofNat 4 (fld w 19 2)) a b)
  | 0x11 => noN (.ssel d a b)
  | 0x12 => noN (.slea d a b)
  | _ => .error .unassignedFunc

/-- The simm group, opcode 0x7B (R71). -/
def decodeSimm (w w1 : Nat) : Dec Instr := do
  zeroed (fld w 7 6)
  zeroed (fld w 3 4)
  let d := sreg w 19
  let a := sreg w 13
  let i := BitVec.ofNat 32 w1
  match fld w 0 3 with
  | 0 => do zeroed (fld w 13 6); .ok (.smoviLong d i)
  | 1 => do zeroed (fld w 13 6); .ok (.smovhLong d i)
  | 2 => .ok (.saddLong d a i)
  | 3 => .ok (.sandLong d a i)
  | 4 => .ok (.sorLong d a i)
  | 5 => .ok (.sxorLong d a i)
  | _ => .error .unassignedFunc

/-- The smem group, opcode 0x7C (R71, R138 to R140). -/
def decodeSmem (w w1 : Nat) : Dec Instr := do
  let d := sreg w 19
  let a := sreg w 13
  let b := sreg w 7
  let i := BitVec.ofNat 32 w1
  match fld w 0 3 with
  | 0 => do
    zeroed (fld w 7 6)
    zeroed (fld w 3 1)
    let sz ← ScalarSize.ofCode (fld w 5 2)
    .ok (.sldLong sz (flag w 4) d a i)
  | 1 => do
    zeroed (fld w 7 6)
    zeroed (fld w 3 2)
    let sz ← ScalarSize.ofCode (fld w 5 2)
    .ok (.sstLong sz d a i)
  | 2 => do
    zeroed (fld w 5 2)
    let sc ← Scope.ofCode (fld w 3 2)
    .ok (.sldv sc d a b i)
  | 3 => do
    zeroed (fld w1 24 4)
    let op ← SAtomOp.ofCode (fld w 3 4)
    let o ← Order.ofCode (fld w1 28 2)
    let sc ← Scope.ofCode (fld w1 30 2)
    .ok (.satom op o sc d a b (BitVec.ofNat 24 w1))
  | _ => .error .unassignedFunc

/-- The acc group, opcode 0x79 (R71, R250, R251). -/
def decodeAcc (w w1 : Nat) : Dec Instr := do
  zeroed (fld w 3 4)
  let d := sreg w 19
  let a := sreg w 13
  let b := sreg w 7
  let t := accSel w1
  let row : Fin 64 := Fin.ofNat 64 (fld w1 12 6)
  let n : Fin 64 := Fin.ofNat 64 (fld w1 18 6)
  match fld w 0 3 with
  | 0 => do zeroed (fld w 7 18); zeroed (fld w1 24 8); .ok (.accClr t row n)
  | 1 => do zeroed (fld w 19 6); zeroed (fld w 7 6); zeroed (fld w1 24 8); .ok (.accLd t row n a)
  | 2 => do
    zeroed (fld w 19 6)
    let f ← AccFmt.ofCode (fld w1 24 4)
    let rm ← RmSr.ofCode (fld w1 28 3)
    .ok (.accSt f rm (flag w1 31) t row n a b)
  | 3 => do zeroed (fld w 19 6); zeroed (fld w 7 6); zeroed (fld w1 24 8); .ok (.accAdd t row n a)
  | 4 => do zeroed (fld w 19 6); zeroed (fld w 7 6); zeroed (fld w1 24 8); .ok (.accRenorm t row n a)
  | 5 => do
    zeroed (fld w 7 12)
    zeroed (fld w1 19 13)
    .ok (.accHdr (flag w1 18) d t row)
  | 6 => do zeroed (fld w 19 6); zeroed (fld w 7 6); zeroed (fld w1 24 8); .ok (.accScale t row n a)
  | _ => .error .unassignedFunc

/-- The mctl group, opcode 0x7A (R71, R257). -/
def decodeMctl (w w1 : Nat) : Dec Instr := do
  zeroed (fld w 3 4)
  let d := sreg w 19
  let a := sreg w 13
  match fld w 0 3 with
  | 0 => do
    zeroed (fld w 19 6); zeroed (fld w 7 6); zeroed (fld w1 4 28)
    .ok (.ctabW (Fin.ofNat 4 (fld w1 2 2)) (Fin.ofNat 4 (fld w1 0 2)) a)
  | 1 => do zeroed (fld w 7 18); zeroed (fld w1 6 26); .ok (.mwt (Fin.ofNat 64 (fld w1 0 6)))
  | 2 => do
    zeroed (fld w 7 18); zeroed (fld w1 2 30)
    let sc ← MfenceScope.ofCode (fld w1 0 2)
    .ok (.mfence sc)
  | 3 => do zeroed (fld w 7 6); zeroed w1; .ok (.mbxTake d a)
  | 4 => do
    zeroed (fld w 19 6); zeroed (fld w 7 6); zeroed (fld w1 5 27)
    .ok (.rqSend (Fin.ofNat 32 (fld w1 0 5)) a)
  | _ => .error .unassignedFunc

/-- An MMA word, opcodes 0x70 to 0x78 (R233). -/
def decodeMma (w w1 : Nat) (k : MmaMod → SReg → SReg → SReg → AccSel → Instr) : Dec Instr := do
  zeroed (fld w 4 1)
  zeroed (fld w1 12 20)
  let hd ← Hadamard.ofCode (fld w 2 2)
  .ok (k { g := flag w 6, p := flag w 5, hd := hd, ta := flag w 1, tb := flag w 0 }
    (sreg w 19) (sreg w 13) (sreg w 7) (accSel w1))

/-- A scalar instruction whose first word is w and whose second, if it has one, is w1, before the checks
of `Instr.illForm` (R49 to R51, R69). -/
def decodeScalarRaw (w w1 : Nat) : Dec Instr := do
  let d := sreg w 19
  let a := sreg w 13
  let b := sreg w 7
  let i := BitVec.ofNat 13 w
  let off := BitVec.ofNat 22 w
  let f := fld w 0 7
  let noD (k : Dec Instr) : Dec Instr := do zeroed (fld w 19 6); k
  let noA (k : Dec Instr) : Dec Instr := do zeroed (fld w 13 6); k
  let noB (k : Dec Instr) : Dec Instr := do zeroed (fld w 7 6); k
  let noF (k : Dec Instr) : Dec Instr := do zeroed f; k
  let noneAt (k : Instr) : Dec Instr := do zeroed (fld w 0 25); .ok k
  match fld w 25 7 with
  | 0x01 => decodeAlu w
  | 0x02 => .ok (.saddImm d a i)
  | 0x03 => .ok (.smulImm d a i)
  | 0x04 => .ok (.sandImm d a i)
  | 0x05 => .ok (.sorImm d a i)
  | 0x06 => .ok (.sxorImm d a i)
  | 0x07 => .ok (.sshlImm d a i)
  | 0x08 => .ok (.sshrImm d a i)
  | 0x09 => .ok (.ssraImm d a i)
  | 0x0A => .ok (.sminImm d a i)
  | 0x0B => .ok (.smaxImm d a i)
  | 0x0C => do
    zeroed (fld w 21 1)
    let c ← Cond.ofCode (fld w 22 3)
    .ok (.scmpImm c (Fin.ofNat 4 (fld w 19 2)) a i)
  | 0x0D => noA (.ok (.sleaImm d i))
  | 0x0E => noA (.ok (.smovi d i))
  | 0x0F => noA (.ok (.smovh d i))
  | 0x10 => do zeroed (fld w 22 3); .ok (.sb off)
  | 0x11 => .ok (.sbk (Fin.ofNat 4 (fld w 23 2)) (flag w 22) off)
  | 0x12 => do zeroed (fld w 22 3); .ok (.scall off)
  | 0x13 => noD (noB (noF (.ok (.sret a))))
  | 0x14 => do
    zeroed (fld w 7 6)
    zeroed (fld w 1 6)
    if flag w 0 then .ok (.sjmprL d a) else noD (.ok (.sjmpr a))
  | 0x15 => noD (.ok (.sloop a i))
  | 0x16 => noneAt .sexit
  | 0x17 => noneAt .snop
  | 0x18 => .ok (.sld d a i)
  | 0x19 => .ok (.sst d a i)
  | 0x1A => do
    zeroed (fld w 7 18)
    zeroed (fld w 4 3)
    let o ← FenceOrder.ofCode (fld w 2 2)
    let sc ← Scope.ofCode (fld w 0 2)
    .ok (.sfence o sc)
  | 0x1B => do
    zeroed (fld w 4 3)
    let c ← WaitCond.ofCode (fld w 0 3)
    .ok (.swait c (flag w 3) d a b)
  | 0x1C => match fld w 19 6 with
    | 0 => noA (.ok (.ldisp i))
    | 1 => .ok (.ldispReg a i)
    | _ => .error .reservedValue
  | 0x1D => noneAt .lsync
  | 0x1E => do
    zeroed (fld w 6 1)
    if flag w 5 then do
      zeroed (fld w 0 5)
      .ok (.slrd d a (.reg b))
    else noB (.ok (.slrd d a (.imm (Fin.ofNat 32 (fld w 0 5)))))
  | 0x20 => noD (noB (.ok (.barInit (BitVec.ofNat 7 w) a)))
  | 0x21 => noA (noB (.ok (.barArr d (BitVec.ofNat 7 w))))
  | 0x22 => noD (noB (.ok (.barWt (BitVec.ofNat 7 w) a)))
  | 0x23 => noD (noA (noB (.ok (.barSync (BitVec.ofNat 7 w)))))
  | 0x24 => noD (noB (.ok (.barExp (BitVec.ofNat 7 w) a)))
  | 0x25 => noB (noF (.ok (.fbar d a)))
  | 0x26 => noF (.ok (.bthTake d a b))
  | 0x27 => noD (noF (.ok (.bthPass a b)))
  | 0x28 => noD (noB (do
    zeroed (fld w 2 5)
    let t ← BerthTarget.ofCode (fld w 0 2)
    .ok (.bthWait a t)))
  | 0x29 => noD (do
    zeroed (fld w 2 5)
    let t ← BerthTarget.ofCode (fld w 0 2)
    .ok (.bthSet a b t))
  | 0x2A => noD (noB (noF (.ok (.bthFree a))))
  | 0x2B => noB (do zeroed (fld w 1 6); .ok (.bthQuery (flag w 0) d a))
  | 0x2C => noneAt .xregAcq
  | 0x2D => noneAt .xregRel
  | 0x30 => noD (noF (.ok (.xcpy a b)))
  | 0x31 => do
    zeroed (fld w 3 22)
    let p ← DrainPath.ofCode (fld w 0 3)
    .ok (.xdrain p)
  | 0x32 => noD (noB (noF (.ok (.srt a))))
  | 0x33 => noD (noB (noF (.ok (.xcol a))))
  | 0x34 => noB (noF (.ok (.tqTake d a)))
  | 0x35 => noB (noF (.ok (.tqSteal d a)))
  | 0x36 => noD (noF (.ok (.tqGive a b)))
  | 0x37 => do zeroed (fld w 6 1); .ok (.glaunch (Fin.ofNat 64 (fld w 0 6)) d a b)
  | 0x38 => noB (noF (.ok (.wsplit d a)))
  | 0x39 => noD (noB (noF (.ok (.wret a))))
  | 0x40 => noA (do zeroed (fld w 12 1); .ok (.csrr (BitVec.ofNat 12 w) d))
  | 0x41 => noD (do zeroed (fld w 12 1); .ok (.csrw (BitVec.ofNat 12 w) a))
  | 0x42 => noD (noA (do zeroed (fld w 12 1); .ok (.trap (BitVec.ofNat 12 w))))
  | 0x43 => noneAt .eret
  | 0x44 => noD (noA (do zeroed (fld w 4 9); .ok (.spchk (Fin.ofNat 16 (fld w 0 4)))))
  | 0x70 => decodeMma w w1 .mmaBf16
  | 0x71 => decodeMma w w1 .mmaF16
  | 0x72 => decodeMma w w1 .mmaE4m3
  | 0x73 => decodeMma w w1 .mmaE5m2
  | 0x74 => decodeMma w w1 .mmaBx8
  | 0x75 => decodeMma w w1 .mmaBx6
  | 0x76 => decodeMma w w1 .mmaBx4
  | 0x77 => decodeMma w w1 .mmaLut4
  | 0x78 => decodeMma w w1 .mmaI8
  | 0x79 => decodeAcc w w1
  | 0x7A => decodeMctl w w1
  | 0x7B => decodeSimm w w1
  | 0x7C => decodeSmem w w1
  | _ => .error .unassignedOpcode

/-- Refuses an instruction that fails a static check. -/
def checked (i : Instr) : Dec Instr :=
  match i.illForm with
  | none => .ok i
  | some e => .error (.illFormed e)

/-- The scalar instruction of words w and w1 (R76). -/
def decodeScalar (w w1 : Nat) : Dec Instr := decodeScalarRaw w w1 >>= checked

/-- A first word begins a long form, whatever the opcode's assignment (R51). -/
def isLong (w : Nat) : Bool := fld w 25 7 ≥ 0x70

/-! ## Lane words (R53 to R56, R72, R73) -/

/-- The fields of a lane word (R53). -/
structure RawLane where
  page : Nat
  cell : Nat
  hdr : LaneHdr
  d : Nat
  a : Nat
  b : Nat
  c : Nat
  f : Nat
  x : Nat
  deriving DecidableEq, Repr

/-- The fields of the 96-bit word w (R53). -/
def RawLane.ofWord (w : Nat) : RawLane :=
  { page := fld w 94 2, cell := fld w 86 8,
    hdr := { u := flag w 85, e := flag w 84, stall := Fin.ofNat 16 (fld w 80 4), gn := flag w 79,
             gp := Fin.ofNat 8 (fld w 76 3), st := Fin.ofNat 8 (fld w 73 3),
             wm := BitVec.ofNat 6 (fld w 67 6) },
    d := fld w 59 8, a := fld w 51 8, b := fld w 43 8, c := fld w 35 8, f := fld w 32 3, x := fld w 0 32 }

/-- The 96-bit word of the fields (R53). -/
def RawLane.toWord (r : RawLane) : Nat :=
  r.page * 2 ^ 94 + r.cell * 2 ^ 86 + bit r.hdr.u * 2 ^ 85 + bit r.hdr.e * 2 ^ 84
    + r.hdr.stall.val * 2 ^ 80 + bit r.hdr.gn * 2 ^ 79 + r.hdr.gp.val * 2 ^ 76 + r.hdr.st.val * 2 ^ 73
    + r.hdr.wm.toNat * 2 ^ 67 + r.d * 2 ^ 59 + r.a * 2 ^ 51 + r.b * 2 ^ 43 + r.c * 2 ^ 35 + r.f * 2 ^ 32 + r.x

/-- The modifier bits (R56). -/
def RawLane.mod (r : RawLane) : Nat :=
  match r.f with
  | 0 => r.x
  | 1 => r.a
  | 2 => r.b
  | _ => r.c

/-- Refuses an F that the instruction does not permit (R56). -/
def RawLane.form (r : RawLane) (fs : List Nat) : Dec Unit :=
  if fs.contains r.f then .ok () else .error .immediateForm

/-- Source slot k (1 A, 2 B, 3 C) with name code n: the immediate when F = k (R56). -/
def RawLane.src (r : RawLane) (k n : Nat) : Dec Src :=
  if r.f = k then .ok (.imm (BitVec.ofNat 32 r.x)) else do
    let o ← Opd.ofCode n
    .ok (.reg o)

/-- A word of one source and no immediate. -/
def RawLane.un (r : RawLane) (k : Opd → Opd → Dec Instr) : Dec Instr := do
  r.form [0]; zeroed r.b; zeroed r.c
  let d ← Opd.ofCode r.d
  let a ← Opd.ofCode r.a
  k d a

/-- A word of two sources, the second of which may be immediate. -/
def RawLane.bin (r : RawLane) (k : Opd → Opd → Src → Dec Instr) : Dec Instr := do
  r.form [0, 2]; zeroed r.c
  let d ← Opd.ofCode r.d
  let a ← Opd.ofCode r.a
  let b ← r.src 2 r.b
  k d a b

/-- A word of three sources, the last two of which may be immediate. -/
def RawLane.tri (r : RawLane) (k : Opd → Opd → Src → Src → Dec Instr) : Dec Instr := do
  r.form [0, 2, 3]
  let d ← Opd.ofCode r.d
  let a ← Opd.ofCode r.a
  let b ← r.src 2 r.b
  let c ← r.src 3 r.c
  k d a b c

/-- The modifier word of an integer instruction that accepts the TY values tys and, perhaps, SAT (R172). -/
def intMod (m : Nat) (tys : List IntTy) (satOk : Bool) (k : IntTy → Bool → Instr) : Dec Instr := do
  zeroed (m / 8)
  let ty ← IntTy.ofCode (fld m 0 2)
  if !tys.contains ty then .error .reservedValue
  else if flag m 2 && !satOk then .error .reservedField
  else .ok (k ty (flag m 2))

def allTy : List IntTy := [.i32, .n32, .i64, .n64]

/-- The floating modifier word (R177). -/
def fMod (m : Nat) (k : FMod → Instr) : Dec Instr := do
  zeroed (m / 128)
  let rm ← Rm.ofCode (fld m 0 3)
  .ok (k { rm := rm, sat := flag m 3, na := flag m 4, nb := flag m 5, nc := flag m 6 })

/-- The modifier word of `qpack` (R188). -/
def qpackMod (r : RawLane) (k : QPackMod → VReg → VReg → VReg → Instr) : Dec Instr := do
  r.form [0]
  let m := r.x
  zeroed (fld m 17 15); zeroed (fld m 6 2)
  let hd ← Hadamard.ofCode (fld m 4 2)
  let rm ← RmSr.ofCode (fld m 8 3)
  let d ← vregOf r.d
  let a ← vregOf r.a
  let c ← vregOf r.c
  let fixed (x : Rm) : Dec QRound := do zeroed r.b; zeroed (fld m 11 6); .ok (.fixed x)
  let rnd ← match rm with
    | .rne => fixed .rne
    | .rz => fixed .rz
    | .rd => fixed .rd
    | .ru => fixed .ru
    | .sr => do
      let b ← Opd.ofCode r.b
      .ok (.sr (Fin.ofNat 64 (fld m 11 6)) b)
  .ok (k { k := Fin.ofNat 4 (fld m 0 2), bsel := Fin.ofNat 4 (fld m 2 2), hd := hd, rnd := rnd } d a c)

/-- The modifier word of `qunpack` (R188). -/
def qunpackMod (r : RawLane) (k : Fin 4 → Fin 4 → Opd → VReg → VReg → Instr) : Dec Instr := do
  r.form [0]; zeroed r.b; zeroed (r.x / 16)
  let d ← Opd.ofCode r.d
  let a ← vregOf r.a
  let c ← vregOf r.c
  .ok (k (Fin.ofNat 4 (fld r.x 0 2)) (Fin.ofNat 4 (fld r.x 2 2)) d a c)

/-- The modifier word of `bxdot` (R188). -/
def bxdotMod (r : RawLane) (k : Rm → Fin 4 → Fin 4 → Opd → VReg → VReg → Opd → Instr) : Dec Instr := do
  r.form [0]; zeroed (r.x / 128)
  let rm ← Rm.ofCode (fld r.x 4 3)
  let d ← Opd.ofCode r.d
  let a ← vregOf r.a
  let b ← vregOf r.b
  let c ← Opd.ofCode r.c
  .ok (k rm (Fin.ofNat 4 (fld r.x 0 2)) (Fin.ofNat 4 (fld r.x 2 2)) d a b c)

/-- Rows 0 and 1 of the lane map (R170, R172 to R176). -/
def decodeIntRow (r : RawLane) : Dec Instr := do
  let h := r.hdr
  let m := r.mod
  match r.cell with
  | 0x01 => r.bin fun d a b => intMod m allTy true fun ty s => .iadd h ty s d a b
  | 0x02 => r.bin fun d a b => intMod m allTy true fun ty s => .isub h ty s d a b
  | 0x03 => r.bin fun d a b => intMod m allTy true fun ty s => .imul h ty s d a b
  | 0x04 => r.tri fun d a b c => intMod m allTy true fun ty s => .imad h ty s d a b c
  | 0x05 => r.bin fun d a b => intMod m [.i32, .n32] false fun ty _ => .imulh h (ty == .n32) d a b
  | 0x06 => r.tri fun d a b c => do
    zeroed (m / 8)
    .ok (.idp4 h (flag m 0) (flag m 1) (flag m 2) d a b c)
  | 0x07 => r.un fun d a => intMod m [.i32, .i64] true fun ty s => .iabs h (ty == .i64) s d a
  | 0x08 => r.bin fun d a b => intMod m allTy false fun ty _ => .imin h ty d a b
  | 0x09 => r.bin fun d a b => intMod m allTy false fun ty _ => .imax h ty d a b
  | 0x0A => do
    r.form [0, 2]; zeroed r.c; zeroed (m / 64); zeroed (fld m 2 1)
    let ty ← IntTy.ofCode (fld m 0 2)
    let cc ← Cond.ofCode (fld m 3 3)
    let d ← pregOf r.d
    let a ← Opd.ofCode r.a
    let b ← r.src 2 r.b
    .ok (.icmp h ty cc d a b)
  | 0x0B => do
    r.form [0, 1, 2]
    let d ← Opd.ofCode r.d
    let a ← r.src 1 r.a
    let b ← r.src 2 r.b
    let c ← pregOf r.c
    intMod m allTy false fun ty _ => .isel h ty d a b c
  | 0x0C => do
    r.form [0, 1, 2, 3]; zeroed (m / 256)
    let d ← Opd.ofCode r.d
    let a ← r.src 1 r.a
    let b ← r.src 2 r.b
    let c ← r.src 3 r.c
    .ok (.bool3 h (BitVec.ofNat 8 m) d a b c)
  | 0x0D => r.un fun d a => do zeroed m; .ok (.popc h d a)
  | 0x0E => r.un fun d a => do zeroed m; .ok (.clz h d a)
  | 0x0F => r.un fun d a => do zeroed m; .ok (.brev h d a)
  | 0x10 => r.bin fun d a b => intMod m allTy false fun ty _ => .ishl h ty d a b
  | 0x11 => r.bin fun d a b => intMod m allTy false fun ty _ => .ishr h ty d a b
  | 0x12 => r.bin fun d a b => intMod m allTy false fun ty _ => .isra h ty d a b
  | 0x13 => do
    r.form [0, 3]; zeroed (m / 128); zeroed (fld m 0 6)
    let d ← Opd.ofCode r.d
    let a ← Opd.ofCode r.a
    let b ← Opd.ofCode r.b
    let c ← r.src 3 r.c
    .ok (.ishf h (flag m 6) d a b c)
  | 0x14 => r.bin fun d a b => intMod m [.i32, .n32] false fun ty _ => .bfe h (ty == .n32) d a b
  | 0x15 => do
    r.form [0, 3]; zeroed m
    let d ← Opd.ofCode r.d
    let a ← Opd.ofCode r.a
    let b ← Opd.ofCode r.b
    let c ← r.src 3 r.c
    .ok (.bfi h d a b c)
  | _ => .error .unassignedOpcode

/-- Rows 2 and 3 of the lane map (R170, R177 to R183). -/
def decodeFloatRow (r : RawLane) : Dec Instr := do
  let h := r.hdr
  let m := r.mod
  let pg ← Page.ofCode r.page
  match r.cell with
  | 0x20 => r.bin fun d a b => fMod m fun x => .fadd h pg x d a b
  | 0x21 => r.bin fun d a b => fMod m fun x => .fmul h pg x d a b
  | 0x22 => r.tri fun d a b c => fMod m fun x => .ffma h pg x d a b c
  | 0x23 => r.bin fun d a b => do zeroed m; .ok (.fmin h pg d a b)
  | 0x24 => r.bin fun d a b => do zeroed m; .ok (.fmax h pg d a b)
  | 0x25 => do
    r.form [0, 2]; zeroed r.c; zeroed (m / 16)
    let cc ← FCond.ofCode (fld m 0 3)
    let d ← pregOf r.d
    let a ← Opd.ofCode r.a
    let b ← r.src 2 r.b
    .ok (.fcmp h pg cc (flag m 3) d a b)
  | 0x26 => r.un fun d a => do zeroed m; .ok (.fclass h pg d a)
  | 0x28 => do
    r.form [0]
    let d ← Opd.ofCode r.d
    let a ← Opd.ofCode r.a
    let b ← Opd.ofCode r.b
    let c ← Opd.ofCode r.c
    match pg with
    | .f32 => .error .page
    | .f16 => fMod m fun x => .fdot2 h false x d a b c
    | .bf16 => fMod m fun x => .fdot2 h true x d a b c
  | _ => do
    if pg != .f32 then .error .page
    else match r.cell with
      | 0x27 => r.bin fun d a b => do
        zeroed (m / 16)
        let rm ← Rm.ofCode (fld m 0 3)
        .ok (.fscale h rm (flag m 3) d a b)
      | 0x30 => r.un fun d a => do zeroed m; .ok (.frcp h d a)
      | 0x31 => r.un fun d a => do zeroed m; .ok (.frsq h d a)
      | 0x32 => r.un fun d a => do zeroed m; .ok (.fsqrt h d a)
      | 0x33 => r.un fun d a => do zeroed m; .ok (.fex2 h d a)
      | 0x34 => r.un fun d a => do zeroed m; .ok (.flg2 h d a)
      | 0x35 => r.un fun d a => do zeroed m; .ok (.fsin h d a)
      | 0x36 => r.un fun d a => do zeroed m; .ok (.fcos h d a)
      | _ => .error .unassignedOpcode

/-- Row 4 of the lane map (R184 to R191). -/
def decodeCvtRow (r : RawLane) : Dec Instr := do
  let h := r.hdr
  let m := r.x
  match r.cell with
  | 0x40 => r.un fun d a => do
    zeroed (fld m 22 10)
    let dty ← CvtTy.ofCode (fld m 0 4)
    let sty ← CvtTy.ofCode (fld m 4 4)
    let rm ← Rm.ofCode (fld m 8 3)
    .ok (.cvt h { dty := dty, sty := sty, rm := rm, sat := flag m 11, spos := Fin.ofNat 4 (fld m 12 2),
                  dpos := Fin.ofNat 4 (fld m 14 2), p := Fin.ofNat 64 (fld m 16 6) } d a)
  | 0x41 => do
    r.form [0]; zeroed r.c; zeroed (fld m 22 10); zeroed (fld m 12 2); zeroed (fld m 4 7)
    let dty ← SrTy.ofCode (fld m 0 4)
    let d ← Opd.ofCode r.d
    let a ← Opd.ofCode r.a
    let b ← Opd.ofCode r.b
    .ok (.cvtSr h { dty := dty, sat := flag m 11, dpos := Fin.ofNat 4 (fld m 14 2),
                    rbits := Fin.ofNat 64 (fld m 16 6) } d a b)
  | 0x42 => do
    r.form [0]; zeroed r.b; zeroed r.c; zeroed m
    let d ← Opd.ofCode r.d
    let a ← vregOf r.a
    .ok (.hdm16 h d a)
  | 0x43 => do
    r.form [0]; zeroed r.b; zeroed r.c; zeroed m
    let d ← Opd.ofCode r.d
    let a ← vregOf r.a
    .ok (.hdm32 h d a)
  | 0x44 => qpackMod r (.qpackBx8 h)
  | 0x45 => qpackMod r (.qpackBx6 h)
  | 0x46 => qpackMod r (.qpackBx4 h)
  | 0x48 => qunpackMod r (.qunpackBx8 h)
  | 0x49 => qunpackMod r (.qunpackBx6 h)
  | 0x4A => qunpackMod r (.qunpackBx4 h)
  | 0x4C => bxdotMod r (.bxdotBx8 h)
  | 0x4D => bxdotMod r (.bxdotBx6 h)
  | 0x4E => bxdotMod r (.bxdotBx4 h)
  | _ => .error .unassignedOpcode

/-- Row 5 of the lane map (R192 to R200). -/
def decodeMoveRow (r : RawLane) : Dec Instr := do
  let h := r.hdr
  let m := r.mod
  match r.cell with
  | 0x50 => r.un fun d a => do zeroed (m / 2); .ok (.mov h (flag m 0) d a)
  | 0x51 => do
    r.form [1]; zeroed r.a; zeroed r.b; zeroed r.c
    let d ← Opd.ofCode r.d
    .ok (.movi h d (BitVec.ofNat 32 r.x))
  | 0x52 => do
    r.form [0, 2]; zeroed r.c; zeroed (m / 64)
    let mode ← XMode.ofCode (fld m 0 2)
    let d ← Opd.ofCode r.d
    let a ← Opd.ofCode r.a
    let b ← r.src 2 r.b
    .ok (.xlane h mode (Fin.ofNat 8 (fld m 2 3)) (flag m 5) d a b)
  | 0x53 => do
    r.form [0]; zeroed r.b; zeroed r.c; zeroed (m / 8)
    let mode ← VoteMode.ofCode (fld m 0 3)
    let d ← Opd.ofCode r.d
    let a ← pregOf r.a
    .ok (.vote h mode d a)
  | 0x54 => do
    r.form [0, 2]; zeroed r.c; zeroed (m / 32); zeroed (fld m 0 2)
    let d ← Opd.ofCode r.d
    let a ← vregOf r.a
    let b ← r.src 2 r.b
    .ok (.rdlane h (Fin.ofNat 8 (fld m 2 3)) d a b)
  | 0x55 => do
    r.form [0]; zeroed r.b; zeroed r.c; zeroed (m / 16)
    let op ← ScanOp.ofCode (fld m 0 3)
    let d ← Opd.ofCode r.d
    let a ← vregOf r.a
    .ok (.lscan h op (flag m 3) d a)
  | 0x56 => do
    r.form [0]; zeroed r.b; zeroed r.c; zeroed (m / 4)
    let ty ← Cmp24Ty.ofCode (fld m 0 2)
    let d ← vregOf r.d
    let a ← vregOf r.a
    .ok (.cmp24 h ty d a)
  | 0x57 => do
    r.form [0]; zeroed (m / 256)
    let d ← pregOf r.d
    let a ← pregOf r.a
    let b ← pregOf r.b
    let c ← pregOf r.c
    .ok (.pset h (BitVec.ofNat 8 m) d a b c)
  | 0x58 => r.un fun d a => do zeroed (m / 2); .ok (.pmov h (flag m 0) d a)
  | _ => .error .unassignedOpcode

/-- The signed byte offset of a row-8 word (R203). -/
def offOf (x : Nat) : BitVec 16 := BitVec.ofNat 16 (fld x 16 16)

/-- SZ of a word that accepts 2 and 3 only. -/
def sz32or64 (x : Nat) : Dec Bool :=
  match fld x 10 2 with
  | 2 => .ok false
  | 3 => .ok true
  | _ => .error .reservedValue

/-- ORD of a word that accepts relaxed and one other code. -/
def ordOr (x other : Nat) : Dec Bool :=
  if fld x 12 2 = 0 then .ok false
  else if fld x 12 2 = other then .ok true
  else .error .reservedValue

/-- Row 8 of the lane map (R202 to R215). P of `atom.x` may have any value with either XF (R107, R203; log 67). -/
def decodeMemRow (r : RawLane) : Dec Instr := do
  r.form [0]
  let h := r.hdr
  let x := r.x
  let off := offOf x
  match r.cell with
  | 0x80 => do
    zeroed r.c; zeroed (fld x 12 4); zeroed (fld x 0 9)
    let sz ← MemSize.ofCode (fld x 10 2)
    let d ← Opd.ofCode r.d
    let a ← Opd.ofCode r.a
    let b ← Opd.ofCode r.b
    .ok (.ld h off sz (flag x 9) d a b)
  | 0x81 => do
    zeroed r.d; zeroed (fld x 12 4); zeroed (fld x 0 10)
    let sz ← MemSize.ofCode (fld x 10 2)
    let a ← Opd.ofCode r.a
    let b ← Opd.ofCode r.b
    let c ← Opd.ofCode r.c
    .ok (.st h off sz a b c)
  | 0x82 => do
    zeroed r.c; zeroed (fld x 0 10)
    let sc ← Scope.ofCode (fld x 14 2)
    let acq ← ordOr x 1
    let w ← sz32or64 x
    let d ← Opd.ofCode r.d
    let a ← Opd.ofCode r.a
    let b ← Opd.ofCode r.b
    .ok (.ldR h off sc acq w d a b)
  | 0x83 => do
    zeroed r.d; zeroed (fld x 0 10)
    let sc ← Scope.ofCode (fld x 14 2)
    let rel ← ordOr x 2
    let w ← sz32or64 x
    let a ← Opd.ofCode r.a
    let b ← Opd.ofCode r.b
    let c ← Opd.ofCode r.c
    .ok (.stR h off sc rel w a b c)
  | 0x84 => do
    zeroed (fld x 12 2); zeroed (fld x 0 10)
    let sc ← Scope.ofCode (fld x 14 2)
    let d ← Opd.ofCode r.d
    let a ← Opd.ofCode r.a
    let b ← Opd.ofCode r.b
    let c ← Opd.ofCode r.c
    if fld x 10 2 = 3 then .ok (.ldv h off sc d a b c) else .error .reservedValue
  | 0x85 => do
    zeroed r.c; zeroed (fld x 12 4); zeroed (fld x 0 9)
    let sz ← MemSize.ofCode (fld x 10 2)
    let d ← Opd.ofCode r.d
    let a ← Opd.ofCode r.a
    let b ← Opd.ofCode r.b
    .ok (.lds h off sz (flag x 9) d a b)
  | 0x86 => do
    zeroed r.d; zeroed (fld x 12 4); zeroed (fld x 0 10)
    let sz ← MemSize.ofCode (fld x 10 2)
    let a ← Opd.ofCode r.a
    let b ← Opd.ofCode r.b
    let c ← Opd.ofCode r.c
    .ok (.sts h off sz a b c)
  | 0x87 => do
    zeroed (fld x 8 2); zeroed (fld x 0 4)
    let op ← AtomOp.ofCode (fld x 4 4)
    let o ← Order.ofCode (fld x 12 2)
    let sc ← Scope.ofCode (fld x 14 2)
    let w ← sz32or64 x
    let d ← Opd.ofCode r.d
    let a ← Opd.ofCode r.a
    let b ← Opd.ofCode r.b
    let c ← Opd.ofCode r.c
    .ok (.atom h off op o sc w d a b c)
  | 0x88 => do
    zeroed r.b; zeroed (fld x 9 1); zeroed (fld x 0 2)
    let sc ← Scope.ofCode (fld x 14 2)
    let rel ← ordOr x 2
    let d ← Opd.ofCode r.d
    let a ← Opd.ofCode r.a
    let c ← Opd.ofCode r.c
    if fld x 10 2 = 3 then .ok (.atomX h off (flag x 8) (Fin.ofNat 64 (fld x 2 6)) rel sc d a c)
    else .error .reservedValue
  | 0x89 => do
    zeroed r.d; zeroed r.b; zeroed (fld x 8 2); zeroed (fld x 0 4)
    let op ← RedOp.ofCode (fld x 4 4)
    let sc ← Scope.ofCode (fld x 14 2)
    let rel ← ordOr x 2
    let w ← sz32or64 x
    let a ← Opd.ofCode r.a
    let c ← Opd.ofCode r.c
    .ok (.red h off op rel sc w a c)
  | 0x8A => do
    zeroed r.d; zeroed (fld x 12 4); zeroed (fld x 0 10)
    let w ← sz32or64 x
    let a ← Opd.ofCode r.a
    let b ← Opd.ofCode r.b
    let c ← Opd.ofCode r.c
    .ok (.mwait h off w a b c)
  | 0x8B => do
    zeroed r.d; zeroed r.a; zeroed r.b; zeroed r.c; zeroed (fld x 16 16); zeroed (fld x 0 12)
    let o ← FenceOrder.ofCode (fld x 12 2)
    let sc ← Scope.ofCode (fld x 14 2)
    .ok (.fence h o sc)
  | _ => .error .unassignedOpcode

/-- The join index that the operand fields of `bra` hold (R216). -/
def RawLane.joinField (r : RawLane) : Nat := r.d * 2 ^ 24 + r.a * 2 ^ 16 + r.b * 2 ^ 8 + r.c

/-- Row 9 of the lane map (R216). -/
def decodeControlRow (r : RawLane) : Dec Instr := do
  r.form [0]
  let h := r.hdr
  let x := r.x
  match r.cell with
  | 0x90 => do
    zeroed (r.joinField / 2 ^ 30)
    let t := BitVec.ofNat 30 x
    let j := BitVec.ofNat 30 r.joinField
    match fld x 30 2 with
    | 0 => .ok (.bra h t j)
    | 1 => .ok (.braLoop h t j)
    | _ => .error .reservedValue
  | _ => do
    zeroed r.joinField
    match r.cell with
    | 0x91 => do zeroed x; .ok (.brk h)
    | 0x92 => do zeroed x; .ok (.cont h)
    | 0x93 => do zeroed (x / 2); .ok (if flag x 0 then .joinLatch h else .join h)
    | 0x94 => do zeroed (x / 2 ^ 30); .ok (.call h (BitVec.ofNat 30 x))
    | 0x95 => do zeroed x; .ok (.ret h)
    | 0x96 => do zeroed (x / 2); .ok (if flag x 0 then .exitKill h else .exit h)
    | 0x97 => do zeroed (x / 2 ^ 16); .ok (.nap h (BitVec.ofNat 16 x))
    | 0x98 => do zeroed x; .ok (.rgn h)
    | _ => .error .unassignedOpcode

/-- Row C of the lane map (R262). -/
def decodeRenderRow (r : RawLane) : Dec Instr := do
  r.form [0]
  let h := r.hdr
  let x := r.x
  match r.cell with
  | 0xC0 => do
    zeroed r.c; zeroed x
    let d ← qregOf r.d
    let a ← Opd.ofCode r.a
    let b ← sregOf r.b
    .ok (.gproj h d a b)
  | 0xC1 => do
    zeroed r.c; zeroed x
    let d ← qregOf r.d
    let a ← Opd.ofCode r.a
    let b ← sregOf r.b
    .ok (.pproj h d a b)
  | 0xC2 => do
    zeroed r.c; zeroed x
    let d ← vregOf r.d
    let a ← Opd.ofCode r.a
    let b ← Opd.ofCode r.b
    .ok (.geval h d a b)
  | 0xC3 => do
    zeroed r.c; zeroed (x / 32); zeroed (fld x 0 2)
    let d ← vregOf r.d
    let a ← Opd.ofCode r.a
    let b ← Opd.ofCode r.b
    .ok (.gblend h (Fin.ofNat 8 (fld x 2 3)) d a b)
  | 0xC4 => do
    zeroed (x / 32); zeroed (fld x 0 2)
    let d ← vregOf r.d
    let a ← Opd.ofCode r.a
    let b ← Opd.ofCode r.b
    let c ← vregOf r.c
    .ok (.gback h (Fin.ofNat 8 (fld x 2 3)) d a b c)
  | 0xC5 => do
    zeroed r.d; zeroed r.b; zeroed (fld x 0 9)
    let a ← Opd.ofCode r.a
    let c ← vregOf r.c
    .ok (.gscat h (BitVec.ofNat 16 (fld x 16 16)) (flag x 15) (Fin.ofNat 64 (fld x 9 6)) a c)
  | 0xC6 => do
    zeroed r.d; zeroed x
    let a ← sregOf r.a
    let b ← Opd.ofCode r.b
    let c ← Opd.ofCode r.c
    .ok (.rgen h a b c)
  | 0xC7 => do
    zeroed (x / 64)
    let d ← qregOf r.d
    let a ← Opd.ofCode r.a
    let b ← sregOf r.b
    let c ← Opd.ofCode r.c
    .ok (.trace h (Fin.ofNat 64 (fld x 0 6)) d a b c)
  | 0xC8 => do
    zeroed r.c; zeroed (x / 64)
    let d ← Opd.ofCode r.d
    let a ← sregOf r.a
    let b ← Opd.ofCode r.b
    .ok (.rayld h (Fin.ofNat 32 (fld x 0 5)) (flag x 5) d a b)
  | 0xC9 => do
    zeroed r.d; zeroed (x / 64)
    let a ← sregOf r.a
    let b ← Opd.ofCode r.b
    let c ← Opd.ofCode r.c
    .ok (.rayst h (Fin.ofNat 32 (fld x 0 5)) (flag x 5) a b c)
  | 0xCA => do
    zeroed r.c; zeroed x
    let d ← vregOf r.d
    let a ← sregOf r.a
    let b ← Opd.ofCode r.b
    .ok (.hitq h d a b)
  | 0xCB => do
    zeroed r.b; zeroed r.c; zeroed x
    let d ← Opd.ofCode r.d
    let a ← sregOf r.a
    .ok (.rpush h d a)
  | 0xCC => do
    zeroed r.d; zeroed r.c; zeroed x
    let a ← sregOf r.a
    let b ← Opd.ofCode r.b
    .ok (.rpop h a b)
  | 0xCD => do
    zeroed r.d; zeroed (fld x 2 14)
    let f ← PixelFmt.ofCode (fld x 0 2)
    let a ← Opd.ofCode r.a
    let b ← Opd.ofCode r.b
    let c ← vregOf r.c
    .ok (.fbw h (offOf x) f a b c)
  | _ => .error .unassignedOpcode

/-- A lane word's instruction by row of the map, before the checks of `Instr.illForm` (R72, R73). -/
def decodeLaneRaw (r : RawLane) : Dec Instr :=
  if r.cell / 16 = 2 ∨ r.cell / 16 = 3 then decodeFloatRow r
  else if r.page ≠ 0 then .error .page
  else match r.cell / 16 with
    | 0 => decodeIntRow r
    | 1 => decodeIntRow r
    | 4 => decodeCvtRow r
    | 5 => decodeMoveRow r
    | 8 => decodeMemRow r
    | 9 => decodeControlRow r
    | 0xC => decodeRenderRow r
    | _ => .error .unassignedOpcode

/-- The lane instruction of the 96-bit word w (R76). -/
def decodeLane (w : Nat) : Dec Instr := decodeLaneRaw (RawLane.ofWord w) >>= checked

/-! ## Bytes (R10, R48, R54) -/

/-- The number that bytes, lowest address first, hold (R10). -/
def leNat : List Byte → Nat
  | [] => 0
  | b :: bs => b.toNat + 256 * leNat bs

/-- The n low bytes of a number, lowest address first (R10). -/
def leBytes : Nat → Nat → List Byte
  | 0, _ => []
  | n + 1, w => BitVec.ofNat 8 w :: leBytes n (w / 256)

/-- The scalar instruction that begins a run of `.text` bytes (R48, R51). -/
def decodeText (bs : List Byte) : Dec Instr :=
  decodeScalar (leNat (bs.take 4)) (leNat ((bs.drop 4).take 4))

/-- The lane instruction of twelve `.lanetext` bytes (R54). -/
def decodeLaneText (bs : List Byte) : Dec Instr := decodeLane (leNat (bs.take 12))

/-- The instruction of a table word of nbits bits (the host's numbering: bit 0 is the lowest of the first
word). A 96-bit row is a lane word, the others are scalar words. -/
def decodeTableWord (nbits w : Nat) : Option Instr :=
  if nbits > 64 then (decodeLaneText (leBytes 12 w)).toOption
  else (decodeText (leBytes 8 (w % 2 ^ nbits))).toOption
/-! ## The encoder -/

/-- A form A word (R49). -/
def formA (op d a b f : Nat) : Nat := op * 2 ^ 25 + d * 2 ^ 19 + a * 2 ^ 13 + b * 2 ^ 7 + f

/-- A form B word (R49). -/
def formB (op d a : Nat) (i : BitVec 13) : Nat := op * 2 ^ 25 + d * 2 ^ 19 + a * 2 ^ 13 + i.toNat

/-- A form C word (R49). -/
def formC (op k s : Nat) (off : BitVec 22) : Nat := op * 2 ^ 25 + k * 2 ^ 23 + s * 2 ^ 22 + off.toNat

/-- A long form of first word w and second word w1 (R51). -/
def formL (w w1 : Nat) : Nat := w + w1 * 2 ^ 32

/-- The selector field (R232). -/
def AccSel.code (t : AccSel) : Nat := t.core.val * 2 ^ 10 + t.slot.val * 2 ^ 5 + t.tile.val

/-- Word 1 of an `acc.*` that names rows (R250). -/
def accRows (t : AccSel) (row n : Fin 64) : Nat := n.val * 2 ^ 18 + row.val * 2 ^ 12 + t.code

/-- The flags of an MMA word (R233). -/
def MmaMod.code (m : MmaMod) : Nat :=
  bit m.g * 2 ^ 6 + bit m.p * 2 ^ 5 + m.hd.code * 2 ^ 2 + bit m.ta * 2 + bit m.tb

/-- An MMA word pair (R233). -/
def formMma (op : Nat) (m : MmaMod) (d a b : SReg) (t : AccSel) : Nat :=
  formL (formA op d a b m.code) t.code

/-- The `sd` field of `scmp` (R132). -/
def scmpField (c : Cond) (k : KReg) : Nat := c.code * 8 + k.val

/-- The bits of a scalar word, with the number of bits; none for lane words and events. -/
def encodeScalar : Instr → Option (Nat × Nat)
  | .sadd d a b => some (32, formA 1 d a b 0x00)
  | .ssub d a b => some (32, formA 1 d a b 0x01)
  | .smul d a b => some (32, formA 1 d a b 0x02)
  | .smulh n d a b => some (32, formA 1 d a b (bit n * 64 + 0x03))
  | .sdiv n d a b => some (32, formA 1 d a b (bit n * 64 + 0x04))
  | .smin n d a b => some (32, formA 1 d a b (bit n * 64 + 0x05))
  | .smax n d a b => some (32, formA 1 d a b (bit n * 64 + 0x06))
  | .sand d a b => some (32, formA 1 d a b 0x07)
  | .sor d a b => some (32, formA 1 d a b 0x08)
  | .sxor d a b => some (32, formA 1 d a b 0x09)
  | .sshl d a b => some (32, formA 1 d a b 0x0A)
  | .sshr d a b => some (32, formA 1 d a b 0x0B)
  | .ssra d a b => some (32, formA 1 d a b 0x0C)
  | .sclz d a => some (32, formA 1 d a 0 0x0D)
  | .spopc d a => some (32, formA 1 d a 0 0x0E)
  | .smov d a => some (32, formA 1 d a 0 0x0F)
  | .scmp c n k a b => some (32, formA 1 (scmpField c k) a b (bit n * 64 + 0x10))
  | .ssel d a b => some (32, formA 1 d a b 0x11)
  | .slea d a b => some (32, formA 1 d a b 0x12)
  | .saddImm d a i => some (32, formB 0x02 d a i)
  | .smulImm d a i => some (32, formB 0x03 d a i)
  | .sandImm d a i => some (32, formB 0x04 d a i)
  | .sorImm d a i => some (32, formB 0x05 d a i)
  | .sxorImm d a i => some (32, formB 0x06 d a i)
  | .sshlImm d a i => some (32, formB 0x07 d a i)
  | .sshrImm d a i => some (32, formB 0x08 d a i)
  | .ssraImm d a i => some (32, formB 0x09 d a i)
  | .sminImm d a i => some (32, formB 0x0A d a i)
  | .smaxImm d a i => some (32, formB 0x0B d a i)
  | .scmpImm c k a i => some (32, formB 0x0C (scmpField c k) a i)
  | .sleaImm d i => some (32, formB 0x0D d 0 i)
  | .smovi d i => some (32, formB 0x0E d 0 i)
  | .smovh d i => some (32, formB 0x0F d 0 i)
  | .smoviLong d i => some (64, formL (formA 0x7B d 0 0 0) i.toNat)
  | .smovhLong d i => some (64, formL (formA 0x7B d 0 0 1) i.toNat)
  | .saddLong d a i => some (64, formL (formA 0x7B d a 0 2) i.toNat)
  | .sandLong d a i => some (64, formL (formA 0x7B d a 0 3) i.toNat)
  | .sorLong d a i => some (64, formL (formA 0x7B d a 0 4) i.toNat)
  | .sxorLong d a i => some (64, formL (formA 0x7B d a 0 5) i.toNat)
  | .sb off => some (32, formC 0x10 0 0 off)
  | .sbk k s off => some (32, formC 0x11 k.val (bit s) off)
  | .scall off => some (32, formC 0x12 0 0 off)
  | .sret a => some (32, formA 0x13 0 a 0 0)
  | .sjmpr a => some (32, formA 0x14 0 a 0 0)
  | .sjmprL d a => some (32, formA 0x14 d a 0 1)
  | .sloop a n => some (32, formB 0x15 0 a n)
  | .sexit => some (32, formA 0x16 0 0 0 0)
  | .snop => some (32, formA 0x17 0 0 0 0)
  | .sld d a i => some (32, formB 0x18 d a i)
  | .sst d a i => some (32, formB 0x19 d a i)
  | .sldLong sz sgn d a i => some (64, formL (formA 0x7C d a 0 (sz.code * 32 + bit sgn * 16)) i.toNat)
  | .sstLong sz d a i => some (64, formL (formA 0x7C d a 0 (sz.code * 32 + 1)) i.toNat)
  | .sldv sc d a b i => some (64, formL (formA 0x7C d a b (sc.code * 8 + 2)) i.toNat)
  | .satom op o sc d a b i =>
    some (64, formL (formA 0x7C d a b (op.code * 8 + 3)) (sc.code * 2 ^ 30 + o.code * 2 ^ 28 + i.toNat))
  | .sfence o sc => some (32, formA 0x1A 0 0 0 (o.code * 4 + sc.code))
  | .swait c acq d a b => some (32, formA 0x1B d a b (bit acq * 8 + c.code))
  | .ldisp n => some (32, formB 0x1C 0 0 n)
  | .ldispReg a n => some (32, formB 0x1C 1 a n)
  | .lsync => some (32, formA 0x1D 0 0 0 0)
  | .slrd d n (.imm l) => some (32, formA 0x1E d n 0 l.val)
  | .slrd d n (.reg b) => some (32, formA 0x1E d n b 32)
  | .barInit b a => some (32, formA 0x20 0 a 0 b.toNat)
  | .barArr d b => some (32, formA 0x21 d 0 0 b.toNat)
  | .barWt b a => some (32, formA 0x22 0 a 0 b.toNat)
  | .barSync b => some (32, formA 0x23 0 0 0 b.toNat)
  | .barExp b a => some (32, formA 0x24 0 a 0 b.toNat)
  | .fbar d a => some (32, formA 0x25 d a 0 0)
  | .bthTake d a b => some (32, formA 0x26 d a b 0)
  | .bthPass a b => some (32, formA 0x27 0 a b 0)
  | .bthWait a t => some (32, formA 0x28 0 a 0 t.code)
  | .bthSet a b t => some (32, formA 0x29 0 a b t.code)
  | .bthFree a => some (32, formA 0x2A 0 a 0 0)
  | .bthQuery hi d a => some (32, formA 0x2B d a 0 (bit hi))
  | .xregAcq => some (32, formA 0x2C 0 0 0 0)
  | .xregRel => some (32, formA 0x2D 0 0 0 0)
  | .xcpy a b => some (32, formA 0x30 0 a b 0)
  | .xdrain p => some (32, formA 0x31 0 0 0 p.code)
  | .srt a => some (32, formA 0x32 0 a 0 0)
  | .xcol a => some (32, formA 0x33 0 a 0 0)
  | .tqTake d a => some (32, formA 0x34 d a 0 0)
  | .tqSteal d a => some (32, formA 0x35 d a 0 0)
  | .tqGive a b => some (32, formA 0x36 0 a b 0)
  | .glaunch q d a b => some (32, formA 0x37 d a b q.val)
  | .wsplit d a => some (32, formA 0x38 d a 0 0)
  | .wret a => some (32, formA 0x39 0 a 0 0)
  | .csrr n d => some (32, formA 0x40 d 0 0 0 + n.toNat)
  | .csrw n a => some (32, formA 0x41 0 a 0 0 + n.toNat)
  | .trap n => some (32, formA 0x42 0 0 0 0 + n.toNat)
  | .eret => some (32, formA 0x43 0 0 0 0)
  | .spchk n => some (32, formA 0x44 0 0 0 n.val)
  | .mmaBf16 m d a b t => some (64, formMma 0x70 m d a b t)
  | .mmaF16 m d a b t => some (64, formMma 0x71 m d a b t)
  | .mmaE4m3 m d a b t => some (64, formMma 0x72 m d a b t)
  | .mmaE5m2 m d a b t => some (64, formMma 0x73 m d a b t)
  | .mmaBx8 m d a b t => some (64, formMma 0x74 m d a b t)
  | .mmaBx6 m d a b t => some (64, formMma 0x75 m d a b t)
  | .mmaBx4 m d a b t => some (64, formMma 0x76 m d a b t)
  | .mmaLut4 m d a b t => some (64, formMma 0x77 m d a b t)
  | .mmaI8 m d a b t => some (64, formMma 0x78 m d a b t)
  | .accClr t row n => some (64, formL (formA 0x79 0 0 0 0) (accRows t row n))
  | .accLd t row n a => some (64, formL (formA 0x79 0 a 0 1) (accRows t row n))
  | .accSt f rm sat t row n a b =>
    some (64, formL (formA 0x79 0 a b 2)
      (bit sat * 2 ^ 31 + rm.code * 2 ^ 28 + f.code * 2 ^ 24 + accRows t row n))
  | .accAdd t row n a => some (64, formL (formA 0x79 0 a 0 3) (accRows t row n))
  | .accRenorm t row n a => some (64, formL (formA 0x79 0 a 0 4) (accRows t row n))
  | .accHdr w d t row =>
    some (64, formL (formA 0x79 d 0 0 5) (bit w * 2 ^ 18 + row.val * 2 ^ 12 + t.code))
  | .accScale t row n a => some (64, formL (formA 0x79 0 a 0 6) (accRows t row n))
  | .ctabW core q a => some (64, formL (formA 0x7A 0 a 0 0) (core.val * 4 + q.val))
  | .mwt n => some (64, formL (formA 0x7A 0 0 0 1) n.val)
  | .mfence sc => some (64, formL (formA 0x7A 0 0 0 2) sc.code)
  | .mbxTake d a => some (64, formL (formA 0x7A d a 0 3) 0)
  | .rqSend q a => some (64, formL (formA 0x7A 0 a 0 4) q.val)
  | _ => none

/-- The integer modifier word (R172). -/
def intModCode (ty : IntTy) (sat : Bool) : Nat := ty.code + bit sat * 4

/-- The floating modifier word (R177). -/
def FMod.code (m : FMod) : Nat :=
  m.rm.code + bit m.sat * 8 + bit m.na * 16 + bit m.nb * 32 + bit m.nc * 64

/-- The modifier word of `cvt` (R184). -/
def CvtMod.code (m : CvtMod) : Nat :=
  m.dty.code + m.sty.code * 2 ^ 4 + m.rm.code * 2 ^ 8 + bit m.sat * 2 ^ 11 + m.spos.val * 2 ^ 12
    + m.dpos.val * 2 ^ 14 + m.p.val * 2 ^ 16

/-- The modifier word of `cvt.sr` (R186). -/
def CvtSrMod.code (m : CvtSrMod) : Nat :=
  m.dty.code + bit m.sat * 2 ^ 11 + m.dpos.val * 2 ^ 14 + m.rbits.val * 2 ^ 16

/-- RM and RBITS of `qpack` (R188). -/
def QRound.code : QRound → Nat
  | .fixed rm => rm.code * 2 ^ 8
  | .sr r _ => 4 * 2 ^ 8 + r.val * 2 ^ 11

/-- The modifier word of `qpack` (R188). -/
def QPackMod.code (m : QPackMod) : Nat :=
  m.k.val + m.bsel.val * 4 + m.hd.code * 16 + m.rnd.code

/-- The modifier word of `qunpack` (R188). -/
def qunpackCode (k bsel : Fin 4) : Nat := k.val + bsel.val * 4

/-- The modifier word of `bxdot` (R188). -/
def bxdotCode (rm : Rm) (ba bb : Fin 4) : Nat := ba.val + bb.val * 4 + rm.code * 16

/-- SZ of a 32-bit or 64-bit access (R203). -/
def szCode (w : Bool) : Nat := if w then 3 else 2

/-- The row-8 modifier word (R203). -/
def memCode (off : BitVec 16) (sc ord sz rest : Nat) : Nat :=
  off.toNat * 2 ^ 16 + sc * 2 ^ 14 + ord * 2 ^ 12 + sz * 2 ^ 10 + rest

/-- Page, cell and modifier word of a lane instruction (R72, R73, R172 to R285). -/
def laneOp : Instr → Option (Nat × Nat × Nat)
  | .iadd _ ty s _ _ _ => some (0, 0x01, intModCode ty s)
  | .isub _ ty s _ _ _ => some (0, 0x02, intModCode ty s)
  | .imul _ ty s _ _ _ => some (0, 0x03, intModCode ty s)
  | .imad _ ty s _ _ _ _ => some (0, 0x04, intModCode ty s)
  | .imulh _ n _ _ _ => some (0, 0x05, bit n)
  | .idp4 _ x y s _ _ _ _ => some (0, 0x06, bit x + bit y * 2 + bit s * 4)
  | .iabs _ w s _ _ => some (0, 0x07, bit w * 2 + bit s * 4)
  | .imin _ ty _ _ _ => some (0, 0x08, ty.code)
  | .imax _ ty _ _ _ => some (0, 0x09, ty.code)
  | .icmp _ ty cc _ _ _ => some (0, 0x0A, ty.code + cc.code * 8)
  | .isel _ ty _ _ _ _ => some (0, 0x0B, ty.code)
  | .bool3 _ t _ _ _ _ => some (0, 0x0C, t.toNat)
  | .popc _ _ _ => some (0, 0x0D, 0)
  | .clz _ _ _ => some (0, 0x0E, 0)
  | .brev _ _ _ => some (0, 0x0F, 0)
  | .ishl _ ty _ _ _ => some (0, 0x10, ty.code)
  | .ishr _ ty _ _ _ => some (0, 0x11, ty.code)
  | .isra _ ty _ _ _ => some (0, 0x12, ty.code)
  | .ishf _ l _ _ _ _ => some (0, 0x13, bit l * 64)
  | .bfe _ n _ _ _ => some (0, 0x14, bit n)
  | .bfi _ _ _ _ _ => some (0, 0x15, 0)
  | .fadd _ pg m _ _ _ => some (pg.code, 0x20, m.code)
  | .fmul _ pg m _ _ _ => some (pg.code, 0x21, m.code)
  | .ffma _ pg m _ _ _ _ => some (pg.code, 0x22, m.code)
  | .fmin _ pg _ _ _ => some (pg.code, 0x23, 0)
  | .fmax _ pg _ _ _ => some (pg.code, 0x24, 0)
  | .fcmp _ pg cc hi _ _ _ => some (pg.code, 0x25, cc.code + bit hi * 8)
  | .fclass _ pg _ _ => some (pg.code, 0x26, 0)
  | .fscale _ rm s _ _ _ => some (0, 0x27, rm.code + bit s * 8)
  | .fdot2 _ bf m _ _ _ _ => some (if bf then 2 else 1, 0x28, m.code)
  | .frcp _ _ _ => some (0, 0x30, 0)
  | .frsq _ _ _ => some (0, 0x31, 0)
  | .fsqrt _ _ _ => some (0, 0x32, 0)
  | .fex2 _ _ _ => some (0, 0x33, 0)
  | .flg2 _ _ _ => some (0, 0x34, 0)
  | .fsin _ _ _ => some (0, 0x35, 0)
  | .fcos _ _ _ => some (0, 0x36, 0)
  | .cvt _ m _ _ => some (0, 0x40, m.code)
  | .cvtSr _ m _ _ _ => some (0, 0x41, m.code)
  | .hdm16 _ _ _ => some (0, 0x42, 0)
  | .hdm32 _ _ _ => some (0, 0x43, 0)
  | .qpackBx8 _ m _ _ _ => some (0, 0x44, m.code)
  | .qpackBx6 _ m _ _ _ => some (0, 0x45, m.code)
  | .qpackBx4 _ m _ _ _ => some (0, 0x46, m.code)
  | .qunpackBx8 _ k b _ _ _ => some (0, 0x48, qunpackCode k b)
  | .qunpackBx6 _ k b _ _ _ => some (0, 0x49, qunpackCode k b)
  | .qunpackBx4 _ k b _ _ _ => some (0, 0x4A, qunpackCode k b)
  | .bxdotBx8 _ rm x y _ _ _ _ => some (0, 0x4C, bxdotCode rm x y)
  | .bxdotBx6 _ rm x y _ _ _ _ => some (0, 0x4D, bxdotCode rm x y)
  | .bxdotBx4 _ rm x y _ _ _ _ => some (0, 0x4E, bxdotCode rm x y)
  | .mov _ w _ _ => some (0, 0x50, bit w)
  | .movi _ _ _ => some (0, 0x51, 0)
  | .xlane _ md vp w _ _ _ => some (0, 0x52, md.code + vp.val * 4 + bit w * 32)
  | .vote _ md _ _ => some (0, 0x53, md.code)
  | .rdlane _ vp _ _ _ => some (0, 0x54, vp.val * 4)
  | .lscan _ op ex _ _ => some (0, 0x55, op.code + bit ex * 8)
  | .cmp24 _ ty _ _ => some (0, 0x56, ty.code)
  | .pset _ t _ _ _ _ => some (0, 0x57, t.toNat)
  | .pmov _ mk _ _ => some (0, 0x58, bit mk)
  | .ld _ off sz sg _ _ _ => some (0, 0x80, memCode off 0 0 sz.code (bit sg * 2 ^ 9))
  | .st _ off sz _ _ _ => some (0, 0x81, memCode off 0 0 sz.code 0)
  | .ldR _ off sc acq w _ _ _ => some (0, 0x82, memCode off sc.code (bit acq) (szCode w) 0)
  | .stR _ off sc rel w _ _ _ => some (0, 0x83, memCode off sc.code (bit rel * 2) (szCode w) 0)
  | .ldv _ off sc _ _ _ _ => some (0, 0x84, memCode off sc.code 0 3 0)
  | .lds _ off sz sg _ _ _ => some (0, 0x85, memCode off 0 0 sz.code (bit sg * 2 ^ 9))
  | .sts _ off sz _ _ _ => some (0, 0x86, memCode off 0 0 sz.code 0)
  | .atom _ off op o sc w _ _ _ _ => some (0, 0x87, memCode off sc.code o.code (szCode w) (op.code * 16))
  | .atomX _ off xf p rel sc _ _ _ =>
    some (0, 0x88, memCode off sc.code (bit rel * 2) 3 (bit xf * 2 ^ 8 + p.val * 4))
  | .red _ off op rel sc w _ _ => some (0, 0x89, memCode off sc.code (bit rel * 2) (szCode w) (op.code * 16))
  | .mwait _ off w _ _ _ => some (0, 0x8A, memCode off 0 0 (szCode w) 0)
  | .fence _ o sc => some (0, 0x8B, memCode 0 sc.code o.code 0 0)
  | .bra _ t _ => some (0, 0x90, t.toNat)
  | .braLoop _ t _ => some (0, 0x90, 2 ^ 30 + t.toNat)
  | .brk _ => some (0, 0x91, 0)
  | .cont _ => some (0, 0x92, 0)
  | .join _ => some (0, 0x93, 0)
  | .joinLatch _ => some (0, 0x93, 1)
  | .call _ t => some (0, 0x94, t.toNat)
  | .ret _ => some (0, 0x95, 0)
  | .exit _ => some (0, 0x96, 0)
  | .exitKill _ => some (0, 0x96, 1)
  | .nap _ n => some (0, 0x97, n.toNat)
  | .rgn _ => some (0, 0x98, 0)
  | .gproj _ _ _ _ => some (0, 0xC0, 0)
  | .pproj _ _ _ _ => some (0, 0xC1, 0)
  | .geval _ _ _ _ => some (0, 0xC2, 0)
  | .gblend _ vp _ _ _ => some (0, 0xC3, vp.val * 4)
  | .gback _ vp _ _ _ _ => some (0, 0xC4, vp.val * 4)
  | .gscat _ tm fx p _ _ => some (0, 0xC5, tm.toNat * 2 ^ 16 + bit fx * 2 ^ 15 + p.val * 2 ^ 9)
  | .rgen _ _ _ _ => some (0, 0xC6, 0)
  | .trace _ pb _ _ _ _ => some (0, 0xC7, pb.val)
  | .rayld _ wd w _ _ _ => some (0, 0xC8, wd.val + bit w * 32)
  | .rayst _ wd w _ _ _ => some (0, 0xC9, wd.val + bit w * 32)
  | .hitq _ _ _ _ => some (0, 0xCA, 0)
  | .rpush _ _ _ => some (0, 0xCB, 0)
  | .rpop _ _ _ => some (0, 0xCC, 0)
  | .fbw _ off f _ _ _ => some (0, 0xCD, off.toNat * 2 ^ 16 + f.code)
  | _ => none

/-- The join index that the operand fields hold (R216). -/
def laneJoin : Instr → Nat
  | .bra _ _ j => j.toNat
  | .braLoop _ _ j => j.toNat
  | _ => 0

/-- The name code a source slot holds; 0 when it is unused or immediate. -/
def slotCode : Option (Src × Cls) → Nat
  | some (.reg o, _) => o.code
  | some (.imm _, _) => 0
  | none => 0

/-- The immediate that a source slot holds. -/
def slotImm : Option (Src × Cls) → Option W32
  | some (.imm x, _) => some x
  | _ => none

/-- The fields of a lane instruction's word (R53, R56). -/
def rawOf (i : Instr) (li : LaneInfo) (page cell m : Nat) : RawLane :=
  let j := laneJoin i
  let d := (match li.d with
    | some (o, _) => o.code
    | none => 0) + fld j 24 8
  let a := slotCode li.a + fld j 16 8
  let b := slotCode li.b + fld j 8 8
  let c := slotCode li.c + fld j 0 8
  match slotImm li.a, slotImm li.b, slotImm li.c with
  | some x, _, _ => { page, cell, hdr := li.hdr, d, a := m, b, c, f := 1, x := x.toNat }
  | none, some x, _ => { page, cell, hdr := li.hdr, d, a, b := m, c, f := 2, x := x.toNat }
  | none, none, some x => { page, cell, hdr := li.hdr, d, a, b, c := m, f := 3, x := x.toNat }
  | none, none, none => { page, cell, hdr := li.hdr, d, a, b, c, f := 0, x := m }

/-- The fields of a lane instruction's word; none for scalar words and events. -/
def encodeRaw (i : Instr) : Option RawLane :=
  match i.laneInfo, laneOp i with
  | some li, some (page, cell, m) => some (rawOf i li page cell m)
  | _, _ => none

/-- The bits of an instruction's words, with the number of bits; none for events, which have no encoding. -/
def encode (i : Instr) : Option (Nat × Nat) :=
  match encodeRaw i with
  | some r => some (96, r.toWord)
  | none => encodeScalar i

end Sys2Proof
end

