-- ==== Sys2Proof/Machine/State.lean ====
section
/-!
DEFINITION. The state of the machine as plain data (chapter 01 and the state that chapters 02 to 18 name), the
fault and refusal reasons, and the state after reset.

Keys. A die is 0 to 3, a cluster 16 * die + cluster, a core 4 * cluster + core, a gang 32 * core + gang slot,
a crew 32 * core + crew slot. A table is a list of keys and values with no key twice.
-/

namespace Sys2Proof.Machine

/-- A table: keys and values, ascending keys, no key twice. -/
abbrev Tbl (α : Type) := List (Nat × α)

/-- Memory: the bytes that differ from 0, by ascending address (Host.Cell). -/
abbrev Memory := List Host.Cell

/-! ## Traps -/

/-- The codes of R373. -/
inductive Code where
  | illegalOp | extreg | queueMap | stallShort | align | range | owner | berthState | barrier | weight
  | copy | opformat | divStack | traceDepth | payload | regionOverflow | rayState | page | race | userTrap
  | trapState | preempt | nest | ecc | fabric | handlerFault | engine | coolant | linkKey
  deriving DecidableEq, Repr

/-- The causes of a failed translation (R300); `ecc` is poison that the walk or the device's own access meets, which is
the fault ECC and no PAGE (R296). -/
inductive PageCause where
  | varange | absent | demand | write | part | key | malformed | badpa | ecc
  deriving DecidableEq, Repr

/-- A fault as it is raised: what the trap record of R374 takes from it. -/
structure Trap where
  code : Code
  cause : Option PageCause := none
  info : W32 := 0
  va : W64 := 0
  stamp : W32 := 0
  nmask : Mask := 0
  /-- device-level whatever its code: an error answer of another package (R424) -/
  hard : Bool := false
  deriving DecidableEq, Repr

/-- The routine that a context in handler mode runs (R375, R376, R382 to R384). -/
inductive Routine where
  | trap
  | save (n : Nat)
  | restore (n : Nat)
  deriving DecidableEq, Repr

/-! ## Scalar contexts -/

/-- What a scalar stream waits for beyond a re-check of its instruction (R369). -/
inductive ScalarWait where
  | none
  /-- the instruction has been issued and waits; it checks its condition again on its turns (R369) -/
  | stall
  /-- asleep on a line monitor (R292) -/
  | asleep (line : Nat)
  /-- asleep without a monitor (R292) -/
  | polling
  /-- `bar.wt`, or `bar.sync` after its arrival, waits at the barrier (R147) -/
  | barWait (b : Nat) (arrived : Bool)
  /-- the phase that it waited for has completed (R39) -/
  | barDone
  /-- a request for a grant of the amount is out (R161) -/
  | grant (x : W64)
  /-- the grant has been answered -/
  | granted (x : W64)
  /-- `glaunch` holds the reserved slot and the packet that it read while it waits for a grant (R163) -/
  | launchSlot (tail : Nat) (x : W64) (packet : List Byte)
  /-- ... and the grant has been answered -/
  | launchGranted (tail : Nat) (x : W64) (packet : List Byte)
  /-- an `acc.*` contribution is at the port (R250) -/
  | acc
  /-- it has been applied, with the value for `sd` or a fault -/
  | accDone (v : W64)
  /-- `xdrain` waits for the copies with these numbers (R156) -/
  | drain (ids : List Nat)
  /-- `fbar` has read its descriptor and settles (R439) -/
  | fbarRead (bytes : List Byte)
  /-- `fbar` has arrived (R148) -/
  | fbar
  /-- the barrier has answered with the rank -/
  | fbarDone (rank : W64)
  /-- a remote request is out (R425) -/
  | remote (id : Nat)
  /-- its answer (R425) -/
  | answered (bytes : List Byte)
  /-- its error answer (R424) -/
  | answerErr (t : Trap)
  /-- a fabric compare-and-swap on the line read is out (R159) -/
  | casOut (id : Nat) (line : List Byte)
  /-- ... and its old value has come -/
  | casBack (line old : List Byte)
  deriving DecidableEq, Repr

/-- The scalar stream of a gang or a pilot (R18, R20, R24). -/
structure ScalarCtx where
  pc : W64
  s : Vector W64 64
  k : Vector Bool 4
  /-- handler mode (R375) -/
  mode : Option Routine
  wait : ScalarWait
  /-- byte address of the trap-record slot (R42, R46, R379) -/
  trapslot : W64
  /-- where the instruction stands that has slept on a line: awake, it checks its condition again without a port (R369) -/
  slept : Option W64 := none
  deriving DecidableEq, Repr

/-! ## Lane streams -/

/-- What an LPC slot waits for beyond a re-check of its word (R58). -/
inductive LaneWait where
  | none
  /-- asleep on line monitors (R292) -/
  | asleep
  /-- asleep without a monitor (R292) -/
  | polling
  /-- napping until the arithmetic cycle (R226) -/
  | nap (till : Nat)
  /-- reads of other packages' lines are out (R425) -/
  | remote (ids : List Nat)
  deriving DecidableEq, Repr

/-- A lane program-counter slot (R20). -/
structure Lpc where
  live : Bool
  index : Nat
  mask : Mask
  /-- the next word issues no earlier (R59) -/
  earliest : Nat
  /-- starts at an address other than its fall-through (R63) -/
  fresh : Bool
  wait : LaneWait
  /-- of an `ldv`: the lanes that are satisfied with their values (R208) -/
  got : List (Nat × W64)
  /-- lines of other packages that have been read for the word -/
  lines : List (Nat × List Byte)
  deriving DecidableEq, Repr

/-- An entry of the lane dispatch queue (R21, R388). -/
structure Dispatch where
  index : Nat
  arm : Bool
  deriving DecidableEq, Repr

/-- The arm of `sloop` (R135, R388). -/
structure Arm where
  count : W32
  len : Nat
  /-- first word of the block that carries the arm -/
  start : Nat
  /-- attached to the live block -/
  active : Bool
  /-- returns to the first word that are still to come -/
  left : Nat
  deriving DecidableEq, Repr

/-- A lane register or predicate that a word writes, or the queue that it pushes when it completes. -/
inductive LaneDst where
  | v (n : VReg)
  | p (n : PReg)
  | q (n : QReg)
  deriving DecidableEq, Repr

/-- One destination of a pending write: the enabled lanes and their values. A predicate takes bit 0. -/
structure LaneWrite where
  dst : LaneDst
  mask : Mask
  vals : LaneVec
  deriving DecidableEq, Repr

/-- A fixed-latency result that has not landed (R59, R64). -/
structure FixPend where
  writes : List LaneWrite
  landAt : Nat
  token : Nat
  deriving DecidableEq, Repr

/-- How a loaded value is put into a register (R206). -/
inductive LoadFmt where
  | z8 | s8 | z16 | s16 | w32 | w64
  deriving DecidableEq, Repr

/-- Where a loaded or old value goes: the register, and for `w64` the one after it; or a queue. -/
structure Back where
  reg : LaneDst
  fmt : LoadFmt
  deriving DecidableEq, Repr

/-- What one lane of a word does outside the lane registers (chapters 07 and 09). `d` fields name destinations; none
stands for the operand `zero`. -/
inductive MemOp where
  | load (va : W64) (n : Nat) (strong : Bool) (d : Option Back)
  /-- a plain store; `strong` for `st.r` -/
  | store (va : W64) (strong : Bool) (bs : List Byte)
  /-- scratchpad: pool address core * 2^20 + byte -/
  | pload (pa n : Nat) (d : Option Back)
  | pstore (pa : Nat) (bs : List Byte)
  | atom (op : AtomOp) (w64 : Bool) (va c cmp : W64) (d : Option Back)
  | red (op : RedOp) (w64 : Bool) (va v : W64)
  /-- an FX64 addition, at a point -/
  | fx (va v : W64) (p : Nat) (d : Option Back)
  /-- a version word that is waited for (R208) -/
  | ldv (va c : W64) (d : Option Back)
  /-- the pixel y and x and the splat's address -/
  | geval (va : W64) (pix : W32) (d : VReg)
  | gblend (va : W64) (alpha : W32) (st : Vector W32 8) (d : VReg) (vp : PReg)
  /-- `mix`: free values of the registers that are in both groups, when one group is both (log 17) -/
  | gback (va : W64) (pix : W32) (st : Vector W32 16) (d c : VReg) (vp : PReg) (mix : Option (Vector W32 6))
  | rpush (pool : W64) (d : Option LaneDst)
  | rpop (pool : W64) (ray : W32)
  | rgen (pool : W64) (ray pix : W32)
  | trace (pool : W64) (ray level : W32) (pb : Nat)
  | rayld (pool : W64) (ray : W32) (word n : Nat) (d : Option Back)
  | rayst (pool : W64) (ray : W32) (word : Nat) (bs : List Byte)
  | hitq (pool : W64) (ray : W32) (d : VReg)
  /-- the ray that an `rpush` has taken, none of an exhausted pool: its record at `va` is to be written (R279) -/
  | rtake (va : W64) (ray : Option W32) (d : Option LaneDst)
  /-- the ray that an `rpop` has made free, whose record is at `va`: it is to join its pool's free list, and its software
  word holds `link` once it is written (R279) -/
  | rlink (pool va : W64) (ray : W32) (link : Option W32)
  /-- of a ray that a `trace` has put in flight: the payload bytes that it carries are to be read (R282) -/
  | rcarry (va : W64) (ray : W32) (n : Nat)
  deriving DecidableEq, Repr

/-- Bytes that an access takes from one line: home package, line, offset, number of bytes and key id. -/
structure Seg where
  home : Nat
  line : Nat
  off : Nat
  n : Nat
  key : Nat
  deriving DecidableEq, Repr

/-- A `var` word that has issued and not completed: its results so far, its token, its remote requests that have not
been answered, the reads that take their bytes from the answers, the lines answered, and the effects that its gang held
when it issued (R61, R64, R229, R425). -/
structure VarPend where
  id : Nat
  slot : Fin 2
  index : Nat
  /-- the registers and predicates that it writes -/
  dsts : List LaneDst
  writes : List LaneWrite
  token : Nat
  remote : List Nat
  reads : List (Fin 32 × MemOp × List Seg)
  got : List (Nat × Nat × List Byte)
  own : List (MemOp × List Seg)
  /-- operations on the rays of other packages that are still to be performed (R278 to R284, R425) -/
  rays : List (Fin 32 × MemOp)
  /-- of a `trace`: its lanes' operations, for the entry that it pushes when they are all made (R282), and the payload
  bytes that have been read for their rays -/
  traces : List (Fin 32 × MemOp)
  pays : Tbl (List Byte)
  /-- it acquires, and it makes strong accesses: later words wait for it (R324, R426) -/
  acq : Bool
  strong : Bool
  /-- its run has ended: a fault found from now on is due (R205, R378) -/
  ended : Bool
  deriving DecidableEq, Repr

/-- A fault found after issue and not yet delivered, with the accesses that were not performed (R205, R377, R378). -/
structure LateFault where
  /-- the number of the word's issue: of two words, the one that issued first has the lower number (R378) -/
  no : Nat
  slot : Fin 2
  index : Nat
  token : Nat
  trap : Trap
  ops : List (Fin 32 × MemOp)
  /-- its delivery point has been reached -/
  due : Bool
  deriving DecidableEq, Repr

/-- The push that a word makes with the lanes whose access is to be repeated: the number of its issue, its place, and the
results that it has (R29, R377). -/
structure Owed where
  no : Nat
  slot : Fin 2
  index : Nat
  writes : List LaneWrite
  deriving DecidableEq, Repr

/-- A word of a replayable crew whose effects are held in the release buffer (R229, R286). -/
structure Held where
  no : Nat
  slot : Fin 2
  index : Nat
  ops : List (Fin 32 × MemOp)
  /-- the scope of a held release (R329) -/
  rel : Option Scope
  /-- it makes strong accesses (R426) -/
  strong : Bool
  deriving DecidableEq, Repr

/-- The replay point of a gang (R228, R388). -/
structure Replay where
  index : Nat
  mask : Mask
  depth : Nat
  deriving DecidableEq, Repr

/-- What the next word of a run that waits has found missing (R366): earlier words' accesses, to a strong word those of its
strong ones too (R324, R426); room for so many bytes in the release buffer (R229); earlier acquires (R327); what a release
at a scope waits for; the gang's commit; the completion of its earlier words (R228); or a line of its context area in another package (R293). -/
inductive Stall where
  | order (strong : Bool)
  | buffer (n : Nat)
  | acquires
  | release (sc : Scope)
  | commit
  | quiet
  | area
  deriving DecidableEq, Repr

/-- The run in execution (R58, R366). -/
structure Run where
  slot : Fin 2
  words : Nat
  /-- it has given up its issue slot -/
  waiting : Bool
  /-- what its next word waits for beyond the issue test of R59 to R63 -/
  stall : Option Stall := none
  deriving DecidableEq, Repr

/-- A gang (R17, R20 to R26). -/
structure Gang where
  crew : Nat
  gidx : Nat
  sc : ScalarCtx
  lpc : Vector Lpc 2
  queue : List Dispatch
  arm : Option Arm
  /-- lanes exited by `exit.kill` (R223) -/
  killed : Mask
  v : Vector LaneVec 64
  p : Vector Mask 7
  /-- the held extended block (R25) -/
  ext : Option Nat
  qmap : Vector Byte 16
  /-- accumulator-port cursors (R248) -/
  cursor : Vector (BitVec 7) 16
  /-- `ctl.chk` bit 0 (R42) -/
  chk : Bool
  /-- tokens 1 to 6 at 0 to 5 (R61) -/
  tokens : Vector Nat 6
  fix : List FixPend
  var : List VarPend
  late : List LateFault
  dbase : W64
  depth : Nat
  napCursor : Option Nat
  run : Option Run
  lastSlot : Fin 2
  /-- lost arbitrations for an issue slot, and the number of its promotion (R368) -/
  lost : Nat
  promoted : Option Nat
  /-- the same of the scalar issue ports -/
  slost : Nat
  spromoted : Option Nat
  held : List Held
  /-- held words whose commit has begun: the first of them waits for answers of other packages (R329, R426) -/
  commits : List Held
  /-- the amount held, and the count of the region (R229) -/
  heldBytes : Nat
  region : Nat
  replay : Option Replay
  /-- absence bits of the base granules (R33) -/
  absent : BitVec 8
  /-- parked by a save routine (R382), to be resumed by the restore routine of safe point n -/
  parked : Option Nat
  /-- accesses of the trapped word that `eret` performs again (R377) -/
  redo : List (Fin 32 × MemOp)
  /-- pushes of words with lanes whose access is to be repeated (R29, R377) -/
  owes : List Owed := []
  /-- a DEMAND fault or a request holds the crew for a kill: the gang issues nothing (R305, R386) -/
  frozen : Bool
  deriving DecidableEq, Repr

/-! ## Crews -/

/-- The partition word of a crew (R31). -/
structure PartWord where
  total : Nat
  ext : Nat
  acc : Nat
  rf : Nat
  deriving DecidableEq, Repr

/-- A named barrier (R38). -/
structure Barrier where
  pend : W32
  phase : Bool
  expect : Nat
  arrived : Nat
  deriving DecidableEq, Repr

/-- An accumulator row (R40, R121): its mantissas by element, those that are not listed being 0. -/
structure AccRow where
  exp : Int
  head : Nat
  empty : Bool
  m : Tbl (BitVec 48)
  deriving DecidableEq, Repr

/-- An accumulator tile with its counts (R40, R245): rows that are not listed are empty. -/
structure Tile where
  rows : Tbl AccRow
  events : W32
  drops : W32
  deriving DecidableEq, Repr

/-- A block of the extended pool (R25, R33): registers that are not listed hold 0. -/
structure ExtBlock where
  regs : Tbl LaneVec
  absent : BitVec 16
  holder : Option Nat
  deriving DecidableEq, Repr

/-- A pending pre-emption of a crew (R382, R383): the `cyc` of its die at the request. -/
structure PreReq where
  at_ : Nat
  deriving DecidableEq, Repr

/-- A crew (R17, R19, R31 to R33, R38 to R42, R318, R359). -/
structure Crew where
  tag : Nat
  grid : Nat
  index : Nat
  part : PartWord
  /-- first unit of the allotment (R289) -/
  unit : Nat
  /-- gang slots, in gang-index order; those that have ended are none -/
  gangs : List (Option Nat)
  /-- the gang slots that it holds until it retires, in gang-index order (R362) -/
  slots : List Nat
  wgt : W64
  bars : List Barrier
  tiles : List Tile
  ext : List ExtBlock
  /-- gangs that wait in `xreg.acq`, oldest first (R154) -/
  acqs : List Nat
  seq : BitVec 5
  /-- open-line log: lines and the sequence they were opened under (R318) -/
  log : List (Nat × BitVec 5)
  ctx : W64
  ctxLen : Nat
  preempt : Option PreReq
  /-- order of placement in the partition (R368) -/
  order : Nat
  /-- retirement is under way: every gang has ended (R136) -/
  ending : Bool
  /-- weight that `wret` has returned and that goes home behind the crew's accesses: the amounts, and whether the phase
  record is in another package (R162, R328) -/
  owed : List (W64 × Bool) := []
  deriving DecidableEq, Repr

/-- A crew that is off its core after a pre-emption or a kill (R383, R386). -/
structure AwayCrew where
  crew : Crew
  killed : Bool
  /-- per gang index: its routine's safe point, for a gang that had parked (R384); of a killed crew, some number for
  a gang that had not ended -/
  parked : List (Option Nat)
  /-- held blocks by gang index -/
  holds : List (Option Nat)
  /-- first words of the armed blocks that were live, by gang index (R389) -/
  starts : List (Option Nat)
  deriving DecidableEq, Repr

/-! ## Pilots and matrix engines -/

/-- A pilot and the program it runs (R18, R42, R379). -/
structure Pilot where
  grid : Nat
  sc : ScalarCtx
  chk : Bool
  ctx : W64
  deriving DecidableEq, Repr

/-- The element formats of an MMA (R235). -/
inductive MmaFmt where
  | bf16 | f16 | e4m3 | e5m2 | bx8 | bx6 | bx4 | lut4 | i8
  deriving DecidableEq, Repr

/-- A reference to an operand tile (R234): core and index of the berth, its first line, and the offsets. -/
structure OpRef where
  core : Nat
  idx : Nat
  line : Nat
  off : Nat
  soff : Nat
  deriving DecidableEq, Repr

/-- A queued MMA or table write of a matrix engine (R231, R258). `ix` is the index berth, whose entries are `idx`. -/
inductive EngineJob where
  | mma (fmt : MmaFmt) (m : MmaMod) (a b : OpRef) (ix : Option OpRef) (idx : List Nat) (crew tile pilot : Nat)
  | ctab (q : Fin 4) (v : W64)
  deriving DecidableEq, Repr

/-- One factor product of a batch: element, significand and exponent (R117, R245). -/
structure Product where
  elem : Nat
  sig : Int
  exp : Int
  deriving DecidableEq, Repr

/-- The products of one row (R245): those that are not zero, how many it has after drops, and how many were dropped. -/
structure Batch where
  row : Nat
  products : List Product
  count : Nat
  drops : Nat
  deriving DecidableEq, Repr

/-- Who issued a contribution (R247). -/
inductive Issuer where
  | gang (g : Nat)
  | pilot (cl : Nat)
  deriving DecidableEq, Repr

/-- What made a contribution of batches (R247). -/
inductive BatchFrom where
  /-- an MMA, or an `acc.add`: the crews whose berths it has read (R244) -/
  | mma (owners : List Nat)
  | push
  | add (owners : List Nat)
  deriving DecidableEq, Repr

/-- A contribution on its way to a core's accumulator port (R247). -/
inductive AccJob where
  | batches (b : List Batch) (crew tile : Nat) (by_ : Issuer) (from_ : BatchFrom)
  | clr (crew tile row n : Nat) (by_ : Issuer)
  | ld (rows : List (Nat × List Byte)) (crew tile : Nat) (by_ : Issuer) (owners : List Nat)
  | st (fmt : AccFmt) (rm : RmSr) (sat : Bool) (seed : W64) (dst : OpRef) (crew tile row n : Nat) (by_ : Issuer)
  | renorm (x : Int) (crew tile row n : Nat) (by_ : Issuer)
  | scale (x : Int) (crew tile row n : Nat) (by_ : Issuer)
  | hdr (w : Bool) (crew tile row : Nat) (by_ : Issuer)
  /-- the place of a push at cursor `c` whose word `var` of gang `g` has issued and not completed (R78) -/
  | hole (g var c crew tile : Nat)
  deriving DecidableEq, Repr

/-! ## Cores and clusters -/

/-- The states of a berth (R35). -/
inductive BerthState where
  | free | filling | full | draining
  deriving DecidableEq, Repr

/-- The holder of a berth (R35). -/
inductive Holder where
  | none
  | crew (core slot : Nat)
  | pilot
  | lighter
  deriving DecidableEq, Repr

/-- A berth entry (R35). -/
structure Berth where
  own : Nat
  gen : BitVec 7
  state : BerthState
  holder : Holder
  count : Nat
  size : Nat
  base : Nat
  deriving DecidableEq, Repr

/-- A cached translation (R302). -/
structure TlbEntry where
  asid : Nat
  /-- first address and size of the page -/
  va : Nat
  size : Nat
  frame : Nat
  key : Nat
  home : Nat
  pmask : Nat
  rc : Bool
  cache : Nat
  wr : Bool
  deriving DecidableEq, Repr

/-- Who started an engine's operation: the address space, partition and grid, and the crew's index and tag for a
report (R459); the generator has no crew. -/
structure Starter where
  asid : Nat
  part : Nat
  /-- slot and id of the grid -/
  grid : Nat
  gid : W32
  index : Nat
  tag : Nat
  /-- the launch queue whose dispatcher it is -/
  queue : Option Nat := none
  deriving DecidableEq, Repr

/-- A copy descriptor's snapshot with its slices (R331, R337, R338). -/
structure Slices where
  crew : Nat
  addr : W64
  desc : List Byte
  n : Nat
  given : List Nat
  deriving DecidableEq, Repr

/-- A part of a copy that reaches another package, while it is moved (R307, R308): its elements, those that have been
moved, the pages of its source and destination where they are memory, and the line of another package that was read
for the next element. -/
structure CopyPart where
  len : Nat
  moved : Nat
  src : Option TlbEntry
  dst : Option TlbEntry
  line : Option (List Byte)
  deriving DecidableEq, Repr

/-- An entry of an emit stream (R28, R157): lanes 0 to 31 and their mask. -/
structure EmitEntry where
  vals : LaneVec
  mask : Mask
  deriving DecidableEq, Repr

/-- A step of an engine's operation (R271, R282, R341, R401). Every one but `put` is a release of those before it. `check`
stands for an atomic that checks its line's stamp (R310). -/
inductive UnitStep where
  /-- bytes are stored -/
  | put (va : W64) (bs : List Byte)
  /-- a word of n bytes is raised by v -/
  | add (va : W64) (n : Nat) (v : W64) (check : Bool)
  /-- bits of a word of n bytes are set -/
  | set (va : W64) (n : Nat) (v : W64) (check : Bool)
  /-- word 9 of a ray record takes STATUS, and its ray is done -/
  | done (va : W64) (status : Nat)
  /-- a ray is put on its pool's free list -/
  | free (pool : W64) (ray : W32)
  /-- entries go to an emit stream of the die -/
  | emit (stream : Nat) (l : List EmitEntry)
  deriving DecidableEq, Repr

/-- A started copy (R339 to R342). -/
structure Copy where
  id : Nat
  /-- crew key, and the crew's tag and grid -/
  crew : Nat
  who : Starter
  addr : W64
  desc : List Byte
  /-- elements of completed parts, and bytes of B subtracted from PEND (R307, R341) -/
  done : Nat
  paid : Nat
  part : Option CopyPart
  /-- the tag of the crew that DHOLD = 2 names, when the copy was started -/
  dtag : Option Nat
  /-- its bytes have been subtracted and its berths given back (R341) -/
  ended : Bool
  /-- what remains of its completion -/
  work : List UnitStep
  /-- waits for the acknowledgement of a page fault (R306) -/
  paused : Bool
  /-- it ends with an error (R342) -/
  failed : Option Trap
  deriving DecidableEq, Repr

/-- A race stamp (R317). -/
structure Stamp where
  tag : Nat
  open_ : Bool
  seq : BitVec 5
  deriving DecidableEq, Repr

/-- A line that an L1 holds (R290): its stamp, the key id and key that it was read under, and the granules of the copy
that are poisoned (R296). -/
structure L1Line where
  line : Nat
  stamp : Stamp
  key : Nat
  load : Nat
  bad : List Nat
  deriving DecidableEq, Repr

/-- The scalar issue ports of a core (R368): the cycle of the last arbitration, and the gangs that won it and have not
issued. -/
structure ScalarPorts where
  cycle : Nat
  win : List Nat
  deriving DecidableEq, Repr

/-- A core (R35, R116, R231, R247, R290, R292, R302, R366). -/
structure Core where
  berths : Tbl Berth
  tlb : List TlbEntry
  l1 : List L1Line
  /-- armed line monitors: the waiter and the line -/
  monitors : List (Waiter × Nat)
  engine : List EngineJob
  lut : Vector (BitVec 16) 16
  port : List AccJob
  slices : List Slices
  /-- issue slots: the gang that holds each -/
  issue : Vector (Option Nat) 4
  sports : ScalarPorts
  deriving DecidableEq, Repr

/-- An entry of the pilot mailbox or a result queue (R29, R260). -/
structure QEntry where
  grid : Nat
  vals : LaneVec
  mask : Mask
  core : Nat
  gslot : Nat
  /-- the gang and its word that has issued and not completed: the entry holds its place (R78) -/
  hole : Option (Nat × Nat)
  deriving DecidableEq, Repr

/-- What the projection stage reads once for an entry (R394): the job, the header of its parameter block and the entries of
the selected views. -/
structure ProjBlock where
  job : List Byte
  head : List Byte
  views : List (Nat × List Byte)
  deriving DecidableEq, Repr

/-- The item in work (R271): the record and the keys of each splat, the first splat index once it is reserved, and the
steps that remain once the key slots are. -/
structure ProjItem where
  splats : List (List Byte × List Nat)
  first : Option Nat
  work : Option (List UnitStep)
  /-- it has been abandoned (R486) -/
  lost : Bool
  deriving DecidableEq, Repr

/-- An entry of a projection input (R269): the lanes that remain. -/
structure ProjEntry where
  who : Starter
  items : List W32
  addr : W64
  point : Bool
  block : Option ProjBlock
  item : Option ProjItem
  deriving DecidableEq, Repr

/-- An entry of a traversal input (R282, R400): ray indexes, the pool, the payload bytes and the generator job that
emitted it. -/
structure TravEntry where
  who : Starter
  rays : List W32
  /-- the payload bytes of each ray, as they stood when it went in flight; none where they are still to be read -/
  pays : List (Option (List Byte))
  pool : W64
  pb : Nat
  gen : Option Nat
  deriving DecidableEq, Repr

/-- A fraction: numerator, and a denominator above 0. -/
abbrev Frac := Int × Nat

/-- a + sqrt b, or a - sqrt b when `neg`; b is at least 0. -/
structure Root where
  a : Frac
  neg : Bool
  b : Frac
  deriving DecidableEq, Repr

/-- A hit: t, INST, PRIM, u and v. -/
structure Hit where
  t : Root
  inst : W32
  prim : W32
  u : Frac
  v : Frac
  deriving DecidableEq, Repr

/-- A traversal in progress (R283): the pool descriptor and the ray record that it was begun with, the entries on the
chip, top first, how many have been spilled under them, the instance record of the frame, the best hit, whether a test
met an operand that is not finite, and whether the stack has overflowed. -/
structure Trav where
  pool : List Byte
  rec_ : List Byte
  chip : List W64
  spilled : Nat
  frame : Option (List Byte)
  best : Option Hit
  odd : Bool
  spent : Bool
  deriving DecidableEq, Repr

/-- A ray in flight that the traversal unit has taken (R282): its pool, the payload bytes that it carries, its traversal
once it has begun, and what remains of its end. Of a ray of a generator: its depth once it is known, and whether its maps
are in hand (R401). -/
structure Ray where
  id : Nat
  who : Starter
  index : W32
  pool : W64
  gen : Option Nat
  payload : List Byte
  trav : Option Trav
  work : Option (List UnitStep)
  /-- it has been abandoned (R486) -/
  lost : Bool
  depth : W32
  mapped : Bool
  deriving DecidableEq, Repr

/-- A cluster's units (R260, R265, R340). -/
structure Cluster where
  mailbox : List QEntry
  rq : Tbl (List QEntry)
  copies : List Copy
  copyNo : Nat
  projQ : List ProjEntry
  /-- the entry in work -/
  proj : Option ProjEntry
  travQ : List TravEntry
  rays : List Ray
  deriving DecidableEq, Repr

/-! ## Grids -/

/-- The kernel header as the dispatcher read it (R90, R93, R94). -/
structure Kernel where
  image : W64
  textOff : Nat
  textSize : Nat
  laneOff : Nat
  laneCount : Nat
  sentry : Nat
  pentry : Nat
  handler : Nat
  phandler : Nat
  gangs : Nat
  barriers : Nat
  depth : Nat
  payload : Nat
  dstack : Nat
  nsafe : Nat
  safe : List (Nat × Nat)
  replay : Bool
  pilot : Bool
  part : PartWord
  deriving DecidableEq, Repr

/-- A live grid (R350, R355 to R358). -/
structure Grid where
  id : W32
  asid : Nat
  /-- execution partition, by its lowest die (R299) -/
  part : Nat
  /-- die of its dispatcher (R353) -/
  die : Nat
  cls : Nat
  parent : Option Nat
  /-- the packets that its `glaunch`es have published and no dispatcher has taken: queue and slot (R356) -/
  launched : List (Nat × W32)
  /-- children that have been admitted -/
  live : Nat
  phase : W64
  weight : W64
  nest : Nat
  args : W64
  ncrew : Nat
  conv : Nat
  coop : Bool
  kernel : Kernel
  placed : Nat
  retired : Nat
  /-- clusters on which the pilot program has started (R365) -/
  pilots : List Nat
  stopped : Bool
  killed : Bool
  order : Nat
  queue : Nat
  deriving DecidableEq, Repr

/-! ## Memory lines -/

/-- What the home slice and the memory interface hold of a line beside its bytes (R290, R293 to R296, R301). The bytes
are those that the line deciphers to under its key. -/
structure Line where
  stamp : Stamp
  /-- key id under which the line was last reached, and the key itself -/
  key : Nat
  load : Nat
  dirty : Bool
  tun : Bool
  deriving DecidableEq, Repr

/-! ## Clocks and turns -/

/-- The counts of the clocks (R1, R9, R42). -/
structure Clocks where
  arith : Nat
  refc : Nat
  cache : Nat
  link : Nat
  hours : Nat
  /-- cycles of the harbourmaster (R9) -/
  hm : Nat
  deriving DecidableEq, Repr

/-- What moves next. -/
inductive Turn where
  /-- a scalar stream issues -/
  | gang (g : Nat)
  | pilot (cl : Nat)
  /-- the run that holds the issue slot of a core issues a word -/
  | lane (core slot : Nat)
  /-- an event of the package -/
  | event (e : Instr)
  /-- time passes -/
  | idle
  deriving DecidableEq, Repr

/-- A turn with the clock counts that pass before it. -/
structure Agenda where
  pass : Clocks
  turn : Turn
  deriving DecidableEq, Repr

/-- The agent whose instruction is executed. -/
inductive Cur where
  | none
  | gang (g : Nat)
  | pilot (cl : Nat)
  | lane (g : Nat) (slot : Fin 2)
  deriving DecidableEq, Repr

/-! ## Package-wide blocks -/

/-- A contribution on its way to the tun (R294). -/
structure TunAdd where
  /-- the core that made it, or no core -/
  core : Nat
  addr : Nat
  /-- FX64 sum, or an FP32 addition -/
  fx : Bool
  val : W64
  deriving DecidableEq, Repr

/-- The translation control block (R303) and the queued invalidation commands (R304). -/
structure Xlat where
  astbase : W64
  fqbase : W64
  fqsize : W64
  fqtail : W64
  fqhead : W64
  xva : W64
  xseq : W64
  cmds : List (Nat × Nat × W64 × Nat)
  deriving DecidableEq, Repr

/-- The launch control block (R360) and the dispatchers' own state (R353, R363, R364). -/
structure Launch where
  qtbase : W64
  pf : Vector W64 4
  ctxva : Vector W64 4
  ctxlen : Vector W64 4
  /-- queue last taken, by partition and class -/
  last : Tbl Nat
  coreCursor : Tbl Nat
  clusterCursor : Tbl Nat
  /-- queue heads whose translation failure has been reported: queue and head -/
  reported : List (Nat × Nat)
  /-- placements so far, for the order of R368 -/
  order : Nat
  deriving DecidableEq, Repr

/-- The identity block (R449) and the features accepted (R450). -/
structure Ident where
  /-- DEVID: the serial number -/
  devid : W64
  pkg : Nat
  /-- PMODE: how the dies form execution partitions -/
  pmode : Nat
  cores : Vector W64 4
  clusters : Vector W64 4
  /-- features offered -/
  feat : Vector W64 4
  facc : Vector W64 4
  flock : Bool
  /-- SHA3-512 of the firmware and of the configuration image -/
  mfw : List Byte
  mcfg : List Byte
  deriving DecidableEq, Repr

/-- A report of the harbourmaster (R459): the 128 bytes of its mailbox entry. -/
structure Report where
  bytes : List Byte
  deriving DecidableEq, Repr

/-! ## The fabric -/

/-- Whose operation reads or changes lines of other packages step by step (R293, R425). -/
inductive Reader where
  /-- a scalar stream, for its next instruction -/
  | scalar (a : Issuer)
  /-- a lane program-counter slot, for its next word -/
  | slot (g slot : Nat)
  /-- word `var` of a gang, for the rays of a pool -/
  | word (g var : Nat)
  | proj (cl : Nat)
  | trav (cl ray : Nat)
  /-- the traversal unit, for the payloads of an entry -/
  | travIn (cl : Nat)
  | sort (die : Nat)
  /-- the generator of a die: 0 for its ring, and for job n 2n + 1 while it emits and 2n + 2 at its end -/
  | gen (die sel : Nat)
  | copy (cl id : Nat)
  /-- a collective, by its descriptor -/
  | coll (cid : Nat)
  /-- a launch queue's dispatcher -/
  | queue (q : Nat)
  /-- a dispatcher that reads a kernel header -/
  | header (q : Nat)
  /-- the device in the context area of a gang or a pilot program, or of a crew that comes back (R359) -/
  | ctx (a : Issuer)
  | area (tag : Nat)
  deriving DecidableEq, Repr

/-- What an atomic on a line asks: its AOP, and its entries of byte offset, operand and compare value (R424). -/
abbrev Ask := Nat × List (Nat × W64 × W64)

/-- What an operation has learned of a line of another package: the line, or the old values that an atomic on it gave
back. -/
structure PeerData where
  by_ : Reader
  home : Nat
  line : Nat
  ask : Option Ask
  data : List Byte
  deriving DecidableEq, Repr

/-- Whom the answer to a remote request is for. -/
inductive ReqFor where
  | scalar (a : Issuer)
  /-- pending operation `var` of a gang -/
  | lane (g var : Nat)
  /-- the waiting word of an LPC slot -/
  | slot (g slot : Nat)
  /-- a plain scalar store, or a held effect that was committed; `strong` for one that makes a strong access -/
  | store (a : Issuer) (strong : Bool)
  | copy (cl id : Nat)
  /-- a write of another unit's operation -/
  | unit (w : Starter)
  /-- an LAG bit of a member's queue, for the completion of the barrier at a physical address (R440) -/
  | lag (pa member : Nat) (on : Bool)
  /-- an LAG bit on another package, for the home of a barrier: its package, its request, and the member here (R440) -/
  | relay (pkg rid : Nat) (who : Option Starter)
  /-- a read or an atomic of an operation that goes on when it is answered -/
  | peer (r : Reader)
  /-- a request whose agent is gone: its answer goes nowhere -/
  | nobody
  deriving DecidableEq, Repr

/-- An outstanding request to another package (R425, R426). -/
structure Req where
  rid : Nat
  dst : Nat
  for_ : ReqFor
  line : Nat
  ops : List (Fin 32 × MemOp)
  /-- a bulk packet, for a resend (R428) -/
  packet : FabPacket
  deriving DecidableEq, Repr

/-- The two directions of a stream with another package (R418): the next `SEQ` sent and expected, and the packets
that arrived early. -/
structure Stream where
  sent : Nat
  want : Nat
  early : List FabPacket
  /-- the `SEQ`s of packets that the link has lost (R421) -/
  gone : List Nat
  deriving DecidableEq, Repr

/-- A Balane port (R416 to R421, R427, R457). Keys are 256-bit numbers. -/
structure Port where
  /-- its lanes were trained electrically -/
  trained : Bool
  up : Bool
  ntx : Nat
  nrx : Nat
  linkid : W32
  nval : Bool
  txkey : Nat
  rxkey : Nat
  fctrTx : W64
  fctrRx : W64
  /-- flits of the lossless class sent and received, freed here and at the other end -/
  sent : W64
  rcvd : W64
  freed : W64
  peerFreed : W64
  /-- frames that have left and are not acknowledged, oldest first, with how often each has been sent -/
  kept : List (Frame × Nat)
  /-- flits of frames that were given up: the flit count of the other end leaves them out -/
  lost : W32
  /-- packets that wait for credit -/
  queue : List FabPacket
  /-- a frame failed, and how many copies of it have failed -/
  failed : Option (W64 × Nat)
  /-- the frame that the other end has asked for, and how often -/
  asked : Option (W64 × Nat)
  /-- flits received and verified -/
  ackc : W32
  /-- reservations granted at this end: package, bytes left, cache cycle of the end (R428) -/
  windows : List (Nat × Nat × Nat)
  deriving DecidableEq, Repr

/-- A collective of a crew of this package (R429 to R435). -/
structure Coll where
  who : Starter
  crew : Nat
  addr : W64
  desc : List Byte
  sent : Nat
  /-- chunks answered: chunk, status and data -/
  answers : List (Nat × Nat × List Byte)
  nanc : Nat
  miss : W64
  dead : Bool
  /-- what remains of its completion, once every chunk is answered (R435) -/
  work : Option (List UnitStep)
  deriving DecidableEq, Repr

/-- A contribution to a chunk at a switch: the package that sent it, or the first of the leaf whose partial it is; its
data, NaN count, rank, and the members that it lacks (R431, R434). -/
structure Contrib where
  src : Nat
  data : List Byte
  nanc : Nat
  rank : Nat
  miss : W64
  deriving DecidableEq, Repr

/-- A slot of a switch (R431 to R434): switches 0 to 63 of a plane are leaves, 64 to 127 spines. -/
structure Slot where
  id : Nat
  sw : Nat
  plane : Nat
  cid : Nat
  /-- the descriptor word of the chunk that allocated it, and its timeout in link cycles -/
  word : W64
  tout : Nat
  opened : Nat
  /-- contributions by chunk, in order of arrival -/
  parts : List (Nat × Contrib)
  /-- chunks whose partial a lower switch has forwarded -/
  passed : List Nat
  /-- results by chunk: data, NANC and MISS -/
  results : List (Nat × Contrib)
  /-- contributions that came too late and wait for the result: chunk and package -/
  late : List (Nat × Nat)
  /-- when the last result left -/
  sent : Nat
  /-- when it was closed by its timeout -/
  closed : Option Nat
  deriving DecidableEq, Repr

/-- A contribution that a chunk lacked at a switch when it ended (R434; log 38). -/
structure Stray where
  sw : Nat
  plane : Nat
  cid : Nat
  chunk : Nat
  src : Nat
  deriving DecidableEq, Repr

/-- An arrival at a fabric barrier's home (R439): who made it, and where the answer goes. -/
structure Arrival where
  pkg : Nat
  crew : W32
  asid : Nat
  /-- the waiting gang of this package, or the request id of another one -/
  gang : Option Nat
  rid : Nat
  /-- physical address of the descriptor -/
  pa : Nat
  /-- of a member here: whose arrival it is; and the gang has ended since -/
  who : Option Starter := none
  left : Bool := false
  deriving DecidableEq, Repr

/-! ## The host's blocks -/

/-- An agent paused on the fault queue (R306): where its entry was posted once there was room. -/
structure Paused where
  agent : Nat
  sub : Nat
  /-- key of the crew, cluster or die -/
  key : Nat
  who : Starter
  cause : PageCause
  va : W64
  resume_ : Nat
  /-- which of the agent's operations: copy id or ray index -/
  sel : Nat
  entry : Option Nat
  deriving DecidableEq, Repr

/-- The key block (R456): the 64 bytes of KMAT, and commands in the order given: KOP, KID and the KMAT that they use. -/
structure KeyBlock where
  kmat : List Byte
  cmds : List (Nat × Nat × Nat)
  kseq : W64
  kstat : Nat
  deriving DecidableEq, Repr

/-- The fault mailbox (R459): entries by slot, and reports that wait. -/
structure Mailbox where
  mtail : W64
  mhead : W64
  entries : Tbl (List Byte)
  deriving DecidableEq, Repr

/-- The attestation block (R458): the public identity key, the nonce as it is written, that of the request that is
pending, and the report. -/
structure Attest where
  pub : List Byte
  nonce : List Byte
  pending : Option (List Byte)
  report : List Byte
  done : Bool
  deriving DecidableEq, Repr

/-- A journal entry (R453). -/
structure JEntry where
  start : W32
  step : Nat
  unit : Nat
  att : Nat
  out : Nat
  hcyc : W64
  deriving DecidableEq, Repr

/-- An island (R454). -/
structure Island where
  freq : Nat
  mv : Nat
  slack : Nat
  temp : Nat
  gated : Bool
  fenced : Bool
  /-- steps of 100 MHz by which the power limit has lowered it (R455) -/
  lowered : Nat
  deriving DecidableEq, Repr

/-- Power (R454, R455), with the ceilings of the configuration image (R451). -/
structure Power where
  fmaxc : Nat
  fmaxs : Nat
  pmax : Nat
  pcap : Nat
  coolantOut : Bool
  /-- consecutive 10 ms windows below 95 % of the limit -/
  calm : Nat
  planned : Nat
  islands : Tbl Island
  deriving DecidableEq, Repr

/-- The harbourmaster (R446 to R460). -/
structure Harbour where
  hkey : Vector Nat 2
  key : KeyBlock
  box : Mailbox
  attest : Attest
  journal : List JEntry
  start : W32
  /-- management flash: the two stored configuration images, with their signatures (R451), and by unit of a step the starts
  that have used a passed alternative since the step itself was last tried (R453) -/
  images : Vector (List Byte) 2
  uses : Tbl Nat
  /-- recovery mode (R451) -/
  recovery : Bool
  power : Power
  /-- packets and host accesses discarded, and soft errors corrected -/
  discards : Nat
  corrected : Nat
  /-- the bytes that the last host read returned (R446) -/
  hostData : List Byte
  deriving DecidableEq, Repr

/-- A queued sort (R157), with the steps that remain once its pairs have been read. -/
structure SortJob where
  who : Starter
  addr : W64
  desc : List Byte
  work : Option (List UnitStep)
  deriving DecidableEq, Repr

/-- A generator job in progress (R399 to R402). -/
structure GenJob where
  id : Nat
  desc : List Byte
  /-- rays emitted, rays finished, and whether no more are to come -/
  emitted : Nat
  finished : Nat
  closed : Bool
  /-- of the entry in the making (R400): its rays in flight, and the ray that has been taken for the next, with
  whether its camera ray is written -/
  ready : List W32
  taken : Option (W32 × Bool)
  /-- the parameter block's header and the entries of the job's views -/
  head : List Byte
  views : List (Nat × List Byte)
  /-- what remains of its end, once its rays are finished (R401) -/
  work : Option (List UnitStep)
  deriving DecidableEq, Repr

/-- A slot of a generator's ring that has been taken (R398): its number, its job, the steps of its consumption, and
whether the job has been turned away (R399). -/
structure GenSlot where
  slot : Nat
  job : List Byte
  work : List UnitStep
  bad : Bool
  deriving DecidableEq, Repr

/-- An entry of a table node of level `lv` that a node cache holds (R302): the addresses that it covers, and the node
that it names. -/
structure NodeEntry where
  asid : Nat
  lv : Nat
  va : Nat
  size : Nat
  node : Nat
  deriving DecidableEq, Repr

/-- A die's own units (R157, R302, R397). -/
structure Die where
  tcache : List TlbEntry
  nodes : List NodeEntry
  sortQ : List SortJob
  sorting : Option SortJob
  emit : Tbl (List EmitEntry)
  gring : W64
  gen : Bool
  gasid : Nat
  jobs : W64
  jobList : List GenJob
  jobNo : Nat
  genSlot : Option GenSlot
  /-- cluster within the die that the next entry tries first (R400) -/
  genCursor : Nat
  deriving DecidableEq, Repr

/-! ## The machine -/

/-- The machine. -/
structure State where
  agenda : List Agenda
  choice : Nat
  cur : Cur
  clk : Clocks
  /-- the streams that have had a turn in this arithmetic cycle: lane or scalar, and the gang (R78, R368) -/
  ticked : List (Bool × Nat)
  gangs : Tbl Gang
  crews : Tbl Crew
  away : Tbl AwayCrew
  pilots : Tbl Pilot
  cores : Tbl Core
  clusters : Tbl Cluster
  dies : Tbl Die
  mem : Memory
  tiers : Memory
  scratch : Memory
  poison : List Nat
  spoison : List Nat
  lines : Tbl Line
  tun : List TunAdd
  grids : Tbl Grid
  gens : Tbl Nat
  xlat : Xlat
  launch : Launch
  ident : Ident
  /-- the keys that are loaded, by id (R301, R456) -/
  keys : Tbl Nat
  /-- line monitors of other packages: lines and packages (R292) -/
  watchers : List (Nat × Nat)
  reports : List Report
  ports : Tbl Port
  streams : Tbl Stream
  reqs : List Req
  /-- what operations in progress have learned of other packages' lines -/
  peer : List PeerData
  /-- bytes of reservations that other packages have granted and that have not been sent (R428) -/
  granted : Tbl Nat
  nextId : Nat
  /-- packets that a home slice, an agent or a switch is still to take, in order of arrival (R418) -/
  ingress : List FabPacket
  /-- packets that have left this package or a switch -/
  net : List FabPacket
  colls : List Coll
  slots : List Slot
  strays : List Stray
  arrivals : List Arrival
  /-- arrivals that have been counted and not been answered -/
  waiting : List Arrival
  paused : List Paused
  /-- grant requests not answered: crew or pilot's cluster, and amount (R161) -/
  grants : List (Issuer × W64)
  /-- dispatchers that released their holds: die, consecutive conflicts, and the cache cycle of the retry, 0 once it has
  come (R364) -/
  holds : List (Nat × Nat × Nat)
  harbour : Harbour
  deriving DecidableEq, Repr

/-- Why the machine stops. -/
inductive Fault where
  /-- Raised by the meaning of a scalar or lane instruction when `cur` names no live agent of its kind, which
  `step` never lets happen. Safe: no instruction of the hardware issues without an issuer. -/
  | noIssuer
  deriving DecidableEq, Repr

/-- Why an instruction has no meaning. -/
inductive Refusal where
  /-- Raised by an arm of `exec` that has no meaning yet. Safe. -/
  | notModelled (mnemonic : String)
  deriving DecidableEq, Repr

/-- What an instruction ends in. -/
abbrev Out := Host.Outcome State Fault Refusal

def Clocks.zero : Clocks := { arith := 0, refc := 0, cache := 0, link := 0, hours := 0, hm := 0 }

/-- A configuration image of the values that the machine starts with, its signature zeros (R451; log 6). -/
def resetImage : List Byte :=
  [0x53, 0x46, 0x43, 0x47, 1, 0, 0, 0, 0x40, 0, 0, 0, 0, 0, 0, 0] ++ 0x1F :: List.replicate 31 0
    ++ [0x60, 0x09, 0x08, 0x07, 0xB8, 0x0B] ++ List.replicate 10 0 ++ List.replicate 4627 0

/-- The machine right after reset. -/
def State.reset : State where
  agenda := []
  choice := 0
  cur := .none
  clk := Clocks.zero
  ticked := []
  gangs := []
  crews := []
  away := []
  pilots := []
  cores := []
  clusters := []
  dies := []
  mem := []
  tiers := []
  scratch := []
  poison := []
  spoison := []
  lines := []
  tun := []
  grids := []
  gens := []
  xlat := { astbase := 0, fqbase := 0, fqsize := 0, fqtail := 0, fqhead := 0, xva := 0, xseq := 0, cmds := [] }
  launch := { qtbase := 0, pf := Vector.replicate 4 0, ctxva := Vector.replicate 4 0,
              ctxlen := Vector.replicate 4 0, last := [], coreCursor := [], clusterCursor := [],
              reported := [], order := 0 }
  ident := { devid := 0, pkg := 0, pmode := 0, cores := Vector.replicate 4 (BitVec.allOnes 64),
             clusters := #v[0x03FFFFFFFFFFFFFF, 0x01FFFFFFFFFFFFFF, 0x03FFFFFFFFFFFFFF, 0x01FFFFFFFFFFFFFF],
             feat := #v[0x1F, 0, 0, 0], facc := Vector.replicate 4 0, flock := false, mfw := List.replicate 64 0,
             mcfg := List.replicate 64 0 }
  keys := []
  watchers := []
  reports := []
  ports := []
  streams := []
  reqs := []
  peer := []
  granted := []
  nextId := 0
  ingress := []
  net := []
  colls := []
  slots := []
  strays := []
  arrivals := []
  waiting := []
  paused := []
  grants := []
  holds := []
  harbour :=
    { hkey := Vector.replicate 2 0,
      key := { kmat := List.replicate 64 0, cmds := [], kseq := 0, kstat := 0 },
      box := { mtail := 0, mhead := 0, entries := [] },
      attest := { pub := List.replicate 2592 0, nonce := List.replicate 64 0, pending := none, report := [], done := false },
      journal := [], start := 0, images := Vector.replicate 2 resetImage, uses := [], recovery := false,
      power := { fmaxc := 2400, fmaxs := 1800, pmax := 3000, pcap := 3000, coolantOut := false, calm := 0, planned := 0,
                 islands := [] },
      discards := 0, corrected := 0, hostData := [] }

end Sys2Proof.Machine
end

