-- ==== Sys2Proof/Machine/Table.lean ====
section
/-!
DEFINITION. Tables and memory as lists in ascending key order: the one operation that reads an entry, the one that
writes it and the one that removes it; bytes, little-endian words (R10) and bit fields.
-/

namespace Sys2Proof.Machine

/-- The entry of key k. -/
def Tbl.get? {α : Type} : Tbl α → Nat → Option α
  | [], _ => none
  | (j, x) :: t, k => if k = j then some x else Tbl.get? t k

/-- The entry of key k, or x when the table has none. -/
def Tbl.getD {α : Type} (t : Tbl α) (k : Nat) (x : α) : α := (t.get? k).getD x

/-- The table with entry x at key k. -/
def Tbl.set {α : Type} : Tbl α → Nat → α → Tbl α
  | [], k, x => [(k, x)]
  | (j, y) :: t, k, x =>
    if k < j then (k, x) :: (j, y) :: t
    else if k = j then (k, x) :: t
    else (j, y) :: Tbl.set t k x

/-- The table without key k. -/
def Tbl.erase {α : Type} (t : Tbl α) (k : Nat) : Tbl α := t.filter fun e => e.1 != k

/-- The entries. -/
def Tbl.vals {α : Type} (t : Tbl α) : List α := t.map (·.2)

/-- Entry k changed by f, when there is one. -/
def Tbl.modify {α : Type} (t : Tbl α) (k : Nat) (f : α → α) : Tbl α :=
  match t.get? k with
  | some x => t.set k (f x)
  | none => t

/-! ## Memory -/

/-- The byte at an address; an address that is not listed reads as 0 (log 5). -/
def Memory.byte (m : Memory) (a : Nat) : Byte := Tbl.getD m a 0

/-- Memory with byte b at address a. A byte of 0 is not listed. -/
def Memory.setByte (m : Memory) (a : Nat) (b : Byte) : Memory :=
  if b = 0 then Tbl.erase m a else Tbl.set m a b

/-- The n bytes from address a. -/
def Memory.bytes (m : Memory) (a : Nat) : Nat → List Byte
  | 0 => []
  | n + 1 => m.byte a :: m.bytes (a + 1) n

/-- Memory with the bytes stored from address a on. -/
def Memory.store (m : Memory) (a : Nat) : List Byte → Memory
  | [] => m
  | b :: bs => (m.setByte a b).store (a + 1) bs

/-- The canonical form: addresses strictly rising, no byte listed that reads as an unlisted address does. -/
def Memory.wf : Memory → Bool
  | [] => true
  | [(_, b)] => b != 0
  | (a, b) :: (c, d) :: t => b != 0 && decide (a < c) && Memory.wf ((c, d) :: t)

/-! ## Words in bytes -/

/-- A 64-bit word in bytes (R10). -/
def bytes64 (w : W64) : List Byte := leBytes 8 w.toNat

/-- A 32-bit word in bytes (R10). -/
def bytes32 (w : W32) : List Byte := leBytes 4 w.toNat

/-- The 64-bit word of the first eight bytes (R10). -/
def word64 (bs : List Byte) : W64 := BitVec.ofNat 64 (leNat (bs.take 8))

/-- The 32-bit word of the first four bytes (R10). -/
def word32 (bs : List Byte) : W32 := BitVec.ofNat 32 (leNat (bs.take 4))

/-- The n-byte field at byte offset o of a record. -/
def fieldAt (bs : List Byte) (o n : Nat) : Nat := leNat ((bs.drop o).take n)

/-! ## Masks and lanes -/

/-- Lane n is in the mask. -/
def hasLane (m : Mask) (n : Fin 32) : Bool := m.getLsbD n.val

/-- The lanes of the mask in ascending order. -/
def maskLanes (m : Mask) : List (Fin 32) := lanes.filter fun n => m.getLsbD n.val

/-- The mask of the lanes for which f holds. -/
def maskOf (f : Fin 32 → Bool) : Mask :=
  BitVec.ofNat 32 (lanes.foldl (fun x n => x + if f n then 2 ^ n.val else 0) 0)

/-- How many lanes are in the mask. -/
def maskCount (m : Mask) : Nat := (maskLanes m).length

/-- x in the lanes of the mask, y elsewhere. -/
def laneMerge (m : Mask) (x y : LaneVec) : LaneVec :=
  laneMap fun n => if m.getLsbD n.val then x[n] else y[n]

/-- x put into a list sorted by key, behind the entries whose key is no greater. -/
def insertBy {α : Type} (key : α → Nat) (x : α) : List α → List α
  | [] => [x]
  | y :: t => if key x < key y then x :: y :: t else y :: insertBy key x t

/-- The list in ascending order of key; entries of one key keep their order. -/
def sortBy {α : Type} (key : α → Nat) (l : List α) : List α := l.foldl (fun acc x => insertBy key x acc) []

end Sys2Proof.Machine
end

