-- ==== Sys2Proof/Machine/Cipher.lean ====
section
/-!
DEFINITION. The two ciphers that the spec names: AES-256-XTS over the 128-byte lines of the memories (R301), and
AES-256-GCM over the frames of a link (R420). The spec gives their names; their steps are those of the published
standards (log 42).

A block is 16 numbers below 256, and a key a 256-bit number whose least significant byte comes first.
-/

namespace Sys2Proof.Machine

/-! ## Bytes -/

/-- The substitution of a byte, 32 to a row, the lowest in the least significant byte. -/
def aesSub : List Nat :=
  [0xc072a49cafa2d4adf04759fa7dc982ca76abd7fe2b670130c56f6bf27b777c63,
   0x75b227ebe28012079a059618c323c7041531d871f1e5a534ccf73f362693fdb7,
   0xcf584c4a39becb6a5bb1fc20ed00d153842fe329b3d63b52a05a6e1b1a2c8309,
   0xd2f3ff1021dab6bcf5389d928f40a351a89f3c507f02f94585334d43fbaaefd0,
   0xdb0b5ede14b8ee4688902a22dc4f816073195d643d7ea7c41744975fec130ccd,
   0x8ae7a65eaf4566ca94ed58d6d37c8e779e4959162acd3c25c2406490a3a32e0,
   0x9e1dc186b95735610ef6034866b53e708a8bbd4b1f74dde8c6b4a61c2e2578ba,
   0x16bb54b00f2d99416842e6bf0d89a18cdf2855cee9871e9b948ed9691198f8e1]

/-- Its inverse. -/
def aesUnsub : List Nat :=
  [0xcbe9dec444438e3487ff2f9b8239e37cfbd7f3819ea340bf38a53630d56a0952,
   0x25d18b6d49a25b76b224d92866a12e084ec3fa420b954cee3d23c2a632947b54,
   0x849d8da75746155edab9edfd5048706c92b6655dcc5ca4d41698688664f6f872,
   0x6b8a130103bdafc1020f3fca8f1e2cd00645b3b80558e4f70ad3bc8c00abd890,
   0x6edf751ce837f9e28535ade72274ac9673e6b4f0cecff297eadc674f4111913a,
   0xf45acd78fec0db9a2079d2c64b3e56fc1bbe18aa0e62b76f89c5291d711af147,
   0xef9cc9939f7ae52d0d4ab519a97f51605fec8027591012b131c7078833a8dd1f,
   0x7d0c2155631469e126d677ba7e042b17619953833cbbebc8b0f52aae4d3be0a0]

/-- The entry of a byte in a table of eight rows. -/
def aesLook (t : List Nat) (b : Nat) : Nat := t.getD (b / 32) 0 >>> (8 * (b % 32)) % 256

/-- A byte times x, modulo x^8 + x^4 + x^3 + x + 1. -/
def aesDouble (b : Nat) : Nat := if b < 128 then 2 * b else (2 * b - 256) ^^^ 0x1B

/-- A byte times a factor below 16. -/
def aesTimes (k b : Nat) : Nat :=
  let b2 := aesDouble b
  let b4 := aesDouble b2
  (if flag k 0 then b else 0) ^^^ (if flag k 1 then b2 else 0) ^^^ (if flag k 2 then b4 else 0)
    ^^^ (if flag k 3 then aesDouble b4 else 0)

/-- Two lists of bytes added bit by bit. -/
def xorBytes (a b : List Nat) : List Nat := List.zipWith (· ^^^ ·) a b

/-- The n bytes of a number, the least significant first. -/
def numBytes (n x : Nat) : List Nat := (List.range n).map fun i => x >>> (8 * i) % 256

/-- The number that bytes hold, the least significant first. -/
def bytesNum (l : List Nat) : Nat := l.foldr (fun b x => 256 * x + b) 0

/-! ## The round keys -/

/-- The next word of the key schedule; `ws` holds those before it, the latest first, and `i` is its number. -/
def aesWord (ws : List (List Nat)) (i : Nat) : List Nat :=
  let last := ws.headD []
  let sub (w : List Nat) : List Nat := w.map (aesLook aesSub)
  let f := if i % 8 = 0 then xorBytes (sub (last.drop 1 ++ last.take 1)) [2 ^ (i / 8 - 1), 0, 0, 0]
    else if i % 8 = 4 then sub last
    else last
  xorBytes (ws.getD 7 []) f

/-- The words of the schedule from word i on, n of them, the latest first. -/
def aesWords : Nat → Nat → List (List Nat) → List (List Nat)
  | 0, _, ws => ws
  | n + 1, i, ws => aesWords n (i + 1) (aesWord ws i :: ws)

/-- The fifteen round keys of a key. -/
def aesKeys (key : Nat) : List (List Nat) :=
  let first := ((List.range 8).map fun i => (numBytes 32 key).drop (4 * i) |>.take 4).reverse
  let ws := (aesWords 52 8 first).reverse
  (List.range 15).map fun r => ((ws.drop (4 * r)).take 4).flatten

/-! ## Blocks -/

/-- A block with byte r of column c taken from column c + r * d, modulo four. -/
def aesShift (d : Nat) (b : List Nat) : List Nat :=
  (List.range 16).map fun i => b.getD (4 * ((i / 4 + i % 4 * d) % 4) + i % 4) 0

/-- Each column multiplied by the circulant of a row of factors. -/
def aesMix (row : List Nat) (b : List Nat) : List Nat :=
  (List.range 16).map fun i => (List.range 4).foldl (fun x j =>
    x ^^^ aesTimes (row.getD ((j + 4 - i % 4) % 4) 0) (b.getD (i / 4 * 4 + j) 0)) 0

/-- A block after the first key and the rounds of the others, the last of which does not mix. -/
def aesRounds : List (List Nat) → List Nat → List Nat
  | [], b => b
  | [k], b => xorBytes k (aesShift 1 (b.map (aesLook aesSub)))
  | k :: ks, b => aesRounds ks (xorBytes k (aesMix [2, 3, 1, 1] (aesShift 1 (b.map (aesLook aesSub)))))

/-- A block enciphered. -/
def aesEnc (keys : List (List Nat)) (b : List Nat) : List Nat :=
  match keys with
  | [] => b
  | k :: ks => aesRounds ks (xorBytes k b)

/-- The rounds undone, the keys in their reverse order. -/
def aesUnrounds : List (List Nat) → List Nat → List Nat
  | [], b => b
  | [k], b => xorBytes k b
  | k :: ks, b => aesUnrounds ks ((aesShift 3 (aesMix [14, 11, 13, 9] (xorBytes k b))).map (aesLook aesUnsub))

/-- A block deciphered. -/
def aesDec (keys : List (List Nat)) (b : List Nat) : List Nat :=
  match keys.reverse with
  | [] => b
  | k :: ks => aesUnrounds ks ((aesShift 3 (xorBytes k b)).map (aesLook aesUnsub))

/-! ## Lines (R301) -/

/-- A tweak for the next block: times x, modulo x^128 + x^7 + x^2 + x + 1. -/
def xtsNext (t : Nat) : Nat := (2 * t) % 2 ^ 128 ^^^ (if 2 ^ 127 ≤ t then 0x87 else 0)

/-- Blocks under their tweaks, by `f` on one block. -/
def xtsBlocks (f : List Nat → List Nat) : Nat → Nat → List Nat → List Nat
  | 0, _, _ => []
  | n + 1, t, l =>
    let m := numBytes 16 t
    xorBytes m (f (xorBytes m (l.take 16))) ++ xtsBlocks f n (xtsNext t) (l.drop 16)

/-- The 128 bytes of line l under a key of 512 bits, whose lower half is the data key and whose upper half the tweak key.
The tweak is the physical address of the line. -/
def xtsLine (dec : Bool) (key l : Nat) (bs : List Byte) : List Byte :=
  let ks := aesKeys (key % 2 ^ 256)
  let t := bytesNum (aesEnc (aesKeys (key / 2 ^ 256)) (numBytes 16 (l * 128)))
  (xtsBlocks (if dec then aesDec ks else aesEnc ks) 8 t (bs.map BitVec.toNat)).map (BitVec.ofNat 8)

/-! ## Frames (R420) -/

/-- The number of a block, its first byte most significant. -/
def blockNum (l : List Nat) : Nat := l.foldl (fun x b => 256 * x + b) 0

/-- The product of two elements of the field of the authentication, bit 127 of a number being the coefficient of 1. -/
def ghashMul : Nat → Nat → Nat → Nat
  | 0, _, _ => 0
  | n + 1, x, v => (if x.testBit n then v else 0) ^^^ ghashMul n x (v / 2 ^^^ (if v % 2 = 1 then 0xE1 * 2 ^ 120 else 0))

/-- The authentication of n blocks, the last one filled with zeros. -/
def ghash (h : Nat) : Nat → Nat → List Nat → Nat
  | 0, y, _ => y
  | n + 1, y, l =>
    ghash h n (ghashMul 128 (y ^^^ blockNum (l.take 16 ++ List.replicate (16 - l.length) 0)) h) (l.drop 16)

/-- Bytes under the counter mode, from a counter on. -/
def gcmStream (keys : List (List Nat)) (nonce : List Nat) : Nat → Nat → List Nat → List Nat
  | 0, _, _ => []
  | n + 1, c, l =>
    xorBytes (l.take 16) (aesEnc keys (nonce ++ (numBytes 4 c).reverse)) ++ gcmStream keys nonce n (c + 1) (l.drop 16)

/-- Bytes enciphered or deciphered under a key and a nonce of 12 bytes. -/
def gcmCrypt (key : Nat) (nonce l : List Nat) : List Nat := gcmStream (aesKeys key) nonce ((l.length + 15) / 16) 2 l

/-- The tag of a header in clear and of enciphered bytes. -/
def gcmTag (key : Nat) (nonce aad l : List Nat) : List Nat :=
  let keys := aesKeys key
  let h := blockNum (aesEnc keys (List.replicate 16 0))
  let y := ghash h ((l.length + 15) / 16) (ghash h ((aad.length + 15) / 16) 0 aad) l
  let y := ghashMul 128 (y ^^^ (8 * aad.length * 2 ^ 64 + 8 * l.length)) h
  xorBytes (numBytes 16 y).reverse (aesEnc keys (nonce ++ [0, 0, 0, 1]))

end Sys2Proof.Machine
end

