-- ==== Sys2Proof/Machine/Float.lean ====
section
/-!
DEFINITION. Number formats, exact values and rounding (chapter 04): a bit pattern's value, IEEE 754 arithmetic on
exact values, and the one rounding of an exact value into a format.
-/

namespace Sys2Proof.Machine

/-- A binary floating-point format (R96). -/
structure Fmt where
  ew : Nat
  fw : Nat
  bias : Nat
  /-- `e4m3` has no infinity and one NaN pattern (R97) -/
  fp8 : Bool
  deriving DecidableEq, Repr

def Fmt.f32 : Fmt := { ew := 8, fw := 23, bias := 127, fp8 := false }
def Fmt.f16 : Fmt := { ew := 5, fw := 10, bias := 15, fp8 := false }
def Fmt.bf16 : Fmt := { ew := 8, fw := 7, bias := 127, fp8 := false }
def Fmt.e4m3 : Fmt := { ew := 4, fw := 3, bias := 7, fp8 := true }
def Fmt.e5m2 : Fmt := { ew := 5, fw := 2, bias := 15, fp8 := false }

/-- The width of a format. -/
def Fmt.width (f : Fmt) : Nat := 1 + f.ew + f.fw

/-- The format of a type page (R73). -/
def Page.fmt : Page → Fmt
  | .f32 => .f32
  | .f16 => .f16
  | .bf16 => .bf16

/-- An exact value or special: a NaN, an infinity, or plus or minus n / d, zero being signed. -/
inductive Ex where
  | nan
  | inf (neg : Bool)
  | fin (neg : Bool) (n d : Nat)
  deriving DecidableEq, Repr

/-- n times two to the e. -/
def dyadic (neg : Bool) (n : Nat) (e : Int) : Ex :=
  if 0 ≤ e then .fin neg (n * 2 ^ e.toNat) 1 else .fin neg n (2 ^ (-e).toNat)

/-- The parts of a finite bit pattern: significand and exponent of its last bit (R96). -/
def Fmt.parts (f : Fmt) (x : Nat) : Bool × Nat × Int :=
  let e := fld x f.fw f.ew
  let m := fld x 0 f.fw
  (flag x (f.ew + f.fw),
   if e = 0 then m else 2 ^ f.fw + m,
   (if e = 0 then 1 else (e : Int)) - f.bias - f.fw)

/-- The value of a bit pattern (R96, R97). -/
def Fmt.value (f : Fmt) (x : Nat) : Ex :=
  let e := fld x f.fw f.ew
  let m := fld x 0 f.fw
  let neg := flag x (f.ew + f.fw)
  let special := 2 ^ f.ew - 1
  if f.fp8 then
    if e = special ∧ m = 2 ^ f.fw - 1 then .nan
    else let p := f.parts x; dyadic p.1 p.2.1 p.2.2
  else if e = special then if m = 0 then .inf neg else .nan
  else let p := f.parts x; dyadic p.1 p.2.1 p.2.2

/-- The canonical NaN (R97). -/
def Fmt.nan (f : Fmt) : Nat :=
  if f.fp8 then 2 ^ (f.ew + f.fw) - 1 else (2 ^ f.ew - 1) * 2 ^ f.fw + 2 ^ (f.fw - 1)

/-- The sign bit. -/
def Fmt.sign (f : Fmt) (neg : Bool) : Nat := if neg then 2 ^ (f.ew + f.fw) else 0

/-- The largest finite pattern without its sign (R96). -/
def Fmt.maxBits (f : Fmt) : Nat :=
  if f.fp8 then 2 ^ (f.ew + f.fw) - 2 else (2 ^ f.ew - 1) * 2 ^ f.fw - 1

/-- The infinity without its sign; a format without one has its NaN instead (R101). -/
def Fmt.infBits (f : Fmt) : Nat := (2 ^ f.ew - 1) * 2 ^ f.fw

/-- How a value is rounded (R100): a mode, or stochastically with r random bits rb (R103). -/
inductive Mode where
  | rne | rz | rd | ru
  | sr (r rb : Nat)
  deriving DecidableEq, Repr

def Rm.mode : Rm → Mode
  | .rne => .rne
  | .rz => .rz
  | .rd => .rd
  | .ru => .ru

/-- The magnitude n / d rounded to an integer (R100, R103). -/
def Mode.int (m : Mode) (neg : Bool) (n d : Nat) : Nat :=
  let t := n / d
  let r := n % d
  match m with
  | .rne => if 2 * r > d ∨ (2 * r = d ∧ t % 2 = 1) then t + 1 else t
  | .rz => t
  | .rd => if neg ∧ r ≠ 0 then t + 1 else t
  | .ru => if ¬ neg ∧ r ≠ 0 then t + 1 else t
  | .sr k rb => if r + rb * d / 2 ^ k ≥ d then t + 1 else t

/-- The largest e with 2^e at most n / d, for n ≠ 0. -/
def floorLog2 (n d : Nat) : Int :=
  let e : Int := (Nat.log2 n : Int) - Nat.log2 d
  let le (e : Int) : Bool := if 0 ≤ e then d * 2 ^ e.toNat ≤ n else d ≤ n * 2 ^ (-e).toNat
  if le e then e else e - 1

/-- n / d in units of 2^q. -/
def scaled (n d : Nat) (q : Int) : Nat × Nat :=
  if 0 ≤ q then (n, d * 2 ^ q.toNat) else (n * 2 ^ (-q).toNat, d)

/-- The exact value rounded into a format, without its sign; none when it overflows (R101). -/
def Fmt.roundMag (f : Fmt) (m : Mode) (neg : Bool) (n d : Nat) : Option Nat :=
  if n = 0 then some 0
  else
    let emin : Int := 1 - f.bias
    let e := floorLog2 n d
    let q := (if e < emin then emin else e) - f.fw
    let x := scaled n d q
    let t := m.int neg x.1 x.2
    let r : Nat :=
      if t < 2 ^ f.fw then t
      else if t < 2 ^ (f.fw + 1) then (q + f.fw + f.bias).toNat * 2 ^ f.fw + (t - 2 ^ f.fw)
      else (q + 1 + f.fw + f.bias).toNat * 2 ^ f.fw
    if r > f.maxBits then none else some r

/-- The result of an overflow of a finite value (R99, R101). -/
def Fmt.overflow (f : Fmt) (m : Mode) (neg sat : Bool) : Nat :=
  let toInf := match m with
    | .rne => true
    | .sr _ _ => true
    | .rz => false
    | .rd => neg
    | .ru => !neg
  if toInf && !sat then if f.fp8 then f.nan else f.sign neg + f.infBits
  else f.sign neg + f.maxBits

/-- The rounding of an exact value into a format (R99, R101, R103). -/
def Fmt.round (f : Fmt) (m : Mode) (sat : Bool) : Ex → Nat
  | .nan => f.nan
  | .inf neg =>
    if f.fp8 then if sat then f.sign neg + f.maxBits else f.nan
    else f.sign neg + f.infBits
  | .fin neg n d => match f.roundMag m neg n d with
    | some r => f.sign neg + r
    | none => f.overflow m neg sat

/-! ## Arithmetic on exact values, with the signs of IEEE 754 (R178, R274) -/

def Ex.neg : Ex → Ex
  | .nan => .nan
  | .inf s => .inf (!s)
  | .fin s n d => .fin (!s) n d

/-- A zero of a sum of opposite zeros, or of an exact cancellation: +0, or -0 toward minus infinity (R101). -/
def Ex.add (rd : Bool) : Ex → Ex → Ex
  | .nan, _ => .nan
  | _, .nan => .nan
  | .inf s, .inf t => if s = t then .inf s else .nan
  | .inf s, .fin _ _ _ => .inf s
  | .fin _ _ _, .inf t => .inf t
  | .fin s a b, .fin t c d =>
    let x := a * d
    let y := c * b
    if x = 0 ∧ y = 0 then .fin (if s = t then s else rd) 0 1
    else if s = t then .fin s (x + y) (b * d)
    else if x = y then .fin rd 0 1
    else if y < x then .fin s (x - y) (b * d)
    else .fin t (y - x) (b * d)

def Ex.sub (rd : Bool) (x y : Ex) : Ex := x.add rd y.neg

def Ex.mul : Ex → Ex → Ex
  | .nan, _ => .nan
  | _, .nan => .nan
  | .inf s, .inf t => .inf (s != t)
  | .inf s, .fin t c _ => if c = 0 then .nan else .inf (s != t)
  | .fin s a _, .inf t => if a = 0 then .nan else .inf (s != t)
  | .fin s a b, .fin t c d => .fin (s != t) (a * c) (b * d)

def Ex.div : Ex → Ex → Ex
  | .nan, _ => .nan
  | _, .nan => .nan
  | .inf _, .inf _ => .nan
  | .inf s, .fin t _ _ => .inf (s != t)
  | .fin s _ _, .inf t => .fin (s != t) 0 1
  | .fin s a b, .fin t c d =>
    if c = 0 then if a = 0 then .nan else .inf (s != t)
    else .fin (s != t) (a * d) (b * c)

/-- Multiplication by a power of two. -/
def Ex.shift (x : Ex) (e : Int) : Ex := x.mul (dyadic false 1 e)

/-- The comparison of two values that are no NaN: less, equal or greater. Zeros are equal. -/
def Ex.cmp : Ex → Ex → Option Ordering
  | .nan, _ => none
  | _, .nan => none
  | .inf s, .inf t => some (if s = t then .eq else if s then .lt else .gt)
  | .inf s, .fin _ _ _ => some (if s then .lt else .gt)
  | .fin _ _ _, .inf t => some (if t then .gt else .lt)
  | .fin s a b, .fin t c d =>
    let x : Int := (if s then -1 else 1) * (a * d : Nat)
    let y : Int := (if t then -1 else 1) * (c * b : Nat)
    some (compare x y)

/-- x < y, false for a NaN. -/
def Ex.lt (x y : Ex) : Bool := x.cmp y == some .lt
/-- x ≤ y, false for a NaN. -/
def Ex.le (x y : Ex) : Bool := x.cmp y == some .lt || x.cmp y == some .eq

/-- A natural number as a value. -/
def Ex.ofNat (n : Nat) : Ex := .fin false n 1

/-- An integer as a value. -/
def Ex.ofInt (i : Int) : Ex := .fin (i < 0) i.natAbs 1

/-! ## The f32 operations that other chapters name -/

/-- The value of an `f32` pattern. -/
def f32v (x : W32) : Ex := Fmt.f32.value x.toNat

/-- An exact value rounded once to `f32`, to nearest even. -/
def rne32 (x : Ex) : W32 := BitVec.ofNat 32 (Fmt.f32.round .rne false x)

def fadd32 (a b : W32) : W32 := rne32 ((f32v a).add false (f32v b))
def fsub32 (a b : W32) : W32 := rne32 ((f32v a).sub false (f32v b))
def fmul32 (a b : W32) : W32 := rne32 ((f32v a).mul (f32v b))
def fdiv32 (a b : W32) : W32 := rne32 ((f32v a).div (f32v b))
def ffma32 (a b c : W32) : W32 := rne32 (((f32v a).mul (f32v b)).add false (f32v c))

/-- An `f32` pattern is a NaN. -/
def isNan32 (x : W32) : Bool := f32v x == .nan

/-- An `f32` pattern is finite. -/
def isFin32 (x : W32) : Bool :=
  match f32v x with
  | .fin _ _ _ => true
  | _ => false

/-- The order of R179 on the patterns of a format that are no NaN, -0 below +0: an integer that rises with it. -/
def Fmt.rank (f : Fmt) (x : Nat) : Int :=
  let m := x % 2 ^ (f.ew + f.fw)
  if flag x (f.ew + f.fw) then -(m : Int) - 1 else m

/-- `fmin` and `fmax` of R179. -/
def Fmt.minmax (f : Fmt) (max : Bool) (a b : Nat) : Nat :=
  match f.value a == .nan, f.value b == .nan with
  | true, true => f.nan
  | true, false => b
  | false, true => a
  | false, false => if (f.rank a ≤ f.rank b) != max then a else b

def fmin32 (a b : W32) : W32 := BitVec.ofNat 32 (Fmt.f32.minmax false a.toNat b.toNat)
def fmax32 (a b : W32) : W32 := BitVec.ofNat 32 (Fmt.f32.minmax true a.toNat b.toNat)

/-! ## Integers and FX64 -/

/-- A value rounded to an integer and clamped to [lo, hi]; a NaN gives `nan` (R105, R108). -/
def toIntClamp (m : Mode) (lo hi nan : Int) : Ex → Int
  | .nan => nan
  | .inf s => if s then lo else hi
  | .fin s n d =>
    let x : Int := (if s then -1 else 1) * (m.int s n d : Nat)
    if x < lo then lo else if hi < x then hi else x

/-- `f32` to FX64 with point p (R108). -/
def fx64OfF32 (m : Mode) (p : Nat) (x : W32) : W64 :=
  BitVec.ofInt 64 (toIntClamp m (-(2 ^ 63)) (2 ^ 63 - 1) (-(2 ^ 63)) ((f32v x).shift p))

/-- FX64 with point p to an exact value (R107). -/
def fx64v (p : Nat) (x : W64) : Ex := (Ex.ofInt x.toInt).shift (-(p : Int))

/-! ## Block formats (R110 to R115) -/

/-- A BX element's value: mb magnitude bits, exponents E0 and E1 (R111). -/
def bxValue (mb e0 e1 : Nat) (x : Nat) : Ex :=
  let e := if flag x (mb + 1) then e1 else e0
  if e = 255 then .nan
  else dyadic (flag x mb) (fld x 0 mb) ((e : Int) - 127 - (mb - 1))

/-- The integer that R115 step 1 gives for |x| at exponent e, without the clamp; an infinity is past any clamp. -/
def bxInt (mb : Nat) (m : Mode) (e : Nat) : Ex → Nat
  | .nan => 0
  | .inf _ => 2 ^ mb
  | .fin s n d =>
    let x := scaled n d ((e : Int) - 127 - (mb - 1))
    m.int s x.1 x.2

/-- The sign of a value that is no NaN. -/
def Ex.isNeg : Ex → Bool
  | .nan => false
  | .inf s => s
  | .fin s _ _ => s

/-- x has a magnitude at least that of y; infinities count, NaNs never do. -/
def Ex.magLe (x y : Ex) : Bool :=
  match x, y with
  | .fin _ a b, .fin _ c d => a * d ≤ c * b
  | .fin _ _ _, .inf _ => true
  | .inf _, .inf _ => true
  | _, _ => false

/-- The largest magnitude among the values that are no NaN; zero when there is none (R189). -/
def maxMag (l : List Ex) : Ex :=
  l.foldl (fun m x => if x != .nan && m.magLe x then x else m) (.fin false 0 1)

/-- The exponents E0 and E1 of a block (R189). -/
def bxExps (mb : Nat) (l : List Ex) : Nat × Nat :=
  let e0 : Nat := match maxMag l with
    | .nan => 0
    | .inf _ => 254
    | .fin _ n d => if n = 0 then 0
      else
        let e := floorLog2 n d + 127
        if e < 0 then 0 else if 254 < e then 254 else e.toNat
  (e0, if l.contains .nan then 255 else e0 - mb)

/-- The element chosen for a value of a block with exponents E0 and E1 (R189, R115). -/
def bxElem (mb : Nat) (m : Mode) (anyNan : Bool) (e0 e1 : Nat) (y : Ex) : Nat :=
  match y with
  | .nan => 2 ^ (mb + 1)
  | y =>
    let sign := if y.isNeg then 2 ^ mb else 0
    let q := bxInt mb m e1 y
    if !anyNan && q ≤ 2 ^ mb - 1 then 2 ^ (mb + 1) + sign + q
    else
      let z := bxInt mb m e0 y
      sign + (if z ≤ 2 ^ mb - 1 then z else 2 ^ mb - 1)

/-! ## Hadamard transform (R118, R119) -/

/-- One stage of the transform: lane j is paired with the lane whose bit s differs. -/
def hdmStage (s : Nat) (x : LaneVec) : LaneVec :=
  laneMap fun j =>
    if j.val / 2 ^ s % 2 = 0 then
      fadd32 x[j] (x[(j.val + 2 ^ s) % 32]'(Nat.mod_lt _ (by decide)))
    else
      fsub32 (x[(j.val - 2 ^ s) % 32]'(Nat.mod_lt _ (by decide))) x[j]

/-- The transform of n = 2^k lanes a group (R119). -/
def hdm (k : Nat) (x : LaneVec) : LaneVec :=
  (List.range k).foldl (fun x s => hdmStage s x) x

end Sys2Proof.Machine
end

