-- ==== Sys2Proof/Machine/LaneOps.lean ====
section
/-!
DEFINITION. The bytes and lines that the effects of lane words touch, the values that they put there (R206, R210 to R213),
and a line as the effects that a gang holds leave it (R229).
-/

namespace Sys2Proof.Machine

/-- The bytes of a 32-bit or 64-bit access. -/
def accBytes (w64 : Bool) (v : W64) : List Byte := leBytes (if w64 then 8 else 4) v.toNat

/-- The value that bytes hold, zero-extended. -/
def valOf (bs : List Byte) : W64 := BitVec.ofNat 64 (leNat bs)

/-- The new value of a reduction or atomic without compare (R210). -/
def redValue (op : RedOp) (w64 : Bool) (m c : W64) : W64 :=
  let m32 : W32 := m.setWidth 32
  let c32 : W32 := c.setWidth 32
  let pick (b : Bool) : W64 := if b then m else c
  match op with
  | .add => m + c
  | .and => m &&& c
  | .or => m ||| c
  | .xor => m ^^^ c
  | .min => pick (if w64 then m.toInt ≤ c.toInt else m32.toInt ≤ c32.toInt)
  | .max => pick (if w64 then c.toInt ≤ m.toInt else c32.toInt ≤ m32.toInt)
  | .minu => pick (if w64 then m.toNat ≤ c.toNat else m32.toNat ≤ c32.toNat)
  | .maxu => pick (if w64 then c.toNat ≤ m.toNat else c32.toNat ≤ m32.toNat)
  | .fadd => (fadd32 m32 c32).setWidth 64
  | .fmin => (fmin32 m32 c32).setWidth 64
  | .fmax => (fmax32 m32 c32).setWidth 64

/-- The new value of an atomic (R210): old value m, operand c, compare value b. -/
def atomValue (op : AtomOp) (w64 : Bool) (m c b : W64) : W64 :=
  match op with
  | .add => redValue .add w64 m c
  | .and => redValue .and w64 m c
  | .or => redValue .or w64 m c
  | .xor => redValue .xor w64 m c
  | .min => redValue .min w64 m c
  | .max => redValue .max w64 m c
  | .minu => redValue .minu w64 m c
  | .maxu => redValue .maxu w64 m c
  | .exch => c
  | .cas => if (if w64 then m == b else (m.setWidth 32 : W32) == b.setWidth 32) then c else m
  | .fadd => redValue .fadd w64 m c
  | .fmin => redValue .fmin w64 m c
  | .fmax => redValue .fmax w64 m c

/-- A range of n bytes from a, cut at the ends of lines. -/
def spanParts : Nat → Nat → Nat → List (Nat × Nat)
  | 0, _, _ => []
  | k + 1, a, n =>
    if n = 0 then []
    else
      let m := min n (128 - a % 128)
      (a, m) :: spanParts k (a + m) (n - m)

/-- The lines of a range. -/
def span (va : W64) (n : Nat) : List (Nat × Nat) := spanParts (n / 128 + 2) va.toNat n

/-- The number of bytes of a splat record that evaluation and blending read (R270, R272 to R274). -/
def splatBytes : Nat := 0x28

/-- The address that an effect names, for a trap record (R374). -/
def MemOp.va : MemOp → W64
  | .load va _ _ _ | .store va _ _ | .atom _ _ va _ _ _ | .red _ _ va _ | .fx va _ _ _ | .ldv va _ _ | .geval va _ _
  | .gblend va _ _ _ _ | .gback va _ _ _ _ _ _ => va
  | .pload _ _ _ | .pstore _ _ => 0
  | .rpush a _ | .rpop a _ | .rgen a _ _ | .trace a _ _ _ | .rayld a _ _ _ _ | .rayst a _ _ _ | .hitq a _ _
  | .rtake a _ _ | .rlink _ a _ _ | .rcarry a _ _ => a

/-- The bytes that an effect touches. -/
def MemOp.size : MemOp → Nat
  | .load _ n _ _ => n
  | .store _ _ bs | .pstore _ bs => bs.length
  | .atom _ w64 _ _ _ _ | .red _ w64 _ _ => if w64 then 8 else 4
  | .fx _ _ _ _ | .ldv _ _ _ => 8
  | .geval _ _ _ | .gblend _ _ _ _ _ | .gback _ _ _ _ _ _ _ => splatBytes
  | .pload _ n _ => n
  | .rpush _ _ | .rpop _ _ | .rgen _ _ _ | .trace _ _ _ _ | .rayld _ _ _ _ _ | .rayst _ _ _ _ | .hitq _ _ _
  | .rtake _ _ _ | .rlink _ _ _ _ | .rcarry _ _ _ => 0

/-- The bytes that a store stores. -/
def MemOp.stored : MemOp → List Byte
  | .store _ _ bs => bs
  | _ => []

/-- The bytes that a held effect puts in place of old ones (R210 to R213). -/
def MemOp.effect (op : MemOp) (old : List Byte) : List Byte :=
  match op with
  | .store _ _ bs => bs
  | .red o w64 _ v => accBytes w64 (redValue o w64 (valOf old) v)
  | .fx _ v _ _ => bytes64 (valOf old + v)
  | _ => old

/-- Bytes put into a line. -/
def splice (line : List Byte) (off : Nat) (bs : List Byte) : List Byte :=
  line.take off ++ bs ++ line.drop (off + bs.length)

/-- A stored range put into a line, part by part. -/
def spliceSegs (home l : Nat) : List Seg → List Byte → List Byte → List Byte
  | [], _, line => line
  | g :: t, bs, line =>
    spliceSegs home l t (bs.drop g.n) (if g.home = home ∧ g.line = l then splice line g.off (bs.take g.n) else line)

/-- A line with a held effect of the gang (R229). Only a store lies in more than one line. -/
def ownLine (home l : Nat) (line : List Byte) (e : MemOp × List Seg) : List Byte :=
  match e.2 with
  | [g] => if g.home = home ∧ g.line = l then splice line g.off (e.1.effect ((line.drop g.off).take g.n)) else line
  | gs => spliceSegs home l gs e.1.stored line

/-- An answered line as the gang's own loads see it (R229). -/
def ownView (own : List (MemOp × List Seg)) (e : Nat × Nat × List Byte) : Nat × Nat × List Byte :=
  (e.1, e.2.1, own.foldl (ownLine e.1 e.2.1) e.2.2)

end Sys2Proof.Machine
end

