-- ==== Sys2Proof/Config.lean ====
section
/-!
DEFINITION. What the spec leaves open. Every constant here is opaque: it has no body, so no proof can see a
value of it, and a statement that holds, holds whatever the value is. Each is named in the assumption log.
-/

namespace Sys2Proof.Config

/-- Free value number n, a bit pattern of any width: `freeBits n` is read modulo the width (log 2). -/
opaque freeBits : Nat → Nat

/-- How far the count of die d's `cyc` is ahead at start number k, since the dies do not start together (R9, R42;
log 3). -/
opaque dieStart : Nat → Nat → Nat

/-- The device's own key, key 0, as start number k generates it: 512 bits, to which the spec gives no value (R301, R452;
log 42). -/
opaque deviceKey (k : Nat) : Nat

/-- SHA3-512 of a stored copy of the firmware (R452), whether a configuration image bears a signature that verifies (R451), and
the public identity key that the device secret gives with an MFW (R458; log 2). -/
opaque firmwareHash (copy : Nat) : Nat
opaque imageSigned (image : List (BitVec 8)) : Bool
opaque identityKey (mfw : Nat) : Nat

/-- Whether package `home` has key `key` loaded, and whether both HBM4 stacks of die `die` of package `home` are present, as
free choice n: only that package knows (R300; log 44). -/
opaque farKey (n home key : Nat) : Bool
opaque farStacks (n home die : Nat) : Bool

/-- Free turn number n, taken while the agenda is empty (log 1): the kind of what moves next (0 a gang's scalar stream,
1 a pilot, 2 a lane issue slot, 3 an event, otherwise nothing), its two numbers, the event, and the counts that the
clocks advance by. -/
opaque turnKind : Nat → Nat
opaque turnArgs : Nat → Nat × Nat
opaque turnEvent : Nat → Option Instr
opaque turnTime : Nat → List Nat

end Sys2Proof.Config
end

