-- ==== Sys2Proof/Machine/Access.lean ====
section
/-!
DEFINITION. Where each piece of state stands: the accessors of cores, clusters, dies, gangs, crews, grids, pilots
and their registers, and the identity of the agent that moves (R17 to R26, R35, R43).
-/

namespace Sys2Proof.Machine

/-! ## Free values -/

/-- The next free value, and the state with its number used up (log 2). -/
def State.free (s : State) : Nat × State :=
  (Config.freeBits s.choice, { s with choice := s.choice + 1 })

/-! ## Places -/

/-- The core of a gang or crew key. -/
def coreOf (g : Nat) : Nat := g / 32
/-- The cluster of a core. -/
def clusterOf (c : Nat) : Nat := c / 4
/-- The die of a cluster. -/
def dieOf (cl : Nat) : Nat := cl / 16

/-- The LUT4 table after reset: entry c holds the bf16 value c - 8 (R116). -/
def lutReset : Vector (BitVec 16) 16 :=
  #v[0xC100, 0xC0E0, 0xC0C0, 0xC0A0, 0xC080, 0xC040, 0xC000, 0xBF80,
     0x0000, 0x3F80, 0x4000, 0x4040, 0x4080, 0x40A0, 0x40C0, 0x40E0]

/-- A free berth entry: every field 0 (R35). -/
def Berth.new : Berth :=
  { own := 0, gen := 0, state := .free, holder := .none, count := 0, size := 0, base := 0 }

/-- A core after reset. -/
def Core.new : Core :=
  { berths := [], tlb := [], l1 := [], monitors := [], engine := [], lut := lutReset, port := [], slices := [],
    issue := Vector.replicate 4 none, sports := { cycle := 0, win := [] } }

/-- A cluster's units after reset. -/
def Cluster.new : Cluster :=
  { mailbox := [], rq := [], copies := [], copyNo := 0, projQ := [], proj := none, travQ := [], rays := [] }

/-- A die's units after reset. -/
def Die.new : Die :=
  { tcache := [], nodes := [], sortQ := [], sorting := none, emit := [], gring := 0, gen := false, gasid := 0, jobs := 0,
    jobList := [], jobNo := 0, genSlot := none, genCursor := 0 }

/-- A Balane port after reset: electrically trained and down, with no link key (R457). -/
def Port.new : Port :=
  { trained := true, up := false, ntx := 0, nrx := 0, linkid := 0, nval := false, txkey := 0, rxkey := 0,
    fctrTx := 0, fctrRx := 0, sent := 0, rcvd := 0, freed := 0, peerFreed := 0, kept := [], lost := 0, queue := [],
    failed := none, asked := none, ackc := 0, windows := [] }

/-- A stream before its first packet (R418). -/
def Stream.new : Stream := { sent := 0, want := 0, early := [], gone := [] }

def State.core (s : State) (c : Nat) : Core := s.cores.getD c Core.new
def State.setCore (s : State) (c : Nat) (x : Core) : State := { s with cores := s.cores.set c x }
def State.cluster (s : State) (c : Nat) : Cluster := s.clusters.getD c Cluster.new
def State.setCluster (s : State) (c : Nat) (x : Cluster) : State := { s with clusters := s.clusters.set c x }
def State.die (s : State) (d : Nat) : Die := s.dies.getD d Die.new
def State.setDie (s : State) (d : Nat) (x : Die) : State := { s with dies := s.dies.set d x }
def State.gang? (s : State) (g : Nat) : Option Gang := s.gangs.get? g
def State.setGang (s : State) (g : Nat) (x : Gang) : State := { s with gangs := s.gangs.set g x }
def State.crew? (s : State) (c : Nat) : Option Crew := s.crews.get? c
def State.setCrew (s : State) (c : Nat) (x : Crew) : State := { s with crews := s.crews.set c x }
def State.grid? (s : State) (g : Nat) : Option Grid := s.grids.get? g
def State.setGrid (s : State) (g : Nat) (x : Grid) : State := { s with grids := s.grids.set g x }
def State.pilot? (s : State) (c : Nat) : Option Pilot := s.pilots.get? c
def State.setPilot (s : State) (c : Nat) (x : Pilot) : State := { s with pilots := s.pilots.set c x }

def State.port (s : State) (p : Nat) : Port := s.ports.getD p Port.new
def State.setPort (s : State) (p : Nat) (x : Port) : State := { s with ports := s.ports.set p x }
def State.stream (s : State) (p : Nat) : Stream := s.streams.getD p Stream.new
def State.setStream (s : State) (p : Nat) (x : Stream) : State := { s with streams := s.streams.set p x }

/-- A number that nothing else carries. -/
def State.fresh (s : State) : Nat × State := (s.nextId, { s with nextId := s.nextId + 1 })

/-- The core is present (R7, R449). -/
def State.corePresent (s : State) (c : Nat) : Bool :=
  c < 256 && (s.ident.cores[(c / 64) % 4]'(Nat.mod_lt _ (by decide))).getLsbD (c % 64)

/-- Queues and rings are served: the feature words are locked, and the device did not start in recovery mode (R450,
R451). -/
def State.serving (s : State) : Bool := s.ident.flock && !s.harbour.recovery

/-- The grid of a crew. -/
def State.crewGrid? (s : State) (c : Nat) : Option Grid := do
  let x ← s.crew? c
  s.grid? x.grid

/-! ## Scalar contexts -/

/-- The scalar context of a gang or a pilot. -/
def State.sctx (s : State) : Issuer → Option ScalarCtx
  | .gang g => (s.gang? g).map (·.sc)
  | .pilot c => (s.pilot? c).map (·.sc)

/-- The state with the scalar context of a gang or a pilot replaced. -/
def State.setSctx (s : State) (a : Issuer) (x : ScalarCtx) : State :=
  match a with
  | .gang g => match s.gang? g with
    | some y => s.setGang g { y with sc := x }
    | none => s
  | .pilot c => match s.pilot? c with
    | some y => s.setPilot c { y with sc := x }
    | none => s

/-- The grid slot an issuer belongs to. -/
def State.issuerGrid (s : State) : Issuer → Option Nat
  | .gang g => do
    let x ← s.gang? g
    let c ← s.crew? x.crew
    some c.grid
  | .pilot c => (s.pilot? c).map (·.grid)

/-- The cluster of an issuer. -/
def Issuer.cluster : Issuer → Nat
  | .gang g => clusterOf (coreOf g)
  | .pilot c => c

/-- The core whose L1, TLB and ports an issuer uses; a pilot uses core 0 of its cluster (log 8). -/
def Issuer.core : Issuer → Nat
  | .gang g => coreOf g
  | .pilot c => 4 * c

/-- The issuer that `cur` names as a scalar stream. -/
def curIssuer : Cur → Option Issuer
  | .gang g => some (.gang g)
  | .pilot c => some (.pilot c)
  | .none => none
  | .lane _ _ => none

/-- The value of `cyc` on a die (R9, R42). -/
def State.cyc (s : State) (die : Nat) : W64 := BitVec.ofNat 64 (Config.dieStart s.harbour.start.toNat die + s.clk.refc)

/-- The identity register of an issuer (R43). A pilot belongs to no core, and its CORE field reads as 0 (log 43). -/
def State.ids (s : State) (a : Issuer) : W64 :=
  let cl := a.cluster
  let base := s.ident.pkg % 4096 * 2 ^ 52 + dieOf cl % 4 * 2 ^ 50 + cl % 16 * 2 ^ 46
  match a with
  | .gang g =>
    let gidx := match s.gang? g with
      | some x => x.gidx
      | none => 0
    BitVec.ofNat 64 (base + coreOf g % 4 * 2 ^ 44 + g % 32 * 2 ^ 39 + gidx % 32 * 2 ^ 33)
  | .pilot _ => BitVec.ofNat 64 (base + 2 ^ 38)

/-! ## Lane registers (R24, R25, R33) -/

/-- Lane register n of gang g as it stands: the base registers, or the held extended block. -/
def State.vreg (s : State) (g n : Nat) : LaneVec :=
  match s.gang? g with
  | none => laneConst 0
  | some x =>
    if h : n < 64 then x.v[n]
    else match x.ext, s.crew? x.crew with
      | some b, some c => match c.ext[b]? with
        | some e => e.regs.getD (n - 64) (laneConst 0)
        | none => laneConst 0
      | _, _ => laneConst 0

/-- Lane register n of gang g written whole. -/
def State.setVreg (s : State) (g n : Nat) (x : LaneVec) : State :=
  match s.gang? g with
  | none => s
  | some y =>
    if h : n < 64 then s.setGang g { y with v := y.v.set n x }
    else match y.ext, s.crew? y.crew with
      | some b, some c => match c.ext[b]? with
        | some e => s.setCrew y.crew { c with ext := c.ext.set b { e with regs := e.regs.set (n - 64) x } }
        | none => s
      | _, _ => s

/-- Predicate n of gang g: p7 reads true in every lane (R24). -/
def State.preg (s : State) (g : Nat) (n : PReg) : Mask :=
  match s.gang? g with
  | none => 0
  | some x => if h : n.val < 7 then x.p[n.val] else BitVec.allOnes 32

/-- Predicate n of gang g written; a write to p7 is discarded (R24). -/
def State.setPreg (s : State) (g : Nat) (n : PReg) (m : Mask) : State :=
  match s.gang? g with
  | none => s
  | some x => if h : n.val < 7 then s.setGang g { x with p := x.p.set n.val m } else s

/-! ## Lookup -/

/-- Some live crew has the tag. -/
def State.tagLive (s : State) (t : Nat) : Bool :=
  s.crews.any (fun e => e.2.tag == t) || s.away.any (fun e => e.2.crew.tag == t)

/-- The crew key of a crew tag among the resident crews. -/
def State.crewOfTag (s : State) (t : Nat) : Option Nat :=
  (s.crews.find? fun e => e.2.tag == t).map (·.1)

/-- The gangs of a crew that have not ended. -/
def Crew.live (c : Crew) : List Nat := c.gangs.filterMap id

end Sys2Proof.Machine
end

