-- ==== Sys2Proof/Machine/Frames.lean ====
section
/-! DEFINITION. Packets and frames as the bytes that a link carries (R419, R420, R423). -/

namespace Sys2Proof.Machine

/-! ## Packets (R423) -/

/-- The operations of collectives, which use two words of the header their own way. -/
def collectiveOpc (op : Nat) : Bool := op == 0x10 || op == 0x11 || op == 0x12

/-- The flits that a packet occupies. -/
def pktFlits (p : FabPacket) : Nat := (32 + p.payload.length + 63) / 64

/-- Bytes filled with zeros to a multiple of n. -/
def padTo (n : Nat) (l : List Byte) : List Byte := l ++ List.replicate ((n - l.length % n) % n) 0

/-- The 32 bytes of a packet's header. -/
def packetHead (p : FabPacket) : List Byte :=
  let c := collectiveOpc p.opc
  let w0 := p.payload.length % 2 ^ 16 + p.seq % 2 ^ 16 * 2 ^ 16 + (if p.rsv then 2 ^ 32 else 0)
    + (if p.control then 2 ^ 33 else 0) + p.opc % 2 ^ 6 * 2 ^ 34 + p.spkg % 2 ^ 12 * 2 ^ 40 + p.dpkg % 2 ^ 12 * 2 ^ 52
  let w1 := if c then p.pa else p.pa % 2 ^ 42 + p.keyid % 2 ^ 12 * 2 ^ 42
  let w2 := if c then p.tout.toNat * 2 ^ 32
    else p.p % 2 ^ 6 * 2 ^ 32 + p.sz.code * 2 ^ 38 + p.aop % 2 ^ 4 * 2 ^ 40 + p.ord.code * 2 ^ 44 + p.scope.code * 2 ^ 46
      + p.rid % 2 ^ 16 * 2 ^ 48
  leBytes 8 w0 ++ leBytes 8 w1 ++ leBytes 8 (p.aux.toNat + w2) ++ bytes64 p.aux2

/-- A packet as its flits. -/
def packetBytes (p : FabPacket) : List Byte := padTo 64 (packetHead p ++ p.payload)

/-- A field of two bits decoded, which has a value for every code. -/
def orDefault {α : Type} (d : α) : Dec α → α
  | .ok x => x
  | .error _ => d

/-- The packet of a header and a payload. -/
def packetOf (h payload : List Byte) : FabPacket :=
  let w0 := fieldAt h 0 8
  let w1 := fieldAt h 8 8
  let w2 := fieldAt h 0x10 8
  let c := collectiveOpc (fld w0 34 6)
  let f (lo n : Nat) : Nat := if c then 0 else fld w2 lo n
  { dpkg := fld w0 52 12, spkg := fld w0 40 12, opc := fld w0 34 6, control := flag w0 33, rsv := flag w0 32,
    seq := fld w0 16 16, keyid := if c then 0 else fld w1 42 12, pa := if c then w1 else fld w1 0 42, rid := f 48 16,
    scope := orDefault .crew (Scope.ofCode (f 46 2)), ord := orDefault .relaxed (Order.ofCode (f 44 2)), aop := f 40 4,
    sz := orDefault .b8 (MemSize.ofCode (f 38 2)), p := f 32 6, tout := if c then BitVec.ofNat 32 (w2 / 2 ^ 32) else 0,
    aux := BitVec.ofNat 32 w2, aux2 := word64 (h.drop 0x18), payload := payload, sw := 0, miss := 0,
    clean := c || fld w1 54 10 == 0 }

/-- The packets of a frame's flits, at most n. One whose payload would pass the end of the frame, or that is longer than a
packet may be, is not clean, and ends the frame (R423, R424). -/
def packetsOf : Nat → List Byte → List FabPacket
  | 0, _ => []
  | n + 1, bs =>
    if bs.isEmpty then []
    else
      let len := fieldAt bs 0 2
      let size := (32 + len + 63) / 64 * 64
      if 960 < len ∨ bs.length < size then [{ packetOf bs [] with clean := false }]
      else packetOf bs ((bs.drop 32).take len) :: packetsOf n (bs.drop size)

/-! ## Frames (R419, R420) -/

/-- The kinds of a frame. -/
inductive FrameKind where
  | data | totals | retry
  deriving DecidableEq, Repr

/-- The number of a kind. -/
def FrameKind.num : FrameKind → Nat
  | .data => 0
  | .totals => 1
  | .retry => 2

/-- The header of a frame. -/
def frameHead (fctr : W64) (n kind : Nat) (ackc : W32) : List Byte :=
  bytes64 fctr ++ leBytes 8 (ackc.toNat + kind % 4 * 2 ^ 58 + (n - 1) % 16 * 2 ^ 60)

/-- The fields of a frame's header. -/
def frameFctr (f : Frame) : W64 := word64 f.head
def frameCount (f : Frame) : Nat := fld (fieldAt f.head 8 8) 60 4 + 1
def frameKind (f : Frame) : Nat := fld (fieldAt f.head 8 8) 58 2
def frameAckc (f : Frame) : W32 := BitVec.ofNat 32 (fieldAt f.head 8 4)

/-- The three parts have the lengths that the header gives them. -/
def frameSized (f : Frame) : Bool :=
  f.head.length == 16 && f.flits.length == 64 * frameCount f && f.tag.length == 16

/-- The nonce of a frame: LINKID and FCTR, most significant byte first (R420; log 42). -/
def frameNonce (linkid : W32) (fctr : W64) : List Nat := (numBytes 4 linkid.toNat).reverse ++ (numBytes 8 fctr.toNat).reverse

/-- The numbers of bytes, and the bytes of numbers. -/
def byteNums (l : List Byte) : List Nat := l.map BitVec.toNat
def numsByte (l : List Nat) : List Byte := l.map (BitVec.ofNat 8)

/-- Flits in clear become a frame under a key (R420). -/
def sealFrame (key : Nat) (linkid : W32) (fctr : W64) (kind : Nat) (ackc : W32) (clear : List Byte)
    (sent : List FabPacket) : Frame :=
  let head := frameHead fctr (clear.length / 64) kind ackc
  let nonce := frameNonce linkid fctr
  let flits := gcmCrypt key nonce (byteNums clear)
  { head := head, flits := numsByte flits, tag := numsByte (gcmTag key nonce (byteNums head) flits), sent := sent }

/-- The tag of a frame is the one of its header and flits under a key (R420). -/
def frameVerifies (f : Frame) (key : Nat) (linkid : W32) : Bool :=
  byteNums f.tag == gcmTag key (frameNonce linkid (frameFctr f)) (byteNums f.head) (byteNums f.flits)

/-- The flits of a frame in clear. -/
def frameClear (f : Frame) (key : Nat) (linkid : W32) : List Byte :=
  numsByte (gcmCrypt key (frameNonce linkid (frameFctr f)) (byteNums f.flits))

/-- A frame under a new key, with another counter. -/
def frameRenew (f : Frame) (old new : Nat) (linkid : W32) (fctr : W64) : Frame :=
  sealFrame new linkid fctr (frameKind f) (frameAckc f) (frameClear f old linkid) f.sent

end Sys2Proof.Machine
end

