-- ==== Sys2Proof/Machine/Packets.lean ====
section
/-!
DEFINITION. What this package sends into the fabric: the choice of a port (R417), the stream (R418), frames and
credit (R419, R427), and requests to other packages (R424, R425).
-/

namespace Sys2Proof.Machine

/-- The operation numbers of R424. -/
inductive Opc where
  | rd | rdr | wr | wra | atm | atr | red | blk | blka | drop | resv | rgnt | mon | ctb | crs | closed | wgt | err
  deriving DecidableEq, Repr

/-- The number of an operation (R424). -/
def Opc.num : Opc → Nat
  | .rd => 0x01 | .rdr => 0x02 | .wr => 0x03 | .wra => 0x04 | .atm => 0x05 | .atr => 0x06 | .red => 0x07
  | .blk => 0x08 | .blka => 0x09 | .drop => 0x0A | .resv => 0x0B | .rgnt => 0x0C | .mon => 0x0E | .ctb => 0x10
  | .crs => 0x11 | .closed => 0x12 | .wgt => 0x13 | .err => 0x1F

/-- A packet of this package with every optional field 0. -/
def State.packet (s : State) (dst : Nat) (op : Opc) (payload : List Byte) : FabPacket :=
  { dpkg := dst, spkg := s.ident.pkg, opc := op.num, control := op != .blk, rsv := false, seq := 0, keyid := 0, pa := 0,
    rid := 0, scope := .crew, ord := .relaxed, aop := 0, sz := .b8, p := 0, tout := 0, aux := 0, aux2 := 0,
    payload := payload, sw := 0,
    miss := 0, clean := true }

/-- The packet travels in the lossless class (R427). -/
def lossless (p : FabPacket) : Bool := p.control || p.rsv

/-- The ports whose links are up (R416). -/
def State.presentPorts (s : State) : List Nat := (List.range 16).filter fun p => (s.port p).up && (s.port p).trained

/-- The flits that wait at a port. -/
def Port.waiting (p : Port) : Nat := (p.queue.map pktFlits).foldl (· + ·) 0

/-- The port of a packet that no descriptor names (R417). While no link is up, the packet waits at the port that its
position names among all sixteen. -/
def State.portFor (s : State) (p : FabPacket) : Nat :=
  match s.presentPorts with
  | [] => (p.dpkg + s.ident.pkg) % 16
  | q :: qs =>
    if p.control then (q :: qs).getD ((p.dpkg + s.ident.pkg) % (qs.length + 1)) q
    else qs.foldl (fun b x => if (s.port x).waiting < (s.port b).waiting then x else b) q

/-- The send rule of R427 for a packet at a port. -/
def Port.credit (x : Port) (p : FabPacket) : Bool :=
  !lossless p || decide ((x.sent - x.peerFreed).toNat + pktFlits p ≤ 512)

/-- The counter is so near its limit that nothing more is sent under the key (R420). -/
def Port.spent (x : Port) : Bool := decide (2 ^ 63 ≤ x.fctrTx.toNat + 16)

/-- A frame leaves a port, and is kept until it is acknowledged (R419 to R421). -/
def State.emitFrame (s : State) (n : Nat) (kind : FrameKind) (clear : List Byte) (sent : List FabPacket) : State :=
  let x := s.port n
  let f := sealFrame x.txkey x.linkid x.fctrTx kind.num x.ackc clear sent
  s.setPort n { x with kept := x.kept ++ [(f, 1)], fctrTx := x.fctrTx + BitVec.ofNat 64 (clear.length / 64) }

/-- A packet leaves a port in a frame of its own (R419): it is in the network. -/
def State.transmit (s : State) (n : Nat) (p : FabPacket) : State :=
  let x := s.port n
  { (s.setPort n { x with sent := if lossless p then x.sent + BitVec.ofNat 64 (pktFlits p) else x.sent }).emitFrame n .data
      (packetBytes p) [p] with
    net := s.net ++ [p] }

/-- The packet is an outstanding request of this package. -/
def State.isRequest (s : State) (p : FabPacket) : Bool :=
  s.reqs.any fun r => r.rid == p.rid && r.dst == p.dpkg && r.packet.opc == p.opc

/-- The packets of the stream to a package that are outstanding: requests that are not answered, and other packets that
have left and are not acknowledged (R418). -/
def State.streamOut (s : State) (dst : Nat) : Nat :=
  let sent := s.ports.flatMap fun e => e.2.kept.flatMap fun f => f.1.sent
  (s.reqs.filter fun r => r.dst == dst && r.packet.control).length
    + (sent.filter fun p => p.control && p.dpkg == dst && !collectiveOpc p.opc && !s.isRequest p).length

/-- The packet may leave: its stream has fewer than 32,768 packets outstanding (R418). -/
def State.streamOpen (s : State) (p : FabPacket) : Bool :=
  !p.control || collectiveOpc p.opc || decide (s.streamOut p.dpkg < 32768 + if s.isRequest p then 1 else 0)

/-- The packet that leaves a port next: control packets go before reserved bulk packets, and these before others (R427). -/
def Port.next (x : Port) : Option FabPacket :=
  match x.queue.find? fun p => p.control with
  | some p => some p
  | none => match x.queue.find? fun p => lossless p with
    | some p => some p
    | none => x.queue.head?

/-- Packets that wait at a port leave while they have credit (R427). -/
def State.flush (s : State) (n : Nat) : Nat → State
  | 0 => s
  | k + 1 =>
    let x := s.port n
    if !x.up || x.spent then s
    else match x.next with
      | none => s
      | some p =>
        if x.credit p && s.streamOpen p then
          State.flush ((s.setPort n { x with queue := x.queue.erase p }).transmit n p) n k
        else s

/-- A packet is given to a port. -/
def State.sendAt (s : State) (n : Nat) (p : FabPacket) : State :=
  let x := s.port n
  (s.setPort n { x with queue := x.queue ++ [p] }).flush n (x.queue.length + 1)

/-- A bulk packet with its reservation, where a grant of its destination still covers it (R428). -/
def State.reserve (s : State) (p : FabPacket) : FabPacket × State :=
  let left := s.granted.getD p.dpkg 0
  if left < p.payload.length ∨ left = 0 then (p, s)
  else ({ p with rsv := true }, { s with granted := s.granted.set p.dpkg (left - p.payload.length) })

/-- A packet is sent: a control packet takes the next `SEQ` of its stream (R417, R418). -/
def State.send (s : State) (p : FabPacket) : State :=
  if p.control then
    let st := s.stream p.dpkg
    let s := s.setStream p.dpkg { st with sent := (st.sent + 1) % 65536 }
    let p := { p with seq := st.sent }
    s.sendAt (s.portFor p) p
  else
    let (p, s) := s.reserve p
    s.sendAt (s.portFor p) p

/-- A line was written: the packages that monitor it receive their notices (R292). -/
def State.notify (s : State) (l : Nat) : State :=
  (s.watchers.filter fun e => e.1 == l).foldl (fun s e => s.send { s.packet e.2 .mon [] with pa := l * 128 })
    { s with watchers := s.watchers.filter fun e => e.1 != l }

/-- A request id that no outstanding request carries. -/
def State.newRid (s : State) : Nat :=
  ((List.range 65536).find? fun r => s.reqs.all fun q => q.rid != r).getD 0

/-- A request is sent and stays outstanding until its answer (R425). -/
def State.request (s : State) (p : FabPacket) (for_ : ReqFor) (line : Nat) (ops : List (Fin 32 × MemOp)) :
    Nat × State :=
  let rid := s.newRid
  let p := { p with rid := rid }
  (rid, { s.send p with reqs := s.reqs ++ [{ rid := rid, dst := p.dpkg, for_ := for_, line := line, ops := ops,
                                             packet := p }] })

/-- The stream to a package has room for another request (R418). -/
def State.streamRoom (s : State) (dst : Nat) : Bool :=
  decide ((s.reqs.filter fun r => r.dst == dst).length < 32768)

/-- The payload of a `WR` (R424): a byte mask and a line, the later of two stores to one byte standing. -/
def wrPayload (parts : List (Nat × List Byte)) : List Byte :=
  let at_ (i : Nat) : Option Byte :=
    parts.foldl (fun acc x => if x.1 ≤ i ∧ i < x.1 + x.2.length then x.2[i - x.1]? else acc) none
  let bits := (List.range 128).foldl (fun m i => m + if (at_ i).isSome then 2 ^ i else 0) 0
  leBytes 16 bits ++ (List.range 128).map fun i => (at_ i).getD 0

/-- An entry of an `ATM` or a `RED` (R424). -/
def atmEntry (lane off : Nat) (v cmp : W64) : List Byte :=
  leBytes 8 (lane % 32 + off % 128 * 256) ++ bytes64 v ++ bytes64 cmp

/-! ## The slots of the switches (R431, R434) -/

/-- The chunks of a slot that have contributions. -/
def Slot.chunks (x : Slot) : List Nat := (x.parts.map (·.1)).eraseDups

/-- A chunk has neither a result nor a partial that was forwarded. -/
def Slot.isOpen (x : Slot) (c : Nat) : Bool := !(x.results.any fun e => e.1 == c) && !x.passed.contains c

/-- The link cycle in which a slot's count ends or the slot is freed; none while it waits for a result (R434). -/
def Slot.deadline (x : Slot) : Option Nat :=
  match x.closed with
  | some t => some (t + x.tout)
  | none =>
    if x.chunks.any x.isOpen then some (x.opened + x.tout)
    else if x.chunks.all fun c => x.results.any fun e => e.1 == c then some (x.sent + 2 * x.tout)
    else none

/-- Of n link cycles, those that pass before something is due at a slot (R434). -/
def State.linkSteps (s : State) (n : Nat) : Nat :=
  s.slots.foldl (fun n x => match x.deadline with
    | some t => min n (t - s.clk.link)
    | none => n) n

end Sys2Proof.Machine
end

