-- ==== Sys2Proof/Machine/Ops.lean ====
section
/-!
DEFINITION. The shared operations over memory, translation and traps: a walk and a translation (R298 to R302), an
access at its home slice with its race check and stamp (R290 to R322), the delivery of a trap and the return
from it (R374 to R380), and the settling of lane work (R129).
-/

namespace Sys2Proof.Machine

/-- Why an instruction does not finish: it raises a trap, or it waits in the state given. -/
inductive Stop where
  | trap (t : Trap)
  | wait (s : State)
  deriving DecidableEq, Repr

abbrev Act (α : Type) := Except Stop α

/-- Raises a fault. -/
def raise {α : Type} (t : Trap) : Act α := .error (.trap t)

/-- Raises a code unless the condition holds. -/
def require (b : Bool) (c : Code) : Act Unit := if b then .ok () else raise { code := c }

/-- Waits, with nothing changed, unless the condition holds. -/
def waitFor (b : Bool) (s : State) : Act Unit := if b then .ok () else .error (.wait s)

/-! ## Translation (R297 to R302) -/

/-- The agent that makes an access: address space, partition, die, the core whose L1 and TLB serve it, and the
crew whose tag checks race stamps (R320); a pilot, an engine or the host has none. -/
structure Who where
  asid : Nat
  part : Nat
  core : Nat
  crew : Option Nat
  /-- of an operation that reads lines of other packages one after the other -/
  reader : Option Reader := none
  /-- the gang whose held effects its loads see (R229) -/
  own : Option Nat := none
  deriving DecidableEq, Repr

/-- The populated bytes of a die's HBM4 and of its second tier: a fenced stack or quarter takes its share away (R7, R297,
R449; log 40). -/
def State.hbmBytes (s : State) (die : Nat) : Nat :=
  let u := s.ident.clusters[die % 4]'(Nat.mod_lt _ (by decide))
  64000000000 * ((if u.getLsbD 50 then 1 else 0) + if u.getLsbD 51 then 1 else 0)
def State.tierBytes (s : State) (die : Nat) : Nat :=
  if (s.ident.clusters[die % 4]'(Nat.mod_lt _ (by decide))).getLsbD 52 then 0x574FBDE600 else 0

/-- The frame lies in a populated range of this package (R297). -/
def State.populated (s : State) (pa size : Nat) : Bool :=
  if pa < 2 ^ 40 then decide (pa / 2 ^ 37 < 4) && decide (pa % 2 ^ 37 + size ≤ s.hbmBytes (pa / 2 ^ 37))
  else decide (pa < 2 ^ 42) && decide ((pa - 2 ^ 40) / 2 ^ 39 < 4)
    && decide ((pa - 2 ^ 40) % 2 ^ 39 + size ≤ s.tierBytes ((pa - 2 ^ 40) / 2 ^ 39))

/-- The address lies in HBM4, whose lines carry race stamps (R296, R297). -/
def inHbm (pa : Nat) : Bool := pa < 2 ^ 40

/-- The die that owns a physical address (R297). -/
def dieOfPa (pa : Nat) : Nat := if pa < 2 ^ 40 then pa / 2 ^ 37 else (pa - 2 ^ 40) / 2 ^ 39

/-- The key id is loaded; key 0 always is (R301). -/
def State.keyLoaded (s : State) (k : Nat) : Bool := k == 0 || (s.keys.get? k).isSome

/-- A package of the fabric (R300). A package that no switch can reach is answered by the first switch that cannot
forward the request, with `ERR` cause 7, so every id is taken as attached here. -/
def State.attached (_ : State) (pkg : Nat) : Bool := decide (pkg < 4096)

/-- The outcome of a walk: a leaf, or the failure of a node's entry. -/
inductive Walked where
  | leaf (t : TlbEntry) (malformed : Bool)
  | fail (c : PageCause)
  deriving DecidableEq, Repr

/-- The index shift, node size log and node size log of the next level, by level (R298). -/
def levels : List (Nat × Nat × Nat × Nat) :=
  [(0, 39, 8192, 13), (1, 30, 512, 13), (2, 21, 512, 9), (3, 16, 32, 0)]

/-- The key that a line was enciphered under: the device's own of a start for key id 0, else the one that was loaded (R301,
R452; log 42). -/
def keyBits (key load : Nat) : Nat := if key = 0 then Config.deviceKey load else load

/-- A key id's key; of key 0 the number of the start that generated it (R301, R452). -/
def State.keyNo (s : State) (k : Nat) : Nat := (s.keys.get? k).getD (if k = 0 then s.harbour.start.toNat else 0)

/-- A key id with the key of a line is the one that a key id names now (R301). -/
def State.sameKey (s : State) (key load new : Nat) : Bool := (key == 0) == (new == 0) && load == s.keyNo new

/-- The line of a physical address. -/
def lineOf (pa : Nat) : Nat := pa / 128

/-- A line nothing has touched: stamp 0, key 0 of start 0. -/
def Line.new : Line := { stamp := { tag := 0, open_ := false, seq := 0 }, key := 0, load := 0, dirty := false, tun := false }

def State.line (s : State) (l : Nat) : Line := s.lines.getD l { Line.new with load := s.keyNo 0 }
def State.setLine (s : State) (l : Nat) (x : Line) : State := { s with lines := s.lines.set l x }

/-- The bytes of line l under key id `key`: the stored line enciphered under its own key, and deciphered under that one
(R301). -/
def State.lineUnder (s : State) (l key : Nat) : List Byte :=
  let bs := s.mem.bytes (l * 128) 128
  match s.lines.get? l with
  | none => bs
  | some x =>
    if s.sameKey x.key x.load key then bs
    else xtsLine true (keyBits key (s.keyNo key)) l (xtsLine false (keyBits x.key x.load) l bs)

/-- Bytes within one line under key id `key`. -/
def State.bytesUnder (s : State) (pa n key : Nat) : List Byte :=
  match s.lines.get? (lineOf pa) with
  | none => s.mem.bytes pa n
  | some x =>
    if s.sameKey x.key x.load key then s.mem.bytes pa n
    else ((s.lineUnder (lineOf pa) key).drop (pa % 128)).take n

/-- Bytes of a page under its key id, line by line (R301). -/
def State.bytesOver (s : State) (pa n key : Nat) : List Byte :=
  (spanParts (n / 128 + 2) pa n).flatMap fun e => s.bytesUnder e.1 e.2 key

/-- Some byte of the range is poisoned (R296). -/
def State.poisoned (s : State) (pa n : Nat) : Bool :=
  s.poison.any fun g => decide (g * 8 < pa + n) && decide (pa < g * 8 + 8)

/-- Walks the levels from the node at `node`, each entry read at its home slice under key 0 (R298, R299). -/
def State.walkFrom (s : State) (asid va : Nat) : List (Nat × Nat × Nat × Nat) → Nat → Walked
  | [], _ => .fail .malformed
  | (lv, sh, n, next) :: ls, node =>
    let pa := node + 16 * (va / 2 ^ sh % n)
    if !s.populated node 16 then .fail .badpa
    else if s.poisoned pa 16 then .fail .ecc
    else
      let e := leNat (s.bytesUnder pa 16 0)
      match e % 4 with
      | 0 => .fail (if fld e 2 1 == 1 then .demand else .absent)
      | 1 =>
        let np := fld e 9 33 * 512
        if fld e 42 86 != 0 || fld e 2 7 != 0 || lv == 3 || np % 2 ^ next != 0 then .fail .malformed
        else State.walkFrom s asid va ls np
      | 2 =>
        let t : TlbEntry :=
          { asid := asid, va := va / 2 ^ sh * 2 ^ sh, size := 2 ^ sh, frame := fld e 16 26 * 2 ^ 16,
            key := fld e 116 12, home := fld e 104 12, pmask := fld e 100 4, rc := flag e 99,
            cache := fld e 97 2, wr := flag e 96 }
        .leaf t (fld e 42 54 != 0 || fld e 2 14 != 0 || lv == 0 || t.cache == 3 || t.frame % t.size != 0)
      | _ => .fail .malformed

/-- The node entry of the highest level that a die's node cache holds for an address (R302). -/
def State.nodeCached (s : State) (die asid va : Nat) : Option NodeEntry :=
  ((s.die die).nodes.filter fun e => e.asid == asid && decide (e.va ≤ va) && decide (va < e.va + e.size)).foldl
    (fun b e => match b with
      | some x => if x.lv < e.lv then some e else some x
      | none => some e) none

/-- The walk of an address by a walker of a die: from the node that its node cache names, or from the root (R298, R302,
R303). -/
def State.walk (s : State) (die asid va : Nat) : Walked :=
  match s.nodeCached die asid va with
  | some e => s.walkFrom asid va (levels.drop (e.lv + 1)) e.node
  | none =>
    let pa := s.xlat.astbase.toNat + 16 * asid
    let e := leNat (s.bytesUnder pa 16 0)
    if s.poisoned pa 16 then .fail .ecc
    else if flag e 64 then s.walkFrom asid va levels (fld e 17 25 * 2 ^ 17) else .fail .absent

/-- The frame lies in a range that some package of the fabric populates (R297). -/
def inSomeRange (frame size : Nat) : Bool :=
  if frame < 2 ^ 40 then decide (frame / 2 ^ 37 < 4) && decide (frame % 2 ^ 37 + size ≤ 128000000000)
  else decide (frame < 2 ^ 42) && decide ((frame - 2 ^ 40) % 2 ^ 39 + size ≤ 0x574FBDE600)

/-- The frame lies across the end of the first stack of a die, where the populated part ends if the other is fenced (R297). -/
def acrossStacks (frame size : Nat) : Bool :=
  decide (frame < 2 ^ 40) && decide (frame % 2 ^ 37 < 64000000000) && decide (64000000000 < frame % 2 ^ 37 + size)

/-- The frame of a leaf of another package is not wholly inside a populated, present range there (R300). Which stacks are
present there is a free value; the home slice checks the rest (log 44). -/
def State.farBad (s : State) (t : TlbEntry) : Bool :=
  acrossStacks t.frame t.size && !Config.farStacks s.choice t.home (t.frame / 2 ^ 37)

/-- The failure of an access through a leaf, the lowest cause first (R300). Whether the key of a frame in another package is
loaded there is found by the request; for one that no request can reach, it is a free value (log 44). -/
def State.leafFault (s : State) (part : Nat) (write : Bool) (t : TlbEntry) (malformed : Bool) : Option PageCause :=
  let far := t.home != s.ident.pkg
  let bad := !inSomeRange t.frame t.size || !s.attached t.home || (if far then s.farBad t else !s.populated t.frame t.size)
  if write && !t.wr then some .write
  else if fld t.pmask part 1 == 0 then some .part
  else if !far && !s.keyLoaded t.key then some .key
  else if far && (malformed || bad) && !Config.farKey s.choice t.home t.key then some .key
  else if malformed then some .malformed
  else if bad then some .badpa
  else none

/-- The cached translation of an address, in the core's TLB or else the die's translation cache (R302). -/
def State.cached (s : State) (core asid va : Nat) : Option TlbEntry :=
  let hit (t : TlbEntry) : Bool := t.asid == asid && t.va ≤ va && va < t.va + t.size
  match (s.core core).tlb.find? hit with
  | some t => some t
  | none => (s.die (dieOf (clusterOf core))).tcache.find? hit

/-- Where an access goes: physical address, home package, and the page's attributes (R299). -/
structure Xl where
  pa : Nat
  home : Nat
  key : Nat
  rc : Bool
  cache : Nat
  deriving DecidableEq, Repr

/-- The page of an address for an access (R298 to R302). -/
def State.leaf (s : State) (w : Who) (va : W64) (write : Bool) : Except PageCause TlbEntry :=
  let a := va.toNat
  if a ≥ 2 ^ 52 then .error .varange
  else
    let r : Walked := match s.cached w.core w.asid a with
      | some t => .leaf t false
      | none => s.walk (dieOf (clusterOf w.core)) w.asid a
    match r with
    | .fail c => .error c
    | .leaf t bad => match s.leafFault w.part write t bad with
      | some c => .error c
      | none => .ok t

/-- An address within a page. -/
def TlbEntry.at_ (t : TlbEntry) (a : Nat) : Xl :=
  { pa := t.frame + (a - t.va), home := t.home, key := t.key, rc := t.rc, cache := t.cache }

/-- The translation of an address for an access. -/
def State.xlate (s : State) (w : Who) (va : W64) (write : Bool) : Except PageCause Xl :=
  match s.leaf w va write with
  | .error c => .error c
  | .ok t => .ok (t.at_ va.toNat)

/-! ## Accesses at the home slice (R290 to R296, R301, R317 to R322) -/

/-- Why an access is not performed. -/
inductive AccErr where
  | page (c : PageCause)
  | race (stamp : W32)
  | ecc
  /-- a fault that a record or descriptor gives (R264) -/
  | code (c : Code)
  /-- the value waited for has not come (R208, R284) -/
  | wait
  /-- its home is another package (R213) -/
  | remote (x : Xl)
  /-- the same of an atomic: what it asks, and the access's size -/
  | remoteAtomic (x : Xl) (ask : Ask) (n : Nat)
  /-- what was read of a line of another package has changed there -/
  | stale (x : Xl)
  /-- the failure of an access at an address of its own (R374) -/
  | at_ (va : W64) (e : AccErr)
  deriving DecidableEq, Repr

/-- A failure without its address. -/
def AccErr.bare : AccErr → AccErr
  | .at_ _ e => e.bare
  | e => e

/-- Free bytes, n of them (log 2). -/
def State.freeBytes (s : State) : Nat → List Byte × State
  | 0 => ([], s)
  | n + 1 =>
    let (x, s) := s.free
    let (bs, s) := State.freeBytes s n
    (BitVec.ofNat 8 x :: bs, s)

/-- Poison of the granules that a write covers whole is lifted (R296). -/
def State.unpoison (s : State) (pa n : Nat) : State :=
  { s with poison := s.poison.filter fun g => !(decide (pa ≤ g * 8) && decide (g * 8 + 8 ≤ pa + n)) }

/-- A stamp as the trap record holds it (R317). -/
def Stamp.word (x : Stamp) : W32 :=
  BitVec.ofNat 32 (x.tag * 64 + (if x.open_ then 32 else 0) + x.seq.toNat)

/-- The crew tag of an accessing agent. -/
def State.tagOf (s : State) (w : Who) : Option Nat :=
  match w.crew with
  | none => none
  | some c => (s.crew? c).map (·.tag)

/-- The race check of R320: the stamp found, when it fails. -/
def State.raceCheck (s : State) (w : Who) (x : Xl) : Option W32 :=
  match s.tagOf w with
  | none => none
  | some t =>
    let st := (s.line (lineOf x.pa)).stamp
    if x.rc && inHbm x.pa && st.open_ && st.tag != t then some st.word else none

/-- A list without the elements of a class beyond the first n of them. -/
def keepFirst {α : Type} (p : α → Bool) : Nat → List α → List α
  | _, [] => []
  | n, x :: t =>
    if p x then (match n with
      | 0 => keepFirst p 0 t
      | m + 1 => x :: keepFirst p m t)
    else x :: keepFirst p n t

/-- The L1 of a core holds the line under a key id (R290, R301). -/
def State.inL1 (s : State) (core l key : Nat) : Bool :=
  (s.core core).l1.any fun e => e.line == l && s.sameKey e.key e.load key

/-- The L1 takes the line on a load miss, with its stamp and its key. It has 128 sets of 8 ways, and the line of the set
that was taken longest ago leaves (R290; log 10). -/
def State.fillL1 (s : State) (core l key : Nat) : State :=
  let c := s.core core
  if s.inL1 core l key then s
  else
    let e : L1Line := { line := l, stamp := (s.line l).stamp, key := key, load := s.keyNo key, bad := [] }
    let rest := e :: c.l1.filter fun x => x.line != l
    s.setCore core { c with l1 := keepFirst (fun x => x.line % 128 == l % 128) 8 rest }

/-- Some byte of a range in a core's copy of its line is poisoned (R296). -/
def State.l1Poisoned (s : State) (core pa n : Nat) : Bool :=
  (s.core core).l1.any fun e => e.line == lineOf pa && e.bad.any fun g =>
    decide (g * 8 < pa % 128 + n) && decide (pa % 128 < g * 8 + 8)

/-- A core's own copy takes a store: poison of the granules that it covers whole is lifted (R290, R296). -/
def State.l1Store (s : State) (core pa n : Nat) : State :=
  let u := s.core core
  let covered (g : Nat) : Bool := decide (pa % 128 ≤ g * 8) && decide (g * 8 + 8 ≤ pa % 128 + n)
  let put (e : L1Line) : L1Line := if e.line = lineOf pa then { e with bad := e.bad.filter fun g => !covered g } else e
  if u.l1.all fun e => e.bad.isEmpty then s else s.setCore core { u with l1 := u.l1.map put }

/-- Every L1 copy of the line but that of `core` is invalidated (R291). A copy in a host's cache is outside the machine, and
its invalidation leaves nothing here (R447; log 41). -/
def State.invalidate (s : State) (core l : Nat) : State :=
  { s with cores := s.cores.map fun e =>
      if e.1 = core then e else (e.1, { e.2 with l1 := e.2.l1.filter fun x => x.line != l }) }

/-! ### Line monitors (R292) -/

/-- The core of a waiter. -/
def waiterCore : Waiter → Nat
  | .scalar g => coreOf g
  | .lane g _ => coreOf g
  | .pilot cl => 4 * cl

/-- A scalar stream that sleeps wakes, to check its condition again. -/
def State.wakeScalar (s : State) (a : Issuer) : State :=
  match s.sctx a with
  | none => s
  | some c => match c.wait with
    | .asleep _ | .polling => s.setSctx a { c with wait := .none }
    | _ => s

/-- A slot of a gang with another wait. -/
def State.slotWait (s : State) (g n : Nat) (f : LaneWait → LaneWait) : State :=
  match s.gang? g with
  | none => s
  | some y => s.setGang g { y with lpc := Vector.ofFn fun (i : Fin 2) =>
      if i.val = n then { y.lpc[i] with wait := f y.lpc[i].wait } else y.lpc[i] }

/-- The waiter wakes, to check its condition again. -/
def State.wakeWaiter (s : State) (w : Waiter) : State :=
  match w with
  | .scalar g => s.wakeScalar (.gang g)
  | .pilot cl => s.wakeScalar (.pilot cl)
  | .lane g n => s.slotWait g n fun w => match w with
      | .asleep | .polling => .none
      | w => w

/-- The monitors of a waiter are disarmed and it wakes (R292). -/
def State.fireWaiter (s : State) (w : Waiter) : State :=
  let u := s.core (waiterCore w)
  (s.setCore (waiterCore w) { u with monitors := u.monitors.filter fun e => e.1 != w }).wakeWaiter w

/-- Every monitor that is armed on the line fires: of package P it is line P * 2^35 + l (R292). -/
def State.fireLine (s : State) (l : Nat) : State :=
  (s.cores.flatMap fun e => (e.2.monitors.filter fun m => m.2 == l).map (·.1)).foldl State.fireWaiter s

/-- The line is written by an agent of `core`: the other L1 copies are invalidated, and the monitors of this package and
of other ones fire (R291, R292). -/
def State.written (s : State) (core l : Nat) : State :=
  ((s.invalidate core l).fireLine (s.ident.pkg * 2 ^ 35 + l)).notify l

/-! ### The shared cache and the tun (R293 to R295, R301) -/

/-- A word with a tun contribution applied (R294): the exact FX64 sum, or round_rne(m + c). -/
def tunWord (m : Memory) (t : TunAdd) : List Byte :=
  if t.fx then bytes64 (word64 (m.bytes t.addr 8) + t.val)
  else bytes32 (fadd32 (word32 (m.bytes t.addr 4)) (t.val.setWidth 32))

/-- The home slice of a line within the package: its die, and the 7-bit value of R291. -/
def sliceOf (l : Nat) : Nat :=
  128 * dieOfPa (l * 128)
    + ((fld l 0 7 ^^^ fld l 7 7) ^^^ (fld l 14 7 ^^^ fld l 21 7) ^^^ fld l 28 7)

/-- A line is evicted: its bytes reach memory, enciphered under its key, and it leaves the tun (R293, R295, R296, R301). -/
def State.evict (s : State) (l : Nat) : State :=
  let x := s.line l
  let bs := xtsLine false (keyBits x.key x.load) l (s.mem.bytes (l * 128) 128)
  { s with tiers := s.tiers.store (l * 128) bs }.setLine l { x with dirty := false, tun := false }

/-- A line that has changed is written back; the slice keeps it unchanged, or not at all (R293). -/
def State.writeBack (s : State) (l : Nat) : State := if (s.line l).dirty then s.evict l else s

/-- Of the lines for which `p` holds in the slice of line l, one whose choice is free is evicted where n of them stand
there already (log 10). -/
def State.evictOne (s : State) (l n : Nat) (p : Line → Bool) : State :=
  let ls := s.lines.filter fun e => p e.2 && sliceOf e.1 == sliceOf l
  if ls.length < n then s
  else
    let (x, s) := s.free
    match ls[x % ls.length]? with
    | some e => s.evict e.1
    | none => s

/-- A slice holds at most 3,072 lines (R3). Those that it holds unchanged do not differ from the stored ones, so that room
is made among the changed ones (log 10). -/
def State.cacheRoom (s : State) (l : Nat) : State :=
  if (s.line l).dirty then s else s.evictOne l 3072 fun x => x.dirty

/-- The line has a place in the tun of its slice, which holds at most 1,024 (R295). -/
def State.tunPlace (s : State) (l : Nat) : State :=
  if (s.line l).tun then s else (s.cacheRoom l).evictOne l 1024 fun x => x.tun

/-- A contribution is merged at its home slice (R291, R294). -/
def State.mergeTun (s : State) (t : TunAdd) : State :=
  let l := lineOf t.addr
  let s := s.tunPlace l
  ({ s with mem := s.mem.store t.addr (tunWord s.mem t) }.setLine l
    { s.line l with dirty := true, tun := true }).written t.core l

/-- The contributions to a line that are on their way are merged, in the order they were made, before a later
access to the line (R294, R323; log 7). -/
def State.drainLine (s : State) (l : Nat) : State :=
  (s.tun.filter fun t => lineOf t.addr == l).foldl State.mergeTun
    { s with tun := s.tun.filter fun t => lineOf t.addr != l }

/-- Every contribution on its way is merged. -/
def State.drainTun (s : State) : State := s.tun.foldl State.mergeTun { s with tun := [] }

/-- The line is written back under its own key and read again under another one (R301). -/
def State.rekey (s : State) (l key : Nat) : State :=
  let s := s.evict l
  { s with mem := s.mem.store (l * 128) (xtsLine true (keyBits key (s.keyNo key)) l (s.tiers.bytes (l * 128) 128)) }.setLine l
    { s.line l with key := key, load := s.keyNo key }

/-- The line is brought under the key of an access (R301). -/
def State.underKey (s : State) (pa key : Nat) : State :=
  let l := lineOf pa
  match s.lines.get? l with
  | none => if key = 0 then s else s.setLine l { Line.new with key := key, load := s.keyNo key }
  | some x => if s.sameKey x.key x.load key then s else (s.drainLine l).rekey l key

/-- The bytes of a range as its home slice holds them. -/
def State.readPa (s : State) (pa n : Nat) : List Byte := s.mem.bytes pa n

/-- Bytes written at a home slice by an agent of `core` (R291, R296). -/
def State.writePa (s : State) (core pa : Nat) (bs : List Byte) : State :=
  let l := lineOf pa
  let s := ((s.cacheRoom l).unpoison pa bs.length).l1Store core pa bs.length
  ({ s with mem := s.mem.store pa bs }.setLine l { s.line l with dirty := true }).written core l

/-- A plain write of a crew opens the stamp and enters the log (R318). -/
def State.openStamp (s : State) (w : Who) (x : Xl) : State :=
  match w.crew with
  | none => s
  | some c => match s.crew? c with
    | none => s
    | some y =>
      if !(x.rc && inHbm x.pa) then s
      else
        let l := lineOf x.pa
        let z := s.line l
        if 256 ≤ y.log.length then s.setLine l { z with stamp := { tag := y.tag, open_ := false, seq := y.seq } }
        else
          let s := s.setLine l { z with stamp := { tag := y.tag, open_ := true, seq := y.seq } }
          if y.log.contains (l, y.seq) then s else s.setCrew c { y with log := y.log ++ [(l, y.seq)] }

/-- An engine write stamps the line closed under the crew that started the operation (R319). -/
def State.closeStamp (s : State) (tag : Nat) (seq : BitVec 5) (x : Xl) : State :=
  if x.rc && inHbm x.pa then
    let l := lineOf x.pa
    s.setLine l { s.line l with stamp := { tag := tag, open_ := false, seq := seq } }
  else s

/-- The translated access of an agent of this package to n bytes, or why it is not performed here. The race check
of R320 is made when `check` holds. -/
def State.access (s : State) (w : Who) (va : W64) (n : Nat) (write check : Bool) : Except AccErr (Xl × State) :=
  match s.xlate w va write with
  | .error c => .error (.page c)
  | .ok x =>
    if x.home != s.ident.pkg then .error (.remote x)
    else
      let s := (s.underKey x.pa x.key).drainLine (lineOf x.pa)
      match if check then s.raceCheck w x else none with
      | some st => .error (.race st)
      | none => if !write && s.poisoned x.pa n then .error .ecc else .ok (x, s)

/-- The lines of an effect with their homes, or the failure of a translation. -/
def State.segs (s : State) (w : Who) (write : Bool) : List (Nat × Nat) → Except PageCause (List Seg)
  | [] => .ok []
  | (a, n) :: t => match s.xlate w (BitVec.ofNat 64 a) write with
    | .error c => .error c
    | .ok x => match State.segs s w write t with
      | .error c => .error c
      | .ok r => .ok ({ home := x.home, line := lineOf x.pa, off := x.pa % 128, n := n, key := x.key } :: r)

/-- The effects that a gang holds, or whose commit waits, with their lines (R229). -/
def State.heldSegs (s : State) (w : Who) (y : Gang) : List (MemOp × List Seg) :=
  (y.commits ++ y.held).flatMap fun h => h.ops.filterMap fun e => match e.2 with
    | .pstore _ _ => none
    | op => match s.segs w true (span op.va op.size) with
      | .ok l => some (op, l)
      | .error _ => none

/-- The bytes of a range within one line as an agent's own loads see them: with the effects that its gang holds (R229). -/
def State.ownBytes (s : State) (w : Who) (x : Xl) (n : Nat) : List Byte :=
  match w.own.bind s.gang? with
  | none => s.readPa x.pa n
  | some y =>
    if y.held.isEmpty && y.commits.isEmpty then s.readPa x.pa n
    else
      let l := lineOf x.pa
      (((ownView (s.heldSegs w y) (x.home, l, s.readPa (l * 128) 128)).2.2.drop (x.pa % 128)).take n)

/-- A plain load of n bytes within one line (R206, R229, R290, R320). -/
def State.plainLoad (s : State) (w : Who) (va : W64) (n : Nat) : Except AccErr (List Byte × State) :=
  match s.xlate w va false with
  | .error c => .error (.page c)
  | .ok x0 =>
    let hit := x0.home == s.ident.pkg && s.inL1 w.core (lineOf x0.pa) x0.key
    if hit && s.l1Poisoned w.core x0.pa n then .error .ecc
    else match s.access w va n false (!hit) with
    | .error e => .error e
    | .ok (x, s) =>
      .ok (s.ownBytes w x n, if x.cache == 1 then s else s.fillL1 w.core (lineOf x.pa) x.key)

/-- A plain store within one line (R206, R318). -/
def State.plainStore (s : State) (w : Who) (va : W64) (bs : List Byte) : Except AccErr State :=
  match s.access w va bs.length true true with
  | .error e => .error e
  | .ok (x, s) => .ok ((s.writePa w.core x.pa bs).openStamp w x)

/-- A strong load (R207, R229, R310). -/
def State.strongLoad (s : State) (w : Who) (va : W64) (n : Nat) : Except AccErr (List Byte × State) :=
  match s.access w va n false true with
  | .error e => .error e
  | .ok (x, s) => .ok (s.ownBytes w x n, s)

/-- A strong store: it opens no stamp (R310). -/
def State.strongStore (s : State) (w : Who) (va : W64) (bs : List Byte) : Except AccErr State :=
  match s.access w va bs.length true true with
  | .error e => .error e
  | .ok (x, s) => .ok (s.writePa w.core x.pa bs)

/-- An atomic of n bytes: the old bytes, and the state with f of them written (R210, R326). It reads and writes. -/
def State.atomic (s : State) (w : Who) (va : W64) (n : Nat) (f : List Byte → List Byte) :
    Except AccErr (List Byte × State) :=
  match s.access w va n true true with
  | .error e => .error e
  | .ok (x, s) =>
    if s.poisoned x.pa n then .error .ecc
    else .ok (s.readPa x.pa n, s.writePa w.core x.pa (f (s.readPa x.pa n)))

/-! ## Closing releases (R319) -/

/-- The open-line log of a crew is closed and its release sequence advances. -/
def State.closeLog (s : State) (c : Nat) : State :=
  match s.crew? c with
  | none => s
  | some y =>
    let close (z : Tbl Line) (e : Nat × BitVec 5) : Tbl Line :=
      z.modify e.1 fun ln =>
        if ln.stamp.tag = y.tag ∧ ln.stamp.seq = e.2 then { ln with stamp := { ln.stamp with open_ := false } }
        else ln
    { s with lines := y.log.foldl close s.lines }.setCrew c { y with log := [], seq := y.seq + 1 }

/-- A release at a scope: `.cluster` or wider closes (R319). -/
def State.release (s : State) (w : Who) (sc : Scope) : State :=
  match w.crew with
  | none => s
  | some c => if sc = .crew then s else s.closeLog c

/-- Who a scalar stream or a lane of a gang is. Its scalar loads see what it holds; a lane word's loads take their values
from `State.ownLoads` (R229). -/
def State.who (s : State) (a : Issuer) : Who :=
  let gr := match s.issuerGrid a with
    | some k => s.grid? k
    | none => none
  { asid := (gr.map (·.asid)).getD 0, part := (gr.map (·.part)).getD 0, core := a.core,
    crew := match a with
      | .gang g => (s.gang? g).map (·.crew)
      | .pilot _ => none,
    own := match a with
      | .gang g => some g
      | .pilot _ => none }

/-- The agent as the effects of its lane words reach memory, whose reads are given a view of their own (R229). -/
def Who.bare (w : Who) : Who := { w with own := none }

/-- The effects that a gang holds, with their lines (R229). -/
def State.ownEffects (s : State) (g : Nat) : List (MemOp × List Seg) :=
  match s.gang? g with
  | none => []
  | some y => s.heldSegs (s.who (.gang g)) y

/-! ## Lines of other packages that an operation reads one after the other (R293, R425) -/

/-- The line of another package that a reader has learned. -/
def State.peerLine (s : State) (r : Reader) (x : Xl) : Option (List Byte) :=
  (s.peer.find? fun e => e.by_ == r && e.home == x.home && e.line == lineOf x.pa && e.ask.isNone).map (·.data)

/-- The old values that a reader's atomic gave back, 8 bytes each. -/
def State.peerOld (s : State) (r : Reader) (x : Xl) (ask : Ask) : Option (List Byte) :=
  (s.peer.find? fun e => e.by_ == r && e.home == x.home && e.line == lineOf x.pa && e.ask == some ask).map (·.data)

/-- The AOP of the exchange of several words of a line in one step at its home slice: every word takes its operand if each
holds its compare value, and none does otherwise (R278, R279; log 14). -/
def swapAop : Nat := 13

/-- The payload of an atomic on a line, every entry for one lane (R424). -/
def Ask.payload (k : Ask) (lane : Nat) : List Byte := k.2.flatMap fun e => atmEntry lane e.1 e.2.1 e.2.2

/-- The `ATM` packet of an atomic on a line, on words of n bytes. -/
def State.askPacket (s : State) (x : Xl) (k : Ask) (n lane : Nat) : FabPacket :=
  { s.packet x.home .atm (k.payload lane) with
    keyid := x.key, pa := x.pa / 128 * 128, aop := k.1, scope := .device, ord := .rel, sz := if n = 8 then .b64 else .b32 }

/-- The `RD` packet of a line. -/
def State.linePacket (s : State) (x : Xl) (sc : Scope := .crew) : FabPacket :=
  { s.packet x.home .rd [] with keyid := x.key, pa := x.pa / 128 * 128, scope := sc }

/-- What a reader has learned is forgotten. -/
def State.dropPeer (s : State) (r : Reader) : State := { s with peer := s.peer.filter fun e => e.by_ != r }

/-- What a reader has learned of one line is forgotten. -/
def State.dropPeerLine (s : State) (r : Reader) (x : Xl) : State :=
  { s with peer := s.peer.filter fun e => !(e.by_ == r && e.home == x.home && e.line == lineOf x.pa) }

/-- A reader waits for another package. -/
def State.peerWaits (s : State) (r : Reader) : Bool := s.reqs.any fun q => q.for_ == .peer r

/-- A reader asks for what its operation needs next of another package: a line, or an atomic (R293, R425); `sc` is the scope
of a strong read. -/
def State.askPeer (s : State) (r : Reader) (e : AccErr) (sc : Scope := .crew) : State :=
  if s.peerWaits r then s
  else match e.bare with
    | .remote x =>
      if !s.streamRoom x.home then s
      else (s.request (s.linePacket x sc) (.peer r) (lineOf x.pa) []).2
    | .remoteAtomic x k n =>
      if !s.streamRoom x.home then s
      else (s.request (s.askPacket x k n 0) (.peer r) (lineOf x.pa) []).2
    | _ => s

/-! ## Faults that a scalar access raises -/

/-- The trap of a failed access at an address (R128, R300, R320). -/
def accTrap (va : W64) : AccErr → Trap
  | .at_ a e => accTrap a e
  | .page .ecc => { code := .ecc, va := va }
  | .page c => { code := .page, cause := some c, va := va }
  | .race st => { code := .race, stamp := st, va := va }
  | .ecc => { code := .ecc, va := va }
  | .code c => { code := c, va := va }
  | .wait => { code := .page, va := va }
  | .remote _ | .remoteAtomic _ _ _ | .stale _ => { code := .page, cause := some .badpa, va := va }

/-! ## Pushes (R28, R29) -/

/-- The KIND and INDEX of a queue's binding (R28). -/
def Gang.bound (y : Gang) (q : QReg) : Nat × Nat := (y.qmap[q.val].toNat / 32, y.qmap[q.val].toNat % 32)

/-- The products of a push to the accumulator port (R248): lane n's value for element 32 * (c mod 2) + n, NaNs and
infinities dropped and counted. -/
def pushBatch (c : Nat) (vals : LaneVec) (mask : Mask) : Batch :=
  let live := maskLanes mask
  let fin := live.filter fun n => isFin32 vals[n]
  { row := c / 2,
    products := (fin.map fun n =>
      let p := Fmt.f32.parts vals[n].toNat
      { elem := 32 * (c % 2) + n.val, sig := if p.1 then -(p.2.1 : Int) else p.2.1, exp := p.2.2 }).filter
        fun p => p.sig != 0,
    count := fin.length, drops := live.length - fin.length }

/-- A push of one entry (R29): a contribution to the accumulator port (R248), or an entry of the pilot command
mailbox (R260). None while the endpoint cannot accept it. -/
def State.pushQueue (s : State) (g : Nat) (q : QReg) (vals : LaneVec) (mask : Mask) : Option State :=
  match s.gang? g with
  | none => some s
  | some y =>
    let cl := clusterOf (coreOf g)
    match y.bound q with
    | (1, idx) =>
      let c := y.cursor[q.val].toNat
      let job : AccJob := .batches [pushBatch c vals mask] y.crew idx (.gang g) .push
      let s := s.setGang g { y with cursor := y.cursor.set q.val (BitVec.ofNat 7 (c + 1)) }
      let u := s.core (coreOf g)
      some (s.setCore (coreOf g) { u with port := u.port ++ [job] })
    | (4, _) =>
      let u := s.cluster cl
      if 16 ≤ u.mailbox.length then none
      else
        let e : QEntry := { grid := (s.issuerGrid (.gang g)).getD 0, vals := vals, mask := mask,
                            core := coreOf g % 4, gslot := g % 32, hole := none }
        some (s.setCluster cl { u with mailbox := u.mailbox ++ [e] })
    | _ => some s

/-- The place that a `var` word takes at its issue for the entry that it pushes when it completes, so that pushes take
effect in issue order (R78). None while the endpoint cannot accept it. -/
def State.pushHole (s : State) (g : Nat) (q : QReg) (var : Nat) : Option State :=
  match s.gang? g with
  | none => some s
  | some y =>
    let cl := clusterOf (coreOf g)
    match y.bound q with
    | (1, idx) =>
      let c := y.cursor[q.val].toNat
      let s := s.setGang g { y with cursor := y.cursor.set q.val (BitVec.ofNat 7 (c + 1)) }
      let u := s.core (coreOf g)
      some (s.setCore (coreOf g) { u with port := u.port ++ [.hole g var c y.crew idx] })
    | (4, _) =>
      let u := s.cluster cl
      if 16 ≤ u.mailbox.length then none
      else
        let e : QEntry := { grid := (s.issuerGrid (.gang g)).getD 0, vals := laneConst 0, mask := 0,
                            core := coreOf g % 4, gslot := g % 32, hole := some (g, var) }
        some (s.setCluster cl { u with mailbox := u.mailbox ++ [e] })
    | _ => some s

/-- The place of a word in an accumulator port takes its entry. -/
def AccJob.fill (g var : Nat) (vals : LaneVec) (mask : Mask) : AccJob → AccJob
  | .hole g' var' c crew tile =>
    if g' = g ∧ var' = var then .batches [pushBatch c vals mask] crew tile (.gang g) .push else .hole g' var' c crew tile
  | j => j

/-- The place of a word in its endpoint takes the entry that the word pushes. -/
def State.fillHole (s : State) (g var : Nat) (vals : LaneVec) (mask : Mask) : State :=
  let u := s.core (coreOf g)
  let v := s.cluster (clusterOf (coreOf g))
  (s.setCore (coreOf g) { u with port := u.port.map (AccJob.fill g var vals mask) }).setCluster (clusterOf (coreOf g))
    { v with mailbox := v.mailbox.map fun e =>
        if e.hole = some (g, var) then { e with vals := vals, mask := mask, hole := none } else e }

/-- The job is a place of a gang. -/
def AccJob.holeOf (g : Nat) : AccJob → Bool
  | .hole g' _ _ _ _ => g' == g
  | _ => false

/-- The places that a gang's incomplete words hold are given up. -/
def State.dropHoles (s : State) (g : Nat) : State :=
  let u := s.core (coreOf g)
  let v := s.cluster (clusterOf (coreOf g))
  (s.setCore (coreOf g) { u with port := u.port.filter fun j => !j.holeOf g }).setCluster (clusterOf (coreOf g))
    { v with mailbox := v.mailbox.filter fun e => !e.hole.any fun h => h.1 == g }

/-! ## Landing and completion of lane words (R59 to R64) -/

/-- The destination is a queue. -/
def LaneDst.isQueue : LaneDst → Bool
  | .q _ => true
  | .v _ | .p _ => false

/-- The result goes to a queue. -/
def LaneWrite.pushes (x : LaneWrite) : Bool := x.dst.isQueue

/-- Some byte of a scratchpad range is poisoned (R296). -/
def State.spoisoned (s : State) (pa n : Nat) : Bool :=
  s.spoison.any fun g => decide (g * 8 < pa + n) && decide (pa < g * 8 + 8)

/-- The first byte in the pools of lane register n of a gang: in a register-file unit of its crew, 8 KiB for each of four
gangs, or in the extended block that it holds (R25, R31, R289; the order within a unit: log 57). -/
def State.regAt (s : State) (g n : Nat) : Option Nat :=
  match s.gang? g with
  | none => none
  | some y => match s.crew? y.crew with
    | none => none
    | some c =>
      let base := coreOf g * 2 ^ 20 + 32768 * c.unit
      if n < 64 then some (base + 8192 * y.gidx + 128 * n)
      else y.ext.map fun b => base + 32768 * (c.part.rf + c.part.acc) + 16384 * b + 128 * (n - 64)

/-- Lane l of a register at `at_` lies in a poisoned granule. -/
def State.lanePoisoned (s : State) (at_ : Nat) (l : Fin 32) : Bool := s.spoisoned (at_ + 4 * l.val) 4

/-- A lane register is poisoned in one of some lanes (R296). -/
def State.regPoisoned (s : State) (g n : Nat) (m : Mask) : Bool :=
  !s.spoison.isEmpty && match s.regAt g n with
    | none => false
    | some a => (maskLanes m).any (s.lanePoisoned a)

/-- A write of some lanes of a register lifts the poison of the granules that it covers whole (R296). -/
def State.regWritten (s : State) (g n : Nat) (m : Mask) : State :=
  if s.spoison.isEmpty then s
  else match s.regAt g n with
    | none => s
    | some a => { s with spoison := s.spoison.filter fun q =>
        !(decide (a ≤ q * 8) && decide (q * 8 < a + 128) && m.getLsbD ((q * 8 - a) / 4)
          && m.getLsbD ((q * 8 - a) / 4 + 1)) }

/-- One destination of a completed word is written in its enabled lanes. -/
def State.landWrite (s : State) (g : Nat) (x : LaneWrite) : State :=
  match x.dst with
  | .q _ => s
  | .v n => (s.setVreg g n.val (laneMerge x.mask x.vals (s.vreg g n.val))).regWritten g n.val x.mask
  | .p n => s.setPreg g n (s.preg g n &&& ~~~x.mask ||| maskOf fun l => x.mask.getLsbD l.val && (x.vals[l]).getLsbD 0)

/-- Token n is released once (R61). -/
def State.dropToken (s : State) (g n : Nat) : State :=
  match s.gang? g with
  | none => s
  | some y =>
    if h : 0 < n ∧ n ≤ 6 then
      have hn : n - 1 < 6 := by omega
      s.setGang g { y with tokens := y.tokens.set (n - 1) (y.tokens[n - 1] - 1) }
    else s

/-- The destinations of a completed word are written and its token released. -/
def State.complete (s : State) (g : Nat) (ws : List LaneWrite) (token : Nat) : State :=
  (ws.foldl (fun s w => s.landWrite g w) s).dropToken g token

/-- The place of word `var` in a queue takes the entry that its results make. -/
def State.fillPush (s : State) (g var : Nat) (ws : List LaneWrite) : State :=
  let e := (ws.filter LaneWrite.pushes).foldl (fun e w => (laneMerge w.mask w.vals e.1, e.2 ||| w.mask)) (laneConst 0, (0 : Mask))
  s.fillHole g var e.1 e.2

/-- Results of a word whose failed lanes are to be repeated are kept for its one push (R29, R377). -/
def Owed.keep (o : Owed) (v : VarPend) : Owed :=
  if o.no = v.id then { o with writes := o.writes ++ v.writes.filter LaneWrite.pushes } else o

/-- A pending `var` word completes: its registers are written, the place that it holds in a queue takes the entry that it
pushes, and its token is released (R61, R78). A word with lanes whose access is to be repeated keeps its place until then
(R29, R377). -/
def State.completeVar (s : State) (g : Nat) (v : VarPend) : State :=
  let s := s.complete g v.writes v.token
  if v.dsts.any LaneDst.isQueue then
    match s.gang? g with
    | none => s
    | some y =>
      if y.owes.any fun o => o.no == v.id then s.setGang g { y with owes := y.owes.map fun o => o.keep v }
      else s.fillPush g v.id v.writes
  else s

/-- The fixed-latency results of a gang that are due at the cycle land, in the order of their issue; of two that
land together, the later-issued leaves its value (R64). -/
def State.landFix (s : State) (g now : Nat) : State :=
  match s.gang? g with
  | none => s
  | some y =>
    let due := y.fix.filter fun f => f.landAt ≤ now
    let s := s.setGang g { y with fix := y.fix.filter fun f => now < f.landAt }
    (sortBy (·.landAt) due).foldl (fun s f => s.complete g f.writes f.token) s

/-- The word is still to have an answer of another package. -/
def VarPend.far (v : VarPend) : Bool := !v.remote.isEmpty || !v.rays.isEmpty

/-- Every word of the gang whose results are at hand completes (R375 step 1). -/
def State.finishLanes (s : State) (g : Nat) : State :=
  match s.gang? g with
  | none => s
  | some y =>
    let ready := y.var.filter fun v => !v.far
    let s := s.setGang g { y with fix := [], var := y.var.filter VarPend.far }
    let s := (sortBy (·.landAt) y.fix).foldl (fun s f => s.complete g f.writes f.token) s
    ready.foldl (fun s v => s.completeVar g v) s

/-- A word of the gang awaits an answer of another package (R425). -/
def Gang.awaits (y : Gang) : Bool := y.var.any VarPend.far

/-- Every word that an agent's gang has issued can complete now, as the delivery of a trap needs (R375). -/
def State.mayTrap (s : State) (a : Issuer) : Bool :=
  match a with
  | .gang g => !(s.gang? g).any Gang.awaits
  | .pilot _ => true

/-- A stream in this wait has taken no effect, so that the delivery of a lane word's trap may abandon it (R375). -/
def ScalarWait.interruptible : ScalarWait → Bool
  | .none | .stall | .asleep _ | .polling | .barWait _ false | .drain _ | .fbarRead _ => true
  | .barWait _ true | .barDone | .grant _ | .granted _ | .launchSlot _ _ _ | .launchGranted _ _ _ | .acc | .accDone _
  | .fbar | .fbarDone _ | .remote _ | .answered _ | .answerErr _ | .casOut _ _ | .casBack _ _ => false

/-- The fault of a lane word of the gang can be delivered now (R375). -/
def Gang.mayTrap (y : Gang) : Bool := !y.awaits && y.sc.wait.interruptible

/-- No issued lane word of the gang is incomplete. -/
def Gang.quiet (y : Gang) : Bool := y.fix.isEmpty && y.var.isEmpty

/-- No lane block is dispatched or live (R129). -/
def Gang.idle (y : Gang) : Bool := y.queue.isEmpty && y.lpc.all fun l => !l.live

/-! ## Delivery of a trap (R374, R375, R379, R380) -/

/-- The number of a code (R373). -/
def Code.num : Code → Nat
  | .illegalOp => 0x01 | .extreg => 0x02 | .queueMap => 0x03 | .stallShort => 0x04 | .align => 0x05
  | .range => 0x06 | .owner => 0x07 | .berthState => 0x08 | .barrier => 0x09 | .weight => 0x0A
  | .copy => 0x0B | .opformat => 0x0C | .divStack => 0x0D | .traceDepth => 0x0E | .payload => 0x0F
  | .regionOverflow => 0x10 | .rayState => 0x11 | .page => 0x12 | .race => 0x13 | .userTrap => 0x14
  | .trapState => 0x15 | .preempt => 0x20 | .nest => 0x30 | .ecc => 0x31 | .fabric => 0x32
  | .handlerFault => 0x33 | .engine => 0x34 | .coolant => 0x35 | .linkKey => 0x36

/-- The number of a cause (R300). -/
def PageCause.num : PageCause → Nat
  | .varange => 0 | .absent => 1 | .demand => 2 | .write => 3 | .part => 4 | .key => 5 | .malformed => 6
  | .badpa => 7 | .ecc => 0

/-- The fault is device-level whatever the kernel's handler (R300, R373). -/
def Trap.deviceLevel (t : Trap) : Bool :=
  t.hard || match t.code with
  | .nest | .ecc | .fabric | .handlerFault | .engine | .coolant | .linkKey => true
  | .page => t.cause != some .varange && t.cause != some .demand
  | _ => false

/-- Where a trap stands in its program: the address of the instruction or the word, where the streams resume, and
for a lane word its slot (R374). -/
structure TrapPoint where
  faddr : W64
  sres : W64
  lane : Option (Fin 2 × Nat)
  /-- the accesses that were not performed, for `eret` -/
  redo : List (Fin 32 × MemOp) := []
  deriving DecidableEq, Repr

/-- The 64 bytes of a trap record (R374). -/
def recordBytes (t : Trap) (p : TrapPoint) (cyc s62 s63 : W64) : List Byte :=
  let w0 := t.info.toNat * 2 ^ 32 + (match p.lane with
      | some (sl, _) => sl.val * 2 ^ 13 + 2 ^ 12
      | none => 0) + (match t.cause with
      | some c => c.num * 2 ^ 8
      | none => 0) + t.code.num
  let w3 := cyc.toNat % 2 ^ 32 * 2 ^ 32 + (match p.lane with
      | some (_, l) => l % 2 ^ 30
      | none => 0)
  leBytes 8 w0 ++ bytes64 p.faddr ++ bytes64 p.sres ++ leBytes 8 w3
    ++ leBytes 8 (t.stamp.toNat * 2 ^ 32 + t.nmask.toNat) ++ bytes64 t.va ++ bytes64 s62 ++ bytes64 s63

/-- The device as it reads lines of a context area in another package. -/
def Who.ctxReader (w : Who) : Reader :=
  match w.own, w.reader with
  | some g, _ => .ctx (.gang g)
  | none, some r => r
  | none, none => .ctx (.pilot (w.core / 4))

/-- The grid id that a report carries; all ones when it names none (R459). -/
def State.gridId (s : State) (g : Option Nat) : W32 :=
  match g with
  | some k => match s.grid? k with
    | some x => x.id
    | none => BitVec.allOnes 32
  | none => BitVec.allOnes 32

/-- A device's operation for the crew of an agent, for the writes that it sends to other packages. -/
def State.ctxStarter (s : State) (w : Who) : Starter :=
  match w.crew.bind s.crew? with
  | some c => { asid := w.asid, part := w.part, grid := c.grid, gid := s.gridId (some c.grid), index := c.index, tag := c.tag }
  | none => { asid := w.asid, part := w.part, grid := 4096, gid := BitVec.allOnes 32, index := 0, tag := 0 }

/-- The device's own write into a context area (R359): no stamp, no race check. One in another package goes to its home
slice there, and what has been read of it before is forgotten (R293). -/
def State.ctxStore (s : State) (w : Who) (va : W64) (bs : List Byte) : Except PageCause State :=
  match s.xlate w va true with
  | .error c => .error c
  | .ok x =>
    if x.home = s.ident.pkg then .ok ((s.underKey x.pa x.key).writePa w.core x.pa bs)
    else .ok ((spanParts (bs.length / 128 + 2) x.pa bs.length).foldl (fun s e =>
      let p := { s.packet x.home .wr (wrPayload [(e.1 % 128, (bs.drop (e.1 - x.pa)).take e.2)]) with
        keyid := x.key, pa := e.1 / 128 * 128 }
      (s.request p (.unit (s.ctxStarter w)) (p.pa / 128) []).2) (s.dropPeer w.ctxReader))

/-- The lines of a range in another package as a reader has learned them, or the first that it has not. -/
def State.ctxLines (s : State) (w : Who) (x : Xl) : List (Nat × Nat) → Except AccErr (List Byte)
  | [] => .ok []
  | (pa, n) :: t => match s.peerLine w.ctxReader { x with pa := pa }, State.ctxLines s w x t with
    | none, _ => .error (.remote { x with pa := pa })
    | _, .error e => .error e
    | some l, .ok bs => .ok ((l.drop (pa % 128)).take n ++ bs)

/-- The device's own read of a context area (R359), in another package by requests (R293). -/
def State.ctxLoad (s : State) (w : Who) (va : W64) (n : Nat) : Except AccErr (List Byte) :=
  match s.xlate w va false with
  | .error c => .error (.page c)
  | .ok x =>
    if x.home ≠ s.ident.pkg then s.ctxLines w x (spanParts (n / 128 + 2) x.pa n)
    else if s.poisoned x.pa n then .error (.page .ecc) else .ok (s.bytesOver x.pa n x.key)

/-- `top` is `g` or one of its ancestors, within `n` generations. -/
def descends (gs : Tbl Grid) (top : Nat) : Nat → Nat → Bool
  | 0, g => g == top
  | n + 1, g => g == top || match gs.get? g with
    | some x => match x.parent with
      | some p => descends gs top n p
      | none => false
    | none => false

/-- The grid and its descendants stop: the places in queues that their incomplete words hold are given up (R380). -/
def State.stopGrid (s : State) (g : Nat) : State :=
  let mine (y : Gang) : Bool := (s.crew? y.crew).any fun c => descends s.grids g 11 c.grid
  let s := (s.gangs.filter fun e => mine e.2).foldl (fun s e => s.dropHoles e.1) s
  { s with grids := s.grids.map fun e => if descends s.grids g 11 e.1 then (e.1, { e.2 with stopped := true }) else e }

/-- Where a report comes from (R459): the die, and the kind and number of its source. -/
structure Source where
  die : Nat
  from_ : Nat
  unit : Nat
  deriving DecidableEq, Repr

/-- The source of a gang's or a pilot's report. -/
def Issuer.source (a : Issuer) : Source := { die := dieOf a.cluster, from_ := 0, unit := 0 }

/-- The 128 bytes of a mailbox entry (R459): the trap record, the grid id, the code, the source, and the words at
bytes 72, 80, 88 and 96. -/
def reportBytes (bs : List Byte) (grid : W32) (code : Code) (src : Source) (w72 w80 w88 w96 : W64) : List Byte :=
  (bs ++ List.replicate (64 - bs.length) 0)
    ++ leBytes 8 (grid.toNat + code.num * 2 ^ 32 + src.die * 2 ^ 40 + src.unit * 2 ^ 42 + src.from_ * 2 ^ 48)
    ++ bytes64 w72 ++ bytes64 w80 ++ bytes64 w88 ++ bytes64 w96 ++ List.replicate 24 0

/-- A report is handed to the harbourmaster, and the grid it names stops with its descendants (R380, R459). -/
def State.report (s : State) (g : Option Nat) (bs : List Byte) (code : Code) (src : Source)
    (w72 w80 w88 w96 : W64) : State :=
  let s := { s with reports := s.reports ++ [{ bytes := reportBytes bs (s.gridId g) code src w72 w80 w88 w96 }] }
  match g with
  | some k => s.stopGrid k
  | none => s

/-- The word that names a crew in a report without a trap record (R459). -/
def crewWord (index tag : Nat) : W64 := BitVec.ofNat 64 (index % 2 ^ 32 + tag % 2 ^ 26 * 2 ^ 32)

/-- A fault of an engine's operation is reported, naming the crew that started it (R305, R459, R486). -/
def State.engineFault (s : State) (w : Starter) (code : Code) (src : Source) : State :=
  let s : State := { s with reports := s.reports ++ [{ bytes := reportBytes [] w.gid code src 0 0 0 (crewWord w.index w.tag) }] }
  if (s.grid? w.grid).any fun x => x.id == w.gid then s.stopGrid w.grid else s

/-- The kernel of an issuer's grid. -/
def State.kernel (s : State) (a : Issuer) : Option Kernel :=
  match s.issuerGrid a with
  | some k => (s.grid? k).map (·.kernel)
  | none => none

/-- The crew key of an issuer. -/
def State.crewKey (s : State) (a : Issuer) : Option Nat :=
  match a with
  | .gang g => (s.gang? g).map (·.crew)
  | .pilot _ => none

/-- The offset of the save area in a crew's context area (R359). -/
def saveOffset (k : Kernel) : Nat :=
  (64 * k.gangs + 16 * k.dstack * k.gangs + 4095) / 4096 * 4096

/-- The save-area base of an issuer's crew; a pilot has none (R375, R379). -/
def State.saveBase (s : State) (a : Issuer) : W64 :=
  match s.crewKey a, s.kernel a with
  | some c, some k => match s.crew? c with
    | some y => y.ctx + BitVec.ofNat 64 (saveOffset k)
    | none => 0
  | _, _ => 0

/-- The address of a routine in the kernel's `.text` (R375). -/
def Kernel.text (k : Kernel) (off : Nat) : W64 := k.image + BitVec.ofNat 64 (k.textOff + off)

/-- The handler offset of an issuer's kernel: `HANDLER` of a gang, `PHANDLER` of a pilot (R373, R379). -/
def Kernel.handlerOf (k : Kernel) : Issuer → Nat
  | .gang _ => k.handler
  | .pilot _ => k.phandler

/-- A context enters a routine in handler mode: s62 and s63 are set, and SPC goes to its address (R375). -/
def State.enter (s : State) (a : Issuer) (r : Routine) (addr : W64) : State :=
  match s.sctx a with
  | none => s
  | some c => s.setSctx a
    { c with pc := addr, s := (c.s.set 62 c.trapslot).set 63 (s.saveBase a), mode := some r, wait := .none }

/-- A context whose context area cannot be reached: a device-level PAGE fault that names the crew (R359). -/
def State.areaFault (s : State) (a : Issuer) : State :=
  let w := match s.crewKey a with
    | some c => match s.crew? c with
      | some y => crewWord y.index y.tag
      | none => 0
    | none => 0
  s.report (s.issuerGrid a) [] .page a.source 0 0 0 w

/-- A read of a context area that has not been made: it asks another package for a line, or fails (R293, R359). -/
def State.areaMiss (s : State) (a : Issuer) (e : AccErr) : State :=
  match e with
  | .remote _ => s.askPeer (.ctx a) e
  | _ => s.areaFault a

/-- A copy names a barrier or a berth (R383). -/
def copyNames (desc : List Byte) : Bool :=
  let c := fieldAt desc 0x10 8
  flag c 55 || fld c 40 2 == 1 || fld c 38 2 == 1

/-- The crew owns no berth and holds none, and no copy, MMA or fabric transfer names what it holds (R383). -/
def State.mayLeave (s : State) (key : Nat) (c : Crew) : Bool :=
  c.owed.isEmpty &&
  let cl := clusterOf (coreOf key)
  let cores := (List.range 4).map fun i => s.core (4 * cl + i)
  !(cores.any fun u => u.berths.any fun e => e.2.state != .free &&
      (e.2.own == c.tag || e.2.holder == .crew (coreOf key % 4) (key % 32)))
    && !((s.cluster cl).copies.any fun p => p.crew == key && !p.ended && copyNames p.desc)
    && !((s.core (coreOf key)).slices.any fun p => p.crew == key)
    && !(cores.any fun u => u.engine.any fun j => match j with
        | .mma _ _ _ _ _ _ k _ _ => k == key
        | .ctab _ _ => false)
    && !((s.core (coreOf key)).port.any fun j => match j with
        | .hole _ _ _ k _ => k == key
        | .batches _ k _ _ _ | .clr k _ _ _ _ | .ld _ k _ _ _ | .st _ _ _ _ _ k _ _ _ _ | .renorm _ k _ _ _ _
        | .scale _ k _ _ _ _ | .hdr _ k _ _ _ => k == key)
    && !(s.colls.any fun x => x.crew == key)

/-- Who started an operation, for a crew of this package. -/
def State.crewStarter (s : State) (c : Crew) : Starter :=
  let gr := s.grid? c.grid
  { asid := (gr.map (·.asid)).getD 0, part := (gr.map (·.part)).getD 0, grid := c.grid,
    gid := s.gridId (some c.grid), index := c.index, tag := c.tag }

/-- A DEMAND fault of a replayable crew that meets the kill conditions (R305, R386): its gangs stop and a fault entry is
to be posted; the crew is killed by an event of its own. None when the fault is delivered as a trap (R387). -/
def State.demandStop (s : State) (a : Issuer) (t : Trap) : Option State :=
  match s.crewKey a, s.kernel a, s.sctx a with
  | some key, some k, some x => match s.crew? key with
    | none => none
    | some c =>
      if t.code == .page && t.cause == some .demand && k.replay && c.part.acc == 0 && x.mode.isNone && s.mayLeave key c then
        some { s with gangs := s.gangs.map fun e => if e.2.crew = key then (e.1, { e.2 with frozen := true }) else e,
                      paused := s.paused ++ [{ agent := 0, sub := 0, key := c.tag, who := s.crewStarter c, cause := .demand,
                                               va := t.va, resume_ := 0, sel := key, entry := none }] }
      else none
  | _, _, _ => none

/-- A gang whose `xreg.acq` is abandoned no longer waits for a block (R154, R375). -/
def State.unqueue (s : State) (g : Nat) : State :=
  match s.gang? g with
  | none => s
  | some y => match s.crew? y.crew with
    | none => s
    | some c => if c.acqs.contains g then s.setCrew y.crew { c with acqs := c.acqs.erase g } else s

/-- The delivery of a trap to a gang or a pilot (R375 to R380): the issued words complete, the record is written,
and the context enters its handler; a device-level fault, or one without a handler, stops the grid instead, and a
fault in handler mode is a HANDLER_FAULT that keeps the record. A DEMAND fault may stop the crew for a kill instead. -/
def State.takeTrap (s : State) (a : Issuer) (t : Trap) (p : TrapPoint) : State :=
  match s.demandStop a t with
  | some s => s
  | none =>
  let s := match a with
    | .gang g => (s.finishLanes g).unqueue g
    | .pilot _ => s
  match s.sctx a, s.kernel a with
  | some c, some k =>
    let g := s.issuerGrid a
    if c.mode.isSome then
      let old := match s.ctxLoad (s.who a) c.trapslot 64 with
        | .ok bs => bs
        | .error _ => []
      let nested := t.code.num + (match t.cause with
          | some x => x.num * 2 ^ 8
          | none => 0) + (if p.lane.isSome then 2 ^ 12 else 0)
      s.report g old .handlerFault a.source (BitVec.ofNat 64 nested) p.faddr t.va 0
    else
      let bs := recordBytes t p (s.cyc (dieOf a.cluster)) c.s[62] c.s[63]
      match s.ctxStore (s.who a) c.trapslot bs with
      | .error _ => s.areaFault a
      | .ok s =>
        if t.deviceLevel || k.handlerOf a == 0xFFFFFFFF then s.report g bs t.code a.source 0 0 0 0
        else
          let s := match a with
            | .gang y => match s.gang? y with
              | some z => s.setGang y { z with redo := p.redo }
              | none => s
            | .pilot _ => s
          s.enter a .trap (k.text (k.handlerOf a))
  | _, _ => s

/-- The push that a trapped word still owes: that of the word that issued first, of a slot and an index. -/
def Gang.owed (y : Gang) (slot : Fin 2) (index : Nat) : Option Owed :=
  (sortBy (·.no) (y.owes.filter fun o => o.slot == slot && o.index == index)).head?

/-- The trapped word that a record names makes the push that it owes, with the lanes that have been performed (R29,
R377). -/
def State.payOwed (s : State) (g : Nat) (bs : List Byte) : State :=
  match s.gang? g with
  | none => s
  | some y => match y.owed (if flag (fieldAt bs 0 8) 13 then 1 else 0) (word64 (bs.drop 8)).toNat with
    | none => s
    | some o => (s.setGang g { y with owes := y.owes.erase o }).fillPush g o.no o.writes

/-- The return from a trap handler or a restore routine (R377): s62 and s63 come from the record, handler mode ends,
the trapped lane slot goes on at LRES and the scalar stream at SRES. -/
def State.leave (s : State) (a : Issuer) (bs : List Byte) : State :=
  match s.sctx a with
  | none => s
  | some c =>
    let s := s.setSctx a { c with pc := word64 (bs.drop 16), wait := .none, mode := none,
                                  s := (c.s.set 62 (word64 (bs.drop 48))).set 63 (word64 (bs.drop 56)) }
    let w0 := fieldAt bs 0 8
    match a with
    | .pilot _ => s
    | .gang g => let s := if flag w0 12 then s.payOwed g bs else s; match s.gang? g with
      | none => s
      | some y =>
        let y := { y with redo := [] }
        if flag w0 12 then
          let n : Fin 2 := if flag w0 13 then 1 else 0
          let l := y.lpc[n]
          s.setGang g { y with lpc := y.lpc.set n { l with
            index := if l.live then fld (fieldAt bs 24 8) 0 30 else l.index } }
        else s.setGang g y

/-! ## Scalar instructions -/

/-- The gang's scalar stream may not yet write s0 to s31: lane work still reads them (R22, R376). -/
def State.blocked (s : State) (a : Issuer) : Bool :=
  match a with
  | .pilot _ => false
  | .gang g => match s.gang? g with
    | none => false
    | some y =>
      match y.sc.mode with
      | some .trap => !y.quiet
      | _ => !y.idle

/-- The interlock of R22 on a write to register d. -/
def State.interlock (s : State) (a : Issuer) (d : SReg) : Act Unit :=
  waitFor (!(decide (d.val < 32) && s.blocked a)) s

/-- A scalar register written. -/
def State.putS (s : State) (a : Issuer) (d : SReg) (v : W64) : State :=
  match s.sctx a with
  | some c => s.setSctx a { c with s := c.s.set d.val v }
  | none => s

/-- A scalar condition register written. -/
def State.putK (s : State) (a : Issuer) (d : KReg) (v : Bool) : State :=
  match s.sctx a with
  | some c => s.setSctx a { c with k := c.k.set d.val v }
  | none => s

/-- The stream goes on at an address, and its wait is over. -/
def State.goto (s : State) (a : Issuer) (pc : W64) : State :=
  match s.sctx a with
  | some c => s.setSctx a { c with pc := pc, wait := .none }
  | none => s

/-- The stream goes on after an instruction of n bytes at `pc` (R48). -/
def State.next (s : State) (a : Issuer) (pc : W64) (n : Nat) : State := s.goto a (pc + BitVec.ofNat 64 n)

/-- The stream's wait. -/
def State.setWait (s : State) (a : Issuer) (w : ScalarWait) : State :=
  match s.sctx a with
  | some c => s.setSctx a { c with wait := w }
  | none => s

/-- The features of R91. -/
inductive Feature where
  | render | fabric | sparse | lut4 | blockfp
  deriving DecidableEq, Repr

/-- The bit of a feature in feature word 0 (R91). -/
def Feature.bit : Feature → Nat
  | .render => 0
  | .fabric => 1
  | .sparse => 2
  | .lut4 => 3
  | .blockfp => 4

/-- The feature was accepted, and the partition of the issuer has not declined it (R75, R354). -/
def State.hasFeature (s : State) (a : Issuer) (f : Feature) : Bool :=
  s.ident.facc[0].getLsbD f.bit &&
    match s.issuerGrid a with
    | none => false
    | some k => match s.grid? k with
      | none => false
      | some x => (s.launch.pf[x.part % 4]'(Nat.mod_lt _ (by decide))).getLsbD f.bit

/-- Which streams an opcode is legal in (R74). -/
inductive StreamKind where
  | any | gangs | pilots
  deriving DecidableEq, Repr

/-- The opcode is legal in the issuer's stream (R74). -/
def StreamKind.legal : StreamKind → Issuer → Bool
  | .any, _ => true
  | .gangs, .gang _ => true
  | .gangs, .pilot _ => false
  | .pilots, .pilot _ => true
  | .pilots, .gang _ => false

/-- A stream whose instruction waits takes no part in the arbitration of the issue ports until the wait ends (R369). -/
def State.stalls (s : State) (a : Issuer) : State :=
  match s.sctx a with
  | some c => if c.wait = .none then s.setSctx a { c with wait := .stall } else s
  | none => s

/-- The gang is held for a kill, which takes the place of any trap (R386). -/
def State.killHeld (s : State) (a : Issuer) : Bool :=
  match a with
  | .gang g => (s.gang? g).any fun y => y.frozen && y.sc.mode.isNone
  | .pilot _ => false

/-- What a scalar instruction ends in: its next state, its wait, or the trap it raises at `pc`, whose resume
point is `sres` (R128). A trap waits while a lane word's remote answer is out (R375). -/
def scalarEnd (s : State) (a : Issuer) (pc sres : W64) : Act State → Out
  | .ok t => .next t
  | .error (.wait t) => .next (t.stalls a)
  | .error (.trap t) =>
    .next (if s.killHeld a then s.setWait a .stall
      else if s.mayTrap a then s.takeTrap a t { faddr := pc, sres := sres, lane := none }
      else s.stalls a)

/-- The context as an instruction that waits finds it when it checks again. -/
def ScalarCtx.rechecked (c : ScalarCtx) : ScalarCtx := if c.wait = .stall then { c with wait := .none } else c

/-- A scalar instruction of the agent that `cur` names: the stream and feature checks of R74 and R75, then its
effect f on the issuer and its context. -/
def scalar (s : State) (k : StreamKind) (fs : List Feature) (f : Issuer → ScalarCtx → Act State) : Out :=
  match curIssuer s.cur with
  | none => .fault .noIssuer
  | some a => match s.sctx a with
    | none => .fault .noIssuer
    | some c =>
      scalarEnd s a c.pc c.pc
        (if !(k.legal a && fs.all (s.hasFeature a)) then raise { code := .illegalOp } else f a c.rechecked)

/-- The address lies in the kernel's `.text` (R134). -/
def State.inText (s : State) (a : Issuer) (addr : W64) : Bool :=
  match s.kernel a with
  | none => false
  | some k =>
    let base := (k.text 0).toNat
    decide (base ≤ addr.toNat) && decide (addr.toNat < base + k.textSize)

end Sys2Proof.Machine
end

