-- ==== Sys2Proof/Machine/Special.lean ====
section
/-!
DEFINITION. The special functions (R183) and the exponential of R272: each exact function rounded once to `f32`. The
exact cases are decided exactly; every other value is irrational and is rounded from an approximation in fixed
point with a relative error below 2^-180 (log 11).
-/

namespace Sys2Proof.Machine

/-- The integer square root, by k binary digits from the highest. -/
def isqrtFrom (n : Nat) : Nat → Nat → Nat
  | 0, r => r
  | k + 1, r =>
    let t := r + 2 ^ k
    isqrtFrom n k (if t * t ≤ n then t else r)

/-- The integer square root. -/
def isqrt (n : Nat) : Nat := isqrtFrom n (Nat.log2 n / 2 + 1) 0

/-- The square root of n / d, exact when it is rational, otherwise a value between the same two multiples of a
unit far below any rounding boundary. -/
def sqrtEx (n d : Nat) : Ex :=
  if n = 0 then .fin false 0 1
  else
    let k := 100 + (Nat.log2 d + 1)
    let m := n * 4 ^ k / d
    let r := isqrt m
    if r * r * d = n * 4 ^ k then .fin false r (2 ^ k) else .fin false (2 * r + 1) (2 ^ (k + 1))

/-- pi in units of 2^-384. -/
def piFix : Nat :=
  123785053203292407819553701039137184435442376711719744927844101526111311422332618694237111830548352286187237239491692

/-- The logarithm of 2 in units of 2^-384. -/
def ln2Fix : Nat :=
  27311389503436327984859642001965014295881604093268141717219425985154158335678826923825841039545353940567474963094288

/-- The fixed-point unit is 2^-384. -/
def unit384 : Nat := 2 ^ 384

/-- The Taylor sum of the exponential of x units, from term number n on, k terms. -/
def expTerms (x : Nat) : Nat → Nat → Nat → Nat
  | 0, _, _ => 0
  | k + 1, n, t => t + expTerms x k (n + 1) (t * x / unit384 / n)

/-- The exponential of x units, for x below one, in units. -/
def expFix (x : Nat) : Nat := expTerms x 80 1 unit384

/-- The Taylor sum of the sine (from t = x, n = 1) or the cosine (from t = 1, n = 0) of an angle with square x2. -/
def trigTerms (x2 : Nat) : Nat → Nat → Nat → Int
  | 0, _, _ => 0
  | k + 1, n, t => (t : Int) - trigTerms x2 k (n + 2) (t * x2 / unit384 / ((n + 1) * (n + 2)))

/-- The sine of x units, x at most pi / 4. -/
def sinFix (x : Nat) : Nat := (trigTerms (x * x / unit384) 40 1 x).toNat

/-- The cosine of x units, x at most pi / 4. -/
def cosFix (x : Nat) : Nat := (trigTerms (x * x / unit384) 40 0 unit384).toNat

/-- The binary digits of log2 of y / 2^256, y from 2^256 to 2^257, k of them. -/
def logDigits : Nat → Nat → Nat
  | 0, _ => 0
  | k + 1, y =>
    let z := y * y / 2 ^ 256
    if z ≥ 2 ^ 257 then 2 ^ k + logDigits k (z / 2) else logDigits k z

/-- Two to the k-th power times m units. -/
def unitsShift (m : Nat) (k : Int) : Ex := dyadic false m (k - 384)

/-- 2^x of a finite x (R183). -/
def exp2Ex (s : Bool) (n d : Nat) : Ex :=
  let fl := n / d
  let r := n % d
  if r = 0 then (if fl > 1000 then (if s then .fin false 1 (2 ^ 1000) else .fin false (2 ^ 1000) 1)
    else dyadic false 1 (if s then -(fl : Int) else fl))
  else if fl > 1000 then (if s then .fin false 1 (2 ^ 1000) else .fin false (2 ^ 1000) 1)
  else
    let k : Int := if s then -(fl : Int) - 1 else fl
    let r := if s then d - r else r
    unitsShift (expFix (r * ln2Fix / d)) k

/-- e^-x of a positive x (R272). -/
def expNegEx (n d : Nat) : Ex :=
  if n = 0 then .fin false 1 1
  else
    let u := n * unit384 / d
    let k := u / ln2Fix
    if k > 1000 then .fin false 1 (2 ^ 1000)
    else unitsShift (expFix (ln2Fix - u % ln2Fix)) (-(k : Int) - 1)

/-- log2 of a positive x (R183). -/
def log2Ex (n d : Nat) : Ex :=
  let e := floorLog2 n d
  let x := scaled n d e
  if x.1 = x.2 then Ex.ofInt e
  else
    let f := logDigits 220 (x.1 * 2 ^ 256 / x.2)
    let t : Int := e * 2 ^ 220 + f
    (Ex.ofInt t).shift (-220)

/-- sin(2 pi t) for t = n / d turns in [0, 1): its sign and magnitude; with `cos` the cosine. -/
def turnsEx (cos : Bool) (n d : Nat) : Ex :=
  let n := if cos then (4 * n + d) % (4 * d) else 4 * n % (4 * d)
  let quad := n / d
  let r := n % d
  let neg := quad ≥ 2
  if r = 0 then (if quad % 2 = 0 then .fin false 0 1 else .fin neg 1 1)
  else
    let m := if quad % 2 = 0 then r else d - r
    let v := if 2 * m ≤ d then sinFix (m * piFix / (2 * d)) else cosFix ((d - m) * piFix / (2 * d))
    .fin neg v unit384

/-- 1 / x (R183). -/
def rcpEx : Ex → Ex
  | .nan => .nan
  | .inf s => .fin s 0 1
  | .fin s n d => if n = 0 then .inf s else .fin s d n

/-- 1 / sqrt x (R183). -/
def rsqEx : Ex → Ex
  | .nan => .nan
  | .inf s => if s then .nan else .fin false 0 1
  | .fin s n d => if n = 0 then .inf s else if s then .nan else sqrtEx d n

/-- sqrt x (R183). -/
def sqrtV : Ex → Ex
  | .nan => .nan
  | .inf s => if s then .nan else .inf false
  | .fin s n d => if n = 0 then .fin s 0 1 else if s then .nan else sqrtEx n d

/-- 2^x (R183). -/
def ex2V : Ex → Ex
  | .nan => .nan
  | .inf s => if s then .fin false 0 1 else .inf false
  | .fin s n d => exp2Ex s n d

/-- log2 x (R183). -/
def lg2V : Ex → Ex
  | .nan => .nan
  | .inf s => if s then .nan else .inf false
  | .fin s n d => if n = 0 then .inf true else if s then .nan else log2Ex n d

/-- sin(2 pi x) (R183): an exact zero carries the sign of x. -/
def sinV : Ex → Ex
  | .nan => .nan
  | .inf _ => .nan
  | .fin s n d =>
    match turnsEx false (n % d) d with
    | .fin t m e => if m = 0 then .fin s 0 1 else .fin (s != t) m e
    | x => x

/-- cos(2 pi x) (R183): an exact zero is +0. -/
def cosV : Ex → Ex
  | .nan => .nan
  | .inf _ => .nan
  | .fin _ n d => turnsEx true (n % d) d

end Sys2Proof.Machine
end

