-- ==== Sys2Proof/Machine/RenderMath.lean ====
section
/-!
DEFINITION. The arithmetic of the render words on the bytes of a record: evaluation and blending of a splat (R272,
R273), the backward term (R274), pixel conversion (R285) and camera rays (R281). Every right-hand side is formed
exactly on its `f32` inputs, with IEEE 754 signs and specials, and rounded once (R274).
-/

namespace Sys2Proof.Machine

/-- The 32-bit field at a byte offset of a record. -/
def f32At (bs : List Byte) (o : Nat) : W32 := word32 (bs.drop o)

/-- The largest opacity, the `f32` nearest 0.99 (R272). -/
def alphaMax : W32 := 0x3F7D70A4
/-- The least opacity that contributes, 1/255 (R273). -/
def alphaMin : W32 := 0x3B808081

/-- The half. -/
def exHalf : Ex := .fin false 1 2
def exOne : Ex := .fin false 1 1

/-- What `geval` forms of a splat at a pixel (R272): dx, dy, g and alpha. -/
structure SplatEval where
  dx : W32
  dy : W32
  g : W32
  alpha : W32
  deriving DecidableEq, Repr

/-- e to the -q / 2, rounded once (R272). -/
def expHalf (q : W32) : W32 :=
  match f32v q with
  | .fin _ n d => rne32 (expNegEx n (2 * d))
  | .inf _ => 0
  | .nan => BitVec.ofNat 32 Fmt.f32.nan

/-- The splat of a record at pixel {y, x} (R272). -/
def splatEval (bs : List Byte) (pix : W32) : SplatEval :=
  let f (o : Nat) : Ex := f32v (f32At bs o)
  let dx := rne32 (((Ex.ofNat (pix.toNat % 65536)).add false exHalf).sub false (f 0x00))
  let dy := rne32 (((Ex.ofNat (pix.toNat / 65536)).add false exHalf).sub false (f 0x04))
  let x := f32v dx
  let y := f32v dy
  let q := rne32 ((((((f 0x08).mul x).mul x)).add false (((((Ex.ofNat 2).mul (f 0x0C)).mul x).mul y))).add false
    (((f 0x10).mul y).mul y))
  let g := expHalf q
  let p := fmul32 (f32At bs 0x14) g
  let alpha : W32 :=
    if !(Ex.le (.fin false 0 1) (f32v q)) then 0
    else if isNan32 p then 0
    else fmin32 p alphaMax
  { dx := dx, dy := dy, g := g, alpha := alpha }

/-- The blend state after a splat (R273), and whether it still runs. -/
def splatBlend (bs : List Byte) (alpha : W32) (st : Vector W32 8) : Vector W32 8 × Bool :=
  let st :=
    if st[7] != 0 then st
    else if (f32v st[5]).le (f32v (f32At bs 0x24)) then st.set 7 2
    else if (f32v alphaMin).le (f32v alpha) then
      let w := fmul32 st[3] alpha
      let t := fmul32 st[3] (rne32 (exOne.sub false (f32v alpha)))
      let st := (((st.set 0 (ffma32 w (f32At bs 0x18) st[0])).set 1 (ffma32 w (f32At bs 0x1C) st[1])).set 2
        (ffma32 w (f32At bs 0x20) st[2])).set 3 t
      let st := st.set 4 (st[4] + 1)
      if (f32v t).lt (f32v st[6]) then st.set 7 1 else st
    else st
  (st, st[7] == 0)

/-- The terms of `gback` and the replay state after it (R274). -/
def splatBack (bs : List Byte) (pix : W32) (rs : Vector W32 16) : Vector W32 16 × Vector W32 16 :=
  let e := splatEval bs pix
  let zero : Vector W32 16 := Vector.replicate 16 0
  if rs[7] == 0 || (f32v e.alpha).lt (f32v alphaMin) then (zero, rs.set 15 0)
  else
    let al := f32v e.alpha
    let dx := f32v e.dx
    let dy := f32v e.dy
    let col (i : Nat) : Ex := f32v (f32At bs (0x18 + 4 * i))
    let tr := f32v rs[6]
    let w := fmul32 rs[6] e.alpha
    let pc0 := ffma32 w (f32At bs 0x18) rs[8]
    let pc1 := ffma32 w (f32At bs 0x1C) rs[9]
    let pc2 := ffma32 w (f32At bs 0x20) rs[10]
    let term (dl : W32) (i : Nat) (fc cb pc : W32) : Ex :=
      (f32v dl).mul ((tr.mul (col i)).sub false
        ((((f32v fc).add false ((f32v rs[11]).mul (f32v cb))).sub false (f32v pc)).div (exOne.sub false al)))
    let da := rne32 (((term rs[0] 0 rs[3] rs[12] pc0).add false (term rs[1] 1 rs[4] rs[13] pc1)).add false
      (term rs[2] 2 rs[5] rs[14] pc2))
    let d := f32v da
    let qa := f32v (f32At bs 0x08)
    let qb := f32v (f32At bs 0x0C)
    let qc := f32v (f32At bs 0x10)
    let two := Ex.ofNat 2
    let d0 := rne32 ((d.mul al).mul ((qa.mul dx).add false (qb.mul dy)))
    let d1 := rne32 ((d.mul al).mul ((qb.mul dx).add false (qc.mul dy)))
    let d2 := rne32 ((((d.neg.mul al).mul dx).mul dx).div two)
    let d3 := rne32 (((d.neg.mul al).mul dx).mul dy)
    let d4 := rne32 ((((d.neg.mul al).mul dy).mul dy).div two)
    let d5 := rne32 (d.mul (f32v e.g))
    let abs (x : W32) : W32 := x &&& 0x7FFFFFFF
    let d9 := fadd32 (abs d0) (abs d1)
    let clamp := (f32v alphaMax).lt (f32v (fmul32 (f32At bs 0x14) e.g))
    let grad (dl : W32) : W32 := rne32 (((f32v dl).mul tr).mul al)
    let out := ((((zero.set 6 (grad rs[0])).set 7 (grad rs[1])).set 8 (grad rs[2])).set 10 0x3F800000)
    let out := if clamp then out
      else ((((((out.set 0 d0).set 1 d1).set 2 d2).set 3 d3).set 4 d4).set 5 d5).set 9 d9
    let t := fmul32 rs[6] (rne32 (exOne.sub false al))
    (out, (((((rs.set 6 t).set 7 (rs[7] - 1)).set 8 pc0).set 9 pc1).set 10 pc2).set 15 0)

/-- A channel of an RGBA8 pixel (R285). -/
def unorm8 (x : Ex) : Byte :=
  match x with
  | .nan => 0
  | x => BitVec.ofInt 8 (toIntClamp .rne 0 255 0 (x.mul (Ex.ofNat 255)))

/-- The bytes of a pixel (R285): the channels and the transmittance T. -/
def pixelBytes (fmt : PixelFmt) (r g b t : W32) : List Byte :=
  let a := exOne.sub false (f32v t)
  match fmt with
  | .rgba8 => [unorm8 (f32v r), unorm8 (f32v g), unorm8 (f32v b), unorm8 a]
  | .rgba16f =>
    let h (x : Ex) : List Byte := leBytes 2 (Fmt.f16.round .rne false x)
    h (f32v r) ++ h (f32v g) ++ h (f32v b) ++ h a
  | .rgba32f => bytes32 r ++ bytes32 g ++ bytes32 b ++ bytes32 (rne32 a)

/-- The bytes of a pixel of a format. -/
def pixelSize : PixelFmt → Nat
  | .rgba8 => 4
  | .rgba16f => 8
  | .rgba32f => 16

/-- The tile side of a PPB's TS field (R267). -/
def tileSide (ts : Nat) : Nat := 4 * 2 ^ ts

/-- The record bytes 0x00 to 0x23 and 0x24 to 0x3B that `rgen` writes for a pixel of a view entry, given the
state field's bits that are kept: a NaN of the entry becomes the canonical one (R274, R281). -/
def cameraRay (entry : List Byte) (x y view state : Nat) : List Byte :=
  let f (o : Nat) : Ex := f32v (f32At entry o)
  let d (p c fo : Nat) : W32 := rne32 ((((Ex.ofNat p).add false exHalf).sub false (f c)).div (f fo))
  let dcx := f32v (d x 0x38 0x30)
  let dcy := f32v (d y 0x3C 0x34)
  let dir (r : Nat) : W32 :=
    rne32 ((((f (0x48 + 16 * r)).mul dcx).add false ((f (0x4C + 16 * r)).mul dcy)).add false (f (0x50 + 16 * r)))
  let own (o : Nat) : List Byte := bytes32 (rne32 (f o))
  own 0x54 ++ own 0x64 ++ own 0x74 ++ own 0x40
    ++ bytes32 (dir 0) ++ bytes32 (dir 1) ++ bytes32 (dir 2) ++ own 0x44
    ++ leBytes 4 (y % 65536 * 65536 + x % 65536)
    ++ leBytes 4 (state * 2 ^ 24 + view % 256)
    ++ bytes32 0x7F800000 ++ bytes32 0xFFFFFFFF ++ bytes32 0xFFFFFFFF ++ bytes32 0 ++ bytes32 0

/-- The record that `rpush` writes (R277): ready, with the reset values. -/
def freshRay : List Byte :=
  List.replicate 28 0 ++ bytes32 0x7F800000 ++ List.replicate 4 0 ++ leBytes 4 (1 * 2 ^ 24)
    ++ bytes32 0x7F800000 ++ bytes32 0xFFFFFFFF ++ bytes32 0xFFFFFFFF ++ List.replicate 12 0

end Sys2Proof.Machine
end

