-- ==== Sys2Proof/Machine/Effects.lean ====
section
/-!
DEFINITION. What one lane of a word does outside the lane registers (MemOp): loads, stores, atomics and reductions
(R206 to R213), splat and ray records (R272 to R285), held effects (R229) and requests to other packages (R425).
-/

namespace Sys2Proof.Machine

/-- A result of a lane: where it goes and its value; a predicate takes bit 0. -/
abbrev Res := LaneDst × W32

/-- The i-th register after r. -/
def vplus (r : VReg) (i : Nat) : VReg := ⟨(r.val + i) % 192, Nat.mod_lt _ (by decide)⟩

/-- The second register of a pair (R24). -/
def LaneDst.above : LaneDst → List LaneDst
  | .v r => [.v (vplus r 1)]
  | .p _ | .q _ => []

/-- The results of a loaded or old value (R206). -/
def backRes (d : Option Back) (v : W64) : List Res :=
  match d with
  | none => []
  | some b =>
    let lo : W32 := v.setWidth 32
    match b.fmt with
    | .z8 => [(b.reg, (lo.setWidth 8).setWidth 32)]
    | .s8 => [(b.reg, (lo.setWidth 8).signExtend 32)]
    | .z16 => [(b.reg, (lo.setWidth 16).setWidth 32)]
    | .s16 => [(b.reg, (lo.setWidth 16).signExtend 32)]
    | .w32 => [(b.reg, lo)]
    | .w64 => (b.reg, lo) :: b.reg.above.map fun d => (d, (v >>> 32).setWidth 32)

/-! ## Ranges of more than one line -/

/-- A load of a range, line by line: plain, or strong. -/
def State.readParts (s : State) (w : Who) (strong : Bool) : List (Nat × Nat) → Except AccErr (List Byte × State)
  | [] => .ok ([], s)
  | (a, n) :: t =>
    match if strong then s.strongLoad w (BitVec.ofNat 64 a) n else s.plainLoad w (BitVec.ofNat 64 a) n with
    | .error e => .error e
    | .ok (bs, s) => match State.readParts s w strong t with
      | .error e => .error e
      | .ok (cs, s) => .ok (bs ++ cs, s)

/-- A strong store of a range, line by line. -/
def State.writeParts (s : State) (w : Who) (bs : List Byte) : List (Nat × Nat) → Except AccErr State
  | [] => .ok s
  | (a, n) :: t =>
    match s.strongStore w (BitVec.ofNat 64 a) (bs.take n) with
    | .error e => .error e
    | .ok s => State.writeParts s w (bs.drop n) t

/-- A load of n bytes at va. -/
def State.readSpan (s : State) (w : Who) (strong : Bool) (va : W64) (n : Nat) : Except AccErr (List Byte × State) :=
  s.readParts w strong (span va n)

/-- A strong store of bytes at va. -/
def State.writeSpan (s : State) (w : Who) (va : W64) (bs : List Byte) : Except AccErr State :=
  s.writeParts w bs (span va bs.length)

/-! ## Ray pools (R276 to R284) -/

/-- A ray pool descriptor (R276). -/
structure Pool where
  rbase : W64
  pbase : W64
  sbase : W64
  root : W64
  next : Nat
  cap : Nat
  ftag : W32
  fhead : W32
  ppb : W64
  ok : Bool
  deriving DecidableEq, Repr

/-- A descriptor of 64 bytes read as a pool (R276). -/
def poolOf (bs : List Byte) : Pool :=
  { rbase := word64 bs, pbase := word64 (bs.drop 8), sbase := word64 (bs.drop 16), root := word64 (bs.drop 24),
    next := fieldAt bs 0x24 4, cap := fieldAt bs 0x20 4, ftag := word32 (bs.drop 0x2C), fhead := word32 (bs.drop 0x28),
    ppb := word64 (bs.drop 0x30),
    ok := decide (1 ≤ fieldAt bs 0x20 4) && decide (fieldAt bs 0x20 4 ≤ 2 ^ 24) && fieldAt bs 0x38 8 == 0 }

/-- A failure that names its own address (R374). -/
def atVa {α : Type} (va : Nat) : Except AccErr α → Except AccErr α
  | .error (.page c) => .error (.at_ (BitVec.ofNat 64 va) (.page c))
  | .error (.race st) => .error (.at_ (BitVec.ofNat 64 va) (.race st))
  | .error .ecc => .error (.at_ (BitVec.ofNat 64 va) .ecc)
  | r => r

/-- A load within one line of an operation on a ray: of another package, what its reader has learned (R425). -/
def State.rayLoad (s : State) (w : Who) (strong : Bool) (a n : Nat) : Except AccErr (List Byte × State) :=
  let va := BitVec.ofNat 64 a
  match atVa a (if strong then s.strongLoad w va n else s.plainLoad w va n) with
  | .error (.remote x) => match w.reader.bind fun r => s.peerLine r x with
    | some bs => .ok ((bs.drop (x.pa % 128)).take n, s)
    | none => .error (.remote x)
  | r => r

/-- A load of a range, line by line. -/
def State.rayParts (s : State) (w : Who) (strong : Bool) : List (Nat × Nat) → Except AccErr (List Byte × State)
  | [] => .ok ([], s)
  | (a, n) :: t => match s.rayLoad w strong a n with
    | .error e => .error e
    | .ok (bs, s) => match State.rayParts s w strong t with
      | .error e => .error e
      | .ok (cs, s) => .ok (bs ++ cs, s)

/-- A load of n bytes at va by an operation on a ray. -/
def State.rayRead (s : State) (w : Who) (strong : Bool) (va : W64) (n : Nat) : Except AccErr (List Byte × State) :=
  s.rayParts w strong (span va n)

/-- A store within one line of an operation on a ray: a `WR` to another package (R425). -/
def State.rayStore (s : State) (w : Who) (plain : Bool) (a : Nat) (bs : List Byte) : Except AccErr State :=
  let va := BitVec.ofNat 64 a
  match atVa a (if plain then s.plainStore w va bs else s.strongStore w va bs) with
  | .error (.remote x) => match w.reader with
    | none => .error (.remote x)
    | some r =>
      let p := { s.packet x.home .wr (wrPayload [(x.pa % 128, bs)]) with keyid := x.key, pa := x.pa / 128 * 128 }
      .ok (s.request p (.peer r) (lineOf x.pa) []).2
  | r => r

/-- A store of a range, line by line. -/
def State.rayPuts (s : State) (w : Who) (plain : Bool) (bs : List Byte) : List (Nat × Nat) → Except AccErr State
  | [] => .ok s
  | (a, n) :: t => match s.rayStore w plain a (bs.take n) with
    | .error e => .error e
    | .ok s => State.rayPuts s w plain (bs.drop n) t

/-- A store of bytes at va by an operation on a ray. -/
def State.rayWrite (s : State) (w : Who) (plain : Bool) (va : W64) (bs : List Byte) : Except AccErr State :=
  s.rayPuts w plain bs (span va bs.length)

/-- The address lies in another package. -/
def State.rayFar (s : State) (w : Who) (va : W64) : Except AccErr (Option Xl) :=
  match s.xlate w va true with
  | .error c => .error (.at_ va (.page c))
  | .ok x => .ok (if x.home != s.ident.pkg then some x else none)

/-- An atomic on words of n bytes of a line of another package, at its home slice: the old values, once they have come
(R326). -/
def State.rayAsk (s : State) (w : Who) (x : Xl) (n : Nat) (k : Ask) : Except AccErr (List Byte) :=
  match w.reader with
  | none => .error (.remote x)
  | some r =>
    match s.peerOld r x k with
    | none => .error (.remoteAtomic x k n)
    | some old => .ok old

/-- An atomic on one word. -/
def State.rayAtomic (s : State) (w : Who) (x : Xl) (n : Nat) (op : AtomOp) (v cmp : W64) : Except AccErr W64 :=
  match s.rayAsk w x n (op.code, [(x.pa % 128, v, cmp)]) with
  | .error e => .error e
  | .ok old => .ok (word64 old)

/-- A word of another package changed from `old` to `new`: `stale` when it held another value. -/
def State.raySwap (s : State) (w : Who) (x : Xl) (n : Nat) (old new : W64) : Except AccErr State :=
  match s.rayAtomic w x n .cas new old with
  | .error e => .error e
  | .ok v => if v = old then .ok s else .error (.stale x)

/-- The entries that change 64 bytes at an offset of a line from `old` to `new`, with the word that holds a record's state,
whatever it is (R278; log 14). -/
def halfEntries (off : Nat) (old new : List Byte) : List (Nat × W64 × W64) :=
  let full := new ++ old.drop new.length
  (List.range 8).filterMap fun i =>
    let a := word64 (old.drop (8 * i))
    let b := word64 (full.drop (8 * i))
    if a = b ∧ i ≠ 4 then none else some (off + 8 * i, b, a)

/-- Every word held the value that it was to be exchanged for (log 14). -/
def Ask.held (k : Ask) (olds : List Byte) : Bool :=
  (k.2.zipIdx 0).all fun e => word64 (olds.drop (8 * e.2)) == e.1.2.2

/-- A word of a pool's descriptor changed in one step at its home slice (R279; log 14). -/
def State.poolSwap (s : State) (w : Who) (va : W64) (old new : List Byte) : Except AccErr State :=
  match s.rayFar w va with
  | .error e => .error e
  | .ok none => s.rayWrite w false va new
  | .ok (some x) => s.raySwap w x old.length (valOf old) (valOf new)

/-- A ray record changed in one atomic step at the home slice of its line (R278; log 14). -/
def State.rayTurn (s : State) (w : Who) (va : W64) (old new : List Byte) : Except AccErr State :=
  match s.rayFar w va with
  | .error e => .error e
  | .ok none => s.rayWrite w false va new
  | .ok (some x) =>
    let k : Ask := (swapAop, halfEntries (x.pa % 128) old new)
    match s.rayAsk w x 8 k with
    | .error e => .error e
    | .ok olds => if k.held olds then .ok s else .error (.stale x)

/-- A record with STATE replaced (R277). -/
def setRayState (bs : List Byte) (st : Nat) : List Byte := bs.set 0x27 (BitVec.ofNat 8 st)

/-- A record with LEVEL and STATE replaced (R277, R282). -/
def setRayLevel (bs : List Byte) (st level : Nat) : List Byte :=
  (bs.set 0x25 (BitVec.ofNat 8 (level % 32))).set 0x27 (BitVec.ofNat 8 st)

/-- A ray record is made free, with the free list's first ray in its software word (R279). -/
def State.rayLink (s : State) (w : Who) (va : W64) (bs : List Byte) (next : W32) : Except AccErr State :=
  match s.rayFar w va with
  | .error e => .error e
  | .ok none => s.rayWrite w false va ((setRayState bs 0).take 0x3C ++ bytes32 next)
  | .ok (some x) =>
    match s.raySwap w { x with pa := x.pa + 0x24 } 4 (valOf ((bs.drop 0x24).take 4))
        (valOf (((setRayState bs 0).drop 0x24).take 4)) with
    | .error e => .error e
    | .ok s => match s.rayAtomic w { x with pa := x.pa + 0x3C } 4 .exch (next.setWidth 64) 0 with
      | .error e => .error e
      | .ok _ => .ok s

/-- The descriptor of a pool, or RANGE for a malformed one (R276); one that is not aligned is taken as its bytes lie (log 69). -/
def State.pool (s : State) (w : Who) (a : W64) : Except AccErr (Pool × State) :=
  match s.rayRead w true a 64 with
  | .error e => .error e
  | .ok (bs, s) => if (poolOf bs).ok then .ok (poolOf bs, s) else .error (.code .range)

/-- The address of ray i's record, of its payload slot and of its spill slot (R276). -/
def Pool.recAt (p : Pool) (i : W32) : W64 := p.rbase + BitVec.ofNat 64 (64 * i.toNat)
def Pool.payload (p : Pool) (i : W32) : W64 := p.pbase + BitVec.ofNat 64 (32 * i.toNat)
def Pool.spill (p : Pool) (i : W32) : W64 := p.sbase + BitVec.ofNat 64 (1792 * i.toNat)

/-- The pool and the record of a ray, or RANGE for an index of CAP or NEXT or more (R276). -/
def State.ray (s : State) (w : Who) (pool : W64) (i : W32) : Except AccErr (Pool × List Byte × State) :=
  match s.pool w pool with
  | .error e => .error e
  | .ok (p, s) =>
    if p.cap ≤ i.toNat ∨ p.next ≤ i.toNat then .error (.code .range)
    else match s.rayRead w true (p.recAt i) 64 with
      | .error e => .error e
      | .ok (bs, s) => .ok (p, bs, s)

/-- STATE of a ray record (R277). -/
def rayState (bs : List Byte) : Nat := fld (fieldAt bs 0x24 4) 24 2

/-- Ready or done: the states that a word of the gang may act on (R278). -/
def settledRay (bs : List Byte) : Bool := rayState bs == 1 || rayState bs == 3

/-- The next ray of a pool is taken and its record written (R279): its index, or none when the pool is exhausted. -/
def State.takeRay (s : State) (w : Who) (pool : W64) : Except AccErr (Option W32 × State) :=
  match s.pool w pool with
  | .error e => .error e
  | .ok (p, s) =>
    if p.fhead != BitVec.allOnes 32 then
      match s.rayRead w true (p.recAt p.fhead + 0x3C) 4 with
      | .error e => .error e
      | .ok (bs, s) =>
        match s.poolSwap w (pool + 0x28) (bytes32 p.fhead ++ bytes32 p.ftag) (bytes32 (word32 bs) ++ bytes32 (p.ftag + 1)) with
        | .error e => .error e
        | .ok s => match s.rayWrite w false (p.recAt p.fhead) freshRay with
          | .error e => .error e
          | .ok s => .ok (some p.fhead, s)
    else if p.next < p.cap then
      let i : W32 := BitVec.ofNat 32 p.next
      match s.poolSwap w (pool + 0x24) (bytes32 i) (bytes32 (i + 1)) with
      | .error e => .error e
      | .ok s => match s.rayWrite w false (p.recAt i) freshRay with
        | .error e => .error e
        | .ok s => .ok (some i, s)
    else .ok (none, s)

/-- A ray is put on the pool's free list (R279). -/
def State.freeRay (s : State) (w : Who) (pool : W64) (i : W32) : Except AccErr State :=
  match s.ray w pool i with
  | .error e => .error e
  | .ok (p, bs, s) =>
    if !settledRay bs then .error (.code .rayState)
    else match s.rayLink w (p.recAt i) bs p.fhead with
      | .error e => .error e
      | .ok s => s.poolSwap w (pool + 0x28) (bytes32 p.fhead ++ bytes32 p.ftag) (bytes32 i ++ bytes32 (p.ftag + 1))

/-- The camera ray of a pixel for a ray: the address of its record, its bytes, and those that it is to have (R281). -/
def State.camera (s : State) (w : Who) (pool : W64) (i pix : W32) : Except AccErr (W64 × List Byte × List Byte × State) :=
  match s.ray w pool i with
  | .error e => .error e
  | .ok (p, bs, s) =>
    match s.rayRead w false p.ppb 64 with
    | .error e => .error e
    | .ok (hd, s) =>
      let v := fld pix.toNat 24 8
      let ts := fld (fieldAt hd 0 4) 8 2
      let side := tileSide ts
      if fld (fieldAt hd 0 4) 0 8 ≤ v ∨ ts = 3 then .error (.code .range)
      else match s.rayRead w false (p.ppb + BitVec.ofNat 64 (64 + 128 * v)) 128 with
        | .error e => .error e
        | .ok (en, s) =>
          let x := fld pix.toNat 0 12
          let y := fld pix.toNat 12 12
          if fieldAt en 0x78 2 * side ≤ x ∨ fieldAt en 0x7A 2 * side ≤ y then .error (.code .range)
          else if !settledRay bs then .error (.code .rayState)
          else .ok (p.recAt i, bs, cameraRay en x y v 1, s)

/-- The camera ray of a pixel is written into a ray (R281). -/
def State.genRay (s : State) (w : Who) (pool : W64) (i pix : W32) : Except AccErr State :=
  match s.camera w pool i pix with
  | .error e => .error e
  | .ok (va, old, new, s) => s.rayTurn w va old new

/-! ## One lane's effect -/

/-- A contribution to a tun-eligible page goes to the tun (R213, R294); on other pages it is an atomic. -/
def State.tunAdd (s : State) (w : Who) (fx : Bool) (va v : W64) : Except AccErr State :=
  match s.access w va (if fx then 8 else 4) true true with
  | .error e => .error e
  | .ok (x, s') =>
    if x.cache == 2 then
      if s'.poisoned x.pa (if fx then 8 else 4) then .error .ecc
      else .ok { s' with tun := s'.tun ++ [{ core := w.core, addr := x.pa, fx := fx, val := v }] }
    else match s.atomic w va (if fx then 8 else 4) fun bs =>
        accBytes fx (if fx then valOf bs + v else redValue .fadd false (valOf bs) v) with
      | .error e => .error e
      | .ok (_, s'') => .ok s''

/-- An FX64 addition that gives back the old word: on a tun-eligible page it is merged in the tun when it arrives at the
home slice (R211, R213). -/
def State.fxAtomic (s : State) (w : Who) (va v : W64) : Except AccErr (List Byte × State) :=
  match s.access w va 8 true true with
  | .error e => .error e
  | .ok (x, s') =>
    if x.cache == 2 then
      if s'.poisoned x.pa 8 then .error .ecc
      else .ok (s'.readPa x.pa 8, s'.mergeTun { core := w.core, addr := x.pa, fx := true, val := v })
    else s.atomic w va 8 fun bs => bytes64 (valOf bs + v)

/-- Bytes written into the scratchpad pools; poison of the granules covered whole is lifted (R209, R296). -/
def State.poolStore (s : State) (pa : Nat) (bs : List Byte) : State :=
  let keep := s.spoison.filter fun g => !(decide (pa ≤ g * 8) && decide (g * 8 + 8 ≤ pa + bs.length))
  { s with scratch := s.scratch.store pa bs, spoison := keep }

/-- The results of a group of registers from g on. -/
def groupRes (g : VReg) (vals : List W32) : List Res :=
  (List.range vals.length).map fun i => (.v (vplus g i), vals.getD i 0)

/-- What a word that reads a record or a memory word makes of its bytes (R206, R272 to R274). -/
def readResults (op : MemOp) (bs : List Byte) : List Res :=
  match op with
  | .load _ _ _ d => backRes d (valOf bs)
  | .ldv _ _ d => backRes d (valOf bs)
  | .geval _ pix d => [(.v d, (splatEval bs pix).alpha)]
  | .gblend _ alpha st d vp =>
    let r := splatBlend bs alpha st
    groupRes d r.1.toList ++ [(.p vp, if r.2 then 1 else 0)]
  | .gback _ pix st d c vp mix =>
    let r := splatBack bs pix st
    let ended : W32 := if r.2[7] != 0 then 1 else 0
    match mix with
    | none =>
      groupRes d r.1.toList ++ groupRes (vplus c 6) [r.2[6], r.2[7], r.2[8], r.2[9], r.2[10]]
        ++ [(.v (vplus c 15), 0), (.p vp, ended)]
    | some z =>
      groupRes d (r.1.toList.take 6) ++ groupRes (vplus d 6) (z.toList.take 5)
        ++ groupRes (vplus d 11) ((r.1.toList.drop 11).take 4) ++ [(.v (vplus d 15), z[5]), (.p vp, ended)]
  | .pload _ _ d => backRes d (valOf bs)
  | .store _ _ _ | .pstore _ _ | .atom _ _ _ _ _ _ | .red _ _ _ _ | .fx _ _ _ _ | .rpush _ _ | .rpop _ _
  | .rgen _ _ _ | .trace _ _ _ _ | .rayld _ _ _ _ _ | .rayst _ _ _ _ | .hitq _ _ _ | .rtake _ _ _ | .rlink _ _ _ _
  | .rcarry _ _ _ => []

/-- Some part of a range that is read lies in another package. -/
def State.farPart? (s : State) (w : Who) : List (Nat × Nat) → Option Xl
  | [] => none
  | (a, _) :: t => match s.xlate w (BitVec.ofNat 64 a) false with
    | .ok x => if x.home != s.ident.pkg then some x else State.farPart? s w t
    | .error _ => State.farPart? s w t

/-- A read with its results. -/
def State.readOp (s : State) (w : Who) (op : MemOp) (strong : Bool) (va : W64) (n : Nat) :
    Except AccErr (State × List Res) :=
  match s.readSpan w strong va n with
  | .error e => .error e
  | .ok (bs, s) => .ok (s, readResults op bs)

/-- One lane's effect is performed, with its results (R206 to R213, R272 to R284). -/
def State.perform (s : State) (w : Who) (op : MemOp) : Except AccErr (State × List Res) :=
  match op with
  | .load va n strong _ => s.readOp w op strong va n
  | .store va strong bs =>
    match if strong then s.strongStore w va bs else s.plainStore w va bs with
    | .error e => .error e
    | .ok s => .ok (s, [])
  | .pload pa n _ => if s.spoisoned pa n then .error .ecc else .ok (s, readResults op (s.scratch.bytes pa n))
  | .pstore pa bs => .ok (s.poolStore pa bs, [])
  | .atom o w64 va c cmp d =>
    match s.atomic w va (if w64 then 8 else 4) fun bs => accBytes w64 (atomValue o w64 (valOf bs) c cmp) with
    | .error e => .error e
    | .ok (bs, s) => .ok (s, backRes d (valOf bs))
  | .red .fadd _ va v =>
    match s.tunAdd w false va v with
    | .error e => .error e
    | .ok s => .ok (s, [])
  | .red o w64 va v =>
    match s.atomic w va (if w64 then 8 else 4) fun bs => accBytes w64 (redValue o w64 (valOf bs) v) with
    | .error e => .error e
    | .ok (_, s) => .ok (s, [])
  | .fx va v _ none =>
    match s.tunAdd w true va v with
    | .error e => .error e
    | .ok s => .ok (s, [])
  | .fx va v _ (some d) =>
    match s.fxAtomic w va v with
    | .error e => .error e
    | .ok (bs, s) => .ok (s, backRes (some d) (valOf bs))
  | .ldv va c _ =>
    match s.strongLoad w va 8 with
    | .error e => .error e
    | .ok (bs, s) => if valOf bs < c then .error .wait else .ok (s, readResults op bs)
  | .geval va _ _ => s.readOp w op false va splatBytes
  | .gblend va _ _ _ _ => s.readOp w op false va splatBytes
  | .gback va _ _ _ _ _ _ => s.readOp w op false va splatBytes
  | .rpush pool d =>
    match s.takeRay w pool with
    | .error e => .error e
    | .ok (i, s) => .ok (s, match d with
        | some r => [(r, i.getD (BitVec.allOnes 32))]
        | none => [])
  | .rpop pool i =>
    match s.freeRay w pool i with
    | .error e => .error e
    | .ok s => .ok (s, [])
  | .rgen pool i pix =>
    match s.genRay w pool i pix with
    | .error e => .error e
    | .ok s => .ok (s, [])
  | .trace pool i level pb =>
    match s.ray w pool i with
    | .error e => .error e
    | .ok (p, bs, s) =>
      if !settledRay bs then .error (.code .rayState)
      else match s.farPart? w (span (p.payload i) pb) with
        | some x => .error (.remote x)
        | none => match s.rayTurn w (p.recAt i) bs (setRayLevel bs 2 level.toNat) with
          | .error e => .error e
          | .ok s => .ok (s, [])
  | .rayld pool i word n d =>
    match s.ray w pool i with
    | .error e => .error e
    | .ok (p, bs, s) =>
      if !settledRay bs then .error (.code .rayState)
      else
        let va := if word < 16 then p.recAt i + BitVec.ofNat 64 (4 * word)
          else p.payload i + BitVec.ofNat 64 (4 * (word - 16))
        match s.rayRead w false va n with
        | .error e => .error e
        | .ok (bs, s) => .ok (s, backRes d (valOf bs))
  | .rayst pool i word bs =>
    match s.ray w pool i with
    | .error e => .error e
    | .ok (p, old, s) =>
      if !settledRay old then .error (.code .rayState)
      else
        let va := if word < 16 then p.recAt i + BitVec.ofNat 64 (4 * word)
          else p.payload i + BitVec.ofNat 64 (4 * (word - 16))
        match s.rayWrite w true va bs with
        | .error e => .error e
        | .ok s => .ok (s, [])
  | .hitq pool i d =>
    match s.ray w pool i with
    | .error e => .error e
    | .ok (_, bs, s) =>
      match rayState bs with
      | 3 => .ok (s, groupRes d [f32At bs 0x28, f32At bs 0x2C, f32At bs 0x30, f32At bs 0x24])
      | 2 => .error .wait
      | _ => .error (.code .rayState)
  | .rtake _ _ _ | .rlink _ _ _ _ | .rcarry _ _ _ => .ok (s, [])

/-- The effect puts a ray in flight (R282). -/
def MemOp.isTrace : MemOp → Bool
  | .trace _ _ _ _ => true
  | _ => false

/-- The effect is one on a ray of a pool. -/
def MemOp.onRay : MemOp → Bool
  | .rpush _ _ | .rpop _ _ | .rgen _ _ _ | .trace _ _ _ _ | .rayld _ _ _ _ _ | .rayst _ _ _ _ | .hitq _ _ _
  | .rtake _ _ _ | .rlink _ _ _ _ | .rcarry _ _ _ => true
  | .load _ _ _ _ | .store _ _ _ | .pload _ _ _ | .pstore _ _ | .atom _ _ _ _ _ _ | .red _ _ _ _ | .fx _ _ _ _
  | .ldv _ _ _ | .geval _ _ _ | .gblend _ _ _ _ _ | .gback _ _ _ _ _ _ _ => false

/-- The effect changes nothing that a program could read: a read (R229, R286). -/
def MemOp.reads : MemOp → Bool
  | .load _ _ _ _ | .pload _ _ _ | .geval _ _ _ | .gblend _ _ _ _ _ | .gback _ _ _ _ _ _ _ | .rayld _ _ _ _ _
  | .hitq _ _ _ => true
  | .store _ _ _ | .pstore _ _ | .atom _ _ _ _ _ _ | .red _ _ _ _ | .fx _ _ _ _ | .ldv _ _ _ | .rpush _ _ | .rpop _ _
  | .rgen _ _ _ | .trace _ _ _ _ | .rayst _ _ _ _ | .rtake _ _ _ | .rlink _ _ _ _ | .rcarry _ _ _ => false

/-- What the effects of a word come to: its results, the effects that failed and those that go to another package. -/
structure Done where
  st : State
  res : List (Fin 32 × Res)
  errs : List (Fin 32 × MemOp × AccErr)
  far : List (Fin 32 × MemOp)

/-- A strong read whose value is the one in `view` of the state: the state with the gang's held effects performed (R229). -/
def State.strongView (s : State) (w : Who) (view : State → State) (va : W64) (n : Nat) :
    Except AccErr (List Byte × State) :=
  let w := w.bare
  match s.strongLoad w va n with
  | .error e => .error e
  | .ok (bs, t) => match (view s).strongLoad w va n with
    | .error _ => .ok (bs, t)
    | .ok (cs, _) => .ok (cs, t)

/-- One lane's effect, whose reads take their values from `view` of the state (R229). -/
def State.performIn (s : State) (w : Who) (view : State → State) (op : MemOp) : Except AccErr (State × List Res) :=
  let w := w.bare
  match op with
  | .ldv va c _ => match s.strongView w view va 8 with
    | .error e => .error e
    | .ok (bs, s) => if valOf bs < c then .error .wait else .ok (s, readResults op bs)
  | .hitq _ _ _ => match (view s).perform w op with
    | .error e => .error e
    | .ok (_, r) => .ok (match s.perform w op with
        | .ok (t, _) => t
        | .error _ => s, r)
  | _ => match s.perform w op with
    | .error e => .error e
    | .ok (t, r) => .ok (t, if op.reads then match (view s).perform w op with
        | .ok (_, r') => r'
        | .error _ => r
      else r)

/-- The effects of a word's lanes in order. An effect that fails is skipped and reported. -/
def State.performAll (s : State) (w : Who) (view : State → State) : List (Fin 32 × MemOp) → Done
  | [] => { st := s, res := [], errs := [], far := [] }
  | (l, op) :: t => match s.performIn w view op with
    | .ok (s', r) =>
      let x := State.performAll s' w view t
      { x with res := r.map (fun y => (l, y)) ++ x.res }
    | .error (.remote _) =>
      let x := State.performAll s w view t
      { x with far := (l, op) :: x.far }
    | .error e =>
      let x := State.performAll s w view t
      { x with errs := (l, op, e) :: x.errs }

/-- The effects of a word's lanes: those on a ray pool are all made in rounds where one of them reaches another package
(R279; log 14). -/
def State.performWhole (s : State) (w : Who) (view : State → State) (ops : List (Fin 32 × MemOp)) : Done :=
  let d := s.performAll w view ops
  if d.far.any (fun e => e.2.onRay) then { st := s, res := [], errs := [], far := ops } else d

/-- The place of a fault found after issue in the orders of R205 and R264. -/
def AccErr.rank (e : AccErr) : Nat :=
  match e.bare with
  | .code .range => 0
  | .code _ => 1
  | .page .ecc => 4
  | .page _ => 2
  | .race _ => 3
  | _ => 4

/-- The late fault of a word's failed lanes: the first in the order of R205 and R264, of the lowest lane that met it. The
record names the lanes that failed, and the address of the lowest of them (R374; log 45). None when no lane failed. -/
def lateTrap (es : List (Fin 32 × MemOp × AccErr)) : Option Trap :=
  let l := sortBy (fun e => e.1.val) es
  match l, sortBy (fun e => e.2.2.rank) l with
  | (_, op, e) :: _, (_, op', e') :: _ =>
    some { accTrap op'.va e' with va := (accTrap op.va e).va, nmask := maskOf fun n => es.any fun x => x.1 == n }
  | _, _ => none

/-- Two results of one destination, in different lanes. -/
def LaneWrite.join (x y : LaneWrite) : LaneWrite :=
  { x with mask := x.mask ||| y.mask, vals := laneMerge y.mask y.vals x.vals }

/-- Further results of a word joined to those it has. -/
def joinWrites (xs ys : List LaneWrite) : List LaneWrite :=
  ys.foldl (fun l y =>
    if l.any fun x => x.dst == y.dst then l.map fun x => if x.dst = y.dst then x.join y else x else l ++ [y]) xs

/-- The results of a word gathered by destination. -/
def laneWrites (rs : List (Fin 32 × Res)) : List LaneWrite :=
  let dsts := rs.foldl (fun acc r => if acc.contains r.2.1 then acc else acc ++ [r.2.1]) []
  dsts.map fun d =>
    { dst := d, mask := maskOf fun n => rs.any fun r => r.1 == n && r.2.1 == d,
      vals := laneMap fun n => match rs.find? fun r => r.1 == n && r.2.1 == d with
        | some r => r.2.2
        | none => 0 }

/-- The queue that an effect's result goes to. -/
def MemOp.pushes : MemOp → Option QReg
  | .load _ _ _ (some { reg := .q n, fmt := _ }) | .pload _ _ (some { reg := .q n, fmt := _ })
  | .atom _ _ _ _ _ (some { reg := .q n, fmt := _ }) | .rayld _ _ _ _ (some { reg := .q n, fmt := _ })
  | .rpush _ (some (.q n)) => some n
  | _ => none

/-- Bytes of memory of this package as an engine finds them at once, with the contributions on their way merged (R294); none
where it has to translate or to ask first. -/
def State.peek (s : State) (w : Who) : List (Nat × Nat) → Option (List Byte)
  | [] => some []
  | (a, n) :: t => match s.xlate w (BitVec.ofNat 64 a) false with
    | .error _ => none
    | .ok x =>
      if x.home != s.ident.pkg || s.poisoned x.pa n then none
      else (State.peek s w t).map fun bs => (s.drainLine (lineOf x.pa)).bytesUnder x.pa n x.key ++ bs

/-- The payload bytes that a ray carries in flight, as they stand when it goes in flight (R282). -/
def State.carried (s : State) (w : Who) (pool : W64) (i : W32) (n : Nat) : Option (List Byte) :=
  match s.peek w (span pool 64) with
  | none => none
  | some bs => s.peek w (span ((poolOf bs).payload i) n)

/-- The rays that the lanes of a `trace` have put in flight go to the traversal input of the cluster as one entry
(R282); `pays` are the payload bytes that have been read of other packages. -/
def State.pushTrace (s : State) (g : Nat) (ops : List (Fin 32 × MemOp)) (pays : Tbl (List Byte)) : State :=
  let rays := ops.filterMap fun e => match e.2 with
    | .trace a i _ n => some (a, i, n)
    | _ => none
  match rays, s.gang? g with
  | (a, _, n) :: _, some y => match s.crew? y.crew with
    | none => s
    | some c =>
      let cl := clusterOf (coreOf g)
      let u := s.cluster cl
      s.setCluster cl { u with travQ := u.travQ ++
        [{ who := s.crewStarter c, rays := rays.map (·.2.1),
           pays := rays.map fun r => match pays.get? r.2.1.toNat with
             | some bs => some bs
             | none => s.carried (s.who (.gang g)) a r.2.1 n,
           pool := a, pb := n, gen := none }] }
  | _, _ => s

/-- The place of a fault in the orders of R205 and R264. -/
def Trap.rank (t : Trap) : Nat :=
  match t.code with
  | .range => 0
  | .page => 2
  | .race => 3
  | .ecc => 4
  | _ => 1

/-- The lowest lane of a mask, or 32. -/
def firstLane (m : Mask) : Nat := ((maskLanes m).head?.map (·.val)).getD 32

/-- Two faults of one word are one: the first in the order of R205 and R264, with every lane that failed and the address of
the lowest of them (R374). -/
def LateFault.join (x y : LateFault) : LateFault :=
  let first := if y.trap.rank < x.trap.rank ∨ (y.trap.rank = x.trap.rank ∧ firstLane y.trap.nmask < firstLane x.trap.nmask) then y.trap
    else x.trap
  let low := if firstLane y.trap.nmask < firstLane x.trap.nmask then y.trap.va else x.trap.va
  { x with trap := { first with nmask := x.trap.nmask ||| y.trap.nmask, va := low },
           ops := sortBy (fun e => e.1.val) (x.ops ++ y.ops), due := x.due || y.due }

/-- A late fault of a word joins the gang's pending faults, and that of the same word (R205, R374, R378). -/
def State.addLate (s : State) (g : Nat) (f : LateFault) : State :=
  match s.gang? g with
  | some y =>
    let joined := y.late.map fun x => if x.no = f.no then x.join f else x
    let owes := if f.ops.isEmpty || y.owes.any fun o => o.no == f.no then y.owes
      else y.owes ++ [{ no := f.no, slot := f.slot, index := f.index, writes := [] }]
    s.setGang g { y with owes := owes, late := if y.late.any (fun x => x.no == f.no) then joined else y.late ++ [f] }
  | none => s

/-! ## Requests to other packages (R425) -/

/-- How a group of lanes travels. -/
inductive FarKind where
  | rd | wr | atm | red | ray
  deriving DecidableEq, Repr

/-- How an effect travels. The operations of a word on a ray pool of another package are made in rounds (log 14). -/
def MemOp.far : MemOp → FarKind
  | .load _ _ _ _ | .ldv _ _ _ | .geval _ _ _ | .gblend _ _ _ _ _ | .gback _ _ _ _ _ _ _ | .pload _ _ _ => .rd
  | .store _ _ _ | .pstore _ _ => .wr
  | .atom _ _ _ _ _ _ | .fx _ _ _ (some _) => .atm
  | .red _ _ _ _ | .fx _ _ _ none => .red
  | .rpush _ _ | .rpop _ _ | .rgen _ _ _ | .trace _ _ _ _ | .rayld _ _ _ _ _ | .rayst _ _ _ _ | .hitq _ _ _
  | .rtake _ _ _ | .rlink _ _ _ _ | .rcarry _ _ _ => .ray

/-- The AOP of a remote atomic (R210, R423). -/
def MemOp.aop : MemOp → Nat
  | .atom op _ _ _ _ _ => op.code
  | .red op _ _ _ => op.code
  | _ => 0

/-- The operand and the compare value of a remote atomic. -/
def MemOp.operands : MemOp → W64 × W64
  | .atom op _ _ c cmp _ => (c, if op = .cas then cmp else 0)
  | .red _ _ _ v => (v, 0)
  | .fx _ v _ _ => (v, 0)
  | _ => (0, 0)

/-- The size code of a remote atomic. -/
def MemOp.sz (op : MemOp) : MemSize := if op.size = 8 then .b64 else .b32

/-- The FX64 point of a remote addition (R423). -/
def MemOp.point : MemOp → Nat
  | .fx _ _ p _ => p
  | _ => 0

/-- The entries of one line, with their lanes. -/
abbrev FarGroup := List (Fin 32 × MemOp × Seg)

/-- Groups of at most 32 entries, the most that one packet carries (R424). -/
def chunks32 {α : Type} : Nat → List α → List (List α)
  | 0, _ => []
  | k + 1, l => if l.isEmpty then [] else l.take 32 :: chunks32 k (l.drop 32)

/-- The packets of one group, each with the effects that it carries (R424, R425). -/
def State.groupPackets (s : State) (k : FarKind) (sc : Scope) (o : Order) (gr : FarGroup) :
    List (FabPacket × FarGroup) :=
  match gr with
  | [] => []
  | (_, op, sg) :: _ =>
    let base (k : Opc) (payload : List Byte) : FabPacket :=
      { s.packet sg.home k payload with keyid := sg.key, pa := sg.line * 128, aop := op.aop, sz := op.sz, p := op.point,
                                        scope := sc, ord := o }
    let entries (l : FarGroup) : List Byte :=
      l.flatMap fun e => atmEntry e.1.val e.2.2.off e.2.1.operands.1 e.2.1.operands.2
    match k with
    | .rd => [(base .rd [], gr)]
    | .wr => [(base .wr (wrPayload (gr.map fun e => (e.2.2.off, e.2.1.stored))), gr)]
    | .atm => (chunks32 gr.length gr).map fun l => (base .atm (entries l), l)
    | .red => (chunks32 gr.length gr).map fun l => (base .red (entries l), l)
    | .ray => []

/-- The requests of packets go out in order; their ids. -/
def State.requests (s : State) (for_ : ReqFor) : List (FabPacket × FarGroup) → List Nat × State
  | [] => ([], s)
  | (p, gr) :: t =>
    let (i, s) := s.request p for_ (p.pa / 128) (gr.map fun e => (e.1, e.2.1))
    let (is, s) := State.requests s for_ t
    (i :: is, s)

/-- The additions of a group are more than one packet carries, and have nothing of another word between them (R275, R424):
they are made in rounds, as the operations on rays are (log 14). -/
def longGroup (gr : FarGroup) : Bool := decide (32 < gr.length) && gr.all fun e => e.2.1.far == .red

/-- What the remote effects of a word come to: the requests sent, the reads that wait for lines, the lines of this
package among them, failures, and the operations on rays that are still to be made. -/
structure Far where
  st : State
  ids : List Nat
  reads : List (Fin 32 × MemOp × List Seg)
  got : List (Nat × Nat × List Byte)
  errs : List (Fin 32 × MemOp × AccErr)
  rays : List (Fin 32 × MemOp)

/-- The remote effects of a word are sent: grouped by home package and line, in ascending order (R425). -/
def State.sendFar (s : State) (w : Who) (for_ : ReqFor) (sc : Scope) (o : Order) (ops : List (Fin 32 × MemOp)) :
    Far :=
  let write (op : MemOp) : Bool := op.far != .rd
  let tr := ops.map fun e => (e.1, e.2, if e.2.far == .ray then .ok [] else s.segs w (write e.2) (span e.2.va e.2.size))
  let errs := tr.filterMap fun e => match e.2.2 with
    | .error c => some (e.1, e.2.1, AccErr.page c)
    | .ok _ => none
  let good : List (Fin 32 × MemOp × List Seg) := tr.filterMap fun e => match e.2.2 with
    | .ok l => if e.2.1.far == .ray then none else some (e.1, e.2.1, l)
    | .error _ => none
  let flat : FarGroup := good.flatMap fun e => e.2.2.map fun g => (e.1, e.2.1, g)
  let groups : Tbl FarGroup := flat.foldl (fun t e =>
    if e.2.2.home == s.ident.pkg then t
    else
      let k := e.2.2.home * 2 ^ 35 + e.2.2.line
      t.set k (t.getD k [] ++ [e])) []
  let packets := groups.flatMap fun g => match g.2 with
    | [] => []
    | e :: _ => if longGroup g.2 then [] else s.groupPackets e.2.1.far sc o g.2
  let long := groups.flatMap fun g => if longGroup g.2 then g.2.map fun e => (e.1, e.2.1) else []
  let (ids, s) := s.requests for_ packets
  { st := s, ids := ids, reads := good.filter fun e => e.2.1.far == .rd,
    got := (flat.filter fun e => e.2.2.home == s.ident.pkg && e.2.1.far == .rd).map fun e =>
      (e.2.2.home, e.2.2.line, s.readPa (e.2.2.line * 128) 128),
    errs := errs, rays := (ops.filter fun e => e.2.far == .ray) ++ long }

/-- The bytes of a read from the lines that were answered. -/
def segBytes (got : List (Nat × Nat × List Byte)) (l : List Seg) : List Byte :=
  l.flatMap fun g => match got.find? fun e => e.1 == g.home && e.2.1 == g.line with
    | some e => (e.2.2.drop g.off).take g.n
    | none => List.replicate g.n 0

/-- The results of the reads of a word whose lines have all been answered. -/
def VarPend.results (v : VarPend) : List LaneWrite :=
  joinWrites v.writes (laneWrites (v.reads.flatMap fun e =>
    (readResults e.2.1 (segBytes (v.got.map (ownView v.own)) e.2.2)).map fun r => (e.1, r)))

end Sys2Proof.Machine
end

