-- ==== Sys2Proof/Machine/Rays.lean ====
section
/-!
DEFINITION. The operations of a word on a ray pool that reaches other packages (R278 to R284, R425), and its additions to a
record there that one packet does not carry (R275). They are made in rounds: what the lanes have to read goes out as one
`RD` for a line, what they change of a line of another package as one exchange of its words in one step at its home
slice, which is made again where a word has changed since, and what they store as one `WR` for a line (log 14).
-/

namespace Sys2Proof.Machine

/-- What a lane's operation comes to in a round. -/
structure RayLane where
  lane : Fin 32
  op : MemOp
  res : List Res := []
  /-- what it goes on as -/
  next : Option MemOp := none
  /-- the line of another package that it changes: its place there -/
  at_ : Option Xl := none
  /-- payload bytes that it has read -/
  pay : Option (List Byte) := none
  deriving DecidableEq, Repr

/-- A round: the state with what the lanes change of this package, and of the lines that their reader has learned; the
lanes that go on, the bytes that they store in other packages, their failures, the lines that they have yet to read, and
the lanes that wait. -/
structure RayRound where
  st : State
  lanes : List RayLane := []
  puts : List (Fin 32 × MemOp × Xl × List Byte) := []
  errs : List (Fin 32 × MemOp × AccErr) := []
  asks : List (Fin 32 × MemOp × Xl) := []
  waits : List (Fin 32 × MemOp) := []

/-! ## Changes of one lane -/

/-- Bytes put into a line that a reader has learned. -/
def State.peerPut (s : State) (r : Reader) (x : Xl) (bs : List Byte) : State :=
  { s with peer := s.peer.map fun e =>
      if e.by_ = r ∧ e.home = x.home ∧ e.line = lineOf x.pa ∧ e.ask = none then { e with data := splice e.data (x.pa % 128) bs }
      else e }

/-- Bytes within one line changed in a round: in this package by f, and in another one in what the reader has learned. -/
def State.turnAt (s : State) (w : Who) (va : W64) (bs : List Byte) (f : State → Except AccErr State) :
    Except AccErr (State × Option Xl) :=
  match s.rayFar w va, w.reader with
  | .error e, _ => .error e
  | .ok (some x), some r => .ok (s.peerPut r x bs, some x)
  | .ok (some x), none => .error (.remote x)
  | .ok none, _ => match f s with
    | .error e => .error e
    | .ok s => .ok (s, none)

/-- The bytes of a range may be stored: it translates, and of this package no stamp forbids it (R264, R320). -/
def State.mayStore (s : State) (w : Who) : List (Nat × Nat) → Except AccErr Unit
  | [] => .ok ()
  | (a, n) :: t => match atVa a (s.access w (BitVec.ofNat 64 a) n true true) with
    | .ok _ | .error (.remote _) => State.mayStore s w t
    | .error e => .error e

/-- Bytes stored in a round, line by line: those of other packages are left to be sent. -/
def State.storeParts (s : State) (w : Who) (plain : Bool) (bs : List Byte) :
    List (Nat × Nat) → Except AccErr (State × List (Xl × List Byte))
  | [] => .ok (s, [])
  | (a, n) :: t =>
    let va := BitVec.ofNat 64 a
    let here : Except AccErr (State × List (Xl × List Byte)) :=
      match atVa a (if plain then s.plainStore w va (bs.take n) else s.strongStore w va (bs.take n)) with
      | .ok s => .ok (s, [])
      | .error (.remote x) => .ok (s, [(x, bs.take n)])
      | .error e => .error e
    match here with
    | .error e => .error e
    | .ok (s, l) => match State.storeParts s w plain (bs.drop n) t with
      | .error e => .error e
      | .ok (s, m) => .ok (s, l ++ m)

/-- Bytes stored in a round. -/
def State.storeAt (s : State) (w : Who) (plain : Bool) (va : W64) (bs : List Byte) :
    Except AccErr (State × List (Xl × List Byte)) := s.storeParts w plain bs (span va bs.length)

/-- The payload bytes of a ray in flight: none where the unit is to read them; a line of another package has to be learned
first (R282). -/
def State.carryParts (s : State) (w : Who) : List (Nat × Nat) → Except AccErr (Option (List Byte))
  | [] => .ok (some [])
  | (a, n) :: t =>
    let part : Except AccErr (Option (List Byte)) := match s.farPart? w [(a, n)] with
      | none => .ok (s.peek w [(a, n)])
      | some x => match w.reader.bind fun r => s.peerLine r x with
        | some bs => .ok (some ((bs.drop (x.pa % 128)).take n))
        | none => .error (.remote x)
    match part, State.carryParts s w t with
    | .error e, _ => .error e
    | _, .error e => .error e
    | .ok a, .ok b => .ok (match a, b with
        | some x, some y => some (x ++ y)
        | _, _ => none)

/-- A lane that is done in a round, with its changes. -/
abbrev RayStep := Except AccErr (State × RayLane × List (Xl × List Byte))

/-- The pool and the record of a settled ray, or RAY_STATE (R278). -/
def State.settled (s : State) (w : Who) (pool : W64) (i : W32) : Except AccErr (Pool × List Byte × State) :=
  match s.ray w pool i with
  | .error e => .error e
  | .ok (p, bs, s) => if settledRay bs then .ok (p, bs, s) else .error (.code .rayState)

/-- A record changed in a round. -/
def State.turnRecord (s : State) (w : Who) (l : RayLane) (va : W64) (new : List Byte) : RayStep :=
  match s.turnAt w va new fun s => s.rayWrite w false va new with
  | .error e => .error e
  | .ok (s, x) => .ok (s, { l with at_ := x }, [])

/-- One lane's operation in a round (R275, R278 to R284). A ray that is taken or freed becomes the lane's own, so that
the check of its stamp has been made. -/
def State.rayLane (s : State) (w : Who) (n : Fin 32) (op : MemOp) : RayStep :=
  let l : RayLane := { lane := n, op := op }
  let own : Who := { w with crew := none }
  match op with
  | .rgen pool i pix => match s.camera w pool i pix with
    | .error e => .error e
    | .ok (va, _, new, s) => s.turnRecord w l va new
  | .trace pool i level pb => match s.settled w pool i with
    | .error e => .error e
    | .ok (p, bs, s) =>
      s.turnRecord w { l with next := if pb = 0 then none else some (.rcarry (p.payload i) i pb) } (p.recAt i)
        (setRayLevel bs 2 level.toNat)
  | .rcarry va _ m => match s.carryParts w (span va m) with
    | .error e => .error e
    | .ok bs => .ok (s, { l with pay := bs }, [])
  | .rayst pool i word bs => match s.settled w pool i with
    | .error e => .error e
    | .ok (p, _, s) =>
      if word < 16 then
        let va := p.recAt i + BitVec.ofNat 64 (4 * word)
        match s.turnAt w va bs fun s => s.rayWrite w true va bs with
        | .error e => .error e
        | .ok (s, x) => .ok (s, { l with at_ := x }, [])
      else match s.storeAt w true (p.payload i + BitVec.ofNat 64 (4 * (word - 16))) bs with
        | .error e => .error e
        | .ok (s, x) => .ok (s, l, x)
  | .rpop pool i => match s.settled w pool i, s.mayStore w (span (pool + 0x28) 8) with
    | .error e, _ => .error e
    | _, .error e => .error e
    | .ok (p, bs, s), .ok () =>
      s.turnRecord w { l with next := some (.rlink pool (p.recAt i) i none) } (p.recAt i) (setRayState bs 0)
  | .rtake _ none d => .ok (s, { l with res := (d.map fun r => (r, BitVec.allOnes 32)).toList }, [])
  | .rtake va (some i) d => match s.storeAt own false va freshRay with
    | .error e => .error e
    | .ok (s, x) => .ok (s, { l with res := (d.map fun r => (r, i)).toList }, x)
  | .red _ _ _ _ | .fx _ _ _ _ =>
    match s.rayRead w true op.va op.size with
    | .error e => .error e
    | .ok (bs, s) => match s.turnAt w op.va (op.effect bs) fun s => s.rayWrite w false op.va (op.effect bs) with
      | .error e => .error e
      | .ok (s, x) => .ok (s, { l with at_ := x }, [])
  | .load _ _ _ _ | .store _ _ _ | .pload _ _ _ | .pstore _ _ | .atom _ _ _ _ _ _ | .ldv _ _ _ | .geval _ _ _
  | .gblend _ _ _ _ _ | .gback _ _ _ _ _ _ _ | .rpush _ _ | .rayld _ _ _ _ _ | .hitq _ _ _ | .rlink _ _ _ _ =>
    match s.perform w.bare op with
    | .error e => .error e
    | .ok (s, r) => .ok (s, { l with res := r }, [])

/-- A round with one lane's failure: a line to be read, a wait, or a fault. -/
def RayRound.fail (x : RayRound) (n : Fin 32) (op : MemOp) (e : AccErr) : RayRound :=
  match e.bare with
  | .remote y => { x with asks := x.asks ++ [(n, op, y)] }
  | .wait => { x with waits := x.waits ++ [(n, op)] }
  | _ => { x with errs := x.errs ++ [(n, op, e)] }

/-- The lanes of a word in ascending order, each as the earlier ones leave the lines. -/
def State.rayLanes (s : State) (w : Who) (ops : List (Fin 32 × MemOp)) : RayRound :=
  ops.foldl (fun x e => match x.st.rayLane w e.1 e.2 with
    | .error y => x.fail e.1 e.2 y
    | .ok (t, l, ps) =>
      { x with st := t, lanes := x.lanes ++ [l], puts := x.puts ++ ps.map fun p => (e.1, e.2, p.1, p.2) })
    { st := s }

/-! ## The free list of a pool (R279) -/

/-- The rays that the lanes of an `rpush` take, one after the other, from the head of the free list and the number of rays
handed out; a lane whose record cannot be reached takes none. -/
def State.takeChain (w : Who) (p : Pool) : List (Fin 32 × MemOp) → W32 → Nat → Nat → RayRound → RayRound × W32 × Nat × Nat
  | [], head, next, k, x => (x, head, next, k)
  | (n, op) :: t, head, next, k, x =>
    let d : Option LaneDst := match op with
      | .rpush _ d => d
      | _ => none
    let took (va : W64) (i : Option W32) : RayRound :=
      { x with lanes := x.lanes ++ [{ lane := n, op := op, next := some (.rtake va i d) }] }
    if head != BitVec.allOnes 32 then
      let va := p.recAt head
      match x.st.rayRead w true (va + 0x3C) 4, x.st.mayStore w (span va 64) with
      | .error e, _ => State.takeChain w p t head next k (x.fail n op e)
      | _, .error e => State.takeChain w p t head next k (x.fail n op e)
      | .ok (bs, _), .ok () => State.takeChain w p t (word32 bs) next (k + 1) (took va (some head))
    else if next < p.cap then
      let i : W32 := BitVec.ofNat 32 next
      match x.st.mayStore w (span (p.recAt i) 64) with
      | .error e => State.takeChain w p t head next k (x.fail n op e)
      | .ok () => State.takeChain w p t head (next + 1) k (took (p.recAt i) (some i))
    else State.takeChain w p t head next k (took 0 none)

/-- The lanes of an `rpush` are served in one step (R279): the descriptor takes its new NEXT, FHEAD and FTAG. -/
def State.takeAll (s : State) (w : Who) (pool : W64) (ops : List (Fin 32 × MemOp)) : RayRound :=
  let all (e : AccErr) : RayRound := ops.foldl (fun x o => x.fail o.1 o.2 e) { st := s }
  match s.pool w pool with
  | .error e => all e
  | .ok (p, s) =>
    let (x, head, next, k) := State.takeChain w p ops p.fhead p.next 0 { st := s }
    let bs := leBytes 4 next ++ bytes32 head ++ bytes32 (p.ftag + BitVec.ofNat 32 k)
    if !x.asks.isEmpty || (k == 0 && next == p.next) then x
    else match s.turnAt w (pool + 0x24) bs fun s => s.rayWrite w false (pool + 0x24) bs with
      | .error e => all e
      | .ok (t, y) => { x with st := t, lanes := x.lanes.map fun l => { l with at_ := y } }

/-- The ray of a lane that is to join a free list, its record, and what its software word holds. -/
def linkOf : MemOp → Option (W64 × W32 × Option W32)
  | .rlink _ va i l => some (va, i, l)
  | _ => none

/-- The links of freed rays, in the order of their lanes, from the head of the free list. -/
def chainLinks : W32 → List (Fin 32 × MemOp) → List (Fin 32 × MemOp × W32)
  | _, [] => []
  | h, e :: t => match linkOf e.2 with
    | some (_, i, _) => (e.1, e.2, h) :: chainLinks i t
    | none => chainLinks h t

/-- The last of the rays, or the head itself. -/
def lastLink (h : W32) (ops : List (Fin 32 × MemOp)) : W32 :=
  ops.foldl (fun b e => match linkOf e.2 with
    | some (_, i, _) => i
    | none => b) h

/-- The rays that an `rpop` has freed join the free list: their software words are written, and once they hold the list the
descriptor takes the last of them in one step (R279). -/
def State.linkAll (s : State) (w : Who) (pool : W64) (ops : List (Fin 32 × MemOp)) : RayRound :=
  let all (e : AccErr) : RayRound := ops.foldl (fun x o => x.fail o.1 o.2 e) { st := s }
  match s.pool w pool with
  | .error e => all e
  | .ok (p, s) =>
    let links := chainLinks p.fhead ops
    let bs := bytes32 (lastLink p.fhead ops) ++ bytes32 (p.ftag + BitVec.ofNat 32 links.length)
    if links.all fun e => (linkOf e.2.1).any fun l => l.2.2 == some e.2.2 then
      match s.turnAt w (pool + 0x28) bs fun s => s.rayWrite w false (pool + 0x28) bs with
      | .error e => all e
      | .ok (t, y) => { st := t, lanes := ops.map fun o => { lane := o.1, op := o.2, at_ := y } }
    else links.foldl (fun x e => match linkOf e.2.1 with
      | none => x
      | some (va, i, _) => match x.st.storeAt { w with crew := none } false (va + 0x3C) (bytes32 e.2.2) with
        | .error y => x.fail e.1 e.2.1 y
        | .ok (t, ps) =>
          { x with st := t, lanes := x.lanes ++ [{ lane := e.1, op := e.2.1, next := some (.rlink pool va i (some e.2.2)) }],
                   puts := x.puts ++ ps.map fun q => (e.1, e.2.1, q.1, q.2) }) { st := s }

/-! ## Rounds -/

/-- The pool of an operation that serves all its lanes in one step (R279): of `rpush`, or of rays that are all free. -/
def MemOp.pool : MemOp → Option W64
  | .rpush a _ | .rlink a _ _ _ => some a
  | _ => none

/-- The operation takes rays. -/
def MemOp.takes : MemOp → Bool
  | .rpush _ _ => true
  | _ => false

/-- One round of a word: the lanes of an `rpush`, the rays that are to join a free list once all are freed, or each lane
for itself. -/
def State.rayRound (s : State) (w : Who) (ops : List (Fin 32 × MemOp)) : RayRound :=
  match ops with
  | (_, op) :: _ => match ops.all (fun e => e.2.pool.isSome), op.pool with
    | true, some pool => if op.takes then s.takeAll w pool ops else s.linkAll w pool ops
    | _, _ =>
      let now := ops.filter fun e => e.2.pool.isNone
      let x := s.rayLanes w now
      { x with lanes := x.lanes ++ (ops.filter fun e => e.2.pool.isSome).map fun e =>
          { lane := e.1, op := e.2, next := some e.2 } }
  | [] => { st := s }

/-- The place of a line among the lines of all packages. -/
def Xl.place (x : Xl) : Nat := x.home * 2 ^ 35 + lineOf x.pa

/-- What lanes ask of lines, gathered by line in ascending order of package and line (R425). -/
def byLine {α : Type} (f : α → Xl) (l : List α) : List (Xl × List α) :=
  (l.foldl (fun (t : Tbl (Xl × List α)) e => t.set (f e).place (f e, ((t.get? (f e).place).map (·.2)).getD [] ++ [e])) []).vals

/-- The lines that lanes have yet to read are asked for, one `RD` each (R425). -/
def State.askAll (s : State) (r : Reader) (l : List (Fin 32 × MemOp × Xl)) : State :=
  (byLine (·.2.2) l).foldl (fun s e =>
    (s.request (s.linePacket e.1) (.peer r) (lineOf e.1.pa) (e.2.map fun a => (a.1, a.2.1))).2) s

/-- The exchange that takes a line from what was learned of it to what a round leaves (log 14). -/
def lineSwap (old new : List Byte) : Ask :=
  (swapAop, (List.range 2).flatMap fun h =>
    let a := (old.drop (64 * h)).take 64
    let b := (new.drop (64 * h)).take 64
    if a = b then [] else halfEntries (64 * h) a b)

/-- What an operation is when its exchange has been made: it goes on, or is done. -/
def MemOp.goesOn : MemOp → Bool
  | .rtake _ _ _ | .rcarry _ _ _ | .rlink _ _ _ none => true
  | _ => false

/-- The exchanges of a round, one for each line of another package that it changes, with the lanes that change it. -/
def RayRound.swaps (x : RayRound) (s : State) (r : Reader) : List (Xl × Ask × List RayLane) :=
  (byLine (fun (e : Xl × RayLane) => e.1) (x.lanes.filterMap fun l => l.at_.map fun y => (y, l))).filterMap fun e =>
    let k := lineSwap ((s.peerLine r e.1).getD []) ((x.st.peerLine r e.1).getD [])
    if k.2.isEmpty then none else some (e.1, k, e.2.map (·.2))

/-- The exchanges are sent. -/
def State.sendSwaps (s : State) (r : Reader) (l : List (Xl × Ask × List RayLane)) : State :=
  l.foldl (fun s e =>
    let lane := ((e.2.2.head?).map (·.lane.val)).getD 0
    (s.request (s.askPacket e.1 e.2.1 8 lane) (.peer r) (lineOf e.1.pa) (e.2.2.map fun a => (a.lane, a.next.getD a.op))).2) s

/-- The stores of a round are sent, one `WR` for a line, the highest lane's byte standing (R425). -/
def State.sendPuts (s : State) (r : Reader) (l : List (Fin 32 × MemOp × Xl × List Byte)) : State :=
  (byLine (·.2.2.1) l).foldl (fun s e =>
    let p := { s.packet e.1.home .wr (wrPayload (e.2.map fun a => (a.2.2.1.pa % 128, a.2.2.2))) with
      keyid := e.1.key, pa := e.1.pa / 128 * 128 }
    (s.request p (.peer r) (lineOf e.1.pa) (e.2.map fun a => (a.1, a.2.1))).2) s

/-- The line of this package that a pool's descriptor lies in, as it stands while lines of its free list are read: where it
has changed since, they are read again (R279). -/
def State.poolNote (s : State) (w : Who) (pool : W64) : Option (Xl × List Byte) :=
  match s.xlate w pool false with
  | .ok x => if x.home = s.ident.pkg then some (x, (s.drainLine (lineOf x.pa)).bytesUnder (x.pa / 128 * 128) 128 x.key) else none
  | .error _ => none

/-- What has been learned stands, as far as a descriptor of this package tells. -/
def State.noted (s : State) (w : Who) (r : Reader) (ops : List (Fin 32 × MemOp)) : State :=
  match ops.findSome? (fun e => e.2.pool) with
  | none => s
  | some pool => match s.poolNote w pool with
    | none => s
    | some (x, bs) =>
      let note : PeerData := { by_ := r, home := x.home, line := lineOf x.pa, ask := none, data := bs }
      if s.peer.contains note then s else { s.dropPeer r with peer := (s.dropPeer r).peer ++ [note] }

/-- The requests of a `var` word for the rays of other packages that are out. -/
def State.wordWaits (s : State) (g var : Nat) : List Nat :=
  (s.reqs.filter fun q => q.for_ == .peer (.word g var)).map (·.rid)

/-- A failure of a lane that may only be one of an earlier lane's change of the round: it is tried again. -/
def AccErr.mayPass (e : AccErr) : Bool := e.bare == .code .rayState

/-- A round of word v is made: what it reads is asked for, or else its changes are made and sent. -/
def State.makeRound (s : State) (g : Nat) (v : VarPend) : State × VarPend :=
  let w := { s.who (.gang g) with reader := some (.word g v.id) }
  let r : Reader := .word g v.id
  let s := s.noted w r v.rays
  let x := s.rayRound w v.rays
  if !x.asks.isEmpty then (s.askAll r x.asks, v)
  else
    let swaps := x.swaps s r
    let out (l : RayLane) : Bool := swaps.any fun e => e.2.2.any fun a => a.lane == l.lane && a.op == l.op
    let again (e : Fin 32 × MemOp × AccErr) : Bool := !swaps.isEmpty && e.2.2.mayPass
    let errs := x.errs.filter fun e => !again e
    let done := x.lanes.filter fun l => !out l
    let rest := ((x.lanes.filter out).map fun l => (l.lane, l.op)) ++ (x.errs.filter again).map (fun e => (e.1, e.2.1))
      ++ x.waits ++ done.filterMap fun l => l.next.map fun o => (l.lane, o)
    let t := ({ x.st with peer := s.peer }.sendSwaps r swaps).sendPuts r x.puts
    let t := if swaps.isEmpty && !x.waits.isEmpty then
        (t.dropPeer r).askAll r ((t.dropPeer r).rayRound w x.waits).asks
      else t
    let t : State := match lateTrap errs with
      | none => t
      | some f => t.addLate g { no := v.id, slot := v.slot, index := v.index, token := v.token, trap := f,
                                ops := errs.map fun e => (e.1, e.2.1), due := v.ended }
    (t, { v with rays := sortBy (fun e => e.1.val) rest, traces := v.traces.filter fun e => !errs.any fun z => z.1 == e.1,
                 writes := joinWrites v.writes (laneWrites (done.flatMap fun l => l.res.map fun z => (l.lane, z))),
                 pays := done.foldl (fun p l => match l.op, l.pay with
                   | .rcarry _ i _, some bs => p.set i.toNat bs
                   | _, _ => p) v.pays })

/-- Rounds are made until one has to wait for another package. -/
def State.rayRounds (s : State) (g : Nat) : Nat → VarPend → State × VarPend
  | 0, v => (s, v)
  | k + 1, v =>
    if v.rays.isEmpty || s.peerWaits (.word g v.id) then (s, v)
    else
      let (t, u) := s.makeRound g v
      State.rayRounds t g k u

/-- The operations of a pending word on rays of other packages go on (R425). When all are made, a `trace` pushes its
entry. -/
def State.goRays (s : State) (g : Nat) (v : VarPend) : State :=
  let (s, v) := s.rayRounds g 4 v
  match s.gang? g with
  | none => s
  | some y =>
    let all := v.rays.isEmpty
    let v := if all then { v with remote := v.remote ++ s.wordWaits g v.id } else v
    let s := s.setGang g { y with var := y.var.map fun u => if u.id = v.id then v else u }
    if all then (s.dropPeer (.word g v.id)).pushTrace g v.traces v.pays else s

/-- An exchange has been answered: its lanes are done or go on where it was made, and what was learned of the line is
forgotten where it was not (log 14). -/
def State.swapAnswer (s : State) (g var : Nat) (r : Req) (k : Ask) (olds : List Byte) : State :=
  let x : Xl := { pa := r.line * 128, home := r.dst, key := 0, rc := false, cache := 0 }
  if !k.held olds then s.dropPeerLine (.word g var) x
  else
    let s := k.2.foldl (fun s e => s.peerPut (.word g var) { x with pa := r.line * 128 + e.1 } (bytes64 e.2.1)) s
    let next (e : Fin 32 × MemOp) : Option (Fin 32 × MemOp) :=
      match r.ops.find? fun o => o.1 == e.1 && (o.2 == e.2 || o.2.goesOn) with
      | some o => if o.2.goesOn then some o else none
      | none => some e
    match s.gang? g with
    | none => s
    | some y => s.setGang g { y with var := y.var.map fun u => if u.id = var then { u with rays := u.rays.filterMap next } else u }

end Sys2Proof.Machine
end

