-- ==== Sys2Proof/Machine/Held.lean ====
section
/-!
DEFINITION. The effects that the gangs of replayable crews hold (R229), their commit (R329), the settling of lane work
(R129, R376), and what a release waits for (R319, R327, R426).
-/

namespace Sys2Proof.Machine

/-! ## Held effects (R229, R329) -/

/-- The state with a gang's held effects performed, those too whose commit waits, as its own loads see it (R229). -/
def State.heldView (s : State) (g : Nat) : State :=
  match s.gang? g with
  | none => s
  | some y => (y.commits ++ y.held).foldl (fun s h => (s.performAll (s.who (.gang g)) id h.ops).st) s

/-- Copy `id` of a cluster's lighter belongs to the crew of a key. -/
def State.copyOf (s : State) (key cl id : Nat) : Bool :=
  (s.crew? key).any fun y => (s.cluster cl).copies.any fun c => c.id == id && c.crew == key && c.who.tag == y.tag

/-- The requests of an agent that another package has not answered, and the bulk bytes of its crew's copies (R426). -/
def State.outstanding (s : State) (a : Issuer) : Bool :=
  s.reqs.any fun r => match r.for_ with
    | .scalar b => b == a
    | .store b _ => b == a
    | .lane g _ => a == .gang g
    | .slot g _ => a == .gang g
    | .copy cl id => (s.crewKey a).any fun k => s.copyOf k cl id
    | .peer (.word g _) => a == .gang g
    | .peer (.scalar b) => b == a
    | .peer (.slot g _) => a == .gang g
    | .unit _ | .lag _ _ _ | .relay _ _ _ | .peer _ | .nobody => false

/-- A store of the agent that another package has not acknowledged. -/
def State.storesOut (s : State) (a : Issuer) : Bool :=
  s.reqs.any fun r => match r.for_ with
    | .store b _ => b == a
    | _ => false

/-- A word of the gang is still making operations on rays, or additions to a record, of another package. -/
def Gang.rounds (y : Gang) : Bool := y.var.any fun v => !v.rays.isEmpty

/-- A word of an agent's gang is still making such operations. -/
def State.inRounds (s : State) (a : Issuer) : Bool :=
  match a with
  | .gang g => (s.gang? g).any Gang.rounds
  | .pilot _ => false

/-- A strong store of the agent that another package has not acknowledged (R426). -/
def State.strongOut (s : State) (a : Issuer) : Bool :=
  s.inRounds a || s.reqs.any fun r => match r.for_ with
    | .store b strong => b == a && strong
    | .peer (.word g _) => a == .gang g
    | _ => false

/-- The commit of a held word waits: of a `.fabric` release, for every answer of the gang's earlier accesses, and of a
strong access, for the gang's strong stores to other packages (R324, R329, R426). -/
def State.commitWaits (s : State) (g : Nat) (h : Held) : Bool :=
  (h.rel == some .fabric && s.outstanding (.gang g)) || (h.strong && s.strongOut (.gang g))

/-- The additions of a committed word that are made in rounds: it is pending until they are made (R275). -/
def State.goHeld (s : State) (g : Nat) (h : Held) (rays : List (Fin 32 × MemOp)) : State :=
  match s.gang? g with
  | none => s
  | some y =>
    if rays.isEmpty then s
    else
      let v : VarPend := { id := h.no, slot := h.slot, index := h.index, dsts := [], writes := [], token := 0, remote := [],
                           reads := [], got := [], own := [], rays := rays, traces := [], pays := [], acq := false,
                           strong := h.strong, ended := true }
      (s.setGang g { y with var := y.var ++ [v] }).goRays g v

/-- One held word is committed: its release, then its effects; a lane that fails leaves a late fault whose delivery
point has come (R229, R329). -/
def State.commitOne (s : State) (g : Nat) (h : Held) : State :=
  let w := s.who (.gang g)
  let s := match h.rel with
    | some sc => s.release w sc
    | none => s
  let d := s.performAll w id h.ops
  let f := d.st.sendFar w (.store (.gang g) h.strong) (h.rel.getD .device) (if h.rel.isSome then .rel else .relaxed) d.far
  let s := f.st.goHeld g h f.rays
  match lateTrap (d.errs ++ f.errs) with
  | none => s
  | some t => s.addLate g { no := h.no, slot := h.slot, index := h.index, token := 0, trap := t,
                               ops := (d.errs ++ f.errs).map fun e => (e.1, e.2.1), due := true }

/-- Words are committed in order, until one must wait; those that are left. -/
def State.commitList (s : State) (g : Nat) : List Held → State × List Held
  | [] => (s, [])
  | h :: t => if s.commitWaits g h then (s, h :: t) else State.commitList (s.commitOne g h) g t

/-- The held effects of a gang are committed in the order their words issued, as far as they need not wait (R229,
R329). -/
def State.commitHeld (s : State) (g : Nat) : State :=
  match s.gang? g with
  | none => s
  | some y =>
    let (t, rest) := (s.setGang g { y with held := [], commits := [], heldBytes := 0 }).commitList g (y.commits ++ y.held)
    match rest, t.gang? g with
    | [], _ => t
    | _ :: _, none => t
    | _ :: _, some z => t.setGang g { z with commits := rest }

/-- The gang's grid has not stopped: it performs what it holds (R380). -/
def State.commits (s : State) (y : Gang) : Bool :=
  match s.crew? y.crew with
  | none => false
  | some c => (s.grid? c.grid).any fun x => !x.stopped

/-- A commit that waited goes on when an answer has come. -/
def State.commitMore (s : State) (g : Nat) : State :=
  match s.gang? g with
  | none => s
  | some y =>
    if y.commits.isEmpty || !s.commits y then s
    else
      let (t, rest) := (s.setGang g { y with commits := [] }).commitList g y.commits
      match t.gang? g with
      | none => t
      | some z => t.setGang g { z with commits := rest }

/-- A fault of an earlier word is to be delivered before the gang issues anything further (R205, R375, R378); in a save
or restore routine it is a HANDLER_FAULT (R376). -/
def Gang.faultDue (y : Gang) : Bool := y.sc.mode != some .trap && y.late.any (·.due)

/-- Held effects are committed, or the gang must wait: for answers that their commit needs, or for the delivery of a fault
of theirs. -/
def Gang.uncommitted (y : Gang) : Bool := !y.commits.isEmpty || y.faultDue

/-- The settling of lane work: the instruction waits while a block is dispatched or live, or a lane word is
incomplete; a trap handler waits only for words already issued. Then the gang's held effects are committed, and
every contribution on its way is applied (R129, R229, R376). A fault of the committed effects is delivered before the
instruction goes on. -/
def State.settle (s : State) (a : Issuer) : Act State :=
  match a with
  | .pilot _ => .ok s
  | .gang g => match s.gang? g with
    | none => .ok s
    | some y => match y.sc.mode with
      | some .trap => if y.quiet then .ok s.drainTun else .error (.wait s)
      | _ =>
        if y.idle && y.quiet then
          let t := (s.commitHeld g).drainTun
          if (t.gang? g).any Gang.uncommitted then .error (.wait t) else .ok t
        else .error (.wait s)

/-- Another package is still to answer what the crew's gangs or its copies have sent: its weight goes home behind those
answers, as a `wret` would send it (R136, R426). -/
def State.crewOut (s : State) (key : Nat) (c : Crew) : Bool :=
  (c.slots.any fun g => s.outstanding (.gang g)) || s.reqs.any fun r => match r.for_ with
    | .copy cl id => s.copyOf key cl id
    | _ => false

/-- What a release of a whole crew waits for: `.fabric` for its accesses to other packages, and any scope for its words in
rounds (R148, R162, R328). -/
def State.crewPending (s : State) (key : Nat) (c : Crew) (far : Bool) : Bool :=
  (c.slots.any fun g => s.inRounds (.gang g)) || (far && s.crewOut key c)

/-- What a release at a scope waits for has come. -/
def State.releasable (s : State) (a : Issuer) (sc : Scope) : Bool :=
  !s.inRounds a && !(sc == .fabric && s.outstanding a)

/-- A release at a scope by a scalar stream or a lane of a gang: it waits for a word that has still to access memory of
this package, a `.fabric` release for the answers of the issuer's earlier peer accesses, and `.cluster` or wider closes the
crew's log (R319, R327, R426). -/
def State.releaseFor (s : State) (a : Issuer) (sc : Scope) : Act State :=
  if s.releasable a sc then .ok (s.release (s.who a) sc) else .error (.wait s)

end Sys2Proof.Machine
end

