-- ==== Sys2Proof/Machine/Operands.lean ====
section
/-!
DEFINITION. The operands of scalar and lane instructions: scalar sources and immediates (R24, R49), lane sources of 32
and 64 bits, special operands, popped entries and uniform execution (R22, R26, R55 to R57, R168, R169).
-/

namespace Sys2Proof.Machine

/-! ## Scalar operands -/

/-- The value of a scalar register. -/
def ScalarCtx.get (c : ScalarCtx) (r : SReg) : W64 := c.s[r.val]

/-- The value of a scalar condition register. -/
def ScalarCtx.cond (c : ScalarCtx) (k : KReg) : Bool := c.k[k.val]

/-- A sign-extended immediate (R49, R71). -/
def sx {n : Nat} (i : BitVec n) : W64 := i.signExtend 64

/-! ## Lane operands -/

/-- What a lane word sees at issue: its gang, slot and index, the lanes active and enabled (R66), the registers as it
reads them (R64), and the entries it pops (R29). -/
structure LaneCtx where
  g : Nat
  slot : Fin 2
  index : Nat
  act : Mask
  en : Mask
  now : Nat
  info : LaneInfo
  /-- the state whose registers it reads -/
  view : State
  pops : List (QReg × LaneVec)
  deriving DecidableEq, Repr

/-- The lowest lane of a mask. -/
def lowLane (m : Mask) : Fin 32 := (maskLanes m).headD 0

/-- The lane whose operands lane n computes with: the lowest enabled lane under U (R57). -/
def LaneCtx.at_ (c : LaneCtx) (n : Fin 32) : Fin 32 := if c.info.hdr.u then lowLane c.en else n

/-- A scalar register as lane code reads it (R22). -/
def State.laneS (s : State) (g : Nat) (i : Fin 32) : W64 :=
  match s.gang? g with
  | some y => y.sc.s[i.val]
  | none => 0

/-- A special operand, or a name's value in one lane, of 32 bits (R22, R24, R26). -/
def LaneCtx.opd (c : LaneCtx) (o : Opd) (n : Fin 32) : W32 :=
  let n := c.at_ n
  match o with
  | .v r => (c.view.vreg c.g r.val)[n]
  | .q r => match c.pops.find? fun e => e.1 == r with
    | some e => e.2[n]
    | none => 0
  | .p r => if (c.view.preg c.g r).getLsbD n.val then 1 else 0
  | .zero => 0
  | .laneid => BitVec.ofNat 32 n.val
  | .gangid => match c.view.gang? c.g with
    | some y => BitVec.ofNat 32 y.gidx
    | none => 0
  | .crewid => match c.view.gang? c.g with
    | some y => match c.view.crew? y.crew with
      | some w => BitVec.ofNat 32 w.index
      | none => 0
    | none => 0
  | .gslot => BitVec.ofNat 32 (c.g % 32)
  | .coreid => BitVec.ofNat 32 (coreOf c.g % 4)
  | .s i => (c.view.laneS c.g i).setWidth 32

/-- A name's value in one lane, of 64 bits: a register pair, a whole scalar register, or zero-extended (R168). -/
def LaneCtx.opd64 (c : LaneCtx) (o : Opd) (n : Fin 32) : W64 :=
  match o with
  | .v r => (c.view.vreg c.g (vplus r 1).val)[c.at_ n] ++ (c.view.vreg c.g r.val)[c.at_ n]
  | .s i => c.view.laneS c.g i
  | _ => (c.opd o n).setWidth 64

/-- A source in one lane: a name or the immediate X (R56). -/
def LaneCtx.src (c : LaneCtx) (o : Src) (n : Fin 32) : W32 :=
  match o with
  | .reg r => c.opd r n
  | .imm x => x

/-- A 64-bit source in one lane; the immediate is sign-extended or zero-extended (R169). -/
def LaneCtx.src64 (c : LaneCtx) (sgn : Bool) (o : Src) (n : Fin 32) : W64 :=
  match o with
  | .reg r => c.opd64 r n
  | .imm x => if sgn then x.signExtend 64 else x.setWidth 64

/-- A predicate in one lane. -/
def LaneCtx.pred (c : LaneCtx) (r : PReg) (n : Fin 32) : Bool := (c.view.preg c.g r).getLsbD (c.at_ n).val

/-- A group register +i in one lane (R263). -/
def LaneCtx.grp (c : LaneCtx) (r : VReg) (i : Nat) (n : Fin 32) : W32 := (c.view.vreg c.g (vplus r i).val)[n]

/-! ## Lane results -/

/-- What a fixed-latency word produces: register and predicate writes, and the entry it pushes. -/
structure LaneOut where
  writes : List LaneWrite
  push : Option LaneVec
  deriving DecidableEq, Repr

/-- The results of two destinations. -/
def LaneOut.and (x y : LaneOut) : LaneOut :=
  { writes := x.writes ++ y.writes, push := x.push.or y.push }

/-- A 32-bit result in D: a register, a queue, or discarded (R26, R29, R171). A push carries the value of every lane, those
that are not enabled among them (log 51). -/
def LaneCtx.put (c : LaneCtx) (d : Opd) (f : Fin 32 → W32) : LaneOut :=
  match d with
  | .v r => { writes := [{ dst := .v r, mask := c.en, vals := laneMap f }], push := none }
  | .q _ => { writes := [], push := some (laneMap f) }
  | .p r => { writes := [{ dst := .p r, mask := c.en, vals := laneMap f }], push := none }
  | _ => { writes := [], push := none }

/-- A 64-bit result in the pair at D (R168). -/
def LaneCtx.put64 (c : LaneCtx) (d : Opd) (f : Fin 32 → W64) : LaneOut :=
  match d with
  | .v r => { writes := [{ dst := .v r, mask := c.en, vals := laneMap fun n => (f n).setWidth 32 },
                         { dst := .v (vplus r 1), mask := c.en, vals := laneMap fun n => (f n >>> 32).setWidth 32 }],
              push := none }
  | _ => { writes := [], push := none }

/-- A predicate result (R24). -/
def LaneCtx.putP (c : LaneCtx) (d : PReg) (f : Fin 32 → Bool) : LaneOut :=
  c.put (.p d) fun n => if f n then 1 else 0

/-- The result of a word whose D is 32 or 64 bits wide. -/
def LaneCtx.putW (c : LaneCtx) (wide : Bool) (d : Opd) (f : Fin 32 → W64) : LaneOut :=
  if wide then c.put64 d f else c.put d fun n => (f n).setWidth 32

end Sys2Proof.Machine
end

