-- ==== Sys2Proof/Machine/Flags.lean ====
section
/-!
DEFINITION. The comparisons and tests that set conditions: scalar condition registers (R132, R142), lane predicates
(R176, R180, R181, R199) and the zero-operand cases they name.
-/

namespace Sys2Proof.Machine

/-- A comparison of two bit patterns, signed or unsigned (R132, R176); `tst` asks for a common one bit. -/
def compareBits {n : Nat} (c : Cond) (unsigned : Bool) (a b : BitVec n) : Bool :=
  match c with
  | .eq => a == b
  | .ne => a != b
  | .lt => if unsigned then a.toNat < b.toNat else a.toInt < b.toInt
  | .le => if unsigned then a.toNat ≤ b.toNat else a.toInt ≤ b.toInt
  | .gt => if unsigned then b.toNat < a.toNat else b.toInt < a.toInt
  | .ge => if unsigned then b.toNat ≤ a.toNat else b.toInt ≤ a.toInt
  | .tst => a &&& b != 0

/-- The condition of `swait` on the word read, against sb (R142). -/
def waitHolds (c : WaitCond) (m v : W64) : Bool :=
  match c with
  | .ne => m != v
  | .eq => m == v
  | .geu => v.toNat ≤ m.toNat
  | .ltu => m.toNat < v.toNat
  | .ge => v.toInt ≤ m.toInt
  | .lt => m.toInt < v.toInt

/-- A floating comparison (R180): every one but `nan` is false of a NaN. -/
def compareFloat (c : FCond) (a b : Ex) : Bool :=
  match c with
  | .eq => a.cmp b == some .eq
  | .ne => a.cmp b == some .lt || a.cmp b == some .gt
  | .lt => a.cmp b == some .lt
  | .le => a.cmp b == some .lt || a.cmp b == some .eq
  | .gt => a.cmp b == some .gt
  | .ge => a.cmp b == some .gt || a.cmp b == some .eq
  | .num => (a.cmp b).isSome
  | .nan => (a.cmp b).isNone

end Sys2Proof.Machine
end

