-- ==== Sys2Proof/Machine/Lane.lean ====
section
/-!
DEFINITION. The issue of a lane word: its checks in the order of R77, its waits (R58 to R63), queues (R29, R78,
R265), granule fills (R33), the bookkeeping of runs, tokens and landings (R58 to R64, R67), and repeats (R135).
-/

namespace Sys2Proof.Machine

/-! ## Units that may be fenced (R7, R449, R488) -/

/-- Bit b of the unit word of a die (R449). -/
def State.unit (s : State) (die b : Nat) : Bool := (s.ident.clusters[die % 4]'(Nat.mod_lt _ (by decide))).getLsbD b

/-- The pilot, lighter or render unit of a cluster is present (R449). -/
def State.hasPilot (s : State) (cl : Nat) : Bool := s.unit (dieOf cl) (cl % 16)
def State.hasLighter (s : State) (cl : Nat) : Bool := s.unit (dieOf cl) (16 + cl % 16)
def State.hasRender (s : State) (cl : Nat) : Bool := s.unit (dieOf cl) (32 + cl % 16)
/-- The sort engine or the camera-ray generator of a die is present (R449). -/
def State.hasSort (s : State) (d : Nat) : Bool := s.unit d 48
def State.hasGen (s : State) (d : Nat) : Bool := s.unit d 49

/-! ## Queues -/

/-- The entry that a pop of an endpoint takes, and the state without it; none while there is none (R29, R260). -/
def State.popQueue (s : State) (g kind idx : Nat) : Option (LaneVec × State) :=
  let cl := clusterOf (coreOf g)
  if kind = 5 then
    let u := s.cluster cl
    let l := u.rq.getD idx []
    let mine := s.issuerGrid (.gang g)
    match l.find? fun e => some e.grid == mine with
    | some e => some (e.vals, s.setCluster cl { u with rq := u.rq.set idx (l.erase e) })
    | none => none
  else
    let d := dieOf cl
    let u := s.die d
    match u.emit.getD idx [] with
    | e :: l => some (e.vals, s.setDie d { u with emit := u.emit.set idx l })
    | [] => none

/-- The KINDs that a word may push to (R265). -/
def pushKinds : Instr → List Nat
  | .gproj _ _ _ _ => [2]
  | .pproj _ _ _ _ => [2]
  | .trace _ _ _ _ _ _ => [3]
  | _ => [1, 4]

/-- The word uses its queues against their bindings (R29, R265). -/
def queueFault (y : Gang) (i : Instr) (li : LaneInfo) : Bool :=
  (li.pops.any fun q => (y.bound q).1 != 5 && (y.bound q).1 != 6) ||
    match li.push with
    | some q => !(pushKinds i).contains (y.bound q).1
    | none => false

/-- A queue of the word is bound to a unit that is fenced (R488). -/
def State.fencedQueue (s : State) (y : Gang) (g : Nat) (li : LaneInfo) : Bool :=
  let cl := clusterOf (coreOf g)
  (li.pops.any fun q => (y.bound q).1 == 6 && !s.hasSort (dieOf cl)) ||
    match li.push with
    | some q => ((y.bound q).1 == 2 || (y.bound q).1 == 3) && !s.hasRender cl
    | none => false

/-- Takes the entries of the queues that a word pops; none while one of them has none to give (R78). -/
def State.popAll (s : State) (g : Nat) (y : Gang) : List QReg → Option (List (QReg × LaneVec) × State)
  | [] => some ([], s)
  | q :: qs => match s.popQueue g (y.bound q).1 (y.bound q).2 with
    | none => none
    | some (v, s) => match State.popAll s g y qs with
      | none => none
      | some (l, s) => some ((q, v) :: l, s)

/-! ## Names of a word -/

/-- The registers and predicates that an operand slot names. -/
def slotNames (o : Opd) (k : Cls) : List LaneDst :=
  match o with
  | .v r => (k.regs r.val).map fun n => .v ⟨n % 192, Nat.mod_lt _ (by decide)⟩
  | .p r => [.p r]
  | _ => []

/-- The registers of its C group that a word of two 16-register groups writes (R262, R274). -/
def groupBack (i : LaneInfo) : List LaneDst :=
  match i.d, i.c with
  | some (_, .grp 16), some (.reg (.v r), .grp 16) => [6, 7, 8, 9, 10, 15].map fun n => .v (vplus r n)
  | _, _ => []

/-- The scale register that a `qpack` changes in its C slot (R189). -/
def scaleBack (i : LaneInfo) : List LaneDst :=
  match i.scale, i.c with
  | true, some (.reg o, k) => slotNames o k
  | _, _ => []

/-- The registers and predicates that a word writes. -/
def destNames (i : LaneInfo) : List LaneDst :=
  (match i.d with
    | some (o, k) => slotNames o k
    | none => []) ++ groupBack i ++ scaleBack i ++ i.preds.map .p

/-- The names that a word reads or writes (R65). -/
def wordNames (i : LaneInfo) : List LaneDst :=
  (i.srcs.flatMap fun x => match x.1 with
    | .reg o => slotNames o x.2
    | .imm _ => []) ++ (match i.d with
    | some (o, k) => slotNames o k
    | none => []) ++ (.p i.hdr.gp :: i.preds.map .p)

/-- The registers that a word reads: its sources, and a group or an element register that it changes (R189, R263). -/
def readNames (i : LaneInfo) : List LaneDst :=
  (i.srcs.flatMap fun x => match x.1 with
    | .reg o => slotNames o x.2
    | .imm _ => []) ++ match i.d with
    | some (o, .grp n) => slotNames o (.grp n)
    | some (o, k) => if i.scale then slotNames o k else []
    | none => []

/-- The number of a lane register name. -/
def LaneDst.vnum : LaneDst → Option Nat
  | .v r => some r.val
  | .p _ | .q _ => none

/-- A pending write that the checking scoreboard knows: p7 is never pending (R65). -/
def pendingName (d : LaneDst) : Bool := d != .p 7

/-- The words of R65 that STALL_SHORT stops: the comparison is made at every attempt to issue, before the wait for tokens
(log 47). -/
def stallShort (y : Gang) (li : LaneInfo) : Bool :=
  let ns := (wordNames li).filter pendingName
  y.chk && ((y.fix.any fun f => f.writes.any fun w => ns.contains w.dst) ||
    y.var.any fun v => !li.hdr.wm.getLsbD (v.token - 1) && v.dsts.any fun d => ns.contains d)

/-! ## Granules (R33, R385) -/

/-- The address of the save-area slot of a lane register (R381): v0 to v63 in BASEg, the others in EXTb. -/
def saveSlot (base : W64) (gangs gidx blk n : Nat) : W64 :=
  base + BitVec.ofNat 64 (if n < 64 then 0x1000 + 8192 * gidx + 128 * n
    else 0x1000 + 8192 * gangs + 16384 * blk + 128 * (n - 64))

/-- A lane register from its 128 bytes. -/
def vecOf (bs : List Byte) : LaneVec := laneMap fun n => word32 (bs.drop (4 * n.val))

/-- The 128 bytes of a lane register. -/
def vecBytes (v : LaneVec) : List Byte := v.toList.flatMap bytes32

/-- The granule of register n is absent. -/
def State.absentAt (s : State) (g n : Nat) : Bool :=
  match s.gang? g with
  | none => false
  | some y =>
    if n < 64 then y.absent.getLsbD (n / 8)
    else match y.ext, s.crew? y.crew with
      | some b, some c => match c.ext[b]? with
        | some e => e.absent.getLsbD ((n - 64) / 8)
        | none => false
      | _, _ => false

/-- The granule of register n is marked present. -/
def State.markPresent (s : State) (g n : Nat) : State :=
  match s.gang? g with
  | none => s
  | some y =>
    if n < 64 then s.setGang g { y with absent := y.absent &&& ~~~(1#8 <<< (n / 8)) }
    else match y.ext, s.crew? y.crew with
      | some b, some c => match c.ext[b]? with
        | some e =>
          s.setCrew y.crew { c with ext := c.ext.set b { e with absent := e.absent &&& ~~~(1#16 <<< ((n - 64) / 8)) } }
        | none => s
      | _, _ => s

/-- The granule of register n is filled from the save area when it is absent, with the stores that the gang itself holds
(R229); a failure of the context area's translation is reported, and the state is the one that the report leaves (R33,
R359, R385). -/
def State.fillGranule (s : State) (g n : Nat) : Except State State :=
  if !s.absentAt g n then .ok s
  else match s.gang? g, s.kernel (.gang g) with
    | some y, some k =>
      let first := n / 8 * 8
      let base := s.saveBase (.gang g)
      let slot (r : Nat) : W64 := saveSlot base k.gangs y.gidx (y.ext.getD 0) r
      match (s.heldView g).ctxLoad (s.who (.gang g)) (slot first) 1024 with
      | .error e => .error (s.areaMiss (.gang g) e)
      | .ok bs =>
        let s := (List.range 8).foldl (fun s i =>
          (s.setVreg g (first + i) (vecOf (bs.drop (128 * i)))).regWritten g (first + i) (BitVec.allOnes 32)) s
        .ok ((s.dropPeer (.ctx (.gang g))).markPresent g n)
    | _, _ => .ok s

/-- The granules of registers are filled in order. -/
def State.fillAll (s : State) (g : Nat) : List Nat → Except State State
  | [] => .ok s
  | n :: ns => match s.fillGranule g n with
    | .error s => .error s
    | .ok s => State.fillAll s g ns

/-! ## Runs (R58, R366) -/

/-- The gang gives up its issue slot. -/
def State.freeIssue (s : State) (g : Nat) : State :=
  let c := s.core (coreOf g)
  s.setCore (coreOf g) { c with issue := c.issue.map fun x => if x = some g then none else x }

/-- What the run's next word waits for is noted (R366). -/
def State.stallRun (s : State) (g : Nat) (x : Stall) : State :=
  match s.gang? g with
  | none => s
  | some y => s.setGang g { y with run := y.run.map fun r => { r with stall := some x } }

/-- A lane word waits unless the condition holds, and its run can continue when it does (R366). -/
def holdUntil (b : Bool) (s : State) (g : Nat) (x : Stall) : Act Unit :=
  if b then .ok () else .error (.wait (s.stallRun g x))

/-- The run waits mid-way: it gives up its issue slot and is resumed later (R58). -/
def State.runWaits (s : State) (g : Nat) : State :=
  match s.gang? g with
  | none => s
  | some y => (s.setGang g { y with run := y.run.map fun r => { r with waiting := true } }).freeIssue g

/-- The run ends: the issue slot is free, and the late faults of its words are due (R58, R205). -/
def State.runEnds (s : State) (g : Nat) (slot : Fin 2) : State :=
  match s.gang? g with
  | none => s
  | some y =>
    (s.setGang g { y with run := none, lastSlot := slot,
                          var := y.var.map fun v => if v.slot = slot then { v with ended := true } else v,
                          late := y.late.map fun f => if f.slot = slot then { f with due := true } else f }).freeIssue g

/-- A word has issued: the slot goes on at the next index after its stall count, a repeated body returns to its first
word (R135), and the run counts the word and ends with E or as the 24th (R58, R59). -/
def State.advance (s : State) (c : LaneCtx) : State :=
  match s.gang? c.g with
  | none => s
  | some y =>
    let l := y.lpc[c.slot]
    let next := c.index + 1
    let back : Option Arm := match y.arm with
      | some a => if a.active && next == a.start + a.len && a.left != 0 then some { a with left := a.left - 1 } else none
      | none => none
    let l := { l with earliest := c.now + c.info.hdr.stall.val + 1,
                      index := match back with
                        | some a => a.start
                        | none => next,
                      fresh := back.isSome, wait := .none, got := [], lines := [] }
    let words := (y.run.map (·.words)).getD 0 + 1
    let y := { y with lpc := y.lpc.set c.slot l, arm := match back with
                        | some a => some a
                        | none => y.arm,
                      run := y.run.map fun r => { r with words := words } }
    let s := s.setGang c.g y
    if c.info.hdr.e || words == 24 then s.runEnds c.g c.slot else s

/-- Token n is set once (R61). -/
def State.addToken (s : State) (g n : Nat) : State :=
  match s.gang? g with
  | none => s
  | some y =>
    if h : 0 < n ∧ n ≤ 6 then
      have hn : n - 1 < 6 := by omega
      s.setGang g { y with tokens := y.tokens.set (n - 1) (y.tokens[n - 1] + 1) }
    else s

/-- Token n of a gang. -/
def Gang.token (y : Gang) (n : Nat) : Nat :=
  if h : 0 < n ∧ n ≤ 6 then
    have hn : n - 1 < 6 := by omega
    y.tokens[n - 1]
  else 0

/-! ## Precise faults -/

/-- A fault of the word at issue: every earlier word of the gang completes, and the resume point is the word itself
(R65, R205). It waits while an earlier word's remote answer is out, or while the scalar
stream is in the midst of an instruction. -/
def State.laneTrap (s : State) (g : Nat) (slot : Fin 2) (index : Nat) (t : Trap) : State :=
  match s.gang? g with
  | none => s
  | some y =>
    if !y.mayTrap || s.killHeld (.gang g) then s
    else (s.runWaits g).takeTrap (.gang g) t
      { faddr := BitVec.ofNat 64 index, sres := y.sc.pc, lane := some (slot, index) }

/-! ## Issue -/

/-- The feature that a lane word belongs to (R75). -/
def laneFeature : Instr → Option Feature
  | .gproj _ _ _ _ | .pproj _ _ _ _ | .geval _ _ _ _ | .gblend _ _ _ _ _ | .gback _ _ _ _ _ _ | .gscat _ _ _ _ _ _
  | .rgen _ _ _ _ | .trace _ _ _ _ _ _ | .rayld _ _ _ _ _ _ | .rayst _ _ _ _ _ _ | .hitq _ _ _ _ | .rpush _ _ _
  | .rpop _ _ _ | .fbw _ _ _ _ _ _ => some .render
  | .qpackBx8 _ _ _ _ _ | .qpackBx6 _ _ _ _ _ | .qpackBx4 _ _ _ _ _ | .qunpackBx8 _ _ _ _ _ _
  | .qunpackBx6 _ _ _ _ _ _ | .qunpackBx4 _ _ _ _ _ _ | .bxdotBx8 _ _ _ _ _ _ _ _ | .bxdotBx6 _ _ _ _ _ _ _ _
  | .bxdotBx4 _ _ _ _ _ _ _ _ => some .blockfp
  | _ => none

/-- The fault that depends only on the word and the gang's bindings, first in the order of R77 (R68). -/
def State.laneFault (s : State) (g : Nat) (y : Gang) (index : Nat) (i : Instr) (li : LaneInfo) : Option Code :=
  let inBody : Bool := match y.arm with
    | some a => a.active && a.start ≤ index && index < a.start + a.len
    | none => false
  if !(match laneFeature i with
    | some f => s.hasFeature (.gang g) f
    | none => true) then some .illegalOp
  else if li.ends && inBody then some .illegalOp
  else if y.ext.isNone && (wordNames li).any fun d => match d.vnum with
    | some n => decide (64 ≤ n)
    | none => false then some .extreg
  else if queueFault y i li then some .queueMap
  else if stallShort y li then some .stallShort
  else none

/-- The lanes of a slot for which the guard holds (R66). A predicate that a pending `var` word is to write is read as it
stands (log 46). -/
def guardLanes (s : State) (g : Nat) (h : LaneHdr) (act : Mask) : Mask :=
  act &&& (if h.gn then ~~~(s.preg g h.gp) else s.preg g h.gp)

/-- The registers as a word reads them: a pending `var` result stands or not, lane by lane (R64; log 2). -/
def State.readView (s : State) (g : Nat) : State :=
  match s.gang? g with
  | none => s
  | some y => y.var.foldl (fun s v => (v.writes.filter fun w => !w.pushes).foldl (fun s w =>
      let (m, s) := s.free
      s.landWrite g { w with mask := w.mask &&& BitVec.ofNat 32 m }) s) s

/-- A late fault whose word's token this word waits on is due (R205). -/
def State.dueOnToken (s : State) (g : Nat) (slot : Fin 2) (wm : BitVec 6) : State :=
  match s.gang? g with
  | none => s
  | some y => s.setGang g { y with late := y.late.map fun f =>
      if f.slot = slot ∧ 0 < f.token ∧ wm.getLsbD (f.token - 1) then { f with due := true } else f }

/-- The latency of a fixed-latency word. -/
def latCycles : Lat → Nat
  | .fix l => l
  | .var => 0

/-- The word writes its registers a fixed time after its issue. -/
def isFixLat : Lat → Bool
  | .fix _ => true
  | .var => false

/-- The names that a fixed-latency word writes stay pending although no lane is enabled (R65). -/
def State.addIdle (s : State) (c : LaneCtx) : State :=
  let ds := destNames c.info
  if !isFixLat c.info.lat || ds.isEmpty then s
  else match s.gang? c.g with
    | none => s
    | some y => s.setGang c.g { y with fix := y.fix ++
        [{ writes := ds.map fun d => { dst := d, mask := 0, vals := laneConst 0 },
           landAt := c.now + latCycles c.info.lat, token := 0 }] }

/-- The issue of the word i of the slot that `cur` names, with its effect `body` on the enabled lanes. A control word
has its own successor, so `body` makes it. A word that waits takes no entry of a queue before it completes (log 15). The
outcome is the state after the word, the state in which the word waits, or the trap it raises. -/
def laneIssue (s : State) (i : Instr) (ctl : Bool) (body : LaneCtx → State → Act State) : Out :=
  match s.cur, i.laneInfo with
  | .lane g slot, some li => match s.gang? g with
    | none => .fault .noIssuer
    | some y =>
      let now := s.clk.arith
      let l := y.lpc[slot]
      if !l.live || now < l.earliest || (match l.wait with
        | .nap t => decide (now < t)
        | .none => false
        | .asleep | .polling | .remote _ => true) then .next s
      else
        let s := s.landFix g now
        match s.gang? g with
        | none => .fault .noIssuer
        | some y =>
          if l.fresh && !y.fix.isEmpty then .next s
          else match s.laneFault g y l.index i li with
            | some c => .next (s.laneTrap g slot l.index { code := c })
            | none =>
              let en := guardLanes s g li.hdr l.mask
              let s := s.dueOnToken g slot li.hdr.wm
              let tokensClear := (List.range 6).all fun n => !li.hdr.wm.getLsbD n || y.token (n + 1) == 0
              if (s.gang? g).any (fun z => z.late.any (·.due)) || !tokensClear || y.token li.hdr.st.val == 63 then
                .next (s.runWaits g)
              else
                let c : LaneCtx := { g := g, slot := slot, index := l.index, act := l.mask, en := en, now := now,
                                     info := li, view := s, pops := [] }
                if en == 0 && !ctl then .next ((s.addIdle c).advance c)
                else if !ctl && s.fencedQueue y g li then .next (s.laneTrap g slot l.index { code := .owner })
                else match s.popAll g y li.pops with
                  | none => .next (s.runWaits g)
                  | some (pops, s') => match s'.fillAll g ((wordNames li).filterMap LaneDst.vnum) with
                    | .error t => .next t
                    | .ok s' =>
                      if ((readNames li).filterMap LaneDst.vnum).any fun n => s'.regPoisoned g n en then
                        .next (s.laneTrap g slot l.index { code := .ecc })
                      else match body { c with view := s'.readView g, pops := pops } s' with
                      | .ok t => .next t
                      | .error (.wait t) => .next ({ t with clusters := s.clusters, dies := s.dies }.runWaits g)
                      | .error (.trap t) => .next (s.laneTrap g slot l.index t)
  | _, _ => .fault .noIssuer

/-- The results of a fixed-latency word are pending until they land (R59); its token with them (R61). -/
def State.addFix (s : State) (c : LaneCtx) (l : Nat) (ws : List LaneWrite) : State :=
  let st := c.info.hdr.st.val
  if ws.isEmpty && st == 0 then s
  else match s.gang? c.g with
    | none => s
    | some y =>
      (s.setGang c.g { y with fix := y.fix ++ [{ writes := ws, landAt := c.now + l, token := st }] }).addToken c.g st

/-- The free value number of the read view's choices is not used again. -/
def State.skipChoice (s t : State) : State := { s with choice := max s.choice t.choice }

/-- The entry that a word pushes goes to its queue; none while the endpoint cannot take it (R29). -/
def State.pushResult (s : State) (c : LaneCtx) (o : LaneOut) : Option State :=
  match c.info.push, o.push with
  | some q, some v => s.pushQueue c.g q v c.en
  | _, _ => some s

/-- A fixed-latency word: f gives its results from its operands, and a push waits until the endpoint takes it. -/
def laneFix (s : State) (i : Instr) (f : LaneCtx → LaneOut) : Out :=
  laneIssue s i false fun c s =>
    let o := f c
    let s := s.skipChoice c.view
    match s.pushResult c o with
    | none => .error (.wait s)
    | some s => .ok ((s.addFix c (latCycles c.info.lat) o.writes).advance c)

/-- A word of one 32-bit result: f gives it lane by lane. -/
def lane32 (s : State) (i : Instr) (d : Opd) (f : LaneCtx → Fin 32 → W32) : Out :=
  laneFix s i fun c => c.put d (f c)

end Sys2Proof.Machine
end

