-- ==== Sys2Proof/Machine/Fetch.lean ====
section
/-!
DEFINITION. What moves next and what it executes: the turn of the agenda (log 1), the streams that may issue (R366 to
R369, R375, R376), the fetch and decoding of their words (R48 to R54, R76, R94), and the placing of a program that
`State.withFetchWord` makes (log 12).
-/

namespace Sys2Proof.Machine

/-! ## Turns -/

/-- The clocks after a passage of time. -/
def Clocks.pass (c d : Clocks) : Clocks :=
  { arith := c.arith + d.arith, refc := c.refc + d.refc, cache := c.cache + d.cache, link := c.link + d.link,
    hours := c.hours + d.hours, hm := c.hm + d.hm }

/-- Free turn number n (log 1). -/
def freeTurn (n : Nat) : Agenda :=
  let t := Config.turnTime n
  { pass := { arith := t.getD 0 0, refc := t.getD 1 0, cache := t.getD 2 0, link := t.getD 3 0, hours := t.getD 4 0,
              hm := t.getD 5 0 },
    turn := match Config.turnKind n with
      | 0 => .gang (Config.turnArgs n).1
      | 1 => .pilot (Config.turnArgs n).1
      | 2 => .lane (Config.turnArgs n).1 (Config.turnArgs n).2
      | 3 => match Config.turnEvent n with
        | some e => .event e
        | none => .idle
      | _ => .idle }

/-- Time passes, but not beyond the end of a switch's count: in another arithmetic cycle no stream has had a turn yet (R434). -/
def State.pass (s : State) (d : Clocks) : State :=
  { s with clk := s.clk.pass { d with link := s.linkSteps d.link }, ticked := if d.arith = 0 then s.ticked else [] }

/-- The stream of a turn: whether it is a gang's lane stream, and the gang; a pilot has a number above every gang's. -/
def State.turnOf (s : State) : Turn → Option (Bool × Nat)
  | .gang g => some (false, g)
  | .lane core slot => ((s.core core).issue.toList.getD slot none).map fun g => (true, g)
  | .pilot cl => some (false, 8192 + cl)
  | .event _ | .idle => none

/-- The turns of one cycle go by ascending gang slot: one that would come behind a higher slot of its die, or a second
one of a gang or a pilot, is of the next cycle (R52, R78, R154, R167). -/
def State.tick (s : State) (t : Turn) : State :=
  match s.turnOf t with
  | none => s
  | some k =>
    let behind (e : Bool × Nat) : Bool := e.1 == k.1 && dieOf (clusterOf (coreOf e.2)) == dieOf (clusterOf (coreOf k.2))
      && (decide (k.2 < 8192 ∧ k.2 % 32 < e.2 % 32) || e.2 == k.2)
    if s.ticked.any behind then { s with clk := { s.clk with arith := s.clk.arith + 1 }, ticked := [k] }
    else { s with ticked := k :: s.ticked }

/-- The turn at the head of the agenda, or a free one, and the state in which it is made: the time before it has
passed. -/
def State.turn (s : State) : Turn × State :=
  match s.agenda with
  | t :: rest => (t.turn, ({ s with agenda := rest }.pass t.pass).tick t.turn)
  | [] =>
    let t := freeTurn s.choice
    (t.turn, ({ s with choice := s.choice + 1 }.pass t.pass).tick t.turn)

/-- An event of the package: it is neither a scalar nor a lane instruction. -/
def isEvent (i : Instr) : Bool := i.laneInfo.isNone && (encodeScalar i).isNone

/-! ## Streams that may issue -/

/-- The units of a cluster stand still while its island is gated (R455). -/
def State.gated (s : State) (cl : Nat) : Bool :=
  s.harbour.power.coolantOut ||
    match s.harbour.power.islands.get? (32 * dieOf cl + cl % 16) with
    | some i => i.gated || i.fenced
    | none => false

/-- A stream in this wait executes its instruction again when its turn comes; the others wait for an event (R369). -/
def ScalarWait.rechecks : ScalarWait → Bool
  | .none | .stall | .fbarRead _ | .drain _ | .barDone | .granted _ | .launchGranted _ _ _ | .accDone _ | .fbarDone _ | .answered _
  | .answerErr _ | .casBack _ _ => true
  | .asleep _ | .polling | .barWait _ _ | .grant _ | .launchSlot _ _ _ | .acc | .fbar | .remote _ | .casOut _ _ => false

/-- The grid of a key is live and has not been stopped (R380). -/
def State.running (s : State) (k : Nat) : Bool :=
  match s.grid? k with
  | some x => !x.stopped
  | none => false

/-- The gang issues, its scalar stream when `scalar` holds and its lane streams otherwise: its crew is resident and not
retiring, its grid runs, and neither a kill nor a save routine holds it (R136, R305, R366, R380, R382). A kill waits for
a gang in handler mode, and for a scalar instruction that has taken an effect (R386). -/
def State.gangIssues (s : State) (g : Nat) (scalar : Bool) : Bool :=
  match s.gang? g with
  | none => false
  | some y => match s.crew? y.crew with
    | none => false
    | some c => !c.ending && s.running c.grid && (!y.frozen || y.sc.mode.isSome || (scalar && !y.sc.wait.interruptible))
        && y.parked.isNone && !s.gated (clusterOf (coreOf g))

/-- The scalar stream may execute its instruction now. -/
def State.scalarReady (s : State) (a : Issuer) : Bool :=
  match a with
  | .gang g => s.gangIssues g true && match s.gang? g with
    | some y => (!y.faultDue || !y.sc.wait.interruptible) && y.sc.wait.rechecks
    | none => false
  | .pilot cl => match s.pilot? cl with
    | some p => s.running p.grid && p.sc.wait.rechecks && !s.gated cl
    | none => false

/-- The rank of a gang in an arbitration (R368): promotion, class, placement, gang index; the lowest wins. -/
def State.rank (s : State) (y : Gang) (promoted : Option Nat) : List Nat :=
  let c := s.crew? y.crew
  let cls := match c with
    | some x => ((s.grid? x.grid).map (·.cls)).getD 0
    | none => 0
  (match promoted with
    | some n => [0, n]
    | none => [1, 0]) ++ [cls, (c.map (·.order)).getD 0, y.gidx]

/-- The lists in the order of their first different entries. -/
def rankBefore : List Nat → List Nat → Bool
  | a :: l, b :: m => decide (a < b) || a == b && rankBefore l m
  | _, _ => false

/-- The gang of lowest rank in a list. -/
def State.bestOf (s : State) (promoted : Gang → Option Nat) (l : List (Nat × Gang)) : Option (Nat × Gang) :=
  l.foldl (fun b e => match b with
    | none => some e
    | some x => if rankBefore (s.rank e.2 (promoted e.2)) (s.rank x.2 (promoted x.2)) then some e else some x) none

/-- The stream is in the midst of its instruction: it waits, or it has slept and is to check its condition again
(R369). -/
def ScalarCtx.midway (c : ScalarCtx) : Bool := c.wait != .none || c.slept == some c.pc

/-- The gangs of a core whose scalar streams take part in the arbitration for its issue ports: a stream that waits in an
instruction does not (R368, R369). -/
def State.scalarEligible (s : State) (core : Nat) : List (Nat × Gang) :=
  s.gangs.filter fun e => coreOf e.1 == core && s.scalarReady (.gang e.1) && !e.2.sc.midway

/-- The two gangs that win the scalar issue ports of a core (R368). -/
def State.scalarWinners (s : State) (core : Nat) : List Nat :=
  let l := s.scalarEligible core
  match s.bestOf (·.spromoted) l with
  | none => []
  | some (g, _) => match s.bestOf (·.spromoted) (l.filter fun e => e.1 != g) with
    | none => [g]
    | some (h, _) => [g, h]

/-- A lost arbitration for a scalar issue port; at 4,096 of them the gang is promoted, as number n (R368). -/
def Gang.scalarLoses (y : Gang) (n : Nat) : Gang :=
  { y with slost := y.slost + 1,
           spromoted := if y.spromoted.isNone && y.slost + 1 == 4096 then some n else y.spromoted }

/-- A winner's count starts anew (R368). -/
def Gang.scalarWins (y : Gang) : Gang := { y with slost := 0, spromoted := none }

/-- The scalar issue ports of a core are arbitrated, once in a cycle (R368). -/
def State.scalarArbitrate (s : State) (core : Nat) : State :=
  let u := s.core core
  if u.sports.cycle = s.clk.arith + 1 then s
  else
    let win := s.scalarWinners core
    let lose := (s.scalarEligible core).map (·.1)
    let (n, t) := s.fresh
    let one (e : Nat × Gang) : Nat × Gang :=
      if win.contains e.1 then (e.1, e.2.scalarWins)
      else if lose.contains e.1 then (e.1, e.2.scalarLoses n) else e
    { t with gangs := s.gangs.map one }.setCore core { u with sports := { cycle := s.clk.arith + 1, win := win } }

/-- The stream is at its instruction anew. -/
def State.clearSlept (s : State) (a : Issuer) : State :=
  match s.sctx a with
  | some c => if c.slept.isNone then s else s.setSctx a { c with slept := none }
  | none => s

/-- A scalar stream takes an issue port: whether it may execute its instruction now. A stream that checks the condition
of a wait again needs none, nor does a pilot (R18, R369). -/
def State.takePort (s : State) (a : Issuer) : Bool × State :=
  match a, s.sctx a with
  | .gang g, some c =>
    if c.midway then (true, s.clearSlept a)
    else
      let s := s.scalarArbitrate (coreOf g)
      let u := s.core (coreOf g)
      if u.sports.win.contains g then
        (true, (s.setCore (coreOf g) { u with sports := { u.sports with win := u.sports.win.erase g } }).clearSlept a)
      else (false, s)
  | _, _ => (true, s)

/-- The gang and LPC slot whose run holds an issue slot of a core, when it may issue a word (R366, R376). -/
def State.laneReady (s : State) (core slot : Nat) : Option (Nat × Fin 2) :=
  match (s.core core).issue.toList.getD slot none with
  | none => none
  | some g => match s.gang? g with
    | none => none
    | some y => match y.run with
      | none => none
      | some r =>
        if s.gangIssues g false && !r.waiting && y.sc.mode != some .trap then some (g, r.slot) else none

/-! ## Fetch -/

/-- What a turn comes to: an instruction to execute in a state, or a state in which nothing is executed. -/
inductive Prep where
  | run (i : Instr) (s : State)
  | stay (s : State)
  deriving DecidableEq, Repr

/-- The bytes of a word that an issuer fetches (R48, R54): no race check is made (log 16). Of another package it takes the
line that it has learned (R293). After a write to the program a fetch takes the new contents, of the old and the new
that R94 allows, but for a line of another package that it has learned before (log 48). -/
def State.fetchBytes (s : State) (a : Issuer) (r : Reader) (va : W64) (n : Nat) : Except AccErr (List Byte × State) :=
  match s.access (s.who a) va n false false with
  | .ok (x, s) => .ok (s.readPa x.pa n, s)
  | .error (.remote x) => match s.peerLine r x with
    | some bs => .ok ((bs.drop (x.pa % 128)).take n, s)
    | none => .error (.remote x)
  | .error e => .error e

/-- A stream asks another package for the next line of its program; it keeps at most three. -/
def State.askFetch (s : State) (r : Reader) (e : AccErr) : State :=
  (if ((s.peer.filter fun x => x.by_ == r).length < 3) then s else s.dropPeer r).askPeer r e

/-- The line of a word is in another package and has not been learned. -/
def AccErr.isRemote : AccErr → Bool
  | .remote _ => true
  | _ => false

/-- The scalar word at an address, with the second word of a long form (R48, R51). -/
def State.fetchScalar (s : State) (a : Issuer) (pc : W64) : Except AccErr (Nat × Nat × State) :=
  match s.fetchBytes a (.scalar a) pc 4 with
  | .error e => .error e
  | .ok (bs, s) =>
    if isLong (leNat bs) then
      match s.fetchBytes a (.scalar a) (pc + 4) 4 with
      | .error e => .error e
      | .ok (cs, s) => .ok (leNat bs, leNat cs, s)
    else .ok (leNat bs, 0, s)

/-- The lane word at an address: 96 bits in three words (R54). -/
def State.fetchLane (s : State) (a : Issuer) (r : Reader) (va : W64) : Except AccErr (Nat × State) :=
  match s.fetchBytes a r va 4 with
  | .error e => .error e
  | .ok (b0, s) => match s.fetchBytes a r (va + 4) 4 with
    | .error e => .error e
    | .ok (b1, s) => match s.fetchBytes a r (va + 8) 4 with
      | .error e => .error e
      | .ok (b2, s) => .ok (leNat (b0 ++ b1 ++ b2), s)

/-- The turn of a scalar stream: the instruction at SPC, or the fault of its address, its fetch or its encoding
(R48, R76, R128, R300). -/
def State.prepareScalar (s : State) (a : Issuer) : Prep :=
  if !s.scalarReady a then .stay s
  else if !(s.takePort a).1 then .stay (s.takePort a).2
  else let s := (s.takePort a).2; match s.sctx a with
    | none => .stay s
    | some c =>
      let cur : Cur := match a with
        | .gang g => .gang g
        | .pilot cl => .pilot cl
      let s := { s with cur := cur }
      let trap (s : State) (t : Trap) : Prep :=
        .stay (if s.killHeld a then s
          else if s.mayTrap a then s.takeTrap a t { faddr := c.pc, sres := c.pc, lane := none } else s)
      if c.pc.toNat % 4 ≠ 0 then trap s { code := .align }
      else match s.fetchScalar a c.pc with
        | .error e => match e.isRemote, c.wait with
          | false, _ => trap s (accTrap c.pc e)
          | true, .answerErr t => trap s { t with va := c.pc }
          | true, _ => .stay (s.askFetch (.scalar a) e)
        | .ok (w, w1, s) => match decodeScalar w w1 with
          | .error _ => trap s { code := .illegalOp }
          | .ok i => .run i s

/-- The address of lane word n of an issuer's kernel (R54, R90). -/
def Kernel.laneAt (k : Kernel) (n : Nat) : W64 := k.image + BitVec.ofNat 64 (k.laneOff + 12 * n)

/-- The turn of a lane issue slot: the word of the run's LPC slot, or the fault of its index, its fetch or its
encoding (R76, R144, R205). -/
def State.prepareLane (s : State) (core slot : Nat) : Prep :=
  match s.laneReady core slot with
  | none => .stay s
  | some (g, sl) => match s.gang? g, s.kernel (.gang g) with
    | some y, some k =>
      let l := y.lpc[sl]
      let s := { s with cur := .lane g sl }
      if !l.live then .stay s
      else if k.laneCount ≤ l.index then .stay (s.laneTrap g sl l.index { code := .range })
      else match s.fetchLane (.gang g) (.slot g sl.val) (k.laneAt l.index) with
        | .error e => .stay (if e.isRemote then s.askFetch (.slot g sl.val) e
            else s.laneTrap g sl l.index (accTrap (k.laneAt l.index) e))
        | .ok (w, s) => match decodeLane w with
          | .error _ => .stay (s.laneTrap g sl l.index { code := .illegalOp })
          | .ok i => .run i s
    | _, _ => .stay s

/-- What the next turn comes to (log 1). -/
def State.prepare (s : State) : Prep :=
  match s.turn with
  | (.gang g, s) => s.prepareScalar (.gang g)
  | (.pilot cl, s) => s.prepareScalar (.pilot cl)
  | (.lane core slot, s) => s.prepareLane core slot
  | (.event e, s) => if isEvent e then .run e { s with cur := .none } else .stay s
  | (.idle, s) => .stay s

/-! ## A program placed for its first instruction (log 12) -/

/-- The kernel of the placed program: `.text` at 0x100, lane words at 0x200, no handler. -/
def placedKernel : Kernel :=
  { image := 0, textOff := 0x100, textSize := 0x100, laneOff := 0x200, laneCount := 4, sentry := 0, pentry := 0,
    handler := 0xFFFFFFFF, phandler := 0xFFFFFFFF, gangs := 1, barriers := 16, depth := 0, payload := 0, dstack := 16,
    nsafe := 0, safe := [], replay := false, pilot := true, part := { total := 4, ext := 0, acc := 0, rf := 4 } }

/-- The grid of the placed program. -/
def placedGrid : Grid :=
  { id := 0, asid := 1, part := 0, die := 0, cls := 0, parent := none, launched := [], live := 0, phase := 0,
    weight := 0, nest := 0, args := 0, ncrew := 1, conv := 0, coop := false, kernel := placedKernel, placed := 1,
    retired := 0, pilots := [0], stopped := false, killed := false, order := 0, queue := 0 }

/-- The crew of the placed program. -/
def placedCrew : Crew :=
  { tag := 1, grid := 0, index := 0, part := placedKernel.part, unit := 0, gangs := [some 0], slots := [0], wgt := 0,
    bars := List.replicate 16 { pend := 0, phase := false, expect := 1, arrived := 0 }, tiles := [], ext := [],
    acqs := [], seq := 0, log := [], ctx := 0x10000, ctxLen := 0x10000, preempt := none, order := 0, ending := false }

/-- A scalar context at an address, every register 0. -/
def ScalarCtx.start (pc trapslot : W64) : ScalarCtx :=
  { pc := pc, s := Vector.replicate 64 0, k := Vector.replicate 4 false, mode := none, wait := .none,
    trapslot := trapslot }

/-- An LPC slot that holds nothing. -/
def Lpc.off : Lpc := { live := false, index := 0, mask := 0, earliest := 0, fresh := false, wait := .none, got := [],
                       lines := [] }

/-- A gang at its start with a scalar context (R46, R363). -/
def Gang.start (crew gidx : Nat) (sc : ScalarCtx) : Gang :=
  { crew := crew, gidx := gidx, sc := sc, lpc := Vector.replicate 2 Lpc.off, queue := [], arm := none, killed := 0,
    v := Vector.replicate 64 (laneConst 0), p := Vector.replicate 7 0, ext := none, qmap := Vector.replicate 16 0,
    cursor := Vector.replicate 16 0, chk := false, tokens := Vector.replicate 6 0, fix := [], var := [], late := [],
    dbase := 0, depth := 0, napCursor := none, run := none, lastSlot := 1, lost := 0, promoted := none,
    slost := 0, spromoted := none,
    held := [], commits := [], heldBytes := 0, region := 0, replay := none, absent := 0, parked := none, redo := [],
    frozen := false }

/-- Memory with the page tables of address space 1 at 0x30000000: one page of 1 GiB maps address 0 to frame 0. -/
def placedTables (pkg : Nat) (m : Memory) : Memory :=
  ((m.store 0x30000010 (leBytes 16 (2 ^ 64 + 0x30020000))).store 0x30020000
    (leBytes 16 (1 + 0x30040000 / 512 * 2 ^ 9))).store 0x30040000
    (leBytes 16 (2 + 2 ^ 96 + 15 * 2 ^ 100 + pkg % 4096 * 2 ^ 104))

/-- The program's grid, crew, gang and pilot on core 0, its page tables, and its features accepted. -/
def State.place (s : State) : State :=
  let lines := s.lines.filter fun e => decide (0x40000000 / 128 ≤ e.1)
  let c := s.core 0
  let d := s.die 0
  let one (x : Vector W64 4) : Vector W64 4 := x.set 0 0x1F
  let s := { s with mem := placedTables s.ident.pkg s.mem, lines := lines,
                    tun := s.tun.filter fun t => decide (0x40000000 ≤ t.addr),
                    poison := s.poison.filter fun g => decide (0x40000000 / 8 ≤ g),
                    xlat := { s.xlat with astbase := 0x30000000 },
                    ident := { s.ident with facc := one s.ident.facc },
                    launch := { s.launch with pf := one s.launch.pf },
                    harbour := { s.harbour with power := { s.harbour.power with coolantOut := false, islands := [] } } }
  let s := (s.setCore 0 { c with tlb := [], l1 := [], sports := { cycle := 0, win := [] } }).setDie 0
    { d with tcache := [], nodes := [] }
  let s := (s.setGrid 0 placedGrid).setCrew 0 placedCrew
  let s := s.setGang 0 (Gang.start 0 0 (ScalarCtx.start 0x100 0x10000))
  s.setPilot 0 { grid := 0, sc := ScalarCtx.start 0x100 0x20000, chk := false, ctx := 0x20000 }

/-- The program's lane block in LPC slot 0, its run holding issue slot 0 of core 0. -/
def State.placeRun (s : State) : State :=
  match s.gang? 0 with
  | none => s
  | some y =>
    let c := s.core 0
    (s.setGang 0 { y with lpc := y.lpc.set 0 { Lpc.off with live := true, mask := BitVec.allOnes 32 },
                          run := some { slot := 0, words := 0, waiting := false } }).setCore 0
      { c with issue := c.issue.set 0 (some 0) }

/-- The one turn that runs the placed instruction. -/
def placedTurn (t : Turn) : List Agenda := [{ pass := Clocks.zero, turn := t }]

/-- A scalar word that is legal in pilots only (R74). -/
def pilotWord (w : Nat) : Bool :=
  let op := fld w 25 7
  (0x70 ≤ op && op ≤ 0x78) || (op == 0x7A && fld w 0 7 != 0)

/-- An instruction's word placed where the next step fetches it. -/
def State.placeWord (s : State) (nbits w : Nat) : State :=
  let s := s.place
  if nbits > 64 then
    { { s with mem := s.mem.store 0x200 (leBytes 12 w) }.placeRun with agenda := placedTurn (.lane 0 0) }
  else
    let w := w % 2 ^ nbits
    { s with mem := s.mem.store 0x100 (leBytes 8 w),
             agenda := placedTurn (if pilotWord w then .pilot 0 else .gang 0) }

end Sys2Proof.Machine
end

