-- ==== Sys2Proof/Machine/Scalar.lean ====
section
/-!
DEFINITION. What scalar instructions share: register results, jumps (R134), accesses of one address with their
requests to other packages (R137 to R142, R425), sleeping on a line (R292), weight (R161) and grid lookups.
-/

namespace Sys2Proof.Machine

/-- An instruction of n bytes that writes sd (R52, R127). -/
def scalarReg (s : State) (n : Nat) (d : SReg) (f : ScalarCtx → W64) : Out :=
  scalar s .any [] fun a c => do
    s.interlock a d
    .ok ((s.putS a d (f c)).next a c.pc n)

/-- A result in sd, after the interlock, and the stream goes on (R52). -/
def State.finish (s : State) (a : Issuer) (c : ScalarCtx) (n : Nat) (d : SReg) (v : W64) : State :=
  (s.putS a d v).next a c.pc n

/-- The stream goes to a target, which must be word-aligned and lie in `.text`; f makes the link first (R134). -/
def State.jump (s : State) (a : Issuer) (target : W64) (link : State → State) : Act State := do
  require (target.toNat % 4 == 0) .align
  require (s.inText a target) .range
  .ok ((link s).goto a target)

/-- The byte address of an operand: sa plus an offset (R137). -/
def ScalarCtx.addr (c : ScalarCtx) (a : SReg) (off : W64) : W64 := c.get a + off

/-- The address is a multiple of n, or ALIGN (R137). -/
def aligned (va : W64) (n : Nat) : Act Unit :=
  if va.toNat % n = 0 then .ok () else raise { code := .align, va := va }

/-- The packet of a scalar access to another package (R423, R425). -/
def State.scalarPacket (s : State) (x : Xl) (op : Opc) (payload : List Byte) (sc : Scope) (o : Order) (aop : Nat)
    (n : Nat) : FabPacket :=
  { s.packet x.home op payload with
    keyid := x.key, pa := if op == .rd || op == .wr || op == .atm then x.pa / 128 * 128 else x.pa, scope := sc, ord := o,
    aop := aop, sz := match n with
      | 1 => .b8
      | 2 => .b16
      | 4 => .b32
      | _ => .b64 }

/-- The request of a scalar stream goes out, and the stream waits for the answer (R425). -/
def State.ask {α : Type} (s : State) (a : Issuer) (p : FabPacket) (wait : Nat → ScalarWait) : Act α :=
  if s.streamRoom p.dpkg then
    let (rid, t) := s.request p (.scalar a) (p.pa / 128) []
    .error (.wait (t.setWait a (wait rid)))
  else .error (.wait s)

/-- The bytes of a line of another package as the gang's own loads see them, none where it holds no effect on the line
(R229). -/
def State.ownLine (s : State) (w : Who) (x : Xl) (line : List Byte) : Option (List Byte) :=
  match w.own.bind s.gang? with
  | none => none
  | some y =>
    let own := (s.heldSegs w y).filter fun e => e.2.any fun g => g.home == x.home && g.line == lineOf x.pa
    if own.isEmpty then none else some (ownView own (x.home, lineOf x.pa, line)).2.2

/-- A scalar read of a line of another package on which the gang holds effects: the line is learned first (R229). -/
def State.readOwn (s : State) (a : Issuer) (x : Xl) (n : Nat) : Act (List Byte × State) :=
  let begun := (s.sctx a).any fun c => c.wait == .stall
  match begun, (s.peerLine (.scalar a) x).bind (s.ownLine (s.who a) x) with
  | true, some l => .ok ((l.drop (x.pa % 128)).take n, s.dropPeer (.scalar a))
  | true, none => .error (.wait (s.askPeer (.scalar a) (.remote x)))
  | false, _ => .error (.wait ((s.dropPeer (.scalar a)).askPeer (.scalar a) (.remote x)))

/-- The bytes of a scalar read within one line: at its home slice, or from the answer of another package. -/
def State.scalarRead (s : State) (a : Issuer) (c : ScalarCtx) (strong : Bool) (sc : Scope) (va : W64) (n : Nat) :
    Act (List Byte × State) :=
  match c.wait with
  | .answered bs => .ok ((bs.drop (va.toNat % 128)).take n, s)
  | .answerErr t => raise { t with va := va }
  | _ => match if strong then s.strongLoad (s.who a) va n else s.plainLoad (s.who a) va n with
    | .ok r => .ok r
    | .error (.remote x) =>
      if (s.ownLine (s.who a) x []).isSome then s.readOwn a x n
      else s.ask a (s.scalarPacket x .rd [] sc .relaxed 0 n) .remote
    | .error e => raise (accTrap va e)

/-- A plain scalar store within one line. One to another package is sent and not waited for: only a release orders it
(R426). -/
def State.scalarWrite (s : State) (a : Issuer) (va : W64) (bs : List Byte) : Act State :=
  match s.plainStore (s.who a) va bs with
  | .ok t => .ok t
  | .error (.remote x) =>
    let p := s.scalarPacket x .wr (wrPayload [(x.pa % 128, bs)]) .crew .relaxed 0 bs.length
    if s.streamRoom p.dpkg then .ok (s.request p (.store a false) (p.pa / 128) []).2 else .error (.wait s)
  | .error e => raise (accTrap va e)

/-- A 64-bit scalar atomic: its old value (R140). -/
def State.scalarAtomic (s : State) (a : Issuer) (c : ScalarCtx) (op : AtomOp) (o : Order) (sc : Scope) (va v cmp : W64) :
    Act (W64 × State) :=
  match c.wait with
  | .answered bs => .ok (word64 bs, s)
  | .answerErr t => raise { t with va := va }
  | _ => match s.atomic (s.who a) va 8 fun bs => bytes64 (atomValue op true (word64 bs) v cmp) with
    | .ok (bs, t) => .ok (word64 bs, t)
    | .error (.remote x) =>
      s.ask a (s.scalarPacket x .atm (atmEntry 0 (x.pa % 128) v cmp) sc o op.code 8) .remote
    | .error e => raise (accTrap va e)

/-- The waiter of a scalar stream (R292). -/
def Issuer.waiter : Issuer → Waiter
  | .gang g => .scalar g
  | .pilot cl => .pilot cl

/-- The line of an address for a monitor: of any package. -/
def State.monitorLine (s : State) (a : Issuer) (va : W64) : Nat :=
  match s.xlate (s.who a) va false with
  | .ok x => x.home * 2 ^ 35 + lineOf x.pa
  | .error _ => 0

/-- The instruction at which a stream sleeps (R369). -/
def State.setSlept (s : State) (a : Issuer) : State :=
  match s.sctx a with
  | some c => s.setSctx a { c with slept := some c.pc }
  | none => s

/-- The stream sleeps until the line's monitor fires, or polls while all 64 monitors of its core are armed (R292). -/
def State.sleep (s : State) (a : Issuer) (va : W64) : State :=
  let s := s.setSlept a
  let u := s.core a.core
  let l := s.monitorLine a va
  if u.monitors.length < 64 then
    (s.setCore a.core { u with monitors := u.monitors ++ [(a.waiter, l)] }).setWait a (.asleep l)
  else s.setWait a .polling

/-- The home of an address is another package (R142). -/
def State.isPeer (s : State) (a : Issuer) (va : W64) : Bool :=
  match s.xlate (s.who a) va false with
  | .ok x => x.home != s.ident.pkg
  | .error _ => false

/-! ## The issuer's crew and grid -/

/-- The crew of a gang, with its key. -/
def State.issuerCrew (s : State) (a : Issuer) : Option (Nat × Crew) :=
  match s.crewKey a with
  | none => none
  | some k => (s.crew? k).map fun y => (k, y)

/-- The grid of an issuer, with its key. -/
def State.issuerGridOf (s : State) (a : Issuer) : Option (Nat × Grid) :=
  match s.issuerGrid a with
  | none => none
  | some k => (s.grid? k).map fun y => (k, y)

/-! ## Weight (R161) -/

/-- The detaching of an amount from a crew's weight: the state after it, or the wait for a grant, whose waiting form
the instruction gives (R161). An answered grant of the amount needs no weight. -/
def State.detach (s : State) (a : Issuer) (granted : Bool) (x : W64) (wait : ScalarWait) : Act State :=
  if granted then .ok s
  else match s.issuerCrew a with
    | none => .ok s
    | some (k, y) =>
      if x = 0 then raise { code := .weight }
      else if x.toNat < y.wgt.toNat then .ok (s.setCrew k { y with wgt := y.wgt - x })
      else .error (.wait ({ s with grants := s.grants ++ [(a, x)] }.setWait a wait))

/-- Weight added to a crew (R159). -/
def State.addWeight (s : State) (a : Issuer) (x : W64) : State :=
  match s.issuerCrew a with
  | none => s
  | some (k, y) => s.setCrew k { y with wgt := y.wgt + x }

end Sys2Proof.Machine
end

