-- ==== Sys2Proof/Machine/Berth.lean ====
section
/-! DEFINITION. Berths and extended blocks: handles (R34 to R37), the berth instructions (R149 to R153, R242 to R244,
R343) and `xreg.acq`, `xreg.rel` (R154). -/

namespace Sys2Proof.Machine

/-! ## Entries and handles -/

/-- Berth idx of a core. -/
def State.berth (s : State) (core idx : Nat) : Berth := (s.core core).berths.getD idx Berth.new

def State.setBerth (s : State) (core idx : Nat) (b : Berth) : State :=
  let c := s.core core
  s.setCore core { c with berths := c.berths.set idx b }

/-- A handle resolved: the core, the index, and the entry. -/
structure BerthRef where
  core : Nat
  idx : Nat
  entry : Berth
  deriving DecidableEq, Repr

/-- The 16 bits of a handle (R34). -/
def handleOf (core idx : Nat) (gen : BitVec 7) : Nat := core % 4 * 2 ^ 14 + idx % 128 * 2 ^ 7 + gen.toNat

/-- The entry that a 16-bit handle names on a cluster, when its core is present and its GEN is the entry's (R34). -/
def State.handle (s : State) (cl h : Nat) : Option BerthRef :=
  let core := 4 * cl + fld h 14 2
  let idx := fld h 7 7
  let b := s.berth core idx
  if s.corePresent core && fld h 0 7 == b.gen.toNat then some { core := core, idx := idx, entry := b } else none

/-- The entry that a berth operand names; its bits 63 to 16 must be zero. -/
def State.berthOf (s : State) (a : Issuer) (v : W64) : Option BerthRef :=
  if v.toNat < 2 ^ 16 then s.handle a.cluster v.toNat else none

/-- A fault of a handle: its record names the handle (R374). -/
def handleTrap (code : Code) (v : W64) : Trap := { code := code, info := (v.setWidth 16).setWidth 32 }

/-- Raises the fault of a handle unless the condition holds. -/
def requireHandle (b : Bool) (code : Code) (v : W64) : Act Unit := if b then .ok () else raise (handleTrap code v)

/-- ... or OWNER (R34). -/
def State.berthRef (s : State) (a : Issuer) (v : W64) : Act BerthRef :=
  match s.berthOf a v with
  | some r => .ok r
  | none => raise (handleTrap .owner v)

/-- The grid of the crew that owns a berth. -/
def State.berthGrid (s : State) (b : Berth) : Option Nat :=
  match s.crewOfTag b.own with
  | some k => (s.crew? k).map (·.grid)
  | none => none

/-- The issuer holds the berth (R18, R36): its crew, or the pilot while it runs the owning grid's program. -/
def State.holdsBerth (s : State) (a : Issuer) (b : Berth) : Bool :=
  match b.holder with
  | .crew core slot => match s.crewKey a with
    | some k => coreOf k % 4 == core && k % 32 == slot
    | none => false
  | .pilot => match a with
    | .pilot _ => (s.berthGrid b).isSome && s.berthGrid b == s.issuerGrid a
    | .gang _ => false
  | .none | .lighter => false

/-- Another agent than the issuer holds the berth; a free one nobody does (R242; log 50). -/
def State.heldByOther (s : State) (a : Issuer) (b : Berth) : Bool := b.state != .free && !s.holdsBerth a b

/-- The berth is held by the issuer, or OWNER. -/
def State.held (s : State) (a : Issuer) (v : W64) : Act BerthRef := do
  let r ← s.berthRef a v
  requireHandle (s.holdsBerth a r.entry) .owner v
  .ok r

/-- The number of a state (R35). -/
def BerthState.num : BerthState → Nat
  | .free => 0
  | .filling => 1
  | .full => 2
  | .draining => 3

/-- The 128 bits of an entry (R35). -/
def Berth.word (b : Berth) : Nat :=
  let h : Nat × Nat := match b.holder with
    | .none => (0, 0)
    | .crew core slot => (1, core % 4 * 32 + slot % 32)
    | .pilot => (2, 0)
    | .lighter => (3, 0)
  b.own % 2 ^ 26 * 2 ^ 102 + b.gen.toNat * 2 ^ 95 + b.state.num * 2 ^ 93 + h.1 * 2 ^ 91 + h.2 * 2 ^ 84
    + b.count % 2 ^ 21 * 2 ^ 43 + b.size % 2 ^ 15 * 2 ^ 28 + b.base % 2 ^ 14

/-- A berth freed (R153). -/
def Berth.freed (b : Berth) : Berth :=
  { b with state := .free, gen := b.gen + 1, holder := .none, own := 0, count := 0 }

/-- The state that a target names. -/
def targetState : BerthTarget → BerthState
  | .filling => .filling
  | .full => .full
  | .draining => .draining

/-- A queued MMA of the cluster reads the berth (R244). -/
def State.berthRead (s : State) (core idx : Nat) : Bool :=
  let at_ (r : OpRef) : Bool := r.core == core && r.idx == idx
  (List.range 4).any fun i => (s.core (core / 4 * 4 + i)).engine.any fun j => match j with
    | .mma _ _ a b x _ _ _ _ => at_ a || at_ b || x.any at_
    | .ctab _ _ => false

/-- A pilot's change of a berth waits until no earlier MMA is still to read it (R244). -/
def State.awaitReads (s : State) (a : Issuer) (r : BerthRef) : Act Unit :=
  match a with
  | .pilot _ => waitFor (!s.berthRead r.core r.idx) s
  | .gang _ => .ok ()

/-! ## Taking (R149) -/

/-- The first line of a crew's scratchpad in its core's pool, and its lines (R32, R289). -/
def Crew.pad (c : Crew) : Nat × Nat :=
  let below := c.part.rf + c.part.acc + (c.part.ext + 1) / 2
  (512 * (c.unit + below), 512 * (c.part.total - below))

/-- The crew that a `bth.take` takes for: the issuer's own, or the one that a pilot names (R149). -/
def State.takeFor (s : State) (a : Issuer) (v : W64) : Option (Nat × Crew) :=
  match a with
  | .gang _ => s.issuerCrew a
  | .pilot cl =>
    let k := 32 * (4 * cl + fld v.toNat 53 2) + fld v.toNat 48 5
    match s.crew? k with
    | some y => if s.corePresent (coreOf k) && some y.grid == s.issuerGrid a then some (k, y) else none
    | none => none

/-- Two ranges of lines meet. -/
def overlaps (a n b m : Nat) : Bool := decide (a < b + m) && decide (b < a + n)

/-- The lowest free berth of a core. -/
def State.freeBerth (s : State) (core : Nat) : Option Nat :=
  (List.range 128).find? fun i => (s.berth core i).state == .free

def execBthTake (d a b : SReg) (s : State) : Out :=
  scalar s .any [] fun i c => do
    let v := c.get b
    let n := v.toNat % 2 ^ 15
    let rest := match i with
      | .gang _ => v.toNat / 2 ^ 15
      | .pilot _ => fld v.toNat 15 33 + v.toNat / 2 ^ 55
    s.interlock i d
    require (decide (1 ≤ n) && decide (n ≤ 16384) && rest == 0) .range
    match s.takeFor i v with
    | none => raise { code := .owner }
    | some (k, y) => do
      let (pad, lines) := y.pad
      let base := pad + (c.get a).toNat
      require (decide ((c.get a).toNat + n ≤ lines)) .range
      require (!((s.core (coreOf k)).berths.any fun e => e.2.state != .free && overlaps base n e.2.base e.2.size)) .range
      match s.freeBerth (coreOf k) with
      | none => .ok (s.finish i c 4 d (BitVec.allOnes 64))
      | some idx =>
        let old := s.berth (coreOf k) idx
        let h : Holder := match i with
          | .gang _ => .crew (coreOf k % 4) (k % 32)
          | .pilot _ => .pilot
        let e : Berth := { own := y.tag, gen := old.gen, state := .filling, holder := h, count := 0, size := n, base := base }
        .ok ((s.setBerth (coreOf k) idx e).finish i c 4 d (BitVec.ofNat 64 (handleOf (coreOf k) idx old.gen)))

/-! ## Changes of state and holder (R150, R151, R153) -/

/-- The transitions of `bth.set` (R150). -/
def setAllowed : BerthState → BerthTarget → Bool
  | .filling, .full | .full, .draining | .full, .filling | .draining, .filling => true
  | .filling, .filling | .filling, .draining | .full, .full | .draining, .full | .draining, .draining | .free, _ => false

def execBthSet (a b : SReg) (t : BerthTarget) (s : State) : Out :=
  scalar s .any [] fun i c => do
    let s' ← s.settle i
    let v := c.get b
    let n := v.toNat % 2 ^ 21
    let full := t == .full
    require (!(full && v.toNat / 2 ^ 21 != 0)) .range
    let r ← s'.berthRef i (c.get a)
    require (!(full && decide (r.entry.size * 64 < n))) .range
    requireHandle (s'.holdsBerth i r.entry) .owner (c.get a)
    requireHandle (setAllowed r.entry.state t) .berthState (c.get a)
    s'.awaitReads i r
    let s' ← if full then s'.releaseFor i .cluster else .ok s'
    let e := { r.entry with state := targetState t, count := match t with
        | .full => n
        | .filling => 0
        | .draining => r.entry.count }
    .ok ((s'.setBerth r.core r.idx e).next i c.pc 4)

/-- The holder that the operand of `bth.pass` names, when it is one that the issuer may pass to (R151). -/
def State.passTo (s : State) (a : Issuer) (v : W64) : Option Holder :=
  let x := v.toNat
  if x / 2 ^ 9 ≠ 0 then none
  else match fld x 7 2 with
    | 1 => match s.crew? (32 * (4 * a.cluster + fld x 5 2) + fld x 0 5) with
      | some y => if some y.grid == s.issuerGrid a then some (.crew (fld x 5 2) (fld x 0 5)) else none
      | none => none
    | 2 => if fld x 0 7 = 0 ∧ s.hasPilot a.cluster then some .pilot else none
    | _ => none

def execBthPass (a b : SReg) (s : State) : Out :=
  scalar s .any [] fun i c => do
    let s' ← s.settle i
    let r ← s'.held i (c.get a)
    match s'.passTo i (c.get b) with
    | none => raise (handleTrap .owner (c.get a))
    | some h => do
      s'.awaitReads i r
      let s' ← s'.releaseFor i .cluster
      .ok ((s'.setBerth r.core r.idx { r.entry with holder := h }).next i c.pc 4)

def execBthFree (a : SReg) (s : State) : Out :=
  scalar s .any [] fun i c => do
    let s' ← s.settle i
    let r ← s'.held i (c.get a)
    s'.awaitReads i r
    .ok ((s'.setBerth r.core r.idx r.entry.freed).next i c.pc 4)

/-! ## Waiting and reading (R152, R153) -/

def execBthWait (a : SReg) (t : BerthTarget) (s : State) : Out :=
  scalar s .any [] fun i c => do
    let r ← s.berthRef i (c.get a)
    waitFor (s.holdsBerth i r.entry && r.entry.state == targetState t) s
    .ok (s.next i c.pc 4)

def execBthQuery (hi : Bool) (d a : SReg) (s : State) : Out :=
  scalar s .any [] fun i c => do
    s.interlock i d
    let r ← s.berthRef i (c.get a)
    requireHandle (r.entry.state == .free || ((s.berthGrid r.entry).isSome && s.berthGrid r.entry == s.issuerGrid i))
      .owner (c.get a)
    .ok (s.finish i c 4 d (BitVec.ofNat 64 (r.entry.word / if hi then 2 ^ 64 else 1)))

/-! ## Extended blocks (R25, R154) -/

/-- The first block of the pool that no gang holds. -/
def Crew.freeBlock (y : Crew) : Option Nat :=
  (List.range y.ext.length).find? fun i => match y.ext[i]? with
    | some e => e.holder.isNone
    | none => false

/-- A block is given to a gang. -/
def State.giveBlock (s : State) (k g b : Nat) : State :=
  match s.crew? k, s.gang? g with
  | some y, some x => match y.ext[b]? with
    | some e =>
      (s.setCrew k { y with ext := y.ext.set b { e with holder := some g }, acqs := y.acqs.erase g }).setGang g
        { x with ext := some b }
    | none => s
  | _, _ => s

def execXregAcq (s : State) : Out :=
  scalar s .gangs [] fun i c =>
    match i, s.issuerCrew i with
    | .gang g, some (k, y) =>
      if (s.gang? g).any (·.ext.isSome) then .ok (s.next i c.pc 4)
      else if y.part.ext = 0 then raise { code := .extreg }
      else
        let acqs := if y.acqs.contains g then y.acqs else y.acqs ++ [g]
        match y.freeBlock with
        | some b => if acqs.head? = some g then .ok ((s.giveBlock k g b).next i c.pc 4)
          else .error (.wait (s.setCrew k { y with acqs := acqs }))
        | none => .error (.wait (s.setCrew k { y with acqs := acqs }))
    | _, _ => .ok s

def execXregRel (s : State) : Out :=
  scalar s .gangs [] fun i c =>
    match i, s.issuerCrew i with
    | .gang g, some (k, y) => match s.gang? g with
      | none => .ok s
      | some x => match x.ext with
        | none => .ok (s.next i c.pc 4)
        | some b =>
          if !x.quiet then .error (.wait s)
          else match y.ext[b]? with
            | none => .ok (s.next i c.pc 4)
            | some e =>
              .ok (((s.setCrew k { y with ext := y.ext.set b { e with holder := none } }).setGang g
                { x with ext := none }).next i c.pc 4)
    | _, _ => .ok s

end Sys2Proof.Machine
end

