-- ==== Sys2Proof/Machine/AccRow.lean ====
section
/-!
DEFINITION. Accumulator rows and tiles: raw images (R121), headroom (R123), alignment (R124), renormalisation (R125),
the application of a batch (R246), and read-out (R126, R253).
-/

namespace Sys2Proof.Machine

/-- A cleared row (R121). -/
def AccRow.cleared : AccRow := { exp := 0, head := 47, empty := true, m := [] }

/-- A tile with no contribution (R40). -/
def Tile.new : Tile := { rows := [], events := 0, drops := 0 }

def Tile.row (t : Tile) (i : Nat) : AccRow := t.rows.getD i AccRow.cleared
def Tile.setRow (t : Tile) (i : Nat) (r : AccRow) : Tile := { t with rows := t.rows.set i r }

/-- Mantissa j. -/
def AccRow.mant (r : AccRow) (j : Nat) : Int := (r.m.getD j 0).toInt

/-- Bits of a magnitude. -/
def bitLength (n : Nat) : Nat := if n = 0 then 0 else Nat.log2 n + 1

/-- The headroom of a mantissa (R123). -/
def headroom (m : Int) : Nat := 47 - bitLength (if m < 0 then (-m - 1).toNat else m.toNat)

/-- A row of mantissas at an exponent, with its headroom current (R123). -/
def rowOf (e : Int) (f : Nat → Int) : AccRow :=
  let js := List.range 64
  { exp := e, head := js.foldl (fun h j => min h (headroom (f j))) 47, empty := false,
    m := js.filterMap fun j => if f j = 0 then none else some (j, BitVec.ofInt 48 (f j)) }

/-- A count that saturates (R40, R245). -/
def satAdd (c : W32) (n : Nat) : W32 := BitVec.ofNat 32 (min (c.toNat + n) 0xFFFFFFFF)

/-- A contribution aligned to a row's exponent (R124). -/
def alignTo (sig f e : Int) : Int :=
  let k := e - f
  if k ≤ 0 then sig * 2 ^ (-k).toNat else if k ≤ 47 then sig.fdiv (2 ^ k.toNat) else 0

/-- m / 2^k rounded to an integer, ties to even (R125). -/
def roundShift (m : Int) (k : Nat) : Int :=
  let q := Mode.int .rne false m.natAbs (2 ^ k)
  if m < 0 then -(q : Int) else q

/-- A row renormalised by k (R125). -/
def AccRow.renorm (r : AccRow) (k : Nat) : AccRow := rowOf (r.exp + k) fun j => roundShift (r.mant j) k

/-- The sums of a batch's products aligned to an exponent, by element (R246). -/
def Batch.sums (b : Batch) (e : Int) : Tbl Int :=
  b.products.foldl (fun t p => t.set p.elem (t.getD p.elem 0 + alignTo p.sig p.exp e)) []

/-- The row renormalised by k takes the batch without overflow. -/
def AccRow.takes (r : AccRow) (b : Batch) (k : Nat) : Bool :=
  let t := b.sums (r.exp + k)
  (List.range 64).all fun j =>
    let x := roundShift (r.mant j) k + t.getD j 0
    decide (-(2 ^ 47) ≤ x) && decide (x ≤ 2 ^ 47 - 1)

/-- The least shift, from k up, under which the row takes the batch. -/
def AccRow.shiftFor (r : AccRow) (b : Batch) : Nat → Nat → Nat
  | 0, k => k
  | n + 1, k => if r.takes b k then k else AccRow.shiftFor r b n (k + 1)

/-- The exponent that a first batch sets: its top product lands with 8 bits of headroom (R246). -/
def Batch.firstExp (b : Batch) : Int :=
  let tops : List Int := b.products.map fun p => p.exp + (bitLength p.sig.natAbs : Int)
  match tops with
  | [] => 0
  | x :: xs => min (max (xs.foldl max x - 39) (-512)) 511

/-- The port applies a batch to its row (R246). A shift of 2,048 is beyond any product. -/
def Tile.apply (t : Tile) (b : Batch) : Tile :=
  let t := { t with drops := satAdd t.drops b.drops }
  let r := t.row b.row
  if r.empty && b.products.isEmpty then t
  else
    let r := if r.empty then { r with exp := b.firstExp, empty := false } else r
    let k : Nat := r.shiftFor b 2048 0
    if 511 < r.exp + (k : Int) then { t with drops := satAdd t.drops b.count }
    else
      let r' := if k = 0 then r else r.renorm k
      let sums := b.sums r'.exp
      let t := t.setRow b.row (rowOf r'.exp fun j => r'.mant j + sums.getD j 0)
      if k = 0 then t else { t with events := satAdd t.events 1 }

/-- The header word of a row (R121). -/
def AccRow.header (r : AccRow) : Nat := (r.exp % 1024).toNat * 2 ^ 22 + r.head * 2 ^ 16 + if r.empty then 2 ^ 15 else 0

/-- The raw image of a row (R121). -/
def AccRow.image (r : AccRow) : List Byte :=
  leBytes 4 r.header ++ (List.range 64).flatMap fun j => leBytes 6 (r.m.getD j 0).toNat

/-- A raw image that `acc.ld` refuses (R252). -/
def badImage (bs : List Byte) : Bool :=
  let h := fieldAt bs 0 4
  h % 2 ^ 15 != 0 || decide (47 < fld h 16 6)

/-- The row of a raw image (R252). -/
def rowOfImage (bs : List Byte) : AccRow :=
  let h := fieldAt bs 0 4
  if flag h 15 then AccRow.cleared
  else rowOf (BitVec.ofNat 10 (fld h 22 10)).toInt fun j => (BitVec.ofNat 48 (fieldAt bs (4 + 6 * j) 6)).toInt

/-- The exact value of an element (R122). -/
def AccRow.value (r : AccRow) (j : Nat) : Ex :=
  if r.mant j = 0 then .fin false 0 1 else dyadic (decide (r.mant j < 0)) (r.mant j).natAbs r.exp

/-- The 16 random bits of an element under RM = 4 (R253). -/
def accRandom (seed : W64) (row j : Nat) : Nat :=
  let x := seed ^^^ BitVec.ofNat 64 (64 * row + j) * 0x9E3779B97F4A7C15
  let x := x ^^^ (x >>> 30)
  let x := x * 0xBF58476D1CE4E5B9
  let x := x ^^^ (x >>> 27)
  x.toNat / 2 ^ 48

/-- The rounding of an element of a row (R253). -/
def accMode (rm : RmSr) (seed : W64) (row j : Nat) : Mode :=
  match rm with
  | .rne => .rne
  | .rz => .rz
  | .rd => .rd
  | .ru => .ru
  | .sr => .sr 16 (accRandom seed row j)

/-- The magnitude bits of a BX output. -/
def bxBits : AccFmt → Nat
  | .bx8 => 6
  | .bx6 => 4
  | .bx4 => 2
  | .raw | .f32 | .bf16 | .e4m3 | .e5m2 => 0

/-- The number of lines of an output row (R253). -/
def accLines : AccFmt → Nat
  | .f32 => 4
  | .bf16 => 2
  | .e4m3 | .e5m2 | .bx8 | .bx6 | .bx4 | .raw => 1

/-- The floating format of an output. -/
def accFloat : AccFmt → Option Fmt
  | .f32 => some .f32
  | .bf16 => some .bf16
  | .e4m3 => some .e4m3
  | .e5m2 => some .e5m2
  | .raw | .bx8 | .bx6 | .bx4 => none

/-- The bytes of an output row and of its scales (R126, R253). -/
def AccRow.output (r : AccRow) (fmt : AccFmt) (rm : RmSr) (sat : Bool) (seed : W64) (row : Nat) :
    List Byte × List Byte :=
  let js := List.range 64
  match accFloat fmt with
  | some f => (js.flatMap fun j => leBytes (f.width / 8) (f.round (accMode rm seed row j) sat (r.value j)), [])
  | none =>
    let mb := bxBits fmt
    let block (b : Nat) : Nat × Nat := bxExps mb ((List.range 32).map fun i => r.value (32 * b + i))
    let bits := js.foldl (fun x j =>
      let e := block (j / 32)
      x + bxElem mb (accMode rm seed row j) false e.1 e.2 (r.value j) * 2 ^ ((mb + 2) * j)) 0
    (leBytes 64 bits, [0, 1].flatMap fun b => leBytes 1 (block b).1 ++ leBytes 1 (block b).2)

end Sys2Proof.Machine
end

