-- ==== Sys2Proof/Machine/Matrix.lean ====
section
/-!
DEFINITION. The matrix engines: references and operand tiles (R234 to R241), the MMA instructions (R231 to R244), and
the events in which an engine performs an MMA (R245) or writes its table (R258); `ctab.w`, `mwt`, `mfence`, `mbx.take`
and `rq.send` (R257 to R260).
-/

namespace Sys2Proof.Machine

/-- The first of several conditions that hold raises its fault; they are listed in the order of R128 and R243. -/
def firstFault : List (Bool × Trap) → Act Unit
  | [] => .ok ()
  | (b, x) :: t => if b then raise x else firstFault t

/-! ## References and selectors -/

/-- The fields of an operand reference (R234): OFF, SOFF and the handle. -/
def refOff (v : W64) : Nat := fld v.toNat 16 14
def refSoff (v : W64) : Nat := fld v.toNat 32 14
def refHandle (v : W64) : Nat := v.toNat % 2 ^ 16

/-- A reference with a reserved bit set, or with scales in a format that has none (R234). -/
def badRef (scales : Bool) (v : W64) : Bool :=
  v.toNat / 2 ^ 46 != 0 || fld v.toNat 30 2 != 0 || (!scales && refSoff v != 0)

/-- A berth as a reference finds it: not held, in a wrong state, or too short for n bytes. -/
structure RefCheck where
  ref : Option BerthRef
  owner : Bool
  state : Bool
  deriving DecidableEq, Repr

/-- The check of a reference's berth (R242, R250). -/
def State.checkRef (s : State) (a : Issuer) (states : List BerthState) (v : W64) : RefCheck :=
  match s.handle a.cluster (refHandle v) with
  | none => { ref := none, owner := true, state := false }
  | some r => { ref := some r, owner := s.heldByOther a r.entry, state := !states.contains r.entry.state }

/-- The extent of n bytes ends beyond the berth (R239, R250). -/
def RefCheck.beyond (c : RefCheck) (n : Nat) : Bool :=
  match c.ref with
  | some r => decide (r.entry.size * 64 < n)
  | none => false

/-- The operand of a checked reference. -/
def opRef (r : BerthRef) (v : W64) : OpRef :=
  { core := r.core, idx := r.idx, line := r.entry.base, off := refOff v, soff := refSoff v }

/-- The crew whose tile a selector names: one of the pilot's grid on its cluster, or the gang's own (R232). -/
def State.selCrew (s : State) (a : Issuer) (t : AccSel) : Option (Nat × Crew) :=
  match a with
  | .gang _ => if t.core.val = 0 ∧ t.slot.val = 0 then s.issuerCrew a else none
  | .pilot cl =>
    let k := 32 * (4 * cl + t.core.val) + t.slot.val
    match s.crew? k with
    | some y => if s.corePresent (coreOf k) && some y.grid == s.issuerGrid a then some (k, y) else none
    | none => none

/-- The tile number is beyond the crew's tiles (R232). -/
def badTile (c : Option (Nat × Crew)) (t : AccSel) : Bool :=
  match c with
  | some (_, y) => decide (y.part.acc ≤ t.tile.val)
  | none => false

/-! ## Operand tiles (R235 to R241) -/

/-- The bits of an element, and the products per output element (R235). -/
def MmaFmt.bits : MmaFmt → Nat
  | .bf16 | .f16 => 16
  | .e4m3 | .e5m2 | .bx8 | .i8 => 8
  | .bx6 => 6
  | .bx4 | .lut4 => 4
def MmaFmt.k : MmaFmt → Nat
  | .bf16 | .f16 => 32
  | .e4m3 | .e5m2 | .bx8 | .bx6 | .i8 => 64
  | .bx4 | .lut4 => 128

/-- The format has scales. -/
def MmaFmt.scaled : MmaFmt → Bool
  | .bx8 | .bx6 | .bx4 => true
  | .bf16 | .f16 | .e4m3 | .e5m2 | .lut4 | .i8 => false

/-- Column fetch is legal (R237). -/
def MmaFmt.columns : MmaFmt → Bool
  | .bf16 | .f16 | .e4m3 | .e5m2 | .bx8 | .i8 => true
  | .bx6 | .bx4 | .lut4 => false

/-- Word w of stored row r of a tile at a pool line: the XOR swizzle (R236). -/
def swizzled (line r lines w : Nat) : Nat := 64 * (line + r * lines + w / 16) + 4 * ((w % 16) ^^^ (r % 16))

/-- The bytes of stored row r (R236). -/
def State.storedRow (s : State) (core line r lines : Nat) : List Byte :=
  (List.range (16 * lines)).flatMap fun w => s.scratch.bytes (core * 2 ^ 20 + swizzled line r lines w) 4

/-- Stored row r written (R236). -/
def State.putRow (s : State) (core line r lines : Nat) (bs : List Byte) : State :=
  (List.range (16 * lines)).foldl (fun s w =>
    s.poolStore (core * 2 ^ 20 + swizzled line r lines w) ((bs.drop (4 * w)).take 4)) s

/-- An element as a significand and an exponent, none when its product is dropped (R117, R245). -/
def factor (fmt : MmaFmt) (lut : Vector (BitVec 16) 16) (e0 e1 x : Nat) : Option (Int × Int) :=
  let float (f : Fmt) (x : Nat) : Option (Int × Int) :=
    match f.value x with
    | .fin _ _ _ =>
      let p := f.parts x
      some (if p.1 then -(p.2.1 : Int) else p.2.1, p.2.2)
    | .nan | .inf _ => none
  let block (mb : Nat) : Option (Int × Int) :=
    let e := if flag x (mb + 1) then e1 else e0
    let m : Int := fld x 0 mb
    if e = 255 then none else some (if flag x mb then -m else m, (e : Int) - 127 - (mb - 1))
  match fmt with
  | .bf16 => float .bf16 x
  | .f16 => float .f16 x
  | .e4m3 => float .e4m3 x
  | .e5m2 => float .e5m2 x
  | .bx8 => block 6
  | .bx6 => block 4
  | .bx4 => block 2
  | .lut4 => float .bf16 (lut[x % 16]'(Nat.mod_lt _ (by decide))).toNat
  | .i8 => some ((BitVec.ofNat 8 x).toInt, 0)

/-- The n elements of stored row r of an operand, packed from byte `at_` of its L lines, with its scales (R112, R236,
R238). A BX6 row of two lines lies as 96 contiguous bytes (log 56). -/
def State.storedElems (s : State) (fmt : MmaFmt) (lut : Vector (BitVec 16) 16) (o : OpRef) (r lines at_ n : Nat) :
    List (Option (Int × Int)) :=
  let x := leNat ((s.storedRow o.core (o.line + o.off) r lines).drop at_)
  let sc := s.scratch.bytes (o.core * 2 ^ 20 + 64 * (o.line + o.soff) + 2 * (n / 32) * r) (2 * (n / 32))
  (List.range n).map fun k => factor fmt lut (fieldAt sc (2 * (k / 32)) 1) (fieldAt sc (2 * (k / 32) + 1) 1)
    (fld x (fmt.bits * k) fmt.bits)

/-- The lines of a stored row of n elements (R237, R241). -/
def rowLines (fmt : MmaFmt) (n : Nat) : Nat := if fmt = .bx6 then n / 64 else n * fmt.bits / 512

/-- A logical operand of 64 rows by n elements: row fetch, or column fetch (R237). -/
def State.operand (s : State) (fmt : MmaFmt) (lut : Vector (BitVec 16) 16) (o : OpRef) (n : Nat) (columns : Bool) :
    List (List (Option (Int × Int))) :=
  if columns then
    let rows := (List.range n).map fun r => s.storedElems fmt lut o r (rowLines fmt 64) 0 64
    (List.range 64).map fun i => rows.map fun r => r.getD i none
  else (List.range 64).map fun r => s.storedElems fmt lut o r (rowLines fmt n) 0 n

/-- The A operand: per row, each kept element with the logical element that it multiplies (R240, R241). -/
def State.operandA (s : State) (fmt : MmaFmt) (m : MmaMod) (lut : Vector (BitVec 16) 16) (o : OpRef) (idx : List Nat) :
    List (List (Option (Int × Int) × Nat)) :=
  let n := fmt.k
  if m.p then
    (List.range 64).map fun r =>
      let bs := s.storedRow o.core (o.line + o.off) r 2
      let pos (v : Nat) : Nat := 4 * (v / 2) + fld (fieldAt bs (if v < 64 then 0 else 80) 16) (2 * (v % 64)) 2
      (s.storedElems fmt lut o r 2 16 n).zip ((List.range n).map pos)
  else
    let rows := if m.g then idx.map fun x => s.storedElems fmt lut o x 1 0 n else s.operand fmt lut o n m.ta
    rows.map fun r => r.zip (List.range n)

/-- The batch of one row (R245). -/
def mmaBatch (hd : Hadamard) (row : Nat) (a : List (Option (Int × Int) × Nat)) (b : List (List (Option (Int × Int)))) :
    Batch :=
  let sub : Int := match hd with
    | .none => 0
    | .hd16 => 4
    | .hd32 => 5
  let all := (List.range 64).flatMap fun j =>
    let col := b.getD j []
    a.map fun x => match x.1, col.getD x.2 none with
      | some p, some q => some ({ elem := j, sig := p.1 * q.1, exp := p.2 + q.2 - sub } : Product)
      | _, _ => none
  let kept := all.filterMap id
  { row := row, products := kept.filter fun p => p.sig != 0, count := kept.length, drops := all.length - kept.length }

/-! ## The MMA instructions -/

/-- The features that an MMA needs (R75). -/
def mmaFeatures (fmt : MmaFmt) (m : MmaMod) : List Feature :=
  (if m.p then [.sparse] else []) ++ (if fmt = .lut4 then [.lut4] else []) ++ if fmt.scaled then [.blockfp] else []

/-- The entries of an index vector (R240). -/
def State.indexVector (s : State) (o : OpRef) : List Nat :=
  (List.range 64).map fun j => leNat (s.scratch.bytes (o.core * 2 ^ 20 + 64 * (o.line + o.off) + 2 * j) 2)

/-- A full berth that an MMA names becomes draining (R242). -/
def State.drainBerth (s : State) (o : OpRef) : State :=
  let e := s.berth o.core o.idx
  if e.state = .full then s.setBerth o.core o.idx { e with state := .draining } else s

/-- The MMAs that an engine holds (R231). -/
def Core.mmaCount (u : Core) : Nat :=
  (u.engine.filter fun j => match j with
    | .mma _ _ _ _ _ _ _ _ _ => true
    | .ctab _ _ => false).length

/-- The greatest entry of an index vector. -/
def topIndex (l : List Nat) : Nat := l.foldl max 0

/-- The crew that owns the berth of an operand. -/
def State.ownerOf (s : State) (o : OpRef) : List Nat := (s.crewOfTag (s.berth o.core o.idx).own).toList

/-- Some byte of n lines of an operand, from its element line or from its scale line, is poisoned (R296). -/
def State.operandPoisoned (s : State) (o : OpRef) (n scale : Nat) : Bool :=
  s.spoisoned (o.core * 2 ^ 20 + 64 * (o.line + o.off)) (64 * n)
    || (scale != 0 && s.spoisoned (o.core * 2 ^ 20 + 64 * (o.line + o.soff)) scale)

/-- An operation at a core meets poison of a crew's: the report (R296, R459; log 37). -/
def State.crewEcc (s : State) (key : Nat) (bad : Bool) : State :=
  if !bad then s
  else match s.crew? key with
    | none => s
    | some c => s.report (some c.grid) [] .ecc (Issuer.source (.gang (32 * coreOf key))) 0 0 0 (crewWord c.index c.tag)

/-- An MMA of the pilot (R231 to R244). Under `mma.gx` the extents of A are those up to its greatest index (R239; log 68). -/
def mmaIssue (s : State) (fmt : MmaFmt) (m : MmaMod) (d a b : SReg) (t : AccSel) : Out :=
  scalar s .pilots (mmaFeatures fmt m) fun i c => do
    let va := c.get a
    let vb := c.get b
    let vi := c.get d
    let ca := s.checkRef i [.full, .draining] va
    let cb := s.checkRef i [.full, .draining] vb
    let ci := if m.g then s.checkRef i [.full, .draining] vi else { ref := none, owner := false, state := false }
    let crew := s.selCrew i t
    let idx : List Nat := match ci.ref with
      | some r => if ci.beyond (64 * refOff vi + 128) then [] else s.indexVector (opRef r vi)
      | none => []
    let poisoned : Bool := match ci.ref with
      | some r => !ci.beyond (64 * refOff vi + 128) && s.operandPoisoned (opRef r vi) 2 0
      | none => false
    let n := if m.p then 2 * fmt.k else fmt.k
    let rows := if m.g then topIndex idx + 1 else 64
    let scaleA := fmt.scaled && ca.beyond (64 * refSoff va + 2 * (fmt.k / 32) * rows)
    let scaleB := fmt.scaled && cb.beyond (64 * refSoff vb + 128 * (n / 32))
    firstFault
      [(((m.ta || m.tb) && !fmt.columns) || (m.g && (m.ta || m.p)) || (m.p && m.ta)
          || badRef fmt.scaled va || badRef fmt.scaled vb || (m.g && badRef false vi), { code := .opformat }),
       (badTile crew t || ci.beyond (64 * refOff vi + 128)
          || ca.beyond (64 * (refOff va + if m.p then 128 else rows))
          || cb.beyond (64 * (refOff vb + if m.p then 128 else 64)) || scaleA || scaleB, { code := .range }),
       (crew.isNone, { code := .owner }),
       (ca.owner, handleTrap .owner va), (cb.owner, handleTrap .owner vb), (ci.owner, handleTrap .owner vi),
       (ca.state, handleTrap .berthState va), (cb.state, handleTrap .berthState vb),
       (ci.state, handleTrap .berthState vi), (poisoned, { code := .ecc })]
    match crew, ca.ref, cb.ref with
    | some (k, _), some ra, some rb => do
      let core := coreOf k
      waitFor (decide ((s.core core).mmaCount < 4)) s
      let ix := ci.ref.map fun r => opRef r vi
      let job := EngineJob.mma fmt m (opRef ra va) (opRef rb vb) ix idx k t.tile.val i.cluster
      let s := (s.drainBerth (opRef ra va)).drainBerth (opRef rb vb)
      let s := match ix with
        | some o => s.drainBerth o
        | none => s
      let u := s.core core
      .ok ((s.setCore core { u with engine := u.engine ++ [job] }).next i c.pc 8)
    | _, _, _ => .ok s

def execMmaBf16 (m : MmaMod) (d a b : SReg) (t : AccSel) (s : State) : Out := mmaIssue s .bf16 m d a b t
def execMmaF16 (m : MmaMod) (d a b : SReg) (t : AccSel) (s : State) : Out := mmaIssue s .f16 m d a b t
def execMmaE4m3 (m : MmaMod) (d a b : SReg) (t : AccSel) (s : State) : Out := mmaIssue s .e4m3 m d a b t
def execMmaE5m2 (m : MmaMod) (d a b : SReg) (t : AccSel) (s : State) : Out := mmaIssue s .e5m2 m d a b t
def execMmaBx8 (m : MmaMod) (d a b : SReg) (t : AccSel) (s : State) : Out := mmaIssue s .bx8 m d a b t
def execMmaBx6 (m : MmaMod) (d a b : SReg) (t : AccSel) (s : State) : Out := mmaIssue s .bx6 m d a b t
def execMmaBx4 (m : MmaMod) (d a b : SReg) (t : AccSel) (s : State) : Out := mmaIssue s .bx4 m d a b t
def execMmaLut4 (m : MmaMod) (d a b : SReg) (t : AccSel) (s : State) : Out := mmaIssue s .lut4 m d a b t
def execMmaI8 (m : MmaMod) (d a b : SReg) (t : AccSel) (s : State) : Out := mmaIssue s .i8 m d a b t

/-! ## The engine's events -/

/-- The engine of a core performs the MMA at the head of its queue: its batches arrive at the core's port (R231, R245,
R247). -/
def execMmaExecute (core : Nat) (s : State) : Out :=
  let u := s.core core
  if s.gated (clusterOf core) then .next s
  else match u.engine with
    | .mma fmt m a b ix idx crew tile pilot :: rest =>
      let left := s.operandA fmt m u.lut a idx
      let right := s.operand fmt u.lut b (if m.p then 2 * fmt.k else fmt.k) m.tb
      let batches := ((List.range 64).zip left).map fun x => mmaBatch m.hd x.1 x.2 right
      let rows := if m.g then topIndex idx + 1 else if m.p then 128 else 64
      let sc (n : Nat) : Nat := if fmt.scaled then 2 * (n / 32) * 64 else 0
      let bad := s.operandPoisoned a rows (sc fmt.k)
        || s.operandPoisoned b (if m.p then 128 else 64) (sc (if m.p then 2 * fmt.k else fmt.k))
      let from_ := BatchFrom.mma (s.ownerOf a ++ s.ownerOf b ++ match ix with
        | some o => s.ownerOf o
        | none => [])
      .next ((s.setCore core { u with engine := rest, port := u.port ++ [.batches batches crew tile (.pilot pilot) from_] }
        ).crewEcc crew bad)
    | _ => .next s

/-- The engine of a core performs the table write at the head of its queue (R258). -/
def execCtabApply (core : Nat) (s : State) : Out :=
  let u := s.core core
  match u.engine with
  | .ctab q v :: rest =>
    let lut := (List.range 4).foldl (fun (l : Vector (BitVec 16) 16) n =>
      l.set ((4 * q.val + n) % 16) (BitVec.ofNat 16 (fld v.toNat (16 * n) 16)) (Nat.mod_lt _ (by decide))) u.lut
    .next (s.setCore core { u with engine := rest, lut := lut })
  | _ => .next s

/-! ## The mctl group (R257 to R260) -/

def execCtabW (core q : Fin 4) (a : SReg) (s : State) : Out :=
  scalar s .any [.lut4] fun i c => do
    let k := 4 * i.cluster + core.val
    let own : Bool := match i with
      | .gang g => k == coreOf g
      | .pilot _ => true
    require (own && s.corePresent k) .owner
    let u := s.core k
    .ok ((s.setCore k { u with engine := u.engine ++ [.ctab q (c.get a)] }).next i c.pc 8)

/-- The MMAs of a pilot that have not completed: they wait at an engine or at a port of its cluster (R231, R259). -/
def State.pilotMmas (s : State) (cl : Nat) : Nat :=
  let g := s.issuerGrid (.pilot cl)
  let mine (k : Nat) : Bool := g.isSome && (s.crew? k).map (·.grid) == g
  let count (u : Core) : Nat :=
    (u.engine.filter fun j => match j with
      | .mma _ _ _ _ _ _ k _ _ => mine k
      | .ctab _ _ => false).length
    + (u.port.filter fun j => match j with
      | .batches _ k _ _ (.mma _) => mine k
      | _ => false).length
  (List.range 4).foldl (fun n i => n + count (s.core (4 * cl + i))) 0

def execMwt (n : Fin 64) (s : State) : Out :=
  scalar s .pilots [] fun i c => do
    waitFor (decide (s.pilotMmas i.cluster ≤ n.val)) s
    .ok (s.next i c.pc 8)

/-- The scope of a release by `mfence`. -/
def mfenceScope : MfenceScope → Scope
  | .cluster => .cluster
  | .device => .device

def execMfence (sc : MfenceScope) (s : State) : Out :=
  scalar s .pilots [] fun i c => do
    waitFor (decide (s.pilotMmas i.cluster = 0)) s
    let t ← s.releaseFor i (mfenceScope sc)
    .ok (t.next i c.pc 8)

def execMbxTake (d a : SReg) (s : State) : Out :=
  scalar s .pilots [] fun i c => do
    aligned (c.get a) 128
    let u := s.cluster i.cluster
    match u.mailbox.find? fun e => some e.grid == s.issuerGrid i with
    | none => .error (.wait s)
    | some e => do
      waitFor e.hole.isNone s
      let t ← s.scalarWrite i (c.get a) (vecBytes e.vals)
      let u := t.cluster i.cluster
      let v := e.core % 4 * 2 ^ 37 + e.gslot % 32 * 2 ^ 32 + e.mask.toNat
      .ok ((t.setCluster i.cluster { u with mailbox := u.mailbox.erase e }).finish i c 8 d (BitVec.ofNat 64 v))

def execRqSend (q : Fin 32) (a : SReg) (s : State) : Out :=
  scalar s .pilots [] fun i c => do
    aligned (c.get a) 128
    let u := s.cluster i.cluster
    let l := u.rq.getD q.val []
    waitFor (decide (l.length < 8)) s
    let (bs, t) ← s.scalarRead i c false .crew (c.get a) 128
    let u := t.cluster i.cluster
    let e : QEntry := { grid := (s.issuerGrid i).getD 0, vals := vecOf bs, mask := BitVec.allOnes 32, core := 0, gslot := 0,
                        hole := none }
    .ok ((t.setCluster i.cluster { u with rq := u.rq.set q.val (l ++ [e]) }).next i c.pc 8)

end Sys2Proof.Machine
end

