-- ==== Sys2Proof/Machine/Acc.lean ====
section
/-! DEFINITION. The `acc.*` instructions (R250 to R256) and the accumulator port's event (R246, R247). -/

namespace Sys2Proof.Machine

/-! ## Issue -/

/-- The pilot's earlier MMAs to a tile wait at its core's engine (R247, R250). -/
def State.mmaAhead (s : State) (a : Issuer) (crew tile : Nat) : Bool :=
  match a with
  | .gang _ => false
  | .pilot _ => (s.core (coreOf crew)).engine.any fun j => match j with
    | .mma _ _ _ _ _ _ k x _ => k == crew && x == tile
    | .ctab _ _ => false

/-- The faults of an `acc.*` beyond those of its selector and rows, and the berth operand that they name. -/
structure AccFaults where
  opformat : Bool := false
  range : Bool := false
  owner : Bool := false
  state : Bool := false
  /-- poison that the read of the berth meets (R296) -/
  ecc : Bool := false
  handle : W64 := 0
  deriving DecidableEq, Repr

/-- An `acc.*` of the issuer: its contribution goes to the port of the tile's core and holds the stream until it has
been applied; `fin` then makes the stream go on with the value answered (R247, R250). The faults are given with
OPFORMAT, RANGE, OWNER and BERTH_STATE in turn. -/
def accIssue (s : State) (t : AccSel) (rows : Option (Nat × Nat)) (faults : Issuer → ScalarCtx → AccFaults)
    (job : Issuer → ScalarCtx → Nat → Option AccJob) (d : Option SReg) : Out :=
  scalar s .any [] fun i c => do
    match d with
    | some r => s.interlock i r
    | none => .ok ()
    match c.wait with
    | .accDone v => .ok (match d with
        | some r => s.finish i c 8 r v
        | none => s.next i c.pc 8)
    | .answerErr t => raise t
    | _ => do
      let crew := s.selCrew i t
      let f := faults i c
      let beyond : Bool := match rows with
        | some (r, n) => decide (64 < r + n)
        | none => false
      firstFault [(f.opformat, { code := .opformat }), (badTile crew t || beyond || f.range, { code := .range }),
                  (crew.isNone, { code := .owner }), (f.owner, handleTrap .owner f.handle),
                  (f.state, handleTrap .berthState f.handle), (f.ecc, { code := .ecc })]
      match crew with
      | none => .ok s
      | some (k, _) => do
        waitFor (!s.mmaAhead i k t.tile.val) s
        match job i c k with
        | none => .ok s
        | some j =>
          let u := s.core (coreOf k)
          .ok ((s.setCore (coreOf k) { u with port := u.port ++ [j] }).setWait i .acc)

/-- No faults beyond those of the selector and the rows. -/
def noFaults (_ : Issuer) (_ : ScalarCtx) : AccFaults := {}

/-- Rows ROW0 to ROW0 + NROWS. -/
def rowSpan (row n : Fin 64) : Option (Nat × Nat) := some (row.val, n.val + 1)

def execAccClr (t : AccSel) (row n : Fin 64) (s : State) : Out :=
  accIssue s t (rowSpan row n) noFaults (fun i _ k => some (.clr k t.tile.val row.val (n.val + 1) i)) none

/-- The raw image of row ROW0 + t in a source berth (R252). -/
def State.rawRow (s : State) (o : OpRef) (t : Nat) : List Byte :=
  s.scratch.bytes (o.core * 2 ^ 20 + 64 * (o.line + o.off) + 388 * t) 388

/-- The checks of a berth of an `acc.*`: the codes for a reference that needs `elems` bytes from its element line and
`scale` bytes from its scale line, with the further OPFORMAT condition on the bytes of the berth from that line on. -/
def refFaults (s : State) (i : Issuer) (v : W64) (scales : Bool) (states : List BerthState) (elems scale : Nat)
    (bad : OpRef → Nat → Bool) : AccFaults :=
  let c := s.checkRef i states v
  let beyond := c.beyond (64 * refOff v + elems)
  let wrong : Bool := match c.ref with
    | some r => bad (opRef r v) (64 * r.entry.size - 64 * refOff v)
    | none => false
  let poisoned : Bool := match c.ref with
    | some r => !states.contains .filling && s.spoisoned (r.core * 2 ^ 20 + 64 * (r.entry.base + refOff v)) elems
    | none => false
  { ecc := poisoned, opformat := badRef scales v || wrong, range := beyond || (scales && c.beyond (64 * refSoff v + scale)),
    owner := c.owner, state := c.state, handle := v }

/-- `acc.ld` takes the berth's bytes when it issues (R252; log 68). -/
def execAccLd (t : AccSel) (row n : Fin 64) (a : SReg) (s : State) : Out :=
  let rows := List.range (n.val + 1)
  accIssue s t (rowSpan row n)
    (fun i c => refFaults s i (c.get a) false [.full, .draining] (388 * (n.val + 1)) 0 fun o left =>
      rows.any fun r => decide (388 * (r + 1) ≤ left) && badImage (s.rawRow o r))
    (fun i c k => match s.handle i.cluster (refHandle (c.get a)) with
      | some r =>
        let o := opRef r (c.get a)
        some (.ld (rows.map fun x => (row.val + x, s.rawRow o x)) k t.tile.val i (s.ownerOf o))
      | none => none) none

def execAccSt (f : AccFmt) (rm : RmSr) (sat : Bool) (t : AccSel) (row n : Fin 64) (a b : SReg) (s : State) : Out :=
  let scales := bxBits f != 0
  let elems := if f = .raw then 388 * (n.val + 1) else 64 * accLines f * (n.val + 1)
  accIssue s t (rowSpan row n)
    (fun i c => refFaults s i (c.get a) scales [.filling] elems (4 * (n.val + 1)) fun _ _ => false)
    (fun i c k => match s.handle i.cluster (refHandle (c.get a)) with
      | some r => some (.st f rm sat (c.get b) (opRef r (c.get a)) k t.tile.val row.val (n.val + 1) i)
      | none => none) none

/-- The batch of an `f32` row of an `acc.add` (R254). -/
def addBatch (row : Nat) (bs : List Byte) : Batch :=
  let fin := ((List.range 64).map fun j => (j, word32 (bs.drop (4 * j)))).filter fun x => isFin32 x.2
  { row := row,
    products := (fin.map fun x =>
      let p := Fmt.f32.parts x.2.toNat
      ({ elem := x.1, sig := if p.1 then -(p.2.1 : Int) else p.2.1, exp := p.2.2 } : Product)).filter
        fun p => p.sig != 0,
    count := fin.length, drops := 64 - fin.length }

/-- `acc.add` takes the berth's bytes when it issues (R254; log 68). -/
def execAccAdd (t : AccSel) (row n : Fin 64) (a : SReg) (s : State) : Out :=
  accIssue s t (rowSpan row n)
    (fun i c => refFaults s i (c.get a) false [.full, .draining] (256 * (n.val + 1)) 0 fun _ _ => false)
    (fun i c k => match s.handle i.cluster (refHandle (c.get a)) with
      | some r =>
        let o := opRef r (c.get a)
        some (.batches ((List.range (n.val + 1)).map fun x =>
          addBatch (row.val + x) (s.storedRow o.core (o.line + o.off) x 4)) k t.tile.val i (.add (s.ownerOf o)))
      | none => none) none

def execAccRenorm (t : AccSel) (row n : Fin 64) (a : SReg) (s : State) : Out :=
  accIssue s t (rowSpan row n)
    (fun _ c => { range := decide ((c.get a).toInt < -512) || decide (511 < (c.get a).toInt) })
    (fun i c k => some (.renorm (c.get a).toInt k t.tile.val row.val (n.val + 1) i)) none

def execAccScale (t : AccSel) (row n : Fin 64) (a : SReg) (s : State) : Out :=
  accIssue s t (rowSpan row n)
    (fun _ c => { range := decide ((c.get a).toInt < -1023) || decide (1023 < (c.get a).toInt) })
    (fun i c k => some (.scale (c.get a).toInt k t.tile.val row.val (n.val + 1) i)) none

def execAccHdr (w : Bool) (d : SReg) (t : AccSel) (row : Fin 64) (s : State) : Out :=
  accIssue s t none noFaults (fun i _ k => some (.hdr w k t.tile.val row.val i)) (some d)

/-! ## The port (R246, R247) -/

/-- A tile of a crew changed. -/
def State.changeTile (s : State) (k tile : Nat) (f : Tile → Tile) : State :=
  match s.crew? k with
  | none => s
  | some y => s.setCrew k { y with tiles := y.tiles.modify tile f }

/-- A tile of a crew. -/
def State.tile (s : State) (k tile : Nat) : Tile :=
  match s.crew? k with
  | none => Tile.new
  | some y => y.tiles.getD tile Tile.new

/-- The stream whose `acc.*` has been applied goes on with a value, or raises a fault. -/
def State.accAnswer (s : State) (a : Issuer) (r : Except Trap W64) : State :=
  match s.sctx a with
  | none => s
  | some c =>
    if c.wait = .acc then
      s.setWait a (match r with
        | .ok v => .accDone v
        | .error t => .answerErr t)
    else s

/-- Rows row to row + n - 1 of a tile changed. -/
def Tile.changeRows (t : Tile) (row n : Nat) (f : AccRow → AccRow) : Tile :=
  (List.range n).foldl (fun t i => t.setRow (row + i) (f (t.row (row + i)))) t

/-- The rows of a tile that are not empty, from row on. -/
def Tile.live (t : Tile) (row n : Nat) : List AccRow :=
  ((List.range n).map fun i => t.row (row + i)).filter fun r => !r.empty

/-- An output row of `acc.st` written to its berth (R253). -/
def State.storeRow (s : State) (fmt : AccFmt) (rm : RmSr) (sat : Bool) (seed : W64) (o : OpRef) (t : Nat) (row : Nat)
    (r : AccRow) : State :=
  if fmt = .raw then s.poolStore (o.core * 2 ^ 20 + 64 * (o.line + o.off) + 388 * t) r.image
  else
    let out := r.output fmt rm sat seed row
    let s := s.putRow o.core (o.line + o.off) t (accLines fmt) out.1
    if out.2.isEmpty then s else s.poolStore (o.core * 2 ^ 20 + 64 * (o.line + o.soff) + 4 * t) out.2

/-- The rows of a tile that a contribution touches: crew, tile, first row, number, and whether it reads them. -/
def AccJob.rows : AccJob → Nat × Nat × Nat × Nat × Bool
  | .batches bs k tile _ _ => (k, tile, (bs.map (·.row)).foldl min 63, bs.length, true)
  | .clr k tile row n _ => (k, tile, row, n, false)
  | .ld rows k tile _ _ => (k, tile, (rows.map (·.1)).foldl min 63, rows.length, false)
  | .st _ _ _ _ _ k tile row n _ | .renorm _ k tile row n _ | .scale _ k tile row n _ => (k, tile, row, n, true)
  | .hdr _ k tile row _ => (k, tile, row, 1, true)
  | .hole _ _ _ k tile => (k, tile, 0, 0, false)

/-- Poison of the rows of a tile that a contribution touches, 388 bytes for each: a read of it is reported, and rows
written whole lose it (R289, R296). -/
def State.tileEcc (s : State) (j : AccJob) : State :=
  let (k, tile, row, n, reads) := j.rows
  if s.spoison.isEmpty then s
  else match s.crew? k with
    | none => s
    | some c =>
      let a := coreOf k * 2 ^ 20 + 32768 * (c.unit + c.part.rf + tile) + 388 * row
      if reads then s.crewEcc k (s.spoisoned a (388 * n))
      else { s with spoison := s.spoison.filter fun g => !(decide (a ≤ g * 8) && decide (g * 8 + 8 ≤ a + 388 * n)) }

/-- One contribution applied (R246, R251 to R256). -/
def State.applyJob (s : State) (j : AccJob) : State :=
  match j with
  | .batches bs k tile i src =>
    let s := s.changeTile k tile fun t => bs.foldl Tile.apply t
    match src with
    | .add _ => s.accAnswer i (.ok 0)
    | .mma _ | .push => s
  | .clr k tile row n i =>
    (s.changeTile k tile fun t =>
      let t := t.changeRows row n fun _ => AccRow.cleared
      if n = 64 then { t with events := 0, drops := 0 } else t).accAnswer i (.ok 0)
  | .ld rows k tile i _ =>
    (s.changeTile k tile fun t => rows.foldl (fun t x => t.setRow x.1 (rowOfImage x.2)) t).accAnswer i (.ok 0)
  | .st fmt rm sat seed o k tile row n i =>
    let t := s.tile k tile
    ((List.range n).foldl (fun s x => s.storeRow fmt rm sat seed o x (row + x) (t.row (row + x))) s).accAnswer i (.ok 0)
  | .renorm x k tile row n i =>
    (s.changeTile k tile fun t =>
      let up := ((t.live row n).filter fun r => decide (r.exp < x)).length
      let t := t.changeRows row n fun r => if !r.empty && decide (r.exp < x) then r.renorm (x - r.exp).toNat else r
      { t with events := satAdd t.events up }).accAnswer i (.ok 0)
  | .scale x k tile row n i =>
    if ((s.tile k tile).live row n).any fun r => decide (r.exp + x < -512) || decide (511 < r.exp + x) then
      s.accAnswer i (.error { code := .range })
    else
      (s.changeTile k tile fun t => t.changeRows row n fun r => if r.empty then r else { r with exp := r.exp + x }).accAnswer
        i (.ok 0)
  | .hdr w k tile row i =>
    let t := s.tile k tile
    let count := if w then t.drops else t.events
    s.accAnswer i (.ok (BitVec.ofNat 64 (count.toNat * 2 ^ 32 + (t.row row).header)))
  | .hole _ _ _ _ _ => s

/-- The accumulator port of a core applies the contribution that arrived first (R247); the place of a push whose word is
incomplete holds those behind it (R78). -/
def execAccBatchApply (core : Nat) (s : State) : Out :=
  let u := s.core core
  if s.gated (clusterOf core) then .next s
  else match u.port with
    | [] | .hole _ _ _ _ _ :: _ => .next s
    | j :: rest => .next (((s.setCore core { u with port := rest }).tileEcc j).applyJob j)

end Sys2Proof.Machine
end

