-- ==== Sys2Proof/Machine/ScalarMem.lean ====
section
/-! DEFINITION. Scalar memory: loads, stores, version waits, atomics, fences and `swait` (R137 to R142). -/

namespace Sys2Proof.Machine

/-- The bytes of a scalar size (R138). -/
def sizeBytes : ScalarSize → Nat
  | .n64 => 8
  | .n32 => 4
  | .n16 => 2
  | .n8 => 1

/-- A loaded value, sign-extended or zero-extended (R138). -/
def extended (sz : ScalarSize) (sgn : Bool) (bs : List Byte) : W64 :=
  let v := valOf bs
  if sgn then match sz with
    | .n64 => v
    | .n32 => (v.setWidth 32 : W32).signExtend 64
    | .n16 => (v.setWidth 16 : BitVec 16).signExtend 64
    | .n8 => (v.setWidth 8 : BitVec 8).signExtend 64
  else v

/-- A load of a size (R137, R138). -/
def scalarLoad (s : State) (len : Nat) (sz : ScalarSize) (sgn : Bool) (d a : SReg) (off : W64) : Out :=
  scalar s .any [] fun i c => do
    let va := c.addr a off
    aligned va (sizeBytes sz)
    s.interlock i d
    let (bs, t) ← s.scalarRead i c false .crew va (sizeBytes sz)
    .ok (t.finish i c len d (extended sz sgn bs))

/-- A store of a size (R137, R138). -/
def scalarStore (s : State) (len : Nat) (sz : ScalarSize) (d a : SReg) (off : W64) : Out :=
  scalar s .any [] fun i c => do
    let va := c.addr a off
    aligned va (sizeBytes sz)
    let t ← s.scalarWrite i va (leBytes (sizeBytes sz) (c.get d).toNat)
    .ok (t.next i c.pc len)

def execSld (d a : SReg) (i : BitVec 13) (s : State) : Out := scalarLoad s 4 .n64 false d a (sx i)
def execSst (d a : SReg) (i : BitVec 13) (s : State) : Out := scalarStore s 4 .n64 d a (sx i)
def execSldLong (sz : ScalarSize) (sgn : Bool) (d a : SReg) (i : W32) (s : State) : Out :=
  scalarLoad s 8 sz sgn d a (sx i)
def execSstLong (sz : ScalarSize) (d a : SReg) (i : W32) (s : State) : Out := scalarStore s 8 sz d a (sx i)

/-- The loop of R139: the stream sleeps until a strong read of the word meets the condition, which goes to sd. -/
def scalarWaitWord (s : State) (len : Nat) (sc : Issuer → ScalarCtx → Scope) (d : SReg) (va : ScalarCtx → W64)
    (ok : ScalarCtx → W64 → Bool) : Out :=
  scalar s .any [] fun i c => do
    let va := va c
    aligned va 8
    s.interlock i d
    let (bs, t) ← s.scalarRead i c true (sc i c) va 8
    if ok c (word64 bs) then .ok (t.finish i c len d (word64 bs)) else .error (.wait (t.sleep i va))

def execSldv (sc : Scope) (d a b : SReg) (i : W32) (s : State) : Out :=
  scalarWaitWord s 8 (fun _ _ => sc) d (fun c => c.addr a (sx i)) fun c v => decide ((c.get b).toNat ≤ v.toNat)

def execSwait (cc : WaitCond) (_acq : Bool) (d a b : SReg) (s : State) : Out :=
  scalarWaitWord s 4 (fun i c => if s.isPeer i (c.get a) then .fabric else .device) d (fun c => c.get a)
    fun c v => waitHolds cc v (c.get b)

/-- The lane atomic of a scalar one (R140, R210). -/
def laneAtom : SAtomOp → AtomOp
  | .add => .add
  | .and => .and
  | .or => .or
  | .xor => .xor
  | .min => .min
  | .max => .max
  | .minu => .minu
  | .maxu => .maxu
  | .exch => .exch
  | .cas => .cas

/-- The order names a release. -/
def Order.releases : Order → Bool
  | .rel | .acqrel => true
  | .relaxed | .acq => false

/-- The release of an ordered scalar access, made once: not again when its answer has come (R313, R319). -/
def State.releaseOnce (s : State) (i : Issuer) (c : ScalarCtx) (rel : Bool) (sc : Scope) : Act State :=
  match c.wait with
  | .answered _ | .answerErr _ => .ok s
  | _ => if rel then s.releaseFor i sc else .ok s

def execSatom (op : SAtomOp) (o : Order) (sc : Scope) (d a b : SReg) (i : BitVec 24) (s : State) : Out :=
  scalar s .any [] fun x c => do
    let va := c.addr a (sx i)
    aligned va 8
    s.interlock x d
    let t ← s.releaseOnce x c (Order.releases o) sc
    let (old, t) ← t.scalarAtomic x c (laneAtom op) o sc va (c.get b) (if op = .cas then c.get d else 0)
    .ok (t.finish x c 8 d old)

/-- The fence releases (R141, R327). -/
def FenceOrder.releases : FenceOrder → Bool
  | .rel | .acqrel => true
  | .acq => false

def execSfence (o : FenceOrder) (sc : Scope) (s : State) : Out :=
  scalar s .any [] fun i c => do
    let t ← if FenceOrder.releases o then s.releaseFor i sc else .ok s
    .ok (t.next i c.pc 4)

end Sys2Proof.Machine
end

