-- ==== Sys2Proof/Machine/Units.lean ====
section
/-!
DEFINITION. What the engines of a package share: their accesses of memory (R310, R319, R393), which stamp lines closed, their
pauses on DEMAND (R305, R306) and their reports (R459, R486).
-/

namespace Sys2Proof.Machine

/-- A unit's operation: who started it, the cluster whose translations it uses, where its reports come from, and its
reads and atomics on other packages. -/
structure UnitOp where
  who : Starter
  cl : Nat
  src : Source
  reader : Reader
  deriving DecidableEq, Repr

/-- No core: a unit's write spares no L1. -/
def noCore : Nat := 256

/-- The agent that a unit is. -/
def UnitOp.agent (u : UnitOp) : Who :=
  { asid := u.who.asid, part := u.who.part, core := 4 * u.cl, crew := none, reader := some u.reader }

/-- A crew started the operation: the generator has none. -/
def Starter.crewed (w : Starter) : Bool := w.grid < 4096

/-- The release sequence of a crew by its tag (R319). -/
def State.seqOf (s : State) (tag : Nat) : BitVec 5 :=
  match s.crewOfTag tag with
  | some k => match s.crew? k with
    | some c => c.seq
    | none => 0
  | none => 0

/-- A line brought under its key with its contributions applied (R294, R301). -/
def State.atHome (s : State) (x : Xl) : State := (s.underKey x.pa x.key).drainLine (lineOf x.pa)

/-- The line of an engine's write is stamped closed under the crew that started the operation (R310, R319). -/
def State.unitStamp (s : State) (u : UnitOp) (x : Xl) : State := s.closeStamp u.who.tag (s.seqOf u.who.tag) x

/-- What an operation of a unit comes to, or why it is not performed, with the address of the failure. -/
abbrev UnitAct (α : Type) := Except AccErr α

/-- Bytes of this package that a unit reads within one line; poisoned bytes are reported, and the operation goes on (R296;
log 37). -/
def State.unitRead (s : State) (u : UnitOp) (x : Xl) (n : Nat) : List Byte × State :=
  let s := s.atHome x
  (s.readPa x.pa n, if s.poisoned x.pa n then s.engineFault u.who .ecc u.src else s)

/-- Bytes that a unit writes within one line of this package. -/
def State.unitWrite (s : State) (u : UnitOp) (x : Xl) (bs : List Byte) : State :=
  ((s.atHome x).writePa noCore x.pa bs).unitStamp u x

/-- An addition of a lighter to a word of this package: in the tun on tun-eligible pages, at the home slice elsewhere (R213,
R294, R333). It checks no stamp, and leaves the line's closed (log 70). -/
def State.unitAdd (s : State) (u : UnitOp) (x : Xl) (fx : Bool) (v : W64) : State :=
  let t : TunAdd := { core := noCore, addr := x.pa, fx := fx, val := v }
  let s := s.underKey x.pa x.key
  let s := if s.poisoned x.pa (if fx then 8 else 4) then s.engineFault u.who .ecc u.src else s
  if x.cache == 2 then { s with tun := s.tun ++ [t] }.unitStamp u x
  else
    let s := s.drainLine (lineOf x.pa)
    (s.writePa noCore x.pa (tunWord s.mem t)).unitStamp u x

/-- A read within one line: of another package, what the unit has learned of its line (R293, R425). -/
def State.unitPart (s : State) (u : UnitOp) (a n : Nat) : UnitAct (List Byte × State) :=
  match s.xlate u.agent (BitVec.ofNat 64 a) false with
  | .error c => atVa a (.error (.page c))
  | .ok x =>
    if x.home = s.ident.pkg then .ok (s.unitRead u x n)
    else match s.peerLine u.reader x with
      | some bs => .ok ((bs.drop (x.pa % 128)).take n, s)
      | none => .error (.remote x)

/-- Bytes that a unit reads, line by line. -/
def State.unitParts (s : State) (u : UnitOp) : List (Nat × Nat) → UnitAct (List Byte × State)
  | [] => .ok ([], s)
  | (a, n) :: t => match s.unitPart u a n with
    | .error e => .error e
    | .ok (bs, s) => match State.unitParts s u t with
      | .error e => .error e
      | .ok (cs, s) => .ok (bs ++ cs, s)

/-- Bytes that a unit reads. -/
def State.unitLoad (s : State) (u : UnitOp) (va : W64) (n : Nat) : UnitAct (List Byte × State) :=
  s.unitParts u (span va n)

/-- A request of a unit whose answer carries nothing but its end. -/
def State.unitRequest (s : State) (u : UnitOp) (p : FabPacket) : State := (s.request p (.peer u.reader) (p.pa / 128) []).2

/-- Bytes that a unit writes, line by line: a `WR` to another package. -/
def State.unitPut (s : State) (u : UnitOp) (bs : List Byte) : List (Nat × Nat) → UnitAct State
  | [] => .ok s
  | (a, n) :: t => match s.xlate u.agent (BitVec.ofNat 64 a) true with
    | .error c => atVa a (.error (.page c))
    | .ok x =>
      State.unitPut
        (if x.home = s.ident.pkg then s.unitWrite u x (bs.take n)
          else s.unitRequest u { s.packet x.home .wr (wrPayload [(x.pa % 128, bs.take n)]) with
            keyid := x.key, pa := x.pa / 128 * 128 })
        u (bs.drop n) t

/-- Bytes that a unit writes. -/
def State.unitStore (s : State) (u : UnitOp) (va : W64) (bs : List Byte) : UnitAct State :=
  s.unitPut u bs (span va bs.length)

/-- The stamp on which an atomic of a unit fails: one that is open under another crew (R310, R320; log 58). -/
def State.unitRace (s : State) (u : UnitOp) (x : Xl) : Option W32 :=
  let st := (s.line (lineOf x.pa)).stamp
  if u.who.crewed && x.rc && inHbm x.pa && st.open_ && st.tag != u.who.tag then some st.word else none

/-- An atomic of a unit on a word of n bytes of this package: the old value. Without the check it is an engine's write
(R310, R326). -/
def State.unitAtomic (s : State) (u : UnitOp) (x : Xl) (n : Nat) (check : Bool) (f : W64 → W64) :
    UnitAct (W64 × State) :=
  let s := s.atHome x
  let old := valOf (s.readPa x.pa n)
  let t := s.writePa noCore x.pa (leBytes n (f old).toNat)
  match if check then s.unitRace u x else none with
  | some st => .error (.race st)
  | none =>
    if s.poisoned x.pa n then .error .ecc
    else .ok (old, if check then t else t.unitStamp u x)

/-- Numbers reserved by an atomic addition whose old value the unit takes (R271). -/
def State.unitReserve (s : State) (u : UnitOp) (va : W64) (n : Nat) (v : W64) : UnitAct (W64 × State) :=
  match s.xlate u.agent va true with
  | .error c => .error (.at_ va (.page c))
  | .ok x =>
    if x.home = s.ident.pkg then atVa va.toNat (s.unitAtomic u x n true (· + v))
    else match s.rayAtomic u.agent x n .add v 0 with
      | .error e => .error e
      | .ok old => .ok (old, s)

/-- A word of n bytes changed by `f`, which on another package is the reduction `op` with v. -/
def State.unitChange (s : State) (u : UnitOp) (va : W64) (n : Nat) (check : Bool) (op : RedOp) (v : W64)
    (f : W64 → W64) : UnitAct State :=
  match s.xlate u.agent va true with
  | .error c => .error (.at_ va (.page c))
  | .ok x =>
    if x.home = s.ident.pkg then match atVa va.toNat (s.unitAtomic u x n check f) with
      | .error e => .error e
      | .ok (_, s) => .ok s
    else .ok (s.unitRequest u { s.packet x.home .red (atmEntry 0 (x.pa % 128) v 0) with
      keyid := x.key, pa := x.pa / 128 * 128, scope := .device, ord := .rel, aop := op.code,
      sz := if n = 8 then .b64 else .b32 })

/-- Word 9 of a ray record with a STATUS, done (R277). -/
def doneWord (status : Nat) (old : W64) : W64 :=
  BitVec.ofNat 64 (fld old.toNat 0 16 + status % 16 * 2 ^ 16 + fld old.toNat 20 4 * 2 ^ 20 + 3 * 2 ^ 24
    + fld old.toNat 26 6 * 2 ^ 26)

/-- A ray in flight becomes done, in one step at the home slice of its record (R278, R282). -/
def State.unitDone (s : State) (u : UnitOp) (va : W64) (status : Nat) : UnitAct State :=
  match s.xlate u.agent va true with
  | .error c => .error (.at_ va (.page c))
  | .ok x =>
    if x.home = s.ident.pkg then match atVa va.toNat (s.unitAtomic u x 4 true (doneWord status)) with
      | .error e => .error e
      | .ok (_, s) => .ok s
    else match s.unitLoad u va 4 with
      | .error e => .error e
      | .ok (bs, s) => s.raySwap u.agent x 4 (valOf bs) (doneWord status (valOf bs))

/-- Entries join an emit stream of a die (R157). -/
def State.pushEmit (s : State) (d k : Nat) (l : List EmitEntry) : State :=
  let u := s.die d
  s.setDie d { u with emit := u.emit.set k (u.emit.getD k [] ++ l) }

/-- One step of a unit's operation. -/
def State.unitStep (s : State) (u : UnitOp) : UnitStep → UnitAct State
  | .put va bs => s.unitStore u va bs
  | .add va n v check => s.unitChange u va n check .add v (· + v)
  | .set va n v check => s.unitChange u va n check .or v (· ||| v)
  | .done va status => s.unitDone u va status
  | .free pool i => s.freeRay u.agent pool i
  | .emit k l => .ok (s.pushEmit u.src.die k l)

/-- Bytes stored in steps of at most a line. -/
def putSteps : Nat → W64 → List Byte → List UnitStep
  | 0, _, _ => []
  | k + 1, va, bs => if bs.isEmpty then [] else .put va (bs.take 128) :: putSteps k (va + 128) (bs.drop 128)

/-- The step may be made while earlier ones wait for their answers: it is no release (R271). -/
def UnitStep.free_ : UnitStep → Bool
  | .put _ _ => true
  | .add _ _ _ _ | .set _ _ _ _ | .done _ _ | .free _ _ | .emit _ _ => false

/-! ## Pauses and failures (R305, R306, R486) -/

/-- Who posts to the fault queue (R306): AGENT, SUB, the number of its cluster or die, and which of its operations. -/
structure Poster where
  agent : Nat
  sub : Nat
  key : Nat
  sel : Nat
  deriving DecidableEq, Repr

/-- The poster waits for an acknowledgement. -/
def State.isPaused (s : State) (p : Poster) : Bool :=
  s.paused.any fun x => x.agent == p.agent && x.sub == p.sub && x.key == p.key && x.sel == p.sel

/-- A unit pauses on DEMAND, and an entry is to be posted (R305). -/
def State.pause (s : State) (p : Poster) (u : UnitOp) (va resume_ : Nat) : State :=
  { s with paused := s.paused ++ [{ agent := p.agent, sub := p.sub, key := p.key, who := u.who, cause := .demand,
                                    va := BitVec.ofNat 64 va, resume_ := resume_, sel := p.sel, entry := none }] }

/-- The address of a failure. -/
def AccErr.address : AccErr → Nat
  | .at_ va _ => va.toNat
  | _ => 0

/-- How an attempt at a step of a unit's operation ends. -/
inductive UnitEnd (α : Type) where
  | done (x : α)
  /-- the unit waits for another package, and the step is tried again -/
  | waits (s : State)
  /-- a DEMAND fault at an address -/
  | demand (va : Nat)
  /-- the operation is abandoned, with the code of its report -/
  | fails (c : Code)
  deriving DecidableEq, Repr

/-- The end of an attempt made in state s (R305, R486). -/
def State.attempt {α : Type} (s : State) (u : UnitOp) : UnitAct α → UnitEnd α
  | .ok x => .done x
  | .error e => match e.bare with
    | .remote _ | .remoteAtomic _ _ _ => .waits (s.askPeer u.reader e)
    | .stale x => .waits (s.dropPeerLine u.reader x)
    | .wait => .waits s
    | .page .demand => .demand e.address
    | .page .ecc | .ecc => .fails .ecc
    | .page _ => .fails .page
    | .race _ => .fails .race
    | .code c => .fails c
    | .at_ _ _ => .waits s

/-- The unit's request is out, or the streams have no room for another. -/
def State.unitBusy (s : State) (u : UnitOp) (needsAnswers : Bool) : Bool :=
  (needsAnswers && s.peerWaits u.reader) || decide (32704 ≤ s.reqs.length)

/-- One step of an operation is attempted; what the unit had learned for it is then forgotten. -/
def State.tryStep (s : State) (u : UnitOp) (x : UnitStep) : UnitEnd State :=
  if s.unitBusy u (!x.free_) then .waits s
  else match s.attempt u (s.unitStep u x) with
    | .done s => .done (s.dropPeer u.reader)
    | r => r

/-- Reads and reservations of an operation are attempted. -/
def State.tryAct {α : Type} (s : State) (u : UnitOp) (r : UnitAct (α × State)) : UnitEnd (α × State) :=
  if s.unitBusy u true then .waits s
  else match s.attempt u r with
    | .done (x, s) => .done (x, s.dropPeer u.reader)
    | r => r

/-- The operation is abandoned: the report (R486). -/
def State.unitReport (s : State) (u : UnitOp) (c : Code) : State := s.engineFault u.who c u.src

end Sys2Proof.Machine
end

