-- ==== Sys2Proof/Machine/Phase.lean ====
section
/-!
DEFINITION. Weight (R160 to R162, R357, R358): the atomics on a phase record, `wsplit`, `wret` and the answers to grant
requests; tile queues: `tq.take`, `tq.steal` and `tq.give` (R159, R442, R443).
-/

namespace Sys2Proof.Machine

/-! ## Accesses of the dispatchers -/

/-- A dispatcher, in the address space of a grid and partition: no crew (R320). -/
def dispatcherWho (asid part : Nat) : Who := { asid := asid, part := part, core := 64 * part, crew := none }

/-- A dispatcher's operation, for the writes that it sends to other packages. -/
def State.gridStarter (s : State) (k : Nat) : Starter :=
  let gr := s.grid? k
  { asid := (gr.map (·.asid)).getD 0, part := (gr.map (·.part)).getD 0, grid := k, gid := s.gridId (some k), index := 0,
    tag := 0, queue := gr.map (·.queue) }

/-- Bytes written within one line at a translated address, in this package or another one (R425). They open and close
no stamp (log 22). -/
def State.devStore (s : State) (w : Starter) (x : Xl) (bs : List Byte) : State :=
  if x.home != s.ident.pkg then
    let p := { s.packet x.home .wr (wrPayload [(x.pa % 128, bs)]) with keyid := x.key, pa := x.pa / 128 * 128 }
    (s.request p (.unit w) (p.pa / 128) []).2
  else (s.atHome x).writePa noCore x.pa bs

/-- Bytes read within one line at a translated address: of another package, what the reader has learned of its line (R293,
R425). -/
def State.devLoad (s : State) (r : Reader) (x : Xl) (n : Nat) : Except AccErr (List Byte × State) :=
  if x.home = s.ident.pkg then .ok ((s.atHome x).readPa x.pa n, s.atHome x)
  else match s.peerLine r x with
    | some bs => .ok ((bs.drop (x.pa % 128)).take n, s)
    | none => .error (.remote x)

/-! ## The phase record (R357, R358) -/

/-- The phase record of a grid, as the grid's dispatcher translates it. -/
def State.phaseAt (s : State) (asid part : Nat) (phase : W64) : Except PageCause Xl :=
  s.xlate (dispatcherWho asid part) phase true

/-- Poison that a dispatcher's access of n bytes meets is reported; the access goes on (R296; log 37). -/
def State.recordPoison (s : State) (x : Xl) (n : Nat) : State :=
  if s.poisoned x.pa n then s.report none [] .ecc { die := dieOfPa x.pa, from_ := 0, unit := 0 } 0 0 0 0 else s

/-- The atomic that adds a granted amount to OUT, and 1 to GRANTS (R358). -/
def State.addOut (s : State) (x : Xl) (v : W64) : State :=
  let s := (s.atHome x).recordPoison x 32
  let out := leNat (s.readPa x.pa 16)
  let s := s.writePa noCore x.pa (leBytes 16 ((out + v.toNat) % 2 ^ 128))
  s.writePa noCore (x.pa + 0x18) (bytes64 (word64 (s.readPa (x.pa + 0x18) 8) + 1))

/-- The atomic that subtracts a returned amount from OUT; when it brings OUT to 0, it adds 1 to DONE (R358). -/
def State.subOut (s : State) (x : Xl) (v : W64) : State :=
  let s := (s.atHome x).recordPoison x 24
  let out := (leNat (s.readPa x.pa 16) + 2 ^ 128 - v.toNat) % 2 ^ 128
  let s := s.writePa noCore x.pa (leBytes 16 out)
  if out = 0 then s.writePa noCore (x.pa + 0x10) (bytes64 (word64 (s.readPa (x.pa + 0x10) 8) + 1)) else s

/-- The kinds of a weight message, as its payload numbers them (R424; log 23). -/
inductive WgtKind where
  | ask | grant | back
  deriving DecidableEq, Repr

/-- The number of a kind (log 23). -/
def WgtKind.num : WgtKind → Nat
  | .ask => 0
  | .grant => 1
  | .back => 2

/-- A weight message about a record in another package (R424). -/
def State.wgtPacket (s : State) (x : Xl) (v : W64) (k : WgtKind) : FabPacket :=
  { s.packet x.home .wgt (bytes64 v ++ leBytes 8 k.num) with keyid := x.key, pa := x.pa, scope := .fabric, sz := .b64 }

/-- Weight returned to a phase record (R136, R162, R352, R358): grid k, which a failed translation names. -/
def State.returnTo (s : State) (k : Option Nat) (asid part : Nat) (phase v : W64) : State :=
  if v = 0 then s
  else match s.phaseAt asid part phase with
    | .error _ => s.report k [] .page { die := part, from_ := 0, unit := 0 } 0 0 0 0
    | .ok x => if x.home != s.ident.pkg then s.send (s.wgtPacket x v .back) else s.subOut x v

/-- The home of a grid's phase record is another package. -/
def State.farPhase (s : State) (k : Nat) : Bool :=
  match s.grid? k with
  | none => false
  | some gr => match s.phaseAt gr.asid gr.part gr.phase with
    | .ok x => x.home != s.ident.pkg
    | .error _ => false

/-- Weight of grid k sent to its phase root. -/
def State.sendWeight (s : State) (k : Nat) (v : W64) : State :=
  match s.grid? k with
  | none => s
  | some gr => s.returnTo (some k) gr.asid gr.part gr.phase v

/-- Weight of grid k returned to its phase root; what a `wret` returns goes behind its crew's accesses, the peer ones of its
other gangs among them (R162, R328). -/
def State.returnWeight (s : State) (k : Nat) (v : W64) : State :=
  match (curIssuer s.cur).bind s.issuerCrew with
  | none => s.sendWeight k v
  | some (key, y) =>
    if v ≠ 0 ∧ y.grid = k ∧ (!y.owed.isEmpty || s.crewPending key y (s.farPhase k)) then
      s.setCrew key { y with owed := y.owed ++ [(v, s.farPhase k)] }
    else s.sendWeight k v

/-- Weight that a crew has returned is sent once its accesses before it are performed (R162, R328). -/
def State.sendOwed (s : State) (key : Nat) : State :=
  match s.crew? key with
  | none => s
  | some c =>
    if c.owed.isEmpty || s.crewPending key c (c.owed.any (·.2)) then s
    else c.owed.foldl (fun s e => s.sendWeight c.grid e.1) (s.setCrew key { c with owed := [] })

/-! ## `wsplit` and `wret` (R162) -/

def execWsplit (d a : SReg) (s : State) : Out :=
  scalar s .gangs [] fun i c => do
    let x := c.get a
    s.interlock i d
    match c.wait with
    | .answerErr t => raise t
    | _ => do
      let t ← s.detach i (c.wait == .granted x) x (.grant x)
      .ok (t.finish i c 4 d x)

def execWret (a : SReg) (s : State) : Out :=
  scalar s .gangs [] fun i c =>
    let x := c.get a
    match s.issuerCrew i with
    | none => .ok s
    | some (k, y) => do
      require (decide (x.toNat ≤ y.wgt.toNat)) .weight
      if x = 0 then .ok (s.next i c.pc 4)
      else do
        let t ← s.releaseFor i (if s.farPhase y.grid then .fabric else .device)
        let t := match t.crew? k with
          | some y => t.setCrew k { y with wgt := y.wgt - x }
          | none => t
        .ok ((t.returnWeight y.grid x).next i c.pc 4)

/-! ## Grants (R161) -/

/-- The wait that an answered grant leaves. -/
def ScalarWait.answerGrant : ScalarWait → ScalarWait
  | .grant x => .granted x
  | .launchSlot t x p => .launchGranted t x p
  | w => w

/-- The stream waits for a grant. -/
def ScalarWait.awaitsGrant : ScalarWait → Bool
  | .grant _ | .launchSlot _ _ _ => true
  | _ => false

/-- A stream's request for a grant has been answered. -/
def State.grantTo (s : State) (a : Issuer) : State :=
  match s.sctx a with
  | none => s
  | some c => s.setWait a c.wait.answerGrant

/-- Request i for a grant is served: at the record, or by a message to its package (R161, R358). -/
def execWeightGrant (i : Nat) (s : State) : Out :=
  match s.grants[i]? with
  | none => .next s
  | some (a, v) =>
    let t : State := { s with grants := s.grants.eraseIdx i }
    match s.issuerGridOf a with
    | none => .next t
    | some (k, gr) => match s.phaseAt gr.asid gr.part gr.phase with
      | .error _ => .next (t.report (some k) [] .page { die := gr.part, from_ := 0, unit := 0 } 0 0 0 0)
      | .ok x =>
        if x.home = s.ident.pkg then .next ((t.addOut x v).grantTo a)
        else if s.streamRoom x.home then .next (t.request (t.wgtPacket x v .ask) (.scalar a) (x.pa / 128) []).2
        else .next s

/-! ## Tile queues (R159, R442, R443) -/

/-- The first 24 bytes of a tile-queue descriptor (R442). -/
structure TileQueue where
  tail : W32
  head : W32
  give : W32
  lag : Bool
  w : W64
  deriving DecidableEq, Repr

/-- A descriptor's bytes read as a tile queue. -/
def tileQueueOf (bs : List Byte) : TileQueue :=
  { head := word32 bs, tail := word32 (bs.drop 4), give := word32 (bs.drop 8), lag := (word32 (bs.drop 12)).getLsbD 0,
    w := word64 (bs.drop 16) }

/-- HT: the word at 0x00. -/
def htWord (tail head : W32) : W64 := tail ++ head

/-- What a compare-and-swap that wins against a queue makes: the new HT, the result, and the weight gained (R159). -/
structure TileTake where
  ht : W64
  result : W64
  weight : W64
  deriving DecidableEq, Repr

/-- `tq.take` (R159). -/
def TileQueue.take (q : TileQueue) : TileTake :=
  if q.head.toNat < q.tail.toNat then
    { ht := htWord q.tail (q.head + 1), result := q.head.setWidth 64, weight := q.w }
  else { ht := htWord q.tail q.head, result := BitVec.allOnes 64, weight := 0 }

/-- The tiles that a `tq.steal` takes (R159). -/
def TileQueue.loot (q : TileQueue) : W32 :=
  let lo := if !q.lag && decide (q.head.toNat < q.give.toNat) then q.give else q.head
  if lo.toNat < q.tail.toNat then BitVec.ofNat 32 (min ((q.tail - q.head) >>> 1).toNat (q.tail - lo).toNat) else 0

/-- `tq.steal` (R159). -/
def TileQueue.steal (q : TileQueue) : TileTake :=
  let k := q.loot
  if k = 0 then { ht := htWord q.tail q.head, result := 0, weight := 0 }
  else { ht := htWord (q.tail - k) q.head, result := k ++ (q.tail - k), weight := k.setWidth 64 * q.w }

/-- The index from which `tq.give` lets tiles go (R159). -/
def TileQueue.giveFrom (q : TileQueue) (n : W32) : W32 :=
  if q.head.toNat < q.tail.toNat then BitVec.ofNat 32 (q.tail.toNat - min n.toNat (q.tail.toNat - q.head.toNat)) else 0

/-- The atomic of a tile queue at another package goes out, with the descriptor that was read (R159, R443). -/
def State.askQueue (s : State) (i : Issuer) (va : W64) (line : List Byte) (op : AtomOp) (n : Nat) (v cmp : W64)
    (o : Order) : Act State := do
  let s ← s.releaseFor i .fabric
  match s.xlate (s.who i) va true with
  | .error e => raise (accTrap va (.page e))
  | .ok x => s.ask i (s.scalarPacket x .atm (atmEntry 0 (x.pa % 128) v cmp) .fabric o op.code n) fun id => .casOut id line

/-- The descriptor of a tile queue is read, by a request when it lies in another package (R159). -/
def State.readQueue (s : State) (i : Issuer) (va : W64) : Act (TileQueue × State) :=
  match s.strongLoad (s.who i) va 24 with
  | .ok (bs, s) => .ok (tileQueueOf bs, s)
  | .error (.remote x) => s.ask i (s.scalarPacket x .rd [] .fabric .relaxed 0 8) .remote
  | .error e => raise (accTrap va e)

/-- The word that a tile queue's atomic changes may be written (R128). -/
def State.checkWord (s : State) (i : Issuer) (va : W64) : Act Unit :=
  match s.xlate (s.who i) va true with
  | .ok _ => .ok ()
  | .error c => raise (accTrap va (.page c))

/-- `tq.take` and `tq.steal`: the compare-and-swap on HT, at its home slice or over the fabric, until it wins (R159,
R443). One that takes nothing swaps HT for itself (log 24). -/
def tileTake (s : State) (d a : SReg) (f : TileQueue → TileTake) : Out :=
  scalar s .gangs [] fun i c => do
    let va := c.get a
    aligned va 64
    s.interlock i d
    match c.wait with
    | .answerErr t => raise { t with va := va }
    | .answered line =>
      let q := tileQueueOf (line.drop (va.toNat % 128))
      s.askQueue i va line .cas 8 (f q).ht (htWord q.tail q.head) .acqrel
    | .casBack line old =>
      let q := tileQueueOf (line.drop (va.toNat % 128))
      if word64 old = htWord q.tail q.head then .ok ((s.addWeight i (f q).weight).finish i c 4 d (f q).result)
      else .error (.wait (s.setWait i .none))
    | _ => do
      s.checkWord i va
      let (q, t) ← s.readQueue i va
      let t ← t.releaseFor i .device
      match t.atomic (t.who i) va 8 fun _ => bytes64 (f q).ht with
      | .error e => raise (accTrap va e)
      | .ok (_, t) => .ok ((t.addWeight i (f q).weight).finish i c 4 d (f q).result)

def execTqTake (d a : SReg) (s : State) : Out := tileTake s d a TileQueue.take
def execTqSteal (d a : SReg) (s : State) : Out := tileTake s d a TileQueue.steal

def execTqGive (a b : SReg) (s : State) : Out :=
  scalar s .gangs [] fun i c => do
    let va := c.get a
    let n : W32 := (c.get b).setWidth 32
    aligned va 64
    match c.wait with
    | .answerErr t => raise { t with va := va }
    | .answered line =>
      let q := tileQueueOf (line.drop (va.toNat % 128))
      s.askQueue i (va + 8) line .minu 4 ((q.giveFrom n).setWidth 64) 0 .rel
    | .casBack _ _ => .ok (s.next i c.pc 4)
    | _ => do
      s.checkWord i (va + 8)
      let (q, t) ← s.readQueue i va
      let t ← t.releaseFor i .device
      match t.atomic (t.who i) (va + 8) 4 fun bs =>
          accBytes false (redValue .minu false (valOf bs) ((q.giveFrom n).setWidth 64)) with
      | .error e => raise (accTrap va e)
      | .ok (_, t) => .ok (t.next i c.pc 4)

end Sys2Proof.Machine
end

