-- ==== Sys2Proof/Machine/Launch.lean ====
section
/-!
DEFINITION. The launch queues: their table (R348), the reservation of a slot (R349), the launch packet (R350), `glaunch`
(R163) and the status word (R351).
-/

namespace Sys2Proof.Machine

/-! ## Partitions (R299, R449) -/

/-- The execution partitions of a PMODE: lowest die and dies (R449). -/
def partitions : Nat → List (Nat × List Nat)
  | 0 => [(0, [0, 1, 2, 3])]
  | 1 => [(0, [0, 1]), (2, [2, 3])]
  | 2 => [(0, [0]), (1, [1]), (2, [2]), (3, [3])]
  | _ => [(0, [0, 1]), (2, [2]), (3, [3])]

/-- The dies of a partition; none when it is no partition of the configuration. -/
def State.partDies (s : State) (part : Nat) : List Nat :=
  match (partitions s.ident.pmode).find? fun e => e.1 == part with
  | some e => e.2
  | none => []

/-! ## The queue table (R348) -/

/-- An entry of the queue table. -/
structure QueueEntry where
  base : W64
  tail : W32
  head : W32
  asid : Nat
  logn : Nat
  die : Nat
  cls : Nat
  part : Nat
  /-- EN, with no reserved field set -/
  on : Bool
  deriving DecidableEq, Repr

/-- The 32 bytes of an entry. -/
def queueEntryOf (bs : List Byte) : QueueEntry :=
  let w := fieldAt bs 0x10 8
  { base := word64 bs, head := word32 (bs.drop 8), tail := word32 (bs.drop 12), asid := fld w 36 12, logn := fld w 16 5,
    die := fld w 10 2, cls := fld w 8 2, part := fld w 4 2,
    on := flag w 0 && fld w 48 16 == 0 && fld w 21 15 == 0 && fld w 12 4 == 0 && fld w 6 2 == 0 && fld w 1 3 == 0
      && fieldAt bs 0x18 8 == 0 }

/-- A physical address under key 0 (R348). -/
def State.plainAt (s : State) (pa : Nat) : Xl := { pa := pa, home := s.ident.pkg, key := 0, rc := false, cache := 0 }

/-- The physical address of entry q. -/
def State.queueAt (s : State) (q : Nat) : Nat := s.launch.qtbase.toNat + 32 * q

/-- Entry q of the queue table. -/
def State.queueEntry (s : State) (q : Nat) : QueueEntry :=
  queueEntryOf ((s.atHome (s.plainAt (s.queueAt q))).readPa (s.queueAt q) 32)

/-- The entry is enabled (R348); to `glaunch` too (R349; log 66). -/
def State.queueOn (s : State) (e : QueueEntry) : Bool :=
  let dies := s.partDies e.part
  e.on && decide (e.logn ≤ 16) && !dies.isEmpty && (dies.length == 4 || dies.contains e.die)

/-- The ring has a slot left (R349). -/
def QueueEntry.room (e : QueueEntry) : Bool := decide ((e.tail - e.head).toNat < 2 ^ e.logn)

/-- The virtual address of a slot. -/
def QueueEntry.slotAt (e : QueueEntry) (slot : W32) : W64 := e.base + BitVec.ofNat 64 (64 * (slot.toNat % 2 ^ e.logn))

/-- The page of a slot, through the ring's address space. -/
def State.slotPage (s : State) (e : QueueEntry) (slot : W32) (write : Bool) : Except PageCause Xl :=
  s.xlate (dispatcherWho e.asid e.part) (e.slotAt slot) write

/-- The source of a launch queue's report (R459). -/
def queueSource (e : QueueEntry) (q : Nat) : Source := { die := e.die, from_ := 6, unit := q }

/-! ## The launch packet (R350) -/

/-- A launch packet. -/
structure LaunchPacket where
  kimg : W64
  args : W64
  valid : Bool
  vscope : Nat
  vwen : Bool
  coop : Bool
  conv : Nat
  depth : Nat
  asid : Nat
  ncrew : Nat
  weight : W64
  vaddr : W64
  vexp : W64
  phase : W64
  parent : W32
  /-- every reserved field is 0 -/
  clean : Bool
  deriving DecidableEq, Repr

/-- The 64 bytes of a packet. -/
def launchPacketOf (bs : List Byte) : LaunchPacket :=
  let c := fieldAt bs 0x10 8
  { kimg := word64 bs, args := word64 (bs.drop 8), valid := flag c 54, vscope := fld c 52 2, vwen := flag c 51,
    coop := flag c 50, conv := fld c 48 2, depth := fld c 44 4, asid := fld c 32 12, ncrew := fld c 0 32,
    weight := word64 (bs.drop 0x18), vaddr := word64 (bs.drop 0x20), vexp := word64 (bs.drop 0x28),
    phase := word64 (bs.drop 0x30), parent := word32 (bs.drop 0x38),
    clean := fld c 55 9 == 0 && fieldAt bs 0x3C 4 == 0 }

/-- The packet as `glaunch` publishes it for a grid: the fields replaced as R350 says. -/
def publishedPacket (gr : Grid) (w : W64) (bs : List Byte) : List Byte :=
  let c := fieldAt bs 0x10 8
  let c := c % 2 ^ 44 + (gr.nest + 1) % 16 * 2 ^ 44 + c / 2 ^ 48 % 64 * 2 ^ 48 + 2 ^ 54 + c / 2 ^ 55 * 2 ^ 55
  bs.take 0x10 ++ leBytes 8 c ++ bytes64 w ++ (bs.drop 0x20).take 0x10 ++ bytes64 gr.phase ++ bytes32 gr.id
    ++ (bs.drop 0x3C).take 4

/-- What queue q's dispatcher reads of its head is poisoned: its entry, its slot, or its version word (R296, R353). -/
def State.headPoison (s : State) (q : Nat) : Bool :=
  let e := s.queueEntry q
  let here (x : Xl) (n : Nat) : Bool := x.home == s.ident.pkg && s.poisoned x.pa n
  !s.poison.isEmpty && (s.poisoned (s.queueAt q) 32 || s.queueOn e && match s.slotPage e e.head true with
    | .error _ => false
    | .ok x => here x 64 ||
      let p := launchPacketOf (s.readPa x.pa 64)
      x.home == s.ident.pkg && p.valid && p.vwen && match s.xlate (dispatcherWho p.asid e.part) p.vaddr false with
        | .error _ => false
        | .ok y => here y 8)

/-- Poison that a dispatcher reads is reported once for each head slot, naming the queue; it goes on with the bytes that
stand there (R296, R353; log 37). -/
def State.reportPoison (s : State) (q : Nat) : State :=
  let e := s.queueEntry q
  let h := (q + 64, e.head.toNat)
  if !s.headPoison q || s.launch.reported.contains h then s
  else { s with launch := { s.launch with reported := s.launch.reported ++ [h] } }.report none [] .ecc (queueSource e q) 0 0 0 0

/-- A word of entry q written; who changes the entry reads it (R296, R349). -/
def State.putQueue (s : State) (q off : Nat) (bs : List Byte) : State :=
  let s := s.reportPoison q
  let x := s.plainAt (s.queueAt q)
  (s.atHome x).writePa noCore (x.pa + off) bs

/-! ## The head of a queue (R353) -/

/-- How a queue's head stands: it is not published or its version has not come, its translation failed, a line of another
package is to be read for it at a scope, or it is ready with its packet. -/
inductive Head where
  | off
  | stuck
  | asks (sc : Scope) (e : AccErr)
  | ready (e : QueueEntry) (x : Xl) (bs : List Byte)
  deriving DecidableEq, Repr

/-- The version word of a packet, read at its VSCOPE, has come to the value that it waits for (R353). -/
def State.versionHead (s : State) (q : Nat) (e : QueueEntry) (x : Xl) (bs : List Byte) : Head :=
  let p := launchPacketOf bs
  match s.xlate (dispatcherWho p.asid e.part) p.vaddr false with
  | .error _ => .stuck
  | .ok y => match s.devLoad (.queue q) y 8 with
    | .error r => .asks (if p.vscope = 3 then .fabric else .device) r
    | .ok (v, _) => if p.vexp.toNat ≤ (valOf v).toNat then .ready e x bs else .off

/-- The head of queue q as its dispatcher finds it. -/
def State.queueHead (s : State) (q : Nat) : Head :=
  let e := s.queueEntry q
  if !s.queueOn e then .off
  else match s.slotPage e e.head true with
    | .error _ => .stuck
    | .ok x => match s.devLoad (.queue q) x 64 with
      | .error r => .asks .device r
      | .ok (bs, _) =>
        if !(launchPacketOf bs).valid then .off
        else if (launchPacketOf bs).vwen then s.versionHead q e x bs else .ready e x bs

/-! ## `glaunch` (R163) -/

/-- The reserved slot's address is translated: on a failure a device-level PAGE fault names the grid and the queue, and
the slot stays reserved (step 6). -/
def State.launchPage (s : State) (k : Nat) (q : Nat) (e : QueueEntry) (slot : W32) : Except State Xl :=
  match s.slotPage e slot true with
  | .ok x => .ok x
  | .error _ => .error (s.report (some k) [] .page (queueSource e q) 0 0 0 0)

/-- The packet is written into its slot, the child is counted, and the release is made (steps 7 and 8). -/
def State.publish (s : State) (i : Issuer) (c : ScalarCtx) (k : Nat) (gr : Grid) (d : SReg) (q : Nat) (slot : W32) (x : Xl)
    (bs : List Byte) : Act State := do
  let s ← s.releaseFor i .device
  let s := s.devStore (s.gridStarter k) x bs
  let s := s.setGrid k { gr with launched := gr.launched ++ [(q, slot)] }
  .ok (s.finish i c 4 d 0)

/-- Steps 5 to 8 for a packet that was read. One that ends with 1 or at the slot's page closes no stamp (R319; log 66). -/
def State.launchPacket (s : State) (i : Issuer) (c : ScalarCtx) (k : Nat) (gr : Grid) (q : Nat) (d : SReg) (w : W64)
    (bs : List Byte) : Act State :=
  let e := s.queueEntry q
  if !s.queueOn e || !e.room then .ok (s.finish i c 4 d 1)
  else
    let t := s.putQueue q 12 (bytes32 (e.tail + 1))
    match t.launchPage k q e e.tail with
    | .error t => .ok t
    | .ok x => do
      let t ← t.detach i false w (.launchSlot e.tail.toNat w bs)
      t.publish i c k gr d q e.tail x (publishedPacket gr w bs)

/-- The reserved slot is translated again once a grant has come (log 55). -/
def execGlaunch (q : Fin 64) (d a b : SReg) (s : State) : Out :=
  scalar s .gangs [] fun i c =>
    match s.issuerGridOf i with
    | none => .ok s
    | some (k, gr) =>
      let va := c.get a
      let w := c.get b
      match c.wait with
      | .launchGranted slot x bs =>
        match s.launchPage k q.val (s.queueEntry q.val) (BitVec.ofNat 32 slot) with
        | .error t => .ok (t.setWait i .none)
        | .ok y => s.publish i c k gr d q.val (BitVec.ofNat 32 slot) y (publishedPacket gr x bs)
      | _ => do
        aligned va 64
        let e := s.queueEntry q.val
        require (w != 0 || !s.queueOn e || !e.room) .weight
        require (gr.nest != 10) .nest
        let s ← s.settle i
        s.interlock i d
        let (bs, s) ← s.scalarRead i c false .device va 64
        s.launchPacket i c k gr q.val d w bs

/-! ## The status word (R351) -/

/-- The codes of the status word. -/
inductive Status where
  | admitted | retired | packet | header | feature | place | coop
  deriving DecidableEq, Repr

/-- The number of a code. -/
def Status.num : Status → Nat
  | .admitted => 0x01
  | .retired => 0x02
  | .packet => 0x10
  | .header => 0x11
  | .feature => 0x12
  | .place => 0x13
  | .coop => 0x14

/-- The status word is written at ARGS; one that cannot be is dropped, and a device-level PAGE fault names the queue and
no grid (R351; log 25). -/
def State.putStatus (s : State) (w : Starter) (args : W64) (q : Nat) (id : W32) (c : Status) : State :=
  match s.xlate (dispatcherWho w.asid w.part) args true with
  | .ok x => s.devStore { w with queue := some q } x (leBytes 8 (id.toNat * 2 ^ 32 + c.num))
  | .error _ => s.report none [] .page (queueSource (s.queueEntry q) q) 0 0 0 0

end Sys2Proof.Machine
end

