-- ==== Sys2Proof/Machine/Park.lean ====
section
/-!
DEFINITION. Pre-emption at safe points (R381 to R383): the crew block of the save area, the check when the last gang of
a crew parks or ends, the crew's leaving and the withdrawal of a request.
-/

namespace Sys2Proof.Machine

/-! ## The device's own writes to a context area -/

/-- Bytes of a context area written, line by line (R359). -/
def State.ctxParts (s : State) (w : Who) (bs : List Byte) : List (Nat × Nat) → Except PageCause State
  | [] => .ok s
  | (a, n) :: t => match s.ctxStore w (BitVec.ofNat 64 a) (bs.take n) with
    | .error c => .error c
    | .ok s => State.ctxParts s w (bs.drop n) t

/-- A range of a context area written. -/
def State.ctxStores (s : State) (w : Who) (va : W64) (bs : List Byte) : Except PageCause State :=
  s.ctxParts w bs (span va bs.length)

/-- Several ranges written in order. -/
def State.ctxWrites (s : State) (w : Who) : List (W64 × List Byte) → Except PageCause State
  | [] => .ok s
  | (va, bs) :: t => match s.ctxStores w va bs with
    | .error c => .error c
    | .ok s => State.ctxWrites s w t

/-! ## The crew block (R381) -/

/-- A barrier as the block holds it (R38). -/
def Barrier.word (b : Barrier) : W64 :=
  BitVec.ofNat 64 (b.pend.toNat * 2 ^ 32 + (if b.phase then 2 ^ 31 else 0) + b.expect % 64 * 2 ^ 11 + b.arrived % 64 * 2 ^ 5)

/-- A barrier from its word. -/
def barrierOf (v : W64) : Barrier :=
  { pend := (v >>> 32).setWidth 32, phase := v.getLsbD 31, expect := fld v.toNat 11 6, arrived := fld v.toNat 5 6 }

/-- The GCTL word of a gang (R381). -/
def Gang.ctl (y : Gang) : W64 :=
  BitVec.ofNat 64 (y.killed.toNat * 2 ^ 32 + (match y.ext with
    | some b => b % 32 * 8 + 4
    | none => 0) + if y.chk then 1 else 0)

/-- The gangs of a crew by index, those that have ended being none. -/
def State.crewGangs (s : State) (c : Crew) : List (Option Gang) :=
  c.gangs.map fun x => match x with
    | some g => s.gang? g
    | none => none

/-- A field of every gang index, 0 where there is no gang, filled up to 32 entries of n bytes. -/
def gangField (gs : List (Option Gang)) (n : Nat) (f : Gang → List Byte) : List Byte :=
  (List.range 32).flatMap fun i => match gs[i]? with
    | some (some y) => f y
    | _ => List.replicate n 0

/-- The 4 KiB crew block (R381). -/
def crewBlock (c : Crew) (gs : List (Option Gang)) (kill : Bool) : List Byte :=
  ((List.range 128).flatMap fun i => match c.bars[i]? with
      | some b => bytes64 b.word
      | none => List.replicate 8 0)
    ++ gangField gs 16 (fun y => y.qmap.toList)
    ++ gangField gs 16 (fun y => y.cursor.toList.map fun x => x.setWidth 8)
    ++ gangField gs 8 (fun y => bytes64 y.ctl)
    ++ bytes64 c.wgt ++ bytes64 (if kill then 1 else 0) ++ List.replicate 240 0
    ++ gangField gs 32 (fun y => y.p.toList.flatMap bytes32 ++ List.replicate 4 0)
    ++ List.replicate 512 0

/-- The 16 KiB of an extended block (R381). -/
def ExtBlock.image (e : ExtBlock) : List Byte :=
  (List.range 128).flatMap fun n => vecBytes (e.regs.getD n (laneConst 0))

/-- The granules of an extended block that are present, as writes to its slot at `base`. -/
def ExtBlock.writes (e : ExtBlock) (base : W64) : List (W64 × List Byte) :=
  (List.range 16).filterMap fun k =>
    if e.absent.getLsbD k then none
    else some (base + BitVec.ofNat 64 (1024 * k), (e.image.drop (1024 * k)).take 1024)

/-- The writes of every pool block that no gang holds (R383). An absent granule's bytes stand in its slot already. -/
def looseBlocks (c : Crew) (gangs : Nat) (save : W64) : List (W64 × List Byte) :=
  ((List.range c.ext.length).zip c.ext).flatMap fun x =>
    if x.2.holder.isSome then [] else x.2.writes (save + BitVec.ofNat 64 (0x1000 + 8192 * gangs + 16384 * x.1))

/-! ## Leaving and withdrawal (R382, R383) -/

/-- The address of the save area of a crew with kernel k. -/
def Crew.save (c : Crew) (k : Kernel) : W64 := c.ctx + BitVec.ofNat 64 (saveOffset k)

/-- The device as it reaches a crew's context area. -/
def State.crewWho (s : State) (key : Nat) (c : Crew) : Who :=
  let gr := s.grid? c.grid
  { asid := (gr.map (·.asid)).getD 0, part := (gr.map (·.part)).getD 0, core := coreOf key, crew := some key,
    reader := some (.area c.tag) }

/-- The reader is one of a gang's. -/
def Reader.ofGang (g : Nat) : Reader → Bool
  | .scalar (.gang x) | .slot x _ | .word x _ | .ctx (.gang x) => x == g
  | _ => false

/-- The request brings a stream or a lane of gang g something. -/
def ReqFor.feeds (g : Nat) : ReqFor → Bool
  | .scalar a => a == .gang g
  | .lane x _ => x == g
  | .slot x _ => x == g
  | .peer r => r.ofGang g
  | .store _ _ | .copy _ _ | .unit _ | .lag _ _ _ | .relay _ _ _ | .nobody => false

/-- A gang goes: its issue slot, its monitors, its places in queues, and what it has learned or asked of other packages'
lines with it. -/
def State.dropGang (s : State) (g : Nat) : State :=
  let s := (s.freeIssue g).dropHoles g
  let u := s.core (coreOf g)
  let mine (w : Waiter) : Bool := match w with
    | .scalar x => x == g
    | .lane x _ => x == g
    | .pilot _ => false
  { s.setCore (coreOf g) { u with monitors := u.monitors.filter fun e => !mine e.1 } with
    gangs := s.gangs.erase g, peer := s.peer.filter fun e => !e.by_.ofGang g,
    reqs := s.reqs.map fun r => if r.for_.feeds g then { r with for_ := .nobody } else r }

/-- The crew leaves its core: its gangs and its allotment go, and it is recorded as off its core (R383). -/
def State.leaveCore (s : State) (key : Nat) (c : Crew) (killed : Bool) : State :=
  let gs := s.crewGangs c
  let s' := c.live.foldl State.dropGang s
  { s' with crews := s'.crews.erase key,
            away := s'.away.set c.tag
              { crew := { c with gangs := c.gangs.map fun _ => none, slots := [], preempt := none, acqs := [], tiles := [] },
                killed := killed,
                parked := gs.map fun x => match x with
                  | some y => if killed then some 0 else y.parked
                  | none => none,
                starts := gs.map fun x => match x with
                  | some y => match y.arm with
                    | some m => if m.active then some m.start else none
                    | none => none
                  | none => none,
                holds := gs.map fun x => match x with
                  | some y => y.ext
                  | none => none } }

/-- The offset of a safe point's restore routine; 0xFFFFFFFF marks an unused entry (R90, R93). -/
def Kernel.safeAt (k : Kernel) (n : Nat) : Option (Nat × Nat) :=
  if n < k.nsafe then match k.safe[n]? with
    | some e => if e.1 = 0xFFFFFFFF then none else some e
    | none => none
  else none

/-- The absent granules of a gang are filled from the save area (R385). -/
def State.present (s : State) (g : Nat) : State :=
  match s.fillAll g ((List.range 24).map (8 * ·)) with
  | .ok s => s
  | .error s => s

/-- A parked gang enters its restore routine in place, with every granule present (R383). -/
def State.restoreInPlace (s : State) (g : Nat) : State :=
  let s := s.present g
  match s.gang? g, s.kernel (.gang g) with
  | some y, some k => match y.parked with
    | none => s
    | some n =>
      let off := match k.safe[n]? with
        | some e => e.2
        | none => 0
      (s.setGang g { y with parked := none }).enter (.gang g) (.restore n) (k.text off)
  | _, _ => s

/-- A pre-emption request is withdrawn (R383). -/
def State.withdraw (s : State) (key : Nat) : State :=
  match s.crew? key with
  | none => s
  | some c => c.live.foldl State.restoreInPlace (s.setCrew key { c with preempt := none })

/-- What follows when a gang of a crew has parked or ended: with a request pending and every gang parked, the crew
leaves or the request is withdrawn (R383). A context area that cannot be written is reported. -/
def State.lastPark (s : State) (key : Nat) : State :=
  match s.crew? key with
  | none => s
  | some c =>
    let all := c.live.all fun g => (s.gang? g).any fun y => y.parked.isSome
    if c.preempt.isNone || c.live.isEmpty || !all then s
    else if !s.mayLeave key c then s.withdraw key
    else match s.grid? c.grid with
      | none => s
      | some gr =>
        let save := c.save gr.kernel
        match s.ctxWrites (s.crewWho key c)
            ((save, crewBlock c (s.crewGangs c) false) :: looseBlocks c gr.kernel.gangs save) with
        | .error _ => s.report (some c.grid) [] .page { die := dieOf (clusterOf (coreOf key)), from_ := 0, unit := 0 } 0 0 0
            (crewWord c.index c.tag)
        | .ok s => s.leaveCore key c false

/-- The request of a crew lapses after 2^20 counts of its die's `cyc` (R383). -/
def execPreemptWithdrawTimeout (c : Nat) (s : State) : Out :=
  match s.crew? c with
  | none => .next s
  | some y => match y.preempt with
    | none => .next s
    | some r => if r.at_ + 2 ^ 20 ≤ s.clk.refc then .next (s.withdraw c) else .next s

end Sys2Proof.Machine
end

