-- ==== Sys2Proof/Machine/Placement.lean ====
section
/-!
DEFINITION. Where crews go: context areas (R359), what fits a core (R362), the placement of a crew, a convoy and a
cooperative grid (R363 to R365), and the backing off of dispatchers (R364).
-/

namespace Sys2Proof.Machine

/-! ## Context areas (R359) -/

/-- The context areas of a partition that are in use: first address and length. -/
def State.areas (s : State) (part : Nat) : List (Nat × Nat) :=
  let ours (k : Nat) : Bool := (s.grid? k).any fun g => g.part == part
  (s.crews.vals.filterMap fun c => if ours c.grid then some (c.ctx.toNat, c.ctxLen) else none)
    ++ (s.away.vals.filterMap fun a => if ours a.crew.grid then some (a.crew.ctx.toNat, a.crew.ctxLen) else none)
    ++ s.pilots.vals.filterMap fun p => if ours p.grid then some (p.ctx.toNat, 4096) else none

/-- The lowest of a list of addresses. -/
def lowest (l : List Nat) : Option Nat :=
  l.foldl (fun b a => match b with
    | some x => some (min x a)
    | none => some a) none

/-- The lowest-addressed free run of n bytes in a pool. -/
def freeRun (base len n : Nat) (used : List (Nat × Nat)) : Option Nat :=
  lowest ((base :: used.map fun u => u.1 + u.2).filter fun a =>
    decide (base ≤ a) && decide (a + n ≤ base + len) && used.all fun u => decide (a + n ≤ u.1) || decide (u.1 + u.2 ≤ a))

/-- A free run in the pool of a partition. -/
def State.poolRun (s : State) (part n : Nat) (more : List (Nat × Nat)) : Option Nat :=
  let va := s.launch.ctxva[part % 4]'(Nat.mod_lt _ (by decide))
  let len := s.launch.ctxlen[part % 4]'(Nat.mod_lt _ (by decide))
  freeRun va.toNat len.toNat n (more ++ s.areas part)

/-- The bytes of a crew's context area (R359). -/
def areaBytes (k : Kernel) : Nat :=
  (saveOffset k + k.gangs * 8192 + k.part.ext * 16384 + 4096 + 4095) / 4096 * 4096

/-! ## What fits (R362) -/

/-- The crews of a core. -/
def State.crewsOn (s : State) (core : Nat) : List (Nat × Crew) := s.crews.filter fun e => coreOf e.1 == core

/-- The lowest run of free units of a core. -/
def State.freeUnits (s : State) (core n : Nat) : Option Nat :=
  freeRun 0 32 n ((s.crewsOn core).map fun e => (e.2.unit, e.2.part.total))

/-- The lowest-numbered free gang slots of a core, n of them. -/
def State.freeSlots (s : State) (core n : Nat) : Option (List Nat) :=
  let used := (s.crewsOn core).flatMap fun e => e.2.slots
  let free := ((List.range 32).map fun i => 32 * core + i).filter fun g => !used.contains g
  if n ≤ free.length then some (free.take n) else none

/-- The core has n free named barriers (R38). -/
def State.freeBars (s : State) (core n : Nat) : Bool :=
  decide (((s.crewsOn core).map fun e => e.2.bars.length).foldl (· + ·) n ≤ 128)

/-- The lowest free crew slot of a core (log 26). -/
def State.freeCrew (s : State) (core : Nat) : Option Nat :=
  ((List.range 32).map fun i => 32 * core + i).find? fun k => (s.crew? k).isNone

/-- The lowest crew tag that no live crew carries, from 1 on (R19; log 26). -/
def State.freeTag (s : State) : Nat :=
  ((List.range (s.crews.length + s.away.length + 1)).find? fun n => !s.tagLive (n + 1)).getD 0 + 1

/-- The pilot of a cluster lets a crew of grid k be placed (R362, R449). -/
def State.pilotFits (s : State) (k cl : Nat) (kn : Kernel) : Bool :=
  !kn.pilot || s.hasPilot cl && match s.pilot? cl with
    | some p => p.grid == k
    | none => true

/-- The room that a crew takes on a core: first unit, gang slots, crew key and context area, with the pilot's area when
its pilot is idle. -/
structure Room where
  unit : Nat
  slots : List Nat
  key : Nat
  ctx : Nat
  pilotCtx : Option Nat
  deriving DecidableEq, Repr

/-- The crew fits the core, and this is its room (R362). -/
def State.fits (s : State) (k : Nat) (part : Nat) (kn : Kernel) (core len : Nat) (ctx : Option Nat) : Option Room :=
  let cl := clusterOf core
  if !(s.corePresent core && (s.partDies part).contains (dieOf cl)) then none
  else match s.freeUnits core kn.part.total, s.freeSlots core kn.gangs, s.freeCrew core with
    | some u, some sl, some key =>
      if !s.freeBars core kn.barriers || !s.pilotFits k cl kn then none
      else match match ctx with
          | some a => some a
          | none => s.poolRun part len [] with
        | none => none
        | some a =>
          if kn.pilot && (s.pilot? cl).isNone then
            match s.poolRun part 4096 [(a, len)] with
            | some b => some { unit := u, slots := sl, key := key, ctx := a, pilotCtx := some b }
            | none => none
          else some { unit := u, slots := sl, key := key, ctx := a, pilotCtx := none }
    | _, _, _ => none

/-! ## The start of a crew (R23, R46, R358, R363, R365) -/

/-- The share of crew i of n in a weight (R358). -/
def shareOf (w : W64) (n i : Nat) : W64 := BitVec.ofNat 64 (w.toNat * (i + 1) / n - w.toNat * i / n)

/-- A barrier at placement (R38). -/
def Barrier.new : Barrier := { pend := 0, phase := false, expect := 0, arrived := 0 }

/-- A block of the extended pool at placement. -/
def ExtBlock.new : ExtBlock := { regs := [], absent := 0, holder := none }

/-- The gang of index i of a crew at its start (R23, R44, R46). -/
def startGang (gr : Grid) (crew index i ctx : Nat) : Gang :=
  let k := gr.kernel
  let sc := ScalarCtx.start (k.text k.sentry) (BitVec.ofNat 64 (ctx + 64 * i))
  { Gang.start crew i { sc with s := (sc.s.set 0 gr.args).set 1 (BitVec.ofNat 64 index) } with
    dbase := BitVec.ofNat 64 (ctx + 64 * k.gangs + 16 * k.dstack * i) }

/-- The pilot program of a grid starts on a cluster where it has not run (R365). -/
def State.startPilot (s : State) (k cl : Nat) (ctx : Option Nat) : State :=
  match s.grid? k, ctx with
  | some gr, some a =>
    if gr.kernel.pilot && !gr.pilots.contains cl then
      let sc := ScalarCtx.start (gr.kernel.text gr.kernel.pentry) (BitVec.ofNat 64 a)
      let p : Pilot := { grid := k, chk := false, ctx := BitVec.ofNat 64 a,
                         sc := { sc with s := (sc.s.set 0 gr.args).set 1 (BitVec.ofNat 64 (cl % 16)) } }
      (s.setGrid k { gr with pilots := gr.pilots ++ [cl] }).setPilot cl p
    else s
  | _, _ => s

/-- The next crew of grid k starts in its room (R358, R362). -/
def State.startCrew (s : State) (k : Nat) (gr : Grid) (b : Room) : State :=
  let kn := gr.kernel
  let c : Crew :=
    { tag := s.freeTag, grid := k, index := gr.placed, part := kn.part, unit := b.unit, gangs := b.slots.map some,
      slots := b.slots, wgt := shareOf gr.weight gr.ncrew gr.placed, bars := List.replicate kn.barriers Barrier.new,
      tiles := List.replicate kn.part.acc Tile.new, ext := List.replicate kn.part.ext ExtBlock.new, acqs := [], seq := 0,
      log := [], ctx := BitVec.ofNat 64 b.ctx, ctxLen := areaBytes kn, preempt := none,
      order := s.launch.order, ending := false }
  let s := { s with launch := { s.launch with order := s.launch.order + 1 } }
  let s := (s.setGrid k { gr with placed := gr.placed + 1 }).setCrew b.key c
  let s := (b.slots.zipIdx 0).foldl (fun s e => s.setGang e.1 (startGang gr b.key gr.placed e.2 b.ctx)) s
  s.startPilot k (clusterOf (coreOf b.key)) b.pilotCtx

/-- The next crew of grid k is placed on a core that it fits. -/
def State.placeOn (s : State) (k core : Nat) : Option State :=
  match s.grid? k with
  | none => none
  | some gr =>
    match s.fits k gr.part gr.kernel core (areaBytes gr.kernel) none with
    | some b => some (s.startCrew k gr b)
    | none => none

/-- The next crews of grid k are placed on several cores, all or none. -/
def State.placeAll (s : State) (k : Nat) : List Nat → Option State
  | [] => some s
  | c :: cs => match s.placeOn k c with
    | some t => State.placeAll t k cs
    | none => none

/-- The first of several places that succeeds, with its number. -/
def firstOf {α : Type} (f : Nat → Option α) : List Nat → Option (Nat × α)
  | [] => none
  | n :: ns => match f n with
    | some x => some (n, x)
    | none => firstOf f ns

/-- A list from its first entry at or after a cursor, wrapping. -/
def fromCursor (cur : Nat) (l : List Nat) : List Nat :=
  l.filter (fun n => decide (cur ≤ n)) ++ l.filter fun n => decide (n < cur)

/-- The present cores and the clusters of a partition, in order (R363). -/
def State.coresOf (s : State) (part : Nat) : List Nat :=
  (List.range 256).filter fun c => s.corePresent c && (s.partDies part).contains (dieOf (clusterOf c))
def State.clustersOf (s : State) (part : Nat) : List Nat :=
  (List.range 64).filter fun cl => (s.partDies part).contains (dieOf cl)

/-- A convoy of n crews on adjacent cores of a cluster, the lowest that fit (R363). -/
def State.convoyOn (s : State) (k n cl : Nat) : Option State :=
  (firstOf (fun c => s.placeAll k ((List.range n).map fun i => 4 * cl + c + i)) (List.range (5 - n))).map (·.2)

/-- The next crew of grid k, or its next convoy, is placed, and the cursor moves on (R363). -/
def State.placeNext (s : State) (k : Nat) : Option State :=
  match s.grid? k with
  | none => none
  | some gr =>
    let p := gr.part
    if gr.conv = 0 then
      match firstOf (s.placeOn k) (fromCursor (s.launch.coreCursor.getD p 0) (s.coresOf p)) with
      | some (c, t) => some { t with launch := { t.launch with coreCursor := t.launch.coreCursor.set p (c + 1) } }
      | none => none
    else
      match firstOf (s.convoyOn k (gr.conv + 1)) (fromCursor (s.launch.clusterCursor.getD p 0) (s.clustersOf p)) with
      | some (c, t) => some { t with launch := { t.launch with clusterCursor := t.launch.clusterCursor.set p (c + 1) } }
      | none => none

/-- Every crew of grid k is placed at once, within so many steps (R365). -/
def State.placeCoop (s : State) (k : Nat) : Nat → Option State
  | 0 => none
  | n + 1 => match s.grid? k with
    | none => none
    | some gr =>
      if gr.ncrew ≤ gr.placed then some s
      else match s.placeNext k with
        | some t => State.placeCoop t k n
        | none => none

/-- The partition without its crews and pilots, for the check of PLACE (R351). -/
def State.emptied (s : State) (part : Nat) : State :=
  let ours (k : Nat) : Bool := (s.grid? k).any fun g => g.part == part
  let on (cl : Nat) : Bool := (s.partDies part).contains (dieOf cl)
  { s with crews := s.crews.filter fun e => !on (clusterOf (coreOf e.1)), away := s.away.filter fun e => !ours e.2.crew.grid,
           pilots := s.pilots.filter fun e => !on e.1 }

/-! ## Which placement comes first (R363, R364) -/

/-- The grid has a crew to place. -/
def Grid.unplaced (g : Grid) : Bool := decide (g.placed < g.ncrew) && !g.stopped && !g.killed

/-- Two grids share a dispatcher (R353). -/
def State.sameDispatcher (s : State) (a b : Grid) : Bool :=
  a.part == b.part && ((s.partDies a.part).length == 4 || a.die == b.die)

/-- Grid a goes before grid b: of a lower class, or of the same class and admitted earlier (R363). -/
def Grid.before (a b : Grid) : Bool := decide (a.cls < b.cls) || a.cls == b.cls && decide (a.order < b.order)

/-- A pre-empted crew is ready to be restored: its grid runs, and no page fault of it waits (R305, R384). -/
def State.restorable (s : State) (a : AwayCrew) : Bool :=
  s.running a.crew.grid && !s.paused.any fun p => p.agent == 0 && p.key == a.crew.tag

/-- A pre-empted crew is restored before any crew of its class or a lower-priority one that was admitted after it
(R363). -/
def State.restoreFirst (s : State) (g : Grid) : Bool :=
  s.away.any fun e => s.restorable e.2 && match s.grid? e.2.crew.grid with
    | some h => h.part == g.part && decide (h.cls ≤ g.cls) && decide (h.order < g.order)
    | none => false

/-- The dispatcher of the grid has released its holds and waits (R364). -/
def State.backedOff (s : State) (g : Grid) : Bool :=
  g.conv != 0 && s.holds.any fun h => h.1 == g.die && h.2.2 != 0

/-- Another agent may place at the same time and keeps its holds: the restoring scheduler, or the dispatcher of a lower
die of the partition with a convoy or a cooperative launch to place (R364). -/
def State.rival (s : State) (g : Grid) : Bool :=
  decide ((s.partDies g.part).length < 4) &&
    ((s.away.any fun e => s.restorable e.2 && (s.grid? e.2.crew.grid).any fun h => h.part == g.part)
      || (s.grids.any fun e => e.2.part == g.part && decide (e.2.die < g.die) && e.2.conv != 0 && e.2.unplaced)
      || (List.range 64).any fun q => match s.queueHead q with
        | .ready e _ bs => e.part == g.part && decide (e.die < g.die) && (launchPacketOf bs).coop
        | .off | .stuck | .asks _ _ => false)

/-- The dispatcher of the grid releases its holds, and retries later (R364). -/
def State.backOff (s : State) (g : Grid) : State :=
  let a := match s.holds.find? fun h => h.1 == g.die with
    | some h => h.2.1 + 1
    | none => 1
  { s with holds := (s.holds.filter fun h => h.1 != g.die) ++ [(g.die, a, s.clk.cache + 256 * 2 ^ min a 5)] }

/-- The dispatcher has placed the convoy that it held: its count of conflicts ends (R364). A crew takes no holds. -/
def State.heldAll (s : State) (g : Grid) : State :=
  if g.conv = 0 then s else { s with holds := s.holds.filter fun h => h.1 != g.die }

/-- The dispatcher of grid k places its next crew or convoy, when no other grid of the dispatcher goes before it and
can be placed (R363). A convoy may meet the holds of another agent, as a free value says (R364; log 27). -/
def execCrewPlacement (k : Nat) (s : State) : Out :=
  match s.grid? k with
  | none => .next s
  | some gr =>
    let ahead := s.grids.any fun e => e.1 != k && e.2.unplaced && !e.2.coop && s.sameDispatcher e.2 gr && e.2.before gr
      && !s.restoreFirst e.2 && !s.backedOff e.2 && (s.placeNext e.1).isSome
    if !s.serving || !gr.unplaced || gr.coop || ahead || s.restoreFirst gr || s.backedOff gr then .next s
    else match s.placeNext k with
      | none => .next s
      | some t =>
        if gr.conv != 0 && s.rival gr && s.free.1 % 2 == 1 then .next (s.free.2.backOff gr)
        else .next ((if gr.conv != 0 && s.rival gr then { t with choice := t.choice + 1 } else t).heldAll gr)

/-- The time of a dispatcher that released its holds has come: it retries its placement (R364). -/
def execPlacementBackoffExpiry (d : Nat) (s : State) : Out :=
  .next { s with holds := s.holds.map fun h =>
    if h.1 = d ∧ h.2.2 ≤ s.clk.cache then (h.1, h.2.1, 0) else h }

end Sys2Proof.Machine
end

