-- ==== Sys2Proof/Machine/Admission.lean ====
section
/-!
DEFINITION. Admission and retirement: the kernel header (R90 to R92), which queue is served (R353), the checks of a packet
(R352), grids (R355 to R358), and the retirement of crews and grids (R136, R244, R343, R356).
-/

namespace Sys2Proof.Machine

/-! ## The kernel header (R90, R92) -/

/-- The partition word of a header (R31); TOTAL 0 stands for 32. -/
def partOf (w : Nat) : PartWord :=
  { total := if fld w 15 5 = 0 then 32 else fld w 15 5, ext := fld w 10 5, acc := fld w 5 5, rf := fld w 0 5 }

/-- The header's fields as the dispatcher keeps them (R94). -/
def kernelOf (image : W64) (h : List Byte) : Kernel :=
  { image := image, textOff := fieldAt h 0x10 4, textSize := fieldAt h 0x14 4, laneOff := fieldAt h 0x18 4,
    laneCount := fieldAt h 0x1C 4, sentry := fieldAt h 0x28 4, pentry := fieldAt h 0x2C 4, handler := fieldAt h 0x30 4,
    phandler := fieldAt h 0xE0 4, gangs := fieldAt h 0x34 1, barriers := fieldAt h 0x35 1, depth := fieldAt h 0x36 1,
    payload := fieldAt h 0x37 1, dstack := fieldAt h 0x38 2, nsafe := fieldAt h 0x3A 1,
    safe := (List.range 16).map fun i => (fieldAt h (0x60 + 8 * i) 4, fieldAt h (0x64 + 8 * i) 4),
    replay := flag (fieldAt h 6 2) 0, pilot := flag (fieldAt h 6 2) 1, part := partOf (fieldAt h 0x0C 4) }

/-- The feature word n that the header requires. -/
def reqf (h : List Byte) (n : Nat) : Nat := fieldAt h (0x40 + 8 * n) 8

/-- No offset. -/
def noOffset : Nat := 0xFFFFFFFF

/-- The offset is a multiple of 4 inside `.text`. -/
def Kernel.okOffset (k : Kernel) (o : Nat) : Bool := o % 4 == 0 && decide (o < k.textSize)

/-- The header passes R92 but for its features. A set bit of REQF that names no feature is a reserved field (log 28). -/
def headerOk (k : Kernel) (h : List Byte) : Bool :=
  let p := k.part
  let units := (p.ext + 1) / 2
  fieldAt h 0 4 == 0x474C4B48 && fieldAt h 4 2 == 1 && fld (fieldAt h 6 2) 2 14 == 0 && fieldAt h 0x3B 5 == 0
    && fieldAt h 0xE4 28 == 0 && reqf h 0 / 2 ^ 5 == 0 && reqf h 1 == 0 && reqf h 2 == 0 && reqf h 3 == 0
    && fld (fieldAt h 0x0C 4) 20 12 == 0
    && decide (p.rf + p.acc + units < p.total) && decide ((k.gangs + 3) / 4 ≤ p.rf)
    && decide (1 ≤ k.gangs) && decide (k.gangs ≤ 32) && decide (k.barriers ≤ 128) && decide (k.depth ≤ 31)
    && decide (k.payload ≤ 32) && k.payload % 4 == 0 && decide (1 ≤ k.dstack) && decide (k.dstack ≤ 4096)
    && decide (k.nsafe ≤ 16) && k.okOffset k.sentry
    && (k.safe.all fun e => (e.1 == noOffset && e.2 == noOffset) || (k.okOffset e.1 && k.okOffset e.2))
    && (k.pentry == noOffset || k.okOffset k.pentry) && (k.handler == noOffset || k.okOffset k.handler)
    && (!k.pilot || k.phandler == noOffset || k.okOffset k.phandler) && k.pilot == (k.pentry != noOffset)

/-- The header names only features that were accepted and that the partition does not decline (R92, R354). -/
def State.featuresOk (s : State) (part : Nat) (h : List Byte) : Bool :=
  let pf := s.launch.pf[part % 4]'(Nat.mod_lt _ (by decide))
  (List.range 5).all fun b => !flag (reqf h 0) b || (s.ident.facc[0].getLsbD b && pf.getLsbD b)

/-- The 256 bytes of a header, as the dispatcher of queue q reads them. -/
def State.readHeader (s : State) (q asid part : Nat) (image : W64) : Except AccErr (List Byte × State) :=
  let at_ (o : Nat) : Except PageCause Xl := s.xlate (dispatcherWho asid part) (image + BitVec.ofNat 64 o) false
  match at_ 0, at_ 128 with
  | .ok x, .ok y => match s.devLoad (.header q) x 128 with
    | .error e => .error e
    | .ok (a, s) => match s.devLoad (.header q) y 128 with
      | .error e => .error e
      | .ok (b, s) => .ok (a ++ b, s)
  | .error c, _ => .error (.page c)
  | _, .error c => .error (.page c)

/-! ## Which queue is served (R353) -/

/-- A failure at a head slot is reported once, naming the queue and no grid (R353). -/
def State.reportHead (s : State) (q : Nat) : State :=
  let e := s.queueEntry q
  let h := (q, e.head.toNat)
  if s.launch.reported.contains h then s
  else { s with launch := { s.launch with reported := s.launch.reported ++ [h] } }.report none [] .page (queueSource e q) 0 0 0 0

/-- The dispatcher of an entry, and its class, as a key. -/
def State.dispatcherKey (s : State) (e : QueueEntry) : Nat :=
  4 * (if (s.partDies e.part).length = 4 then e.part else e.die) + e.cls

/-- Two queues share a dispatcher. -/
def State.sameServer (s : State) (a b : QueueEntry) : Bool :=
  a.part == b.part && ((s.partDies a.part).length == 4 || a.die == b.die)

/-- Queue q is the one that its dispatcher takes: no ready queue of a lower class, and none of its class that follows
the last one taken more closely (R353). -/
def State.choosesQueue (s : State) (q : Nat) (e : QueueEntry) : Bool :=
  let last := (s.launch.last.getD (s.dispatcherKey e) 63)
  let rank (n : Nat) : Nat := (n + 63 - last) % 64
  (List.range 64).all fun n =>
    n == q || match s.queueHead n with
      | .ready f _ _ => !(s.sameServer e f && (decide (f.cls < e.cls) || f.cls == e.cls && decide (rank n < rank q)))
      | .off | .stuck | .asks _ _ => true

/-! ## The checks of a packet (R352) -/

/-- The live grid that a packet names as its parent; one that is being killed is none (log 29). -/
def State.parentOf (s : State) (p : LaunchPacket) : Option (Nat × Grid) :=
  s.grids.find? fun e => e.2.id == p.parent && !e.2.killed

/-- A root packet (R350). -/
def LaunchPacket.root (p : LaunchPacket) : Bool := p.parent == BitVec.allOnes 32

/-- The packet is malformed. -/
def State.badPacket (s : State) (part : Nat) (p : LaunchPacket) : Bool :=
  !p.clean || p.ncrew == 0 || p.ncrew % (p.conv + 1) != 0 || p.kimg.toNat % 256 != 0 || p.args.toNat % 64 != 0
    || p.phase.toNat % 64 != 0 || p.vaddr.toNat % 8 != 0 || (p.vwen && decide (p.vscope < 2))
    || (!p.vwen && (p.vscope != 0 || p.vaddr != 0 || p.vexp != 0)) || decide (10 < p.depth)
    || (p.root && (p.depth != 0 || p.weight != 0))
    || (!p.root && (s.parentOf p).isNone)
    || (p.root && match s.phaseAt p.asid part p.phase with
        | .ok _ => false
        | .error _ => true)

/-- A crew or a convoy of the grid fits the partition when it is empty (R351). -/
def State.mayPlace (s : State) (k : Nat) (g : Grid) : Bool :=
  (s.launch.ctxlen[g.part % 4]'(Nat.mod_lt _ (by decide))) != 0 &&
    ((s.emptied g.part).setGrid k g |>.placeNext k).isSome

/-- The lowest free grid slot (R355; log 26). -/
def State.freeGrid (s : State) : Option Nat := (List.range 4096).find? fun k => (s.grid? k).isNone

/-- The grid that a packet would become in slot k. -/
def State.gridOf (s : State) (k q : Nat) (e : QueueEntry) (p : LaunchPacket) (kn : Kernel) : Grid :=
  { id := BitVec.ofNat 32 (k + 4096 * s.gens.getD k 0), asid := p.asid, part := e.part,
    die := if (s.partDies e.part).length = 4 then e.part else e.die, cls := e.cls,
    parent := if p.root then none else (s.parentOf p).map (·.1), launched := [], live := 0, phase := p.phase,
    weight := if p.root then BitVec.allOnes 64 else p.weight, nest := p.depth, args := p.args, ncrew := p.ncrew,
    conv := p.conv, coop := p.coop, kernel := kn, placed := 0, retired := 0, pilots := [],
    stopped := (s.parentOf p).any fun e => e.2.stopped, killed := false, order := s.launch.order, queue := q }

/-- What the checks of a packet come to: a refusal's code, or the grid; `wait` while no grid slot is free, and `asks` for a
line of another package. -/
inductive Verdict where
  | refuse (c : Status)
  | wait
  | asks (e : AccErr)
  | seatGrid (k : Nat) (g : Grid)
  deriving DecidableEq, Repr

/-- The checks of a packet, in the order of the codes (R351, R352, R365). -/
def State.judge (s : State) (q : Nat) (e : QueueEntry) (p : LaunchPacket) : Verdict × State :=
  if s.badPacket e.part p then (.refuse .packet, s)
  else match s.readHeader q p.asid e.part p.kimg with
    | .error (.remote x) => (.asks (.remote x), s)
    | .error _ => (.refuse .header, s)
    | .ok (h, s) =>
      let kn := kernelOf p.kimg h
      if !headerOk kn h then (.refuse .header, s)
      else if !s.featuresOk e.part h then (.refuse .feature, s)
      else
        let k := s.freeGrid.getD 4096
        let g := s.gridOf k q e p kn
        if !s.mayPlace k g then (.refuse .place, s)
        else if p.coop && ((s.setGrid k g).placeCoop k (p.ncrew + 1)).isNone then (.refuse .coop, s)
        else if k = 4096 then (.wait, s)
        else (.seatGrid k g, s)

/-! ## Admission (R349, R351, R356, R357) -/

/-- Poison of the header that the packet at a head slot names is reported, naming the queue (R296; log 37). -/
def State.headerPoison (s : State) (q : Nat) (e : QueueEntry) (x : Xl) : State :=
  let p := launchPacketOf (s.readPa x.pa 64)
  let bad (o : Nat) : Bool := match s.xlate (dispatcherWho p.asid e.part) (p.kimg + BitVec.ofNat 64 o) false with
    | .ok y => y.home == s.ident.pkg && s.poisoned y.pa 128
    | .error _ => false
  if !s.poison.isEmpty && x.home == s.ident.pkg && (bad 0 || bad 128) then
    s.report none [] .ecc (queueSource e q) 0 0 0 0
  else s

/-- The packet at the head is consumed: its word at 0x10 becomes 0 and HEAD advances (R349). -/
def State.consume (s : State) (q : Nat) (e : QueueEntry) (x : Xl) (w : Starter) : State :=
  let s := (s.reportPoison q).headerPoison q e x
  let s := s.devStore { w with queue := some q } { x with pa := x.pa + 0x10 } (List.replicate 8 0)
  let s := ((s.putQueue q 8 (bytes32 (e.head + 1))).dropPeer (.queue q)).dropPeer (.header q)
  { s with launch := { s.launch with last := s.launch.last.set (s.dispatcherKey e) q } }

/-- Grid p changed, where there is one. -/
def State.changeGrid (s : State) (p : Option Nat) (f : Grid → Grid) : State :=
  match p with
  | none => s
  | some k => match s.grid? k with
    | none => s
    | some g => s.setGrid k (f g)

/-- The packet in a slot of queue q is no longer one that a `glaunch` of its parent has published (R356). -/
def Grid.took (g : Grid) (q : Nat) (slot : W32) : Grid := { g with launched := g.launched.erase (q, slot) }

/-- A refused packet: its status, its weight home, and its parent's count (R352, R356). -/
def State.refuse (s : State) (q : Nat) (slot : W32) (w : Starter) (p : LaunchPacket) (c : Status) : State :=
  let s := s.putStatus w p.args q (BitVec.allOnes 32) c
  if p.root then s
  else
    let parent := (s.parentOf p).map (·.1)
    let phase := match s.parentOf p with
      | some e => e.2.phase
      | none => p.phase
    (s.returnTo parent w.asid w.part phase p.weight).changeGrid parent fun g => g.took q slot

/-- The phase record of a root packet at its start (R357). -/
def State.startPhase (s : State) (w : Starter) (g : Grid) : State :=
  if g.parent.isSome then s
  else match s.phaseAt g.asid g.part g.phase with
    | .error _ => s
    | .ok x =>
      let s := s.devStore w x (leBytes 16 (2 ^ 64 - 1))
      s.devStore w { x with pa := x.pa + 0x18 } (List.replicate 8 0)

/-- A grid is admitted: it takes its slot, and a cooperative one is placed at once (R355, R356, R365). A packet that no
`glaunch` published counts as a child from here on (log 29). -/
def State.seatGrid (s : State) (q : Nat) (slot : W32) (k : Nat) (g : Grid) : State :=
  let s := { s with launch := { s.launch with order := s.launch.order + 1 } }
  let s := (s.setGrid k g).changeGrid g.parent fun z => { z.took q slot with live := z.live + 1 }
  let w := s.gridStarter k
  let s := (s.startPhase w g).putStatus w g.args q g.id .admitted
  if g.coop then (s.placeCoop k (g.ncrew + 1)).getD s else s

/-- The dispatcher considers queue q, and takes its head packet when the queue is the one to serve (R349 to R357, R365). -/
def execPacketAdmission (q : Nat) (s : State) : Out :=
  if !s.serving || 64 ≤ q then .next s
  else match s.queueHead q with
    | .off => .next ((s.reportPoison q).dropPeer (.queue q))
    | .stuck => .next ((s.reportPoison q).reportHead q)
    | .asks sc r => .next ((s.reportPoison q).askPeer (.queue q) r sc)
    | .ready e x bs =>
      let p := launchPacketOf bs
      if !s.choosesQueue q e then .next s
      else
        let (v, t) := s.judge q e p
        let w : Starter := { asid := p.asid, part := e.part, grid := 4096, gid := BitVec.allOnes 32, index := 0, tag := 0 }
        match v with
        | .wait => .next s
        | .asks r => .next (s.askPeer (.header q) r)
        | .refuse c => .next ((t.consume q e x w).refuse q e.head w p c)
        | .seatGrid k g =>
          if p.coop && s.restoreFirst g then .next s
          else if p.coop && s.backedOff { g with conv := 1 } then .next s
          else if p.coop && s.rival g && s.free.1 % 2 == 1 then .next (s.free.2.backOff g)
          else
            let t := if p.coop && s.rival g then { t with choice := t.choice + 1 } else t
            .next ((if p.coop then (t.consume q e x w).heldAll g else t.consume q e x w).seatGrid q e.head k g)

/-! ## Retirement of a crew (R136, R244, R343) -/

/-- An MMA or an `acc.*` targets the crew's tiles, or an operation reads or holds berths that it owns (R244, R343). -/
def State.crewInUse (s : State) (key : Nat) (c : Crew) : Bool :=
  let core := coreOf key
  let cl := clusterOf core
  let owns (r : OpRef) : Bool := r.core == core && (s.berth core r.idx).own == c.tag
  let cores := (List.range 4).map fun i => s.core (4 * cl + i)
  (cores.any fun u => u.engine.any fun j => match j with
      | .mma _ _ a b x _ k _ _ => k == key || owns a || owns b || x.any owns
      | .ctab _ _ => false)
    || (cores.any fun u => u.port.any fun j => match j with
      | .batches _ k _ _ (.mma os) | .batches _ k _ _ (.add os) | .ld _ k _ _ os => k == key || os.contains key
      | .batches _ k _ _ .push | .clr k _ _ _ _ | .renorm _ k _ _ _ _ | .scale _ k _ _ _ _ | .hdr _ k _ _ _
      | .hole _ _ _ k _ => k == key
      | .st _ _ _ _ r k _ _ _ _ => k == key || owns r)
    || ((s.core core).berths.any fun e => e.2.own == c.tag && e.2.state != .free && e.2.holder == .lighter)

/-- Every berth that the crew owns is freed. -/
def State.freeBerths (s : State) (key : Nat) (c : Crew) : State :=
  let u := s.core (coreOf key)
  s.setCore (coreOf key) { u with berths := u.berths.map fun e =>
    if e.2.own = c.tag ∧ e.2.state ≠ .free then (e.1, e.2.freed) else e }

/-- Crew c retires: its stamps are closed, its berths freed, its weight returned, and its room is free again (R136, R319). -/
def execCrewRetire (key : Nat) (s : State) : Out :=
  match s.crew? key with
  | none => .next s
  | some c =>
    let held := (s.grid? c.grid).any fun g => g.stopped && !g.killed
    if !c.ending || held || s.crewInUse key c || s.crewOut key c then .next s
    else
      let s := (s.closeLog key).freeBerths key c
      let u := s.core (coreOf key)
      let s := s.setCore (coreOf key) { u with slices := u.slices.filter fun x => x.crew != key }
      let s := s.returnWeight c.grid c.wgt
      let s := { s with crews := s.crews.erase key }
      .next (match s.grid? c.grid with
        | some g => s.setGrid c.grid { g with retired := g.retired + 1 }
        | none => s)

/-! ## Retirement of a grid (R260, R356) -/

/-- The queue entries of a grid are discarded (R260). -/
def Cluster.dropGrid (u : Cluster) (k : Nat) : Cluster :=
  { u with mailbox := u.mailbox.filter fun e => e.grid != k,
           rq := u.rq.map fun q => (q.1, q.2.filter fun e => e.grid != k) }

/-- Grid k retires: its status is written, its slot freed, and its parent counts it no more (R356). -/
def execGridRetire (k : Nat) (s : State) : Out :=
  match s.grid? k with
  | none => .next s
  | some g =>
    let waits := g.live != 0 || (!g.killed && !g.launched.isEmpty)
    if g.retired < g.ncrew || waits || s.pilots.any fun p => p.2.grid == k then .next s
    else
      let s := s.putStatus (s.gridStarter k) g.args g.queue g.id .retired
      let s := { s with grids := s.grids.erase k, gens := s.gens.set k ((s.gens.getD k 0 + 1) % 2 ^ 20),
                        clusters := s.clusters.map fun (e : Nat × Cluster) => (e.1, e.2.dropGrid k) }
      .next (s.changeGrid g.parent fun z => { z with live := z.live - 1 })

end Sys2Proof.Machine
end

