-- ==== Sys2Proof/Machine/FabBarrier.lean ====
section
/-! DEFINITION. Fabric and device-wide barriers: `fbar`, and what their home does (R148, R437 to R441). -/

namespace Sys2Proof.Machine

/-! ## The descriptor and the records (R437, R438) -/

/-- A barrier descriptor. -/
structure FbarDesc where
  inst : Nat
  arr : Nat
  t0 : W64
  nmem : Nat
  fabric : Bool
  /-- N and M with their defaults -/
  n : Nat
  m : Nat
  /-- home cycles until the timeout -/
  tout : Nat
  thr : Nat
  /-- every reserved field is 0 -/
  clean : Bool
  deriving DecidableEq, Repr

/-- A number, or its default for 0. -/
def orElse (d n : Nat) : Nat := if n = 0 then d else n

/-- The fields of a descriptor's 64 bytes. -/
def fbarDesc (bs : List Byte) : FbarDesc :=
  let w := fieldAt bs 0x10 8
  { arr := fieldAt bs 0 4, inst := fieldAt bs 4 4, t0 := word64 (bs.drop 8), nmem := fld w 32 13, fabric := flag w 22,
    n := orElse 8 (fld w 16 6), m := orElse 6 (fld w 8 6), tout := orElse 65536 (fieldAt bs 0x1C 4) * 65536,
    thr := fieldAt bs 0x18 4,
    clean := fld w 45 19 == 0 && fld w 23 9 == 0 && fld w 14 2 == 0 && fld w 0 8 == 0 && fieldAt bs 0x24 4 == 0
      && fieldAt bs 0x28 24 == 0 }

/-- The descriptor is one that `fbar` takes, but for its page (R439). -/
def FbarDesc.ok (x : FbarDesc) : Bool :=
  x.clean && decide (1 ≤ x.nmem) && decide (x.nmem ≤ 4096) && decide (x.n ≤ 32) && decide (x.m ≤ 32) && decide (x.m ≤ x.n)

/-- The descriptor at a physical address. -/
def State.fbarAt (s : State) (pa : Nat) : FbarDesc := fbarDesc (s.readPa pa 64)

/-- The record of member m. -/
def memberAt (pa m : Nat) : Nat := pa + 64 + 320 * m

/-- The log entry of member m for an instance. -/
def entryAt (pa m inst : Nat) : Nat := memberAt pa m + 0x40 + 8 * (inst % 32)

/-- A word at a physical address of this package. -/
def State.pa64 (s : State) (pa : Nat) : Nat := leNat (s.readPa pa 8)

/-- A word written at a physical address of this package. -/
def State.putPa64 (s : State) (pa v : Nat) : State := s.writePa noCore pa (leBytes 8 v)

/-! ## `fbar` (R148, R439) -/

/-- The packet of an arrival at another package, under an AOP that R210 does not assign (log 36): the crew index and the
address space. -/
def State.arrivalPacket (s : State) (x : Xl) (crew : W32) (asid : Nat) : FabPacket :=
  { s.packet x.home .atm (atmEntry 0 (x.pa % 128) (crew.setWidth 64) (BitVec.ofNat 64 asid)) with
    keyid := x.key, pa := x.pa / 128 * 128, scope := .fabric, ord := .acqrel, aop := 15, sz := .b64 }

/-- The low 32 bits of a crew's index. -/
def Crew.index32 (c : Crew) : W32 := BitVec.ofNat 32 c.index

/-- The arrival of a gang goes to the home of the barrier, and the stream waits (R439). -/
def State.sendArrival (s : State) (i : Issuer) (y : Crew) (x : Xl) : Act State :=
  let asid := (s.who i).asid
  if x.home != s.ident.pkg then s.ask i (s.arrivalPacket x y.index32 asid) fun _ => .fbar
  else
    let a : Arrival := { pkg := s.ident.pkg, crew := y.index32, asid := asid, gang := match i with
        | .gang g => some g
        | .pilot _ => none, rid := 0, pa := x.pa, who := some (s.crewStarter y) }
    .error (.wait ({ s with arrivals := s.arrivals ++ [a] }.setWait i .fbar))

/-- The answer to an arrival that is not counted, in the place of a rank (R439; log 36). -/
def barrierAnswer : W64 := BitVec.allOnes 64

/-- The checks of a descriptor that has been read: RANGE, and the PAGE of a line that may not be written (R128, R439). -/
def State.checkFbar (s : State) (i : Issuer) (va : W64) (bs : List Byte) : Act Unit :=
  match s.leaf (s.who i) va false with
  | .error e => raise (accTrap va (.page e))
  | .ok t => do
    let x := fbarDesc bs
    require (x.ok && decide (va.toNat + 64 + 320 * x.nmem ≤ t.va + t.size)) .range
    s.checkWord i va

/-- The one strong read of a descriptor: its RANGE and PAGE come before a RACE on its line (R128, R439). -/
def State.readFbar (s : State) (i : Issuer) (c : ScalarCtx) (va : W64) : Act (List Byte × State) := do
  match s.access (s.who i) va 64 false false, c.wait with
  | .ok (x, t), .none => t.checkFbar i va (t.ownBytes (s.who i) x 64)
  | _, _ => .ok ()
  let (bs, t) ← s.scalarRead i c true .device va 64
  t.checkFbar i va bs
  .ok (bs, t)

/-- The arrival of `fbar` with the descriptor that it has read: lane work settles, and the release covers the accesses of
the whole crew (R148, R328, R439). -/
def State.arriveFbar (s : State) (i : Issuer) (va : W64) (bs : List Byte) : Act State :=
  let x := fbarDesc bs
  let waits : Act State → Act State
    | .error (.wait t) => .error (.wait (t.setWait i (.fbarRead bs)))
    | r => r
  match s.leaf (s.who i) va true with
  | .error e => raise (accTrap va (.page e))
  | .ok l => do
    let t ← waits (s.settle i)
    match t.issuerCrew i with
    | none => .ok t
    | some (k, y) => do
      let t ← waits (if t.crewPending k y x.fabric then .error (.wait t) else .ok t)
      let t ← waits (t.releaseFor i (if x.fabric then .fabric else .device))
      match t.sendArrival i y (l.at_ va.toNat) with
      | .error (.wait u) => .error (.wait (if (u.sctx i).any fun c => c.wait == .fbar then u else u.setWait i (.fbarRead bs)))
      | r => r

def execFbar (d a : SReg) (s : State) : Out :=
  scalar s .gangs [.fabric] fun i c => do
    let va := c.get a
    aligned va 64
    s.interlock i d
    match c.wait with
    | .fbar => .error (.wait s)
    | .fbarDone r => do
      require (r != barrierAnswer) .barrier
      .ok (s.finish i c 4 d r)
    | .fbarRead bs => s.arriveFbar i va bs
    | _ => do
      let (bs, t) ← s.readFbar i c va
      t.arriveFbar i va bs

/-! ## Answers (R439, R440) -/

/-- A waiting `fbar` receives its rank, or the answer that stands for BARRIER. -/
def State.answerFbar (s : State) (a : Arrival) (r : W64) : State :=
  match a.gang with
  | some g =>
    if !a.left && (s.sctx (.gang g)).any fun c => c.wait == .fbar then s.setWait (.gang g) (.fbarDone r) else s
  | none => s.send { s.packet a.pkg .atr (bytes64 r) with rid := a.rid }

/-- A waiting `fbar` receives the FABRIC fault of a timeout (R441). -/
def State.failFbar (s : State) (a : Arrival) : State :=
  match a.gang with
  | some g =>
    if !a.left && (s.sctx (.gang g)).any fun c => c.wait == .fbar then
      s.setWait (.gang g) (.answerErr { code := .fabric, hard := true })
    else s
  | none => s.send { s.packet a.pkg .err (leBytes 8 0xFE) with rid := a.rid }

/-! ## Completion (R440) -/

/-- The member of this package whose arrival at a barrier of another one is out: a gang that waits in `fbar` for the answer,
by the barrier's home, its line and the crew's index. -/
def State.fbarWho (s : State) (home pa : Nat) (crew : W32) : Option Starter :=
  s.reqs.findSome? fun r => match r.for_ with
    | .scalar a =>
      if r.dst = home ∧ r.packet.opc = Opc.atm.num ∧ r.packet.aop = 15 ∧ r.packet.pa / 128 = pa / 128
        ∧ (s.sctx a).any (fun c => c.wait == .fbar) then
        (s.issuerCrew a).bind fun e => if e.2.index32 = crew then some (s.crewStarter e.2) else none
      else none
    | _ => none

/-- The member of a barrier of this package, from its arrival. -/
def State.memberWho (s : State) (pa m : Nat) : Option Starter :=
  let id := s.pa64 (memberAt pa m)
  (s.waiting.find? fun x => x.pa == pa && x.pkg == fld id 0 12 && x.crew.toNat == fld id 32 32).bind (·.who)

/-- A failed change of an LAG bit is reported, naming the member's grid (R440). -/
def State.lagReport (s : State) (who : Option Starter) (c : Code) : State :=
  match who with
  | some w => s.engineFault w c { die := w.part, from_ := 0, unit := 0 }
  | none => s.report none [] c { die := 0, from_ := 0, unit := 0 } 0 0 0 0

/-- The LAG bit of a queue on this package is set or cleared as the member itself would reach it: at its home slice here,
or by a request, whose purpose is given (R440). A failed translation is reported. The answer is none when a request is
under way. -/
def State.setLag (s : State) (who : Option Starter) (asid : Nat) (tq : W64) (on : Bool) (for_ : ReqFor) : State × Bool :=
  let w : Who := match who with
    | some w => { dispatcherWho w.asid w.part with own := none }
    | none => dispatcherWho asid 0
  match s.xlate w (tq + 0x0C) true with
  | .error _ => (s.lagReport who .page, true)
  | .ok x =>
    if x.home != s.ident.pkg then
      let v : W64 := if on then 1 else 0xFFFFFFFE
      let p := { s.packet x.home .red (atmEntry 0 (x.pa % 128) v 0) with
        keyid := x.key, pa := x.pa / 128 * 128, scope := .fabric, ord := .rel,
        aop := if on then RedOp.code .or else RedOp.code .and, sz := .b32 }
      ((s.request p for_ (p.pa / 128) []).2, false)
    else
      let s := s.atHome x
      let v := word32 (s.readPa x.pa 4)
      (s.writePa noCore x.pa (bytes32 (if on then v ||| 1 else v &&& 0xFFFFFFFE)), true)

/-- The packet that asks a member's package to change an LAG bit, under an AOP that R210 does not assign (log 36): it names
the barrier's descriptor, the member's crew and address space, and its queue. -/
def State.lagPacket (s : State) (pkg pa : Nat) (crew : W32) (asid : Nat) (tq : W64) (on : Bool) : FabPacket :=
  { s.packet pkg .atm (atmEntry 0 (pa % 128) tq (crew.setWidth 64 ||| BitVec.ofNat 64 (asid % 2 ^ 12 * 2 ^ 32)
      ||| if on then 1#64 <<< 44 else 0)) with
    pa := pa / 128 * 128, scope := .fabric, ord := .rel, aop := 14, sz := .b64 }

/-- FLAG of a member is written (R440). -/
def State.putFlag (s : State) (pa m : Nat) (on : Bool) : State :=
  let a := memberAt pa m + 0x10
  s.putPa64 a (s.pa64 a / 2 * 2 + if on then 1 else 0)

/-- Member m is evaluated: LAGS, and the change of FLAG with its queue (R440 steps 1 and 2). -/
def State.evalMember (s : State) (pa : Nat) (d : FbarDesc) (m : Nat) : State :=
  let a := memberAt pa m
  let late := (List.range (min d.n (d.inst + 1))).filter fun k =>
    decide (d.thr < fld (s.pa64 (entryAt pa m (d.inst + 32 - k))) 32 32)
  let c := late.length
  let w := s.pa64 (a + 0x10)
  let s := s.putPa64 (a + 0x10) (w % 2 ^ 32 + c % 64 * 2 ^ 32)
  let on := decide (d.m ≤ c)
  let tq := s.pa64 (a + 8)
  if on = flag w 0 then s
  else if tq = 0 then s.putFlag pa m on
  else
    let id := s.pa64 a
    let pkg := fld id 0 12
    let crew : W32 := BitVec.ofNat 32 (fld id 32 32)
    let asid := match s.waiting.find? fun x => x.pa == pa && x.pkg == pkg && x.crew == crew with
      | some x => x.asid
      | none => 0
    if pkg = s.ident.pkg then
      let (s, done) := s.setLag (s.memberWho pa m) asid (BitVec.ofNat 64 tq) on (.lag pa m on)
      if done then s.putFlag pa m on else s
    else (s.request (s.lagPacket pkg pa crew asid (BitVec.ofNat 64 tq) on) (.lag pa m on) 0 []).2

/-- An LAG bit that the completion of a barrier waits for. -/
def State.lagsOut (s : State) (pa : Nat) : Bool :=
  s.reqs.any fun r => match r.for_ with
    | .lag x _ _ => x == pa
    | .scalar _ | .lane _ _ | .slot _ _ | .store _ _ | .copy _ _ | .unit _ | .relay _ _ _ | .peer _ | .nobody => false

/-- The lowest member of a package and crew index. -/
def State.member? (s : State) (pa nmem pkg : Nat) (crew : W32) : Option Nat :=
  (List.range nmem).find? fun m => fld (s.pa64 (memberAt pa m)) 0 12 == pkg
    && fld (s.pa64 (memberAt pa m)) 32 32 == crew.toNat

/-- The rank that a member's arrival logged. -/
def State.rankOf (s : State) (pa : Nat) (d : FbarDesc) (a : Arrival) : W64 :=
  match s.member? pa d.nmem a.pkg a.crew with
  | some m => BitVec.ofNat 64 (fld (s.pa64 (entryAt pa m d.inst)) 0 12)
  | none => 0

/-- Steps 3 and 4 of a completion, once no LAG bit is waited for (R440). -/
def State.endInstance (s : State) (pa : Nat) : State :=
  if s.lagsOut pa then s
  else
    let d := s.fbarAt pa
    let ms := List.range d.nmem
    let nlag := (ms.filter fun m => flag (s.pa64 (memberAt pa m + 0x10)) 0).length
    let s := if d.thr = 0 then s else s.writePa noCore (pa + 0x20) (leBytes 4 nlag)
    let s := ms.foldl (fun s m =>
      let w := s.pa64 (memberAt pa m + 0x10)
      s.putPa64 (memberAt pa m + 0x10) (w / 4 * 4 + w % 2)) s
    let s := s.putPa64 pa ((d.inst + 1) % 2 ^ 32 * 2 ^ 32)
    let mine := s.waiting.filter fun a => a.pa == pa
    mine.foldl (fun s a => s.answerFbar a (s.rankOf pa d a)) { s with waiting := s.waiting.filter fun a => a.pa != pa }

/-- The completion of an instance (R440). -/
def State.completeInstance (s : State) (pa : Nat) : State :=
  let d := s.fbarAt pa
  let s := if d.thr = 0 then s else (List.range d.nmem).foldl (fun s m => s.evalMember pa d m) s
  s.endInstance pa

/-! ## Arrivals and timeouts (R439, R441) -/

/-- One arrival is performed at the home (R439): those of another package when its packet is served, in the order of their
stream. -/
def State.countArrival (s : State) (a : Arrival) : State :=
  let s := s.drainLine (lineOf a.pa)
  let d := s.fbarAt a.pa
  match s.member? a.pa d.nmem a.pkg a.crew with
  | none => s.answerFbar a barrierAnswer
  | some m =>
    let r := memberAt a.pa m
    if flag (s.pa64 (r + 0x10)) 1 || (!d.fabric && a.pkg != s.ident.pkg) then s.answerFbar a barrierAnswer
    else
      let now := s.cyc (dieOfPa a.pa)
      let t0 := if d.arr = 0 then now else d.t0
      let delay := min (now - t0).toNat 0xFFFFFFFF
      let s := if d.arr = 0 then s.putPa64 (a.pa + 8) t0.toNat else s
      let s := s.putPa64 (entryAt a.pa m d.inst) (delay * 2 ^ 32 + d.inst % 2 ^ 16 * 2 ^ 16 + d.arr % 2 ^ 12)
      let s := s.putPa64 (r + 0x10) (s.pa64 (r + 0x10) + 2)
      let s := s.putPa64 a.pa (d.inst * 2 ^ 32 + d.arr + 1)
      let s : State := { s with waiting := s.waiting ++ [a] }
      if d.arr + 1 = d.nmem then s.completeInstance a.pa else s

def execFbarArrival (i : Nat) (s : State) : Out :=
  match s.arrivals[i]? with
  | none => .next s
  | some a => .next ({ s with arrivals := s.arrivals.eraseIdx i }.countArrival a)

/-- The instance in which arrival i waits times out (R441). -/
def execFbarTimeout (i : Nat) (s : State) : Out :=
  match s.waiting[i]? with
  | none => .next s
  | some a =>
    let d := s.fbarAt a.pa
    let die := dieOfPa a.pa
    if d.arr = 0 ∨ d.arr = d.nmem ∨ (s.cyc die - d.t0).toNat < d.tout then .next s
    else
      let mine := s.waiting.filter fun x => x.pa == a.pa
      let t : State := { s with waiting := s.waiting.filter fun x => x.pa != a.pa }
      let t := t.report none [] .fabric { die := die, from_ := 7, unit := 0 } 0 0 (BitVec.ofNat 64 a.pa) 0
      .next (mine.foldl State.failFbar t)

end Sys2Proof.Machine
end

