-- ==== Sys2Proof/Machine/Barrier.lean ====
section
/-! DEFINITION. Named barriers: `bar.init`, `bar.arr`, `bar.wt`, `bar.sync`, `bar.exp` (R38, R39, R147). -/

namespace Sys2Proof.Machine

/-- The phase is complete (R39). -/
def Barrier.complete (b : Barrier) : Bool := b.expect != 0 && b.arrived == b.expect && b.pend == 0

/-- The gang's scalar stream waits at barrier b of its crew. -/
def Gang.waitsAt (y : Gang) (crew b : Nat) : Bool :=
  y.crew == crew && (y.sc.wait == .barWait b true || y.sc.wait == .barWait b false)

/-- The waiters of barrier b of a crew are released. -/
def State.releaseWaiters (s : State) (crew b : Nat) : State :=
  { s with gangs := s.gangs.map fun e =>
      if e.2.waitsAt crew b then (e.1, { e.2 with sc := { e.2.sc with wait := .barDone } }) else e }

/-- Barrier b of a crew is changed; a phase that is then complete flips and releases its waiters (R39). -/
def State.changeBarrier (s : State) (crew b : Nat) (f : Barrier → Barrier) : State :=
  match s.crew? crew with
  | none => s
  | some y => match y.bars[b]? with
    | none => s
    | some x =>
      let x := f x
      if x.complete then
        (s.setCrew crew { y with bars := y.bars.set b { x with phase := !x.phase, arrived := 0 } }).releaseWaiters crew b
      else s.setCrew crew { y with bars := y.bars.set b x }

/-- Bytes announced at barrier b of a crew: PEND changes by v (R39). -/
def State.announce (s : State) (crew b : Nat) (v : W32) : State :=
  s.changeBarrier crew b fun x => { x with pend := x.pend + v }

/-- A barrier instruction: the crew's barrier b, or RANGE (R38). -/
def barrierOp (s : State) (b : BitVec 7) (f : Issuer → ScalarCtx → Nat → Barrier → Act State) : Out :=
  scalar s .gangs [] fun a c =>
    match s.issuerCrew a with
    | none => .ok s
    | some (k, y) => match y.bars[b.toNat]? with
      | none => raise { code := .range }
      | some x => f a c k x

/-- One arrival at a barrier (R147). -/
def State.arrive (s : State) (crew : Nat) (b : BitVec 7) : State :=
  s.changeBarrier crew b.toNat fun x => { x with arrived := x.arrived + 1 }

/-- Some gang of the crew waits at the barrier. -/
def State.hasWaiter (s : State) (crew b : Nat) : Bool := s.gangs.any fun e => e.2.waitsAt crew b

def execBarInit (b : BitVec 7) (a : SReg) (s : State) : Out :=
  barrierOp s b fun i c k x => do
    let n := (c.get a).toNat
    require (decide (1 ≤ n) && decide (n ≤ 32)) .range
    require (x.arrived == 0 && x.pend == 0 && !s.hasWaiter k b.toNat) .barrier
    .ok ((s.changeBarrier k b.toNat fun x => { x with expect := n, arrived := 0, pend := 0 }).next i c.pc 4)

def execBarArr (d : SReg) (b : BitVec 7) (s : State) : Out :=
  barrierOp s b fun i c k x => do
    let t ← s.settle i
    require (x.arrived != x.expect) .barrier
    t.interlock i d
    .ok ((t.arrive k b).finish i c 4 d (if x.phase then 1 else 0))

def execBarWt (b : BitVec 7) (a : SReg) (s : State) : Out :=
  barrierOp s b fun i c _ x =>
    if c.wait == .barDone || x.phase != (c.get a).getLsbD 0 then .ok (s.next i c.pc 4)
    else .error (.wait (s.setWait i (.barWait b.toNat false)))

def execBarSync (b : BitVec 7) (s : State) : Out :=
  barrierOp s b fun i c k x =>
    if c.wait == .barDone then .ok (s.next i c.pc 4)
    else do
      let t ← s.settle i
      require (x.arrived != x.expect) .barrier
      .ok ((t.setWait i (.barWait b.toNat true)).arrive k b)

def execBarExp (b : BitVec 7) (a : SReg) (s : State) : Out :=
  barrierOp s b fun i c k _ => .ok ((s.announce k b.toNat ((c.get a).setWidth 32)).next i c.pc 4)

end Sys2Proof.Machine
end

