-- ==== Sys2Proof/Machine/Copy.lean ====
section
/-!
DEFINITION. Copies of a cluster's lighter: descriptors and layouts (R331 to R336), `xcpy` and `xdrain` (R155, R156, R337
to R340), the parts of a copy (R307, R308) and its completion (R341, R342).
-/

namespace Sys2Proof.Machine

/-! ## Descriptors (R331, R332, R334) -/

/-- A copy descriptor. -/
structure CopyDesc where
  src : Nat
  dst : Nat
  baren : Bool
  bar : Nat
  skind : Nat
  dkind : Nat
  dhold : Nat
  dcore : Nat
  dslot : Nat
  sfree : Bool
  add : Nat
  dim1 : Nat
  dim0 : Nat
  dpitch : Nat
  spitch : Nat
  tc : Nat
  tr : Nat
  trans : Bool
  swz : Bool
  /-- bytes of an element -/
  esz : Nat
  order : Nat
  /-- every reserved field is 0 -/
  clean : Bool
  deriving DecidableEq, Repr

/-- The fields of a descriptor's 64 bytes. -/
def copyDesc (bs : List Byte) : CopyDesc :=
  let c := fieldAt bs 0x10 8
  let b := fieldAt bs 0x30 8
  { src := fieldAt bs 0 8, dst := fieldAt bs 8 8, baren := flag c 55, bar := fld c 48 7, skind := fld c 40 2,
    dkind := fld c 38 2, dhold := fld c 36 2, dcore := fld c 34 2, dslot := fld c 29 5, sfree := flag c 28,
    add := fld c 26 2, dim1 := fieldAt bs 0x24 4, dim0 := fieldAt bs 0x20 4, dpitch := fieldAt bs 0x2C 4,
    spitch := fieldAt bs 0x28 4, tc := fld b 24 8 + 1, tr := fld b 16 8 + 1, trans := flag b 9, swz := flag b 8,
    esz := 2 ^ fld b 4 2, order := fld b 0 2,
    clean := fld c 56 8 == 0 && fld c 42 6 == 0 && fld c 0 26 == 0 && fld (fieldAt bs 0x18 8) 34 30 == 0
      && fld b 32 32 == 0 && fld b 10 6 == 0 && fld b 6 2 == 0 && fld b 2 2 == 0 && fieldAt bs 0x38 8 == 0 }

/-- The handle and the line offset of a berth endpoint (R332). -/
def endHandle (e : Nat) : Nat := fld e 0 16
def endOff (e : Nat) : Nat := fld e 16 14

/-! ## Layout (R335, R336) -/

/-- x divided by y, rounded up. -/
def ceilDiv (x y : Nat) : Nat := (x + y - 1) / y

/-- Rows and columns of tiles. -/
def CopyDesc.gr (d : CopyDesc) : Nat := ceilDiv d.dim1 d.tr
def CopyDesc.gc (d : CopyDesc) : Nat := ceilDiv d.dim0 d.tc

/-- Stored rows of a tile, elements and bytes of a stored row, its lines, and the lines of a tile. -/
def CopyDesc.sr (d : CopyDesc) : Nat := if d.trans then d.tc else d.tr
def CopyDesc.rn (d : CopyDesc) : Nat := if d.trans then d.tr else d.tc
def CopyDesc.rb (d : CopyDesc) : Nat := d.rn * d.esz
def CopyDesc.rl (d : CopyDesc) : Nat := ceilDiv d.rb 64
def CopyDesc.tl (d : CopyDesc) : Nat := d.sr * d.rl

/-- The bytes of the tile images. -/
def CopyDesc.image (d : CopyDesc) : Nat := d.gr * d.gc * d.tl * 64

/-- B: the bytes written at the destination (R333). -/
def CopyDesc.bytes (d : CopyDesc) : Nat := if d.dkind = 1 then d.image else d.dim1 * d.dim0 * d.esz

/-- The tiles of the square of side 2 ^ k at (ty, tx) in Morton order, those outside the grid passed over. -/
def mortonFrom (gr gc : Nat) : Nat → Nat → Nat → List (Nat × Nat)
  | 0, ty, tx => if ty < gr ∧ tx < gc then [(ty, tx)] else []
  | k + 1, ty, tx =>
    if gr ≤ ty ∨ gc ≤ tx then []
    else
      let h := 2 ^ k
      mortonFrom gr gc k ty tx ++ mortonFrom gr gc k ty (tx + h) ++ mortonFrom gr gc k (ty + h) tx
        ++ mortonFrom gr gc k (ty + h) (tx + h)

/-- The tiles, as row and column of the grid, in outer order. -/
def CopyDesc.tiles (d : CopyDesc) : List (Nat × Nat) :=
  match d.order with
  | 0 => (List.range d.gr).flatMap fun ty => (List.range d.gc).map fun tx => (ty, tx)
  | 1 => (List.range d.gc).flatMap fun tx => (List.range d.gr).map fun ty => (ty, tx)
  | _ => mortonFrom d.gr d.gc (Nat.log2 (max d.gr d.gc) + 1) 0 0

/-- An element of the traversal sequence: its tile's position, stored row, byte within the row, row and column. -/
structure CopyElem where
  k : Nat
  s : Nat
  j : Nat
  r : Nat
  c : Nat
  deriving DecidableEq, Repr

/-- The elements of the k-th visited tile in order, those outside the region left out. -/
def CopyDesc.tileElems (d : CopyDesc) (k : Nat) (t : Nat × Nat) : List CopyElem :=
  (List.range d.sr).flatMap fun s => (List.range d.rn).filterMap fun i =>
    let r := t.1 * d.tr + if d.trans then i else s
    let c := t.2 * d.tc + if d.trans then s else i
    if r < d.dim1 ∧ c < d.dim0 then some { k := k, s := s, j := i * d.esz, r := r, c := c } else none

/-- The traversal sequence (R336). -/
def CopyDesc.elems (d : CopyDesc) : List CopyElem := (d.tiles.zipIdx 0).flatMap fun e => d.tileElems e.2 e.1

/-- Byte j of stored row s of the k-th tile, as a byte of the berth (R335). -/
def CopyDesc.padByte (d : CopyDesc) (off k s j : Nat) : Nat :=
  let w := j / 4
  let pos := if d.swz then (w % 16) ^^^ (s % 16) else w % 16
  64 * (off + k * d.tl + s * d.rl + w / 16) + 4 * pos + j % 4

/-- The address of an element at a memory endpoint (R334). -/
def CopyDesc.at_ (d : CopyDesc) (base pitch : Nat) (e : CopyElem) : Nat := base + e.r * pitch + e.c * d.esz
def CopyDesc.srcVa (d : CopyDesc) (e : CopyElem) : Nat := d.at_ d.src d.spitch e
def CopyDesc.dstVa (d : CopyDesc) (e : CopyElem) : Nat := d.at_ d.dst d.dpitch e

/-- How many units of progress the copy has: elements, or one whole image between berths. -/
def CopyDesc.total (d : CopyDesc) : Nat := if d.skind = 1 ∧ d.dkind = 1 then 1 else d.dim1 * d.dim0

/-! ## The checks of a slice (R331 to R335, R337, R338) -/

/-- A memory endpoint, and its pitch, are multiples of the element size. -/
def CopyDesc.alignedEnd (d : CopyDesc) (kind va pitch : Nat) : Bool :=
  kind != 0 || (va % d.esz == 0 && pitch % d.esz == 0)

/-- The conditions that raise COPY at any slice; `pilot` is the kernel's PILOT (R331 to R334). Reserved codes and a berth
endpoint's high bits are among them (log 70). -/
def CopyDesc.bad (d : CopyDesc) (pilot : Bool) : Bool :=
  !d.clean || (!d.baren && d.bar != 0) || (d.dhold != 2 && (d.dcore != 0 || d.dslot != 0))
  || (d.skind == 1 && d.spitch != 0) || (d.dkind == 1 && d.dpitch != 0)
  || 2 ≤ d.skind || 2 ≤ d.dkind || d.dhold == 3 || d.add == 3 || d.order == 3 || d.dim1 == 0 || d.dim0 == 0
  || (d.skind == 1 && d.src / 2 ^ 30 != 0) || (d.dkind == 1 && d.dst / 2 ^ 30 != 0)
  || (d.dhold != 0 && d.dkind == 0) || (d.dhold == 1 && !pilot) || (d.sfree && d.skind == 0)
  || (d.skind == 1 && d.dkind == 1 && fld d.src 14 2 == fld d.dst 14 2)
  || (d.add != 0 && d.dkind == 1) || (d.add == 1 && d.esz != 4) || (d.add == 2 && d.esz != 8)
  || (d.skind == 0 && d.dkind == 0 && (d.trans || d.swz))
  || !d.alignedEnd d.skind d.src d.spitch || !d.alignedEnd d.dkind d.dst d.dpitch

/-- The berth endpoints with the state that each must be in. -/
def CopyDesc.berths (d : CopyDesc) : List (Nat × BerthState) :=
  (if d.skind = 1 then [(d.src, .full)] else []) ++ if d.dkind = 1 then [(d.dst, .filling)] else []

/-- The checks of a slice but those of its place among the slices. -/
def State.sliceChecks (s : State) (i : Issuer) (y : Crew) (d : CopyDesc) : Act Unit := do
  let ref (e : Nat) : Option BerthRef := s.handle i.cluster (endHandle e)
  require (!d.baren || decide (d.bar < y.bars.length)) .range
  require (d.berths.all fun e => match ref e.1 with
    | some r => decide (endOff e.1 + d.gr * d.gc * d.tl ≤ r.entry.size)
    | none => true) .range
  require (s.hasLighter i.cluster) .owner
  let h (e : Nat) : W64 := BitVec.ofNat 64 (endHandle e)
  match d.berths.find? fun e => !(ref e.1).any fun r => s.holdsBerth i r.entry with
  | some e => raise (handleTrap .owner (h e.1))
  | none => match d.berths.find? fun e => !(ref e.1).any fun r => r.entry.state == e.2 with
    | some e => raise (handleTrap .berthState (h e.1))
    | none => require (!d.bad ((s.kernel i).any (·.pilot))) .copy

/-- Two snapshots agree outside bytes 0x18 to 0x1F (R338). -/
def sameDesc (x y : List Byte) : Bool := x.take 0x18 == y.take 0x18 && x.drop 0x20 == y.drop 0x20

/-! ## Slices (R155, R337 to R340) -/

/-- The berth of an endpoint becomes the lighter's, in a state (R339). -/
def State.toLighter (s : State) (i : Issuer) (e : Nat) (st : BerthState) : State :=
  match s.handle i.cluster (endHandle e) with
  | some r => s.setBerth r.core r.idx { r.entry with state := st, holder := .lighter }
  | none => s

/-- The last slice starts the copy (R339). -/
def State.startCopy (s : State) (i : Issuer) (key : Nat) (y : Crew) (addr : W64) (bs : List Byte) : State :=
  let d := copyDesc bs
  let s := if d.skind = 1 then s.toLighter i d.src .draining else s
  let s := if d.dkind = 1 then s.toLighter i d.dst .filling else s
  let u := s.cluster i.cluster
  let named := (s.crew? (32 * (4 * i.cluster + d.dcore) + d.dslot)).map (·.tag)
  let c : Copy := { id := u.copyNo, crew := key, who := s.crewStarter y, addr := addr, desc := bs, done := 0, paid := 0,
                    part := none, dtag := if d.dhold = 2 then named else none, ended := false, work := [],
                    paused := false, failed := none }
  s.setCluster i.cluster { u with copies := u.copies ++ [c], copyNo := u.copyNo + 1 }

/-- The slice k of n may join those that were supplied, `old`, or be the first of a copy (R155, R338). -/
def sliceFits (old : Option Slices) (k n held : Nat) : Bool :=
  decide (k < n) && match old with
    | some x => x.n == n && !x.given.contains k
    | none => decide (held < 32)

/-- The read of a slice's descriptor; where it fails, the faults that do not rest on it come first (R128). -/
def State.readDesc (s : State) (i : Issuer) (c : ScalarCtx) (addr : W64) (fits : Bool) : Act (List Byte × State) :=
  match s.scalarRead i c true .device addr 64 with
  | .error (.trap t) => do
    require (s.hasLighter i.cluster) .owner
    require fits .copy
    raise t
  | r => r

def execXcpy (a b : SReg) (s : State) : Out :=
  scalar s .gangs [] fun i c => do
    let s ← s.settle i
    let addr := c.get a
    aligned addr 64
    let w := (c.get b).toNat
    require (w / 2 ^ 10 == 0) .range
    match s.issuerCrew i with
    | none => .ok s
    | some (key, y) => do
      let k := fld w 0 5
      let n := fld w 5 5 + 1
      let mine (x : Slices) : Bool := x.crew == key && x.addr == addr
      let old := (s.core i.core).slices.find? mine
      let fits := sliceFits old k n (s.core i.core).slices.length
      let (bs, s) ← s.readDesc i c addr fits
      let d := copyDesc bs
      let u := s.core i.core
      s.sliceChecks i y d
      require (fits && old.all fun x => sameDesc x.desc bs) .copy
      let x : Slices := match old with
        | some x => { x with given := x.given ++ [k] }
        | none => { crew := key, addr := addr, desc := bs, n := n, given := [k] }
      let rest := u.slices.filter fun z => !mine z
      let last := x.given.length == n
      waitFor (!last || decide ((s.cluster i.cluster).copies.length < 64)) s
      let s ← s.releaseFor i .device
      let u := s.core i.core
      let s := s.setCore i.core { u with slices := if last then rest else rest ++ [x] }
      let share := (k + 1) * d.bytes / n - k * d.bytes / n
      let s := if d.baren then s.announce key d.bar (BitVec.ofNat 32 share) else s
      let s := if last then match s.crew? key with
          | some y => s.startCopy i key y addr x.desc
          | none => s
        else s
      .ok (s.next i c.pc 4)

/-! ## Drain paths (R156, R308) -/

/-- The path of a part with its destination page. -/
def CopyDesc.path (d : CopyDesc) (pkg : Nat) (dst : Option TlbEntry) : DrainPath :=
  if d.dkind = 1 then (if d.skind = 1 then .peer else .inward)
  else match dst with
    | none => .outward
    | some t => if t.home != pkg then .fabric else if t.cache == 2 && d.add != 0 then .tun else .outward

/-- The copy is pending for a path: a part whose destination belongs to it has not completed, or some part has not been
translated (R308). -/
def State.pendingFor (s : State) (p : DrainPath) (c : Copy) : Bool :=
  let d := copyDesc c.desc
  match c.part with
  | some x => p == d.path s.ident.pkg x.dst || decide (c.done + x.len < d.total)
  | none => if d.skind = 1 ∧ d.dkind = 1 then p == .peer && decide (c.done < d.total) else decide (c.done < d.total)

def execXdrain (p : DrainPath) (s : State) : Out :=
  scalar s .gangs [] fun i c =>
    let u := s.cluster i.cluster
    let ids := match c.wait with
      | .drain ids => ids
      | _ => (u.copies.filter fun x => coreOf x.crew == i.core && s.pendingFor p x).map (·.id)
    if u.copies.any fun x => ids.contains x.id then .error (.wait (s.setWait i (.drain ids)))
    else .ok (s.next i c.pc 4)

/-! ## Parts (R307) -/

/-- The unit of a copy. -/
def copyOp (cl : Nat) (c : Copy) : UnitOp :=
  { who := c.who, cl := cl, src := { die := dieOf cl, from_ := 1, unit := cl % 16 }, reader := .copy cl c.id }

/-- The poster of a copy. -/
def copyPoster (cl : Nat) (c : Copy) : Poster := { agent := 1, sub := 0, key := cl, sel := c.id }

/-- Copy i of a cluster replaced. -/
def State.setCopy (s : State) (cl i : Nat) (c : Copy) : State :=
  let u := s.cluster cl
  s.setCluster cl { u with copies := u.copies.set i c }

/-- The pool address of byte 0 of a berth endpoint. -/
def State.padBase (s : State) (cl e : Nat) : Nat :=
  let core := 4 * cl + fld (endHandle e) 14 2
  core * 2 ^ 20 + 64 * (s.berth core (fld (endHandle e) 7 7)).base

/-- The pool addresses of an element's bytes at a berth endpoint. -/
def State.padAddrs (s : State) (cl e : Nat) (d : CopyDesc) (x : CopyElem) : List Nat :=
  (List.range d.esz).map fun i => s.padBase cl e + d.padByte (endOff e) x.k x.s (x.j + i)

/-- The bytes of an element at the source: of a page of this package, of a berth, or from the line that was read. -/
def State.takeElem (s : State) (cl : Nat) (c : Copy) (src : Option TlbEntry) (line : Option (List Byte)) (e : CopyElem) :
    List Byte × State :=
  let d := copyDesc c.desc
  match src with
  | none =>
    let as := s.padAddrs cl d.src d e
    (as.map s.scratch.byte,
     if as.any fun a => s.spoisoned a 1 then s.engineFault c.who .ecc (copyOp cl c).src else s)
  | some t =>
    let x := t.at_ (d.srcVa e)
    match line with
    | some l => ((l.drop (x.pa % 128)).take d.esz, s)
    | none => s.unitRead (copyOp cl c) x d.esz

/-- The bytes of an element at the destination: stored, or added (R333). -/
def State.putElem (s : State) (cl : Nat) (c : Copy) (dst : Option TlbEntry) (e : CopyElem) (bs : List Byte) : State :=
  let d := copyDesc c.desc
  match dst with
  | none => ((s.padAddrs cl d.dst d e).zip bs).foldl (fun s x => s.poolStore x.1 [x.2]) s
  | some t =>
    let x := t.at_ (d.dstVa e)
    if d.add = 0 then s.unitWrite (copyOp cl c) x bs else s.unitAdd (copyOp cl c) x (d.add == 2) (valOf bs)

/-- Elements moved one after the other within this package. -/
def State.moveElems (s : State) (cl : Nat) (c : Copy) (src dst : Option TlbEntry) (line : Option (List Byte))
    (es : List CopyElem) : State :=
  es.foldl (fun s e =>
    let (bs, s) := s.takeElem cl c src line e
    s.putElem cl c dst e bs) s

/-- The page of an endpoint at an element; none for a berth. An address past 2^64 does not wrap (log 70). -/
def State.endPage (s : State) (w : Who) (kind va : Nat) (write : Bool) : UnitAct (Option TlbEntry) :=
  if kind = 1 then .ok none
  else match s.leaf w (BitVec.ofNat 64 va) write with
    | .ok t => if va < 2 ^ 64 then .ok (some t) else atVa va (.error (.page .varange))
    | .error c => atVa va (.error (.page c))

/-- An address of n bytes lies in the page. -/
def TlbEntry.holds (t : TlbEntry) (va n : Nat) : Bool := decide (t.va ≤ va) && decide (va + n ≤ t.va + t.size)

/-- The elements of a part: the longest run on the same pages (R307). -/
def CopyDesc.partOf (d : CopyDesc) (src dst : Option TlbEntry) (es : List CopyElem) : List CopyElem :=
  es.takeWhile fun e => src.all (fun t => t.holds (d.srcVa e) d.esz) && dst.all fun t => t.holds (d.dstVa e) d.esz

/-- The issuing crew is still on its core. -/
def State.copyCrew (s : State) (c : Copy) : Bool := (s.crew? c.crew).any fun y => y.tag == c.who.tag

/-- Bytes of B subtracted from the barrier's PEND (R307, R341). -/
def State.payCopy (s : State) (c : Copy) (n : Nat) : State :=
  let d := copyDesc c.desc
  if d.baren && s.copyCrew c then s.announce c.crew d.bar (-(BitVec.ofNat 32 n)) else s

/-- A part of n elements has been performed. Its bytes are subtracted from PEND at once, but for those of the last part into
a berth, which are in the step that gives the berth back (R307, R341; log 59). -/
def State.partDone (s : State) (cl i : Nat) (c : Copy) (n : Nat) : State :=
  let d := copyDesc c.desc
  let paid := if d.dkind = 0 ∨ (d.skind = 0 ∧ c.done + n < d.total) then n * d.esz else 0
  (s.payCopy c paid).setCopy cl i { c with done := c.done + n, paid := c.paid + paid, part := none }

/-- The page lies in another package. -/
def State.farPage (s : State) (t : Option TlbEntry) : Bool := t.any fun t => t.home != s.ident.pkg

/-- A request of the copy has not been answered. -/
def State.copyWaits (s : State) (cl id : Nat) : Bool :=
  s.reqs.any fun r => r.for_ == .copy cl id || r.for_ == .peer (.copy cl id)

/-- Additions of lighters are still on their way to the tun (R294, R308). -/
def State.tunWaits (s : State) (t : Option TlbEntry) : Bool :=
  t.any (fun t => t.cache == 2) && s.tun.any fun x => x.core == noCore

/-- The run of elements that one packet takes: of one source line where that is another package's, and contiguous
within one line at a destination of another package. -/
def CopyDesc.chunk (d : CopyDesc) (x : CopyPart) (farSrc farDst : Bool) : List CopyElem → List CopyElem
  | [] => []
  | e :: es =>
    let line (f : CopyElem → Nat) (t : Option TlbEntry) (z : CopyElem) : Nat := (t.map fun t => (t.at_ (f z)).pa / 128).getD 0
    e :: ((es.zipIdx 1).takeWhile fun z =>
      (!farSrc || line d.srcVa x.src z.1 == line d.srcVa x.src e)
      && (!farDst || (line d.dstVa x.dst z.1 == line d.dstVa x.dst e && d.dstVa z.1 == d.dstVa e + z.2 * d.esz))).map (·.1)

/-- The bytes of elements at the source, one after the other. -/
def State.takeElems (s : State) (cl : Nat) (c : Copy) (x : CopyPart) : List CopyElem → List Byte × State
  | [] => ([], s)
  | e :: es =>
    let (bs, s) := s.takeElem cl c x.src x.line e
    let (cs, s) := State.takeElems s cl c x es
    (bs ++ cs, s)

/-- The entries of additions at another package. -/
def addEntries (n off : Nat) : List Byte → Nat → List Byte
  | _, 0 => []
  | bs, k + 1 => atmEntry 0 off (valOf (bs.take n)) 0 ++ addEntries n (off + n) (bs.drop n) k

/-- The packet that carries moved bytes to another package: bulk bytes (R424), or additions. Bytes that fill no whole number
of eights go as a `WR` of their line (R423; log 38). -/
def State.copyPacket (s : State) (d : CopyDesc) (x : Xl) (bs : List Byte) : FabPacket :=
  if d.add = 0 then
    if bs.length % 8 = 0 then { s.packet x.home .blk bs with keyid := x.key, pa := x.pa }
    else { s.packet x.home .wr (wrPayload [(x.pa % 128, bs)]) with keyid := x.key, pa := x.pa / 128 * 128 }
  else { s.packet x.home .red (addEntries d.esz (x.pa % 128) bs (bs.length / d.esz)) with
    keyid := x.key, pa := x.pa / 128 * 128, scope := .device, aop := if d.add = 2 then 0 else RedOp.code .fadd,
    sz := if d.add = 2 then .b64 else .b32 }

/-- The copy fails: it ends with an error (R342, R486). -/
def State.failCopy (s : State) (cl i : Nat) (c : Copy) (t : Trap) : State :=
  let bits : W64 := if t.code = .fabric then 1 else 2
  let mark : UnitStep := .set (c.addr + 0x1C) 4 bits false
  s.setCopy cl i { c with paused := false, failed := some t, part := none,
                          work := if c.ended then [mark, .add (c.addr + 0x18) 4 1 false] else [mark] }

/-- The key of a page of this package has been removed since the part began (R456). -/
def State.keyGone (s : State) (t : Option TlbEntry) : Bool := t.any fun t => t.home == s.ident.pkg && !s.keyLoaded t.key

/-- One movement of a part that reaches another package or the tun: a line of the source is asked for, a run of elements is
moved, or the part ends when every request has been answered and its additions have been applied (R308, R425). An access
after a key's removal fails (R456). -/
def State.farPart (s : State) (cl i : Nat) (c : Copy) (x : CopyPart) : State :=
  let d := copyDesc c.desc
  let fs := s.farPage x.src
  let fd := s.farPage x.dst
  if x.moved = x.len then
    if s.copyWaits cl c.id || (d.add != 0 && s.tunWaits x.dst) then s else s.partDone cl i c x.len
  else if s.keyGone x.src || s.keyGone x.dst then s.failCopy cl i c { accTrap 0 (.page .key) with hard := true }
  else match d.chunk x fs fd ((d.elems.drop (c.done + x.moved)).take (x.len - x.moved)) with
    | [] => s
    | e :: es =>
      let n := es.length + 1
      let x' : CopyPart := { x with moved := x.moved + n, line := none }
      match fs && x.line.isNone, x.src with
      | true, some t =>
        if s.copyWaits cl c.id || !s.streamRoom t.home then s
        else
          let y := t.at_ (d.srcVa e)
          let p := { s.packet y.home .rd [] with keyid := y.key, pa := y.pa / 128 * 128, scope := .device, sz := .b64 }
          (s.request p (.copy cl c.id) (p.pa / 128) []).2
      | _, _ =>
        match fd, x.dst with
        | true, some t =>
          if !s.streamRoom t.home || decide (65536 ≤ s.reqs.length) then s
          else
            let (bs, s) := s.takeElems cl c x (e :: es)
            let p := s.copyPacket d (t.at_ (d.dstVa e)) bs
            (s.setCopy cl i { c with part := some x' }) |> fun s => (s.request p (.copy cl c.id) (p.pa / 128) []).2
        | _, _ => (s.moveElems cl c x.src x.dst x.line (e :: es)).setCopy cl i { c with part := some x' }

/-- The next part of a copy is performed, or its failure is taken (R305, R307, R486). -/
def State.nextPart (s : State) (cl i : Nat) (c : Copy) : State :=
  let d := copyDesc c.desc
  let u := copyOp cl c
  if d.skind = 1 ∧ d.dkind = 1 then
    let from_ := s.padBase cl d.src + 64 * endOff d.src
    let bs := s.scratch.bytes from_ d.image
    let s := if s.spoisoned from_ d.image then s.engineFault c.who .ecc u.src else s
    (s.poolStore (s.padBase cl d.dst + 64 * endOff d.dst) bs).partDone cl i c 1
  else match d.elems.drop c.done with
    | [] => s
    | e :: es =>
      let fail (e : AccErr) : State :=
        if e.bare == .page .demand then
          (s.setCopy cl i { c with paused := true }).pause (copyPoster cl c) u e.address (c.done * d.esz)
        else s.failCopy cl i c { accTrap 0 e with hard := true }
      match s.endPage u.agent d.skind (d.srcVa e) false, s.endPage u.agent d.dkind (d.dstVa e) true with
      | .error r, _ => fail r
      | .ok _, .error r => fail r
      | .ok src, .ok dst =>
        let part := d.partOf src dst (e :: es)
        if s.farPage src || s.farPage dst || (d.add != 0 && dst.any fun t => t.cache == 2) then
          s.setCopy cl i { c with part := some { len := part.length, moved := 0, src := src, dst := dst, line := none } }
        else (s.moveElems cl c src dst none part).partDone cl i c part.length

/-- The copies that the lighter performs at once: the first eight that can go on (R340). -/
def State.inLighter (s : State) (cl i : Nat) : Bool :=
  let l := (s.cluster cl).copies
  decide (((l.take i).filter fun c => !c.paused && !c.ended && c.failed.isNone).length < 8)

def execCopyPartComplete (cl i : Nat) (s : State) : Out :=
  match (s.cluster cl).copies[i]? with
  | none => .next s
  | some c =>
    if c.paused || c.failed.isSome || s.gated cl || !s.inLighter cl i || decide ((copyDesc c.desc).total ≤ c.done) then .next s
    else match c.part with
      | some x => .next (s.farPart cl i c x)
      | none => .next (s.nextPart cl i c)

/-! ## Completion (R341, R342) -/

/-- The issuing crew as a holder. -/
def Copy.crewHolder (c : Copy) : Holder := .crew (coreOf c.crew % 4) (c.crew % 32)

/-- The holder of the destination berth at completion (R341). -/
def State.copyHolder (s : State) (cl : Nat) (c : Copy) (d : CopyDesc) : Holder :=
  match d.dhold with
  | 1 => if (s.pilot? cl).any fun p => p.grid == c.who.grid then .pilot else c.crewHolder
  | 2 =>
    let y := s.crew? (32 * (4 * cl + d.dcore) + d.dslot)
    if y.any fun y => c.dtag == some y.tag then .crew d.dcore d.dslot else c.crewHolder
  | _ => c.crewHolder

/-- The berth of an endpoint changed. -/
def State.changeEnd (s : State) (cl e : Nat) (f : Berth → Berth) : State :=
  let core := 4 * cl + fld (endHandle e) 14 2
  let idx := fld (endHandle e) 7 7
  s.setBerth core idx (f (s.berth core idx))

/-- The bytes of the tile images that hold no element are zero, and no byte of them is poisoned (R296, R335). -/
def State.padZeros (s : State) (cl : Nat) (d : CopyDesc) : State :=
  let base := s.padBase cl d.dst
  let es := d.elems
  let held := (List.range (d.gr * d.gc)).flatMap fun k => (List.range d.sr).flatMap fun r =>
    (List.range (d.rl * 64)).filterMap fun j =>
      if es.any fun e => e.k == k && e.s == r && decide (e.j ≤ j) && decide (j < e.j + d.esz) then none
      else some (d.padByte (endOff d.dst) k r j)
  let first := base + 64 * endOff d.dst
  let s := held.foldl (fun s a => { s with scratch := s.scratch.setByte (base + a) 0 }) s
  { s with spoison := s.spoison.filter fun g => !(decide (first ≤ g * 8) && decide (g * 8 + 8 ≤ first + d.image)) }

/-- The source berth after a copy (R341). -/
def Copy.sourceAfter (c : Copy) (d : CopyDesc) (b : Berth) : Berth :=
  if d.sfree then b.freed else { b with state := .draining, holder := c.crewHolder }

/-- Copy i leaves the lighter. -/
def State.dropCopy (s : State) (cl i : Nat) : State :=
  let u := s.cluster cl
  s.setCluster cl { u with copies := u.copies.eraseIdx i }

/-- The berths of a copy that has performed every part are given back, with the bytes of B that are still to be subtracted
(R341). -/
def State.giveBerths (s : State) (cl : Nat) (c : Copy) : State :=
  let d := copyDesc c.desc
  let s := if d.skind = 0 ∧ d.dkind = 1 then s.padZeros cl d else s
  let s := if d.dkind = 1 then
      let h := s.copyHolder cl c d
      s.changeEnd cl d.dst fun b => { b with state := .full, holder := h, count := min (b.count + d.bytes) (b.size * 64) }
    else s
  let s := if d.skind = 1 then s.changeEnd cl d.src (c.sourceAfter d) else s
  s.payCopy c (d.bytes - c.paid)

/-- The berths of a copy that fails return to the issuing crew, and every byte of B has been subtracted (R342). -/
def State.returnBerths (s : State) (cl : Nat) (c : Copy) : State :=
  let d := copyDesc c.desc
  let s := s.payCopy c (d.bytes - c.paid)
  let s := if d.dkind = 1 then s.changeEnd cl d.dst fun b => { b with state := .filling, holder := c.crewHolder } else s
  if d.skind = 1 then s.changeEnd cl d.src fun b => { b with state := .draining, holder := c.crewHolder } else s

/-- The completion word rises, checking no stamp (R341; log 70). -/
def Copy.seqStep (c : Copy) : UnitStep := .add (c.addr + 0x18) 4 1 false

/-- Copy i has given its berths back, and its completion word is to rise. -/
def State.endCopy (s : State) (cl i : Nat) (c : Copy) : State := s.setCopy cl i { c with ended := true, work := [c.seqStep] }

/-- An attempt at a step of a copy's end, and what follows one that is made. -/
def State.copyEnd (s : State) (cl i : Nat) (c : Copy) (f : State → State) (fails : Code → State) : UnitEnd State → State
  | .done s => f s
  | .waits s => s
  | .demand va =>
    (s.setCopy cl i { c with paused := true }).pause (copyPoster cl c) (copyOp cl c) va (c.done * (copyDesc c.desc).esz)
  | .fails x => fails x

/-- Steps of the completion that succeed one after the other: the berths, the word, and the end (R341). -/
def State.completeCopy (s : State) (cl i : Nat) (c : Copy) : State :=
  if !c.ended then (s.giveBerths cl c).endCopy cl i c
  else match c.work with
    | [] => if s.copyWaits cl c.id then s else s.dropCopy cl i
    | x :: l => s.copyEnd cl i c (fun s => s.setCopy cl i { c with work := l })
        (fun k => s.failCopy cl i c { code := k, hard := true }) (s.tryStep (copyOp cl c) x)

def execCopyComplete (cl i : Nat) (s : State) : Out :=
  match (s.cluster cl).copies[i]? with
  | none => .next s
  | some c =>
    .next (if c.paused || c.failed.isSome || s.gated cl || decide (c.done < (copyDesc c.desc).total)
        || (!c.ended && s.copyWaits cl c.id) then s
      else s.completeCopy cl i c)

/-- Steps of the end of a copy that failed with t: EREF or EFAB, the berths, the word, and the report. A step that fails
itself is left out (R342, R486). -/
def State.completeFailed (s : State) (cl i : Nat) (c : Copy) (t : Trap) : State :=
  match c.work with
  | x :: l => s.copyEnd cl i c (fun s => s.setCopy cl i { c with work := l })
      (fun _ => s.setCopy cl i { c with work := l }) (s.tryStep (copyOp cl c) x)
  | [] =>
    if !c.ended then (s.returnBerths cl c).endCopy cl i c
    else if s.copyWaits cl c.id then s
    else (s.dropCopy cl i).engineFault c.who t.code (copyOp cl c).src

def execCopyErrorComplete (cl i : Nat) (s : State) : Out :=
  match (s.cluster cl).copies[i]? with
  | none => .next s
  | some c => match c.failed with
    | none => .next s
    | some t => .next (if c.paused then s else s.completeFailed cl i c t)

end Sys2Proof.Machine
end

