-- ==== Sys2Proof/Machine/Geometry.lean ====
section
/-!
DEFINITION. The exact tests of the traversal unit (R406): fractions, numbers of the form a + sqrt b or a - sqrt b (the
roots of a sphere), boxes, triangles and spheres, and the one rounding of HITT, BU and BV.
-/

namespace Sys2Proof.Machine

/-! ## Fractions -/

def fracInt (n : Int) : Frac := (n, 1)
def fracAdd (x y : Frac) : Frac := (x.1 * y.2 + y.1 * x.2, x.2 * y.2)
def fracNeg (x : Frac) : Frac := (-x.1, x.2)
def fracSub (x y : Frac) : Frac := fracAdd x (fracNeg y)
def fracMul (x y : Frac) : Frac := (x.1 * y.1, x.2 * y.2)
/-- x over y, for y that is not 0. -/
def fracDiv (x y : Frac) : Frac := if y.1 < 0 then (-(x.1 * y.2), x.2 * y.1.natAbs) else (x.1 * y.2, x.2 * y.1.natAbs)
/-- The sign of a fraction: -1, 0 or 1. -/
def fracSign (x : Frac) : Int := x.1.sign
/-- x is at most y. -/
def fracLe (x y : Frac) : Bool := x.1 * y.2 ≤ y.1 * x.2

/-- A fraction as an exact value. -/
def fracEx (x : Frac) : Ex := .fin (x.1 < 0) x.1.natAbs x.2

/-- The value of a finite pattern; none for an infinity or a NaN. -/
def frac32 (x : W32) : Option Frac :=
  match f32v x with
  | .fin s n d => some (if s then -(n : Int) else n, d)
  | _ => none

/-- The magnitude of a pattern of at most the infinity's, which stands for 2^128. -/
def fracMag (x : Nat) : Frac :=
  match dyadic false (Fmt.f32.parts x).2.1 (Fmt.f32.parts x).2.2 with
  | .fin _ n d => (n, d)
  | _ => (0, 1)

/-! ## Roots -/

/-- A fraction as a root. -/
def rootOf (x : Frac) : Root := { a := x, neg := false, b := (0, 1) }

/-- The sign of e + 2 c sqrt p, with c = 1 or, when `neg`, -1. -/
def signPlusRoot (e : Frac) (neg : Bool) (p : Frac) : Int :=
  let four := fracMul (fracInt 4) p
  let sq := fracMul e e
  if neg then (if fracSign e ≤ 0 then (if fracSign p = 0 then fracSign e else -1) else fracSign (fracSub sq four))
  else if 0 ≤ fracSign e then (if fracSign p = 0 then fracSign e else 1) else fracSign (fracSub four sq)

/-- The sign of x - y, exactly. -/
def rootCmp (x y : Root) : Int :=
  let d := fracSub x.a y.a
  let sd := fracSign d
  let su : Int := match x.neg, y.neg with
    | false, true => if fracSign x.b = 0 ∧ fracSign y.b = 0 then 0 else 1
    | true, false => if fracSign x.b = 0 ∧ fracSign y.b = 0 then 0 else -1
    | false, false => fracSign (fracSub x.b y.b)
    | true, true => fracSign (fracSub y.b x.b)
  if sd = 0 then su
  else if su = 0 ∨ sd = su then sd
  else
    let e := fracSub (fracMul d d) (fracAdd x.b y.b)
    let c := signPlusRoot e (x.neg != y.neg) (fracMul x.b y.b)
    if c = 0 then 0 else if 0 < c then sd else su

/-- The largest pattern from 0 to the infinity's whose magnitude is at most x, by binary digits from the highest. -/
def floorBits (x : Root) : Nat → Nat → Nat
  | 0, r => r
  | k + 1, r =>
    let t := r + 2 ^ k
    floorBits x k (if t ≤ 0x7F800000 ∧ rootCmp (rootOf (fracMag t)) x ≤ 0 then t else r)

/-- A root of at least 0 rounded to `f32`, to nearest even. -/
def roundPos (x : Root) : Nat :=
  let r := floorBits x 31 0
  if 0x7F800000 ≤ r then 0x7F800000
  else
    let mid := fracDiv (fracAdd (fracMag r) (fracMag (r + 1))) (fracInt 2)
    let c := rootCmp x (rootOf mid)
    if c < 0 ∨ (c = 0 ∧ r % 2 = 0) then r else r + 1

/-- A root rounded to `f32`, to nearest even. -/
def roundRoot (x : Root) : W32 :=
  if 0 ≤ rootCmp x (rootOf (0, 1)) then BitVec.ofNat 32 (roundPos x)
  else BitVec.ofNat 32 (0x80000000 + roundPos { a := fracNeg x.a, neg := !x.neg, b := x.b })

/-! ## Tests (R406) -/

/-- A ray as the tests see it: origin, direction and least t. -/
structure RayGeo where
  o : Vector Frac 3
  d : Vector Frac 3
  tnear : Ex
  deriving DecidableEq, Repr

/-- The least t so far: none while it is plus infinity. -/
def inBest (t : Root) (best : Option Root) : Bool :=
  match best with
  | none => true
  | some b => rootCmp t b ≤ 0

def vdot (x y : Vector Frac 3) : Frac := fracAdd (fracAdd (fracMul x[0] y[0]) (fracMul x[1] y[1])) (fracMul x[2] y[2])
def vsub (x y : Vector Frac 3) : Vector Frac 3 := #v[fracSub x[0] y[0], fracSub x[1] y[1], fracSub x[2] y[2]]
def vcross (x y : Vector Frac 3) : Vector Frac 3 :=
  #v[fracSub (fracMul x[1] y[2]) (fracMul x[2] y[1]), fracSub (fracMul x[2] y[0]) (fracMul x[0] y[2]),
     fracSub (fracMul x[0] y[1]) (fracMul x[1] y[0])]

/-- The triangle test: t, u and v (R406). -/
def hitTriangle (r : RayGeo) (best : Option Root) (v0 v1 v2 : Vector Frac 3) : Option (Root × Frac × Frac) :=
  let e1 := vsub v1 v0
  let e2 := vsub v2 v0
  let s := vsub r.o v0
  let p := vcross r.d e2
  let q := vcross s e1
  let det := vdot e1 p
  if fracSign det = 0 then none
  else
    let u := fracDiv (vdot s p) det
    let v := fracDiv (vdot r.d q) det
    let t := fracDiv (vdot e2 q) det
    if 0 ≤ fracSign u ∧ 0 ≤ fracSign v ∧ fracLe (fracAdd u v) (fracInt 1) ∧ r.tnear.le (fracEx t)
        ∧ inBest (rootOf t) best then some (rootOf t, u, v)
    else none

/-- The root is at least TNEAR. -/
def afterNear (near : Ex) (t : Root) : Bool :=
  match near with
  | .fin s n d => decide (0 ≤ rootCmp t (rootOf (if s then -(n : Int) else n, d)))
  | .inf s => s
  | .nan => false

/-- A ray without a direction whose origin lies on a sphere meets it at every t; it has no least t while TNEAR is minus
infinity, and the spec states no result (log 20). -/
def sphereOpen (r : RayGeo) (c : Vector Frac 3) (rad : Frac) : Bool :=
  let oc := vsub r.o c
  fracSign (vdot r.d r.d) == 0 && fracSign (fracSub (vdot oc oc) (fracMul rad rad)) == 0 && r.tnear == .inf true

/-- The sphere test: the least root in range (R406). A ray without a direction meets a sphere that its origin lies on
at every t. -/
def hitSphere (r : RayGeo) (best : Option Root) (c : Vector Frac 3) (rad : Frac) : Option Root :=
  let oc := vsub r.o c
  let a := vdot r.d r.d
  let b := vdot oc r.d
  let k := fracSub (vdot oc oc) (fracMul rad rad)
  let ok (t : Root) : Bool := afterNear r.tnear t && inBest t best
  if fracSign a = 0 then
    match r.tnear with
    | .fin s n d =>
      let t := rootOf (if s then -(n : Int) else n, d)
      if fracSign k = 0 ∧ ok t then some t else none
    | .inf _ | .nan => none
  else
    let disc := fracSub (fracMul b b) (fracMul a k)
    if fracSign disc < 0 then none
    else
      let m := fracDiv (fracNeg b) a
      let w := fracDiv disc (fracMul a a)
      let t1 : Root := { a := m, neg := true, b := w }
      let t2 : Root := { a := m, neg := false, b := w }
      if ok t1 then some t1 else if ok t2 then some t2 else none

/-- The larger and the smaller of two values that are no NaN. -/
def exMax (x y : Ex) : Ex := if x.le y then y else x
def exMin (x y : Ex) : Ex := if x.le y then x else y

/-- The ends of the range of t on one axis of a box; none when the axis misses (R406). -/
def boxAxis (o d : Frac) (lo hi : Ex) : Option (Ex × Ex) :=
  if fracSign d = 0 then
    if lo.le (fracEx o) && (fracEx o).le hi then some (.inf true, .inf false) else none
  else
    let x := (lo.sub false (fracEx o)).div (fracEx d)
    let y := (hi.sub false (fracEx o)).div (fracEx d)
    some (exMin x y, exMax x y)

/-- The entry value of a box of six `f32`, when the ray enters it (R406). -/
def hitBox (r : RayGeo) (best : Option Root) (bx : List Byte) : Option Ex :=
  let c (i : Nat) : Ex := f32v (f32At bx (4 * i))
  match boxAxis r.o[0] r.d[0] (c 0) (c 3), boxAxis r.o[1] r.d[1] (c 1) (c 4), boxAxis r.o[2] r.d[2] (c 2) (c 5) with
  | some x, some y, some z =>
    let lo := exMax (exMax (exMax x.1 y.1) z.1) r.tnear
    let hi := exMin (exMin x.2 y.2) z.2
    let fits : Bool := match lo with
      | .fin s n d => inBest (rootOf (if s then -(n : Int) else n, d)) best
      | .inf s => s || best.isNone
      | .nan => false
    if lo.le hi && fits then some lo else none
  | _, _, _ => none

/-- Three finite `f32` of a record. -/
def vec3At (bs : List Byte) (o : Nat) : Option (Vector Frac 3) :=
  match frac32 (f32At bs o), frac32 (f32At bs (o + 4)), frac32 (f32At bs (o + 8)) with
  | some x, some y, some z => some #v[x, y, z]
  | _, _, _ => none

end Sys2Proof.Machine
end

