-- ==== Sys2Proof/Machine/Project.lean ====
section
/-! DEFINITION. The projection stage of a cluster's render unit (R266 to R271, R394). -/

namespace Sys2Proof.Machine

/-! ## Jobs and parameter blocks (R267, R268) -/

/-- The selected views of a 128-bit mask at a byte of a descriptor. -/
def viewsOf (bs : List Byte) (o : Nat) : List Nat := (List.range 128).filter fun v => flag (fieldAt bs o 16) v

/-- NV, and the tile side of TS, of a parameter block's header (R267). -/
def ppbNv (hd : List Byte) : Nat := fieldAt hd 0 1
def ppbTs (hd : List Byte) : Nat := fld (fieldAt hd 0 4) 8 2
def ppbSide (hd : List Byte) : Nat := tileSide (ppbTs hd)

/-- WT and HT of a view entry (R267). -/
def viewWt (en : List Byte) : Nat := fieldAt en 0x78 2
def viewHt (en : List Byte) : Nat := fieldAt en 0x7A 2

/-- The header is malformed for the views of a mask (R267, R269). -/
def ppbBad (hd : List Byte) (views : List Nat) : Bool :=
  fld (fieldAt hd 0 4) 10 22 != 0 || fieldAt hd 0x0C 0x34 != 0 || ppbTs hd == 3 || ppbNv hd == 0
    || decide (128 < ppbNv hd) || views.any fun v => decide (ppbNv hd ≤ v)

/-- WT or HT of a view entry is out of range (R267, R269). -/
def viewBad (side : Nat) (en : List Byte) : Bool :=
  let bad (n : Nat) : Bool := n == 0 || decide (4096 / side < n)
  bad (viewWt en) || bad (viewHt en)

/-- A job descriptor is malformed by itself (R268, R269). -/
def jobBad (j : List Byte) : Bool :=
  fieldAt j 0x58 8 / 8 != 0 || fieldAt j 0x60 0x20 != 0 || fieldAt j 0 8 % 4 != 0 || fieldAt j 8 8 % 64 != 0
    || fieldAt j 0x10 8 % 64 != 0 || fieldAt j 0x18 8 % 8 != 0 || fieldAt j 0x20 8 % 4 != 0

/-! ## The projection of an item into a view (R269) -/

/-- A splat as projection forms it. -/
structure Splat where
  view : Nat
  u : W32
  v : W32
  qa : W32
  qb : W32
  qc : W32
  z : W32
  rad : Nat
  tx0 : Nat
  tx1 : Nat
  ty0 : Nat
  ty1 : Nat
  wt : Nat
  deriving DecidableEq, Repr

/-- The square root, rounded once. -/
def fsqrt32 (x : W32) : W32 := rne32 (sqrtV (f32v x))

/-- A left-to-right sum of products over an inner index. -/
def dot3 (a b : Nat → W32) : W32 := fadd32 (fadd32 (fmul32 (a 0) (b 0)) (fmul32 (a 1) (b 1))) (fmul32 (a 2) (b 2))

/-- The sign of a pattern reversed. -/
def fneg32 (x : W32) : W32 := x ^^^ 0x80000000

/-- The largest integer not above (n over m), for a signed n. -/
def floorDiv (n : Int) (m : Nat) : Int := Int.fdiv n m

/-- The exact value of a finite pattern as a fraction. -/
def fracOf (x : W32) : Int × Nat :=
  match f32v x with
  | .fin s n d => (if s then -(n : Int) else n, d)
  | _ => (0, 1)

/-- The tiles of one axis that a centre and a radius touch: the first and the last (R269). -/
def tileSpan (c : W32) (rad side n : Nat) : Int × Int :=
  let x := fracOf c
  let lo := floorDiv (x.1 - rad * x.2) (x.2 * side)
  let hi := floorDiv (x.1 + rad * x.2) (x.2 * side)
  (max lo 0, min hi (n - 1))

/-- The bound that z must exceed: max(NEAR, +0) (R179, R269). -/
def nearBound (near : W32) : W32 := fmax32 near 0

/-- The covariance of an item as a symmetric matrix. -/
def covOf (it : List Byte) (i j : Nat) : W32 :=
  let o : Nat := match min i j, max i j with
    | 0, 0 => 0x0C
    | 0, 1 => 0x10
    | 0, _ => 0x14
    | 1, 1 => 0x18
    | 1, _ => 0x1C
    | _, _ => 0x20
  f32At it o

/-- The 2D covariance a, b, c of an item in a view, from its camera coordinates (R269). -/
def cov2 (point : Bool) (it en : List Byte) (dil x y iz : W32) : W32 × W32 × W32 :=
  let fx := f32At en 0x30
  let fy := f32At en 0x34
  if point then
    let rad := f32At it 0x0C
    let rp := fmul32 (fmul32 fx rad) iz
    let rq := fmul32 (fmul32 fy rad) iz
    (fadd32 (fmul32 rp rp) dil, 0, fadd32 (fmul32 rq rq) dil)
  else
    let jac (r c : Nat) : W32 := match r, c with
      | 0, 0 => fmul32 fx iz
      | 0, 2 => fneg32 (fmul32 (fmul32 (fmul32 fx x) iz) iz)
      | 1, 1 => fmul32 fy iz
      | 1, 2 => fneg32 (fmul32 (fmul32 (fmul32 fy y) iz) iz)
      | _, _ => 0
    let w (r c : Nat) : W32 := f32At en (16 * r + 4 * c)
    let m (r c : Nat) : W32 := dot3 (jac r) fun k => w k c
    let ms (r c : Nat) : W32 := dot3 (m r) fun k => covOf it k c
    let s2 (r c : Nat) : W32 := dot3 (ms r) fun k => m c k
    (fadd32 (s2 0 0) dil, s2 0 1, fadd32 (s2 1 1) dil)

/-- The integer radius of a splat; none when it is not finite (R269). -/
def splatRad (a b c : W32) : Option Nat :=
  let d := fsub32 a c
  let lam := fadd32 (fmul32 (fadd32 a c) 0x3F000000) (fsqrt32 (fadd32 (fmul32 (fmul32 d d) 0x3E800000) (fmul32 b b)))
  match f32v (fmul32 0x40400000 (fsqrt32 lam)) with
  | .fin s n d => some (if s then 0 else ceilNat n d)
  | _ => none
where
  /-- n over d rounded up. -/
  ceilNat (n d : Nat) : Nat := (n + d - 1) / d

/-- The splat of an item in a view, or none when the view is culled (R269). -/
def projectView (point : Bool) (it en : List Byte) (dil : W32) (side view : Nat) : Option Splat :=
  let p (i : Nat) : W32 := f32At it (4 * i)
  let w (r c : Nat) : W32 := f32At en (16 * r + 4 * c)
  let cam (r : Nat) : W32 := fadd32 (dot3 (w r) p) (w r 3)
  let x := cam 0
  let y := cam 1
  let z := cam 2
  let skip := !point && flag (fieldAt it 0x34 4) 0
  if skip || !((f32v (nearBound (f32At en 0x40))).lt (f32v z) && (f32v z).lt (f32v (f32At en 0x44))) then none
  else
    let iz := fdiv32 0x3F800000 z
    let u := fadd32 (fmul32 (fmul32 (f32At en 0x30) x) iz) (f32At en 0x38)
    let v := fadd32 (fmul32 (fmul32 (f32At en 0x34) y) iz) (f32At en 0x3C)
    let (a, b, c) := cov2 point it en dil x y iz
    let det := fsub32 (fmul32 a c) (fmul32 b b)
    if !((f32v 0).lt (f32v det)) then none
    else
      let qa := fdiv32 c det
      let qb := fneg32 (fdiv32 b det)
      let qc := fdiv32 a det
      match splatRad a b c with
      | none => none
      | some rad =>
        if !([u, v, qa, qb, qc]).all isFin32 then none
        else
          let tx := tileSpan u rad side (viewWt en)
          let ty := tileSpan v rad side (viewHt en)
          if tx.2 < tx.1 ∨ ty.2 < ty.1 then none
          else some { view := view, u := u, v := v, qa := qa, qb := qb, qc := qc, z := z, rad := rad,
                      tx0 := tx.1.toNat, tx1 := tx.2.toNat, ty0 := ty.1.toNat, ty1 := ty.2.toNat, wt := viewWt en }

/-- The keys of a splat, ordered by ty and then tx (R270, R271). -/
def Splat.keys (p : Splat) : List Nat :=
  (List.range (p.ty1 + 1 - p.ty0)).flatMap fun i => (List.range (p.tx1 + 1 - p.tx0)).map fun j =>
    p.view % 256 * 2 ^ 56 + ((p.ty0 + i) * p.wt + p.tx0 + j) % 2 ^ 24 * 2 ^ 32 + p.z.toNat

/-- The 64 bytes of a splat record (R270). -/
def Splat.bytes (p : Splat) (point : Bool) (it : List Byte) (g : W32) : List Byte :=
  let col := if point then 0x10 else 0x24
  bytes32 p.u ++ bytes32 p.v ++ bytes32 p.qa ++ bytes32 p.qb ++ bytes32 p.qc ++ bytes32 (f32At it col)
    ++ bytes32 (f32At it (col + 4)) ++ bytes32 (f32At it (col + 8)) ++ bytes32 (f32At it (col + 12)) ++ bytes32 p.z
    ++ bytes32 g ++ leBytes 4 (min p.rad 65535 * 65536 + p.view % 256)
    ++ leBytes 4 (p.tx1 % 65536 * 65536 + p.tx0 % 65536) ++ leBytes 4 (p.ty1 % 65536 * 65536 + p.ty0 % 65536)
    ++ leBytes 4 (if point then 1 else 0) ++ leBytes 4 0

/-! ## An item (R269, R271, R394) -/

/-- The entries of views. -/
def State.viewEntries (s : State) (o : UnitOp) (ppb : W64) : List Nat → UnitAct (List (Nat × List Byte) × State)
  | [] => .ok ([], s)
  | v :: vs => match s.unitLoad o (ppb + BitVec.ofNat 64 (64 + 128 * v)) 128 with
    | .error e => .error e
    | .ok (en, s) => match State.viewEntries s o ppb vs with
      | .error e => .error e
      | .ok (l, s) => .ok ((v, en) :: l, s)

/-- A view entry has a reserved field set, or WT or HT out of range where the view is selected (R267, R269). -/
def entryBad (side : Nat) (views : List Nat) (e : Nat × List Byte) : Bool :=
  fieldAt e.2 0x7C 4 != 0 || (views.contains e.1 && viewBad side e.2)

/-- The header of a parameter block and the entries of the selected views; none where the block is malformed for them
(R269). -/
def State.readBlock (s : State) (o : UnitOp) (ppb : W64) (views : List Nat) :
    UnitAct (Option (List Byte × List (Nat × List Byte)) × State) :=
  match s.unitLoad o ppb 64 with
  | .error e => .error e
  | .ok (hd, s) =>
    if ppbBad hd views then .ok (none, s)
    else match s.viewEntries o ppb (List.range (ppbNv hd)) with
      | .error e => .error e
      | .ok (l, s) =>
        .ok (if l.any (entryBad (ppbSide hd) views) then none else some (hd, l.filter fun e => views.contains e.1), s)

/-- What the stage reads once for an entry: an empty header stands for a malformed job (R269, R394). -/
def State.projectBlock (s : State) (o : UnitOp) (e : ProjEntry) : UnitAct (ProjBlock × State) :=
  match s.unitLoad o e.addr 128 with
  | .error e => .error e
  | .ok (j, s) =>
    if jobBad j then .ok ({ job := j, head := [], views := [] }, s)
    else match s.readBlock o (word64 (j.drop 8)) (viewsOf j 0x30) with
      | .error e => .error e
      | .ok (none, s) => .ok ({ job := j, head := [], views := [] }, s)
      | .ok (some x, s) => .ok ({ job := j, head := x.1, views := x.2 }, s)

/-- The last step of an item: `DONE` + 1 (R271). -/
def ProjEntry.doneStep (e : ProjEntry) : UnitStep := .add (e.addr + 0x50) 8 1 true

/-- Bits of CAPPED and ERR are set (R268). -/
def ProjEntry.markStep (e : ProjEntry) (n : Nat) : UnitStep := .set (e.addr + 0x58) 4 (BitVec.ofNat 64 n) true

/-- A malformed item, or one that is abandoned (R269, R486). -/
def ProjEntry.badItem (e : ProjEntry) : ProjItem :=
  { splats := [], first := some 0, work := some [e.markStep 4, e.doneStep], lost := false }

/-- An item is read and projected into every view (R269). -/
def State.projectItem (s : State) (o : UnitOp) (e : ProjEntry) (b : ProjBlock) (g : W32) : UnitAct (ProjItem × State) :=
  if b.head.isEmpty then .ok (e.badItem, s)
  else
    let n := if e.point then 32 else 64
    match s.unitLoad o (word64 b.job + BitVec.ofNat 64 (n * g.toNat)) n with
    | .error e => .error e
    | .ok (it, s) =>
      let ps := b.views.filterMap fun v => projectView e.point it v.2 (f32At b.head 4) (ppbSide b.head) v.1
      .ok ({ splats := ps.map fun p => (p.bytes e.point it g, p.keys), first := none, work := none, lost := false }, s)

/-- The splats of an item with their indices from `first` on. -/
def ProjItem.placed (x : ProjItem) (first : Nat) : List ((List Byte × List Nat) × Nat) := x.splats.zipIdx first

/-- The keys of an item with their values: those of its splats below SCAP (R271). -/
def ProjItem.keys (x : ProjItem) (scap first : Nat) : List (Nat × Nat) :=
  ((x.placed first).filter fun e => decide (e.2 < scap)).flatMap fun e => e.1.2.map fun k => (k, e.2)

/-- What remains of an item once its indices and its key slots are reserved: records, keys, overflow bits and `DONE`
(R271). -/
def ProjItem.steps (x : ProjItem) (e : ProjEntry) (j : List Byte) (first slot : Nat) : List UnitStep :=
  let scap := fieldAt j 0x28 4
  let kcap := fieldAt j 0x2C 4
  let recs := (x.placed first).filter fun y => decide (y.2 < scap)
  let keys := (x.keys scap first).zipIdx slot
  let spill := (if (x.placed first).any fun y => decide (scap ≤ y.2) then 1 else 0)
    + if keys.any fun y => decide (kcap ≤ y.2) then 2 else 0
  (recs.map fun y => .put (word64 (j.drop 0x10) + BitVec.ofNat 64 (64 * y.2)) y.1.1)
    ++ ((keys.filter fun y => decide (y.2 < kcap)).flatMap fun y =>
        [.put (word64 (j.drop 0x18) + BitVec.ofNat 64 (8 * y.2)) (leBytes 8 y.1.1),
         .put (word64 (j.drop 0x20) + BitVec.ofNat 64 (4 * y.2)) (leBytes 4 y.1.2)])
    ++ (if spill = 0 then [] else [e.markStep spill]) ++ [e.doneStep]

/-! ## Events -/

/-- The projection stage of a cluster, at an entry. -/
def projOp (cl : Nat) (e : ProjEntry) : UnitOp :=
  { who := e.who, cl := cl, src := { die := dieOf cl, from_ := 2, unit := cl % 16 }, reader := .proj cl }

/-- The projection stage as a poster. -/
def projPoster (cl : Nat) : Poster := { agent := 2, sub := 0, key := cl, sel := 0 }

def execProjectionEntryStart (cl : Nat) (s : State) : Out :=
  let u := s.cluster cl
  match u.proj, u.projQ with
  | none, e :: rest => .next (if s.hasRender cl then s.setCluster cl { u with proj := some e, projQ := rest } else s)
  | _, _ => .next s

/-- The entry in work replaced. -/
def State.setProj (s : State) (cl : Nat) (e : ProjEntry) : State :=
  s.setCluster cl { s.cluster cl with proj := some e }

/-- The first item of the entry in work is finished. -/
def State.dropItem (s : State) (cl : Nat) (e : ProjEntry) : State :=
  s.setCluster cl { s.cluster cl with
    proj := if e.items.length ≤ 1 then none else some { e with items := e.items.drop 1, item := none } }

/-- The item in work is abandoned: ERR is to be set and `DONE` to rise, and the report is made. A step of that end which
fails itself is left out (R486). -/
def State.abandonItem (s : State) (cl : Nat) (e : ProjEntry) (c : Code) : State :=
  let o := projOp cl e
  let s := s.dropPeer o.reader
  match e.item with
  | some x =>
    if x.lost then s.setProj cl { e with item := some { x with work := x.work.map (·.drop 1) } }
    else (s.setProj cl { e with item := some { e.badItem with lost := true } }).unitReport o c
  | none => (s.setProj cl { e with item := some { e.badItem with lost := true } }).unitReport o c

/-- An attempt at a step of the item in work, and what follows one that is made. -/
def State.projEnd {α : Type} (s : State) (cl : Nat) (e : ProjEntry) (f : α → State) : UnitEnd α → State
  | .done x => f x
  | .waits s => s
  | .demand va => s.pause (projPoster cl) (projOp cl e) va 0
  | .fails c => s.abandonItem cl e c

/-- The item in work goes one step on (R269, R271). -/
def State.projectMore (s : State) (cl : Nat) (e : ProjEntry) (g : W32) : State :=
  let o := projOp cl e
  match e.block, e.item with
  | none, none => s.projEnd cl e (fun x => x.2.setProj cl { e with block := some x.1 }) (s.tryAct o (s.projectBlock o e))
  | some b, none =>
    s.projEnd cl e (fun x => x.2.setProj cl { e with item := some x.1 }) (s.tryAct o (s.projectItem o e b g))
  | b, some x => match x.first, x.work with
    | none, _ => s.projEnd cl e (fun y => y.2.setProj cl { e with item := some { x with first := some y.1.toNat } })
        (s.tryAct o (s.unitReserve o (e.addr + 0x40) 8 (BitVec.ofNat 64 x.splats.length)))
    | some i, none =>
      let j := (b.map (·.job)).getD []
      let n := (x.keys (fieldAt j 0x28 4) i).length
      s.projEnd cl e (fun y => y.2.setProj cl { e with item := some { x with work := some (x.steps e j i y.1.toNat) } })
        (s.tryAct o (s.unitReserve o (e.addr + 0x48) 8 (BitVec.ofNat 64 n)))
    | some _, some [] => s.dropItem cl e
    | some _, some (st :: l) =>
      s.projEnd cl e (fun s => s.setProj cl { e with item := some { x with work := some l } }) (s.tryStep o st)

def execProjectionItemDone (cl : Nat) (s : State) : Out :=
  match (s.cluster cl).proj with
  | none => .next s
  | some e => match e.items with
    | [] => .next (s.dropItem cl e)
    | g :: _ => .next (if s.isPaused (projPoster cl) then s else s.projectMore cl e g)

end Sys2Proof.Machine
end

