-- ==== Sys2Proof/Machine/Traverse.lean ====
section
/-! DEFINITION. The traversal unit: its stack, the nodes that it visits, and the end of a ray (R282, R283, R403 to R408,
R401, R486). -/

namespace Sys2Proof.Machine

/-! ## References (R403, R408) -/

def refKind (r : W64) : Nat := fld r.toNat 60 4
def refCount (r : W64) : Nat := fld r.toNat 56 4 + 1
def refAddr (r : W64) : W64 := BitVec.ofNat 64 (fld r.toNat 0 52)

/-- A reference that is followed: of kind 0 to 3, with no reserved bit and an aligned address. -/
def refOk (r : W64) : Bool := decide (refKind r ≤ 3) && fld r.toNat 52 4 == 0 && fld r.toNat 0 52 % 64 == 0

/-- An instance frame on the stack. -/
def frameRef : W64 := 0xE000000000000000

/-! ## The ray in progress (R283) -/

/-- What a traversal works with: the unit, the address of the spill slot, the ray's record and its world geometry. -/
structure TravCtx where
  op : UnitOp
  spill : W64
  rec_ : List Byte
  world : RayGeo
  tfar : Option Root

/-- The least t so far: the best hit's, or TFAR (R406). -/
def TravCtx.bound (c : TravCtx) (x : Trav) : Option Root :=
  match x.best with
  | some h => some h.t
  | none => c.tfar

/-- An entry is pushed: at 33 the oldest 16 on the chip are spilled, and past 256 the ray ends (R283). -/
def travPush (c : TravCtx) (x : Trav × State) (r : W64) : UnitAct (Trav × State) :=
  if x.1.spent then .ok x
  else if 256 ≤ x.1.chip.length + x.1.spilled then .ok ({ x.1 with spent := true }, x.2)
  else if x.1.chip.length < 32 then .ok ({ x.1 with chip := r :: x.1.chip }, x.2)
  else
    let old := (x.1.chip.drop 16).reverse
    match x.2.unitStore c.op (c.spill + BitVec.ofNat 64 (8 * x.1.spilled)) (old.flatMap bytes64) with
    | .error e => .error e
    | .ok s => .ok ({ x.1 with chip := r :: x.1.chip.take 16, spilled := x.1.spilled + old.length }, s)

/-- Entries are pushed one after the other. -/
def travPushAll (c : TravCtx) : List W64 → Trav × State → UnitAct (Trav × State)
  | [], x => .ok x
  | r :: rs, x => match travPush c x r with
    | .error e => .error e
    | .ok x => travPushAll c rs x

/-- The newest 16 spilled entries return when the chip's have run out (R283). -/
def travRefill (c : TravCtx) (x : Trav × State) : UnitAct (Trav × State) :=
  let n := min 16 x.1.spilled
  match x.2.unitLoad c.op (c.spill + BitVec.ofNat 64 (8 * (x.1.spilled - n))) (8 * n) with
  | .error e => .error e
  | .ok (bs, s) => .ok ({ x.1 with chip := ((List.range n).map fun i => word64 (bs.drop (8 * i))).reverse,
                                   spilled := x.1.spilled - n }, s)

/-- The object ray under an instance record: each component an exact sum rounded once (R407). -/
def objectRay (c : TravCtx) (w2o : List Byte) : Option RayGeo :=
  let m (r k : Nat) : Ex := f32v (f32At w2o (16 * r + 4 * k))
  let w (o k : Nat) : Ex := f32v (f32At c.rec_ (o + 4 * k))
  let sum (r o : Nat) : Ex := (((m r 0).mul (w o 0)).add false ((m r 1).mul (w o 1))).add false ((m r 2).mul (w o 2))
  let pos (r : Nat) : W32 := rne32 ((sum r 0).add false (m r 3))
  let dir (r : Nat) : W32 := rne32 (sum r 0x10)
  match frac32 (pos 0), frac32 (pos 1), frac32 (pos 2), frac32 (dir 0), frac32 (dir 1), frac32 (dir 2) with
  | some a, some b, some d, some e, some f, some g => some { o := #v[a, b, d], d := #v[e, f, g], tnear := c.world.tnear }
  | _, _, _, _, _, _ => none

/-- The ray that the tests see, with INST: the world ray, or the object ray under the frame (R407). -/
def TravCtx.ray (c : TravCtx) (x : Trav) : Option RayGeo × W32 :=
  match x.frame with
  | none => (some c.world, BitVec.allOnes 32)
  | some r => (objectRay c r, f32At r 0x38)

/-- A hit takes the place of the best when its t is smaller, or equal with a lower INST, PRIM (R282, R406). -/
def Trav.hit (x : Trav) (h : Hit) : Trav :=
  match x.best with
  | none => { x with best := some h }
  | some b =>
    let c := rootCmp h.t b.t
    let lower := decide (h.inst.toNat * 2 ^ 32 + h.prim.toNat < b.inst.toNat * 2 ^ 32 + b.prim.toNat)
    if c < 0 ∨ (c = 0 ∧ lower) then { x with best := some h } else x

/-- An entered child goes before those with a larger entry value; of equal ones the lower child stays first. -/
def insertChild (e : Ex) (r : W64) : List (Ex × W64) → List (Ex × W64)
  | [] => [(e, r)]
  | y :: t => if e.lt y.1 then (e, r) :: y :: t else y :: insertChild e r t

/-- A box node: the entered children are pushed to pop in ascending entry value (R404, R406). -/
def visitBox (c : TravCtx) (x : Trav × State) (node : List Byte) : UnitAct (Trav × State) :=
  match c.ray x.1 with
  | (none, _) => .ok ({ x.1 with odd := true }, x.2)
  | (some g, _) =>
    let refs := (List.range 4).filterMap fun k =>
      let r := word64 (node.drop (0x60 + 8 * k))
      if refOk r then some (k, r) else none
    let bx (k : Nat) : List Byte := (node.drop (24 * k)).take 24
    let odd := refs.any fun e => (List.range 6).any fun i => isNan32 (f32At (bx e.1) (4 * i))
    let l := refs.foldl (fun l e => match hitBox g (c.bound x.1) (bx e.1) with
      | some t => insertChild t e.2 l
      | none => l) []
    travPushAll c (l.reverse.map (·.2)) ({ x.1 with odd := x.1.odd || odd }, x.2)

/-- One triangle of a leaf (R405, R406). -/
def visitTriangle (c : TravCtx) (x : Trav) (t : List Byte) : Trav :=
  let r := c.ray x
  match r.1, vec3At t 0, vec3At t 0x0C, vec3At t 0x18 with
  | some g, some v0, some v1, some v2 => match hitTriangle g (c.bound x) v0 v1 v2 with
    | some (h, u, v) => x.hit { t := h, inst := r.2, prim := f32At t 0x24, u := u, v := v }
    | none => x
  | _, _, _, _ => { x with odd := true }

/-- One sphere of a leaf (R405, R406). -/
def visitSphere (c : TravCtx) (x : Trav) (t : List Byte) : Trav :=
  let r := c.ray x
  match r.1, vec3At t 0, frac32 (f32At t 0x0C) with
  | some g, some v, some rad =>
    if sphereOpen g v rad then { x with odd := true }
    else match hitSphere g (c.bound x) v rad with
    | some h => x.hit { t := h, inst := r.2, prim := f32At t 0x10, u := fracInt 0, v := fracInt 0 }
    | none => x
  | _, _, _ => { x with odd := true }

/-- The records of a leaf. -/
def leafRecs (bs : List Byte) (size n : Nat) : List (List Byte) := (List.range n).map fun i => (bs.drop (size * i)).take size

/-- The records of a leaf, for which `test` is made; a leaf with a reserved field set is skipped (R405, R408). -/
def visitLeaf (c : TravCtx) (x : Trav × State) (r : W64) (size rsvd : Nat) (test : Trav → List Byte → Trav) :
    UnitAct (Trav × State) :=
  match x.2.unitLoad c.op (refAddr r) (size * refCount r) with
  | .error e => .error e
  | .ok (bs, s) =>
    let l := leafRecs bs size (refCount r)
    .ok (if l.any fun t => fieldAt t rsvd (size - rsvd) != 0 then x.1 else l.foldl test x.1, s)

/-- An instance: its frame and its root are pushed (R407). -/
def visitInstance (c : TravCtx) (x : Trav × State) (r : W64) : UnitAct (Trav × State) :=
  match x.2.unitLoad c.op (refAddr r) 64 with
  | .error e => .error e
  | .ok (bs, s) =>
    let root := word64 (bs.drop 0x30)
    if fieldAt bs 0x3C 4 ≠ 0 then .ok (x.1, s)
    else travPushAll c ([frameRef] ++ if refOk root then [root] else []) ({ x.1 with frame := some bs }, s)

/-- An instance frame that is popped ends its instance; one with a reserved bit or an address is skipped (R407, R408). -/
def frameOk (r : W64) : Bool := fld r.toNat 52 4 == 0 && fld r.toNat 0 52 % 64 == 0

/-- A reference that has been popped is followed (R403 to R408). -/
def travVisit (c : TravCtx) (x : Trav × State) (r : W64) : UnitAct (Trav × State) :=
  if refKind r = 14 then .ok (if frameOk r then { x.1 with frame := none } else x.1, x.2)
  else if !refOk r then .ok x
  else match refKind r with
    | 0 => match x.2.unitLoad c.op (refAddr r) 128 with
      | .error e => .error e
      | .ok (bs, s) => visitBox c (x.1, s) bs
    | 1 => visitLeaf c x r 48 0x28 (visitTriangle c)
    | 2 => visitLeaf c x r 32 0x14 (visitSphere c)
    | _ => if x.1.frame.isSome then .ok x else visitInstance c x r

/-- The next visit of a traversal, or its refill (R283). -/
def travStep (c : TravCtx) (x : Trav) (s : State) : UnitAct (Trav × State) :=
  match x.chip with
  | [] => travRefill c (x, s)
  | r :: rest => travVisit c ({ x with chip := rest }, s) r

/-- No entry is left, or the stack has overflowed. -/
def Trav.over (x : Trav) : Bool := x.spent || (x.chip.isEmpty && x.spilled == 0)

/-! ## The result of a ray (R282) -/

/-- What the record takes: STATUS, HITT, PRIM, INST, BU and BV. -/
structure RayResult where
  status : Nat
  hitt : W32
  prim : W32
  inst : W32
  bu : W32
  bv : W32
  deriving DecidableEq, Repr

/-- A miss of a status (R277, R282, R283, R486). -/
def rayMiss (status : Nat) : RayResult :=
  { status := status, hitt := 0x7F800000, prim := BitVec.allOnes 32, inst := BitVec.allOnes 32, bu := 0, bv := 0 }

/-- The result of a hit: HITT, BU and BV rounded once (R406). -/
def rayHit (h : Hit) : RayResult :=
  { status := 1, hitt := roundRoot h.t, prim := h.prim, inst := h.inst, bu := rne32 (fracEx h.u), bv := rne32 (fracEx h.v) }

/-- A result for which the spec states none: a hit or a miss with free values (log 20). -/
def State.oddRay (s : State) : RayResult × State :=
  let f (i : Nat) : W32 := BitVec.ofNat 32 (Config.freeBits (s.choice + i))
  ({ status := 1 + (f 0).toNat % 2, hitt := f 1, prim := f 2, inst := f 3, bu := f 4, bv := f 5 },
   { s with choice := s.choice + 6 })

/-- The result of a finished traversal. -/
def State.rayResult (s : State) (x : Trav) : RayResult × State :=
  if x.spent then (rayMiss 3, s)
  else if x.odd then s.oddRay
  else match x.best with
    | some h => (rayHit h, s)
    | none => (rayMiss 2, s)

/-- The geometry of a ray record; none when its origin or its direction is not finite, or TNEAR or TFAR is a NaN. -/
def rayGeo (r : List Byte) : Option (RayGeo × Ex) :=
  match vec3At r 0, vec3At r 0x10, f32v (f32At r 0x0C), f32v (f32At r 0x1C) with
  | _, _, .nan, _ => none
  | _, _, _, .nan => none
  | some o, some d, near, far => some ({ o := o, d := d, tnear := near }, far)
  | _, _, _, _ => none

/-- A traversal at its start, before the record has been read. -/
def Trav.first (pool : List Byte) : Trav :=
  { pool := pool, rec_ := [], chip := [], spilled := 0, frame := none, best := none, odd := false, spent := false }

/-- A traversal with its record: it starts at ASROOT, and a ray that can hit nothing or that has no geometry starts with an
empty stack (R282; log 20). -/
def Trav.begin (x : Trav) (r : List Byte) : Trav :=
  let root := (poolOf x.pool).root
  match rayGeo r with
  | none => { x with rec_ := r, odd := true }
  | some (_, .inf true) => { x with rec_ := r }
  | some _ => { x with rec_ := r, chip := if refOk root then [root] else [] }

/-- The context of ray i's traversal; none for a record without geometry. -/
def travCtx (o : UnitOp) (x : Trav) (i : W32) : Option TravCtx :=
  match rayGeo x.rec_ with
  | none => none
  | some (g, far) =>
    let tfar : Option Root := match far with
      | .fin sg n d => some (rootOf (if sg then -(n : Int) else n, d))
      | _ => none
    some { op := o, spill := (poolOf x.pool).spill i, rec_ := x.rec_, world := g, tfar := tfar }

/-! ## The rays of a unit -/

/-- The traversal unit of a cluster, at ray `id` or at the head of its input. -/
def travOp (cl : Nat) (w : Starter) (r : Reader) : UnitOp :=
  { who := w, cl := cl, src := { die := dieOf cl, from_ := 2, unit := cl % 16 }, reader := r }

/-- The traversal unit as a poster: at the head of its input, or at a ray. -/
def travPoster (cl : Nat) (id : Option Nat) : Poster :=
  { agent := 2, sub := 0, key := cl, sel := match id with
      | none => 1
      | some n => n + 2 }

/-- The traversal unit waits for an acknowledgement (R305). -/
def State.travPaused (s : State) (cl : Nat) : Bool :=
  s.paused.any fun x => x.agent == 2 && x.sub == 0 && x.key == cl && x.sel != 0

/-- The generator of a die waits for an acknowledgement (R393). -/
def State.genPaused (s : State) (d : Nat) : Bool := s.paused.any fun x => x.agent == 2 && x.sub == 1 && x.key == d

/-- The generator as a poster: at its ring, at a job, or at the end of a ray. -/
def genPoster (d sel : Nat) : Poster := { agent := 2, sub := 1, key := d, sel := sel }

/-- The last steps of a ray: its results, and then done (R282). -/
def resultSteps (at_ : W64) (x : RayResult) : List UnitStep :=
  [.put (at_ + 0x28) (bytes32 x.hitt ++ bytes32 x.prim ++ bytes32 x.inst ++ bytes32 x.bu ++ bytes32 x.bv),
   .done (at_ + 0x24) x.status]

/-- The job of a die's generator with an id. -/
def Die.job? (d : Die) (id : Nat) : Option GenJob := d.jobList.find? fun j => j.id == id

/-- The execution partition of a die, by its lowest die (R299, R449). -/
def State.partOfDie (s : State) (d : Nat) : Nat :=
  match s.ident.pmode with
  | 0 => 0
  | 1 => d / 2 * 2
  | 2 => d
  | _ => if d < 2 then 0 else d

/-- The generator of a die as a unit. -/
def State.genOp (s : State) (d : Nat) (r : Reader) : UnitOp :=
  { who := { asid := (s.die d).gasid, part := s.partOfDie d, grid := 4096, gid := BitVec.allOnes 32, index := 0, tag := 0 },
    cl := 16 * d, src := { die := d, from_ := 4, unit := 0 }, reader := r }

/-- Job id of a die changed. -/
def State.setJob (s : State) (d id : Nat) (f : GenJob → GenJob) : State :=
  let u := s.die d
  s.setDie d { u with jobList := u.jobList.map fun x => if x.id = id then f x else x }

/-- The job is abandoned: no ray of it follows, and its end comes when those in flight have finished (R486). -/
def State.abandonJob (s : State) (d id : Nat) (c : Code) : State :=
  (s.setJob d id fun x => { x with closed := true }).unitReport (s.genOp d (.gen d 0)) c

/-- The generator frees its ray, where it keeps none (R401). -/
def freeSteps (j : List Byte) (y : Ray) : List UnitStep :=
  if flag (fieldAt j 0x18 4) 4 then [] else [.free y.pool y.index]

/-- The record of a ray at its traversal end: what the traversal began with, or the bytes in memory where none began. -/
def State.endRecord (s : State) (o : UnitOp) (y : Ray) (p : Pool) : UnitAct (List Byte × State) :=
  match y.trav with
  | some x => if x.rec_.isEmpty then s.unitLoad o (p.recAt y.index) 64 else .ok (x.rec_, s)
  | none => s.unitLoad o (p.recAt y.index) 64

/-- The steps of the generator at the end of one of its rays, at the pixel that the ray had in flight: the depth map, and the
ray map or the free list (R401). -/
def State.mapSteps (s : State) (o : UnitOp) (j : List Byte) (y : Ray) (p : Pool) : UnitAct (List UnitStep × State) :=
  match s.endRecord o y p with
  | .error e => .error e
  | .ok (r, s) =>
    let v := fieldAt r 0x24 1
    match s.unitLoad o p.ppb 64 with
    | .error e => .error e
    | .ok (hd, s) => match s.unitLoad o (p.ppb + BitVec.ofNat 64 (64 + 128 * v)) 128 with
      | .error e => .error e
      | .ok (en, s) =>
        let off := v * fieldAt j 0x1C 4 + 4 * (fieldAt r 0x22 2 * (viewWt en * ppbSide hd) + fieldAt r 0x20 2)
        .ok (.put (word64 (j.drop 8) + BitVec.ofNat 64 off) (bytes32 y.depth) ::
              ((if flag (fieldAt j 0x18 4) 4 then [.put (word64 (j.drop 0x10) + BitVec.ofNat 64 off) (bytes32 y.index)]
                else []) ++ freeSteps j y), s)

/-- Ray `id` of a unit changed. -/
def State.setRay (s : State) (cl id : Nat) (f : Ray → Ray) : State :=
  let u := s.cluster cl
  s.setCluster cl { u with rays := u.rays.map fun y => if y.id = id then f y else y }

/-- A ray leaves its unit; its generator counts it as finished. -/
def State.leaveRay (s : State) (cl : Nat) (y : Ray) : State :=
  let u := s.cluster cl
  let s := s.setCluster cl { u with rays := u.rays.filter fun x => x.id != y.id }
  match y.gen with
  | none => s
  | some id => s.setJob (dieOf cl) id fun x => { x with finished := x.finished + 1 }

/-- A ray abandoned for a failure: the miss values with STATUS 0, done, without its payload; a ray whose record cannot be
written stays in flight (R486). At the generator's own accesses its job is abandoned, and the ray goes on at its next step:
an emitted ray finishes (R401). -/
def State.abandonRay (s : State) (cl : Nat) (y : Ray) (c : Code) : State :=
  let o := travOp cl y.who (.trav cl y.id)
  let s := s.dropPeer o.reader
  match y.mapped, y.gen with
  | true, some id =>
    let rest := match y.work, (s.die (dieOf cl)).job? id with
      | some (_ :: l), _ => l
      | _, some j => freeSteps j.desc y
      | _, none => []
    (s.setRay cl y.id fun y => { y with mapped := true, work := some rest }).abandonJob (dieOf cl) id c
  | _, _ =>
    let last := y.work.any fun l => decide (l.length ≤ 2)
    let s := if y.lost then s else s.unitReport o c
    match y.trav with
    | none => s.leaveRay cl y
    | some x =>
      if y.lost || last then s.leaveRay cl y
      else s.setRay cl y.id fun y =>
        { y with lost := true, depth := 0x7F800000, work := some (resultSteps ((poolOf x.pool).recAt y.index) (rayMiss 0)) }

/-- A write of a ray's end has been lost in another package: one of the generator's, of the record, which stays in flight, or
of the payload, and the ray ends without it (R486). -/
def State.lostPut (s : State) (cl : Nat) (y : Ray) (home line : Nat) (c : Code) : State :=
  let o := travOp cl y.who (.trav cl y.id)
  match y.mapped, y.gen, y.trav with
  | true, some id, _ => s.abandonJob (dieOf cl) id c
  | _, _, none => s.unitReport o c
  | _, _, some x =>
    let at_ := (poolOf x.pool).recAt y.index
    let onRecord := match s.xlate o.agent at_ true with
      | .ok z => z.home == home && lineOf z.pa == line
      | .error _ => true
    let s := s.unitReport o c
    if onRecord then s.leaveRay cl y
    else s.setRay cl y.id fun y => { y with lost := true, depth := 0x7F800000, work := some (resultSteps at_ (rayMiss 0)) }

/-- An attempt at a step of a ray, and what follows one that is made. The generator pauses for its own accesses (R393). -/
def State.rayEnd {α : Type} (s : State) (cl : Nat) (y : Ray) (f : α → State) : UnitEnd α → State
  | .done x => f x
  | .waits s => s
  | .demand va =>
    if y.mapped then s.pause (genPoster (dieOf cl) (2 * (cl * 2 ^ 32 + y.id) + 2)) (s.genOp (dieOf cl) (.trav cl y.id)) va 0
    else s.pause (travPoster cl (some y.id)) (travOp cl y.who (.trav cl y.id)) va 0
  | .fails c => s.abandonRay cl y c

/-- The steps of a ray that has ended: the payload that it carries, its results and the end of its flight (R282). -/
def State.endRay (s : State) (cl : Nat) (y : Ray) (x : Trav) : State :=
  let p := poolOf x.pool
  let (r, s) := s.rayResult x
  s.setRay cl y.id fun y => { y with
    depth := if r.status = 1 then r.hitt else 0x7F800000,
    work := some ((if y.payload.isEmpty then [] else [.put (p.payload y.index) y.payload])
      ++ resultSteps (p.recAt y.index) r) }

/-- The traversal of a ray goes one step on: the pool and the record are read, and then an entry of the stack is visited
(R282, R283). -/
def State.traverseMore (s : State) (cl : Nat) (y : Ray) : State :=
  let o := travOp cl y.who (.trav cl y.id)
  match y.trav with
  | none => s.rayEnd cl y (fun x => x.2.setRay cl y.id fun y => { y with
      trav := some (Trav.first x.1),
      work := if y.lost then some (resultSteps ((poolOf x.1).recAt y.index) (rayMiss 0)) else none })
      (s.tryAct o (s.unitLoad o y.pool 64))
  | some x =>
    if x.rec_.isEmpty then
      s.rayEnd cl y (fun z => z.2.setRay cl y.id fun y => { y with trav := some (x.begin z.1) })
        (s.tryAct o (s.unitLoad o ((poolOf x.pool).recAt y.index) 64))
    else if x.over then s.endRay cl y x
    else match travCtx o x y.index with
      | none => s.endRay cl y { x with odd := true }
      | some c => s.rayEnd cl y (fun z => z.2.setRay cl y.id fun y => { y with trav := some z.1 })
          (s.tryAct o (travStep c x s))

/-- A ray whose record is done: its generator's maps, and then it leaves (R401). -/
def State.mapRay (s : State) (cl : Nat) (y : Ray) : State :=
  let d := dieOf cl
  match y.gen, y.trav with
  | some id, some x => match (s.die d).job? id with
    | none => s.leaveRay cl y
    | some j =>
      if y.mapped then (if s.peerWaits (.trav cl y.id) then s else s.leaveRay cl y)
      else if s.genPaused d then s
      else
        let o := s.genOp d (.trav cl y.id)
        let z := { y with mapped := true }
        s.rayEnd cl z (fun r => r.2.setRay cl y.id fun y => { y with mapped := true, work := some r.1 })
          (s.tryAct o (s.mapSteps o j.desc y (poolOf x.pool)))
  | _, _ => s.leaveRay cl y

/-- A ray in flight goes one step on. -/
def State.rayMore (s : State) (cl : Nat) (y : Ray) : State :=
  match y.work with
  | none => s.traverseMore cl y
  | some [] => s.mapRay cl y
  | some (x :: l) =>
    if y.mapped && s.genPaused (dieOf cl) then s
    else
      let o := if y.mapped then s.genOp (dieOf cl) (.trav cl y.id) else travOp cl y.who (.trav cl y.id)
      s.rayEnd cl y (fun s => s.setRay cl y.id fun y => { y with work := some l }) (s.tryStep o x)

/-! ## Events -/

/-- The rays of an entry, with the payload bytes that they carry: those that it had when it went in flight, or those of its
slot (R282). -/
def State.takeRays (s : State) (o : UnitOp) (e : TravEntry) (p : Pool) :
    List (W32 × Option (List Byte)) → UnitAct (List Ray × State)
  | [] => .ok ([], s)
  | (i, bs) :: t =>
    let r : UnitAct (List Byte × State) := match bs with
      | some bs => .ok (bs, s)
      | none => s.unitLoad o (p.payload i) e.pb
    match r with
    | .error e => .error e
    | .ok (bs, s) =>
      let (id, s) := s.fresh
      match State.takeRays s o e p t with
      | .error e => .error e
      | .ok (l, s) => .ok ({ id := id, who := e.who, index := i, pool := e.pool, gen := e.gen, payload := bs, trav := none,
                             work := none, lost := false, depth := 0, mapped := false } :: l, s)

/-- The rays of an entry with what is known of their payloads. -/
def TravEntry.known (e : TravEntry) : List (W32 × Option (List Byte)) :=
  (e.rays.zipIdx 0).map fun x => (x.1, if e.pb = 0 then some [] else (e.pays.getD x.2 none))

/-- The rays of an entry, read. -/
def State.takeEntry (s : State) (o : UnitOp) (e : TravEntry) : UnitAct (List Ray × State) :=
  if e.known.all fun x => x.2.isSome then s.takeRays o e (poolOf []) e.known
  else match s.unitLoad o e.pool 64 with
    | .error e => .error e
    | .ok (bs, s) => s.takeRays o e (poolOf bs) e.known

/-- Rays join those of a unit, whose first entry is taken. -/
def State.addRays (s : State) (cl : Nat) (l : List Ray) : State :=
  let u := s.cluster cl
  s.setCluster cl { u with travQ := u.travQ.drop 1, rays := u.rays ++ l }

/-- The rays of an entry whose payload cannot be read: each is abandoned (R486). -/
def State.abandonEntry (s : State) (cl : Nat) (e : TravEntry) (c : Code) : State :=
  let o := travOp cl e.who (.travIn cl)
  let s := s.dropPeer o.reader
  match s.takeRays o e (poolOf []) (e.rays.map fun i => (i, some [])) with
  | .error _ => s
  | .ok (l, s) =>
    (l.foldl (fun s _ => s.unitReport o c) s).addRays cl (l.map fun y => { y with lost := true, depth := 0x7F800000 })

def execTraversalStart (cl : Nat) (s : State) : Out :=
  match (s.cluster cl).travQ with
  | [] => .next s
  | e :: _ =>
    let o := travOp cl e.who (.travIn cl)
    if !s.hasRender cl || s.travPaused cl then .next s
    else match s.tryAct o (s.takeEntry o e) with
      | .done (l, s) => .next (s.addRays cl l)
      | .waits s => .next s
      | .demand va => .next (s.pause (travPoster cl none) o va 0)
      | .fails c => .next (s.abandonEntry cl e c)

def execTraversalEnd (cl i : Nat) (s : State) : Out :=
  match (s.cluster cl).rays[i]? with
  | none => .next s
  | some y => .next (if s.travPaused cl then s else s.rayMore cl y)

end Sys2Proof.Machine
end

