-- ==== Sys2Proof/Machine/Gen.lean ====
section
/-! DEFINITION. The camera-ray generator of a die: its ring, its jobs and the rays that it emits (R397 to R402). -/

namespace Sys2Proof.Machine

/-! ## The ring (R398) -/

/-- The slot at the head of the ring at `ring`, when the header is good and the slot is published, with the steps of its
consumption. -/
def State.readSlot (s : State) (o : UnitOp) (ring : W64) : UnitAct (Option GenSlot × State) :=
  match s.unitLoad o ring 64 with
  | .error e => .error e
  | .ok (hd, s) =>
    let n := fld (fieldAt hd 8 8) 0 5
    if fld (fieldAt hd 8 8) 5 59 != 0 || fieldAt hd 0x10 0x30 != 0 || decide (16 < n) then .ok (none, s)
    else
      let slot := fieldAt hd 0 4 % 2 ^ n
      let va := ring + BitVec.ofNat 64 (64 + 64 * slot)
      match s.unitLoad o va 64 with
      | .error e => .error e
      | .ok (job, s) =>
        .ok (if flag (fieldAt job 0x18 4) 31 then
            some { slot := slot, job := job, bad := false,
                   work := [.put (va + 0x18) (List.replicate 8 0), .put ring (bytes32 (word32 hd + 1))] }
          else none, s)

/-! ## Jobs (R399) -/

/-- A job is malformed by itself. -/
def genJobBad (j : List Byte) : Bool :=
  fld (fieldAt j 0x18 4) 5 26 != 0 || fld (fieldAt j 0x18 4) 2 2 != 0 || fieldAt j 0 8 % 64 != 0 || fieldAt j 8 8 % 4 != 0
    || fieldAt j 0x10 8 % 4 != 0 || fieldAt j 0x1C 4 % 4 != 0 || fieldAt j 0x30 8 % 8 != 0
    || decide (fieldAt j 0x3C 4 < fieldAt j 0x38 4)

/-- The header of a job's parameter block and the entries of its views; none when the job is malformed (R399). -/
def State.genViews (s : State) (o : UnitOp) (j : List Byte) :
    UnitAct (Option (List Byte × List (Nat × List Byte)) × State) :=
  if genJobBad j then .ok (none, s)
  else match s.unitLoad o (word64 j) 64 with
    | .error e => .error e
    | .ok (bs, s) =>
      if !(poolOf bs).ok || (poolOf bs).ppb.toNat % 64 != 0 then .ok (none, s)
      else s.readBlock o (poolOf bs).ppb (viewsOf j 0x20)

/-- The ring's operations as a unit's. -/
def State.ringOp (s : State) (d : Nat) : UnitOp := s.genOp d (.gen d 0)

/-- The slot that the generator has taken. -/
def State.setSlot (s : State) (d : Nat) (g : Option GenSlot) : State := s.setDie d { s.die d with genSlot := g }

/-- The generator no longer serves its ring: a failure of the ring has no job to end (log 33). -/
def State.stopGen (s : State) (d : Nat) (c : Code) : State :=
  (s.setDie d { s.die d with gen := false, genSlot := none }).unitReport (s.ringOp d) c

/-- The report of a malformed job: ENGINE with the ring slot (R399, R459). -/
def State.badJob (s : State) (o : UnitOp) (slot : Nat) : State :=
  s.engineFault { o.who with index := slot } .engine o.src

/-- `DONE` of a job rises (R399, R401). -/
def jobDone (j : List Byte) : UnitStep := .add (word64 (j.drop 0x30)) 8 1 false

/-- A slot whose job does not run: only `DONE` remains. -/
def GenSlot.refused (g : GenSlot) : GenSlot := { g with work := [jobDone g.job], bad := true }

/-- A job joins those in progress. -/
def State.addJob (s : State) (d : Nat) (job : List Byte) (head : List Byte) (views : List (Nat × List Byte)) : State :=
  let u := s.die d
  s.setDie d { u with jobNo := u.jobNo + 1, genSlot := none,
                      jobList := u.jobList ++ [{ id := u.jobNo, desc := job, emitted := 0, finished := 0, closed := false,
                                                 ready := [], taken := none, head := head, views := views, work := none }] }

/-- A failure of the ring's operations: of a taken slot's job, its end; otherwise the ring is served no longer (R486). -/
def State.abandonRing (s : State) (d : Nat) (c : Code) : State :=
  let s := s.dropPeer (.gen d 0)
  match (s.die d).genSlot with
  | some g =>
    if g.bad then s.setSlot d none
    else if g.work.isEmpty then (s.setSlot d (some g.refused)).unitReport (s.ringOp d) c
    else s.stopGen d c
  | none => s.stopGen d c

/-- An attempt at a step of the ring's operations, and what follows one that is made. -/
def State.ringEnd {α : Type} (s : State) (d : Nat) (f : α → State) : UnitEnd α → State
  | .done x => f x
  | .waits s => s
  | .demand va => s.pause (genPoster d 0) (s.ringOp d) va 0
  | .fails c => s.abandonRing d c

/-- The ring's next step: a published slot is taken, it is consumed, and its job joins the others or is turned away. -/
def State.ringMore (s : State) (d : Nat) : State :=
  let o := s.ringOp d
  match (s.die d).genSlot with
  | none => s.ringEnd d (fun x => x.2.setSlot d x.1) (s.tryAct o (s.readSlot o (s.die d).gring))
  | some g => match g.work with
    | x :: l => s.ringEnd d (fun s => s.setSlot d (some { g with work := l })) (s.tryStep o x)
    | [] =>
      if g.bad then s.setSlot d none
      else s.ringEnd d (fun x => match x.1 with
          | some v => x.2.addJob d g.job v.1 v.2
          | none => (x.2.setSlot d (some g.refused)).badJob o g.slot) (s.tryAct o (s.genViews o g.job))

/-- The generator serves its ring: EN after the lock (R450), on a die that has one. -/
def State.genServes (s : State) (d : Nat) : Bool := s.serving && s.hasGen d && (s.die d).gen

/-- A published slot is consumed when every earlier job has emitted its rays (R398, R400, R402). -/
def execGenJobConsume (d : Nat) (s : State) : Out :=
  .next (if !s.genServes d || s.genPaused d || !(s.die d).jobList.all (·.closed) then s else s.ringMore d)

/-! ## The order of the rays (R400) -/

/-- A list cut into pieces of n. -/
def pieces {α : Type} (n : Nat) : Nat → List α → List (List α)
  | 0, _ => []
  | k + 1, l => if l.isEmpty then [] else l.take n :: pieces n k (l.drop n)

/-- The rays of a view's tile: view, x and y, in rows and then columns. -/
def tileRays (side v tx ty : Nat) : List (Nat × Nat × Nat) :=
  (List.range side).flatMap fun j => (List.range side).map fun i => (v, tx * side + i, ty * side + j)

/-- The rays of a job in the order of their emission. -/
def genOrder (j hd : List Byte) (views : List (Nat × List Byte)) : List (Nat × Nat × Nat) :=
  let side := ppbSide hd
  let most := (views.map fun e => viewWt e.2 * viewHt e.2).foldl max 0
  let t0 := fieldAt j 0x38 4
  let tiles := (List.range (min (fieldAt j 0x3C 4 + 1) most)).filter fun t => decide (t0 ≤ t)
  (pieces (2 ^ fld (fieldAt j 0x18 4) 0 2) views.length views).flatMap fun g =>
    tiles.flatMap fun t => g.flatMap fun e =>
      if t < viewWt e.2 * viewHt e.2 then tileRays side e.1 (t % viewWt e.2) (t / viewWt e.2) else []

/-! ## Emission (R400 to R402) -/

/-- The render unit that takes the next entry of a die: the next present one with room (R400). -/
def State.nextRender (s : State) (d : Nat) : Option Nat :=
  ((List.range 16).map fun k => ((s.die d).genCursor + k) % 16).find? fun c =>
    s.hasRender (16 * d + c) && decide ((s.cluster (16 * d + c)).travQ.length < 16)

/-- The rays of a job that are in flight and in no entry yet go to a render unit. -/
def State.pushEntry (s : State) (d : Nat) (j : GenJob) : State :=
  match s.nextRender d with
  | none => s
  | some c =>
    let u := s.cluster (16 * d + c)
    let s := s.setCluster (16 * d + c) { u with travQ := u.travQ ++
      [{ who := (s.ringOp d).who, rays := j.ready, pays := [], pool := word64 j.desc, pb := 0, gen := some j.id }] }
    (s.setDie d { s.die d with genCursor := (c + 1) % 16 }).setJob d j.id fun x =>
      { x with emitted := x.emitted + j.ready.length, ready := [] }

/-- The code of the report of a job that is abandoned: a pool or a block that has become malformed is ENGINE. -/
def jobCode : Code → Code
  | .page => .page
  | .ecc => .ecc
  | .race => .race
  | _ => .engine

/-- An attempt at a step of a job, and what follows one that is made. -/
def State.jobEnd {α : Type} (s : State) (d : Nat) (j : GenJob) (o : UnitOp) (f : α → State) : UnitEnd α → State
  | .done x => f x
  | .waits s => s
  | .demand va => s.pause (genPoster d (2 * j.id + 1)) o va 0
  | .fails c =>
    if j.closed then ((s.dropPeer o.reader).setJob d j.id fun x => { x with work := some [] }).unitReport o (jobCode c)
    else (s.dropPeer o.reader).abandonJob d j.id (jobCode c)

/-- The camera ray of a pixel as `rgen` writes it, in state s. -/
def State.genPixel (s : State) (o : UnitOp) (pool : W64) (i : W32) (x : Nat × Nat × Nat) : UnitAct (Unit × State) :=
  match s.genRay o.agent pool i (BitVec.ofNat 32 (x.1 * 2 ^ 24 + x.2.2 * 2 ^ 12 + x.2.1)) with
  | .error e => .error e
  | .ok s => .ok ((), s)

/-- A ray goes in flight at level 0, as `trace` puts it. -/
def State.genTrace (s : State) (o : UnitOp) (pool : W64) (i : W32) : UnitAct (Unit × State) :=
  match s.perform o.agent (.trace pool i 0 0) with
  | .error e => .error e
  | .ok (s, _) => .ok ((), s)

/-- The next step of a job's emission: a ray is taken, written for its pixel and put in flight; a full entry goes to a unit;
a job without further rays is closed (R279, R281, R282, R400, R402; log 34). -/
def State.emitMore (s : State) (d : Nat) (j : GenJob) : State :=
  let o := s.genOp d (.gen d (2 * j.id + 1))
  let pool := word64 j.desc
  if j.ready.length = 32 then s.pushEntry d j
  else match (genOrder j.desc j.head j.views).drop (j.emitted + j.ready.length) with
    | [] => if j.ready.isEmpty then s.setJob d j.id fun x => { x with closed := true } else s.pushEntry d j
    | x :: _ => match j.taken with
      | none => s.jobEnd d j o (fun r => match r.1 with
          | none => s
          | some i => r.2.setJob d j.id fun x => { x with taken := some (i, false) }) (s.tryAct o (s.takeRay o.agent pool))
      | some (i, false) => s.jobEnd d j o (fun r => r.2.setJob d j.id fun x => { x with taken := some (i, true) })
          (s.tryAct o (s.genPixel o pool i x))
      | some (i, true) =>
        s.jobEnd d j o (fun r => r.2.setJob d j.id fun x => { x with taken := none, ready := x.ready ++ [i] })
          (s.tryAct o (s.genTrace o pool i))

/-- The end of a job that emits no more rays: those in flight are given to a unit, and once all have finished `DONE` rises,
and then JOBS (R401). -/
def State.closeMore (s : State) (d : Nat) (j : GenJob) : State :=
  let o := s.genOp d (.gen d (2 * j.id + 2))
  if !j.ready.isEmpty then s.pushEntry d j
  else if j.emitted ≠ j.finished then s
  else match j.work with
    | none => s.setJob d j.id fun x => { x with work := some [jobDone j.desc] }
    | some (x :: l) => s.jobEnd d j o (fun s => s.setJob d j.id fun y => { y with work := some l }) (s.tryStep o x)
    | some [] =>
      if s.peerWaits o.reader then s
      else
        let u := s.die d
        s.setDie d { u with jobs := u.jobs + 1, jobList := u.jobList.filter fun x => x.id != j.id }

def execGenRayEmit (d i : Nat) (s : State) : Out :=
  match (s.die d).jobList[i]? with
  | none => .next s
  | some j =>
    .next (if s.genPaused d || !s.hasGen d then s else if j.closed then s.closeMore d j else s.emitMore d j)

end Sys2Proof.Machine
end

