-- ==== Sys2Proof/Machine/Sort.lean ====
section
/-! DEFINITION. The sort engine: `srt`, and the sort that it starts (R157, R392, R393, R395). -/

namespace Sys2Proof.Machine

/-- The commands that hold an entry of the engine's queue (R157). -/
def Die.sorts (d : Die) : Nat := d.sortQ.length + if d.sorting.isSome then 1 else 0

def execSrt (a : SReg) (s : State) : Out :=
  scalar s .gangs [] fun i c => do
    let s ← s.settle i
    let addr := c.get a
    aligned addr 64
    let d := dieOf i.cluster
    require (s.hasSort d) .owner
    waitFor (decide ((s.die d).sorts < 16)) s
    let s ← s.releaseFor i .device
    match s.issuerCrew i with
    | none => .ok s
    | some (_, y) =>
      let u := s.die d
      let j : SortJob := { who := s.crewStarter y, addr := addr, desc := [], work := none }
      .ok ((s.setDie d { u with sortQ := u.sortQ ++ [j] }).next i c.pc 4)

/-- The engine of a die, at a command. -/
def sortOp (d : Nat) (j : SortJob) : UnitOp :=
  { who := j.who, cl := 16 * d, src := { die := d, from_ := 3, unit := 0 }, reader := .sort d }

/-- The engine of a die as a poster. -/
def sortPoster (d : Nat) : Poster := { agent := 3, sub := 0, key := d, sel := 0 }

/-- A descriptor that the engine rejects (R157). -/
def sortBad (bs : List Byte) : Bool :=
  let w := fieldAt bs 0x14 4
  fld w 16 16 != 0 || fld w 12 3 != 0 || fieldAt bs 0x38 8 != 0 || fieldAt bs 0 8 % 8 != 0 || fieldAt bs 0x18 8 % 8 != 0
    || fieldAt bs 0x30 8 % 8 != 0 || fieldAt bs 8 8 % 4 != 0 || fieldAt bs 0x20 8 % 4 != 0

/-- The engine drops the command in work (R157, R486). -/
def State.endSort (s : State) (d : Nat) : State := s.setDie d { s.die d with sorting := none }

/-- The engine takes its next command. -/
def execSortStart (d : Nat) (s : State) : Out :=
  let u := s.die d
  match u.sorting, u.sortQ with
  | none, j :: rest => .next (if s.hasSort d then s.setDie d { u with sorting := some j, sortQ := rest } else s)
  | _, _ => .next s

/-- The part of a key that orders (R157): the bytes of DMASK. -/
def digits (dmask : Nat) (key : Nat) : Nat :=
  (List.range 8).foldl (fun n b => n + if flag dmask b then fld key (8 * b) 8 * 2 ^ (8 * b) else 0) 0

/-- The pairs in ascending order of their digits, equal ones in their first order. -/
def sortPairs (dmask : Nat) (l : List (Nat × Nat)) : List (Nat × Nat) := sortBy (fun e => digits dmask e.1) l

/-- Values in entries of 32, the last one padded (R157). -/
def emitEntries : Nat → List Nat → List EmitEntry
  | 0, _ => []
  | k + 1, l =>
    if l.isEmpty then []
    else { vals := laneMap fun n => BitVec.ofNat 32 (l.getD n.val 0xFFFFFFFF), mask := BitVec.allOnes 32 }
      :: emitEntries k (l.drop 32)

/-- A sort's reads, and the steps that remain: TEMP, the keys, the values to VOUT or to the emit stream, and VER. TEMP then
holds free bytes (log 19). -/
def State.sorted (s : State) (o : UnitOp) (desc : List Byte) : UnitAct (List UnitStep × State) :=
  let w := fieldAt desc 0x14 4
  let n := fieldAt desc 0x10 4
  match s.unitLoad o (word64 desc) (8 * n) with
  | .error e => .error e
  | .ok (ks, s) => match s.unitLoad o (word64 (desc.drop 8)) (4 * n) with
    | .error e => .error e
    | .ok (vs, s) =>
      let l := sortPairs (fld w 0 8) ((List.range n).map fun i => (fieldAt ks (8 * i) 8, fieldAt vs (4 * i) 4))
      let (temp, s) := s.freeBytes (12 * n)
      .ok (putSteps (12 * n) (word64 (desc.drop 0x28)) temp
        ++ putSteps (8 * n) (word64 (desc.drop 0x18)) (l.flatMap fun e => leBytes 8 e.1)
        ++ (if flag w 15 then [.emit (fld w 8 4) (emitEntries (n + 1) (l.map (·.2)))]
          else putSteps (4 * n) (word64 (desc.drop 0x20)) (l.flatMap fun e => leBytes 4 e.2))
        ++ [.add (word64 (desc.drop 0x30)) 8 1 false], s)

/-- The command in work replaced. -/
def State.setSort (s : State) (d : Nat) (j : SortJob) : State := s.setDie d { s.die d with sorting := some j }

/-- The command in work is abandoned: what it has written stands (R486). -/
def State.abandonSort (s : State) (d : Nat) (j : SortJob) (c : Code) : State :=
  ((s.dropPeer (.sort d)).endSort d).unitReport (sortOp d j) c

/-- An attempt at a step of the command in work, and what follows one that is made. -/
def State.sortEnd {α : Type} (s : State) (d : Nat) (j : SortJob) (f : α → State) : UnitEnd α → State
  | .done x => f x
  | .waits s => s
  | .demand va => s.pause (sortPoster d) (sortOp d j) va 0
  | .fails c => s.abandonSort d j c

/-- The command in work goes one step on: its descriptor, its pairs, its writes (R157). -/
def State.sortMore (s : State) (d : Nat) (j : SortJob) : State :=
  let o := sortOp d j
  match j.work with
  | none =>
    if j.desc.isEmpty then
      s.sortEnd d j (fun x =>
        if sortBad x.1 then (x.2.endSort d).engineFault j.who .engine o.src else x.2.setSort d { j with desc := x.1 })
        (s.tryAct o (s.unitLoad o j.addr 64))
    else s.sortEnd d j (fun x => x.2.setSort d { j with work := some x.1 }) (s.tryAct o (s.sorted o j.desc))
  | some [] => s.endSort d
  | some (x :: l) => s.sortEnd d j (fun s => s.setSort d { j with work := some l }) (s.tryStep o x)

def execSortComplete (d : Nat) (s : State) : Out :=
  match (s.die d).sorting with
  | none => .next s
  | some j => .next (if s.isPaused (sortPoster d) then s else s.sortMore d j)

end Sys2Proof.Machine
end

