-- ==== Sys2Proof/Machine/Faults.lean ====
section
/-! DEFINITION. The fault queue: its entries, and what follows their acknowledgement (R305, R306, R486). -/

namespace Sys2Proof.Machine

/-- The second word of an entry: SUB, CORE, CLUS, DIE, AGENT, CAUSE and ASID (R306). -/
def Paused.place (p : Paused) : Nat :=
  let core := if p.agent = 0 then coreOf p.sel % 4 else 0
  let clus := match p.agent with
    | 0 => clusterOf (coreOf p.sel) % 16
    | 1 => p.key % 16
    | 2 => if p.sub = 0 then p.key % 16 else 0
    | _ => 0
  let die := match p.agent with
    | 0 => dieOf (clusterOf (coreOf p.sel))
    | 1 => dieOf p.key
    | 2 => if p.sub = 0 then dieOf p.key else p.key
    | _ => p.key
  p.sub % 4 * 2 ^ 26 + core * 2 ^ 24 + clus * 2 ^ 20 + die % 4 * 2 ^ 18 + p.agent % 4 * 2 ^ 16 + p.cause.num * 2 ^ 12
    + p.who.asid % 2 ^ 12

/-- The 32 bytes of an entry (R306). -/
def Paused.bytes (p : Paused) : List Byte :=
  bytes64 p.va ++ leBytes 8 p.place ++ List.replicate 8 0 ++ leBytes 8 p.resume_

/-- The fault queue has room: FQTAIL - FQHEAD is not FQSIZE, and FQSIZE is not 0 (R306). -/
def Xlat.room (x : Xlat) : Bool :=
  decide (x.fqsize.toNat % 2 ^ 16 ≠ 0) && decide ((x.fqtail - x.fqhead).toNat ≠ x.fqsize.toNat % 2 ^ 16)

/-- Where the next entry goes. -/
def Xlat.next (x : Xlat) : Nat := x.fqbase.toNat / 32 * 32 + 32 * (x.fqtail.toNat % (x.fqsize.toNat % 2 ^ 16))

/-- Paused agent i posts its entry once the queue has room; an entry that would lie in no memory waits (R306; log 35). -/
def execFaultQueuePost (i : Nat) (s : State) : Out :=
  match s.paused[i]? with
  | none => .next s
  | some p =>
    let pa := s.xlat.next
    if p.entry.isSome || !s.xlat.room || !s.populated pa 32 then .next s
    else
      let t := (s.atHome (s.plainAt pa)).writePa noCore pa p.bytes
      .next { t with xlat := { t.xlat with fqtail := t.xlat.fqtail + 1 },
                     paused := t.paused.set i { p with entry := some pa } }

/-! ## Acknowledgement -/

/-- Copy id of a cluster goes on with what it was paused at (R306). -/
def State.resumeCopy (s : State) (cl id : Nat) : State :=
  let u := s.cluster cl
  s.setCluster cl { u with copies := u.copies.map fun c => if c.id = id then { c with paused := false } else c }

/-- The fault of a refused copy (R342). -/
def refusedTrap : Trap := { code := .page, cause := some .demand, hard := true }

/-- Copy id of a cluster is refused: it fails, or the step of its failed end is left out (R342, R486). -/
def State.refuseCopy (s : State) (cl id : Nat) : State :=
  let l := (s.cluster cl).copies
  match l.findIdx? fun c => c.id == id with
  | none => s
  | some i => match l[i]? with
    | none => s
    | some c =>
      if c.failed.isSome then s.setCopy cl i { c with paused := false, work := c.work.drop 1 }
      else s.failCopy cl i c refusedTrap

/-- Ray `id` of a unit is refused, with a code. -/
def State.refuseRay (s : State) (cl id : Nat) (c : Code) : State :=
  match (s.cluster cl).rays.find? fun y => y.id == id with
  | none => s
  | some y => s.abandonRay cl y c

/-- The refusal of the traversal unit's operation: the entry at the head of its input, or a ray. -/
def State.refuseTrav (s : State) (cl sel : Nat) (c : Code) : State :=
  if sel = 1 then
    match (s.cluster cl).travQ with
    | [] => s
    | e :: _ => s.abandonEntry cl e c
  else s.refuseRay cl (sel - 2) c

/-- An operation of the generator is lost, as its reader numbers it: of its ring, or of a job. -/
def State.loseGen (s : State) (d sel : Nat) (c : Code) : State :=
  if sel = 0 then s.abandonRing d c
  else match (s.die d).jobList.find? fun j => j.id == (sel - 1) / 2 with
    | none => s
    | some j => s.jobEnd d j (s.genOp d (.gen d sel)) (fun _ => s) (.fails (α := Unit) c)

/-- The refusal of the generator: of its ring, of a job, or of the maps of a ray. -/
def State.refuseGen (s : State) (d sel : Nat) : State :=
  if sel = 0 then s.abandonRing d .page
  else if sel % 2 = 0 then s.refuseRay ((sel / 2 - 1) / 2 ^ 32) ((sel / 2 - 1) % 2 ^ 32) .page
  else match (s.die d).jobList.find? fun j => 2 * j.id + 1 == sel with
    | none => s
    | some j => s.loseGen d (if j.closed then sel + 1 else sel) .page

/-- An engine's report of a poisoned acknowledgement (R296; log 37). -/
def State.ackRead (s : State) (p : Paused) : State :=
  let from_ := match p.agent, p.sub with
    | 2, 0 => 2
    | 2, _ => 4
    | n, _ => n
  let die := if p.agent = 1 ∨ (p.agent = 2 ∧ p.sub = 0) then dieOf p.key else p.key
  let unit := if p.agent = 1 ∨ (p.agent = 2 ∧ p.sub = 0) then p.key % 16 else 0
  if p.entry.any fun pa => s.poisoned (pa + 0x10) 8 then
    s.engineFault p.who .ecc { die := die, from_ := from_, unit := unit }
  else s

/-- A DEMAND fault is refused: the operation is abandoned (R306, R486). -/
def State.refusePaused (s : State) (p : Paused) : State :=
  let s := s.ackRead p
  match p.agent, p.sub with
  | 1, _ => s.refuseCopy p.key p.sel
  | 2, 0 =>
    if p.sel = 0 then match (s.cluster p.key).proj with
      | none => s
      | some e => s.abandonItem p.key e .page
    else s.refuseTrav p.key p.sel .page
  | 2, _ => s.refuseGen p.key p.sel
  | 3, _ => match (s.die p.key).sorting with
    | none => s
    | some j => s.abandonSort p.key j .page
  | _, _ => s

/-- The operation is tried again (R306). -/
def State.resumePaused (s : State) (p : Paused) : State :=
  let s := s.ackRead p
  if p.agent = 1 then s.resumeCopy p.key p.sel else s

/-- Paused engine i reads its ACK: 1 resumes it, 2 refuses it, and any other value leaves it waiting (R306). A replayable
crew comes back by an event of its own (R386). -/
def execEngineResumeOnAck (i : Nat) (s : State) : Out :=
  match s.paused[i]? with
  | none => .next s
  | some p => match p.agent, p.entry with
    | 0, _ => .next s
    | _, none => .next s
    | _, some pa =>
      let t := s.atHome (s.plainAt pa)
      let rest : State := { t with paused := t.paused.eraseIdx i }
      match word64 (t.readPa (pa + 0x10) 8) with
      | 1#64 => .next (rest.resumePaused p)
      | 2#64 => .next (rest.refusePaused p)
      | _ => .next s

end Sys2Proof.Machine
end

