-- ==== Sys2Proof/Machine/LaneVar.lean ====
section
/-!
DEFINITION. What `var` words share: addresses (R204), checks at issue (R205), held effects (R229), the order of accesses
to other packages (R324, R426), pending results and late faults (R61, R205), and their completion.
-/

namespace Sys2Proof.Machine

/-! ## Operations by lane -/

/-- An operation for every enabled lane. -/
def LaneCtx.ops (c : LaneCtx) (f : Fin 32 → MemOp) : List (Fin 32 × MemOp) := (maskLanes c.en).map fun n => (n, f n)

/-- The address of a row-8 word in a lane (R204). -/
def LaneCtx.addr (c : LaneCtx) (a b : Opd) (off : BitVec 16) (n : Fin 32) : W64 :=
  c.opd64 a n + (c.opd b n).signExtend 64 + off.signExtend 64

/-- The lowest enabled lane for which a condition holds. -/
def LaneCtx.first (c : LaneCtx) (f : Fin 32 → Bool) : Option (Fin 32) := (maskLanes c.en).find? f

/-- A check at issue of every enabled lane: the trap of the lowest lane that fails it (R205). -/
def LaneCtx.check (c : LaneCtx) (ok : Fin 32 → Bool) (t : Fin 32 → Trap) : Act Unit :=
  match c.first fun n => !ok n with
  | some n => raise (t n)
  | none => .ok ()

/-- The alignment of the addresses (R204, R264). -/
def LaneCtx.checkAlign (c : LaneCtx) (size : Nat) (va : Fin 32 → W64) : Act Unit :=
  c.check (fun n => (va n).toNat % size == 0) fun n => { code := .align, va := va n }

/-- The range of the addresses (R204). -/
def LaneCtx.checkRange (c : LaneCtx) (va : Fin 32 → W64) : Act Unit :=
  c.check (fun n => decide ((va n).toNat < 2 ^ 52)) fun n => { code := .page, cause := some .varange, va := va n }

/-- The checks of R204: alignment, then the range of the address. -/
def LaneCtx.checkVa (c : LaneCtx) (size : Nat) (va : Fin 32 → W64) : Act Unit := do
  c.checkAlign size va
  c.checkRange va

/-- The bytes of a size (R203). -/
def memBytes : MemSize → Nat
  | .b8 => 1
  | .b16 => 2
  | .b32 => 4
  | .b64 => 8

/-- How a load of a size goes into its register (R206). -/
def loadFmt (sz : MemSize) (sgn : Bool) : LoadFmt :=
  match sz, sgn with
  | .b8, false => .z8
  | .b8, true => .s8
  | .b16, false => .z16
  | .b16, true => .s16
  | .b32, _ => .w32
  | .b64, _ => .w64

/-- Where a result in D goes; nowhere for `zero`. -/
def dstOf (d : Opd) : Option LaneDst :=
  match d with
  | .v r => some (.v r)
  | .q r => some (.q r)
  | _ => none

/-- Where a loaded value goes. -/
def backTo (d : Opd) (f : LoadFmt) : Option Back := (dstOf d).map fun r => { reg := r, fmt := f }

/-- The low n bytes of a 32-bit or 64-bit operand. -/
def LaneCtx.data (c : LaneCtx) (o : Opd) (n : Nat) (l : Fin 32) : List Byte :=
  if n = 8 then bytes64 (c.opd64 o l) else leBytes n (c.opd o l).toNat

/-! ## How a word's effects are made -/

/-- The ordering of a word: its scope and order; whether it makes strong accesses; and, for a word that a replayable
crew holds, the amount that it counts (R229). -/
structure WordOrder where
  scope : Scope := .device
  order : Order := .relaxed
  strong : Bool := false
  held : Option Nat := none
  deriving DecidableEq, Repr

/-- The order names an acquire. -/
def Order.acquires : Order → Bool
  | .acq | .acqrel => true
  | .relaxed | .rel => false

/-- The word releases (R313). -/
def WordOrder.rel (o : WordOrder) : Bool :=
  match o.order with
  | .rel | .acqrel => true
  | .relaxed | .acq => false

/-- The kernel's crews are replayable (R90). -/
def State.replayable (s : State) (g : Nat) : Bool := (s.kernel (.gang g)).any (·.replay)

/-- The amount that the gangs of a core hold in its release buffer (R229). -/
def State.buffered (s : State) (core : Nat) : Nat :=
  s.gangs.foldl (fun n e => if coreOf e.1 = core then n + e.2.heldBytes else n) 0

/-- The release buffer of a gang's core has room for an amount (R229). -/
def State.bufferRoom (s : State) (g n : Nat) : Bool := decide (s.buffered (coreOf g) + n ≤ 65536)

/-- A word of the gang that a later one must wait for: one that has still to make accesses, an acquire that another package
has not answered, or, for a strong word, any strong access (R314, R323, R324, R426). -/
def Gang.mustWait (y : Gang) (strong : Bool) : Bool :=
  y.rounds || y.var.any fun v => !v.remote.isEmpty && (v.acq || (strong && v.strong))

/-- The word waits behind the gang's earlier ones: one that has still to make accesses, an acquire of theirs, or, for a
strong word, a strong access, that another package has not answered, or a commit that is under way (R228, R324, R426). -/
def State.inOrder (s : State) (g : Nat) (strong : Bool) : Bool :=
  !(s.gang? g).any (fun y => y.mustWait strong || !y.commits.isEmpty) && !(strong && s.strongOut (.gang g))

/-- How a gang's own loads see memory: with the effects that it holds, in a replayable crew (R229). -/
def State.ownLoads (s : State) (g : Nat) : State → State :=
  if s.replayable g then fun t => t.heldView g else fun t => t

/-- The earlier accesses of a gang that an acquire waits for have been made. -/
def State.acquired (s : State) (g : Nat) : Bool := !(s.gang? g).any Gang.awaits

/-- There is room for the requests of one word (R418). -/
def State.requestRoom (s : State) : Bool := decide (s.reqs.length + 64 ≤ 32768)

/-- The destinations of a pending word: its registers, its predicates, and the queue that it pushes when it completes; the
entry of a `trace` is not its result (R282). -/
def LaneCtx.dests (c : LaneCtx) (trace : Bool) : List LaneDst :=
  destNames c.info ++ match c.info.push with
    | some q => if trace then [] else [.q q]
    | none => []

/-- Word `id` with its results, when nothing of it is out at another package. -/
def LaneCtx.pend (c : LaneCtx) (o : WordOrder) (id : Nat) (writes : List LaneWrite) : VarPend :=
  { id := id, slot := c.slot, index := c.index, dsts := c.dests false, writes := writes, token := c.info.hdr.st.val,
    remote := [], reads := [], got := [], own := [], rays := [], traces := [], pays := [],
    acq := Order.acquires o.order, strong := o.strong, ended := false }

/-- A `var` word has issued: its destinations are pending until it completes, its token is set, and its late faults are
noted (R61, R205). Without destinations and requests it is complete. -/
def State.addVar (s : State) (g : Nat) (v : VarPend) (errs : List (Fin 32 × MemOp × AccErr)) : State :=
  let s := match lateTrap errs with
    | none => s
    | some t => s.addLate g { no := v.id, slot := v.slot, index := v.index, token := v.token, trap := t,
                              ops := errs.map fun e => (e.1, e.2.1), due := false }
  if v.dsts.isEmpty && !v.far then s
  else match s.gang? g with
    | none => s
    | some y => (s.setGang g { y with var := y.var ++ [v] }).addToken g v.token

/-- The effects of word `id` performed now (R206 to R213), those of other packages as requests. -/
def State.performWord (s : State) (c : LaneCtx) (o : WordOrder) (id : Nat) (ops : List (Fin 32 × MemOp)) : State :=
  let w := s.who (.gang c.g)
  let d := s.performWhole w (s.ownLoads c.g) ops
  let f := d.st.sendFar w (.lane c.g id) o.scope o.order d.far
  let errs := d.errs ++ f.errs
  let traces := ops.filter fun e => e.2.isTrace && !errs.any fun x => x.1 == e.1
  let v := { c.pend o id (laneWrites d.res) with
    dsts := c.dests (ops.any fun e => e.2.isTrace), remote := f.ids, reads := f.reads, got := f.got,
    own := if f.reads.isEmpty then [] else s.ownEffects c.g, rays := f.rays, traces := traces }
  let t := f.st.addVar c.g v errs
  if f.rays.isEmpty then t.pushTrace c.g traces [] else t.goRays c.g v

/-- The effects whose address does not translate (R205). -/
def State.untranslated (s : State) (w : Who) (ops : List (Fin 32 × MemOp)) : List (Fin 32 × MemOp × AccErr) :=
  ops.filterMap fun e => match e.2 with
    | .pstore _ _ => none
    | _ => match s.segs w true (span e.2.va e.2.size) with
      | .error c => some (e.1, e.2, .page c)
      | .ok _ => none

/-- A held word keeps its region's count within 4,096 bytes, or REGION_OVERFLOW (R205, R229). -/
def State.checkRegion (s : State) (c : LaneCtx) (o : WordOrder) : Act Unit :=
  match o.held with
  | none => .ok ()
  | some n =>
    require (!s.replayable c.g || (s.gang? c.g).all fun y => decide (y.region + n ≤ 4096)) .regionOverflow

/-- The effects of word `id` of a replayable crew held, with the release that it makes at its commit (R229, R329). -/
def State.holdWord (s : State) (c : LaneCtx) (o : WordOrder) (id n : Nat) (ops : List (Fin 32 × MemOp)) : Act State :=
  match s.gang? c.g with
  | none => .ok s
  | some y => do
    holdUntil (s.bufferRoom c.g n) s c.g (.buffer n)
    let errs := s.untranslated (s.who (.gang c.g)) ops
    let good := ops.filter fun e => !errs.any fun x => x.1 == e.1
    let h : Held := { no := id, slot := c.slot, index := c.index, ops := good, rel := if o.rel then some o.scope else none,
                      strong := o.strong }
    let s := s.setGang c.g { y with held := y.held ++ [h], heldBytes := y.heldBytes + n, region := y.region + n }
    .ok (s.addVar c.g (c.pend o id []) errs)

/-- The place of word `id` in the queue that it pushes when it completes; the word waits while the endpoint cannot take
one (R29, R78). -/
def State.placePush (s : State) (c : LaneCtx) (id : Nat) : Act State :=
  match c.info.push with
  | none => .ok s
  | some q => match s.pushHole c.g q id with
    | some t => .ok t
    | none => .error (.wait s)

/-- What a waiting run's word waited for has come (R366). -/
def State.stallOver (s : State) (g : Nat) (y : Gang) : Stall → Bool
  | .order strong => s.inOrder g strong && s.requestRoom
  | .buffer n => s.bufferRoom g n
  | .acquires => s.acquired g
  | .release sc => s.releasable (.gang g) sc
  | .commit => !y.uncommitted
  | .quiet => y.quiet
  | .area => !s.peerWaits (.ctx (.gang g))

/-- The effects of a word after its checks at issue: held or performed now, behind the release that the word makes and
the accesses that it must wait for. -/
def State.wordEffects (s : State) (c : LaneCtx) (o : WordOrder) (ops : List (Fin 32 × MemOp)) : Act State := do
  s.checkRegion c o
  holdUntil (s.inOrder c.g o.strong && s.requestRoom) s c.g (.order o.strong)
  let (id, s) := s.fresh
  match s.replayable c.g, o.held with
  | true, some n => s.holdWord c o id n ops
  | _, _ => do
    let _ ← s.placePush c id
    holdUntil (!o.rel || s.releasable (.gang c.g) o.scope) s c.g (.release o.scope)
    let s ← if o.rel then s.releaseFor (.gang c.g) o.scope else .ok s
    let s ← s.placePush c id
    .ok (s.performWord c o id ops)

/-- A word that works through memory, with any number of effects in a lane: its checks at issue, its effects, and the
slot goes on. -/
def laneMany (s : State) (i : Instr) (o : LaneCtx → WordOrder) (check : LaneCtx → State → Act Unit)
    (ops : LaneCtx → State → List (Fin 32 × MemOp) × State) : Out :=
  laneIssue s i false fun c s => do
    let s := s.skipChoice c.view
    check c s
    let (l, s) := ops c s
    let t ← s.wordEffects c (o c) l
    .ok (t.advance c)

/-- A word that works through memory with one effect in each enabled lane. -/
def laneVar (s : State) (i : Instr) (o : LaneCtx → WordOrder) (check : LaneCtx → State → Act Unit)
    (ops : LaneCtx → State → Fin 32 → MemOp) : Out :=
  laneMany s i o check fun c s => (c.ops (ops c s), s)

/-! ## Completion (R61) -/

/-- Pending `var` operation i of gang g completes, when nothing of it is out at another package; the fixed-latency results
that are due land before it (R64). -/
def execVarCompletion (g i : Nat) (s : State) : Out :=
  let s := s.landFix g s.clk.arith
  match s.gang? g with
  | none => .next s
  | some y => match y.var[i]? with
    | none => .next s
    | some v =>
      if v.far then .next s
      else .next ((s.setGang g { y with var := y.var.eraseIdx i }).completeVar g v)

end Sys2Proof.Machine
end

