-- ==== Sys2Proof/Machine/LaneMem.lean ====
section
/-!
DEFINITION. The row-8 words: loads, stores, version waits, scratchpad accesses, atomics, reductions and fences (R202 to
R213, R215).
-/

namespace Sys2Proof.Machine

/-! ## Loads and stores (R206, R207) -/

/-- A load of a size. -/
def laneLoad (s : State) (i : Instr) (o : WordOrder) (off : BitVec 16) (sz : MemSize) (sgn : Bool) (d a b : Opd) : Out :=
  laneVar s i (fun _ => o) (fun c _ => c.checkVa (memBytes sz) (c.addr a b off)) fun c _ n =>
    .load (c.addr a b off n) (memBytes sz) o.strong (backTo d (loadFmt sz sgn))

/-- The checks of a word that a replayable crew holds, in the order of R205. -/
def LaneCtx.checkHeld (c : LaneCtx) (s : State) (o : WordOrder) (size : Nat) (va : Fin 32 → W64) : Act Unit := do
  c.checkAlign size va
  s.checkRegion c o
  c.checkRange va

/-- A store of a size; a replayable crew holds it (R229). -/
def laneStore (s : State) (i : Instr) (o : WordOrder) (off : BitVec 16) (sz : MemSize) (a b c : Opd) : Out :=
  let ord (x : LaneCtx) : WordOrder := { o with held := some (maskCount x.en * memBytes sz) }
  laneVar s i ord (fun x s => x.checkHeld s (ord x) (memBytes sz) (x.addr a b off)) fun x _ n =>
    .store (x.addr a b off n) o.strong (x.data c (memBytes sz) n)

def execLd (h : LaneHdr) (off : BitVec 16) (sz : MemSize) (sgn : Bool) (d a b : Opd) (s : State) : Out :=
  laneLoad s (.ld h off sz sgn d a b) {} off sz sgn d a b

def execSt (h : LaneHdr) (off : BitVec 16) (sz : MemSize) (a b c : Opd) (s : State) : Out :=
  laneStore s (.st h off sz a b c) {} off sz a b c

/-- 32 or 64 bits. -/
def wordSize (w64 : Bool) : MemSize := if w64 then .b64 else .b32

def execLdR (h : LaneHdr) (off : BitVec 16) (sc : Scope) (acq w64 : Bool) (d a b : Opd) (s : State) : Out :=
  laneLoad s (.ldR h off sc acq w64 d a b) { scope := sc, order := if acq then .acq else .relaxed, strong := true } off
    (wordSize w64) false d a b

def execStR (h : LaneHdr) (off : BitVec 16) (sc : Scope) (rel w64 : Bool) (a b c : Opd) (s : State) : Out :=
  laneStore s (.stR h off sc rel w64 a b c) { scope := sc, order := if rel then .rel else .relaxed, strong := true } off
    (wordSize w64) a b c

/-! ## Version waits (R208) -/

/-- What the lanes of an `ldv` come to: values found, failures, and the address of the lane that is not satisfied, and
whether its line has yet to be read from another package. -/
structure LdvScan where
  st : State
  got : List (Nat × W64)
  errs : List (Fin 32 × MemOp × AccErr)
  stop : Option (W64 × Bool)

/-- The bytes of a line of another package that has been read for a waiting word, as the gang's own loads see them. -/
def State.lineSeen (s : State) (g : Nat) (lines : List (Nat × List Byte)) (x : Xl) : Option (List Byte) :=
  match lines.find? fun e => e.1 == x.home * 2 ^ 35 + lineOf x.pa with
  | none => none
  | some e => some ((ownView (s.ownEffects g) (x.home, lineOf x.pa, e.2)).2.2.drop (x.pa % 128))

/-- The lanes in ascending order, up to the first that is not satisfied (R208). -/
def ldvScan (g : Nat) (view : State → State) (lines : List (Nat × List Byte)) (va want : Fin 32 → W64) (d : Option Back) :
    List (Fin 32) → LdvScan → LdvScan
  | [], r => r
  | n :: ns, r =>
    if r.got.any fun e => e.1 == n.val then ldvScan g view lines va want d ns r
    else
      let seen (v : W64) (s : State) : LdvScan :=
        if (want n).toNat ≤ v.toNat then
          ldvScan g view lines va want d ns { r with st := s, got := r.got ++ [(n.val, v)] }
        else { r with st := s, stop := some (va n, false) }
      match r.st.strongView (r.st.who (.gang g)) view (va n) 8 with
      | .ok (bs, s) => seen (word64 bs) s
      | .error (.remote x) => match r.st.lineSeen g lines x with
        | some bs => seen (word64 bs) r.st
        | none => { r with stop := some (va n, true) }
      | .error e => ldvScan g view lines va want d ns { r with errs := r.errs ++ [(n, .ldv (va n) (want n) d, e)] }

/-- The LPC slot of a word, changed. -/
def State.changeLpc (s : State) (g : Nat) (slot : Fin 2) (f : Lpc → Lpc) : State :=
  match s.gang? g with
  | none => s
  | some y => s.setGang g { y with lpc := y.lpc.set slot (f y.lpc[slot]) }

/-- The slot sleeps on lines until one of their monitors fires; where the core's monitors do not suffice for all of them,
it polls as well (R292). -/
def State.laneSleep (s : State) (g : Nat) (slot : Fin 2) (ls : List Nat) : State :=
  let core := coreOf g
  let u := s.core core
  let n := 64 - u.monitors.length
  (s.setCore core { u with monitors := u.monitors ++ (ls.take n).map fun l => (.lane g slot.val, l) }).changeLpc g slot
    fun l => { l with wait := if ls.length ≤ n then .asleep else .polling }

/-- The line of an address for a monitor. -/
def State.laneLine (s : State) (g : Nat) (va : W64) : Nat := s.monitorLine (.gang g) va

/-- An effect of a lane that waits for a line of another package. -/
abbrev FarLane := Fin 32 × MemOp × Xl

/-- The effects of lanes in other packages whose lines have not been read for the waiting word. -/
def State.farLines (s : State) (g : Nat) (lines : List (Nat × List Byte)) (ops : List (Fin 32 × MemOp)) : List FarLane :=
  ops.filterMap fun e => match s.xlate (s.who (.gang g)) e.2.va false with
    | .ok x => if x.home != s.ident.pkg && (s.lineSeen g lines x).isNone then some (e.1, e.2, x) else none
    | .error _ => none

/-- Reads of lines go out in order; their ids. -/
def State.askEach (s : State) (g : Nat) (slot : Fin 2) (sc : Scope) : List (List FarLane) → List Nat × State
  | [] => ([], s)
  | [] :: t => State.askEach s g slot sc t
  | ((n, op, x) :: l) :: t =>
    let p := { s.packet x.home .rd [] with keyid := x.key, pa := x.pa / 128 * 128, scope := sc, sz := .b64 }
    let (rid, s) := s.request p (.slot g slot.val) (p.pa / 128) ((n, op) :: l.map fun e => (e.1, e.2.1))
    let (ids, s) := State.askEach s g slot sc t
    (rid :: ids, s)

/-- Reads of other packages' lines go out for the lanes of a waiting word: one for every line, in ascending order of
package and line (R425). -/
def State.askLines (s : State) (g : Nat) (slot : Fin 2) (sc : Scope) (xs : List FarLane) : State :=
  let place (e : FarLane) : Nat := e.2.2.home * 2 ^ 35 + lineOf e.2.2.pa
  let groups : Tbl (List FarLane) := xs.foldl (fun t e => t.set (place e) (t.getD (place e) [] ++ [e])) []
  let (ids, s) := s.askEach g slot sc groups.vals
  s.changeLpc g slot fun l => { l with wait := .remote ids }

def execLdv (h : LaneHdr) (off : BitVec 16) (sc : Scope) (d a b c : Opd) (s : State) : Out :=
  laneIssue s (.ldv h off sc d a b c) false fun x s => do
    let s := s.skipChoice x.view
    let va := x.addr a b off
    x.checkVa 8 va
    holdUntil (s.inOrder x.g false && s.requestRoom) s x.g (.order false)
    match s.gang? x.g with
    | none => .ok s
    | some y =>
      let l := y.lpc[x.slot]
      let back := backTo d .w64
      let r := ldvScan x.g (s.ownLoads x.g) l.lines va (x.opd64 c) back (maskLanes x.en)
        { st := s, got := l.got, errs := [], stop := none }
      let left := (maskLanes x.en).filter fun n => !r.got.any fun e => e.1 == n.val
      match r.stop with
      | some (_, true) =>
        let t := r.st.changeLpc x.g x.slot fun l => { l with got := r.got }
        let asks := left.map fun n => (n, MemOp.ldv (va n) (x.opd64 c n) back)
        .error (.wait (t.askLines x.g x.slot sc (t.farLines x.g l.lines asks)))
      | some (v, false) =>
        let t := r.st.changeLpc x.g x.slot fun l => { l with got := r.got, lines := [] }
        .error (.wait (t.laneSleep x.g x.slot [s.laneLine x.g v]))
      | none =>
        let (id, t) := r.st.fresh
        let res : List (Fin 32 × Res) := r.got.flatMap fun e => (backRes back e.2).map fun z => (Fin.ofNat 32 e.1, z)
        .ok ((t.addVar x.g (x.pend { scope := sc, strong := true } id (laneWrites res)) r.errs).advance x)

/-! ## Scratchpad (R209) -/

/-- The byte offset of a scratchpad access within its berth, as an exact integer: a negative one does not wrap (log 49). -/
def LaneCtx.padOff (c : LaneCtx) (b : Opd) (off : BitVec 16) (n : Fin 32) : Int := (c.opd b n).toNat + off.toInt

/-- The berth entry at the place that the handle in A[15:0] of a lane names, of whatever GEN, on a core that is present:
its SIZE bounds the access before its GEN is looked at (R209). -/
def padEntry (s : State) (c : LaneCtx) (a : Opd) (n : Fin 32) : Option Berth :=
  let h := (c.opd a n).toNat
  let core := 4 * clusterOf (coreOf c.g) + fld h 14 2
  if s.corePresent core then some (s.berth core (fld h 7 7)) else none

/-- The berth that the handle in A[15:0] of a lane names. -/
def padRef (s : State) (c : LaneCtx) (a : Opd) (n : Fin 32) : Option BerthRef :=
  s.handle (clusterOf (coreOf c.g)) ((c.opd a n).toNat % 2 ^ 16)

/-- The berth is one that the gang's crew may reach, or is refused for its state instead: a free one, and for a store a
full or draining one that its grid's pilot holds (R209, R230, R261; log 50). -/
def padOwner (s : State) (g : Nat) (store : Bool) (b : Berth) : Bool :=
  !s.heldByOther (.gang g) b || (store && b.holder == .pilot && (b.state == .full || b.state == .draining)
    && s.berthGrid b == s.issuerGrid (.gang g))

/-- The checks of a scratchpad access (R205, R209). -/
def padCheck (s : State) (c : LaneCtx) (a b : Opd) (off : BitVec 16) (size : Nat) (states : List BerthState) : Act Unit := do
  let store := states == [.filling]
  let o := c.padOff b off
  let h (n : Fin 32) : W32 := ((c.opd a n).setWidth 16).setWidth 32
  c.check (fun n => o n % size == 0) fun _ => { code := .align }
  c.check (fun n => match padEntry s c a n with
    | some e => decide (0 ≤ o n) && decide (o n + size ≤ e.size * 64)
    | none => true) fun _ => { code := .range }
  c.check (fun n => match padRef s c a n with
    | some r => decide ((c.opd a n).toNat < 2 ^ 16) && padOwner s c.g store r.entry
    | none => false) fun n => { code := .owner, info := h n }
  c.check (fun n => match padRef s c a n with
    | some r => states.contains r.entry.state
    | none => true) fun n => { code := .berthState, info := h n }

/-- The pool address of a scratchpad access. -/
def padAddr (s : State) (c : LaneCtx) (a b : Opd) (off : BitVec 16) (n : Fin 32) : Nat :=
  match padRef s c a n with
  | some r => r.core * 2 ^ 20 + 64 * r.entry.base + (c.padOff b off n).toNat
  | none => 0

def execLds (h : LaneHdr) (off : BitVec 16) (sz : MemSize) (sgn : Bool) (d a b : Opd) (s : State) : Out :=
  laneVar s (.lds h off sz sgn d a b) (fun _ => {})
    (fun c s => padCheck s c a b off (memBytes sz) [.filling, .full, .draining]) fun c s n =>
    .pload (padAddr s c a b off n) (memBytes sz) (backTo d (loadFmt sz sgn))

def execSts (h : LaneHdr) (off : BitVec 16) (sz : MemSize) (a b c : Opd) (s : State) : Out :=
  laneVar s (.sts h off sz a b c) (fun x => { held := some (maskCount x.en * memBytes sz) })
    (fun x s => padCheck s x a b off (memBytes sz) [.filling]) fun x s n =>
    .pstore (padAddr s x a b off n) (x.data c (memBytes sz) n)

/-! ## Atomics and reductions (R210 to R213) -/

/-- An operand of 32 or 64 bits as a 64-bit word. -/
def LaneCtx.wide (c : LaneCtx) (w64 : Bool) (o : Opd) (n : Fin 32) : W64 :=
  if w64 then c.opd64 o n else (c.opd o n).setWidth 64

def execAtom (h : LaneHdr) (off : BitVec 16) (op : AtomOp) (o : Order) (sc : Scope) (w64 : Bool) (d a b c : Opd)
    (s : State) : Out :=
  laneVar s (.atom h off op o sc w64 d a b c) (fun _ => { scope := sc, order := o, strong := true })
    (fun x _ => x.checkVa (if w64 then 8 else 4) (x.addr a .zero off)) fun x _ n =>
    .atom op w64 (x.addr a .zero off n) (x.wide w64 c n) (x.wide w64 b n) (backTo d (if w64 then .w64 else .w32))

def execAtomX (h : LaneHdr) (off : BitVec 16) (xf : Bool) (p : Fin 64) (rel : Bool) (sc : Scope) (d a c : Opd)
    (s : State) : Out :=
  let ord (x : LaneCtx) : WordOrder :=
    { scope := sc, order := if rel then .rel else .relaxed, strong := true,
      held := if d = .zero then some (maskCount x.en * 8) else none }
  laneVar s (.atomX h off xf p rel sc d a c) ord (fun x s => x.checkHeld s (ord x) 8 (x.addr a .zero off)) fun x _ n =>
    .fx (x.addr a .zero off n) (if xf then fx64OfF32 .rne p.val (x.opd c n) else x.opd64 c n)
      (if xf then p.val else 0) (backTo d .w64)

def execRed (h : LaneHdr) (off : BitVec 16) (op : RedOp) (rel : Bool) (sc : Scope) (w64 : Bool) (a c : Opd) (s : State) :
    Out :=
  let size := if w64 then 8 else 4
  let ord (x : LaneCtx) : WordOrder :=
    { scope := sc, order := if rel then .rel else .relaxed, strong := true, held := some (maskCount x.en * size) }
  laneVar s (.red h off op rel sc w64 a c) ord (fun x s => x.checkHeld s (ord x) size (x.addr a .zero off)) fun x _ n =>
    .red op w64 (x.addr a .zero off n) (x.wide w64 c n)

/-! ## Fences (R215, R327) -/

def execFence (h : LaneHdr) (o : FenceOrder) (sc : Scope) (s : State) : Out :=
  laneIssue s (.fence h o sc) false fun c s => do
    let s := s.skipChoice c.view
    let rel := match o with
      | .rel | .acqrel => true
      | .acq => false
    let acq := match o with
      | .acq | .acqrel => true
      | .rel => false
    holdUntil (!acq || s.acquired c.g) s c.g .acquires
    if rel then do
      let t := s.commitHeld c.g
      if (t.gang? c.g).any Gang.uncommitted then .error (.wait (t.stallRun c.g .commit))
      else do
        holdUntil (t.releasable (.gang c.g) sc) t c.g (.release sc)
        let t ← t.releaseFor (.gang c.g) sc
        .ok (t.advance c)
    else .ok (s.advance c)

end Sys2Proof.Machine
end

