-- ==== Sys2Proof/Machine/LaneControl.lean ====
section
/-!
DEFINITION. The control words: paths and the divergence stack (R44, R45, R216 to R225), `nap` and `mwait` (R214, R226)
and `rgn` (R228).
-/

namespace Sys2Proof.Machine

/-! ## The divergence stack (R44) -/

/-- An entry of the divergence stack. -/
structure DEntry where
  kind : Nat
  join : Nat
  jmask : Mask
  path : Nat
  pmask : Mask
  deriving DecidableEq, Repr

/-- The 16 bytes of an entry. -/
def DEntry.bytes (e : DEntry) : List Byte :=
  leBytes 16 (e.kind % 4 * 2 ^ 126 + e.join % 2 ^ 30 * 2 ^ 96 + e.jmask.toNat * 2 ^ 64 + e.path % 2 ^ 30 * 2 ^ 32
    + e.pmask.toNat)

/-- An entry from its 16 bytes. -/
def entryOf (bs : List Byte) : DEntry :=
  let x := leNat bs
  { kind := fld x 126 2, join := fld x 96 30, jmask := BitVec.ofNat 32 (fld x 64 32), path := fld x 32 30,
    pmask := BitVec.ofNat 32 (fld x 0 32) }

/-- KIND 0, and the reserved KIND 3, which is treated as 0 (R45). -/
def DEntry.branch (e : DEntry) : Bool := e.kind == 0 || e.kind == 3

/-- The entry holds a spilled path (R217). -/
def DEntry.spilled (e : DEntry) : Bool := e.branch && e.pmask != 0

/-- Entries from the positions listed, of a stack at `base`. -/
def State.readEntries (s : State) (g : Nat) (base : W64) : List Nat → Except AccErr (List DEntry)
  | [] => .ok []
  | i :: is => match s.ctxLoad (s.who (.gang g)) (base + BitVec.ofNat 64 (16 * i)) 16 with
    | .error c => .error c
    | .ok bs => match State.readEntries s g base is with
      | .error c => .error c
      | .ok es => .ok (entryOf bs :: es)

/-- The entries of a gang's stack, the top last; a failure of the context area's translation (R359). -/
def State.dstack (s : State) (g : Nat) : Except AccErr (List DEntry) :=
  match s.gang? g with
  | none => .ok []
  | some y => s.readEntries g y.dbase (List.range y.depth)

/-- A lane word waits for a line of its context area in another package, or the area's failure is reported (R293, R359). -/
def State.areaWait (s : State) (g : Nat) (e : AccErr) : State := (s.areaMiss (.gang g) e).stallRun g .area

/-- The entries of a stack that differ from those that stood are written (R44). -/
def State.putEntries (s : State) (g : Nat) (base : W64) (old new : List DEntry) : List Nat → Except PageCause State
  | [] => .ok s
  | i :: is => match new[i]? with
    | none => .ok s
    | some e =>
      if old[i]? == some e then State.putEntries s g base old new is
      else match s.ctxStore (s.who (.gang g)) (base + BitVec.ofNat 64 (16 * i)) e.bytes with
        | .error c => .error c
        | .ok s => State.putEntries s g base old new is

/-- The capacity of a gang's stack (R44, R388). -/
def Kernel.capacity (k : Kernel) : Nat := if k.replay then k.dstack - 36 else k.dstack

/-! ## Paths (R217, R224) -/

/-- The slots of a gang, its stack, the top last, and the lanes that have exited for its life. -/
structure Paths where
  lpc : Vector Lpc 2
  st : List DEntry
  killed : Mask
  deriving DecidableEq, Repr

/-- A slot that takes a path at an index, as a new start (R63). -/
def Lpc.take (l : Lpc) (index : Nat) (mask : Mask) : Lpc :=
  { l with live := true, index := index, mask := mask, fresh := true, wait := .none, got := [], lines := [] }

/-- A slot with other lanes; one without lanes is free. -/
def Lpc.withMask (l : Lpc) (mask : Mask) : Lpc := if mask = 0 then Lpc.off else { l with mask := mask }

/-- The free slot: LPC0 when both are. -/
def Paths.free (p : Paths) : Option (Fin 2) :=
  if !p.lpc[0].live then some 0 else if !p.lpc[1].live then some 1 else none

/-- The lanes that are in a live slot or a spilled path. -/
def Paths.moving (p : Paths) : Mask :=
  (p.st.filter (·.spilled)).foldl (fun m e => m ||| e.pmask)
    ((if p.lpc[0].live then p.lpc[0].mask else 0) ||| if p.lpc[1].live then p.lpc[1].mask else 0)

/-- The position of the topmost entry for which f holds. -/
def topmost (f : DEntry → Bool) : List DEntry → Option Nat
  | [] => none
  | e :: t => match topmost f t with
    | some i => some (i + 1)
    | none => if f e then some 0 else none

/-- Entry i changed. -/
def Paths.entry (p : Paths) (i : Nat) (f : DEntry → DEntry) : Paths := { p with st := p.st.modify i f }

/-- The entries above position i lose lanes from their JMASK. -/
def Paths.above (p : Paths) (i : Nat) (b : Mask) : Paths :=
  { p with st := p.st.take (i + 1) ++ (p.st.drop (i + 1)).map fun e => { e with jmask := e.jmask &&& ~~~b } }

/-- One move of the settling, if there is one (R224). -/
def Paths.move (p : Paths) : Option Paths :=
  match p.free, p.st.getLast? with
  | some f, some e =>
    if e.jmask &&& p.moving = 0 then
      if e.kind = 1 ∧ e.pmask ≠ 0 then
        some { p with lpc := p.lpc.set f (p.lpc[f].take e.path e.pmask), st := p.st.dropLast ++ [{ e with pmask := 0 }] }
      else
        let at_ := if e.kind = 2 then e.join else e.join + 1
        some { p with lpc := if e.jmask = 0 then p.lpc else p.lpc.set f (p.lpc[f].take at_ e.jmask), st := p.st.dropLast }
    else match topmost (·.spilled) p.st with
      | none => none
      | some i => match p.st[i]? with
        | none => none
        | some x =>
          some ({ p with lpc := p.lpc.set f (p.lpc[f].take x.path x.pmask) }.entry i fun e => { e with pmask := 0 })
  | _, _ => none

/-- The settling of paths (R224): each move removes an entry or a path, so twice the stack's entries suffice. -/
def Paths.settle (p : Paths) : Nat → Paths
  | 0 => p
  | n + 1 => match p.move with
    | none => p
    | some q => Paths.settle q n

/-- The entries as they last stood while the paths settle: one that is popped keeps its last value (R463). -/
def Paths.shadow (p : Paths) (old : List DEntry) : Nat → List DEntry
  | 0 => old
  | n + 1 => match p.move with
    | none => old
    | some q => Paths.shadow q (q.st ++ old.drop q.st.length) n

/-- No slot is live and the stack is empty: the block has ended (R224). -/
def Paths.ended (p : Paths) : Bool := !p.lpc[0].live && !p.lpc[1].live && p.st.isEmpty

/-! ## Control words -/

/-- The end of a gang's lane block: its held effects are committed, and its arm has gone (R21, R135, R229). -/
def State.endBlock (s : State) (g : Nat) : State :=
  match s.gang? g with
  | none => s
  | some y =>
    let arm := match y.arm with
      | some a => if a.active then none else some a
      | none => none
    (s.setGang g { y with arm := arm }).commitHeld g

/-- The paths after a control word are settled and take their places; the changed entries are written, those too that
the settling pops (R463). A failure of
the context area is reported, and the word does not issue (R359). -/
def State.putPaths (s : State) (g : Nat) (old : List DEntry) (p : Paths) : Act State :=
  match s.gang? g with
  | none => .ok s
  | some y =>
    let stood := p.shadow p.st (2 * p.st.length + 2)
    let p := p.settle (2 * p.st.length + 2)
    match s.putEntries g y.dbase old stood (List.range stood.length) with
    | .error _ => .error (.wait (s.areaFault (.gang g)))
    | .ok t =>
      let t := t.setGang g { y with lpc := p.lpc, depth := p.st.length, killed := p.killed }
      .ok (if p.ended then t.endBlock g else t)

/-- A control word: f makes its paths from the slots as they stand behind the word, its slot's index being the next
one, and the stack (R216 to R224). -/
def control (s : State) (i : Instr) (always : Bool) (f : LaneCtx → Kernel → Paths → Act Paths) : Out :=
  laneIssue s i always fun c s =>
    match s.kernel (.gang c.g), s.dstack c.g with
    | _, .error e => .error (.wait (s.areaWait c.g e))
    | none, .ok _ => .ok s
    | some k, .ok st =>
      let t := s.advance c
      match t.gang? c.g with
      | none => .ok t
      | some y => do
        let p ← f c k { lpc := y.lpc, st := st, killed := y.killed }
        t.putPaths c.g st p

/-- A lane word index below LANECOUNT, or RANGE (R216). -/
def Kernel.target (k : Kernel) (n : Nat) : Act Unit := require (decide (n < k.laneCount)) .range

/-- An entry is pushed, or DIV_STACK (R44). -/
def Paths.push (p : Paths) (k : Kernel) (e : DEntry) : Act Paths := do
  require (decide (p.st.length < k.capacity)) .divStack
  .ok { p with st := p.st ++ [e] }

/-- The slot of the word goes to an index; elsewhere than its fall-through that is a new start (R63). -/
def Paths.goto (p : Paths) (c : LaneCtx) (n : Nat) : Paths :=
  if n = c.index + 1 then p else { p with lpc := p.lpc.set c.slot (p.lpc[c.slot].take n c.act) }

/-- The slot of the word has other lanes. -/
def Paths.withMask (p : Paths) (c : LaneCtx) (m : Mask) : Paths :=
  { p with lpc := p.lpc.set c.slot (p.lpc[c.slot].withMask m) }

/-- A target that is not below LANECOUNT is found before a full stack (log 52). -/
def execBra (h : LaneHdr) (target join : BitVec 30) (s : State) : Out :=
  control s (.bra h target join) true fun c k p => do
    let t := c.en
    let f := c.act &&& ~~~c.en
    if t = 0 then .ok p
    else if f = 0 then do
      k.target target.toNat
      .ok (p.goto c target.toNat)
    else do
      k.target target.toNat
      k.target join.toNat
      let o : Fin 2 := 1 - c.slot
      let old := p.lpc[o]
      let p ← p.push k { kind := 0, join := join.toNat, jmask := c.act, path := if old.live then old.index else 0,
                         pmask := if old.live then old.mask else 0 }
      let p := p.withMask c f
      .ok { p with lpc := p.lpc.set o (p.lpc[o].take target.toNat t) }

/-- The join that is pushed is checked before the stack is (log 52). -/
def execBraLoop (h : LaneHdr) (latch exitJoin : BitVec 30) (s : State) : Out :=
  control s (.braLoop h latch exitJoin) true fun c k p => do
    k.target exitJoin.toNat
    p.push k { kind := 1, join := exitJoin.toNat, jmask := c.act, path := latch.toNat, pmask := 0 }

/-- The position of the topmost loop entry, with no call above it (R220). -/
def Paths.loop (p : Paths) : Act Nat :=
  match topmost (fun e => e.kind == 1) p.st with
  | none => raise { code := .divStack }
  | some i => do
    require (!((p.st.drop (i + 1)).any fun e => e.kind == 2)) .divStack
    .ok i

def execBrk (h : LaneHdr) (s : State) : Out :=
  control s (.brk h) true fun c _ p => do
    let i ← p.loop
    .ok ((p.withMask c (c.act &&& ~~~c.en)).above i c.en)

def execCont (h : LaneHdr) (s : State) : Out :=
  control s (.cont h) true fun c _ p => do
    let i ← p.loop
    .ok (((p.withMask c (c.act &&& ~~~c.en)).above i c.en).entry i fun e => { e with pmask := e.pmask ||| c.en })

def execJoin (h : LaneHdr) (s : State) : Out :=
  control s (.join h) true fun c _ p => do
    require (p.st.any fun e => e.kind != 2 && e.join == c.index) .divStack
    .ok (p.withMask c 0)

def execJoinLatch (h : LaneHdr) (s : State) : Out :=
  control s (.joinLatch h) true fun c _ p =>
    match topmost (fun e => e.kind == 1) p.st with
    | none => raise { code := .divStack }
    | some i =>
      let m := match p.st[i]? with
        | some e => e.pmask
        | none => 0
      .ok ((p.withMask c (c.act ||| m)).entry i fun e => { e with pmask := 0 })

/-- The target is checked before the stack is (log 52). -/
def execCall (h : LaneHdr) (target : BitVec 30) (s : State) : Out :=
  control s (.call h target) true fun c k p => do
    k.target target.toNat
    let p ← p.push k { kind := 2, join := c.index + 1, jmask := c.act, path := 0, pmask := 0 }
    .ok (p.goto c target.toNat)

def execRet (h : LaneHdr) (s : State) : Out :=
  control s (.ret h) false fun c _ p =>
    match topmost (fun e => e.kind == 2) p.st with
    | none => raise { code := .divStack }
    | some i => .ok ((p.withMask c (c.act &&& ~~~c.en)).above i c.en)

/-- Lanes leave the block: their slot, every JMASK and every loop's PMASK (R223). -/
def Paths.exit (p : Paths) (c : LaneCtx) : Paths :=
  let p := p.withMask c (c.act &&& ~~~c.en)
  { p with st := p.st.map fun e =>
      { e with jmask := e.jmask &&& ~~~c.en, pmask := if e.kind = 1 then e.pmask &&& ~~~c.en else e.pmask } }

def execExit (h : LaneHdr) (s : State) : Out := control s (.exit h) false fun c _ p => .ok (p.exit c)

def execExitKill (h : LaneHdr) (s : State) : Out :=
  control s (.exitKill h) false fun c _ p => .ok { p.exit c with killed := p.killed ||| c.en }

/-! ## Yielding (R214, R226) -/

/-- The yield of a word's slot: an exchange with the next spilled path under the nap cursor, with the cursor it leaves;
none when no path is spilled (R226). -/
def Paths.exchange (p : Paths) (c : LaneCtx) (cursor : Option Nat) : Option (Paths × Nat) :=
  let below := match cursor with
    | some n => topmost (·.spilled) (p.st.take n)
    | none => none
  match below.or (topmost (·.spilled) p.st) with
  | none => none
  | some i => match p.st[i]? with
    | none => none
    | some e =>
      let x := p.lpc[c.slot]
      some ({ p with lpc := p.lpc.set c.slot (x.take e.path e.pmask) }.entry i fun e =>
        { e with path := x.index, pmask := x.mask }, i)

/-- The word yields its slot: to a spilled path, or f makes the slot wait (R226). -/
def State.yieldSlot (s : State) (c : LaneCtx) (f : State → State) : Act State :=
  match s.dstack c.g with
  | .error e => .error (.wait (s.areaWait c.g e))
  | .ok st =>
    let t := s.advance c
    match t.gang? c.g with
    | none => .ok t
    | some y =>
      match Paths.exchange { lpc := y.lpc, st := st, killed := y.killed } c y.napCursor with
      | none => .ok (f t)
      | some (p, i) => (t.setGang c.g { y with napCursor := some i }).putPaths c.g st p

def execNap (h : LaneHdr) (n : BitVec 16) (s : State) : Out :=
  laneIssue s (.nap h n) true fun c s =>
    s.yieldSlot c fun t => t.changeLpc c.g c.slot fun l => { l with wait := .nap (c.now + n.toNat + 1) }

/-- What the lanes of an `mwait` see: a lane's word differs from its operand, some lane's line has yet to be read from
another package, or failures. -/
structure MwaitScan where
  st : State
  differs : Bool
  errs : List (Fin 32 × MemOp × AccErr)
  far : Bool

/-- The lanes of an `mwait` in ascending order (R214). -/
def mwaitScan (g : Nat) (view : State → State) (lines : List (Nat × List Byte)) (n : Nat) (va want : Fin 32 → W64) :
    List (Fin 32) → MwaitScan → MwaitScan
  | [], r => r
  | l :: ls, r =>
    let seen (bs : List Byte) (s : State) : MwaitScan :=
      mwaitScan g view lines n va want ls { r with st := s, differs := r.differs || leNat bs != (want l).toNat }
    match r.st.strongView (r.st.who (.gang g)) view (va l) n with
    | .ok (bs, s) => seen bs s
    | .error (.remote x) => match r.st.lineSeen g lines x with
      | some bs => seen (bs.take n) r.st
      | none => { r with far := true }
    | .error e => mwaitScan g view lines n va want ls { r with errs := r.errs ++ [(l, .load (va l) n true none, e)] }

def execMwait (h : LaneHdr) (off : BitVec 16) (w64 : Bool) (a b c : Opd) (s : State) : Out :=
  laneIssue s (.mwait h off w64 a b c) false fun x s => do
    let s := s.skipChoice x.view
    let n := if w64 then 8 else 4
    let va := x.addr a b off
    x.checkVa n va
    holdUntil (s.inOrder x.g false && s.requestRoom) s x.g (.order false)
    match s.gang? x.g with
    | none => .ok s
    | some y =>
      let r := mwaitScan x.g (s.ownLoads x.g) y.lpc[x.slot].lines n va (x.wide w64 c) (maskLanes x.en)
        { st := s, differs := false, errs := [], far := false }
      if r.far then
        .error (.wait (r.st.askLines x.g x.slot .fabric
          (r.st.farLines x.g y.lpc[x.slot].lines ((maskLanes x.en).map fun l => (l, .load (va l) n true none)))))
      else
        let (id, t) := r.st.fresh
        if r.differs || !r.errs.isEmpty then .ok ((t.addVar x.g (x.pend { strong := true } id []) r.errs).advance x)
        else r.st.yieldSlot x fun t =>
          t.laneSleep x.g x.slot ((maskLanes x.en).map fun l => t.laneLine x.g (va l)).eraseDups

/-! ## Regions (R228) -/

def execRgn (h : LaneHdr) (s : State) : Out :=
  laneIssue s (.rgn h) true fun c s =>
    if !s.replayable c.g then .ok (s.advance c)
    else match s.gang? c.g, s.dstack c.g with
      | _, .error e => .error (.wait (s.areaWait c.g e))
      | none, .ok _ => .ok s
      | some y, .ok st => do
        holdUntil y.quiet s c.g .quiet
        require (!y.lpc[1 - c.slot].live && !st.any (·.spilled)) .divStack
        let t := s.commitHeld c.g
        if (t.gang? c.g).any Gang.uncommitted then .error (.wait (t.stallRun c.g .commit))
        else
          let t := t.advance c
          match t.gang? c.g with
          | none => .ok t
          | some z =>
            .ok (t.setGang c.g { z with region := 0,
                                        replay := some { index := c.index + 1, mask := c.act, depth := z.depth } })

end Sys2Proof.Machine
end

