-- ==== Sys2Proof/Machine/LaneRender.lean ====
section
/-! DEFINITION. The render words (R262 to R265, R269, R272 to R275, R279 to R286). -/

namespace Sys2Proof.Machine

/-! ## Pushes to the render unit (R265, R269, R282) -/

/-- The 64 bits of a scalar register as a word reads it. -/
def LaneCtx.sreg (c : LaneCtx) (i : Fin 32) : W64 := c.view.laneS c.g i

/-- The crew that issues a word. -/
def State.laneCrew (s : State) (c : LaneCtx) : Option Crew :=
  match s.gang? c.g with
  | some y => s.crew? y.crew
  | none => none

/-- One entry goes to the projection input: the indices of the enabled lanes and the job (R269). -/
def laneProject (s : State) (i : Instr) (point : Bool) (a : Opd) (b : Fin 32) : Out :=
  laneIssue s i false fun c s => do
    let s := s.skipChoice c.view
    let addr := c.sreg b
    c.check (fun _ => addr.toNat % 128 == 0) fun _ => { code := .align, va := addr }
    let cl := clusterOf (coreOf c.g)
    let u := s.cluster cl
    waitFor (decide (u.projQ.length < 16)) s
    match s.laneCrew c with
    | none => .ok s
    | some w =>
      let e : ProjEntry := { who := s.crewStarter w, items := (maskLanes c.en).map (c.opd a), addr := addr, point := point,
                             block := none, item := none }
      .ok ((s.setCluster cl { u with projQ := u.projQ ++ [e] }).advance c)

def execGproj (h : LaneHdr) (d : QReg) (a : Opd) (b : Fin 32) (s : State) : Out :=
  laneProject s (.gproj h d a b) false a b

def execPproj (h : LaneHdr) (d : QReg) (a : Opd) (b : Fin 32) (s : State) : Out :=
  laneProject s (.pproj h d a b) true a b

/-- A `trace` of the core's cluster has issued whose entry is still to be pushed: a later one waits behind it (R78,
R425). -/
def State.tracing (s : State) (core : Nat) : Bool :=
  s.gangs.any fun e => clusterOf (coreOf e.1) == clusterOf core && e.2.var.any fun v => !v.traces.isEmpty && v.far

/-- The checks of a `trace` at issue, and its wait for the traversal input (R264, R265, R282). -/
def traceCheck (pb : Fin 64) (lev : Opd) (x : LaneCtx) (s : State) : Act Unit := do
  let k := s.kernel (.gang x.g)
  x.check (fun n => k.all fun k => decide ((x.opd lev n).toNat < k.depth)) fun _ => { code := .traceDepth }
  x.check (fun _ => pb.val % 4 == 0 && k.all fun k => decide (pb.val ≤ k.payload)) fun _ => { code := .payload }
  waitFor (decide ((s.cluster (clusterOf (coreOf x.g))).travQ.length < 16) && !s.tracing (coreOf x.g)) s

def execTrace (h : LaneHdr) (pb : Fin 64) (d : QReg) (a : Opd) (b : Fin 32) (c : Opd) (s : State) : Out :=
  laneVar s (.trace h pb d a b c) (fun _ => { strong := true }) (traceCheck pb c) fun x _ n =>
    .trace (x.sreg b) (x.opd a n) (x.opd c n) pb.val

/-! ## Splats (R272 to R274) -/

def execGeval (h : LaneHdr) (d : VReg) (a b : Opd) (s : State) : Out :=
  laneVar s (.geval h d a b) (fun _ => {}) (fun c _ => c.checkAlign 4 (c.opd64 a)) fun c _ n =>
    .geval (c.opd64 a n) (c.opd b n) d

/-- A group of eight or sixteen registers in a lane (R263). -/
def LaneCtx.grp8 (c : LaneCtx) (r : VReg) (n : Fin 32) : Vector W32 8 := Vector.ofFn fun i => c.grp r i.val n
def LaneCtx.grp16 (c : LaneCtx) (r : VReg) (n : Fin 32) : Vector W32 16 := Vector.ofFn fun i => c.grp r i.val n

def execGblend (h : LaneHdr) (vp : PReg) (d : VReg) (a b : Opd) (s : State) : Out :=
  laneVar s (.gblend h vp d a b) (fun _ => {}) (fun c _ => c.checkAlign 4 (c.opd64 b)) fun c _ n =>
    .gblend (c.opd64 b n) (c.opd a n) (c.grp8 d n) d vp

/-- Six free values (log 17). -/
def State.freeSix (s : State) : Vector W32 6 × State :=
  (Vector.ofFn fun i => BitVec.ofNat 32 (Config.freeBits (s.choice + i.val)), { s with choice := s.choice + 6 })

/-- The effects of a `gback`: of two groups that are one, the registers that both write hold free values (log 17). -/
def backOps (c : LaneCtx) (vp : PReg) (d : VReg) (a b : Opd) (r : VReg) : List (Fin 32) → State →
    List (Fin 32 × MemOp) × State
  | [], s => ([], s)
  | n :: ns, s =>
    let (z, t) := s.freeSix
    let (mix, s) := if d = r then (some z, t) else (none, s)
    let (l, s) := backOps c vp d a b r ns s
    ((n, .gback (c.opd64 a n) (c.opd b n) (c.grp16 r n) d r vp mix) :: l, s)

def execGback (h : LaneHdr) (vp : PReg) (d : VReg) (a b : Opd) (c : VReg) (s : State) : Out :=
  laneMany s (.gback h vp d a b c) (fun _ => {}) (fun x _ => x.checkAlign 4 (x.opd64 a)) fun x s =>
    backOps x vp d a b c (maskLanes x.en) s

/-! ## Gradients and pixels (R275, R285) -/

/-- The terms of a mask in ascending order. -/
def termsOf (m : BitVec 16) : List Nat := (List.range 16).filter fun t => m.getLsbD t

def execGscat (h : LaneHdr) (tmask : BitVec 16) (fx : Bool) (p : Fin 64) (a : Opd) (c : VReg) (s : State) : Out :=
  let size := if fx then 8 else 4
  laneMany s (.gscat h tmask fx p a c)
    (fun x => { strong := true, held := some (maskCount x.en * (termsOf tmask).length * size) })
    (fun x _ => x.checkAlign (16 * size) (x.opd64 a)) fun x s =>
    ((maskLanes x.en).flatMap fun n => (termsOf tmask).map fun t =>
      let va := x.opd64 a n + BitVec.ofNat 64 (size * t)
      let v := x.grp c t n
      (n, if fx then .fx va (fx64OfF32 .rne p.val v) p.val none else .red .fadd false va (v.setWidth 64)), s)

def execFbw (h : LaneHdr) (off : BitVec 16) (f : PixelFmt) (a b : Opd) (c : VReg) (s : State) : Out :=
  laneVar s (.fbw h off f a b c) (fun x => { held := some (maskCount x.en * pixelSize f) })
    (fun x _ => x.checkAlign (pixelSize f) (x.addr a b off)) fun x _ n =>
    .store (x.addr a b off n) false (pixelBytes f (x.grp c 0 n) (x.grp c 1 n) (x.grp c 2 n) (x.grp c 3 n))

/-! ## Rays (R276 to R284) -/

def execRpush (h : LaneHdr) (d : Opd) (a : Fin 32) (s : State) : Out :=
  laneVar s (.rpush h d a) (fun _ => { strong := true }) (fun _ _ => .ok ()) fun c _ _ => .rpush (c.sreg a) (dstOf d)

def execRpop (h : LaneHdr) (a : Fin 32) (b : Opd) (s : State) : Out :=
  laneVar s (.rpop h a b) (fun _ => { strong := true }) (fun _ _ => .ok ()) fun c _ n => .rpop (c.sreg a) (c.opd b n)

def execRgen (h : LaneHdr) (a : Fin 32) (b c : Opd) (s : State) : Out :=
  laneVar s (.rgen h a b c) (fun _ => { strong := true }) (fun _ _ => .ok ()) fun x _ n =>
    .rgen (x.sreg a) (x.opd b n) (x.opd c n)

/-- The checks of a ray word's field: an even WORD for a pair, then its range (R264, R280). -/
def checkRayWord (c : LaneCtx) (word : Fin 32) (w64 store : Bool) : Act Unit := do
  let last := word.val + if w64 then 1 else 0
  c.check (fun _ => !(w64 && word.val % 2 == 1)) fun _ => { code := .align }
  c.check (fun _ => decide (last < 24) && !(store && decide (9 ≤ last) && decide (word.val ≤ 14))) fun _ =>
    { code := .range }

def execRayld (h : LaneHdr) (word : Fin 32) (w64 : Bool) (d : Opd) (a : Fin 32) (b : Opd) (s : State) : Out :=
  laneVar s (.rayld h word w64 d a b) (fun _ => {}) (fun c _ => checkRayWord c word w64 false) fun c _ n =>
    .rayld (c.sreg a) (c.opd b n) word.val (if w64 then 8 else 4) (backTo d (if w64 then .w64 else .w32))

def execRayst (h : LaneHdr) (word : Fin 32) (w64 : Bool) (a : Fin 32) (b c : Opd) (s : State) : Out :=
  laneVar s (.rayst h word w64 a b c) (fun _ => {}) (fun x _ => checkRayWord x word w64 true) fun x _ n =>
    .rayst (x.sreg a) (x.opd b n) word.val (x.data c (if w64 then 8 else 4) n)

/-- What the lanes of a `hitq` come to. -/
structure HitScan where
  st : State
  /-- two entries for a lane: at its number {PRIM, HITT}, at its number plus 32 {word 9, INST} -/
  got : List (Nat × W64)
  errs : List (Fin 32 × MemOp × AccErr)
  /-- lines of other packages that have yet to be read -/
  far : List FarLane
  /-- the lane whose ray is in flight -/
  stop : Option (Fin 32)

/-- The results of a ray that is done as two words. -/
def hitWords (n : Fin 32) (r : List Res) : List (Nat × W64) :=
  match r with
  | [a, b, c, d] => [(n.val, b.2 ++ a.2), (n.val + 32, d.2 ++ c.2)]
  | _ => []

/-- The lanes in ascending order, up to the first whose ray is in flight (R284). -/
def hitScan (w : Who) (view : State → State) (op : Fin 32 → MemOp) : List (Fin 32) → HitScan → HitScan
  | [], r => r
  | n :: ns, r =>
    if r.got.any fun e => e.1 == n.val then hitScan w view op ns r
    else match r.st.performIn w view (op n) with
      | .ok (s, x) => hitScan w view op ns { r with st := s, got := r.got ++ hitWords n x }
      | .error .wait => { r with stop := some n }
      | .error (.remote x) => hitScan w view op ns { r with far := r.far ++ [(n, op n, x)] }
      | .error e => hitScan w view op ns { r with errs := r.errs ++ [(n, op n, e)] }

/-- The results that a scan has gathered for the group at d. -/
def hitResults (d : VReg) (got : List (Nat × W64)) : List (Fin 32 × Res) :=
  got.flatMap fun e =>
    let r := vplus d (if e.1 < 32 then 0 else 2)
    let v : W64 := e.2
    let n : Fin 32 := Fin.ofNat 32 (e.1 % 32)
    [(n, (.v r, v.setWidth 32)), (n, (.v (vplus r 1), (v >>> 32).setWidth 32))]

/-- The address of a ray's record. -/
def State.rayVa (s : State) (w : Who) (pool : W64) (i : W32) : W64 :=
  match s.pool w pool with
  | .ok (p, _) => p.recAt i
  | .error _ => pool

/-- The lines of other packages that have been read for the waiting word of a slot, as what its reader has learned (R229,
R425). -/
def State.slotPeers (s : State) (g : Nat) (slot : Fin 2) (lines : List (Nat × List Byte)) : List PeerData :=
  lines.map fun e =>
    { by_ := .slot g slot.val, home := e.1 / 2 ^ 35, line := e.1 % 2 ^ 35, ask := none,
      data := (ownView (s.ownEffects g) (e.1 / 2 ^ 35, e.1 % 2 ^ 35, e.2)).2.2 }

def execHitq (h : LaneHdr) (d : VReg) (a : Fin 32) (b : Opd) (s : State) : Out :=
  laneIssue s (.hitq h d a b) false fun c s => do
    let s := s.skipChoice c.view
    holdUntil (s.inOrder c.g false && s.requestRoom) s c.g (.order false)
    match s.gang? c.g with
    | none => .ok s
    | some y =>
      let l := y.lpc[c.slot]
      let w := { s.who (.gang c.g) with reader := some (.slot c.g c.slot.val) }
      let r := hitScan w (s.ownLoads c.g) (fun n => .hitq (c.sreg a) (c.opd b n) d) (maskLanes c.en)
        { st := { s with peer := s.slotPeers c.g c.slot l.lines }, got := l.got, errs := [], far := [], stop := none }
      let t := { r.st with peer := s.peer }
      match r.far, r.stop with
      | [], some n =>
        let t := t.changeLpc c.g c.slot fun l => { l with got := r.got, lines := [] }
        .error (.wait (t.laneSleep c.g c.slot [s.laneLine c.g (r.st.rayVa w (c.sreg a) (c.opd b n))]))
      | [], none =>
        let (id, t) := t.fresh
        .ok ((t.addVar c.g (c.pend { strong := true } id (laneWrites (hitResults d r.got))) r.errs).advance c)
      | _ :: _, _ =>
        let t := t.changeLpc c.g c.slot fun l => { l with got := r.got }
        .error (.wait (t.askLines c.g c.slot .device r.far))

end Sys2Proof.Machine
end

