-- ==== Sys2Proof/Machine/Issue.lean ====
section
/-!
DEFINITION. The lane sequencer's own events: dispatched blocks (R21, R135, R388), issue slots (R366 to R368), results that
land (R59), `nap`, line monitors (R226, R292) and the delivery of late faults (R205, R378).
-/

namespace Sys2Proof.Machine

/-! ## Blocks (R21, R135, R388) -/

/-- The arm attached to a block that starts (R135). -/
def Arm.attached (a : Arm) : Arm := { a with active := true, left := a.count.toNat - 1 }

/-- The first word that a block executes: its body is passed over for a count of 0 (R135). -/
def Dispatch.first (d : Dispatch) (arm : Option Arm) : Nat :=
  match arm with
  | some a => if d.arm && a.count == 0 then d.index + a.len else d.index
  | none => d.index

/-- The gang with its oldest dispatched block in LPC0, every lane that has not exited being active (R21). The block's
start is a replay point (R388). -/
def Gang.startBlock (y : Gang) (d : Dispatch) (rest : List Dispatch) : Gang :=
  let mask := ~~~y.killed
  let l : Lpc := { Lpc.off with live := true, index := d.first y.arm, mask := mask, fresh := true }
  { y with queue := rest, lpc := y.lpc.set 0 l, arm := if d.arm then y.arm.map Arm.attached else y.arm, region := 0,
           replay := some { index := d.index, mask := mask, depth := 0 } }

/-- The lane sequencer takes the oldest entry of a gang's dispatch queue when neither slot is live (R21). A block without
lanes ends at once (log 32). -/
def execLaneDispatch (g : Nat) (s : State) : Out :=
  match s.gang? g with
  | none => .next s
  | some y =>
    if !s.gangIssues g false || y.sc.mode == some .trap || y.lpc.any (·.live) || y.depth != 0 then .next s
    else match y.queue with
      | [] => .next s
      | d :: rest =>
        let z := y.startBlock d rest
        if y.killed = BitVec.allOnes 32 then
          .next ((s.setGang g { z with lpc := Vector.replicate 2 Lpc.off }).endBlock g)
        else .next (s.setGang g z)

/-! ## Issue slots (R366 to R368) -/

/-- The endpoint of a queue accepts a push (R28, R78, R260, R265). -/
def State.pushRoom (s : State) (g : Nat) (y : Gang) (q : QReg) : Bool :=
  let u := s.cluster (clusterOf (coreOf g))
  match (y.bound q).1 with
  | 2 => decide (u.projQ.length < 16)
  | 3 => decide (u.travQ.length < 16) && !s.tracing (coreOf g)
  | 4 => decide (u.mailbox.length < 16)
  | _ => true

/-- The queues of a word are ready: it pops and pushes none whose endpoint is not (R63, R78). A word that a fault stops,
or that no lane enables, meets none (R67, R68); nor does one whose unit is fenced, which issues to raise OWNER (R488). -/
def State.queuesReady (s : State) (g : Nat) (y : Gang) (l : Lpc) (i : Instr) (li : LaneInfo) : Bool :=
  (s.laneFault g y l.index i li).isSome || guardLanes s g li.hdr l.mask == 0 || s.fencedQueue y g li
    || (s.popAll g y li.pops).isSome && (match li.push with
      | some q => s.pushRoom g y q
      | none => true)

/-- A slot's next word passes the issue test of R59 to R63; one past the last word, or that cannot be fetched or decoded,
issues to raise its fault (R144). -/
def State.slotReady (s : State) (g : Nat) (y : Gang) (k : Kernel) (n : Fin 2) : Bool :=
  let now := s.clk.arith
  let l := y.lpc[n]
  let waits : Bool := match l.wait with
    | .none => false
    | .nap t => decide (now < t)
    | .asleep | .polling | .remote _ => true
  l.live && decide (l.earliest ≤ now) && !waits && !(l.fresh && y.fix.any fun f => decide (now < f.landAt)) &&
    (decide (k.laneCount ≤ l.index) || match s.fetchLane (.gang g) (.slot g n.val) (k.laneAt l.index) with
    | .error _ => true
    | .ok (w, _) => match decodeLane w with
      | .error _ => true
      | .ok i => match i.laneInfo with
        | none => true
        | some li => ((List.range 6).all fun t => !li.hdr.wm.getLsbD t || y.token (t + 1) == 0)
            && y.token li.hdr.st.val != 63 && s.queuesReady g y l i li)

/-- The gang is eligible for an issue slot of its core (R366). -/
def State.eligible (s : State) (core g : Nat) (y : Gang) : Bool :=
  match s.kernel (.gang g) with
  | none => false
  | some k =>
    coreOf g == core && !(s.core core).issue.toList.contains (some g) && s.gangIssues g false && !y.faultDue
      && y.sc.mode != some .trap && match y.run with
        | some r => r.waiting && r.stall.all (s.stallOver g y) && s.slotReady g y k r.slot
        | none => s.slotReady g y k 0 || s.slotReady g y k 1

/-- The eligible gang that wins (R368). -/
def State.issueWinner (s : State) (core : Nat) : Option (Nat × Gang) :=
  s.bestOf (·.promoted) (s.gangs.filter fun e => s.eligible core e.1 e.2)

/-- The run of a winning gang: the one that waited, or a new one from the slot that did not start its previous run, or
else from the other (R367). -/
def State.newRun (s : State) (g : Nat) (y : Gang) : Run :=
  match y.run with
  | some r => { r with waiting := false, stall := none }
  | none =>
    let other : Fin 2 := 1 - y.lastSlot
    let ready := match s.kernel (.gang g) with
      | some k => s.slotReady g y k other
      | none => false
    { slot := if ready then other else y.lastSlot, words := 0, waiting := false }

/-- A lost arbitration; at 4,096 of them the gang is promoted, as number n (R368). -/
def Gang.loses (y : Gang) (n : Nat) : Gang :=
  { y with lost := y.lost + 1, promoted := if y.promoted.isNone && y.lost + 1 == 4096 then some n else y.promoted }

/-- A free issue slot of a core is arbitrated (R366, R368). -/
def execIssueSlotArbitration (core slot : Nat) (s : State) : Out :=
  if slot < 4 ∧ (s.core core).issue.toList.getD slot none = none then
    match s.issueWinner core with
    | none => .next s
    | some (g, y) =>
      let (n, t) := s.fresh
      let t : State := { t with gangs := s.gangs.map fun e =>
        if e.1 != g && s.eligible core e.1 e.2 then (e.1, e.2.loses n) else e }
      let t := t.setGang g { y with run := some (s.newRun g y), lost := 0, promoted := none }
      let u := t.core core
      .next (t.setCore core { u with issue := (Vector.ofFn fun (i : Fin 4) => if i.val = slot then some g else u.issue[i]) })
  else .next s

/-! ## Results, `nap` and monitors -/

/-- The fixed-latency results of a gang that are due land (R59, R64). -/
def execResultLanding (g : Nat) (s : State) : Out := .next (s.landFix g s.clk.arith)

/-- The slot's `nap` is over (R226). -/
def execNapExpiry (g slot : Nat) (s : State) : Out :=
  .next (s.slotWait g slot fun w => match w with
    | .nap t => if t ≤ s.clk.arith then .none else .nap t
    | w => w)

/-- The waiter has an armed monitor. -/
def State.armedFor (s : State) (w : Waiter) : Bool := (s.core (waiterCore w)).monitors.any fun e => e.1 == w

/-- A monitor of the waiter fires: its monitors are disarmed and it wakes. A monitor may fire without a change (R292). -/
def execMonitorFire (w : Waiter) (s : State) : Out :=
  if s.armedFor w then
    .next (s.fireWaiter w)
  else .next s

/-- The waiter waits without a monitor on every line (R292). -/
def State.polls (s : State) (w : Waiter) : Bool :=
  match w with
  | .scalar g => (s.sctx (.gang g)).any fun c => c.wait == .polling
  | .pilot cl => (s.sctx (.pilot cl)).any fun c => c.wait == .polling
  | .lane g n => (s.gang? g).any fun y => (y.lpc.toList[n]?).any fun l => l.wait == .polling

/-- A waiter that polls checks again (R292). -/
def execMonitorPollTimer (w : Waiter) (s : State) : Out := .next (if s.polls w then s.fireWaiter w else s)

/-! ## Late faults (R205, R378) -/

/-- Every late fault of a gang is due. -/
def Gang.allDue (y : Gang) (late : List LateFault) : Gang :=
  { y with late := late.map fun f => { f with due := true } }

/-- The late fault of the word that issued first. -/
def Gang.firstLate (y : Gang) : Option LateFault := (sortBy (·.no) y.late).head?

/-- The late fault of the word that issued first is delivered, and the others are due after it (R378). A DEMAND fault of a
replayable crew may stop the crew for a kill instead (R305). -/
def execTrapDelivery (g slot : Nat) (s : State) : Out :=
  match s.gang? g with
  | none => .next s
  | some y =>
    if !s.gangIssues g false || !y.faultDue || !y.mayTrap then .next s
    else match y.firstLate with
      | none => .next s
      | some f =>
        if f.slot.val != slot then .next s
        else match s.demandStop (.gang g) f.trap with
          | some t => .next t
          | none =>
            let t := (s.setGang g (y.allDue (y.late.erase f))).runWaits g
            .next (t.takeTrap (.gang g) f.trap
              { faddr := BitVec.ofNat 64 f.index, sres := y.sc.pc, lane := some (f.slot, y.lpc[f.slot].index),
                redo := f.ops })

end Sys2Proof.Machine
end

