-- ==== Sys2Proof/Machine/Member.lean ====
section
/-! DEFINITION. A collective at a member: its descriptor (R429, R430), its chunks (R431) and its completion (R435, R487). -/

namespace Sys2Proof.Machine

/-! ## Descriptors (R429, R430) -/

/-- The fields of word 0x18. -/
def collFirst (w : W64) : Nat := fld w.toNat 52 12
def collLast (w : W64) : Nat := fld w.toNat 40 12
def collPort (w : W64) : Nat := fld w.toNat 36 4
def collOpc (w : W64) : Nat := fld w.toNat 32 4
def collTy (w : W64) : Nat := fld w.toNat 30 2
def collRank (w : W64) : Nat := fld w.toNat 0 16

/-- Word 0x18, CID, COUNT and TOUT of a descriptor. -/
def collWord (d : List Byte) : W64 := word64 (d.drop 0x18)
def collCid (d : List Byte) : Nat := fieldAt d 0x14 4
def collCount (d : List Byte) : Nat := fieldAt d 0x10 4
def collTout (d : List Byte) : W32 := word32 (d.drop 0x24)

/-- Bytes of an element. -/
def collSize (w : W64) : Nat := 4 * 2 ^ collTy w

/-- OP and TY form a pair of R432. -/
def collPair (op ty : Nat) : Bool :=
  match op with
  | 0 | 1 | 2 => decide (ty ≤ 1)
  | 3 => ty == 0
  | 4 => ty == 2
  | 5 => decide (ty ≤ 2)
  | _ => false

/-- A descriptor that `xcol` refuses (R430). -/
def State.collBad (s : State) (d : List Byte) : Bool :=
  let w := collWord d
  let n := collLast w + 1 - collFirst w
  fld w.toNat 16 14 != 0 || fieldAt d 0x20 4 != 0 || fld (fieldAt d 0x28 4) 4 28 != 0
    || collCount d == 0 || decide (2 ^ 24 < collCount d) || decide (collLast w < collFirst w)
    || decide (s.ident.pkg < collFirst w) || decide (collLast w < s.ident.pkg)
    || !s.presentPorts.contains (collPort w) || !collPair (collOpc w) (collTy w)
    || fieldAt d 0 8 % collSize w != 0 || fieldAt d 8 8 % collSize w != 0
    || (collOpc w == 4 && decide (64 < n)) || (collOpc w == 5 && collRank w != 0 && fieldAt d 0 8 == 0)

/-! ## A member's chunks (R431) -/

/-- Elements of a chunk, and chunks of a collective. -/
def chunkElems (w : W64) : Nat := 960 / collSize w
def collChunks (d : List Byte) : Nat := ceilDiv (collCount d) (chunkElems (collWord d))

/-- Where chunk c begins in a buffer, and its bytes. -/
def chunkOff (w : W64) (c : Nat) : Nat := c * chunkElems w * collSize w
def chunkLen (d : List Byte) (c : Nat) : Nat :=
  min (chunkElems (collWord d)) (collCount d - c * chunkElems (collWord d)) * collSize (collWord d)

/-- The engine accesses of a collective (R487). -/
def collUnit (x : Coll) : UnitOp :=
  { who := x.who, cl := clusterOf (coreOf x.crew),
    src := { die := dieOf (clusterOf (coreOf x.crew)), from_ := 0, unit := 0 }, reader := .coll (collCid x.desc) }

/-- The packet of a chunk, filled with zeros to a multiple of 8 bytes (R423). A member of a COPY that supplies nothing sends
no bytes (R431, R432). -/
def State.ctbPacket (s : State) (d : List Byte) (c : Nat) (bs : List Byte) : FabPacket :=
  { s.packet s.ident.pkg .ctb (padTo 8 bs) with
    pa := collCid d * 2 ^ 32 + c, tout := collTout d, aux2 := collWord d, sw := s.ident.pkg / 64 }

/-- The chunk has been answered. -/
def Coll.answered (x : Coll) (c : Nat) : Bool := x.answers.any fun e => e.1 == c

/-- The member may send its next chunk: a chunk is left, and the one eight before it has been answered (R431). -/
def Coll.maySend (x : Coll) : Bool :=
  !x.dead && decide (x.sent < collChunks x.desc) && (decide (x.sent < 8) || x.answered (x.sent - 8))

/-- Every chunk has been answered (R435). -/
def Coll.complete (x : Coll) : Bool := (List.range (collChunks x.desc)).all x.answered

/-- The steps of a completion: DBUF, then CSTAT, NANC and MISS, then CSEQ (R435). -/
def Coll.steps (x : Coll) : List UnitStep :=
  let w := collWord x.desc
  let st := (x.answers.map fun e => e.2.1).foldl max 0
  x.answers.flatMap (fun e => putSteps 8 (word64 (x.desc.drop 8) + BitVec.ofNat 64 (chunkOff w e.1))
      (e.2.2.take (chunkLen x.desc e.1)))
    ++ [.put (x.addr + 0x28) (leBytes 4 st ++ leBytes 4 (x.nanc % 2 ^ 32) ++ bytes64 x.miss),
        .add (x.addr + 0x38) 8 1 false]

/-- A chunk leaves at the descriptor's port. -/
def State.emitChunk (s : State) (x : Coll) (bs : List Byte) : Coll × State :=
  ({ x with sent := x.sent + 1 }, s.sendAt (collPort (collWord x.desc)) (s.ctbPacket x.desc x.sent bs))

/-- A failed access of a collective is a PAGE fault, whatever its cause (R487). -/
def collCode : Code → Code
  | .ecc => .ecc
  | _ => .page

/-- How far a member's collective goes on by itself. -/
inductive CollEnd where
  | goes (x : Coll) (s : State)
  | waits (x : Coll) (s : State)
  | over (s : State)
  deriving DecidableEq, Repr

/-- One step of a member's collective: a chunk is read and sent, or its completion goes on. A read that fails ends the
sending, and a write that fails the completion; CSTAT, NANC and MISS are written behind the whole of DBUF (R431, R435,
R487). -/
def State.collStep (s : State) (x : Coll) : CollEnd :=
  let o := collUnit x
  let w := collWord x.desc
  if x.maySend then
    if collOpc w = 5 ∧ collRank w = 0 then
      let r := s.emitChunk x []
      .goes r.1 r.2
    else match s.tryAct o (s.unitLoad o (word64 x.desc + BitVec.ofNat 64 (chunkOff w x.sent)) (chunkLen x.desc x.sent)) with
      | .done (bs, s) =>
        let r := s.emitChunk x bs
        .goes r.1 r.2
      | .waits s => .waits x s
      | .demand _ => .goes { x with dead := true } (s.unitReport o .page)
      | .fails c => .goes { x with dead := true } (s.unitReport o (collCode c))
  else match x.work with
    | none => if x.complete then .goes { x with work := some x.steps } s else .waits x s
    | some [] => if s.peerWaits o.reader then .waits x s else .over s
    | some (y :: l) =>
      if l.length = 1 ∧ s.peerWaits o.reader then .waits x s
      else match s.tryStep o y with
        | .done s => .goes { x with work := some l } s
        | .waits s => .waits x s
        | .demand _ => .over (s.unitReport o .page)
        | .fails c => .over (s.unitReport o (collCode c))

/-- A collective, which is in no list, goes on until it must wait: at most n steps. -/
def State.collRun (s : State) (x : Coll) : Nat → State
  | 0 => { s with colls := s.colls ++ [x] }
  | n + 1 => match s.collStep x with
    | .goes x s => State.collRun s x n
    | .waits x s => { s with colls := s.colls ++ [x] }
    | .over s => s

/-- More steps than a collective takes at once. -/
def Coll.fuel (x : Coll) : Nat := 9 * x.answers.length + 32

/-- A collective of this package goes on. -/
def State.collMore (s : State) (x : Coll) : State := { s with colls := s.colls.erase x }.collRun x x.fuel

end Sys2Proof.Machine
end

