-- ==== Sys2Proof/Machine/Answers.lean ====
section
/-!
DEFINITION. What packets from other packages bring: answers to requests, errors, notices, weight and reservations (R418,
R421, R424 to R428).
-/

namespace Sys2Proof.Machine

/-! ## The ingress (R418) -/

/-- A packet that the ingress has handed on is taken: a control packet only when no earlier one of its stream is left. -/
def State.take (s : State) (k : FabPacket) (op : Opc) : Option State :=
  let first := !k.control || (s.ingress.find? fun p => p.control && p.spkg == k.spkg) == some k
  if k.opc = op.num ∧ s.ingress.contains k ∧ first then some { s with ingress := s.ingress.erase k } else none

/-- A packet is handled when it is at hand. -/
def withPacket (s : State) (k : FabPacket) (op : Opc) (f : State → State) : Out :=
  match s.take k op with
  | none => .next s
  | some t => .next (f t)

/-- An answer with the number of its request. -/
def State.answer (s : State) (k : FabPacket) (op : Opc) (payload : List Byte) : State :=
  s.send { s.packet k.spkg op payload with rid := k.rid }

/-- An `ERR` answer with a cause (R424). -/
def State.refuseWith (s : State) (k : FabPacket) (cause : Nat) : State := s.answer k .err (leBytes 8 cause)

/-- A packet is discarded and counted (R424). -/
def State.discard (s : State) : State := { s with harbour := { s.harbour with discards := s.harbour.discards + 1 } }

/-! ## Requests that end -/

/-- The outstanding request that a packet answers. -/
def State.asked (s : State) (k : FabPacket) : Option Req := s.reqs.find? fun r => r.rid == k.rid && r.dst == k.spkg

/-- A request is no longer outstanding. -/
def State.dropReq (s : State) (r : Req) : State :=
  { s with reqs := s.reqs.filter fun q => !(q.rid == r.rid && q.dst == r.dst) }

/-- The stream still waits for the request: what its wait becomes with the answer. -/
def ScalarWait.answeredBy (w : ScalarWait) (rid : Nat) (bs : List Byte) : Option ScalarWait :=
  match w with
  | .remote id => if id = rid then some (.answered bs) else none
  | .casOut id line => if id = rid then some (.casBack line bs) else none
  | .fbar => some (.fbarDone (word64 bs))
  | _ => none

/-- The stream waits for an answer of another package. -/
def ScalarWait.awaits (w : ScalarWait) (rid : Nat) : Bool := (w.answeredBy rid []).isSome || w.awaitsGrant

/-- Pending operation id of a gang, changed. -/
def State.changeVar (s : State) (g id : Nat) (f : VarPend → VarPend) : State :=
  match s.gang? g with
  | none => s
  | some y => s.setGang g { y with var := y.var.map fun v => if v.id = id then f v else v }

/-- A pending operation whose last answer has come has its results (R61). -/
def VarPend.settled (v : VarPend) : VarPend := if v.remote.isEmpty then { v with writes := v.results, reads := [] } else v

/-- A pending operation that request r is no longer out for. -/
def VarPend.without (v : VarPend) (rid : Nat) : VarPend := { v with remote := v.remote.filter (· != rid) }

/-- The old values of an answered group of atomics, by lane (R424). -/
def atomResults (ops : List (Fin 32 × MemOp)) (bs : List Byte) : List (Fin 32 × Res) :=
  (ops.zipIdx 0).flatMap fun e =>
    let d : Option Back := match e.1.2 with
      | .atom _ _ _ _ _ d | .fx _ _ _ d => d
      | _ => none
    (backRes d (word64 (bs.drop (8 * e.2)))).map fun r => (e.1.1, r)

/-- A pending operation with the answer of request r. -/
def VarPend.withAnswer (v : VarPend) (r : Req) (bs : List Byte) : VarPend :=
  let v := v.without r.rid
  VarPend.settled
    (if r.packet.opc = Opc.rd.num then { v with got := v.got ++ [(r.dst, r.line, bs)] }
     else if r.packet.opc = Opc.atm.num then { v with writes := joinWrites v.writes (laneWrites (atomResults r.ops bs)) }
     else v)

/-- The copy of a cluster with an id, changed. -/
def State.changeCopy (s : State) (cl id : Nat) (f : Copy → Copy) : State :=
  let u := s.cluster cl
  s.setCluster cl { u with copies := u.copies.map fun c => if c.id = id then f c else c }

/-- FLAG follows an acknowledged LAG bit, and the instance may end (R440). -/
def State.lagDone (s : State) (pa m : Nat) (on : Bool) : State := (s.putFlag pa m on).endInstance pa

/-- The LAG bit of a queue of a gang of this package could not be changed where the queue lies, which the gang's package
reports (R440). A member in another package has reported its own failure. -/
def State.lagLost (s : State) (who : Option Starter) (r : Req) (c : Code) : State :=
  if r.packet.opc = Opc.red.num then s.lagReport who c else s

/-- What an atomic's packet asks, from n entries (R424). -/
def entryAsks : Nat → List Byte → List (Nat × W64 × W64)
  | 0, _ => []
  | n + 1, bs =>
    if bs.isEmpty then [] else (fld (fieldAt bs 0 8) 8 7, word64 (bs.drop 8), word64 (bs.drop 16)) :: entryAsks n (bs.drop 24)

/-- What a packet asks of a line. -/
def packetAsk (p : FabPacket) : Ask := (p.aop, entryAsks 40 p.payload)

/-- What a reader has learned by the answer to its request: a line, or the old values of its atomic. -/
def Req.learned (r : Req) (by_ : Reader) (bs : List Byte) : PeerData :=
  { by_ := by_, home := r.dst, line := r.line, data := bs,
    ask := if r.packet.opc = Opc.atm.num then some (packetAsk r.packet) else none }

/-- The operations of word `var` of a gang on rays of other packages go on, where any are left. -/
def State.goWord (s : State) (g var : Nat) : State :=
  match (s.gang? g).bind fun y => y.var.find? fun v => v.id == var with
  | some v => if v.rays.isEmpty then s else s.goRays g v
  | none => s

/-- A reader's request has been answered. -/
def State.peerAnswer (s : State) (r : Req) (by_ : Reader) (bs : List Byte) : State :=
  let s := match by_, decide (r.packet.opc = Opc.rd.num), decide (r.packet.opc = Opc.atm.num) with
    | .word g v, _, true => s.swapAnswer g v r (packetAsk r.packet) bs
    | _, true, _ | _, _, true => { s with peer := s.peer ++ [r.learned by_ bs] }
    | _, false, false => s
  match by_ with
  | .word g v => (s.changeVar g v fun x => (x.without r.rid).settled).goWord g v
  | .scalar _ | .slot _ _ | .proj _ | .trav _ _ | .travIn _ | .sort _ | .gen _ _ | .copy _ _ | .coll _ | .queue _
  | .header _ | .ctx _ | .area _ => s

/-- The wait of a slot without request rid, with what the answer brought. -/
def Lpc.without (l : Lpc) (rid : Nat) (got : List (Nat × List Byte)) : Lpc :=
  match l.wait with
  | .remote ids =>
    if ids.contains rid then
      { l with wait := if (ids.erase rid).isEmpty then .none else .remote (ids.erase rid), lines := l.lines ++ got }
    else l
  | _ => l

/-- A slot of a gang, changed. -/
def State.changeSlot (s : State) (g n : Nat) (f : Lpc → Lpc) : State :=
  match s.gang? g with
  | none => s
  | some y => s.setGang g { y with lpc := Vector.ofFn fun (i : Fin 2) => if i.val = n then f y.lpc[i] else y.lpc[i] }

/-- An answer reaches whom its request was for (R425). -/
def State.deliver (s : State) (r : Req) (bs : List Byte) : State :=
  let s := s.dropReq r
  match r.for_ with
  | .scalar a => match s.sctx a with
    | none => s
    | some c => match c.wait.answeredBy r.rid bs with
      | some w => s.setWait a w
      | none => s
  | .lane g id => s.changeVar g id fun v => v.withAnswer r bs
  | .slot g n => s.changeSlot g n fun l => l.without r.rid [(r.dst * 2 ^ 35 + r.line, bs)]
  | .copy cl id =>
    if r.packet.opc = Opc.rd.num then
      s.changeCopy cl id fun c => { c with part := c.part.map fun x => { x with line := some bs } }
    else s
  | .lag pa m on => s.lagDone pa m on
  | .relay pkg rid _ => s.send { s.packet pkg .atr (bytes64 0) with rid := rid }
  | .peer by_ => s.peerAnswer r by_ bs
  | .store _ _ | .unit _ | .nobody => s

/-! ## Requests that fail -/

/-- The lanes of a request, as a trap record names them. -/
def Req.lanes (r : Req) : Mask := maskOf fun n => r.ops.any fun e => e.1 == n

/-- The addresses that an effect reaches: those of a pool and of its ray, or its own. -/
def State.reached (s : State) (w : Who) (op : MemOp) : List W64 :=
  let of (pool : W64) (i : Pool → W32) : List W64 := match s.pool w pool with
    | .ok (p, _) => [pool, p.recAt (i p), p.payload (i p), p.ppb]
    | .error _ => [pool]
  match op with
  | .rpush pool _ => of pool fun p => if p.fhead = BitVec.allOnes 32 then BitVec.ofNat 32 p.next else p.fhead
  | .rpop pool i | .rgen pool i _ | .trace pool i _ _ | .rayld pool i _ _ _ | .rayst pool i _ _ | .hitq pool i _ =>
    of pool fun _ => i
  | .rlink pool va _ _ => [pool, va]
  | _ => [op.va]

/-- A trap at the accesses of a request of gang g: it names the lanes, and the address of the lowest of them in the line
that could not be reached (R374). -/
def State.reqTrap (s : State) (g : Nat) (r : Req) (t : Trap) : Trap :=
  let w : Who := { s.who (.gang g) with reader := match r.for_ with
    | .peer by_ => some by_
    | _ => none }
  { t with nmask := r.lanes, va := match r.ops with
      | (_, op) :: _ =>
        let here (va : W64) : Bool := match s.xlate w va false with
          | .ok x => x.home == r.dst && lineOf x.pa == r.line
          | .error _ => false
        ((s.reached w op).find? here).getD op.va
      | [] => t.va }

/-- The source and the naming of the crew of a stream in a report without a record (R459). -/
def State.crewReport (s : State) (a : Issuer) (c : Code) : State :=
  let w := match s.issuerCrew a with
    | some (_, y) => crewWord y.index y.tag
    | none => 0
  s.report (s.issuerGrid a) [] c (Issuer.source a) 0 0 0 w

/-- A word of a gang meets the fault after it has issued. -/
def State.wordFault (s : State) (g : Nat) (v : VarPend) (r : Req) (t : Trap) : State :=
  s.addLate g { no := v.id, slot := v.slot, index := v.index, token := v.token, trap := s.reqTrap g r t, ops := [],
                due := v.ended }

/-- The word that waits in a slot meets the fault. -/
def State.slotFault (s : State) (g n : Nat) (t : Trap) : State :=
  match s.gang? g with
  | none => s
  | some y =>
    let k : Fin 2 := if n = 0 then 0 else 1
    let (no, s) := s.fresh
    s.addLate g { no := no, slot := k, index := y.lpc[k].index, token := 0, trap := t, ops := [], due := true }

/-- Copy id of a cluster fails with t, unless it has failed before (R342). -/
def State.loseCopy (s : State) (cl id : Nat) (t : Trap) : State :=
  let l := (s.cluster cl).copies
  match l.findIdx? fun c => c.id == id with
  | none => s
  | some i => match l[i]? with
    | some c => if c.failed.isSome then s else s.failCopy cl i c t
    | none => s

/-- A collective of this package loses an access: it sends no further chunk, or completes without CSEQ (R487). -/
def State.loseColl (s : State) (cid : Nat) (c : Code) : State :=
  match s.colls.find? fun x => collCid x.desc == cid with
  | none => s
  | some x =>
    let s := s.unitReport (collUnit x) c
    if x.maySend then { s with colls := s.colls.map fun y => if y == x then { x with dead := true } else y }
    else { s with colls := s.colls.erase x }

/-- The packet at the head of queue q is refused for its header (R351). -/
def State.loseHeader (s : State) (q : Nat) : State :=
  match s.queueHead q with
  | .ready e x bs =>
    let p := launchPacketOf bs
    let w : Starter := { asid := p.asid, part := e.part, grid := 4096, gid := BitVec.allOnes 32, index := 0, tag := 0 }
    (s.consume q e x w).refuse q e.head w p .header
  | _ => s

/-- The context area of a crew that comes back cannot be read (R359). -/
def State.awayAreaFault (s : State) (tag : Nat) : State :=
  match s.away.get? tag with
  | none => s
  | some a => s.report (some a.crew.grid) [] .page { die := ((s.grid? a.crew.grid).map (·.part)).getD 0, from_ := 0, unit := 0 }
      0 0 0 (crewWord a.crew.index a.crew.tag)

/-- A reader's request fails: its operation is abandoned, or its instruction faults (R421, R424, R486). -/
def State.peerFails (s : State) (r : Req) (by_ : Reader) (t : Trap) : State :=
  match by_ with
  | .scalar a => (s.dropPeer by_).setWait a (.answerErr t)
  | .slot g n => (s.dropPeer by_).slotFault g n t
  | .word g var =>
    match (s.gang? g).bind fun y => y.var.find? fun v => v.id == var with
    | none => s
    | some v =>
      let mine (e : Fin 32 × MemOp) : Bool := r.ops.any fun x => x.1 == e.1 && (e.2.onRay || x.2 == e.2)
      let rest (x : VarPend) : VarPend :=
        ({ x with rays := x.rays.filter fun e => !mine e, traces := x.traces.filter fun e => !mine e }.without r.rid).settled
      (((s.wordFault g v r t).dropPeer by_).changeVar g var rest).goWord g var
  | .proj cl => match (s.cluster cl).proj with
    | some e => s.abandonItem cl e t.code
    | none => s
  | .trav cl id =>
    if r.packet.opc ≠ Opc.wr.num then s.refuseRay cl id t.code
    else match (s.cluster cl).rays.find? fun y => y.id == id with
      | none => s
      | some y => s.lostPut cl y r.dst r.line t.code
  | .travIn cl => s.refuseTrav cl 1 t.code
  | .sort d => match (s.die d).sorting with
    | some j => s.abandonSort d j t.code
    | none => s
  | .gen d sel => s.loseGen d sel t.code
  | .copy cl id => (s.dropPeer by_).loseCopy cl id t
  | .coll cid => (s.dropPeer by_).loseColl cid t.code
  | .queue q => (s.dropPeer by_).reportHead q
  | .header q => (s.dropPeer by_).loseHeader q
  | .ctx a => (s.dropPeer by_).areaFault a
  | .area tag => (s.dropPeer by_).awayAreaFault tag

/-- The source of a unit's write that another package did not perform: the launch queue in one of whose slots it lies, or
whose dispatcher made it, or no unit (R163, R351, R459). -/
def State.writeSource (s : State) (w : Starter) (r : Req) : Source :=
  let inSlot (e : Nat × W32) : Bool := match s.slotPage (s.queueEntry e.1) e.2 true with
    | .ok x => x.home == r.dst && lineOf x.pa == r.line
    | .error _ => false
  match (((s.grid? w.grid).bind fun g => g.launched.find? inSlot).map (·.1)).or w.queue with
  | some q => queueSource (s.queueEntry q) q
  | none => { die := w.part, from_ := 0, unit := 0 }

/-- A request fails: the access is not performed at the requester, which meets a device-level fault (R421, R424). -/
def State.failReq (s : State) (r : Req) (t : Trap) : State :=
  let s := s.dropReq r
  match r.for_ with
  | .scalar a => match s.sctx a with
    | none => s
    | some c => if c.wait.awaits r.rid then s.setWait a (.answerErr t) else s
  | .lane g id => match (s.gang? g).bind fun y => y.var.find? fun v => v.id == id with
    | none => s
    | some v =>
      (s.wordFault g v r t).changeVar g id fun v => VarPend.settled { v.without r.rid with
        reads := v.reads.filter fun e => !e.2.2.any fun x => x.home == r.dst && x.line == r.line }
  | .slot g n => (s.changeSlot g n fun l => l.without r.rid []).slotFault g n (s.reqTrap g r t)
  | .store a _ => s.crewReport a t.code
  | .copy cl id => s.loseCopy cl id t
  | .unit w => s.engineFault w t.code (s.writeSource w r)
  | .lag pa m on => (s.lagLost (s.memberWho pa m) r t.code).lagDone pa m on
  | .relay pkg rid who => (s.lagReport who t.code).send { s.packet pkg .atr (bytes64 0) with rid := rid }
  | .peer by_ => s.peerFails r by_ t
  | .nobody => s

/-- What waited for an answer goes on: held effects, returned weight, and collectives (R162, R329, R431, R435). -/
def State.goOn (s : State) : State :=
  let s := s.gangs.foldl (fun s e => s.commitMore e.1) s
  let s := s.crews.foldl (fun s e => s.sendOwed e.1) s
  s.colls.foldl State.collMore s

/-- An answer of a kind, to a request of one of the operations that it answers (R424). -/
def answered (s : State) (k : FabPacket) (op : Opc) (ops : List Opc) : Out :=
  withPacket s k op fun s => match s.asked k with
    | none => s
    | some r => if ops.any fun o => r.packet.opc == o.num then (s.deliver r k.payload).goOn else s.discard

def execFabRdr (k : FabPacket) (s : State) : Out := answered s k .rdr [.rd]
def execFabWra (k : FabPacket) (s : State) : Out := answered s k .wra [.wr, .red, .atm]
def execFabAtr (k : FabPacket) (s : State) : Out := answered s k .atr [.atm]
def execFabBlka (k : FabPacket) (s : State) : Out := answered s k .blka [.blk]

/-! ## Errors (R424) -/

/-- The fault of a cause: PAGE with its cause for 0 to 7, FABRIC otherwise. -/
def errTrap (cause : Nat) : Trap :=
  match [PageCause.varange, .absent, .demand, .write, .part, .key, .malformed, .badpa][cause]? with
  | some c => { code := .page, cause := some c, hard := true }
  | none => { code := .fabric, hard := true }

def execFabErr (k : FabPacket) (s : State) : Out :=
  withPacket s k .err fun s => match s.asked k with
    | none => s
    | some r => (s.failReq r (errTrap (fieldAt k.payload 0 1))).goOn

/-! ## Notices (R292) -/

def execFabMon (k : FabPacket) (s : State) : Out :=
  withPacket s k .mon fun s => s.fireLine (k.spkg * 2 ^ 35 + k.pa / 128)

/-! ## Weight (R161, R358, R424) -/

/-- A translated place of this package that a packet names. -/
def State.homeXl (s : State) (k : FabPacket) : Xl :=
  { pa := k.pa, home := s.ident.pkg, key := k.keyid, rc := false, cache := 0 }

/-- The cause for which n bytes at a packet's address cannot be reached here (R300, R426): every frame that holds them holds
their 64 KB, which must lie in a populated range whole (R298; log 44). -/
def State.homeFault (s : State) (k : FabPacket) (n : Nat) : Option Nat :=
  if !s.keyLoaded k.keyid then some PageCause.key.num
  else if !s.populated k.pa n || !s.populated (k.pa / 2 ^ 16 * 2 ^ 16) (2 ^ 16) then some PageCause.badpa.num
  else none

/-- A grant comes: its stream goes on, or, where it no longer waits, the amount goes back. -/
def State.takeGrant (s : State) (k : FabPacket) (v : W64) : State :=
  match s.asked k with
  | none => s
  | some r =>
    let s := s.dropReq r
    match r.for_ with
    | .scalar a =>
      if (s.sctx a).any fun c => c.wait.awaitsGrant then s.grantTo a
      else s.send { r.packet with payload := bytes64 v ++ leBytes 8 WgtKind.back.num, rid := 0 }
    | .lane _ _ | .slot _ _ | .store _ _ | .copy _ _ | .unit _ | .lag _ _ _ | .relay _ _ _ | .peer _ | .nobody =>
      s.send { r.packet with payload := bytes64 v ++ leBytes 8 WgtKind.back.num, rid := 0 }

def execFabWgt (k : FabPacket) (s : State) : Out :=
  withPacket s k .wgt fun s =>
    let v := word64 k.payload
    match fieldAt k.payload 8 8 with
    | 0 => match s.homeFault k 32 with
      | some c => s.refuseWith k c
      | none => (s.addOut (s.homeXl k) v).answer k .wgt (bytes64 v ++ leBytes 8 WgtKind.grant.num)
    | 1 => s.takeGrant k v
    | 2 => match s.homeFault k 32 with
      | some _ => s.discard
      | none => s.subOut (s.homeXl k) v
    | _ => s.discard.refuseWith k 0xFF

/-! ## Drops and reservations (R428) -/

/-- The outstanding bulk packet that a drop names: by the package that dropped it, or by a switch (log 38). -/
def State.dropped (s : State) (k : FabPacket) : Option Req :=
  s.reqs.find? fun r => r.rid == k.rid && r.packet.opc == Opc.blk.num && (r.dst == k.spkg || k.spkg == k.dpkg)
    && r.packet.pa == fieldAt k.payload 0 8

/-- The source of a dropped packet asks its destination for a reservation of its bytes. -/
def execFabDrop (k : FabPacket) (s : State) : Out :=
  withPacket s k .drop fun s => match s.dropped k with
    | none => s
    | some r => s.send { s.packet r.dst .resv (leBytes 8 r.packet.payload.length) with rid := k.rid }

/-- A grant comes: the dropped packet goes out again under it, and later ones while it lasts. -/
def execFabRgnt (k : FabPacket) (s : State) : Out :=
  withPacket s k .rgnt fun s => match s.asked k with
    | none => s
    | some r =>
      let left := s.granted.getD k.spkg 0
      { s with granted := s.granted.set k.spkg (left + fieldAt k.payload 0 8) }.send r.packet

end Sys2Proof.Machine
end

