-- ==== Sys2Proof/Machine/Preempt.lean ====
section
/-!
DEFINITION. Crews that leave their core and come back: the scheduler's requests (R371, R382), kills (R386 to R388) and
restores (R384, R389).
-/

namespace Sys2Proof.Machine

/-! ## Requests (R371, R383, R386, R387) -/

/-- The crew may be killed (R386). -/
def State.killable (s : State) (key : Nat) (c : Crew) (k : Kernel) : Bool :=
  k.replay && c.part.acc == 0 && s.mayLeave key c

/-- The crew holds a kill decision: a gang of it is frozen (R305, R386). -/
def State.doomed (s : State) (key : Nat) : Bool := s.gangs.any fun e => e.2.crew == key && e.2.frozen

/-- The scheduler may make the crew leave for a grid of a partition (R371, R383): a compute crew at a safe point, a
replayable crew by a kill, or at a safe point when it cannot be killed and declares one (R387). -/
def State.evictable (s : State) (part : Nat) (key : Nat) (c : Crew) : Bool :=
  match s.grid? c.grid with
  | none => false
  | some g =>
    g.part == part && decide (2 ≤ g.cls) && !g.kernel.pilot && !g.coop && g.conv == 0 && !g.stopped && !c.ending
      && c.preempt.isNone && !s.doomed key
      && (!g.kernel.replay || s.killable key c g.kernel || decide (0 < g.kernel.nsafe))

/-- The state as if crews for which p holds had left their cores; they keep their context areas (R383). -/
def State.without (s : State) (p : Nat → Crew → Bool) : State :=
  { s with crews := s.crews.filter fun e => !p e.1 e.2,
           away := (s.crews.filter fun e => p e.1 e.2).foldl (fun t e => t.set e.2.tag
             { crew := e.2, killed := false, parked := [], holds := [], starts := [] }) s.away }

/-- The crew is on its way off its core (R382, R386). -/
def State.leaving (s : State) (key : Nat) (c : Crew) : Bool := c.preempt.isSome || s.doomed key

/-- Room for grid k is made where a crew stands: the next crew fits once the crews of its core that the scheduler may make
leave have left, for a convoy those of its cluster (R371). -/
def State.makesRoom (s : State) (k : Nat) (g : Grid) (key : Nat) : Bool :=
  let place (x : Nat) : Nat := if g.conv = 0 then coreOf x else clusterOf (coreOf x)
  ((s.without fun x c => place x == place key && (s.leaving x c || s.evictable g.part x c)).placeNext k).isSome

/-- The grid of class 0 that a crew is to make room for: one fits no core, not even once the crews that are on their way
have left (R371). -/
def State.wantsRoom (s : State) (part k : Nat) (g : Grid) : Bool :=
  g.part == part && g.cls == 0 && g.unplaced && !g.coop && (s.placeNext k).isNone
    && ((s.without s.leaving).placeNext k).isNone

/-- The rank of a crew as a victim: the lowest-priority class first, then the latest placement (R371). -/
def State.victimRank (s : State) (c : Crew) : Nat × Nat := (((s.grid? c.grid).map (·.cls)).getD 0, c.order)

/-- The crew that the scheduler chooses, among those whose leaving makes room for a grid of class 0 (R371). -/
def State.victim (s : State) (part : Nat) : Option (Nat × Crew) :=
  (s.crews.filter fun e => s.evictable part e.1 e.2 &&
      s.grids.any fun x => s.wantsRoom part x.1 x.2 && s.makesRoom x.1 x.2 e.1).foldl (fun b e => match b with
    | none => some e
    | some x =>
      let a := s.victimRank x.2
      let r := s.victimRank e.2
      if a.1 < r.1 ∨ (a.1 = r.1 ∧ a.2 < r.2) then some e else some x) none

/-- The lane slots of the gang that sleep wake (R214). -/
def Gang.wake (y : Gang) : Gang :=
  { y with lpc := y.lpc.map fun l => match l.wait with
      | .asleep | .polling => { l with wait := .none }
      | .none | .nap _ | .remote _ => l }

/-- Every gang of a crew changed. -/
def State.mapGangs (s : State) (key : Nat) (f : Gang → Gang) : State :=
  { s with gangs := s.gangs.map fun e => if e.2.crew = key then (e.1, f e.2) else e }

/-- A crew of grid k of class 0 fits no core: the scheduler makes a crew leave (R371). -/
def execPreemptRequest (k : Nat) (s : State) : Out :=
  match s.grid? k with
  | none => .next s
  | some g =>
    if g.cls != 0 || !g.unplaced || g.coop || (s.placeNext k).isSome then .next s
    else match s.victim g.part with
      | none => .next s
      | some (key, c) =>
        let s := s.mapGangs key Gang.wake
        match s.grid? c.grid with
        | none => .next s
        | some h =>
          if s.killable key c h.kernel then .next (s.mapGangs key fun y => { y with frozen := true })
          else .next (s.setCrew key { c with preempt := some { at_ := s.clk.refc } })

/-! ## Kills (R386, R388) -/

/-- A kill may abandon the gang's scalar instruction: it has taken no effect, waits for a grant that no one has served,
or waits at a barrier, where its arrival is withdrawn (R386; log 30). -/
def State.mayAbandon (s : State) (g : Nat) (y : Gang) : Bool :=
  (y.sc.wait.interruptible || match y.sc.wait with
    | .barWait _ true | .grant _ | .launchSlot _ _ _ => true
    | _ => false) && !s.reqs.any fun r => r.for_ == .scalar (.gang g)

/-- The gang can be killed now: it is not in handler mode, and its issued words can complete (R386). -/
def State.mayKill (s : State) (g : Nat) : Bool :=
  match s.gang? g with
  | none => true
  | some y => y.sc.mode.isNone && s.mayAbandon g y && y.commits.isEmpty && !s.storesOut (.gang g)
      && y.var.all fun v => !v.far

/-- A gang's scalar wait is abandoned. -/
def State.abandonWait (s : State) (g : Nat) : State :=
  match s.gang? g with
  | none => s
  | some y =>
    let s := match y.sc.wait with
      | .barWait b true => match s.crew? y.crew with
        | none => s
        | some c => match c.bars[b]? with
          | none => s
          | some x => s.setCrew y.crew { c with bars := c.bars.set b { x with arrived := x.arrived - 1 } }
      | _ => s
    let s : State := { s with grants := s.grants.filter fun e => e.1 != Issuer.gang g }
    s.setWait (.gang g) .none

/-- The words that a gang has issued complete and its held effects are discarded (R329, R386). -/
def State.quench (s : State) (g : Nat) : State :=
  let s := (s.abandonWait g).finishLanes g
  match s.gang? g with
  | none => s
  | some y => s.setGang g { y with held := [], heldBytes := 0, late := [], owes := [], var := [] }

/-- The four k registers as the kill image holds them. -/
def kBits (k : Vector Bool 4) : Nat := (List.range 4).foldl (fun n i => n + if k.toList.getD i false then 2 ^ i else 0) 0

/-- The 0x240 bytes of a kill image (R388). -/
def killImage (y : Gang) : List Byte :=
  let arm : Nat := match y.arm with
    | none => 0
    | some a => a.count.toNat * 2 ^ 32 + a.len % 4096 * 2 ^ 5 + if a.active then 16 else 0
  let live := y.lpc.any (·.live) || y.depth != 0
  let rp : Replay := y.replay.getD { index := 0, mask := 0, depth := 0 }
  y.sc.s.toList.flatMap bytes64 ++ leBytes 8 (arm + kBits y.sc.k) ++ bytes64 y.sc.pc
    ++ leBytes 8 (if live then 2 ^ 63 + rp.depth % 4096 * 2 ^ 32 + rp.index % 2 ^ 30 else 0)
    ++ leBytes 8 (if live then rp.mask.toNat else 0)
    ++ (List.range 8).flatMap fun i => match y.queue[i]? with
      | some d => leBytes 4 ((if d.arm then 2 ^ 31 else 0) + 2 ^ 30 + d.index % 2 ^ 30)
      | none => List.replicate 4 0

/-- The address of a gang's kill image: with fewer than 36 entries in its stack, it begins below it (R388). -/
def killImageAt (y : Gang) (k : Kernel) : W64 := y.dbase + BitVec.ofInt 64 (16 * ((k.dstack : Int) - 36))

/-- The writes of a gang's base granules that are present (R386). -/
def baseWrites (y : Gang) (save : W64) : List (W64 × List Byte) :=
  (List.range 8).filterMap fun k =>
    if y.absent.getLsbD k then none
    else some (save + BitVec.ofNat 64 (0x1000 + 8192 * y.gidx + 1024 * k),
      (List.range 8).flatMap fun i => vecBytes (y.v.toList.getD (8 * k + i) (laneConst 0)))

/-- The writes of the blocks that gangs of a crew hold (R386). -/
def heldBlocks (c : Crew) (gangs : Nat) (save : W64) : List (W64 × List Byte) :=
  (c.ext.zipIdx 0).flatMap fun x =>
    if x.1.holder.isNone then [] else x.1.writes (save + BitVec.ofNat 64 (0x1000 + 8192 * gangs + 16384 * x.2))

/-- Everything that a kill writes (R386). -/
def killWrites (c : Crew) (gs : List (Option Gang)) (k : Kernel) : List (W64 × List Byte) :=
  let save := c.save k
  (gs.flatMap fun x => match x with
    | some y => baseWrites y save ++ [(killImageAt y k, killImage y)]
    | none => []) ++ heldBlocks c k.gangs save ++ looseBlocks c k.gangs save ++ [(save, crewBlock c gs true)]

/-- A fault of a crew's context area: the report (R359). -/
def State.crewAreaFault (s : State) (key : Nat) (c : Crew) : State :=
  s.report (some c.grid) [] .page { die := dieOf (clusterOf (coreOf key)), from_ := 0, unit := 0 } 0 0 0
    (crewWord c.index c.tag)

/-- The kill is not made: the gangs go on, and a page fault that it was for is delivered instead (R387; log 30). -/
def State.reprieve (s : State) (key : Nat) (c : Crew) : State :=
  { s.mapGangs key fun y => { y with frozen := false } with
    paused := s.paused.filter fun p => !(p.agent == 0 && p.key == c.tag) }

/-- The crew whose gangs a kill decision has frozen is killed, once none of them is in handler mode (R386). -/
def execCrewKill (key : Nat) (s : State) : Out :=
  match s.crew? key with
  | none => .next s
  | some c => match s.grid? c.grid with
    | none => .next s
    | some g =>
      if !s.doomed key || g.stopped || !c.live.all s.mayKill then .next s
      else if !s.killable key c g.kernel then .next (s.reprieve key c)
      else
        let s := c.live.foldl State.quench s
        match s.crew? key with
        | none => .next s
        | some c =>
          match s.ctxWrites (s.crewWho key c) (killWrites c (s.crewGangs c) g.kernel) with
          | .error _ => .next (s.crewAreaFault key c)
          | .ok s => .next (s.leaveCore key c true)

/-! ## Restores (R384, R389) -/

/-- The gangs of a crew that come back, by index: their slots. -/
def backSlots (parked : List (Option Nat)) (slots : List Nat) : List (Option Nat) :=
  (slots.zipIdx 0).map fun e => match parked[e.2]? with
    | some (some _) => some e.1
    | _ => none

/-- The block that a gang holds, from its GCTL word (R381). -/
def gctlBlock (blk : List Byte) (n i : Nat) : Option Nat :=
  let w := fieldAt blk (0x800 + 8 * i) 8
  if flag w 2 && decide (fld w 3 5 < n) then some (fld w 3 5) else none

/-- A gang as its crew's block has it (R384): its bindings, cursors, `ctl.chk`, exited lanes, predicates and block. -/
def gangFromBlock (blk : List Byte) (k : Kernel) (key i : Nat) (ctx : W64) : Gang :=
  let w := fieldAt blk (0x800 + 8 * i) 8
  let sc := ScalarCtx.start 0 (ctx + BitVec.ofNat 64 (64 * i))
  { Gang.start key i sc with
    qmap := Vector.ofFn fun (n : Fin 16) => blk.getD (0x400 + 16 * i + n.val) 0,
    cursor := Vector.ofFn fun (n : Fin 16) => (blk.getD (0x600 + 16 * i + n.val) 0).setWidth 7,
    killed := BitVec.ofNat 32 (w / 2 ^ 32), chk := flag w 0, ext := gctlBlock blk k.part.ext i,
    p := Vector.ofFn fun (n : Fin 7) => word32 (blk.drop (0xA00 + 32 * i + 4 * n.val)),
    dbase := ctx + BitVec.ofNat 64 (64 * k.gangs + 16 * k.dstack * i) }

/-- The crew in its new room, with its barriers, weight and block holdings from its block (R384). -/
def crewFromBlock (a : AwayCrew) (b : Room) (blk : List Byte) (k : Kernel) (absent : BitVec 16) : Crew :=
  let gangs := backSlots a.parked b.slots
  let holder (n : Nat) : Option Nat :=
    ((gangs.zipIdx 0).find? fun e => e.1.isSome && gctlBlock blk k.part.ext e.2 == some n).bind (·.1)
  { a.crew with
    unit := b.unit, slots := b.slots, gangs := gangs, wgt := word64 (blk.drop 0x900), preempt := none, acqs := [],
    bars := (List.range a.crew.bars.length).map fun i => barrierOf (word64 (blk.drop (8 * i))),
    tiles := List.replicate k.part.acc Tile.new,
    ext := (List.range k.part.ext).map fun n => { regs := [], absent := absent, holder := holder n } }

/-- Extended block n of a restored crew with its registers from the save area (R389). -/
def State.loadBlock (s : State) (key : Nat) (w : Who) (save : W64) (gangs n : Nat) : Except AccErr State :=
  let at_ := save + BitVec.ofNat 64 (0x1000 + 8192 * gangs + 16384 * n)
  (List.range 16).foldlM (fun s g => match s.ctxLoad w (at_ + BitVec.ofNat 64 (1024 * g)) 1024 with
    | .error c => .error c
    | .ok bs => .ok (match s.crew? key with
      | none => s
      | some c => match c.ext[n]? with
        | none => s
        | some e =>
          let regs := (List.range 8).foldl (fun t i => t.set (8 * g + i) (vecOf (bs.drop (128 * i)))) e.regs
          s.setCrew key { c with ext := c.ext.set n { e with regs := regs } })) s

/-- Bytes of a context area read, line by line (R359). -/
def State.ctxLoads (s : State) (w : Who) : List (Nat × Nat) → Except AccErr (List Byte)
  | [] => .ok []
  | (a, n) :: t => match s.ctxLoad w (BitVec.ofNat 64 a) n, State.ctxLoads s w t with
    | .error c, _ => .error c
    | _, .error c => .error c
    | .ok bs, .ok cs => .ok (bs ++ cs)

/-- The base registers of a gang from the save area (R389). -/
def State.loadBase (s : State) (w : Who) (save : W64) (i : Nat) : Except AccErr (List LaneVec) :=
  (List.range 8).foldlM (fun l g =>
    match s.ctxLoad w (save + BitVec.ofNat 64 (0x1000 + 8192 * i + 1024 * g)) 1024 with
    | .error c => .error c
    | .ok bs => .ok (l ++ (List.range 8).map fun j => vecOf (bs.drop (128 * j)))) []

/-- The arm of a kill image (R388, R389): attached to the live block, to an entry of the queue, or pending; `start` is the
first word of the block that was live. One whose block runs on past its body does not repeat. -/
def imageArm (im : List Byte) (start : Option Nat) : Option Arm :=
  let w := fieldAt im 0x200 8
  let n := fld w 5 12
  if n = 0 then none
  else
    let count : W32 := BitVec.ofNat 32 (w / 2 ^ 32)
    let rindex := fld (fieldAt im 0x210 8) 0 30
    let queued := (List.range 8).find? fun i => fld (fieldAt im (0x220 + 4 * i) 4) 30 2 == 3
    if flag w 4 then
      let first := start.getD rindex
      some { count := count, len := n, start := first, active := true,
             left := if rindex = first then count.toNat - 1 else 0 }
    else some { count := count, len := n, active := false, left := 0,
                start := match queued with
                  | some i => fld (fieldAt im (0x220 + 4 * i) 4) 0 30
                  | none => 0 }

/-- The first word that a restored slot executes: past the body when the arm's count is 0 (R135). -/
def imageIndex (im : List Byte) (arm : Option Arm) : Nat :=
  let rindex := fld (fieldAt im 0x210 8) 0 30
  match arm with
  | some a => if a.active && a.start == rindex && a.count == 0 then rindex + a.len else rindex
  | none => rindex

/-- A killed gang as it resumes, from its block, its registers and its kill image (R389). -/
def replayedGang (y : Gang) (v : List LaneVec) (im : List Byte) (start : Option Nat) : Gang :=
  let arm := imageArm im start
  let r := fieldAt im 0x210 8
  let live := flag r 63
  let mask : Mask := BitVec.ofNat 32 (fieldAt im 0x218 4)
  let depth := fld r 32 12
  let lpc : Lpc := { Lpc.off with live := true, index := imageIndex im arm, mask := mask, fresh := true }
  { y with
    v := Vector.ofFn fun (n : Fin 64) => v.getD n.val (laneConst 0),
    sc := { y.sc with pc := word64 (im.drop 0x208), s := Vector.ofFn fun (n : Fin 64) => word64 (im.drop (8 * n.val)),
                      k := Vector.ofFn fun (n : Fin 4) => flag (fieldAt im 0x200 8) n.val },
    queue := (List.range 8).filterMap fun i =>
      let d := fieldAt im (0x220 + 4 * i) 4
      if flag d 30 then some { index := fld d 0 30, arm := flag d 31 } else none,
    arm := arm, lpc := if live then y.lpc.set 0 lpc else y.lpc, depth := if live then depth else 0,
    replay := if live then some { index := fld r 0 30, mask := mask, depth := depth } else none }

/-- One gang of a restored crew: it enters its restore routine with every granule absent, or, after a kill, resumes with
its registers and streams from the save area (R384, R389). -/
def State.reviveGang (s : State) (a : AwayCrew) (k : Kernel) (b : Room) (blk : List Byte) (i g n : Nat) :
    Except AccErr State :=
  let y := gangFromBlock blk k b.key i a.crew.ctx
  let save := a.crew.save k
  if a.killed then
    let w := s.crewWho b.key a.crew
    match s.loadBase w save i, s.ctxLoads w (span (killImageAt y k) 0x240) with
    | .error c, _ => .error c
    | _, .error c => .error c
    | .ok v, .ok im => .ok (s.setGang g (replayedGang y v im (a.starts.getD i none)))
  else
    let off := match k.safe[n]? with
      | some e => e.2
      | none => 0
    .ok ((s.setGang g { y with absent := BitVec.allOnes 8 }).enter (.gang g) (.restore n) (k.text off))

/-- The gangs of a restored crew, by index. -/
def State.reviveAll (s : State) (a : AwayCrew) (k : Kernel) (b : Room) (blk : List Byte) :
    List (Option Nat × Nat) → Except AccErr State
  | [] => .ok s
  | (none, _) :: t => State.reviveAll s a k b blk t
  | (some g, i) :: t => match s.reviveGang a k b blk i g ((a.parked.getD i none).getD 0) with
    | .error c => .error c
    | .ok s => State.reviveAll s a k b blk t

/-- A crew takes its new room (R384, R389). -/
def State.revive (s : State) (tag : Nat) (a : AwayCrew) (g : Grid) (b : Room) : Except AccErr State :=
  let k := g.kernel
  let who := s.crewWho b.key a.crew
  match s.ctxLoad who (a.crew.save k) 4096 with
  | .error c => .error c
  | .ok blk =>
    let c := crewFromBlock a b blk k (if a.killed then 0 else BitVec.allOnes 16)
    let s := ({ s with away := s.away.erase tag }.setCrew b.key c).startPilot c.grid (clusterOf (coreOf b.key)) b.pilotCtx
    let blocks := if a.killed then List.range k.part.ext else []
    match blocks.foldlM (fun s n => s.loadBlock b.key who (a.crew.save k) k.gangs n) s with
    | .error c => .error c
    | .ok s => s.reviveAll a k b blk (c.gangs.zipIdx 0)

/-- The first core that a crew which left fits, from the cursor on (R363, R384). -/
def State.backRoom (s : State) (a : AwayCrew) (g : Grid) : Option (Nat × Room) :=
  let room (c : Nat) : Option Room := s.fits a.crew.grid g.part g.kernel c a.crew.ctxLen (some a.crew.ctx.toNat)
  firstOf room (fromCursor (s.launch.coreCursor.getD g.part 0) (s.coresOf g.part))

/-- The acknowledgement that a killed crew waits for is poisoned (R296, R306). -/
def State.ackPoisoned (s : State) (a : AwayCrew) : Bool :=
  s.paused.any fun p => p.agent == 0 && p.key == a.crew.tag && p.entry.any fun pa => s.poisoned (pa + 0x10) 8

/-- Another crew that fits is placed before a crew that left comes back: the next crew of a grid that goes before its
grid, or a crew that left of such a grid, or of a lower index in its own (R363, R384). -/
def State.heldBack (s : State) (a : AwayCrew) : Bool :=
  s.ackPoisoned a || match s.grid? a.crew.grid with
  | none => false
  | some g =>
    (s.grids.any fun e => e.2.part == g.part && e.2.unplaced && !e.2.coop && e.2.before g && !s.restoreFirst e.2
        && !s.backedOff e.2 && (s.placeNext e.1).isSome)
      || s.away.any fun e => s.restorable e.2 && match s.grid? e.2.crew.grid with
        | none => false
        | some h => h.part == g.part && (h.before g || (e.2.crew.grid == a.crew.grid && decide (e.2.crew.index < a.crew.index)))
            && (s.backRoom e.2 h).isSome

/-- A crew that left comes back on the first core that it fits (R363, R384). -/
def State.comeBack (s : State) (tag : Nat) (a : AwayCrew) : State :=
  match s.grid? a.crew.grid with
  | none => s
  | some g =>
    match s.backRoom a g with
    | none => s
    | some (c, b) => match s.revive tag a g b with
      | .error (.remote x) => s.askPeer (.area tag) (.remote x)
      | .error _ => s.report (some a.crew.grid) [] .page { die := g.part, from_ := 0, unit := 0 } 0 0 0
          (crewWord a.crew.index a.crew.tag)
      | .ok t => { t.dropPeer (.area tag) with launch := { t.launch with coreCursor := t.launch.coreCursor.set g.part (c + 1) } }

/-- The pre-empted crew of a tag is restored (R384). -/
def execCrewRestore (c : Nat) (s : State) : Out :=
  match s.away.get? c with
  | none => .next s
  | some a => if a.killed || !s.running a.crew.grid || s.heldBack a then .next s else .next (s.comeBack c a)

/-- The killed crew of a tag is restored, once a page fault of it has been acknowledged with 1; a refusal is a
device-level PAGE fault (R305, R306, R389). -/
def execKilledCrewRestore (c : Nat) (s : State) : Out :=
  match s.away.get? c with
  | none => .next s
  | some a =>
    if !a.killed || !s.running a.crew.grid then .next s
    else if s.ackPoisoned a then
      .next (s.report (some a.crew.grid) [] .ecc { die := ((s.grid? a.crew.grid).map (·.part)).getD 0, from_ := 0, unit := 0 }
        0 0 0 (crewWord a.crew.index a.crew.tag))
    else if s.heldBack a then .next s
    else match s.paused.find? fun p => p.agent == 0 && p.key == c with
      | none => .next (s.comeBack c a)
      | some p => match p.entry with
        | none => .next s
        | some pa =>
          let rest := s.paused.filter fun q => !(q.agent == 0 && q.key == c)
          let t := s.atHome (s.plainAt pa)
          match word64 (t.readPa (pa + 0x10) 8) with
          | 1#64 => .next ({ t with paused := rest }.comeBack c a)
          | 2#64 => .next ({ t with paused := rest }.report (some a.crew.grid) [] .page
              { die := dieOf (clusterOf (coreOf p.sel)), from_ := 0, unit := 0 } 0 0 0 (crewWord a.crew.index a.crew.tag))
          | _ => .next s

end Sys2Proof.Machine
end

