-- ==== Sys2Proof/Machine/Kill.lean ====
section
/-! DEFINITION. The kill of a grid (R380, R459). -/

namespace Sys2Proof.Machine

/-- What waits elsewhere for a stream is forgotten; requests stay outstanding for no one, and the arrivals that it has made
at a barrier of this package stand without it (R441). -/
def State.forget (s : State) (a : Issuer) (mine : ReqFor → Bool) : State :=
  let gone (x : Arrival) : Bool := x.gang.any fun g => a == .gang g
  { s with reqs := s.reqs.map fun r => if mine r.for_ then { r with for_ := .nobody } else r,
           grants := s.grants.filter fun e => e.1 != a,
           arrivals := s.arrivals.map fun x => if gone x then { x with left := true } else x,
           waiting := s.waiting.map fun x => if gone x then { x with left := true } else x }

/-- The amount that a stream was granted and has not put anywhere. -/
def ScalarWait.holding : ScalarWait → W64
  | .granted x | .launchGranted _ x _ => x
  | _ => 0

/-- A gang of a killed grid ends, with its held effects discarded (R329, R380). -/
def State.killGang (s : State) (key g : Nat) : State :=
  let w := match s.sctx (.gang g) with
    | some c => c.wait.holding
    | none => 0
  let s := (s.forget (.gang g) fun f => f == .store (.gang g) true || f == .store (.gang g) false).dropGang g
  match s.crew? key with
  | none => s
  | some c => s.setCrew key { c with wgt := c.wgt + w }

/-- A crew of a killed grid: its gangs end, and it then retires (R136). -/
def State.endCrew (s : State) (key : Nat) (c : Crew) : State :=
  let s := c.live.foldl (fun s g => s.killGang key g) s
  match s.crew? key with
  | none => s
  | some c => s.setCrew key
    { c with gangs := c.gangs.map fun _ => none, preempt := none, acqs := [], ending := true,
             wgt := c.wgt + (c.owed.map (·.1)).sum, owed := [] }

/-- A grid counts retired crews. -/
def State.countRetired (s : State) (k n : Nat) : State :=
  match s.grid? k with
  | none => s
  | some g => s.setGrid k { g with retired := g.retired + n }

/-- The stamps that a crew's log names are closed (R319). -/
def State.closeStamps (s : State) (y : Crew) : State :=
  let close (z : Tbl Line) (e : Nat × BitVec 5) : Tbl Line :=
    z.modify e.1 fun ln =>
      if ln.stamp.tag = y.tag ∧ ln.stamp.seq = e.2 then { ln with stamp := { ln.stamp with open_ := false } } else ln
  { s with lines := y.log.foldl close s.lines }

/-- A crew that is off its core retires at once. -/
def State.endAway (s : State) (tag : Nat) (a : AwayCrew) : State :=
  let s := (s.closeStamps a.crew).returnWeight a.crew.grid a.crew.wgt
  let s : State := { s with away := s.away.erase tag, paused := s.paused.filter fun p => !(p.agent == 0 && p.key == tag) }
  s.countRetired a.crew.grid 1

/-- The share of the crews of a grid that were never placed goes back (R358, R380). -/
def State.endUnplaced (s : State) (k : Nat) (g : Grid) : State :=
  let back := g.weight.toNat - g.weight.toNat * g.placed / g.ncrew
  let s := s.setGrid k { g with placed := g.ncrew, retired := g.retired + (g.ncrew - g.placed) }
  s.returnWeight k (BitVec.ofNat 64 back)

/-- The pilot programs of a grid end. -/
def State.endPilots (s : State) (k : Nat) : State :=
  (s.pilots.filter fun p => p.2.grid == k).foldl (fun s p =>
    let s := s.forget (.pilot p.1) fun r => r == .scalar (.pilot p.1)
    let u := s.core (4 * p.1)
    { s.setCore (4 * p.1) { u with monitors := u.monitors.filter fun m => m.1 != .pilot p.1 } with
      pilots := s.pilots.erase p.1 }) s

/-- Grid k is killed (R380). -/
def State.killGrid (s : State) (k : Nat) : State :=
  match s.grid? k with
  | none => s
  | some g =>
    if g.killed then s
    else
      let s := s.setGrid k { g with stopped := true, killed := true }
      let s := (s.crews.filter fun e => e.2.grid == k).foldl (fun s e => s.endCrew e.1 e.2) s
      let s := (s.away.filter fun e => e.2.crew.grid == k).foldl (fun s e => s.endAway e.1 e.2) s
      let s := match s.grid? k with
        | some g => s.endUnplaced k g
        | none => s
      let tags := (s.crews.filter fun e => e.2.grid == k).map fun e => e.2.tag
      { s with paused := s.paused.filter fun p => !(p.agent == 0 && tags.contains p.key) }.endPilots k

/-- A write of MKILL: the live grid of that id and its descendants are killed (R459). -/
def State.killId (s : State) (id : W64) : State :=
  match s.grids.find? fun e => e.2.id == id.setWidth 32 with
  | none => s
  | some (k, _) => (s.grids.filter fun e => descends s.grids k 11 e.1).foldl (fun s e => s.killGrid e.1) s

def execMkill (grid : W64) (s : State) : Out := .next (s.killId grid)

end Sys2Proof.Machine
end

