-- ==== Sys2Proof/Machine/Home.lean ====
section
/-!
DEFINITION. Requests of other packages at this package's home slices (R424, R426), and the reservations that it grants
(R428).
-/

namespace Sys2Proof.Machine

/-- A request at n bytes of this package: refused, or performed by f with its answer. -/
def State.serve (s : State) (k : FabPacket) (n : Nat) (f : State → State) : State :=
  match s.homeFault k n with
  | some c => s.refuseWith k c
  | none => f (s.atHome (s.homeXl k))

/-- Poison that a request meets is reported here; the request goes on (R296; log 37). -/
def State.servePoison (s : State) (k : FabPacket) (n : Nat) : State :=
  if s.poisoned k.pa n then s.report none [] .ecc { die := dieOfPa k.pa, from_ := 0, unit := 0 } 0 0 0 0 else s

/-- The requests that are carried out here are well-formed: the line is aligned where it must be. -/
def lineAligned (k : FabPacket) : Bool := k.pa % 128 == 0

/-! ## Reads and writes -/

/-- Another package may monitor the line that it reads (R292). -/
def State.watch (s : State) (l pkg : Nat) : State :=
  if s.watchers.contains (l, pkg) then s else { s with watchers := s.watchers ++ [(l, pkg)] }

def execFabRd (k : FabPacket) (s : State) : Out :=
  withPacket s k .rd fun s =>
    if !lineAligned k then s.discard.refuseWith k 0xFF
    else s.serve k 128 fun s =>
      let s := s.servePoison k 128
      (s.watch (lineOf k.pa) k.spkg).answer k .rdr (s.readPa k.pa 128)

/-- The runs of a byte mask from byte i on: where they begin, and their bytes. -/
def maskRuns : List (Bool × Byte) → Nat → List (Nat × List Byte)
  | [], _ => []
  | (false, _) :: t, i => maskRuns t (i + 1)
  | (true, b) :: t, i => match maskRuns t (i + 1) with
    | (j, bs) :: r => if j = i + 1 then (i, b :: bs) :: r else (i, [b]) :: (j, bs) :: r
    | [] => [(i, [b])]

/-- The bytes of a `WR` with the mask that selects them (R424). -/
def wrBytes (payload : List Byte) : List (Bool × Byte) :=
  ((payload.drop 16).zipIdx 0).map fun e => (flag (fieldAt payload 0 16) e.2, e.1)

def execFabWr (k : FabPacket) (s : State) : Out :=
  withPacket s k .wr fun s =>
    if !lineAligned k then s.discard.refuseWith k 0xFF
    else s.serve k 128 fun s =>
      ((maskRuns (wrBytes k.payload) 0).foldl (fun s r => s.writePa noCore (k.pa + r.1) r.2) s).answer k .wra []

/-! ## Atomics and reductions -/

/-- An entry of an `ATM` or a `RED` (R424). -/
structure AtmEntry where
  off : Nat
  v : W64
  cmp : W64
  deriving DecidableEq, Repr

/-- The entries of a payload. -/
def atmEntries : Nat → List Byte → List AtmEntry
  | 0, _ => []
  | n + 1, bs =>
    if bs.isEmpty then []
    else { off := fld (fieldAt bs 0 8) 8 7, v := word64 (bs.drop 8), cmp := word64 (bs.drop 16) } :: atmEntries n (bs.drop 24)

/-- Bytes of a word of the size that a packet gives; none for a size that is no word's. -/
def atmBytes (k : FabPacket) : Option Nat :=
  match k.sz with
  | .b32 => some 4
  | .b64 => some 8
  | .b8 | .b16 => none

/-- The entries are of aligned words. -/
def entriesOk (n : Nat) (l : List AtmEntry) : Bool := l.all fun e => e.off % n == 0

/-- Every reserved bit of the entries is 0, and so is the compare value of each that compares nothing (R424). -/
def entriesClean (compares : Bool) : Nat → List Byte → Bool
  | 0, _ => true
  | n + 1, bs =>
    bs.isEmpty
      || (let w := fieldAt bs 0 8
          fld w 5 3 == 0 && fld w 15 49 == 0 && (compares || fieldAt bs 16 8 == 0) && entriesClean compares n (bs.drop 24))

/-- The entries performed in order: the new value of each word, and the old values (R210, R425). -/
def State.doEntries (s : State) (k : FabPacket) (n : Nat) (f : W64 → AtmEntry → W64) : List AtmEntry → List Byte × State
  | [] => ([], s)
  | e :: es =>
    let pa := k.pa + e.off
    let old := valOf (s.readPa pa n)
    let (bs, s) := State.doEntries (s.writePa noCore pa (leBytes n (f old e).toNat)) k n f es
    (bytes64 old ++ bs, s)

/-- Atomics of another package: answered with their old values, or with an acknowledgement. -/
def State.serveAtomics (s : State) (k : FabPacket) (olds compares : Bool) (f : Option (W64 → AtmEntry → W64)) : State :=
  let l := atmEntries 40 k.payload
  match f, atmBytes k with
  | some f, some n =>
    if !lineAligned k || !entriesOk n l || !entriesClean compares 40 k.payload then s.discard.refuseWith k 0xFF
    else s.serve k 128 fun s =>
      let s := l.foldl (fun s e => s.servePoison { k with pa := k.pa + e.off } n) s
      let (bs, s) := s.doEntries k n f l
      if olds then s.answer k .atr bs else s.answer k .wra []
  | _, _ => s.discard.refuseWith k 0xFF

/-- An arrival at a barrier of this package (R439; log 36). -/
def State.farArrival (s : State) (k : FabPacket) : State :=
  match atmEntries 1 k.payload with
  | [] => s.refuseWith k 0xFF
  | e :: _ => s.serve k 128 fun s =>
    s.countArrival { pkg := k.spkg, crew := e.v.setWidth 32, asid := fld e.cmp.toNat 0 12, gang := none, rid := k.rid,
                     pa := k.pa + e.off }

/-- The home of a barrier asks for an LAG bit of a queue of this package (R440; log 36). -/
def State.farLag (s : State) (k : FabPacket) : State :=
  match atmEntries 1 k.payload with
  | [] => s.refuseWith k 0xFF
  | e :: _ =>
    let who := s.fbarWho k.spkg (k.pa + e.off) (e.cmp.setWidth 32)
    let (s, done) := s.setLag who (fld e.cmp.toNat 32 12) e.v (flag e.cmp.toNat 44) (.relay k.spkg k.rid who)
    if done then s.answer k .atr (bytes64 0) else s

/-- Words of a line exchanged in one step: all of them where each holds its compare value, and none otherwise; the old
values are the answer (R278, R279; log 14). -/
def State.serveSwap (s : State) (k : FabPacket) : State :=
  let l := atmEntries 40 k.payload
  if !lineAligned k || !entriesOk 8 l || !entriesClean true 40 k.payload || k.sz != .b64 then s.discard.refuseWith k 0xFF
  else s.serve k 128 fun s =>
    let s := l.foldl (fun s e => s.servePoison { k with pa := k.pa + e.off } 8) s
    let all := l.all fun e => word64 (s.readPa (k.pa + e.off) 8) == e.cmp
    let (bs, s) := s.doEntries k 8 (fun old e => if all then e.v else old) l
    s.answer k .atr bs

/-- The new value of an `ATM` entry (R210). -/
def atmNew (op : AtomOp) (k : FabPacket) (old : W64) (e : AtmEntry) : W64 := atomValue op (k.sz == .b64) old e.v e.cmp

def execFabAtm (k : FabPacket) (s : State) : Out :=
  withPacket s k .atm fun s =>
    if k.aop = 15 then s.farArrival k
    else if k.aop = 14 then s.farLag k
    else if k.aop = swapAop then s.serveSwap k
    else match AtomOp.ofCode k.aop with
      | .ok op => s.serveAtomics k true (op == .cas) (some (atmNew op k))
      | .error _ => s.serveAtomics k true false none

/-- The new value of a `RED` entry (R212). -/
def redNew (op : RedOp) (k : FabPacket) (old : W64) (e : AtmEntry) : W64 := redValue op (k.sz == .b64) old e.v

def execFabRed (k : FabPacket) (s : State) : Out :=
  withPacket s k .red fun s =>
    s.serveAtomics k false false (match RedOp.ofCode k.aop with
      | .ok op => some (redNew op k)
      | .error _ => none)

/-! ## Bulk bytes and reservations (R424, R428) -/

/-- A reservation covers bytes of a package: a window that has not lapsed, with bytes left. -/
def Port.covers (x : Port) (pkg n now : Nat) : Bool :=
  x.windows.any fun w => w.1 == pkg && decide (n ≤ w.2.1) && decide (now < w.2.2)

/-- One window of a package, the oldest that covers them, gives up n bytes. -/
def spendWindow (pkg n now : Nat) : List (Nat × Nat × Nat) → List (Nat × Nat × Nat)
  | [] => []
  | w :: ws =>
    if w.1 = pkg ∧ n ≤ w.2.1 ∧ now < w.2.2 then (w.1, w.2.1 - n, w.2.2) :: ws else w :: spendWindow pkg n now ws

/-- The windows of a port after n reserved bytes of a package. -/
def Port.spend (x : Port) (pkg n now : Nat) : Port := { x with windows := spendWindow pkg n now x.windows }

/-- Bulk bytes are performed and acknowledged. -/
def State.takeBulk (s : State) (k : FabPacket) : State :=
  s.serve k k.payload.length fun s =>
    let parts := spanParts 16 k.pa k.payload.length
    let s := parts.foldl (fun s r => s.atHome { s.homeXl k with pa := r.1 }) s
    let s := parts.foldl (fun s r => s.writePa noCore r.1 ((k.payload.drop (r.1 - k.pa)).take r.2)) s
    s.answer k .blka []

/-- A bulk packet that the buffer cannot take is dropped, which its source learns. Bytes under a reservation always find
room; whether others do is free (R428; log 2). -/
def execFabBlk (k : FabPacket) (s : State) : Out :=
  withPacket s k .blk fun s =>
    let n := k.payload.length
    match (List.range 16).find? fun p => k.rsv && (s.port p).covers k.spkg n s.clk.cache with
    | some p => (s.setPort p ((s.port p).spend k.spkg n s.clk.cache)).takeBulk k
    | none =>
      let (x, s) := s.free
      if x % 2 = 1 then s.answer k .drop (leBytes 8 k.pa) else s.takeBulk k

/-- The most bytes that a grant covers, and the cache cycles that it stands (R428). -/
def grantBytes : Nat := 2 ^ 20
def grantCycles : Nat := 2 ^ 20

def execFabResv (k : FabPacket) (s : State) : Out :=
  withPacket s k .resv fun s =>
    let n := min (fieldAt k.payload 0 8) grantBytes
    let p := s.portFor k
    let x := s.port p
    (s.setPort p { x with windows := x.windows ++ [(k.spkg, n, s.clk.cache + grantCycles)] }).answer k .rgnt (leBytes 8 n)

/-- The windows of a port that are over lapse. -/
def execReservationWindowExpiry (p : Fin 16) (s : State) : Out :=
  let x := s.port p.val
  .next (s.setPort p.val { x with windows := x.windows.filter fun w => decide (s.clk.cache < w.2.2) })

end Sys2Proof.Machine
end

