-- ==== Sys2Proof/Machine/Links.lean ====
section
/-!
DEFINITION. The Balane ports: frames (R419 to R422), retries (R421), totals (R427), the stream order (R418), link keys and
bring-up (R457).
-/

namespace Sys2Proof.Machine

/-! ## Packets as they arrive (R418, R424) -/

/-- Every assigned operation. -/
def opcs : List Opc :=
  [.rd, .rdr, .wr, .wra, .atm, .atr, .red, .blk, .blka, .drop, .resv, .rgnt, .mon, .ctb, .crs, .closed, .wgt, .err]

/-- The payload is one that the operation carries to a package (R423, R424; log 38): a contribution goes to a switch. -/
def Opc.payloadOk (o : Opc) (n : Nat) : Bool :=
  match o with
  | .rd | .wra | .mon | .blka => n == 0
  | .rdr => n == 128
  | .wr => n == 144
  | .atm | .red => n % 24 == 0 && decide (24 ≤ n) && decide (n ≤ 768)
  | .atr => n % 8 == 0 && decide (n ≤ 256)
  | .blk => n % 8 == 0 && decide (1 ≤ n) && decide (n ≤ 960)
  | .drop | .resv | .rgnt | .err => n == 8
  | .wgt => n == 16
  | .crs | .closed => n % 8 == 0 && decide (n ≤ 960)
  | .ctb => false

/-- The packet is one that the package takes: an assigned operation in its class, no reserved bit, a consistent length
(R423, R424). -/
def packetOk (p : FabPacket) : Bool :=
  p.clean && match opcs.find? fun o => o.num == p.opc with
    | some o => o.payloadOk p.payload.length && p.control == (o != .blk) && (!collectiveOpc p.opc || p.spkg == p.dpkg)
    | none => false

/-- The operation is an answer or a notice, so that a malformed packet of it has nobody to answer. -/
def isAnswer (p : FabPacket) : Bool :=
  [Opc.rdr, .wra, .atr, .blka, .drop, .rgnt, .mon, .crs, .closed, .err].any fun o => o.num == p.opc

/-- A packet is handed on, or discarded and, when it is a control request, answered with `ERR` 0xFF (R424). -/
def State.handOn (s : State) (p : FabPacket) : State :=
  if packetOk p then { s with ingress := s.ingress ++ [p] }
  else if p.control && !isAnswer p then s.discard.refuseWith p 0xFF
  else s.discard

/-- The packets of a stream that had arrived early are handed on while the next one is there; the place of one that the link
has lost is passed over (R418, R421; log 38). -/
def State.handEarly (s : State) (src : Nat) : Nat → State
  | 0 => s
  | n + 1 =>
    let st := s.stream src
    let next := (st.want + 1) % 65536
    if st.gone.contains st.want then
      State.handEarly (s.setStream src { st with gone := st.gone.erase st.want, want := next }) src n
    else match st.early.find? fun p => p.seq == st.want with
      | none => s
      | some p => State.handEarly ((s.setStream src { st with early := st.early.erase p, want := next }).handOn p) src n

/-- What a stream holds is handed on as far as it can be. -/
def State.handStream (s : State) (src : Nat) : State :=
  let st := s.stream src
  s.handEarly src (st.early.length + st.gone.length)

/-- The packet is a switch's own, which names its destination as its source: it belongs to no stream (log 38). -/
def fromSwitch (p : FabPacket) : Bool :=
  p.spkg == p.dpkg && [Opc.drop, .crs, .closed].any fun o => o.num == p.opc

/-- A packet arrives: a control packet of a stream in its turn, others at once (R418). -/
def State.arriveAt (s : State) (p : FabPacket) : State :=
  if !p.control || fromSwitch p then s.handOn p
  else
    let st := s.stream p.spkg
    if p.seq = st.want then
      ((s.setStream p.spkg { st with want := (st.want + 1) % 65536 }).handOn p).handStream p.spkg
    else s.setStream p.spkg { st with early := st.early ++ [p] }

/-- The packet can have come: from another package, or from a switch of the fabric with what it sent (log 38). -/
def State.mayArrive (s : State) (p : FabPacket) : Bool :=
  p.dpkg == s.ident.pkg
    && if p.spkg == s.ident.pkg then p.opc == Opc.drop.num || s.net.contains p else true

/-! ## Frames that leave (R419) -/

/-- One flit of words, the rest of it zeros. -/
def flitOf (ws : List W64) : List Byte := padTo 64 (ws.flatMap bytes64)

/-- A frame without packets leaves a port, while its counter allows (R420). -/
def State.sendFrame (s : State) (n : Nat) (kind : FrameKind) (ws : List W64) : State :=
  if (s.port n).spent then s else s.emitFrame n kind (flitOf ws) []

/-! ## Keys and bring-up (R457) -/

/-- The report that asks for the next pair of keys (R457, R459). -/
def State.askKeys (s : State) (n : Nat) : State :=
  s.report none [] .linkKey { die := n / 4, from_ := 5, unit := n } 0 0 0 0

/-- The packets that wait at a port that went down take other ports; those of collectives stay (R416, R417). -/
def State.reroute (s : State) (n : Nat) : State :=
  let x := s.port n
  let (stay, go) := x.queue.partition fun p => p.opc == Opc.ctb.num
  go.foldl (fun s p => s.sendAt (s.portFor p) p) (s.setPort n { x with queue := stay })

/-- What the counters of a link begin at again under a new key, when they come near their limit: the counter of the first
frame that is not acknowledged (R420; log 38). -/
def Port.base (x : Port) : W64 :=
  if 2 ^ 62 ≤ x.fctrTx.toNat then match x.kept with
    | (f, _) :: _ => frameFctr f
    | [] => x.fctrTx
  else 0

/-- A port under its loaded pair of keys: the frames that are not acknowledged go out again (R421, R457). -/
def Port.rekeyed (x : Port) : Port :=
  let b := x.base
  { x with
    up := true, fctrTx := x.fctrTx - b, fctrRx := if 2 ^ 62 ≤ x.fctrRx.toNat then 0 else x.fctrRx,
    lost := x.lost - b.setWidth 32,
    kept := x.kept.map fun e => (frameRenew e.1 x.txkey x.ntx x.linkid (frameFctr e.1 - b), e.2 + 1),
    txkey := x.ntx, rxkey := x.nrx, nval := false, failed := none, asked := none }

/-- A port comes up under the loaded pair, which it consumes (R457). -/
def State.bringUp (s : State) (n : Nat) : State :=
  let x := s.port n
  ((s.setPort n x.rekeyed).askKeys n).flush n (x.queue.length + 1)

/-- A port retrains: under the loaded pair, or it stays down until one is written (R421, R457). -/
def State.retrain (s : State) (n : Nat) : State :=
  let x := s.port n
  if x.nval then s.bringUp n
  else (s.setPort n { x with up := false, failed := none, asked := none }).reroute n

def execLinkBringup (p : Fin 16) (s : State) : Out :=
  let x := s.port p.val
  if x.trained && x.nval && (!x.up || decide (2 ^ 62 ≤ x.fctrTx.toNat ∨ 2 ^ 62 ≤ x.fctrRx.toNat)) then .next (s.bringUp p.val) else .next s

/-! ## Frames that fail (R421) -/

/-- What a packet that the link lost means here: a request of this package, or the answer to one, is not performed at the
requester, and the stream of a control packet from another package goes on without it (R421; log 38). -/
def State.losePacket (s : State) (p : FabPacket) : State :=
  let req : Option Req := s.reqs.find? fun r =>
    if p.spkg == s.ident.pkg then r.rid == p.rid && r.dst == p.dpkg && r.packet.opc == p.opc
    else r.rid == p.rid && r.dst == p.spkg && isAnswer p
  let s := if p.control && p.spkg != s.ident.pkg && !fromSwitch p then
      let st := s.stream p.spkg
      (s.setStream p.spkg { st with gone := st.gone ++ [p.seq] }).handStream p.spkg
    else s
  match req with
  | some r => (s.failReq r { code := .fabric, hard := true }).goOn
  | none => s

/-- The lost packets are of the network no more. -/
def State.loseAll (s : State) (ps : List FabPacket) : State :=
  ps.foldl State.losePacket { s with net := s.net.filter fun p => !ps.contains p }

/-- The tag of a frame does not verify: the other end is asked for it again. The fourth failing copy is given up: its flits
are passed over, and the link retrains (R421). -/
def State.failFrame (s : State) (n : Nat) (f : Frame) : State :=
  let x := s.port n
  let times := match x.failed with
    | some (_, k) => k + 1
    | none => 1
  let s := (s.setPort n { x with failed := some (frameFctr f, times) }).sendFrame n .retry [frameFctr f]
  if times < 4 then s
  else
    let y := s.port n
    ((s.setPort n { y with failed := none, fctrRx := frameFctr f + BitVec.ofNat 64 (frameCount f) }).loseAll f.sent).retrain n

/-- The flit count up to the end of a frame, those of frames that were given up left out (R419). -/
def Port.through (x : Port) (f : Frame) : W32 := (frameFctr f).setWidth 32 + BitVec.ofNat 32 (frameCount f) - x.lost

/-- The frames that a flit count of the other end acknowledges are kept no longer (R419). -/
def Port.acked (x : Port) (ackc : W32) : List (Frame × Nat) :=
  x.kept.filter fun e => (ackc - x.through e.1).toInt < 0

/-- The frame at a counter and those after it go out again as they were. -/
def resent (fctr : W64) (l : List (Frame × Nat)) : List (Frame × Nat) :=
  l.map fun e => if fctr.toNat ≤ (frameFctr e.1).toNat then (e.1, e.2 + 1) else e

/-- The other end asks again for the frame at a flit counter. Asked for the fourth time, the frame is given up, and the link
retrains (R421). -/
def State.resend (s : State) (n : Nat) (fctr : W64) : State :=
  let x := s.port n
  let times := match x.asked with
    | some (c, k) => if c = fctr then k + 1 else 1
    | none => 1
  if times < 4 then s.setPort n { x with asked := some (fctr, times), kept := resent fctr x.kept }
  else
    let mine := x.kept.filter fun e => frameFctr e.1 == fctr
    let flits := (mine.map fun e => frameCount e.1).foldl (· + ·) 0
    ((s.setPort n { x with asked := none, lost := x.lost + BitVec.ofNat 32 flits,
                           kept := x.kept.filter fun e => frameFctr e.1 != fctr }).loseAll
      (mine.flatMap fun e => e.1.sent)).retrain n

/-! ## Totals (R427) -/

/-- A totals frame of the other end: its FREED, and its SENT, which restores RCVD when no retry is pending. -/
def State.takeTotals (s : State) (n : Nat) (sent freed : W64) : State :=
  let x := s.port n
  let more := decide (x.rcvd.toNat < sent.toNat) && x.failed.isNone
  (s.setPort n { x with peerFreed := freed, rcvd := if more then sent else x.rcvd,
                        freed := if more then x.freed + (sent - x.rcvd) else x.freed }).flush n (x.queue.length + 1)

/-- A totals frame is sent; its period is timing (R427). -/
def execTotalsFrameTimer (p : Fin 16) (s : State) : Out :=
  let x := s.port p.val
  .next (if x.up then s.sendFrame p.val .totals [x.sent, x.freed] else s)

/-! ## Frames that arrive (R419 to R422) -/

/-- A verified frame of n flits is counted. -/
def Port.counted (x : Port) (flits : Nat) : Port :=
  { x with failed := none, fctrRx := x.fctrRx + BitVec.ofNat 64 flits, ackc := x.ackc + BitVec.ofNat 32 flits }

/-- The flits of the lossless class among packets (R427). -/
def countedFlits (ps : List FabPacket) : Nat := ((ps.filter lossless).map pktFlits).foldl (· + ·) 0

/-- The packets that a frame of data carries. -/
def Port.packets (x : Port) (f : Frame) : List FabPacket :=
  if frameKind f = FrameKind.data.num then packetsOf (frameCount f) (frameClear f x.rxkey x.linkid) else []

/-- A verified frame is taken. One of the reserved kind is counted and has no effect (log 38). -/
def State.takeFrame (s : State) (n : Nat) (f : Frame) : State :=
  let x := s.port n
  let clear := frameClear f x.rxkey x.linkid
  let ps := x.packets f
  let c := BitVec.ofNat 64 (countedFlits ps)
  let y := x.counted (frameCount f)
  let s := s.setPort n { y with rcvd := x.rcvd + c, freed := x.freed + c, kept := x.acked (frameAckc f) }
  match frameKind f with
  | 0 => ps.foldl State.arriveAt { s with net := s.net.filter fun p => !ps.contains p }
  | 1 => s.takeTotals n (word64 clear) (word64 (clear.drop 8))
  | 2 => s.resend n (word64 clear)
  | _ => s

/-- The packets of a frame can have come. -/
def State.frameArrives (s : State) (ps : List FabPacket) : Bool := ps.all s.mayArrive

/-- A frame reaches the receiver of a port: discarded while an earlier frame is to be sent again, failed when its tag does
not verify, and taken otherwise (R421). A frame out of its place is no frame of this direction (log 38). -/
def execFrameReceive (p : Fin 16) (f : Frame) (s : State) : Out :=
  let x := s.port p.val
  if !x.up || !frameSized f || frameFctr f != x.fctrRx then .next s
  else if frameVerifies f x.rxkey x.linkid then .next (if s.frameArrives (x.packets f) then s.takeFrame p.val f else s)
  else .next (if s.frameArrives f.sent then s.failFrame p.val f else s)

/-- A verified totals frame of one flit: it is counted as every frame, and waits while an earlier frame is to be sent again
(R419, R421, R427). -/
def execTotalsFrameReceive (p : Fin 16) (rcvd freed : W64) (s : State) : Out :=
  let x := s.port p.val
  .next (if x.up && x.failed.isNone then (s.setPort p.val (x.counted 1)).takeTotals p.val rcvd freed else s)

/-- A verified retry request of one flit. -/
def execRetryRequestReceive (p : Fin 16) (n : W64) (s : State) : Out :=
  let x := s.port p.val
  .next (if x.up && x.failed.isNone then (s.setPort p.val (x.counted 1)).resend p.val n else s)

end Sys2Proof.Machine
end

