-- ==== Sys2Proof/Machine/MemEvents.lean ====
section
/-!
DEFINITION. Events of memory and translation: the tun (R294, R295), evictions (R293), walks (R302), soft errors (R296) and
invalidation commands (R304).
-/

namespace Sys2Proof.Machine

/-! ## Lines (R293 to R296) -/

/-- A contribution arrives at its home slice and is merged (R294; log 7). -/
def execTunMerge (i : Nat) (s : State) : Out :=
  match s.tun[i]? with
  | none => .next s
  | some t => .next ({ s with tun := s.tun.eraseIdx i }.mergeTun t)

def execTunEviction (l : Nat) (s : State) : Out := .next (if (s.line l).tun then s.evict l else s)

def execLineEviction (l : Nat) (s : State) : Out :=
  .next (if (s.line l).dirty && !(s.line l).tun then s.evict l else s)

/-- Granules of 8 bytes below this number are of memory; the others, less it, are of the SRAM pools (R288). -/
def firstPoolGranule : Nat := 2 ^ 39

/-- Granules from this number on are of copies in the L1s: core c's copy of granule g is this plus c * 2^39 + g. -/
def firstL1Granule : Nat := 2 ^ 40

/-- A granule of a core's copy of a line is poisoned; one that the L1 does not hold cannot be. -/
def State.poisonL1 (s : State) (core g : Nat) : State :=
  let u := s.core core
  let hit (e : L1Line) : L1Line := if e.line = g / 16 then { e with bad := g % 16 :: e.bad } else e
  if u.l1.any fun e => e.line == g / 16 then s.setCore core { u with l1 := u.l1.map hit } else s

/-- A soft error: one that is corrected is counted, another poisons 8 bytes (R296). -/
def execEccError (granule : Nat) (hard : Bool) (s : State) : Out :=
  if !hard then .next { s with harbour := { s.harbour with corrected := s.harbour.corrected + 1 } }
  else if granule < firstPoolGranule then
    .next (if s.poison.contains granule then s else { s with poison := granule :: s.poison })
  else if firstL1Granule ≤ granule then
    .next (s.poisonL1 ((granule - firstL1Granule) / 2 ^ 39) ((granule - firstL1Granule) % 2 ^ 39))
  else
    let g := granule - firstPoolGranule
    .next (if s.spoison.contains g then s else { s with spoison := g :: s.spoison })

/-! ## Walks (R302) -/

/-- The entry is of the same page and address space. -/
def TlbEntry.same (t u : TlbEntry) : Bool := t.asid == u.asid && t.va == u.va && t.size == u.size

/-- The set of a TLB of 64 sets that a page is put into (log 10). -/
def TlbEntry.set (t : TlbEntry) : Nat := t.va / t.size % 64

/-- A translation put into a TLB of 64 sets of 8 ways, or into a die's translation cache of n entries; the one taken
longest ago leaves (R302; log 10). -/
def tlbTake (t : TlbEntry) (l : List TlbEntry) : List TlbEntry :=
  keepFirst (fun u => u.set == t.set) 8 (t :: l.filter fun u => !u.same t)
def tcacheTake (n : Nat) (t : TlbEntry) (l : List TlbEntry) : List TlbEntry := (t :: l.filter fun u => !u.same t).take n

/-- The well-formed node entries that a walk reads (R298, R302). -/
def State.walkNodes (s : State) (asid va : Nat) : List (Nat × Nat × Nat × Nat) → Nat → List NodeEntry
  | [], _ => []
  | (lv, sh, n, next) :: ls, node =>
    let pa := node + 16 * (va / 2 ^ sh % n)
    let e := leNat (s.bytesUnder pa 16 0)
    let np := fld e 9 33 * 512
    if !s.populated node 16 || s.poisoned pa 16 || e % 4 != 1 || fld e 42 86 != 0 || fld e 2 7 != 0 || lv == 3
      || np % 2 ^ next != 0 then []
    else { asid := asid, lv := lv, va := va / 2 ^ sh * 2 ^ sh, size := 2 ^ sh, node := np }
      :: State.walkNodes s asid va ls np

/-- The node entries of a walk on a die: from the node that its node cache names, or from the root. -/
def State.nodesRead (s : State) (die asid va : Nat) : List NodeEntry :=
  match s.nodeCached die asid va with
  | some e => s.walkNodes asid va (levels.drop (e.lv + 1)) e.node
  | none =>
    let e := leNat (s.bytesUnder (s.xlat.astbase.toNat + 16 * asid) 16 0)
    if flag e 64 then s.walkNodes asid va levels (fld e 17 25 * 2 ^ 17) else []

/-- The node cache of a die after a walk: of the entries that it held and of those that the walk read, those that it keeps
are free (R302; log 10). -/
def State.keepNodes (s : State) (die asid va : Nat) : State :=
  let u := s.die die
  let all := u.nodes ++ s.nodesRead die asid va
  let (x, s) := s.free
  s.setDie die { u with nodes := ((all.zipIdx 0).filter fun e => flag x e.2).map (·.1) }

/-- A walk completes on a die: a valid, well-formed leaf goes to the die's translation cache and to the TLBs of the
cores that wait for it, which are free (R302; log 2), and node entries to its node cache. No invalid entry is cached. -/
def execPageWalk (die asid : Nat) (va : W64) (s : State) : Out :=
  if 4 ≤ die ∨ 2 ^ 12 ≤ asid ∨ 2 ^ 52 ≤ va.toNat then .next s
  else
    let r := s.walk die asid va.toNat
    let s := s.keepNodes die asid va.toNat
    match r with
    | .leaf t false =>
      let (x, s) := s.free
      let u := s.die die
      let s := s.setDie die { u with tcache := tcacheTake 16384 t u.tcache }
      .next ((List.range 64).foldl (fun s c =>
        if flag x c then
          let v := s.core (64 * die + c)
          s.setCore (64 * die + c) { v with tlb := tlbTake t v.tlb }
        else s) s)
    | _ => .next s

/-! ## Invalidation (R304) -/

/-- A write of XCMD queues a command with the value that XVA then has. -/
def State.queueXcmd (s : State) (kind asid n : Nat) : State :=
  { s with xlat := { s.xlat with cmds := s.xlat.cmds ++ [(kind, asid, s.xlat.xva, n)] } }

def execXcmdInvalidatePage (asid : BitVec 12) (s : State) : Out := .next (s.queueXcmd 0 asid.toNat 0)
def execXcmdInvalidateRange (asid : BitVec 12) (n : W32) (s : State) : Out := .next (s.queueXcmd 1 asid.toNat n.toNat)
def execXcmdInvalidateAsid (asid : BitVec 12) (s : State) : Out := .next (s.queueXcmd 2 asid.toNat 0)
def execXcmdInvalidateAll (s : State) : Out := .next (s.queueXcmd 3 0 0)

/-- A command removes the translation. -/
def removes (c : Nat × Nat × W64 × Nat) (t : TlbEntry) : Bool :=
  let xva := c.2.2.1.toNat
  match c.1 with
  | 0 => t.asid == c.2.1 && decide (t.va ≤ xva) && decide (xva < t.va + t.size)
  | 1 => decide (0 < c.2.2.2) && t.asid == c.2.1 && decide (t.va < xva + c.2.2.2 * 2 ^ 16) && decide (xva < t.va + t.size)
  | 2 => t.asid == c.2.1
  | _ => true

/-- A part of a copy that was translated with a removed translation is under way. -/
def State.partUses (s : State) (c : Nat × Nat × W64 × Nat) : Bool :=
  s.clusters.any fun e => e.2.copies.any fun p => p.part.any fun x => x.src.any (removes c) || x.dst.any (removes c)

/-- The oldest command completes: every access that has been sent out is performed, no part goes on with a removed
translation, and no cache holds one (R304). -/
def execInvalidationComplete (s : State) : Out :=
  match s.xlat.cmds with
  | [] => .next s
  | c :: rest =>
    if !s.reqs.isEmpty || s.partUses c then .next s
    else
      let s := s.drainTun
      let keep (l : List TlbEntry) : List TlbEntry := l.filter fun t => !removes c t
      .next { s with
        cores := s.cores.map fun (e : Nat × Core) => (e.1, { e.2 with tlb := keep e.2.tlb }),
        dies := s.dies.map fun (e : Nat × Die) =>
          (e.1, { e.2 with tcache := keep e.2.tcache, nodes := if c.1 = 3 then [] else e.2.nodes }),
        xlat := { s.xlat with cmds := rest, xseq := s.xlat.xseq + 1 } }

end Sys2Proof.Machine
end

