-- ==== Sys2Proof/Machine/Registers.lean ====
section
/-!
DEFINITION. The host's side: memory accesses (R446), the control aperture (R448), the feature words (R450), keys (R456, R457),
attestation (R458) and the fault mailbox (R459).
-/

namespace Sys2Proof.Machine

/-! ## Host memory accesses (R446, R447) -/

/-- A Fueveip link is present: link 0 is that of die 0, link 1 that of die 2 (R7, R449, R452). -/
def State.linkPresent (s : State) (l : Fin 2) : Bool :=
  if l = 0 then s.ident.clusters[0].getLsbD 57 else s.ident.clusters[2].getLsbD 57

/-- The bytes that an access reads or writes. -/
def hostSize (r : HostRequest) : Nat :=
  match r.write with
  | some bs => bs.length
  | none => r.len

/-- An access of n bytes at a physical address, cut at the ends of lines. -/
def hostParts (r : HostRequest) : List (Nat × Nat) := spanParts (hostSize r / 128 + 2) r.addr (hostSize r)

/-- A part of a host access lies where there is memory. -/
def State.hostReach (s : State) (r : Nat × Nat) : Bool := s.populated r.1 r.2

/-- A part of a host access at its home slice, under the key of its link. -/
def State.hostXl (s : State) (key pa : Nat) : Xl := { pa := pa, home := s.ident.pkg, key := key, rc := false, cache := 0 }

/-- Bytes that the host writes, part by part; a part where there is no memory is dropped and counted. -/
def State.hostWrite (s : State) (key : Nat) (bs : List Byte) : List (Nat × Nat) → State
  | [] => s
  | r :: t =>
    let s := if s.hostReach r then (s.atHome (s.hostXl key r.1)).writePa noCore r.1 (bs.take r.2) else s.discard
    State.hostWrite s key (bs.drop r.2) t

/-- Bytes that the host reads; those of a part where there is no memory are zero. Poisoned bytes are reported (R296;
log 37). -/
def State.hostRead (s : State) (key : Nat) : List (Nat × Nat) → List Byte × State
  | [] => ([], s)
  | r :: t =>
    let (bs, s) := if s.hostReach r then
        let s := s.atHome (s.hostXl key r.1)
        (s.readPa r.1 r.2, if s.poisoned r.1 r.2 then s.report none [] .ecc { die := dieOfPa r.1, from_ := 0, unit := 0 } 0 0 0 0
          else s)
      else (List.replicate r.2 0, s.discard)
    let (cs, s) := State.hostRead s key t
    (bs ++ cs, s)

/-- What a host read returns (R446). -/
def State.returned (s : State) (bs : List Byte) : State := { s with harbour := { s.harbour with hostData := bs } }

/-- An access of the memory aperture ends with an error completion on its link: HKEY names no loaded key (R449), or the device
is in recovery mode (R451). -/
def State.hostFails (s : State) (r : HostRequest) : Bool := s.harbour.recovery || !s.keyLoaded s.harbour.hkey[r.link]

/-- An access of the memory aperture. One that fails changes nothing here: its error completion is the host's to see. -/
def State.hostMemory (s : State) (r : HostRequest) : State :=
  let key := s.harbour.hkey[r.link]
  if s.hostFails r then s
  else match r.write with
    | some bs => s.hostWrite key bs (hostParts r)
    | none =>
      let (bs, s) := s.hostRead key (hostParts r)
      s.returned bs

/-! ## Feature words (R354, R450) -/

/-- The lock of the feature words. -/
def State.lockFeatures (s : State) : State :=
  if s.ident.flock then s
  else
    let facc : Vector W64 4 := Vector.ofFn fun (i : Fin 4) => s.ident.facc[i] &&& s.ident.feat[i]
    { s with ident := { s.ident with facc := facc, flock := true },
             launch := { s.launch with pf := Vector.replicate 4 (facc[0] &&& 0x1F) } }

def execFeatureLock (s : State) : Out := .next s.lockFeatures

/-- Bits of a partition's feature mask are cleared (R354). -/
def State.clearMask (s : State) (n : Fin 4) (v : W64) : State :=
  { s with launch := { s.launch with pf := s.launch.pf.set n (s.launch.pf[n] &&& v) } }

def execPartitionFeatureMaskWrite (n : Fin 4) (v : W64) (s : State) : Out := .next (s.clearMask n v)

/-! ## The generator control block (R397) -/

def execGeneratorEnable (d : Fin 4) (on : Bool) (s : State) : Out :=
  .next (s.setDie d.val { s.die d.val with gen := on })

/-! ## Memory keys (R301, R456) -/

/-- A command of the key block, with the KMAT that stands there. -/
def State.keyCommand (s : State) (kop kid : Nat) : State :=
  let k := s.harbour.key
  { s with harbour := { s.harbour with key := { k with cmds := k.cmds ++ [(kop, kid, leNat k.kmat)] } } }

def execKeyLoad (id : BitVec 12) (s : State) : Out := .next (s.keyCommand 1 id.toNat)
def execKeyRemove (id : BitVec 12) (s : State) : Out := .next (s.keyCommand 2 id.toNat)

/-- Every cached line of a key id is written back and dropped, and the key is gone. -/
def State.removeKey (s : State) (kid : Nat) : State :=
  let mine : List Nat := (s.lines.filter fun e => e.2.key == kid).map (·.1)
  let s := mine.foldl State.writeBack s.drainTun
  { s with keys := s.keys.erase kid,
           cores := s.cores.map fun (e : Nat × Core) => (e.1, { e.2 with l1 := e.2.l1.filter fun x => x.key != kid }) }

/-- The oldest key command completes: refused for KID 0 and for an unassigned KOP (R456). -/
def execKeyCommandComplete (s : State) : Out :=
  let k := s.harbour.key
  match k.cmds with
  | [] => .next s
  | (kop, kid, mat) :: rest =>
    let ok := kid != 0 && (kop == 1 || kop == 2)
    let s := if !ok then s else
      let s := s.removeKey kid
      if kop = 1 then { s with keys := s.keys.set kid mat } else s
    .next { s with harbour := { s.harbour with
      key := { k with cmds := rest, kseq := k.kseq + 1, kstat := if ok then 0 else 1 } } }

/-! ## Link keys (R457) -/

/-- Word i of a 256-bit number replaced. -/
def setWord (n i : Nat) (v : W64) : Nat := n - fld n (64 * i) 64 * 2 ^ (64 * i) + v.toNat * 2 ^ (64 * i)

/-- The last word of NRX is written: the pair is loaded (R457; log 41). -/
def State.loadLink (s : State) (p : Nat) (v : W64) : State :=
  let x := s.port p
  s.setPort p { x with nrx := setWord x.nrx 3 v, nval := true }

def execLinkKeyLoad (p : Fin 16) (v : W64) (s : State) : Out := .next (s.loadLink p.val v)

/-! ## Attestation (R458) -/

/-- A report is requested with the nonce that stands there; it takes the place of a request that is pending. -/
def State.requestReport (s : State) (v : W64) : State :=
  if v = 1 then
    let a := s.harbour.attest
    { s with harbour := { s.harbour with attest := { a with pending := some a.nonce, done := false } } }
  else s

def execAttestRequest (v : W64) (s : State) : Out := .next (s.requestReport v)

/-- The bytes that a report signs: the nonce, MFW, MCFG, the accepted features, the present masks and the start number. -/
def State.reportBody (s : State) (nonce : List Byte) : List Byte :=
  nonce ++ s.ident.mfw ++ s.ident.mcfg ++ s.ident.facc.toList.flatMap bytes64 ++ s.ident.cores.toList.flatMap bytes64
    ++ s.ident.clusters.toList.flatMap bytes64 ++ bytes32 s.harbour.start

/-- The bytes of an ML-DSA-87 signature (R451). -/
def signatureBytes : Nat := 4627

/-- The report is complete; its signature is free (log 2). -/
def execAttestReportDone (s : State) : Out :=
  match s.harbour.attest.pending with
  | none => .next s
  | some n =>
    let body := s.reportBody n
    let (sig, s) := s.freeBytes signatureBytes
    .next { s with harbour := { s.harbour with
      attest := { s.harbour.attest with pending := none, report := body ++ sig, done := true } } }

/-! ## The fault mailbox (R459) -/

/-- The oldest report is posted when the mailbox has room. -/
def execMailboxPost (s : State) : Out :=
  let b := s.harbour.box
  match s.reports with
  | [] => .next s
  | r :: rest =>
    if 32 ≤ (b.mtail - b.mhead).toNat then .next s
    else .next { s with reports := rest, harbour := { s.harbour with
      box := { b with mtail := b.mtail + 1, entries := b.entries.set (b.mtail.toNat % 32) r.bytes } } }

end Sys2Proof.Machine
end

