-- ==== Sys2Proof/Machine/Sha3.lean ====
section
/-!
DEFINITION. SHA3-512, the hash of MCFG (R449, R451). The spec gives its name; its steps are those of the published standard
(log 42).

The state is 25 lanes of 64 bits, the lane of column x and row y at place x + 5 y.
-/

namespace Sys2Proof.Machine

/-- A lane turned left. -/
def turnLane (x n : Nat) : Nat := x <<< n % 2 ^ 64 ||| x >>> (64 - n)

/-- How far the lanes turn, by place. -/
def laneTurns : List Nat :=
  [0, 1, 62, 28, 27, 36, 44, 6, 55, 20, 3, 10, 43, 25, 39, 41, 45, 15, 21, 8, 18, 2, 61, 56, 14]

/-- The constants of the rounds. -/
def roundMarks : List Nat :=
  [0x0000000000000001, 0x0000000000008082, 0x800000000000808A, 0x8000000080008000, 0x000000000000808B, 0x0000000080000001]
    ++ [0x8000000080008081, 0x8000000000008009, 0x000000000000008A, 0x0000000000000088, 0x0000000080008009, 0x000000008000000A]
    ++ [0x000000008000808B, 0x800000000000008B, 0x8000000000008089, 0x8000000000008003, 0x8000000000008002, 0x8000000000000080]
    ++ [0x000000000000800A, 0x800000008000000A, 0x8000000080008081, 0x8000000000008080, 0x0000000080000001, 0x8000000080008008]

/-- The lanes of a new state, from their column and row. -/
def lanesOf (f : Nat → Nat → Nat) : List Nat := (List.range 25).map fun i => f (i % 5) (i / 5)

/-- A round: the columns' parities, the turns with the change of places, the rows, and the round's constant. -/
def hashRound (a : List Nat) (mark : Nat) : List Nat :=
  let col (x : Nat) : Nat := (List.range 5).foldl (fun c y => c ^^^ a.getD (x % 5 + 5 * y) 0) 0
  let cols := (List.range 5).map col
  let par := (List.range 5).map fun x => cols.getD ((x + 4) % 5) 0 ^^^ turnLane (cols.getD ((x + 1) % 5) 0) 1
  let b := lanesOf fun x y =>
    let i := (x + 3 * y) % 5 + 5 * x
    turnLane (a.getD i 0 ^^^ par.getD (i % 5) 0) (laneTurns.getD i 0)
  let at_ (x y : Nat) : Nat := b.getD (x % 5 + 5 * y) 0
  lanesOf fun x y =>
    at_ x y ^^^ ((2 ^ 64 - 1 - at_ (x + 1) y) &&& at_ (x + 2) y) ^^^ (if x + 5 * y = 0 then mark else 0)

/-- The message in whole blocks of 72 bytes: its end is marked. -/
def hashPad (bs : List Byte) : List Byte :=
  let n := 72 - bs.length % 72
  bs ++ (if n = 1 then [0x86] else 0x06 :: List.replicate (n - 2) 0 ++ [0x80])

/-- Blocks taken in one after the other, n of them. -/
def hashBlocks : Nat → List Byte → List Nat → List Nat
  | 0, _, a => a
  | n + 1, bs, a =>
    let block := (List.range 9).map fun i => leNat ((bs.drop (8 * i)).take 8)
    let a := (a.zipIdx 0).map fun e => e.1 ^^^ block.getD e.2 0
    hashBlocks n (bs.drop 72) (roundMarks.foldl hashRound a)

/-- The 64 bytes of the hash. -/
def sha3x512 (bs : List Byte) : List Byte :=
  ((hashBlocks (bs.length / 72 + 1) (hashPad bs) (List.replicate 25 0)).take 8).flatMap (leBytes 8)

end Sys2Proof.Machine
end

