-- ==== Sys2Proof/Machine/Start.lean ====
section
/-!
DEFINITION. Start-up and the boot journal (R451 to R453), resets (R460), islands and power (R454, R455).
-/

namespace Sys2Proof.Machine

/-! ## The steps of a start (R452) -/

/-- An attempt at a step: the step, its die, and the unit within the step. -/
structure BootUnit where
  step : Nat
  die : Nat
  num : Nat
  deriving DecidableEq, Repr

/-- UNIT of a journal entry. -/
def BootUnit.unit (u : BootUnit) : Nat := u.die % 4 * 2 ^ 14 + u.num

/-- Units 0 to n - 1 of a step on every die of a list. -/
def bootOn (step n : Nat) (dies : List Nat) : List BootUnit :=
  dies.flatMap fun d => (List.range n).map fun i => { step := step, die := d, num := i }

/-- The steps with their units, in order. Of step 4, units 0 to 15 are the clusters, 16 the sort engine and 17 the
generator (log 39). -/
def bootUnits : List BootUnit :=
  bootOn 1 1 [0] ++ bootOn 2 1 [0] ++ bootOn 3 32 [0, 1, 2, 3] ++ bootOn 4 18 [0, 1, 2, 3] ++ bootOn 5 2 [0, 1, 2, 3]
    ++ bootOn 6 1 [0, 1, 2, 3] ++ bootOn 7 1 [0, 2] ++ bootOn 8 4 [0, 1, 2, 3] ++ bootOn 9 1 [0] ++ bootOn 10 1 [0]

/-- The step has an alternative (R452). -/
def hasAlternative (step : Nat) : Bool := [1, 2, 3, 5, 7].contains step

/-- What the journal makes a start do at a unit (R453). -/
inductive BootPlan where
  | itself | alternative | skip
  deriving DecidableEq, Repr

/-- The journal's entries of a step and unit, newest first. -/
def unitEntries (j : List JEntry) (u : BootUnit) : List JEntry :=
  (j.filter fun e => e.step == u.step && e.unit == u.unit).reverse

/-- The plan for a unit, from the previous start's last entry for it and the starts that have used its alternative. A unit
that was skipped stays skipped (log 39). -/
def bootPlan (j : List JEntry) (uses : Nat) (u : BootUnit) : BootPlan :=
  match unitEntries j u with
  | [] => .itself
  | e :: _ =>
    match e.out with
    | 0 | 2 => if e.att = 0 ∧ hasAlternative u.step then .alternative else .skip
    | 1 => if e.att = 1 ∧ uses < 16 then .alternative else .itself
    | _ => .skip

/-! ## The configuration image (R451) -/

/-- The image's fields: package, partitions, features, ceilings in MHz and W. Of CPMODE the two bits that PMODE has count
(log 39). -/
def imagePkg (im : List Byte) : Nat := fld (fieldAt im 0x0C 4) 0 12
def imagePmode (im : List Byte) : Nat := fld (fieldAt im 0x0C 4) 12 2
def imageFeat (im : List Byte) (n : Nat) : W64 := word64 (im.drop (0x10 + 8 * n))
def imageFmaxc (im : List Byte) : Nat := min 2400 (fieldAt im 0x30 2)
def imageFmaxs (im : List Byte) : Nat := min 1800 (fieldAt im 0x32 2)
def imagePmax (im : List Byte) : Nat := min 3000 (fieldAt im 0x34 2)

/-- The image verifies: it is one, its length is that of its body and signature, no reserved field is set, and its signature
is good. -/
def imageGood (im : List Byte) : Bool :=
  fieldAt im 0 4 == 0x47434653 && fieldAt im 4 2 == 1 && fieldAt im 6 2 == 0 && decide (0x40 ≤ fieldAt im 8 4)
    && im.length == fieldAt im 8 4 + 4627 && fieldAt im 0x0E 2 == 0 && fieldAt im 0x36 10 == 0 && Config.imageSigned im

/-! ## What a start makes (R452) -/

/-- A start under way: the journal, the outcomes so far and the units fenced. -/
structure Boot where
  journal : List JEntry
  start : W32
  /-- the next free value -/
  choice : Nat
  /-- the harbourmaster's cycle count (R9) -/
  hm : Nat
  /-- of management flash (R451, R453) -/
  images : Vector (List Byte) 2
  uses : Tbl Nat
  fenced : List BootUnit
  /-- units that have passed by their alternative -/
  second : List BootUnit
  /-- a step without which only recovery mode is left has failed -/
  recovery : Bool
  deriving DecidableEq, Repr

/-- A free value. -/
def Boot.free (b : Boot) : Nat × Boot := (Config.freeBits b.choice, { b with choice := b.choice + 1 })

/-- A journal entry is written, a free number of the harbourmaster's cycles after the last; the ring holds 4,096 (R9,
R453; log 2). -/
def Boot.note (b : Boot) (u : BootUnit) (att out : Nat) : Boot :=
  let (x, b) := b.free
  let hm := b.hm + x
  let e : JEntry := { start := b.start, step := u.step, unit := u.unit, att := att, out := out, hcyc := BitVec.ofNat 64 hm }
  { b with hm := hm, journal := (b.journal ++ [e]).drop (b.journal.length + 1 - 4096) }

/-- An attempt: whether it passed, which is free but for a configuration image (R451). A passed alternative counts a start
that has used it, and an attempt of the step itself begins the count anew (R453). -/
def Boot.attempt (b : Boot) (u : BootUnit) (att : Nat) : Bool × Boot :=
  let b := b.note u att 0
  let (x, b) := b.free
  let ok := if u.step = 2 then imageGood b.images[att % 2] else x % 2 == 0
  let key := u.step * 2 ^ 16 + u.unit
  let b := b.note u att (if ok then 1 else 2)
  (ok, if att = 0 then { b with uses := b.uses.erase key }
    else if ok then { b with uses := b.uses.set key (b.uses.getD key 0 + 1), second := b.second ++ [u] } else b)

/-- The unit is fenced; of steps 1, 2 and 9, the device is left in recovery mode (R451, R452; log 39). -/
def Boot.fence (b : Boot) (u : BootUnit) : Boot :=
  { b with fenced := b.fenced ++ [u], recovery := b.recovery || [1, 2, 9].contains u.step }

/-- What the journal and the count of uses ask for at a unit. -/
def Boot.plan (b : Boot) (u : BootUnit) : BootPlan := bootPlan b.journal (b.uses.getD (u.step * 2 ^ 16 + u.unit) 0) u

/-- The unit's step is not begun: in recovery mode no more than the Fueveip links are trained, of which the control aperture
has need (R451; log 39). -/
def Boot.passes (b : Boot) (u : BootUnit) : Bool := b.recovery && u.step != 7

/-- One unit of a start: the step itself and then its alternative, or what the journal asks for (R452, R453). -/
def Boot.unit (b : Boot) (u : BootUnit) : Boot :=
  let second (b : Boot) : Boot :=
    let (ok, b) := b.attempt u 1
    if ok then b else b.fence u
  if b.passes u then { b with fenced := b.fenced ++ [u] }
  else match b.plan u with
  | .skip => (b.note u 0 3).fence u
  | .alternative => second b
  | .itself =>
    let (ok, b) := b.attempt u 0
    if ok then b else if hasAlternative u.step then second b else b.fence u

/-- A start whose attempt at some unit hangs: the journal that the watchdog finds (R453). -/
def Boot.hang (b : Boot) (n : Nat) : Boot :=
  let b := (bootUnits.take n).foldl Boot.unit b
  match bootUnits[n]? with
  | none => b
  | some u => if b.passes u then b else match b.plan u with
    | .skip => b
    | .alternative => b.note u 1 0
    | .itself => b.note u 0 0

/-! ## The present masks (R449, R453) -/

/-- The unit of a step is fenced. -/
def Boot.out (b : Boot) (step die num : Nat) : Bool := b.fenced.contains { step := step, die := die, num := num }

/-- A cluster is fenced: by its island or by its self-test. -/
def Boot.clusterOut (b : Boot) (die c : Nat) : Bool := b.out 3 die c || b.out 4 die c

/-- A number from its bits. -/
def bitsOf (n : Nat) (f : Nat → Bool) : W64 := BitVec.ofNat 64 ((List.range n).foldl (fun x i => x + if f i then 2 ^ i else 0) 0)

/-- CORES of a die. -/
def Boot.coreMask (b : Boot) (die : Nat) : W64 := bitsOf 64 fun i => !b.clusterOut die (i / 4)

/-- CLU of a die. An island that is no cluster's clears no bit, since the masks are of units (R7; log 39). -/
def Boot.unitMask (b : Boot) (die : Nat) : W64 := bitsOf 58 fun i =>
  if i < 48 then !b.clusterOut die (i % 16)
  else if i < 50 then !b.out 4 die (i - 32)
  else if i < 52 then !b.out 5 die (i - 50)
  else if i = 52 then !b.out 6 die 0
  else if i < 57 then !b.out 8 die (i - 53)
  else die % 2 == 0 && !b.out 7 die 0

/-- The unit of step n that covers the package has passed by its alternative. -/
def Boot.other (b : Boot) (n : Nat) : Bool := b.second.contains { step := n, die := 0, num := 0 }

/-- The configuration image in use; none when neither copy verified (R451). -/
def Boot.image (b : Boot) : Option (List Byte) :=
  if b.out 2 0 0 then none else some (if b.other 2 then b.images[1] else b.images[0])

/-- MFW and MCFG; zeros of what was not verified (R449, R451, R452; log 39). -/
def Boot.mfw (b : Boot) : List Byte :=
  if b.out 1 0 0 then List.replicate 64 0 else leBytes 64 (Config.firmwareHash (if b.other 1 then 1 else 0))
def Boot.mcfg (b : Boot) : List Byte :=
  match b.image with
  | some im => sha3x512 im
  | none => List.replicate 64 0

/-- The identity block after a start (R449, R451, R452). -/
def Boot.ident (b : Boot) (old : Ident) : Ident :=
  let im := b.image.getD []
  { devid := old.devid, pkg := if b.recovery then 0xFFF else imagePkg im, pmode := imagePmode im,
    cores := Vector.ofFn fun (i : Fin 4) => b.coreMask i.val,
    clusters := Vector.ofFn fun (i : Fin 4) => b.unitMask i.val,
    feat := if b.recovery then Vector.replicate 4 0 else Vector.ofFn fun (i : Fin 4) => imageFeat im i.val,
    facc := Vector.replicate 4 0, flock := false, mfw := b.mfw, mcfg := b.mcfg }

/-! ## Islands (R454, R455) -/

/-- The island of a die before any reading. -/
def Island.new : Island := { freq := 0, mv := 0, slack := 0, temp := 0, gated := false, fenced := false, lowered := 0 }

/-- Every island's number. -/
def islandNos : List Nat := List.range 128

/-- A cluster island (R454). -/
def isClusterIsland (n : Nat) : Bool := decide (n % 32 < 16)

/-- The frequency ceiling of an island: that of the shared-cache islands, and of all others (R451, R454; log 39). -/
def Power.ceiling (p : Power) (n : Nat) : Nat := if 16 ≤ n % 32 ∧ n % 32 < 24 then p.fmaxs else p.fmaxc

/-- An island planned anew: a free multiple of 100 MHz up to its ceiling, with free readings; what the power limit had taken
of the old frequency is forgotten (R454, R455; log 2). -/
def State.planIsland (s : State) (n : Nat) : State :=
  let (f, s) := s.free
  let (v, s) := s.free
  let (k, s) := s.free
  let (t, s) := s.free
  let p := s.harbour.power
  let i := p.islands.getD n Island.new
  let i := { i with freq := f % (p.ceiling n / 100 + 1) * 100, mv := v % 2 ^ 16, slack := k % 2 ^ 16, temp := t % 2 ^ 8,
                    lowered := 0 }
  { s with harbour := { s.harbour with power := { p with islands := p.islands.set n i } } }

/-- The margins of every island are planned (R454). -/
def State.planAll (s : State) : State :=
  let s := islandNos.foldl State.planIsland s
  { s with harbour := { s.harbour with power := { s.harbour.power with planned := s.clk.hours } } }

def execMarginReplan (s : State) : Out :=
  .next (if s.harbour.power.planned + 1024 ≤ s.clk.hours then s.planAll else s)

/-- An island changed. -/
def State.setIsland (s : State) (n : Nat) (f : Island → Island) : State :=
  let p := s.harbour.power
  { s with harbour := { s.harbour with power := { p with islands := p.islands.set n (f (p.islands.getD n Island.new)) } } }

/-- The steps by which the power limit has lowered an island. -/
def Power.lowered (p : Power) (n : Nat) : Nat := (p.islands.getD n Island.new).lowered

/-- The cluster islands, and those that can go down a step. -/
def clusterIslands : List Nat := islandNos.filter isClusterIsland
def Power.canLower (p : Power) : List Nat := clusterIslands.filter fun n => decide (200 ≤ (p.islands.getD n Island.new).freq)

/-- The island that goes down next: of those lowered least, the highest (R455; log 39). -/
def Power.nextDown (p : Power) : Option Nat :=
  let l := p.canLower
  (l.reverse).find? fun n => l.all fun m => decide (p.lowered n ≤ p.lowered m)

/-- The island that goes up next: of those lowered most, the lowest; none above its ceiling (R454). -/
def Power.nextUp (p : Power) : Option Nat :=
  clusterIslands.find? fun n => decide (0 < p.lowered n) && clusterIslands.all (fun m => decide (p.lowered m ≤ p.lowered n))
    && decide ((p.islands.getD n Island.new).freq + 100 ≤ p.ceiling n)

/-- The power limit in W. -/
def Power.limit (p : Power) : Nat := min p.pcap p.pmax

/-- A 10 ms window ends with an average power: above the limit an island steps down; after 100 ms below 95 % of it one steps
up. A limit that one step does not meet takes further such events, which nothing spaces: each is one step (R455, R461). -/
def execPowerWindowTimer (watts : Nat) (s : State) : Out :=
  let p := s.harbour.power
  let calm := if watts * 100 < p.limit * 95 then p.calm + 1 else 0
  let s : State := { s with harbour := { s.harbour with power := { p with calm := calm } } }
  if p.limit < watts then
    .next (match p.nextDown with
      | some n => s.setIsland n fun i => { i with freq := i.freq - 100, lowered := i.lowered + 1 }
      | none => s)
  else if 10 ≤ calm then
    .next (match p.nextUp with
      | some n => s.setIsland n fun i => { i with freq := i.freq + 100, lowered := i.lowered - 1 }
      | none => s)
  else .next s

/-- PCAP is written (R455). -/
def State.putPcap (s : State) (v : Nat) : State :=
  { s with harbour := { s.harbour with power := { s.harbour.power with pcap := v % 2 ^ 16 } } }

def execPcapWrite (v : W32) (s : State) : Out := .next (s.putPcap v.toNat)

/-- Every cluster island gated, or running again. -/
def State.gateAll (s : State) (on : Bool) : State :=
  let s : State := { s with harbour := { s.harbour with power := { s.harbour.power with coolantOut := on } } }
  clusterIslands.foldl (fun s n => s.setIsland n fun i => { i with gated := on }) s

/-- The coolant leaves its range: the cluster islands are gated, and the report names no grid (R455, R459). -/
def execCoolantExcursion (s : State) : Out :=
  if s.harbour.power.coolantOut then .next s
  else .next ((s.gateAll true).report none [] .coolant { die := 0, from_ := 0, unit := 0 } 0 0 0 0)

def execCoolantRestored (s : State) : Out := .next (if s.harbour.power.coolantOut then s.gateAll false else s)

/-! ## Starts and resets (R452, R453, R460) -/

/-- The islands of a die before they are planned: those whose power-up failed are fenced. -/
def Boot.islands (b : Boot) : Tbl Island :=
  (b.fenced.filter fun u => u.step == 3).foldl (fun t u => t.set (32 * u.die + u.num) { Island.new with fenced := true }) []

/-- The islands that were powered one step below their planned margins (R452). -/
def State.lowerPlanned (s : State) (b : Boot) : State :=
  (b.second.filter fun u => u.step == 3).foldl (fun s u => s.setIsland (32 * u.die + u.num) fun i =>
    { i with freq := i.freq - 100 }) s

/-- The machine that a start leaves: everything at its reset value but management flash, the start number and what the
configuration image gives; the dies count from their start (R42), the units that failed are fenced, and the identity key
follows from MFW (R458; log 39). -/
def State.started (s : State) (b : Boot) : State :=
  let r := State.reset
  let im := b.image.getD resetImage
  let t : State := { r with
    agenda := s.agenda, choice := b.choice, clk := { s.clk with refc := 0, hm := b.hm }, ident := b.ident s.ident,
    ports := (List.range 16).map fun n => (n, { Port.new with trained := !b.recovery && !b.out 8 (n / 4) (n % 4) }),
    harbour := { r.harbour with
      journal := b.journal, start := b.start, images := b.images, uses := b.uses, recovery := b.recovery,
      attest := { r.harbour.attest with
        pub := if b.out 9 0 0 then r.harbour.attest.pub else leBytes 2592 (Config.identityKey (leNat b.mfw)) },
      power := { r.harbour.power with
        fmaxc := imageFmaxc im, fmaxs := imageFmaxs im, pmax := imagePmax im, pcap := imagePmax im, islands := b.islands } } }
  t.planAll.lowerPlanned b

/-- The beginning of the next start. -/
def State.bootBegin (s : State) : Boot :=
  { journal := s.harbour.journal, start := s.harbour.start + 1, choice := s.choice,
    hm := s.clk.hm, images := s.harbour.images, uses := s.harbour.uses, fenced := [], second := [], recovery := false }

/-- A start from its beginning to its end. -/
def State.boot (s : State) : State := s.started (bootUnits.foldl Boot.unit s.bootBegin)

def execPowerOnReset (s : State) : Out := .next s.boot
def execI3cReset (s : State) : Out := .next s.boot

/-- A watchdog reset: a start that hung at a free point, or none, and then the next start (R453). -/
def execWatchdogReset (s : State) : Out :=
  let (x, s) := s.free
  let b := s.bootBegin.hang (x % (bootUnits.length + 1))
  if x % (bootUnits.length + 1) = bootUnits.length then .next s.boot
  else .next ({ s with choice := b.choice, clk := { s.clk with hm := b.hm },
                       harbour := { s.harbour with journal := b.journal, start := b.start, uses := b.uses } } : State).boot

end Sys2Proof.Machine
end

