-- ==== Sys2Proof/Machine/Aperture.lean ====
section
/-!
DEFINITION. The host's accesses: to the memory aperture (R446), and to the registers of the control aperture, of 8 bytes
each (R448). In a register write of its own, bit 16 of the offset is the Fueveip link, which only HKEY tells apart (log 41).
-/

namespace Sys2Proof.Machine

/-! ## Writes (R448) -/

/-- A block of translation registers (R303). -/
def State.writeXlat (s : State) (o : Nat) (v : W64) : State :=
  let x := s.xlat
  match o with
  | 0x00 => { s with xlat := { x with astbase := v } }
  | 0x08 => { s with xlat := { x with fqbase := v } }
  | 0x10 => { s with xlat := { x with fqsize := v &&& 0xFFFF } }
  | 0x20 => { s with xlat := { x with fqhead := v } }
  | 0x28 => { s with xlat := { x with xva := v } }
  | 0x30 => s.queueXcmd (fld v.toNat 34 2) (fld v.toNat 36 12) (fld v.toNat 0 32)
  | _ => s

/-- The launch control block (R360). -/
def State.writeLaunch (s : State) (o : Nat) (v : W64) : State :=
  let l := s.launch
  if o = 0x00 then { s with launch := { l with qtbase := v } }
  else if o = 0x08 then
    (((s.clearMask 0 (v &&& 0x1F)).clearMask 1 ((v >>> 8) &&& 0x1F)).clearMask 2 ((v >>> 16) &&& 0x1F)).clearMask 3
      ((v >>> 24) &&& 0x1F)
  else if h : 0x10 ≤ o ∧ o < 0x30 then { s with launch := { l with ctxva := l.ctxva.set ((o - 0x10) / 8) v (by omega) } }
  else if h : 0x30 ≤ o ∧ o < 0x50 then { s with launch := { l with ctxlen := l.ctxlen.set ((o - 0x30) / 8) v (by omega) } }
  else s

/-- The generator control block of die d (R397). -/
def State.writeGen (s : State) (d o : Nat) (v : W64) : State :=
  let u := s.die d
  match o with
  | 0x00 => s.setDie d { u with gring := v }
  | 0x08 => s.setDie d { u with gen := v.getLsbD 12, gasid := fld v.toNat 0 12 }
  | _ => s

/-- The link keys of port p (R457). -/
def State.writeLink (s : State) (p o : Nat) (v : W64) : State :=
  let x := s.port p
  if o < 0x20 then s.setPort p { x with ntx := setWord x.ntx (o / 8) v }
  else if o < 0x38 then s.setPort p { x with nrx := setWord x.nrx ((o - 0x20) / 8) v }
  else if o = 0x38 then s.loadLink p v
  else if o = 0x40 then s.setPort p { x with linkid := v.setWidth 32 }
  else s

/-- Bytes of a buffer replaced. -/
def patch (l : List Byte) (o : Nat) (bs : List Byte) : List Byte := l.take o ++ bs ++ l.drop (o + bs.length)

/-- KMAT, and the command word of the key block (R456). -/
def State.writeKey (s : State) (o : Nat) (v : W64) : State :=
  let k := s.harbour.key
  if o < 0x40 then { s with harbour := { s.harbour with key := { k with kmat := patch k.kmat o (bytes64 v) } } }
  else if o = 0x40 then s.keyCommand (fld v.toNat 12 2) (fld v.toNat 0 12)
  else s

/-- HKEY of a link (R449). -/
def State.writeHkey (s : State) (link : Fin 2) (v : W64) : State :=
  { s with harbour := { s.harbour with hkey := s.harbour.hkey.set link (fld v.toNat 16 12) } }

/-- FACCn, until the lock (R450). -/
def State.writeFacc (s : State) (n : Fin 4) (v : W64) : State :=
  if s.ident.flock then s else { s with ident := { s.ident with facc := s.ident.facc.set n v } }

/-- The nonce, as it is written (R458). -/
def State.writeNonce (s : State) (o : Nat) (v : W64) : State :=
  let a := s.harbour.attest
  { s with harbour := { s.harbour with attest := { a with nonce := patch a.nonce o (bytes64 v) } } }

/-- MHEAD (R459). -/
def State.writeMhead (s : State) (v : W64) : State :=
  { s with harbour := { s.harbour with box := { s.harbour.box with mhead := v } } }

/-- A register of the control aperture is written whole; offsets that the tables do not list, read-only registers and
misaligned ones ignore it (R448). -/
def State.writeRegister (s : State) (link : Fin 2) (o : Nat) (v : W64) : State :=
  if o % 8 ≠ 0 then s
  else if o = 0x008 then s.writeHkey link v
  else if h : 0x070 ≤ o ∧ o < 0x090 then s.writeFacc ⟨(o - 0x070) / 8, by omega⟩ v
  else if o = 0x090 then (if v.getLsbD 0 then s.lockFeatures else s)
  else if 0x1000 ≤ o ∧ o < 0x1040 then s.writeXlat (o - 0x1000) v
  else if 0x2000 ≤ o ∧ o < 0x2080 then s.writeLaunch (o - 0x2000) v
  else if 0x3000 ≤ o ∧ o < 0x3100 then s.writeGen ((o - 0x3000) / 0x40) ((o - 0x3000) % 0x40) v
  else if 0x4000 ≤ o ∧ o < 0x4058 then s.writeKey (o - 0x4000) v
  else if 0x4100 ≤ o ∧ o < 0x4900 then s.writeLink ((o - 0x4100) / 0x80) ((o - 0x4100) % 0x80) v
  else if o = 0x4FE0 then s.killId v
  else if o = 0x4FF8 then s.writeMhead v
  else if o = 0x6400 then s.putPcap v.toNat
  else if 0x7A40 ≤ o ∧ o < 0x7A80 then s.writeNonce (o - 0x7A40) v
  else if o = 0x7A80 then s.requestReport v
  else s

/-- A write through a link that is present (R7). -/
def State.linkWrite (s : State) (link : Fin 2) (o : Nat) (v : W64) : State :=
  if s.linkPresent link then s.writeRegister link o v else s

/-! ## Reads (R448)

A write-only register, a reserved field and an offset that no table lists read as 0 (R11). -/

/-- The word of 8 bytes from byte o of a register that holds bytes. -/
def wordAt (l : List Byte) (o : Nat) : W64 := word64 ((l.drop o).take 8)

/-- A word from its fields: the bit at which each begins, and its value. -/
def fieldsWord (l : List (Nat × Nat)) : W64 := BitVec.ofNat 64 (l.foldl (fun n e => n + e.2 * 2 ^ e.1) 0)

/-- The identity block (R449). -/
def State.readIdent (s : State) (link : Fin 2) (o : Nat) : W64 :=
  let i := s.ident
  if o = 0x000 then i.devid
  else if o = 0x008 then fieldsWord [(0, i.pkg), (14, i.pmode), (16, s.harbour.hkey[link])]
  else if o < 0x030 then i.cores.toList.getD ((o - 0x010) / 8) 0
  else if o < 0x050 then i.clusters.toList.getD ((o - 0x030) / 8) 0
  else if o < 0x070 then i.feat.toList.getD ((o - 0x050) / 8) 0
  else if o < 0x090 then i.facc.toList.getD ((o - 0x070) / 8) 0
  else if o = 0x090 then (if i.flock then 1 else 0)
  else if o < 0x0D8 then wordAt i.mfw (o - 0x098)
  else wordAt i.mcfg (o - 0x0D8)

/-- The translation control block (R303). -/
def Xlat.read (x : Xlat) : Nat → W64
  | 0x00 => x.astbase
  | 0x08 => x.fqbase
  | 0x10 => x.fqsize
  | 0x18 => x.fqtail
  | 0x20 => x.fqhead
  | 0x28 => x.xva
  | 0x38 => x.xseq
  | _ => 0

/-- The launch control block, with the grid slots in use (R360). -/
def State.readLaunch (s : State) (o : Nat) : W64 :=
  let l := s.launch
  if o = 0x00 then l.qtbase
  else if o = 0x08 then fieldsWord ((l.pf.toList.zipIdx 0).map fun e => (8 * e.2, e.1.toNat % 32))
  else if o < 0x30 then l.ctxva.toList.getD ((o - 0x10) / 8) 0
  else if o < 0x50 then l.ctxlen.toList.getD ((o - 0x30) / 8) 0
  else if o = 0x50 then BitVec.ofNat 64 s.grids.length
  else 0

/-- The generator control block of a die (R397). -/
def Die.readGen (u : Die) : Nat → W64
  | 0x00 => u.gring
  | 0x08 => fieldsWord [(0, u.gasid), (12, if u.gen then 1 else 0)]
  | 0x10 => u.jobs
  | _ => 0

/-- The key block (R456). -/
def KeyBlock.read (k : KeyBlock) : Nat → W64
  | 0x48 => k.kseq
  | 0x50 => BitVec.ofNat 64 k.kstat
  | _ => 0

/-- The link registers of a port (R457). -/
def Port.read (x : Port) : Nat → W64
  | 0x40 => x.linkid.setWidth 64
  | 0x48 => if x.nval then 1 else 0
  | _ => 0

/-- The status of an island (R454). -/
def Island.word (i : Island) : W64 :=
  fieldsWord [(0, if i.fenced then 2 else if i.gated then 1 else 0), (8, i.temp % 2 ^ 8), (16, i.slack % 2 ^ 16),
    (32, i.mv % 2 ^ 16), (48, i.freq % 2 ^ 16)]

/-- The attestation block: the identity key, the nonce as it stands, whether the report is complete, and of the report what
lies below the journal window (R458; log 41). -/
def Attest.read (a : Attest) (o : Nat) : W64 :=
  if o < 0x7A20 then wordAt a.pub (o - 0x7000)
  else if 0x7A40 ≤ o ∧ o < 0x7A80 then wordAt a.nonce (o - 0x7A40)
  else if o = 0x7A88 then (if a.done then 1 else 0)
  else if 0x8000 ≤ o then wordAt a.report (o - 0x8000)
  else 0

/-- The 32 bytes of a journal entry (R453). -/
def JEntry.bytes (e : JEntry) : List Byte :=
  bytes64 (fieldsWord [(0, e.out), (4, e.att), (8, e.unit), (24, e.step), (32, e.start.toNat)]) ++ bytes64 e.hcyc
    ++ List.replicate 16 0

/-- The journal window: the most recent 128 entries, newest first (R453). -/
def journalRead (j : List JEntry) (o : Nat) : W64 :=
  match j.reverse[o / 32]? with
  | some e => wordAt e.bytes (o % 32)
  | none => 0

/-- A register of the control aperture is read whole. -/
def State.readRegister (s : State) (link : Fin 2) (o : Nat) : W64 :=
  let h := s.harbour
  if o < 0x118 then s.readIdent link o
  else if 0x1000 ≤ o ∧ o < 0x1040 then s.xlat.read (o - 0x1000)
  else if 0x2000 ≤ o ∧ o < 0x2080 then s.readLaunch (o - 0x2000)
  else if 0x3000 ≤ o ∧ o < 0x3100 then (s.die ((o - 0x3000) / 0x40)).readGen ((o - 0x3000) % 0x40)
  else if 0x4000 ≤ o ∧ o < 0x4058 then h.key.read (o - 0x4000)
  else if 0x4100 ≤ o ∧ o < 0x4900 then (s.port ((o - 0x4100) / 0x80)).read ((o - 0x4100) % 0x80)
  else if o = 0x4FF0 then h.box.mtail
  else if o = 0x4FF8 then h.box.mhead
  else if 0x5000 ≤ o ∧ o < 0x6000 then wordAt (h.box.entries.getD ((o - 0x5000) / 128) []) (o % 128)
  else if 0x6000 ≤ o ∧ o < 0x6400 then (h.power.islands.getD ((o - 0x6000) / 8) Island.new).word
  else if o = 0x6400 then BitVec.ofNat 64 h.power.pcap
  else if 0x7000 ≤ o ∧ o < 0x9000 then h.attest.read o
  else if 0x9000 ≤ o ∧ o < 0xA000 then journalRead h.journal (o - 0x9000)
  else 0

/-! ## Accesses of the host (R446, R448) and over I3C (R460) -/

/-- The registers that the board-management bus reads: the identity block, island status, PCAP, and the windows of the journal
and of attestation (R460). -/
def overI3c (o : Nat) : Bool :=
  decide (o < 0x118) || decide (0x6000 ≤ o ∧ o ≤ 0x6400) || decide (0x7000 ≤ o ∧ o < 0xA000)

/-- A register read over I3C; the bus has no HKEY, and link 0's stands there (R460; log 41). -/
def State.readI3c (s : State) (o : Nat) : State :=
  s.returned (bytes64 (if overI3c o && o % 8 == 0 then s.readRegister 0 o else 0))

/-- A register is written through a link, or, of offsets with bit 17 set, read over I3C (log 41). -/
def execRegisterWrite (off : Nat) (v : W64) (s : State) : Out :=
  .next (if off < 0x20000 then s.linkWrite (if off / 0x10000 = 0 then 0 else 1) (off % 0x10000) v
    else if off < 0x30000 then s.readI3c (off % 0x10000) else s)


/-- An access of the control aperture: one of another size than 8 bytes, or a misaligned one, reads zero and is ignored on
a write (R448). -/
def State.hostControl (s : State) (r : HostRequest) : State :=
  let whole := hostSize r == 8 && r.addr % 8 == 0
  match r.write with
  | some bs => if whole then s.writeRegister r.link r.addr (word64 bs) else s
  | none => s.returned (if whole then bytes64 (s.readRegister r.link r.addr) else List.replicate r.len 0)

/-- A host request, through a link that is present (R7). -/
def execHostMemoryAccess (r : HostRequest) (s : State) : Out :=
  .next (if !s.linkPresent r.link then s else if r.control then s.hostControl r else s.hostMemory r)

end Sys2Proof.Machine
end

