-- ==== Sys2Proof/Machine/Collective.lean ====
section
/-!
DEFINITION. Collectives: `xcol` (R158, R429, R430), the switches that combine their chunks (R431 to R434), and their
answers at a member (R435).
-/

namespace Sys2Proof.Machine

/-! ## `xcol` -/

def execXcol (a : SReg) (s : State) : Out :=
  scalar s .gangs [.fabric] fun i c => do
    let va := c.get a
    aligned va 64
    let s ← s.settle i
    let (bs, s) ← s.scalarRead i c true .device va 64
    require (!s.collBad bs) .range
    match s.issuerCrew i with
    | none => .ok s
    | some (k, y) => do
      let s ← s.releaseFor i .device
      let x : Coll := { who := s.crewStarter y, crew := k, addr := va, desc := bs, sent := 0, answers := [], nanc := 0,
                        miss := 0, dead := false, work := none }
      .ok ((s.collRun x x.fuel).next i c.pc 4)

/-! ## Combining (R432, R433) -/

/-- A list cut into elements of n bytes. -/
def elements (n : Nat) : Nat → List Byte → List (List Byte)
  | 0, _ => []
  | k + 1, l => if l.isEmpty then [] else l.take n :: elements n k (l.drop n)

/-- The elements of a chunk. -/
def chunkOf (w : W64) (bs : List Byte) : List (List Byte) := elements (collSize w) bs.length bs

/-- AMAX of one value: its magnitude, or the NaN. -/
def amax1 (x : W32) : W32 := if isNan32 x then 0x7FC00000 else x &&& 0x7FFFFFFF

/-- AMAX of two values. -/
def amax2 (a b : W32) : W32 :=
  if isNan32 a || isNan32 b then 0x7FC00000 else if (amax1 a).toNat < (amax1 b).toNat then amax1 b else amax1 a

/-- Two elements combined (R432). -/
def combine (w : W64) (a b : List Byte) : List Byte :=
  let x := word32 a
  let y := word32 b
  let p := word64 a
  let q := word64 b
  match collOpc w, collTy w with
  | 0, 0 => bytes32 (fadd32 x y)
  | 0, _ => bytes64 (p + q)
  | 1, 0 => bytes32 (fmax32 x y)
  | 1, _ => bytes64 (if p.toInt < q.toInt then q else p)
  | 2, 0 => bytes32 (fmin32 x y)
  | 2, _ => bytes64 (if q.toInt < p.toInt then q else p)
  | _, _ => bytes32 (amax2 x y)

/-- Two chunks combined; elements that only one has stay as they are. -/
def combineAll (w : W64) : List (List Byte) → List (List Byte) → List (List Byte)
  | a :: as, b :: bs => combine w a b :: combineAll w as bs
  | [], bs => bs
  | as, [] => as

/-- Two OVER records, the nearer one first (R432). -/
def overRec (a b : List Byte) : List Byte :=
  let t := f32At a 12
  bytes32 (ffma32 t (f32At b 0) (f32At a 0)) ++ bytes32 (ffma32 t (f32At b 4) (f32At a 4))
    ++ bytes32 (ffma32 t (f32At b 8) (f32At a 8)) ++ bytes32 (fmul32 t (f32At b 12))

/-- Two chunks of OVER records. -/
def overAll : List (List Byte) → List (List Byte) → List (List Byte)
  | a :: as, b :: bs => overRec a b :: overAll as bs
  | [], bs => bs
  | as, [] => as

/-- A left fold that takes its first value unchanged. -/
def foldFirst {α : Type} (f : α → α → α) : List α → Option α
  | [] => none
  | x :: xs => some (xs.foldl f x)

/-- The data of a chunk from its contributions, in order of arrival (R432, R433). -/
def combined (w : W64) (l : List Contrib) : List Byte :=
  match collOpc w with
  | 5 => match sortBy (·.src) (l.filter fun x => x.rank != 0) with
    | x :: _ => x.data
    | [] => []
  | 4 =>
    let sorted := sortBy (·.rank) (sortBy (·.src) l)
    ((foldFirst overAll (sorted.map fun x => chunkOf w x.data)).getD []).flatten
  | 3 =>
    ((foldFirst (combineAll w) (l.map fun x => (chunkOf w x.data).map fun e => bytes32 (amax1 (word32 e)))).getD []).flatten
  | _ => ((foldFirst (combineAll w) (l.map fun x => chunkOf w x.data)).getD []).flatten

/-- A member's contribution holds a NaN (R432). -/
def hasNan (w : W64) (bs : List Byte) : Bool := collOpc w == 3 && (chunkOf w bs).any fun e => isNan32 (word32 e)

/-! ## Switches (R431, R434) -/

/-- The switch at which a collective's result is made (R431). -/
def topSwitch (w : W64) (cid : Nat) : Nat :=
  if collFirst w / 64 = collLast w / 64 then collFirst w / 64 else 64 + cid % 64

/-- The members of a collective, and those of a leaf. -/
def members (w : W64) : List Nat :=
  (List.range (collLast w + 1)).filter fun m => decide (collFirst w ≤ m)
def leafMembers (w : W64) (leaf : Nat) : List Nat := (members w).filter fun m => m / 64 == leaf

/-- Whom a switch expects to hear from: its members, or the leaves, by their first packages (R431). -/
def Slot.expected (x : Slot) : List Nat :=
  if x.sw < 64 then leafMembers x.word x.sw
  else if collOpc x.word = 4 then members x.word
  else
    let leaves := (List.range 64).filter fun l => decide (collFirst x.word / 64 ≤ l) && decide (l ≤ collLast x.word / 64)
    leaves.map (64 * ·)

/-- The contributions to a chunk, in order of arrival. -/
def Slot.at_ (x : Slot) (c : Nat) : List Contrib := (x.parts.filter fun e => e.1 == c).map (·.2)

/-- Every expected contribution to a chunk has arrived. -/
def Slot.full (x : Slot) (c : Nat) : Bool := x.expected.all fun m => (x.at_ c).any fun y => y.src == m

/-- The bits of missing members. -/
def missBits (w : W64) (l : List Nat) : W64 := l.foldl (fun b m => b ||| (1#64 <<< ((m - collFirst w) % 64))) 0

/-- The members that a chunk lacks at a switch. -/
def Slot.lacks (x : Slot) (c : Nat) : List Nat :=
  let here (n : Nat) : Bool := (x.at_ c).any fun y => y.src == n
  if x.sw < 64 then (leafMembers x.word x.sw).filter fun m => !here m
  else (members x.word).filter fun m => !here (if collOpc x.word = 4 then m else m / 64 * 64)

/-- The chunk as the switch combines it, with its NaN count and the members that it lacks (R432, R434). -/
def Slot.combine (x : Slot) (c : Nat) : Contrib :=
  let l := x.at_ c
  { src := 64 * x.sw, data := combined x.word l, nanc := (l.map (·.nanc)).foldl (· + ·) 0,
    rank := if collOpc x.word = 5 then (l.map (·.rank)).foldl max 0 else collRank x.word,
    miss := l.foldl (fun b y => b ||| y.miss) (missBits x.word (x.lacks c)) }

/-- The slot of a switch for a collective (R431). -/
def State.slot? (s : State) (sw plane cid : Nat) : Option Slot :=
  s.slots.find? fun x => x.sw == sw && x.plane == plane && x.cid == cid

/-- A slot, changed. -/
def State.putSlot (s : State) (x : Slot) : State := { s with slots := s.slots.map fun y => if y.id = x.id then x else y }

/-- A packet of a switch to a member. A switch has no package number: it names the member as the source too (log 38). -/
def State.toMember (s : State) (x : Slot) (op : Opc) (m c : Nat) (r : Option Contrib) : State :=
  let bs := match r with
    | some y => y.data
    | none => []
  let p := { s.packet m op bs with
    spkg := m, pa := x.cid * 2 ^ 32 + c,
    aux := BitVec.ofNat 32 ((r.map (·.nanc)).getD 0), aux2 := match r with
      | some y => y.miss
      | none => 0 }
  { s with net := s.net ++ [p] }

/-- The answer to a contribution that was not combined: the result with the member's own bit, or nothing (R434). -/
def State.closedTo (s : State) (x : Slot) (m c : Nat) (r : Option Contrib) : State :=
  s.toMember x .closed m c (r.map fun y => { y with miss := y.miss ||| missBits x.word [m] })

/-- The result of a chunk reaches a leaf's members: those that were combined, and those that came too late. -/
def State.leafResult (s : State) (x : Slot) (c : Nat) (r : Contrib) (combined : Nat → Bool) : State :=
  let s := s.putSlot { x with results := x.results ++ [(c, r)], late := x.late.filter fun e => e.1 != c,
                              sent := s.clk.link }
  let s := (x.at_ c).foldl (fun s y => if combined y.src then s.toMember x .crs y.src c (some r)
    else s.closedTo x y.src c (some r)) s
  (x.late.filter fun e => e.1 == c).foldl (fun s e => s.closedTo x e.2 c (some r)) s

/-- The top switch sends a result down the tree (R431). -/
def State.topResult (s : State) (x : Slot) (c : Nat) : State :=
  let r := x.combine c
  if x.sw < 64 then s.leafResult x c r fun _ => true
  else
    let here (n : Nat) : Bool := (x.at_ c).any fun y => y.src == n
    let s := s.putSlot { x with results := x.results ++ [(c, r)], sent := s.clk.link }
    let leaves := s.slots.filter fun y => y.plane == x.plane && y.cid == x.cid && decide (y.sw < 64)
      && if (y.at_ c).isEmpty then y.late.any fun e => e.1 == c else collOpc x.word == 4 || here (64 * y.sw)
    leaves.foldl (fun s y => s.leafResult y c r fun m => collOpc x.word != 4 || here m) s

/-- A lower switch forwards its partial of a chunk to the spine; under COPY it carries the rank of its supplier (R431, R432,
R434). -/
def State.forward (s : State) (x : Slot) (c : Nat) : State :=
  let s := s.putSlot { x with passed := x.passed ++ [c] }
  if collOpc x.word = 4 then s
  else
    let r := x.combine c
    let p := { s.packet (64 * x.sw) .ctb r.data with
      spkg := 64 * x.sw, pa := x.cid * 2 ^ 32 + c, aux := BitVec.ofNat 32 r.nanc,
      aux2 := BitVec.ofNat 64 (x.word.toNat / 2 ^ 16 * 2 ^ 16 + r.rank % 2 ^ 16),
      tout := BitVec.ofNat 32 (x.tout / 1024), sw := topSwitch x.word x.cid, miss := r.miss }
    { s with net := s.net ++ [p] }

/-- The contribution that a packet carries. -/
def strayOf (k : FabPacket) : Stray :=
  { sw := k.sw, plane := collPort k.aux2, cid := k.pa / 2 ^ 32, chunk := k.pa % 2 ^ 32, src := k.spkg }

/-- The contributions that a chunk lacks at its switch, as they are remembered once it has ended (R434; log 38). -/
def Slot.strays (x : Slot) (c : Nat) : List Stray :=
  (x.expected.filter fun m => !((x.at_ c).any fun y => y.src == m)).map fun m =>
    { sw := x.sw, plane := x.plane, cid := x.cid, chunk := c, src := m }

/-- A chunk is complete at its switch, or is given up there. -/
def State.endChunk (s : State) (x : Slot) (c : Nat) : State :=
  let s : State := { s with strays := s.strays ++ x.strays c }
  if x.sw = topSwitch x.word x.cid then s.topResult x c else s.forward x c

/-- Two words name one collective: FIRST, LAST, OP and TY (R431). -/
def sameGroup (a b : W64) : Bool :=
  collFirst a == collFirst b && collLast a == collLast b && collOpc a == collOpc b && collTy a == collTy b

/-- Link cycles of a timeout (R429). -/
def toutCycles (t : W32) : Nat := (if t = 0 then 2048 else t.toNat) * 1024

/-- A packet's contribution is answered without being combined: its member, or the members whose partial it is. -/
def State.refuseChunk (s : State) (x : Slot) (k : FabPacket) (c : Nat) (r : Option Contrib) : State :=
  if k.sw < 64 ∨ collOpc x.word = 4 then s.closedTo x k.spkg c r
  else match s.slot? (k.spkg / 64) x.plane x.cid with
    | none => s
    | some y => match r with
      | some z => s.leafResult y c z fun _ => false
      | none => (y.at_ c).foldl (fun s e => s.closedTo y e.src c none) s

/-- The count of a slot has ended (R434). -/
def State.slotOver (s : State) (x : Slot) : Bool := decide (x.tout ≤ s.clk.link - x.opened)

/-- A slot's count has ended while contributions are missing: the partials leave, and the slot is closed (R434). -/
def State.closeSlot (s : State) (x : Slot) : State :=
  (x.chunks.filter x.isOpen).foldl (fun s c => match s.slots.find? fun y => y.id == x.id with
    | some y => s.endChunk y c
    | none => s) (s.putSlot { x with closed := some s.clk.link })

/-- A contribution is taken at its slot, closed or open (R431, R434); none while it waits for room. -/
def State.atSlot (s : State) (x : Slot) (k : FabPacket) (c : Nat) : Option State :=
  let w := x.word
  if !sameGroup w k.aux2 then some (s.refuseChunk x k c none)
  else match x.results.find? fun e => e.1 == c with
    | some e =>
      if (x.at_ c).any fun y => y.src == k.spkg then some (s.refuseChunk x k c none)
      else some (s.refuseChunk x k c (some e.2))
    | none =>
      if (x.at_ c).any fun y => y.src == k.spkg then some (s.refuseChunk x k c none)
      else if x.closed.isSome || s.slotOver x || x.passed.contains c then
        if x.sw = topSwitch w x.cid then some (s.refuseChunk x k c none)
        else some (s.putSlot { x with late := x.late ++ [(c, k.spkg)] })
      else if !x.chunks.contains c && decide (8 ≤ (x.chunks.filter x.isOpen).length) then none
      else
        let y : Contrib := { src := k.spkg, data := k.payload, rank := collRank k.aux2, miss := k.miss,
                             nanc := if k.sw < 64 then (if hasNan w k.payload then 1 else 0) else k.aux.toNat }
        let x := { x with parts := x.parts ++ [(c, y)] }
        let s := s.putSlot x
        let s := if collOpc w = 4 ∧ x.sw ≠ topSwitch w x.cid then
            { s with net := s.net ++ [{ k with sw := topSwitch w x.cid }] }
          else s
        some (if x.full c then s.endChunk x c else s)

/-- A contribution has come, and is missed no longer. -/
def State.heard (s : State) (k : FabPacket) : State :=
  { s with strays := s.strays.filter fun e => e != strayOf k }

/-- A contribution reaches its slot, which is closed first where its count has ended (R431, R434). -/
def State.intoSlot (s : State) (x : Slot) (k : FabPacket) (c : Nat) : Option State :=
  let s := s.heard k
  if x.closed.isNone && s.slotOver x && x.chunks.any x.isOpen then
    let t := s.closeSlot x
    match t.slots.find? fun y => y.id == x.id with
    | some y => t.atSlot y k c
    | none => some t
  else s.atSlot x k c

/-- A contribution that is at a switch: from this package or a lower switch, or from another package of its leaf. -/
def State.takeCtb (s : State) (k : FabPacket) : Option State :=
  if k.opc != Opc.ctb.num || !collPair (collOpc k.aux2) (collTy k.aux2) then none
  else if s.net.contains k then some { s with net := s.net.erase k }
  else if k.spkg != s.ident.pkg && k.sw == k.spkg / 64 && decide (k.spkg < 4096) && decide (k.payload.length ≤ 960)
      && k.payload.length % 8 == 0 && (members k.aux2).contains k.spkg then some s
  else none

/-- A slot as a chunk opens it. -/
def State.newSlot (s : State) (k : FabPacket) (id : Nat) : Slot :=
  { id := id, sw := k.sw, plane := collPort k.aux2, cid := k.pa / 2 ^ 32, word := k.aux2, tout := toutCycles k.tout,
    opened := s.clk.link, parts := [], passed := [], results := [], late := [], sent := 0, closed := none }

/-- The slot that a first chunk opens; a switch has 16,384 of them (R431). A contribution that a freed slot has missed opens
none (R434). -/
def State.openSlot (s : State) (k : FabPacket) : Option (Slot × State) :=
  let plane := collPort k.aux2
  if s.strays.contains (strayOf k) then none
  else if 16384 ≤ (s.slots.filter fun x => x.sw == k.sw && x.plane == plane).length then none
  else
    let (id, s) := s.fresh
    let x := s.newSlot k id
    some (x, { s with slots := s.slots ++ [x] })

def execFabCtb (k : FabPacket) (s : State) : Out :=
  match s.takeCtb k with
  | none => .next s
  | some t =>
    let c := k.pa % 2 ^ 32
    let r := match t.slot? k.sw (collPort k.aux2) (k.pa / 2 ^ 32) with
      | some x => t.intoSlot x k c
      | none => match t.openSlot k with
        | none => if t.strays.contains (strayOf k) then some ((t.heard k).refuseChunk (t.newSlot k 0) k c none) else none
        | some (x, t) => t.intoSlot x k c
    .next (r.getD s)

/-- A slot's count ends while contributions are missing: partials leave, and the slot is closed (R434). -/
def execCollectiveSlotTimeout (slot : Nat) (s : State) : Out :=
  match s.slots.find? fun x => x.id == slot with
  | none => .next s
  | some x =>
    if x.closed.isSome || !s.slotOver x || !x.chunks.any x.isOpen then .next s else .next (s.closeSlot x)

/-- The contributions of a slot that wait for a result which has not come: those that came too late, and those of which a
partial went to the spine. -/
def Slot.unanswered (x : Slot) : List (Nat × Nat) :=
  x.late ++ (x.parts.filter fun e => decide (x.sw < 64) && !(x.results.any fun r => r.1 == e.1)).map fun e => (e.1, e.2.src)

/-- A slot is freed: one period after its timeout, or two after its last result. Contributions that still wait are
answered without data (R434). -/
def execCollectiveSlotFree (slot : Nat) (s : State) : Out :=
  match s.slots.find? fun x => x.id == slot with
  | none => .next s
  | some x =>
    let expired := match x.closed with
      | some t => decide (t + x.tout ≤ s.clk.link)
      | none => decide (x.sent + 2 * x.tout ≤ s.clk.link)
    let done := x.chunks.all fun c => x.results.any fun e => e.1 == c
    if !expired || (x.closed.isNone && !done) then .next s
    else .next (x.unanswered.foldl (fun s e => s.closedTo x e.2 e.1 none)
      { s with slots := s.slots.filter fun y => y.id != slot })

/-! ## Answers at a member (R435) -/

/-- The status of an answer (R429, R434): a `CLOSED` that carries a result names its member as missing. -/
def answerStatus (k : FabPacket) : Nat :=
  if k.opc = Opc.crs.num then (if k.aux2 = 0 then 1 else 2) else if k.aux2 = 0 then 4 else 3

/-- An answer to a chunk of a collective of this package (R431, R435). -/
def State.answerChunk (s : State) (k : FabPacket) : State :=
  let c := k.pa % 2 ^ 32
  match s.colls.find? fun x => collCid x.desc == k.pa / 2 ^ 32 && !x.answered c with
  | none => s
  | some x =>
    let y : Coll := { x with answers := x.answers ++ [(c, answerStatus k, k.payload)], nanc := x.nanc + k.aux.toNat,
                             miss := x.miss ||| k.aux2 }
    { s with colls := s.colls.erase x }.collRun y y.fuel

def execFabCrs (k : FabPacket) (s : State) : Out := withPacket s k .crs fun s => s.answerChunk k

def execFabClosed (k : FabPacket) (s : State) : Out := withPacket s k .closed fun s => s.answerChunk k

end Sys2Proof.Machine
end

