-- ==== Sys2Proof/Machine/LaneFloat.lean ====
section
/-! DEFINITION. Floating-point lane words (R177 to R183). -/

namespace Sys2Proof.Machine

/-! ## Elements (R177) -/

/-- The bit offsets of a page's elements in a register. -/
def Page.offsets : Page → List Nat
  | .f32 => [0]
  | .f16 | .bf16 => [0, 16]

/-- The element of a word at a bit offset. -/
def Page.elem (p : Page) (x : W32) (o : Nat) : Nat := fld x.toNat o (Page.fmt p).width

/-- The element with its sign bit flipped when it is to be negated. -/
def Page.neg (p : Page) (b : Bool) (x : Nat) : Nat := if b then x ^^^ 2 ^ ((Page.fmt p).width - 1) else x

/-- A word whose elements f gives by bit offset. -/
def Page.word (p : Page) (f : Nat → Nat) : W32 :=
  BitVec.ofNat 32 ((Page.offsets p).foldl (fun x o => x + f o % 2 ^ (Page.fmt p).width * 2 ^ o) 0)

/-- A word of one result register whose elements f gives by lane and bit offset. -/
def laneElems (s : State) (i : Instr) (p : Page) (d : Opd) (f : LaneCtx → Fin 32 → Nat → Nat) : Out :=
  lane32 s i d fun c n => Page.word p (f c n)

/-- An element of an operand after negation, as an exact value. -/
def LaneCtx.elem (c : LaneCtx) (p : Page) (neg : Bool) (o : Src) (n : Fin 32) (at_ : Nat) : Ex :=
  (Page.fmt p).value (Page.neg p neg (Page.elem p (c.src o n) at_))

/-- The rounding of an exact value into a page's format by a modifier. -/
def FMod.round (m : FMod) (f : Fmt) (x : Ex) : Nat := f.round (Rm.mode m.rm) m.sat x

/-- Exact zeros take the sign of R178 under this modifier. -/
def FMod.down (m : FMod) : Bool := m.rm == .rd

/-! ## Arithmetic (R178, R179, R182) -/

def execFadd (h : LaneHdr) (pg : Page) (m : FMod) (d a : Opd) (b : Src) (s : State) : Out :=
  laneElems s (.fadd h pg m d a b) pg d fun c n o =>
    FMod.round m (Page.fmt pg) ((c.elem pg m.na (.reg a) n o).add (FMod.down m) (c.elem pg m.nb b n o))

def execFmul (h : LaneHdr) (pg : Page) (m : FMod) (d a : Opd) (b : Src) (s : State) : Out :=
  laneElems s (.fmul h pg m d a b) pg d fun c n o =>
    FMod.round m (Page.fmt pg) ((c.elem pg m.na (.reg a) n o).mul (c.elem pg m.nb b n o))

def execFfma (h : LaneHdr) (pg : Page) (m : FMod) (d a : Opd) (b c : Src) (s : State) : Out :=
  laneElems s (.ffma h pg m d a b c) pg d fun x n o =>
    FMod.round m (Page.fmt pg)
      (((x.elem pg m.na (.reg a) n o).mul (x.elem pg m.nb b n o)).add (FMod.down m) (x.elem pg m.nc c n o))

def execFmin (h : LaneHdr) (pg : Page) (d a : Opd) (b : Src) (s : State) : Out :=
  laneElems s (.fmin h pg d a b) pg d fun c n o =>
    (Page.fmt pg).minmax false (Page.elem pg (c.opd a n) o) (Page.elem pg (c.src b n) o)

def execFmax (h : LaneHdr) (pg : Page) (d a : Opd) (b : Src) (s : State) : Out :=
  laneElems s (.fmax h pg d a b) pg d fun c n o =>
    (Page.fmt pg).minmax true (Page.elem pg (c.opd a n) o) (Page.elem pg (c.src b n) o)

def execFscale (h : LaneHdr) (rm : Rm) (sat : Bool) (d a : Opd) (b : Src) (s : State) : Out :=
  lane32 s (.fscale h rm sat d a b) d fun c n =>
    let k := max (-1000) (min 1000 (c.src b n).toInt)
    BitVec.ofNat 32 (Fmt.f32.round (Rm.mode rm) sat ((f32v (c.opd a n)).shift k))

def execFdot2 (h : LaneHdr) (bf : Bool) (m : FMod) (d a b c : Opd) (s : State) : Out :=
  let pg : Page := if bf then .bf16 else .f16
  lane32 s (.fdot2 h bf m d a b c) d fun x n =>
    let p (o : Nat) : Ex := (x.elem pg m.na (.reg a) n o).mul (x.elem pg m.nb (.reg b) n o)
    let z := Fmt.f32.value (Page.neg .f32 m.nc (x.opd c n).toNat)
    BitVec.ofNat 32 (FMod.round m .f32 (((p 0).add (FMod.down m) (p 16)).add (FMod.down m) z))

/-! ## Comparison and classes (R180, R181) -/

def execFcmp (h : LaneHdr) (pg : Page) (cc : FCond) (hi : Bool) (d : PReg) (a : Opd) (b : Src) (s : State) : Out :=
  laneFix s (.fcmp h pg cc hi d a b) fun c => c.putP d fun n =>
    let o := if hi then 16 else 0
    compareFloat cc (c.elem pg false (.reg a) n o) (c.elem pg false b n o)

/-- The class of an element, as the number of its bit (R181). -/
def Fmt.classOf (f : Fmt) (x : Nat) : Nat :=
  match f.value x with
  | .nan => 8
  | .inf s => if s then 0 else 7
  | .fin s n _ => if n = 0 then (if s then 3 else 4)
    else if fld x f.fw f.ew = 0 then (if s then 2 else 5) else if s then 1 else 6

def execFclass (h : LaneHdr) (pg : Page) (d a : Opd) (s : State) : Out :=
  lane32 s (.fclass h pg d a) d fun c n =>
    BitVec.ofNat 32 ((Page.offsets pg).foldl (fun x o =>
      x + 2 ^ (Page.fmt pg).classOf (Page.elem pg (c.opd a n) o) * 2 ^ o) 0)

/-! ## Special functions (R183) -/

/-- A special function of one `f32` operand. -/
def laneSpecial (s : State) (i : Instr) (d a : Opd) (f : Ex → Ex) : Out :=
  lane32 s i d fun c n => rne32 (f (f32v (c.opd a n)))

def execFrcp (h : LaneHdr) (d a : Opd) (s : State) : Out := laneSpecial s (.frcp h d a) d a rcpEx
def execFrsq (h : LaneHdr) (d a : Opd) (s : State) : Out := laneSpecial s (.frsq h d a) d a rsqEx
def execFsqrt (h : LaneHdr) (d a : Opd) (s : State) : Out := laneSpecial s (.fsqrt h d a) d a sqrtV
def execFex2 (h : LaneHdr) (d a : Opd) (s : State) : Out := laneSpecial s (.fex2 h d a) d a ex2V
def execFlg2 (h : LaneHdr) (d a : Opd) (s : State) : Out := laneSpecial s (.flg2 h d a) d a lg2V
def execFsin (h : LaneHdr) (d a : Opd) (s : State) : Out := laneSpecial s (.fsin h d a) d a sinV
def execFcos (h : LaneHdr) (d a : Opd) (s : State) : Out := laneSpecial s (.fcos h d a) d a cosV

end Sys2Proof.Machine
end

