-- ==== Sys2Proof/Machine/LaneInt.lean ====
section
/-! DEFINITION. Integer lane words: arithmetic, comparison, selection, logic, shifts and bit fields (R172 to R176). -/

namespace Sys2Proof.Machine

/-! ## Types (R172, R173) -/

/-- The type has 64 bits. -/
def IntTy.is64 : IntTy → Bool
  | .i32 | .n32 => false
  | .i64 | .n64 => true

/-- The type is signed. -/
def IntTy.signed : IntTy → Bool
  | .i32 | .i64 => true
  | .n32 | .n64 => false

/-- The width of a type. -/
def IntTy.width (t : IntTy) : Nat := if IntTy.is64 t then 64 else 32

/-- The bits of an operand of a type, zero-extended to 64. -/
def LaneCtx.bits (c : LaneCtx) (t : IntTy) (o : Src) (n : Fin 32) : W64 :=
  if IntTy.is64 t then c.src64 (IntTy.signed t) o n else (c.src o n).setWidth 64

/-- The value of the low bits of a word in a type. -/
def IntTy.value (t : IntTy) (x : W64) : Int :=
  match t with
  | .i32 => (x.setWidth 32 : W32).toInt
  | .n32 => ((x.setWidth 32 : W32).toNat : Int)
  | .i64 => x.toInt
  | .n64 => (x.toNat : Int)

/-- The value of an operand of a type. -/
def LaneCtx.int (c : LaneCtx) (t : IntTy) (o : Src) (n : Fin 32) : Int := IntTy.value t (c.bits t o n)

/-- The least and the greatest value of a type. -/
def IntTy.lo (t : IntTy) : Int := if IntTy.signed t then -(2 ^ (IntTy.width t - 1)) else 0
def IntTy.hi (t : IntTy) : Int := if IntTy.signed t then 2 ^ (IntTy.width t - 1) - 1 else 2 ^ IntTy.width t - 1

/-- An exact result in a type: its low bits, or clamped (R173). -/
def IntTy.narrow (t : IntTy) (sat : Bool) (x : Int) : W64 :=
  BitVec.ofInt 64 (if sat then (if x < IntTy.lo t then IntTy.lo t else if IntTy.hi t < x then IntTy.hi t else x) else x)

/-- A word whose exact integer result f gives lane by lane (R173). -/
def laneExact (s : State) (i : Instr) (t : IntTy) (sat : Bool) (d : Opd) (f : LaneCtx → Fin 32 → Int) : Out :=
  laneFix s i fun c => c.putW (IntTy.is64 t) d fun n => IntTy.narrow t sat (f c n)

/-! ## Arithmetic (R173, R174) -/

def execIadd (h : LaneHdr) (ty : IntTy) (sat : Bool) (d a : Opd) (b : Src) (s : State) : Out :=
  laneExact s (.iadd h ty sat d a b) ty sat d fun c n => c.int ty (.reg a) n + c.int ty b n

def execIsub (h : LaneHdr) (ty : IntTy) (sat : Bool) (d a : Opd) (b : Src) (s : State) : Out :=
  laneExact s (.isub h ty sat d a b) ty sat d fun c n => c.int ty (.reg a) n - c.int ty b n

def execImul (h : LaneHdr) (ty : IntTy) (sat : Bool) (d a : Opd) (b : Src) (s : State) : Out :=
  laneExact s (.imul h ty sat d a b) ty sat d fun c n => c.int ty (.reg a) n * c.int ty b n

def execImad (h : LaneHdr) (ty : IntTy) (sat : Bool) (d a : Opd) (b c : Src) (s : State) : Out :=
  laneExact s (.imad h ty sat d a b c) ty sat d fun x n => x.int ty (.reg a) n * x.int ty b n + x.int ty c n

def execImulh (h : LaneHdr) (n : Bool) (d a : Opd) (b : Src) (s : State) : Out :=
  let ty : IntTy := if n then .n32 else .i32
  lane32 s (.imulh h n d a b) d fun c l => ((BitVec.ofInt 64 (c.int ty (.reg a) l * c.int ty b l)) >>> 32).setWidth 32

/-- Byte j of a word, signed or not. -/
def byteInt (signed : Bool) (x : W32) (j : Nat) : Int :=
  let b : Byte := BitVec.ofNat 8 (fld x.toNat (8 * j) 8)
  if signed then b.toInt else b.toNat

def execIdp4 (h : LaneHdr) (as bs sat : Bool) (d a : Opd) (b c : Src) (s : State) : Out :=
  laneExact s (.idp4 h as bs sat d a b c) .i32 sat d fun x n =>
    (List.range 4).foldl (fun t j => t + byteInt as (x.opd a n) j * byteInt bs (x.src b n) j) (x.int .i32 c n)

def execIabs (h : LaneHdr) (wide sat : Bool) (d a : Opd) (s : State) : Out :=
  let ty : IntTy := if wide then .i64 else .i32
  laneExact s (.iabs h wide sat d a) ty sat d fun c n => ((c.int ty (.reg a) n).natAbs : Int)

def execImin (h : LaneHdr) (ty : IntTy) (d a : Opd) (b : Src) (s : State) : Out :=
  laneExact s (.imin h ty d a b) ty false d fun c n => min (c.int ty (.reg a) n) (c.int ty b n)

def execImax (h : LaneHdr) (ty : IntTy) (d a : Opd) (b : Src) (s : State) : Out :=
  laneExact s (.imax h ty d a b) ty false d fun c n => max (c.int ty (.reg a) n) (c.int ty b n)

/-! ## Comparison, selection and logic (R176) -/

/-- The comparison of two operands of a type. -/
def compareTy (t : IntTy) (cc : Cond) (x y : W64) : Bool :=
  if IntTy.is64 t then compareBits cc (!IntTy.signed t) x y
  else compareBits cc (!IntTy.signed t) (x.setWidth 32 : W32) (y.setWidth 32 : W32)

def execIcmp (h : LaneHdr) (ty : IntTy) (cc : Cond) (d : PReg) (a : Opd) (b : Src) (s : State) : Out :=
  laneFix s (.icmp h ty cc d a b) fun c => c.putP d fun n => compareTy ty cc (c.bits ty (.reg a) n) (c.bits ty b n)

def execIsel (h : LaneHdr) (ty : IntTy) (d : Opd) (a b : Src) (c : PReg) (s : State) : Out :=
  laneFix s (.isel h ty d a b c) fun x => x.putW (IntTy.is64 ty) d fun n =>
    if x.pred c n then x.bits ty a n else x.bits ty b n

/-- A truth table applied to three words bit by bit (R176). -/
def truth3 (t : BitVec 8) (a b c : W32) : W32 :=
  BitVec.ofNat 32 ((List.range 32).foldl (fun x i =>
    let k := (if a.getLsbD i then 1 else 0) + (if b.getLsbD i then 2 else 0) + if c.getLsbD i then 4 else 0
    x + if t.getLsbD k then 2 ^ i else 0) 0)

def execBool3 (h : LaneHdr) (t : BitVec 8) (d : Opd) (a b c : Src) (s : State) : Out :=
  lane32 s (.bool3 h t d a b c) d fun x n => truth3 t (x.src a n) (x.src b n) (x.src c n)

/-- The number of one bits (R173). -/
def onesOf (x : W32) : Nat := (List.range 32).foldl (fun k i => k + if x.getLsbD i then 1 else 0) 0

/-- The number of leading zero bits (R173). -/
def leadingZeros (x : W32) : Nat := if x = 0 then 32 else 31 - Nat.log2 x.toNat

def execPopc (h : LaneHdr) (d a : Opd) (s : State) : Out :=
  lane32 s (.popc h d a) d fun c n => BitVec.ofNat 32 (onesOf (c.opd a n))

def execClz (h : LaneHdr) (d a : Opd) (s : State) : Out :=
  lane32 s (.clz h d a) d fun c n => BitVec.ofNat 32 (leadingZeros (c.opd a n))

/-- Bit i moved to bit 31 - i (R173). -/
def reversed (x : W32) : W32 :=
  BitVec.ofNat 32 ((List.range 32).foldl (fun k i => k + if x.getLsbD i then 2 ^ (31 - i) else 0) 0)

def execBrev (h : LaneHdr) (d a : Opd) (s : State) : Out :=
  lane32 s (.brev h d a) d fun c n => reversed (c.opd a n)

/-! ## Shifts and bit fields (R175) -/

/-- A shift of an operand of a type by the count in B. -/
def laneShift (s : State) (i : Instr) (ty : IntTy) (d a : Opd) (b : Src) (f : (k : Nat) → BitVec k → Nat → BitVec k) :
    Out :=
  laneFix s i fun c => c.putW (IntTy.is64 ty) d fun n =>
    let x := c.bits ty (.reg a) n
    let k := (c.src b n).toNat
    if IntTy.is64 ty then f 64 x k else (f 32 (x.setWidth 32) k).setWidth 64

def execIshl (h : LaneHdr) (ty : IntTy) (d a : Opd) (b : Src) (s : State) : Out :=
  laneShift s (.ishl h ty d a b) ty d a b fun w x k => if w ≤ k then 0 else x <<< k

def execIshr (h : LaneHdr) (ty : IntTy) (d a : Opd) (b : Src) (s : State) : Out :=
  laneShift s (.ishr h ty d a b) ty d a b fun w x k => if w ≤ k then 0 else x >>> k

def execIsra (h : LaneHdr) (ty : IntTy) (d a : Opd) (b : Src) (s : State) : Out :=
  laneShift s (.isra h ty d a b) ty d a b fun w x k => x.sshiftRight (if w ≤ k then w else k)

def execIshf (h : LaneHdr) (left : Bool) (d a b : Opd) (c : Src) (s : State) : Out :=
  lane32 s (.ishf h left d a b c) d fun x n =>
    let v : W64 := x.opd b n ++ x.opd a n
    let k := min (x.src c n).toNat 32
    if left then ((v <<< k) >>> 32).setWidth 32 else (v >>> k).setWidth 32

/-- The low len bits of x shifted right by pos, extended by sign or by zeros (R175). -/
def bitField (signed : Bool) (x : W32) (pos len : Nat) : W32 :=
  let v : Int := if signed then x.toInt else x.toNat
  let f := (v / 2 ^ pos) % 2 ^ len
  BitVec.ofInt 32 (if signed && len != 0 && decide (2 ^ (len - 1) ≤ f) then f - 2 ^ len else f)

def execBfe (h : LaneHdr) (n : Bool) (d a : Opd) (b : Src) (s : State) : Out :=
  lane32 s (.bfe h n d a b) d fun c l =>
    let v := (c.src b l).toNat
    bitField (!n) (c.opd a l) (fld v 0 8) (min (fld v 8 8) 32)

/-- x inserted into y at pos, len bits wide (R175). -/
def insertField (x y : W32) (pos len : Nat) : W32 :=
  let m : W32 := BitVec.ofNat 32 ((2 ^ len - 1) * 2 ^ pos)
  (y &&& ~~~m) ||| (BitVec.ofNat 32 (x.toNat * 2 ^ pos) &&& m)

def execBfi (h : LaneHdr) (d a b : Opd) (c : Src) (s : State) : Out :=
  lane32 s (.bfi h d a b c) d fun x n =>
    let v := (x.src c n).toNat
    insertField (x.opd a n) (x.opd b n) (fld v 0 8) (min (fld v 8 8) 32)

end Sys2Proof.Machine
end

