-- ==== Sys2Proof/Machine/LaneConv.lean ====
section
/-! DEFINITION. Conversions, Hadamard transforms and block quantisation (R184 to R191). -/

namespace Sys2Proof.Machine

/-! ## `cvt` (R184 to R186) -/

/-- The element a conversion reads or writes. -/
inductive Elem where
  | float (f : Fmt)
  | int (signed : Bool) (w : Nat)
  | fx
  deriving DecidableEq, Repr

/-- A conversion type (R184). -/
def CvtTy.elem : CvtTy → Elem
  | .f32 => .float .f32
  | .f16 => .float .f16
  | .bf16 => .float .bf16
  | .e4m3 => .float .e4m3
  | .e5m2 => .float .e5m2
  | .i32 => .int true 32
  | .n32 => .int false 32
  | .i16 => .int true 16
  | .n16 => .int false 16
  | .i8 => .int true 8
  | .n8 => .int false 8
  | .fx64 => .fx

/-- The width of an element. -/
def Elem.width : Elem → Nat
  | .float f => f.width
  | .int _ w => w
  | .fx => 64

/-- The exact value of an element's bits; FX64 has point p. -/
def Elem.value (e : Elem) (p : Nat) (x : Nat) : Ex :=
  match e with
  | .float f => f.value x
  | .int signed w => Ex.ofInt (if signed && flag x (w - 1) then (x : Int) - 2 ^ w else x)
  | .fx => fx64v p (BitVec.ofNat 64 x)

/-- The integer that an element's bits stand for. -/
def Elem.toInt (e : Elem) (x : Nat) : Int :=
  match e with
  | .int signed w => if signed && flag x (w - 1) then (x : Int) - 2 ^ w else x
  | .float _ | .fx => x

/-- The least and greatest integer of w bits. -/
def intLo (signed : Bool) (w : Nat) : Int := if signed then -(2 ^ (w - 1)) else 0
def intHi (signed : Bool) (w : Nat) : Int := if signed then 2 ^ (w - 1) - 1 else 2 ^ w - 1

/-- The bits of an integer of w bits. -/
def intBits (w : Nat) (x : Int) : Nat := (x % 2 ^ w).toNat

/-- The bits of a conversion's result (R185). -/
def convert (src dst : Elem) (m : Mode) (sat : Bool) (p x : Nat) : Nat :=
  match src, dst with
  | .int _ _, .int t v =>
    let y := src.toInt x
    intBits v (if sat then (if y < intLo t v then intLo t v else if intHi t v < y then intHi t v else y) else y)
  | _, .int t v => intBits v (toIntClamp m (intLo t v) (intHi t v) 0 (src.value p x))
  | .float _, .fx => (fx64OfF32 m p (BitVec.ofNat 32 x)).toNat
  | _, .fx => x
  | _, .float f => f.round m sat (src.value p x)

/-- A result narrower than a register, put at a bit offset of an old value (R185). -/
def placeBits (old : W32) (o w x : Nat) : W32 :=
  let m : W32 := BitVec.ofNat 32 ((2 ^ w - 1) * 2 ^ o)
  (old &&& ~~~m) ||| (BitVec.ofNat 32 (x * 2 ^ o) &&& m)

/-- The old value that a narrow result keeps the rest of: none in a queue and in `zero` (R185). -/
def LaneCtx.old (c : LaneCtx) (d : Opd) (n : Fin 32) : W32 :=
  match d with
  | .v r => c.opd (.v r) n
  | _ => 0

def execCvt (h : LaneHdr) (m : CvtMod) (d a : Opd) (s : State) : Out :=
  laneFix s (.cvt h m d a) fun c =>
    let src := CvtTy.elem m.sty
    let dst := CvtTy.elem m.dty
    let x (n : Fin 32) : Nat :=
      if m.sty = .fx64 then (c.opd64 a n).toNat else fld (c.opd a n).toNat (src.width * m.spos.val) src.width
    let y (n : Fin 32) : Nat := convert src dst (Rm.mode m.rm) m.sat m.p.val (x n)
    if m.dty = .fx64 then c.put64 d fun n => BitVec.ofNat 64 (y n)
    else c.put d fun n => placeBits (c.old d n) (dst.width * m.dpos.val) dst.width (y n)

/-- The format of a stochastic conversion's result. -/
def SrTy.fmt : SrTy → Fmt
  | .f16 => .f16
  | .bf16 => .bf16
  | .e4m3 => .e4m3
  | .e5m2 => .e5m2

def execCvtSr (h : LaneHdr) (m : CvtSrMod) (d a b : Opd) (s : State) : Out :=
  lane32 s (.cvtSr h m d a b) d fun c n =>
    let f := SrTy.fmt m.dty
    let r := m.rbits.val
    placeBits (c.old d n) (f.width * m.dpos.val) f.width
      (f.round (.sr r ((c.opd b n).toNat % 2 ^ r)) m.sat (f32v (c.opd a n)))

/-! ## Cross-lane inputs (R187, R193) -/

/-- A whole register as a cross-lane word reads it. -/
def LaneCtx.whole (c : LaneCtx) (r : VReg) : LaneVec := c.view.vreg c.g r.val

def execHdm16 (h : LaneHdr) (d : Opd) (a : VReg) (s : State) : Out :=
  laneFix s (.hdm16 h d a) fun c => c.put d fun n => (hdm 4 (c.whole a))[n]

def execHdm32 (h : LaneHdr) (d : Opd) (a : VReg) (s : State) : Out :=
  laneFix s (.hdm32 h d a) fun c => c.put d fun n => (hdm 5 (c.whole a))[n]

/-! ## Block formats (R188 to R191) -/

/-- Byte k of a word. -/
def byteAt (x : W32) (k : Nat) : Nat := fld x.toNat (8 * k) 8

/-- A word with byte k replaced. -/
def setByteAt (x : W32) (k b : Nat) : W32 := placeBits x (8 * k) 8 b

/-- The rounding of a quantisation in a lane. -/
def LaneCtx.qmode (c : LaneCtx) (m : QPackMod) (n : Fin 32) : Mode :=
  match m.rnd with
  | .fixed rm => Rm.mode rm
  | .sr r b => .sr r.val ((c.opd b n).toNat % 2 ^ r.val)

/-- `qpack` with mb magnitude bits (R189). -/
def qpack (s : State) (i : Instr) (mb : Nat) (m : QPackMod) (d a c : VReg) : Out :=
  laneFix s i fun x =>
    let y := match m.hd with
      | .none => x.whole a
      | .hd16 => hdm 4 (x.whole a)
      | .hd32 => hdm 5 (x.whole a)
    let vals := y.toList.map f32v
    let e := bxExps mb vals
    let anyNan := vals.contains .nan
    let old := x.whole d
    let scale := x.whole c
    let lane0 := 2 * m.k.val
    let elem : LaneVec := laneMap fun n =>
      setByteAt old[n] m.k.val (bxElem mb (x.qmode m n) anyNan e.1 e.2 (f32v y[n]))
    let base := if c = d then elem else scale
    let es : LaneVec := laneMap fun n =>
      if n.val = lane0 then setByteAt base[n] m.bsel.val e.1
      else if n.val = lane0 + 1 then setByteAt base[n] m.bsel.val e.2 else base[n]
    { writes := [{ dst := .v d, mask := x.en, vals := elem },
                 { dst := .v c, mask := x.en &&& (3#32 <<< lane0), vals := es }], push := none }

def execQpackBx8 (h : LaneHdr) (m : QPackMod) (d a c : VReg) (s : State) : Out := qpack s (.qpackBx8 h m d a c) 6 m d a c
def execQpackBx6 (h : LaneHdr) (m : QPackMod) (d a c : VReg) (s : State) : Out := qpack s (.qpackBx6 h m d a c) 4 m d a c
def execQpackBx4 (h : LaneHdr) (m : QPackMod) (d a c : VReg) (s : State) : Out := qpack s (.qpackBx4 h m d a c) 2 m d a c

/-- Element n of block k of an element register, with its scales (R113). -/
def LaneCtx.block (c : LaneCtx) (mb : Nat) (r scale : VReg) (k bsel : Nat) (n : Fin 32) : Ex :=
  let sc := c.whole scale
  let e (i : Nat) : Nat := byteAt (sc[(2 * k + i) % 32]'(Nat.mod_lt _ (by decide))) bsel
  bxValue mb (e 0) (e 1) (byteAt (c.whole r)[n] k)

/-- `qunpack` with mb magnitude bits (R190). -/
def qunpack (s : State) (i : Instr) (mb : Nat) (k bsel : Fin 4) (d : Opd) (a c : VReg) : Out :=
  lane32 s i d fun x n => rne32 (x.block mb a c k.val bsel.val n)

def execQunpackBx8 (h : LaneHdr) (k bsel : Fin 4) (d : Opd) (a c : VReg) (s : State) : Out :=
  qunpack s (.qunpackBx8 h k bsel d a c) 6 k bsel d a c
def execQunpackBx6 (h : LaneHdr) (k bsel : Fin 4) (d : Opd) (a c : VReg) (s : State) : Out :=
  qunpack s (.qunpackBx6 h k bsel d a c) 4 k bsel d a c
def execQunpackBx4 (h : LaneHdr) (k bsel : Fin 4) (d : Opd) (a c : VReg) (s : State) : Out :=
  qunpack s (.qunpackBx4 h k bsel d a c) 2 k bsel d a c

/-- `bxdot` with mb magnitude bits: four exact products and C, rounded once (R191). -/
def bxdot (s : State) (i : Instr) (mb : Nat) (rm : Rm) (bsa bsb : Fin 4) (d : Opd) (a b : VReg) (c : Opd) : Out :=
  let down := rm == .rd
  lane32 s i d fun x n =>
    let t := (List.range 4).foldl (fun t k =>
      t.add down ((x.block mb a (vplus a 1) k bsa.val n).mul (x.block mb b (vplus b 1) k bsb.val n))) (f32v (x.opd c n))
    BitVec.ofNat 32 (Fmt.f32.round (Rm.mode rm) false t)

def execBxdotBx8 (h : LaneHdr) (rm : Rm) (bsa bsb : Fin 4) (d : Opd) (a b : VReg) (c : Opd) (s : State) : Out :=
  bxdot s (.bxdotBx8 h rm bsa bsb d a b c) 6 rm bsa bsb d a b c
def execBxdotBx6 (h : LaneHdr) (rm : Rm) (bsa bsb : Fin 4) (d : Opd) (a b : VReg) (c : Opd) (s : State) : Out :=
  bxdot s (.bxdotBx6 h rm bsa bsb d a b c) 4 rm bsa bsb d a b c
def execBxdotBx4 (h : LaneHdr) (rm : Rm) (bsa bsb : Fin 4) (d : Opd) (a b : VReg) (c : Opd) (s : State) : Out :=
  bxdot s (.bxdotBx4 h rm bsa bsb d a b c) 2 rm bsa bsb d a b c

end Sys2Proof.Machine
end

