-- ==== Sys2Proof/Machine/LaneCross.lean ====
section
/-! DEFINITION. Moves, cross-lane words and predicates (R192 to R200). -/

namespace Sys2Proof.Machine

/-! ## Moves (R192) -/

def execMov (h : LaneHdr) (w64 : Bool) (d a : Opd) (s : State) : Out :=
  laneFix s (.mov h w64 d a) fun c => c.putW w64 d fun n => if w64 then c.opd64 a n else (c.opd a n).setWidth 64

def execMovi (h : LaneHdr) (d : Opd) (x : W32) (s : State) : Out := lane32 s (.movi h d x) d fun _ _ => x

/-! ## Values of other lanes (R193 to R195) -/

/-- The source lane of `xlane` (R194), none when it is out of range. -/
def sourceLane (m : XMode) (n : Fin 32) (b : W32) : Option (Fin 32) :=
  let pick (j : Int) : Option (Fin 32) := if 0 ≤ j ∧ j ≤ 31 then some (Fin.ofNat 32 j.toNat) else none
  match m with
  | .abs => pick b.toNat
  | .rel => pick (n.val + b.toInt)
  | .xor => pick ((BitVec.ofNat 32 n.val ^^^ b).toNat)
  | .rot => some (Fin.ofNat 32 (n.val + b.toNat))

/-- A register, or a pair, in one lane. An s register or a special operand, which a 64-bit slot takes too, has its value
there (R168). -/
def LaneCtx.vlane (c : LaneCtx) (w64 : Bool) (o : Opd) (n : Fin 32) : W64 :=
  match o with
  | .v r => if w64 then (c.whole (vplus r 1))[n] ++ (c.whole r)[n] else ((c.whole r)[n]).setWidth 64
  | o => c.opd64 o n

def execXlane (h : LaneHdr) (mode : XMode) (vp : PReg) (w64 : Bool) (d a : Opd) (b : Src) (s : State) : Out :=
  laneFix s (.xlane h mode vp w64 d a b) fun c =>
    let j (n : Fin 32) : Option (Fin 32) := sourceLane mode n (c.src b n)
    (c.putW w64 d fun n => c.vlane w64 a ((j n).getD n)).and (c.putP vp fun n => (j n).isSome)

def execRdlane (h : LaneHdr) (vp : PReg) (d : Opd) (a : VReg) (b : Src) (s : State) : Out :=
  laneFix s (.rdlane h vp d a b) fun c =>
    let k := (c.src b (lowLane c.en)).toNat
    (c.put d fun n => (c.whole a)[if k < 32 then Fin.ofNat 32 k else n]).and (c.putP vp fun _ => decide (k < 32))

/-! ## Votes and scans (R196, R197) -/

def execVote (h : LaneHdr) (mode : VoteMode) (d : Opd) (a : PReg) (s : State) : Out :=
  lane32 s (.vote h mode d a) d fun c _ =>
    let on := c.en &&& c.view.preg c.g a
    let bool (b : Bool) : W32 := if b then 1 else 0
    match mode with
    | .and => bool (on == c.en)
    | .or => bool (on != 0)
    | .same => bool (on == c.en || on == 0)
    | .mask => on
    | .count => BitVec.ofNat 32 (maskCount on)

/-- The identity of a scan (R197). -/
def ScanOp.unit : ScanOp → W32
  | .addI32 => 0
  | .addF32 => 0
  | .minI32 => 0x7FFFFFFF
  | .maxI32 => 0x80000000
  | .minN32 => 0xFFFFFFFF
  | .maxN32 => 0
  | .minF32 => 0x7F800000
  | .maxF32 => 0xFF800000

/-- One step of a scan (R197). -/
def ScanOp.step (o : ScanOp) (t x : W32) : W32 :=
  match o with
  | .addI32 => t + x
  | .addF32 => fadd32 t x
  | .minI32 => if x.toInt < t.toInt then x else t
  | .maxI32 => if t.toInt < x.toInt then x else t
  | .minN32 => if x.toNat < t.toNat then x else t
  | .maxN32 => if t.toNat < x.toNat then x else t
  | .minF32 => fmin32 t x
  | .maxF32 => fmax32 t x

/-- The prefix before and behind each enabled lane, in lane order, from t on (R197). -/
def scanFrom (o : ScanOp) (x : LaneVec) : List (Fin 32) → W32 → List (Nat × W32 × W32)
  | [], _ => []
  | n :: ns, t =>
    let u := ScanOp.step o t x[n]
    (n.val, t, u) :: scanFrom o x ns u

def execLscan (h : LaneHdr) (op : ScanOp) (excl : Bool) (d : Opd) (a : VReg) (s : State) : Out :=
  lane32 s (.lscan h op excl d a) d fun c n =>
    match (scanFrom op (c.whole a) (maskLanes c.en) (ScanOp.unit op)).find? fun e => e.1 == n.val with
    | some e => if excl then e.2.1 else e.2.2
    | none => 0

/-! ## `cmp24` (R198) -/

/-- The element format, and whether it has 16 bits. -/
def Cmp24Ty.fmt : Cmp24Ty → Fmt
  | .bf16 => .bf16
  | .f16 => .f16
  | .e4m3 => .e4m3
  | .e5m2 => .e5m2

/-- An element ranks above another: a NaN above every magnitude, then by magnitude. -/
def magAbove (f : Fmt) (x y : Nat) : Bool :=
  let half := 2 ^ (f.width - 1)
  match f.value x == .nan, f.value y == .nan with
  | true, b => !b
  | false, true => false
  | false, false => decide (y % half < x % half)

/-- The rank of element i: how many elements rank above it; among equal ones a lower index ranks higher. -/
def rankOf (f : Fmt) (xs : List Nat) (i : Nat) : Nat :=
  ((List.range 4).filter fun j =>
    let x := xs.getD i 0
    let y := xs.getD j 0
    magAbove f y x || (decide (j < i) && !magAbove f x y)).length

def execCmp24 (h : LaneHdr) (ty : Cmp24Ty) (d a : VReg) (s : State) : Out :=
  laneFix s (.cmp24 h ty d a) fun c =>
    let f := Cmp24Ty.fmt ty
    let elems (n : Fin 32) : List Nat :=
      let m := c.at_ n
      let w : W64 := (c.whole (vplus a 1))[m] ++ (c.whole a)[m]
      (List.range 4).map fun i => fld w.toNat (f.width * i) f.width
    let kept (n : Fin 32) : List Nat := (List.range 4).filter fun i => decide (rankOf f (elems n) i < 2)
    let data (n : Fin 32) : W32 :=
      let k := kept n
      BitVec.ofNat 32 ((elems n).getD (k.getD 0 0) 0 + (elems n).getD (k.getD 1 0) 0 * 2 ^ f.width)
    let meta_ (n : Fin 32) : W32 := BitVec.ofNat 32 ((kept n).getD 0 0 + (kept n).getD 1 0 * 4)
    (c.put (.v d) data).and (c.put (.v (vplus d 1)) meta_)

/-! ## Predicates (R199, R200) -/

def execPset (h : LaneHdr) (t : BitVec 8) (d a b c : PReg) (s : State) : Out :=
  laneFix s (.pset h t d a b c) fun x => x.putP d fun n =>
    t.getLsbD ((if x.pred a n then 1 else 0) + (if x.pred b n then 2 else 0) + if x.pred c n then 4 else 0)

def execPmov (h : LaneHdr) (mask : Bool) (d a : Opd) (s : State) : Out :=
  laneFix s (.pmov h mask d a) fun c =>
    match d with
    | .p r => c.putP r fun n =>
      let v := c.opd a n
      if mask then v.getLsbD (c.at_ n).val else v != 0
    | _ => c.put d fun n => c.opd a n

end Sys2Proof.Machine
end

