-- ==== Sys2Proof/Machine/ScalarAlu.lean ====
section
/-! DEFINITION. The scalar integer and address instructions (R130 to R133). -/

namespace Sys2Proof.Machine

/-! ## What they compute -/

/-- High half of the exact product, unsigned when n holds (R130). -/
def mulHigh (n : Bool) (a b : W64) : W64 :=
  if n then BitVec.ofNat 64 (a.toNat * b.toNat / 2 ^ 64) else BitVec.ofInt 64 (a.toInt * b.toInt / 2 ^ 64)

/-- The quotient truncated toward zero, unsigned when n holds, with the special cases (R131). -/
def quotient (n : Bool) (a b : W64) : W64 :=
  if b = 0 then BitVec.allOnes 64
  else if n then BitVec.ofNat 64 (a.toNat / b.toNat) else BitVec.ofInt 64 (a.toInt.tdiv b.toInt)

/-- The smaller, unsigned when n holds (R130). -/
def smaller (n : Bool) (a b : W64) : W64 :=
  if (if n then a.toNat ≤ b.toNat else a.toInt ≤ b.toInt) then a else b

/-- The larger, unsigned when n holds (R130). -/
def larger (n : Bool) (a b : W64) : W64 :=
  if (if n then b.toNat ≤ a.toNat else b.toInt ≤ a.toInt) then a else b

/-- Leading zero bits of the low k bits (R130, R173). -/
def leadZeros (x : Nat) : Nat → Nat
  | 0 => 0
  | k + 1 => if x.testBit k then 0 else 1 + leadZeros x k

/-- One bits among the low k bits (R130, R173). -/
def oneBits (x : Nat) : Nat → Nat
  | 0 => 0
  | k + 1 => (if x.testBit k then 1 else 0) + oneBits x k

/-- The shift count of an ALU form: bits 5 to 0 (R130). -/
def shiftCount (b : W64) : Nat := b.toNat % 64

/-- The low 32 bits of y above the low 32 bits of x (R130). -/
def highHalf (y x : W64) : W64 := (y.setWidth 32 : W32) ++ (x.setWidth 32 : W32)

/-! ## Register forms -/

def execSadd (d a b : SReg) (s : State) : Out := scalarReg s 4 d fun c => c.get a + c.get b
def execSsub (d a b : SReg) (s : State) : Out := scalarReg s 4 d fun c => c.get a - c.get b
def execSmul (d a b : SReg) (s : State) : Out := scalarReg s 4 d fun c => c.get a * c.get b
def execSmulh (n : Bool) (d a b : SReg) (s : State) : Out := scalarReg s 4 d fun c => mulHigh n (c.get a) (c.get b)
def execSdiv (n : Bool) (d a b : SReg) (s : State) : Out := scalarReg s 4 d fun c => quotient n (c.get a) (c.get b)
def execSmin (n : Bool) (d a b : SReg) (s : State) : Out := scalarReg s 4 d fun c => smaller n (c.get a) (c.get b)
def execSmax (n : Bool) (d a b : SReg) (s : State) : Out := scalarReg s 4 d fun c => larger n (c.get a) (c.get b)
def execSand (d a b : SReg) (s : State) : Out := scalarReg s 4 d fun c => c.get a &&& c.get b
def execSor (d a b : SReg) (s : State) : Out := scalarReg s 4 d fun c => c.get a ||| c.get b
def execSxor (d a b : SReg) (s : State) : Out := scalarReg s 4 d fun c => c.get a ^^^ c.get b
def execSshl (d a b : SReg) (s : State) : Out := scalarReg s 4 d fun c => c.get a <<< shiftCount (c.get b)
def execSshr (d a b : SReg) (s : State) : Out := scalarReg s 4 d fun c => c.get a >>> shiftCount (c.get b)
def execSsra (d a b : SReg) (s : State) : Out := scalarReg s 4 d fun c => (c.get a).sshiftRight (shiftCount (c.get b))
def execSclz (d a : SReg) (s : State) : Out :=
  scalarReg s 4 d fun c => BitVec.ofNat 64 (leadZeros (c.get a).toNat 64)
def execSpopc (d a : SReg) (s : State) : Out :=
  scalarReg s 4 d fun c => BitVec.ofNat 64 (oneBits (c.get a).toNat 64)
def execSmov (d a : SReg) (s : State) : Out := scalarReg s 4 d fun c => c.get a
def execSsel (d a b : SReg) (s : State) : Out := scalarReg s 4 d fun c => if c.cond 0 then c.get a else c.get b
def execSlea (d a b : SReg) (s : State) : Out := scalarReg s 4 d fun c => c.get a + 4 * c.get b

/-- A comparison sets one condition register (R132). -/
def scalarCmp (s : State) (cc : Cond) (n : Bool) (k : KReg) (f : ScalarCtx → W64 × W64) : Out :=
  scalar s .any [] fun a c => .ok ((s.putK a k (compareBits cc n (f c).1 (f c).2)).next a c.pc 4)

def execScmp (c : Cond) (n : Bool) (k : KReg) (a b : SReg) (s : State) : Out :=
  scalarCmp s c n k fun x => (x.get a, x.get b)

/-! ## Immediate forms -/

def execSaddImm (d a : SReg) (i : BitVec 13) (s : State) : Out := scalarReg s 4 d fun c => c.get a + sx i
def execSmulImm (d a : SReg) (i : BitVec 13) (s : State) : Out := scalarReg s 4 d fun c => c.get a * sx i
def execSandImm (d a : SReg) (i : BitVec 13) (s : State) : Out := scalarReg s 4 d fun c => c.get a &&& sx i
def execSorImm (d a : SReg) (i : BitVec 13) (s : State) : Out := scalarReg s 4 d fun c => c.get a ||| sx i
def execSxorImm (d a : SReg) (i : BitVec 13) (s : State) : Out := scalarReg s 4 d fun c => c.get a ^^^ sx i
def execSshlImm (d a : SReg) (i : BitVec 13) (s : State) : Out := scalarReg s 4 d fun c => c.get a <<< i.toNat
def execSshrImm (d a : SReg) (i : BitVec 13) (s : State) : Out := scalarReg s 4 d fun c => c.get a >>> i.toNat
def execSsraImm (d a : SReg) (i : BitVec 13) (s : State) : Out :=
  scalarReg s 4 d fun c => (c.get a).sshiftRight i.toNat
def execSminImm (d a : SReg) (i : BitVec 13) (s : State) : Out := scalarReg s 4 d fun c => smaller false (c.get a) (sx i)
def execSmaxImm (d a : SReg) (i : BitVec 13) (s : State) : Out := scalarReg s 4 d fun c => larger false (c.get a) (sx i)
def execScmpImm (c : Cond) (k : KReg) (a : SReg) (i : BitVec 13) (s : State) : Out :=
  scalarCmp s c false k fun x => (x.get a, sx i)
def execSleaImm (d : SReg) (i : BitVec 13) (s : State) : Out := scalarReg s 4 d fun c => c.pc + 4 * sx i
def execSmovi (d : SReg) (i : BitVec 13) (s : State) : Out := scalarReg s 4 d fun _ => sx i
def execSmovh (d : SReg) (i : BitVec 13) (s : State) : Out := scalarReg s 4 d fun c => highHalf (sx i) (c.get d)

/-! ## Long forms -/

def execSmoviLong (d : SReg) (i : W32) (s : State) : Out := scalarReg s 8 d fun _ => sx i
def execSmovhLong (d : SReg) (i : W32) (s : State) : Out := scalarReg s 8 d fun c => highHalf (sx i) (c.get d)
def execSaddLong (d a : SReg) (i : W32) (s : State) : Out := scalarReg s 8 d fun c => c.get a + sx i
def execSandLong (d a : SReg) (i : W32) (s : State) : Out := scalarReg s 8 d fun c => c.get a &&& sx i
def execSorLong (d a : SReg) (i : W32) (s : State) : Out := scalarReg s 8 d fun c => c.get a ||| sx i
def execSxorLong (d a : SReg) (i : W32) (s : State) : Out := scalarReg s 8 d fun c => c.get a ^^^ sx i

end Sys2Proof.Machine
end

