-- ==== Sys2Proof/Machine/ScalarControl.lean ====
section
/-! DEFINITION. Scalar control and lane dispatch: jumps, `sloop`, `sexit`, `snop`, `ldisp`, `lsync`, `slrd` (R134 to
R136, R144 to R146). -/

namespace Sys2Proof.Machine

/-! ## Jumps (R50, R134) -/

/-- The target of a form C transfer at `pc` (R50). -/
def branchTarget (pc : W64) (off : BitVec 22) : W64 := pc + 4 * sx off

def execSb (off : BitVec 22) (s : State) : Out :=
  scalar s .any [] fun a c => s.jump a (branchTarget c.pc off) id

def execSbk (k : KReg) (sense : Bool) (off : BitVec 22) (s : State) : Out :=
  scalar s .any [] fun a c =>
    if c.cond k != sense then s.jump a (branchTarget c.pc off) id else .ok (s.next a c.pc 4)

def execScall (off : BitVec 22) (s : State) : Out :=
  scalar s .any [] fun a c => s.jump a (branchTarget c.pc off) fun t => t.putS a 63 (c.pc + 4)

def execSret (a : SReg) (s : State) : Out := scalar s .any [] fun i c => s.jump i (c.get a) id

def execSjmpr (a : SReg) (s : State) : Out := scalar s .any [] fun i c => s.jump i (c.get a) id

def execSjmprL (d a : SReg) (s : State) : Out :=
  scalar s .any [] fun i c => do
    s.interlock i d
    s.jump i (c.get a) fun t => t.putS i d (c.pc + 4)

/-! ## Repeats (R135) -/

/-- A block of the gang carries an arm: it is dispatched or live. -/
def Gang.armAttached (y : Gang) : Bool := y.queue.any (·.arm) || y.arm.any (·.active)

/-- The arm that waits for the next `ldisp`. -/
def Gang.armPending (y : Gang) : Option Arm := if y.armAttached then none else y.arm

/-- In a pilot, which has no lane block to arm, the instruction only advances (log 53). -/
def execSloop (a : SReg) (n : BitVec 13) (s : State) : Out :=
  scalar s .any [] fun i c =>
    match i with
    | .pilot _ => .ok (s.next i c.pc 4)
    | .gang g => match s.gang? g with
      | none => .ok s
      | some y =>
        if y.armAttached then .error (.wait s)
        else
          let arm : Arm := { count := (c.get a).setWidth 32, len := n.toNat, start := 0, active := false, left := 0 }
          .ok ((s.setGang g { y with arm := some arm }).next i c.pc 4)

/-! ## Ends -/

/-- A gang ends: it leaves its crew, and a crew without gangs retires (R136). It may have been the last that a
pre-emption waited for (R383). An extended block that it holds stays with it until the crew retires (log 54). -/
def State.endGang (s : State) (g : Nat) : State :=
  match s.gang? g with
  | none => s
  | some y =>
    let s := s.dropGang g
    match s.crew? y.crew with
    | none => s
    | some c =>
      let c := { c with gangs := c.gangs.map fun x => if x = some g then none else x }
      (s.setCrew y.crew { c with ending := c.gangs.all (·.isNone) }).lastPark y.crew

def execSexit (s : State) : Out :=
  scalar s .any [] fun a _ => do
    let t ← s.settle a
    match a with
    | .gang g => .ok (t.endGang g)
    | .pilot cl => .ok { t with pilots := t.pilots.erase cl }

def execSnop (s : State) : Out := scalar s .any [] fun a c => .ok (s.next a c.pc 4)

/-! ## Lane dispatch -/

/-- Pushes a block of the gang's kernel onto its lane dispatch queue (R21, R144, R376). -/
def State.dispatch (s : State) (g : Nat) (target : Nat) : Act State :=
  match s.gang? g, s.kernel (.gang g) with
  | some y, some k => do
    require (y.sc.mode != some .trap) .trapState
    require (decide (target < k.laneCount)) .range
    match y.armPending with
    | some m => require (decide (target + m.len ≤ k.laneCount)) .range
    | none => .ok ()
    waitFor (decide (y.queue.length < 8)) s
    let arm := match y.armPending with
      | some m => some { m with start := target }
      | none => y.arm
    .ok (s.setGang g { y with queue := y.queue ++ [{ index := target, arm := y.armPending.isSome }], arm := arm })
  | _, _ => .ok s

/-- A dispatch of a block, and the stream goes on. -/
def scalarDispatch (s : State) (target : ScalarCtx → Nat) : Out :=
  scalar s .gangs [] fun a c => match a with
    | .pilot _ => .ok s
    | .gang g => do
      let t ← s.dispatch g (target c)
      .ok (t.next a c.pc 4)

def execLdisp (n : BitVec 13) (s : State) : Out := scalarDispatch s fun _ => n.toNat

def execLdispReg (a : SReg) (n : BitVec 13) (s : State) : Out :=
  scalarDispatch s fun c => (c.get a).toNat % 2 ^ 30 + n.toNat

def execLsync (s : State) : Out :=
  scalar s .gangs [] fun a c => do
    let t ← s.settle a
    .ok (t.next a c.pc 4)

/-- The lane that `slrd` reads (R146). -/
def laneSel (c : ScalarCtx) : LaneSel → Fin 32
  | .imm l => l
  | .reg b => Fin.ofNat 32 (c.get b).toNat

def execSlrd (d : SReg) (n : Fin 64) (l0 : LaneSel) (s : State) : Out :=
  scalar s .gangs [] fun a c => match a with
    | .pilot _ => .ok s
    | .gang g => do
      let t ← s.settle a
      t.interlock a d
      match t.fillGranule g n.val with
      | .error t => .error (.wait t)
      | .ok t =>
        if t.regPoisoned g n.val (maskOf fun l => l == laneSel c l0) then raise { code := .ecc }
        else .ok (t.finish a c 4 d (((t.vreg g n.val)[laneSel c l0]).setWidth 64))

end Sys2Proof.Machine
end

