-- ==== Sys2Proof/Machine/System.lean ====
section
/-! DEFINITION. Control registers (R28, R30, R42, R43, R164), `trap`, `eret` and `spchk` (R165, R166, R377, R382). -/

namespace Sys2Proof.Machine

/-! ## Control registers -/

/-- The partition word (R31). -/
def PartWord.word (p : PartWord) : W64 :=
  BitVec.ofNat 64 (p.total % 32 * 2 ^ 15 + p.ext % 32 * 2 ^ 10 + p.acc % 32 * 2 ^ 5 + p.rf % 32)

/-- Bytes 8 h to 8 h + 7 of a gang's bindings as a word (R28). -/
def Gang.qmapWord (y : Gang) (hi : Bool) : W64 := word64 (y.qmap.toList.drop (if hi then 8 else 0))

/-- `xpool`: the free blocks of the crew's pool, and whether the gang holds one (R42). -/
def xpoolWord (c : Crew) (y : Gang) : W64 :=
  BitVec.ofNat 64 ((c.ext.filter fun e => e.holder.isNone).length % 64 + if y.ext.isSome then 64 else 0)

/-- The value of a control register that gangs only have; none for another number (R42). -/
def gangCsr (n : Nat) (c : Crew) (y : Gang) : Option W64 :=
  match n with
  | 0x001 => some (y.qmapWord false)
  | 0x002 => some (y.qmapWord true)
  | 0x003 => some c.part.word
  | 0x004 => some (xpoolWord c y)
  | 0x005 => some y.dbase
  | 0x006 => some (BitVec.ofNat 64 y.depth)
  | 0x00A => some c.wgt
  | _ => none

/-- The value of a control register of an issuer; none for a number that it does not have (R42). What `wgt` of a pilot,
which belongs to no crew, reads is a free value (log 2). -/
def State.csr (s : State) (i : Issuer) (c : ScalarCtx) (n : Nat) : Option W64 :=
  match n with
  | 0x000 => some (match i with
      | .gang g => if (s.gang? g).any (·.chk) then 1 else 0
      | .pilot cl => if (s.pilot? cl).any (·.chk) then 1 else 0)
  | 0x007 => some c.trapslot
  | 0x008 => some (s.ids i)
  | 0x009 => some (BitVec.ofNat 64 (((s.issuerGridOf i).map fun x => x.2.nest).getD 0))
  | 0x00B => some (s.cyc (dieOf i.cluster))
  | _ => match i with
    | .pilot _ => if n = 0x00A then some (BitVec.ofNat 64 s.free.1) else none
    | .gang g => match s.gang? g, s.issuerCrew i with
      | some y, some (_, w) => gangCsr n w y
      | _, _ => none

/-- The number of a free value that `csrr` took is used up. -/
def State.usedFree (s : State) (i : Issuer) (n : Nat) : State :=
  match i with
  | .gang _ => s
  | .pilot _ => if n = 0x00A then { s with choice := s.choice + 1 } else s

def execCsrr (n : BitVec 12) (d : SReg) (s : State) : Out :=
  scalar s .any [] fun i c =>
    match s.csr i c n.toNat with
    | none => raise { code := .illegalOp }
    | some v => do
      s.interlock i d
      .ok ((s.usedFree i n.toNat).finish i c 4 d v)

/-- A binding that `csrw` refuses (R28): KIND 7, or an INDEX outside its range; `acc` is the crew's tiles. -/
def badBinding (acc : Nat) (b : Byte) : Bool :=
  let idx := b.toNat % 32
  match b.toNat / 32 with
  | 1 => decide (acc ≤ idx)
  | 5 => false
  | 6 => decide (16 ≤ idx)
  | 7 => true
  | _ => idx != 0

/-- The lane work that a change of a control register waits for (R30, R376). -/
def State.csrWait (s : State) (i : Issuer) : Act Unit := waitFor (!s.blocked i && match i with
  | .gang g => (s.gang? g).all Gang.quiet
  | .pilot _ => true) s

/-- The bindings of eight queues are written; the cursor of each entry whose value changes is 0 (R248). -/
def Gang.bind (y : Gang) (hi : Bool) (v : W64) : Gang :=
  (List.range 8).foldl (fun y n =>
    let q : Fin 16 := Fin.ofNat 16 (if hi then n + 8 else n)
    let b : Byte := BitVec.ofNat 8 (fld v.toNat (8 * n) 8)
    if y.qmap[q] = b then y else { y with qmap := y.qmap.set q b, cursor := y.cursor.set q 0 }) y

def execCsrw (n : BitVec 12) (a : SReg) (s : State) : Out :=
  scalar s .any [] fun i c => do
    let v := c.get a
    let bindAs (hi : Bool) : Act State :=
      match i, s.issuerCrew i with
      | .gang g, some (_, w) => do
        s.csrWait i
        require (!(leBytes 8 v.toNat).any (badBinding w.part.acc)) .queueMap
        match s.gang? g with
        | none => .ok s
        | some y => .ok ((s.setGang g (y.bind hi v)).next i c.pc 4)
      | _, _ => raise { code := .illegalOp }
    match n.toNat with
    | 0x000 => do
      s.csrWait i
      let b := v.getLsbD 0
      .ok ((match i with
        | .gang g => match s.gang? g with
          | some y => s.setGang g { y with chk := b }
          | none => s
        | .pilot cl => match s.pilot? cl with
          | some y => s.setPilot cl { y with chk := b }
          | none => s).next i c.pc 4)
    | 0x001 => bindAs false
    | 0x002 => bindAs true
    | k => match s.csr i c k with
      | none => raise { code := .illegalOp }
      | some _ => .ok (s.next i c.pc 4)

/-! ## Traps and handlers -/

def execTrap (n : BitVec 12) (s : State) : Out :=
  scalar s .any [] fun i c =>
    if s.mayTrap i then
      .ok (s.takeTrap i { code := .userTrap, info := n.setWidth 32 } { faddr := c.pc, sres := c.pc + 4, lane := none })
    else .error (.wait s)

/-- A replayable crew holds the effect (R229). -/
def MemOp.holds : MemOp → Bool
  | .store _ _ _ | .pstore _ _ | .red _ _ _ _ | .fx _ _ _ none => true
  | _ => false

/-- The accesses of a trapped word are performed again in the lanes that its record names (R377). In a replayable crew
those that it holds are held again, as word `id` (R387), but for those whose address still does not translate, which fault
again. -/
def State.again (s : State) (g id : Nat) (slot : Fin 2) (index : Nat) (ops : List (Fin 32 × MemOp)) : Done :=
  let replay := s.replayable g
  let held := ops.filter fun e => replay && e.2.holds
  let errs := s.untranslated (s.who (.gang g)) held
  let hold := held.filter fun e => !errs.any fun x => x.1 == e.1 && x.2.1 == e.2
  let h : Held := { no := id, slot := slot, index := index, ops := hold, rel := none, strong := false }
  let s := match s.gang? g with
    | some y => if hold.isEmpty then s else s.setGang g { y with held := y.held ++ [h] }
    | none => s
  let d := s.performWhole (s.who (.gang g)) (s.ownLoads g) (ops.filter fun e => !(replay && e.2.holds))
  { d with errs := errs ++ d.errs }

/-- What the repeated accesses of an `eret` come to: the state, and a new trap, a wait, or neither. -/
structure Retry where
  st : State
  trap : Option Trap
  wait : Bool

/-- The traversal unit can take the entry that a repeated `trace` pushes (R58, R265). -/
def State.redoRoom (s : State) (g : Nat) (ops : List (Fin 32 × MemOp)) : Bool :=
  !(ops.any fun e => e.2.isTrace)
    || decide ((s.cluster (clusterOf (coreOf g))).travQ.length < 16) && !s.tracing (coreOf g)

/-- The repeated accesses as word `id`, which completes at once where nothing of it is out at another package. -/
def State.redoWord (s : State) (g : Nat) (v : VarPend) : State :=
  if !v.far then (s.completeVar g v).pushTrace g v.traces v.pays
  else match s.gang? g with
    | none => s
    | some y =>
      let t := s.setGang g { y with var := y.var ++ [v] }
      if v.rays.isEmpty then t.pushTrace g v.traces v.pays else t.goRays g v

/-- The repeated accesses of an `eret` (R377): it waits for those that are not satisfied and for another package's
answers, or it raises a new trap. -/
def State.retry (s : State) (g : Nat) (slot : Fin 2) (index : Nat) (nmask : Mask) : Retry :=
  match s.gang? g with
  | none => { st := s, trap := none, wait := false }
  | some y =>
    if y.awaits || !s.redoRoom g y.redo then { st := s, trap := none, wait := true }
    else if y.redo.isEmpty then { st := s.finishLanes g, trap := none, wait := false }
    else
      let ops := y.redo.filter fun e => hasLane nmask e.1
      let (new, t) := s.fresh
      let id := ((y.owed slot index).map (·.no)).getD new
      let d := t.again g id slot index ops
      let f := d.st.sendFar (t.who (.gang g)) (.lane g id) .fabric .relaxed d.far
      let errs := d.errs ++ f.errs
      let v : VarPend :=
        { id := id, slot := slot, index := index, dsts := ((ops.findSome? fun e => e.2.pushes).map LaneDst.q).toList,
          writes := laneWrites d.res, token := 0, remote := f.ids, reads := f.reads, got := f.got,
          own := if f.reads.isEmpty then [] else f.st.ownEffects g, rays := f.rays,
          traces := ops.filter fun e => e.2.isTrace && !errs.any fun x => x.1 == e.1, pays := [], acq := false,
          strong := false, ended := true }
      let t := f.st.redoWord g v
      let t := match t.gang? g with
        | none => t
        | some z => t.setGang g { z with redo := errs.map fun e => (e.1, e.2.1) }
      let x := (lateTrap (errs.filter fun e => e.2.2 != .wait)).map fun x =>
        { x with nmask := maskOf fun n => errs.any fun e => e.1 == n }
      if v.far then { st := t, trap := none, wait := true }
      else { st := t, trap := x, wait := x.isNone && !errs.isEmpty }

/-- A gang parks at the end of its save routine; one whose request has been withdrawn enters its restore routine
instead (R382, R383). -/
def State.park (s : State) (g n : Nat) : State :=
  match s.gang? g with
  | none => s
  | some y =>
    let t := s.setGang g { y with parked := some n, sc := { y.sc with mode := none, wait := .none } }
    match t.crew? y.crew with
    | none => t
    | some c => if c.preempt.isSome then t.lastPark y.crew else t.restoreInPlace g

/-- The pushes that a gang's words owe, set. -/
def State.setOwes (s : State) (g : Nat) (l : List Owed) : State :=
  match s.gang? g with
  | some y => s.setGang g { y with owes := l }
  | none => s

/-- A trap that a repeated access raises: handler mode ends, and the record is written with the same resume points
(R377). Where a DEMAND fault stops the crew for a kill instead, or a kill decision holds it, the fault stays pending (R305,
R386). -/
def State.trapAgain (s : State) (g : Nat) (bs : List Byte) (slot : Fin 2) (t : Trap) : State :=
  let ops := match s.gang? g with
    | some y => y.redo
    | none => []
  let owes := match s.gang? g with
    | some y => y.owes
    | none => []
  let no := match s.gang? g with
    | some y => ((y.owed slot (word64 (bs.drop 8)).toNat).map (·.no)).getD 0
    | none => 0
  let lres := fld (fieldAt bs 24 8) 0 30
  let r : TrapPoint := { faddr := word64 (bs.drop 8), sres := word64 (bs.drop 16), lane := some (slot, lres), redo := ops }
  let u := ((s.setOwes g []).leave (.gang g) bs).setOwes g owes
  let f : LateFault := { no := no, slot := slot, index := r.faddr.toNat, token := 0, trap := t, ops := ops, due := true }
  if u.killHeld (.gang g) then u.addLate g f
  else match u.demandStop (.gang g) t with
    | some v => v.addLate g f
    | none => u.takeTrap (.gang g) t r

def execEret (s : State) : Out :=
  scalar s .any [] fun i c =>
    match c.mode with
    | none => raise { code := .trapState }
    | some (.save n) => match i with
      | .gang g => if s.storesOut i then .error (.wait s) else .ok (s.park g n)
      | .pilot _ => .ok s
    | some _ => match s.ctxLoad (s.who i) c.trapslot 64 with
      | .error (.remote x) => .error (.wait (s.askPeer (.ctx i) (.remote x)))
      | .error _ => .ok (s.areaFault i)
      | .ok bs => match i with
        | .pilot _ => .ok ((s.leave i bs).dropPeer (.ctx i))
        | .gang g =>
          let w0 := fieldAt bs 0 8
          let slot : Fin 2 := if flag w0 13 then 1 else 0
          let nmask : Mask := BitVec.ofNat 32 (fieldAt bs 0x20 4)
          if flag w0 12 && !flag w0 15 && nmask != 0 then
            let r := s.retry g slot (word64 (bs.drop 8)).toNat nmask
            match r.trap with
            | some t => .ok ((r.st.trapAgain g bs slot t).dropPeer (.ctx i))
            | none => if r.wait then .error (.wait r.st) else .ok ((r.st.leave i bs).dropPeer (.ctx i))
          else .ok ((s.leave i bs).dropPeer (.ctx i))

/-- The pre-emption of a gang at safe point n: its record, and its save routine at an offset (R375, R382). -/
def State.takeSave (s : State) (i : Issuer) (c : ScalarCtx) (n : Nat) (k : Kernel) (off : Nat) : State :=
  let bs := recordBytes { code := .preempt, info := BitVec.ofNat 32 n } { faddr := c.pc, sres := c.pc + 4, lane := none }
    (s.cyc (dieOf i.cluster)) c.s[62] c.s[63]
  match s.ctxStore (s.who i) c.trapslot bs with
  | .error _ => s.areaFault i
  | .ok s => s.enter i (.save n) (k.text off)

def execSpchk (n : Fin 16) (s : State) : Out :=
  scalar s .gangs [] fun i c =>
    let pending := c.mode.isNone && (s.issuerCrew i).any fun y => y.2.preempt.isSome
    match s.kernel i with
    | none => .ok s
    | some k => match k.safeAt n.val with
      | none => .ok (s.next i c.pc 4)
      | some (save, _) =>
        if pending then do
          let t ← s.settle i
          .ok (t.takeSave i c n.val k save)
        else .ok (s.next i c.pc 4)

end Sys2Proof.Machine
end

