-- ==== Sys2Proof/Machine/Dispatch.lean ====
section
/-! DEFINITION. One arm per instruction and event: each calls its meaning. -/

namespace Sys2Proof.Machine

/-- The meaning of an instruction or event in a state. -/
def exec (i : Instr) (s : State) : Host.Outcome State Fault Refusal :=
  match i with
  | .sadd d a b => Sys2Proof.Machine.execSadd d a b s
  | .ssub d a b => Sys2Proof.Machine.execSsub d a b s
  | .smul d a b => Sys2Proof.Machine.execSmul d a b s
  | .smulh n d a b => Sys2Proof.Machine.execSmulh n d a b s
  | .sdiv n d a b => Sys2Proof.Machine.execSdiv n d a b s
  | .smin n d a b => Sys2Proof.Machine.execSmin n d a b s
  | .smax n d a b => Sys2Proof.Machine.execSmax n d a b s
  | .sand d a b => Sys2Proof.Machine.execSand d a b s
  | .sor d a b => Sys2Proof.Machine.execSor d a b s
  | .sxor d a b => Sys2Proof.Machine.execSxor d a b s
  | .sshl d a b => Sys2Proof.Machine.execSshl d a b s
  | .sshr d a b => Sys2Proof.Machine.execSshr d a b s
  | .ssra d a b => Sys2Proof.Machine.execSsra d a b s
  | .sclz d a => Sys2Proof.Machine.execSclz d a s
  | .spopc d a => Sys2Proof.Machine.execSpopc d a s
  | .smov d a => Sys2Proof.Machine.execSmov d a s
  | .scmp c n k a b => Sys2Proof.Machine.execScmp c n k a b s
  | .ssel d a b => Sys2Proof.Machine.execSsel d a b s
  | .slea d a b => Sys2Proof.Machine.execSlea d a b s
  | .saddImm d a k => Sys2Proof.Machine.execSaddImm d a k s
  | .smulImm d a k => Sys2Proof.Machine.execSmulImm d a k s
  | .sandImm d a k => Sys2Proof.Machine.execSandImm d a k s
  | .sorImm d a k => Sys2Proof.Machine.execSorImm d a k s
  | .sxorImm d a k => Sys2Proof.Machine.execSxorImm d a k s
  | .sshlImm d a k => Sys2Proof.Machine.execSshlImm d a k s
  | .sshrImm d a k => Sys2Proof.Machine.execSshrImm d a k s
  | .ssraImm d a k => Sys2Proof.Machine.execSsraImm d a k s
  | .sminImm d a k => Sys2Proof.Machine.execSminImm d a k s
  | .smaxImm d a k => Sys2Proof.Machine.execSmaxImm d a k s
  | .scmpImm c k a m => Sys2Proof.Machine.execScmpImm c k a m s
  | .sleaImm d n => Sys2Proof.Machine.execSleaImm d n s
  | .smovi d n => Sys2Proof.Machine.execSmovi d n s
  | .smovh d n => Sys2Proof.Machine.execSmovh d n s
  | .smoviLong d n => Sys2Proof.Machine.execSmoviLong d n s
  | .smovhLong d n => Sys2Proof.Machine.execSmovhLong d n s
  | .saddLong d a n => Sys2Proof.Machine.execSaddLong d a n s
  | .sandLong d a n => Sys2Proof.Machine.execSandLong d a n s
  | .sorLong d a n => Sys2Proof.Machine.execSorLong d a n s
  | .sxorLong d a n => Sys2Proof.Machine.execSxorLong d a n s
  | .sb off => Sys2Proof.Machine.execSb off s
  | .sbk k sense off => Sys2Proof.Machine.execSbk k sense off s
  | .scall off => Sys2Proof.Machine.execScall off s
  | .sret a => Sys2Proof.Machine.execSret a s
  | .sjmpr a => Sys2Proof.Machine.execSjmpr a s
  | .sjmprL d a => Sys2Proof.Machine.execSjmprL d a s
  | .sloop a n => Sys2Proof.Machine.execSloop a n s
  | .sexit => Sys2Proof.Machine.execSexit s
  | .snop => Sys2Proof.Machine.execSnop s
  | .sld d a n => Sys2Proof.Machine.execSld d a n s
  | .sst d a n => Sys2Proof.Machine.execSst d a n s
  | .sldLong sz sgn d a n => Sys2Proof.Machine.execSldLong sz sgn d a n s
  | .sstLong sz d a n => Sys2Proof.Machine.execSstLong sz d a n s
  | .sldv sc d a b n => Sys2Proof.Machine.execSldv sc d a b n s
  | .satom op o sc d a b n => Sys2Proof.Machine.execSatom op o sc d a b n s
  | .sfence o sc => Sys2Proof.Machine.execSfence o sc s
  | .swait c acq d a b => Sys2Proof.Machine.execSwait c acq d a b s
  | .ldisp n => Sys2Proof.Machine.execLdisp n s
  | .ldispReg a n => Sys2Proof.Machine.execLdispReg a n s
  | .lsync => Sys2Proof.Machine.execLsync s
  | .slrd d n l => Sys2Proof.Machine.execSlrd d n l s
  | .barInit b a => Sys2Proof.Machine.execBarInit b a s
  | .barArr d b => Sys2Proof.Machine.execBarArr d b s
  | .barWt b a => Sys2Proof.Machine.execBarWt b a s
  | .barSync b => Sys2Proof.Machine.execBarSync b s
  | .barExp b a => Sys2Proof.Machine.execBarExp b a s
  | .fbar d a => Sys2Proof.Machine.execFbar d a s
  | .bthTake d a b => Sys2Proof.Machine.execBthTake d a b s
  | .bthPass a b => Sys2Proof.Machine.execBthPass a b s
  | .bthWait a t => Sys2Proof.Machine.execBthWait a t s
  | .bthSet a b t => Sys2Proof.Machine.execBthSet a b t s
  | .bthFree a => Sys2Proof.Machine.execBthFree a s
  | .bthQuery hi d a => Sys2Proof.Machine.execBthQuery hi d a s
  | .xregAcq => Sys2Proof.Machine.execXregAcq s
  | .xregRel => Sys2Proof.Machine.execXregRel s
  | .xcpy a b => Sys2Proof.Machine.execXcpy a b s
  | .xdrain p => Sys2Proof.Machine.execXdrain p s
  | .srt a => Sys2Proof.Machine.execSrt a s
  | .xcol a => Sys2Proof.Machine.execXcol a s
  | .tqTake d a => Sys2Proof.Machine.execTqTake d a s
  | .tqSteal d a => Sys2Proof.Machine.execTqSteal d a s
  | .tqGive a b => Sys2Proof.Machine.execTqGive a b s
  | .glaunch q d a b => Sys2Proof.Machine.execGlaunch q d a b s
  | .wsplit d a => Sys2Proof.Machine.execWsplit d a s
  | .wret a => Sys2Proof.Machine.execWret a s
  | .csrr n d => Sys2Proof.Machine.execCsrr n d s
  | .csrw n a => Sys2Proof.Machine.execCsrw n a s
  | .trap n => Sys2Proof.Machine.execTrap n s
  | .eret => Sys2Proof.Machine.execEret s
  | .spchk n => Sys2Proof.Machine.execSpchk n s
  | .mmaBf16 m d a b t => Sys2Proof.Machine.execMmaBf16 m d a b t s
  | .mmaF16 m d a b t => Sys2Proof.Machine.execMmaF16 m d a b t s
  | .mmaE4m3 m d a b t => Sys2Proof.Machine.execMmaE4m3 m d a b t s
  | .mmaE5m2 m d a b t => Sys2Proof.Machine.execMmaE5m2 m d a b t s
  | .mmaBx8 m d a b t => Sys2Proof.Machine.execMmaBx8 m d a b t s
  | .mmaBx6 m d a b t => Sys2Proof.Machine.execMmaBx6 m d a b t s
  | .mmaBx4 m d a b t => Sys2Proof.Machine.execMmaBx4 m d a b t s
  | .mmaLut4 m d a b t => Sys2Proof.Machine.execMmaLut4 m d a b t s
  | .mmaI8 m d a b t => Sys2Proof.Machine.execMmaI8 m d a b t s
  | .accClr t row n => Sys2Proof.Machine.execAccClr t row n s
  | .accLd t row n a => Sys2Proof.Machine.execAccLd t row n a s
  | .accSt f rm sat t row n a b => Sys2Proof.Machine.execAccSt f rm sat t row n a b s
  | .accAdd t row n a => Sys2Proof.Machine.execAccAdd t row n a s
  | .accRenorm t row n a => Sys2Proof.Machine.execAccRenorm t row n a s
  | .accHdr w d t row => Sys2Proof.Machine.execAccHdr w d t row s
  | .accScale t row n a => Sys2Proof.Machine.execAccScale t row n a s
  | .ctabW core q a => Sys2Proof.Machine.execCtabW core q a s
  | .mwt n => Sys2Proof.Machine.execMwt n s
  | .mfence sc => Sys2Proof.Machine.execMfence sc s
  | .mbxTake d a => Sys2Proof.Machine.execMbxTake d a s
  | .rqSend q a => Sys2Proof.Machine.execRqSend q a s
  | .iadd h ty sat d a b => Sys2Proof.Machine.execIadd h ty sat d a b s
  | .isub h ty sat d a b => Sys2Proof.Machine.execIsub h ty sat d a b s
  | .imul h ty sat d a b => Sys2Proof.Machine.execImul h ty sat d a b s
  | .imad h ty sat d a b c => Sys2Proof.Machine.execImad h ty sat d a b c s
  | .imulh h n d a b => Sys2Proof.Machine.execImulh h n d a b s
  | .idp4 h as bs sat d a b c => Sys2Proof.Machine.execIdp4 h as bs sat d a b c s
  | .iabs h wide sat d a => Sys2Proof.Machine.execIabs h wide sat d a s
  | .imin h ty d a b => Sys2Proof.Machine.execImin h ty d a b s
  | .imax h ty d a b => Sys2Proof.Machine.execImax h ty d a b s
  | .icmp h ty cc d a b => Sys2Proof.Machine.execIcmp h ty cc d a b s
  | .isel h ty d a b c => Sys2Proof.Machine.execIsel h ty d a b c s
  | .bool3 h t d a b c => Sys2Proof.Machine.execBool3 h t d a b c s
  | .popc h d a => Sys2Proof.Machine.execPopc h d a s
  | .clz h d a => Sys2Proof.Machine.execClz h d a s
  | .brev h d a => Sys2Proof.Machine.execBrev h d a s
  | .ishl h ty d a b => Sys2Proof.Machine.execIshl h ty d a b s
  | .ishr h ty d a b => Sys2Proof.Machine.execIshr h ty d a b s
  | .isra h ty d a b => Sys2Proof.Machine.execIsra h ty d a b s
  | .ishf h left d a b c => Sys2Proof.Machine.execIshf h left d a b c s
  | .bfe h n d a b => Sys2Proof.Machine.execBfe h n d a b s
  | .bfi h d a b c => Sys2Proof.Machine.execBfi h d a b c s
  | .fadd h pg m d a b => Sys2Proof.Machine.execFadd h pg m d a b s
  | .fmul h pg m d a b => Sys2Proof.Machine.execFmul h pg m d a b s
  | .ffma h pg m d a b c => Sys2Proof.Machine.execFfma h pg m d a b c s
  | .fmin h pg d a b => Sys2Proof.Machine.execFmin h pg d a b s
  | .fmax h pg d a b => Sys2Proof.Machine.execFmax h pg d a b s
  | .fcmp h pg cc hi d a b => Sys2Proof.Machine.execFcmp h pg cc hi d a b s
  | .fclass h pg d a => Sys2Proof.Machine.execFclass h pg d a s
  | .fscale h rm sat d a b => Sys2Proof.Machine.execFscale h rm sat d a b s
  | .fdot2 h bf m d a b c => Sys2Proof.Machine.execFdot2 h bf m d a b c s
  | .frcp h d a => Sys2Proof.Machine.execFrcp h d a s
  | .frsq h d a => Sys2Proof.Machine.execFrsq h d a s
  | .fsqrt h d a => Sys2Proof.Machine.execFsqrt h d a s
  | .fex2 h d a => Sys2Proof.Machine.execFex2 h d a s
  | .flg2 h d a => Sys2Proof.Machine.execFlg2 h d a s
  | .fsin h d a => Sys2Proof.Machine.execFsin h d a s
  | .fcos h d a => Sys2Proof.Machine.execFcos h d a s
  | .cvt h m d a => Sys2Proof.Machine.execCvt h m d a s
  | .cvtSr h m d a b => Sys2Proof.Machine.execCvtSr h m d a b s
  | .hdm16 h d a => Sys2Proof.Machine.execHdm16 h d a s
  | .hdm32 h d a => Sys2Proof.Machine.execHdm32 h d a s
  | .qpackBx8 h m d a c => Sys2Proof.Machine.execQpackBx8 h m d a c s
  | .qpackBx6 h m d a c => Sys2Proof.Machine.execQpackBx6 h m d a c s
  | .qpackBx4 h m d a c => Sys2Proof.Machine.execQpackBx4 h m d a c s
  | .qunpackBx8 h k bsel d a c => Sys2Proof.Machine.execQunpackBx8 h k bsel d a c s
  | .qunpackBx6 h k bsel d a c => Sys2Proof.Machine.execQunpackBx6 h k bsel d a c s
  | .qunpackBx4 h k bsel d a c => Sys2Proof.Machine.execQunpackBx4 h k bsel d a c s
  | .bxdotBx8 h rm bsa bsb d a b c => Sys2Proof.Machine.execBxdotBx8 h rm bsa bsb d a b c s
  | .bxdotBx6 h rm bsa bsb d a b c => Sys2Proof.Machine.execBxdotBx6 h rm bsa bsb d a b c s
  | .bxdotBx4 h rm bsa bsb d a b c => Sys2Proof.Machine.execBxdotBx4 h rm bsa bsb d a b c s
  | .mov h w64 d a => Sys2Proof.Machine.execMov h w64 d a s
  | .movi h d x => Sys2Proof.Machine.execMovi h d x s
  | .xlane h mode vp w64 d a b => Sys2Proof.Machine.execXlane h mode vp w64 d a b s
  | .vote h mode d a => Sys2Proof.Machine.execVote h mode d a s
  | .rdlane h vp d a b => Sys2Proof.Machine.execRdlane h vp d a b s
  | .lscan h op excl d a => Sys2Proof.Machine.execLscan h op excl d a s
  | .cmp24 h ty d a => Sys2Proof.Machine.execCmp24 h ty d a s
  | .pset h t d a b c => Sys2Proof.Machine.execPset h t d a b c s
  | .pmov h mask d a => Sys2Proof.Machine.execPmov h mask d a s
  | .ld h off sz sgn d a b => Sys2Proof.Machine.execLd h off sz sgn d a b s
  | .st h off sz a b c => Sys2Proof.Machine.execSt h off sz a b c s
  | .ldR h off sc acq w64 d a b => Sys2Proof.Machine.execLdR h off sc acq w64 d a b s
  | .stR h off sc rel w64 a b c => Sys2Proof.Machine.execStR h off sc rel w64 a b c s
  | .ldv h off sc d a b c => Sys2Proof.Machine.execLdv h off sc d a b c s
  | .lds h off sz sgn d a b => Sys2Proof.Machine.execLds h off sz sgn d a b s
  | .sts h off sz a b c => Sys2Proof.Machine.execSts h off sz a b c s
  | .atom h off op o sc w64 d a b c => Sys2Proof.Machine.execAtom h off op o sc w64 d a b c s
  | .atomX h off xf p rel sc d a c => Sys2Proof.Machine.execAtomX h off xf p rel sc d a c s
  | .red h off op rel sc w64 a c => Sys2Proof.Machine.execRed h off op rel sc w64 a c s
  | .mwait h off w64 a b c => Sys2Proof.Machine.execMwait h off w64 a b c s
  | .fence h o sc => Sys2Proof.Machine.execFence h o sc s
  | .bra h target join => Sys2Proof.Machine.execBra h target join s
  | .braLoop h latch exitJoin => Sys2Proof.Machine.execBraLoop h latch exitJoin s
  | .brk h => Sys2Proof.Machine.execBrk h s
  | .cont h => Sys2Proof.Machine.execCont h s
  | .join h => Sys2Proof.Machine.execJoin h s
  | .joinLatch h => Sys2Proof.Machine.execJoinLatch h s
  | .call h target => Sys2Proof.Machine.execCall h target s
  | .ret h => Sys2Proof.Machine.execRet h s
  | .exit h => Sys2Proof.Machine.execExit h s
  | .exitKill h => Sys2Proof.Machine.execExitKill h s
  | .nap h n => Sys2Proof.Machine.execNap h n s
  | .rgn h => Sys2Proof.Machine.execRgn h s
  | .gproj h d a b => Sys2Proof.Machine.execGproj h d a b s
  | .pproj h d a b => Sys2Proof.Machine.execPproj h d a b s
  | .geval h d a b => Sys2Proof.Machine.execGeval h d a b s
  | .gblend h vp d a b => Sys2Proof.Machine.execGblend h vp d a b s
  | .gback h vp d a b c => Sys2Proof.Machine.execGback h vp d a b c s
  | .gscat h tmask fx p a c => Sys2Proof.Machine.execGscat h tmask fx p a c s
  | .rgen h a b c => Sys2Proof.Machine.execRgen h a b c s
  | .trace h pb d a b c => Sys2Proof.Machine.execTrace h pb d a b c s
  | .rayld h word w64 d a b => Sys2Proof.Machine.execRayld h word w64 d a b s
  | .rayst h word w64 a b c => Sys2Proof.Machine.execRayst h word w64 a b c s
  | .hitq h d a b => Sys2Proof.Machine.execHitq h d a b s
  | .rpush h d a => Sys2Proof.Machine.execRpush h d a s
  | .rpop h a b => Sys2Proof.Machine.execRpop h a b s
  | .fbw h off f a b c => Sys2Proof.Machine.execFbw h off f a b c s
  | .laneDispatch g => Sys2Proof.Machine.execLaneDispatch g s
  | .issueSlotArbitration core slot => Sys2Proof.Machine.execIssueSlotArbitration core slot s
  | .resultLanding g => Sys2Proof.Machine.execResultLanding g s
  | .varCompletion g n => Sys2Proof.Machine.execVarCompletion g n s
  | .napExpiry g slot => Sys2Proof.Machine.execNapExpiry g slot s
  | .monitorFire w => Sys2Proof.Machine.execMonitorFire w s
  | .monitorPollTimer w => Sys2Proof.Machine.execMonitorPollTimer w s
  | .trapDelivery g slot => Sys2Proof.Machine.execTrapDelivery g slot s
  | .crewRetire c => Sys2Proof.Machine.execCrewRetire c s
  | .gridRetire g => Sys2Proof.Machine.execGridRetire g s
  | .weightGrant c => Sys2Proof.Machine.execWeightGrant c s
  | .packetAdmission q => Sys2Proof.Machine.execPacketAdmission q s
  | .crewPlacement g => Sys2Proof.Machine.execCrewPlacement g s
  | .placementBackoffExpiry d => Sys2Proof.Machine.execPlacementBackoffExpiry d s
  | .preemptRequest g => Sys2Proof.Machine.execPreemptRequest g s
  | .preemptWithdrawTimeout c => Sys2Proof.Machine.execPreemptWithdrawTimeout c s
  | .crewRestore c => Sys2Proof.Machine.execCrewRestore c s
  | .crewKill c => Sys2Proof.Machine.execCrewKill c s
  | .killedCrewRestore c => Sys2Proof.Machine.execKilledCrewRestore c s
  | .mmaExecute core => Sys2Proof.Machine.execMmaExecute core s
  | .accBatchApply core => Sys2Proof.Machine.execAccBatchApply core s
  | .ctabApply core => Sys2Proof.Machine.execCtabApply core s
  | .copyPartComplete cl n => Sys2Proof.Machine.execCopyPartComplete cl n s
  | .copyComplete cl n => Sys2Proof.Machine.execCopyComplete cl n s
  | .copyErrorComplete cl n => Sys2Proof.Machine.execCopyErrorComplete cl n s
  | .faultQueuePost n => Sys2Proof.Machine.execFaultQueuePost n s
  | .engineResumeOnAck n => Sys2Proof.Machine.execEngineResumeOnAck n s
  | .sortStart d => Sys2Proof.Machine.execSortStart d s
  | .sortComplete d => Sys2Proof.Machine.execSortComplete d s
  | .projectionEntryStart cl => Sys2Proof.Machine.execProjectionEntryStart cl s
  | .projectionItemDone cl => Sys2Proof.Machine.execProjectionItemDone cl s
  | .traversalStart cl => Sys2Proof.Machine.execTraversalStart cl s
  | .traversalEnd cl n => Sys2Proof.Machine.execTraversalEnd cl n s
  | .genJobConsume d => Sys2Proof.Machine.execGenJobConsume d s
  | .genRayEmit d n => Sys2Proof.Machine.execGenRayEmit d n s
  | .tunMerge n => Sys2Proof.Machine.execTunMerge n s
  | .tunEviction line => Sys2Proof.Machine.execTunEviction line s
  | .lineEviction line => Sys2Proof.Machine.execLineEviction line s
  | .pageWalk die asid va => Sys2Proof.Machine.execPageWalk die asid va s
  | .eccError granule hard => Sys2Proof.Machine.execEccError granule hard s
  | .xcmdInvalidatePage asid => Sys2Proof.Machine.execXcmdInvalidatePage asid s
  | .xcmdInvalidateRange asid n => Sys2Proof.Machine.execXcmdInvalidateRange asid n s
  | .xcmdInvalidateAsid asid => Sys2Proof.Machine.execXcmdInvalidateAsid asid s
  | .xcmdInvalidateAll => Sys2Proof.Machine.execXcmdInvalidateAll s
  | .invalidationComplete => Sys2Proof.Machine.execInvalidationComplete s
  | .hostMemoryAccess r => Sys2Proof.Machine.execHostMemoryAccess r s
  | .registerWrite off v => Sys2Proof.Machine.execRegisterWrite off v s
  | .featureLock => Sys2Proof.Machine.execFeatureLock s
  | .partitionFeatureMaskWrite n v => Sys2Proof.Machine.execPartitionFeatureMaskWrite n v s
  | .generatorEnable d on => Sys2Proof.Machine.execGeneratorEnable d on s
  | .keyLoad id => Sys2Proof.Machine.execKeyLoad id s
  | .keyRemove id => Sys2Proof.Machine.execKeyRemove id s
  | .linkKeyLoad p v => Sys2Proof.Machine.execLinkKeyLoad p v s
  | .linkBringup p => Sys2Proof.Machine.execLinkBringup p s
  | .attestRequest v => Sys2Proof.Machine.execAttestRequest v s
  | .attestReportDone => Sys2Proof.Machine.execAttestReportDone s
  | .mkill grid => Sys2Proof.Machine.execMkill grid s
  | .mailboxPost => Sys2Proof.Machine.execMailboxPost s
  | .powerOnReset => Sys2Proof.Machine.execPowerOnReset s
  | .watchdogReset => Sys2Proof.Machine.execWatchdogReset s
  | .i3cReset => Sys2Proof.Machine.execI3cReset s
  | .marginReplan => Sys2Proof.Machine.execMarginReplan s
  | .powerWindowTimer watts => Sys2Proof.Machine.execPowerWindowTimer watts s
  | .pcapWrite v => Sys2Proof.Machine.execPcapWrite v s
  | .coolantExcursion => Sys2Proof.Machine.execCoolantExcursion s
  | .coolantRestored => Sys2Proof.Machine.execCoolantRestored s
  | .frameReceive p f => Sys2Proof.Machine.execFrameReceive p f s
  | .retryRequestReceive p n => Sys2Proof.Machine.execRetryRequestReceive p n s
  | .totalsFrameTimer p => Sys2Proof.Machine.execTotalsFrameTimer p s
  | .totalsFrameReceive p rcvd freed => Sys2Proof.Machine.execTotalsFrameReceive p rcvd freed s
  | .fabRd k => Sys2Proof.Machine.execFabRd k s
  | .fabRdr k => Sys2Proof.Machine.execFabRdr k s
  | .fabWr k => Sys2Proof.Machine.execFabWr k s
  | .fabWra k => Sys2Proof.Machine.execFabWra k s
  | .fabAtm k => Sys2Proof.Machine.execFabAtm k s
  | .fabAtr k => Sys2Proof.Machine.execFabAtr k s
  | .fabRed k => Sys2Proof.Machine.execFabRed k s
  | .fabBlk k => Sys2Proof.Machine.execFabBlk k s
  | .fabBlka k => Sys2Proof.Machine.execFabBlka k s
  | .fabDrop k => Sys2Proof.Machine.execFabDrop k s
  | .fabResv k => Sys2Proof.Machine.execFabResv k s
  | .fabRgnt k => Sys2Proof.Machine.execFabRgnt k s
  | .reservationWindowExpiry p => Sys2Proof.Machine.execReservationWindowExpiry p s
  | .fabMon k => Sys2Proof.Machine.execFabMon k s
  | .fabCtb k => Sys2Proof.Machine.execFabCtb k s
  | .fabCrs k => Sys2Proof.Machine.execFabCrs k s
  | .fabClosed k => Sys2Proof.Machine.execFabClosed k s
  | .collectiveSlotTimeout slot => Sys2Proof.Machine.execCollectiveSlotTimeout slot s
  | .collectiveSlotFree slot => Sys2Proof.Machine.execCollectiveSlotFree slot s
  | .fabWgt k => Sys2Proof.Machine.execFabWgt k s
  | .fabErr k => Sys2Proof.Machine.execFabErr k s
  | .fbarArrival n => Sys2Proof.Machine.execFbarArrival n s
  | .fbarTimeout n => Sys2Proof.Machine.execFbarTimeout n s
  | .keyCommandComplete => Sys2Proof.Machine.execKeyCommandComplete s

end Sys2Proof.Machine
end

