-- ==== Sys2Proof/Laws/Encoding.lean ====
section
/-!
SUPPORT. The fields of the words that the encoder builds, and the bytes of a word: what the per-instruction round trip
of Laws/PerInstr.lean rests on.
-/

namespace Sys2Proof

/-! ## Bytes -/

theorem leNat_leBytes (n w : Nat) : leNat (leBytes n w) = w % 2 ^ (8 * n) := by
  induction n generalizing w with
  | zero => simp [leBytes, leNat, Nat.mod_one]
  | succ n ih =>
    simp only [leBytes, leNat, ih, BitVec.toNat_ofNat]
    rw [show 8 * (n + 1) = 8 + 8 * n by omega, Nat.pow_add, Nat.mod_mul]

@[simp] theorem length_leBytes (n w : Nat) : (leBytes n w).length = n := by
  induction n generalizing w with
  | zero => rfl
  | succ n ih => simp [leBytes, ih]

theorem take_leBytes (m n w : Nat) : (leBytes (m + n) w).take m = leBytes m w := by
  induction m generalizing w with
  | zero => simp [leBytes]
  | succ m ih => rw [show m + 1 + n = (m + n) + 1 by omega]; simp [leBytes, ih]

theorem drop_leBytes (m n w : Nat) : (leBytes (m + n) w).drop m = leBytes n (w / 2 ^ (8 * m)) := by
  induction m generalizing w with
  | zero => simp
  | succ m ih =>
    rw [show m + 1 + n = (m + n) + 1 by omega]
    simp only [leBytes, List.drop_succ_cons, ih, Nat.div_div_eq_div_mul]
    rw [show 8 * (m + 1) = 8 + 8 * m by omega, Nat.pow_add]

/-- The two words of the eight bytes of a scalar text. -/
theorem decodeText_leBytes (w : Nat) :
    decodeText (leBytes 8 w) = decodeScalar (w % 2 ^ 32) (w / 2 ^ 32 % 2 ^ 32) := by
  have h1 : (leBytes 8 w).take 4 = leBytes 4 w := take_leBytes 4 4 w
  have h2 : ((leBytes 8 w).drop 4).take 4 = leBytes 4 (w / 2 ^ 32) := by
    rw [drop_leBytes 4 4 w, List.take_of_length_le (by simp)]
  rw [decodeText, h1, h2, leNat_leBytes, leNat_leBytes]

theorem decodeTableWord_short {w n : Nat} {i : Instr} (hn : n = 32 ∨ n = 64) (hw : w < 2 ^ n)
    (h : decodeScalar (w % 2 ^ 32) (w / 2 ^ 32) = .ok i) : decodeTableWord n w = some i := by
  have hle : ¬n > 64 := by omega
  have h64 : w / 2 ^ 32 < 2 ^ 32 := by rcases hn with rfl | rfl <;> omega
  rw [decodeTableWord, if_neg hle, Nat.mod_eq_of_lt hw, decodeText_leBytes, Nat.mod_eq_of_lt h64, h]
  rfl

theorem decodeTableWord_lane {w : Nat} {i : Instr} (hw : w < 2 ^ 96) (h : decodeLane w = .ok i) :
    decodeTableWord 96 w = some i := by
  rw [decodeTableWord, if_pos (by decide), decodeLaneText, List.take_of_length_le (by simp), leNat_leBytes,
    Nat.mod_eq_of_lt hw, h]
  rfl

/-! ## The fields of scalar words -/

theorem formA_lt {op d a b f : Nat} (ho : op < 128) (hd : d < 64) (ha : a < 64) (hb : b < 64) (hf : f < 128) :
    formA op d a b f < 2 ^ 32 := by
  simp only [formA]; omega

theorem formB_lt {op d a : Nat} {i : BitVec 13} (ho : op < 128) (hd : d < 64) (ha : a < 64) :
    formB op d a i < 2 ^ 32 := by
  have := i.isLt
  simp only [formB]; omega

theorem formC_lt {op k s : Nat} {i : BitVec 22} (ho : op < 128) (hk : k < 4) (hs : s < 2) :
    formC op k s i < 2 ^ 32 := by
  have := i.isLt
  simp only [formC]; omega

/-- What form A words hold in each field. -/
theorem formA_fields {op d a b f : Nat} (ho : op < 128) (hd : d < 64) (ha : a < 64) (hb : b < 64) (hf : f < 128) :
    fld (formA op d a b f) 25 7 = op ∧ fld (formA op d a b f) 19 6 = d ∧ fld (formA op d a b f) 13 6 = a ∧
    fld (formA op d a b f) 7 6 = b ∧ fld (formA op d a b f) 0 7 = f ∧
    fld (formA op d a b f) 7 12 = a * 64 + b ∧ fld (formA op d a b f) 7 18 = d * 4096 + a * 64 + b ∧
    fld (formA op d a b f) 22 3 = d / 8 ∧ fld (formA op d a b f) 21 1 = d / 4 % 2 ∧
    fld (formA op d a b f) 19 2 = d % 4 := by
  simp only [fld, formA]
  refine ⟨?_, ?_, ?_, ?_, ?_, ?_, ?_, ?_, ?_, ?_⟩ <;> omega

theorem formA_low {op d a b f lo n : Nat} (h : lo + n ≤ 7) : fld (formA op d a b f) lo n = fld f lo n := by
  have hlo : 2 ^ 7 = 2 ^ (lo + n) * 2 ^ (7 - (lo + n)) := by rw [← Nat.pow_add]; congr 1; omega
  have e : formA op d a b f = f + 2 ^ (lo + n) * (2 ^ (7 - (lo + n)) * (op * 2 ^ 18 + d * 2 ^ 12 + a * 2 ^ 6 + b)) := by
    rw [← Nat.mul_assoc, ← hlo, formA]; omega
  rw [e, fld, fld, Nat.pow_add, Nat.mul_assoc, Nat.add_mul_div_left _ _ (Nat.two_pow_pos lo), Nat.add_mul_mod_self_left]

theorem formA_flag {op d a b f lo : Nat} (h : lo < 7) : flag (formA op d a b f) lo = flag f lo := by
  rw [flag, flag, formA_low (by omega)]

theorem formA_bar (op d a b : Nat) (x : BitVec 7) : BitVec.ofNat 7 (formA op d a b x.toNat) = x := by
  have := x.isLt
  apply BitVec.eq_of_toNat_eq
  simp only [formA, BitVec.toNat_ofNat]; omega

/-- A control-register word is a form B word (R49). -/
theorem formA_csr (op d a : Nat) (n : BitVec 12) : formA op d a 0 0 + n.toNat = formB op d a (n.setWidth 13) := by
  have := n.isLt
  simp only [formA, formB, BitVec.toNat_setWidth]; omega

theorem formB_csr (op d a : Nat) (n : BitVec 12) :
    BitVec.ofNat 12 (formB op d a (n.setWidth 13)) = n ∧ fld (formB op d a (n.setWidth 13)) 12 1 = 0 := by
  have := n.isLt
  refine ⟨BitVec.eq_of_toNat_eq ?_, ?_⟩ <;> simp only [fld, formB, BitVec.toNat_setWidth, BitVec.toNat_ofNat] <;> omega

theorem AccSel.code_lt (t : AccSel) : t.code < 4096 := by
  obtain ⟨c, s, i⟩ := t
  have := c.isLt; have := s.isLt; have := i.isLt
  simp only [AccSel.code]; omega

theorem accSel_of {w : Nat} {t : AccSel} (h : w % 4096 = t.code) : accSel w = t := by
  obtain ⟨c, s, i⟩ := t
  have hc := c.isLt; have hs := s.isLt; have hi := i.isLt
  simp only [AccSel.code] at h
  simp only [accSel, AccSel.mk.injEq]
  refine ⟨Fin.ext ?_, Fin.ext ?_, Fin.ext ?_⟩ <;> simp only [fld, Fin.val_ofNat] <;> omega

theorem accSel_code (t : AccSel) : accSel t.code = t := accSel_of (by have := t.code_lt; omega)

/-- What word 1 of an `acc.*` that names rows holds, below what `acc.st` puts above it. -/
theorem accRows_fields (t : AccSel) (row n : Fin 64) {x : Nat} (hx : x < 256) :
    accSel (x * 2 ^ 24 + accRows t row n) = t ∧ fld (x * 2 ^ 24 + accRows t row n) 12 6 = row.val ∧
    fld (x * 2 ^ 24 + accRows t row n) 18 6 = n.val ∧ fld (x * 2 ^ 24 + accRows t row n) 24 8 = x ∧
    fld (x * 2 ^ 24 + accRows t row n) 24 4 = x % 16 ∧ fld (x * 2 ^ 24 + accRows t row n) 28 3 = x / 16 % 8 ∧
    fld (x * 2 ^ 24 + accRows t row n) 31 1 = x / 128 ∧ x * 2 ^ 24 + accRows t row n < 2 ^ 32 := by
  have := t.code_lt; have := row.isLt; have := n.isLt
  refine ⟨accSel_of ?_, ?_, ?_, ?_, ?_, ?_, ?_, ?_⟩ <;> simp only [fld, accRows] <;> omega

theorem formB_fields {op d a : Nat} {i : BitVec 13} (ho : op < 128) (hd : d < 64) (ha : a < 64) :
    fld (formB op d a i) 25 7 = op ∧ fld (formB op d a i) 19 6 = d ∧ fld (formB op d a i) 13 6 = a ∧
    BitVec.ofNat 13 (formB op d a i) = i ∧ fld (formB op d a i) 22 3 = d / 8 ∧ fld (formB op d a i) 21 1 = d / 4 % 2 ∧
    fld (formB op d a i) 19 2 = d % 4 := by
  have := i.isLt
  refine ⟨?_, ?_, ?_, BitVec.eq_of_toNat_eq ?_, ?_, ?_, ?_⟩ <;> simp only [fld, formB, BitVec.toNat_ofNat] <;> omega

theorem formC_fields {op k s : Nat} {i : BitVec 22} (ho : op < 128) (hk : k < 4) (hs : s < 2) :
    fld (formC op k s i) 25 7 = op ∧ fld (formC op k s i) 23 2 = k ∧ fld (formC op k s i) 22 1 = s ∧
    BitVec.ofNat 22 (formC op k s i) = i ∧ fld (formC op k s i) 22 3 = k * 2 + s := by
  have := i.isLt
  refine ⟨?_, ?_, ?_, BitVec.eq_of_toNat_eq ?_, ?_⟩ <;> simp only [fld, formC, BitVec.toNat_ofNat] <;> omega

theorem formL_words {w w1 : Nat} (h : w < 2 ^ 32) : formL w w1 % 2 ^ 32 = w ∧ formL w w1 / 2 ^ 32 = w1 := by
  simp only [formL]; omega

theorem formL_lt {w w1 : Nat} (h : w < 2 ^ 32) (h1 : w1 < 2 ^ 32) : formL w w1 < 2 ^ 64 := by
  simp only [formL]; omega

theorem bit_lt (b : Bool) : bit b < 2 := by cases b <;> decide

@[simp] theorem finOfNat_val {n : Nat} [NeZero n] (x : Fin n) : Fin.ofNat n x.val = x := by
  apply Fin.ext
  simp

/-! ## The fields of lane words -/

/-- Every field of a lane word is in its range. -/
structure RawLane.Fits (r : RawLane) : Prop where
  page : r.page < 4
  cell : r.cell < 256
  d : r.d < 256
  a : r.a < 256
  b : r.b < 256
  c : r.c < 256
  f : r.f < 8
  x : r.x < 2 ^ 32

theorem RawLane.toWord_lt {r : RawLane} (h : r.Fits) : r.toWord < 2 ^ 96 := by
  obtain ⟨h1, h2, h3, h4, h5, h6, h7, h8⟩ := h
  have hu := bit_lt r.hdr.u
  have he := bit_lt r.hdr.e
  have hg := bit_lt r.hdr.gn
  have hs := r.hdr.stall.isLt
  have hp := r.hdr.gp.isLt
  have ht := r.hdr.st.isLt
  have hw := r.hdr.wm.isLt
  simp only [RawLane.toWord]
  omega

theorem flag_of_fld {w lo : Nat} {b : Bool} (h : fld w lo 1 = bit b) : flag w lo = b := by
  rw [flag, h]; cases b <;> rfl

/-- A word of fields in their ranges holds those fields. -/
theorem RawLane.ofWord_toWord {r : RawLane} (h : r.Fits) : RawLane.ofWord r.toWord = r := by
  obtain ⟨h1, h2, h3, h4, h5, h6, h7, h8⟩ := h
  obtain ⟨page, cell, ⟨u, e, stall, gn, gp, st, wm⟩, d, a, b, c, f, x⟩ := r
  have hu := bit_lt u
  have he := bit_lt e
  have hg := bit_lt gn
  have hs := stall.isLt
  have hp := gp.isLt
  have ht := st.isLt
  have hw := wm.isLt
  simp only at h1 h2 h3 h4 h5 h6 h7 h8
  simp only [RawLane.ofWord, RawLane.mk.injEq, LaneHdr.mk.injEq]
  refine ⟨?_, ?_, ⟨flag_of_fld ?_, flag_of_fld ?_, Fin.ext ?_, flag_of_fld ?_, Fin.ext ?_, Fin.ext ?_,
    BitVec.eq_of_toNat_eq ?_⟩, ?_, ?_, ?_, ?_, ?_, ?_⟩ <;>
    simp only [fld, RawLane.toWord, BitVec.toNat_ofNat, Fin.val_ofNat] <;> omega

/-! ## Decoding in steps -/

theorem Dec.bind_ok {α β : Type} (x : α) (f : α → Dec β) : (Except.ok x >>= f : Dec β) = f x := rfl

theorem zeroed_zero : zeroed 0 = .ok () := rfl

theorem zeroed_eq {x : Nat} (h : x = 0) : zeroed x = .ok () := by rw [h]; rfl

theorem vregOf_val (d : VReg) : vregOf d.val = .ok d := by simp [vregOf, d.isLt]

theorem pregOf_val (d : PReg) : pregOf (208 + d.val) = .ok d := by
  have := d.isLt
  simp [pregOf]; omega

theorem qregOf_val (d : QReg) : qregOf (192 + d.val) = .ok d := by
  have := d.isLt
  simp [qregOf]; omega

theorem sregOf_val (d : Fin 32) : sregOf (224 + d.val) = .ok d := by
  have := d.isLt
  simp [sregOf]; omega

theorem checked_of_wf {i : Instr} (h : i.wf = true) : checked i = .ok i := by
  rw [Instr.wf, Option.isNone_iff_eq_none] at h
  rw [checked, h]

theorem decodeLane_of_raw {r : RawLane} {i : Instr} (hf : r.Fits) (hd : decodeLaneRaw r = .ok i) (hw : i.wf = true) :
    decodeLane r.toWord = .ok i := by
  rw [decodeLane, RawLane.ofWord_toWord hf, hd, Dec.bind_ok, checked_of_wf hw]

theorem decodeScalar_of_raw {w w1 : Nat} {i : Instr} (hd : decodeScalarRaw w w1 = .ok i) (hw : i.wf = true) :
    decodeScalar w w1 = .ok i := by
  rw [decodeScalar, hd, Dec.bind_ok, checked_of_wf hw]

theorem encode_of_raw {i : Instr} {r : RawLane} (he : encodeRaw i = some r) : encode i = some (96, r.toWord) := by
  rw [encode, he]

theorem encode_of_scalar {i : Instr} (he : encodeRaw i = none) : encode i = encodeScalar i := by
  rw [encode, he]

/-- A well-formed lane word holds at most one immediate (R56). -/
theorem imms_of_wf {i : Instr} {li : LaneInfo} (h : i.laneInfo = some li) (hw : i.wf = true) : li.imms ≤ 1 := by
  rw [Instr.wf, Option.isNone_iff_eq_none, Instr.illForm, h] at hw
  rcases Nat.lt_or_ge 1 li.imms with hn | hn
  · exfalso
    have : li.illForm ≠ none := by
      rw [LaneInfo.illForm, if_pos hn]
      split <;> (try split) <;> (try split) <;> simp
    cases hl : li.illForm with
    | none => exact this hl
    | some e => simp [hl] at hw
  · exact hn

/-! ## Words by shape -/

/-- The fields of a word without an immediate: the modifier word is X (R56). -/
def rawX (pg cl : Nat) (h : LaneHdr) (d a b c x : Nat) : RawLane :=
  { page := pg, cell := cl, hdr := h, d := d, a := a, b := b, c := c, f := 0, x := x }

/-- The fields of a word of two sources, the second of which may be immediate. -/
def rawBin (pg cl : Nat) (h : LaneHdr) (d a : Nat) (b : Src) (c m : Nat) : RawLane :=
  match b with
  | .reg o => rawX pg cl h d a o.code c m
  | .imm x => { page := pg, cell := cl, hdr := h, d := d, a := a, b := m, c := c, f := 2, x := x.toNat }

/-- The fields of a word of three sources, one of which is immediate or none. -/
def rawTri (pg cl : Nat) (h : LaneHdr) (d : Nat) (a b c : Src) (m : Nat) : RawLane :=
  match a, b, c with
  | .reg a, b, .reg c => rawBin pg cl h d a.code b c.code m
  | .reg a, .reg b, .imm x =>
    { page := pg, cell := cl, hdr := h, d := d, a := a.code, b := b.code, c := m, f := 3, x := x.toNat }
  | .imm x, .reg b, .reg c =>
    { page := pg, cell := cl, hdr := h, d := d, a := m, b := b.code, c := c.code, f := 1, x := x.toNat }
  | _, _, _ => rawX pg cl h d 0 0 0 m

theorem rawX_fits {pg cl d a b c x : Nat} {h : LaneHdr} (hp : pg < 4) (hc : cl < 256) (hd : d < 256) (ha : a < 256)
    (hb : b < 256) (hc' : c < 256) (hx : x < 2 ^ 32) : (rawX pg cl h d a b c x).Fits :=
  ⟨hp, hc, hd, ha, hb, hc', (by decide : 0 < 8), hx⟩

theorem fits_of {pg cl d a b c f x : Nat} {h : LaneHdr} (hp : pg < 4) (hc : cl < 256) (hd : d < 256) (ha : a < 256)
    (hb : b < 256) (hc' : c < 256) (hf : f < 8) (hx : x < 2 ^ 32) : RawLane.Fits ⟨pg, cl, h, d, a, b, c, f, x⟩ :=
  ⟨hp, hc, hd, ha, hb, hc', hf, hx⟩

theorem rawBin_fits {pg cl d a c m : Nat} {h : LaneHdr} {b : Src} (hp : pg < 4) (hc : cl < 256) (hd : d < 256)
    (ha : a < 256) (hc' : c < 256) (hm : m < 256) : (rawBin pg cl h d a b c m).Fits := by
  cases b with
  | reg o => exact rawX_fits hp hc hd ha o.code_lt hc' (by omega)
  | imm x => exact ⟨hp, hc, hd, ha, hm, hc', (by decide : 2 < 8), x.isLt⟩

theorem rawTri_fits {pg cl d m : Nat} {h : LaneHdr} {a b c : Src} (hp : pg < 4) (hc : cl < 256) (hd : d < 256)
    (hm : m < 256) : (rawTri pg cl h d a b c m).Fits := by
  unfold rawTri
  split
  · exact rawBin_fits hp hc hd (Opd.code_lt _) (Opd.code_lt _) hm
  · exact ⟨hp, hc, hd, Opd.code_lt _, Opd.code_lt _, hm, (by decide : 3 < 8), BitVec.isLt _⟩
  · exact ⟨hp, hc, hd, hm, Opd.code_lt _, Opd.code_lt _, (by decide : 1 < 8), BitVec.isLt _⟩
  · exact rawX_fits hp hc hd (by decide) (by decide) (by decide) (by omega)

theorem rawX_mod (pg cl : Nat) (h : LaneHdr) (d a b c x : Nat) : (rawX pg cl h d a b c x).mod = x := rfl

theorem rawBin_head (pg cl : Nat) (h : LaneHdr) (d a : Nat) (b : Src) (c m : Nat) :
    (rawBin pg cl h d a b c m).page = pg ∧ (rawBin pg cl h d a b c m).cell = cl ∧
    (rawBin pg cl h d a b c m).hdr = h ∧ (rawBin pg cl h d a b c m).d = d ∧ (rawBin pg cl h d a b c m).a = a ∧
    (rawBin pg cl h d a b c m).c = c ∧ (rawBin pg cl h d a b c m).mod = m ∧
    (rawBin pg cl h d a b c m).form [0, 2] = .ok () ∧
    (rawBin pg cl h d a b c m).src 2 (rawBin pg cl h d a b c m).b = .ok b := by
  cases b with
  | reg o =>
    refine ⟨rfl, rfl, rfl, rfl, rfl, rfl, rfl, rfl, ?_⟩
    show (Opd.ofCode o.code >>= fun o => Except.ok (Src.reg o)) = _
    rw [Opd.ofCode_code, Dec.bind_ok]
  | imm x =>
    refine ⟨rfl, rfl, rfl, rfl, rfl, rfl, rfl, rfl, ?_⟩
    show (Except.ok (Src.imm (BitVec.ofNat 32 x.toNat)) : Dec Src) = _
    rw [BitVec.ofNat_toNat, BitVec.setWidth_eq]

theorem rawBin_bin (pg cl : Nat) (h : LaneHdr) (d a : Opd) (b : Src) (m : Nat) (k : Opd → Opd → Src → Dec Instr) :
    (rawBin pg cl h d.code a.code b 0 m).bin k = k d a b := by
  obtain ⟨-, -, -, h1, h2, h3, -, h4, h5⟩ := rawBin_head pg cl h d.code a.code b 0 m
  rw [RawLane.bin, h4, h3, h5, h1, h2, Opd.ofCode_code, Opd.ofCode_code]
  rfl

theorem rawX_un (pg cl : Nat) (h : LaneHdr) (d a : Opd) (m : Nat) (k : Opd → Opd → Dec Instr) :
    (rawX pg cl h d.code a.code 0 0 m).un k = k d a := by
  have e : (rawX pg cl h d.code a.code 0 0 m).un k
      = (Opd.ofCode d.code >>= fun d => Opd.ofCode a.code >>= fun a => k d a) := rfl
  rw [e, Opd.ofCode_code, Opd.ofCode_code]
  rfl

/-- How many sources are immediate. -/
def immCount (a b c : Src) : Nat := ([a, b, c].filter fun x => match x with
  | .imm _ => true
  | .reg _ => false).length

theorem src_reg {r : RawLane} {k : Nat} {o : Opd} (h : r.f ≠ k) : r.src k o.code = .ok (.reg o) := by
  rw [RawLane.src, if_neg h, Opd.ofCode_code]; rfl

theorem src_imm {r : RawLane} {k n : Nat} {x : W32} (h : r.f = k) (hx : r.x = x.toNat) : r.src k n = .ok (.imm x) := by
  rw [RawLane.src, if_pos h, hx, BitVec.ofNat_toNat, BitVec.setWidth_eq]

theorem rawTri_head (pg cl : Nat) (h : LaneHdr) (d : Nat) (a b c : Src) (m : Nat) :
    (rawTri pg cl h d a b c m).page = pg ∧ (rawTri pg cl h d a b c m).cell = cl ∧ (rawTri pg cl h d a b c m).hdr = h ∧
    (rawTri pg cl h d a b c m).d = d ∧ (rawTri pg cl h d a b c m).mod = m := by
  cases a <;> cases b <;> cases c <;> exact ⟨rfl, rfl, rfl, rfl, rfl⟩

theorem rawTri_srcs (pg cl : Nat) (h : LaneHdr) (d : Nat) (a b c : Src) (m : Nat) (hi : immCount a b c ≤ 1) :
    (rawTri pg cl h d a b c m).src 1 (rawTri pg cl h d a b c m).a = .ok a ∧
    (rawTri pg cl h d a b c m).src 2 (rawTri pg cl h d a b c m).b = .ok b ∧
    (rawTri pg cl h d a b c m).src 3 (rawTri pg cl h d a b c m).c = .ok c := by
  cases a with
  | reg a =>
    cases b with
    | reg b =>
      cases c with
      | reg c => refine ⟨src_reg (o := a) ?_, src_reg (o := b) ?_, src_reg (o := c) ?_⟩ <;> simp [rawTri, rawBin, rawX]
      | imm x =>
        refine ⟨src_reg (o := a) ?_, src_reg (o := b) ?_, src_imm ?_ ?_⟩ <;> simp [rawTri]
    | imm x =>
      cases c with
      | reg c => refine ⟨src_reg (o := a) ?_, src_imm ?_ ?_, src_reg (o := c) ?_⟩ <;> simp [rawTri, rawBin]
      | imm y => simp [immCount] at hi
  | imm x =>
    cases b with
    | reg b =>
      cases c with
      | reg c => refine ⟨src_imm ?_ ?_, src_reg (o := b) ?_, src_reg (o := c) ?_⟩ <;> simp [rawTri]
      | imm y => simp [immCount] at hi
    | imm y => cases c <;> simp [immCount] at hi

theorem rawTri_tri (pg cl : Nat) (h : LaneHdr) (d a : Opd) (b c : Src) (m : Nat) (hi : immCount (.reg a) b c ≤ 1)
    (k : Opd → Opd → Src → Src → Dec Instr) :
    (rawTri pg cl h d.code (.reg a) b c m).tri k = k d a b c := by
  obtain ⟨-, h2, h3⟩ := rawTri_srcs pg cl h d.code (.reg a) b c m hi
  have hf : (rawTri pg cl h d.code (.reg a) b c m).form [0, 2, 3] = .ok () := by cases b <;> cases c <;> rfl
  have hd : (rawTri pg cl h d.code (.reg a) b c m).d = d.code := (rawTri_head pg cl h d.code (.reg a) b c m).2.2.2.1
  have ha : (rawTri pg cl h d.code (.reg a) b c m).a = a.code := by
    cases b <;> cases c <;> first | rfl | simp [immCount] at hi
  rw [RawLane.tri, hf, h2, h3, hd, ha, Opd.ofCode_code, Opd.ofCode_code]
  rfl

/-- The fields of a word whose operand fields hold no join index. -/
def rawPlain (li : LaneInfo) (pg cl m : Nat) : RawLane :=
  let d := match li.d with
    | some (o, _) => o.code
    | none => 0
  let a := slotCode li.a
  let b := slotCode li.b
  let c := slotCode li.c
  match slotImm li.a, slotImm li.b, slotImm li.c with
  | some x, _, _ => ⟨pg, cl, li.hdr, d, m, b, c, 1, x.toNat⟩
  | none, some x, _ => ⟨pg, cl, li.hdr, d, a, m, c, 2, x.toNat⟩
  | none, none, some x => ⟨pg, cl, li.hdr, d, a, b, m, 3, x.toNat⟩
  | none, none, none => ⟨pg, cl, li.hdr, d, a, b, c, 0, m⟩

theorem encodeRaw_plain {i : Instr} {li : LaneInfo} {pg cl m : Nat} {r : RawLane} (h1 : i.laneInfo = some li)
    (h2 : laneOp i = some (pg, cl, m)) (h3 : laneJoin i = 0) (h4 : rawPlain li pg cl m = r) :
    encodeRaw i = some r := by
  have hz : ∀ l n, fld 0 l n = 0 := by simp [fld]
  rw [encodeRaw, h1, h2, ← h4]
  simp only [rawOf, rawPlain, h3, hz, Nat.add_zero] <;> congr 1

/-! ## Rows of the lane map -/

theorem row_int {r : RawLane} (h : r.cell / 16 = 0 ∨ r.cell / 16 = 1) (hp : r.page = 0) :
    decodeLaneRaw r = decodeIntRow r := by
  rcases h with h | h <;> simp [decodeLaneRaw, h, hp]

theorem row_float {r : RawLane} (h : r.cell / 16 = 2 ∨ r.cell / 16 = 3) : decodeLaneRaw r = decodeFloatRow r := by
  rw [decodeLaneRaw, if_pos h]

theorem row_cvt {r : RawLane} (h : r.cell / 16 = 4) (hp : r.page = 0) : decodeLaneRaw r = decodeCvtRow r := by
  simp [decodeLaneRaw, h, hp]

theorem row_move {r : RawLane} (h : r.cell / 16 = 5) (hp : r.page = 0) : decodeLaneRaw r = decodeMoveRow r := by
  simp [decodeLaneRaw, h, hp]

theorem row_mem {r : RawLane} (h : r.cell / 16 = 8) (hp : r.page = 0) : decodeLaneRaw r = decodeMemRow r := by
  simp [decodeLaneRaw, h, hp]

theorem row_control {r : RawLane} (h : r.cell / 16 = 9) (hp : r.page = 0) : decodeLaneRaw r = decodeControlRow r := by
  simp [decodeLaneRaw, h, hp]

theorem row_render {r : RawLane} (h : r.cell / 16 = 12) (hp : r.page = 0) : decodeLaneRaw r = decodeRenderRow r := by
  simp [decodeLaneRaw, h, hp]

end Sys2Proof
end

