-- ==== Sys2Proof/Laws/Modifiers.lean ====
section
/-! SUPPORT. The modifier words that the encoder builds: the decoder reads from each what was put into it. -/

namespace Sys2Proof

/-! ## Codes are small -/

theorem IntTy.code_lt (t : IntTy) : t.code < 4 := by cases t <;> decide
theorem Cond.code_lt (c : Cond) : c.code < 8 := by cases c <;> decide
theorem FCond.code_lt (c : FCond) : c.code < 8 := by cases c <;> decide
theorem Page.code_lt (p : Page) : p.code < 4 := by cases p <;> decide
theorem Rm.code_lt (r : Rm) : r.code < 8 := by cases r <;> decide
theorem RmSr.code_lt (r : RmSr) : r.code < 8 := by cases r <;> decide
theorem Hadamard.code_lt (x : Hadamard) : x.code < 4 := by cases x <;> decide
theorem CvtTy.code_lt (x : CvtTy) : x.code < 16 := by cases x <;> decide
theorem SrTy.code_lt (x : SrTy) : x.code < 16 := by cases x <;> decide
theorem XMode.code_lt (x : XMode) : x.code < 4 := by cases x <;> decide
theorem VoteMode.code_lt (x : VoteMode) : x.code < 8 := by cases x <;> decide
theorem ScanOp.code_lt (x : ScanOp) : x.code < 8 := by cases x <;> decide
theorem Cmp24Ty.code_lt (x : Cmp24Ty) : x.code < 4 := by cases x <;> decide
theorem MemSize.code_lt (x : MemSize) : x.code < 4 := by cases x <;> decide
theorem PixelFmt.code_lt (x : PixelFmt) : x.code < 4 := by cases x <;> decide
theorem Scope.code_lt (x : Scope) : x.code < 4 := by cases x <;> decide
theorem Order.code_lt (x : Order) : x.code < 4 := by cases x <;> decide
theorem FenceOrder.code_lt (x : FenceOrder) : x.code < 4 := by cases x <;> decide
theorem AtomOp.code_lt (x : AtomOp) : x.code < 16 := by cases x <;> decide
theorem RedOp.code_lt (x : RedOp) : x.code < 16 := by cases x <;> decide
theorem SAtomOp.code_lt (x : SAtomOp) : x.code < 16 := by cases x <;> decide
theorem WaitCond.code_lt (x : WaitCond) : x.code < 8 := by cases x <;> decide
theorem ScalarSize.code_lt (x : ScalarSize) : x.code < 4 := by cases x <;> decide
theorem BerthTarget.code_lt (x : BerthTarget) : x.code < 4 := by cases x <;> decide
theorem DrainPath.code_lt (x : DrainPath) : x.code < 8 := by cases x <;> decide
theorem MfenceScope.code_lt (x : MfenceScope) : x.code < 4 := by cases x <;> decide
theorem AccFmt.code_lt (x : AccFmt) : x.code < 16 := by cases x <;> decide
theorem szCode_lt (w : Bool) : szCode w < 4 := by cases w <;> decide

/-! ## Integer words (R172) -/

theorem intModCode_lt (ty : IntTy) (sat : Bool) : intModCode ty sat < 256 := by
  have := ty.code_lt; have := bit_lt sat; simp only [intModCode]; omega

theorem intMod_code {tys : List IntTy} {so : Bool} (ty : IntTy) (sat : Bool) (k : IntTy → Bool → Instr)
    (h : tys.contains ty = true) (hs : sat = true → so = true) :
    intMod (intModCode ty sat) tys so k = .ok (k ty sat) := by
  have hz : intModCode ty sat / 8 = 0 := by have := ty.code_lt; have := bit_lt sat; simp only [intModCode]; omega
  have hf : fld (intModCode ty sat) 0 2 = ty.code := by have := ty.code_lt; simp only [fld, intModCode]; omega
  have hg : flag (intModCode ty sat) 2 = sat :=
    flag_of_fld (by have := ty.code_lt; have := bit_lt sat; simp only [fld, intModCode]; omega)
  have hb : (sat && !so) = false := by cases sat <;> simp_all
  simp only [intMod, hz, hf, hg, zeroed_zero, IntTy.ofCode_code, Dec.bind_ok, h, hb]
  rfl

theorem intMod_all (ty : IntTy) (sat : Bool) (k : IntTy → Bool → Instr) :
    intMod (intModCode ty sat) allTy true k = .ok (k ty sat) := intMod_code ty sat k (by cases ty <;> rfl) (by simp)

theorem intMod_ty (ty : IntTy) (k : IntTy → Bool → Instr) :
    intMod ty.code allTy false k = .ok (k ty false) := by
  have := intMod_code (tys := allTy) (so := false) ty false k (by cases ty <;> rfl) (by simp)
  simpa [intModCode, bit] using this

theorem intMod_bit (n : Bool) (k : IntTy → Bool → Instr) :
    intMod (bit n) [.i32, .n32] false k = .ok (k (if n then .n32 else .i32) false) := by cases n <;> rfl

theorem intMod_abs (w s : Bool) (k : IntTy → Bool → Instr) :
    intMod (bit w * 2 + bit s * 4) [.i32, .i64] true k = .ok (k (if w then .i64 else .i32) s) := by
  cases w <;> cases s <;> rfl

/-! ## Floating words (R177, R184, R186, R188) -/

theorem FMod.code_lt (m : FMod) : m.code < 128 := by
  have := m.rm.code_lt; have := bit_lt m.sat; have := bit_lt m.na; have := bit_lt m.nb; have := bit_lt m.nc
  simp only [FMod.code]; omega

theorem fMod_code (m : FMod) (k : FMod → Instr) : fMod m.code k = .ok (k m) := by
  obtain ⟨rm, sat, na, nb, nc⟩ := m
  have h := rm.code_lt; have h1 := bit_lt sat; have h2 := bit_lt na; have h3 := bit_lt nb; have h4 := bit_lt nc
  have e0 : (FMod.code ⟨rm, sat, na, nb, nc⟩) / 128 = 0 := by simp only [FMod.code]; omega
  have e1 : fld (FMod.code ⟨rm, sat, na, nb, nc⟩) 0 3 = rm.code := by simp only [FMod.code, fld]; omega
  have e2 : flag (FMod.code ⟨rm, sat, na, nb, nc⟩) 3 = sat := flag_of_fld (by simp only [FMod.code, fld]; omega)
  have e3 : flag (FMod.code ⟨rm, sat, na, nb, nc⟩) 4 = na := flag_of_fld (by simp only [FMod.code, fld]; omega)
  have e4 : flag (FMod.code ⟨rm, sat, na, nb, nc⟩) 5 = nb := flag_of_fld (by simp only [FMod.code, fld]; omega)
  have e5 : flag (FMod.code ⟨rm, sat, na, nb, nc⟩) 6 = nc := flag_of_fld (by simp only [FMod.code, fld]; omega)
  simp only [fMod, e0, e1, e2, e3, e4, e5, zeroed_zero, Rm.ofCode_code, Dec.bind_ok]

theorem finOf_fld {n : Nat} [NeZero n] {x : Fin n} {v : Nat} (h : v = x.val) : Fin.ofNat n v = x := by
  rw [h, finOfNat_val]

/-! ## Row 8 (R203) -/

theorem memCode_lt (off : BitVec 16) {sc ord sz rest : Nat} (h1 : sc < 4) (h2 : ord < 4) (h3 : sz < 4)
    (h4 : rest < 1024) : memCode off sc ord sz rest < 2 ^ 32 := by
  have := off.isLt; simp only [memCode]; omega

theorem memCode_fields (off : BitVec 16) {sc ord sz rest : Nat} (h1 : sc < 4) (h2 : ord < 4) (h3 : sz < 4)
    (h4 : rest < 1024) :
    offOf (memCode off sc ord sz rest) = off ∧ fld (memCode off sc ord sz rest) 14 2 = sc ∧
    fld (memCode off sc ord sz rest) 12 2 = ord ∧ fld (memCode off sc ord sz rest) 10 2 = sz ∧
    fld (memCode off sc ord sz rest) 12 4 = sc * 4 + ord ∧ fld (memCode off sc ord sz rest) 0 10 = rest ∧
    fld (memCode off sc ord sz rest) 0 9 = rest % 512 ∧ fld (memCode off sc ord sz rest) 9 1 = rest / 512 ∧
    fld (memCode off sc ord sz rest) 8 2 = rest / 256 ∧ fld (memCode off sc ord sz rest) 8 1 = rest / 256 % 2 ∧
    fld (memCode off sc ord sz rest) 4 4 = rest / 16 % 16 ∧ fld (memCode off sc ord sz rest) 0 4 = rest % 16 ∧
    fld (memCode off sc ord sz rest) 2 6 = rest / 4 % 64 ∧ fld (memCode off sc ord sz rest) 0 2 = rest % 4 ∧
    fld (memCode off sc ord sz rest) 16 16 = off.toNat ∧
    fld (memCode off sc ord sz rest) 0 12 = sz * 1024 + rest := by
  have := off.isLt
  refine ⟨BitVec.eq_of_toNat_eq ?_, ?_, ?_, ?_, ?_, ?_, ?_, ?_, ?_, ?_, ?_, ?_, ?_, ?_, ?_, ?_⟩ <;>
    simp only [offOf, fld, memCode, BitVec.toNat_ofNat] <;> omega

theorem sz32or64_code {x : Nat} {w : Bool} (h : fld x 10 2 = szCode w) : sz32or64 x = .ok w := by
  rw [sz32or64, h]; cases w <;> rfl

theorem ordOr_acq {x : Nat} {b : Bool} (h : fld x 12 2 = bit b) : ordOr x 1 = .ok b := by
  rw [ordOr, h]; cases b <;> rfl

theorem ordOr_rel {x : Nat} {b : Bool} (h : fld x 12 2 = bit b * 2) : ordOr x 2 = .ok b := by
  rw [ordOr, h]; cases b <;> rfl

/-! ## Words of several fields (R188, R233) -/

theorem MmaMod.code_lt (m : MmaMod) : m.code < 128 := by
  have := bit_lt m.g; have := bit_lt m.p; have := m.hd.code_lt; have := bit_lt m.ta; have := bit_lt m.tb
  simp only [MmaMod.code]; omega

theorem QRound.code_lt (q : QRound) : q.code < 2 ^ 17 := by
  cases q with
  | fixed rm => have := rm.code_lt; simp only [QRound.code]; omega
  | sr r b => have := r.isLt; simp only [QRound.code]; omega

theorem QPackMod.code_lt (m : QPackMod) : m.code < 2 ^ 32 := by
  have := m.rnd.code_lt; have := m.hd.code_lt; have := m.k.isLt; have := m.bsel.isLt
  simp only [QPackMod.code]; omega

/-- The name code of the random operand; 0 when there is none (R189). -/
def QRound.opd : QRound → Nat
  | .fixed _ => 0
  | .sr _ b => b.code

theorem QRound.opd_lt (q : QRound) : q.opd < 256 := by
  cases q with
  | fixed rm => exact (by decide : 0 < 256)
  | sr r b => exact b.code_lt

theorem qpackMod_code (cl : Nat) (h : LaneHdr) (m : QPackMod) (d a c : VReg) (k : QPackMod → VReg → VReg → VReg → Instr) :
    qpackMod (rawX 0 cl h d.val a.val m.rnd.opd c.val m.code) k = .ok (k m d a c) := by
  have hk := m.k.isLt
  have hs := m.bsel.isLt
  have hd := m.hd.code_lt
  have key {r : RawLane} {x : Nat} (hf : r.form [0] = .ok ()) (hx : r.x = x) (h1 : fld x 17 15 = 0) (h2 : fld x 6 2 = 0)
      (h3 : fld x 4 2 = m.hd.code) (hrd : r.d = d.val) (hra : r.a = a.val) (hrc : r.c = c.val) (h4 : fld x 0 2 = m.k.val)
      (h5 : fld x 2 2 = m.bsel.val) (hrm : (match m.rnd with
        | .fixed rm => fld x 8 3 = rm.code ∧ fld x 11 6 = 0 ∧ r.b = 0
        | .sr q b => fld x 8 3 = 4 ∧ fld x 11 6 = q.val ∧ r.b = b.code)) : qpackMod r k = .ok (k m d a c) := by
    subst hx
    obtain ⟨mk, mb, mh, mr⟩ := m
    simp only [qpackMod, hf, h1, h2, h3, hrd, hra, hrc, h4, h5, zeroed_zero, Dec.bind_ok, Hadamard.ofCode_code, vregOf_val,
      finOfNat_val]
    cases mr with
    | fixed rm =>
      obtain ⟨q1, q2, q3⟩ := hrm
      cases rm <;> (rw [q1, q2, q3]; rfl)
    | sr q b =>
      obtain ⟨q1, q2, q3⟩ := hrm
      rw [q1, q2, q3, show RmSr.ofCode 4 = .ok .sr from rfl]
      simp only [Dec.bind_ok, Opd.ofCode_code, finOfNat_val]
  obtain ⟨mk, mb, mh, mr⟩ := m
  simp only at hk hs hd
  cases mr with
  | fixed rm =>
    have := rm.code_lt
    refine key (x := QPackMod.code ⟨mk, mb, mh, .fixed rm⟩) rfl rfl ?_ ?_ ?_ rfl rfl rfl ?_ ?_ ⟨?_, ?_, rfl⟩ <;>
      simp only [fld, QPackMod.code, QRound.code] <;> omega
  | sr q b =>
    have := q.isLt
    refine key (x := QPackMod.code ⟨mk, mb, mh, .sr q b⟩) rfl rfl ?_ ?_ ?_ rfl rfl rfl ?_ ?_ ⟨?_, ?_, rfl⟩ <;>
      simp only [fld, QPackMod.code, QRound.code] <;> omega

theorem qunpackMod_code (cl : Nat) (h : LaneHdr) (k bsel : Fin 4) (d : Opd) (a c : VReg)
    (f : Fin 4 → Fin 4 → Opd → VReg → VReg → Instr) :
    qunpackMod (rawX 0 cl h d.code a.val 0 c.val (qunpackCode k bsel)) f = .ok (f k bsel d a c) := by
  have key {r : RawLane} {x : Nat} (hf : r.form [0] = .ok ()) (hx : r.x = x) (hb : r.b = 0) (h1 : x / 16 = 0)
      (hrd : r.d = d.code) (hra : r.a = a.val) (hrc : r.c = c.val) (h2 : fld x 0 2 = k.val) (h3 : fld x 2 2 = bsel.val) :
      qunpackMod r f = .ok (f k bsel d a c) := by
    subst hx
    simp only [qunpackMod, hf, hb, h1, hrd, hra, hrc, h2, h3, zeroed_zero, Dec.bind_ok, Opd.ofCode_code, vregOf_val,
      finOfNat_val]
  refine key (x := qunpackCode k bsel) rfl rfl rfl ?_ rfl rfl rfl ?_ ?_ <;> simp only [fld, qunpackCode] <;> omega

theorem bxdotMod_code (cl : Nat) (h : LaneHdr) (rm : Rm) (x y : Fin 4) (d : Opd) (a b : VReg) (c : Opd)
    (f : Rm → Fin 4 → Fin 4 → Opd → VReg → VReg → Opd → Instr) :
    bxdotMod (rawX 0 cl h d.code a.val b.val c.code (bxdotCode rm x y)) f = .ok (f rm x y d a b c) := by
  have hr := rm.code_lt
  have key {r : RawLane} {w : Nat} (hf : r.form [0] = .ok ()) (hx : r.x = w) (h1 : w / 128 = 0)
      (hrd : r.d = d.code) (hra : r.a = a.val) (hrb : r.b = b.val) (hrc : r.c = c.code) (h2 : fld w 0 2 = x.val)
      (h3 : fld w 2 2 = y.val) (h4 : fld w 4 3 = rm.code) : bxdotMod r f = .ok (f rm x y d a b c) := by
    subst hx
    simp only [bxdotMod, hf, h1, hrd, hra, hrb, hrc, h2, h3, h4, zeroed_zero, Dec.bind_ok, Opd.ofCode_code, vregOf_val,
      Rm.ofCode_code, finOfNat_val]
  refine key (w := bxdotCode rm x y) rfl rfl ?_ rfl rfl rfl rfl ?_ ?_ ?_ <;> simp only [fld, bxdotCode] <;> omega

end Sys2Proof
end

