-- ==== Sys2Proof/Laws/PerInstr.lean ====
section
/-!
SUPPORT. The family of statements made per instruction: `WordRoundTrip`, one lemma per constructor. Each lemma of a
word first decodes any word that has the fields which the encoder writes, then shows that it writes them.
-/

set_option linter.unusedSimpArgs false
set_option linter.unusedVariables false

namespace Sys2Proof

namespace Laws.WordRoundTrip

/-- Decoding what the encoder makes of a well-formed instruction gives the instruction back, with every operand; the
events of the package have no words. -/
def Statement (i : Instr) : Prop :=
  i.wf = true → (i.laneInfo = none ∧ encodeScalar i = none) ∨
    ∃ n w, encode i = some (n, w) ∧ decodeTableWord n w = some i

theorem lane {i : Instr} {r : RawLane} (he : encodeRaw i = some r) (hf : r.Fits)
    (hd : i.wf = true → decodeLaneRaw r = .ok i) : Statement i := fun hw =>
  .inr ⟨96, _, encode_of_raw he, decodeTableWord_lane (RawLane.toWord_lt hf) (decodeLane_of_raw hf (hd hw) hw)⟩

theorem short {i : Instr} {w : Nat} (hr : encodeRaw i = none) (he : encodeScalar i = some (32, w)) (hl : w < 2 ^ 32)
    (hd : i.wf = true → decodeScalarRaw w 0 = .ok i) : Statement i := fun hw =>
  .inr ⟨32, w, (encode_of_scalar hr).trans he, decodeTableWord_short (.inl rfl) hl
    (by rw [Nat.mod_eq_of_lt hl, Nat.div_eq_of_lt hl]; exact decodeScalar_of_raw (hd hw) hw)⟩

theorem long {i : Instr} {w w1 : Nat} (hr : encodeRaw i = none) (he : encodeScalar i = some (64, formL w w1))
    (hl : w < 2 ^ 32) (h1 : w1 < 2 ^ 32) (hd : i.wf = true → decodeScalarRaw w w1 = .ok i) : Statement i := fun hw =>
  .inr ⟨64, _, (encode_of_scalar hr).trans he, decodeTableWord_short (.inr rfl) (formL_lt hl h1)
    (by rw [(formL_words hl).1, (formL_words hl).2]; exact decodeScalar_of_raw (hd hw) hw)⟩

/-- Two immediates make no well-formed word (R56). -/
theorem absurd_imms {i : Instr} {li : LaneInfo} (h : i.laneInfo = some li) (hi : 1 < li.imms) : Statement i := fun hw =>
  absurd (imms_of_wf h hw) (Nat.not_le.2 hi)

/-! ## Scalar words -/

theorem sadd (d a b : SReg) : Statement (.sadd d a b) := by
  have key {w : Nat} (e0_6 : fld w 0 6 = 0) (e25_7 : fld w 25 7 = 1) (g6 : flag w 6 = false) (s13 : sreg w 13 = a) (s19 : sreg w 19 = d) (s7 : sreg w 7 = b) :
      decodeScalarRaw w 0 = .ok (.sadd d a b) := by
    have q0 : decodeScalarRaw w 0 = (decodeAlu w) := by
      unfold decodeScalarRaw; rw [e25_7]; rfl
    have q1 : decodeAlu w = (if flag w 6 then .error .reservedField else .ok (.sadd (sreg w 19) (sreg w 13) (sreg w 7))) := by
      unfold decodeAlu; rw [e0_6]; rfl
    rw [q0, q1]
    simp only [e0_6, e25_7, g6, s13, s19, s7, finOfNat_val, zeroed_zero, Dec.bind_ok, if_true, if_false, Bool.false_eq_true]
  have := d.isLt
  have := a.isLt
  have := b.isLt
  refine short (w := formA 1 d.val a.val b.val 0x00) rfl rfl (by simp only [formA] <;> omega) fun _ => key ?_ ?_ ?_ ?_ ?_ ?_
  · simp only [fld, formA] <;> omega
  · simp only [fld, formA] <;> omega
  · refine flag_of_fld ?_; show _ = 0; simp only [fld, formA] <;> omega
  · refine finOf_fld ?_; simp only [fld, formA] <;> omega
  · refine finOf_fld ?_; simp only [fld, formA] <;> omega
  · refine finOf_fld ?_; simp only [fld, formA] <;> omega

theorem ssub (d a b : SReg) : Statement (.ssub d a b) := by
  have key {w : Nat} (e0_6 : fld w 0 6 = 1) (e25_7 : fld w 25 7 = 1) (g6 : flag w 6 = false) (s13 : sreg w 13 = a) (s19 : sreg w 19 = d) (s7 : sreg w 7 = b) :
      decodeScalarRaw w 0 = .ok (.ssub d a b) := by
    have q0 : decodeScalarRaw w 0 = (decodeAlu w) := by
      unfold decodeScalarRaw; rw [e25_7]; rfl
    have q1 : decodeAlu w = (if flag w 6 then .error .reservedField else .ok (.ssub (sreg w 19) (sreg w 13) (sreg w 7))) := by
      unfold decodeAlu; rw [e0_6]; rfl
    rw [q0, q1]
    simp only [e0_6, e25_7, g6, s13, s19, s7, finOfNat_val, zeroed_zero, Dec.bind_ok, if_true, if_false, Bool.false_eq_true]
  have := d.isLt
  have := a.isLt
  have := b.isLt
  refine short (w := formA 1 d.val a.val b.val 0x01) rfl rfl (by simp only [formA] <;> omega) fun _ => key ?_ ?_ ?_ ?_ ?_ ?_
  · simp only [fld, formA] <;> omega
  · simp only [fld, formA] <;> omega
  · refine flag_of_fld ?_; show _ = 0; simp only [fld, formA] <;> omega
  · refine finOf_fld ?_; simp only [fld, formA] <;> omega
  · refine finOf_fld ?_; simp only [fld, formA] <;> omega
  · refine finOf_fld ?_; simp only [fld, formA] <;> omega

theorem smul (d a b : SReg) : Statement (.smul d a b) := by
  have key {w : Nat} (e0_6 : fld w 0 6 = 2) (e25_7 : fld w 25 7 = 1) (g6 : flag w 6 = false) (s13 : sreg w 13 = a) (s19 : sreg w 19 = d) (s7 : sreg w 7 = b) :
      decodeScalarRaw w 0 = .ok (.smul d a b) := by
    have q0 : decodeScalarRaw w 0 = (decodeAlu w) := by
      unfold decodeScalarRaw; rw [e25_7]; rfl
    have q1 : decodeAlu w = (if flag w 6 then .error .reservedField else .ok (.smul (sreg w 19) (sreg w 13) (sreg w 7))) := by
      unfold decodeAlu; rw [e0_6]; rfl
    rw [q0, q1]
    simp only [e0_6, e25_7, g6, s13, s19, s7, finOfNat_val, zeroed_zero, Dec.bind_ok, if_true, if_false, Bool.false_eq_true]
  have := d.isLt
  have := a.isLt
  have := b.isLt
  refine short (w := formA 1 d.val a.val b.val 0x02) rfl rfl (by simp only [formA] <;> omega) fun _ => key ?_ ?_ ?_ ?_ ?_ ?_
  · simp only [fld, formA] <;> omega
  · simp only [fld, formA] <;> omega
  · refine flag_of_fld ?_; show _ = 0; simp only [fld, formA] <;> omega
  · refine finOf_fld ?_; simp only [fld, formA] <;> omega
  · refine finOf_fld ?_; simp only [fld, formA] <;> omega
  · refine finOf_fld ?_; simp only [fld, formA] <;> omega

theorem smulh (n : Bool) (d a b : SReg) : Statement (.smulh n d a b) := by
  have key {w : Nat} (e0_6 : fld w 0 6 = 3) (e25_7 : fld w 25 7 = 1) (g6 : flag w 6 = n) (s13 : sreg w 13 = a) (s19 : sreg w 19 = d) (s7 : sreg w 7 = b) :
      decodeScalarRaw w 0 = .ok (.smulh n d a b) := by
    have q0 : decodeScalarRaw w 0 = (decodeAlu w) := by
      unfold decodeScalarRaw; rw [e25_7]; rfl
    have q1 : decodeAlu w = (.ok (.smulh (flag w 6) (sreg w 19) (sreg w 13) (sreg w 7))) := by
      unfold decodeAlu; rw [e0_6]; rfl
    rw [q0, q1]
    simp only [e0_6, e25_7, g6, s13, s19, s7, finOfNat_val, zeroed_zero, Dec.bind_ok, if_true, if_false, Bool.false_eq_true]
  have := bit_lt n
  have := d.isLt
  have := a.isLt
  have := b.isLt
  refine short (w := formA 1 d.val a.val b.val (bit n * 64 + 0x03)) rfl rfl (by simp only [formA] <;> omega) fun _ => key ?_ ?_ ?_ ?_ ?_ ?_
  · simp only [fld, formA] <;> omega
  · simp only [fld, formA] <;> omega
  · refine flag_of_fld ?_; simp only [fld, formA] <;> omega
  · refine finOf_fld ?_; simp only [fld, formA] <;> omega
  · refine finOf_fld ?_; simp only [fld, formA] <;> omega
  · refine finOf_fld ?_; simp only [fld, formA] <;> omega

theorem sdiv (n : Bool) (d a b : SReg) : Statement (.sdiv n d a b) := by
  have key {w : Nat} (e0_6 : fld w 0 6 = 4) (e25_7 : fld w 25 7 = 1) (g6 : flag w 6 = n) (s13 : sreg w 13 = a) (s19 : sreg w 19 = d) (s7 : sreg w 7 = b) :
      decodeScalarRaw w 0 = .ok (.sdiv n d a b) := by
    have q0 : decodeScalarRaw w 0 = (decodeAlu w) := by
      unfold decodeScalarRaw; rw [e25_7]; rfl
    have q1 : decodeAlu w = (.ok (.sdiv (flag w 6) (sreg w 19) (sreg w 13) (sreg w 7))) := by
      unfold decodeAlu; rw [e0_6]; rfl
    rw [q0, q1]
    simp only [e0_6, e25_7, g6, s13, s19, s7, finOfNat_val, zeroed_zero, Dec.bind_ok, if_true, if_false, Bool.false_eq_true]
  have := bit_lt n
  have := d.isLt
  have := a.isLt
  have := b.isLt
  refine short (w := formA 1 d.val a.val b.val (bit n * 64 + 0x04)) rfl rfl (by simp only [formA] <;> omega) fun _ => key ?_ ?_ ?_ ?_ ?_ ?_
  · simp only [fld, formA] <;> omega
  · simp only [fld, formA] <;> omega
  · refine flag_of_fld ?_; simp only [fld, formA] <;> omega
  · refine finOf_fld ?_; simp only [fld, formA] <;> omega
  · refine finOf_fld ?_; simp only [fld, formA] <;> omega
  · refine finOf_fld ?_; simp only [fld, formA] <;> omega

theorem smin (n : Bool) (d a b : SReg) : Statement (.smin n d a b) := by
  have key {w : Nat} (e0_6 : fld w 0 6 = 5) (e25_7 : fld w 25 7 = 1) (g6 : flag w 6 = n) (s13 : sreg w 13 = a) (s19 : sreg w 19 = d) (s7 : sreg w 7 = b) :
      decodeScalarRaw w 0 = .ok (.smin n d a b) := by
    have q0 : decodeScalarRaw w 0 = (decodeAlu w) := by
      unfold decodeScalarRaw; rw [e25_7]; rfl
    have q1 : decodeAlu w = (.ok (.smin (flag w 6) (sreg w 19) (sreg w 13) (sreg w 7))) := by
      unfold decodeAlu; rw [e0_6]; rfl
    rw [q0, q1]
    simp only [e0_6, e25_7, g6, s13, s19, s7, finOfNat_val, zeroed_zero, Dec.bind_ok, if_true, if_false, Bool.false_eq_true]
  have := bit_lt n
  have := d.isLt
  have := a.isLt
  have := b.isLt
  refine short (w := formA 1 d.val a.val b.val (bit n * 64 + 0x05)) rfl rfl (by simp only [formA] <;> omega) fun _ => key ?_ ?_ ?_ ?_ ?_ ?_
  · simp only [fld, formA] <;> omega
  · simp only [fld, formA] <;> omega
  · refine flag_of_fld ?_; simp only [fld, formA] <;> omega
  · refine finOf_fld ?_; simp only [fld, formA] <;> omega
  · refine finOf_fld ?_; simp only [fld, formA] <;> omega
  · refine finOf_fld ?_; simp only [fld, formA] <;> omega

theorem smax (n : Bool) (d a b : SReg) : Statement (.smax n d a b) := by
  have key {w : Nat} (e0_6 : fld w 0 6 = 6) (e25_7 : fld w 25 7 = 1) (g6 : flag w 6 = n) (s13 : sreg w 13 = a) (s19 : sreg w 19 = d) (s7 : sreg w 7 = b) :
      decodeScalarRaw w 0 = .ok (.smax n d a b) := by
    have q0 : decodeScalarRaw w 0 = (decodeAlu w) := by
      unfold decodeScalarRaw; rw [e25_7]; rfl
    have q1 : decodeAlu w = (.ok (.smax (flag w 6) (sreg w 19) (sreg w 13) (sreg w 7))) := by
      unfold decodeAlu; rw [e0_6]; rfl
    rw [q0, q1]
    simp only [e0_6, e25_7, g6, s13, s19, s7, finOfNat_val, zeroed_zero, Dec.bind_ok, if_true, if_false, Bool.false_eq_true]
  have := bit_lt n
  have := d.isLt
  have := a.isLt
  have := b.isLt
  refine short (w := formA 1 d.val a.val b.val (bit n * 64 + 0x06)) rfl rfl (by simp only [formA] <;> omega) fun _ => key ?_ ?_ ?_ ?_ ?_ ?_
  · simp only [fld, formA] <;> omega
  · simp only [fld, formA] <;> omega
  · refine flag_of_fld ?_; simp only [fld, formA] <;> omega
  · refine finOf_fld ?_; simp only [fld, formA] <;> omega
  · refine finOf_fld ?_; simp only [fld, formA] <;> omega
  · refine finOf_fld ?_; simp only [fld, formA] <;> omega

theorem sand (d a b : SReg) : Statement (.sand d a b) := by
  have key {w : Nat} (e0_6 : fld w 0 6 = 7) (e25_7 : fld w 25 7 = 1) (g6 : flag w 6 = false) (s13 : sreg w 13 = a) (s19 : sreg w 19 = d) (s7 : sreg w 7 = b) :
      decodeScalarRaw w 0 = .ok (.sand d a b) := by
    have q0 : decodeScalarRaw w 0 = (decodeAlu w) := by
      unfold decodeScalarRaw; rw [e25_7]; rfl
    have q1 : decodeAlu w = (if flag w 6 then .error .reservedField else .ok (.sand (sreg w 19) (sreg w 13) (sreg w 7))) := by
      unfold decodeAlu; rw [e0_6]; rfl
    rw [q0, q1]
    simp only [e0_6, e25_7, g6, s13, s19, s7, finOfNat_val, zeroed_zero, Dec.bind_ok, if_true, if_false, Bool.false_eq_true]
  have := d.isLt
  have := a.isLt
  have := b.isLt
  refine short (w := formA 1 d.val a.val b.val 0x07) rfl rfl (by simp only [formA] <;> omega) fun _ => key ?_ ?_ ?_ ?_ ?_ ?_
  · simp only [fld, formA] <;> omega
  · simp only [fld, formA] <;> omega
  · refine flag_of_fld ?_; show _ = 0; simp only [fld, formA] <;> omega
  · refine finOf_fld ?_; simp only [fld, formA] <;> omega
  · refine finOf_fld ?_; simp only [fld, formA] <;> omega
  · refine finOf_fld ?_; simp only [fld, formA] <;> omega

theorem sor (d a b : SReg) : Statement (.sor d a b) := by
  have key {w : Nat} (e0_6 : fld w 0 6 = 8) (e25_7 : fld w 25 7 = 1) (g6 : flag w 6 = false) (s13 : sreg w 13 = a) (s19 : sreg w 19 = d) (s7 : sreg w 7 = b) :
      decodeScalarRaw w 0 = .ok (.sor d a b) := by
    have q0 : decodeScalarRaw w 0 = (decodeAlu w) := by
      unfold decodeScalarRaw; rw [e25_7]; rfl
    have q1 : decodeAlu w = (if flag w 6 then .error .reservedField else .ok (.sor (sreg w 19) (sreg w 13) (sreg w 7))) := by
      unfold decodeAlu; rw [e0_6]; rfl
    rw [q0, q1]
    simp only [e0_6, e25_7, g6, s13, s19, s7, finOfNat_val, zeroed_zero, Dec.bind_ok, if_true, if_false, Bool.false_eq_true]
  have := d.isLt
  have := a.isLt
  have := b.isLt
  refine short (w := formA 1 d.val a.val b.val 0x08) rfl rfl (by simp only [formA] <;> omega) fun _ => key ?_ ?_ ?_ ?_ ?_ ?_
  · simp only [fld, formA] <;> omega
  · simp only [fld, formA] <;> omega
  · refine flag_of_fld ?_; show _ = 0; simp only [fld, formA] <;> omega
  · refine finOf_fld ?_; simp only [fld, formA] <;> omega
  · refine finOf_fld ?_; simp only [fld, formA] <;> omega
  · refine finOf_fld ?_; simp only [fld, formA] <;> omega

theorem sxor (d a b : SReg) : Statement (.sxor d a b) := by
  have key {w : Nat} (e0_6 : fld w 0 6 = 9) (e25_7 : fld w 25 7 = 1) (g6 : flag w 6 = false) (s13 : sreg w 13 = a) (s19 : sreg w 19 = d) (s7 : sreg w 7 = b) :
      decodeScalarRaw w 0 = .ok (.sxor d a b) := by
    have q0 : decodeScalarRaw w 0 = (decodeAlu w) := by
      unfold decodeScalarRaw; rw [e25_7]; rfl
    have q1 : decodeAlu w = (if flag w 6 then .error .reservedField else .ok (.sxor (sreg w 19) (sreg w 13) (sreg w 7))) := by
      unfold decodeAlu; rw [e0_6]; rfl
    rw [q0, q1]
    simp only [e0_6, e25_7, g6, s13, s19, s7, finOfNat_val, zeroed_zero, Dec.bind_ok, if_true, if_false, Bool.false_eq_true]
  have := d.isLt
  have := a.isLt
  have := b.isLt
  refine short (w := formA 1 d.val a.val b.val 0x09) rfl rfl (by simp only [formA] <;> omega) fun _ => key ?_ ?_ ?_ ?_ ?_ ?_
  · simp only [fld, formA] <;> omega
  · simp only [fld, formA] <;> omega
  · refine flag_of_fld ?_; show _ = 0; simp only [fld, formA] <;> omega
  · refine finOf_fld ?_; simp only [fld, formA] <;> omega
  · refine finOf_fld ?_; simp only [fld, formA] <;> omega
  · refine finOf_fld ?_; simp only [fld, formA] <;> omega

theorem sshl (d a b : SReg) : Statement (.sshl d a b) := by
  have key {w : Nat} (e0_6 : fld w 0 6 = 10) (e25_7 : fld w 25 7 = 1) (g6 : flag w 6 = false) (s13 : sreg w 13 = a) (s19 : sreg w 19 = d) (s7 : sreg w 7 = b) :
      decodeScalarRaw w 0 = .ok (.sshl d a b) := by
    have q0 : decodeScalarRaw w 0 = (decodeAlu w) := by
      unfold decodeScalarRaw; rw [e25_7]; rfl
    have q1 : decodeAlu w = (if flag w 6 then .error .reservedField else .ok (.sshl (sreg w 19) (sreg w 13) (sreg w 7))) := by
      unfold decodeAlu; rw [e0_6]; rfl
    rw [q0, q1]
    simp only [e0_6, e25_7, g6, s13, s19, s7, finOfNat_val, zeroed_zero, Dec.bind_ok, if_true, if_false, Bool.false_eq_true]
  have := d.isLt
  have := a.isLt
  have := b.isLt
  refine short (w := formA 1 d.val a.val b.val 0x0A) rfl rfl (by simp only [formA] <;> omega) fun _ => key ?_ ?_ ?_ ?_ ?_ ?_
  · simp only [fld, formA] <;> omega
  · simp only [fld, formA] <;> omega
  · refine flag_of_fld ?_; show _ = 0; simp only [fld, formA] <;> omega
  · refine finOf_fld ?_; simp only [fld, formA] <;> omega
  · refine finOf_fld ?_; simp only [fld, formA] <;> omega
  · refine finOf_fld ?_; simp only [fld, formA] <;> omega

theorem sshr (d a b : SReg) : Statement (.sshr d a b) := by
  have key {w : Nat} (e0_6 : fld w 0 6 = 11) (e25_7 : fld w 25 7 = 1) (g6 : flag w 6 = false) (s13 : sreg w 13 = a) (s19 : sreg w 19 = d) (s7 : sreg w 7 = b) :
      decodeScalarRaw w 0 = .ok (.sshr d a b) := by
    have q0 : decodeScalarRaw w 0 = (decodeAlu w) := by
      unfold decodeScalarRaw; rw [e25_7]; rfl
    have q1 : decodeAlu w = (if flag w 6 then .error .reservedField else .ok (.sshr (sreg w 19) (sreg w 13) (sreg w 7))) := by
      unfold decodeAlu; rw [e0_6]; rfl
    rw [q0, q1]
    simp only [e0_6, e25_7, g6, s13, s19, s7, finOfNat_val, zeroed_zero, Dec.bind_ok, if_true, if_false, Bool.false_eq_true]
  have := d.isLt
  have := a.isLt
  have := b.isLt
  refine short (w := formA 1 d.val a.val b.val 0x0B) rfl rfl (by simp only [formA] <;> omega) fun _ => key ?_ ?_ ?_ ?_ ?_ ?_
  · simp only [fld, formA] <;> omega
  · simp only [fld, formA] <;> omega
  · refine flag_of_fld ?_; show _ = 0; simp only [fld, formA] <;> omega
  · refine finOf_fld ?_; simp only [fld, formA] <;> omega
  · refine finOf_fld ?_; simp only [fld, formA] <;> omega
  · refine finOf_fld ?_; simp only [fld, formA] <;> omega

theorem ssra (d a b : SReg) : Statement (.ssra d a b) := by
  have key {w : Nat} (e0_6 : fld w 0 6 = 12) (e25_7 : fld w 25 7 = 1) (g6 : flag w 6 = false) (s13 : sreg w 13 = a) (s19 : sreg w 19 = d) (s7 : sreg w 7 = b) :
      decodeScalarRaw w 0 = .ok (.ssra d a b) := by
    have q0 : decodeScalarRaw w 0 = (decodeAlu w) := by
      unfold decodeScalarRaw; rw [e25_7]; rfl
    have q1 : decodeAlu w = (if flag w 6 then .error .reservedField else .ok (.ssra (sreg w 19) (sreg w 13) (sreg w 7))) := by
      unfold decodeAlu; rw [e0_6]; rfl
    rw [q0, q1]
    simp only [e0_6, e25_7, g6, s13, s19, s7, finOfNat_val, zeroed_zero, Dec.bind_ok, if_true, if_false, Bool.false_eq_true]
  have := d.isLt
  have := a.isLt
  have := b.isLt
  refine short (w := formA 1 d.val a.val b.val 0x0C) rfl rfl (by simp only [formA] <;> omega) fun _ => key ?_ ?_ ?_ ?_ ?_ ?_
  · simp only [fld, formA] <;> omega
  · simp only [fld, formA] <;> omega
  · refine flag_of_fld ?_; show _ = 0; simp only [fld, formA] <;> omega
  · refine finOf_fld ?_; simp only [fld, formA] <;> omega
  · refine finOf_fld ?_; simp only [fld, formA] <;> omega
  · refine finOf_fld ?_; simp only [fld, formA] <;> omega

theorem sclz (d a : SReg) : Statement (.sclz d a) := by
  have key {w : Nat} (e0_6 : fld w 0 6 = 13) (e25_7 : fld w 25 7 = 1) (e7_6 : fld w 7 6 = 0) (g6 : flag w 6 = false) (s13 : sreg w 13 = a) (s19 : sreg w 19 = d) :
      decodeScalarRaw w 0 = .ok (.sclz d a) := by
    have q0 : decodeScalarRaw w 0 = (decodeAlu w) := by
      unfold decodeScalarRaw; rw [e25_7]; rfl
    have q1 : decodeAlu w = (do zeroed (fld w 7 6); if flag w 6 then .error .reservedField else .ok (.sclz (sreg w 19) (sreg w 13))) := by
      unfold decodeAlu; rw [e0_6]; rfl
    rw [q0, q1]
    simp only [e0_6, e25_7, e7_6, g6, s13, s19, finOfNat_val, zeroed_zero, Dec.bind_ok, if_true, if_false, Bool.false_eq_true]
  have := d.isLt
  have := a.isLt
  refine short (w := formA 1 d.val a.val 0 0x0D) rfl rfl (by simp only [formA] <;> omega) fun _ => key ?_ ?_ ?_ ?_ ?_ ?_
  · simp only [fld, formA] <;> omega
  · simp only [fld, formA] <;> omega
  · simp only [fld, formA] <;> omega
  · refine flag_of_fld ?_; show _ = 0; simp only [fld, formA] <;> omega
  · refine finOf_fld ?_; simp only [fld, formA] <;> omega
  · refine finOf_fld ?_; simp only [fld, formA] <;> omega

theorem spopc (d a : SReg) : Statement (.spopc d a) := by
  have key {w : Nat} (e0_6 : fld w 0 6 = 14) (e25_7 : fld w 25 7 = 1) (e7_6 : fld w 7 6 = 0) (g6 : flag w 6 = false) (s13 : sreg w 13 = a) (s19 : sreg w 19 = d) :
      decodeScalarRaw w 0 = .ok (.spopc d a) := by
    have q0 : decodeScalarRaw w 0 = (decodeAlu w) := by
      unfold decodeScalarRaw; rw [e25_7]; rfl
    have q1 : decodeAlu w = (do zeroed (fld w 7 6); if flag w 6 then .error .reservedField else .ok (.spopc (sreg w 19) (sreg w 13))) := by
      unfold decodeAlu; rw [e0_6]; rfl
    rw [q0, q1]
    simp only [e0_6, e25_7, e7_6, g6, s13, s19, finOfNat_val, zeroed_zero, Dec.bind_ok, if_true, if_false, Bool.false_eq_true]
  have := d.isLt
  have := a.isLt
  refine short (w := formA 1 d.val a.val 0 0x0E) rfl rfl (by simp only [formA] <;> omega) fun _ => key ?_ ?_ ?_ ?_ ?_ ?_
  · simp only [fld, formA] <;> omega
  · simp only [fld, formA] <;> omega
  · simp only [fld, formA] <;> omega
  · refine flag_of_fld ?_; show _ = 0; simp only [fld, formA] <;> omega
  · refine finOf_fld ?_; simp only [fld, formA] <;> omega
  · refine finOf_fld ?_; simp only [fld, formA] <;> omega

theorem smov (d a : SReg) : Statement (.smov d a) := by
  have key {w : Nat} (e0_6 : fld w 0 6 = 15) (e25_7 : fld w 25 7 = 1) (e7_6 : fld w 7 6 = 0) (g6 : flag w 6 = false) (s13 : sreg w 13 = a) (s19 : sreg w 19 = d) :
      decodeScalarRaw w 0 = .ok (.smov d a) := by
    have q0 : decodeScalarRaw w 0 = (decodeAlu w) := by
      unfold decodeScalarRaw; rw [e25_7]; rfl
    have q1 : decodeAlu w = (do zeroed (fld w 7 6); if flag w 6 then .error .reservedField else .ok (.smov (sreg w 19) (sreg w 13))) := by
      unfold decodeAlu; rw [e0_6]; rfl
    rw [q0, q1]
    simp only [e0_6, e25_7, e7_6, g6, s13, s19, finOfNat_val, zeroed_zero, Dec.bind_ok, if_true, if_false, Bool.false_eq_true]
  have := d.isLt
  have := a.isLt
  refine short (w := formA 1 d.val a.val 0 0x0F) rfl rfl (by simp only [formA] <;> omega) fun _ => key ?_ ?_ ?_ ?_ ?_ ?_
  · simp only [fld, formA] <;> omega
  · simp only [fld, formA] <;> omega
  · simp only [fld, formA] <;> omega
  · refine flag_of_fld ?_; show _ = 0; simp only [fld, formA] <;> omega
  · refine finOf_fld ?_; simp only [fld, formA] <;> omega
  · refine finOf_fld ?_; simp only [fld, formA] <;> omega

theorem scmp (c : Cond) (n : Bool) (k : KReg) (a b : SReg) : Statement (.scmp c n k a b) := by
  have key {w : Nat} (e0_6 : fld w 0 6 = 16) (e19_2 : fld w 19 2 = k.val) (e21_1 : fld w 21 1 = 0) (e22_3 : fld w 22 3 = c.code) (e25_7 : fld w 25 7 = 1) (g6 : flag w 6 = n) (s13 : sreg w 13 = a) (s7 : sreg w 7 = b) :
      decodeScalarRaw w 0 = .ok (.scmp c n k a b) := by
    have q0 : decodeScalarRaw w 0 = (decodeAlu w) := by
      unfold decodeScalarRaw; rw [e25_7]; rfl
    have q1 : decodeAlu w = (do
    zeroed (fld w 21 1)
    let c ← Cond.ofCode (fld w 22 3)
    .ok (.scmp c (flag w 6) (Fin.ofNat 4 (fld w 19 2)) (sreg w 13) (sreg w 7))) := by
      unfold decodeAlu; rw [e0_6]; rfl
    rw [q0, q1]
    simp only [e0_6, e19_2, e21_1, e22_3, e25_7, g6, s13, s7, Cond.ofCode_code, finOfNat_val, zeroed_zero, Dec.bind_ok, if_true, if_false, Bool.false_eq_true]
  have := c.code_lt
  have := bit_lt n
  have := k.isLt
  have := a.isLt
  have := b.isLt
  refine short (w := formA 1 (scmpField c k) a.val b.val (bit n * 64 + 0x10)) rfl rfl (by simp only [formA, scmpField] <;> omega) fun _ => key ?_ ?_ ?_ ?_ ?_ ?_ ?_ ?_
  · simp only [fld, formA, scmpField] <;> omega
  · simp only [fld, formA, scmpField] <;> omega
  · simp only [fld, formA, scmpField] <;> omega
  · simp only [fld, formA, scmpField] <;> omega
  · simp only [fld, formA, scmpField] <;> omega
  · refine flag_of_fld ?_; simp only [fld, formA, scmpField] <;> omega
  · refine finOf_fld ?_; simp only [fld, formA, scmpField] <;> omega
  · refine finOf_fld ?_; simp only [fld, formA, scmpField] <;> omega

theorem ssel (d a b : SReg) : Statement (.ssel d a b) := by
  have key {w : Nat} (e0_6 : fld w 0 6 = 17) (e25_7 : fld w 25 7 = 1) (g6 : flag w 6 = false) (s13 : sreg w 13 = a) (s19 : sreg w 19 = d) (s7 : sreg w 7 = b) :
      decodeScalarRaw w 0 = .ok (.ssel d a b) := by
    have q0 : decodeScalarRaw w 0 = (decodeAlu w) := by
      unfold decodeScalarRaw; rw [e25_7]; rfl
    have q1 : decodeAlu w = (if flag w 6 then .error .reservedField else .ok (.ssel (sreg w 19) (sreg w 13) (sreg w 7))) := by
      unfold decodeAlu; rw [e0_6]; rfl
    rw [q0, q1]
    simp only [e0_6, e25_7, g6, s13, s19, s7, finOfNat_val, zeroed_zero, Dec.bind_ok, if_true, if_false, Bool.false_eq_true]
  have := d.isLt
  have := a.isLt
  have := b.isLt
  refine short (w := formA 1 d.val a.val b.val 0x11) rfl rfl (by simp only [formA] <;> omega) fun _ => key ?_ ?_ ?_ ?_ ?_ ?_
  · simp only [fld, formA] <;> omega
  · simp only [fld, formA] <;> omega
  · refine flag_of_fld ?_; show _ = 0; simp only [fld, formA] <;> omega
  · refine finOf_fld ?_; simp only [fld, formA] <;> omega
  · refine finOf_fld ?_; simp only [fld, formA] <;> omega
  · refine finOf_fld ?_; simp only [fld, formA] <;> omega

theorem slea (d a b : SReg) : Statement (.slea d a b) := by
  have key {w : Nat} (e0_6 : fld w 0 6 = 18) (e25_7 : fld w 25 7 = 1) (g6 : flag w 6 = false) (s13 : sreg w 13 = a) (s19 : sreg w 19 = d) (s7 : sreg w 7 = b) :
      decodeScalarRaw w 0 = .ok (.slea d a b) := by
    have q0 : decodeScalarRaw w 0 = (decodeAlu w) := by
      unfold decodeScalarRaw; rw [e25_7]; rfl
    have q1 : decodeAlu w = (if flag w 6 then .error .reservedField else .ok (.slea (sreg w 19) (sreg w 13) (sreg w 7))) := by
      unfold decodeAlu; rw [e0_6]; rfl
    rw [q0, q1]
    simp only [e0_6, e25_7, g6, s13, s19, s7, finOfNat_val, zeroed_zero, Dec.bind_ok, if_true, if_false, Bool.false_eq_true]
  have := d.isLt
  have := a.isLt
  have := b.isLt
  refine short (w := formA 1 d.val a.val b.val 0x12) rfl rfl (by simp only [formA] <;> omega) fun _ => key ?_ ?_ ?_ ?_ ?_ ?_
  · simp only [fld, formA] <;> omega
  · simp only [fld, formA] <;> omega
  · refine flag_of_fld ?_; show _ = 0; simp only [fld, formA] <;> omega
  · refine finOf_fld ?_; simp only [fld, formA] <;> omega
  · refine finOf_fld ?_; simp only [fld, formA] <;> omega
  · refine finOf_fld ?_; simp only [fld, formA] <;> omega

theorem saddImm (d a : SReg) (i : BitVec 13) : Statement (.saddImm d a i) := by
  have key {w : Nat} (e25_7 : fld w 25 7 = 2) (s13 : sreg w 13 = a) (s19 : sreg w 19 = d) (b13 : BitVec.ofNat 13 w = i) :
      decodeScalarRaw w 0 = .ok (.saddImm d a i) := by
    have q0 : decodeScalarRaw w 0 = (.ok (.saddImm (sreg w 19) (sreg w 13) (BitVec.ofNat 13 w))) := by
      unfold decodeScalarRaw; rw [e25_7]; rfl
    rw [q0]
    simp only [e25_7, s13, s19, b13, finOfNat_val, zeroed_zero, Dec.bind_ok, if_true, if_false, Bool.false_eq_true]
  have := d.isLt
  have := a.isLt
  have := i.isLt
  refine short (w := formB 0x02 d.val a.val i) rfl rfl (by simp only [formB] <;> omega) fun _ => key ?_ ?_ ?_ ?_
  · simp only [fld, formB] <;> omega
  · refine finOf_fld ?_; simp only [fld, formB] <;> omega
  · refine finOf_fld ?_; simp only [fld, formB] <;> omega
  · refine BitVec.eq_of_toNat_eq ?_; simp only [formB, BitVec.toNat_ofNat] <;> omega

theorem smulImm (d a : SReg) (i : BitVec 13) : Statement (.smulImm d a i) := by
  have key {w : Nat} (e25_7 : fld w 25 7 = 3) (s13 : sreg w 13 = a) (s19 : sreg w 19 = d) (b13 : BitVec.ofNat 13 w = i) :
      decodeScalarRaw w 0 = .ok (.smulImm d a i) := by
    have q0 : decodeScalarRaw w 0 = (.ok (.smulImm (sreg w 19) (sreg w 13) (BitVec.ofNat 13 w))) := by
      unfold decodeScalarRaw; rw [e25_7]; rfl
    rw [q0]
    simp only [e25_7, s13, s19, b13, finOfNat_val, zeroed_zero, Dec.bind_ok, if_true, if_false, Bool.false_eq_true]
  have := d.isLt
  have := a.isLt
  have := i.isLt
  refine short (w := formB 0x03 d.val a.val i) rfl rfl (by simp only [formB] <;> omega) fun _ => key ?_ ?_ ?_ ?_
  · simp only [fld, formB] <;> omega
  · refine finOf_fld ?_; simp only [fld, formB] <;> omega
  · refine finOf_fld ?_; simp only [fld, formB] <;> omega
  · refine BitVec.eq_of_toNat_eq ?_; simp only [formB, BitVec.toNat_ofNat] <;> omega

theorem sandImm (d a : SReg) (i : BitVec 13) : Statement (.sandImm d a i) := by
  have key {w : Nat} (e25_7 : fld w 25 7 = 4) (s13 : sreg w 13 = a) (s19 : sreg w 19 = d) (b13 : BitVec.ofNat 13 w = i) :
      decodeScalarRaw w 0 = .ok (.sandImm d a i) := by
    have q0 : decodeScalarRaw w 0 = (.ok (.sandImm (sreg w 19) (sreg w 13) (BitVec.ofNat 13 w))) := by
      unfold decodeScalarRaw; rw [e25_7]; rfl
    rw [q0]
    simp only [e25_7, s13, s19, b13, finOfNat_val, zeroed_zero, Dec.bind_ok, if_true, if_false, Bool.false_eq_true]
  have := d.isLt
  have := a.isLt
  have := i.isLt
  refine short (w := formB 0x04 d.val a.val i) rfl rfl (by simp only [formB] <;> omega) fun _ => key ?_ ?_ ?_ ?_
  · simp only [fld, formB] <;> omega
  · refine finOf_fld ?_; simp only [fld, formB] <;> omega
  · refine finOf_fld ?_; simp only [fld, formB] <;> omega
  · refine BitVec.eq_of_toNat_eq ?_; simp only [formB, BitVec.toNat_ofNat] <;> omega

theorem sorImm (d a : SReg) (i : BitVec 13) : Statement (.sorImm d a i) := by
  have key {w : Nat} (e25_7 : fld w 25 7 = 5) (s13 : sreg w 13 = a) (s19 : sreg w 19 = d) (b13 : BitVec.ofNat 13 w = i) :
      decodeScalarRaw w 0 = .ok (.sorImm d a i) := by
    have q0 : decodeScalarRaw w 0 = (.ok (.sorImm (sreg w 19) (sreg w 13) (BitVec.ofNat 13 w))) := by
      unfold decodeScalarRaw; rw [e25_7]; rfl
    rw [q0]
    simp only [e25_7, s13, s19, b13, finOfNat_val, zeroed_zero, Dec.bind_ok, if_true, if_false, Bool.false_eq_true]
  have := d.isLt
  have := a.isLt
  have := i.isLt
  refine short (w := formB 0x05 d.val a.val i) rfl rfl (by simp only [formB] <;> omega) fun _ => key ?_ ?_ ?_ ?_
  · simp only [fld, formB] <;> omega
  · refine finOf_fld ?_; simp only [fld, formB] <;> omega
  · refine finOf_fld ?_; simp only [fld, formB] <;> omega
  · refine BitVec.eq_of_toNat_eq ?_; simp only [formB, BitVec.toNat_ofNat] <;> omega

theorem sxorImm (d a : SReg) (i : BitVec 13) : Statement (.sxorImm d a i) := by
  have key {w : Nat} (e25_7 : fld w 25 7 = 6) (s13 : sreg w 13 = a) (s19 : sreg w 19 = d) (b13 : BitVec.ofNat 13 w = i) :
      decodeScalarRaw w 0 = .ok (.sxorImm d a i) := by
    have q0 : decodeScalarRaw w 0 = (.ok (.sxorImm (sreg w 19) (sreg w 13) (BitVec.ofNat 13 w))) := by
      unfold decodeScalarRaw; rw [e25_7]; rfl
    rw [q0]
    simp only [e25_7, s13, s19, b13, finOfNat_val, zeroed_zero, Dec.bind_ok, if_true, if_false, Bool.false_eq_true]
  have := d.isLt
  have := a.isLt
  have := i.isLt
  refine short (w := formB 0x06 d.val a.val i) rfl rfl (by simp only [formB] <;> omega) fun _ => key ?_ ?_ ?_ ?_
  · simp only [fld, formB] <;> omega
  · refine finOf_fld ?_; simp only [fld, formB] <;> omega
  · refine finOf_fld ?_; simp only [fld, formB] <;> omega
  · refine BitVec.eq_of_toNat_eq ?_; simp only [formB, BitVec.toNat_ofNat] <;> omega

theorem sshlImm (d a : SReg) (i : BitVec 13) : Statement (.sshlImm d a i) := by
  have key {w : Nat} (e25_7 : fld w 25 7 = 7) (s13 : sreg w 13 = a) (s19 : sreg w 19 = d) (b13 : BitVec.ofNat 13 w = i) :
      decodeScalarRaw w 0 = .ok (.sshlImm d a i) := by
    have q0 : decodeScalarRaw w 0 = (.ok (.sshlImm (sreg w 19) (sreg w 13) (BitVec.ofNat 13 w))) := by
      unfold decodeScalarRaw; rw [e25_7]; rfl
    rw [q0]
    simp only [e25_7, s13, s19, b13, finOfNat_val, zeroed_zero, Dec.bind_ok, if_true, if_false, Bool.false_eq_true]
  have := d.isLt
  have := a.isLt
  have := i.isLt
  refine short (w := formB 0x07 d.val a.val i) rfl rfl (by simp only [formB] <;> omega) fun _ => key ?_ ?_ ?_ ?_
  · simp only [fld, formB] <;> omega
  · refine finOf_fld ?_; simp only [fld, formB] <;> omega
  · refine finOf_fld ?_; simp only [fld, formB] <;> omega
  · refine BitVec.eq_of_toNat_eq ?_; simp only [formB, BitVec.toNat_ofNat] <;> omega

theorem sshrImm (d a : SReg) (i : BitVec 13) : Statement (.sshrImm d a i) := by
  have key {w : Nat} (e25_7 : fld w 25 7 = 8) (s13 : sreg w 13 = a) (s19 : sreg w 19 = d) (b13 : BitVec.ofNat 13 w = i) :
      decodeScalarRaw w 0 = .ok (.sshrImm d a i) := by
    have q0 : decodeScalarRaw w 0 = (.ok (.sshrImm (sreg w 19) (sreg w 13) (BitVec.ofNat 13 w))) := by
      unfold decodeScalarRaw; rw [e25_7]; rfl
    rw [q0]
    simp only [e25_7, s13, s19, b13, finOfNat_val, zeroed_zero, Dec.bind_ok, if_true, if_false, Bool.false_eq_true]
  have := d.isLt
  have := a.isLt
  have := i.isLt
  refine short (w := formB 0x08 d.val a.val i) rfl rfl (by simp only [formB] <;> omega) fun _ => key ?_ ?_ ?_ ?_
  · simp only [fld, formB] <;> omega
  · refine finOf_fld ?_; simp only [fld, formB] <;> omega
  · refine finOf_fld ?_; simp only [fld, formB] <;> omega
  · refine BitVec.eq_of_toNat_eq ?_; simp only [formB, BitVec.toNat_ofNat] <;> omega

theorem ssraImm (d a : SReg) (i : BitVec 13) : Statement (.ssraImm d a i) := by
  have key {w : Nat} (e25_7 : fld w 25 7 = 9) (s13 : sreg w 13 = a) (s19 : sreg w 19 = d) (b13 : BitVec.ofNat 13 w = i) :
      decodeScalarRaw w 0 = .ok (.ssraImm d a i) := by
    have q0 : decodeScalarRaw w 0 = (.ok (.ssraImm (sreg w 19) (sreg w 13) (BitVec.ofNat 13 w))) := by
      unfold decodeScalarRaw; rw [e25_7]; rfl
    rw [q0]
    simp only [e25_7, s13, s19, b13, finOfNat_val, zeroed_zero, Dec.bind_ok, if_true, if_false, Bool.false_eq_true]
  have := d.isLt
  have := a.isLt
  have := i.isLt
  refine short (w := formB 0x09 d.val a.val i) rfl rfl (by simp only [formB] <;> omega) fun _ => key ?_ ?_ ?_ ?_
  · simp only [fld, formB] <;> omega
  · refine finOf_fld ?_; simp only [fld, formB] <;> omega
  · refine finOf_fld ?_; simp only [fld, formB] <;> omega
  · refine BitVec.eq_of_toNat_eq ?_; simp only [formB, BitVec.toNat_ofNat] <;> omega

theorem sminImm (d a : SReg) (i : BitVec 13) : Statement (.sminImm d a i) := by
  have key {w : Nat} (e25_7 : fld w 25 7 = 10) (s13 : sreg w 13 = a) (s19 : sreg w 19 = d) (b13 : BitVec.ofNat 13 w = i) :
      decodeScalarRaw w 0 = .ok (.sminImm d a i) := by
    have q0 : decodeScalarRaw w 0 = (.ok (.sminImm (sreg w 19) (sreg w 13) (BitVec.ofNat 13 w))) := by
      unfold decodeScalarRaw; rw [e25_7]; rfl
    rw [q0]
    simp only [e25_7, s13, s19, b13, finOfNat_val, zeroed_zero, Dec.bind_ok, if_true, if_false, Bool.false_eq_true]
  have := d.isLt
  have := a.isLt
  have := i.isLt
  refine short (w := formB 0x0A d.val a.val i) rfl rfl (by simp only [formB] <;> omega) fun _ => key ?_ ?_ ?_ ?_
  · simp only [fld, formB] <;> omega
  · refine finOf_fld ?_; simp only [fld, formB] <;> omega
  · refine finOf_fld ?_; simp only [fld, formB] <;> omega
  · refine BitVec.eq_of_toNat_eq ?_; simp only [formB, BitVec.toNat_ofNat] <;> omega

theorem smaxImm (d a : SReg) (i : BitVec 13) : Statement (.smaxImm d a i) := by
  have key {w : Nat} (e25_7 : fld w 25 7 = 11) (s13 : sreg w 13 = a) (s19 : sreg w 19 = d) (b13 : BitVec.ofNat 13 w = i) :
      decodeScalarRaw w 0 = .ok (.smaxImm d a i) := by
    have q0 : decodeScalarRaw w 0 = (.ok (.smaxImm (sreg w 19) (sreg w 13) (BitVec.ofNat 13 w))) := by
      unfold decodeScalarRaw; rw [e25_7]; rfl
    rw [q0]
    simp only [e25_7, s13, s19, b13, finOfNat_val, zeroed_zero, Dec.bind_ok, if_true, if_false, Bool.false_eq_true]
  have := d.isLt
  have := a.isLt
  have := i.isLt
  refine short (w := formB 0x0B d.val a.val i) rfl rfl (by simp only [formB] <;> omega) fun _ => key ?_ ?_ ?_ ?_
  · simp only [fld, formB] <;> omega
  · refine finOf_fld ?_; simp only [fld, formB] <;> omega
  · refine finOf_fld ?_; simp only [fld, formB] <;> omega
  · refine BitVec.eq_of_toNat_eq ?_; simp only [formB, BitVec.toNat_ofNat] <;> omega

theorem scmpImm (c : Cond) (k : KReg) (a : SReg) (i : BitVec 13) : Statement (.scmpImm c k a i) := by
  have key {w : Nat} (e19_2 : fld w 19 2 = k.val) (e21_1 : fld w 21 1 = 0) (e22_3 : fld w 22 3 = c.code) (e25_7 : fld w 25 7 = 12) (s13 : sreg w 13 = a) (b13 : BitVec.ofNat 13 w = i) :
      decodeScalarRaw w 0 = .ok (.scmpImm c k a i) := by
    have q0 : decodeScalarRaw w 0 = (do
    zeroed (fld w 21 1)
    let c ← Cond.ofCode (fld w 22 3)
    .ok (.scmpImm c (Fin.ofNat 4 (fld w 19 2)) (sreg w 13) (BitVec.ofNat 13 w))) := by
      unfold decodeScalarRaw; rw [e25_7]; rfl
    rw [q0]
    simp only [e19_2, e21_1, e22_3, e25_7, s13, b13, Cond.ofCode_code, finOfNat_val, zeroed_zero, Dec.bind_ok, if_true, if_false, Bool.false_eq_true]
  have := c.code_lt
  have := k.isLt
  have := a.isLt
  have := i.isLt
  refine short (w := formB 0x0C (scmpField c k) a.val i) rfl rfl (by simp only [formB, scmpField] <;> omega) fun _ => key ?_ ?_ ?_ ?_ ?_ ?_
  · simp only [fld, formB, scmpField] <;> omega
  · simp only [fld, formB, scmpField] <;> omega
  · simp only [fld, formB, scmpField] <;> omega
  · simp only [fld, formB, scmpField] <;> omega
  · refine finOf_fld ?_; simp only [fld, formB, scmpField] <;> omega
  · refine BitVec.eq_of_toNat_eq ?_; simp only [formB, scmpField, BitVec.toNat_ofNat] <;> omega

theorem sleaImm (d : SReg) (i : BitVec 13) : Statement (.sleaImm d i) := by
  have key {w : Nat} (e13_6 : fld w 13 6 = 0) (e25_7 : fld w 25 7 = 13) (s19 : sreg w 19 = d) (b13 : BitVec.ofNat 13 w = i) :
      decodeScalarRaw w 0 = .ok (.sleaImm d i) := by
    have q0 : decodeScalarRaw w 0 = ((do zeroed (fld w 13 6); (.ok (.sleaImm (sreg w 19) (BitVec.ofNat 13 w))))) := by
      unfold decodeScalarRaw; rw [e25_7]; rfl
    rw [q0]
    simp only [e13_6, e25_7, s19, b13, finOfNat_val, zeroed_zero, Dec.bind_ok, if_true, if_false, Bool.false_eq_true]
  have := d.isLt
  have := i.isLt
  refine short (w := formB 0x0D d.val 0 i) rfl rfl (by simp only [formB] <;> omega) fun _ => key ?_ ?_ ?_ ?_
  · simp only [fld, formB] <;> omega
  · simp only [fld, formB] <;> omega
  · refine finOf_fld ?_; simp only [fld, formB] <;> omega
  · refine BitVec.eq_of_toNat_eq ?_; simp only [formB, BitVec.toNat_ofNat] <;> omega

theorem smovi (d : SReg) (i : BitVec 13) : Statement (.smovi d i) := by
  have key {w : Nat} (e13_6 : fld w 13 6 = 0) (e25_7 : fld w 25 7 = 14) (s19 : sreg w 19 = d) (b13 : BitVec.ofNat 13 w = i) :
      decodeScalarRaw w 0 = .ok (.smovi d i) := by
    have q0 : decodeScalarRaw w 0 = ((do zeroed (fld w 13 6); (.ok (.smovi (sreg w 19) (BitVec.ofNat 13 w))))) := by
      unfold decodeScalarRaw; rw [e25_7]; rfl
    rw [q0]
    simp only [e13_6, e25_7, s19, b13, finOfNat_val, zeroed_zero, Dec.bind_ok, if_true, if_false, Bool.false_eq_true]
  have := d.isLt
  have := i.isLt
  refine short (w := formB 0x0E d.val 0 i) rfl rfl (by simp only [formB] <;> omega) fun _ => key ?_ ?_ ?_ ?_
  · simp only [fld, formB] <;> omega
  · simp only [fld, formB] <;> omega
  · refine finOf_fld ?_; simp only [fld, formB] <;> omega
  · refine BitVec.eq_of_toNat_eq ?_; simp only [formB, BitVec.toNat_ofNat] <;> omega

theorem smovh (d : SReg) (i : BitVec 13) : Statement (.smovh d i) := by
  have key {w : Nat} (e13_6 : fld w 13 6 = 0) (e25_7 : fld w 25 7 = 15) (s19 : sreg w 19 = d) (b13 : BitVec.ofNat 13 w = i) :
      decodeScalarRaw w 0 = .ok (.smovh d i) := by
    have q0 : decodeScalarRaw w 0 = ((do zeroed (fld w 13 6); (.ok (.smovh (sreg w 19) (BitVec.ofNat 13 w))))) := by
      unfold decodeScalarRaw; rw [e25_7]; rfl
    rw [q0]
    simp only [e13_6, e25_7, s19, b13, finOfNat_val, zeroed_zero, Dec.bind_ok, if_true, if_false, Bool.false_eq_true]
  have := d.isLt
  have := i.isLt
  refine short (w := formB 0x0F d.val 0 i) rfl rfl (by simp only [formB] <;> omega) fun _ => key ?_ ?_ ?_ ?_
  · simp only [fld, formB] <;> omega
  · simp only [fld, formB] <;> omega
  · refine finOf_fld ?_; simp only [fld, formB] <;> omega
  · refine BitVec.eq_of_toNat_eq ?_; simp only [formB, BitVec.toNat_ofNat] <;> omega

theorem smoviLong (d : SReg) (i : W32) : Statement (.smoviLong d i) := by
  have key {w w1 : Nat} (e0_3 : fld w 0 3 = 0) (e13_6 : fld w 13 6 = 0) (e25_7 : fld w 25 7 = 123) (e3_4 : fld w 3 4 = 0) (e7_6 : fld w 7 6 = 0) (s19 : sreg w 19 = d) (b32 : BitVec.ofNat 32 w1 = i) :
      decodeScalarRaw w w1 = .ok (.smoviLong d i) := by
    have q0 : decodeScalarRaw w w1 = (decodeSimm w w1) := by
      unfold decodeScalarRaw; rw [e25_7]; rfl
    have q1 : decodeSimm w w1 = (do zeroed (fld w 7 6); zeroed (fld w 3 4); (do zeroed (fld w 13 6); .ok (.smoviLong (sreg w 19) (BitVec.ofNat 32 w1)))) := by
      unfold decodeSimm; rw [e0_3]; rfl
    rw [q0, q1]
    simp only [e0_3, e13_6, e25_7, e3_4, e7_6, s19, b32, finOfNat_val, zeroed_zero, Dec.bind_ok, if_true, if_false, Bool.false_eq_true]
  have := d.isLt
  have := i.isLt
  refine long (w := formA 0x7B d.val 0 0 0) (w1 := i.toNat) rfl rfl (by simp only [formA] <;> omega) (by omega) fun _ => key ?_ ?_ ?_ ?_ ?_ ?_ ?_
  · simp only [fld, formA] <;> omega
  · simp only [fld, formA] <;> omega
  · simp only [fld, formA] <;> omega
  · simp only [fld, formA] <;> omega
  · simp only [fld, formA] <;> omega
  · refine finOf_fld ?_; simp only [fld, formA] <;> omega
  · refine BitVec.eq_of_toNat_eq ?_; simp only [BitVec.toNat_ofNat] <;> omega

theorem smovhLong (d : SReg) (i : W32) : Statement (.smovhLong d i) := by
  have key {w w1 : Nat} (e0_3 : fld w 0 3 = 1) (e13_6 : fld w 13 6 = 0) (e25_7 : fld w 25 7 = 123) (e3_4 : fld w 3 4 = 0) (e7_6 : fld w 7 6 = 0) (s19 : sreg w 19 = d) (b32 : BitVec.ofNat 32 w1 = i) :
      decodeScalarRaw w w1 = .ok (.smovhLong d i) := by
    have q0 : decodeScalarRaw w w1 = (decodeSimm w w1) := by
      unfold decodeScalarRaw; rw [e25_7]; rfl
    have q1 : decodeSimm w w1 = (do zeroed (fld w 7 6); zeroed (fld w 3 4); (do zeroed (fld w 13 6); .ok (.smovhLong (sreg w 19) (BitVec.ofNat 32 w1)))) := by
      unfold decodeSimm; rw [e0_3]; rfl
    rw [q0, q1]
    simp only [e0_3, e13_6, e25_7, e3_4, e7_6, s19, b32, finOfNat_val, zeroed_zero, Dec.bind_ok, if_true, if_false, Bool.false_eq_true]
  have := d.isLt
  have := i.isLt
  refine long (w := formA 0x7B d.val 0 0 1) (w1 := i.toNat) rfl rfl (by simp only [formA] <;> omega) (by omega) fun _ => key ?_ ?_ ?_ ?_ ?_ ?_ ?_
  · simp only [fld, formA] <;> omega
  · simp only [fld, formA] <;> omega
  · simp only [fld, formA] <;> omega
  · simp only [fld, formA] <;> omega
  · simp only [fld, formA] <;> omega
  · refine finOf_fld ?_; simp only [fld, formA] <;> omega
  · refine BitVec.eq_of_toNat_eq ?_; simp only [BitVec.toNat_ofNat] <;> omega

theorem saddLong (d a : SReg) (i : W32) : Statement (.saddLong d a i) := by
  have key {w w1 : Nat} (e0_3 : fld w 0 3 = 2) (e25_7 : fld w 25 7 = 123) (e3_4 : fld w 3 4 = 0) (e7_6 : fld w 7 6 = 0) (s13 : sreg w 13 = a) (s19 : sreg w 19 = d) (b32 : BitVec.ofNat 32 w1 = i) :
      decodeScalarRaw w w1 = .ok (.saddLong d a i) := by
    have q0 : decodeScalarRaw w w1 = (decodeSimm w w1) := by
      unfold decodeScalarRaw; rw [e25_7]; rfl
    have q1 : decodeSimm w w1 = (do zeroed (fld w 7 6); zeroed (fld w 3 4); (.ok (.saddLong (sreg w 19) (sreg w 13) (BitVec.ofNat 32 w1)))) := by
      unfold decodeSimm; rw [e0_3]; rfl
    rw [q0, q1]
    simp only [e0_3, e25_7, e3_4, e7_6, s13, s19, b32, finOfNat_val, zeroed_zero, Dec.bind_ok, if_true, if_false, Bool.false_eq_true]
  have := d.isLt
  have := a.isLt
  have := i.isLt
  refine long (w := formA 0x7B d.val a.val 0 2) (w1 := i.toNat) rfl rfl (by simp only [formA] <;> omega) (by omega) fun _ => key ?_ ?_ ?_ ?_ ?_ ?_ ?_
  · simp only [fld, formA] <;> omega
  · simp only [fld, formA] <;> omega
  · simp only [fld, formA] <;> omega
  · simp only [fld, formA] <;> omega
  · refine finOf_fld ?_; simp only [fld, formA] <;> omega
  · refine finOf_fld ?_; simp only [fld, formA] <;> omega
  · refine BitVec.eq_of_toNat_eq ?_; simp only [BitVec.toNat_ofNat] <;> omega

theorem sandLong (d a : SReg) (i : W32) : Statement (.sandLong d a i) := by
  have key {w w1 : Nat} (e0_3 : fld w 0 3 = 3) (e25_7 : fld w 25 7 = 123) (e3_4 : fld w 3 4 = 0) (e7_6 : fld w 7 6 = 0) (s13 : sreg w 13 = a) (s19 : sreg w 19 = d) (b32 : BitVec.ofNat 32 w1 = i) :
      decodeScalarRaw w w1 = .ok (.sandLong d a i) := by
    have q0 : decodeScalarRaw w w1 = (decodeSimm w w1) := by
      unfold decodeScalarRaw; rw [e25_7]; rfl
    have q1 : decodeSimm w w1 = (do zeroed (fld w 7 6); zeroed (fld w 3 4); (.ok (.sandLong (sreg w 19) (sreg w 13) (BitVec.ofNat 32 w1)))) := by
      unfold decodeSimm; rw [e0_3]; rfl
    rw [q0, q1]
    simp only [e0_3, e25_7, e3_4, e7_6, s13, s19, b32, finOfNat_val, zeroed_zero, Dec.bind_ok, if_true, if_false, Bool.false_eq_true]
  have := d.isLt
  have := a.isLt
  have := i.isLt
  refine long (w := formA 0x7B d.val a.val 0 3) (w1 := i.toNat) rfl rfl (by simp only [formA] <;> omega) (by omega) fun _ => key ?_ ?_ ?_ ?_ ?_ ?_ ?_
  · simp only [fld, formA] <;> omega
  · simp only [fld, formA] <;> omega
  · simp only [fld, formA] <;> omega
  · simp only [fld, formA] <;> omega
  · refine finOf_fld ?_; simp only [fld, formA] <;> omega
  · refine finOf_fld ?_; simp only [fld, formA] <;> omega
  · refine BitVec.eq_of_toNat_eq ?_; simp only [BitVec.toNat_ofNat] <;> omega

theorem sorLong (d a : SReg) (i : W32) : Statement (.sorLong d a i) := by
  have key {w w1 : Nat} (e0_3 : fld w 0 3 = 4) (e25_7 : fld w 25 7 = 123) (e3_4 : fld w 3 4 = 0) (e7_6 : fld w 7 6 = 0) (s13 : sreg w 13 = a) (s19 : sreg w 19 = d) (b32 : BitVec.ofNat 32 w1 = i) :
      decodeScalarRaw w w1 = .ok (.sorLong d a i) := by
    have q0 : decodeScalarRaw w w1 = (decodeSimm w w1) := by
      unfold decodeScalarRaw; rw [e25_7]; rfl
    have q1 : decodeSimm w w1 = (do zeroed (fld w 7 6); zeroed (fld w 3 4); (.ok (.sorLong (sreg w 19) (sreg w 13) (BitVec.ofNat 32 w1)))) := by
      unfold decodeSimm; rw [e0_3]; rfl
    rw [q0, q1]
    simp only [e0_3, e25_7, e3_4, e7_6, s13, s19, b32, finOfNat_val, zeroed_zero, Dec.bind_ok, if_true, if_false, Bool.false_eq_true]
  have := d.isLt
  have := a.isLt
  have := i.isLt
  refine long (w := formA 0x7B d.val a.val 0 4) (w1 := i.toNat) rfl rfl (by simp only [formA] <;> omega) (by omega) fun _ => key ?_ ?_ ?_ ?_ ?_ ?_ ?_
  · simp only [fld, formA] <;> omega
  · simp only [fld, formA] <;> omega
  · simp only [fld, formA] <;> omega
  · simp only [fld, formA] <;> omega
  · refine finOf_fld ?_; simp only [fld, formA] <;> omega
  · refine finOf_fld ?_; simp only [fld, formA] <;> omega
  · refine BitVec.eq_of_toNat_eq ?_; simp only [BitVec.toNat_ofNat] <;> omega

theorem sxorLong (d a : SReg) (i : W32) : Statement (.sxorLong d a i) := by
  have key {w w1 : Nat} (e0_3 : fld w 0 3 = 5) (e25_7 : fld w 25 7 = 123) (e3_4 : fld w 3 4 = 0) (e7_6 : fld w 7 6 = 0) (s13 : sreg w 13 = a) (s19 : sreg w 19 = d) (b32 : BitVec.ofNat 32 w1 = i) :
      decodeScalarRaw w w1 = .ok (.sxorLong d a i) := by
    have q0 : decodeScalarRaw w w1 = (decodeSimm w w1) := by
      unfold decodeScalarRaw; rw [e25_7]; rfl
    have q1 : decodeSimm w w1 = (do zeroed (fld w 7 6); zeroed (fld w 3 4); (.ok (.sxorLong (sreg w 19) (sreg w 13) (BitVec.ofNat 32 w1)))) := by
      unfold decodeSimm; rw [e0_3]; rfl
    rw [q0, q1]
    simp only [e0_3, e25_7, e3_4, e7_6, s13, s19, b32, finOfNat_val, zeroed_zero, Dec.bind_ok, if_true, if_false, Bool.false_eq_true]
  have := d.isLt
  have := a.isLt
  have := i.isLt
  refine long (w := formA 0x7B d.val a.val 0 5) (w1 := i.toNat) rfl rfl (by simp only [formA] <;> omega) (by omega) fun _ => key ?_ ?_ ?_ ?_ ?_ ?_ ?_
  · simp only [fld, formA] <;> omega
  · simp only [fld, formA] <;> omega
  · simp only [fld, formA] <;> omega
  · simp only [fld, formA] <;> omega
  · refine finOf_fld ?_; simp only [fld, formA] <;> omega
  · refine finOf_fld ?_; simp only [fld, formA] <;> omega
  · refine BitVec.eq_of_toNat_eq ?_; simp only [BitVec.toNat_ofNat] <;> omega

theorem sb (off : BitVec 22) : Statement (.sb off) := by
  have key {w : Nat} (e22_3 : fld w 22 3 = 0) (e25_7 : fld w 25 7 = 16) (b22 : BitVec.ofNat 22 w = off) :
      decodeScalarRaw w 0 = .ok (.sb off) := by
    have q0 : decodeScalarRaw w 0 = (do zeroed (fld w 22 3); .ok (.sb (BitVec.ofNat 22 w))) := by
      unfold decodeScalarRaw; rw [e25_7]; rfl
    rw [q0]
    simp only [e22_3, e25_7, b22, finOfNat_val, zeroed_zero, Dec.bind_ok, if_true, if_false, Bool.false_eq_true]
  have := off.isLt
  refine short (w := formC 0x10 0 0 off) rfl rfl (by simp only [formC] <;> omega) fun _ => key ?_ ?_ ?_
  · simp only [fld, formC] <;> omega
  · simp only [fld, formC] <;> omega
  · refine BitVec.eq_of_toNat_eq ?_; simp only [formC, BitVec.toNat_ofNat] <;> omega

theorem sbk (k : KReg) (sense : Bool) (off : BitVec 22) : Statement (.sbk k sense off) := by
  have key {w : Nat} (e23_2 : fld w 23 2 = k.val) (e25_7 : fld w 25 7 = 17) (g22 : flag w 22 = sense) (b22 : BitVec.ofNat 22 w = off) :
      decodeScalarRaw w 0 = .ok (.sbk k sense off) := by
    have q0 : decodeScalarRaw w 0 = (.ok (.sbk (Fin.ofNat 4 (fld w 23 2)) (flag w 22) (BitVec.ofNat 22 w))) := by
      unfold decodeScalarRaw; rw [e25_7]; rfl
    rw [q0]
    simp only [e23_2, e25_7, g22, b22, finOfNat_val, zeroed_zero, Dec.bind_ok, if_true, if_false, Bool.false_eq_true]
  have := k.isLt
  have := bit_lt sense
  have := off.isLt
  refine short (w := formC 0x11 k.val (bit sense) off) rfl rfl (by simp only [formC] <;> omega) fun _ => key ?_ ?_ ?_ ?_
  · simp only [fld, formC] <;> omega
  · simp only [fld, formC] <;> omega
  · refine flag_of_fld ?_; simp only [fld, formC] <;> omega
  · refine BitVec.eq_of_toNat_eq ?_; simp only [formC, BitVec.toNat_ofNat] <;> omega

theorem scall (off : BitVec 22) : Statement (.scall off) := by
  have key {w : Nat} (e22_3 : fld w 22 3 = 0) (e25_7 : fld w 25 7 = 18) (b22 : BitVec.ofNat 22 w = off) :
      decodeScalarRaw w 0 = .ok (.scall off) := by
    have q0 : decodeScalarRaw w 0 = (do zeroed (fld w 22 3); .ok (.scall (BitVec.ofNat 22 w))) := by
      unfold decodeScalarRaw; rw [e25_7]; rfl
    rw [q0]
    simp only [e22_3, e25_7, b22, finOfNat_val, zeroed_zero, Dec.bind_ok, if_true, if_false, Bool.false_eq_true]
  have := off.isLt
  refine short (w := formC 0x12 0 0 off) rfl rfl (by simp only [formC] <;> omega) fun _ => key ?_ ?_ ?_
  · simp only [fld, formC] <;> omega
  · simp only [fld, formC] <;> omega
  · refine BitVec.eq_of_toNat_eq ?_; simp only [formC, BitVec.toNat_ofNat] <;> omega

theorem sret (a : SReg) : Statement (.sret a) := by
  have key {w : Nat} (e0_7 : fld w 0 7 = 0) (e19_6 : fld w 19 6 = 0) (e25_7 : fld w 25 7 = 19) (e7_6 : fld w 7 6 = 0) (s13 : sreg w 13 = a) :
      decodeScalarRaw w 0 = .ok (.sret a) := by
    have q0 : decodeScalarRaw w 0 = ((do zeroed (fld w 19 6); ((do zeroed (fld w 7 6); ((do zeroed (fld w 0 7); (.ok (.sret (sreg w 13))))))))) := by
      unfold decodeScalarRaw; rw [e25_7]; rfl
    rw [q0]
    simp only [e0_7, e19_6, e25_7, e7_6, s13, finOfNat_val, zeroed_zero, Dec.bind_ok, if_true, if_false, Bool.false_eq_true]
  have := a.isLt
  refine short (w := formA 0x13 0 a.val 0 0) rfl rfl (by simp only [formA] <;> omega) fun _ => key ?_ ?_ ?_ ?_ ?_
  · simp only [fld, formA] <;> omega
  · simp only [fld, formA] <;> omega
  · simp only [fld, formA] <;> omega
  · simp only [fld, formA] <;> omega
  · refine finOf_fld ?_; simp only [fld, formA] <;> omega

theorem sjmpr (a : SReg) : Statement (.sjmpr a) := by
  have key {w : Nat} (e1_6 : fld w 1 6 = 0) (e19_6 : fld w 19 6 = 0) (e25_7 : fld w 25 7 = 20) (e7_6 : fld w 7 6 = 0) (g0 : flag w 0 = false) (s13 : sreg w 13 = a) (s19 : sreg w 19 = 0) :
      decodeScalarRaw w 0 = .ok (.sjmpr a) := by
    have q0 : decodeScalarRaw w 0 = (do
    zeroed (fld w 7 6)
    zeroed (fld w 1 6)
    if flag w 0 then .ok (.sjmprL (sreg w 19) (sreg w 13)) else (do zeroed (fld w 19 6); (.ok (.sjmpr (sreg w 13))))) := by
      unfold decodeScalarRaw; rw [e25_7]; rfl
    rw [q0]
    simp only [e1_6, e19_6, e25_7, e7_6, g0, s13, s19, finOfNat_val, zeroed_zero, Dec.bind_ok, if_true, if_false, Bool.false_eq_true]
  have := a.isLt
  refine short (w := formA 0x14 0 a.val 0 0) rfl rfl (by simp only [formA] <;> omega) fun _ => key ?_ ?_ ?_ ?_ ?_ ?_ ?_
  · simp only [fld, formA] <;> omega
  · simp only [fld, formA] <;> omega
  · simp only [fld, formA] <;> omega
  · simp only [fld, formA] <;> omega
  · refine flag_of_fld ?_; show _ = 0; simp only [fld, formA] <;> omega
  · refine finOf_fld ?_; simp only [fld, formA] <;> omega
  · refine finOf_fld ?_; show _ = 0; simp only [fld, formA] <;> omega

theorem sjmprL (d a : SReg) : Statement (.sjmprL d a) := by
  have key {w : Nat} (e1_6 : fld w 1 6 = 0) (e19_6 : fld w 19 6 = d.val) (e25_7 : fld w 25 7 = 20) (e7_6 : fld w 7 6 = 0) (g0 : flag w 0 = true) (s13 : sreg w 13 = a) (s19 : sreg w 19 = d) :
      decodeScalarRaw w 0 = .ok (.sjmprL d a) := by
    have q0 : decodeScalarRaw w 0 = (do
    zeroed (fld w 7 6)
    zeroed (fld w 1 6)
    if flag w 0 then .ok (.sjmprL (sreg w 19) (sreg w 13)) else (do zeroed (fld w 19 6); (.ok (.sjmpr (sreg w 13))))) := by
      unfold decodeScalarRaw; rw [e25_7]; rfl
    rw [q0]
    simp only [e1_6, e19_6, e25_7, e7_6, g0, s13, s19, finOfNat_val, zeroed_zero, Dec.bind_ok, if_true, if_false, Bool.false_eq_true]
  have := d.isLt
  have := a.isLt
  refine short (w := formA 0x14 d.val a.val 0 1) rfl rfl (by simp only [formA] <;> omega) fun _ => key ?_ ?_ ?_ ?_ ?_ ?_ ?_
  · simp only [fld, formA] <;> omega
  · simp only [fld, formA] <;> omega
  · simp only [fld, formA] <;> omega
  · simp only [fld, formA] <;> omega
  · refine flag_of_fld ?_; show _ = 1; simp only [fld, formA] <;> omega
  · refine finOf_fld ?_; simp only [fld, formA] <;> omega
  · refine finOf_fld ?_; simp only [fld, formA] <;> omega

theorem sloop (a : SReg) (n : BitVec 13) : Statement (.sloop a n) := by
  have key {w : Nat} (e19_6 : fld w 19 6 = 0) (e25_7 : fld w 25 7 = 21) (s13 : sreg w 13 = a) (b13 : BitVec.ofNat 13 w = n) :
      decodeScalarRaw w 0 = .ok (.sloop a n) := by
    have q0 : decodeScalarRaw w 0 = ((do zeroed (fld w 19 6); (.ok (.sloop (sreg w 13) (BitVec.ofNat 13 w))))) := by
      unfold decodeScalarRaw; rw [e25_7]; rfl
    rw [q0]
    simp only [e19_6, e25_7, s13, b13, finOfNat_val, zeroed_zero, Dec.bind_ok, if_true, if_false, Bool.false_eq_true]
  have := a.isLt
  have := n.isLt
  refine short (w := formB 0x15 0 a.val n) rfl rfl (by simp only [formB] <;> omega) fun _ => key ?_ ?_ ?_ ?_
  · simp only [fld, formB] <;> omega
  · simp only [fld, formB] <;> omega
  · refine finOf_fld ?_; simp only [fld, formB] <;> omega
  · refine BitVec.eq_of_toNat_eq ?_; simp only [formB, BitVec.toNat_ofNat] <;> omega

theorem sexit : Statement (.sexit) := by
  have key {w : Nat} (e0_25 : fld w 0 25 = 0) (e25_7 : fld w 25 7 = 22) :
      decodeScalarRaw w 0 = .ok (.sexit) := by
    have q0 : decodeScalarRaw w 0 = (do zeroed (fld w 0 25); .ok .sexit) := by
      unfold decodeScalarRaw; rw [e25_7]; rfl
    rw [q0]
    simp only [e0_25, e25_7, finOfNat_val, zeroed_zero, Dec.bind_ok, if_true, if_false, Bool.false_eq_true]
  refine short (w := formA 0x16 0 0 0 0) rfl rfl (by simp only [formA] <;> omega) fun _ => key ?_ ?_
  · simp only [fld, formA] <;> omega
  · simp only [fld, formA] <;> omega

theorem snop : Statement (.snop) := by
  have key {w : Nat} (e0_25 : fld w 0 25 = 0) (e25_7 : fld w 25 7 = 23) :
      decodeScalarRaw w 0 = .ok (.snop) := by
    have q0 : decodeScalarRaw w 0 = (do zeroed (fld w 0 25); .ok .snop) := by
      unfold decodeScalarRaw; rw [e25_7]; rfl
    rw [q0]
    simp only [e0_25, e25_7, finOfNat_val, zeroed_zero, Dec.bind_ok, if_true, if_false, Bool.false_eq_true]
  refine short (w := formA 0x17 0 0 0 0) rfl rfl (by simp only [formA] <;> omega) fun _ => key ?_ ?_
  · simp only [fld, formA] <;> omega
  · simp only [fld, formA] <;> omega

theorem sld (d a : SReg) (i : BitVec 13) : Statement (.sld d a i) := by
  have key {w : Nat} (e25_7 : fld w 25 7 = 24) (s13 : sreg w 13 = a) (s19 : sreg w 19 = d) (b13 : BitVec.ofNat 13 w = i) :
      decodeScalarRaw w 0 = .ok (.sld d a i) := by
    have q0 : decodeScalarRaw w 0 = (.ok (.sld (sreg w 19) (sreg w 13) (BitVec.ofNat 13 w))) := by
      unfold decodeScalarRaw; rw [e25_7]; rfl
    rw [q0]
    simp only [e25_7, s13, s19, b13, finOfNat_val, zeroed_zero, Dec.bind_ok, if_true, if_false, Bool.false_eq_true]
  have := d.isLt
  have := a.isLt
  have := i.isLt
  refine short (w := formB 0x18 d.val a.val i) rfl rfl (by simp only [formB] <;> omega) fun _ => key ?_ ?_ ?_ ?_
  · simp only [fld, formB] <;> omega
  · refine finOf_fld ?_; simp only [fld, formB] <;> omega
  · refine finOf_fld ?_; simp only [fld, formB] <;> omega
  · refine BitVec.eq_of_toNat_eq ?_; simp only [formB, BitVec.toNat_ofNat] <;> omega

theorem sst (d a : SReg) (i : BitVec 13) : Statement (.sst d a i) := by
  have key {w : Nat} (e25_7 : fld w 25 7 = 25) (s13 : sreg w 13 = a) (s19 : sreg w 19 = d) (b13 : BitVec.ofNat 13 w = i) :
      decodeScalarRaw w 0 = .ok (.sst d a i) := by
    have q0 : decodeScalarRaw w 0 = (.ok (.sst (sreg w 19) (sreg w 13) (BitVec.ofNat 13 w))) := by
      unfold decodeScalarRaw; rw [e25_7]; rfl
    rw [q0]
    simp only [e25_7, s13, s19, b13, finOfNat_val, zeroed_zero, Dec.bind_ok, if_true, if_false, Bool.false_eq_true]
  have := d.isLt
  have := a.isLt
  have := i.isLt
  refine short (w := formB 0x19 d.val a.val i) rfl rfl (by simp only [formB] <;> omega) fun _ => key ?_ ?_ ?_ ?_
  · simp only [fld, formB] <;> omega
  · refine finOf_fld ?_; simp only [fld, formB] <;> omega
  · refine finOf_fld ?_; simp only [fld, formB] <;> omega
  · refine BitVec.eq_of_toNat_eq ?_; simp only [formB, BitVec.toNat_ofNat] <;> omega

theorem sldLong (sz : ScalarSize) (sgn : Bool) (d a : SReg) (i : W32) : Statement (.sldLong sz sgn d a i) := by
  have key {w w1 : Nat} (e0_3 : fld w 0 3 = 0) (e25_7 : fld w 25 7 = 124) (e3_1 : fld w 3 1 = 0) (e5_2 : fld w 5 2 = sz.code) (e7_6 : fld w 7 6 = 0) (g4 : flag w 4 = sgn) (s13 : sreg w 13 = a) (s19 : sreg w 19 = d) (b32 : BitVec.ofNat 32 w1 = i) :
      decodeScalarRaw w w1 = .ok (.sldLong sz sgn d a i) := by
    have q0 : decodeScalarRaw w w1 = (decodeSmem w w1) := by
      unfold decodeScalarRaw; rw [e25_7]; rfl
    have q1 : decodeSmem w w1 = (do
    zeroed (fld w 7 6)
    zeroed (fld w 3 1)
    let sz ← ScalarSize.ofCode (fld w 5 2)
    .ok (.sldLong sz (flag w 4) (sreg w 19) (sreg w 13) (BitVec.ofNat 32 w1))) := by
      unfold decodeSmem; rw [e0_3]; rfl
    rw [q0, q1]
    simp only [e0_3, e25_7, e3_1, e5_2, e7_6, g4, s13, s19, b32, ScalarSize.ofCode_code, finOfNat_val, zeroed_zero, Dec.bind_ok, if_true, if_false, Bool.false_eq_true]
  have := sz.code_lt
  have := bit_lt sgn
  have := d.isLt
  have := a.isLt
  have := i.isLt
  refine long (w := formA 0x7C d.val a.val 0 (sz.code * 32 + bit sgn * 16)) (w1 := i.toNat) rfl rfl (by simp only [formA] <;> omega) (by omega) fun _ => key ?_ ?_ ?_ ?_ ?_ ?_ ?_ ?_ ?_
  · simp only [fld, formA] <;> omega
  · simp only [fld, formA] <;> omega
  · simp only [fld, formA] <;> omega
  · simp only [fld, formA] <;> omega
  · simp only [fld, formA] <;> omega
  · refine flag_of_fld ?_; simp only [fld, formA] <;> omega
  · refine finOf_fld ?_; simp only [fld, formA] <;> omega
  · refine finOf_fld ?_; simp only [fld, formA] <;> omega
  · refine BitVec.eq_of_toNat_eq ?_; simp only [BitVec.toNat_ofNat] <;> omega

theorem sstLong (sz : ScalarSize) (d a : SReg) (i : W32) : Statement (.sstLong sz d a i) := by
  have key {w w1 : Nat} (e0_3 : fld w 0 3 = 1) (e25_7 : fld w 25 7 = 124) (e3_2 : fld w 3 2 = 0) (e5_2 : fld w 5 2 = sz.code) (e7_6 : fld w 7 6 = 0) (s13 : sreg w 13 = a) (s19 : sreg w 19 = d) (b32 : BitVec.ofNat 32 w1 = i) :
      decodeScalarRaw w w1 = .ok (.sstLong sz d a i) := by
    have q0 : decodeScalarRaw w w1 = (decodeSmem w w1) := by
      unfold decodeScalarRaw; rw [e25_7]; rfl
    have q1 : decodeSmem w w1 = (do
    zeroed (fld w 7 6)
    zeroed (fld w 3 2)
    let sz ← ScalarSize.ofCode (fld w 5 2)
    .ok (.sstLong sz (sreg w 19) (sreg w 13) (BitVec.ofNat 32 w1))) := by
      unfold decodeSmem; rw [e0_3]; rfl
    rw [q0, q1]
    simp only [e0_3, e25_7, e3_2, e5_2, e7_6, s13, s19, b32, ScalarSize.ofCode_code, finOfNat_val, zeroed_zero, Dec.bind_ok, if_true, if_false, Bool.false_eq_true]
  have := sz.code_lt
  have := d.isLt
  have := a.isLt
  have := i.isLt
  refine long (w := formA 0x7C d.val a.val 0 (sz.code * 32 + 1)) (w1 := i.toNat) rfl rfl (by simp only [formA] <;> omega) (by omega) fun _ => key ?_ ?_ ?_ ?_ ?_ ?_ ?_ ?_
  · simp only [fld, formA] <;> omega
  · simp only [fld, formA] <;> omega
  · simp only [fld, formA] <;> omega
  · simp only [fld, formA] <;> omega
  · simp only [fld, formA] <;> omega
  · refine finOf_fld ?_; simp only [fld, formA] <;> omega
  · refine finOf_fld ?_; simp only [fld, formA] <;> omega
  · refine BitVec.eq_of_toNat_eq ?_; simp only [BitVec.toNat_ofNat] <;> omega

theorem sldv (sc : Scope) (d a b : SReg) (i : W32) : Statement (.sldv sc d a b i) := by
  have key {w w1 : Nat} (e0_3 : fld w 0 3 = 2) (e25_7 : fld w 25 7 = 124) (e3_2 : fld w 3 2 = sc.code) (e5_2 : fld w 5 2 = 0) (s13 : sreg w 13 = a) (s19 : sreg w 19 = d) (s7 : sreg w 7 = b) (b32 : BitVec.ofNat 32 w1 = i) :
      decodeScalarRaw w w1 = .ok (.sldv sc d a b i) := by
    have q0 : decodeScalarRaw w w1 = (decodeSmem w w1) := by
      unfold decodeScalarRaw; rw [e25_7]; rfl
    have q1 : decodeSmem w w1 = (do
    zeroed (fld w 5 2)
    let sc ← Scope.ofCode (fld w 3 2)
    .ok (.sldv sc (sreg w 19) (sreg w 13) (sreg w 7) (BitVec.ofNat 32 w1))) := by
      unfold decodeSmem; rw [e0_3]; rfl
    rw [q0, q1]
    simp only [e0_3, e25_7, e3_2, e5_2, s13, s19, s7, b32, Scope.ofCode_code, finOfNat_val, zeroed_zero, Dec.bind_ok, if_true, if_false, Bool.false_eq_true]
  have := sc.code_lt
  have := d.isLt
  have := a.isLt
  have := b.isLt
  have := i.isLt
  refine long (w := formA 0x7C d.val a.val b.val (sc.code * 8 + 2)) (w1 := i.toNat) rfl rfl (by simp only [formA] <;> omega) (by omega) fun _ => key ?_ ?_ ?_ ?_ ?_ ?_ ?_ ?_
  · simp only [fld, formA] <;> omega
  · simp only [fld, formA] <;> omega
  · simp only [fld, formA] <;> omega
  · simp only [fld, formA] <;> omega
  · refine finOf_fld ?_; simp only [fld, formA] <;> omega
  · refine finOf_fld ?_; simp only [fld, formA] <;> omega
  · refine finOf_fld ?_; simp only [fld, formA] <;> omega
  · refine BitVec.eq_of_toNat_eq ?_; simp only [BitVec.toNat_ofNat] <;> omega

theorem satom (op : SAtomOp) (o : Order) (sc : Scope) (d a b : SReg) (i : BitVec 24) : Statement (.satom op o sc d a b i) := by
  have key {w w1 : Nat} (e0_3 : fld w 0 3 = 3) (e25_7 : fld w 25 7 = 124) (e3_4 : fld w 3 4 = op.code) (e1_24_4 : fld w1 24 4 = 0) (e1_28_2 : fld w1 28 2 = o.code) (e1_30_2 : fld w1 30 2 = sc.code) (s13 : sreg w 13 = a) (s19 : sreg w 19 = d) (s7 : sreg w 7 = b) (b24 : BitVec.ofNat 24 w1 = i) :
      decodeScalarRaw w w1 = .ok (.satom op o sc d a b i) := by
    have q0 : decodeScalarRaw w w1 = (decodeSmem w w1) := by
      unfold decodeScalarRaw; rw [e25_7]; rfl
    have q1 : decodeSmem w w1 = (do
    zeroed (fld w1 24 4)
    let op ← SAtomOp.ofCode (fld w 3 4)
    let o ← Order.ofCode (fld w1 28 2)
    let sc ← Scope.ofCode (fld w1 30 2)
    .ok (.satom op o sc (sreg w 19) (sreg w 13) (sreg w 7) (BitVec.ofNat 24 w1))) := by
      unfold decodeSmem; rw [e0_3]; rfl
    rw [q0, q1]
    simp only [e0_3, e25_7, e3_4, e1_24_4, e1_28_2, e1_30_2, s13, s19, s7, b24, Order.ofCode_code, SAtomOp.ofCode_code, Scope.ofCode_code, finOfNat_val, zeroed_zero, Dec.bind_ok, if_true, if_false, Bool.false_eq_true]
  have := op.code_lt
  have := o.code_lt
  have := sc.code_lt
  have := d.isLt
  have := a.isLt
  have := b.isLt
  have := i.isLt
  refine long (w := formA 0x7C d.val a.val b.val (op.code * 8 + 3)) (w1 := sc.code * 2 ^ 30 + o.code * 2 ^ 28 + i.toNat) rfl rfl (by simp only [formA] <;> omega) (by omega) fun _ => key ?_ ?_ ?_ ?_ ?_ ?_ ?_ ?_ ?_ ?_
  · simp only [fld, formA] <;> omega
  · simp only [fld, formA] <;> omega
  · simp only [fld, formA] <;> omega
  · simp only [fld] <;> omega
  · simp only [fld] <;> omega
  · simp only [fld] <;> omega
  · refine finOf_fld ?_; simp only [fld, formA] <;> omega
  · refine finOf_fld ?_; simp only [fld, formA] <;> omega
  · refine finOf_fld ?_; simp only [fld, formA] <;> omega
  · refine BitVec.eq_of_toNat_eq ?_; simp only [BitVec.toNat_ofNat] <;> omega

theorem sfence (o : FenceOrder) (sc : Scope) : Statement (.sfence o sc) := by
  have key {w : Nat} (e0_2 : fld w 0 2 = sc.code) (e2_2 : fld w 2 2 = o.code) (e25_7 : fld w 25 7 = 26) (e4_3 : fld w 4 3 = 0) (e7_18 : fld w 7 18 = 0) :
      decodeScalarRaw w 0 = .ok (.sfence o sc) := by
    have q0 : decodeScalarRaw w 0 = (do
    zeroed (fld w 7 18)
    zeroed (fld w 4 3)
    let o ← FenceOrder.ofCode (fld w 2 2)
    let sc ← Scope.ofCode (fld w 0 2)
    .ok (.sfence o sc)) := by
      unfold decodeScalarRaw; rw [e25_7]; rfl
    rw [q0]
    simp only [e0_2, e2_2, e25_7, e4_3, e7_18, FenceOrder.ofCode_code, Scope.ofCode_code, finOfNat_val, zeroed_zero, Dec.bind_ok, if_true, if_false, Bool.false_eq_true]
  have := o.code_lt
  have := sc.code_lt
  refine short (w := formA 0x1A 0 0 0 (o.code * 4 + sc.code)) rfl rfl (by simp only [formA] <;> omega) fun _ => key ?_ ?_ ?_ ?_ ?_
  · simp only [fld, formA] <;> omega
  · simp only [fld, formA] <;> omega
  · simp only [fld, formA] <;> omega
  · simp only [fld, formA] <;> omega
  · simp only [fld, formA] <;> omega

theorem swait (c : WaitCond) (acq : Bool) (d a b : SReg) : Statement (.swait c acq d a b) := by
  have key {w : Nat} (e0_3 : fld w 0 3 = c.code) (e25_7 : fld w 25 7 = 27) (e4_3 : fld w 4 3 = 0) (g3 : flag w 3 = acq) (s13 : sreg w 13 = a) (s19 : sreg w 19 = d) (s7 : sreg w 7 = b) :
      decodeScalarRaw w 0 = .ok (.swait c acq d a b) := by
    have q0 : decodeScalarRaw w 0 = (do
    zeroed (fld w 4 3)
    let c ← WaitCond.ofCode (fld w 0 3)
    .ok (.swait c (flag w 3) (sreg w 19) (sreg w 13) (sreg w 7))) := by
      unfold decodeScalarRaw; rw [e25_7]; rfl
    rw [q0]
    simp only [e0_3, e25_7, e4_3, g3, s13, s19, s7, WaitCond.ofCode_code, finOfNat_val, zeroed_zero, Dec.bind_ok, if_true, if_false, Bool.false_eq_true]
  have := c.code_lt
  have := bit_lt acq
  have := d.isLt
  have := a.isLt
  have := b.isLt
  refine short (w := formA 0x1B d.val a.val b.val (bit acq * 8 + c.code)) rfl rfl (by simp only [formA] <;> omega) fun _ => key ?_ ?_ ?_ ?_ ?_ ?_ ?_
  · simp only [fld, formA] <;> omega
  · simp only [fld, formA] <;> omega
  · simp only [fld, formA] <;> omega
  · refine flag_of_fld ?_; simp only [fld, formA] <;> omega
  · refine finOf_fld ?_; simp only [fld, formA] <;> omega
  · refine finOf_fld ?_; simp only [fld, formA] <;> omega
  · refine finOf_fld ?_; simp only [fld, formA] <;> omega

theorem ldisp (n : BitVec 13) : Statement (.ldisp n) := by
  have key {w : Nat} (h0 : fld w 25 7 = 28) (h1 : fld w 19 6 = 0) (h2 : fld w 13 6 = 0) (h3 : BitVec.ofNat 13 w = n) :
      decodeScalarRaw w 0 = .ok (.ldisp n) := by
    have q : decodeScalarRaw w 0 = (do zeroed (fld w 13 6); .ok (.ldisp (BitVec.ofNat 13 w))) := by
      unfold decodeScalarRaw; rw [h0, h1]; rfl
    rw [q, h2, h3, zeroed_zero, Dec.bind_ok]
  obtain ⟨h0, h1, h2, h3, -⟩ := formB_fields (op := 0x1C) (d := 0) (a := 0) (i := n) (by decide) (by decide) (by decide)
  exact short rfl rfl (formB_lt (by decide) (by decide) (by decide)) fun _ => key h0 h1 h2 h3

theorem ldispReg (a : SReg) (n : BitVec 13) : Statement (.ldispReg a n) := by
  have key {w : Nat} (h0 : fld w 25 7 = 28) (h1 : fld w 19 6 = 1) (h2 : fld w 13 6 = a.val)
      (h3 : BitVec.ofNat 13 w = n) : decodeScalarRaw w 0 = .ok (.ldispReg a n) := by
    have q : decodeScalarRaw w 0 = .ok (.ldispReg (sreg w 13) (BitVec.ofNat 13 w)) := by
      unfold decodeScalarRaw; rw [h0, h1]; rfl
    rw [q, sreg, h2, h3, finOfNat_val]
  obtain ⟨h0, h1, h2, h3, -⟩ := formB_fields (op := 0x1C) (d := 1) (a := a.val) (i := n) (by decide) (by decide) a.isLt
  exact short rfl rfl (formB_lt (by decide) (by decide) a.isLt) fun _ => key h0 h1 h2 h3

theorem lsync : Statement (.lsync) := by
  have key {w : Nat} (e0_25 : fld w 0 25 = 0) (e25_7 : fld w 25 7 = 29) :
      decodeScalarRaw w 0 = .ok (.lsync) := by
    have q0 : decodeScalarRaw w 0 = (do zeroed (fld w 0 25); .ok .lsync) := by
      unfold decodeScalarRaw; rw [e25_7]; rfl
    rw [q0]
    simp only [e0_25, e25_7, finOfNat_val, zeroed_zero, Dec.bind_ok, if_true, if_false, Bool.false_eq_true]
  refine short (w := formA 0x1D 0 0 0 0) rfl rfl (by simp only [formA] <;> omega) fun _ => key ?_ ?_
  · simp only [fld, formA] <;> omega
  · simp only [fld, formA] <;> omega

theorem slrd (d : SReg) (n : Fin 64) (l : LaneSel) : Statement (.slrd d n l) := by
  have := d.isLt
  have := n.isLt
  cases l with
  | imm l =>
    have key {w : Nat} (h0 : fld w 25 7 = 30) (h1 : fld w 19 6 = d.val) (h2 : fld w 13 6 = n.val) (h3 : fld w 7 6 = 0)
        (h4 : fld w 6 1 = 0) (h5 : flag w 5 = false) (h6 : fld w 0 5 = l.val) :
        decodeScalarRaw w 0 = .ok (.slrd d n (.imm l)) := by
      have q : decodeScalarRaw w 0 = (do
          zeroed (fld w 6 1)
          if flag w 5 then do
            zeroed (fld w 0 5)
            .ok (.slrd (sreg w 19) (sreg w 13) (.reg (sreg w 7)))
          else do
            zeroed (fld w 7 6)
            .ok (.slrd (sreg w 19) (sreg w 13) (.imm (Fin.ofNat 32 (fld w 0 5))))) := by
        unfold decodeScalarRaw; rw [h0]; rfl
      simp only [q, sreg, h1, h2, h3, h4, h5, h6, zeroed_zero, Dec.bind_ok, finOfNat_val, if_false, Bool.false_eq_true]
    have := l.isLt
    refine short (w := formA 0x1E d.val n.val 0 l.val) rfl rfl (by simp only [formA] <;> omega) fun _ =>
      key ?_ ?_ ?_ ?_ ?_ (flag_of_fld (show _ = 0 from ?_)) ?_ <;> simp only [fld, formA] <;> omega
  | reg b =>
    have key {w : Nat} (h0 : fld w 25 7 = 30) (h1 : fld w 19 6 = d.val) (h2 : fld w 13 6 = n.val)
        (h3 : fld w 7 6 = b.val) (h4 : fld w 6 1 = 0) (h5 : flag w 5 = true) (h6 : fld w 0 5 = 0) :
        decodeScalarRaw w 0 = .ok (.slrd d n (.reg b)) := by
      have q : decodeScalarRaw w 0 = (do
          zeroed (fld w 6 1)
          if flag w 5 then do
            zeroed (fld w 0 5)
            .ok (.slrd (sreg w 19) (sreg w 13) (.reg (sreg w 7)))
          else do
            zeroed (fld w 7 6)
            .ok (.slrd (sreg w 19) (sreg w 13) (.imm (Fin.ofNat 32 (fld w 0 5))))) := by
        unfold decodeScalarRaw; rw [h0]; rfl
      simp only [q, sreg, h1, h2, h3, h4, h5, h6, zeroed_zero, Dec.bind_ok, finOfNat_val, if_true]
    have := b.isLt
    refine short (w := formA 0x1E d.val n.val b.val 32) rfl rfl (by simp only [formA] <;> omega) fun _ =>
      key ?_ ?_ ?_ ?_ ?_ (flag_of_fld (show _ = 1 from ?_)) ?_ <;> simp only [fld, formA] <;> omega

theorem barInit (b : BitVec 7) (a : SReg) : Statement (.barInit b a) := by
  have key {w : Nat} (e19_6 : fld w 19 6 = 0) (e25_7 : fld w 25 7 = 32) (e7_6 : fld w 7 6 = 0) (s13 : sreg w 13 = a) (b7 : BitVec.ofNat 7 w = b) :
      decodeScalarRaw w 0 = .ok (.barInit b a) := by
    have q0 : decodeScalarRaw w 0 = ((do zeroed (fld w 19 6); ((do zeroed (fld w 7 6); (.ok (.barInit (BitVec.ofNat 7 w) (sreg w 13))))))) := by
      unfold decodeScalarRaw; rw [e25_7]; rfl
    rw [q0]
    simp only [e19_6, e25_7, e7_6, s13, b7, finOfNat_val, zeroed_zero, Dec.bind_ok, if_true, if_false, Bool.false_eq_true]
  have := b.isLt
  have := a.isLt
  refine short (w := formA 0x20 0 a.val 0 b.toNat) rfl rfl (by simp only [formA] <;> omega) fun _ => key ?_ ?_ ?_ ?_ ?_
  · simp only [fld, formA] <;> omega
  · simp only [fld, formA] <;> omega
  · simp only [fld, formA] <;> omega
  · refine finOf_fld ?_; simp only [fld, formA] <;> omega
  · refine BitVec.eq_of_toNat_eq ?_; simp only [formA, BitVec.toNat_ofNat] <;> omega

theorem barArr (d : SReg) (b : BitVec 7) : Statement (.barArr d b) := by
  have key {w : Nat} (e13_6 : fld w 13 6 = 0) (e25_7 : fld w 25 7 = 33) (e7_6 : fld w 7 6 = 0) (s19 : sreg w 19 = d) (b7 : BitVec.ofNat 7 w = b) :
      decodeScalarRaw w 0 = .ok (.barArr d b) := by
    have q0 : decodeScalarRaw w 0 = ((do zeroed (fld w 13 6); ((do zeroed (fld w 7 6); (.ok (.barArr (sreg w 19) (BitVec.ofNat 7 w))))))) := by
      unfold decodeScalarRaw; rw [e25_7]; rfl
    rw [q0]
    simp only [e13_6, e25_7, e7_6, s19, b7, finOfNat_val, zeroed_zero, Dec.bind_ok, if_true, if_false, Bool.false_eq_true]
  have := d.isLt
  have := b.isLt
  refine short (w := formA 0x21 d.val 0 0 b.toNat) rfl rfl (by simp only [formA] <;> omega) fun _ => key ?_ ?_ ?_ ?_ ?_
  · simp only [fld, formA] <;> omega
  · simp only [fld, formA] <;> omega
  · simp only [fld, formA] <;> omega
  · refine finOf_fld ?_; simp only [fld, formA] <;> omega
  · refine BitVec.eq_of_toNat_eq ?_; simp only [formA, BitVec.toNat_ofNat] <;> omega

theorem barWt (b : BitVec 7) (a : SReg) : Statement (.barWt b a) := by
  have key {w : Nat} (e19_6 : fld w 19 6 = 0) (e25_7 : fld w 25 7 = 34) (e7_6 : fld w 7 6 = 0) (s13 : sreg w 13 = a) (b7 : BitVec.ofNat 7 w = b) :
      decodeScalarRaw w 0 = .ok (.barWt b a) := by
    have q0 : decodeScalarRaw w 0 = ((do zeroed (fld w 19 6); ((do zeroed (fld w 7 6); (.ok (.barWt (BitVec.ofNat 7 w) (sreg w 13))))))) := by
      unfold decodeScalarRaw; rw [e25_7]; rfl
    rw [q0]
    simp only [e19_6, e25_7, e7_6, s13, b7, finOfNat_val, zeroed_zero, Dec.bind_ok, if_true, if_false, Bool.false_eq_true]
  have := b.isLt
  have := a.isLt
  refine short (w := formA 0x22 0 a.val 0 b.toNat) rfl rfl (by simp only [formA] <;> omega) fun _ => key ?_ ?_ ?_ ?_ ?_
  · simp only [fld, formA] <;> omega
  · simp only [fld, formA] <;> omega
  · simp only [fld, formA] <;> omega
  · refine finOf_fld ?_; simp only [fld, formA] <;> omega
  · refine BitVec.eq_of_toNat_eq ?_; simp only [formA, BitVec.toNat_ofNat] <;> omega

theorem barSync (b : BitVec 7) : Statement (.barSync b) := by
  have key {w : Nat} (e13_6 : fld w 13 6 = 0) (e19_6 : fld w 19 6 = 0) (e25_7 : fld w 25 7 = 35) (e7_6 : fld w 7 6 = 0) (b7 : BitVec.ofNat 7 w = b) :
      decodeScalarRaw w 0 = .ok (.barSync b) := by
    have q0 : decodeScalarRaw w 0 = ((do zeroed (fld w 19 6); ((do zeroed (fld w 13 6); ((do zeroed (fld w 7 6); (.ok (.barSync (BitVec.ofNat 7 w))))))))) := by
      unfold decodeScalarRaw; rw [e25_7]; rfl
    rw [q0]
    simp only [e13_6, e19_6, e25_7, e7_6, b7, finOfNat_val, zeroed_zero, Dec.bind_ok, if_true, if_false, Bool.false_eq_true]
  have := b.isLt
  refine short (w := formA 0x23 0 0 0 b.toNat) rfl rfl (by simp only [formA] <;> omega) fun _ => key ?_ ?_ ?_ ?_ ?_
  · simp only [fld, formA] <;> omega
  · simp only [fld, formA] <;> omega
  · simp only [fld, formA] <;> omega
  · simp only [fld, formA] <;> omega
  · refine BitVec.eq_of_toNat_eq ?_; simp only [formA, BitVec.toNat_ofNat] <;> omega

theorem barExp (b : BitVec 7) (a : SReg) : Statement (.barExp b a) := by
  have key {w : Nat} (e19_6 : fld w 19 6 = 0) (e25_7 : fld w 25 7 = 36) (e7_6 : fld w 7 6 = 0) (s13 : sreg w 13 = a) (b7 : BitVec.ofNat 7 w = b) :
      decodeScalarRaw w 0 = .ok (.barExp b a) := by
    have q0 : decodeScalarRaw w 0 = ((do zeroed (fld w 19 6); ((do zeroed (fld w 7 6); (.ok (.barExp (BitVec.ofNat 7 w) (sreg w 13))))))) := by
      unfold decodeScalarRaw; rw [e25_7]; rfl
    rw [q0]
    simp only [e19_6, e25_7, e7_6, s13, b7, finOfNat_val, zeroed_zero, Dec.bind_ok, if_true, if_false, Bool.false_eq_true]
  have := b.isLt
  have := a.isLt
  refine short (w := formA 0x24 0 a.val 0 b.toNat) rfl rfl (by simp only [formA] <;> omega) fun _ => key ?_ ?_ ?_ ?_ ?_
  · simp only [fld, formA] <;> omega
  · simp only [fld, formA] <;> omega
  · simp only [fld, formA] <;> omega
  · refine finOf_fld ?_; simp only [fld, formA] <;> omega
  · refine BitVec.eq_of_toNat_eq ?_; simp only [formA, BitVec.toNat_ofNat] <;> omega

theorem fbar (d a : SReg) : Statement (.fbar d a) := by
  have key {w : Nat} (e0_7 : fld w 0 7 = 0) (e25_7 : fld w 25 7 = 37) (e7_6 : fld w 7 6 = 0) (s13 : sreg w 13 = a) (s19 : sreg w 19 = d) :
      decodeScalarRaw w 0 = .ok (.fbar d a) := by
    have q0 : decodeScalarRaw w 0 = ((do zeroed (fld w 7 6); ((do zeroed (fld w 0 7); (.ok (.fbar (sreg w 19) (sreg w 13))))))) := by
      unfold decodeScalarRaw; rw [e25_7]; rfl
    rw [q0]
    simp only [e0_7, e25_7, e7_6, s13, s19, finOfNat_val, zeroed_zero, Dec.bind_ok, if_true, if_false, Bool.false_eq_true]
  have := d.isLt
  have := a.isLt
  refine short (w := formA 0x25 d.val a.val 0 0) rfl rfl (by simp only [formA] <;> omega) fun _ => key ?_ ?_ ?_ ?_ ?_
  · simp only [fld, formA] <;> omega
  · simp only [fld, formA] <;> omega
  · simp only [fld, formA] <;> omega
  · refine finOf_fld ?_; simp only [fld, formA] <;> omega
  · refine finOf_fld ?_; simp only [fld, formA] <;> omega

theorem bthTake (d a b : SReg) : Statement (.bthTake d a b) := by
  have key {w : Nat} (e0_7 : fld w 0 7 = 0) (e25_7 : fld w 25 7 = 38) (s13 : sreg w 13 = a) (s19 : sreg w 19 = d) (s7 : sreg w 7 = b) :
      decodeScalarRaw w 0 = .ok (.bthTake d a b) := by
    have q0 : decodeScalarRaw w 0 = ((do zeroed (fld w 0 7); (.ok (.bthTake (sreg w 19) (sreg w 13) (sreg w 7))))) := by
      unfold decodeScalarRaw; rw [e25_7]; rfl
    rw [q0]
    simp only [e0_7, e25_7, s13, s19, s7, finOfNat_val, zeroed_zero, Dec.bind_ok, if_true, if_false, Bool.false_eq_true]
  have := d.isLt
  have := a.isLt
  have := b.isLt
  refine short (w := formA 0x26 d.val a.val b.val 0) rfl rfl (by simp only [formA] <;> omega) fun _ => key ?_ ?_ ?_ ?_ ?_
  · simp only [fld, formA] <;> omega
  · simp only [fld, formA] <;> omega
  · refine finOf_fld ?_; simp only [fld, formA] <;> omega
  · refine finOf_fld ?_; simp only [fld, formA] <;> omega
  · refine finOf_fld ?_; simp only [fld, formA] <;> omega

theorem bthPass (a b : SReg) : Statement (.bthPass a b) := by
  have key {w : Nat} (e0_7 : fld w 0 7 = 0) (e19_6 : fld w 19 6 = 0) (e25_7 : fld w 25 7 = 39) (s13 : sreg w 13 = a) (s7 : sreg w 7 = b) :
      decodeScalarRaw w 0 = .ok (.bthPass a b) := by
    have q0 : decodeScalarRaw w 0 = ((do zeroed (fld w 19 6); ((do zeroed (fld w 0 7); (.ok (.bthPass (sreg w 13) (sreg w 7))))))) := by
      unfold decodeScalarRaw; rw [e25_7]; rfl
    rw [q0]
    simp only [e0_7, e19_6, e25_7, s13, s7, finOfNat_val, zeroed_zero, Dec.bind_ok, if_true, if_false, Bool.false_eq_true]
  have := a.isLt
  have := b.isLt
  refine short (w := formA 0x27 0 a.val b.val 0) rfl rfl (by simp only [formA] <;> omega) fun _ => key ?_ ?_ ?_ ?_ ?_
  · simp only [fld, formA] <;> omega
  · simp only [fld, formA] <;> omega
  · simp only [fld, formA] <;> omega
  · refine finOf_fld ?_; simp only [fld, formA] <;> omega
  · refine finOf_fld ?_; simp only [fld, formA] <;> omega

theorem bthWait (a : SReg) (t : BerthTarget) : Statement (.bthWait a t) := by
  have key {w : Nat} (e0_2 : fld w 0 2 = t.code) (e19_6 : fld w 19 6 = 0) (e2_5 : fld w 2 5 = 0) (e25_7 : fld w 25 7 = 40) (e7_6 : fld w 7 6 = 0) (s13 : sreg w 13 = a) :
      decodeScalarRaw w 0 = .ok (.bthWait a t) := by
    have q0 : decodeScalarRaw w 0 = ((do zeroed (fld w 19 6); ((do zeroed (fld w 7 6); (do
    zeroed (fld w 2 5)
    let t ← BerthTarget.ofCode (fld w 0 2)
    .ok (.bthWait (sreg w 13) t)))))) := by
      unfold decodeScalarRaw; rw [e25_7]; rfl
    rw [q0]
    simp only [e0_2, e19_6, e2_5, e25_7, e7_6, s13, BerthTarget.ofCode_code, finOfNat_val, zeroed_zero, Dec.bind_ok, if_true, if_false, Bool.false_eq_true]
  have := a.isLt
  have := t.code_lt
  refine short (w := formA 0x28 0 a.val 0 t.code) rfl rfl (by simp only [formA] <;> omega) fun _ => key ?_ ?_ ?_ ?_ ?_ ?_
  · simp only [fld, formA] <;> omega
  · simp only [fld, formA] <;> omega
  · simp only [fld, formA] <;> omega
  · simp only [fld, formA] <;> omega
  · simp only [fld, formA] <;> omega
  · refine finOf_fld ?_; simp only [fld, formA] <;> omega

theorem bthSet (a b : SReg) (t : BerthTarget) : Statement (.bthSet a b t) := by
  have key {w : Nat} (e0_2 : fld w 0 2 = t.code) (e19_6 : fld w 19 6 = 0) (e2_5 : fld w 2 5 = 0) (e25_7 : fld w 25 7 = 41) (s13 : sreg w 13 = a) (s7 : sreg w 7 = b) :
      decodeScalarRaw w 0 = .ok (.bthSet a b t) := by
    have q0 : decodeScalarRaw w 0 = ((do zeroed (fld w 19 6); (do
    zeroed (fld w 2 5)
    let t ← BerthTarget.ofCode (fld w 0 2)
    .ok (.bthSet (sreg w 13) (sreg w 7) t)))) := by
      unfold decodeScalarRaw; rw [e25_7]; rfl
    rw [q0]
    simp only [e0_2, e19_6, e2_5, e25_7, s13, s7, BerthTarget.ofCode_code, finOfNat_val, zeroed_zero, Dec.bind_ok, if_true, if_false, Bool.false_eq_true]
  have := a.isLt
  have := b.isLt
  have := t.code_lt
  refine short (w := formA 0x29 0 a.val b.val t.code) rfl rfl (by simp only [formA] <;> omega) fun _ => key ?_ ?_ ?_ ?_ ?_ ?_
  · simp only [fld, formA] <;> omega
  · simp only [fld, formA] <;> omega
  · simp only [fld, formA] <;> omega
  · simp only [fld, formA] <;> omega
  · refine finOf_fld ?_; simp only [fld, formA] <;> omega
  · refine finOf_fld ?_; simp only [fld, formA] <;> omega

theorem bthFree (a : SReg) : Statement (.bthFree a) := by
  have key {w : Nat} (e0_7 : fld w 0 7 = 0) (e19_6 : fld w 19 6 = 0) (e25_7 : fld w 25 7 = 42) (e7_6 : fld w 7 6 = 0) (s13 : sreg w 13 = a) :
      decodeScalarRaw w 0 = .ok (.bthFree a) := by
    have q0 : decodeScalarRaw w 0 = ((do zeroed (fld w 19 6); ((do zeroed (fld w 7 6); ((do zeroed (fld w 0 7); (.ok (.bthFree (sreg w 13))))))))) := by
      unfold decodeScalarRaw; rw [e25_7]; rfl
    rw [q0]
    simp only [e0_7, e19_6, e25_7, e7_6, s13, finOfNat_val, zeroed_zero, Dec.bind_ok, if_true, if_false, Bool.false_eq_true]
  have := a.isLt
  refine short (w := formA 0x2A 0 a.val 0 0) rfl rfl (by simp only [formA] <;> omega) fun _ => key ?_ ?_ ?_ ?_ ?_
  · simp only [fld, formA] <;> omega
  · simp only [fld, formA] <;> omega
  · simp only [fld, formA] <;> omega
  · simp only [fld, formA] <;> omega
  · refine finOf_fld ?_; simp only [fld, formA] <;> omega

theorem bthQuery (hi : Bool) (d a : SReg) : Statement (.bthQuery hi d a) := by
  have key {w : Nat} (e1_6 : fld w 1 6 = 0) (e25_7 : fld w 25 7 = 43) (e7_6 : fld w 7 6 = 0) (g0 : flag w 0 = hi) (s13 : sreg w 13 = a) (s19 : sreg w 19 = d) :
      decodeScalarRaw w 0 = .ok (.bthQuery hi d a) := by
    have q0 : decodeScalarRaw w 0 = ((do zeroed (fld w 7 6); (do zeroed (fld w 1 6); .ok (.bthQuery (flag w 0) (sreg w 19) (sreg w 13))))) := by
      unfold decodeScalarRaw; rw [e25_7]; rfl
    rw [q0]
    simp only [e1_6, e25_7, e7_6, g0, s13, s19, finOfNat_val, zeroed_zero, Dec.bind_ok, if_true, if_false, Bool.false_eq_true]
  have := bit_lt hi
  have := d.isLt
  have := a.isLt
  refine short (w := formA 0x2B d.val a.val 0 (bit hi)) rfl rfl (by simp only [formA] <;> omega) fun _ => key ?_ ?_ ?_ ?_ ?_ ?_
  · simp only [fld, formA] <;> omega
  · simp only [fld, formA] <;> omega
  · simp only [fld, formA] <;> omega
  · refine flag_of_fld ?_; simp only [fld, formA] <;> omega
  · refine finOf_fld ?_; simp only [fld, formA] <;> omega
  · refine finOf_fld ?_; simp only [fld, formA] <;> omega

theorem xregAcq : Statement (.xregAcq) := by
  have key {w : Nat} (e0_25 : fld w 0 25 = 0) (e25_7 : fld w 25 7 = 44) :
      decodeScalarRaw w 0 = .ok (.xregAcq) := by
    have q0 : decodeScalarRaw w 0 = (do zeroed (fld w 0 25); .ok .xregAcq) := by
      unfold decodeScalarRaw; rw [e25_7]; rfl
    rw [q0]
    simp only [e0_25, e25_7, finOfNat_val, zeroed_zero, Dec.bind_ok, if_true, if_false, Bool.false_eq_true]
  refine short (w := formA 0x2C 0 0 0 0) rfl rfl (by simp only [formA] <;> omega) fun _ => key ?_ ?_
  · simp only [fld, formA] <;> omega
  · simp only [fld, formA] <;> omega

theorem xregRel : Statement (.xregRel) := by
  have key {w : Nat} (e0_25 : fld w 0 25 = 0) (e25_7 : fld w 25 7 = 45) :
      decodeScalarRaw w 0 = .ok (.xregRel) := by
    have q0 : decodeScalarRaw w 0 = (do zeroed (fld w 0 25); .ok .xregRel) := by
      unfold decodeScalarRaw; rw [e25_7]; rfl
    rw [q0]
    simp only [e0_25, e25_7, finOfNat_val, zeroed_zero, Dec.bind_ok, if_true, if_false, Bool.false_eq_true]
  refine short (w := formA 0x2D 0 0 0 0) rfl rfl (by simp only [formA] <;> omega) fun _ => key ?_ ?_
  · simp only [fld, formA] <;> omega
  · simp only [fld, formA] <;> omega

theorem xcpy (a b : SReg) : Statement (.xcpy a b) := by
  have key {w : Nat} (e0_7 : fld w 0 7 = 0) (e19_6 : fld w 19 6 = 0) (e25_7 : fld w 25 7 = 48) (s13 : sreg w 13 = a) (s7 : sreg w 7 = b) :
      decodeScalarRaw w 0 = .ok (.xcpy a b) := by
    have q0 : decodeScalarRaw w 0 = ((do zeroed (fld w 19 6); ((do zeroed (fld w 0 7); (.ok (.xcpy (sreg w 13) (sreg w 7))))))) := by
      unfold decodeScalarRaw; rw [e25_7]; rfl
    rw [q0]
    simp only [e0_7, e19_6, e25_7, s13, s7, finOfNat_val, zeroed_zero, Dec.bind_ok, if_true, if_false, Bool.false_eq_true]
  have := a.isLt
  have := b.isLt
  refine short (w := formA 0x30 0 a.val b.val 0) rfl rfl (by simp only [formA] <;> omega) fun _ => key ?_ ?_ ?_ ?_ ?_
  · simp only [fld, formA] <;> omega
  · simp only [fld, formA] <;> omega
  · simp only [fld, formA] <;> omega
  · refine finOf_fld ?_; simp only [fld, formA] <;> omega
  · refine finOf_fld ?_; simp only [fld, formA] <;> omega

theorem xdrain (p : DrainPath) : Statement (.xdrain p) := by
  have key {w : Nat} (e0_3 : fld w 0 3 = p.code) (e25_7 : fld w 25 7 = 49) (e3_22 : fld w 3 22 = 0) :
      decodeScalarRaw w 0 = .ok (.xdrain p) := by
    have q0 : decodeScalarRaw w 0 = (do
    zeroed (fld w 3 22)
    let p ← DrainPath.ofCode (fld w 0 3)
    .ok (.xdrain p)) := by
      unfold decodeScalarRaw; rw [e25_7]; rfl
    rw [q0]
    simp only [e0_3, e25_7, e3_22, DrainPath.ofCode_code, finOfNat_val, zeroed_zero, Dec.bind_ok, if_true, if_false, Bool.false_eq_true]
  have := p.code_lt
  refine short (w := formA 0x31 0 0 0 p.code) rfl rfl (by simp only [formA] <;> omega) fun _ => key ?_ ?_ ?_
  · simp only [fld, formA] <;> omega
  · simp only [fld, formA] <;> omega
  · simp only [fld, formA] <;> omega

theorem srt (a : SReg) : Statement (.srt a) := by
  have key {w : Nat} (e0_7 : fld w 0 7 = 0) (e19_6 : fld w 19 6 = 0) (e25_7 : fld w 25 7 = 50) (e7_6 : fld w 7 6 = 0) (s13 : sreg w 13 = a) :
      decodeScalarRaw w 0 = .ok (.srt a) := by
    have q0 : decodeScalarRaw w 0 = ((do zeroed (fld w 19 6); ((do zeroed (fld w 7 6); ((do zeroed (fld w 0 7); (.ok (.srt (sreg w 13))))))))) := by
      unfold decodeScalarRaw; rw [e25_7]; rfl
    rw [q0]
    simp only [e0_7, e19_6, e25_7, e7_6, s13, finOfNat_val, zeroed_zero, Dec.bind_ok, if_true, if_false, Bool.false_eq_true]
  have := a.isLt
  refine short (w := formA 0x32 0 a.val 0 0) rfl rfl (by simp only [formA] <;> omega) fun _ => key ?_ ?_ ?_ ?_ ?_
  · simp only [fld, formA] <;> omega
  · simp only [fld, formA] <;> omega
  · simp only [fld, formA] <;> omega
  · simp only [fld, formA] <;> omega
  · refine finOf_fld ?_; simp only [fld, formA] <;> omega

theorem xcol (a : SReg) : Statement (.xcol a) := by
  have key {w : Nat} (e0_7 : fld w 0 7 = 0) (e19_6 : fld w 19 6 = 0) (e25_7 : fld w 25 7 = 51) (e7_6 : fld w 7 6 = 0) (s13 : sreg w 13 = a) :
      decodeScalarRaw w 0 = .ok (.xcol a) := by
    have q0 : decodeScalarRaw w 0 = ((do zeroed (fld w 19 6); ((do zeroed (fld w 7 6); ((do zeroed (fld w 0 7); (.ok (.xcol (sreg w 13))))))))) := by
      unfold decodeScalarRaw; rw [e25_7]; rfl
    rw [q0]
    simp only [e0_7, e19_6, e25_7, e7_6, s13, finOfNat_val, zeroed_zero, Dec.bind_ok, if_true, if_false, Bool.false_eq_true]
  have := a.isLt
  refine short (w := formA 0x33 0 a.val 0 0) rfl rfl (by simp only [formA] <;> omega) fun _ => key ?_ ?_ ?_ ?_ ?_
  · simp only [fld, formA] <;> omega
  · simp only [fld, formA] <;> omega
  · simp only [fld, formA] <;> omega
  · simp only [fld, formA] <;> omega
  · refine finOf_fld ?_; simp only [fld, formA] <;> omega

theorem tqTake (d a : SReg) : Statement (.tqTake d a) := by
  have key {w : Nat} (e0_7 : fld w 0 7 = 0) (e25_7 : fld w 25 7 = 52) (e7_6 : fld w 7 6 = 0) (s13 : sreg w 13 = a) (s19 : sreg w 19 = d) :
      decodeScalarRaw w 0 = .ok (.tqTake d a) := by
    have q0 : decodeScalarRaw w 0 = ((do zeroed (fld w 7 6); ((do zeroed (fld w 0 7); (.ok (.tqTake (sreg w 19) (sreg w 13))))))) := by
      unfold decodeScalarRaw; rw [e25_7]; rfl
    rw [q0]
    simp only [e0_7, e25_7, e7_6, s13, s19, finOfNat_val, zeroed_zero, Dec.bind_ok, if_true, if_false, Bool.false_eq_true]
  have := d.isLt
  have := a.isLt
  refine short (w := formA 0x34 d.val a.val 0 0) rfl rfl (by simp only [formA] <;> omega) fun _ => key ?_ ?_ ?_ ?_ ?_
  · simp only [fld, formA] <;> omega
  · simp only [fld, formA] <;> omega
  · simp only [fld, formA] <;> omega
  · refine finOf_fld ?_; simp only [fld, formA] <;> omega
  · refine finOf_fld ?_; simp only [fld, formA] <;> omega

theorem tqSteal (d a : SReg) : Statement (.tqSteal d a) := by
  have key {w : Nat} (e0_7 : fld w 0 7 = 0) (e25_7 : fld w 25 7 = 53) (e7_6 : fld w 7 6 = 0) (s13 : sreg w 13 = a) (s19 : sreg w 19 = d) :
      decodeScalarRaw w 0 = .ok (.tqSteal d a) := by
    have q0 : decodeScalarRaw w 0 = ((do zeroed (fld w 7 6); ((do zeroed (fld w 0 7); (.ok (.tqSteal (sreg w 19) (sreg w 13))))))) := by
      unfold decodeScalarRaw; rw [e25_7]; rfl
    rw [q0]
    simp only [e0_7, e25_7, e7_6, s13, s19, finOfNat_val, zeroed_zero, Dec.bind_ok, if_true, if_false, Bool.false_eq_true]
  have := d.isLt
  have := a.isLt
  refine short (w := formA 0x35 d.val a.val 0 0) rfl rfl (by simp only [formA] <;> omega) fun _ => key ?_ ?_ ?_ ?_ ?_
  · simp only [fld, formA] <;> omega
  · simp only [fld, formA] <;> omega
  · simp only [fld, formA] <;> omega
  · refine finOf_fld ?_; simp only [fld, formA] <;> omega
  · refine finOf_fld ?_; simp only [fld, formA] <;> omega

theorem tqGive (a b : SReg) : Statement (.tqGive a b) := by
  have key {w : Nat} (e0_7 : fld w 0 7 = 0) (e19_6 : fld w 19 6 = 0) (e25_7 : fld w 25 7 = 54) (s13 : sreg w 13 = a) (s7 : sreg w 7 = b) :
      decodeScalarRaw w 0 = .ok (.tqGive a b) := by
    have q0 : decodeScalarRaw w 0 = ((do zeroed (fld w 19 6); ((do zeroed (fld w 0 7); (.ok (.tqGive (sreg w 13) (sreg w 7))))))) := by
      unfold decodeScalarRaw; rw [e25_7]; rfl
    rw [q0]
    simp only [e0_7, e19_6, e25_7, s13, s7, finOfNat_val, zeroed_zero, Dec.bind_ok, if_true, if_false, Bool.false_eq_true]
  have := a.isLt
  have := b.isLt
  refine short (w := formA 0x36 0 a.val b.val 0) rfl rfl (by simp only [formA] <;> omega) fun _ => key ?_ ?_ ?_ ?_ ?_
  · simp only [fld, formA] <;> omega
  · simp only [fld, formA] <;> omega
  · simp only [fld, formA] <;> omega
  · refine finOf_fld ?_; simp only [fld, formA] <;> omega
  · refine finOf_fld ?_; simp only [fld, formA] <;> omega

theorem glaunch (q : Fin 64) (d a b : SReg) : Statement (.glaunch q d a b) := by
  have key {w : Nat} (e0_6 : fld w 0 6 = q.val) (e25_7 : fld w 25 7 = 55) (e6_1 : fld w 6 1 = 0) (s13 : sreg w 13 = a) (s19 : sreg w 19 = d) (s7 : sreg w 7 = b) :
      decodeScalarRaw w 0 = .ok (.glaunch q d a b) := by
    have q0 : decodeScalarRaw w 0 = (do zeroed (fld w 6 1); .ok (.glaunch (Fin.ofNat 64 (fld w 0 6)) (sreg w 19) (sreg w 13) (sreg w 7))) := by
      unfold decodeScalarRaw; rw [e25_7]; rfl
    rw [q0]
    simp only [e0_6, e25_7, e6_1, s13, s19, s7, finOfNat_val, zeroed_zero, Dec.bind_ok, if_true, if_false, Bool.false_eq_true]
  have := q.isLt
  have := d.isLt
  have := a.isLt
  have := b.isLt
  refine short (w := formA 0x37 d.val a.val b.val q.val) rfl rfl (by simp only [formA] <;> omega) fun _ => key ?_ ?_ ?_ ?_ ?_ ?_
  · simp only [fld, formA] <;> omega
  · simp only [fld, formA] <;> omega
  · simp only [fld, formA] <;> omega
  · refine finOf_fld ?_; simp only [fld, formA] <;> omega
  · refine finOf_fld ?_; simp only [fld, formA] <;> omega
  · refine finOf_fld ?_; simp only [fld, formA] <;> omega

theorem wsplit (d a : SReg) : Statement (.wsplit d a) := by
  have key {w : Nat} (e0_7 : fld w 0 7 = 0) (e25_7 : fld w 25 7 = 56) (e7_6 : fld w 7 6 = 0) (s13 : sreg w 13 = a) (s19 : sreg w 19 = d) :
      decodeScalarRaw w 0 = .ok (.wsplit d a) := by
    have q0 : decodeScalarRaw w 0 = ((do zeroed (fld w 7 6); ((do zeroed (fld w 0 7); (.ok (.wsplit (sreg w 19) (sreg w 13))))))) := by
      unfold decodeScalarRaw; rw [e25_7]; rfl
    rw [q0]
    simp only [e0_7, e25_7, e7_6, s13, s19, finOfNat_val, zeroed_zero, Dec.bind_ok, if_true, if_false, Bool.false_eq_true]
  have := d.isLt
  have := a.isLt
  refine short (w := formA 0x38 d.val a.val 0 0) rfl rfl (by simp only [formA] <;> omega) fun _ => key ?_ ?_ ?_ ?_ ?_
  · simp only [fld, formA] <;> omega
  · simp only [fld, formA] <;> omega
  · simp only [fld, formA] <;> omega
  · refine finOf_fld ?_; simp only [fld, formA] <;> omega
  · refine finOf_fld ?_; simp only [fld, formA] <;> omega

theorem wret (a : SReg) : Statement (.wret a) := by
  have key {w : Nat} (e0_7 : fld w 0 7 = 0) (e19_6 : fld w 19 6 = 0) (e25_7 : fld w 25 7 = 57) (e7_6 : fld w 7 6 = 0) (s13 : sreg w 13 = a) :
      decodeScalarRaw w 0 = .ok (.wret a) := by
    have q0 : decodeScalarRaw w 0 = ((do zeroed (fld w 19 6); ((do zeroed (fld w 7 6); ((do zeroed (fld w 0 7); (.ok (.wret (sreg w 13))))))))) := by
      unfold decodeScalarRaw; rw [e25_7]; rfl
    rw [q0]
    simp only [e0_7, e19_6, e25_7, e7_6, s13, finOfNat_val, zeroed_zero, Dec.bind_ok, if_true, if_false, Bool.false_eq_true]
  have := a.isLt
  refine short (w := formA 0x39 0 a.val 0 0) rfl rfl (by simp only [formA] <;> omega) fun _ => key ?_ ?_ ?_ ?_ ?_
  · simp only [fld, formA] <;> omega
  · simp only [fld, formA] <;> omega
  · simp only [fld, formA] <;> omega
  · simp only [fld, formA] <;> omega
  · refine finOf_fld ?_; simp only [fld, formA] <;> omega

theorem csrr (n : BitVec 12) (d : SReg) : Statement (.csrr n d) := by
  have key {w : Nat} (e12_1 : fld w 12 1 = 0) (e13_6 : fld w 13 6 = 0) (e25_7 : fld w 25 7 = 64) (s19 : sreg w 19 = d) (b12 : BitVec.ofNat 12 w = n) :
      decodeScalarRaw w 0 = .ok (.csrr n d) := by
    have q0 : decodeScalarRaw w 0 = ((do zeroed (fld w 13 6); (do zeroed (fld w 12 1); .ok (.csrr (BitVec.ofNat 12 w) (sreg w 19))))) := by
      unfold decodeScalarRaw; rw [e25_7]; rfl
    rw [q0]
    simp only [e12_1, e13_6, e25_7, s19, b12, finOfNat_val, zeroed_zero, Dec.bind_ok, if_true, if_false, Bool.false_eq_true]
  have := n.isLt
  have := d.isLt
  refine short (w := formA 0x40 d.val 0 0 0 + n.toNat) rfl rfl (by simp only [formA] <;> omega) fun _ => key ?_ ?_ ?_ ?_ ?_
  · simp only [fld, formA] <;> omega
  · simp only [fld, formA] <;> omega
  · simp only [fld, formA] <;> omega
  · refine finOf_fld ?_; simp only [fld, formA] <;> omega
  · refine BitVec.eq_of_toNat_eq ?_; simp only [formA, BitVec.toNat_ofNat] <;> omega

theorem csrw (n : BitVec 12) (a : SReg) : Statement (.csrw n a) := by
  have key {w : Nat} (e12_1 : fld w 12 1 = 0) (e19_6 : fld w 19 6 = 0) (e25_7 : fld w 25 7 = 65) (s13 : sreg w 13 = a) (b12 : BitVec.ofNat 12 w = n) :
      decodeScalarRaw w 0 = .ok (.csrw n a) := by
    have q0 : decodeScalarRaw w 0 = ((do zeroed (fld w 19 6); (do zeroed (fld w 12 1); .ok (.csrw (BitVec.ofNat 12 w) (sreg w 13))))) := by
      unfold decodeScalarRaw; rw [e25_7]; rfl
    rw [q0]
    simp only [e12_1, e19_6, e25_7, s13, b12, finOfNat_val, zeroed_zero, Dec.bind_ok, if_true, if_false, Bool.false_eq_true]
  have := n.isLt
  have := a.isLt
  refine short (w := formA 0x41 0 a.val 0 0 + n.toNat) rfl rfl (by simp only [formA] <;> omega) fun _ => key ?_ ?_ ?_ ?_ ?_
  · simp only [fld, formA] <;> omega
  · simp only [fld, formA] <;> omega
  · simp only [fld, formA] <;> omega
  · refine finOf_fld ?_; simp only [fld, formA] <;> omega
  · refine BitVec.eq_of_toNat_eq ?_; simp only [formA, BitVec.toNat_ofNat] <;> omega

theorem trap (n : BitVec 12) : Statement (.trap n) := by
  have key {w : Nat} (e12_1 : fld w 12 1 = 0) (e13_6 : fld w 13 6 = 0) (e19_6 : fld w 19 6 = 0) (e25_7 : fld w 25 7 = 66) (b12 : BitVec.ofNat 12 w = n) :
      decodeScalarRaw w 0 = .ok (.trap n) := by
    have q0 : decodeScalarRaw w 0 = ((do zeroed (fld w 19 6); ((do zeroed (fld w 13 6); (do zeroed (fld w 12 1); .ok (.trap (BitVec.ofNat 12 w))))))) := by
      unfold decodeScalarRaw; rw [e25_7]; rfl
    rw [q0]
    simp only [e12_1, e13_6, e19_6, e25_7, b12, finOfNat_val, zeroed_zero, Dec.bind_ok, if_true, if_false, Bool.false_eq_true]
  have := n.isLt
  refine short (w := formA 0x42 0 0 0 0 + n.toNat) rfl rfl (by simp only [formA] <;> omega) fun _ => key ?_ ?_ ?_ ?_ ?_
  · simp only [fld, formA] <;> omega
  · simp only [fld, formA] <;> omega
  · simp only [fld, formA] <;> omega
  · simp only [fld, formA] <;> omega
  · refine BitVec.eq_of_toNat_eq ?_; simp only [formA, BitVec.toNat_ofNat] <;> omega

theorem eret : Statement (.eret) := by
  have key {w : Nat} (e0_25 : fld w 0 25 = 0) (e25_7 : fld w 25 7 = 67) :
      decodeScalarRaw w 0 = .ok (.eret) := by
    have q0 : decodeScalarRaw w 0 = (do zeroed (fld w 0 25); .ok .eret) := by
      unfold decodeScalarRaw; rw [e25_7]; rfl
    rw [q0]
    simp only [e0_25, e25_7, finOfNat_val, zeroed_zero, Dec.bind_ok, if_true, if_false, Bool.false_eq_true]
  refine short (w := formA 0x43 0 0 0 0) rfl rfl (by simp only [formA] <;> omega) fun _ => key ?_ ?_
  · simp only [fld, formA] <;> omega
  · simp only [fld, formA] <;> omega

theorem spchk (n : Fin 16) : Statement (.spchk n) := by
  have key {w : Nat} (e0_4 : fld w 0 4 = n.val) (e13_6 : fld w 13 6 = 0) (e19_6 : fld w 19 6 = 0) (e25_7 : fld w 25 7 = 68) (e4_9 : fld w 4 9 = 0) :
      decodeScalarRaw w 0 = .ok (.spchk n) := by
    have q0 : decodeScalarRaw w 0 = ((do zeroed (fld w 19 6); ((do zeroed (fld w 13 6); (do zeroed (fld w 4 9); .ok (.spchk (Fin.ofNat 16 (fld w 0 4)))))))) := by
      unfold decodeScalarRaw; rw [e25_7]; rfl
    rw [q0]
    simp only [e0_4, e13_6, e19_6, e25_7, e4_9, finOfNat_val, zeroed_zero, Dec.bind_ok, if_true, if_false, Bool.false_eq_true]
  have := n.isLt
  refine short (w := formA 0x44 0 0 0 n.val) rfl rfl (by simp only [formA] <;> omega) fun _ => key ?_ ?_ ?_ ?_ ?_
  · simp only [fld, formA] <;> omega
  · simp only [fld, formA] <;> omega
  · simp only [fld, formA] <;> omega
  · simp only [fld, formA] <;> omega
  · simp only [fld, formA] <;> omega

theorem mmaBf16 (m : MmaMod) (d a b : SReg) (t : AccSel) : Statement (.mmaBf16 m d a b t) := by
  have key {w w1 : Nat} (e2_2 : fld w 2 2 = m.hd.code) (e25_7 : fld w 25 7 = 112) (e4_1 : fld w 4 1 = 0) (e1_12_20 : fld w1 12 20 = 0) (g0 : flag w 0 = m.tb) (g1 : flag w 1 = m.ta) (g5 : flag w 5 = m.p) (g6 : flag w 6 = m.g) (s13 : sreg w 13 = a) (s19 : sreg w 19 = d) (s7 : sreg w 7 = b) (ta : accSel w1 = t) :
      decodeScalarRaw w w1 = .ok (.mmaBf16 m d a b t) := by
    have q0 : decodeScalarRaw w w1 = (decodeMma w w1 .mmaBf16) := by
      unfold decodeScalarRaw; rw [e25_7]; rfl
    have q1 : decodeMma w w1 .mmaBf16 = (do zeroed (fld w 4 1); zeroed (fld w1 12 20); let hd ← Hadamard.ofCode (fld w 2 2); .ok (.mmaBf16 { g := flag w 6, p := flag w 5, hd := hd, ta := flag w 1, tb := flag w 0 } (sreg w 19) (sreg w 13) (sreg w 7) (accSel w1))) := by
      unfold decodeMma; rfl
    rw [q0, q1]
    simp only [e2_2, e25_7, e4_1, e1_12_20, g0, g1, g5, g6, s13, s19, s7, ta, Hadamard.ofCode_code, finOfNat_val, zeroed_zero, Dec.bind_ok, if_true, if_false, Bool.false_eq_true]
  have := bit_lt m.g
  have := bit_lt m.p
  have := m.hd.code_lt
  have := bit_lt m.ta
  have := bit_lt m.tb
  have := d.isLt
  have := a.isLt
  have := b.isLt
  have := t.code_lt
  refine long (w := formA 0x70 d.val a.val b.val m.code) (w1 := t.code) rfl rfl (by simp only [formA, MmaMod.code] <;> omega) (by omega) fun _ => key ?_ ?_ ?_ ?_ ?_ ?_ ?_ ?_ ?_ ?_ ?_ ?_
  · simp only [fld, formA, MmaMod.code] <;> omega
  · simp only [fld, formA, MmaMod.code] <;> omega
  · simp only [fld, formA, MmaMod.code] <;> omega
  · simp only [fld] <;> omega
  · refine flag_of_fld ?_; simp only [fld, formA, MmaMod.code] <;> omega
  · refine flag_of_fld ?_; simp only [fld, formA, MmaMod.code] <;> omega
  · refine flag_of_fld ?_; simp only [fld, formA, MmaMod.code] <;> omega
  · refine flag_of_fld ?_; simp only [fld, formA, MmaMod.code] <;> omega
  · refine finOf_fld ?_; simp only [fld, formA, MmaMod.code] <;> omega
  · refine finOf_fld ?_; simp only [fld, formA, MmaMod.code] <;> omega
  · refine finOf_fld ?_; simp only [fld, formA, MmaMod.code] <;> omega
  · refine accSel_of ?_; omega

theorem mmaF16 (m : MmaMod) (d a b : SReg) (t : AccSel) : Statement (.mmaF16 m d a b t) := by
  have key {w w1 : Nat} (e2_2 : fld w 2 2 = m.hd.code) (e25_7 : fld w 25 7 = 113) (e4_1 : fld w 4 1 = 0) (e1_12_20 : fld w1 12 20 = 0) (g0 : flag w 0 = m.tb) (g1 : flag w 1 = m.ta) (g5 : flag w 5 = m.p) (g6 : flag w 6 = m.g) (s13 : sreg w 13 = a) (s19 : sreg w 19 = d) (s7 : sreg w 7 = b) (ta : accSel w1 = t) :
      decodeScalarRaw w w1 = .ok (.mmaF16 m d a b t) := by
    have q0 : decodeScalarRaw w w1 = (decodeMma w w1 .mmaF16) := by
      unfold decodeScalarRaw; rw [e25_7]; rfl
    have q1 : decodeMma w w1 .mmaF16 = (do zeroed (fld w 4 1); zeroed (fld w1 12 20); let hd ← Hadamard.ofCode (fld w 2 2); .ok (.mmaF16 { g := flag w 6, p := flag w 5, hd := hd, ta := flag w 1, tb := flag w 0 } (sreg w 19) (sreg w 13) (sreg w 7) (accSel w1))) := by
      unfold decodeMma; rfl
    rw [q0, q1]
    simp only [e2_2, e25_7, e4_1, e1_12_20, g0, g1, g5, g6, s13, s19, s7, ta, Hadamard.ofCode_code, finOfNat_val, zeroed_zero, Dec.bind_ok, if_true, if_false, Bool.false_eq_true]
  have := bit_lt m.g
  have := bit_lt m.p
  have := m.hd.code_lt
  have := bit_lt m.ta
  have := bit_lt m.tb
  have := d.isLt
  have := a.isLt
  have := b.isLt
  have := t.code_lt
  refine long (w := formA 0x71 d.val a.val b.val m.code) (w1 := t.code) rfl rfl (by simp only [formA, MmaMod.code] <;> omega) (by omega) fun _ => key ?_ ?_ ?_ ?_ ?_ ?_ ?_ ?_ ?_ ?_ ?_ ?_
  · simp only [fld, formA, MmaMod.code] <;> omega
  · simp only [fld, formA, MmaMod.code] <;> omega
  · simp only [fld, formA, MmaMod.code] <;> omega
  · simp only [fld] <;> omega
  · refine flag_of_fld ?_; simp only [fld, formA, MmaMod.code] <;> omega
  · refine flag_of_fld ?_; simp only [fld, formA, MmaMod.code] <;> omega
  · refine flag_of_fld ?_; simp only [fld, formA, MmaMod.code] <;> omega
  · refine flag_of_fld ?_; simp only [fld, formA, MmaMod.code] <;> omega
  · refine finOf_fld ?_; simp only [fld, formA, MmaMod.code] <;> omega
  · refine finOf_fld ?_; simp only [fld, formA, MmaMod.code] <;> omega
  · refine finOf_fld ?_; simp only [fld, formA, MmaMod.code] <;> omega
  · refine accSel_of ?_; omega

theorem mmaE4m3 (m : MmaMod) (d a b : SReg) (t : AccSel) : Statement (.mmaE4m3 m d a b t) := by
  have key {w w1 : Nat} (e2_2 : fld w 2 2 = m.hd.code) (e25_7 : fld w 25 7 = 114) (e4_1 : fld w 4 1 = 0) (e1_12_20 : fld w1 12 20 = 0) (g0 : flag w 0 = m.tb) (g1 : flag w 1 = m.ta) (g5 : flag w 5 = m.p) (g6 : flag w 6 = m.g) (s13 : sreg w 13 = a) (s19 : sreg w 19 = d) (s7 : sreg w 7 = b) (ta : accSel w1 = t) :
      decodeScalarRaw w w1 = .ok (.mmaE4m3 m d a b t) := by
    have q0 : decodeScalarRaw w w1 = (decodeMma w w1 .mmaE4m3) := by
      unfold decodeScalarRaw; rw [e25_7]; rfl
    have q1 : decodeMma w w1 .mmaE4m3 = (do zeroed (fld w 4 1); zeroed (fld w1 12 20); let hd ← Hadamard.ofCode (fld w 2 2); .ok (.mmaE4m3 { g := flag w 6, p := flag w 5, hd := hd, ta := flag w 1, tb := flag w 0 } (sreg w 19) (sreg w 13) (sreg w 7) (accSel w1))) := by
      unfold decodeMma; rfl
    rw [q0, q1]
    simp only [e2_2, e25_7, e4_1, e1_12_20, g0, g1, g5, g6, s13, s19, s7, ta, Hadamard.ofCode_code, finOfNat_val, zeroed_zero, Dec.bind_ok, if_true, if_false, Bool.false_eq_true]
  have := bit_lt m.g
  have := bit_lt m.p
  have := m.hd.code_lt
  have := bit_lt m.ta
  have := bit_lt m.tb
  have := d.isLt
  have := a.isLt
  have := b.isLt
  have := t.code_lt
  refine long (w := formA 0x72 d.val a.val b.val m.code) (w1 := t.code) rfl rfl (by simp only [formA, MmaMod.code] <;> omega) (by omega) fun _ => key ?_ ?_ ?_ ?_ ?_ ?_ ?_ ?_ ?_ ?_ ?_ ?_
  · simp only [fld, formA, MmaMod.code] <;> omega
  · simp only [fld, formA, MmaMod.code] <;> omega
  · simp only [fld, formA, MmaMod.code] <;> omega
  · simp only [fld] <;> omega
  · refine flag_of_fld ?_; simp only [fld, formA, MmaMod.code] <;> omega
  · refine flag_of_fld ?_; simp only [fld, formA, MmaMod.code] <;> omega
  · refine flag_of_fld ?_; simp only [fld, formA, MmaMod.code] <;> omega
  · refine flag_of_fld ?_; simp only [fld, formA, MmaMod.code] <;> omega
  · refine finOf_fld ?_; simp only [fld, formA, MmaMod.code] <;> omega
  · refine finOf_fld ?_; simp only [fld, formA, MmaMod.code] <;> omega
  · refine finOf_fld ?_; simp only [fld, formA, MmaMod.code] <;> omega
  · refine accSel_of ?_; omega

theorem mmaE5m2 (m : MmaMod) (d a b : SReg) (t : AccSel) : Statement (.mmaE5m2 m d a b t) := by
  have key {w w1 : Nat} (e2_2 : fld w 2 2 = m.hd.code) (e25_7 : fld w 25 7 = 115) (e4_1 : fld w 4 1 = 0) (e1_12_20 : fld w1 12 20 = 0) (g0 : flag w 0 = m.tb) (g1 : flag w 1 = m.ta) (g5 : flag w 5 = m.p) (g6 : flag w 6 = m.g) (s13 : sreg w 13 = a) (s19 : sreg w 19 = d) (s7 : sreg w 7 = b) (ta : accSel w1 = t) :
      decodeScalarRaw w w1 = .ok (.mmaE5m2 m d a b t) := by
    have q0 : decodeScalarRaw w w1 = (decodeMma w w1 .mmaE5m2) := by
      unfold decodeScalarRaw; rw [e25_7]; rfl
    have q1 : decodeMma w w1 .mmaE5m2 = (do zeroed (fld w 4 1); zeroed (fld w1 12 20); let hd ← Hadamard.ofCode (fld w 2 2); .ok (.mmaE5m2 { g := flag w 6, p := flag w 5, hd := hd, ta := flag w 1, tb := flag w 0 } (sreg w 19) (sreg w 13) (sreg w 7) (accSel w1))) := by
      unfold decodeMma; rfl
    rw [q0, q1]
    simp only [e2_2, e25_7, e4_1, e1_12_20, g0, g1, g5, g6, s13, s19, s7, ta, Hadamard.ofCode_code, finOfNat_val, zeroed_zero, Dec.bind_ok, if_true, if_false, Bool.false_eq_true]
  have := bit_lt m.g
  have := bit_lt m.p
  have := m.hd.code_lt
  have := bit_lt m.ta
  have := bit_lt m.tb
  have := d.isLt
  have := a.isLt
  have := b.isLt
  have := t.code_lt
  refine long (w := formA 0x73 d.val a.val b.val m.code) (w1 := t.code) rfl rfl (by simp only [formA, MmaMod.code] <;> omega) (by omega) fun _ => key ?_ ?_ ?_ ?_ ?_ ?_ ?_ ?_ ?_ ?_ ?_ ?_
  · simp only [fld, formA, MmaMod.code] <;> omega
  · simp only [fld, formA, MmaMod.code] <;> omega
  · simp only [fld, formA, MmaMod.code] <;> omega
  · simp only [fld] <;> omega
  · refine flag_of_fld ?_; simp only [fld, formA, MmaMod.code] <;> omega
  · refine flag_of_fld ?_; simp only [fld, formA, MmaMod.code] <;> omega
  · refine flag_of_fld ?_; simp only [fld, formA, MmaMod.code] <;> omega
  · refine flag_of_fld ?_; simp only [fld, formA, MmaMod.code] <;> omega
  · refine finOf_fld ?_; simp only [fld, formA, MmaMod.code] <;> omega
  · refine finOf_fld ?_; simp only [fld, formA, MmaMod.code] <;> omega
  · refine finOf_fld ?_; simp only [fld, formA, MmaMod.code] <;> omega
  · refine accSel_of ?_; omega

theorem mmaBx8 (m : MmaMod) (d a b : SReg) (t : AccSel) : Statement (.mmaBx8 m d a b t) := by
  have key {w w1 : Nat} (e2_2 : fld w 2 2 = m.hd.code) (e25_7 : fld w 25 7 = 116) (e4_1 : fld w 4 1 = 0) (e1_12_20 : fld w1 12 20 = 0) (g0 : flag w 0 = m.tb) (g1 : flag w 1 = m.ta) (g5 : flag w 5 = m.p) (g6 : flag w 6 = m.g) (s13 : sreg w 13 = a) (s19 : sreg w 19 = d) (s7 : sreg w 7 = b) (ta : accSel w1 = t) :
      decodeScalarRaw w w1 = .ok (.mmaBx8 m d a b t) := by
    have q0 : decodeScalarRaw w w1 = (decodeMma w w1 .mmaBx8) := by
      unfold decodeScalarRaw; rw [e25_7]; rfl
    have q1 : decodeMma w w1 .mmaBx8 = (do zeroed (fld w 4 1); zeroed (fld w1 12 20); let hd ← Hadamard.ofCode (fld w 2 2); .ok (.mmaBx8 { g := flag w 6, p := flag w 5, hd := hd, ta := flag w 1, tb := flag w 0 } (sreg w 19) (sreg w 13) (sreg w 7) (accSel w1))) := by
      unfold decodeMma; rfl
    rw [q0, q1]
    simp only [e2_2, e25_7, e4_1, e1_12_20, g0, g1, g5, g6, s13, s19, s7, ta, Hadamard.ofCode_code, finOfNat_val, zeroed_zero, Dec.bind_ok, if_true, if_false, Bool.false_eq_true]
  have := bit_lt m.g
  have := bit_lt m.p
  have := m.hd.code_lt
  have := bit_lt m.ta
  have := bit_lt m.tb
  have := d.isLt
  have := a.isLt
  have := b.isLt
  have := t.code_lt
  refine long (w := formA 0x74 d.val a.val b.val m.code) (w1 := t.code) rfl rfl (by simp only [formA, MmaMod.code] <;> omega) (by omega) fun _ => key ?_ ?_ ?_ ?_ ?_ ?_ ?_ ?_ ?_ ?_ ?_ ?_
  · simp only [fld, formA, MmaMod.code] <;> omega
  · simp only [fld, formA, MmaMod.code] <;> omega
  · simp only [fld, formA, MmaMod.code] <;> omega
  · simp only [fld] <;> omega
  · refine flag_of_fld ?_; simp only [fld, formA, MmaMod.code] <;> omega
  · refine flag_of_fld ?_; simp only [fld, formA, MmaMod.code] <;> omega
  · refine flag_of_fld ?_; simp only [fld, formA, MmaMod.code] <;> omega
  · refine flag_of_fld ?_; simp only [fld, formA, MmaMod.code] <;> omega
  · refine finOf_fld ?_; simp only [fld, formA, MmaMod.code] <;> omega
  · refine finOf_fld ?_; simp only [fld, formA, MmaMod.code] <;> omega
  · refine finOf_fld ?_; simp only [fld, formA, MmaMod.code] <;> omega
  · refine accSel_of ?_; omega

theorem mmaBx6 (m : MmaMod) (d a b : SReg) (t : AccSel) : Statement (.mmaBx6 m d a b t) := by
  have key {w w1 : Nat} (e2_2 : fld w 2 2 = m.hd.code) (e25_7 : fld w 25 7 = 117) (e4_1 : fld w 4 1 = 0) (e1_12_20 : fld w1 12 20 = 0) (g0 : flag w 0 = m.tb) (g1 : flag w 1 = m.ta) (g5 : flag w 5 = m.p) (g6 : flag w 6 = m.g) (s13 : sreg w 13 = a) (s19 : sreg w 19 = d) (s7 : sreg w 7 = b) (ta : accSel w1 = t) :
      decodeScalarRaw w w1 = .ok (.mmaBx6 m d a b t) := by
    have q0 : decodeScalarRaw w w1 = (decodeMma w w1 .mmaBx6) := by
      unfold decodeScalarRaw; rw [e25_7]; rfl
    have q1 : decodeMma w w1 .mmaBx6 = (do zeroed (fld w 4 1); zeroed (fld w1 12 20); let hd ← Hadamard.ofCode (fld w 2 2); .ok (.mmaBx6 { g := flag w 6, p := flag w 5, hd := hd, ta := flag w 1, tb := flag w 0 } (sreg w 19) (sreg w 13) (sreg w 7) (accSel w1))) := by
      unfold decodeMma; rfl
    rw [q0, q1]
    simp only [e2_2, e25_7, e4_1, e1_12_20, g0, g1, g5, g6, s13, s19, s7, ta, Hadamard.ofCode_code, finOfNat_val, zeroed_zero, Dec.bind_ok, if_true, if_false, Bool.false_eq_true]
  have := bit_lt m.g
  have := bit_lt m.p
  have := m.hd.code_lt
  have := bit_lt m.ta
  have := bit_lt m.tb
  have := d.isLt
  have := a.isLt
  have := b.isLt
  have := t.code_lt
  refine long (w := formA 0x75 d.val a.val b.val m.code) (w1 := t.code) rfl rfl (by simp only [formA, MmaMod.code] <;> omega) (by omega) fun _ => key ?_ ?_ ?_ ?_ ?_ ?_ ?_ ?_ ?_ ?_ ?_ ?_
  · simp only [fld, formA, MmaMod.code] <;> omega
  · simp only [fld, formA, MmaMod.code] <;> omega
  · simp only [fld, formA, MmaMod.code] <;> omega
  · simp only [fld] <;> omega
  · refine flag_of_fld ?_; simp only [fld, formA, MmaMod.code] <;> omega
  · refine flag_of_fld ?_; simp only [fld, formA, MmaMod.code] <;> omega
  · refine flag_of_fld ?_; simp only [fld, formA, MmaMod.code] <;> omega
  · refine flag_of_fld ?_; simp only [fld, formA, MmaMod.code] <;> omega
  · refine finOf_fld ?_; simp only [fld, formA, MmaMod.code] <;> omega
  · refine finOf_fld ?_; simp only [fld, formA, MmaMod.code] <;> omega
  · refine finOf_fld ?_; simp only [fld, formA, MmaMod.code] <;> omega
  · refine accSel_of ?_; omega

theorem mmaBx4 (m : MmaMod) (d a b : SReg) (t : AccSel) : Statement (.mmaBx4 m d a b t) := by
  have key {w w1 : Nat} (e2_2 : fld w 2 2 = m.hd.code) (e25_7 : fld w 25 7 = 118) (e4_1 : fld w 4 1 = 0) (e1_12_20 : fld w1 12 20 = 0) (g0 : flag w 0 = m.tb) (g1 : flag w 1 = m.ta) (g5 : flag w 5 = m.p) (g6 : flag w 6 = m.g) (s13 : sreg w 13 = a) (s19 : sreg w 19 = d) (s7 : sreg w 7 = b) (ta : accSel w1 = t) :
      decodeScalarRaw w w1 = .ok (.mmaBx4 m d a b t) := by
    have q0 : decodeScalarRaw w w1 = (decodeMma w w1 .mmaBx4) := by
      unfold decodeScalarRaw; rw [e25_7]; rfl
    have q1 : decodeMma w w1 .mmaBx4 = (do zeroed (fld w 4 1); zeroed (fld w1 12 20); let hd ← Hadamard.ofCode (fld w 2 2); .ok (.mmaBx4 { g := flag w 6, p := flag w 5, hd := hd, ta := flag w 1, tb := flag w 0 } (sreg w 19) (sreg w 13) (sreg w 7) (accSel w1))) := by
      unfold decodeMma; rfl
    rw [q0, q1]
    simp only [e2_2, e25_7, e4_1, e1_12_20, g0, g1, g5, g6, s13, s19, s7, ta, Hadamard.ofCode_code, finOfNat_val, zeroed_zero, Dec.bind_ok, if_true, if_false, Bool.false_eq_true]
  have := bit_lt m.g
  have := bit_lt m.p
  have := m.hd.code_lt
  have := bit_lt m.ta
  have := bit_lt m.tb
  have := d.isLt
  have := a.isLt
  have := b.isLt
  have := t.code_lt
  refine long (w := formA 0x76 d.val a.val b.val m.code) (w1 := t.code) rfl rfl (by simp only [formA, MmaMod.code] <;> omega) (by omega) fun _ => key ?_ ?_ ?_ ?_ ?_ ?_ ?_ ?_ ?_ ?_ ?_ ?_
  · simp only [fld, formA, MmaMod.code] <;> omega
  · simp only [fld, formA, MmaMod.code] <;> omega
  · simp only [fld, formA, MmaMod.code] <;> omega
  · simp only [fld] <;> omega
  · refine flag_of_fld ?_; simp only [fld, formA, MmaMod.code] <;> omega
  · refine flag_of_fld ?_; simp only [fld, formA, MmaMod.code] <;> omega
  · refine flag_of_fld ?_; simp only [fld, formA, MmaMod.code] <;> omega
  · refine flag_of_fld ?_; simp only [fld, formA, MmaMod.code] <;> omega
  · refine finOf_fld ?_; simp only [fld, formA, MmaMod.code] <;> omega
  · refine finOf_fld ?_; simp only [fld, formA, MmaMod.code] <;> omega
  · refine finOf_fld ?_; simp only [fld, formA, MmaMod.code] <;> omega
  · refine accSel_of ?_; omega

theorem mmaLut4 (m : MmaMod) (d a b : SReg) (t : AccSel) : Statement (.mmaLut4 m d a b t) := by
  have key {w w1 : Nat} (e2_2 : fld w 2 2 = m.hd.code) (e25_7 : fld w 25 7 = 119) (e4_1 : fld w 4 1 = 0) (e1_12_20 : fld w1 12 20 = 0) (g0 : flag w 0 = m.tb) (g1 : flag w 1 = m.ta) (g5 : flag w 5 = m.p) (g6 : flag w 6 = m.g) (s13 : sreg w 13 = a) (s19 : sreg w 19 = d) (s7 : sreg w 7 = b) (ta : accSel w1 = t) :
      decodeScalarRaw w w1 = .ok (.mmaLut4 m d a b t) := by
    have q0 : decodeScalarRaw w w1 = (decodeMma w w1 .mmaLut4) := by
      unfold decodeScalarRaw; rw [e25_7]; rfl
    have q1 : decodeMma w w1 .mmaLut4 = (do zeroed (fld w 4 1); zeroed (fld w1 12 20); let hd ← Hadamard.ofCode (fld w 2 2); .ok (.mmaLut4 { g := flag w 6, p := flag w 5, hd := hd, ta := flag w 1, tb := flag w 0 } (sreg w 19) (sreg w 13) (sreg w 7) (accSel w1))) := by
      unfold decodeMma; rfl
    rw [q0, q1]
    simp only [e2_2, e25_7, e4_1, e1_12_20, g0, g1, g5, g6, s13, s19, s7, ta, Hadamard.ofCode_code, finOfNat_val, zeroed_zero, Dec.bind_ok, if_true, if_false, Bool.false_eq_true]
  have := bit_lt m.g
  have := bit_lt m.p
  have := m.hd.code_lt
  have := bit_lt m.ta
  have := bit_lt m.tb
  have := d.isLt
  have := a.isLt
  have := b.isLt
  have := t.code_lt
  refine long (w := formA 0x77 d.val a.val b.val m.code) (w1 := t.code) rfl rfl (by simp only [formA, MmaMod.code] <;> omega) (by omega) fun _ => key ?_ ?_ ?_ ?_ ?_ ?_ ?_ ?_ ?_ ?_ ?_ ?_
  · simp only [fld, formA, MmaMod.code] <;> omega
  · simp only [fld, formA, MmaMod.code] <;> omega
  · simp only [fld, formA, MmaMod.code] <;> omega
  · simp only [fld] <;> omega
  · refine flag_of_fld ?_; simp only [fld, formA, MmaMod.code] <;> omega
  · refine flag_of_fld ?_; simp only [fld, formA, MmaMod.code] <;> omega
  · refine flag_of_fld ?_; simp only [fld, formA, MmaMod.code] <;> omega
  · refine flag_of_fld ?_; simp only [fld, formA, MmaMod.code] <;> omega
  · refine finOf_fld ?_; simp only [fld, formA, MmaMod.code] <;> omega
  · refine finOf_fld ?_; simp only [fld, formA, MmaMod.code] <;> omega
  · refine finOf_fld ?_; simp only [fld, formA, MmaMod.code] <;> omega
  · refine accSel_of ?_; omega

theorem mmaI8 (m : MmaMod) (d a b : SReg) (t : AccSel) : Statement (.mmaI8 m d a b t) := by
  have key {w w1 : Nat} (e2_2 : fld w 2 2 = m.hd.code) (e25_7 : fld w 25 7 = 120) (e4_1 : fld w 4 1 = 0) (e1_12_20 : fld w1 12 20 = 0) (g0 : flag w 0 = m.tb) (g1 : flag w 1 = m.ta) (g5 : flag w 5 = m.p) (g6 : flag w 6 = m.g) (s13 : sreg w 13 = a) (s19 : sreg w 19 = d) (s7 : sreg w 7 = b) (ta : accSel w1 = t) :
      decodeScalarRaw w w1 = .ok (.mmaI8 m d a b t) := by
    have q0 : decodeScalarRaw w w1 = (decodeMma w w1 .mmaI8) := by
      unfold decodeScalarRaw; rw [e25_7]; rfl
    have q1 : decodeMma w w1 .mmaI8 = (do zeroed (fld w 4 1); zeroed (fld w1 12 20); let hd ← Hadamard.ofCode (fld w 2 2); .ok (.mmaI8 { g := flag w 6, p := flag w 5, hd := hd, ta := flag w 1, tb := flag w 0 } (sreg w 19) (sreg w 13) (sreg w 7) (accSel w1))) := by
      unfold decodeMma; rfl
    rw [q0, q1]
    simp only [e2_2, e25_7, e4_1, e1_12_20, g0, g1, g5, g6, s13, s19, s7, ta, Hadamard.ofCode_code, finOfNat_val, zeroed_zero, Dec.bind_ok, if_true, if_false, Bool.false_eq_true]
  have := bit_lt m.g
  have := bit_lt m.p
  have := m.hd.code_lt
  have := bit_lt m.ta
  have := bit_lt m.tb
  have := d.isLt
  have := a.isLt
  have := b.isLt
  have := t.code_lt
  refine long (w := formA 0x78 d.val a.val b.val m.code) (w1 := t.code) rfl rfl (by simp only [formA, MmaMod.code] <;> omega) (by omega) fun _ => key ?_ ?_ ?_ ?_ ?_ ?_ ?_ ?_ ?_ ?_ ?_ ?_
  · simp only [fld, formA, MmaMod.code] <;> omega
  · simp only [fld, formA, MmaMod.code] <;> omega
  · simp only [fld, formA, MmaMod.code] <;> omega
  · simp only [fld] <;> omega
  · refine flag_of_fld ?_; simp only [fld, formA, MmaMod.code] <;> omega
  · refine flag_of_fld ?_; simp only [fld, formA, MmaMod.code] <;> omega
  · refine flag_of_fld ?_; simp only [fld, formA, MmaMod.code] <;> omega
  · refine flag_of_fld ?_; simp only [fld, formA, MmaMod.code] <;> omega
  · refine finOf_fld ?_; simp only [fld, formA, MmaMod.code] <;> omega
  · refine finOf_fld ?_; simp only [fld, formA, MmaMod.code] <;> omega
  · refine finOf_fld ?_; simp only [fld, formA, MmaMod.code] <;> omega
  · refine accSel_of ?_; omega

theorem accClr (t : AccSel) (row n : Fin 64) : Statement (.accClr t row n) := by
  have key {w w1 : Nat} (e0_3 : fld w 0 3 = 0) (e25_7 : fld w 25 7 = 121) (e3_4 : fld w 3 4 = 0) (e7_18 : fld w 7 18 = 0) (e1_12_6 : fld w1 12 6 = row.val) (e1_18_6 : fld w1 18 6 = n.val) (e1_24_8 : fld w1 24 8 = 0) (ta : accSel w1 = t) :
      decodeScalarRaw w w1 = .ok (.accClr t row n) := by
    have q0 : decodeScalarRaw w w1 = (decodeAcc w w1) := by
      unfold decodeScalarRaw; rw [e25_7]; rfl
    have q1 : decodeAcc w w1 = (do zeroed (fld w 3 4); (do zeroed (fld w 7 18); zeroed (fld w1 24 8); .ok (.accClr (accSel w1) (Fin.ofNat 64 (fld w1 12 6)) (Fin.ofNat 64 (fld w1 18 6))))) := by
      unfold decodeAcc; rw [e0_3]; rfl
    rw [q0, q1]
    simp only [e0_3, e25_7, e3_4, e7_18, e1_12_6, e1_18_6, e1_24_8, ta, finOfNat_val, zeroed_zero, Dec.bind_ok, if_true, if_false, Bool.false_eq_true]
  have := t.code_lt
  have := row.isLt
  have := n.isLt
  refine long (w := formA 0x79 0 0 0 0) (w1 := accRows t row n) rfl rfl (by simp only [formA] <;> omega) (by simp only [accRows] <;> omega) fun _ => key ?_ ?_ ?_ ?_ ?_ ?_ ?_ ?_
  · simp only [fld, formA] <;> omega
  · simp only [fld, formA] <;> omega
  · simp only [fld, formA] <;> omega
  · simp only [fld, formA] <;> omega
  · simp only [fld, accRows] <;> omega
  · simp only [fld, accRows] <;> omega
  · simp only [fld, accRows] <;> omega
  · refine accSel_of ?_; simp only [accRows] <;> omega

theorem accLd (t : AccSel) (row n : Fin 64) (a : SReg) : Statement (.accLd t row n a) := by
  have key {w w1 : Nat} (e0_3 : fld w 0 3 = 1) (e19_6 : fld w 19 6 = 0) (e25_7 : fld w 25 7 = 121) (e3_4 : fld w 3 4 = 0) (e7_6 : fld w 7 6 = 0) (e1_12_6 : fld w1 12 6 = row.val) (e1_18_6 : fld w1 18 6 = n.val) (e1_24_8 : fld w1 24 8 = 0) (s13 : sreg w 13 = a) (ta : accSel w1 = t) :
      decodeScalarRaw w w1 = .ok (.accLd t row n a) := by
    have q0 : decodeScalarRaw w w1 = (decodeAcc w w1) := by
      unfold decodeScalarRaw; rw [e25_7]; rfl
    have q1 : decodeAcc w w1 = (do zeroed (fld w 3 4); (do zeroed (fld w 19 6); zeroed (fld w 7 6); zeroed (fld w1 24 8); .ok (.accLd (accSel w1) (Fin.ofNat 64 (fld w1 12 6)) (Fin.ofNat 64 (fld w1 18 6)) (sreg w 13)))) := by
      unfold decodeAcc; rw [e0_3]; rfl
    rw [q0, q1]
    simp only [e0_3, e19_6, e25_7, e3_4, e7_6, e1_12_6, e1_18_6, e1_24_8, s13, ta, finOfNat_val, zeroed_zero, Dec.bind_ok, if_true, if_false, Bool.false_eq_true]
  have := t.code_lt
  have := row.isLt
  have := n.isLt
  have := a.isLt
  refine long (w := formA 0x79 0 a.val 0 1) (w1 := accRows t row n) rfl rfl (by simp only [formA] <;> omega) (by simp only [accRows] <;> omega) fun _ => key ?_ ?_ ?_ ?_ ?_ ?_ ?_ ?_ ?_ ?_
  · simp only [fld, formA] <;> omega
  · simp only [fld, formA] <;> omega
  · simp only [fld, formA] <;> omega
  · simp only [fld, formA] <;> omega
  · simp only [fld, formA] <;> omega
  · simp only [fld, accRows] <;> omega
  · simp only [fld, accRows] <;> omega
  · simp only [fld, accRows] <;> omega
  · refine finOf_fld ?_; simp only [fld, formA] <;> omega
  · refine accSel_of ?_; simp only [accRows] <;> omega

theorem accSt (f : AccFmt) (rm : RmSr) (sat : Bool) (t : AccSel) (row n : Fin 64) (a b : SReg) : Statement (.accSt f rm sat t row n a b) := by
  have key {w w1 : Nat} (e0_3 : fld w 0 3 = 2) (e19_6 : fld w 19 6 = 0) (e25_7 : fld w 25 7 = 121) (e3_4 : fld w 3 4 = 0) (e1_12_6 : fld w1 12 6 = row.val) (e1_18_6 : fld w1 18 6 = n.val) (e1_24_4 : fld w1 24 4 = f.code) (e1_28_3 : fld w1 28 3 = rm.code) (g1_31 : flag w1 31 = sat) (s13 : sreg w 13 = a) (s7 : sreg w 7 = b) (ta : accSel w1 = t) :
      decodeScalarRaw w w1 = .ok (.accSt f rm sat t row n a b) := by
    have q0 : decodeScalarRaw w w1 = (decodeAcc w w1) := by
      unfold decodeScalarRaw; rw [e25_7]; rfl
    have q1 : decodeAcc w w1 = (do zeroed (fld w 3 4); (do
    zeroed (fld w 19 6)
    let f ← AccFmt.ofCode (fld w1 24 4)
    let rm ← RmSr.ofCode (fld w1 28 3)
    .ok (.accSt f rm (flag w1 31) (accSel w1) (Fin.ofNat 64 (fld w1 12 6)) (Fin.ofNat 64 (fld w1 18 6)) (sreg w 13) (sreg w 7)))) := by
      unfold decodeAcc; rw [e0_3]; rfl
    rw [q0, q1]
    simp only [e0_3, e19_6, e25_7, e3_4, e1_12_6, e1_18_6, e1_24_4, e1_28_3, g1_31, s13, s7, ta, AccFmt.ofCode_code, RmSr.ofCode_code, finOfNat_val, zeroed_zero, Dec.bind_ok, if_true, if_false, Bool.false_eq_true]
  have := f.code_lt
  have := rm.code_lt
  have := bit_lt sat
  have := t.code_lt
  have := row.isLt
  have := n.isLt
  have := a.isLt
  have := b.isLt
  refine long (w := formA 0x79 0 a.val b.val 2) (w1 := bit sat * 2 ^ 31 + rm.code * 2 ^ 28 + f.code * 2 ^ 24 + accRows t row n) rfl rfl (by simp only [formA] <;> omega) (by simp only [accRows] <;> omega) fun _ => key ?_ ?_ ?_ ?_ ?_ ?_ ?_ ?_ ?_ ?_ ?_ ?_
  · simp only [fld, formA] <;> omega
  · simp only [fld, formA] <;> omega
  · simp only [fld, formA] <;> omega
  · simp only [fld, formA] <;> omega
  · simp only [fld, accRows] <;> omega
  · simp only [fld, accRows] <;> omega
  · simp only [fld, accRows] <;> omega
  · simp only [fld, accRows] <;> omega
  · refine flag_of_fld ?_; simp only [fld, accRows] <;> omega
  · refine finOf_fld ?_; simp only [fld, formA] <;> omega
  · refine finOf_fld ?_; simp only [fld, formA] <;> omega
  · refine accSel_of ?_; simp only [accRows] <;> omega

theorem accAdd (t : AccSel) (row n : Fin 64) (a : SReg) : Statement (.accAdd t row n a) := by
  have key {w w1 : Nat} (e0_3 : fld w 0 3 = 3) (e19_6 : fld w 19 6 = 0) (e25_7 : fld w 25 7 = 121) (e3_4 : fld w 3 4 = 0) (e7_6 : fld w 7 6 = 0) (e1_12_6 : fld w1 12 6 = row.val) (e1_18_6 : fld w1 18 6 = n.val) (e1_24_8 : fld w1 24 8 = 0) (s13 : sreg w 13 = a) (ta : accSel w1 = t) :
      decodeScalarRaw w w1 = .ok (.accAdd t row n a) := by
    have q0 : decodeScalarRaw w w1 = (decodeAcc w w1) := by
      unfold decodeScalarRaw; rw [e25_7]; rfl
    have q1 : decodeAcc w w1 = (do zeroed (fld w 3 4); (do zeroed (fld w 19 6); zeroed (fld w 7 6); zeroed (fld w1 24 8); .ok (.accAdd (accSel w1) (Fin.ofNat 64 (fld w1 12 6)) (Fin.ofNat 64 (fld w1 18 6)) (sreg w 13)))) := by
      unfold decodeAcc; rw [e0_3]; rfl
    rw [q0, q1]
    simp only [e0_3, e19_6, e25_7, e3_4, e7_6, e1_12_6, e1_18_6, e1_24_8, s13, ta, finOfNat_val, zeroed_zero, Dec.bind_ok, if_true, if_false, Bool.false_eq_true]
  have := t.code_lt
  have := row.isLt
  have := n.isLt
  have := a.isLt
  refine long (w := formA 0x79 0 a.val 0 3) (w1 := accRows t row n) rfl rfl (by simp only [formA] <;> omega) (by simp only [accRows] <;> omega) fun _ => key ?_ ?_ ?_ ?_ ?_ ?_ ?_ ?_ ?_ ?_
  · simp only [fld, formA] <;> omega
  · simp only [fld, formA] <;> omega
  · simp only [fld, formA] <;> omega
  · simp only [fld, formA] <;> omega
  · simp only [fld, formA] <;> omega
  · simp only [fld, accRows] <;> omega
  · simp only [fld, accRows] <;> omega
  · simp only [fld, accRows] <;> omega
  · refine finOf_fld ?_; simp only [fld, formA] <;> omega
  · refine accSel_of ?_; simp only [accRows] <;> omega

theorem accRenorm (t : AccSel) (row n : Fin 64) (a : SReg) : Statement (.accRenorm t row n a) := by
  have key {w w1 : Nat} (e0_3 : fld w 0 3 = 4) (e19_6 : fld w 19 6 = 0) (e25_7 : fld w 25 7 = 121) (e3_4 : fld w 3 4 = 0) (e7_6 : fld w 7 6 = 0) (e1_12_6 : fld w1 12 6 = row.val) (e1_18_6 : fld w1 18 6 = n.val) (e1_24_8 : fld w1 24 8 = 0) (s13 : sreg w 13 = a) (ta : accSel w1 = t) :
      decodeScalarRaw w w1 = .ok (.accRenorm t row n a) := by
    have q0 : decodeScalarRaw w w1 = (decodeAcc w w1) := by
      unfold decodeScalarRaw; rw [e25_7]; rfl
    have q1 : decodeAcc w w1 = (do zeroed (fld w 3 4); (do zeroed (fld w 19 6); zeroed (fld w 7 6); zeroed (fld w1 24 8); .ok (.accRenorm (accSel w1) (Fin.ofNat 64 (fld w1 12 6)) (Fin.ofNat 64 (fld w1 18 6)) (sreg w 13)))) := by
      unfold decodeAcc; rw [e0_3]; rfl
    rw [q0, q1]
    simp only [e0_3, e19_6, e25_7, e3_4, e7_6, e1_12_6, e1_18_6, e1_24_8, s13, ta, finOfNat_val, zeroed_zero, Dec.bind_ok, if_true, if_false, Bool.false_eq_true]
  have := t.code_lt
  have := row.isLt
  have := n.isLt
  have := a.isLt
  refine long (w := formA 0x79 0 a.val 0 4) (w1 := accRows t row n) rfl rfl (by simp only [formA] <;> omega) (by simp only [accRows] <;> omega) fun _ => key ?_ ?_ ?_ ?_ ?_ ?_ ?_ ?_ ?_ ?_
  · simp only [fld, formA] <;> omega
  · simp only [fld, formA] <;> omega
  · simp only [fld, formA] <;> omega
  · simp only [fld, formA] <;> omega
  · simp only [fld, formA] <;> omega
  · simp only [fld, accRows] <;> omega
  · simp only [fld, accRows] <;> omega
  · simp only [fld, accRows] <;> omega
  · refine finOf_fld ?_; simp only [fld, formA] <;> omega
  · refine accSel_of ?_; simp only [accRows] <;> omega

theorem accHdr (v : Bool) (d : SReg) (t : AccSel) (row : Fin 64) : Statement (.accHdr v d t row) := by
  have key {w w1 : Nat} (e0_3 : fld w 0 3 = 5) (e25_7 : fld w 25 7 = 121) (e3_4 : fld w 3 4 = 0) (e7_12 : fld w 7 12 = 0) (e1_12_6 : fld w1 12 6 = row.val) (e1_19_13 : fld w1 19 13 = 0) (g1_18 : flag w1 18 = v) (s19 : sreg w 19 = d) (ta : accSel w1 = t) :
      decodeScalarRaw w w1 = .ok (.accHdr v d t row) := by
    have q0 : decodeScalarRaw w w1 = (decodeAcc w w1) := by
      unfold decodeScalarRaw; rw [e25_7]; rfl
    have q1 : decodeAcc w w1 = (do zeroed (fld w 3 4); (do
    zeroed (fld w 7 12)
    zeroed (fld w1 19 13)
    .ok (.accHdr (flag w1 18) (sreg w 19) (accSel w1) (Fin.ofNat 64 (fld w1 12 6))))) := by
      unfold decodeAcc; rw [e0_3]; rfl
    rw [q0, q1]
    simp only [e0_3, e25_7, e3_4, e7_12, e1_12_6, e1_19_13, g1_18, s19, ta, finOfNat_val, zeroed_zero, Dec.bind_ok, if_true, if_false, Bool.false_eq_true]
  have := bit_lt v
  have := d.isLt
  have := t.code_lt
  have := row.isLt
  refine long (w := formA 0x79 d.val 0 0 5) (w1 := bit v * 2 ^ 18 + row.val * 2 ^ 12 + t.code) rfl rfl (by simp only [formA] <;> omega) (by omega) fun _ => key ?_ ?_ ?_ ?_ ?_ ?_ ?_ ?_ ?_
  · simp only [fld, formA] <;> omega
  · simp only [fld, formA] <;> omega
  · simp only [fld, formA] <;> omega
  · simp only [fld, formA] <;> omega
  · simp only [fld] <;> omega
  · simp only [fld] <;> omega
  · refine flag_of_fld ?_; simp only [fld] <;> omega
  · refine finOf_fld ?_; simp only [fld, formA] <;> omega
  · refine accSel_of ?_; omega

theorem accScale (t : AccSel) (row n : Fin 64) (a : SReg) : Statement (.accScale t row n a) := by
  have key {w w1 : Nat} (e0_3 : fld w 0 3 = 6) (e19_6 : fld w 19 6 = 0) (e25_7 : fld w 25 7 = 121) (e3_4 : fld w 3 4 = 0) (e7_6 : fld w 7 6 = 0) (e1_12_6 : fld w1 12 6 = row.val) (e1_18_6 : fld w1 18 6 = n.val) (e1_24_8 : fld w1 24 8 = 0) (s13 : sreg w 13 = a) (ta : accSel w1 = t) :
      decodeScalarRaw w w1 = .ok (.accScale t row n a) := by
    have q0 : decodeScalarRaw w w1 = (decodeAcc w w1) := by
      unfold decodeScalarRaw; rw [e25_7]; rfl
    have q1 : decodeAcc w w1 = (do zeroed (fld w 3 4); (do zeroed (fld w 19 6); zeroed (fld w 7 6); zeroed (fld w1 24 8); .ok (.accScale (accSel w1) (Fin.ofNat 64 (fld w1 12 6)) (Fin.ofNat 64 (fld w1 18 6)) (sreg w 13)))) := by
      unfold decodeAcc; rw [e0_3]; rfl
    rw [q0, q1]
    simp only [e0_3, e19_6, e25_7, e3_4, e7_6, e1_12_6, e1_18_6, e1_24_8, s13, ta, finOfNat_val, zeroed_zero, Dec.bind_ok, if_true, if_false, Bool.false_eq_true]
  have := t.code_lt
  have := row.isLt
  have := n.isLt
  have := a.isLt
  refine long (w := formA 0x79 0 a.val 0 6) (w1 := accRows t row n) rfl rfl (by simp only [formA] <;> omega) (by simp only [accRows] <;> omega) fun _ => key ?_ ?_ ?_ ?_ ?_ ?_ ?_ ?_ ?_ ?_
  · simp only [fld, formA] <;> omega
  · simp only [fld, formA] <;> omega
  · simp only [fld, formA] <;> omega
  · simp only [fld, formA] <;> omega
  · simp only [fld, formA] <;> omega
  · simp only [fld, accRows] <;> omega
  · simp only [fld, accRows] <;> omega
  · simp only [fld, accRows] <;> omega
  · refine finOf_fld ?_; simp only [fld, formA] <;> omega
  · refine accSel_of ?_; simp only [accRows] <;> omega

theorem ctabW (core q : Fin 4) (a : SReg) : Statement (.ctabW core q a) := by
  have key {w w1 : Nat} (e0_3 : fld w 0 3 = 0) (e19_6 : fld w 19 6 = 0) (e25_7 : fld w 25 7 = 122) (e3_4 : fld w 3 4 = 0) (e7_6 : fld w 7 6 = 0) (e1_0_2 : fld w1 0 2 = q.val) (e1_2_2 : fld w1 2 2 = core.val) (e1_4_28 : fld w1 4 28 = 0) (s13 : sreg w 13 = a) :
      decodeScalarRaw w w1 = .ok (.ctabW core q a) := by
    have q0 : decodeScalarRaw w w1 = (decodeMctl w w1) := by
      unfold decodeScalarRaw; rw [e25_7]; rfl
    have q1 : decodeMctl w w1 = (do zeroed (fld w 3 4); (do
    zeroed (fld w 19 6); zeroed (fld w 7 6); zeroed (fld w1 4 28)
    .ok (.ctabW (Fin.ofNat 4 (fld w1 2 2)) (Fin.ofNat 4 (fld w1 0 2)) (sreg w 13)))) := by
      unfold decodeMctl; rw [e0_3]; rfl
    rw [q0, q1]
    simp only [e0_3, e19_6, e25_7, e3_4, e7_6, e1_0_2, e1_2_2, e1_4_28, s13, finOfNat_val, zeroed_zero, Dec.bind_ok, if_true, if_false, Bool.false_eq_true]
  have := core.isLt
  have := q.isLt
  have := a.isLt
  refine long (w := formA 0x7A 0 a.val 0 0) (w1 := core.val * 4 + q.val) rfl rfl (by simp only [formA] <;> omega) (by omega) fun _ => key ?_ ?_ ?_ ?_ ?_ ?_ ?_ ?_ ?_
  · simp only [fld, formA] <;> omega
  · simp only [fld, formA] <;> omega
  · simp only [fld, formA] <;> omega
  · simp only [fld, formA] <;> omega
  · simp only [fld, formA] <;> omega
  · simp only [fld] <;> omega
  · simp only [fld] <;> omega
  · simp only [fld] <;> omega
  · refine finOf_fld ?_; simp only [fld, formA] <;> omega

theorem mwt (n : Fin 64) : Statement (.mwt n) := by
  have key {w w1 : Nat} (e0_3 : fld w 0 3 = 1) (e25_7 : fld w 25 7 = 122) (e3_4 : fld w 3 4 = 0) (e7_18 : fld w 7 18 = 0) (e1_0_6 : fld w1 0 6 = n.val) (e1_6_26 : fld w1 6 26 = 0) :
      decodeScalarRaw w w1 = .ok (.mwt n) := by
    have q0 : decodeScalarRaw w w1 = (decodeMctl w w1) := by
      unfold decodeScalarRaw; rw [e25_7]; rfl
    have q1 : decodeMctl w w1 = (do zeroed (fld w 3 4); (do zeroed (fld w 7 18); zeroed (fld w1 6 26); .ok (.mwt (Fin.ofNat 64 (fld w1 0 6))))) := by
      unfold decodeMctl; rw [e0_3]; rfl
    rw [q0, q1]
    simp only [e0_3, e25_7, e3_4, e7_18, e1_0_6, e1_6_26, finOfNat_val, zeroed_zero, Dec.bind_ok, if_true, if_false, Bool.false_eq_true]
  have := n.isLt
  refine long (w := formA 0x7A 0 0 0 1) (w1 := n.val) rfl rfl (by simp only [formA] <;> omega) (by omega) fun _ => key ?_ ?_ ?_ ?_ ?_ ?_
  · simp only [fld, formA] <;> omega
  · simp only [fld, formA] <;> omega
  · simp only [fld, formA] <;> omega
  · simp only [fld, formA] <;> omega
  · simp only [fld] <;> omega
  · simp only [fld] <;> omega

theorem mfence (sc : MfenceScope) : Statement (.mfence sc) := by
  have key {w w1 : Nat} (e0_3 : fld w 0 3 = 2) (e25_7 : fld w 25 7 = 122) (e3_4 : fld w 3 4 = 0) (e7_18 : fld w 7 18 = 0) (e1_0_2 : fld w1 0 2 = sc.code) (e1_2_30 : fld w1 2 30 = 0) :
      decodeScalarRaw w w1 = .ok (.mfence sc) := by
    have q0 : decodeScalarRaw w w1 = (decodeMctl w w1) := by
      unfold decodeScalarRaw; rw [e25_7]; rfl
    have q1 : decodeMctl w w1 = (do zeroed (fld w 3 4); (do
    zeroed (fld w 7 18); zeroed (fld w1 2 30)
    let sc ← MfenceScope.ofCode (fld w1 0 2)
    .ok (.mfence sc))) := by
      unfold decodeMctl; rw [e0_3]; rfl
    rw [q0, q1]
    simp only [e0_3, e25_7, e3_4, e7_18, e1_0_2, e1_2_30, MfenceScope.ofCode_code, finOfNat_val, zeroed_zero, Dec.bind_ok, if_true, if_false, Bool.false_eq_true]
  have := sc.code_lt
  refine long (w := formA 0x7A 0 0 0 2) (w1 := sc.code) rfl rfl (by simp only [formA] <;> omega) (by omega) fun _ => key ?_ ?_ ?_ ?_ ?_ ?_
  · simp only [fld, formA] <;> omega
  · simp only [fld, formA] <;> omega
  · simp only [fld, formA] <;> omega
  · simp only [fld, formA] <;> omega
  · simp only [fld] <;> omega
  · simp only [fld] <;> omega

theorem mbxTake (d a : SReg) : Statement (.mbxTake d a) := by
  have key {w : Nat} (e0_3 : fld w 0 3 = 3) (e25_7 : fld w 25 7 = 122) (e3_4 : fld w 3 4 = 0) (e7_6 : fld w 7 6 = 0) (s13 : sreg w 13 = a) (s19 : sreg w 19 = d) :
      decodeScalarRaw w 0 = .ok (.mbxTake d a) := by
    have q0 : decodeScalarRaw w 0 = (decodeMctl w 0) := by
      unfold decodeScalarRaw; rw [e25_7]; rfl
    have q1 : decodeMctl w 0 = (do zeroed (fld w 3 4); (do zeroed (fld w 7 6); zeroed 0; .ok (.mbxTake (sreg w 19) (sreg w 13)))) := by
      unfold decodeMctl; rw [e0_3]; rfl
    rw [q0, q1]
    simp only [e0_3, e25_7, e3_4, e7_6, s13, s19, finOfNat_val, zeroed_zero, Dec.bind_ok, if_true, if_false, Bool.false_eq_true]
  have := d.isLt
  have := a.isLt
  refine long (w := formA 0x7A d.val a.val 0 3) (w1 := 0) rfl rfl (by simp only [formA] <;> omega) (by omega) fun _ => key ?_ ?_ ?_ ?_ ?_ ?_
  · simp only [fld, formA] <;> omega
  · simp only [fld, formA] <;> omega
  · simp only [fld, formA] <;> omega
  · simp only [fld, formA] <;> omega
  · refine finOf_fld ?_; simp only [fld, formA] <;> omega
  · refine finOf_fld ?_; simp only [fld, formA] <;> omega

theorem rqSend (q : Fin 32) (a : SReg) : Statement (.rqSend q a) := by
  have key {w w1 : Nat} (e0_3 : fld w 0 3 = 4) (e19_6 : fld w 19 6 = 0) (e25_7 : fld w 25 7 = 122) (e3_4 : fld w 3 4 = 0) (e7_6 : fld w 7 6 = 0) (e1_0_5 : fld w1 0 5 = q.val) (e1_5_27 : fld w1 5 27 = 0) (s13 : sreg w 13 = a) :
      decodeScalarRaw w w1 = .ok (.rqSend q a) := by
    have q0 : decodeScalarRaw w w1 = (decodeMctl w w1) := by
      unfold decodeScalarRaw; rw [e25_7]; rfl
    have q1 : decodeMctl w w1 = (do zeroed (fld w 3 4); (do
    zeroed (fld w 19 6); zeroed (fld w 7 6); zeroed (fld w1 5 27)
    .ok (.rqSend (Fin.ofNat 32 (fld w1 0 5)) (sreg w 13)))) := by
      unfold decodeMctl; rw [e0_3]; rfl
    rw [q0, q1]
    simp only [e0_3, e19_6, e25_7, e3_4, e7_6, e1_0_5, e1_5_27, s13, finOfNat_val, zeroed_zero, Dec.bind_ok, if_true, if_false, Bool.false_eq_true]
  have := q.isLt
  have := a.isLt
  refine long (w := formA 0x7A 0 a.val 0 4) (w1 := q.val) rfl rfl (by simp only [formA] <;> omega) (by omega) fun _ => key ?_ ?_ ?_ ?_ ?_ ?_ ?_ ?_
  · simp only [fld, formA] <;> omega
  · simp only [fld, formA] <;> omega
  · simp only [fld, formA] <;> omega
  · simp only [fld, formA] <;> omega
  · simp only [fld, formA] <;> omega
  · simp only [fld] <;> omega
  · simp only [fld] <;> omega
  · refine finOf_fld ?_; simp only [fld, formA] <;> omega

/-! ## Lane words -/

theorem iadd (h : LaneHdr) (ty : IntTy) (sat : Bool) (d a : Opd) (b : Src) : Statement (.iadd h ty sat d a b) := by
  have key {r : RawLane} (hp : r.page = 0) (hc : r.cell = 0x01) (hh : r.hdr = h) (hm : r.mod = intModCode ty sat)
      (hk : ∀ k, r.bin k = k d a b) : decodeLaneRaw r = .ok (.iadd h ty sat d a b) := by
    have q : decodeIntRow r = r.bin fun d a b => intMod r.mod allTy true fun ty s => .iadd r.hdr ty s d a b := by
      unfold decodeIntRow; rw [hc]; rfl
    rw [row_int (by rw [hc]; decide) hp, q, hk, hm, hh, intMod_all]
  obtain ⟨hp, hc, hh, -, -, -, hm, -, -⟩ := rawBin_head 0 0x01 h d.code a.code b 0 (intModCode ty sat)
  exact lane (encodeRaw_plain rfl rfl rfl (by cases b <;> rfl))
    (rawBin_fits (by decide) (by decide) d.code_lt a.code_lt (by decide) (intModCode_lt ty sat)) fun _ =>
    key hp hc hh hm (rawBin_bin 0 0x01 h d a b (intModCode ty sat))

theorem isub (h : LaneHdr) (ty : IntTy) (sat : Bool) (d a : Opd) (b : Src) : Statement (.isub h ty sat d a b) := by
  have key {r : RawLane} (hp : r.page = 0) (hc : r.cell = 0x02) (hh : r.hdr = h) (hm : r.mod = intModCode ty sat)
      (hk : ∀ k, r.bin k = k d a b) : decodeLaneRaw r = .ok (.isub h ty sat d a b) := by
    have q : decodeIntRow r = r.bin fun d a b => intMod r.mod allTy true fun ty s => .isub r.hdr ty s d a b := by
      unfold decodeIntRow; rw [hc]; rfl
    rw [row_int (by rw [hc]; decide) hp, q, hk, hm, hh, intMod_all]
  obtain ⟨hp, hc, hh, -, -, -, hm, -, -⟩ := rawBin_head 0 0x02 h d.code a.code b 0 (intModCode ty sat)
  exact lane (encodeRaw_plain rfl rfl rfl (by cases b <;> rfl))
    (rawBin_fits (by decide) (by decide) d.code_lt a.code_lt (by decide) (intModCode_lt ty sat)) fun _ =>
    key hp hc hh hm (rawBin_bin 0 0x02 h d a b (intModCode ty sat))

theorem imul (h : LaneHdr) (ty : IntTy) (sat : Bool) (d a : Opd) (b : Src) : Statement (.imul h ty sat d a b) := by
  have key {r : RawLane} (hp : r.page = 0) (hc : r.cell = 0x03) (hh : r.hdr = h) (hm : r.mod = intModCode ty sat)
      (hk : ∀ k, r.bin k = k d a b) : decodeLaneRaw r = .ok (.imul h ty sat d a b) := by
    have q : decodeIntRow r = r.bin fun d a b => intMod r.mod allTy true fun ty s => .imul r.hdr ty s d a b := by
      unfold decodeIntRow; rw [hc]; rfl
    rw [row_int (by rw [hc]; decide) hp, q, hk, hm, hh, intMod_all]
  obtain ⟨hp, hc, hh, -, -, -, hm, -, -⟩ := rawBin_head 0 0x03 h d.code a.code b 0 (intModCode ty sat)
  exact lane (encodeRaw_plain rfl rfl rfl (by cases b <;> rfl))
    (rawBin_fits (by decide) (by decide) d.code_lt a.code_lt (by decide) (intModCode_lt ty sat)) fun _ =>
    key hp hc hh hm (rawBin_bin 0 0x03 h d a b (intModCode ty sat))

theorem imad (h : LaneHdr) (ty : IntTy) (sat : Bool) (d a : Opd) (b c : Src) : Statement (.imad h ty sat d a b c) := by
  have key {r : RawLane} (hp : r.page = 0) (hc : r.cell = 0x04) (hh : r.hdr = h) (hm : r.mod = intModCode ty sat)
      (hk : ∀ k, r.tri k = k d a b c) : decodeLaneRaw r = .ok (.imad h ty sat d a b c) := by
    have q : decodeIntRow r = r.tri (fun d a b c => intMod r.mod allTy true fun ty s => .imad r.hdr ty s d a b c) := by
      unfold decodeIntRow; rw [hc]; rfl
    rw [row_int (by rw [hc]; decide) hp, q, hk, hm, hh, intMod_all]
  obtain ⟨hp, hc, hh, -, hm⟩ := rawTri_head 0 0x04 h d.code (.reg a) b c (intModCode ty sat)
  by_cases hi : immCount (.reg a) b c ≤ 1
  · exact lane (encodeRaw_plain rfl rfl rfl (by cases b <;> cases c <;> first | rfl | simp [immCount] at hi))
      (rawTri_fits (by decide) (by decide) d.code_lt (intModCode_lt ty sat)) fun _ =>
      key hp hc hh hm (rawTri_tri 0 0x04 h d a b c (intModCode ty sat) hi)
  · exact absurd_imms rfl (by cases b <;> cases c <;> first | exact (by decide : (1 : Nat) < 2) | exact (by decide : (1 : Nat) < 3) | simp [immCount] at hi)

theorem imulh (h : LaneHdr) (n : Bool) (d a : Opd) (b : Src) : Statement (.imulh h n d a b) := by
  have key {r : RawLane} (hp : r.page = 0) (hc : r.cell = 0x05) (hh : r.hdr = h) (hm : r.mod = bit n)
      (hk : ∀ k, r.bin k = k d a b) : decodeLaneRaw r = .ok (.imulh h n d a b) := by
    have q : decodeIntRow r = r.bin fun d a b => intMod r.mod [.i32, .n32] false fun ty _ => .imulh r.hdr (ty == .n32) d a b := by
      unfold decodeIntRow; rw [hc]; rfl
    rw [row_int (by rw [hc]; decide) hp, q, hk, hm, hh, intMod_bit]
    cases n <;> rfl
  obtain ⟨hp, hc, hh, -, -, -, hm, -, -⟩ := rawBin_head 0 0x05 h d.code a.code b 0 (bit n)
  exact lane (encodeRaw_plain rfl rfl rfl (by cases b <;> rfl))
    (rawBin_fits (by decide) (by decide) d.code_lt a.code_lt (by decide) (Nat.lt_of_lt_of_le (bit_lt n) (by decide))) fun _ =>
    key hp hc hh hm (rawBin_bin 0 0x05 h d a b (bit n))

theorem idp4 (h : LaneHdr) (as bs sat : Bool) (d a : Opd) (b c : Src) : Statement (.idp4 h as bs sat d a b c) := by
  have key {r : RawLane} (hp : r.page = 0) (hc : r.cell = 0x06) (hh : r.hdr = h) (hm : r.mod = bit as + bit bs * 2 + bit sat * 4)
      (hk : ∀ k, r.tri k = k d a b c) : decodeLaneRaw r = .ok (.idp4 h as bs sat d a b c) := by
    have q : decodeIntRow r = r.tri (fun d a b c => do
        zeroed (r.mod / 8)
        .ok (.idp4 r.hdr (flag r.mod 0) (flag r.mod 1) (flag r.mod 2) d a b c)) := by
      unfold decodeIntRow; rw [hc]; rfl
    rw [row_int (by rw [hc]; decide) hp, q, hk, hm, hh]
    cases as <;> cases bs <;> cases sat <;> rfl
  obtain ⟨hp, hc, hh, -, hm⟩ := rawTri_head 0 0x06 h d.code (.reg a) b c (bit as + bit bs * 2 + bit sat * 4)
  by_cases hi : immCount (.reg a) b c ≤ 1
  · exact lane (encodeRaw_plain rfl rfl rfl (by cases b <;> cases c <;> first | rfl | simp [immCount] at hi))
      (rawTri_fits (by decide) (by decide) d.code_lt (by have := bit_lt as; have := bit_lt bs; have := bit_lt sat; omega)) fun _ =>
      key hp hc hh hm (rawTri_tri 0 0x06 h d a b c (bit as + bit bs * 2 + bit sat * 4) hi)
  · exact absurd_imms rfl (by cases b <;> cases c <;> first | exact (by decide : (1 : Nat) < 2) | exact (by decide : (1 : Nat) < 3) | simp [immCount] at hi)

theorem iabs (h : LaneHdr) (wide sat : Bool) (d a : Opd) : Statement (.iabs h wide sat d a) := by
  have key {r : RawLane} (hp : r.page = 0) (hc : r.cell = 0x07) (hh : r.hdr = h) (hm : r.mod = bit wide * 2 + bit sat * 4)
      (hk : ∀ k, r.un k = k d a) : decodeLaneRaw r = .ok (.iabs h wide sat d a) := by
    have q : decodeIntRow r = r.un (fun d a => intMod r.mod [.i32, .i64] true fun ty s => .iabs r.hdr (ty == .i64) s d a) := by
      unfold decodeIntRow; rw [hc]; rfl
    rw [row_int (by rw [hc]; decide) hp, q, hk, hm, hh, intMod_abs]
    cases wide <;> rfl
  exact lane (r := rawX 0 0x07 h d.code a.code 0 0 (bit wide * 2 + bit sat * 4)) (encodeRaw_plain rfl rfl rfl rfl)
    (rawX_fits (by decide) (by decide) d.code_lt a.code_lt (by decide) (by decide) (by have := bit_lt wide; have := bit_lt sat; omega)) fun _ =>
    key rfl rfl rfl rfl (rawX_un 0 0x07 h d a (bit wide * 2 + bit sat * 4))

theorem imin (h : LaneHdr) (ty : IntTy) (d a : Opd) (b : Src) : Statement (.imin h ty d a b) := by
  have key {r : RawLane} (hp : r.page = 0) (hc : r.cell = 0x08) (hh : r.hdr = h) (hm : r.mod = ty.code)
      (hk : ∀ k, r.bin k = k d a b) : decodeLaneRaw r = .ok (.imin h ty d a b) := by
    have q : decodeIntRow r = r.bin fun d a b => intMod r.mod allTy false fun ty _ => .imin r.hdr ty d a b := by
      unfold decodeIntRow; rw [hc]; rfl
    rw [row_int (by rw [hc]; decide) hp, q, hk, hm, hh, intMod_ty]
  obtain ⟨hp, hc, hh, -, -, -, hm, -, -⟩ := rawBin_head 0 0x08 h d.code a.code b 0 (ty.code)
  exact lane (encodeRaw_plain rfl rfl rfl (by cases b <;> rfl))
    (rawBin_fits (by decide) (by decide) d.code_lt a.code_lt (by decide) (Nat.lt_of_lt_of_le ty.code_lt (by decide))) fun _ =>
    key hp hc hh hm (rawBin_bin 0 0x08 h d a b (ty.code))

theorem imax (h : LaneHdr) (ty : IntTy) (d a : Opd) (b : Src) : Statement (.imax h ty d a b) := by
  have key {r : RawLane} (hp : r.page = 0) (hc : r.cell = 0x09) (hh : r.hdr = h) (hm : r.mod = ty.code)
      (hk : ∀ k, r.bin k = k d a b) : decodeLaneRaw r = .ok (.imax h ty d a b) := by
    have q : decodeIntRow r = r.bin fun d a b => intMod r.mod allTy false fun ty _ => .imax r.hdr ty d a b := by
      unfold decodeIntRow; rw [hc]; rfl
    rw [row_int (by rw [hc]; decide) hp, q, hk, hm, hh, intMod_ty]
  obtain ⟨hp, hc, hh, -, -, -, hm, -, -⟩ := rawBin_head 0 0x09 h d.code a.code b 0 (ty.code)
  exact lane (encodeRaw_plain rfl rfl rfl (by cases b <;> rfl))
    (rawBin_fits (by decide) (by decide) d.code_lt a.code_lt (by decide) (Nat.lt_of_lt_of_le ty.code_lt (by decide))) fun _ =>
    key hp hc hh hm (rawBin_bin 0 0x09 h d a b (ty.code))

theorem icmp (h : LaneHdr) (ty : IntTy) (cc : Cond) (d : PReg) (a : Opd) (b : Src) : Statement (.icmp h ty cc d a b) := by
  have h1 := ty.code_lt
  have h2 := cc.code_lt
  have h3 := d.isLt
  have key {r : RawLane} (hp : r.page = 0) (hc : r.cell = 0x0A) (hh : r.hdr = h) (hd : r.d = 208 + d.val)
      (ha : r.a = a.code) (hz : r.c = 0) (hm : r.mod = ty.code + cc.code * 8) (hf : r.form [0, 2] = .ok ())
      (hs : r.src 2 r.b = .ok b) : decodeLaneRaw r = .ok (.icmp h ty cc d a b) := by
    have q : decodeIntRow r = (do
        r.form [0, 2]; zeroed r.c; zeroed (r.mod / 64); zeroed (fld r.mod 2 1)
        let ty ← IntTy.ofCode (fld r.mod 0 2)
        let cc ← Cond.ofCode (fld r.mod 3 3)
        let d ← pregOf r.d
        let a ← Opd.ofCode r.a
        let b ← r.src 2 r.b
        .ok (.icmp r.hdr ty cc d a b)) := by
      unfold decodeIntRow; rw [hc]; rfl
    have e1 : (ty.code + cc.code * 8) / 64 = 0 := by omega
    have e2 : fld (ty.code + cc.code * 8) 2 1 = 0 := by simp only [fld]; omega
    have e3 : fld (ty.code + cc.code * 8) 0 2 = ty.code := by simp only [fld]; omega
    have e4 : fld (ty.code + cc.code * 8) 3 3 = cc.code := by simp only [fld]; omega
    rw [row_int (by rw [hc]; decide) hp, q]
    simp only [hh, hd, ha, hz, hm, hf, hs, e1, e2, e3, e4, zeroed_zero, Dec.bind_ok, IntTy.ofCode_code, Cond.ofCode_code,
      Opd.ofCode_code, pregOf_val]
  obtain ⟨hp, hc, hh, hd, ha, hz, hm, hf, hs⟩ := rawBin_head 0 0x0A h (208 + d.val) a.code b 0 (ty.code + cc.code * 8)
  exact lane (encodeRaw_plain rfl rfl rfl (by cases b <;> rfl))
    (rawBin_fits (by decide) (by decide) (by omega) a.code_lt (by decide) (by omega)) fun _ => key hp hc hh hd ha hz hm hf hs

theorem isel (h : LaneHdr) (ty : IntTy) (d : Opd) (a b : Src) (c : PReg) : Statement (.isel h ty d a b c) := by
  have h1 := ty.code_lt
  have h3 := c.isLt
  have key {r : RawLane} (hp : r.page = 0) (hc : r.cell = 0x0B) (hh : r.hdr = h) (hd : r.d = d.code)
      (hz : r.c = 208 + c.val) (hm : r.mod = ty.code) (hf : r.form [0, 1, 2] = .ok ())
      (ha : r.src 1 r.a = .ok a) (hs : r.src 2 r.b = .ok b) : decodeLaneRaw r = .ok (.isel h ty d a b c) := by
    have q : decodeIntRow r = (do
        r.form [0, 1, 2]
        let d ← Opd.ofCode r.d
        let a ← r.src 1 r.a
        let b ← r.src 2 r.b
        let c ← pregOf r.c
        intMod r.mod allTy false fun ty _ => .isel r.hdr ty d a b c) := by
      unfold decodeIntRow; rw [hc]; rfl
    rw [row_int (by rw [hc]; decide) hp, q]
    simp only [hh, hd, ha, hz, hm, hf, hs, Dec.bind_ok, intMod_ty, Opd.ofCode_code, pregOf_val]
  cases a with
  | reg a =>
    obtain ⟨hp, hc, hh, hd, ha, hz, hm, hf, hs⟩ := rawBin_head 0 0x0B h d.code a.code b (208 + c.val) ty.code
    have hf' : (rawBin 0 0x0B h d.code a.code b (208 + c.val) ty.code).form [0, 1, 2] = .ok () := by cases b <;> rfl
    have ha' : (rawBin 0 0x0B h d.code a.code b (208 + c.val) ty.code).src 1
        (rawBin 0 0x0B h d.code a.code b (208 + c.val) ty.code).a = .ok (.reg a) := by
      rw [ha]; exact src_reg (by cases b <;> simp [rawBin, rawX])
    exact lane (encodeRaw_plain rfl rfl rfl (by cases b <;> rfl))
      (rawBin_fits (by decide) (by decide) d.code_lt a.code_lt (by omega) (by omega)) fun _ =>
      key hp hc hh hd hz hm hf' ha' hs
  | imm x =>
    cases b with
    | reg b =>
      exact lane (r := ⟨0, 0x0B, h, d.code, ty.code, b.code, 208 + c.val, 1, x.toNat⟩) (encodeRaw_plain rfl rfl rfl rfl)
        (fits_of (by decide) (by decide) d.code_lt (Nat.lt_of_lt_of_le h1 (by decide)) b.code_lt (by omega)
          (by decide) x.isLt) fun _ =>
        key rfl rfl rfl rfl rfl rfl rfl (src_imm rfl rfl) (src_reg (show (1 : Nat) ≠ 2 by decide))
    | imm y => exact absurd_imms rfl (by exact (by decide : (1 : Nat) < 2))

theorem bool3 (h : LaneHdr) (t : BitVec 8) (d : Opd) (a b c : Src) : Statement (.bool3 h t d a b c) := by
  have h1 := t.isLt
  have key {r : RawLane} (hp : r.page = 0) (hc : r.cell = 0x0C) (hh : r.hdr = h) (hd : r.d = d.code)
      (hm : r.mod = t.toNat) (hf : r.form [0, 1, 2, 3] = .ok ()) (ha : r.src 1 r.a = .ok a) (hb : r.src 2 r.b = .ok b)
      (hs : r.src 3 r.c = .ok c) : decodeLaneRaw r = .ok (.bool3 h t d a b c) := by
    have q : decodeIntRow r = (do
        r.form [0, 1, 2, 3]; zeroed (r.mod / 256)
        let d ← Opd.ofCode r.d
        let a ← r.src 1 r.a
        let b ← r.src 2 r.b
        let c ← r.src 3 r.c
        .ok (.bool3 r.hdr (BitVec.ofNat 8 r.mod) d a b c)) := by
      unfold decodeIntRow; rw [hc]; rfl
    have e1 : t.toNat / 256 = 0 := by omega
    rw [row_int (by rw [hc]; decide) hp, q]
    simp only [hh, hd, ha, hb, hm, hf, hs, e1, zeroed_zero, Dec.bind_ok, Opd.ofCode_code, BitVec.ofNat_toNat,
      BitVec.setWidth_eq]
  by_cases hi : immCount a b c ≤ 1
  · obtain ⟨hp, hc, hh, hd, hm⟩ := rawTri_head 0 0x0C h d.code a b c t.toNat
    obtain ⟨ha, hb, hs⟩ := rawTri_srcs 0 0x0C h d.code a b c t.toNat hi
    have hf : (rawTri 0 0x0C h d.code a b c t.toNat).form [0, 1, 2, 3] = .ok () := by
      cases a <;> cases b <;> cases c <;> rfl
    exact lane (encodeRaw_plain rfl rfl rfl
        (by cases a <;> cases b <;> cases c <;> first | rfl | simp [immCount] at hi))
      (rawTri_fits (by decide) (by decide) d.code_lt h1) fun _ => key hp hc hh hd hm hf ha hb hs
  · exact absurd_imms rfl (by cases a <;> cases b <;> cases c <;> first | exact (by decide : (1 : Nat) < 2) | exact (by decide : (1 : Nat) < 3) | simp [immCount] at hi)

theorem popc (h : LaneHdr) (d a : Opd) : Statement (.popc h d a) := by
  have key {r : RawLane} (hp : r.page = 0) (hc : r.cell = 0x0D) (hh : r.hdr = h) (hm : r.mod = 0)
      (hk : ∀ k, r.un k = k d a) : decodeLaneRaw r = .ok (.popc h d a) := by
    have q : decodeIntRow r = r.un (fun d a => do
        zeroed r.mod
        .ok (.popc r.hdr d a)) := by
      unfold decodeIntRow; rw [hc]; rfl
    rw [row_int (by rw [hc]; decide) hp, q, hk, hm, hh, zeroed_zero, Dec.bind_ok]
  exact lane (r := rawX 0 0x0D h d.code a.code 0 0 (0)) (encodeRaw_plain rfl rfl rfl rfl)
    (rawX_fits (by decide) (by decide) d.code_lt a.code_lt (by decide) (by decide) (by decide)) fun _ =>
    key rfl rfl rfl rfl (rawX_un 0 0x0D h d a (0))

theorem clz (h : LaneHdr) (d a : Opd) : Statement (.clz h d a) := by
  have key {r : RawLane} (hp : r.page = 0) (hc : r.cell = 0x0E) (hh : r.hdr = h) (hm : r.mod = 0)
      (hk : ∀ k, r.un k = k d a) : decodeLaneRaw r = .ok (.clz h d a) := by
    have q : decodeIntRow r = r.un (fun d a => do
        zeroed r.mod
        .ok (.clz r.hdr d a)) := by
      unfold decodeIntRow; rw [hc]; rfl
    rw [row_int (by rw [hc]; decide) hp, q, hk, hm, hh, zeroed_zero, Dec.bind_ok]
  exact lane (r := rawX 0 0x0E h d.code a.code 0 0 (0)) (encodeRaw_plain rfl rfl rfl rfl)
    (rawX_fits (by decide) (by decide) d.code_lt a.code_lt (by decide) (by decide) (by decide)) fun _ =>
    key rfl rfl rfl rfl (rawX_un 0 0x0E h d a (0))

theorem brev (h : LaneHdr) (d a : Opd) : Statement (.brev h d a) := by
  have key {r : RawLane} (hp : r.page = 0) (hc : r.cell = 0x0F) (hh : r.hdr = h) (hm : r.mod = 0)
      (hk : ∀ k, r.un k = k d a) : decodeLaneRaw r = .ok (.brev h d a) := by
    have q : decodeIntRow r = r.un (fun d a => do
        zeroed r.mod
        .ok (.brev r.hdr d a)) := by
      unfold decodeIntRow; rw [hc]; rfl
    rw [row_int (by rw [hc]; decide) hp, q, hk, hm, hh, zeroed_zero, Dec.bind_ok]
  exact lane (r := rawX 0 0x0F h d.code a.code 0 0 (0)) (encodeRaw_plain rfl rfl rfl rfl)
    (rawX_fits (by decide) (by decide) d.code_lt a.code_lt (by decide) (by decide) (by decide)) fun _ =>
    key rfl rfl rfl rfl (rawX_un 0 0x0F h d a (0))

theorem ishl (h : LaneHdr) (ty : IntTy) (d a : Opd) (b : Src) : Statement (.ishl h ty d a b) := by
  have key {r : RawLane} (hp : r.page = 0) (hc : r.cell = 0x10) (hh : r.hdr = h) (hm : r.mod = ty.code)
      (hk : ∀ k, r.bin k = k d a b) : decodeLaneRaw r = .ok (.ishl h ty d a b) := by
    have q : decodeIntRow r = r.bin fun d a b => intMod r.mod allTy false fun ty _ => .ishl r.hdr ty d a b := by
      unfold decodeIntRow; rw [hc]; rfl
    rw [row_int (by rw [hc]; decide) hp, q, hk, hm, hh, intMod_ty]
  obtain ⟨hp, hc, hh, -, -, -, hm, -, -⟩ := rawBin_head 0 0x10 h d.code a.code b 0 (ty.code)
  exact lane (encodeRaw_plain rfl rfl rfl (by cases b <;> rfl))
    (rawBin_fits (by decide) (by decide) d.code_lt a.code_lt (by decide) (Nat.lt_of_lt_of_le ty.code_lt (by decide))) fun _ =>
    key hp hc hh hm (rawBin_bin 0 0x10 h d a b (ty.code))

theorem ishr (h : LaneHdr) (ty : IntTy) (d a : Opd) (b : Src) : Statement (.ishr h ty d a b) := by
  have key {r : RawLane} (hp : r.page = 0) (hc : r.cell = 0x11) (hh : r.hdr = h) (hm : r.mod = ty.code)
      (hk : ∀ k, r.bin k = k d a b) : decodeLaneRaw r = .ok (.ishr h ty d a b) := by
    have q : decodeIntRow r = r.bin fun d a b => intMod r.mod allTy false fun ty _ => .ishr r.hdr ty d a b := by
      unfold decodeIntRow; rw [hc]; rfl
    rw [row_int (by rw [hc]; decide) hp, q, hk, hm, hh, intMod_ty]
  obtain ⟨hp, hc, hh, -, -, -, hm, -, -⟩ := rawBin_head 0 0x11 h d.code a.code b 0 (ty.code)
  exact lane (encodeRaw_plain rfl rfl rfl (by cases b <;> rfl))
    (rawBin_fits (by decide) (by decide) d.code_lt a.code_lt (by decide) (Nat.lt_of_lt_of_le ty.code_lt (by decide))) fun _ =>
    key hp hc hh hm (rawBin_bin 0 0x11 h d a b (ty.code))

theorem isra (h : LaneHdr) (ty : IntTy) (d a : Opd) (b : Src) : Statement (.isra h ty d a b) := by
  have key {r : RawLane} (hp : r.page = 0) (hc : r.cell = 0x12) (hh : r.hdr = h) (hm : r.mod = ty.code)
      (hk : ∀ k, r.bin k = k d a b) : decodeLaneRaw r = .ok (.isra h ty d a b) := by
    have q : decodeIntRow r = r.bin fun d a b => intMod r.mod allTy false fun ty _ => .isra r.hdr ty d a b := by
      unfold decodeIntRow; rw [hc]; rfl
    rw [row_int (by rw [hc]; decide) hp, q, hk, hm, hh, intMod_ty]
  obtain ⟨hp, hc, hh, -, -, -, hm, -, -⟩ := rawBin_head 0 0x12 h d.code a.code b 0 (ty.code)
  exact lane (encodeRaw_plain rfl rfl rfl (by cases b <;> rfl))
    (rawBin_fits (by decide) (by decide) d.code_lt a.code_lt (by decide) (Nat.lt_of_lt_of_le ty.code_lt (by decide))) fun _ =>
    key hp hc hh hm (rawBin_bin 0 0x12 h d a b (ty.code))

theorem ishf (h : LaneHdr) (left : Bool) (d a b : Opd) (c : Src) : Statement (.ishf h left d a b c) := by
  have key {r : RawLane} (hp : r.page = 0) (hc : r.cell = 0x13) (hh : r.hdr = h) (hd : r.d = d.code)
      (ha : r.a = a.code) (hb : r.b = b.code) (hm : r.mod = bit left * 64) (hf : r.form [0, 3] = .ok ())
      (hs : r.src 3 r.c = .ok c) : decodeLaneRaw r = .ok (.ishf h left d a b c) := by
    have q : decodeIntRow r = (do
        r.form [0, 3]; zeroed (r.mod / 128); zeroed (fld r.mod 0 6)
        let d ← Opd.ofCode r.d
        let a ← Opd.ofCode r.a
        let b ← Opd.ofCode r.b
        let c ← r.src 3 r.c
        .ok (.ishf r.hdr (flag r.mod 6) d a b c)) := by
      unfold decodeIntRow; rw [hc]; rfl
    have e1 : bit left * 64 / 128 = 0 := by have := bit_lt left; omega
    have e2 : fld (bit left * 64) 0 6 = 0 := by simp only [fld]; omega
    have e3 : flag (bit left * 64) 6 = left := flag_of_fld (by have := bit_lt left; simp only [fld]; omega)
    rw [row_int (by rw [hc]; decide) hp, q]
    simp only [hh, hd, ha, hb, hm, hf, hs, e1, e2, e3, zeroed_zero, Dec.bind_ok, Opd.ofCode_code]
  cases c with
  | reg c =>
    exact lane (r := rawX 0 0x13 h d.code a.code b.code c.code (bit left * 64)) (encodeRaw_plain rfl rfl rfl rfl)
      (rawX_fits (by decide) (by decide) d.code_lt a.code_lt b.code_lt c.code_lt (by have := bit_lt left; show bit left * 64 < _; omega)) fun _ =>
      key rfl rfl rfl rfl rfl rfl rfl rfl (src_reg (show (0 : Nat) ≠ 3 by decide))
  | imm x =>
    exact lane (r := ⟨0, 0x13, h, d.code, a.code, b.code, bit left * 64, 3, x.toNat⟩) (encodeRaw_plain rfl rfl rfl rfl)
      (fits_of (by decide) (by decide) d.code_lt a.code_lt b.code_lt (by have := bit_lt left; show bit left * 64 < _; omega) (by decide) x.isLt) fun _ =>
      key rfl rfl rfl rfl rfl rfl rfl rfl (src_imm rfl rfl)

theorem bfe (h : LaneHdr) (n : Bool) (d a : Opd) (b : Src) : Statement (.bfe h n d a b) := by
  have key {r : RawLane} (hp : r.page = 0) (hc : r.cell = 0x14) (hh : r.hdr = h) (hm : r.mod = bit n)
      (hk : ∀ k, r.bin k = k d a b) : decodeLaneRaw r = .ok (.bfe h n d a b) := by
    have q : decodeIntRow r = r.bin fun d a b => intMod r.mod [.i32, .n32] false fun ty _ => .bfe r.hdr (ty == .n32) d a b := by
      unfold decodeIntRow; rw [hc]; rfl
    rw [row_int (by rw [hc]; decide) hp, q, hk, hm, hh, intMod_bit]
    cases n <;> rfl
  obtain ⟨hp, hc, hh, -, -, -, hm, -, -⟩ := rawBin_head 0 0x14 h d.code a.code b 0 (bit n)
  exact lane (encodeRaw_plain rfl rfl rfl (by cases b <;> rfl))
    (rawBin_fits (by decide) (by decide) d.code_lt a.code_lt (by decide) (Nat.lt_of_lt_of_le (bit_lt n) (by decide))) fun _ =>
    key hp hc hh hm (rawBin_bin 0 0x14 h d a b (bit n))

theorem bfi (h : LaneHdr) (d a b : Opd) (c : Src) : Statement (.bfi h d a b c) := by
  have key {r : RawLane} (hp : r.page = 0) (hc : r.cell = 0x15) (hh : r.hdr = h) (hd : r.d = d.code)
      (ha : r.a = a.code) (hb : r.b = b.code) (hm : r.mod = 0) (hf : r.form [0, 3] = .ok ())
      (hs : r.src 3 r.c = .ok c) : decodeLaneRaw r = .ok (.bfi h d a b c) := by
    have q : decodeIntRow r = (do
        r.form [0, 3]; zeroed r.mod
        let d ← Opd.ofCode r.d
        let a ← Opd.ofCode r.a
        let b ← Opd.ofCode r.b
        let c ← r.src 3 r.c
        .ok (.bfi r.hdr d a b c)) := by
      unfold decodeIntRow; rw [hc]; rfl
    rw [row_int (by rw [hc]; decide) hp, q]
    simp only [hh, hd, ha, hb, hm, hf, hs, zeroed_zero, Dec.bind_ok, Opd.ofCode_code]
  cases c with
  | reg c =>
    exact lane (r := rawX 0 0x15 h d.code a.code b.code c.code (0)) (encodeRaw_plain rfl rfl rfl rfl)
      (rawX_fits (by decide) (by decide) d.code_lt a.code_lt b.code_lt c.code_lt (by decide)) fun _ =>
      key rfl rfl rfl rfl rfl rfl rfl rfl (src_reg (show (0 : Nat) ≠ 3 by decide))
  | imm x =>
    exact lane (r := ⟨0, 0x15, h, d.code, a.code, b.code, 0, 3, x.toNat⟩) (encodeRaw_plain rfl rfl rfl rfl)
      (fits_of (by decide) (by decide) d.code_lt a.code_lt b.code_lt (by decide) (by decide) x.isLt) fun _ =>
      key rfl rfl rfl rfl rfl rfl rfl rfl (src_imm rfl rfl)

theorem fadd (h : LaneHdr) (pg : Page) (m : FMod) (d a : Opd) (b : Src) : Statement (.fadd h pg m d a b) := by
  have key {r : RawLane} (hp : r.page = pg.code) (hc : r.cell = 0x20) (hh : r.hdr = h) (hm : r.mod = m.code)
      (hk : ∀ k, r.bin k = k d a b) : decodeLaneRaw r = .ok (.fadd h pg m d a b) := by
    have q : decodeFloatRow r = (do
        let pg ← Page.ofCode r.page
        r.bin fun d a b => fMod r.mod fun x => .fadd r.hdr pg x d a b) := by
      unfold decodeFloatRow; rw [hc]; rfl
    rw [row_float (by rw [hc]; decide), q, hp, Page.ofCode_code, Dec.bind_ok, hk, hm, hh, fMod_code]
  obtain ⟨hp, hc, hh, -, -, -, hm, -, -⟩ := rawBin_head pg.code 0x20 h d.code a.code b 0 (m.code)
  exact lane (encodeRaw_plain rfl rfl rfl (by cases b <;> rfl))
    (rawBin_fits (by have := pg.code_lt; omega) (by decide) d.code_lt a.code_lt (by decide) (Nat.lt_of_lt_of_le m.code_lt (by decide))) fun _ =>
    key hp hc hh hm (rawBin_bin pg.code 0x20 h d a b (m.code))

theorem fmul (h : LaneHdr) (pg : Page) (m : FMod) (d a : Opd) (b : Src) : Statement (.fmul h pg m d a b) := by
  have key {r : RawLane} (hp : r.page = pg.code) (hc : r.cell = 0x21) (hh : r.hdr = h) (hm : r.mod = m.code)
      (hk : ∀ k, r.bin k = k d a b) : decodeLaneRaw r = .ok (.fmul h pg m d a b) := by
    have q : decodeFloatRow r = (do
        let pg ← Page.ofCode r.page
        r.bin fun d a b => fMod r.mod fun x => .fmul r.hdr pg x d a b) := by
      unfold decodeFloatRow; rw [hc]; rfl
    rw [row_float (by rw [hc]; decide), q, hp, Page.ofCode_code, Dec.bind_ok, hk, hm, hh, fMod_code]
  obtain ⟨hp, hc, hh, -, -, -, hm, -, -⟩ := rawBin_head pg.code 0x21 h d.code a.code b 0 (m.code)
  exact lane (encodeRaw_plain rfl rfl rfl (by cases b <;> rfl))
    (rawBin_fits (by have := pg.code_lt; omega) (by decide) d.code_lt a.code_lt (by decide) (Nat.lt_of_lt_of_le m.code_lt (by decide))) fun _ =>
    key hp hc hh hm (rawBin_bin pg.code 0x21 h d a b (m.code))

theorem ffma (h : LaneHdr) (pg : Page) (m : FMod) (d a : Opd) (b c : Src) : Statement (.ffma h pg m d a b c) := by
  have key {r : RawLane} (hp : r.page = pg.code) (hc : r.cell = 0x22) (hh : r.hdr = h) (hm : r.mod = m.code)
      (hk : ∀ k, r.tri k = k d a b c) : decodeLaneRaw r = .ok (.ffma h pg m d a b c) := by
    have q : decodeFloatRow r = (do
        let pg ← Page.ofCode r.page
        r.tri fun d a b c => fMod r.mod fun x => .ffma r.hdr pg x d a b c) := by
      unfold decodeFloatRow; rw [hc]; rfl
    rw [row_float (by rw [hc]; decide), q, hp, Page.ofCode_code, Dec.bind_ok, hk, hm, hh, fMod_code]
  obtain ⟨hp, hc, hh, -, hm⟩ := rawTri_head pg.code 0x22 h d.code (.reg a) b c m.code
  by_cases hi : immCount (.reg a) b c ≤ 1
  · exact lane (encodeRaw_plain rfl rfl rfl (by cases b <;> cases c <;> first | rfl | simp [immCount] at hi))
      (rawTri_fits (by have := pg.code_lt; omega) (by decide) d.code_lt (Nat.lt_of_lt_of_le m.code_lt (by decide)))
      fun _ => key hp hc hh hm (rawTri_tri pg.code 0x22 h d a b c m.code hi)
  · exact absurd_imms rfl (by cases b <;> cases c <;> first | exact (by decide : (1 : Nat) < 2) | exact (by decide : (1 : Nat) < 3) | simp [immCount] at hi)

theorem fmin (h : LaneHdr) (pg : Page) (d a : Opd) (b : Src) : Statement (.fmin h pg d a b) := by
  have key {r : RawLane} (hp : r.page = pg.code) (hc : r.cell = 0x23) (hh : r.hdr = h) (hm : r.mod = 0)
      (hk : ∀ k, r.bin k = k d a b) : decodeLaneRaw r = .ok (.fmin h pg d a b) := by
    have q : decodeFloatRow r = (do
        let pg ← Page.ofCode r.page
        r.bin fun d a b => do zeroed r.mod; .ok (.fmin r.hdr pg d a b)) := by
      unfold decodeFloatRow; rw [hc]; rfl
    rw [row_float (by rw [hc]; decide), q, hp, Page.ofCode_code, Dec.bind_ok, hk, hm, hh, zeroed_zero, Dec.bind_ok]
  obtain ⟨hp, hc, hh, -, -, -, hm, -, -⟩ := rawBin_head pg.code 0x23 h d.code a.code b 0 (0)
  exact lane (encodeRaw_plain rfl rfl rfl (by cases b <;> rfl))
    (rawBin_fits (by have := pg.code_lt; omega) (by decide) d.code_lt a.code_lt (by decide) (by decide)) fun _ =>
    key hp hc hh hm (rawBin_bin pg.code 0x23 h d a b (0))

theorem fmax (h : LaneHdr) (pg : Page) (d a : Opd) (b : Src) : Statement (.fmax h pg d a b) := by
  have key {r : RawLane} (hp : r.page = pg.code) (hc : r.cell = 0x24) (hh : r.hdr = h) (hm : r.mod = 0)
      (hk : ∀ k, r.bin k = k d a b) : decodeLaneRaw r = .ok (.fmax h pg d a b) := by
    have q : decodeFloatRow r = (do
        let pg ← Page.ofCode r.page
        r.bin fun d a b => do zeroed r.mod; .ok (.fmax r.hdr pg d a b)) := by
      unfold decodeFloatRow; rw [hc]; rfl
    rw [row_float (by rw [hc]; decide), q, hp, Page.ofCode_code, Dec.bind_ok, hk, hm, hh, zeroed_zero, Dec.bind_ok]
  obtain ⟨hp, hc, hh, -, -, -, hm, -, -⟩ := rawBin_head pg.code 0x24 h d.code a.code b 0 (0)
  exact lane (encodeRaw_plain rfl rfl rfl (by cases b <;> rfl))
    (rawBin_fits (by have := pg.code_lt; omega) (by decide) d.code_lt a.code_lt (by decide) (by decide)) fun _ =>
    key hp hc hh hm (rawBin_bin pg.code 0x24 h d a b (0))

theorem fcmp (h : LaneHdr) (pg : Page) (cc : FCond) (hi : Bool) (d : PReg) (a : Opd) (b : Src) : Statement (.fcmp h pg cc hi d a b) := by
  have h1 := pg.code_lt
  have h2 := cc.code_lt
  have h3 := d.isLt
  have h4 := bit_lt hi
  have key {r : RawLane} (hp : r.page = pg.code) (hc : r.cell = 0x25) (hh : r.hdr = h) (hd : r.d = 208 + d.val)
      (ha : r.a = a.code) (hz : r.c = 0) (hm : r.mod = cc.code + bit hi * 8) (hf : r.form [0, 2] = .ok ())
      (hs : r.src 2 r.b = .ok b) : decodeLaneRaw r = .ok (.fcmp h pg cc hi d a b) := by
    have q : decodeFloatRow r = (do
        let pg ← Page.ofCode r.page
        r.form [0, 2]; zeroed r.c; zeroed (r.mod / 16)
        let cc ← FCond.ofCode (fld r.mod 0 3)
        let d ← pregOf r.d
        let a ← Opd.ofCode r.a
        let b ← r.src 2 r.b
        .ok (.fcmp r.hdr pg cc (flag r.mod 3) d a b)) := by
      unfold decodeFloatRow; rw [hc]; rfl
    have e1 : (cc.code + bit hi * 8) / 16 = 0 := by omega
    have e3 : fld (cc.code + bit hi * 8) 0 3 = cc.code := by simp only [fld]; omega
    have e4 : flag (cc.code + bit hi * 8) 3 = hi := flag_of_fld (by simp only [fld]; omega)
    rw [row_float (by rw [hc]; decide), q]
    simp only [hp, hh, hd, ha, hz, hm, hf, hs, e1, e3, e4, zeroed_zero, Dec.bind_ok, Page.ofCode_code, FCond.ofCode_code,
      Opd.ofCode_code, pregOf_val]
  obtain ⟨hp, hc, hh, hd, ha, hz, hm, hf, hs⟩ := rawBin_head pg.code 0x25 h (208 + d.val) a.code b 0 (cc.code + bit hi * 8)
  exact lane (encodeRaw_plain rfl rfl rfl (by cases b <;> rfl))
    (rawBin_fits h1 (by decide) (by omega) a.code_lt (by decide) (by omega)) fun _ => key hp hc hh hd ha hz hm hf hs

theorem fclass (h : LaneHdr) (pg : Page) (d a : Opd) : Statement (.fclass h pg d a) := by
  have key {r : RawLane} (hp : r.page = pg.code) (hc : r.cell = 0x26) (hh : r.hdr = h) (hm : r.mod = 0)
      (hk : ∀ k, r.un k = k d a) : decodeLaneRaw r = .ok (.fclass h pg d a) := by
    have q : decodeFloatRow r = (do
        let pg ← Page.ofCode r.page
        r.un (fun d a => do zeroed r.mod; .ok (.fclass r.hdr pg d a))) := by
      unfold decodeFloatRow; rw [hc]; rfl
    rw [row_float (by rw [hc]; decide), q, hp, Page.ofCode_code, Dec.bind_ok, hk, hm, hh, zeroed_zero, Dec.bind_ok]
  exact lane (r := rawX pg.code 0x26 h d.code a.code 0 0 0) (encodeRaw_plain rfl rfl rfl rfl)
    (rawX_fits pg.code_lt (by decide) d.code_lt a.code_lt (by decide) (by decide) (by decide)) fun _ =>
    key rfl rfl rfl rfl (rawX_un pg.code 0x26 h d a 0)

theorem fscale (h : LaneHdr) (rm : Rm) (sat : Bool) (d a : Opd) (b : Src) : Statement (.fscale h rm sat d a b) := by
  have h1 := rm.code_lt
  have h2 := bit_lt sat
  have key {r : RawLane} (hp : r.page = 0) (hc : r.cell = 0x27) (hh : r.hdr = h) (hm : r.mod = rm.code + bit sat * 8)
      (hk : ∀ k, r.bin k = k d a b) : decodeLaneRaw r = .ok (.fscale h rm sat d a b) := by
    have q : decodeFloatRow r = r.bin (fun d a b => do
        zeroed (r.mod / 16)
        let rm ← Rm.ofCode (fld r.mod 0 3)
        .ok (.fscale r.hdr rm (flag r.mod 3) d a b)) := by
      unfold decodeFloatRow; rw [hc, hp]; rfl
    have e1 : (rm.code + bit sat * 8) / 16 = 0 := by omega
    have e2 : fld (rm.code + bit sat * 8) 0 3 = rm.code := by simp only [fld]; omega
    have e3 : flag (rm.code + bit sat * 8) 3 = sat := flag_of_fld (by simp only [fld]; omega)
    rw [row_float (by rw [hc]; decide), q, hk, hm, hh, e1, e2, e3, zeroed_zero, Dec.bind_ok, Rm.ofCode_code, Dec.bind_ok]
  obtain ⟨hp, hc, hh, -, -, -, hm, -, -⟩ := rawBin_head 0 0x27 h d.code a.code b 0 (rm.code + bit sat * 8)
  exact lane (encodeRaw_plain rfl rfl rfl (by cases b <;> rfl))
    (rawBin_fits (by decide) (by decide) d.code_lt a.code_lt (by decide) (by omega)) fun _ =>
    key hp hc hh hm (rawBin_bin 0 0x27 h d a b (rm.code + bit sat * 8))

theorem fdot2 (h : LaneHdr) (bf : Bool) (m : FMod) (d a b c : Opd) : Statement (.fdot2 h bf m d a b c) := by
  have key {r : RawLane} (hp : r.page = if bf then 2 else 1) (hc : r.cell = 0x28) (hh : r.hdr = h) (hm : r.mod = m.code)
      (hf : r.form [0] = .ok ()) (hd : r.d = d.code) (ha : r.a = a.code) (hb : r.b = b.code) (hz : r.c = c.code) :
      decodeLaneRaw r = .ok (.fdot2 h bf m d a b c) := by
    have q : decodeFloatRow r = (do
        r.form [0]
        let d ← Opd.ofCode r.d
        let a ← Opd.ofCode r.a
        let b ← Opd.ofCode r.b
        let c ← Opd.ofCode r.c
        fMod r.mod fun x => .fdot2 r.hdr bf x d a b c) := by
      cases bf <;> (unfold decodeFloatRow; rw [hc, hp]; rfl)
    rw [row_float (by rw [hc]; decide), q]
    simp only [hf, hh, hd, ha, hb, hz, hm, Dec.bind_ok, Opd.ofCode_code, fMod_code]
  exact lane (r := rawX (if bf then 2 else 1) 0x28 h d.code a.code b.code c.code m.code) (encodeRaw_plain rfl rfl rfl rfl)
    (rawX_fits (by cases bf <;> decide) (by decide) d.code_lt a.code_lt b.code_lt c.code_lt
      (Nat.lt_of_lt_of_le m.code_lt (by decide))) fun _ => key rfl rfl rfl rfl rfl rfl rfl rfl rfl

theorem frcp (h : LaneHdr) (d a : Opd) : Statement (.frcp h d a) := by
  have key {r : RawLane} (hp : r.page = 0) (hc : r.cell = 0x30) (hh : r.hdr = h) (hm : r.mod = 0)
      (hk : ∀ k, r.un k = k d a) : decodeLaneRaw r = .ok (.frcp h d a) := by
    have q : decodeFloatRow r = r.un (fun d a => do zeroed r.mod; .ok (.frcp r.hdr d a)) := by
      unfold decodeFloatRow; rw [hc, hp]; rfl
    rw [row_float (by rw [hc]; decide), q, hk, hm, hh, zeroed_zero, Dec.bind_ok]
  exact lane (r := rawX 0 0x30 h d.code a.code 0 0 0) (encodeRaw_plain rfl rfl rfl rfl)
    (rawX_fits (by decide) (by decide) d.code_lt a.code_lt (by decide) (by decide) (by decide)) fun _ =>
    key rfl rfl rfl rfl (rawX_un 0 0x30 h d a 0)

theorem frsq (h : LaneHdr) (d a : Opd) : Statement (.frsq h d a) := by
  have key {r : RawLane} (hp : r.page = 0) (hc : r.cell = 0x31) (hh : r.hdr = h) (hm : r.mod = 0)
      (hk : ∀ k, r.un k = k d a) : decodeLaneRaw r = .ok (.frsq h d a) := by
    have q : decodeFloatRow r = r.un (fun d a => do zeroed r.mod; .ok (.frsq r.hdr d a)) := by
      unfold decodeFloatRow; rw [hc, hp]; rfl
    rw [row_float (by rw [hc]; decide), q, hk, hm, hh, zeroed_zero, Dec.bind_ok]
  exact lane (r := rawX 0 0x31 h d.code a.code 0 0 0) (encodeRaw_plain rfl rfl rfl rfl)
    (rawX_fits (by decide) (by decide) d.code_lt a.code_lt (by decide) (by decide) (by decide)) fun _ =>
    key rfl rfl rfl rfl (rawX_un 0 0x31 h d a 0)

theorem fsqrt (h : LaneHdr) (d a : Opd) : Statement (.fsqrt h d a) := by
  have key {r : RawLane} (hp : r.page = 0) (hc : r.cell = 0x32) (hh : r.hdr = h) (hm : r.mod = 0)
      (hk : ∀ k, r.un k = k d a) : decodeLaneRaw r = .ok (.fsqrt h d a) := by
    have q : decodeFloatRow r = r.un (fun d a => do zeroed r.mod; .ok (.fsqrt r.hdr d a)) := by
      unfold decodeFloatRow; rw [hc, hp]; rfl
    rw [row_float (by rw [hc]; decide), q, hk, hm, hh, zeroed_zero, Dec.bind_ok]
  exact lane (r := rawX 0 0x32 h d.code a.code 0 0 0) (encodeRaw_plain rfl rfl rfl rfl)
    (rawX_fits (by decide) (by decide) d.code_lt a.code_lt (by decide) (by decide) (by decide)) fun _ =>
    key rfl rfl rfl rfl (rawX_un 0 0x32 h d a 0)

theorem fex2 (h : LaneHdr) (d a : Opd) : Statement (.fex2 h d a) := by
  have key {r : RawLane} (hp : r.page = 0) (hc : r.cell = 0x33) (hh : r.hdr = h) (hm : r.mod = 0)
      (hk : ∀ k, r.un k = k d a) : decodeLaneRaw r = .ok (.fex2 h d a) := by
    have q : decodeFloatRow r = r.un (fun d a => do zeroed r.mod; .ok (.fex2 r.hdr d a)) := by
      unfold decodeFloatRow; rw [hc, hp]; rfl
    rw [row_float (by rw [hc]; decide), q, hk, hm, hh, zeroed_zero, Dec.bind_ok]
  exact lane (r := rawX 0 0x33 h d.code a.code 0 0 0) (encodeRaw_plain rfl rfl rfl rfl)
    (rawX_fits (by decide) (by decide) d.code_lt a.code_lt (by decide) (by decide) (by decide)) fun _ =>
    key rfl rfl rfl rfl (rawX_un 0 0x33 h d a 0)

theorem flg2 (h : LaneHdr) (d a : Opd) : Statement (.flg2 h d a) := by
  have key {r : RawLane} (hp : r.page = 0) (hc : r.cell = 0x34) (hh : r.hdr = h) (hm : r.mod = 0)
      (hk : ∀ k, r.un k = k d a) : decodeLaneRaw r = .ok (.flg2 h d a) := by
    have q : decodeFloatRow r = r.un (fun d a => do zeroed r.mod; .ok (.flg2 r.hdr d a)) := by
      unfold decodeFloatRow; rw [hc, hp]; rfl
    rw [row_float (by rw [hc]; decide), q, hk, hm, hh, zeroed_zero, Dec.bind_ok]
  exact lane (r := rawX 0 0x34 h d.code a.code 0 0 0) (encodeRaw_plain rfl rfl rfl rfl)
    (rawX_fits (by decide) (by decide) d.code_lt a.code_lt (by decide) (by decide) (by decide)) fun _ =>
    key rfl rfl rfl rfl (rawX_un 0 0x34 h d a 0)

theorem fsin (h : LaneHdr) (d a : Opd) : Statement (.fsin h d a) := by
  have key {r : RawLane} (hp : r.page = 0) (hc : r.cell = 0x35) (hh : r.hdr = h) (hm : r.mod = 0)
      (hk : ∀ k, r.un k = k d a) : decodeLaneRaw r = .ok (.fsin h d a) := by
    have q : decodeFloatRow r = r.un (fun d a => do zeroed r.mod; .ok (.fsin r.hdr d a)) := by
      unfold decodeFloatRow; rw [hc, hp]; rfl
    rw [row_float (by rw [hc]; decide), q, hk, hm, hh, zeroed_zero, Dec.bind_ok]
  exact lane (r := rawX 0 0x35 h d.code a.code 0 0 0) (encodeRaw_plain rfl rfl rfl rfl)
    (rawX_fits (by decide) (by decide) d.code_lt a.code_lt (by decide) (by decide) (by decide)) fun _ =>
    key rfl rfl rfl rfl (rawX_un 0 0x35 h d a 0)

theorem fcos (h : LaneHdr) (d a : Opd) : Statement (.fcos h d a) := by
  have key {r : RawLane} (hp : r.page = 0) (hc : r.cell = 0x36) (hh : r.hdr = h) (hm : r.mod = 0)
      (hk : ∀ k, r.un k = k d a) : decodeLaneRaw r = .ok (.fcos h d a) := by
    have q : decodeFloatRow r = r.un (fun d a => do zeroed r.mod; .ok (.fcos r.hdr d a)) := by
      unfold decodeFloatRow; rw [hc, hp]; rfl
    rw [row_float (by rw [hc]; decide), q, hk, hm, hh, zeroed_zero, Dec.bind_ok]
  exact lane (r := rawX 0 0x36 h d.code a.code 0 0 0) (encodeRaw_plain rfl rfl rfl rfl)
    (rawX_fits (by decide) (by decide) d.code_lt a.code_lt (by decide) (by decide) (by decide)) fun _ =>
    key rfl rfl rfl rfl (rawX_un 0 0x36 h d a 0)

theorem cvt (h : LaneHdr) (m : CvtMod) (d a : Opd) : Statement (.cvt h m d a) := by
  have key {r : RawLane} (hpage : r.page = 0) (hcell : r.cell = 0x40) (hh : r.hdr = h) (hd : r.d = d.code) (ha : r.a = a.code) (hb : r.b = 0) (hc : r.c = 0) (hf : r.form [0] = .ok ()) (e0_4 : fld r.x 0 4 = m.dty.code) (e12_2 : fld r.x 12 2 = m.spos.val) (e14_2 : fld r.x 14 2 = m.dpos.val) (e16_6 : fld r.x 16 6 = m.p.val) (e22_10 : fld r.x 22 10 = 0) (e4_4 : fld r.x 4 4 = m.sty.code) (e8_3 : fld r.x 8 3 = m.rm.code) (g11 : flag r.x 11 = m.sat) :
      decodeLaneRaw r = .ok (.cvt h m d a) := by
    have q : decodeCvtRow r = (do
          r.form [0]; zeroed r.b; zeroed r.c
          let d ← Opd.ofCode r.d
          let a ← Opd.ofCode r.a
          zeroed (fld r.x 22 10)
          let dty ← CvtTy.ofCode (fld r.x 0 4)
          let sty ← CvtTy.ofCode (fld r.x 4 4)
          let rm ← Rm.ofCode (fld r.x 8 3)
          .ok (.cvt r.hdr { dty := dty, sty := sty, rm := rm, sat := flag r.x 11, spos := Fin.ofNat 4 (fld r.x 12 2), dpos := Fin.ofNat 4 (fld r.x 14 2), p := Fin.ofNat 64 (fld r.x 16 6) } d a)) := by
      unfold decodeCvtRow; rw [hcell]; rfl
    rw [row_cvt (by rw [hcell]) hpage, q]
    simp only [hh, hd, ha, hb, hc, hf, e0_4, e12_2, e14_2, e16_6, e22_10, e4_4, e8_3, g11, CvtTy.ofCode_code, Opd.ofCode_code, Rm.ofCode_code, finOfNat_val, zeroed_zero, Dec.bind_ok, if_true, if_false, Bool.false_eq_true]
  have := m.dty.code_lt
  have := m.sty.code_lt
  have := m.rm.code_lt
  have := bit_lt m.sat
  have := m.spos.isLt
  have := m.dpos.isLt
  have := m.p.isLt
  refine lane (r := rawX 0 0x40 h d.code a.code 0 0 (m.code)) (encodeRaw_plain rfl rfl rfl rfl) (rawX_fits (by decide) (by decide) d.code_lt a.code_lt (by decide) (by decide) (by simp only [CvtMod.code] <;> omega)) fun _ =>
    key rfl rfl ?_ ?_ ?_ ?_ ?_ ?_ ?_ ?_ ?_ ?_ ?_ ?_ ?_ ?_
  · rfl
  · rfl
  · rfl
  · rfl
  · rfl
  · rfl
  · show fld (m.code) 0 4 = _; simp only [fld, CvtMod.code] <;> omega
  · show fld (m.code) 12 2 = _; simp only [fld, CvtMod.code] <;> omega
  · show fld (m.code) 14 2 = _; simp only [fld, CvtMod.code] <;> omega
  · show fld (m.code) 16 6 = _; simp only [fld, CvtMod.code] <;> omega
  · show fld (m.code) 22 10 = _; simp only [fld, CvtMod.code] <;> omega
  · show fld (m.code) 4 4 = _; simp only [fld, CvtMod.code] <;> omega
  · show fld (m.code) 8 3 = _; simp only [fld, CvtMod.code] <;> omega
  · refine flag_of_fld ?_; show fld (m.code) 11 1 = bit m.sat; simp only [fld, CvtMod.code] <;> omega

theorem cvtSr (h : LaneHdr) (m : CvtSrMod) (d a b : Opd) : Statement (.cvtSr h m d a b) := by
  have key {r : RawLane} (hpage : r.page = 0) (hcell : r.cell = 0x41) (hh : r.hdr = h) (hd : r.d = d.code) (ha : r.a = a.code) (hb : r.b = b.code) (hc : r.c = 0) (hf : r.form [0] = .ok ()) (e0_4 : fld r.x 0 4 = m.dty.code) (e12_2 : fld r.x 12 2 = 0) (e14_2 : fld r.x 14 2 = m.dpos.val) (e16_6 : fld r.x 16 6 = m.rbits.val) (e22_10 : fld r.x 22 10 = 0) (e4_7 : fld r.x 4 7 = 0) (g11 : flag r.x 11 = m.sat) :
      decodeLaneRaw r = .ok (.cvtSr h m d a b) := by
    have q : decodeCvtRow r = (do
          r.form [0]; zeroed r.c; zeroed (fld r.x 22 10); zeroed (fld r.x 12 2); zeroed (fld r.x 4 7)
          let dty ← SrTy.ofCode (fld r.x 0 4)
          let d ← Opd.ofCode r.d
          let a ← Opd.ofCode r.a
          let b ← Opd.ofCode r.b
          .ok (.cvtSr r.hdr { dty := dty, sat := flag r.x 11, dpos := Fin.ofNat 4 (fld r.x 14 2), rbits := Fin.ofNat 64 (fld r.x 16 6) } d a b)) := by
      unfold decodeCvtRow; rw [hcell]; rfl
    rw [row_cvt (by rw [hcell]) hpage, q]
    simp only [hh, hd, ha, hb, hc, hf, e0_4, e12_2, e14_2, e16_6, e22_10, e4_7, g11, Opd.ofCode_code, SrTy.ofCode_code, finOfNat_val, zeroed_zero, Dec.bind_ok, if_true, if_false, Bool.false_eq_true]
  have := m.dty.code_lt
  have := bit_lt m.sat
  have := m.dpos.isLt
  have := m.rbits.isLt
  refine lane (r := rawX 0 0x41 h d.code a.code b.code 0 (m.code)) (encodeRaw_plain rfl rfl rfl rfl) (rawX_fits (by decide) (by decide) d.code_lt a.code_lt b.code_lt (by decide) (by simp only [CvtSrMod.code] <;> omega)) fun _ =>
    key rfl rfl ?_ ?_ ?_ ?_ ?_ ?_ ?_ ?_ ?_ ?_ ?_ ?_ ?_
  · rfl
  · rfl
  · rfl
  · rfl
  · rfl
  · rfl
  · show fld (m.code) 0 4 = _; simp only [fld, CvtSrMod.code] <;> omega
  · show fld (m.code) 12 2 = _; simp only [fld, CvtSrMod.code] <;> omega
  · show fld (m.code) 14 2 = _; simp only [fld, CvtSrMod.code] <;> omega
  · show fld (m.code) 16 6 = _; simp only [fld, CvtSrMod.code] <;> omega
  · show fld (m.code) 22 10 = _; simp only [fld, CvtSrMod.code] <;> omega
  · show fld (m.code) 4 7 = _; simp only [fld, CvtSrMod.code] <;> omega
  · refine flag_of_fld ?_; show fld (m.code) 11 1 = bit m.sat; simp only [fld, CvtSrMod.code] <;> omega

theorem hdm16 (h : LaneHdr) (d : Opd) (a : VReg) : Statement (.hdm16 h d a) := by
  have key {r : RawLane} (hpage : r.page = 0) (hcell : r.cell = 0x42) (hh : r.hdr = h) (hd : r.d = d.code) (ha : r.a = a.val) (hb : r.b = 0) (hc : r.c = 0) (hf : r.form [0] = .ok ()) (hx : r.x = 0) :
      decodeLaneRaw r = .ok (.hdm16 h d a) := by
    have q : decodeCvtRow r = (do
          r.form [0]; zeroed r.b; zeroed r.c; zeroed r.x
          let d ← Opd.ofCode r.d
          let a ← vregOf r.a
          .ok (.hdm16 r.hdr d a)) := by
      unfold decodeCvtRow; rw [hcell]; rfl
    rw [row_cvt (by rw [hcell]) hpage, q]
    simp only [hh, hd, ha, hb, hc, hf, hx, Opd.ofCode_code, vregOf_val, finOfNat_val, zeroed_zero, Dec.bind_ok, if_true, if_false, Bool.false_eq_true]
  have := a.isLt
  refine lane (r := rawX 0 0x42 h d.code a.val 0 0 (0)) (encodeRaw_plain rfl rfl rfl rfl) (rawX_fits (by decide) (by decide) d.code_lt (by omega) (by decide) (by decide) (by decide)) fun _ =>
    key rfl rfl ?_ ?_ ?_ ?_ ?_ ?_ ?_
  · rfl
  · rfl
  · rfl
  · rfl
  · rfl
  · rfl
  · rfl

theorem hdm32 (h : LaneHdr) (d : Opd) (a : VReg) : Statement (.hdm32 h d a) := by
  have key {r : RawLane} (hpage : r.page = 0) (hcell : r.cell = 0x43) (hh : r.hdr = h) (hd : r.d = d.code) (ha : r.a = a.val) (hb : r.b = 0) (hc : r.c = 0) (hf : r.form [0] = .ok ()) (hx : r.x = 0) :
      decodeLaneRaw r = .ok (.hdm32 h d a) := by
    have q : decodeCvtRow r = (do
          r.form [0]; zeroed r.b; zeroed r.c; zeroed r.x
          let d ← Opd.ofCode r.d
          let a ← vregOf r.a
          .ok (.hdm32 r.hdr d a)) := by
      unfold decodeCvtRow; rw [hcell]; rfl
    rw [row_cvt (by rw [hcell]) hpage, q]
    simp only [hh, hd, ha, hb, hc, hf, hx, Opd.ofCode_code, vregOf_val, finOfNat_val, zeroed_zero, Dec.bind_ok, if_true, if_false, Bool.false_eq_true]
  have := a.isLt
  refine lane (r := rawX 0 0x43 h d.code a.val 0 0 (0)) (encodeRaw_plain rfl rfl rfl rfl) (rawX_fits (by decide) (by decide) d.code_lt (by omega) (by decide) (by decide) (by decide)) fun _ =>
    key rfl rfl ?_ ?_ ?_ ?_ ?_ ?_ ?_
  · rfl
  · rfl
  · rfl
  · rfl
  · rfl
  · rfl
  · rfl

theorem qpackBx8 (h : LaneHdr) (m : QPackMod) (d a c : VReg) : Statement (.qpackBx8 h m d a c) := by
  have key {r : RawLane} (hp : r.page = 0) (hc : r.cell = 0x44) (hh : r.hdr = h)
      (hk : ∀ k, qpackMod r k = .ok (k m d a c)) : decodeLaneRaw r = .ok (.qpackBx8 h m d a c) := by
    have q : decodeCvtRow r = qpackMod r (.qpackBx8 r.hdr) := by unfold decodeCvtRow; rw [hc]; rfl
    rw [row_cvt (by rw [hc]) hp, q, hk, hh]
  exact lane (r := rawX 0 0x44 h d.val a.val m.rnd.opd c.val m.code)
    (encodeRaw_plain rfl rfl rfl (by obtain ⟨_, _, _, _ | _⟩ := m <;> rfl))
    (rawX_fits (by decide) (by decide) (by omega) (by omega) m.rnd.opd_lt (by omega) m.code_lt) fun _ =>
    key rfl rfl rfl (qpackMod_code 0x44 h m d a c)

theorem qpackBx6 (h : LaneHdr) (m : QPackMod) (d a c : VReg) : Statement (.qpackBx6 h m d a c) := by
  have key {r : RawLane} (hp : r.page = 0) (hc : r.cell = 0x45) (hh : r.hdr = h)
      (hk : ∀ k, qpackMod r k = .ok (k m d a c)) : decodeLaneRaw r = .ok (.qpackBx6 h m d a c) := by
    have q : decodeCvtRow r = qpackMod r (.qpackBx6 r.hdr) := by unfold decodeCvtRow; rw [hc]; rfl
    rw [row_cvt (by rw [hc]) hp, q, hk, hh]
  exact lane (r := rawX 0 0x45 h d.val a.val m.rnd.opd c.val m.code)
    (encodeRaw_plain rfl rfl rfl (by obtain ⟨_, _, _, _ | _⟩ := m <;> rfl))
    (rawX_fits (by decide) (by decide) (by omega) (by omega) m.rnd.opd_lt (by omega) m.code_lt) fun _ =>
    key rfl rfl rfl (qpackMod_code 0x45 h m d a c)

theorem qpackBx4 (h : LaneHdr) (m : QPackMod) (d a c : VReg) : Statement (.qpackBx4 h m d a c) := by
  have key {r : RawLane} (hp : r.page = 0) (hc : r.cell = 0x46) (hh : r.hdr = h)
      (hk : ∀ k, qpackMod r k = .ok (k m d a c)) : decodeLaneRaw r = .ok (.qpackBx4 h m d a c) := by
    have q : decodeCvtRow r = qpackMod r (.qpackBx4 r.hdr) := by unfold decodeCvtRow; rw [hc]; rfl
    rw [row_cvt (by rw [hc]) hp, q, hk, hh]
  exact lane (r := rawX 0 0x46 h d.val a.val m.rnd.opd c.val m.code)
    (encodeRaw_plain rfl rfl rfl (by obtain ⟨_, _, _, _ | _⟩ := m <;> rfl))
    (rawX_fits (by decide) (by decide) (by omega) (by omega) m.rnd.opd_lt (by omega) m.code_lt) fun _ =>
    key rfl rfl rfl (qpackMod_code 0x46 h m d a c)

theorem qunpackBx8 (h : LaneHdr) (k bsel : Fin 4) (d : Opd) (a c : VReg) : Statement (.qunpackBx8 h k bsel d a c) := by
  have key {r : RawLane} (hp : r.page = 0) (hc : r.cell = 0x48) (hh : r.hdr = h)
      (hk : ∀ f, qunpackMod r f = .ok (f k bsel d a c)) : decodeLaneRaw r = .ok (.qunpackBx8 h k bsel d a c) := by
    have q : decodeCvtRow r = qunpackMod r (.qunpackBx8 r.hdr) := by unfold decodeCvtRow; rw [hc]; rfl
    rw [row_cvt (by rw [hc]) hp, q, hk, hh]
  exact lane (r := rawX 0 0x48 h d.code a.val 0 c.val (qunpackCode k bsel)) (encodeRaw_plain rfl rfl rfl rfl)
    (rawX_fits (by decide) (by decide) d.code_lt (by omega) (by decide) (by omega)
      (by simp only [qunpackCode]; omega)) fun _ =>
    key rfl rfl rfl (qunpackMod_code 0x48 h k bsel d a c)

theorem qunpackBx6 (h : LaneHdr) (k bsel : Fin 4) (d : Opd) (a c : VReg) : Statement (.qunpackBx6 h k bsel d a c) := by
  have key {r : RawLane} (hp : r.page = 0) (hc : r.cell = 0x49) (hh : r.hdr = h)
      (hk : ∀ f, qunpackMod r f = .ok (f k bsel d a c)) : decodeLaneRaw r = .ok (.qunpackBx6 h k bsel d a c) := by
    have q : decodeCvtRow r = qunpackMod r (.qunpackBx6 r.hdr) := by unfold decodeCvtRow; rw [hc]; rfl
    rw [row_cvt (by rw [hc]) hp, q, hk, hh]
  exact lane (r := rawX 0 0x49 h d.code a.val 0 c.val (qunpackCode k bsel)) (encodeRaw_plain rfl rfl rfl rfl)
    (rawX_fits (by decide) (by decide) d.code_lt (by omega) (by decide) (by omega)
      (by simp only [qunpackCode]; omega)) fun _ =>
    key rfl rfl rfl (qunpackMod_code 0x49 h k bsel d a c)

theorem qunpackBx4 (h : LaneHdr) (k bsel : Fin 4) (d : Opd) (a c : VReg) : Statement (.qunpackBx4 h k bsel d a c) := by
  have key {r : RawLane} (hp : r.page = 0) (hc : r.cell = 0x4A) (hh : r.hdr = h)
      (hk : ∀ f, qunpackMod r f = .ok (f k bsel d a c)) : decodeLaneRaw r = .ok (.qunpackBx4 h k bsel d a c) := by
    have q : decodeCvtRow r = qunpackMod r (.qunpackBx4 r.hdr) := by unfold decodeCvtRow; rw [hc]; rfl
    rw [row_cvt (by rw [hc]) hp, q, hk, hh]
  exact lane (r := rawX 0 0x4A h d.code a.val 0 c.val (qunpackCode k bsel)) (encodeRaw_plain rfl rfl rfl rfl)
    (rawX_fits (by decide) (by decide) d.code_lt (by omega) (by decide) (by omega)
      (by simp only [qunpackCode]; omega)) fun _ =>
    key rfl rfl rfl (qunpackMod_code 0x4A h k bsel d a c)

theorem bxdotBx8 (h : LaneHdr) (rm : Rm) (bsa bsb : Fin 4) (d : Opd) (a b : VReg) (c : Opd) : Statement (.bxdotBx8 h rm bsa bsb d a b c) := by
  have key {r : RawLane} (hp : r.page = 0) (hc : r.cell = 0x4C) (hh : r.hdr = h)
      (hk : ∀ f, bxdotMod r f = .ok (f rm bsa bsb d a b c)) : decodeLaneRaw r = .ok (.bxdotBx8 h rm bsa bsb d a b c) := by
    have q : decodeCvtRow r = bxdotMod r (.bxdotBx8 r.hdr) := by unfold decodeCvtRow; rw [hc]; rfl
    rw [row_cvt (by rw [hc]) hp, q, hk, hh]
  have := rm.code_lt
  exact lane (r := rawX 0 0x4C h d.code a.val b.val c.code (bxdotCode rm bsa bsb)) (encodeRaw_plain rfl rfl rfl rfl)
    (rawX_fits (by decide) (by decide) d.code_lt (by omega) (by omega) c.code_lt
      (by simp only [bxdotCode]; omega)) fun _ =>
    key rfl rfl rfl (bxdotMod_code 0x4C h rm bsa bsb d a b c)

theorem bxdotBx6 (h : LaneHdr) (rm : Rm) (bsa bsb : Fin 4) (d : Opd) (a b : VReg) (c : Opd) : Statement (.bxdotBx6 h rm bsa bsb d a b c) := by
  have key {r : RawLane} (hp : r.page = 0) (hc : r.cell = 0x4D) (hh : r.hdr = h)
      (hk : ∀ f, bxdotMod r f = .ok (f rm bsa bsb d a b c)) : decodeLaneRaw r = .ok (.bxdotBx6 h rm bsa bsb d a b c) := by
    have q : decodeCvtRow r = bxdotMod r (.bxdotBx6 r.hdr) := by unfold decodeCvtRow; rw [hc]; rfl
    rw [row_cvt (by rw [hc]) hp, q, hk, hh]
  have := rm.code_lt
  exact lane (r := rawX 0 0x4D h d.code a.val b.val c.code (bxdotCode rm bsa bsb)) (encodeRaw_plain rfl rfl rfl rfl)
    (rawX_fits (by decide) (by decide) d.code_lt (by omega) (by omega) c.code_lt
      (by simp only [bxdotCode]; omega)) fun _ =>
    key rfl rfl rfl (bxdotMod_code 0x4D h rm bsa bsb d a b c)

theorem bxdotBx4 (h : LaneHdr) (rm : Rm) (bsa bsb : Fin 4) (d : Opd) (a b : VReg) (c : Opd) : Statement (.bxdotBx4 h rm bsa bsb d a b c) := by
  have key {r : RawLane} (hp : r.page = 0) (hc : r.cell = 0x4E) (hh : r.hdr = h)
      (hk : ∀ f, bxdotMod r f = .ok (f rm bsa bsb d a b c)) : decodeLaneRaw r = .ok (.bxdotBx4 h rm bsa bsb d a b c) := by
    have q : decodeCvtRow r = bxdotMod r (.bxdotBx4 r.hdr) := by unfold decodeCvtRow; rw [hc]; rfl
    rw [row_cvt (by rw [hc]) hp, q, hk, hh]
  have := rm.code_lt
  exact lane (r := rawX 0 0x4E h d.code a.val b.val c.code (bxdotCode rm bsa bsb)) (encodeRaw_plain rfl rfl rfl rfl)
    (rawX_fits (by decide) (by decide) d.code_lt (by omega) (by omega) c.code_lt
      (by simp only [bxdotCode]; omega)) fun _ =>
    key rfl rfl rfl (bxdotMod_code 0x4E h rm bsa bsb d a b c)

theorem mov (h : LaneHdr) (w64 : Bool) (d a : Opd) : Statement (.mov h w64 d a) := by
  have key {r : RawLane} (hpage : r.page = 0) (hcell : r.cell = 0x50) (hh : r.hdr = h) (hd : r.d = d.code) (ha : r.a = a.code) (hb : r.b = 0) (hc : r.c = 0) (hf : r.form [0] = .ok ()) (g0 : flag r.mod 0 = w64) (v1 : r.mod / 2 = 0) :
      decodeLaneRaw r = .ok (.mov h w64 d a) := by
    have q : decodeMoveRow r = (do
          r.form [0]; zeroed r.b; zeroed r.c
          let d ← Opd.ofCode r.d
          let a ← Opd.ofCode r.a
          zeroed (r.mod / 2); .ok (.mov r.hdr (flag r.mod 0) d a)) := by
      unfold decodeMoveRow; rw [hcell]; rfl
    rw [row_move (by rw [hcell]) hpage, q]
    simp only [hh, hd, ha, hb, hc, hf, g0, v1, Opd.ofCode_code, finOfNat_val, zeroed_zero, Dec.bind_ok, if_true, if_false, Bool.false_eq_true]
  have := bit_lt w64
  have := szCode_lt w64
  refine lane (r := rawX 0 0x50 h d.code a.code 0 0 (bit w64)) (encodeRaw_plain rfl rfl rfl rfl) (rawX_fits (by decide) (by decide) d.code_lt a.code_lt (by decide) (by decide) (by omega)) fun _ =>
    key rfl rfl ?_ ?_ ?_ ?_ ?_ ?_ ?_ ?_
  · rfl
  · rfl
  · rfl
  · rfl
  · rfl
  · rfl
  · refine flag_of_fld ?_; show fld (bit w64) 0 1 = bit w64; simp only [fld] <;> omega
  · show (bit w64) / 2 = _; omega

theorem movi (h : LaneHdr) (d : Opd) (x : W32) : Statement (.movi h d x) := by
  have key {r : RawLane} (hp : r.page = 0) (hc : r.cell = 0x51) (hh : r.hdr = h) (hf : r.form [1] = .ok ())
      (hd : r.d = d.code) (ha : r.a = 0) (hb : r.b = 0) (hz : r.c = 0) (hx : r.x = x.toNat) :
      decodeLaneRaw r = .ok (.movi h d x) := by
    have q : decodeMoveRow r = (do
        r.form [1]; zeroed r.a; zeroed r.b; zeroed r.c
        let d ← Opd.ofCode r.d
        .ok (.movi r.hdr d (BitVec.ofNat 32 r.x))) := by
      unfold decodeMoveRow; rw [hc]; rfl
    rw [row_move (by rw [hc]) hp, q]
    simp only [hf, hh, hd, ha, hb, hz, hx, zeroed_zero, Dec.bind_ok, Opd.ofCode_code, BitVec.ofNat_toNat, BitVec.setWidth_eq]
  exact lane (r := ⟨0, 0x51, h, d.code, 0, 0, 0, 1, x.toNat⟩) (encodeRaw_plain rfl rfl rfl rfl)
    (fits_of (by decide) (by decide) d.code_lt (by decide) (by decide) (by decide) (by decide) x.isLt) fun _ =>
    key rfl rfl rfl rfl rfl rfl rfl rfl rfl

theorem xlane (h : LaneHdr) (mode : XMode) (vp : PReg) (w64 : Bool) (d a : Opd) (b : Src) : Statement (.xlane h mode vp w64 d a b) := by
  have h1 := mode.code_lt
  have h2 := vp.isLt
  have h3 := bit_lt w64
  have h4 := a.code_lt
  have key {r : RawLane} (hp : r.page = 0) (hc : r.cell = 0x52) (hh : r.hdr = h) (hd : r.d = d.code)
      (ha : r.a = a.code) (hz : r.c = 0) (hm : r.mod = mode.code + vp.val * 4 + bit w64 * 32) (hf : r.form [0, 2] = .ok ())
      (hs : r.src 2 r.b = .ok b) : decodeLaneRaw r = .ok (.xlane h mode vp w64 d a b) := by
    have q : decodeMoveRow r = (do
        r.form [0, 2]; zeroed r.c; zeroed (r.mod / 64)
        let mode ← XMode.ofCode (fld r.mod 0 2)
        let d ← Opd.ofCode r.d
        let a ← Opd.ofCode r.a
        let b ← r.src 2 r.b
        .ok (.xlane r.hdr mode (Fin.ofNat 8 (fld r.mod 2 3)) (flag r.mod 5) d a b)) := by
      unfold decodeMoveRow; rw [hc]; rfl
    have e1 : (mode.code + vp.val * 4 + bit w64 * 32) / 64 = 0 := by omega
    have e2 : fld (mode.code + vp.val * 4 + bit w64 * 32) 0 2 = mode.code := by simp only [fld]; omega
    have e3 : fld (mode.code + vp.val * 4 + bit w64 * 32) 2 3 = vp.val := by simp only [fld]; omega
    have e4 : flag (mode.code + vp.val * 4 + bit w64 * 32) 5 = w64 := flag_of_fld (by simp only [fld]; omega)
    rw [row_move (by rw [hc]) hp, q]
    simp only [hh, hd, ha, hz, hm, hf, hs, e1, e2, e3, e4, XMode.ofCode_code, finOfNat_val, zeroed_zero, Dec.bind_ok, Opd.ofCode_code]
  obtain ⟨hp, hc, hh, hd, ha, hz, hm, hf, hs⟩ := rawBin_head 0 0x52 h d.code a.code b 0 (mode.code + vp.val * 4 + bit w64 * 32)
  exact lane (encodeRaw_plain rfl rfl rfl (by cases b <;> rfl))
    (rawBin_fits (by decide) (by decide) d.code_lt (by omega) (by decide) (by omega)) fun _ => key hp hc hh hd ha hz hm hf hs

theorem vote (h : LaneHdr) (mode : VoteMode) (d : Opd) (a : PReg) : Statement (.vote h mode d a) := by
  have key {r : RawLane} (hpage : r.page = 0) (hcell : r.cell = 0x53) (hh : r.hdr = h) (hd : r.d = d.code) (ha : r.a = 208 + a.val) (hb : r.b = 0) (hc : r.c = 0) (hf : r.form [0] = .ok ()) (e0_3 : fld r.mod 0 3 = mode.code) (v3 : r.mod / 8 = 0) :
      decodeLaneRaw r = .ok (.vote h mode d a) := by
    have q : decodeMoveRow r = (do
          r.form [0]; zeroed r.b; zeroed r.c; zeroed (r.mod / 8)
          let mode ← VoteMode.ofCode (fld r.mod 0 3)
          let d ← Opd.ofCode r.d
          let a ← pregOf r.a
          .ok (.vote r.hdr mode d a)) := by
      unfold decodeMoveRow; rw [hcell]; rfl
    rw [row_move (by rw [hcell]) hpage, q]
    simp only [hh, hd, ha, hb, hc, hf, e0_3, v3, Opd.ofCode_code, VoteMode.ofCode_code, pregOf_val, finOfNat_val, zeroed_zero, Dec.bind_ok, if_true, if_false, Bool.false_eq_true]
  have := mode.code_lt
  have := a.isLt
  refine lane (r := rawX 0 0x53 h d.code (208 + a.val) 0 0 (mode.code)) (encodeRaw_plain rfl rfl rfl rfl) (rawX_fits (by decide) (by decide) d.code_lt (by omega) (by decide) (by decide) (by omega)) fun _ =>
    key rfl rfl ?_ ?_ ?_ ?_ ?_ ?_ ?_ ?_
  · rfl
  · rfl
  · rfl
  · rfl
  · rfl
  · rfl
  · show fld (mode.code) 0 3 = _; simp only [fld] <;> omega
  · show (mode.code) / 8 = _; omega

theorem rdlane (h : LaneHdr) (vp : PReg) (d : Opd) (a : VReg) (b : Src) : Statement (.rdlane h vp d a b) := by
  have h2 := vp.isLt
  have h4 := a.isLt
  have key {r : RawLane} (hp : r.page = 0) (hc : r.cell = 0x54) (hh : r.hdr = h) (hd : r.d = d.code)
      (ha : r.a = a.val) (hz : r.c = 0) (hm : r.mod = vp.val * 4) (hf : r.form [0, 2] = .ok ())
      (hs : r.src 2 r.b = .ok b) : decodeLaneRaw r = .ok (.rdlane h vp d a b) := by
    have q : decodeMoveRow r = (do
        r.form [0, 2]; zeroed r.c; zeroed (r.mod / 32); zeroed (fld r.mod 0 2)
        let d ← Opd.ofCode r.d
        let a ← vregOf r.a
        let b ← r.src 2 r.b
        .ok (.rdlane r.hdr (Fin.ofNat 8 (fld r.mod 2 3)) d a b)) := by
      unfold decodeMoveRow; rw [hc]; rfl
    have e1 : vp.val * 4 / 32 = 0 := by omega
    have e2 : fld (vp.val * 4) 0 2 = 0 := by simp only [fld]; omega
    have e3 : fld (vp.val * 4) 2 3 = vp.val := by simp only [fld]; omega
    rw [row_move (by rw [hc]) hp, q]
    simp only [hh, hd, ha, hz, hm, hf, hs, e1, e2, e3, finOfNat_val, zeroed_zero, Dec.bind_ok, Opd.ofCode_code, vregOf_val]
  obtain ⟨hp, hc, hh, hd, ha, hz, hm, hf, hs⟩ := rawBin_head 0 0x54 h d.code a.val b 0 (vp.val * 4)
  exact lane (encodeRaw_plain rfl rfl rfl (by cases b <;> rfl))
    (rawBin_fits (by decide) (by decide) d.code_lt (by omega) (by decide) (by omega)) fun _ => key hp hc hh hd ha hz hm hf hs

theorem lscan (h : LaneHdr) (op : ScanOp) (excl : Bool) (d : Opd) (a : VReg) : Statement (.lscan h op excl d a) := by
  have key {r : RawLane} (hpage : r.page = 0) (hcell : r.cell = 0x55) (hh : r.hdr = h) (hd : r.d = d.code) (ha : r.a = a.val) (hb : r.b = 0) (hc : r.c = 0) (hf : r.form [0] = .ok ()) (e0_3 : fld r.mod 0 3 = op.code) (g3 : flag r.mod 3 = excl) (v4 : r.mod / 16 = 0) :
      decodeLaneRaw r = .ok (.lscan h op excl d a) := by
    have q : decodeMoveRow r = (do
          r.form [0]; zeroed r.b; zeroed r.c; zeroed (r.mod / 16)
          let op ← ScanOp.ofCode (fld r.mod 0 3)
          let d ← Opd.ofCode r.d
          let a ← vregOf r.a
          .ok (.lscan r.hdr op (flag r.mod 3) d a)) := by
      unfold decodeMoveRow; rw [hcell]; rfl
    rw [row_move (by rw [hcell]) hpage, q]
    simp only [hh, hd, ha, hb, hc, hf, e0_3, g3, v4, Opd.ofCode_code, ScanOp.ofCode_code, vregOf_val, finOfNat_val, zeroed_zero, Dec.bind_ok, if_true, if_false, Bool.false_eq_true]
  have := op.code_lt
  have := bit_lt excl
  have := a.isLt
  refine lane (r := rawX 0 0x55 h d.code a.val 0 0 (op.code + bit excl * 8)) (encodeRaw_plain rfl rfl rfl rfl) (rawX_fits (by decide) (by decide) d.code_lt (by omega) (by decide) (by decide) (by omega)) fun _ =>
    key rfl rfl ?_ ?_ ?_ ?_ ?_ ?_ ?_ ?_ ?_
  · rfl
  · rfl
  · rfl
  · rfl
  · rfl
  · rfl
  · show fld (op.code + bit excl * 8) 0 3 = _; simp only [fld] <;> omega
  · refine flag_of_fld ?_; show fld (op.code + bit excl * 8) 3 1 = bit excl; simp only [fld] <;> omega
  · show (op.code + bit excl * 8) / 16 = _; omega

theorem cmp24 (h : LaneHdr) (ty : Cmp24Ty) (d a : VReg) : Statement (.cmp24 h ty d a) := by
  have key {r : RawLane} (hpage : r.page = 0) (hcell : r.cell = 0x56) (hh : r.hdr = h) (hd : r.d = d.val) (ha : r.a = a.val) (hb : r.b = 0) (hc : r.c = 0) (hf : r.form [0] = .ok ()) (e0_2 : fld r.mod 0 2 = ty.code) (v2 : r.mod / 4 = 0) :
      decodeLaneRaw r = .ok (.cmp24 h ty d a) := by
    have q : decodeMoveRow r = (do
          r.form [0]; zeroed r.b; zeroed r.c; zeroed (r.mod / 4)
          let ty ← Cmp24Ty.ofCode (fld r.mod 0 2)
          let d ← vregOf r.d
          let a ← vregOf r.a
          .ok (.cmp24 r.hdr ty d a)) := by
      unfold decodeMoveRow; rw [hcell]; rfl
    rw [row_move (by rw [hcell]) hpage, q]
    simp only [hh, hd, ha, hb, hc, hf, e0_2, v2, Cmp24Ty.ofCode_code, vregOf_val, finOfNat_val, zeroed_zero, Dec.bind_ok, if_true, if_false, Bool.false_eq_true]
  have := ty.code_lt
  have := d.isLt
  have := a.isLt
  refine lane (r := rawX 0 0x56 h d.val a.val 0 0 (ty.code)) (encodeRaw_plain rfl rfl rfl rfl) (rawX_fits (by decide) (by decide) (by omega) (by omega) (by decide) (by decide) (by omega)) fun _ =>
    key rfl rfl ?_ ?_ ?_ ?_ ?_ ?_ ?_ ?_
  · rfl
  · rfl
  · rfl
  · rfl
  · rfl
  · rfl
  · show fld (ty.code) 0 2 = _; simp only [fld] <;> omega
  · show (ty.code) / 4 = _; omega

theorem pset (h : LaneHdr) (t : BitVec 8) (d a b c : PReg) : Statement (.pset h t d a b c) := by
  have key {r : RawLane} (hpage : r.page = 0) (hcell : r.cell = 0x57) (hh : r.hdr = h) (hd : r.d = 208 + d.val) (ha : r.a = 208 + a.val) (hb : r.b = 208 + b.val) (hc : r.c = 208 + c.val) (hf : r.form [0] = .ok ()) (v8 : r.mod / 256 = 0) (b8 : BitVec.ofNat 8 r.mod = t) :
      decodeLaneRaw r = .ok (.pset h t d a b c) := by
    have q : decodeMoveRow r = (do
          r.form [0]; zeroed (r.mod / 256)
          let d ← pregOf r.d
          let a ← pregOf r.a
          let b ← pregOf r.b
          let c ← pregOf r.c
          .ok (.pset r.hdr (BitVec.ofNat 8 r.mod) d a b c)) := by
      unfold decodeMoveRow; rw [hcell]; rfl
    rw [row_move (by rw [hcell]) hpage, q]
    simp only [hh, hd, ha, hb, hc, hf, v8, b8, pregOf_val, finOfNat_val, zeroed_zero, Dec.bind_ok, if_true, if_false, Bool.false_eq_true]
  have := t.isLt
  have := d.isLt
  have := a.isLt
  have := b.isLt
  have := c.isLt
  refine lane (r := rawX 0 0x57 h (208 + d.val) (208 + a.val) (208 + b.val) (208 + c.val) (t.toNat)) (encodeRaw_plain rfl rfl rfl rfl) (rawX_fits (by decide) (by decide) (by omega) (by omega) (by omega) (by omega) (by omega)) fun _ =>
    key rfl rfl ?_ ?_ ?_ ?_ ?_ ?_ ?_ ?_
  · rfl
  · rfl
  · rfl
  · rfl
  · rfl
  · rfl
  · show (t.toNat) / 256 = _; omega
  · refine BitVec.eq_of_toNat_eq ?_; show (BitVec.ofNat 8 (t.toNat)).toNat = _; simp only [BitVec.toNat_ofNat] <;> omega

theorem pmov (h : LaneHdr) (mask : Bool) (d a : Opd) : Statement (.pmov h mask d a) := by
  have key {r : RawLane} (hpage : r.page = 0) (hcell : r.cell = 0x58) (hh : r.hdr = h) (hd : r.d = d.code) (ha : r.a = a.code) (hb : r.b = 0) (hc : r.c = 0) (hf : r.form [0] = .ok ()) (g0 : flag r.mod 0 = mask) (v1 : r.mod / 2 = 0) :
      decodeLaneRaw r = .ok (.pmov h mask d a) := by
    have q : decodeMoveRow r = (do
          r.form [0]; zeroed r.b; zeroed r.c
          let d ← Opd.ofCode r.d
          let a ← Opd.ofCode r.a
          zeroed (r.mod / 2); .ok (.pmov r.hdr (flag r.mod 0) d a)) := by
      unfold decodeMoveRow; rw [hcell]; rfl
    rw [row_move (by rw [hcell]) hpage, q]
    simp only [hh, hd, ha, hb, hc, hf, g0, v1, Opd.ofCode_code, finOfNat_val, zeroed_zero, Dec.bind_ok, if_true, if_false, Bool.false_eq_true]
  have := bit_lt mask
  refine lane (r := rawX 0 0x58 h d.code a.code 0 0 (bit mask)) (encodeRaw_plain rfl rfl rfl rfl) (rawX_fits (by decide) (by decide) d.code_lt a.code_lt (by decide) (by decide) (by omega)) fun _ =>
    key rfl rfl ?_ ?_ ?_ ?_ ?_ ?_ ?_ ?_
  · rfl
  · rfl
  · rfl
  · rfl
  · rfl
  · rfl
  · refine flag_of_fld ?_; show fld (bit mask) 0 1 = bit mask; simp only [fld] <;> omega
  · show (bit mask) / 2 = _; omega

theorem ld (h : LaneHdr) (off : BitVec 16) (sz : MemSize) (sgn : Bool) (d a b : Opd) : Statement (.ld h off sz sgn d a b) := by
  have key {r : RawLane} (hpage : r.page = 0) (hcell : r.cell = 0x80) (hh : r.hdr = h) (hd : r.d = d.code) (ha : r.a = a.code) (hb : r.b = b.code) (hc : r.c = 0) (hf : r.form [0] = .ok ()) (e0_9 : fld r.x 0 9 = 0) (e10_2 : fld r.x 10 2 = sz.code) (e12_4 : fld r.x 12 4 = 0) (g9 : flag r.x 9 = sgn) (ho : offOf r.x = off) :
      decodeLaneRaw r = .ok (.ld h off sz sgn d a b) := by
    have q : decodeMemRow r = (do
          r.form [0]; zeroed r.c; zeroed (fld r.x 12 4); zeroed (fld r.x 0 9)
          let sz ← MemSize.ofCode (fld r.x 10 2)
          let d ← Opd.ofCode r.d
          let a ← Opd.ofCode r.a
          let b ← Opd.ofCode r.b
          .ok (.ld r.hdr (offOf r.x) sz (flag r.x 9) d a b)) := by
      unfold decodeMemRow; rw [hcell]; rfl
    rw [row_mem (by rw [hcell]) hpage, q]
    simp only [hh, hd, ha, hb, hc, hf, e0_9, e10_2, e12_4, g9, ho, MemSize.ofCode_code, Opd.ofCode_code, finOfNat_val, zeroed_zero, Dec.bind_ok, if_true, if_false, Bool.false_eq_true]
  have := off.isLt
  have := sz.code_lt
  have := bit_lt sgn
  refine lane (r := rawX 0 0x80 h d.code a.code b.code 0 (memCode off 0 0 sz.code (bit sgn * 2 ^ 9))) (encodeRaw_plain rfl rfl rfl rfl) (rawX_fits (by decide) (by decide) d.code_lt a.code_lt b.code_lt (by decide) (by simp only [memCode] <;> omega)) fun _ =>
    key rfl rfl ?_ ?_ ?_ ?_ ?_ ?_ ?_ ?_ ?_ ?_ ?_
  · rfl
  · rfl
  · rfl
  · rfl
  · rfl
  · rfl
  · show fld (memCode off 0 0 sz.code (bit sgn * 2 ^ 9)) 0 9 = _; simp only [fld, memCode] <;> omega
  · show fld (memCode off 0 0 sz.code (bit sgn * 2 ^ 9)) 10 2 = _; simp only [fld, memCode] <;> omega
  · show fld (memCode off 0 0 sz.code (bit sgn * 2 ^ 9)) 12 4 = _; simp only [fld, memCode] <;> omega
  · refine flag_of_fld ?_; show fld (memCode off 0 0 sz.code (bit sgn * 2 ^ 9)) 9 1 = bit sgn; simp only [fld, memCode] <;> omega
  · refine BitVec.eq_of_toNat_eq ?_; show (offOf (memCode off 0 0 sz.code (bit sgn * 2 ^ 9))).toNat = _; simp only [offOf, fld, memCode, BitVec.toNat_ofNat] <;> omega

theorem st (h : LaneHdr) (off : BitVec 16) (sz : MemSize) (a b c : Opd) : Statement (.st h off sz a b c) := by
  have key {r : RawLane} (hpage : r.page = 0) (hcell : r.cell = 0x81) (hh : r.hdr = h) (hd : r.d = 0) (ha : r.a = a.code) (hb : r.b = b.code) (hc : r.c = c.code) (hf : r.form [0] = .ok ()) (e0_10 : fld r.x 0 10 = 0) (e10_2 : fld r.x 10 2 = sz.code) (e12_4 : fld r.x 12 4 = 0) (ho : offOf r.x = off) :
      decodeLaneRaw r = .ok (.st h off sz a b c) := by
    have q : decodeMemRow r = (do
          r.form [0]; zeroed r.d; zeroed (fld r.x 12 4); zeroed (fld r.x 0 10)
          let sz ← MemSize.ofCode (fld r.x 10 2)
          let a ← Opd.ofCode r.a
          let b ← Opd.ofCode r.b
          let c ← Opd.ofCode r.c
          .ok (.st r.hdr (offOf r.x) sz a b c)) := by
      unfold decodeMemRow; rw [hcell]; rfl
    rw [row_mem (by rw [hcell]) hpage, q]
    simp only [hh, hd, ha, hb, hc, hf, e0_10, e10_2, e12_4, ho, MemSize.ofCode_code, Opd.ofCode_code, finOfNat_val, zeroed_zero, Dec.bind_ok, if_true, if_false, Bool.false_eq_true]
  have := off.isLt
  have := sz.code_lt
  refine lane (r := rawX 0 0x81 h 0 a.code b.code c.code (memCode off 0 0 sz.code 0)) (encodeRaw_plain rfl rfl rfl rfl) (rawX_fits (by decide) (by decide) (by decide) a.code_lt b.code_lt c.code_lt (by simp only [memCode] <;> omega)) fun _ =>
    key rfl rfl ?_ ?_ ?_ ?_ ?_ ?_ ?_ ?_ ?_ ?_
  · rfl
  · rfl
  · rfl
  · rfl
  · rfl
  · rfl
  · show fld (memCode off 0 0 sz.code 0) 0 10 = _; simp only [fld, memCode] <;> omega
  · show fld (memCode off 0 0 sz.code 0) 10 2 = _; simp only [fld, memCode] <;> omega
  · show fld (memCode off 0 0 sz.code 0) 12 4 = _; simp only [fld, memCode] <;> omega
  · refine BitVec.eq_of_toNat_eq ?_; show (offOf (memCode off 0 0 sz.code 0)).toNat = _; simp only [offOf, fld, memCode, BitVec.toNat_ofNat] <;> omega

theorem ldR (h : LaneHdr) (off : BitVec 16) (sc : Scope) (acq w64 : Bool) (d a b : Opd) : Statement (.ldR h off sc acq w64 d a b) := by
  have key {r : RawLane} (hpage : r.page = 0) (hcell : r.cell = 0x82) (hh : r.hdr = h) (hd : r.d = d.code) (ha : r.a = a.code) (hb : r.b = b.code) (hc : r.c = 0) (hf : r.form [0] = .ok ()) (e0_10 : fld r.x 0 10 = 0) (e14_2 : fld r.x 14 2 = sc.code) (ho : offOf r.x = off) (hz : sz32or64 r.x = .ok w64) (hr : ordOr r.x 1 = .ok acq) :
      decodeLaneRaw r = .ok (.ldR h off sc acq w64 d a b) := by
    have q : decodeMemRow r = (do
          r.form [0]; zeroed r.c; zeroed (fld r.x 0 10)
          let sc ← Scope.ofCode (fld r.x 14 2)
          let acq ← ordOr r.x 1
          let w ← sz32or64 r.x
          let d ← Opd.ofCode r.d
          let a ← Opd.ofCode r.a
          let b ← Opd.ofCode r.b
          .ok (.ldR r.hdr (offOf r.x) sc acq w d a b)) := by
      unfold decodeMemRow; rw [hcell]; rfl
    rw [row_mem (by rw [hcell]) hpage, q]
    simp only [hh, hd, ha, hb, hc, hf, e0_10, e14_2, ho, hz, hr, Opd.ofCode_code, Scope.ofCode_code, finOfNat_val, zeroed_zero, Dec.bind_ok, if_true, if_false, Bool.false_eq_true]
  have := off.isLt
  have := sc.code_lt
  have := bit_lt acq
  have := bit_lt w64
  have := szCode_lt w64
  refine lane (r := rawX 0 0x82 h d.code a.code b.code 0 (memCode off sc.code (bit acq) (szCode w64) 0)) (encodeRaw_plain rfl rfl rfl rfl) (rawX_fits (by decide) (by decide) d.code_lt a.code_lt b.code_lt (by decide) (by simp only [memCode] <;> omega)) fun _ =>
    key rfl rfl ?_ ?_ ?_ ?_ ?_ ?_ ?_ ?_ ?_ ?_ ?_
  · rfl
  · rfl
  · rfl
  · rfl
  · rfl
  · rfl
  · show fld (memCode off sc.code (bit acq) (szCode w64) 0) 0 10 = _; simp only [fld, memCode] <;> omega
  · show fld (memCode off sc.code (bit acq) (szCode w64) 0) 14 2 = _; simp only [fld, memCode] <;> omega
  · refine BitVec.eq_of_toNat_eq ?_; show (offOf (memCode off sc.code (bit acq) (szCode w64) 0)).toNat = _; simp only [offOf, fld, memCode, BitVec.toNat_ofNat] <;> omega
  · refine sz32or64_code ?_; show fld (memCode off sc.code (bit acq) (szCode w64) 0) 10 2 = _; simp only [fld, memCode] <;> omega
  · refine ordOr_acq ?_; show fld (memCode off sc.code (bit acq) (szCode w64) 0) 12 2 = _; simp only [fld, memCode] <;> omega

theorem stR (h : LaneHdr) (off : BitVec 16) (sc : Scope) (rel w64 : Bool) (a b c : Opd) : Statement (.stR h off sc rel w64 a b c) := by
  have key {r : RawLane} (hpage : r.page = 0) (hcell : r.cell = 0x83) (hh : r.hdr = h) (hd : r.d = 0) (ha : r.a = a.code) (hb : r.b = b.code) (hc : r.c = c.code) (hf : r.form [0] = .ok ()) (e0_10 : fld r.x 0 10 = 0) (e14_2 : fld r.x 14 2 = sc.code) (ho : offOf r.x = off) (hz : sz32or64 r.x = .ok w64) (hr : ordOr r.x 2 = .ok rel) :
      decodeLaneRaw r = .ok (.stR h off sc rel w64 a b c) := by
    have q : decodeMemRow r = (do
          r.form [0]; zeroed r.d; zeroed (fld r.x 0 10)
          let sc ← Scope.ofCode (fld r.x 14 2)
          let rel ← ordOr r.x 2
          let w ← sz32or64 r.x
          let a ← Opd.ofCode r.a
          let b ← Opd.ofCode r.b
          let c ← Opd.ofCode r.c
          .ok (.stR r.hdr (offOf r.x) sc rel w a b c)) := by
      unfold decodeMemRow; rw [hcell]; rfl
    rw [row_mem (by rw [hcell]) hpage, q]
    simp only [hh, hd, ha, hb, hc, hf, e0_10, e14_2, ho, hz, hr, Opd.ofCode_code, Scope.ofCode_code, finOfNat_val, zeroed_zero, Dec.bind_ok, if_true, if_false, Bool.false_eq_true]
  have := off.isLt
  have := sc.code_lt
  have := bit_lt rel
  have := bit_lt w64
  have := szCode_lt w64
  refine lane (r := rawX 0 0x83 h 0 a.code b.code c.code (memCode off sc.code (bit rel * 2) (szCode w64) 0)) (encodeRaw_plain rfl rfl rfl rfl) (rawX_fits (by decide) (by decide) (by decide) a.code_lt b.code_lt c.code_lt (by simp only [memCode] <;> omega)) fun _ =>
    key rfl rfl ?_ ?_ ?_ ?_ ?_ ?_ ?_ ?_ ?_ ?_ ?_
  · rfl
  · rfl
  · rfl
  · rfl
  · rfl
  · rfl
  · show fld (memCode off sc.code (bit rel * 2) (szCode w64) 0) 0 10 = _; simp only [fld, memCode] <;> omega
  · show fld (memCode off sc.code (bit rel * 2) (szCode w64) 0) 14 2 = _; simp only [fld, memCode] <;> omega
  · refine BitVec.eq_of_toNat_eq ?_; show (offOf (memCode off sc.code (bit rel * 2) (szCode w64) 0)).toNat = _; simp only [offOf, fld, memCode, BitVec.toNat_ofNat] <;> omega
  · refine sz32or64_code ?_; show fld (memCode off sc.code (bit rel * 2) (szCode w64) 0) 10 2 = _; simp only [fld, memCode] <;> omega
  · refine ordOr_rel ?_; show fld (memCode off sc.code (bit rel * 2) (szCode w64) 0) 12 2 = _; simp only [fld, memCode] <;> omega

theorem ldv (h : LaneHdr) (off : BitVec 16) (sc : Scope) (d a b c : Opd) : Statement (.ldv h off sc d a b c) := by
  have key {r : RawLane} (hpage : r.page = 0) (hcell : r.cell = 0x84) (hh : r.hdr = h) (hd : r.d = d.code) (ha : r.a = a.code) (hb : r.b = b.code) (hc : r.c = c.code) (hf : r.form [0] = .ok ()) (e0_10 : fld r.x 0 10 = 0) (e10_2 : fld r.x 10 2 = 3) (e12_2 : fld r.x 12 2 = 0) (e14_2 : fld r.x 14 2 = sc.code) (ho : offOf r.x = off) :
      decodeLaneRaw r = .ok (.ldv h off sc d a b c) := by
    have q : decodeMemRow r = (do
          r.form [0]; zeroed (fld r.x 12 2); zeroed (fld r.x 0 10)
          let sc ← Scope.ofCode (fld r.x 14 2)
          let d ← Opd.ofCode r.d
          let a ← Opd.ofCode r.a
          let b ← Opd.ofCode r.b
          let c ← Opd.ofCode r.c
          if fld r.x 10 2 = 3 then .ok (.ldv r.hdr (offOf r.x) sc d a b c) else .error .reservedValue) := by
      unfold decodeMemRow; rw [hcell]; rfl
    rw [row_mem (by rw [hcell]) hpage, q]
    simp only [hh, hd, ha, hb, hc, hf, e0_10, e10_2, e12_2, e14_2, ho, Opd.ofCode_code, Scope.ofCode_code, finOfNat_val, zeroed_zero, Dec.bind_ok, if_true, if_false, Bool.false_eq_true]
  have := off.isLt
  have := sc.code_lt
  refine lane (r := rawX 0 0x84 h d.code a.code b.code c.code (memCode off sc.code 0 3 0)) (encodeRaw_plain rfl rfl rfl rfl) (rawX_fits (by decide) (by decide) d.code_lt a.code_lt b.code_lt c.code_lt (by simp only [memCode] <;> omega)) fun _ =>
    key rfl rfl ?_ ?_ ?_ ?_ ?_ ?_ ?_ ?_ ?_ ?_ ?_
  · rfl
  · rfl
  · rfl
  · rfl
  · rfl
  · rfl
  · show fld (memCode off sc.code 0 3 0) 0 10 = _; simp only [fld, memCode] <;> omega
  · show fld (memCode off sc.code 0 3 0) 10 2 = _; simp only [fld, memCode] <;> omega
  · show fld (memCode off sc.code 0 3 0) 12 2 = _; simp only [fld, memCode] <;> omega
  · show fld (memCode off sc.code 0 3 0) 14 2 = _; simp only [fld, memCode] <;> omega
  · refine BitVec.eq_of_toNat_eq ?_; show (offOf (memCode off sc.code 0 3 0)).toNat = _; simp only [offOf, fld, memCode, BitVec.toNat_ofNat] <;> omega

theorem lds (h : LaneHdr) (off : BitVec 16) (sz : MemSize) (sgn : Bool) (d a b : Opd) : Statement (.lds h off sz sgn d a b) := by
  have key {r : RawLane} (hpage : r.page = 0) (hcell : r.cell = 0x85) (hh : r.hdr = h) (hd : r.d = d.code) (ha : r.a = a.code) (hb : r.b = b.code) (hc : r.c = 0) (hf : r.form [0] = .ok ()) (e0_9 : fld r.x 0 9 = 0) (e10_2 : fld r.x 10 2 = sz.code) (e12_4 : fld r.x 12 4 = 0) (g9 : flag r.x 9 = sgn) (ho : offOf r.x = off) :
      decodeLaneRaw r = .ok (.lds h off sz sgn d a b) := by
    have q : decodeMemRow r = (do
          r.form [0]; zeroed r.c; zeroed (fld r.x 12 4); zeroed (fld r.x 0 9)
          let sz ← MemSize.ofCode (fld r.x 10 2)
          let d ← Opd.ofCode r.d
          let a ← Opd.ofCode r.a
          let b ← Opd.ofCode r.b
          .ok (.lds r.hdr (offOf r.x) sz (flag r.x 9) d a b)) := by
      unfold decodeMemRow; rw [hcell]; rfl
    rw [row_mem (by rw [hcell]) hpage, q]
    simp only [hh, hd, ha, hb, hc, hf, e0_9, e10_2, e12_4, g9, ho, MemSize.ofCode_code, Opd.ofCode_code, finOfNat_val, zeroed_zero, Dec.bind_ok, if_true, if_false, Bool.false_eq_true]
  have := off.isLt
  have := sz.code_lt
  have := bit_lt sgn
  refine lane (r := rawX 0 0x85 h d.code a.code b.code 0 (memCode off 0 0 sz.code (bit sgn * 2 ^ 9))) (encodeRaw_plain rfl rfl rfl rfl) (rawX_fits (by decide) (by decide) d.code_lt a.code_lt b.code_lt (by decide) (by simp only [memCode] <;> omega)) fun _ =>
    key rfl rfl ?_ ?_ ?_ ?_ ?_ ?_ ?_ ?_ ?_ ?_ ?_
  · rfl
  · rfl
  · rfl
  · rfl
  · rfl
  · rfl
  · show fld (memCode off 0 0 sz.code (bit sgn * 2 ^ 9)) 0 9 = _; simp only [fld, memCode] <;> omega
  · show fld (memCode off 0 0 sz.code (bit sgn * 2 ^ 9)) 10 2 = _; simp only [fld, memCode] <;> omega
  · show fld (memCode off 0 0 sz.code (bit sgn * 2 ^ 9)) 12 4 = _; simp only [fld, memCode] <;> omega
  · refine flag_of_fld ?_; show fld (memCode off 0 0 sz.code (bit sgn * 2 ^ 9)) 9 1 = bit sgn; simp only [fld, memCode] <;> omega
  · refine BitVec.eq_of_toNat_eq ?_; show (offOf (memCode off 0 0 sz.code (bit sgn * 2 ^ 9))).toNat = _; simp only [offOf, fld, memCode, BitVec.toNat_ofNat] <;> omega

theorem sts (h : LaneHdr) (off : BitVec 16) (sz : MemSize) (a b c : Opd) : Statement (.sts h off sz a b c) := by
  have key {r : RawLane} (hpage : r.page = 0) (hcell : r.cell = 0x86) (hh : r.hdr = h) (hd : r.d = 0) (ha : r.a = a.code) (hb : r.b = b.code) (hc : r.c = c.code) (hf : r.form [0] = .ok ()) (e0_10 : fld r.x 0 10 = 0) (e10_2 : fld r.x 10 2 = sz.code) (e12_4 : fld r.x 12 4 = 0) (ho : offOf r.x = off) :
      decodeLaneRaw r = .ok (.sts h off sz a b c) := by
    have q : decodeMemRow r = (do
          r.form [0]; zeroed r.d; zeroed (fld r.x 12 4); zeroed (fld r.x 0 10)
          let sz ← MemSize.ofCode (fld r.x 10 2)
          let a ← Opd.ofCode r.a
          let b ← Opd.ofCode r.b
          let c ← Opd.ofCode r.c
          .ok (.sts r.hdr (offOf r.x) sz a b c)) := by
      unfold decodeMemRow; rw [hcell]; rfl
    rw [row_mem (by rw [hcell]) hpage, q]
    simp only [hh, hd, ha, hb, hc, hf, e0_10, e10_2, e12_4, ho, MemSize.ofCode_code, Opd.ofCode_code, finOfNat_val, zeroed_zero, Dec.bind_ok, if_true, if_false, Bool.false_eq_true]
  have := off.isLt
  have := sz.code_lt
  refine lane (r := rawX 0 0x86 h 0 a.code b.code c.code (memCode off 0 0 sz.code 0)) (encodeRaw_plain rfl rfl rfl rfl) (rawX_fits (by decide) (by decide) (by decide) a.code_lt b.code_lt c.code_lt (by simp only [memCode] <;> omega)) fun _ =>
    key rfl rfl ?_ ?_ ?_ ?_ ?_ ?_ ?_ ?_ ?_ ?_
  · rfl
  · rfl
  · rfl
  · rfl
  · rfl
  · rfl
  · show fld (memCode off 0 0 sz.code 0) 0 10 = _; simp only [fld, memCode] <;> omega
  · show fld (memCode off 0 0 sz.code 0) 10 2 = _; simp only [fld, memCode] <;> omega
  · show fld (memCode off 0 0 sz.code 0) 12 4 = _; simp only [fld, memCode] <;> omega
  · refine BitVec.eq_of_toNat_eq ?_; show (offOf (memCode off 0 0 sz.code 0)).toNat = _; simp only [offOf, fld, memCode, BitVec.toNat_ofNat] <;> omega

theorem atom (h : LaneHdr) (off : BitVec 16) (op : AtomOp) (o : Order) (sc : Scope) (w64 : Bool) (d a b c : Opd) : Statement (.atom h off op o sc w64 d a b c) := by
  have h1 := off.isLt
  have h2 := op.code_lt
  have h3 := o.code_lt
  have h4 := sc.code_lt
  have h5 := szCode_lt w64
  have key {r : RawLane} (hp : r.page = 0) (hc : r.cell = 0x87) (hh : r.hdr = h) (hf : r.form [0] = .ok ())
      (hd : r.d = d.code) (ha : r.a = a.code) (hb : r.b = b.code) (hz : r.c = c.code)
      (hx : r.x = memCode off sc.code o.code (szCode w64) (op.code * 16)) : decodeLaneRaw r = .ok (.atom h off op o sc w64 d a b c) := by
    have q : decodeMemRow r = (do
        r.form [0]; zeroed (fld r.x 8 2); zeroed (fld r.x 0 4)
        let op ← AtomOp.ofCode (fld r.x 4 4)
        let o ← Order.ofCode (fld r.x 12 2)
        let sc ← Scope.ofCode (fld r.x 14 2)
        let w ← sz32or64 r.x
        let d ← Opd.ofCode r.d
        let a ← Opd.ofCode r.a
        let b ← Opd.ofCode r.b
        let c ← Opd.ofCode r.c
        .ok (.atom r.hdr (offOf r.x) op o sc w d a b c)) := by
      unfold decodeMemRow; rw [hc]; rfl
    obtain ⟨e1, e2, e3, e4, -, -, -, -, e5, -, e6, e7, -⟩ :=
      memCode_fields off h4 h3 h5 (rest := op.code * 16) (by omega)
    have e8 : op.code * 16 / 256 = 0 := by omega
    have e9 : op.code * 16 / 16 % 16 = op.code := by omega
    have e10 : op.code * 16 % 16 = 0 := by omega
    have hw : sz32or64 r.x = .ok w64 := sz32or64_code (by rw [hx, e4])
    rw [row_mem (by rw [hc]) hp, q, hw]
    simp only [hf, hh, hd, ha, hb, hz, hx, e1, e2, e3, e5, e6, e7, e8, e9, e10, zeroed_zero, Dec.bind_ok, AtomOp.ofCode_code,
      Order.ofCode_code, Scope.ofCode_code, Opd.ofCode_code]
  intro hw
  have hb : op ≠ .cas → b = .v 0 := by
    intro hop
    simp only [Instr.wf, Instr.illForm, Instr.laneInfo, Instr.modOk] at hw
    split at hw
    · simp at hw
    · split at hw
      · simp at hw
      · split at hw
        · simp at hw
        · next hn => simpa [hop] using hn
  refine lane (r := rawX 0 0x87 h d.code a.code b.code c.code (memCode off sc.code o.code (szCode w64) (op.code * 16)))
    (encodeRaw_plain rfl rfl rfl ?_) (rawX_fits (by decide) (by decide) d.code_lt a.code_lt b.code_lt c.code_lt
      (memCode_lt off h4 h3 h5 (by omega))) (fun _ => key rfl rfl rfl rfl rfl rfl rfl rfl rfl) hw
  by_cases hop : op = .cas
  · subst hop; rfl
  · have := hb hop
    subst this
    cases op <;> first | rfl | exact absurd rfl hop

theorem atomX (h : LaneHdr) (off : BitVec 16) (xf : Bool) (p : Fin 64) (rel : Bool) (sc : Scope) (d a c : Opd) : Statement (.atomX h off xf p rel sc d a c) := by
  have key {r : RawLane} (hpage : r.page = 0) (hcell : r.cell = 0x88) (hh : r.hdr = h) (hd : r.d = d.code) (ha : r.a = a.code) (hb : r.b = 0) (hc : r.c = c.code) (hf : r.form [0] = .ok ()) (e0_2 : fld r.x 0 2 = 0) (e10_2 : fld r.x 10 2 = 3) (e14_2 : fld r.x 14 2 = sc.code) (e2_6 : fld r.x 2 6 = p.val) (e9_1 : fld r.x 9 1 = 0) (g8 : flag r.x 8 = xf) (ho : offOf r.x = off) (hr : ordOr r.x 2 = .ok rel) :
      decodeLaneRaw r = .ok (.atomX h off xf p rel sc d a c) := by
    have q : decodeMemRow r = (do
          r.form [0]; zeroed r.b; zeroed (fld r.x 9 1); zeroed (fld r.x 0 2)
          let sc ← Scope.ofCode (fld r.x 14 2)
          let rel ← ordOr r.x 2
          let d ← Opd.ofCode r.d
          let a ← Opd.ofCode r.a
          let c ← Opd.ofCode r.c
          if fld r.x 10 2 = 3 then .ok (.atomX r.hdr (offOf r.x) (flag r.x 8) (Fin.ofNat 64 (fld r.x 2 6)) rel sc d a c)
          else .error .reservedValue) := by
      unfold decodeMemRow; rw [hcell]; rfl
    rw [row_mem (by rw [hcell]) hpage, q]
    simp only [hh, hd, ha, hb, hc, hf, e0_2, e10_2, e14_2, e2_6, e9_1, g8, ho, hr, Opd.ofCode_code, Scope.ofCode_code, finOfNat_val, zeroed_zero, Dec.bind_ok, if_true, if_false, Bool.false_eq_true]
  have := off.isLt
  have := bit_lt xf
  have := p.isLt
  have := bit_lt rel
  have := sc.code_lt
  refine lane (r := rawX 0 0x88 h d.code a.code 0 c.code (memCode off sc.code (bit rel * 2) 3 (bit xf * 2 ^ 8 + p.val * 4))) (encodeRaw_plain rfl rfl rfl rfl) (rawX_fits (by decide) (by decide) d.code_lt a.code_lt (by decide) c.code_lt (by simp only [memCode] <;> omega)) fun _ =>
    key rfl rfl ?_ ?_ ?_ ?_ ?_ ?_ ?_ ?_ ?_ ?_ ?_ ?_ ?_ ?_
  · rfl
  · rfl
  · rfl
  · rfl
  · rfl
  · rfl
  · show fld (memCode off sc.code (bit rel * 2) 3 (bit xf * 2 ^ 8 + p.val * 4)) 0 2 = _; simp only [fld, memCode] <;> omega
  · show fld (memCode off sc.code (bit rel * 2) 3 (bit xf * 2 ^ 8 + p.val * 4)) 10 2 = _; simp only [fld, memCode] <;> omega
  · show fld (memCode off sc.code (bit rel * 2) 3 (bit xf * 2 ^ 8 + p.val * 4)) 14 2 = _; simp only [fld, memCode] <;> omega
  · show fld (memCode off sc.code (bit rel * 2) 3 (bit xf * 2 ^ 8 + p.val * 4)) 2 6 = _; simp only [fld, memCode] <;> omega
  · show fld (memCode off sc.code (bit rel * 2) 3 (bit xf * 2 ^ 8 + p.val * 4)) 9 1 = _; simp only [fld, memCode] <;> omega
  · refine flag_of_fld ?_; show fld (memCode off sc.code (bit rel * 2) 3 (bit xf * 2 ^ 8 + p.val * 4)) 8 1 = bit xf; simp only [fld, memCode] <;> omega
  · refine BitVec.eq_of_toNat_eq ?_; show (offOf (memCode off sc.code (bit rel * 2) 3 (bit xf * 2 ^ 8 + p.val * 4))).toNat = _; simp only [offOf, fld, memCode, BitVec.toNat_ofNat] <;> omega
  · refine ordOr_rel ?_; show fld (memCode off sc.code (bit rel * 2) 3 (bit xf * 2 ^ 8 + p.val * 4)) 12 2 = _; simp only [fld, memCode] <;> omega

theorem red (h : LaneHdr) (off : BitVec 16) (op : RedOp) (rel : Bool) (sc : Scope) (w64 : Bool) (a c : Opd) : Statement (.red h off op rel sc w64 a c) := by
  have key {r : RawLane} (hpage : r.page = 0) (hcell : r.cell = 0x89) (hh : r.hdr = h) (hd : r.d = 0) (ha : r.a = a.code) (hb : r.b = 0) (hc : r.c = c.code) (hf : r.form [0] = .ok ()) (e0_4 : fld r.x 0 4 = 0) (e14_2 : fld r.x 14 2 = sc.code) (e4_4 : fld r.x 4 4 = op.code) (e8_2 : fld r.x 8 2 = 0) (ho : offOf r.x = off) (hz : sz32or64 r.x = .ok w64) (hr : ordOr r.x 2 = .ok rel) :
      decodeLaneRaw r = .ok (.red h off op rel sc w64 a c) := by
    have q : decodeMemRow r = (do
          r.form [0]; zeroed r.d; zeroed r.b; zeroed (fld r.x 8 2); zeroed (fld r.x 0 4)
          let op ← RedOp.ofCode (fld r.x 4 4)
          let sc ← Scope.ofCode (fld r.x 14 2)
          let rel ← ordOr r.x 2
          let w ← sz32or64 r.x
          let a ← Opd.ofCode r.a
          let c ← Opd.ofCode r.c
          .ok (.red r.hdr (offOf r.x) op rel sc w a c)) := by
      unfold decodeMemRow; rw [hcell]; rfl
    rw [row_mem (by rw [hcell]) hpage, q]
    simp only [hh, hd, ha, hb, hc, hf, e0_4, e14_2, e4_4, e8_2, ho, hz, hr, Opd.ofCode_code, RedOp.ofCode_code, Scope.ofCode_code, finOfNat_val, zeroed_zero, Dec.bind_ok, if_true, if_false, Bool.false_eq_true]
  have := off.isLt
  have := op.code_lt
  have := bit_lt rel
  have := sc.code_lt
  have := bit_lt w64
  have := szCode_lt w64
  refine lane (r := rawX 0 0x89 h 0 a.code 0 c.code (memCode off sc.code (bit rel * 2) (szCode w64) (op.code * 16))) (encodeRaw_plain rfl rfl rfl rfl) (rawX_fits (by decide) (by decide) (by decide) a.code_lt (by decide) c.code_lt (by simp only [memCode] <;> omega)) fun _ =>
    key rfl rfl ?_ ?_ ?_ ?_ ?_ ?_ ?_ ?_ ?_ ?_ ?_ ?_ ?_
  · rfl
  · rfl
  · rfl
  · rfl
  · rfl
  · rfl
  · show fld (memCode off sc.code (bit rel * 2) (szCode w64) (op.code * 16)) 0 4 = _; simp only [fld, memCode] <;> omega
  · show fld (memCode off sc.code (bit rel * 2) (szCode w64) (op.code * 16)) 14 2 = _; simp only [fld, memCode] <;> omega
  · show fld (memCode off sc.code (bit rel * 2) (szCode w64) (op.code * 16)) 4 4 = _; simp only [fld, memCode] <;> omega
  · show fld (memCode off sc.code (bit rel * 2) (szCode w64) (op.code * 16)) 8 2 = _; simp only [fld, memCode] <;> omega
  · refine BitVec.eq_of_toNat_eq ?_; show (offOf (memCode off sc.code (bit rel * 2) (szCode w64) (op.code * 16))).toNat = _; simp only [offOf, fld, memCode, BitVec.toNat_ofNat] <;> omega
  · refine sz32or64_code ?_; show fld (memCode off sc.code (bit rel * 2) (szCode w64) (op.code * 16)) 10 2 = _; simp only [fld, memCode] <;> omega
  · refine ordOr_rel ?_; show fld (memCode off sc.code (bit rel * 2) (szCode w64) (op.code * 16)) 12 2 = _; simp only [fld, memCode] <;> omega

theorem mwait (h : LaneHdr) (off : BitVec 16) (w64 : Bool) (a b c : Opd) : Statement (.mwait h off w64 a b c) := by
  have key {r : RawLane} (hpage : r.page = 0) (hcell : r.cell = 0x8A) (hh : r.hdr = h) (hd : r.d = 0) (ha : r.a = a.code) (hb : r.b = b.code) (hc : r.c = c.code) (hf : r.form [0] = .ok ()) (e0_10 : fld r.x 0 10 = 0) (e12_4 : fld r.x 12 4 = 0) (ho : offOf r.x = off) (hz : sz32or64 r.x = .ok w64) :
      decodeLaneRaw r = .ok (.mwait h off w64 a b c) := by
    have q : decodeMemRow r = (do
          r.form [0]; zeroed r.d; zeroed (fld r.x 12 4); zeroed (fld r.x 0 10)
          let w ← sz32or64 r.x
          let a ← Opd.ofCode r.a
          let b ← Opd.ofCode r.b
          let c ← Opd.ofCode r.c
          .ok (.mwait r.hdr (offOf r.x) w a b c)) := by
      unfold decodeMemRow; rw [hcell]; rfl
    rw [row_mem (by rw [hcell]) hpage, q]
    simp only [hh, hd, ha, hb, hc, hf, e0_10, e12_4, ho, hz, Opd.ofCode_code, finOfNat_val, zeroed_zero, Dec.bind_ok, if_true, if_false, Bool.false_eq_true]
  have := off.isLt
  have := bit_lt w64
  have := szCode_lt w64
  refine lane (r := rawX 0 0x8A h 0 a.code b.code c.code (memCode off 0 0 (szCode w64) 0)) (encodeRaw_plain rfl rfl rfl rfl) (rawX_fits (by decide) (by decide) (by decide) a.code_lt b.code_lt c.code_lt (by simp only [memCode] <;> omega)) fun _ =>
    key rfl rfl ?_ ?_ ?_ ?_ ?_ ?_ ?_ ?_ ?_ ?_
  · rfl
  · rfl
  · rfl
  · rfl
  · rfl
  · rfl
  · show fld (memCode off 0 0 (szCode w64) 0) 0 10 = _; simp only [fld, memCode] <;> omega
  · show fld (memCode off 0 0 (szCode w64) 0) 12 4 = _; simp only [fld, memCode] <;> omega
  · refine BitVec.eq_of_toNat_eq ?_; show (offOf (memCode off 0 0 (szCode w64) 0)).toNat = _; simp only [offOf, fld, memCode, BitVec.toNat_ofNat] <;> omega
  · refine sz32or64_code ?_; show fld (memCode off 0 0 (szCode w64) 0) 10 2 = _; simp only [fld, memCode] <;> omega

theorem fence (h : LaneHdr) (o : FenceOrder) (sc : Scope) : Statement (.fence h o sc) := by
  have key {r : RawLane} (hpage : r.page = 0) (hcell : r.cell = 0x8B) (hh : r.hdr = h) (hd : r.d = 0) (ha : r.a = 0) (hb : r.b = 0) (hc : r.c = 0) (hf : r.form [0] = .ok ()) (e0_12 : fld r.x 0 12 = 0) (e12_2 : fld r.x 12 2 = o.code) (e14_2 : fld r.x 14 2 = sc.code) (e16_16 : fld r.x 16 16 = 0) :
      decodeLaneRaw r = .ok (.fence h o sc) := by
    have q : decodeMemRow r = (do
          r.form [0]; zeroed r.d; zeroed r.a; zeroed r.b; zeroed r.c; zeroed (fld r.x 16 16); zeroed (fld r.x 0 12)
          let o ← FenceOrder.ofCode (fld r.x 12 2)
          let sc ← Scope.ofCode (fld r.x 14 2)
          .ok (.fence r.hdr o sc)) := by
      unfold decodeMemRow; rw [hcell]; rfl
    rw [row_mem (by rw [hcell]) hpage, q]
    simp only [hh, hd, ha, hb, hc, hf, e0_12, e12_2, e14_2, e16_16, FenceOrder.ofCode_code, Scope.ofCode_code, finOfNat_val, zeroed_zero, Dec.bind_ok, if_true, if_false, Bool.false_eq_true]
  have := o.code_lt
  have := sc.code_lt
  refine lane (r := rawX 0 0x8B h 0 0 0 0 (memCode 0 sc.code o.code 0 0)) (encodeRaw_plain rfl rfl rfl rfl) (rawX_fits (by decide) (by decide) (by decide) (by decide) (by decide) (by decide) (by simp only [memCode, BitVec.ofNat_eq_ofNat, BitVec.toNat_ofNat, Nat.zero_mod] <;> omega)) fun _ =>
    key rfl rfl ?_ ?_ ?_ ?_ ?_ ?_ ?_ ?_ ?_ ?_
  · rfl
  · rfl
  · rfl
  · rfl
  · rfl
  · rfl
  · show fld (memCode 0 sc.code o.code 0 0) 0 12 = _; simp only [fld, memCode, BitVec.ofNat_eq_ofNat, BitVec.toNat_ofNat, Nat.zero_mod] <;> omega
  · show fld (memCode 0 sc.code o.code 0 0) 12 2 = _; simp only [fld, memCode, BitVec.ofNat_eq_ofNat, BitVec.toNat_ofNat, Nat.zero_mod] <;> omega
  · show fld (memCode 0 sc.code o.code 0 0) 14 2 = _; simp only [fld, memCode, BitVec.ofNat_eq_ofNat, BitVec.toNat_ofNat, Nat.zero_mod] <;> omega
  · show fld (memCode 0 sc.code o.code 0 0) 16 16 = _; simp only [fld, memCode, BitVec.ofNat_eq_ofNat, BitVec.toNat_ofNat, Nat.zero_mod] <;> omega

theorem bra (h : LaneHdr) (target join : BitVec 30) : Statement (.bra h target join) := by
  have h1 := target.isLt
  have h2 := join.isLt
  have key {r : RawLane} (hp : r.page = 0) (hc : r.cell = 0x90) (hh : r.hdr = h) (hf : r.form [0] = .ok ())
      (hj : r.joinField = join.toNat) (hx : r.x = target.toNat) : decodeLaneRaw r = .ok (.bra h target join) := by
    have e1 : fld r.x 30 2 = 0 := by rw [hx]; simp only [fld]; omega
    have q : decodeControlRow r = (do
        r.form [0]; zeroed (r.joinField / 2 ^ 30)
        match fld r.x 30 2 with
        | 0 => .ok (.bra r.hdr (BitVec.ofNat 30 r.x) (BitVec.ofNat 30 r.joinField))
        | 1 => .ok (.braLoop r.hdr (BitVec.ofNat 30 r.x) (BitVec.ofNat 30 r.joinField))
        | _ => .error .reservedValue) := by
      unfold decodeControlRow; rw [hc]; rfl
    have e2 : join.toNat / 2 ^ 30 = 0 := by omega
    have e3 : BitVec.ofNat 30 r.x = target := by
      apply BitVec.eq_of_toNat_eq; rw [hx]; simp only [BitVec.toNat_ofNat]; omega
    rw [row_control (by rw [hc]) hp, q]
    simp only [e1, hf, hj, hh, e2, e3, zeroed_zero, Dec.bind_ok, BitVec.ofNat_toNat, BitVec.setWidth_eq]
  have hb : ∀ k, fld join.toNat k 8 < 256 := fun k => Nat.mod_lt _ (by decide)
  exact lane (r := rawX 0 0x90 h (0 + fld join.toNat 24 8) (0 + fld join.toNat 16 8) (0 + fld join.toNat 8 8)
      (0 + fld join.toNat 0 8) (target.toNat)) rfl
    (rawX_fits (by decide) (by decide) (by have := hb 24; omega) (by have := hb 16; omega) (by have := hb 8; omega)
      (by have := hb 0; omega) (by omega)) fun _ =>
    key rfl rfl rfl rfl (by simp only [RawLane.joinField, rawX, fld]; omega) rfl

theorem braLoop (h : LaneHdr) (latch exitJoin : BitVec 30) : Statement (.braLoop h latch exitJoin) := by
  have h1 := latch.isLt
  have h2 := exitJoin.isLt
  have key {r : RawLane} (hp : r.page = 0) (hc : r.cell = 0x90) (hh : r.hdr = h) (hf : r.form [0] = .ok ())
      (hj : r.joinField = exitJoin.toNat) (hx : r.x = 2 ^ 30 + latch.toNat) : decodeLaneRaw r = .ok (.braLoop h latch exitJoin) := by
    have e1 : fld r.x 30 2 = 1 := by rw [hx]; simp only [fld]; omega
    have q : decodeControlRow r = (do
        r.form [0]; zeroed (r.joinField / 2 ^ 30)
        match fld r.x 30 2 with
        | 0 => .ok (.bra r.hdr (BitVec.ofNat 30 r.x) (BitVec.ofNat 30 r.joinField))
        | 1 => .ok (.braLoop r.hdr (BitVec.ofNat 30 r.x) (BitVec.ofNat 30 r.joinField))
        | _ => .error .reservedValue) := by
      unfold decodeControlRow; rw [hc]; rfl
    have e2 : exitJoin.toNat / 2 ^ 30 = 0 := by omega
    have e3 : BitVec.ofNat 30 r.x = latch := by
      apply BitVec.eq_of_toNat_eq; rw [hx]; simp only [BitVec.toNat_ofNat]; omega
    rw [row_control (by rw [hc]) hp, q]
    simp only [e1, hf, hj, hh, e2, e3, zeroed_zero, Dec.bind_ok, BitVec.ofNat_toNat, BitVec.setWidth_eq]
  have hb : ∀ k, fld exitJoin.toNat k 8 < 256 := fun k => Nat.mod_lt _ (by decide)
  exact lane (r := rawX 0 0x90 h (0 + fld exitJoin.toNat 24 8) (0 + fld exitJoin.toNat 16 8) (0 + fld exitJoin.toNat 8 8)
      (0 + fld exitJoin.toNat 0 8) (2 ^ 30 + latch.toNat)) rfl
    (rawX_fits (by decide) (by decide) (by have := hb 24; omega) (by have := hb 16; omega) (by have := hb 8; omega)
      (by have := hb 0; omega) (by omega)) fun _ =>
    key rfl rfl rfl rfl (by simp only [RawLane.joinField, rawX, fld]; omega) rfl

theorem brk (h : LaneHdr) : Statement (.brk h) := by
  have key {r : RawLane} (hpage : r.page = 0) (hcell : r.cell = 0x91) (hh : r.hdr = h) (hj : r.joinField = 0) (hf : r.form [0] = .ok ()) (hx : r.x = 0) :
      decodeLaneRaw r = .ok (.brk h) := by
    have q : decodeControlRow r = (do
          r.form [0]; zeroed r.joinField; zeroed r.x; .ok (.brk r.hdr)) := by
      unfold decodeControlRow; rw [hcell]; rfl
    rw [row_control (by rw [hcell]) hpage, q]
    simp only [hh, hj, hf, hx, finOfNat_val, zeroed_zero, Dec.bind_ok, if_true, if_false, Bool.false_eq_true]
  refine lane (r := rawX 0 0x91 h 0 0 0 0 (0)) (encodeRaw_plain rfl rfl rfl rfl) (rawX_fits (by decide) (by decide) (by decide) (by decide) (by decide) (by decide) (by decide)) fun _ =>
    key rfl rfl ?_ ?_ ?_ ?_
  · rfl
  · simp only [RawLane.joinField, rawX, Nat.zero_mul, Nat.add_zero]
  · rfl
  · rfl

theorem cont (h : LaneHdr) : Statement (.cont h) := by
  have key {r : RawLane} (hpage : r.page = 0) (hcell : r.cell = 0x92) (hh : r.hdr = h) (hj : r.joinField = 0) (hf : r.form [0] = .ok ()) (hx : r.x = 0) :
      decodeLaneRaw r = .ok (.cont h) := by
    have q : decodeControlRow r = (do
          r.form [0]; zeroed r.joinField; zeroed r.x; .ok (.cont r.hdr)) := by
      unfold decodeControlRow; rw [hcell]; rfl
    rw [row_control (by rw [hcell]) hpage, q]
    simp only [hh, hj, hf, hx, finOfNat_val, zeroed_zero, Dec.bind_ok, if_true, if_false, Bool.false_eq_true]
  refine lane (r := rawX 0 0x92 h 0 0 0 0 (0)) (encodeRaw_plain rfl rfl rfl rfl) (rawX_fits (by decide) (by decide) (by decide) (by decide) (by decide) (by decide) (by decide)) fun _ =>
    key rfl rfl ?_ ?_ ?_ ?_
  · rfl
  · simp only [RawLane.joinField, rawX, Nat.zero_mul, Nat.add_zero]
  · rfl
  · rfl

theorem join (h : LaneHdr) : Statement (.join h) := by
  have key {r : RawLane} (hpage : r.page = 0) (hcell : r.cell = 0x93) (hh : r.hdr = h) (hj : r.joinField = 0) (hf : r.form [0] = .ok ()) (g0 : flag r.x 0 = false) (v1 : r.x / 2 = 0) :
      decodeLaneRaw r = .ok (.join h) := by
    have q : decodeControlRow r = (do
          r.form [0]; zeroed r.joinField; zeroed (r.x / 2); .ok (if flag r.x 0 then .joinLatch r.hdr else .join r.hdr)) := by
      unfold decodeControlRow; rw [hcell]; rfl
    rw [row_control (by rw [hcell]) hpage, q]
    simp only [hh, hj, hf, g0, v1, finOfNat_val, zeroed_zero, Dec.bind_ok, if_true, if_false, Bool.false_eq_true]
  refine lane (r := rawX 0 0x93 h 0 0 0 0 (0)) (encodeRaw_plain rfl rfl rfl rfl) (rawX_fits (by decide) (by decide) (by decide) (by decide) (by decide) (by decide) (by decide)) fun _ =>
    key rfl rfl ?_ ?_ ?_ ?_ ?_
  · rfl
  · simp only [RawLane.joinField, rawX, Nat.zero_mul, Nat.add_zero]
  · rfl
  · refine flag_of_fld ?_; show fld (0) 0 1 = 0; simp only [fld] <;> omega
  · show (0) / 2 = _; omega

theorem joinLatch (h : LaneHdr) : Statement (.joinLatch h) := by
  have key {r : RawLane} (hpage : r.page = 0) (hcell : r.cell = 0x93) (hh : r.hdr = h) (hj : r.joinField = 0) (hf : r.form [0] = .ok ()) (g0 : flag r.x 0 = true) (v1 : r.x / 2 = 0) :
      decodeLaneRaw r = .ok (.joinLatch h) := by
    have q : decodeControlRow r = (do
          r.form [0]; zeroed r.joinField; zeroed (r.x / 2); .ok (if flag r.x 0 then .joinLatch r.hdr else .join r.hdr)) := by
      unfold decodeControlRow; rw [hcell]; rfl
    rw [row_control (by rw [hcell]) hpage, q]
    simp only [hh, hj, hf, g0, v1, finOfNat_val, zeroed_zero, Dec.bind_ok, if_true, if_false, Bool.false_eq_true]
  refine lane (r := rawX 0 0x93 h 0 0 0 0 (1)) (encodeRaw_plain rfl rfl rfl rfl) (rawX_fits (by decide) (by decide) (by decide) (by decide) (by decide) (by decide) (by omega)) fun _ =>
    key rfl rfl ?_ ?_ ?_ ?_ ?_
  · rfl
  · simp only [RawLane.joinField, rawX, Nat.zero_mul, Nat.add_zero]
  · rfl
  · refine flag_of_fld ?_; show fld (1) 0 1 = 1; simp only [fld] <;> omega
  · show (1) / 2 = _; omega

theorem call (h : LaneHdr) (target : BitVec 30) : Statement (.call h target) := by
  have key {r : RawLane} (hpage : r.page = 0) (hcell : r.cell = 0x94) (hh : r.hdr = h) (hj : r.joinField = 0) (hf : r.form [0] = .ok ()) (v30 : r.x / 2 ^ 30 = 0) (b30 : BitVec.ofNat 30 r.x = target) :
      decodeLaneRaw r = .ok (.call h target) := by
    have q : decodeControlRow r = (do
          r.form [0]; zeroed r.joinField; zeroed (r.x / 2 ^ 30); .ok (.call r.hdr (BitVec.ofNat 30 r.x))) := by
      unfold decodeControlRow; rw [hcell]; rfl
    rw [row_control (by rw [hcell]) hpage, q]
    simp only [hh, hj, hf, v30, b30, finOfNat_val, zeroed_zero, Dec.bind_ok, if_true, if_false, Bool.false_eq_true]
  have := target.isLt
  refine lane (r := rawX 0 0x94 h 0 0 0 0 (target.toNat)) (encodeRaw_plain rfl rfl rfl rfl) (rawX_fits (by decide) (by decide) (by decide) (by decide) (by decide) (by decide) (by omega)) fun _ =>
    key rfl rfl ?_ ?_ ?_ ?_ ?_
  · rfl
  · simp only [RawLane.joinField, rawX, Nat.zero_mul, Nat.add_zero]
  · rfl
  · show (target.toNat) / 2 ^ 30 = _; omega
  · refine BitVec.eq_of_toNat_eq ?_; show (BitVec.ofNat 30 (target.toNat)).toNat = _; simp only [BitVec.toNat_ofNat] <;> omega

theorem ret (h : LaneHdr) : Statement (.ret h) := by
  have key {r : RawLane} (hpage : r.page = 0) (hcell : r.cell = 0x95) (hh : r.hdr = h) (hj : r.joinField = 0) (hf : r.form [0] = .ok ()) (hx : r.x = 0) :
      decodeLaneRaw r = .ok (.ret h) := by
    have q : decodeControlRow r = (do
          r.form [0]; zeroed r.joinField; zeroed r.x; .ok (.ret r.hdr)) := by
      unfold decodeControlRow; rw [hcell]; rfl
    rw [row_control (by rw [hcell]) hpage, q]
    simp only [hh, hj, hf, hx, finOfNat_val, zeroed_zero, Dec.bind_ok, if_true, if_false, Bool.false_eq_true]
  refine lane (r := rawX 0 0x95 h 0 0 0 0 (0)) (encodeRaw_plain rfl rfl rfl rfl) (rawX_fits (by decide) (by decide) (by decide) (by decide) (by decide) (by decide) (by decide)) fun _ =>
    key rfl rfl ?_ ?_ ?_ ?_
  · rfl
  · simp only [RawLane.joinField, rawX, Nat.zero_mul, Nat.add_zero]
  · rfl
  · rfl

theorem exit (h : LaneHdr) : Statement (.exit h) := by
  have key {r : RawLane} (hpage : r.page = 0) (hcell : r.cell = 0x96) (hh : r.hdr = h) (hj : r.joinField = 0) (hf : r.form [0] = .ok ()) (g0 : flag r.x 0 = false) (v1 : r.x / 2 = 0) :
      decodeLaneRaw r = .ok (.exit h) := by
    have q : decodeControlRow r = (do
          r.form [0]; zeroed r.joinField; zeroed (r.x / 2); .ok (if flag r.x 0 then .exitKill r.hdr else .exit r.hdr)) := by
      unfold decodeControlRow; rw [hcell]; rfl
    rw [row_control (by rw [hcell]) hpage, q]
    simp only [hh, hj, hf, g0, v1, finOfNat_val, zeroed_zero, Dec.bind_ok, if_true, if_false, Bool.false_eq_true]
  refine lane (r := rawX 0 0x96 h 0 0 0 0 (0)) (encodeRaw_plain rfl rfl rfl rfl) (rawX_fits (by decide) (by decide) (by decide) (by decide) (by decide) (by decide) (by decide)) fun _ =>
    key rfl rfl ?_ ?_ ?_ ?_ ?_
  · rfl
  · simp only [RawLane.joinField, rawX, Nat.zero_mul, Nat.add_zero]
  · rfl
  · refine flag_of_fld ?_; show fld (0) 0 1 = 0; simp only [fld] <;> omega
  · show (0) / 2 = _; omega

theorem exitKill (h : LaneHdr) : Statement (.exitKill h) := by
  have key {r : RawLane} (hpage : r.page = 0) (hcell : r.cell = 0x96) (hh : r.hdr = h) (hj : r.joinField = 0) (hf : r.form [0] = .ok ()) (g0 : flag r.x 0 = true) (v1 : r.x / 2 = 0) :
      decodeLaneRaw r = .ok (.exitKill h) := by
    have q : decodeControlRow r = (do
          r.form [0]; zeroed r.joinField; zeroed (r.x / 2); .ok (if flag r.x 0 then .exitKill r.hdr else .exit r.hdr)) := by
      unfold decodeControlRow; rw [hcell]; rfl
    rw [row_control (by rw [hcell]) hpage, q]
    simp only [hh, hj, hf, g0, v1, finOfNat_val, zeroed_zero, Dec.bind_ok, if_true, if_false, Bool.false_eq_true]
  refine lane (r := rawX 0 0x96 h 0 0 0 0 (1)) (encodeRaw_plain rfl rfl rfl rfl) (rawX_fits (by decide) (by decide) (by decide) (by decide) (by decide) (by decide) (by omega)) fun _ =>
    key rfl rfl ?_ ?_ ?_ ?_ ?_
  · rfl
  · simp only [RawLane.joinField, rawX, Nat.zero_mul, Nat.add_zero]
  · rfl
  · refine flag_of_fld ?_; show fld (1) 0 1 = 1; simp only [fld] <;> omega
  · show (1) / 2 = _; omega

theorem nap (h : LaneHdr) (n : BitVec 16) : Statement (.nap h n) := by
  have key {r : RawLane} (hpage : r.page = 0) (hcell : r.cell = 0x97) (hh : r.hdr = h) (hj : r.joinField = 0) (hf : r.form [0] = .ok ()) (v16 : r.x / 2 ^ 16 = 0) (b16 : BitVec.ofNat 16 r.x = n) :
      decodeLaneRaw r = .ok (.nap h n) := by
    have q : decodeControlRow r = (do
          r.form [0]; zeroed r.joinField; zeroed (r.x / 2 ^ 16); .ok (.nap r.hdr (BitVec.ofNat 16 r.x))) := by
      unfold decodeControlRow; rw [hcell]; rfl
    rw [row_control (by rw [hcell]) hpage, q]
    simp only [hh, hj, hf, v16, b16, finOfNat_val, zeroed_zero, Dec.bind_ok, if_true, if_false, Bool.false_eq_true]
  have := n.isLt
  refine lane (r := rawX 0 0x97 h 0 0 0 0 (n.toNat)) (encodeRaw_plain rfl rfl rfl rfl) (rawX_fits (by decide) (by decide) (by decide) (by decide) (by decide) (by decide) (by omega)) fun _ =>
    key rfl rfl ?_ ?_ ?_ ?_ ?_
  · rfl
  · simp only [RawLane.joinField, rawX, Nat.zero_mul, Nat.add_zero]
  · rfl
  · show (n.toNat) / 2 ^ 16 = _; omega
  · refine BitVec.eq_of_toNat_eq ?_; show (BitVec.ofNat 16 (n.toNat)).toNat = _; simp only [BitVec.toNat_ofNat] <;> omega

theorem rgn (h : LaneHdr) : Statement (.rgn h) := by
  have key {r : RawLane} (hpage : r.page = 0) (hcell : r.cell = 0x98) (hh : r.hdr = h) (hj : r.joinField = 0) (hf : r.form [0] = .ok ()) (hx : r.x = 0) :
      decodeLaneRaw r = .ok (.rgn h) := by
    have q : decodeControlRow r = (do
          r.form [0]; zeroed r.joinField; zeroed r.x; .ok (.rgn r.hdr)) := by
      unfold decodeControlRow; rw [hcell]; rfl
    rw [row_control (by rw [hcell]) hpage, q]
    simp only [hh, hj, hf, hx, finOfNat_val, zeroed_zero, Dec.bind_ok, if_true, if_false, Bool.false_eq_true]
  refine lane (r := rawX 0 0x98 h 0 0 0 0 (0)) (encodeRaw_plain rfl rfl rfl rfl) (rawX_fits (by decide) (by decide) (by decide) (by decide) (by decide) (by decide) (by decide)) fun _ =>
    key rfl rfl ?_ ?_ ?_ ?_
  · rfl
  · simp only [RawLane.joinField, rawX, Nat.zero_mul, Nat.add_zero]
  · rfl
  · rfl

theorem gproj (h : LaneHdr) (d : QReg) (a : Opd) (b : Fin 32) : Statement (.gproj h d a b) := by
  have key {r : RawLane} (hpage : r.page = 0) (hcell : r.cell = 0xC0) (hh : r.hdr = h) (hd : r.d = 192 + d.val) (ha : r.a = a.code) (hb : r.b = 224 + b.val) (hc : r.c = 0) (hf : r.form [0] = .ok ()) (hx : r.x = 0) :
      decodeLaneRaw r = .ok (.gproj h d a b) := by
    have q : decodeRenderRow r = (do
          r.form [0]; zeroed r.c; zeroed r.x
          let d ← qregOf r.d
          let a ← Opd.ofCode r.a
          let b ← sregOf r.b
          .ok (.gproj r.hdr d a b)) := by
      unfold decodeRenderRow; rw [hcell]; rfl
    rw [row_render (by rw [hcell]) hpage, q]
    simp only [hh, hd, ha, hb, hc, hf, hx, Opd.ofCode_code, qregOf_val, sregOf_val, finOfNat_val, zeroed_zero, Dec.bind_ok, if_true, if_false, Bool.false_eq_true]
  have := d.isLt
  have := b.isLt
  refine lane (r := rawX 0 0xC0 h (192 + d.val) a.code (224 + b.val) 0 (0)) (encodeRaw_plain rfl rfl rfl rfl) (rawX_fits (by decide) (by decide) (by omega) a.code_lt (by omega) (by decide) (by decide)) fun _ =>
    key rfl rfl ?_ ?_ ?_ ?_ ?_ ?_ ?_
  · rfl
  · rfl
  · rfl
  · rfl
  · rfl
  · rfl
  · rfl

theorem pproj (h : LaneHdr) (d : QReg) (a : Opd) (b : Fin 32) : Statement (.pproj h d a b) := by
  have key {r : RawLane} (hpage : r.page = 0) (hcell : r.cell = 0xC1) (hh : r.hdr = h) (hd : r.d = 192 + d.val) (ha : r.a = a.code) (hb : r.b = 224 + b.val) (hc : r.c = 0) (hf : r.form [0] = .ok ()) (hx : r.x = 0) :
      decodeLaneRaw r = .ok (.pproj h d a b) := by
    have q : decodeRenderRow r = (do
          r.form [0]; zeroed r.c; zeroed r.x
          let d ← qregOf r.d
          let a ← Opd.ofCode r.a
          let b ← sregOf r.b
          .ok (.pproj r.hdr d a b)) := by
      unfold decodeRenderRow; rw [hcell]; rfl
    rw [row_render (by rw [hcell]) hpage, q]
    simp only [hh, hd, ha, hb, hc, hf, hx, Opd.ofCode_code, qregOf_val, sregOf_val, finOfNat_val, zeroed_zero, Dec.bind_ok, if_true, if_false, Bool.false_eq_true]
  have := d.isLt
  have := b.isLt
  refine lane (r := rawX 0 0xC1 h (192 + d.val) a.code (224 + b.val) 0 (0)) (encodeRaw_plain rfl rfl rfl rfl) (rawX_fits (by decide) (by decide) (by omega) a.code_lt (by omega) (by decide) (by decide)) fun _ =>
    key rfl rfl ?_ ?_ ?_ ?_ ?_ ?_ ?_
  · rfl
  · rfl
  · rfl
  · rfl
  · rfl
  · rfl
  · rfl

theorem geval (h : LaneHdr) (d : VReg) (a b : Opd) : Statement (.geval h d a b) := by
  have key {r : RawLane} (hpage : r.page = 0) (hcell : r.cell = 0xC2) (hh : r.hdr = h) (hd : r.d = d.val) (ha : r.a = a.code) (hb : r.b = b.code) (hc : r.c = 0) (hf : r.form [0] = .ok ()) (hx : r.x = 0) :
      decodeLaneRaw r = .ok (.geval h d a b) := by
    have q : decodeRenderRow r = (do
          r.form [0]; zeroed r.c; zeroed r.x
          let d ← vregOf r.d
          let a ← Opd.ofCode r.a
          let b ← Opd.ofCode r.b
          .ok (.geval r.hdr d a b)) := by
      unfold decodeRenderRow; rw [hcell]; rfl
    rw [row_render (by rw [hcell]) hpage, q]
    simp only [hh, hd, ha, hb, hc, hf, hx, Opd.ofCode_code, vregOf_val, finOfNat_val, zeroed_zero, Dec.bind_ok, if_true, if_false, Bool.false_eq_true]
  have := d.isLt
  refine lane (r := rawX 0 0xC2 h d.val a.code b.code 0 (0)) (encodeRaw_plain rfl rfl rfl rfl) (rawX_fits (by decide) (by decide) (by omega) a.code_lt b.code_lt (by decide) (by decide)) fun _ =>
    key rfl rfl ?_ ?_ ?_ ?_ ?_ ?_ ?_
  · rfl
  · rfl
  · rfl
  · rfl
  · rfl
  · rfl
  · rfl

theorem gblend (h : LaneHdr) (vp : PReg) (d : VReg) (a b : Opd) : Statement (.gblend h vp d a b) := by
  have key {r : RawLane} (hpage : r.page = 0) (hcell : r.cell = 0xC3) (hh : r.hdr = h) (hd : r.d = d.val) (ha : r.a = a.code) (hb : r.b = b.code) (hc : r.c = 0) (hf : r.form [0] = .ok ()) (e0_2 : fld r.x 0 2 = 0) (e2_3 : fld r.x 2 3 = vp.val) (v5 : r.x / 32 = 0) :
      decodeLaneRaw r = .ok (.gblend h vp d a b) := by
    have q : decodeRenderRow r = (do
          r.form [0]; zeroed r.c; zeroed (r.x / 32); zeroed (fld r.x 0 2)
          let d ← vregOf r.d
          let a ← Opd.ofCode r.a
          let b ← Opd.ofCode r.b
          .ok (.gblend r.hdr (Fin.ofNat 8 (fld r.x 2 3)) d a b)) := by
      unfold decodeRenderRow; rw [hcell]; rfl
    rw [row_render (by rw [hcell]) hpage, q]
    simp only [hh, hd, ha, hb, hc, hf, e0_2, e2_3, v5, Opd.ofCode_code, vregOf_val, finOfNat_val, zeroed_zero, Dec.bind_ok, if_true, if_false, Bool.false_eq_true]
  have := vp.isLt
  have := d.isLt
  refine lane (r := rawX 0 0xC3 h d.val a.code b.code 0 (vp.val * 4)) (encodeRaw_plain rfl rfl rfl rfl) (rawX_fits (by decide) (by decide) (by omega) a.code_lt b.code_lt (by decide) (by omega)) fun _ =>
    key rfl rfl ?_ ?_ ?_ ?_ ?_ ?_ ?_ ?_ ?_
  · rfl
  · rfl
  · rfl
  · rfl
  · rfl
  · rfl
  · show fld (vp.val * 4) 0 2 = _; simp only [fld] <;> omega
  · show fld (vp.val * 4) 2 3 = _; simp only [fld] <;> omega
  · show (vp.val * 4) / 32 = _; omega

theorem gback (h : LaneHdr) (vp : PReg) (d : VReg) (a b : Opd) (c : VReg) : Statement (.gback h vp d a b c) := by
  have key {r : RawLane} (hpage : r.page = 0) (hcell : r.cell = 0xC4) (hh : r.hdr = h) (hd : r.d = d.val) (ha : r.a = a.code) (hb : r.b = b.code) (hc : r.c = c.val) (hf : r.form [0] = .ok ()) (e0_2 : fld r.x 0 2 = 0) (e2_3 : fld r.x 2 3 = vp.val) (v5 : r.x / 32 = 0) :
      decodeLaneRaw r = .ok (.gback h vp d a b c) := by
    have q : decodeRenderRow r = (do
          r.form [0]; zeroed (r.x / 32); zeroed (fld r.x 0 2)
          let d ← vregOf r.d
          let a ← Opd.ofCode r.a
          let b ← Opd.ofCode r.b
          let c ← vregOf r.c
          .ok (.gback r.hdr (Fin.ofNat 8 (fld r.x 2 3)) d a b c)) := by
      unfold decodeRenderRow; rw [hcell]; rfl
    rw [row_render (by rw [hcell]) hpage, q]
    simp only [hh, hd, ha, hb, hc, hf, e0_2, e2_3, v5, Opd.ofCode_code, vregOf_val, finOfNat_val, zeroed_zero, Dec.bind_ok, if_true, if_false, Bool.false_eq_true]
  have := vp.isLt
  have := d.isLt
  have := c.isLt
  refine lane (r := rawX 0 0xC4 h d.val a.code b.code c.val (vp.val * 4)) (encodeRaw_plain rfl rfl rfl rfl) (rawX_fits (by decide) (by decide) (by omega) a.code_lt b.code_lt (by omega) (by omega)) fun _ =>
    key rfl rfl ?_ ?_ ?_ ?_ ?_ ?_ ?_ ?_ ?_
  · rfl
  · rfl
  · rfl
  · rfl
  · rfl
  · rfl
  · show fld (vp.val * 4) 0 2 = _; simp only [fld] <;> omega
  · show fld (vp.val * 4) 2 3 = _; simp only [fld] <;> omega
  · show (vp.val * 4) / 32 = _; omega

theorem gscat (h : LaneHdr) (tmask : BitVec 16) (fx : Bool) (p : Fin 64) (a : Opd) (c : VReg) : Statement (.gscat h tmask fx p a c) := by
  have key {r : RawLane} (hpage : r.page = 0) (hcell : r.cell = 0xC5) (hh : r.hdr = h) (hd : r.d = 0) (ha : r.a = a.code) (hb : r.b = 0) (hc : r.c = c.val) (hf : r.form [0] = .ok ()) (e0_9 : fld r.x 0 9 = 0) (e9_6 : fld r.x 9 6 = p.val) (g15 : flag r.x 15 = fx) (ht : BitVec.ofNat 16 (fld r.x 16 16) = tmask) :
      decodeLaneRaw r = .ok (.gscat h tmask fx p a c) := by
    have q : decodeRenderRow r = (do
          r.form [0]; zeroed r.d; zeroed r.b; zeroed (fld r.x 0 9)
          let a ← Opd.ofCode r.a
          let c ← vregOf r.c
          .ok (.gscat r.hdr (BitVec.ofNat 16 (fld r.x 16 16)) (flag r.x 15) (Fin.ofNat 64 (fld r.x 9 6)) a c)) := by
      unfold decodeRenderRow; rw [hcell]; rfl
    rw [row_render (by rw [hcell]) hpage, q]
    simp only [hh, hd, ha, hb, hc, hf, e0_9, e9_6, g15, ht, Opd.ofCode_code, vregOf_val, finOfNat_val, zeroed_zero, Dec.bind_ok, if_true, if_false, Bool.false_eq_true]
  have := tmask.isLt
  have := bit_lt fx
  have := p.isLt
  have := c.isLt
  refine lane (r := rawX 0 0xC5 h 0 a.code 0 c.val (tmask.toNat * 2 ^ 16 + bit fx * 2 ^ 15 + p.val * 2 ^ 9)) (encodeRaw_plain rfl rfl rfl rfl) (rawX_fits (by decide) (by decide) (by decide) a.code_lt (by decide) (by omega) (by omega)) fun _ =>
    key rfl rfl ?_ ?_ ?_ ?_ ?_ ?_ ?_ ?_ ?_ ?_
  · rfl
  · rfl
  · rfl
  · rfl
  · rfl
  · rfl
  · show fld (tmask.toNat * 2 ^ 16 + bit fx * 2 ^ 15 + p.val * 2 ^ 9) 0 9 = _; simp only [fld] <;> omega
  · show fld (tmask.toNat * 2 ^ 16 + bit fx * 2 ^ 15 + p.val * 2 ^ 9) 9 6 = _; simp only [fld] <;> omega
  · refine flag_of_fld ?_; show fld (tmask.toNat * 2 ^ 16 + bit fx * 2 ^ 15 + p.val * 2 ^ 9) 15 1 = bit fx; simp only [fld] <;> omega
  · refine BitVec.eq_of_toNat_eq ?_; show (BitVec.ofNat 16 (fld (tmask.toNat * 2 ^ 16 + bit fx * 2 ^ 15 + p.val * 2 ^ 9) 16 16)).toNat = _; simp only [fld, BitVec.toNat_ofNat] <;> omega

theorem rgen (h : LaneHdr) (a : Fin 32) (b c : Opd) : Statement (.rgen h a b c) := by
  have key {r : RawLane} (hpage : r.page = 0) (hcell : r.cell = 0xC6) (hh : r.hdr = h) (hd : r.d = 0) (ha : r.a = 224 + a.val) (hb : r.b = b.code) (hc : r.c = c.code) (hf : r.form [0] = .ok ()) (hx : r.x = 0) :
      decodeLaneRaw r = .ok (.rgen h a b c) := by
    have q : decodeRenderRow r = (do
          r.form [0]; zeroed r.d; zeroed r.x
          let a ← sregOf r.a
          let b ← Opd.ofCode r.b
          let c ← Opd.ofCode r.c
          .ok (.rgen r.hdr a b c)) := by
      unfold decodeRenderRow; rw [hcell]; rfl
    rw [row_render (by rw [hcell]) hpage, q]
    simp only [hh, hd, ha, hb, hc, hf, hx, Opd.ofCode_code, sregOf_val, finOfNat_val, zeroed_zero, Dec.bind_ok, if_true, if_false, Bool.false_eq_true]
  have := a.isLt
  refine lane (r := rawX 0 0xC6 h 0 (224 + a.val) b.code c.code (0)) (encodeRaw_plain rfl rfl rfl rfl) (rawX_fits (by decide) (by decide) (by decide) (by omega) b.code_lt c.code_lt (by decide)) fun _ =>
    key rfl rfl ?_ ?_ ?_ ?_ ?_ ?_ ?_
  · rfl
  · rfl
  · rfl
  · rfl
  · rfl
  · rfl
  · rfl

theorem trace (h : LaneHdr) (pb : Fin 64) (d : QReg) (a : Opd) (b : Fin 32) (c : Opd) : Statement (.trace h pb d a b c) := by
  have key {r : RawLane} (hpage : r.page = 0) (hcell : r.cell = 0xC7) (hh : r.hdr = h) (hd : r.d = 192 + d.val) (ha : r.a = a.code) (hb : r.b = 224 + b.val) (hc : r.c = c.code) (hf : r.form [0] = .ok ()) (e0_6 : fld r.x 0 6 = pb.val) (v6 : r.x / 64 = 0) :
      decodeLaneRaw r = .ok (.trace h pb d a b c) := by
    have q : decodeRenderRow r = (do
          r.form [0]; zeroed (r.x / 64)
          let d ← qregOf r.d
          let a ← Opd.ofCode r.a
          let b ← sregOf r.b
          let c ← Opd.ofCode r.c
          .ok (.trace r.hdr (Fin.ofNat 64 (fld r.x 0 6)) d a b c)) := by
      unfold decodeRenderRow; rw [hcell]; rfl
    rw [row_render (by rw [hcell]) hpage, q]
    simp only [hh, hd, ha, hb, hc, hf, e0_6, v6, Opd.ofCode_code, qregOf_val, sregOf_val, finOfNat_val, zeroed_zero, Dec.bind_ok, if_true, if_false, Bool.false_eq_true]
  have := pb.isLt
  have := d.isLt
  have := b.isLt
  refine lane (r := rawX 0 0xC7 h (192 + d.val) a.code (224 + b.val) c.code (pb.val)) (encodeRaw_plain rfl rfl rfl rfl) (rawX_fits (by decide) (by decide) (by omega) a.code_lt (by omega) c.code_lt (by omega)) fun _ =>
    key rfl rfl ?_ ?_ ?_ ?_ ?_ ?_ ?_ ?_
  · rfl
  · rfl
  · rfl
  · rfl
  · rfl
  · rfl
  · show fld (pb.val) 0 6 = _; simp only [fld] <;> omega
  · show (pb.val) / 64 = _; omega

theorem rayld (h : LaneHdr) (word : Fin 32) (w64 : Bool) (d : Opd) (a : Fin 32) (b : Opd) : Statement (.rayld h word w64 d a b) := by
  have key {r : RawLane} (hpage : r.page = 0) (hcell : r.cell = 0xC8) (hh : r.hdr = h) (hd : r.d = d.code) (ha : r.a = 224 + a.val) (hb : r.b = b.code) (hc : r.c = 0) (hf : r.form [0] = .ok ()) (e0_5 : fld r.x 0 5 = word.val) (g5 : flag r.x 5 = w64) (v6 : r.x / 64 = 0) :
      decodeLaneRaw r = .ok (.rayld h word w64 d a b) := by
    have q : decodeRenderRow r = (do
          r.form [0]; zeroed r.c; zeroed (r.x / 64)
          let d ← Opd.ofCode r.d
          let a ← sregOf r.a
          let b ← Opd.ofCode r.b
          .ok (.rayld r.hdr (Fin.ofNat 32 (fld r.x 0 5)) (flag r.x 5) d a b)) := by
      unfold decodeRenderRow; rw [hcell]; rfl
    rw [row_render (by rw [hcell]) hpage, q]
    simp only [hh, hd, ha, hb, hc, hf, e0_5, g5, v6, Opd.ofCode_code, sregOf_val, finOfNat_val, zeroed_zero, Dec.bind_ok, if_true, if_false, Bool.false_eq_true]
  have := word.isLt
  have := bit_lt w64
  have := a.isLt
  have := szCode_lt w64
  refine lane (r := rawX 0 0xC8 h d.code (224 + a.val) b.code 0 (word.val + bit w64 * 32)) (encodeRaw_plain rfl rfl rfl rfl) (rawX_fits (by decide) (by decide) d.code_lt (by omega) b.code_lt (by decide) (by omega)) fun _ =>
    key rfl rfl ?_ ?_ ?_ ?_ ?_ ?_ ?_ ?_ ?_
  · rfl
  · rfl
  · rfl
  · rfl
  · rfl
  · rfl
  · show fld (word.val + bit w64 * 32) 0 5 = _; simp only [fld] <;> omega
  · refine flag_of_fld ?_; show fld (word.val + bit w64 * 32) 5 1 = bit w64; simp only [fld] <;> omega
  · show (word.val + bit w64 * 32) / 64 = _; omega

theorem rayst (h : LaneHdr) (word : Fin 32) (w64 : Bool) (a : Fin 32) (b c : Opd) : Statement (.rayst h word w64 a b c) := by
  have key {r : RawLane} (hpage : r.page = 0) (hcell : r.cell = 0xC9) (hh : r.hdr = h) (hd : r.d = 0) (ha : r.a = 224 + a.val) (hb : r.b = b.code) (hc : r.c = c.code) (hf : r.form [0] = .ok ()) (e0_5 : fld r.x 0 5 = word.val) (g5 : flag r.x 5 = w64) (v6 : r.x / 64 = 0) :
      decodeLaneRaw r = .ok (.rayst h word w64 a b c) := by
    have q : decodeRenderRow r = (do
          r.form [0]; zeroed r.d; zeroed (r.x / 64)
          let a ← sregOf r.a
          let b ← Opd.ofCode r.b
          let c ← Opd.ofCode r.c
          .ok (.rayst r.hdr (Fin.ofNat 32 (fld r.x 0 5)) (flag r.x 5) a b c)) := by
      unfold decodeRenderRow; rw [hcell]; rfl
    rw [row_render (by rw [hcell]) hpage, q]
    simp only [hh, hd, ha, hb, hc, hf, e0_5, g5, v6, Opd.ofCode_code, sregOf_val, finOfNat_val, zeroed_zero, Dec.bind_ok, if_true, if_false, Bool.false_eq_true]
  have := word.isLt
  have := bit_lt w64
  have := a.isLt
  have := szCode_lt w64
  refine lane (r := rawX 0 0xC9 h 0 (224 + a.val) b.code c.code (word.val + bit w64 * 32)) (encodeRaw_plain rfl rfl rfl rfl) (rawX_fits (by decide) (by decide) (by decide) (by omega) b.code_lt c.code_lt (by omega)) fun _ =>
    key rfl rfl ?_ ?_ ?_ ?_ ?_ ?_ ?_ ?_ ?_
  · rfl
  · rfl
  · rfl
  · rfl
  · rfl
  · rfl
  · show fld (word.val + bit w64 * 32) 0 5 = _; simp only [fld] <;> omega
  · refine flag_of_fld ?_; show fld (word.val + bit w64 * 32) 5 1 = bit w64; simp only [fld] <;> omega
  · show (word.val + bit w64 * 32) / 64 = _; omega

theorem hitq (h : LaneHdr) (d : VReg) (a : Fin 32) (b : Opd) : Statement (.hitq h d a b) := by
  have key {r : RawLane} (hpage : r.page = 0) (hcell : r.cell = 0xCA) (hh : r.hdr = h) (hd : r.d = d.val) (ha : r.a = 224 + a.val) (hb : r.b = b.code) (hc : r.c = 0) (hf : r.form [0] = .ok ()) (hx : r.x = 0) :
      decodeLaneRaw r = .ok (.hitq h d a b) := by
    have q : decodeRenderRow r = (do
          r.form [0]; zeroed r.c; zeroed r.x
          let d ← vregOf r.d
          let a ← sregOf r.a
          let b ← Opd.ofCode r.b
          .ok (.hitq r.hdr d a b)) := by
      unfold decodeRenderRow; rw [hcell]; rfl
    rw [row_render (by rw [hcell]) hpage, q]
    simp only [hh, hd, ha, hb, hc, hf, hx, Opd.ofCode_code, sregOf_val, vregOf_val, finOfNat_val, zeroed_zero, Dec.bind_ok, if_true, if_false, Bool.false_eq_true]
  have := d.isLt
  have := a.isLt
  refine lane (r := rawX 0 0xCA h d.val (224 + a.val) b.code 0 (0)) (encodeRaw_plain rfl rfl rfl rfl) (rawX_fits (by decide) (by decide) (by omega) (by omega) b.code_lt (by decide) (by decide)) fun _ =>
    key rfl rfl ?_ ?_ ?_ ?_ ?_ ?_ ?_
  · rfl
  · rfl
  · rfl
  · rfl
  · rfl
  · rfl
  · rfl

theorem rpush (h : LaneHdr) (d : Opd) (a : Fin 32) : Statement (.rpush h d a) := by
  have key {r : RawLane} (hpage : r.page = 0) (hcell : r.cell = 0xCB) (hh : r.hdr = h) (hd : r.d = d.code) (ha : r.a = 224 + a.val) (hb : r.b = 0) (hc : r.c = 0) (hf : r.form [0] = .ok ()) (hx : r.x = 0) :
      decodeLaneRaw r = .ok (.rpush h d a) := by
    have q : decodeRenderRow r = (do
          r.form [0]; zeroed r.b; zeroed r.c; zeroed r.x
          let d ← Opd.ofCode r.d
          let a ← sregOf r.a
          .ok (.rpush r.hdr d a)) := by
      unfold decodeRenderRow; rw [hcell]; rfl
    rw [row_render (by rw [hcell]) hpage, q]
    simp only [hh, hd, ha, hb, hc, hf, hx, Opd.ofCode_code, sregOf_val, finOfNat_val, zeroed_zero, Dec.bind_ok, if_true, if_false, Bool.false_eq_true]
  have := a.isLt
  refine lane (r := rawX 0 0xCB h d.code (224 + a.val) 0 0 (0)) (encodeRaw_plain rfl rfl rfl rfl) (rawX_fits (by decide) (by decide) d.code_lt (by omega) (by decide) (by decide) (by decide)) fun _ =>
    key rfl rfl ?_ ?_ ?_ ?_ ?_ ?_ ?_
  · rfl
  · rfl
  · rfl
  · rfl
  · rfl
  · rfl
  · rfl

theorem rpop (h : LaneHdr) (a : Fin 32) (b : Opd) : Statement (.rpop h a b) := by
  have key {r : RawLane} (hpage : r.page = 0) (hcell : r.cell = 0xCC) (hh : r.hdr = h) (hd : r.d = 0) (ha : r.a = 224 + a.val) (hb : r.b = b.code) (hc : r.c = 0) (hf : r.form [0] = .ok ()) (hx : r.x = 0) :
      decodeLaneRaw r = .ok (.rpop h a b) := by
    have q : decodeRenderRow r = (do
          r.form [0]; zeroed r.d; zeroed r.c; zeroed r.x
          let a ← sregOf r.a
          let b ← Opd.ofCode r.b
          .ok (.rpop r.hdr a b)) := by
      unfold decodeRenderRow; rw [hcell]; rfl
    rw [row_render (by rw [hcell]) hpage, q]
    simp only [hh, hd, ha, hb, hc, hf, hx, Opd.ofCode_code, sregOf_val, finOfNat_val, zeroed_zero, Dec.bind_ok, if_true, if_false, Bool.false_eq_true]
  have := a.isLt
  refine lane (r := rawX 0 0xCC h 0 (224 + a.val) b.code 0 (0)) (encodeRaw_plain rfl rfl rfl rfl) (rawX_fits (by decide) (by decide) (by decide) (by omega) b.code_lt (by decide) (by decide)) fun _ =>
    key rfl rfl ?_ ?_ ?_ ?_ ?_ ?_ ?_
  · rfl
  · rfl
  · rfl
  · rfl
  · rfl
  · rfl
  · rfl

theorem fbw (h : LaneHdr) (off : BitVec 16) (f : PixelFmt) (a b : Opd) (c : VReg) : Statement (.fbw h off f a b c) := by
  have key {r : RawLane} (hpage : r.page = 0) (hcell : r.cell = 0xCD) (hh : r.hdr = h) (hd : r.d = 0) (ha : r.a = a.code) (hb : r.b = b.code) (hc : r.c = c.val) (hf : r.form [0] = .ok ()) (e0_2 : fld r.x 0 2 = f.code) (e2_14 : fld r.x 2 14 = 0) (ho : offOf r.x = off) :
      decodeLaneRaw r = .ok (.fbw h off f a b c) := by
    have q : decodeRenderRow r = (do
          r.form [0]; zeroed r.d; zeroed (fld r.x 2 14)
          let f ← PixelFmt.ofCode (fld r.x 0 2)
          let a ← Opd.ofCode r.a
          let b ← Opd.ofCode r.b
          let c ← vregOf r.c
          .ok (.fbw r.hdr (offOf r.x) f a b c)) := by
      unfold decodeRenderRow; rw [hcell]; rfl
    rw [row_render (by rw [hcell]) hpage, q]
    simp only [hh, hd, ha, hb, hc, hf, e0_2, e2_14, ho, Opd.ofCode_code, PixelFmt.ofCode_code, vregOf_val, finOfNat_val, zeroed_zero, Dec.bind_ok, if_true, if_false, Bool.false_eq_true]
  have := off.isLt
  have := f.code_lt
  have := c.isLt
  refine lane (r := rawX 0 0xCD h 0 a.code b.code c.val (off.toNat * 2 ^ 16 + f.code)) (encodeRaw_plain rfl rfl rfl rfl) (rawX_fits (by decide) (by decide) (by decide) a.code_lt b.code_lt (by omega) (by omega)) fun _ =>
    key rfl rfl ?_ ?_ ?_ ?_ ?_ ?_ ?_ ?_ ?_
  · rfl
  · rfl
  · rfl
  · rfl
  · rfl
  · rfl
  · show fld (off.toNat * 2 ^ 16 + f.code) 0 2 = _; simp only [fld] <;> omega
  · show fld (off.toNat * 2 ^ 16 + f.code) 2 14 = _; simp only [fld] <;> omega
  · refine BitVec.eq_of_toNat_eq ?_; show (offOf (off.toNat * 2 ^ 16 + f.code)).toNat = _; simp only [offOf, fld, BitVec.toNat_ofNat] <;> omega

/-! ## Events, which have no words -/

theorem laneDispatch (g : Nat) : Statement (.laneDispatch g) := fun _ => .inl ⟨rfl, rfl⟩

theorem issueSlotArbitration (core slot : Nat) : Statement (.issueSlotArbitration core slot) := fun _ => .inl ⟨rfl, rfl⟩

theorem resultLanding (g : Nat) : Statement (.resultLanding g) := fun _ => .inl ⟨rfl, rfl⟩

theorem varCompletion (g i : Nat) : Statement (.varCompletion g i) := fun _ => .inl ⟨rfl, rfl⟩

theorem napExpiry (g slot : Nat) : Statement (.napExpiry g slot) := fun _ => .inl ⟨rfl, rfl⟩

theorem monitorFire (w : Waiter) : Statement (.monitorFire w) := fun _ => .inl ⟨rfl, rfl⟩

theorem monitorPollTimer (w : Waiter) : Statement (.monitorPollTimer w) := fun _ => .inl ⟨rfl, rfl⟩

theorem trapDelivery (g slot : Nat) : Statement (.trapDelivery g slot) := fun _ => .inl ⟨rfl, rfl⟩

theorem crewRetire (c : Nat) : Statement (.crewRetire c) := fun _ => .inl ⟨rfl, rfl⟩

theorem gridRetire (g : Nat) : Statement (.gridRetire g) := fun _ => .inl ⟨rfl, rfl⟩

theorem weightGrant (c : Nat) : Statement (.weightGrant c) := fun _ => .inl ⟨rfl, rfl⟩

theorem packetAdmission (q : Nat) : Statement (.packetAdmission q) := fun _ => .inl ⟨rfl, rfl⟩

theorem crewPlacement (g : Nat) : Statement (.crewPlacement g) := fun _ => .inl ⟨rfl, rfl⟩

theorem placementBackoffExpiry (d : Nat) : Statement (.placementBackoffExpiry d) := fun _ => .inl ⟨rfl, rfl⟩

theorem preemptRequest (g : Nat) : Statement (.preemptRequest g) := fun _ => .inl ⟨rfl, rfl⟩

theorem preemptWithdrawTimeout (c : Nat) : Statement (.preemptWithdrawTimeout c) := fun _ => .inl ⟨rfl, rfl⟩

theorem crewRestore (c : Nat) : Statement (.crewRestore c) := fun _ => .inl ⟨rfl, rfl⟩

theorem crewKill (c : Nat) : Statement (.crewKill c) := fun _ => .inl ⟨rfl, rfl⟩

theorem killedCrewRestore (c : Nat) : Statement (.killedCrewRestore c) := fun _ => .inl ⟨rfl, rfl⟩

theorem mmaExecute (core : Nat) : Statement (.mmaExecute core) := fun _ => .inl ⟨rfl, rfl⟩

theorem accBatchApply (core : Nat) : Statement (.accBatchApply core) := fun _ => .inl ⟨rfl, rfl⟩

theorem ctabApply (core : Nat) : Statement (.ctabApply core) := fun _ => .inl ⟨rfl, rfl⟩

theorem copyPartComplete (cl i : Nat) : Statement (.copyPartComplete cl i) := fun _ => .inl ⟨rfl, rfl⟩

theorem copyComplete (cl i : Nat) : Statement (.copyComplete cl i) := fun _ => .inl ⟨rfl, rfl⟩

theorem copyErrorComplete (cl i : Nat) : Statement (.copyErrorComplete cl i) := fun _ => .inl ⟨rfl, rfl⟩

theorem faultQueuePost (i : Nat) : Statement (.faultQueuePost i) := fun _ => .inl ⟨rfl, rfl⟩

theorem engineResumeOnAck (i : Nat) : Statement (.engineResumeOnAck i) := fun _ => .inl ⟨rfl, rfl⟩

theorem sortStart (d : Nat) : Statement (.sortStart d) := fun _ => .inl ⟨rfl, rfl⟩

theorem sortComplete (d : Nat) : Statement (.sortComplete d) := fun _ => .inl ⟨rfl, rfl⟩

theorem projectionEntryStart (cl : Nat) : Statement (.projectionEntryStart cl) := fun _ => .inl ⟨rfl, rfl⟩

theorem projectionItemDone (cl : Nat) : Statement (.projectionItemDone cl) := fun _ => .inl ⟨rfl, rfl⟩

theorem traversalStart (cl : Nat) : Statement (.traversalStart cl) := fun _ => .inl ⟨rfl, rfl⟩

theorem traversalEnd (cl i : Nat) : Statement (.traversalEnd cl i) := fun _ => .inl ⟨rfl, rfl⟩

theorem genJobConsume (d : Nat) : Statement (.genJobConsume d) := fun _ => .inl ⟨rfl, rfl⟩

theorem genRayEmit (d i : Nat) : Statement (.genRayEmit d i) := fun _ => .inl ⟨rfl, rfl⟩

theorem tunMerge (i : Nat) : Statement (.tunMerge i) := fun _ => .inl ⟨rfl, rfl⟩

theorem tunEviction (line : Nat) : Statement (.tunEviction line) := fun _ => .inl ⟨rfl, rfl⟩

theorem lineEviction (line : Nat) : Statement (.lineEviction line) := fun _ => .inl ⟨rfl, rfl⟩

theorem pageWalk (die asid : Nat) (va : W64) : Statement (.pageWalk die asid va) := fun _ => .inl ⟨rfl, rfl⟩

theorem eccError (granule : Nat) (hard : Bool) : Statement (.eccError granule hard) := fun _ => .inl ⟨rfl, rfl⟩

theorem xcmdInvalidatePage (asid : BitVec 12) : Statement (.xcmdInvalidatePage asid) := fun _ => .inl ⟨rfl, rfl⟩

theorem xcmdInvalidateRange (asid : BitVec 12) (n : W32) : Statement (.xcmdInvalidateRange asid n) := fun _ => .inl ⟨rfl, rfl⟩

theorem xcmdInvalidateAsid (asid : BitVec 12) : Statement (.xcmdInvalidateAsid asid) := fun _ => .inl ⟨rfl, rfl⟩

theorem xcmdInvalidateAll : Statement .xcmdInvalidateAll := fun _ => .inl ⟨rfl, rfl⟩

theorem invalidationComplete : Statement .invalidationComplete := fun _ => .inl ⟨rfl, rfl⟩

theorem hostMemoryAccess (r : HostRequest) : Statement (.hostMemoryAccess r) := fun _ => .inl ⟨rfl, rfl⟩

theorem registerWrite (off : Nat) (v : W64) : Statement (.registerWrite off v) := fun _ => .inl ⟨rfl, rfl⟩

theorem featureLock : Statement .featureLock := fun _ => .inl ⟨rfl, rfl⟩

theorem partitionFeatureMaskWrite (n : Fin 4) (v : W64) : Statement (.partitionFeatureMaskWrite n v) := fun _ => .inl ⟨rfl, rfl⟩

theorem generatorEnable (d : Fin 4) (on : Bool) : Statement (.generatorEnable d on) := fun _ => .inl ⟨rfl, rfl⟩

theorem keyLoad (id : BitVec 12) : Statement (.keyLoad id) := fun _ => .inl ⟨rfl, rfl⟩

theorem keyRemove (id : BitVec 12) : Statement (.keyRemove id) := fun _ => .inl ⟨rfl, rfl⟩

theorem linkKeyLoad (p : Fin 16) (v : W64) : Statement (.linkKeyLoad p v) := fun _ => .inl ⟨rfl, rfl⟩

theorem linkBringup (p : Fin 16) : Statement (.linkBringup p) := fun _ => .inl ⟨rfl, rfl⟩

theorem attestRequest (v : W64) : Statement (.attestRequest v) := fun _ => .inl ⟨rfl, rfl⟩

theorem attestReportDone : Statement .attestReportDone := fun _ => .inl ⟨rfl, rfl⟩

theorem mkill (grid : W64) : Statement (.mkill grid) := fun _ => .inl ⟨rfl, rfl⟩

theorem mailboxPost : Statement .mailboxPost := fun _ => .inl ⟨rfl, rfl⟩

theorem powerOnReset : Statement .powerOnReset := fun _ => .inl ⟨rfl, rfl⟩

theorem watchdogReset : Statement .watchdogReset := fun _ => .inl ⟨rfl, rfl⟩

theorem i3cReset : Statement .i3cReset := fun _ => .inl ⟨rfl, rfl⟩

theorem marginReplan : Statement .marginReplan := fun _ => .inl ⟨rfl, rfl⟩

theorem powerWindowTimer (watts : Nat) : Statement (.powerWindowTimer watts) := fun _ => .inl ⟨rfl, rfl⟩

theorem pcapWrite (v : W32) : Statement (.pcapWrite v) := fun _ => .inl ⟨rfl, rfl⟩

theorem coolantExcursion : Statement .coolantExcursion := fun _ => .inl ⟨rfl, rfl⟩

theorem coolantRestored : Statement .coolantRestored := fun _ => .inl ⟨rfl, rfl⟩

theorem frameReceive (p : Fin 16) (f : Frame) : Statement (.frameReceive p f) := fun _ => .inl ⟨rfl, rfl⟩

theorem retryRequestReceive (p : Fin 16) (n : W64) : Statement (.retryRequestReceive p n) := fun _ => .inl ⟨rfl, rfl⟩

theorem totalsFrameTimer (p : Fin 16) : Statement (.totalsFrameTimer p) := fun _ => .inl ⟨rfl, rfl⟩

theorem totalsFrameReceive (p : Fin 16) (rcvd freed : W64) : Statement (.totalsFrameReceive p rcvd freed) := fun _ => .inl ⟨rfl, rfl⟩

theorem fabRd (k : FabPacket) : Statement (.fabRd k) := fun _ => .inl ⟨rfl, rfl⟩

theorem fabRdr (k : FabPacket) : Statement (.fabRdr k) := fun _ => .inl ⟨rfl, rfl⟩

theorem fabWr (k : FabPacket) : Statement (.fabWr k) := fun _ => .inl ⟨rfl, rfl⟩

theorem fabWra (k : FabPacket) : Statement (.fabWra k) := fun _ => .inl ⟨rfl, rfl⟩

theorem fabAtm (k : FabPacket) : Statement (.fabAtm k) := fun _ => .inl ⟨rfl, rfl⟩

theorem fabAtr (k : FabPacket) : Statement (.fabAtr k) := fun _ => .inl ⟨rfl, rfl⟩

theorem fabRed (k : FabPacket) : Statement (.fabRed k) := fun _ => .inl ⟨rfl, rfl⟩

theorem fabBlk (k : FabPacket) : Statement (.fabBlk k) := fun _ => .inl ⟨rfl, rfl⟩

theorem fabBlka (k : FabPacket) : Statement (.fabBlka k) := fun _ => .inl ⟨rfl, rfl⟩

theorem fabDrop (k : FabPacket) : Statement (.fabDrop k) := fun _ => .inl ⟨rfl, rfl⟩

theorem fabResv (k : FabPacket) : Statement (.fabResv k) := fun _ => .inl ⟨rfl, rfl⟩

theorem fabRgnt (k : FabPacket) : Statement (.fabRgnt k) := fun _ => .inl ⟨rfl, rfl⟩

theorem reservationWindowExpiry (p : Fin 16) : Statement (.reservationWindowExpiry p) := fun _ => .inl ⟨rfl, rfl⟩

theorem fabMon (k : FabPacket) : Statement (.fabMon k) := fun _ => .inl ⟨rfl, rfl⟩

theorem fabCtb (k : FabPacket) : Statement (.fabCtb k) := fun _ => .inl ⟨rfl, rfl⟩

theorem fabCrs (k : FabPacket) : Statement (.fabCrs k) := fun _ => .inl ⟨rfl, rfl⟩

theorem fabClosed (k : FabPacket) : Statement (.fabClosed k) := fun _ => .inl ⟨rfl, rfl⟩

theorem collectiveSlotTimeout (slot : Nat) : Statement (.collectiveSlotTimeout slot) := fun _ => .inl ⟨rfl, rfl⟩

theorem collectiveSlotFree (slot : Nat) : Statement (.collectiveSlotFree slot) := fun _ => .inl ⟨rfl, rfl⟩

theorem fabWgt (k : FabPacket) : Statement (.fabWgt k) := fun _ => .inl ⟨rfl, rfl⟩

theorem fabErr (k : FabPacket) : Statement (.fabErr k) := fun _ => .inl ⟨rfl, rfl⟩

theorem fbarArrival (i : Nat) : Statement (.fbarArrival i) := fun _ => .inl ⟨rfl, rfl⟩

theorem fbarTimeout (i : Nat) : Statement (.fbarTimeout i) := fun _ => .inl ⟨rfl, rfl⟩

theorem keyCommandComplete : Statement .keyCommandComplete := fun _ => .inl ⟨rfl, rfl⟩

end Laws.WordRoundTrip

end Sys2Proof
end

