-- ==== Sys2Proof/Safety.lean ====
section
/-!
DEFINITION. What counts as a safe run: no step of it ends in a fault or a refusal, and every state has memories in
canonical form. Below it stand the words in which the statements of the certificates speak: whose instruction is
executed, what it leaves of its stream, and which memory a range of bytes changes.
-/

namespace Sys2Proof

open Sys2Proof.Machine

/-- The three memories are in canonical form. -/
def State.canonical (s : Machine.State) : Prop :=
  Memory.wf s.mem = true ∧ Memory.wf s.tiers = true ∧ Memory.wf s.scratch = true

/-- A run of k steps from s is safe: every step answers a next state, and every state is canonical. -/
def Safe : Nat → Machine.State → Prop
  | 0, s => State.canonical s
  | k + 1, s => State.canonical s ∧ ∃ t, step s = .next t ∧ Safe k t

/-! ## The words of the statements -/

/-- The scalar stream of a is the one that executes, with context c. -/
def Issues (s : Machine.State) (a : Issuer) (c : ScalarCtx) : Prop := curIssuer s.cur = some a ∧ s.sctx a = some c

/-- The features are accepted for the partition of a (R75). -/
def Accepted (s : Machine.State) (a : Issuer) (fs : List Feature) : Prop := fs.all (s.hasFeature a) = true

/-- The interlock of R22 does not hold a write to scalar register d back. -/
def Writable (s : Machine.State) (a : Issuer) (d : SReg) : Prop := d.val < 32 → s.blocked a = false

/-- The machine after an instruction of n bytes of a's stream that wrote v to register d: the context is the old one
but for that register, the address and the wait, and nothing else of the machine has changed. -/
def wrote (s : Machine.State) (a : Issuer) (c : ScalarCtx) (n : Nat) (d : SReg) (v : W64) : Machine.State :=
  s.setSctx a { c with pc := c.pc + BitVec.ofNat 64 n, s := c.s.set d.val v, wait := .none }

/-- The same after an instruction that wrote v to condition register k. -/
def wroteK (s : Machine.State) (a : Issuer) (c : ScalarCtx) (k : KReg) (v : Bool) : Machine.State :=
  s.setSctx a { c with pc := c.pc + 4, k := c.k.set k.val v, wait := .none }

/-- The same after an instruction of n bytes that writes no register. -/
def advanced (s : Machine.State) (a : Issuer) (c : ScalarCtx) (n : Nat) : Machine.State :=
  s.setSctx a { c with pc := c.pc + BitVec.ofNat 64 n, wait := .none }

/-- The same after a transfer of control to an address. -/
def jumped (s : Machine.State) (a : Issuer) (c : ScalarCtx) (target : W64) : Machine.State :=
  s.setSctx a { c with pc := target, wait := .none }

/-- A scalar stream whose sleep on a line has ended. -/
def awakeCtx (c : ScalarCtx) : ScalarCtx :=
  match c.wait with
  | .asleep _ | .polling => { c with wait := .none }
  | _ => c

/-- A lane slot whose sleep on lines has ended. -/
def awakeLpc (l : Lpc) : Lpc :=
  match l.wait with
  | .asleep | .polling => { l with wait := .none }
  | _ => l

/-- A gang none of whose streams sleeps. -/
def awakeGang (y : Gang) : Gang := { y with sc := awakeCtx y.sc, lpc := y.lpc.map awakeLpc }

/-- A pilot that does not sleep. -/
def awakePilot (y : Pilot) : Pilot := { y with sc := awakeCtx y.sc }

/-- The gangs and pilots of s and t are the same ones, and stand alike but for sleeps that a write of their lines ends
(R292). -/
def SameStreams (s t : Machine.State) : Prop :=
  (∀ g, (t.gang? g).map awakeGang = (s.gang? g).map awakeGang) ∧
  ∀ cl, (t.pilot? cl).map awakePilot = (s.pilot? cl).map awakePilot

/-- The lane work of a is settled (R129): none is dispatched, live, incomplete, held or on its way. -/
def Settled (s : Machine.State) (a : Issuer) : Prop := s.settle a = .ok s

/-- The stream's instruction has not begun: it has at most waited to be issued again (R369). -/
def Unbegun (c : ScalarCtx) : Prop := c.wait = .none ∨ c.wait = .stall

/-- A fault of a's scalar instruction is delivered now: no issued lane word of the gang awaits another package, and the
gang is not held for a kill (R375, R386). -/
def Traps (s : Machine.State) (a : Issuer) : Prop := s.mayTrap a = true ∧ s.killHeld a = false

/-- The trap of a scalar instruction at its own address (R128, R374). -/
def trapped (s : Machine.State) (a : Issuer) (c : ScalarCtx) (t : Trap) : Machine.State :=
  s.takeTrap a t { faddr := c.pc, sres := c.pc, lane := none }

/-- The gang is y, and its scalar stream is the one that executes. -/
def GangIssues (s : Machine.State) (g : Nat) (y : Gang) : Prop := s.cur = .gang g ∧ s.gang? g = some y

/-- The machine after an instruction of n bytes of gang g that left the gang as y, but for its address and its wait. -/
def gangAdvanced (s : Machine.State) (g : Nat) (y : Gang) (n : Nat) : Machine.State :=
  s.setGang g { y with sc := { y.sc with pc := y.sc.pc + BitVec.ofNat 64 n, wait := .none } }

/-- The gang belongs to crew k, which is y. -/
def InCrew (s : Machine.State) (a : Issuer) (k : Nat) (y : Crew) : Prop := s.issuerCrew a = some (k, y)

/-- An operand reference of an MMA names a berth that the pilot holds, FULL or DRAINING, with n bytes behind OFF (R234,
R239, R242). -/
def MmaOperand (s : Machine.State) (cl : Nat) (v : W64) (r : BerthRef) (n : Nat) : Prop :=
  s.handle cl (v.toNat % 2 ^ 16) = some r ∧ s.holdsBerth (.pilot cl) r.entry = true ∧
  (r.entry.state = .full ∨ r.entry.state = .draining) ∧ 64 * (v.toNat / 2 ^ 16 % 2 ^ 14) + n ≤ 64 * r.entry.size

/-- The reserved bits of a reference are zero; SOFF is too where the format has no scales (R234). -/
def CleanReference (scales : Bool) (v : W64) : Prop :=
  v.toNat < 2 ^ 46 ∧ v.toNat / 2 ^ 30 % 2 ^ 2 = 0 ∧ (scales = false → v.toNat / 2 ^ 32 % 2 ^ 14 = 0)

/-- The berth of a reference holds n bytes of scales behind SOFF, where the format has scales (R238). -/
def ScalesFit (scales : Bool) (v : W64) (r : BerthRef) (n : Nat) : Prop :=
  scales = true → 64 * (v.toNat / 2 ^ 32 % 2 ^ 14) + n ≤ 64 * r.entry.size

/-- A tile of crew k, which is w, that a selector of a names (R232, R250). -/
def Selects (s : Machine.State) (a : Issuer) (t : AccSel) (k : Nat) (w : Crew) : Prop :=
  s.selCrew a t = some (k, w) ∧ t.tile.val < w.part.acc

/-- The MMA of a format. -/
def mmaInstr (f : MmaFmt) (m : MmaMod) (d a b : SReg) (t : AccSel) : Instr :=
  match f with
  | .bf16 => .mmaBf16 m d a b t
  | .f16 => .mmaF16 m d a b t
  | .e4m3 => .mmaE4m3 m d a b t
  | .e5m2 => .mmaE5m2 m d a b t
  | .bx8 => .mmaBx8 m d a b t
  | .bx6 => .mmaBx6 m d a b t
  | .bx4 => .mmaBx4 m d a b t
  | .lut4 => .mmaLut4 m d a b t
  | .i8 => .mmaI8 m d a b t

/-- The machine with a job at the back of the queue of a core's matrix engine. -/
def enqueued (s : Machine.State) (core : Nat) (j : EngineJob) : Machine.State :=
  s.setCore core { s.core core with engine := (s.core core).engine ++ [j] }

/-- The machine with a contribution at the back of a core's accumulator port, and the stream of a waiting for it. -/
def contributed (s : Machine.State) (a : Issuer) (core : Nat) (j : AccJob) : Machine.State :=
  (s.setCore core { s.core core with port := (s.core core).port ++ [j] }).setWait a .acc

/-! ### Lane words -/

/-- The lane word i of the slot that `cur` names issues, in the gang y (R58 to R66, R77): its slot is live and due, no
result is to land first and no late fault to be delivered, its tokens are clear, none of the faults of R77 holds, a lane is
enabled unless it is a control word that acts without one, its queues have entries, and its registers are present and not
poisoned. Its effect acts on t, with context c. -/
structure LaneIssues (s : Machine.State) (i : Instr) (ctl : Bool) (y : Gang) (c : LaneCtx) (t : Machine.State) : Prop where
  cur : s.cur = .lane c.g c.slot
  info : i.laneInfo = some c.info
  now : c.now = s.clk.arith
  gang : s.gang? c.g = some y
  live : y.lpc[c.slot].live = true
  index : y.lpc[c.slot].index = c.index
  act : y.lpc[c.slot].mask = c.act
  earliest : y.lpc[c.slot].earliest ≤ c.now
  awake : y.lpc[c.slot].wait = .none ∨ ∃ n, y.lpc[c.slot].wait = .nap n ∧ n ≤ c.now
  start : y.lpc[c.slot].fresh = true → y.fix = []
  landed : s.landFix c.g c.now = s
  due : s.dueOnToken c.g c.slot c.info.hdr.wm = s
  late : y.late.any (·.due) = false
  tokens : ∀ n, n < 6 → c.info.hdr.wm.getLsbD n = true → y.token (n + 1) = 0
  token : y.token c.info.hdr.st.val ≠ 63
  legal : s.laneFault c.g y c.index i c.info = none
  en : c.en = guardLanes s c.g c.info.hdr c.act
  enabled : ctl = false → c.en ≠ 0 ∧ s.fencedQueue y c.g c.info = false
  ready : ∃ u, s.popAll c.g y c.info.pops = some (c.pops, u) ∧
    u.fillAll c.g ((wordNames c.info).filterMap LaneDst.vnum) = .ok t
  whole : ∀ n ∈ (readNames c.info).filterMap LaneDst.vnum, t.regPoisoned c.g n c.en = false
  view : c.view = t.readView c.g

/-- The endpoint of the queue that the word pushes to takes an entry: the port always does, the mailbox holds at most 16
(R29). -/
def Accepts (c : LaneCtx) (t : Machine.State) : Prop :=
  ∀ q y, c.info.push = some q → t.gang? c.g = some y → (y.bound q).1 = 4 →
    (t.cluster (clusterOf (coreOf c.g))).mailbox.length < 16

/-- The state that a fixed-latency word leaves with results o: a push has gone to its queue, the writes are pending for the
word's latency with its token, and the slot goes on (R29, R59, R61). -/
def Produces (c : LaneCtx) (t : Machine.State) (o : LaneOut) (t' : Machine.State) : Prop :=
  ∃ u, (t.skipChoice c.view).pushResult c o = some u ∧ t' = (u.addFix c (latCycles c.info.lat) o.writes).advance c

/-- Whenever the fixed-latency word i issues and the endpoint of a queue in D takes an entry, it completes, with the
results o. -/
def Computes (i : Instr) (o : LaneCtx → LaneOut) : Prop :=
  ∀ s y c t, LaneIssues s i false y c t → Accepts c t → ∃ t', Produces c t (o c) t' ∧ exec i s = .next t'

/-- Nothing holds the effects of a `var` word back: no earlier access that it must follow is out, there is room for its
requests, what a replayable crew holds stays within its bounds, the endpoint of a queue in D takes an entry, and a
`.fabric` release has nothing to wait for (R205, R229, R324, R426). -/
def MayPerform (c : LaneCtx) (o : WordOrder) (t : Machine.State) : Prop :=
  t.inOrder c.g o.strong = true ∧ t.requestRoom = true ∧
  (∀ n, o.held = some n → t.replayable c.g = true → ∀ y, t.gang? c.g = some y →
    y.region + n ≤ 4096 ∧ t.buffered (coreOf c.g) + n ≤ 65536) ∧
  (o.held = none ∨ t.replayable c.g = false →
    Accepts c t ∧ (o.rel = true → o.scope = .fabric → t.outstanding (.gang c.g) = false))

/-- Whenever the `var` word i issues, its checks at issue pass and nothing holds its effects back, it performs the effects
ops of its enabled lanes, held where a replayable crew holds them, and the slot goes on (R205, R229). -/
def Performs (i : Instr) (o : LaneCtx → WordOrder) (ok : LaneCtx → Machine.State → Prop)
    (ops : LaneCtx → Machine.State → Fin 32 → MemOp) : Prop :=
  ∀ s y c t, LaneIssues s i false y c t → ok c (t.skipChoice c.view) → MayPerform c (o c) (t.skipChoice c.view) →
    ∃ u, (t.skipChoice c.view).wordEffects c (o c) (c.ops (ops c (t.skipChoice c.view))) = .ok u ∧
      exec i s = .next (u.advance c)

/-- Lane n is the lowest enabled one for which a condition holds. -/
def Lowest (c : LaneCtx) (bad : Fin 32 → Prop) (n : Fin 32) : Prop :=
  c.en.getLsbD n.val = true ∧ bad n ∧ ∀ l : Fin 32, l < n → c.en.getLsbD l.val = true → ¬bad l

/-- A precise fault of a lane word of gang g, which is y, is delivered now: no issued word of the gang awaits another
package, its scalar stream is not in the midst of an instruction, and it is not held for a kill (R205, R375, R386). -/
def LaneTraps (s : Machine.State) (g : Nat) (y : Gang) : Prop := y.mayTrap = true ∧ s.killHeld (.gang g) = false

/-- The precise trap of the lane word of a slot: its run ends, the gang's earlier words complete, and the slot resumes at
the word itself (R65, R205, R374). -/
def laneTrapped (s : Machine.State) (g : Nat) (slot : Fin 2) (y : Gang) (t : Trap) : Machine.State :=
  (s.runWaits g).takeTrap (.gang g) t
    { faddr := BitVec.ofNat 64 y.lpc[slot].index, sres := y.sc.pc, lane := some (slot, y.lpc[slot].index) }

/-- Whenever the word i comes to be checked at issue and the condition holds of it, it raises the trap, and nothing else of
it happens (R205, R225). -/
def LaneFaults (i : Instr) (always : Bool) (bad : LaneCtx → Machine.State → Prop) (trap : LaneCtx → Machine.State → Trap) :
    Prop :=
  ∀ s y c t, LaneIssues s i always y c t → LaneTraps s c.g y → bad c t →
    exec i s = .next (laneTrapped s c.g c.slot y (trap c t))

/-- Every enabled lane's address is a multiple of the size and lies below 2^52 (R204). -/
def GoodAddresses (c : LaneCtx) (size : Nat) (va : Fin 32 → W64) : Prop :=
  ∀ n : Fin 32, c.en.getLsbD n.val = true → (va n).toNat % size = 0 ∧ (va n).toNat < 2 ^ 52

/-- Whenever the control word i issues and the gang's stack can be read, f gives the paths behind it, and they are settled
and take their places (R217, R224). -/
def Controls (i : Instr) (always : Bool) (f : LaneCtx → Kernel → Paths → Paths → Prop) : Prop :=
  ∀ s y z c t k st p u, LaneIssues s i always y c t → t.kernel (.gang c.g) = some k → t.dstack c.g = .ok st →
    (t.advance c).gang? c.g = some z → f c k { lpc := z.lpc, st := st, killed := z.killed } p →
    (t.advance c).putPaths c.g st p = .ok u → exec i s = .next u

/-- x clamped to a range. -/
def clampTo (lo hi x : Int) : Int := max lo (min hi x)

/-- The least value of an integer type. -/
def leastOf : IntTy → Int
  | .i32 => -2147483648
  | .n32 => 0
  | .i64 => -9223372036854775808
  | .n64 => 0

/-- The greatest value of an integer type. -/
def greatestOf : IntTy → Int
  | .i32 => 2147483647
  | .n32 => 4294967295
  | .i64 => 9223372036854775807
  | .n64 => 18446744073709551615

/-- Every byte of the three memories reads as before. -/
def SameMemory (s t : Machine.State) : Prop :=
  ∀ x, t.mem.byte x = s.mem.byte x ∧ t.tiers.byte x = s.tiers.byte x ∧ t.scratch.byte x = s.scratch.byte x

end Sys2Proof
end

