-- ==== Sys2Proof/Certificates/Slice0/Obligations.lean ====
section
/-!
DEFINITION. The statements for the provers. The rules R<n> are those of spec/; a docstring that names a log entry says
where the statement rests on a choice of the model.
-/

open Sys2Proof Sys2Proof.Machine

/-! ## Scalar registers, conditions and transfers (chapter 05) -/

/-- R130: the results of `sadd`, `ssub`, `smul`, `smulh`, `smin` and `smax` on registers, modulo 2^64. The instruction
completes whenever R22 lets it write sd, and changes sd and the address alone. -/
def Obligations.ScalarArithmetic : Prop :=
  ∀ (s : State) (a : Issuer) (c : ScalarCtx) (d x y : SReg), Issues s a c → Writable s a d →
    let p := c.s[x.val]
    let q := c.s[y.val]
    exec (.sadd d x y) s = .next (wrote s a c 4 d (BitVec.ofNat 64 (p.toNat + q.toNat))) ∧
    exec (.ssub d x y) s = .next (wrote s a c 4 d (BitVec.ofInt 64 (p.toInt - q.toInt))) ∧
    exec (.smul d x y) s = .next (wrote s a c 4 d (BitVec.ofNat 64 (p.toNat * q.toNat))) ∧
    exec (.smulh true d x y) s = .next (wrote s a c 4 d (BitVec.ofNat 64 (p.toNat * q.toNat / 2 ^ 64))) ∧
    exec (.smulh false d x y) s = .next (wrote s a c 4 d (BitVec.ofInt 64 (p.toInt * q.toInt / 2 ^ 64))) ∧
    exec (.smin true d x y) s = .next (wrote s a c 4 d (BitVec.ofNat 64 (min p.toNat q.toNat))) ∧
    exec (.smin false d x y) s = .next (wrote s a c 4 d (BitVec.ofInt 64 (min p.toInt q.toInt))) ∧
    exec (.smax true d x y) s = .next (wrote s a c 4 d (BitVec.ofNat 64 (max p.toNat q.toNat))) ∧
    exec (.smax false d x y) s = .next (wrote s a c 4 d (BitVec.ofInt 64 (max p.toInt q.toInt)))

/-- R131: `sdiv` truncates toward zero, and its special cases. It raises no fault. -/
def Obligations.ScalarDivide : Prop :=
  ∀ (s : State) (a : Issuer) (c : ScalarCtx) (n : Bool) (d x y : SReg), Issues s a c → Writable s a d →
    let p := c.s[x.val]
    let q := c.s[y.val]
    ∃ v, exec (.sdiv n d x y) s = .next (wrote s a c 4 d v) ∧
      (q = 0 → v = 0xFFFFFFFFFFFFFFFF) ∧
      (n = false → p = 0x8000000000000000 → q = 0xFFFFFFFFFFFFFFFF → v = 0x8000000000000000) ∧
      (n = true → q ≠ 0 → v.toNat = p.toNat / q.toNat) ∧
      (n = false → q ≠ 0 → ¬(p = 0x8000000000000000 ∧ q = 0xFFFFFFFFFFFFFFFF) → v.toInt = p.toInt.tdiv q.toInt)

/-- R130: bitwise operations, shifts by sb[5:0], counts of bits, `smov`, and `ssel` on k0. -/
def Obligations.ScalarBits : Prop :=
  ∀ (s : State) (a : Issuer) (c : ScalarCtx) (d x y : SReg), Issues s a c → Writable s a d →
    let p := c.s[x.val]
    let q := c.s[y.val]
    let n := q.toNat % 64
    exec (.sand d x y) s = .next (wrote s a c 4 d (p &&& q)) ∧
    exec (.sor d x y) s = .next (wrote s a c 4 d (p ||| q)) ∧
    exec (.sxor d x y) s = .next (wrote s a c 4 d (p ^^^ q)) ∧
    exec (.sshl d x y) s = .next (wrote s a c 4 d (p <<< n)) ∧
    exec (.sshr d x y) s = .next (wrote s a c 4 d (p >>> n)) ∧
    exec (.ssra d x y) s = .next (wrote s a c 4 d (p.sshiftRight n)) ∧
    exec (.spopc d x) s = .next (wrote s a c 4 d (BitVec.ofNat 64 ((List.range 64).countP fun i => p.getLsbD i))) ∧
    (∃ z, exec (.sclz d x) s = .next (wrote s a c 4 d (BitVec.ofNat 64 z)) ∧ z ≤ 64 ∧ p.toNat < 2 ^ (64 - z) ∧
      (z < 64 → 2 ^ (63 - z) ≤ p.toNat)) ∧
    exec (.smov d x) s = .next (wrote s a c 4 d p) ∧
    exec (.ssel d x y) s = .next (wrote s a c 4 d (if c.k[0] then p else q))

/-- R130, R133: the immediate and long forms, with the literal sign-extended to 64 bits, and `slea`. A shift count that
R130 does not permit is no instruction of these forms (WellFormed refuses it), so the counts are below 64 here. -/
def Obligations.ScalarLiterals : Prop :=
  ∀ (s : State) (a : Issuer) (c : ScalarCtx) (d x y : SReg) (i : BitVec 13) (j : BitVec 32), Issues s a c →
    Writable s a d →
    let p := c.s[x.val]
    let k := i.signExtend 64
    let l := j.signExtend 64
    exec (.saddImm d x i) s = .next (wrote s a c 4 d (p + k)) ∧
    exec (.smulImm d x i) s = .next (wrote s a c 4 d (p * k)) ∧
    exec (.sandImm d x i) s = .next (wrote s a c 4 d (p &&& k)) ∧
    exec (.sorImm d x i) s = .next (wrote s a c 4 d (p ||| k)) ∧
    exec (.sxorImm d x i) s = .next (wrote s a c 4 d (p ^^^ k)) ∧
    (i.toNat < 64 → exec (.sshlImm d x i) s = .next (wrote s a c 4 d (p <<< i.toNat)) ∧
      exec (.sshrImm d x i) s = .next (wrote s a c 4 d (p >>> i.toNat)) ∧
      exec (.ssraImm d x i) s = .next (wrote s a c 4 d (p.sshiftRight i.toNat))) ∧
    exec (.sminImm d x i) s = .next (wrote s a c 4 d (BitVec.ofInt 64 (min p.toInt k.toInt))) ∧
    exec (.smaxImm d x i) s = .next (wrote s a c 4 d (BitVec.ofInt 64 (max p.toInt k.toInt))) ∧
    exec (.smovi d i) s = .next (wrote s a c 4 d k) ∧
    exec (.smovh d i) s = .next (wrote s a c 4 d (k.setWidth 32 ++ c.s[d.val].setWidth 32)) ∧
    exec (.slea d x y) s = .next (wrote s a c 4 d (p + 4 * c.s[y.val])) ∧
    exec (.sleaImm d i) s = .next (wrote s a c 4 d (c.pc + 4 * k)) ∧
    exec (.smoviLong d j) s = .next (wrote s a c 8 d l) ∧
    exec (.smovhLong d j) s = .next (wrote s a c 8 d (j ++ c.s[d.val].setWidth 32)) ∧
    exec (.saddLong d x j) s = .next (wrote s a c 8 d (p + l)) ∧
    exec (.sandLong d x j) s = .next (wrote s a c 8 d (p &&& l)) ∧
    exec (.sorLong d x j) s = .next (wrote s a c 8 d (p ||| l)) ∧
    exec (.sxorLong d x j) s = .next (wrote s a c 8 d (p ^^^ l))

/-- R132: `scmp` writes one condition register from a signed or unsigned comparison, and no other register. -/
def Obligations.ScalarCompare : Prop :=
  ∀ (s : State) (a : Issuer) (c : ScalarCtx) (k : KReg) (x y : SReg) (i : BitVec 13) (n : Bool), Issues s a c →
    let cond (u : Bool) (p q : W64) : Cond → Bool
      | .eq => p == q
      | .ne => p != q
      | .lt => if u then p.ult q else p.slt q
      | .le => if u then p.ule q else p.sle q
      | .gt => if u then q.ult p else q.slt p
      | .ge => if u then q.ule p else q.sle p
      | .tst => p &&& q != 0
    ∀ cc, exec (.scmp cc n k x y) s = .next (wroteK s a c k (cond n c.s[x.val] c.s[y.val] cc)) ∧
      exec (.scmpImm cc k x i) s = .next (wroteK s a c k (cond false c.s[x.val] (i.signExtend 64) cc))

/-- R134: transfers of control inside the kernel's `.text`: the target, the branch that is not taken, and the link. -/
def Obligations.ScalarTransfers : Prop :=
  ∀ (s : State) (a : Issuer) (c : ScalarCtx) (x d : SReg) (k : KReg) (sense : Bool) (off : BitVec 22), Issues s a c →
    let target := c.pc + 4 * off.signExtend 64
    let link (r : SReg) : ScalarCtx := { c with s := c.s.set r.val (c.pc + 4) }
    (target.toNat % 4 = 0 → s.inText a target = true →
      exec (.sb off) s = .next (jumped s a c target) ∧
      exec (.scall off) s = .next (jumped s a (link 63) target) ∧
      ((c.k[k.val] ^^ sense) = true → exec (.sbk k sense off) s = .next (jumped s a c target))) ∧
    ((c.k[k.val] ^^ sense) = false → exec (.sbk k sense off) s = .next (advanced s a c 4)) ∧
    (c.s[x.val].toNat % 4 = 0 → s.inText a c.s[x.val] = true →
      exec (.sret x) s = .next (jumped s a c c.s[x.val]) ∧ exec (.sjmpr x) s = .next (jumped s a c c.s[x.val]) ∧
      (Writable s a d → exec (.sjmprL d x) s = .next (jumped s a (link d) c.s[x.val])))

/-- R128, R134: a register target that is not word-aligned raises ALIGN, and a target outside `.text` RANGE, at the
transferring instruction, whose link is not made: the trap is taken in the state before it. A conditional branch raises it
where it is taken. -/
def Obligations.TransferTraps : Prop :=
  ∀ (s : State) (a : Issuer) (c : ScalarCtx) (x d : SReg) (k : KReg) (sense : Bool) (off : BitVec 22), Issues s a c →
    Traps s a →
    let target := c.pc + 4 * off.signExtend 64
    let here : TrapPoint := { faddr := c.pc, sres := c.pc, lane := none }
    let stops (i : Instr) (code : Code) : Prop := exec i s = .next (s.takeTrap a { code := code } here)
    (c.s[x.val].toNat % 4 ≠ 0 → stops (.sret x) .align ∧ stops (.sjmpr x) .align ∧
      (Writable s a d → stops (.sjmprL d x) .align)) ∧
    (c.s[x.val].toNat % 4 = 0 → s.inText a c.s[x.val] = false → stops (.sret x) .range ∧ stops (.sjmpr x) .range ∧
      (Writable s a d → stops (.sjmprL d x) .range)) ∧
    (target.toNat % 4 = 0 → s.inText a target = false → stops (.sb off) .range ∧ stops (.scall off) .range ∧
      ((c.k[k.val] ^^ sense) = true → stops (.sbk k sense off) .range))

/-- R135, R144, R146: `sloop`, `snop`, `ldisp` and `slrd` where they do not wait: an arm, nothing, a block pushed at
the back of the lane dispatch queue with the pending arm, and a lane of a register zero-extended. `lsync` of a gang whose
lane work is settled goes on (R145). In a pilot `sloop` does nothing but advance, which is the model's choice (log 53). -/
def Obligations.LaneDispatch : Prop :=
  (∀ (s : State) (a : Issuer) (c : ScalarCtx), Issues s a c → exec .snop s = .next (advanced s a c 4)) ∧
  (∀ (s : State) (cl : Nat) (c : ScalarCtx) (x : SReg) (n : BitVec 13), Issues s (.pilot cl) c →
    exec (.sloop x n) s = .next (advanced s (.pilot cl) c 4)) ∧
  ∀ (s : State) (g : Nat) (y : Gang), GangIssues s g y →
    (∀ (x : SReg) (n : BitVec 13), y.armAttached = false →
      exec (.sloop x n) s = .next (gangAdvanced s g
        { y with arm := some { count := y.sc.s[x.val].setWidth 32, len := n.toNat, start := 0, active := false,
                               left := 0 } } 4)) ∧
    (∀ k, s.kernel (.gang g) = some k → y.sc.mode ≠ some .trap → y.queue.length < 8 →
      ∀ (x : SReg) (n : BitVec 13),
        let here := n.toNat
        let there := y.sc.s[x.val].toNat % 2 ^ 30 + n.toNat
        let pushed (t : Nat) : Gang := { y with queue := y.queue ++ [{ index := t, arm := false }] }
        let armed (m : Arm) (t : Nat) : Gang :=
          { y with queue := y.queue ++ [{ index := t, arm := true }], arm := some { m with start := t } }
        (y.armPending = none → here < k.laneCount → exec (.ldisp n) s = .next (gangAdvanced s g (pushed here) 4)) ∧
        (y.armPending = none → there < k.laneCount →
          exec (.ldispReg x n) s = .next (gangAdvanced s g (pushed there) 4)) ∧
        ∀ m, y.armPending = some m →
          (here < k.laneCount → here + m.len ≤ k.laneCount →
            exec (.ldisp n) s = .next (gangAdvanced s g (armed m here) 4)) ∧
          (there < k.laneCount → there + m.len ≤ k.laneCount →
            exec (.ldispReg x n) s = .next (gangAdvanced s g (armed m there) 4))) ∧
    (Settled s (.gang g) → exec .lsync s = .next (gangAdvanced s g y 4)) ∧
    (Settled s (.gang g) → ∀ (d x : SReg) (n : Fin 64), Writable s (.gang g) d → s.absentAt g n.val = false →
      (∀ l : Fin 32, s.regPoisoned g n.val (maskOf fun k => k == l) = false → exec (.slrd d n (.imm l)) s =
        .next (wrote s (.gang g) y.sc 4 d ((y.v[n.val])[l.val].setWidth 64))) ∧
      (s.regPoisoned g n.val (maskOf fun k => k.val == y.sc.s[x.val].toNat % 32) = false → exec (.slrd d n (.reg x)) s =
        .next (wrote s (.gang g) y.sc 4 d
          ((y.v[n.val])[y.sc.s[x.val].toNat % 32]'(Nat.mod_lt _ (by decide)) |>.setWidth 64))))

/-- R136: `sexit` of a gang whose lane work is settled: the gang is no more, and its crew no longer counts it; the crew
is retiring when no gang of it is left; that the gang's slot stays held until the crew retires is the model's reading
(log 64). A pilot's `sexit` ends the pilot. -/
def Obligations.StreamExit : Prop :=
  (∀ (s : State) (g : Nat) (y : Gang), GangIssues s g y → Settled s (.gang g) → ∀ w, s.crew? y.crew = some w →
    w.preempt = none → ∃ t, exec .sexit s = .next t ∧ t.gangs = s.gangs.erase g ∧
      ∃ w', t.crew? y.crew = some w' ∧
        w'.gangs = (w.gangs.map fun x => if x = some g then none else x) ∧
        (w'.ending = true ↔ ∀ x ∈ w'.gangs, x = none) ∧ w'.wgt = w.wgt ∧ w'.slots = w.slots) ∧
  ∀ (s : State) (cl : Nat) (c : ScalarCtx), Issues s (.pilot cl) c →
    exec .sexit s = .next { s with pilots := s.pilots.erase cl }

/-- R137, R138: scalar loads and stores of memory of this package, whose bytes the home slice reads and writes, by
the outcome of the access: the address is sa plus the sign-extended offset; a load narrower than 64 bits is sign- or
zero-extended; a store writes the low bytes. A load whose answer has come from another package takes its bytes from the
answered line; a store to another package sends a WR and goes on (R425, R426). -/
def Obligations.ScalarLoadStore : Prop :=
  ∀ (s : State) (a : Issuer) (c : ScalarCtx) (d x : SReg) (i : BitVec 13) (j : BitVec 32) (sz : ScalarSize) (sg : Bool),
    Issues s a c →
    let va (off : W64) : W64 := c.s[x.val] + off
    let near := va (i.signExtend 64)
    let far := va (j.signExtend 64)
    let n := sizeBytes sz
    let value (bs : List Byte) : W64 := match sz with
      | .n64 => BitVec.ofNat 64 (leNat bs)
      | .n32 => if sg then (BitVec.ofNat 32 (leNat bs)).signExtend 64 else BitVec.ofNat 64 (leNat bs)
      | .n16 => if sg then (BitVec.ofNat 16 (leNat bs)).signExtend 64 else BitVec.ofNat 64 (leNat bs)
      | .n8 => if sg then (BitVec.ofNat 8 (leNat bs)).signExtend 64 else BitVec.ofNat 64 (leNat bs)
    (Unbegun c →
      (∀ bs t, Writable s a d → near.toNat % 8 = 0 → s.plainLoad (s.who a) near 8 = .ok (bs, t) →
        exec (.sld d x i) s = .next (wrote t a c 4 d (BitVec.ofNat 64 (leNat bs)))) ∧
      (∀ bs t, Writable s a d → far.toNat % n = 0 → s.plainLoad (s.who a) far n = .ok (bs, t) →
        exec (.sldLong sz sg d x j) s = .next (wrote t a c 8 d (value bs))) ∧
      (∀ t, near.toNat % 8 = 0 → s.plainStore (s.who a) near (leBytes 8 c.s[d.val].toNat) = .ok t →
        exec (.sst d x i) s = .next (advanced t a c 4)) ∧
      (∀ t, far.toNat % n = 0 → s.plainStore (s.who a) far (leBytes n c.s[d.val].toNat) = .ok t →
        exec (.sstLong sz d x j) s = .next (advanced t a c 8))) ∧
    (∀ line, c.wait = .answered line → Writable s a d →
      (near.toNat % 8 = 0 → exec (.sld d x i) s =
        .next (wrote s a c 4 d (BitVec.ofNat 64 (leNat ((line.drop (near.toNat % 128)).take 8))))) ∧
      (far.toNat % n = 0 →
        exec (.sldLong sz sg d x j) s = .next (wrote s a c 8 d (value ((line.drop (far.toNat % 128)).take n))))) ∧
    (∀ p, s.streamRoom p.home = true →
      let sent (bs : List Byte) : State :=
        (s.request { s.packet p.home .wr (wrPayload [(p.pa % 128, bs)]) with
          keyid := p.key, pa := p.pa / 128 * 128, sz := match bs.length with
            | 1 => .b8
            | 2 => .b16
            | 4 => .b32
            | _ => .b64 } (.store a false) (p.pa / 128) []).2
      (near.toNat % 8 = 0 → s.plainStore (s.who a) near (leBytes 8 c.s[d.val].toNat) = .error (.remote p) →
        exec (.sst d x i) s = .next (advanced (sent (leBytes 8 c.s[d.val].toNat)) a c 4)) ∧
      (far.toNat % n = 0 → s.plainStore (s.who a) far (leBytes n c.s[d.val].toNat) = .error (.remote p) →
        exec (.sstLong sz d x j) s = .next (advanced (sent (leBytes n c.s[d.val].toNat)) a c 8)))

/-- R128, R137: a scalar access whose address is not a multiple of its size raises ALIGN, whose record names the
address, before it reads or writes anything; so do the instructions that name a descriptor of 64 bytes, and those that name
an entry of 128. -/
def Obligations.ScalarAlign : Prop :=
  ∀ (s : State) (a : Issuer) (c : ScalarCtx) (d x y : SReg) (i : BitVec 13) (j : BitVec 32), Issues s a c →
    Traps s a →
    let near := c.s[x.val] + i.signExtend 64
    let far := c.s[x.val] + j.signExtend 64
    (near.toNat % 8 ≠ 0 → exec (.sld d x i) s = .next (trapped s a c { code := .align, va := near }) ∧
      exec (.sst d x i) s = .next (trapped s a c { code := .align, va := near })) ∧
    (∀ sz sg, far.toNat % sizeBytes sz ≠ 0 →
      exec (.sldLong sz sg d x j) s = .next (trapped s a c { code := .align, va := far }) ∧
      exec (.sstLong sz d x j) s = .next (trapped s a c { code := .align, va := far })) ∧
    (far.toNat % 8 ≠ 0 → ∀ sc, exec (.sldv sc d x y j) s = .next (trapped s a c { code := .align, va := far })) ∧
    (∀ (op : SAtomOp) (o : Order) (sc : Scope) (e : BitVec 24), (c.s[x.val] + e.signExtend 64).toNat % 8 ≠ 0 →
      exec (.satom op o sc d x y e) s = .next (trapped s a c { code := .align, va := c.s[x.val] + e.signExtend 64 })) ∧
    let off (i : Instr) : Prop := exec i s = .next (trapped s a c { code := .align, va := c.s[x.val] })
    (c.s[x.val].toNat % 8 ≠ 0 → ∀ cc acq, off (.swait cc acq d x y)) ∧
    (∀ g, a = .gang g → c.s[x.val].toNat % 64 ≠ 0 →
      off (.tqTake d x) ∧ off (.tqSteal d x) ∧ off (.tqGive x y) ∧
      (Accepted s a [.fabric] → off (.fbar d x) ∧ off (.xcol x)) ∧
      (Settled s a → off (.xcpy x y) ∧ off (.srt x)) ∧
      (Unbegun c → ∀ k, s.issuerGridOf a = some k → ∀ q, off (.glaunch q d x y))) ∧
    ∀ cl, a = .pilot cl → c.s[x.val].toNat % 128 ≠ 0 → off (.mbxTake d x) ∧ ∀ q, off (.rqSend q x)

/-- R139, R140, R141, R142: `sldv` and `swait` once the word that they read meets their condition; `satom` with the
old value in sd and, for `cas`, sd as the value compared; `sfence` with the release that its order names. -/
def Obligations.ScalarOrdered : Prop :=
  ∀ (s : State) (a : Issuer) (c : ScalarCtx) (d x y : SReg), Issues s a c → Unbegun c →
    let va (off : W64) : W64 := c.s[x.val] + off
    let q := c.s[y.val]
    (∀ bs t, Writable s a d →
      (∀ (sc : Scope) (j : BitVec 32), (va (j.signExtend 64)).toNat % 8 = 0 →
        s.strongLoad (s.who a) (va (j.signExtend 64)) 8 = .ok (bs, t) → q.toNat ≤ (word64 bs).toNat →
        exec (.sldv sc d x y j) s = .next (wrote t a c 8 d (word64 bs))) ∧
      (∀ (acq : Bool) (cc : WaitCond), c.s[x.val].toNat % 8 = 0 →
        s.strongLoad (s.who a) c.s[x.val] 8 = .ok (bs, t) →
        (match cc with
          | .ne => word64 bs ≠ q
          | .eq => word64 bs = q
          | .geu => q.toNat ≤ (word64 bs).toNat
          | .ltu => (word64 bs).toNat < q.toNat
          | .ge => q.toInt ≤ (word64 bs).toInt
          | .lt => (word64 bs).toInt < q.toInt) →
        exec (.swait cc acq d x y) s = .next (wrote t a c 4 d (word64 bs)))) ∧
    (∀ (op : SAtomOp) (o : Order) (sc : Scope) (i : BitVec 24) (bs : List Byte) (u t : State), Writable s a d →
      (va (i.signExtend 64)).toNat % 8 = 0 →
      (if o = .rel ∨ o = .acqrel then s.releaseFor a sc = .ok u else u = s) →
      let value (m : W64) : W64 := match op with
        | .add => m + q
        | .and => m &&& q
        | .or => m ||| q
        | .xor => m ^^^ q
        | .min => if m.toInt ≤ q.toInt then m else q
        | .max => if q.toInt ≤ m.toInt then m else q
        | .minu => if m.toNat ≤ q.toNat then m else q
        | .maxu => if q.toNat ≤ m.toNat then m else q
        | .exch => q
        | .cas => if m = c.s[d.val] then q else m
      u.atomic (u.who a) (va (i.signExtend 64)) 8 (fun b => bytes64 (value (word64 b))) = .ok (bs, t) →
      exec (.satom op o sc d x y i) s = .next (wrote t a c 8 d (word64 bs))) ∧
    (∀ sc t, s.releaseFor a sc = .ok t →
      exec (.sfence .rel sc) s = .next (advanced t a c 4) ∧ exec (.sfence .acqrel sc) s = .next (advanced t a c 4)) ∧
    ∀ sc, exec (.sfence .acq sc) s = .next (advanced s a c 4)

/-- R38, R39, R147: the barrier instructions of a gang, on barrier b of its crew: `bar.init` of an unused barrier,
`bar.exp` adding to PEND modulo 2^32, `bar.arr` counting an arrival and answering the phase it met, `bar.wt` passing when
the phase differs from its operand or the wait has ended, and `bar.sync` arriving and then passing. A phase that an
operation completes flips, ARRIVED becomes 0, and the waiters are released. A number beyond the crew's barriers raises
RANGE. -/
def Obligations.Barriers : Prop :=
  ∀ (s : State) (g : Nat) (c : ScalarCtx) (k : Nat) (w : Crew) (b : BitVec 7) (x d : SReg), Issues s (.gang g) c →
    InCrew s (.gang g) k w →
    (w.bars.length ≤ b.toNat → Traps s (.gang g) →
      exec (.barInit b x) s = .next (trapped s (.gang g) c { code := .range }) ∧
      exec (.barArr d b) s = .next (trapped s (.gang g) c { code := .range }) ∧
      exec (.barWt b x) s = .next (trapped s (.gang g) c { code := .range }) ∧
      exec (.barSync b) s = .next (trapped s (.gang g) c { code := .range }) ∧
      exec (.barExp b x) s = .next (trapped s (.gang g) c { code := .range })) ∧
    ∀ z, w.bars[b.toNat]? = some z →
      let changed (u : State) (z : Barrier) : State :=
        if z.expect ≠ 0 ∧ z.arrived = z.expect ∧ z.pend = 0 then
          (u.setCrew k { w with bars := w.bars.set b.toNat { z with phase := !z.phase, arrived := 0 } }).releaseWaiters
            k b.toNat
        else u.setCrew k { w with bars := w.bars.set b.toNat z }
      (∀ n, 1 ≤ n → n ≤ 32 → c.s[x.val].toNat = n → z.arrived = 0 → z.pend = 0 → s.hasWaiter k b.toNat = false →
        exec (.barInit b x) s =
          .next (advanced (s.setCrew k { w with bars := w.bars.set b.toNat { z with expect := n, arrived := 0, pend := 0 } })
            (.gang g) c 4)) ∧
      (Settled s (.gang g) → Writable s (.gang g) d → z.arrived ≠ z.expect →
        exec (.barArr d b) s =
          .next ((changed s { z with arrived := z.arrived + 1 }).finish (.gang g) c 4 d (if z.phase then 1 else 0))) ∧
      ((c.wait = .barDone ∨ z.phase ≠ c.s[x.val].getLsbD 0) →
        exec (.barWt b x) s = .next (advanced s (.gang g) c 4)) ∧
      (c.wait = .barDone → exec (.barSync b) s = .next (advanced s (.gang g) c 4)) ∧
      (c.wait ≠ .barDone → Settled s (.gang g) → z.arrived ≠ z.expect →
        exec (.barSync b) s =
          .next (changed (s.setWait (.gang g) (.barWait b.toNat true)) { z with arrived := z.arrived + 1 })) ∧
      exec (.barExp b x) s =
        .next ((changed s { z with pend := z.pend + c.s[x.val].setWidth 32 }).next (.gang g) c.pc 4)

/-- R34, R149: `bth.take`: the lowest free berth of the core becomes the taker's, in FILLING, and sd holds its handle;
with no free berth sd is all ones and nothing else changes. -/
def Obligations.BerthTake : Prop :=
  ∀ (s : State) (a : Issuer) (c : ScalarCtx) (d x y : SReg), Issues s a c → Writable s a d →
    let v := c.s[y.val].toNat
    let n := v % 2 ^ 15
    ∀ k w, s.takeFor a c.s[y.val] = some (k, w) → 1 ≤ n → n ≤ 16384 →
      (match a with
        | .gang _ => v / 2 ^ 15 = 0
        | .pilot _ => v / 2 ^ 15 % 2 ^ 33 = 0 ∧ v / 2 ^ 55 = 0) →
      let core := coreOf k
      let base := w.pad.1 + c.s[x.val].toNat
      c.s[x.val].toNat + n ≤ w.pad.2 →
      (∀ e ∈ (s.core core).berths, e.2.state ≠ .free → e.2.base + e.2.size ≤ base ∨ base + n ≤ e.2.base) →
      (∀ i, i < 128 → (s.berth core i).state = .free → (∀ j, j < i → (s.berth core j).state ≠ .free) →
        let gen := (s.berth core i).gen
        let holder : Holder := match a with
          | .gang _ => .crew (core % 4) (k % 32)
          | .pilot _ => .pilot
        exec (.bthTake d x y) s =
          .next (wrote (s.setBerth core i
            { own := w.tag, gen := gen, state := .filling, holder := holder, count := 0, size := n, base := base }) a c 4 d
            (BitVec.ofNat 64 (core % 4 * 2 ^ 14 + i * 2 ^ 7 + gen.toNat)))) ∧
      ((∀ j, j < 128 → (s.berth core j).state ≠ .free) →
        exec (.bthTake d x y) s = .next (wrote s a c 4 d 0xFFFFFFFFFFFFFFFF))

/-- R150 to R153, R242, R244: `bth.set`, `bth.pass`, `bth.free`, `bth.wait` and `bth.query` of a berth that the issuer
holds, its lane work being settled and, for a pilot, no queued MMA reading the berth: the transitions of R150 with the
COUNT that FULL sets, the new holder, the freed entry with the next GEN, and the two halves of the entry. -/
def Obligations.BerthChanges : Prop :=
  ∀ (s : State) (a : Issuer) (c : ScalarCtx) (d x y : SReg) (r : BerthRef), Issues s a c →
    s.berthOf a c.s[x.val] = some r →
    let e := r.entry
    let put (u : State) (e : Berth) : State := advanced (u.setBerth r.core r.idx e) a c 4
    (s.holdsBerth a e = true → Settled s a → (∀ cl, a = .pilot cl → s.berthRead r.core r.idx = false) →
      (∀ n t, c.s[y.val].toNat = n → n < 2 ^ 21 → n ≤ 64 * e.size → e.state = .filling → s.releaseFor a .cluster = .ok t →
        exec (.bthSet x y .full) s = .next (put t { e with state := .full, count := n })) ∧
      (e.state = .full → exec (.bthSet x y .draining) s = .next (put s { e with state := .draining })) ∧
      (e.state = .full ∨ e.state = .draining →
        exec (.bthSet x y .filling) s = .next (put s { e with state := .filling, count := 0 })) ∧
      (∀ h t, s.passTo a c.s[y.val] = some h → s.releaseFor a .cluster = .ok t →
        exec (.bthPass x y) s = .next (put t { e with holder := h })) ∧
      exec (.bthFree x) s = .next (put s { e with state := .free, gen := e.gen + 1, holder := .none, own := 0, count := 0 })) ∧
    (s.holdsBerth a e = true → ∀ t, e.state = targetState t → exec (.bthWait x t) s = .next (advanced s a c 4)) ∧
    (Writable s a d → (e.state = .free ∨ ∃ g, s.berthGrid e = some g ∧ s.issuerGrid a = some g) →
      exec (.bthQuery false d x) s = .next (wrote s a c 4 d (BitVec.ofNat 64 e.word)) ∧
      exec (.bthQuery true d x) s = .next (wrote s a c 4 d (BitVec.ofNat 64 (e.word / 2 ^ 64))))

/-- R25, R154: `xreg.acq` gives the lowest free block of the crew's pool to the gang that has waited longest, and passes
when the gang holds one; `xreg.rel` of a gang without incomplete lane words gives its block back. -/
def Obligations.ExtendedBlocks : Prop :=
  ∀ (s : State) (g : Nat) (y : Gang) (k : Nat) (w : Crew), GangIssues s g y → InCrew s (.gang g) k w →
    (∀ b, y.ext = some b → exec .xregAcq s = .next (gangAdvanced s g y 4)) ∧
    (y.ext = none → exec .xregRel s = .next (gangAdvanced s g y 4)) ∧
    (∀ b e, y.ext = none → w.part.ext ≠ 0 → (w.acqs = [] ∨ w.acqs.head? = some g) → w.ext[b]? = some e →
      e.holder = none → (∀ j, j < b → ∀ z, w.ext[j]? = some z → z.holder ≠ none) →
      exec .xregAcq s = .next (gangAdvanced
        (s.setCrew k { w with ext := w.ext.set b { e with holder := some g }, acqs := w.acqs.erase g }) g
        { y with ext := some b } 4)) ∧
    ∀ b e, y.ext = some b → y.quiet = true → w.ext[b]? = some e →
      exec .xregRel s = .next (gangAdvanced (s.setCrew k { w with ext := w.ext.set b { e with holder := none } }) g
        { y with ext := none } 4)

/-- R155 to R158, R337 to R339: a slice that may join those supplied is recorded, and the last one starts the copy;
`xdrain` goes on when no copy that its core's crews started is pending for its path, or when the ones it waits for have
completed; `srt` appends its command to the queue of the die's sort engine; `xcol` starts a collective, which goes on
until it must wait. The lane work is settled, the descriptor lies in this package, and `xcpy`, `srt` and `xcol` release at
`.device`. -/
def Obligations.EngineCommands : Prop :=
  ∀ (s : State) (g : Nat) (y : Gang) (x z : SReg), GangIssues s g y →
    let a := Issuer.gang g
    let va := y.sc.s[x.val]
    (∀ p, (Unbegun y.sc ∧ (∀ q ∈ (s.cluster a.cluster).copies, coreOf q.crew = a.core → s.pendingFor p q = false)) ∨
        (∃ ids, y.sc.wait = .drain ids ∧ ∀ q ∈ (s.cluster a.cluster).copies, q.id ∉ ids) →
      exec (.xdrain p) s = .next (gangAdvanced s g y 4)) ∧
    (Unbegun y.sc → Settled s a → va.toNat % 64 = 0 →
      (∀ t k w, s.hasSort (dieOf a.cluster) = true → (s.die (dieOf a.cluster)).sorts < 16 →
        s.releaseFor a .device = .ok t → InCrew t a k w →
        exec (.srt x) s = .next (advanced (t.setDie (dieOf a.cluster) { s.die (dieOf a.cluster) with
          sortQ := (s.die (dieOf a.cluster)).sortQ ++ [{ who := t.crewStarter w, addr := va, desc := [], work := none }] })
          a y.sc 4)) ∧
      ∀ bs u t k w, s.strongLoad (s.who a) va 64 = .ok (bs, u) → u.releaseFor a .device = .ok t → InCrew u a k w →
        (InCrew s a k w →
         let n := y.sc.s[z.val].toNat / 32 % 32 + 1
         let part := y.sc.s[z.val].toNat % 32
         let mine (q : Slices) : Bool := q.crew == k && q.addr == va
         let slices := (u.core a.core).slices
         let old := slices.find? mine
         let others := slices.filter fun q => !mine q
         let new : Slices := match old with
           | some q => { q with given := q.given ++ [part] }
           | none => { crew := k, addr := va, desc := bs, n := n, given := [part] }
         y.sc.s[z.val].toNat < 2 ^ 10 → u.sliceChecks a w (copyDesc bs) = .ok () →
         sliceFits ((s.core a.core).slices.find? mine) part n (s.core a.core).slices.length = true →
         (∀ q, (s.core a.core).slices.find? mine = some q → sameDesc q.desc bs = true) →
         (s.core a.core).slices = slices →
         (new.given.length ≠ n → ∃ t', exec (.xcpy x z) s = .next t' ∧ (t'.core a.core).slices = others ++ [new] ∧
           (t'.cluster a.cluster).copies = (u.cluster a.cluster).copies) ∧
         (new.given.length = n → (u.cluster a.cluster).copies.length < 64 → ∃ t' p, exec (.xcpy x z) s = .next t' ∧
           (t'.core a.core).slices = others ∧
           (t'.cluster a.cluster).copies = (u.cluster a.cluster).copies ++ [p] ∧ p.id = (u.cluster a.cluster).copyNo ∧
           p.crew = k ∧ p.addr = va ∧ p.desc = new.desc ∧ p.done = 0 ∧ p.part = none)) ∧
        (Accepted s a [.fabric] → u.collBad bs = false →
          let q : Coll := { who := t.crewStarter w, crew := k, addr := va, desc := bs, sent := 0, answers := [],
                            nanc := 0, miss := 0, dead := false, work := none }
          exec (.xcol x) s = .next ((t.collRun q q.fuel).next a y.sc.pc 4)))

/-- R159: the tile-queue instructions on a descriptor of this package, from the values of head, tail, give, LAG and W
that they read: the compare-and-swap of HT with the result and the weight gained, and the minimum that `tq.give` makes
of GIVE. That one which takes nothing swaps HT for itself is the model's reading of R159's code (log 24). -/
def Obligations.TileQueues : Prop :=
  ∀ (s : State) (g : Nat) (c : ScalarCtx) (d x y : SReg) (bs : List Byte) (u v : State), Issues s (.gang g) c →
    Unbegun c →
    let a := Issuer.gang g
    let va := c.s[x.val]
    let q := tileQueueOf bs
    va.toNat % 64 = 0 → s.strongLoad (s.who a) va 24 = .ok (bs, u) → u.releaseFor a .device = .ok v →
    (Writable s a d → (∃ z, s.xlate (s.who a) va true = .ok z) →
      (∀ old t, q.head.toNat < q.tail.toNat →
        v.atomic (v.who a) va 8 (fun _ => bytes64 (q.tail ++ (q.head + 1))) = .ok (old, t) →
        exec (.tqTake d x) s = .next ((t.addWeight a q.w).finish a c 4 d (q.head.setWidth 64))) ∧
      (∀ old t, q.tail.toNat ≤ q.head.toNat →
        v.atomic (v.who a) va 8 (fun _ => bytes64 (q.tail ++ q.head)) = .ok (old, t) →
        exec (.tqTake d x) s = .next ((t.addWeight a 0).finish a c 4 d 0xFFFFFFFFFFFFFFFF)) ∧
      (let lo := if q.lag = false ∧ q.head.toNat < q.give.toNat then q.give else q.head
       let k : W32 := BitVec.ofNat 32
         (if lo.toNat < q.tail.toNat then min ((q.tail - q.head).toNat / 2) (q.tail - lo).toNat else 0)
       (∀ old t, k ≠ 0 → v.atomic (v.who a) va 8 (fun _ => bytes64 ((q.tail - k) ++ q.head)) = .ok (old, t) →
         exec (.tqSteal d x) s = .next ((t.addWeight a (k.setWidth 64 * q.w)).finish a c 4 d (k ++ (q.tail - k)))) ∧
       ∀ old t, k = 0 → v.atomic (v.who a) va 8 (fun _ => bytes64 (q.tail ++ q.head)) = .ok (old, t) →
         exec (.tqSteal d x) s = .next ((t.addWeight a 0).finish a c 4 d 0))) ∧
    ∀ old t, (∃ z, s.xlate (s.who a) (va + 8) true = .ok z) →
      let n := c.s[y.val].toNat % 2 ^ 32
      let from_ : Nat := if q.head.toNat < q.tail.toNat then q.tail.toNat - min n (q.tail.toNat - q.head.toNat) else 0
      v.atomic (v.who a) (va + 8) 4 (fun b => leBytes 4 (min (leNat b % 2 ^ 32) from_)) = .ok (old, t) →
      exec (.tqGive x y) s = .next (t.next a c.pc 4)

/-- R160 to R163: `wsplit` and `wret` on the weight of the gang's crew; `glaunch` on a queue that is not enabled or has no
slot left answers 1 and reserves nothing, and one that finds a slot reserves it, detaches the weight, writes the packet
with the fields that R350 replaces, counts the child as launched and answers 0. -/
def Obligations.WeightAndLaunch : Prop :=
  ∀ (s : State) (g : Nat) (c : ScalarCtx) (d x y : SReg) (k : Nat) (w : Crew), Issues s (.gang g) c →
    InCrew s (.gang g) k w →
    let a := Issuer.gang g
    let v := c.s[x.val]
    (Unbegun c → Writable s a d → v ≠ 0 → v.toNat < w.wgt.toNat →
      exec (.wsplit d x) s = .next (wrote (s.setCrew k { w with wgt := w.wgt - v }) a c 4 d v)) ∧
    (c.wait = .granted v → Writable s a d → exec (.wsplit d x) s = .next (wrote s a c 4 d v)) ∧
    (v = 0 → exec (.wret x) s = .next (advanced s a c 4)) ∧
    (v ≠ 0 → v.toNat ≤ w.wgt.toNat → ∀ t z, s.releaseFor a (if s.farPhase w.grid then .fabric else .device) = .ok t →
      t.crew? k = some z →
      exec (.wret x) s = .next (((t.setCrew k { z with wgt := z.wgt - v }).returnWeight w.grid v).next a c.pc 4)) ∧
    ∀ q gk gr bs u, Unbegun c → s.issuerGridOf a = some (gk, gr) → Settled s a → Writable s a d → v.toNat % 64 = 0 →
      gr.nest ≠ 10 → s.plainLoad (s.who a) v 64 = .ok (bs, u) →
      let e := u.queueEntry q.val
      let n := c.s[y.val]
      ((n ≠ 0 ∨ s.queueOn (s.queueEntry q.val) = false ∨ (s.queueEntry q.val).room = false) →
        (u.queueOn e = false ∨ e.room = false) → exec (.glaunch q d x y) s = .next (wrote u a c 4 d 1)) ∧
      (n ≠ 0 → u.queueOn e = true → e.room = true →
        ∀ p z t, let r := u.putQueue q.val 12 (bytes32 (e.tail + 1))
          r.slotPage e e.tail true = .ok p → r.issuerCrew a = some (k, z) → n.toNat < z.wgt.toNat →
          (r.setCrew k { z with wgt := z.wgt - n }).releaseFor a .device = .ok t →
          exec (.glaunch q d x y) s =
            .next (((t.devStore (t.gridStarter gk) p (publishedPacket gr n bs)).setGrid gk
              { gr with launched := gr.launched ++ [(q.val, e.tail)] }).finish a c 4 d 0))

/-- R28, R42, R43, R164: `csrr` of every control register that a stream has, and `csrw`: `ctl` keeps its bit 0, the two
halves of `qmap` are bound with the cursors of the entries that change set to 0, and a write to another control register
that the stream has changes nothing. A number that the stream does not have raises ILLEGAL_OP. What `wgt` of a pilot reads
is a free value (log 2), and the value at which a die's `cyc` starts is the model's choice (log 3). -/
def Obligations.ControlRegisters : Prop :=
  (∀ (s : State) (a : Issuer) (c : ScalarCtx) (d x : SReg), Issues s a c →
    (Writable s a d →
      exec (.csrr 0x007 d) s = .next (wrote s a c 4 d c.trapslot) ∧
      exec (.csrr 0x008 d) s = .next (wrote s a c 4 d (s.ids a)) ∧
      exec (.csrr 0x00B d) s = .next (wrote s a c 4 d
        (BitVec.ofNat 64 (Config.dieStart s.harbour.start.toNat (dieOf a.cluster) + s.clk.refc))) ∧
      ∀ gk gr, s.issuerGridOf a = some (gk, gr) →
        exec (.csrr 0x009 d) s = .next (wrote s a c 4 d (BitVec.ofNat 64 gr.nest))) ∧
    (∀ n : BitVec 12, n ∈ [0x007#12, 0x008#12, 0x009#12, 0x00B#12] → exec (.csrw n x) s = .next (advanced s a c 4)) ∧
    (Traps s a → ∀ n : BitVec 12, 0x00B < n.toNat →
      exec (.csrr n d) s = .next (trapped s a c { code := .illegalOp }) ∧
      exec (.csrw n x) s = .next (trapped s a c { code := .illegalOp }))) ∧
  (∀ (s : State) (cl : Nat) (p : Pilot) (d x : SReg), s.cur = .pilot cl → s.pilot? cl = some p →
    let a := Issuer.pilot cl
    exec (.csrr 0x000 d) s = .next (wrote s a p.sc 4 d (if p.chk then 1 else 0)) ∧
    exec (.csrw 0x000 x) s = .next (advanced (s.setPilot cl { p with chk := p.sc.s[x.val].getLsbD 0 }) a p.sc 4) ∧
    ∃ v, exec (.csrr 0x00A d) s = .next (wrote { s with choice := s.choice + 1 } a p.sc 4 d v)) ∧
  ∀ (s : State) (g : Nat) (y : Gang) (k : Nat) (w : Crew) (d x : SReg), GangIssues s g y → InCrew s (.gang g) k w →
    let a := Issuer.gang g
    let v := y.sc.s[x.val]
    (Writable s a d →
      exec (.csrr 0x000 d) s = .next (wrote s a y.sc 4 d (if y.chk then 1 else 0)) ∧
      exec (.csrr 0x001 d) s = .next (wrote s a y.sc 4 d (y.qmapWord false)) ∧
      exec (.csrr 0x002 d) s = .next (wrote s a y.sc 4 d (y.qmapWord true)) ∧
      exec (.csrr 0x003 d) s = .next (wrote s a y.sc 4 d w.part.word) ∧
      exec (.csrr 0x004 d) s = .next (wrote s a y.sc 4 d (xpoolWord w y)) ∧
      exec (.csrr 0x005 d) s = .next (wrote s a y.sc 4 d y.dbase) ∧
      exec (.csrr 0x006 d) s = .next (wrote s a y.sc 4 d (BitVec.ofNat 64 y.depth)) ∧
      exec (.csrr 0x00A d) s = .next (wrote s a y.sc 4 d w.wgt)) ∧
    (s.blocked a = false → y.quiet = true →
      exec (.csrw 0x000 x) s = .next (gangAdvanced s g { y with chk := v.getLsbD 0 } 4) ∧
      ((leBytes 8 v.toNat).any (badBinding w.part.acc) = false →
        exec (.csrw 0x001 x) s = .next (gangAdvanced s g (y.bind false v) 4) ∧
        exec (.csrw 0x002 x) s = .next (gangAdvanced s g (y.bind true v) 4))) ∧
    ∀ n : BitVec 12, n ∈ [0x003#12, 0x004#12, 0x005#12, 0x006#12, 0x00A#12] →
      exec (.csrw n x) s = .next (gangAdvanced s g y 4)

/-- R165, R374, R375: taking a trap. A context that is not in handler mode, whose kernel has a handler, and whose fault is
neither device-level nor stopped for a kill: once the gang's issued words have completed, the record is written at the
trap slot, s62 holds the slot and s63 the save-area base, handler mode begins and the stream goes to the handler. `trap`
raises USER_TRAP with its immediate in INFO, and resumes behind itself. -/
def Obligations.TrapEntry : Prop :=
  ∀ (s : State) (a : Issuer) (c : ScalarCtx), Issues s a c →
    (∀ n : BitVec 12, Traps s a →
      exec (.trap n) s = .next (s.takeTrap a { code := .userTrap, info := n.setWidth 32 }
        { faddr := c.pc, sres := c.pc + 4, lane := none })) ∧
    ∀ (t : Trap) (p : TrapPoint) (u v : State) (k : Kernel), s.demandStop a t = none → c.mode = none →
      u = (match a with
        | .gang g => (s.finishLanes g).unqueue g
        | .pilot _ => s) →
      u.sctx a = some c → u.kernel a = some k → t.deviceLevel = false → k.handlerOf a ≠ 0xFFFFFFFF →
      u.ctxStore (u.who a) c.trapslot (recordBytes t p (u.cyc (dieOf a.cluster)) c.s[62] c.s[63]) = .ok v →
      (s.takeTrap a t p).sctx a = some { c with
        pc := k.image + BitVec.ofNat 64 (k.textOff + k.handlerOf a), mode := some .trap, wait := .none,
        s := (c.s.set 62 c.trapslot).set 63 (v.saveBase a) } ∧
      (s.takeTrap a t p).mem = v.mem

/-- R374: the words of a trap record: code, cause, lane bits and INFO; the address of the fault, the scalar resume
address, the lane resume index with the low half of `cyc`, NMASK with the stamp, the virtual address, s62 and s63. -/
def Obligations.TrapRecord : Prop :=
  ∀ (t : Trap) (p : TrapPoint) (cyc s62 s63 : W64), let bs := recordBytes t p cyc s62 s63
    bs.length = 64 ∧ word64 (bs.drop 8) = p.faddr ∧ word64 (bs.drop 16) = p.sres ∧ word64 (bs.drop 40) = t.va ∧
    word64 (bs.drop 48) = s62 ∧ word64 (bs.drop 56) = s63 ∧
    word64 bs = t.info ++ (BitVec.ofNat 32 (t.code.num + (match t.cause with
      | some c => 256 * c.num
      | none => 0) + match p.lane with
      | some (l, _) => 2 ^ 12 + 2 ^ 13 * l.val
      | none => 0)) ∧
    word64 (bs.drop 32) = t.stamp ++ t.nmask ∧
    (word64 (bs.drop 24)).setWidth 32 = BitVec.ofNat 32 (match p.lane with
      | some (_, l) => l % 2 ^ 30
      | none => 0) ∧
    ((word64 (bs.drop 24)) >>> 32).setWidth 32 = cyc.setWidth 32

/-- R166, R377, R382: `eret` in handler mode takes SRES, s62 and s63 from the record and ends handler mode, when no
access of a lane word is to be repeated: the record is of a scalar instruction, or of a lane word whose access is marked
done or was performed in every lane, and then the word's slot goes on at LRES with its mask. Outside handler mode it raises
TRAP_STATE, and at the end of a save routine it parks the gang. `spchk` goes on while no pre-emption of its crew is
pending. -/
def Obligations.TrapReturn : Prop :=
  ∀ (s : State) (a : Issuer) (c : ScalarCtx), Issues s a c →
    (c.mode = none → Traps s a → exec .eret s = .next (trapped s a c { code := .trapState })) ∧
    (∀ r bs, c.mode = some r → (∀ n, r ≠ .save n) → s.ctxLoad (s.who a) c.trapslot 64 = .ok bs →
      (∀ g, a = .gang g → (word64 bs).getLsbD 12 = false) →
      ∃ t, exec .eret s = .next t ∧ t.sctx a = some { c with
        pc := word64 (bs.drop 16), wait := .none, mode := none,
        s := (c.s.set 62 (word64 (bs.drop 48))).set 63 (word64 (bs.drop 56)) } ∧ SameMemory s t) ∧
    (∀ r bs g y, c.mode = some r → (∀ n, r ≠ .save n) → a = .gang g → s.gang? g = some y →
      s.ctxLoad (s.who a) c.trapslot 64 = .ok bs → (word64 bs).getLsbD 12 = true →
      ((word64 bs).getLsbD 15 = true ∨ word32 (bs.drop 32) = 0) →
      let slot : Fin 2 := if (word64 bs).getLsbD 13 then 1 else 0
      let lres := (word64 (bs.drop 24)).toNat % 2 ^ 30
      ∃ t z, exec .eret s = .next t ∧ t.gang? g = some z ∧ z.sc = { c with
        pc := word64 (bs.drop 16), wait := .none, mode := none,
        s := (c.s.set 62 (word64 (bs.drop 48))).set 63 (word64 (bs.drop 56)) } ∧
        z.lpc = y.lpc.set slot { y.lpc[slot] with index := if y.lpc[slot].live then lres else y.lpc[slot].index } ∧
        SameMemory s t) ∧
    (∀ g y n w, a = .gang g → s.gang? g = some y → c.mode = some (.save n) → s.storesOut a = false →
      s.crew? y.crew = some w →
      let parked : State := s.setGang g { y with parked := some n, sc := { c with mode := none, wait := .none } }
      (w.preempt ≠ none → (∃ h ∈ w.live, h ≠ g ∧ ∀ z, s.gang? h = some z → z.parked = none) →
        exec .eret s = .next parked) ∧
      (w.preempt ≠ none → exec .eret s = .next (parked.lastPark y.crew)) ∧
      (w.preempt = none → exec .eret s = .next (parked.restoreInPlace g))) ∧
    ∀ g n k, a = .gang g → s.kernel a = some k →
      (c.mode.isSome = true ∨ ∀ key w, s.issuerCrew a = some (key, w) → w.preempt = none) →
      exec (.spchk n) s = .next (advanced s a c 4)

/-- R231 to R244: an MMA of a pilot, in every format, with row and column fetch, sparsity and gather: when no check of
R243 fails and the engine of the selected crew's core holds fewer than four MMAs, the job joins the engine's queue, the
FULL berths that it names become DRAINING, and the pilot goes on. -/
def Obligations.MmaIssue : Prop :=
  ∀ (s : State) (cl : Nat) (c : ScalarCtx) (f : MmaFmt) (m : MmaMod) (d x y : SReg) (t : AccSel) (k : Nat) (w : Crew)
    (ra rb ri : BerthRef), Issues s (.pilot cl) c → Accepted s (.pilot cl) (mmaFeatures f m) →
    Selects s (.pilot cl) t k w → (s.core (coreOf k)).mmaCount < 4 →
    let va := c.s[x.val]
    let vb := c.s[y.val]
    let vi := c.s[d.val]
    let idx := if m.g then s.indexVector (opRef ri vi) else []
    let rows := if m.g then topIndex idx + 1 else 64
    let n := if m.p then 2 * f.k else f.k
    ((m.ta = true ∨ m.tb = true) → f.columns = true) → ¬(m.g = true ∧ (m.ta = true ∨ m.p = true)) →
    ¬(m.p = true ∧ m.ta = true) →
    CleanReference f.scaled va → CleanReference f.scaled vb →
    MmaOperand s cl va ra (if m.p then 8192 else 64 * rows) → MmaOperand s cl vb rb (if m.p then 8192 else 4096) →
    ScalesFit f.scaled va ra (2 * (f.k / 32) * rows) → ScalesFit f.scaled vb rb (128 * (n / 32)) →
    (m.g = true → CleanReference false vi ∧ MmaOperand s cl vi ri 128 ∧ s.operandPoisoned (opRef ri vi) 2 0 = false) →
    let ix := if m.g then some (opRef ri vi) else none
    let u := (s.drainBerth (opRef ra va)).drainBerth (opRef rb vb)
    let v := if m.g then u.drainBerth (opRef ri vi) else u
    exec (mmaInstr f m d x y t) s =
      .next (advanced (enqueued v (coreOf k) (.mma f m (opRef ra va) (opRef rb vb) ix idx k t.tile.val cl)) (.pilot cl) c 8)

/-- R247, R250 to R256: the `acc.*` instructions on a tile that the selector names, whose rows lie in the tile: the
contribution goes to the back of the port of the tile's core, and the stream waits; when it has been applied, the stream
goes on, `acc.hdr` with the header word in sd. That `acc.ld` and `acc.add` take the bytes of their berth when they issue
is the model's choice (log 68). -/
def Obligations.AccumulatorIssue : Prop :=
  ∀ (s : State) (a : Issuer) (c : ScalarCtx) (x y d : SReg) (t : AccSel) (row n : Fin 64), Issues s a c →
    (∀ k w, Unbegun c → Selects s a t k w → s.mmaAhead a k t.tile.val = false →
      let core := coreOf k
      let tile := t.tile.val
      let v := c.s[x.val]
      (row.val + n.val + 1 ≤ 64 →
        exec (.accClr t row n) s = .next (contributed s a core (.clr k tile row.val (n.val + 1) a)) ∧
        (-512 ≤ v.toInt → v.toInt ≤ 511 →
          exec (.accRenorm t row n x) s = .next (contributed s a core (.renorm v.toInt k tile row.val (n.val + 1) a))) ∧
        (-1023 ≤ v.toInt → v.toInt ≤ 1023 →
          exec (.accScale t row n x) s = .next (contributed s a core (.scale v.toInt k tile row.val (n.val + 1) a))) ∧
        ∀ r, s.handle a.cluster (v.toNat % 2 ^ 16) = some r → s.holdsBerth a r.entry = true →
          let room := 64 * r.entry.size - 64 * (v.toNat / 2 ^ 16 % 2 ^ 14)
          let here := r.core * 2 ^ 20 + 64 * (r.entry.base + v.toNat / 2 ^ 16 % 2 ^ 14)
          let owner := s.ownerOf (opRef r v)
          (CleanReference false v → r.entry.state = .full ∨ r.entry.state = .draining →
            64 * (v.toNat / 2 ^ 16 % 2 ^ 14) ≤ 64 * r.entry.size →
            (388 * (n.val + 1) ≤ room → (∀ i, 388 * (i + 1) ≤ room → i ≤ n.val → badImage (s.rawRow (opRef r v) i) = false) →
              s.spoisoned here (388 * (n.val + 1)) = false →
              exec (.accLd t row n x) s = .next (contributed s a core
                (.ld ((List.range (n.val + 1)).map fun i => (row.val + i, s.rawRow (opRef r v) i)) k tile a owner))) ∧
            (256 * (n.val + 1) ≤ room → s.spoisoned here (256 * (n.val + 1)) = false →
              exec (.accAdd t row n x) s = .next (contributed s a core (.batches ((List.range (n.val + 1)).map fun i =>
                addBatch (row.val + i) (s.storedRow r.core (r.entry.base + v.toNat / 2 ^ 16 % 2 ^ 14) i 4))
                k tile a (.add owner))))) ∧
          (r.entry.state = .filling → 64 * (v.toNat / 2 ^ 16 % 2 ^ 14) ≤ 64 * r.entry.size →
            ∀ f rm sat, CleanReference (bxBits f != 0) v →
              (if f = .raw then 388 * (n.val + 1) else 64 * accLines f * (n.val + 1)) ≤ room →
              ScalesFit (bxBits f != 0) v r (4 * (n.val + 1)) →
              exec (.accSt f rm sat t row n x y) s = .next (contributed s a core
                (.st f rm sat c.s[y.val] (opRef r v) k tile row.val (n.val + 1) a)))) ∧
      (Writable s a d → ∀ q,
        exec (.accHdr q d t row) s = .next (contributed s a core (.hdr q k tile row.val a)))) ∧
    ∀ v, c.wait = .accDone v →
      exec (.accClr t row n) s = .next (advanced s a c 8) ∧ exec (.accLd t row n x) s = .next (advanced s a c 8) ∧
      (∀ f rm sat, exec (.accSt f rm sat t row n x y) s = .next (advanced s a c 8)) ∧
      exec (.accAdd t row n x) s = .next (advanced s a c 8) ∧ exec (.accRenorm t row n x) s = .next (advanced s a c 8) ∧
      exec (.accScale t row n x) s = .next (advanced s a c 8) ∧
      (Writable s a d → ∀ q, exec (.accHdr q d t row) s = .next (wrote s a c 8 d v))

/-- R246, R247: the accumulator port of a core applies the contribution that arrived first, unless it is the place of a
push whose word is incomplete (R78), and the engine of a core performs the MMA or the table write at the head of its queue
(R231, R258), while the cluster's island is not gated. Poison that they read is reported (R296), and the work goes on,
which is the model's choice (log 37). R251, R252, R255, R256: what a contribution makes of a tile: cleared rows, rows from
raw images, renormalised and scaled rows, and the header word that `acc.hdr` answers; `acc.st` writes its rows and leaves
the tile. -/
def Obligations.AccumulatorPort : Prop :=
  ∀ (s : State) (core : Nat), s.gated (clusterOf core) = false →
    (∀ j rest, (s.core core).port = j :: rest → (∀ g v x k t, j ≠ .hole g v x k t) →
      exec (.accBatchApply core) s =
        .next (((s.setCore core { s.core core with port := rest }).tileEcc j).applyJob j)) ∧
    (∀ g v x k t rest, (s.core core).port = .hole g v x k t :: rest → exec (.accBatchApply core) s = .next s) ∧
    (∀ f m a b ix idx k tile cl rest, (s.core core).engine = .mma f m a b ix idx k tile cl :: rest →
      (m.g = true → idx.length = 64) →
      let lut := (s.core core).lut
      let n := if m.p then 2 * f.k else f.k
      let left := s.operandA f m lut a idx
      let right := s.operand f lut b n m.tb
      let bs := ((List.range 64).zip left).map fun x => mmaBatch m.hd x.1 x.2 right
      let rows := if m.g then topIndex idx + 1 else if m.p then 128 else 64
      let scales (n : Nat) : Nat := if f.scaled then 2 * (n / 32) * 64 else 0
      let ecc := s.operandPoisoned a rows (scales f.k) || s.operandPoisoned b (if m.p then 128 else 64) (scales n)
      let owners := s.ownerOf a ++ s.ownerOf b ++ match ix with
        | some o => s.ownerOf o
        | none => []
      bs.length = 64 ∧ exec (.mmaExecute core) s = .next ((s.setCore core { s.core core with
        engine := rest, port := (s.core core).port ++ [.batches bs k tile (.pilot cl) (.mma owners)] }).crewEcc k ecc)) ∧
    (∀ (k tile : Nat) (y : Crew) (t : Tile) (i : Issuer) (c : ScalarCtx), s.crew? k = some y → y.tiles[tile]? = some t →
      s.sctx i = some c → c.wait = .acc →
      let goes (j : AccJob) (v : W64) (f : Tile → Prop) : Prop := ∃ u, (s.applyJob j).crew? k = some u ∧
        ((s.applyJob j).sctx i).map (·.wait) = some (.accDone v) ∧ f (u.tiles.getD tile Tile.new) ∧
        ∀ n, n ≠ tile → u.tiles[n]? = y.tiles[n]?
      let still (f : Tile) (row n : Nat) : Prop := ∀ j, (j < row ∨ row + n ≤ j) → f.row j = t.row j
      ∀ row n, row + n ≤ 64 → 0 < n →
        goes (.clr k tile row n i) 0 (fun z => still z row n ∧ (∀ j, row ≤ j → j < row + n → z.row j = AccRow.cleared) ∧
          (if n = 64 then z.events = 0 ∧ z.drops = 0 else z.events = t.events ∧ z.drops = t.drops)) ∧
        (∀ (g : Nat → List Byte) (owner : List Nat),
          goes (.ld ((List.range n).map fun j => (row + j, g j)) k tile i owner) 0 (fun z => still z row n ∧
            z.events = t.events ∧ z.drops = t.drops ∧ ∀ j, j < n → z.row (row + j) = rowOfImage (g j))) ∧
        (∀ e : Int, goes (.renorm e k tile row n i) 0 (fun z => still z row n ∧ z.drops = t.drops ∧
          z.events = satAdd t.events ((List.range n).countP fun j =>
            !(t.row (row + j)).empty && decide ((t.row (row + j)).exp < e)) ∧
          ∀ j, j < n → let r := t.row (row + j)
            z.row (row + j) = if r.empty = false ∧ r.exp < e then r.renorm (e - r.exp).toNat else r)) ∧
        (∀ e : Int, (∀ j, j < n → (t.row (row + j)).empty = false →
            -512 ≤ (t.row (row + j)).exp + e ∧ (t.row (row + j)).exp + e ≤ 511) →
          goes (.scale e k tile row n i) 0 (fun z => still z row n ∧ z.events = t.events ∧ z.drops = t.drops ∧
            ∀ j, j < n → let r := t.row (row + j)
              z.row (row + j) = if r.empty then r else { r with exp := r.exp + e })) ∧
        (∀ (e : Int) (j : Nat), j < n → (t.row (row + j)).empty = false →
          ((t.row (row + j)).exp + e < -512 ∨ 511 < (t.row (row + j)).exp + e) →
          s.applyJob (.scale e k tile row n i) = s.setWait i (.answerErr { code := .range })) ∧
        (∀ w, s.applyJob (.hdr w k tile row i) = s.setWait i (.accDone
          (BitVec.ofNat 64 ((if w then t.drops else t.events).toNat * 2 ^ 32 + (t.row row).header)))) ∧
        (∀ r : AccRow, r.header = (r.exp % 1024).toNat * 2 ^ 22 + r.head * 2 ^ 16 + if r.empty then 2 ^ 15 else 0) ∧
        ∀ f rm sat seed o, s.applyJob (.st f rm sat seed o k tile row n i) =
          ((List.range n).foldl (fun u j => u.storeRow f rm sat seed o j (row + j) (t.row (row + j))) s).setWait i (.accDone 0)) ∧
    ∀ (q : Fin 4) v rest, (s.core core).engine = .ctab q v :: rest →
      ∃ lut : Vector (BitVec 16) 16,
        exec (.ctabApply core) s = .next (s.setCore core { s.core core with engine := rest, lut := lut }) ∧
        ∀ i : Fin 16, lut[i] = if i.val / 4 = q.val then BitVec.ofNat 16 (v.toNat / 2 ^ (16 * (i.val % 4)))
          else (s.core core).lut[i]

/-- R123 to R126, R245, R246, R252, R253: the arithmetic of the accumulators. An MMA's batch sums the products of the
factors of each element, exact and scaled as its transform says, and drops those with a NaN or an infinity. Each is aligned
to the row's exponent; a row without contributions takes min(max(L - 39, -512), 511) for the greatest product below 2^L; a
row is renormalised by the least shift under which it takes the batch, with ties to even and one event, and the batch is
dropped, and counted, where the exponent would pass 511. A row's headroom is current, a raw image is read as it stands but
for its headroom, and an output is the exact value rounded once, or quantised by blocks. -/
def Obligations.AccumulatorBatch : Prop :=
  (∀ (hd : Hadamard) (row : Nat) (a : List (Option (Int × Int) × Nat)) (m : List (List (Option (Int × Int)))),
    let b := mmaBatch hd row a m
    let down : Int := match hd with
      | .none => 0
      | .hd16 => 4
      | .hd32 => 5
    let term (e : Int) (j : Nat) (x : Option (Int × Int) × Nat) : Int := match x.1, (m.getD j []).getD x.2 none with
      | some p, some q => alignTo (p.1 * q.1) (p.2 + q.2 - down) e
      | _, _ => 0
    let lost (j : Nat) (x : Option (Int × Int) × Nat) : Bool := x.1.isNone || ((m.getD j []).getD x.2 none).isNone
    b.row = row ∧ (∀ e j, j < 64 → (b.sums e).getD j 0 = (a.map (term e j)).sum) ∧ b.count + b.drops = 64 * a.length ∧
    b.drops = ((List.range 64).map fun j => a.countP (lost j)).sum ∧ ∀ p ∈ b.products, p.sig ≠ 0) ∧
  (∀ (f : MmaFmt) (lut : Vector (BitVec 16) 16) (e0 e1 x : Nat),
    let value : Ex := match f with
      | .bf16 => Fmt.bf16.value x
      | .f16 => Fmt.f16.value x
      | .e4m3 => Fmt.e4m3.value x
      | .e5m2 => Fmt.e5m2.value x
      | .bx8 => bxValue 6 e0 e1 x
      | .bx6 => bxValue 4 e0 e1 x
      | .bx4 => bxValue 2 e0 e1 x
      | .lut4 => Fmt.bf16.value (lut[x % 16]'(Nat.mod_lt _ (by decide))).toNat
      | .i8 => Ex.ofInt (BitVec.ofNat 8 x).toInt
    match factor f lut e0 e1 x with
    | some (m, e) => (dyadic (decide (m < 0)) m.natAbs e).cmp value = some .eq
    | none => value = .nan ∨ ∃ n, value = .inf n) ∧
  (∀ sig f e : Int,
    (e - f ≤ 0 → alignTo sig f e = sig * 2 ^ (f - e).toNat) ∧
    (1 ≤ e - f → e - f ≤ 47 → alignTo sig f e * 2 ^ (e - f).toNat ≤ sig ∧ sig < (alignTo sig f e + 1) * 2 ^ (e - f).toNat) ∧
    (48 ≤ e - f → alignTo sig f e = 0)) ∧
  (∀ (m : Int) (k : Nat), 2 * (m - roundShift m k * 2 ^ k).natAbs ≤ 2 ^ k ∧
    (2 * (m - roundShift m k * 2 ^ k).natAbs = 2 ^ k → k ≠ 0 → roundShift m k % 2 = 0)) ∧
  (∀ m : Int, -(2 ^ 47) ≤ m → m < 2 ^ 47 → let h := headroom m
    h ≤ 47 ∧ -(2 ^ (47 - h)) ≤ m ∧ m < 2 ^ (47 - h) ∧ (h < 47 → m < -(2 ^ (46 - h)) ∨ 2 ^ (46 - h) ≤ m)) ∧
  (∀ b : Batch, b.products ≠ [] → ∃ l : Int, (∀ p ∈ b.products, p.exp + bitLength p.sig.natAbs ≤ l) ∧
    (∃ p ∈ b.products, p.exp + bitLength p.sig.natAbs = l) ∧ b.firstExp = min (max (l - 39) (-512)) 511) ∧
  (∀ (t : Tile) (b : Batch), b.row < 64 →
    let r := t.row b.row
    let e := if r.empty then b.firstExp else r.exp
    let sum (k : Nat) (j : Nat) : Int := roundShift (r.mant j) k + (b.sums (e + k)).getD j 0
    let fits (k : Nat) : Prop := ∀ j, j < 64 → -(2 ^ 47) ≤ sum k j ∧ sum k j < 2 ^ 47
    (r.empty = true → r.m = []) → -512 ≤ e →
    (r.empty = true → b.products = [] → t.apply b = { t with drops := satAdd t.drops b.drops }) ∧
    ∀ k : Nat, (r.empty = false ∨ b.products ≠ []) → fits k → (∀ i, i < k → ¬fits i) →
      (511 < e + k → t.apply b = { t with drops := satAdd (satAdd t.drops b.drops) b.count }) ∧
      (e + k ≤ 511 → let z := (t.apply b).row b.row
        z.exp = e + k ∧ z.empty = false ∧ (∀ j, j < 64 → z.mant j = sum k j) ∧
        (∀ j, j < 64 → z.head ≤ headroom (sum k j)) ∧ (∃ j, j < 64 ∧ z.head = headroom (sum k j)) ∧
        (t.apply b).events = (if k = 0 then t.events else satAdd t.events 1) ∧
        (t.apply b).drops = satAdd t.drops b.drops ∧ ∀ i, i ≠ b.row → (t.apply b).row i = t.row i)) ∧
  (∀ (r : AccRow) (k : Nat), 0 < k → (r.renorm k).exp = r.exp + k ∧ (r.renorm k).empty = false ∧
    ∀ j, j < 64 → (r.renorm k).mant j = roundShift (r.mant j) k) ∧
  (∀ bs : List Byte, let h := leNat (bs.take 4)
    (h.testBit 15 = true → rowOfImage bs = { exp := 0, head := 47, empty := true, m := [] }) ∧
    (h.testBit 15 = false → (rowOfImage bs).exp = (BitVec.ofNat 10 (h / 2 ^ 22)).toInt ∧ (rowOfImage bs).empty = false ∧
      ∀ j, j < 64 → (rowOfImage bs).mant j = (BitVec.ofNat 48 (leNat ((bs.drop (4 + 6 * j)).take 6))).toInt)) ∧
  ∀ (r : AccRow) (f : AccFmt) (rm : RmSr) (sat : Bool) (seed : W64) (row j : Nat), j < 64 →
    let out := r.output f rm sat seed row
    let w := bxBits f + 2
    (∃ n, r.value j = dyadic n (r.mant j).natAbs (if r.mant j = 0 then 0 else r.exp) ∧ (n = true ↔ r.mant j < 0)) ∧
    (∀ p, accFloat f = some p → leNat ((out.1.drop (p.width / 8 * j)).take (p.width / 8)) =
      p.round (accMode rm seed row j) sat (r.value j)) ∧
    (f ≠ .raw → accFloat f = none →
      let e := bxExps (bxBits f) ((List.range 32).map fun i => r.value (32 * (j / 32) + i))
      out.1.length = 64 ∧ leNat out.1 / 2 ^ (w * j) % 2 ^ w =
        bxElem (bxBits f) (accMode rm seed row j) false e.1 e.2 (r.value j) ∧
      leNat ((out.2.drop (2 * (j / 32))).take 1) = e.1 ∧ leNat ((out.2.drop (2 * (j / 32) + 1)).take 1) = e.2)

/-- R148, R257 to R260: the pilot's `mwt` and `mfence` once its MMAs have completed, `mbx.take` of the oldest entry of its
grid's mailbox, `rq.send` of 128 bytes to a request queue with room, a table write by `ctab.w`, and `fbar` with the rank
that the barrier has answered. -/
def Obligations.PilotCommands : Prop :=
  (∀ (s : State) (cl : Nat) (c : ScalarCtx) (d x : SReg), Issues s (.pilot cl) c →
    let a := Issuer.pilot cl
    let u := s.cluster cl
    let va := c.s[x.val]
    (∀ n : Fin 64, s.pilotMmas cl ≤ n.val → exec (.mwt n) s = .next (advanced s a c 8)) ∧
    (s.pilotMmas cl = 0 → ∀ sc, exec (.mfence sc) s = .next (advanced s a c 8)) ∧
    (∀ e t, va.toNat % 128 = 0 → (u.mailbox.find? fun e => some e.grid == s.issuerGrid a) = some e → e.hole = none →
      s.plainStore (s.who a) va (vecBytes e.vals) = .ok t →
      exec (.mbxTake d x) s = .next (wrote (t.setCluster cl { u with mailbox := u.mailbox.erase e }) a c 8 d
        (BitVec.ofNat 64 (e.core % 4 * 2 ^ 37 + e.gslot % 32 * 2 ^ 32 + e.mask.toNat)))) ∧
    ∀ (q : Fin 32) bs t g, Unbegun c → va.toNat % 128 = 0 → (u.rq.getD q.val []).length < 8 →
      s.issuerGrid a = some g → s.plainLoad (s.who a) va 128 = .ok (bs, t) →
      exec (.rqSend q x) s = .next (advanced (t.setCluster cl { u with rq := u.rq.set q.val (u.rq.getD q.val [] ++
        [{ grid := g, vals := vecOf bs, mask := BitVec.allOnes 32, core := 0, gslot := 0,
           hole := none }]) }) a c 8)) ∧
  (∀ (s : State) (a : Issuer) (c : ScalarCtx) (core q : Fin 4) (x : SReg), Issues s a c → Accepted s a [.lut4] →
    let k := 4 * a.cluster + core.val
    (∀ g, a = .gang g → k = coreOf g) → s.corePresent k = true →
    exec (.ctabW core q x) s = .next (advanced (enqueued s k (.ctab q c.s[x.val])) a c 8)) ∧
  ∀ (s : State) (g : Nat) (c : ScalarCtx) (d x : SReg) (r : W64), Issues s (.gang g) c → Accepted s (.gang g) [.fabric] →
    c.wait = .fbarDone r → r ≠ 0xFFFFFFFFFFFFFFFF → c.s[x.val].toNat % 64 = 0 → Writable s (.gang g) d →
    exec (.fbar d x) s = .next (wrote s (.gang g) c 4 d r)

/-! ## Lane words (chapters 06 to 09) -/

/-- R173, R174: lane integer arithmetic and counts of bits. Without SAT the result is taken modulo 2^w; with SAT it is clamped
to the type. -/
def Obligations.LaneArithmetic : Prop :=
  ∀ (h : LaneHdr) (ty : IntTy) (d a : Opd) (b e : Src),
    let w := IntTy.is64 ty
    let clamped (x : Int) : W64 := BitVec.ofInt 64 (clampTo (leastOf ty) (greatestOf ty) x)
    Computes (.iadd h ty false d a b) (fun c => c.putW w d fun n => c.bits ty (.reg a) n + c.bits ty b n) ∧
    Computes (.isub h ty false d a b) (fun c => c.putW w d fun n => c.bits ty (.reg a) n - c.bits ty b n) ∧
    Computes (.imul h ty false d a b) (fun c => c.putW w d fun n => c.bits ty (.reg a) n * c.bits ty b n) ∧
    Computes (.imad h ty false d a b e)
      (fun c => c.putW w d fun n => c.bits ty (.reg a) n * c.bits ty b n + c.bits ty e n) ∧
    Computes (.iadd h ty true d a b) (fun c => c.putW w d fun n => clamped (c.int ty (.reg a) n + c.int ty b n)) ∧
    Computes (.isub h ty true d a b) (fun c => c.putW w d fun n => clamped (c.int ty (.reg a) n - c.int ty b n)) ∧
    Computes (.imul h ty true d a b) (fun c => c.putW w d fun n => clamped (c.int ty (.reg a) n * c.int ty b n)) ∧
    Computes (.imad h ty true d a b e)
      (fun c => c.putW w d fun n => clamped (c.int ty (.reg a) n * c.int ty b n + c.int ty e n)) ∧
    Computes (.imulh h true d a b) (fun c => c.put d fun n =>
      BitVec.ofNat 32 ((c.opd a n).toNat * (c.src b n).toNat / 2 ^ 32)) ∧
    Computes (.imulh h false d a b) (fun c => c.put d fun n =>
      BitVec.ofInt 32 ((c.opd a n).toInt * (c.src b n).toInt / 2 ^ 32)) ∧
    (∀ as bs sat,
      let part (signed : Bool) (x : W32) (j : Nat) : Int :=
        if signed then (x.extractLsb' (8 * j) 8).toInt else (x.extractLsb' (8 * j) 8).toNat
      Computes (.idp4 h as bs sat d a b e) (fun c => c.put d fun n =>
        let x := (c.src e n).toInt + part as (c.opd a n) 0 * part bs (c.src b n) 0
          + part as (c.opd a n) 1 * part bs (c.src b n) 1 + part as (c.opd a n) 2 * part bs (c.src b n) 2
          + part as (c.opd a n) 3 * part bs (c.src b n) 3
        BitVec.ofInt 32 (if sat then clampTo (-2147483648) 2147483647 x else x))) ∧
    Computes (.iabs h false false d a) (fun c => c.put d fun n => BitVec.ofNat 32 (c.opd a n).toInt.natAbs) ∧
    Computes (.iabs h true false d a) (fun c => c.put64 d fun n => BitVec.ofNat 64 (c.opd64 a n).toInt.natAbs) ∧
    Computes (.iabs h false true d a) (fun c => c.put d fun n =>
      BitVec.ofNat 32 (min 2147483647 (c.opd a n).toInt.natAbs)) ∧
    Computes (.iabs h true true d a) (fun c => c.put64 d fun n =>
      BitVec.ofNat 64 (min 9223372036854775807 (c.opd64 a n).toInt.natAbs)) ∧
    Computes (.imin h ty d a b) (fun c => c.putW w d fun n =>
      if c.int ty (.reg a) n ≤ c.int ty b n then c.bits ty (.reg a) n else c.bits ty b n) ∧
    Computes (.imax h ty d a b) (fun c => c.putW w d fun n =>
      if c.int ty b n ≤ c.int ty (.reg a) n then c.bits ty (.reg a) n else c.bits ty b n) ∧
    Computes (.popc h d a) (fun c => c.put d fun n =>
      BitVec.ofNat 32 ((List.range 32).countP fun i => (c.opd a n).getLsbD i)) ∧
    (∃ f : LaneCtx → Fin 32 → Nat, Computes (.clz h d a) (fun c => c.put d fun n => BitVec.ofNat 32 (f c n)) ∧
      ∀ c n, f c n ≤ 32 ∧ (c.opd a n).toNat < 2 ^ (32 - f c n) ∧ (f c n < 32 → 2 ^ (31 - f c n) ≤ (c.opd a n).toNat)) ∧
    (∃ f : LaneCtx → Fin 32 → W32, Computes (.brev h d a) (fun c => c.put d (f c)) ∧
      ∀ c n i, i < 32 → (f c n).getLsbD i = (c.opd a n).getLsbD (31 - i))

/-- R175, R176: comparisons, selection, logic, shifts and bit fields of lanes: shifts take their whole count, a count of
the width or more leaving zeros, or the sign for `isra`. -/
def Obligations.LaneBits : Prop :=
  ∀ (h : LaneHdr) (ty : IntTy) (d a b' : Opd) (a' b e : Src) (p q : PReg) (tt : BitVec 8),
    let w := IntTy.is64 ty
    let shift (f : (k : Nat) → BitVec k → BitVec k) (x : W64) : W64 :=
      if w then f 64 x else (f 32 (x.setWidth 32)).setWidth 64
    (∀ cc, Computes (.icmp h ty cc p a b) (fun c => c.putP p fun n =>
      let x := c.int ty (.reg a) n
      let y := c.int ty b n
      match cc with
      | .eq => decide (x = y)
      | .ne => decide (x ≠ y)
      | .lt => decide (x < y)
      | .le => decide (x ≤ y)
      | .gt => decide (y < x)
      | .ge => decide (y ≤ x)
      | .tst => c.bits ty (.reg a) n &&& c.bits ty b n != 0)) ∧
    Computes (.isel h ty d a' b q) (fun c => c.putW w d fun n => if c.pred q n then c.bits ty a' n else c.bits ty b n) ∧
    (∃ f : LaneCtx → Fin 32 → W32, Computes (.bool3 h tt d a' b e) (fun c => c.put d (f c)) ∧
      ∀ c n i, i < 32 → (f c n).getLsbD i = tt.getLsbD (((c.src a' n).getLsbD i).toNat
        + 2 * ((c.src b n).getLsbD i).toNat + 4 * ((c.src e n).getLsbD i).toNat)) ∧
    Computes (.ishl h ty d a b) (fun c => c.putW w d fun n =>
      shift (fun _ x => x <<< (c.src b n).toNat) (c.bits ty (.reg a) n)) ∧
    Computes (.ishr h ty d a b) (fun c => c.putW w d fun n =>
      shift (fun _ x => x >>> (c.src b n).toNat) (c.bits ty (.reg a) n)) ∧
    Computes (.isra h ty d a b) (fun c => c.putW w d fun n =>
      shift (fun _ x => x.sshiftRight (c.src b n).toNat) (c.bits ty (.reg a) n)) ∧
    Computes (.ishf h true d a b' e) (fun c => c.put d fun n =>
      let v : W64 := c.opd b' n ++ c.opd a n
      BitVec.ofNat 32 ((v <<< min (c.src e n).toNat 32).toNat / 2 ^ 32)) ∧
    Computes (.ishf h false d a b' e) (fun c => c.put d fun n =>
      let v : W64 := c.opd b' n ++ c.opd a n
      BitVec.ofNat 32 (v.toNat / 2 ^ min (c.src e n).toNat 32)) ∧
    (∃ f : Bool → LaneCtx → Fin 32 → W32, (∀ u, Computes (.bfe h u d a b) (fun c => c.put d (f u c))) ∧
      ∀ u c n i, i < 32 →
        let pos := (c.src b n).toNat % 256
        let len := min ((c.src b n).toNat / 256 % 256) 32
        let bit (j : Nat) : Bool := if j < 32 then (c.opd a n).getLsbD j else !u && (c.opd a n).getLsbD 31
        (f u c n).getLsbD i = if i < len then bit (pos + i) else !u && decide (len ≠ 0) && bit (pos + len - 1)) ∧
    ∃ f : LaneCtx → Fin 32 → W32, Computes (.bfi h d a b' e) (fun c => c.put d (f c)) ∧
      ∀ c n i, i < 32 →
        let pos := (c.src e n).toNat % 256
        let len := min ((c.src e n).toNat / 256 % 256) 32
        (f c n).getLsbD i = if pos ≤ i ∧ i < pos + len then (c.opd a n).getLsbD (i - pos) else (c.opd b' n).getLsbD i

/-- R177 to R182: floating words element by element: the exact result of the operands, negated as the modifier says,
rounded once; an exact zero takes the sign of R178; the comparisons of R180 are false of NaNs but for `nan`, and the
class of R181 is one of nine. -/
def Obligations.LaneFloat : Prop :=
  ∀ (h : LaneHdr) (pg : Page) (m : FMod) (d a b' e' : Opd) (b e : Src) (p : PReg),
    let rnd (x : Ex) : Nat := (Page.fmt pg).round (Rm.mode m.rm) m.sat x
    let down := m.rm == .rd
    let A (c : LaneCtx) (n : Fin 32) (o : Nat) : Ex := c.elem pg m.na (.reg a) n o
    let B (c : LaneCtx) (n : Fin 32) (o : Nat) : Ex := c.elem pg m.nb b n o
    Computes (.fadd h pg m d a b) (fun c => c.put d fun n => Page.word pg fun o => rnd ((A c n o).add down (B c n o))) ∧
    Computes (.fmul h pg m d a b) (fun c => c.put d fun n => Page.word pg fun o => rnd ((A c n o).mul (B c n o))) ∧
    Computes (.ffma h pg m d a b e) (fun c => c.put d fun n => Page.word pg fun o =>
      rnd (((A c n o).mul (B c n o)).add down (c.elem pg m.nc e n o))) ∧
    Computes (.fmin h pg d a b) (fun c => c.put d fun n => Page.word pg fun o =>
      (Page.fmt pg).minmax false (Page.elem pg (c.opd a n) o) (Page.elem pg (c.src b n) o)) ∧
    Computes (.fmax h pg d a b) (fun c => c.put d fun n => Page.word pg fun o =>
      (Page.fmt pg).minmax true (Page.elem pg (c.opd a n) o) (Page.elem pg (c.src b n) o)) ∧
    (∀ cc hi, Computes (.fcmp h pg cc hi p a b) (fun c => c.putP p fun n =>
      let o := (c.elem pg false (.reg a) n (if hi then 16 else 0)).cmp (c.elem pg false b n (if hi then 16 else 0))
      match cc with
      | .eq => o == some .eq
      | .ne => o == some .lt || o == some .gt
      | .lt => o == some .lt
      | .le => o == some .lt || o == some .eq
      | .gt => o == some .gt
      | .ge => o == some .gt || o == some .eq
      | .num => o.isSome
      | .nan => o.isNone)) ∧
    (∃ f : LaneCtx → Fin 32 → Nat → Fin 9, Computes (.fclass h pg d a) (fun c => c.put d fun n =>
      BitVec.ofNat 32 (((Page.offsets pg).map fun o => 2 ^ ((f c n o).val + o)).sum)) ∧
      ∀ c n o, let x := (Page.fmt pg).value (Page.elem pg (c.opd a n) o)
        (f c n o = 8 ↔ x = .nan) ∧ (f c n o = 0 ↔ x = .inf true) ∧ (f c n o = 7 ↔ x = .inf false)) ∧
    (∀ rm sat, Computes (.fscale h rm sat d a b) (fun c => c.put d fun n =>
      BitVec.ofNat 32 (Fmt.f32.round (Rm.mode rm) sat
        ((f32v (c.opd a n)).shift (clampTo (-1000) 1000 (c.src b n).toInt))))) ∧
    ∀ bf, let q : Page := if bf then .bf16 else .f16
      Computes (.fdot2 h bf m d a b' e') (fun c => c.put d fun n =>
        let x (o : Nat) : Ex := (c.elem q m.na (.reg a) n o).mul (c.elem q m.nb (.reg b') n o)
        BitVec.ofNat 32 (Fmt.f32.round (Rm.mode m.rm) m.sat
          (((x 0).add down (x 16)).add down (Fmt.f32.value (Page.neg .f32 m.nc (c.opd e' n).toNat)))))

/-- R183: the special functions of one `f32` operand: each exact function rounded once to `f32`, to nearest even. The
special values are those of R183's table, with the exact zeros of `fsin` and `fcos`, their integer arguments, and the
overflow and underflow that R183 shows. A reciprocal is exact before its rounding, a square root is bracketed far below
any rounding boundary, powers of two and their logarithms are exact; what stands for the other values, which are
irrational, is log 11. Each form completes whenever it issues and the endpoint of a queue in D takes an entry. -/
def Obligations.LaneSpecial : Prop :=
  ∀ (h : LaneHdr) (d a : Opd),
    let of (f : Ex → Ex) (c : LaneCtx) : LaneOut := c.put d fun n => rne32 (f (f32v (c.opd a n)))
    Computes (.frcp h d a) (of rcpEx) ∧ Computes (.frsq h d a) (of rsqEx) ∧ Computes (.fsqrt h d a) (of sqrtV) ∧
    Computes (.fex2 h d a) (of ex2V) ∧ Computes (.flg2 h d a) (of lg2V) ∧ Computes (.fsin h d a) (of sinV) ∧
    Computes (.fcos h d a) (of cosV) ∧
    let val (f : Ex → Ex) (x : W32) : W32 := rne32 (f (f32v x))
    let inf : W32 := 0x7F800000
    let nan : W32 := 0x7FC00000
    let neg : W32 := 0x80000000
    let one : W32 := 0x3F800000
    let table : List ((Ex → Ex) × W32 × W32 × W32 × W32) :=
      [(rcpEx, inf, neg ||| inf, 0, neg), (rsqEx, inf, neg ||| inf, 0, nan), (sqrtV, 0, neg, inf, nan),
       (ex2V, one, one, inf, 0), (lg2V, neg ||| inf, neg ||| inf, inf, nan), (sinV, 0, neg, nan, nan),
       (cosV, one, one, nan, nan)]
    (∀ r ∈ table, val r.1 0 = r.2.1 ∧ val r.1 neg = r.2.2.1 ∧ val r.1 inf = r.2.2.2.1 ∧ val r.1 (neg ||| inf) = r.2.2.2.2 ∧
      ∀ x, f32v x = .nan → val r.1 x = nan) ∧
    (∀ x n k, f32v x = .fin true n k → n ≠ 0 → val rsqEx x = nan ∧ val sqrtV x = nan ∧ val lg2V x = nan) ∧
    (∀ x s n k, f32v x = .fin s n k →
      (2 * n % k = 0 → val sinV x = if s then neg else 0) ∧ (4 * n % (2 * k) = k → val cosV x = 0) ∧
      (n % k = 0 → val cosV x = one) ∧ (2 ^ 23 * k ≤ n → n % k = 0)) ∧
    val rcpEx 1 = inf ∧ val ex2V 0xC3200000 = 0 ∧
    (∀ s n k, n ≠ 0 → rcpEx (.fin s n k) = .fin s k n) ∧
    (∀ n k, n ≠ 0 → k ≠ 0 → ∃ p q, sqrtV (.fin false n k) = .fin false p q ∧ 2 ^ 100 ≤ q ∧
      (p - 1) ^ 2 * k ≤ n * q ^ 2 ∧ n * q ^ 2 < (p + 1) ^ 2 * k ∧ rsqEx (.fin false k n) = .fin false p q) ∧
    ∀ e : Int, -126 ≤ e → e ≤ 127 → rne32 (ex2V (Ex.ofInt e)) = BitVec.ofNat 32 ((e + 127).toNat * 2 ^ 23) ∧
      lg2V (dyadic false 1 e) = Ex.ofInt e

/-- R184 to R191: conversions, Hadamard transforms and the block formats. A `cvt` converts the element at its position by
R104, R105 or R108; a narrow result replaces its element and keeps the rest of a register. A `qpack` takes the exponents of
its block from the values of all 32 lanes, and writes byte k of its elements and the two scale bytes of lanes 2k and 2k + 1;
`qunpack` reads one element with its scale; `bxdot` sums four exact products and C and rounds once. Each form completes
whenever it issues and the endpoint of a queue in D takes an entry. -/
def Obligations.LaneConversions : Prop :=
  ∀ (h : LaneHdr) (d a b c' : Opd) (va vb vc vd : VReg) (k bsa bsb : Fin 4) (rm : Rm),
    (∀ m : CvtMod,
      let w := (CvtTy.elem m.dty).width
      let v := (CvtTy.elem m.sty).width
      let made (x : Nat) : Nat := convert (CvtTy.elem m.sty) (CvtTy.elem m.dty) (Rm.mode m.rm) m.sat m.p.val x
      let part (c : LaneCtx) (n : Fin 32) : Nat := (c.opd a n).toNat / 2 ^ (v * m.spos.val) % 2 ^ v
      let placed (f : LaneCtx → Fin 32 → Nat) (c : LaneCtx) : LaneOut :=
        c.put d fun n => placeBits (c.old d n) (w * m.dpos.val) w (f c n)
      (m.sty ≠ .fx64 → m.dty ≠ .fx64 → Computes (.cvt h m d a) (placed fun c n => made (part c n))) ∧
      (m.sty ≠ .fx64 → m.dty = .fx64 → Computes (.cvt h m d a) (fun c => c.put64 d fun n => BitVec.ofNat 64 (made (part c n)))) ∧
      (m.sty = .fx64 → m.dty ≠ .fx64 → Computes (.cvt h m d a) (placed fun c n => made (c.opd64 a n).toNat))) ∧
    (∀ (md : Mode) (sat : Bool) (pt x : Nat) (f g : Fmt) (t u : Bool) (v w : Nat),
      convert (.float f) (.float g) md sat pt x = g.round md sat (f.value x) ∧
      convert (.float f) (.int t w) md sat pt x = intBits w (toIntClamp md (intLo t w) (intHi t w) 0 (f.value x)) ∧
      (0 < v → x < 2 ^ v → let y : Int := if t then (BitVec.ofNat v x).toInt else x
        convert (.int t v) (.float g) md sat pt x = g.round md sat (Ex.ofInt y) ∧
        convert (.int t v) (.int u w) md sat pt x =
          intBits w (if sat then clampTo (intLo u w) (intHi u w) y else y)) ∧
      convert .fx (.float g) md sat pt x = g.round md sat ((Ex.ofInt (BitVec.ofNat 64 x).toInt).shift (-(pt : Int)))) ∧
    (∀ (md : Mode) (sat : Bool) (pt : Nat) (x : W32), let r := convert (.float .f32) .fx md sat pt x.toNat
      (f32v x = .nan → r = 0x8000000000000000) ∧ (f32v x = .inf true → r = 0x8000000000000000) ∧
      (f32v x = .inf false → r = 0x7FFFFFFFFFFFFFFF) ∧
      ∀ s n k, (f32v x).shift pt = .fin s n k → r = (BitVec.ofInt 64 (clampTo (-(2 ^ 63)) (2 ^ 63 - 1)
        (if s then -(md.int s n k : Int) else md.int s n k))).toNat) ∧
    (∀ (old : W32) (o w x i : Nat), i < 32 →
      (placeBits old o w x).getLsbD i = if o ≤ i ∧ i < o + w then x.testBit (i - o) else old.getLsbD i) ∧
    (∀ (c : LaneCtx) (r : VReg) (q : QReg) (n : Fin 32), c.old (.v r) n = c.opd (.v r) n ∧ c.old (.q q) n = 0 ∧
      c.old .zero n = 0) ∧
    (∀ m : CvtSrMod, Computes (.cvtSr h m d a b) (fun c => c.put d fun n =>
      placeBits (c.old d n) ((SrTy.fmt m.dty).width * m.dpos.val) (SrTy.fmt m.dty).width
        ((SrTy.fmt m.dty).round (.sr m.rbits.val ((c.opd b n).toNat % 2 ^ m.rbits.val)) m.sat (f32v (c.opd a n))))) ∧
    Computes (.hdm16 h d va) (fun c => c.put d fun n => (hdm 4 (c.view.vreg c.g va.val))[n]) ∧
    Computes (.hdm32 h d va) (fun c => c.put d fun n => (hdm 5 (c.view.vreg c.g va.val))[n]) ∧
    (∀ m : QPackMod,
      let out (mb : Nat) (c : LaneCtx) : LaneOut :=
        let y : LaneVec := match m.hd with
          | .none => c.view.vreg c.g va.val
          | .hd16 => hdm 4 (c.view.vreg c.g va.val)
          | .hd32 => hdm 5 (c.view.vreg c.g va.val)
        let block := y.toList.map f32v
        let e := bxExps mb block
        let md (n : Fin 32) : Mode := match m.rnd with
          | .fixed r => Rm.mode r
          | .sr r b => .sr r.val ((c.opd b n).toNat % 2 ^ r.val)
        let elems : LaneVec := laneMap fun n => placeBits (c.view.vreg c.g vd.val)[n] (8 * m.k.val) 8
          (bxElem mb (md n) (block.contains .nan) e.1 e.2 (f32v y[n]))
        let scales : LaneVec := if vc = vd then elems else c.view.vreg c.g vc.val
        { writes := [{ dst := .v vd, mask := c.en, vals := elems },
                     { dst := .v vc, mask := c.en &&& (3#32 <<< (2 * m.k.val)), vals := laneMap fun n =>
                       if n.val = 2 * m.k.val then placeBits scales[n] (8 * m.bsel.val) 8 e.1
                       else if n.val = 2 * m.k.val + 1 then placeBits scales[n] (8 * m.bsel.val) 8 e.2 else scales[n] }],
          push := none }
      Computes (.qpackBx8 h m vd va vc) (out 6) ∧ Computes (.qpackBx6 h m vd va vc) (out 4) ∧
      Computes (.qpackBx4 h m vd va vc) (out 2)) ∧
    (∀ (mb : Nat) (l : List Ex),
      (bxExps mb l).2 = (if l.contains .nan then 255 else (bxExps mb l).1 - mb) ∧
      (∀ s, maxMag l = .inf s → (bxExps mb l).1 = 254) ∧ (∀ s k, maxMag l = .fin s 0 k → (bxExps mb l).1 = 0) ∧
      ∀ s n k, maxMag l = .fin s n k → n ≠ 0 → (bxExps mb l).1 = clampTo 0 254 (floorLog2 n k + 127)) ∧
    (∀ l : List W32, let top := maxMag (l.map f32v)
      (∀ x ∈ l, isNan32 x = false → (f32v x).magLe top = true) ∧
      ((∃ x ∈ l, isNan32 x = false ∧ top = f32v x) ∨ top = .fin false 0 1)) ∧
    (∀ n k : Nat, n ≠ 0 → k ≠ 0 → let e := floorLog2 n k
      (0 ≤ e → k * 2 ^ e.toNat ≤ n ∧ n < k * 2 ^ (e.toNat + 1)) ∧
      (e < 0 → k ≤ n * 2 ^ (-e).toNat ∧ n * 2 ^ (-e).toNat < 2 * k)) ∧
    (∀ (mb : Nat) (md : Mode) (any : Bool) (e0 e1 : Nat) (y : Ex),
      let sign := if y.isNeg then 2 ^ mb else 0
      (y = .nan → bxElem mb md any e0 e1 y = 2 ^ (mb + 1)) ∧
      (y ≠ .nan → any = false → bxInt mb md e1 y ≤ 2 ^ mb - 1 →
        bxElem mb md any e0 e1 y = 2 ^ (mb + 1) + sign + bxInt mb md e1 y) ∧
      (y ≠ .nan → (any = true ∨ 2 ^ mb - 1 < bxInt mb md e1 y) →
        bxElem mb md any e0 e1 y = sign + min (bxInt mb md e0 y) (2 ^ mb - 1))) ∧
    (let un (mb : Nat) (c : LaneCtx) : LaneOut := c.put d fun n => rne32 (c.block mb va vc k.val bsa.val n)
     Computes (.qunpackBx8 h k bsa d va vc) (un 6) ∧ Computes (.qunpackBx6 h k bsa d va vc) (un 4) ∧
     Computes (.qunpackBx4 h k bsa d va vc) (un 2)) ∧
    let dot (mb : Nat) (c : LaneCtx) : LaneOut := c.put d fun n =>
      let p (k : Nat) : Ex := (c.block mb va (vplus va 1) k bsa.val n).mul (c.block mb vb (vplus vb 1) k bsb.val n)
      let down := rm == .rd
      BitVec.ofNat 32 (Fmt.f32.round (Rm.mode rm) false
        (((((f32v (c.opd c' n)).add down (p 0)).add down (p 1)).add down (p 2)).add down (p 3)))
    Computes (.bxdotBx8 h rm bsa bsb d va vb c') (dot 6) ∧ Computes (.bxdotBx6 h rm bsa bsb d va vb c') (dot 4) ∧
    Computes (.bxdotBx4 h rm bsa bsb d va vb c') (dot 2)

/-- R192 to R200: moves, cross-lane words and predicates. `xlane` and `rdlane` answer the lane's own value and a false
validity where the source lane is out of range; `vote` and `lscan` see the enabled lanes only; `cmp24` keeps the two of four
elements that rank highest, in ascending position, with their bits and their positions; `pset` looks its operands up. Each form completes
whenever it issues and the endpoint of a queue in D takes an entry. -/
def Obligations.LaneCross : Prop :=
  ∀ (h : LaneHdr) (d a : Opd) (b : Src) (x : W32) (va vd : VReg) (vp p q r : PReg) (tt : BitVec 8),
    Computes (.mov h false d a) (fun c => c.put d fun n => c.opd a n) ∧
    Computes (.mov h true d a) (fun c => c.put64 d fun n => c.opd64 a n) ∧
    Computes (.movi h d x) (fun c => c.put d fun _ => x) ∧
    (∀ (mode : XMode) (w64 : Bool), ∃ src : LaneCtx → Fin 32 → Option (Fin 32),
      Computes (.xlane h mode vp w64 d a b) (fun c =>
        (c.putW w64 d fun n => c.vlane w64 a ((src c n).getD n)).and (c.putP vp fun n => (src c n).isSome)) ∧
      ∀ c n j, src c n = some j ↔ match mode with
        | .abs => j.val = (c.src b n).toNat
        | .rel => (j.val : Int) = n.val + (c.src b n).toInt
        | .xor => j.val = n.val ^^^ (c.src b n).toNat
        | .rot => j.val = (n.val + (c.src b n).toNat) % 32) ∧
    Computes (.rdlane h vp d va b) (fun c =>
      let k := (c.src b (lowLane c.en)).toNat
      (c.put d fun n => if hk : k < 32 then (c.view.vreg c.g va.val)[k] else (c.view.vreg c.g va.val)[n]).and
        (c.putP vp fun _ => decide (k < 32))) ∧
    (let on (c : LaneCtx) : Mask := c.en &&& c.view.preg c.g p
     let bit (b : Bool) : W32 := if b then 1 else 0
     Computes (.vote h .and d p) (fun c => c.put d fun _ => bit (on c == c.en)) ∧
     Computes (.vote h .or d p) (fun c => c.put d fun _ => bit (on c != 0)) ∧
     Computes (.vote h .same d p) (fun c => c.put d fun _ => bit (on c == c.en || on c == 0)) ∧
     Computes (.vote h .mask d p) (fun c => c.put d fun _ => on c) ∧
     Computes (.vote h .count d p) (fun c => c.put d fun _ =>
       BitVec.ofNat 32 ((List.range 32).countP fun i => (on c).getLsbD i))) ∧
    (∃ f : ScanOp → Bool → LaneCtx → Fin 32 → W32,
      (∀ op excl, Computes (.lscan h op excl d va) (fun c => c.put d (f op excl c))) ∧
      ∀ op c n, c.en.getLsbD n.val = true →
        f op true c n = ((List.finRange 32).filter fun l => c.en.getLsbD l.val && decide (l < n)).foldl
          (fun t l => ScanOp.step op t (c.view.vreg c.g va.val)[l]) (ScanOp.unit op) ∧
        f op false c n = ScanOp.step op (f op true c n) (c.view.vreg c.g va.val)[n]) ∧
    (∀ ty, ∃ data meta_ : LaneCtx → Fin 32 → W32,
      Computes (.cmp24 h ty vd va) (fun c => (c.put (.v vd) (data c)).and (c.put (.v (vplus vd 1)) (meta_ c))) ∧
      ∀ c n,
        let f := Cmp24Ty.fmt ty
        let m := c.at_ n
        let x : W64 := (c.view.vreg c.g (vplus va 1).val)[m] ++ (c.view.vreg c.g va.val)[m]
        let elem (i : Nat) : Nat := x.toNat / 2 ^ (f.width * i) % 2 ^ f.width
        let mag (i : Nat) : Nat := elem i % 2 ^ (f.width - 1)
        let isNan (i : Nat) : Prop := f.value (elem i) = .nan
        let above (i j : Nat) : Prop := (isNan i ∧ ¬isNan j) ∨ (¬isNan i ∧ ¬isNan j ∧ mag j < mag i) ∨
          (i < j ∧ (isNan i ↔ isNan j) ∧ (isNan i ∨ mag i = mag j))
        ∃ i j, i < j ∧ j < 4 ∧ meta_ c n = BitVec.ofNat 32 (i + 4 * j) ∧
          data c n = BitVec.ofNat 32 (elem i + elem j * 2 ^ f.width) ∧
          ∀ k, k < 4 → k ≠ i → k ≠ j → above i k ∧ above j k) ∧
    Computes (.pset h tt p q r vp) (fun c => c.putP p fun n =>
      tt.getLsbD ((c.pred q n).toNat + 2 * (c.pred r n).toNat + 4 * (c.pred vp n).toNat)) ∧
    Computes (.pmov h true (.p p) a) (fun c => c.putP p fun n => (c.opd a n).getLsbD (c.at_ n).val) ∧
    Computes (.pmov h false (.p p) a) (fun c => c.putP p fun n => c.opd a n != 0) ∧
    ∀ mask, (∀ p, d ≠ .p p) → Computes (.pmov h mask d a) (fun c => c.put d fun n => c.opd a n)

/-- R203 to R209: lane loads, version waits and scratchpad loads: the address A64 + B32 + OFF, the alignment and range of
R204, the bytes read and how they go into D; a load of 8 or 16 bits is extended as it says. The version wait completes
when no lane is left unsatisfied. -/
def Obligations.LaneLoads : Prop :=
  ∀ (h : LaneHdr) (off : BitVec 16) (sc : Scope) (d a b e : Opd),
    let va (c : LaneCtx) (n : Fin 32) : W64 := c.opd64 a n + (c.opd b n).signExtend 64 + off.signExtend 64
    let back (f : LoadFmt) : Option Back := match d with
      | .v r => some { reg := .v r, fmt := f }
      | .q r => some { reg := .q r, fmt := f }
      | _ => none
    let size : MemSize → Nat
      | .b8 => 1
      | .b16 => 2
      | .b32 => 4
      | .b64 => 8
    let fmt (sz : MemSize) (sg : Bool) : LoadFmt := match sz with
      | .b8 => if sg then .s8 else .z8
      | .b16 => if sg then .s16 else .z16
      | .b32 => .w32
      | .b64 => .w64
    let word (w64 : Bool) : MemSize := if w64 then .b64 else .b32
    (∀ sz sg, Performs (.ld h off sz sg d a b) (fun _ => {}) (fun c _ => GoodAddresses c (size sz) (va c))
      (fun c _ n => .load (va c n) (size sz) false (back (fmt sz sg)))) ∧
    (∀ acq w64, Performs (.ldR h off sc acq w64 d a b)
      (fun _ => { scope := sc, order := if acq then .acq else .relaxed, strong := true })
      (fun c _ => GoodAddresses c (size (word w64)) (va c))
      (fun c _ n => .load (va c n) (size (word w64)) true (back (fmt (word w64) false)))) ∧
    (∀ sz sg, Performs (.lds h off sz sg d a b) (fun _ => {})
      (fun c s => ∀ n : Fin 32, c.en.getLsbD n.val = true → ∃ r, padRef s c a n = some r ∧
        (c.opd a n).toNat < 2 ^ 16 ∧ s.holdsBerth (.gang c.g) r.entry = true ∧ r.entry.state ≠ .free ∧
        let o : Int := (c.opd b n).toNat + off.toInt
        o % size sz = 0 ∧ 0 ≤ o ∧ o + size sz ≤ 64 * r.entry.size)
      (fun c s n => .pload (padAddr s c a b off n) (size sz) (back (fmt sz sg)))) ∧
    ∀ s y c t z, LaneIssues s (.ldv h off sc d a b e) false y c t → GoodAddresses c 8 (va c) →
      let u := t.skipChoice c.view
      u.gang? c.g = some z → u.inOrder c.g false = true → u.requestRoom = true →
      let r := ldvScan c.g (u.ownLoads c.g) z.lpc[c.slot].lines (va c) (c.opd64 e) (back .w64) (maskLanes c.en)
        { st := u, got := z.lpc[c.slot].got, errs := [], stop := none }
      let res : List (Fin 32 × Res) := r.got.flatMap fun x =>
        (backRes (back .w64) x.2).map fun w => (Fin.ofNat 32 x.1, w)
      r.stop = none → exec (.ldv h off sc d a b e) s = .next
        ((r.st.fresh.2.addVar c.g (c.pend { scope := sc, strong := true } r.st.nextId (laneWrites res)) r.errs).advance c)

/-- R206, R207, R209, R210 to R213: lane stores, scratchpad stores, atomics and reductions: the effect of each enabled
lane, with the scope and order of the word. A store, a reduction and an FX64 addition without result are what a
replayable crew holds (R229). -/
def Obligations.LaneStores : Prop :=
  ∀ (h : LaneHdr) (off : BitVec 16) (sc : Scope) (d a b e : Opd) (w64 rel : Bool),
    let va (c : LaneCtx) (n : Fin 32) : W64 := c.opd64 a n + (c.opd b n).signExtend 64 + off.signExtend 64
    let at_ (c : LaneCtx) (n : Fin 32) : W64 := c.opd64 a n + off.signExtend 64
    let size : MemSize → Nat
      | .b8 => 1
      | .b16 => 2
      | .b32 => 4
      | .b64 => 8
    let w := if w64 then 8 else 4
    let data (c : LaneCtx) (o : Opd) (k : Nat) (n : Fin 32) : List Byte :=
      if k = 8 then bytes64 (c.opd64 o n) else leBytes k (c.opd o n).toNat
    let wide (c : LaneCtx) (o : Opd) (n : Fin 32) : W64 := if w64 then c.opd64 o n else (c.opd o n).setWidth 64
    let back (f : LoadFmt) : Option Back := match d with
      | .v r => some { reg := .v r, fmt := f }
      | .q r => some { reg := .q r, fmt := f }
      | _ => none
    let ord : Order := if rel then .rel else .relaxed
    (∀ sz, Performs (.st h off sz a b e) (fun c => { held := some (maskCount c.en * size sz) })
      (fun c _ => GoodAddresses c (size sz) (va c)) (fun c _ n => .store (va c n) false (data c e (size sz) n))) ∧
    Performs (.stR h off sc rel w64 a b e)
      (fun c => { scope := sc, order := ord, strong := true, held := some (maskCount c.en * w) })
      (fun c _ => GoodAddresses c w (va c)) (fun c _ n => .store (va c n) true (data c e w n)) ∧
    (∀ sz, Performs (.sts h off sz a b e) (fun c => { held := some (maskCount c.en * size sz) })
      (fun c s => ∀ n : Fin 32, c.en.getLsbD n.val = true → ∃ r, padRef s c a n = some r ∧
        (c.opd a n).toNat < 2 ^ 16 ∧ s.holdsBerth (.gang c.g) r.entry = true ∧ r.entry.state = .filling ∧
        let o : Int := (c.opd b n).toNat + off.toInt
        o % size sz = 0 ∧ 0 ≤ o ∧ o + size sz ≤ 64 * r.entry.size)
      (fun c s n => .pstore (padAddr s c a b off n) (data c e (size sz) n))) ∧
    (∀ op o, Performs (.atom h off op o sc w64 d a b e) (fun _ => { scope := sc, order := o, strong := true })
      (fun c _ => GoodAddresses c w (at_ c))
      (fun c _ n => .atom op w64 (at_ c n) (wide c e n) (wide c b n) (back (if w64 then .w64 else .w32)))) ∧
    (∀ op, Performs (.red h off op rel sc w64 a e)
      (fun c => { scope := sc, order := ord, strong := true, held := some (maskCount c.en * w) })
      (fun c _ => GoodAddresses c w (at_ c)) (fun c _ n => .red op w64 (at_ c n) (wide c e n))) ∧
    ∀ xf p, Performs (.atomX h off xf p rel sc d a e)
      (fun c => { scope := sc, order := ord, strong := true, held := if d = .zero then some (maskCount c.en * 8) else none })
      (fun c _ => GoodAddresses c 8 (at_ c))
      (fun c _ n => .fx (at_ c n) (if xf then fx64OfF32 .rne p.val (c.opd e n) else c.opd64 e n)
        (if xf then p.val else 0) (back .w64))

/-- R210 to R213: what an atomic stores and what it answers: the old value of the word goes to D, and the word becomes the
value that the operation makes of it; a reduction does the same without an answer. `red.fadd` and `atom.x` on a tun-eligible
page are merged in the tun: a contribution joins those on their way, or, where D is a register, is merged at once; on other
pages they are atomics, exact in FX64. R77, R204, R205, R209, R217 to R222, R225: the faults of lane words at issue: the
trap of the lowest enabled lane with the first condition in the order of R205, and DIV_STACK and RANGE of control words. The
word performs nothing, and resumes at itself. That a target is checked before the stack is full, and what a
store's owner check leaves to BERTH_STATE, is the model's choice (logs 50 and 52). -/
def Obligations.LaneAtomicEffect : Prop :=
  (∀ (s : State) (w : Who) (op : AtomOp) (w64 : Bool) (va c cmp : W64) (d : Option Back),
    let n := if w64 then 8 else 4
    let lt (signed : Bool) (x y : W64) : Bool :=
      if w64 then (if signed then x.slt y else x.ult y)
      else if signed then (x.setWidth 32 : W32).slt (y.setWidth 32) else (x.setWidth 32 : W32).ult (y.setWidth 32)
    let value (op : AtomOp) (m : W64) : W64 :=
      match op with
      | .add => m + c
      | .and => m &&& c
      | .or => m ||| c
      | .xor => m ^^^ c
      | .min => if lt true c m then c else m
      | .max => if lt true m c then c else m
      | .minu => if lt false c m then c else m
      | .maxu => if lt false m c then c else m
      | .exch => c
      | .cas => if (if w64 then m = cmp else (m.setWidth 32 : W32) = cmp.setWidth 32) then c else m
      | .fadd => (fadd32 (m.setWidth 32) (c.setWidth 32)).setWidth 64
      | .fmin => (fmin32 (m.setWidth 32) (c.setWidth 32)).setWidth 64
      | .fmax => (fmax32 (m.setWidth 32) (c.setWidth 32)).setWidth 64
    let step (op : AtomOp) (k : Nat) (b : List Byte) : List Byte := leBytes k (value op (BitVec.ofNat 64 (leNat b))).toNat
    let as (op : RedOp) : AtomOp := match op with
      | .add => .add
      | .and => .and
      | .or => .or
      | .xor => .xor
      | .min => .min
      | .max => .max
      | .minu => .minu
      | .maxu => .maxu
      | .fadd => .fadd
      | .fmin => .fmin
      | .fmax => .fmax
    (∀ bs t, s.atomic w va n (step op n) = .ok (bs, t) →
      s.perform w (.atom op w64 va c cmp d) = .ok (t, backRes d (BitVec.ofNat 64 (leNat bs)))) ∧
    (∀ (r : RedOp) bs t, r ≠ .fadd → s.atomic w va n (step (as r) n) = .ok (bs, t) →
      s.perform w (.red r w64 va c) = .ok (t, [])) ∧
    (∀ x t, s.access w va 4 true true = .ok (x, t) →
      (x.cache = 2 → t.poisoned x.pa 4 = false → s.perform w (.red .fadd w64 va c) =
        .ok ({ t with tun := t.tun ++ [{ core := w.core, addr := x.pa, fx := false, val := c }] }, [])) ∧
      ∀ bs u, x.cache ≠ 2 → s.atomic w va 4 (step .fadd 4) = .ok (bs, u) →
        s.perform w (.red .fadd w64 va c) = .ok (u, [])) ∧
    ∀ x t p, s.access w va 8 true true = .ok (x, t) →
      let k : TunAdd := { core := w.core, addr := x.pa, fx := true, val := c }
      (x.cache = 2 → t.poisoned x.pa 8 = false →
        s.perform w (.fx va c p none) = .ok ({ t with tun := t.tun ++ [k] }, []) ∧
        ∀ b, s.perform w (.fx va c p (some b)) =
          .ok (t.mergeTun k, backRes (some b) (BitVec.ofNat 64 (leNat (t.readPa x.pa 8))))) ∧
      ∀ bs u, x.cache ≠ 2 → s.atomic w va 8 (step .add 8) = .ok (bs, u) →
        s.perform w (.fx va c p none) = .ok (u, []) ∧
        ∀ b, s.perform w (.fx va c p (some b)) = .ok (u, backRes (some b) (BitVec.ofNat 64 (leNat bs)))) ∧
  (∀ (h : LaneHdr) (off : BitVec 16) (sc : Scope) (d a b e : Opd) (w64 rel acq sg : Bool) (sz : MemSize) (r : RedOp)
    (op : AtomOp) (o : Order) (xf : Bool) (p : Fin 64) (n : Fin 32),
    let va (c : LaneCtx) (n : Fin 32) : W64 := c.opd64 a n + (c.opd b n).signExtend 64 + off.signExtend 64
    let at_ (c : LaneCtx) (n : Fin 32) : W64 := c.opd64 a n + off.signExtend 64
    let size : MemSize → Nat
      | .b8 => 1
      | .b16 => 2
      | .b32 => 4
      | .b64 => 8
    let w := if w64 then 8 else 4
    let odd (k : Nat) (f : LaneCtx → Fin 32 → W64) (c : LaneCtx) (l : Fin 32) : Prop := (f c l).toNat % k ≠ 0
    let high (f : LaneCtx → Fin 32 → W64) (c : LaneCtx) (l : Fin 32) : Prop := 2 ^ 52 ≤ (f c l).toNat
    let none_ (c : LaneCtx) (bad : LaneCtx → Fin 32 → Prop) : Prop := ∀ l : Fin 32, c.en.getLsbD l.val = true → ¬bad c l
    let misaligned (i : Instr) (k : Nat) (f : LaneCtx → Fin 32 → W64) : Prop :=
      LaneFaults i false (fun c _ => Lowest c (odd k f c) n) (fun c _ => { code := .align, va := f c n })
    let outside (i : Instr) (k : Nat) (f : LaneCtx → Fin 32 → W64) (held : Bool) : Prop :=
      LaneFaults i false (fun c t => none_ c (odd k f) ∧ Lowest c (high f c) n ∧
          (held = true → t.replayable c.g = true → ∀ y, t.gang? c.g = some y → y.region + maskCount c.en * k ≤ 4096))
        (fun c _ => { code := .page, cause := some .varange, va := f c n })
    let full (i : Instr) (k : Nat) (f : LaneCtx → Fin 32 → W64) : Prop :=
      LaneFaults i false (fun c t => none_ c (odd k f) ∧ t.replayable c.g = true ∧
          ∃ y, t.gang? c.g = some y ∧ 4096 < y.region + maskCount c.en * k) (fun _ _ => { code := .regionOverflow })
    let loads (i : Instr) (k : Nat) (f : LaneCtx → Fin 32 → W64) : Prop := misaligned i k f ∧ outside i k f false
    let stores (i : Instr) (k : Nat) (f : LaneCtx → Fin 32 → W64) : Prop :=
      misaligned i k f ∧ full i k f ∧ outside i k f true
    loads (.ld h off sz sg d a b) (size sz) va ∧ loads (.ldR h off sc acq w64 d a b) w va ∧
    loads (.ldv h off sc d a b e) 8 va ∧ loads (.mwait h off w64 a b e) w va ∧
    loads (.atom h off op o sc w64 d a b e) w at_ ∧ stores (.st h off sz a b e) (size sz) va ∧
    stores (.stR h off sc rel w64 a b e) w va ∧ stores (.red h off r rel sc w64 a e) w at_ ∧
    stores (.atomX h off xf p rel sc .zero a e) 8 at_ ∧ (d ≠ .zero → loads (.atomX h off xf p rel sc d a e) 8 at_) ∧
    let pad (i : Instr) (store : Bool) (states : List BerthState) : Prop :=
      let place (c : LaneCtx) (l : Fin 32) : Int := (c.opd b l).toNat + off.toInt
      let uneven (c : LaneCtx) (l : Fin 32) : Prop := place c l % size sz ≠ 0
      let beyond (t : State) (c : LaneCtx) (l : Fin 32) : Prop := ∃ x, padEntry t c a l = some x ∧
        ¬(0 ≤ place c l ∧ place c l + size sz ≤ 64 * x.size)
      let other (t : State) (c : LaneCtx) (l : Fin 32) : Prop := ∀ x, padRef t c a l = some x →
        2 ^ 16 ≤ (c.opd a l).toNat ∨ padOwner t c.g store x.entry = false
      let info (c : LaneCtx) : W32 := c.opd a n &&& 0xFFFF
      LaneFaults i false (fun c _ => Lowest c (uneven c) n) (fun _ _ => { code := .align }) ∧
      LaneFaults i false (fun c t => none_ c uneven ∧ Lowest c (beyond t c) n) (fun _ _ => { code := .range }) ∧
      LaneFaults i false (fun c t => none_ c uneven ∧ none_ c (beyond t) ∧ Lowest c (other t c) n)
        (fun c _ => { code := .owner, info := info c }) ∧
      LaneFaults i false (fun c t => none_ c uneven ∧ none_ c (beyond t) ∧ none_ c (other t) ∧
          Lowest c (fun l => ∃ x, padRef t c a l = some x ∧ x.entry.state ∉ states) n)
        (fun c _ => { code := .berthState, info := info c })
    pad (.lds h off sz sg d a b) false [.filling, .full, .draining] ∧ pad (.sts h off sz a b e) true [.filling]) ∧
  ∀ (h : LaneHdr) (target join : BitVec 30),
    let faults (i : Instr) (always : Bool) (bad : LaneCtx → Kernel → List DEntry → Prop) (code : Code) : Prop :=
      LaneFaults i always (fun c t => ∃ k st, t.kernel (.gang c.g) = some k ∧ t.dstack c.g = .ok st ∧ bad c k st)
        (fun _ _ => { code := code })
    let splits (c : LaneCtx) : Prop := c.en ≠ 0 ∧ c.act &&& ~~~c.en ≠ 0
    let outside (k : Kernel) (n : BitVec 30) : Prop := k.laneCount ≤ n.toNat
    let full (k : Kernel) (st : List DEntry) : Prop := k.capacity ≤ st.length
    let noLoop (st : List DEntry) : Prop := ∀ (i : Nat) (e : DEntry), st[i]? = some e → e.kind = 1 →
      ∃ (j : Nat) (x : DEntry), i < j ∧ st[j]? = some x ∧ x.kind = 2
    faults (.bra h target join) true (fun c k _ => (c.en ≠ 0 ∧ outside k target) ∨ (splits c ∧ outside k join)) .range ∧
    faults (.bra h target join) true (fun c k st => splits c ∧ ¬outside k target ∧ ¬outside k join ∧ full k st) .divStack ∧
    faults (.braLoop h target join) true (fun _ k _ => outside k join) .range ∧
    faults (.braLoop h target join) true (fun _ k st => ¬outside k join ∧ full k st) .divStack ∧
    faults (.call h target) true (fun _ k _ => outside k target) .range ∧
    faults (.call h target) true (fun _ k st => ¬outside k target ∧ full k st) .divStack ∧
    faults (.brk h) true (fun _ _ st => noLoop st) .divStack ∧ faults (.cont h) true (fun _ _ st => noLoop st) .divStack ∧
    faults (.join h) true (fun c _ st => ∀ e ∈ (st : List DEntry), e.kind = 2 ∨ e.join ≠ c.index) .divStack ∧
    faults (.joinLatch h) true (fun _ _ st => ∀ e ∈ (st : List DEntry), e.kind ≠ 1) .divStack ∧
    faults (.ret h) false (fun _ _ st => ∀ e ∈ (st : List DEntry), e.kind ≠ 2) .divStack

/-- R214, R215, R226, R228: `fence` with the commitment of held effects and the release that its order names; `mwait` goes
on when a lane's word differs or an access fails, and else yields its slot; `nap` yields its slot or waits until its count
has passed; `rgn` of a crew that is not replayable goes on, and of one that is begins a region. -/
def Obligations.LaneWaits : Prop :=
  ∀ (h : LaneHdr) (off : BitVec 16) (sc : Scope) (a b e : Opd) (w64 : Bool) (n : BitVec 16) (s : State) (y z : Gang)
    (c : LaneCtx) (t : State),
    let u := t.skipChoice c.view
    (LaneIssues s (.fence h .acq sc) false y c t → u.gang? c.g = some z → z.awaits = false →
      exec (.fence h .acq sc) s = .next (u.advance c)) ∧
    (∀ o v, o ≠ .acq → LaneIssues s (.fence h o sc) false y c t → u.gang? c.g = some z → (o = .acqrel → z.awaits = false) →
      ((u.commitHeld c.g).gang? c.g).any Gang.uncommitted = false → (u.commitHeld c.g).releaseFor (.gang c.g) sc = .ok v →
      exec (.fence h o sc) s = .next (v.advance c)) ∧
    (LaneIssues s (.mwait h off w64 a b e) false y c t → u.gang? c.g = some z → u.inOrder c.g false = true →
      u.requestRoom = true →
      let k := if w64 then 8 else 4
      let va (l : Fin 32) : W64 := c.opd64 a l + (c.opd b l).signExtend 64 + off.signExtend 64
      GoodAddresses c k va →
      let r := mwaitScan c.g (u.ownLoads c.g) z.lpc[c.slot].lines k va
        (fun l => if w64 then c.opd64 e l else (c.opd e l).setWidth 64) (maskLanes c.en)
        { st := u, differs := false, errs := [], far := false }
      r.far = false →
      ((r.differs = true ∨ r.errs ≠ []) → exec (.mwait h off w64 a b e) s =
        .next ((r.st.fresh.2.addVar c.g (c.pend { strong := true } r.st.nextId []) r.errs).advance c)) ∧
      (r.differs = false → r.errs = [] → ∀ v,
        (r.st.yieldSlot c fun x => x.laneSleep c.g c.slot ((maskLanes c.en).map fun l => x.laneLine c.g (va l)).eraseDups)
          = .ok v → exec (.mwait h off w64 a b e) s = .next v)) ∧
    (∀ v, LaneIssues s (.nap h n) true y c t →
      (t.yieldSlot c fun x => x.changeLpc c.g c.slot fun l => { l with wait := .nap (c.now + n.toNat + 1) }) = .ok v →
      exec (.nap h n) s = .next v) ∧
    (LaneIssues s (.rgn h) true y c t → t.replayable c.g = false → exec (.rgn h) s = .next (t.advance c)) ∧
    (∀ st x, LaneIssues s (.rgn h) true y c t → t.replayable c.g = true → t.gang? c.g = some z → t.dstack c.g = .ok st →
      z.quiet = true → z.lpc[1 - c.slot].live = false → (∀ e ∈ st, e.spilled = false) →
      ((t.commitHeld c.g).gang? c.g).any Gang.uncommitted = false → ((t.commitHeld c.g).advance c).gang? c.g = some x →
      exec (.rgn h) s = .next (((t.commitHeld c.g).advance c).setGang c.g { x with
        region := 0, replay := some { index := c.index + 1, mask := c.act, depth := x.depth } }))

/-- R217 to R224: the paths that a control word makes, from those that stand behind it and its stack, the top last: a
uniform branch goes to its target or on, a divergent one pushes its join and gives the other slot the taken lanes; `call`
pushes its return; loops, breaks, joins, returns and exits change the masks as those rules say. They are settled and
take their places. -/
def Obligations.LaneControl : Prop :=
  ∀ (h : LaneHdr) (target join : BitVec 30),
    let rest (c : LaneCtx) : Mask := c.act &&& ~~~c.en
    let put (p : Paths) (i : Fin 2) (l : Lpc) : Paths := { p with lpc := p.lpc.set i l }
    let other (c : LaneCtx) : Fin 2 := 1 - c.slot
    let room (p : Paths) (k : Kernel) : Prop := p.st.length < k.capacity
    let jump (c : LaneCtx) (p : Paths) (n : Nat) : Paths :=
      if n = c.index + 1 then p else put p c.slot (p.lpc[c.slot].take n c.act)
    let loopAt (p : Paths) (i : Nat) : Prop := topmost (fun e => e.kind == 1) p.st = some i ∧
      ∀ e ∈ p.st.drop (i + 1), e.kind ≠ 2
    let lose (p : Paths) (i : Nat) (m : Mask) : Paths :=
      { p with st := p.st.take (i + 1) ++ (p.st.drop (i + 1)).map fun e => { e with jmask := e.jmask &&& ~~~m } }
    let keep (c : LaneCtx) (p : Paths) (m : Mask) : Paths :=
      put p c.slot (if m = 0 then Lpc.off else { p.lpc[c.slot] with mask := m })
    let gone (c : LaneCtx) (p : Paths) : Paths :=
      { keep c p (rest c) with st := p.st.map fun e => { e with
          jmask := e.jmask &&& ~~~c.en, pmask := if e.kind = 1 then e.pmask &&& ~~~c.en else e.pmask } }
    Controls (.bra h target join) true (fun c k p q =>
      (c.en = 0 ∧ q = p) ∨
      (c.en ≠ 0 ∧ rest c = 0 ∧ target.toNat < k.laneCount ∧ q = jump c p target.toNat) ∨
      (c.en ≠ 0 ∧ rest c ≠ 0 ∧ target.toNat < k.laneCount ∧ join.toNat < k.laneCount ∧ room p k ∧
        let o := p.lpc[other c]
        let x : DEntry := { kind := 0, join := join.toNat, jmask := c.act, path := if o.live then o.index else 0,
                            pmask := if o.live then o.mask else 0 }
        q = put (keep c { p with st := p.st ++ [x] } (rest c)) (other c)
          ((keep c { p with st := p.st ++ [x] } (rest c)).lpc[other c].take target.toNat c.en))) ∧
    Controls (.braLoop h target join) true (fun c k p q => join.toNat < k.laneCount ∧ room p k ∧
      q = { p with st := p.st ++ [{ kind := 1, join := join.toNat, jmask := c.act, path := target.toNat, pmask := 0 }] }) ∧
    Controls (.brk h) true (fun c _ p q => ∃ i, loopAt p i ∧ q = lose (keep c p (rest c)) i c.en) ∧
    Controls (.cont h) true (fun c _ p q => ∃ i, loopAt p i ∧
      q = { lose (keep c p (rest c)) i c.en with
        st := (lose (keep c p (rest c)) i c.en).st.modify i fun e => { e with pmask := e.pmask ||| c.en } }) ∧
    Controls (.join h) true (fun c _ p q => (∃ e ∈ p.st, e.kind ≠ 2 ∧ e.join = c.index) ∧ q = keep c p 0) ∧
    Controls (.joinLatch h) true (fun c _ p q => ∃ i e, topmost (fun e => e.kind == 1) p.st = some i ∧ p.st[i]? = some e ∧
      q = { keep c p (c.act ||| e.pmask) with st := p.st.modify i fun e => { e with pmask := 0 } }) ∧
    Controls (.call h target) true (fun c k p q => target.toNat < k.laneCount ∧ room p k ∧
      q = jump c { p with st := p.st ++ [{ kind := 2, join := c.index + 1, jmask := c.act, path := 0, pmask := 0 }] }
        target.toNat) ∧
    Controls (.ret h) false (fun c _ p q => ∃ i, topmost (fun e => e.kind == 2) p.st = some i ∧
      q = lose (keep c p (rest c)) i c.en) ∧
    Controls (.exit h) false (fun c _ p q => q = gone c p) ∧
    Controls (.exitKill h) false (fun c _ p q => q = { gone c p with killed := p.killed ||| c.en })

/-- R262 to R265, R269, R272 to R286: the render words. `gproj`, `pproj` and `trace` push one entry to the render unit of
the cluster; the splat words read their records; the ray words act on their pools; `fbw` stores a pixel and `gscat` adds
the terms of its mask. What `gback` leaves in registers of both its groups, when they are one, are free values (log 17). -/
def Obligations.RenderWords : Prop :=
  ∀ (h : LaneHdr) (d a b e : Opd) (vp : PReg) (vd vc : VReg) (q : QReg) (sa : Fin 32) (off tm : BitVec 16) (fx w64 : Bool)
    (pt word : Fin 32) (pb fp : Fin 64),
    let n := if w64 then 8 else 4
    let last := word.val + if w64 then 1 else 0
    let aligned (va : LaneCtx → Fin 32 → W64) (k : Nat) (c : LaneCtx) (_ : State) : Prop :=
      ∀ l : Fin 32, c.en.getLsbD l.val = true → (va c l).toNat % k = 0
    let grp (c : LaneCtx) (k : Nat) (r : VReg) (l : Fin 32) : List W32 := (List.range k).map fun i => c.grp r i l
    let strong (_ : LaneCtx) : WordOrder := { strong := true }
    let free (_ : LaneCtx) : WordOrder := {}
    let always (_ : LaneCtx) (_ : State) : Prop := True
    let back (f : LoadFmt) : Option Back := match d with
      | .v r => some { reg := .v r, fmt := f }
      | .q r => some { reg := .q r, fmt := f }
      | _ => none
    let dst : Option LaneDst := match d with
      | .v r => some (.v r)
      | .q r => some (.q r)
      | _ => none
    Performs (.geval h vd a b) free (aligned (fun c => c.opd64 a) 4) (fun c _ l => .geval (c.opd64 a l) (c.opd b l) vd) ∧
    Performs (.gblend h vp vd a b) free (aligned (fun c => c.opd64 b) 4)
      (fun c _ l => .gblend (c.opd64 b l) (c.opd a l) (Vector.ofFn fun i => c.grp vd i.val l) vd vp) ∧
    (vd ≠ vc → Performs (.gback h vp vd a b vc) free (aligned (fun c => c.opd64 a) 4)
      (fun c _ l => .gback (c.opd64 a l) (c.opd b l) (Vector.ofFn fun i => c.grp vc i.val l) vd vc vp none)) ∧
    (∀ f, Performs (.fbw h off f a b vc) (fun c => { held := some (maskCount c.en * pixelSize f) })
      (aligned (fun c l => c.opd64 a l + (c.opd b l).signExtend 64 + off.signExtend 64) (pixelSize f))
      (fun c _ l => .store (c.opd64 a l + (c.opd b l).signExtend 64 + off.signExtend 64) false
        (pixelBytes f (c.grp vc 0 l) (c.grp vc 1 l) (c.grp vc 2 l) (c.grp vc 3 l)))) ∧
    Performs (.rpush h d sa) strong always (fun c _ _ => .rpush (c.sreg sa) dst) ∧
    Performs (.rpop h sa b) strong always (fun c _ l => .rpop (c.sreg sa) (c.opd b l)) ∧
    Performs (.rgen h sa b e) strong always (fun c _ l => .rgen (c.sreg sa) (c.opd b l) (c.opd e l)) ∧
    (last < 24 → (w64 = true → word.val % 2 = 0) →
      Performs (.rayld h word w64 d sa b) free always
        (fun c _ l => .rayld (c.sreg sa) (c.opd b l) word.val n (back (if w64 then .w64 else .w32))) ∧
      (¬(9 ≤ last ∧ word.val ≤ 14) → Performs (.rayst h word w64 sa b e) free always (fun c _ l =>
        .rayst (c.sreg sa) (c.opd b l) word.val
          (if w64 then bytes64 (c.opd64 e l) else leBytes 4 (c.opd e l).toNat)))) ∧
    (∀ s y c t, LaneIssues s (.gscat h tm fx fp a vc) false y c t →
      aligned (fun c => c.opd64 a) (16 * if fx then 8 else 4) c t →
      let terms := (List.range 16).filter fun i => tm.getLsbD i
      let k := if fx then 8 else 4
      let ops : List (Fin 32 × MemOp) := (maskLanes c.en).flatMap fun l => terms.map fun i =>
        let va := c.opd64 a l + BitVec.ofNat 64 (k * i)
        (l, if fx then .fx va (fx64OfF32 .rne fp.val (c.grp vc i l)) fp.val none
          else .red .fadd false va ((c.grp vc i l).setWidth 64))
      let o : WordOrder := { strong := true, held := some (maskCount c.en * terms.length * k) }
      MayPerform c o (t.skipChoice c.view) → ∃ u, (t.skipChoice c.view).wordEffects c o ops = .ok u ∧
        exec (.gscat h tm fx fp a vc) s = .next (u.advance c)) ∧
    (∀ s y c t w, let u := t.skipChoice c.view
      let cl := clusterOf (coreOf c.g)
      let entry (point : Bool) : ProjEntry :=
        { who := u.crewStarter w, items := (maskLanes c.en).map (c.opd a), addr := c.sreg pt, point := point,
          block := none, item := none }
      let pushed (point : Bool) : State := u.setCluster cl { u.cluster cl with projQ := (u.cluster cl).projQ ++ [entry point] }
      (c.sreg pt).toNat % 128 = 0 → (u.cluster cl).projQ.length < 16 → u.laneCrew c = some w →
      (LaneIssues s (.gproj h q a pt) false y c t → exec (.gproj h q a pt) s = .next ((pushed false).advance c)) ∧
      (LaneIssues s (.pproj h q a pt) false y c t → exec (.pproj h q a pt) s = .next ((pushed true).advance c))) ∧
    Performs (.trace h pb q a pt e) strong
      (fun c u => pb.val % 4 = 0 ∧ (u.cluster (clusterOf (coreOf c.g))).travQ.length < 16 ∧
        u.tracing (coreOf c.g) = false ∧ ∀ k, u.kernel (.gang c.g) = some k → pb.val ≤ k.payload ∧
          ∀ l : Fin 32, c.en.getLsbD l.val = true → (c.opd e l).toNat < k.depth)
      (fun c _ l => .trace (c.sreg pt) (c.opd a l) (c.opd e l) pb.val) ∧
    ∀ s y c t z, LaneIssues s (.hitq h vd sa b) false y c t →
      let u := t.skipChoice c.view
      u.gang? c.g = some z → u.inOrder c.g false = true → u.requestRoom = true →
      let r := hitScan { u.who (.gang c.g) with reader := some (.slot c.g c.slot.val) } (u.ownLoads c.g)
        (fun l => .hitq (c.sreg sa) (c.opd b l) vd) (maskLanes c.en)
        { st := { u with peer := u.slotPeers c.g c.slot z.lpc[c.slot].lines }, got := z.lpc[c.slot].got, errs := [],
          far := [], stop := none }
      r.stop = none → r.far = [] →
      exec (.hitq h vd sa b) s = .next (({ r.st with peer := u.peer }.fresh.2.addVar c.g
        (c.pend { strong := true } r.st.nextId (laneWrites (hitResults vd r.got))) r.errs).advance c)

/-! ## The events of the package -/

/-- R21, R59, R64, R135, R226, R292, R366 to R368, R378, R388: what the lane sequencer does of itself for a gang: it takes
the oldest dispatched block when no slot is live, gives a free issue slot to the eligible gang of the first rank, lands
results, completes `var` words, ends a `nap` that is over, wakes the waiters of monitors, and delivers late faults in the
order of their words. -/
def Obligations.LaneSequencer : Prop :=
  ∀ (s : State) (g : Nat) (y : Gang), s.gang? g = some y →
    (∀ d rest, s.gangIssues g false = true → y.sc.mode ≠ some .trap → (∀ n : Fin 2, y.lpc[n].live = false) →
      y.depth = 0 → y.queue = d :: rest → y.killed ≠ BitVec.allOnes 32 →
      ∃ z, exec (.laneDispatch g) s = .next (s.setGang g z) ∧ z.queue = rest ∧ z.lpc[0].live = true ∧
        z.lpc[0].mask = ~~~y.killed ∧ z.lpc[1] = y.lpc[1] ∧ z.sc = y.sc ∧ z.v = y.v ∧ z.p = y.p ∧ z.region = 0 ∧
        z.replay = some { index := d.index, mask := ~~~y.killed, depth := 0 } ∧
        (d.arm = false → z.arm = y.arm ∧ z.lpc[0].index = d.index) ∧
        ∀ m, d.arm = true → y.arm = some m →
          z.arm = some { m with active := true, left := m.count.toNat - 1 } ∧
          z.lpc[0].index = if m.count = 0 then d.index + m.len else d.index) ∧
    (∀ core slot w x, slot < 4 → (s.core core).issue.toList.getD slot none = none → s.issueWinner core = some (w, x) →
      s.eligible core w x = true ∧
      (∀ e ∈ s.gangs, s.eligible core e.1 e.2 = true → rankBefore (s.rank e.2 e.2.promoted) (s.rank x x.promoted) = false) ∧
      ∃ t, exec (.issueSlotArbitration core slot) s = .next t ∧ (t.core core).issue.toList.getD slot none = some w ∧
        t.gang? w = some { x with run := some (s.newRun w x), lost := 0, promoted := none } ∧
        (∀ v z, v ≠ w → s.gang? v = some z →
          t.gang? v = some (if s.eligible core v z then z.loses s.nextId else z)) ∧
        t.crews = s.crews ∧ t.pilots = s.pilots ∧ SameMemory s t) ∧
    (∀ e f, y.fix = [e, f] → e.landAt ≤ f.landAt → f.landAt ≤ s.clk.arith →
      exec (.resultLanding g) s =
        .next (((s.setGang g { y with fix := [] }).complete g e.writes e.token).complete g f.writes f.token)) ∧
    (∀ n v z,
      let u := s.landFix g s.clk.arith
      u.gang? g = some z → z.var[n]? = some v → v.far = false →
      exec (.varCompletion g n) s =
        .next ((u.setGang g { z with var := z.var.eraseIdx n }).completeVar g v)) ∧
    (∀ (n : Fin 2) till, y.lpc[n].wait = .nap till → till ≤ s.clk.arith →
      exec (.napExpiry g n.val) s =
        .next (s.setGang g { y with lpc := y.lpc.set n { y.lpc[n] with wait := .none } })) ∧
    (∀ w : Waiter,
      let core := waiterCore w
      let mine := (s.core core).monitors.any fun e => e.1 == w
      let woken := (s.setCore core { s.core core with
        monitors := (s.core core).monitors.filter fun e => e.1 != w }).wakeWaiter w
      exec (.monitorFire w) s = .next (if mine then woken else s) ∧
      exec (.monitorPollTimer w) s = .next (if s.polls w then woken else s)) ∧
    (∀ l, y.sc.wait = .asleep l ∨ y.sc.wait = .polling → s.wakeWaiter (.scalar g) = s.setWait (.gang g) .none) ∧
    ∀ f ∈ y.late, s.gangIssues g false = true → y.faultDue = true → y.mayTrap = true →
      (∀ e ∈ y.late, e ≠ f → f.no < e.no) → s.demandStop (.gang g) f.trap = none →
      exec (.trapDelivery g f.slot.val) s =
        .next (((s.setGang g { y with late := (y.late.erase f).map fun e => { e with due := true } }).runWaits g).takeTrap
          (.gang g) f.trap { faddr := BitVec.ofNat 64 f.index, sres := y.sc.pc,
                             lane := some (f.slot, y.lpc[f.slot].index), redo := f.ops })

/-- R136, R161, R319, R356, R358: a crew that has ended and that nothing uses retires: its stamps are closed, its berths
freed, its weight goes to the phase record and its grid counts it; a grid whose crews and children are gone retires and
frees its slot under the next generation; and a grant adds its amount to OUT and 1 to GRANTS, as a return subtracts its
amount from OUT and adds 1 to DONE where OUT becomes 0. -/
def Obligations.Retirement : Prop :=
  (∀ (s : State) (key : Nat) (c : Crew) (gr : Grid), s.crew? key = some c → c.ending = true → s.grid? c.grid = some gr →
    (gr.stopped = false ∨ gr.killed = true) → s.crewInUse key c = false → s.crewOut key c = false →
    let core := coreOf key
    let u := (s.closeLog key).freeBerths key c
    let v := (u.setCore core { u.core core with slices := (u.core core).slices.filter fun x => x.crew != key }).returnWeight
      c.grid c.wgt
    (∀ z, v.grid? c.grid = some z →
      exec (.crewRetire key) s =
        .next ({ v with crews := v.crews.erase key }.setGrid c.grid { z with retired := z.retired + 1 })) ∧
    (∀ i, (s.berth core i).own = c.tag → (u.berth core i).state = .free) ∧
    ∀ e ∈ c.log, (s.line e.1).stamp.tag = c.tag → (s.line e.1).stamp.seq = e.2 → (u.line e.1).stamp.open_ = false) ∧
  (∀ (s : State) (k : Nat) (g : Grid), s.grid? k = some g → g.ncrew ≤ g.retired →
    g.live = 0 → (g.killed = true ∨ g.launched = []) → (s.pilots.any fun p => p.2.grid == k) = false →
    let u := s.putStatus (s.gridStarter k) g.args g.queue g.id .retired
    exec (.gridRetire k) s = .next ({ u with
      grids := u.grids.erase k, gens := u.gens.set k ((u.gens.getD k 0 + 1) % 2 ^ 20),
      clusters := u.clusters.map fun (e : Nat × Cluster) => (e.1, e.2.dropGrid k) }.changeGrid g.parent fun z => { z with live := z.live - 1 })) ∧
  ∀ (s : State) (i : Nat) (a : Issuer) (v : W64) (k : Nat) (gr : Grid) (x : Xl), s.grants[i]? = some (a, v) →
    s.issuerGridOf a = some (k, gr) → s.phaseAt gr.asid gr.part gr.phase = .ok x → x.home = s.ident.pkg →
    let t : State := { s with grants := s.grants.eraseIdx i }
    let word (u : State) (o n : Nat) : Nat := leNat (u.readPa (x.pa + o) n)
    exec (.weightGrant i) s = .next ((t.addOut x v).grantTo a) ∧
    word (t.addOut x v) 0 16 = (word (t.atHome x) 0 16 + v.toNat) % 2 ^ 128 ∧
    word (t.addOut x v) 0x18 8 = (word (t.atHome x) 0x18 8 + 1) % 2 ^ 64 ∧
    word (t.subOut x v) 0 16 = (word (t.atHome x) 0 16 + 2 ^ 128 - v.toNat) % 2 ^ 128 ∧
    (word (t.subOut x v) 0 16 = 0 → word (t.subOut x v) 0x10 8 = (word (t.atHome x) 0x10 8 + 1) % 2 ^ 64)

/-- R349 to R352, R358, R362 to R365: the packet at the head of the queue that the dispatcher serves is consumed: refused
with the first code of R352's order that holds, or admitted as a grid; the next crew of a grid that nothing goes before is
placed; the shares of a grid's crews add up to its weight; and a dispatcher that backed off retries once its time has
come. -/
def Obligations.Admission : Prop :=
  (∀ (s : State) (q : Nat) (e : QueueEntry) (x : Xl) (bs : List Byte), s.serving = true → q < 64 →
    s.queueHead q = .ready e x bs → s.choosesQueue q e = true →
    let p := launchPacketOf bs
    let w : Starter := { asid := p.asid, part := e.part, grid := 4096, gid := BitVec.allOnes 32, index := 0, tag := 0 }
    (s.badPacket e.part p = true → (s.judge q e p).1 = .refuse .packet) ∧
    (∀ r, s.badPacket e.part p = false → s.readHeader q p.asid e.part p.kimg = .error r → (∀ x, r ≠ .remote x) →
      (s.judge q e p).1 = .refuse .header) ∧
    (∀ h u, s.badPacket e.part p = false → s.readHeader q p.asid e.part p.kimg = .ok (h, u) →
      let k := kernelOf p.kimg h
      (headerOk k h = false → (s.judge q e p).1 = .refuse .header) ∧
      (headerOk k h = true → u.featuresOk e.part h = false → (s.judge q e p).1 = .refuse .feature) ∧
      (headerOk k h = true → u.featuresOk e.part h = true →
        u.mayPlace (u.freeGrid.getD 4096) (u.gridOf (u.freeGrid.getD 4096) q e p k) = false →
        (s.judge q e p).1 = .refuse .place)) ∧
    (∀ c t, s.judge q e p = (.refuse c, t) →
      exec (.packetAdmission q) s = .next ((t.consume q e x w).refuse q e.head w p c)) ∧
    ∀ k g t, s.judge q e p = (.seatGrid k g, t) → p.coop = false →
      exec (.packetAdmission q) s = .next ((t.consume q e x w).seatGrid q e.head k g)) ∧
  (∀ (s t : State) (k : Nat) (gr : Grid), s.serving = true → s.grid? k = some gr → gr.unplaced = true → gr.coop = false →
    gr.conv = 0 → s.restoreFirst gr = false →
    (∀ e ∈ s.grids, e.1 ≠ k → e.2.unplaced = true → e.2.coop = false → s.sameDispatcher e.2 gr = true →
      e.2.before gr = true → s.restoreFirst e.2 = true ∨ s.backedOff e.2 = true ∨ s.placeNext e.1 = none) →
    s.placeNext k = some t → exec (.crewPlacement k) s = .next (t.heldAll gr)) ∧
  (∀ (w : W64) (n : Nat), 0 < n → ((List.range n).map fun i => (shareOf w n i).toNat).foldl (· + ·) 0 = w.toNat) ∧
  ∀ (s : State) (d : Nat), exec (.placementBackoffExpiry d) s = .next { s with holds := s.holds.map fun h =>
    if h.1 = d ∧ h.2.2 ≤ s.clk.cache then (h.1, h.2.1, 0) else h }

/-- R371, R380, R382 to R389, R459: crews that leave their core and come back. The scheduler asks a victim to leave at a
safe point, or freezes it for a kill; a request lapses after 2^20 counts of `cyc`; a crew that may be killed leaves with
its registers and kill images in its save area; a crew that left comes back where it fits, a killed one after a page fault
of it has been acknowledged with 1; and a write of MKILL kills the live grid of that id and its descendants. -/
def Obligations.LeavingCores : Prop :=
  (∀ (s : State) (k key : Nat) (g h : Grid) (c : Crew), s.grid? k = some g → g.cls = 0 → g.unplaced = true →
    g.coop = false → s.placeNext k = none → s.victim g.part = some (key, c) → s.grid? c.grid = some h →
    let u := s.mapGangs key Gang.wake
    (u.killable key c h.kernel = true →
      exec (.preemptRequest k) s = .next (u.mapGangs key fun y => { y with frozen := true })) ∧
    (u.killable key c h.kernel = false →
      exec (.preemptRequest k) s = .next (u.setCrew key { c with preempt := some { at_ := s.clk.refc } }))) ∧
  (∀ (s : State) (key : Nat) (c : Crew) (r : PreReq), s.crew? key = some c → c.preempt = some r →
    (r.at_ + 2 ^ 20 ≤ s.clk.refc → exec (.preemptWithdrawTimeout key) s = .next (s.withdraw key)) ∧
    (s.clk.refc < r.at_ + 2 ^ 20 → exec (.preemptWithdrawTimeout key) s = .next s)) ∧
  (∀ (s t : State) (key : Nat) (c d : Crew) (g : Grid), s.crew? key = some c → s.grid? c.grid = some g →
    s.doomed key = true → g.stopped = false → (∀ x ∈ c.live, s.mayKill x = true) → s.killable key c g.kernel = true →
    let u := c.live.foldl State.quench s
    u.crew? key = some d →
    u.ctxWrites (u.crewWho key d) (killWrites d (u.crewGangs d) g.kernel) = .ok t →
    exec (.crewKill key) s = .next (t.leaveCore key d true)) ∧
  (∀ (s : State) (tag : Nat) (a : AwayCrew), s.away.get? tag = some a → s.running a.crew.grid = true → s.heldBack a = false →
    (a.killed = false → exec (.crewRestore tag) s = .next (s.comeBack tag a)) ∧
    (a.killed = true → (∀ p ∈ s.paused, ¬(p.agent = 0 ∧ p.key = tag)) →
      exec (.killedCrewRestore tag) s = .next (s.comeBack tag a)) ∧
    (∀ p pa, a.killed = true → s.paused.find? (fun p => p.agent == 0 && p.key == tag) = some p → p.entry = some pa →
      let t := s.atHome (s.plainAt pa)
      let rest : State := { t with paused := s.paused.filter fun q => !(q.agent == 0 && q.key == tag) }
      let ack := word64 (t.readPa (pa + 0x10) 8)
      (ack = 1 → exec (.killedCrewRestore tag) s = .next (rest.comeBack tag a)) ∧
      (ack = 2 → ∃ u, exec (.killedCrewRestore tag) s = .next u ∧ u.away = rest.away ∧ u.paused = rest.paused ∧
        u.reports.length = rest.reports.length + 1) ∧
      (ack ≠ 1 → ack ≠ 2 → exec (.killedCrewRestore tag) s = .next s))) ∧
  ∀ (s : State) (id : W64),
    ((∀ e ∈ s.grids, e.2.id ≠ id.setWidth 32) → exec (.mkill id) s = .next s) ∧
    ∀ e, s.grids.find? (fun e => e.2.id == id.setWidth 32) = some e →
      exec (.mkill id) s =
        .next ((s.grids.filter fun x => descends s.grids e.1 11 x.1).foldl (fun s x => s.killGrid x.1) s)

/-- R157, R305 to R308, R333, R335, R341, R342, R392, R393, R486: the lighter and the sort engine at work. A copy that
can go on performs its next part; one whose parts are done leaves its berths as R341 says and then raises its completion
word; one that failed returns them to its crew, and is reported at its end. The sort engine takes its next command, drops
one that is malformed, and sorts stably by the digits that DMASK selects. An addition of a unit to a word of this package
adds. An agent that paused posts its entry where there is room, goes on with an ACK of 1, is refused with 2, and waits
else. That the fault queue stands under key 0 (log 35) and that a copy's last part is subtracted with its berth's step
(log 59) are the model's. -/
def Obligations.EngineEvents : Prop :=
  (∀ (s : State) (cl i : Nat) (c : Copy), (s.cluster cl).copies[i]? = some c → c.paused = false →
    let d := copyDesc c.desc
    let o := copyOp cl c
    let at_ (u : State) (e : Nat) : Berth := u.berth (4 * cl + fld (endHandle e) 14 2) (fld (endHandle e) 7 7)
    let dropped (u : State) : State := u.setCluster cl { u.cluster cl with copies := (u.cluster cl).copies.eraseIdx i }
    let rises : UnitStep := .add (c.addr + 0x18) 4 1 false
    (c.failed = none → s.gated cl = false → s.inLighter cl i = true → c.done < d.total →
      (c.part = none → exec (.copyPartComplete cl i) s = .next (s.nextPart cl i c)) ∧
      (∀ x, c.part = some x → exec (.copyPartComplete cl i) s = .next (s.farPart cl i c x)) ∧
      (d.skind = 1 → d.dkind = 1 → s.spoisoned (s.padBase cl d.src + 64 * endOff d.src) d.image = false →
        s.nextPart cl i c = (s.poolStore (s.padBase cl d.dst + 64 * endOff d.dst)
          (s.scratch.bytes (s.padBase cl d.src + 64 * endOff d.src) d.image)).partDone cl i c 1)) ∧
    (c.failed = none → s.gated cl = false → d.total ≤ c.done →
      (c.ended = false → s.copyWaits cl c.id = false →
        let u := (s.giveBerths cl c).setCopy cl i { c with ended := true, work := [rises] }
        exec (.copyComplete cl i) s = .next u ∧
        (d.skind = 0 → d.dkind = 1 → at_ u d.dst = { at_ s d.dst with
          state := .full, holder := s.copyHolder cl c d,
          count := min ((at_ s d.dst).count + d.bytes) ((at_ s d.dst).size * 64) }) ∧
        (d.skind = 1 → d.dkind = 0 → at_ u d.src = if d.sfree then (at_ s d.src).freed else
          { at_ s d.src with state := .draining, holder := c.crewHolder })) ∧
      (∀ x l t, c.ended = true → c.work = x :: l → s.tryStep o x = .done t →
        exec (.copyComplete cl i) s = .next (t.setCopy cl i { c with work := l })) ∧
      (c.ended = true → c.work = [] → s.copyWaits cl c.id = false → exec (.copyComplete cl i) s = .next (dropped s))) ∧
    ∀ f, c.failed = some f →
      (∀ x l t, c.work = x :: l → s.tryStep o x = .done t →
        exec (.copyErrorComplete cl i) s = .next (t.setCopy cl i { c with work := l })) ∧
      (c.work = [] → c.ended = false →
        let u := (s.returnBerths cl c).setCopy cl i { c with ended := true, work := [rises] }
        exec (.copyErrorComplete cl i) s = .next u ∧
        (d.skind = 0 → d.dkind = 1 → at_ u d.dst = { at_ s d.dst with state := .filling, holder := c.crewHolder }) ∧
        (d.skind = 1 → d.dkind = 0 → at_ u d.src = { at_ s d.src with state := .draining, holder := c.crewHolder })) ∧
      (c.work = [] → c.ended = true → s.copyWaits cl c.id = false → ∃ u, exec (.copyErrorComplete cl i) s = .next u ∧
        (u.cluster cl).copies = (s.cluster cl).copies.eraseIdx i ∧
        (let src : Source := { die := dieOf cl, from_ := 1, unit := cl % 16 }
         u.reports.getLast? = some ⟨reportBytes [] c.who.gid f.code src 0 0 0 (crewWord c.who.index c.who.tag)⟩))) ∧
  (∀ (s : State) (o : UnitOp) (va v : W64) (n : Nat) (x : Xl), s.xlate o.agent va true = .ok x → x.home = s.ident.pkg →
    let w := s.atHome x
    w.poisoned x.pa n = false →
    s.unitStep o (.add va n v false) =
      .ok ((w.writePa noCore x.pa (leBytes n (valOf (w.readPa x.pa n) + v).toNat)).unitStamp o x)) ∧
  (∀ (s : State) (d : Nat),
    let started (j : SortJob) (rest : List SortJob) : State := s.setDie d { s.die d with sorting := some j, sortQ := rest }
    (∀ j rest, (s.die d).sorting = none → (s.die d).sortQ = j :: rest → s.hasSort d = true →
      exec (.sortStart d) s = .next (started j rest)) ∧
    ∀ j, (s.die d).sorting = some j → s.isPaused (sortPoster d) = false →
      let o := sortOp d j
      let work (t : State) (x : Option SortJob) : State := t.setDie d { t.die d with sorting := x }
      (∀ bs t, j.work = none → j.desc = [] → s.tryAct o (s.unitLoad o j.addr 64) = .done (bs, t) →
        (sortBad bs = false → exec (.sortComplete d) s = .next (work t (some { j with desc := bs }))) ∧
        (sortBad bs = true → exec (.sortComplete d) s = .next ((work t none).engineFault j.who .engine o.src))) ∧
      (∀ l t, j.work = none → j.desc ≠ [] → s.tryAct o (s.sorted o j.desc) = .done (l, t) →
        exec (.sortComplete d) s = .next (work t (some { j with work := some l }))) ∧
      (∀ x l t, j.work = some (x :: l) → s.tryStep o x = .done t →
        exec (.sortComplete d) s = .next (work t (some { j with work := some l }))) ∧
      (j.work = some [] → exec (.sortComplete d) s = .next (work s none))) ∧
  (∀ (m : Nat) (l : List (Nat × Nat)),
    (sortPairs m l).Perm l ∧ (sortPairs m l).Pairwise (fun a b => digits m a.1 ≤ digits m b.1) ∧
    ∀ k, (sortPairs m l).filter (fun e => digits m e.1 == k) = l.filter fun e => digits m e.1 == k) ∧
  ∀ (s : State) (i : Nat) (p : Paused), s.paused[i]? = some p →
    (let pa := s.xlat.next
     p.entry = none → s.xlat.room = true → s.populated pa 32 = true →
      let t := (s.atHome (s.plainAt pa)).writePa noCore pa p.bytes
      exec (.faultQueuePost i) s = .next { t with
        xlat := { t.xlat with fqtail := t.xlat.fqtail + 1 }, paused := t.paused.set i { p with entry := some pa } } ∧
      t.readPa pa 32 = p.bytes) ∧
    ∀ pa, p.agent ≠ 0 → p.entry = some pa →
      let t := s.atHome (s.plainAt pa)
      let rest : State := { t with paused := t.paused.eraseIdx i }
      let ack := word64 (t.readPa (pa + 0x10) 8)
      (ack = 1 → exec (.engineResumeOnAck i) s = .next (rest.resumePaused p)) ∧
      (ack = 2 → exec (.engineResumeOnAck i) s = .next (rest.refusePaused p)) ∧
      (ack ≠ 1 → ack ≠ 2 → exec (.engineResumeOnAck i) s = .next s)

/-- R269 to R271, R281 to R283, R393, R397 to R402: the render units at work, one access at a time. The projection stage
takes its next entry, reads its job and its block, reads and projects each item, reserves its indices and key slots, and
makes the writes that follow; the traversal unit takes the rays of an entry, reads each ray's pool and record, visits one
entry of its stack after the other, and writes its result; the generator takes and consumes a published slot of its ring,
and takes, writes and puts in flight one ray after the other; EN is what the host writes. A splat has one key for every
tile of its range. One visit for each event (log 21) and the generator's full entries (log 34) are the model's. -/
def Obligations.RenderUnits : Prop :=
  (∀ (s : State) (cl : Nat) (e : ProjEntry) (rest : List ProjEntry), (s.cluster cl).proj = none →
    (s.cluster cl).projQ = e :: rest → s.hasRender cl = true →
    exec (.projectionEntryStart cl) s = .next (s.setCluster cl { s.cluster cl with proj := some e, projQ := rest })) ∧
  (∀ (s : State) (cl : Nat) (e : ProjEntry) (g : W32) (gs : List W32), (s.cluster cl).proj = some e → e.items = g :: gs →
    s.isPaused (projPoster cl) = false →
    let o := projOp cl e
    let goes (t : State) (e : Option ProjEntry) : Prop :=
      exec (.projectionItemDone cl) s = .next (t.setCluster cl { t.cluster cl with proj := e })
    (∀ b t, e.block = none → e.item = none → s.tryAct o (s.projectBlock o e) = .done (b, t) →
      goes t (some { e with block := some b })) ∧
    (∀ b x t, e.block = some b → e.item = none → s.tryAct o (s.projectItem o e b g) = .done (x, t) →
      goes t (some { e with item := some x })) ∧
    ∀ x, e.item = some x →
      (∀ n t, x.first = none →
        s.tryAct o (s.unitReserve o (e.addr + 0x40) 8 (BitVec.ofNat 64 x.splats.length)) = .done (n, t) →
        goes t (some { e with item := some { x with first := some n.toNat } })) ∧
      (∀ b i n t, e.block = some b → x.first = some i → x.work = none →
        s.tryAct o (s.unitReserve o (e.addr + 0x48) 8 (BitVec.ofNat 64 (x.keys (leNat ((b.job.drop 0x28).take 4)) i).length))
          = .done (n, t) →
        goes t (some { e with item := some { x with work := some (x.steps e b.job i n.toNat) } })) ∧
      (∀ i y l t, x.first = some i → x.work = some (y :: l) → s.tryStep o y = .done t →
        goes t (some { e with item := some { x with work := some l } })) ∧
      ∀ i, x.first = some i → x.work = some [] →
        goes s (if gs = [] then none else some { e with items := gs, item := none })) ∧
  (∀ p : Splat, p.keys.length = (p.ty1 + 1 - p.ty0) * (p.tx1 + 1 - p.tx0)) ∧
  (∀ (s t : State) (cl : Nat) (e : TravEntry) (rest : List TravEntry) (l : List Ray),
    (s.cluster cl).travQ = e :: rest → s.hasRender cl = true → s.travPaused cl = false →
    let o := travOp cl e.who (.travIn cl)
    s.tryAct o (s.takeEntry o e) = .done (l, t) →
    exec (.traversalStart cl) s = .next (t.setCluster cl { t.cluster cl with
      travQ := (t.cluster cl).travQ.drop 1, rays := (t.cluster cl).rays ++ l }) ∧
    l.map (·.index) = e.rays) ∧
  (∀ (s : State) (cl i : Nat) (y : Ray), (s.cluster cl).rays[i]? = some y → s.travPaused cl = false →
    let o := travOp cl y.who (.trav cl y.id)
    let goes (t : State) (f : Ray → Ray) : Prop := exec (.traversalEnd cl i) s = .next (t.setCluster cl { t.cluster cl with
      rays := (t.cluster cl).rays.map fun z => if z.id = y.id then f z else z })
    (∀ x bs t, y.work = none → y.trav = some x → x.rec_ = [] →
      s.tryAct o (s.unitLoad o ((poolOf x.pool).recAt y.index) 64) = .done (bs, t) →
      goes t fun z => { z with trav := some (x.begin bs) }) ∧
    (∀ x c z t, y.work = none → y.trav = some x → x.rec_ ≠ [] → x.over = false → travCtx o x y.index = some c →
      s.tryAct o (travStep c x s) = .done (z, t) → goes t fun r => { r with trav := some z }) ∧
    (∀ x, y.work = none → y.trav = some x → x.rec_ ≠ [] → x.over = true →
      exec (.traversalEnd cl i) s = .next (s.endRay cl y x)) ∧
    (∀ x l t, y.work = some (x :: l) → y.mapped = false → s.tryStep o x = .done t →
      goes t fun z => { z with work := some l }) ∧
    (y.work = some [] → y.gen = none → exec (.traversalEnd cl i) s = .next (s.setCluster cl { s.cluster cl with
      rays := (s.cluster cl).rays.filter fun z => z.id != y.id }))) ∧
  (∀ (s : State) (x : Trav), (x.spent = true → s.rayResult x = (rayMiss 3, s)) ∧
    (x.spent = false → x.odd = false →
      (∀ h, x.best = some h → s.rayResult x = (rayHit h, s)) ∧ (x.best = none → s.rayResult x = (rayMiss 2, s)))) ∧
  (∀ (s : State) (d : Nat), s.genServes d = true → s.genPaused d = false → (s.die d).jobList.all (·.closed) = true →
    let o := s.genOp d (.gen d 0)
    (∀ g t, (s.die d).genSlot = none → s.tryAct o (s.readSlot o (s.die d).gring) = .done (g, t) →
      exec (.genJobConsume d) s = .next (t.setDie d { t.die d with genSlot := g })) ∧
    ∀ g, (s.die d).genSlot = some g →
      (∀ x l t, g.work = x :: l → s.tryStep o x = .done t →
        exec (.genJobConsume d) s = .next (t.setDie d { t.die d with genSlot := some { g with work := l } })) ∧
      (g.work = [] → g.bad = true → exec (.genJobConsume d) s = .next (s.setDie d { s.die d with genSlot := none })) ∧
      (∀ hd vs t, g.work = [] → g.bad = false → s.tryAct o (s.genViews o g.job) = .done (some (hd, vs), t) →
        exec (.genJobConsume d) s = .next (t.addJob d g.job hd vs)) ∧
      ∀ t, g.work = [] → g.bad = false → s.tryAct o (s.genViews o g.job) = .done (none, t) →
        exec (.genJobConsume d) s = .next ((t.setDie d { t.die d with genSlot := some g.refused }).badJob o g.slot)) ∧
  (∀ (s : State) (d i : Nat) (j : GenJob) (x : Nat × Nat × Nat) (xs : List (Nat × Nat × Nat)),
    (s.die d).jobList[i]? = some j → j.closed = false → s.genPaused d = false → s.hasGen d = true → j.ready.length < 32 →
    (genOrder j.desc j.head j.views).drop (j.emitted + j.ready.length) = x :: xs →
    let o := s.genOp d (.gen d (2 * j.id + 1))
    let goes (t : State) (f : GenJob → GenJob) : Prop := exec (.genRayEmit d i) s = .next (t.setDie d { t.die d with
      jobList := (t.die d).jobList.map fun z => if z.id = j.id then f z else z })
    (∀ n t, j.taken = none → s.tryAct o (s.takeRay o.agent (word64 j.desc)) = .done (some n, t) →
      goes t fun z => { z with taken := some (n, false) }) ∧
    (∀ n t, j.taken = some (n, false) → s.tryAct o (s.genPixel o (word64 j.desc) n x) = .done ((), t) →
      goes t fun z => { z with taken := some (n, true) }) ∧
    ∀ n t, j.taken = some (n, true) → s.tryAct o (s.genTrace o (word64 j.desc) n) = .done ((), t) →
      goes t fun z => { z with taken := none, ready := z.ready ++ [n] }) ∧
  ∀ (s : State) (d : Fin 4) (on : Bool),
    exec (.generatorEnable d on) s = .next (s.setDie d.val { s.die d.val with gen := on })

/-- R293 to R296, R301, R302, R304: a contribution is merged into its word as an FX64 sum or a rounded FP32 addition, and no
other byte of the line's level changes; an evicted line's bytes reach memory enciphered under its key; a walk that ends in
a well-formed leaf is cached and no other is, and which node entries are kept is free (log 10); a soft error is counted or
poisons 8 bytes of memory, of a pool or of an L1's copy; and an invalidation command queues, and
completes once no cached translation that it names is left. The byte order of key and tweak (log 42, PRESUMED) and the
numbers of the granules that a soft error names (log 60) are the model's. -/
def Obligations.MemoryEvents : Prop :=
  ∀ s : State,
    (∀ i t, s.tun[i]? = some t → ∃ u, exec (.tunMerge i) s = .next u ∧ u.tun = s.tun.eraseIdx i ∧
      (t.fx = true → word64 (u.readPa t.addr 8) = word64 (s.readPa t.addr 8) + t.val) ∧
      (t.fx = false → word32 (u.readPa t.addr 4) = fadd32 (word32 (s.readPa t.addr 4)) (t.val.setWidth 32)) ∧
      ∀ a, (a < t.addr ∨ t.addr + (if t.fx then 8 else 4) ≤ a) → u.mem.byte a = s.mem.byte a) ∧
    (∀ l : Nat, ∃ t,
      ((s.line l).tun = true → exec (.tunEviction l) s = .next t) ∧
      ((s.line l).dirty = true → (s.line l).tun = false → exec (.lineEviction l) s = .next t) ∧
      t.mem = s.mem ∧ t.tiers.bytes (l * 128) 128 =
        xtsLine false (keyBits (s.line l).key (s.line l).load) l (s.mem.bytes (l * 128) 128) ∧
      (∀ a, a / 128 ≠ l → t.tiers.byte a = s.tiers.byte a) ∧
      t.line l = { s.line l with dirty := false, tun := false }) ∧
    (∀ (die asid : Nat) (va : W64), die < 4 → asid < 2 ^ 12 → va.toNat < 2 ^ 52 →
      (∀ t, s.walk die asid va.toNat = .leaf t false → ∃ u, exec (.pageWalk die asid va) s = .next u ∧
        (u.die die).tcache = tcacheTake 16384 t (s.die die).tcache ∧
        (∀ c, (u.core c).tlb = (s.core c).tlb ∨ (u.core c).tlb = tlbTake t (s.core c).tlb ∧ c / 64 = die) ∧
        (∀ n ∈ (u.die die).nodes, n ∈ (s.die die).nodes ∨ n ∈ s.nodesRead die asid va.toNat) ∧ SameMemory s u) ∧
      ((∀ t, s.walk die asid va.toNat ≠ .leaf t false) → ∃ u, exec (.pageWalk die asid va) s = .next u ∧
        (u.die die).tcache = (s.die die).tcache ∧ u.cores = s.cores ∧ SameMemory s u)) ∧
    (∀ granule, exec (.eccError granule false) s =
      .next { s with harbour := { s.harbour with corrected := s.harbour.corrected + 1 } }) ∧
    (∀ granule, ∃ t, exec (.eccError granule true) s = .next t ∧ SameMemory s t ∧
      (granule < 2 ^ 39 → t.poisoned (8 * granule) 8 = true ∧ t.spoison = s.spoison ∧ ∀ g ∈ s.poison, g ∈ t.poison) ∧
      (2 ^ 39 ≤ granule → granule < 2 ^ 40 → t.poison = s.poison ∧ granule - 2 ^ 39 ∈ t.spoison) ∧
      (2 ^ 40 ≤ granule → t.poison = s.poison ∧ t.spoison = s.spoison ∧
        let core := (granule - 2 ^ 40) / 2 ^ 39
        let g := (granule - 2 ^ 40) % 2 ^ 39
        (t.core core).l1 = (s.core core).l1.map fun e => if e.line = g / 16 then { e with bad := g % 16 :: e.bad } else e)) ∧
    (let queued (kind asid n : Nat) : State :=
      { s with xlat := { s.xlat with cmds := s.xlat.cmds ++ [(kind, asid, s.xlat.xva, n)] } }
     ∀ (asid : BitVec 12) (n : W32), exec (.xcmdInvalidatePage asid) s = .next (queued 0 asid.toNat 0) ∧
      exec (.xcmdInvalidateRange asid n) s = .next (queued 1 asid.toNat n.toNat) ∧
      exec (.xcmdInvalidateAsid asid) s = .next (queued 2 asid.toNat 0) ∧
      exec .xcmdInvalidateAll s = .next (queued 3 0 0)) ∧
    ∀ c rest, s.xlat.cmds = c :: rest → s.reqs = [] → s.partUses c = false →
      ∃ t, exec .invalidationComplete s = .next t ∧ t.xlat = { s.xlat with cmds := rest, xseq := s.xlat.xseq + 1 } ∧
        t.tun = [] ∧ (∀ core, ∀ e ∈ (t.core core).tlb, removes c e = false) ∧
        ∀ die, (∀ e ∈ (t.die die).tcache, removes c e = false) ∧ (c.1 = 3 → (t.die die).nodes = [])

/-- R7, R11, R303, R360, R397, R446 to R450, R354, R456 to R459: the host. A request through an absent link does nothing;
a memory access reads or writes the bytes of its line under the key of its link, and fails where that key is not loaded or
in recovery mode; the registers of the control aperture take what is written and read as they stand, 8 bytes at a time,
write-only ones as 0; the feature words lock once; a partition's mask only loses bits; key commands act in the order given;
an attestation report begins with what it signs; and reports reach the mailbox while it has room. The bit of an offset that
names the link and what the attestation block reads are the model's choice (log 41). -/
def Obligations.HostEvents : Prop :=
  ∀ s : State,
    (∀ r : HostRequest,
      let key := s.harbour.hkey[r.link]
      let n := match r.write with
        | some bs => bs.length
        | none => r.len
      let u := s.atHome { pa := r.addr, home := s.ident.pkg, key := key, rc := false, cache := 0 }
      let returns (t : State) (bs : List Byte) : Prop :=
        exec (.hostMemoryAccess r) s = .next { t with harbour := { t.harbour with hostData := bs } }
      (s.linkPresent r.link = false → exec (.hostMemoryAccess r) s = .next s) ∧
      (s.linkPresent r.link = true → r.control = false →
        ((s.harbour.recovery = true ∨ s.keyLoaded key = false) → exec (.hostMemoryAccess r) s = .next s) ∧
        (s.harbour.recovery = false → s.keyLoaded key = true → 0 < n → r.addr % 128 + n ≤ 128 → s.populated r.addr n = true →
          (∀ bs, r.write = some bs → exec (.hostMemoryAccess r) s = .next (u.writePa noCore r.addr bs)) ∧
          (r.write = none → u.poisoned r.addr n = false → returns u (u.readPa r.addr n)))) ∧
      (s.linkPresent r.link = true → r.control = true →
        (∀ bs, r.write = some bs → bs.length = 8 → r.addr % 8 = 0 →
          exec (.hostMemoryAccess r) s = .next (s.writeRegister r.link r.addr (word64 bs))) ∧
        (r.write = none → r.len = 8 → r.addr % 8 = 0 → returns s (bytes64 (s.readRegister r.link r.addr))) ∧
        (r.write = none → (r.len ≠ 8 ∨ r.addr % 8 ≠ 0) → returns s (List.replicate r.len 0)))) ∧
    (∀ l : Fin 2,
      let rd (o : Nat) : W64 := s.readRegister l o
      rd 0 = s.ident.devid ∧ (∀ n : Fin 4, rd (0x010 + 8 * n.val) = s.ident.cores[n] ∧
        rd (0x030 + 8 * n.val) = s.ident.clusters[n] ∧ rd (0x050 + 8 * n.val) = s.ident.feat[n] ∧
        rd (0x070 + 8 * n.val) = s.ident.facc[n] ∧ rd (0x2010 + 8 * n.val) = s.launch.ctxva[n] ∧
        rd (0x2030 + 8 * n.val) = s.launch.ctxlen[n] ∧ rd (0x3000 + 0x40 * n.val) = (s.die n.val).gring ∧
        rd (0x3010 + 0x40 * n.val) = (s.die n.val).jobs) ∧
      rd 0x1000 = s.xlat.astbase ∧ rd 0x1018 = s.xlat.fqtail ∧ rd 0x1020 = s.xlat.fqhead ∧ rd 0x1038 = s.xlat.xseq ∧
      rd 0x2000 = s.launch.qtbase ∧ rd 0x2050 = BitVec.ofNat 64 s.grids.length ∧ rd 0x4048 = s.harbour.key.kseq ∧
      rd 0x4FF0 = s.harbour.box.mtail ∧ rd 0x4FF8 = s.harbour.box.mhead ∧
      rd 0x1030 = 0 ∧ rd 0x4FE0 = 0 ∧ (∀ k : Fin 8, rd (0x4000 + 8 * k.val) = 0) ∧
      ∀ (p : Fin 16) (k : Fin 8), rd (0x4100 + 0x80 * p.val + 8 * k.val) = 0) ∧
    (∀ v : W64,
      let wr (off : Nat) : Host.Outcome State Fault Refusal := exec (.registerWrite off v) s
      (s.linkPresent 1 = true → wr 0x10008 =
        .next { s with harbour := { s.harbour with hkey := s.harbour.hkey.set 1 (v.toNat / 2 ^ 16 % 2 ^ 12) } }) ∧
      (s.linkPresent 0 = true →
      wr 0x008 = .next { s with harbour := { s.harbour with hkey := s.harbour.hkey.set 0 (v.toNat / 2 ^ 16 % 2 ^ 12) } } ∧
      (∀ n : Fin 4, wr (0x070 + 8 * n.val) = .next (if s.ident.flock then s else
        { s with ident := { s.ident with facc := s.ident.facc.set n v } })) ∧
      wr 0x1000 = .next { s with xlat := { s.xlat with astbase := v } } ∧
      wr 0x1008 = .next { s with xlat := { s.xlat with fqbase := v } } ∧
      wr 0x1010 = .next { s with xlat := { s.xlat with fqsize := v &&& 0xFFFF } } ∧
      wr 0x1018 = .next s ∧
      wr 0x1020 = .next { s with xlat := { s.xlat with fqhead := v } } ∧
      wr 0x1028 = .next { s with xlat := { s.xlat with xva := v } } ∧
      wr 0x2000 = .next { s with launch := { s.launch with qtbase := v } } ∧
      (∀ n : Fin 4,
        wr (0x2010 + 8 * n.val) = .next { s with launch := { s.launch with ctxva := s.launch.ctxva.set n v } } ∧
        wr (0x2030 + 8 * n.val) = .next { s with launch := { s.launch with ctxlen := s.launch.ctxlen.set n v } } ∧
        wr (0x3000 + 0x40 * n.val) = .next (s.setDie n.val { s.die n.val with gring := v }) ∧
        wr (0x3008 + 0x40 * n.val) =
          .next (s.setDie n.val { s.die n.val with gen := v.getLsbD 12, gasid := v.toNat % 2 ^ 12 })) ∧
      wr 0x4FF8 = .next { s with harbour := { s.harbour with box := { s.harbour.box with mhead := v } } } ∧
      wr 0x4FE0 = exec (.mkill v) s ∧ wr 0x6400 = exec (.pcapWrite (v.setWidth 32)) s ∧
      wr 0x7A80 = exec (.attestRequest v) s ∧ (v.getLsbD 0 = true → wr 0x090 = exec .featureLock s))) ∧
    (s.ident.flock = true → exec .featureLock s = .next s) ∧
    (s.ident.flock = false →
      let facc : Vector W64 4 := Vector.ofFn fun (n : Fin 4) => s.ident.facc[n] &&& s.ident.feat[n]
      exec .featureLock s = .next { s with
        ident := { s.ident with facc := facc, flock := true },
        launch := { s.launch with pf := Vector.replicate 4 (facc[0] &&& 0x1F) } }) ∧
    (∀ (n : Fin 4) (v : W64), ∃ t, exec (.partitionFeatureMaskWrite n v) s = .next t ∧
      t.launch.pf[n] = s.launch.pf[n] &&& v ∧ (∀ m : Fin 4, m ≠ n → t.launch.pf[m] = s.launch.pf[m]) ∧ t.ident = s.ident) ∧
    (let queued (kop kid : Nat) : State := { s with harbour := { s.harbour with
        key := { s.harbour.key with cmds := s.harbour.key.cmds ++ [(kop, kid, leNat s.harbour.key.kmat)] } } }
     ∀ id : BitVec 12, exec (.keyLoad id) s = .next (queued 1 id.toNat) ∧ exec (.keyRemove id) s = .next (queued 2 id.toNat)) ∧
    (∀ kop kid mat rest, s.harbour.key.cmds = (kop, kid, mat) :: rest →
      ∃ t, exec .keyCommandComplete s = .next t ∧
        t.harbour.key.cmds = rest ∧ t.harbour.key.kseq = s.harbour.key.kseq + 1 ∧
        ((kid = 0 ∨ (kop ≠ 1 ∧ kop ≠ 2)) → t.harbour.key.kstat = 1 ∧ t.keys = s.keys) ∧
        (kid ≠ 0 → kop = 1 → t.harbour.key.kstat = 0 ∧ t.keys.get? kid = some mat) ∧
        (kid ≠ 0 → kop = 2 → t.harbour.key.kstat = 0 ∧ t.keys.get? kid = none)) ∧
    (exec (.attestRequest 1) s = .next { s with harbour := { s.harbour with
      attest := { s.harbour.attest with pending := some s.harbour.attest.nonce, done := false } } }) ∧
    (∀ v, v ≠ 1 → exec (.attestRequest v) s = .next s) ∧
    (∀ nonce, s.harbour.attest.pending = some nonce → ∃ t, exec .attestReportDone s = .next t ∧
      t.harbour.attest.done = true ∧ t.harbour.attest.pending = none ∧
      t.harbour.attest.report.take (s.reportBody nonce).length = s.reportBody nonce ∧
      t.harbour.attest.report.length = (s.reportBody nonce).length + 4627) ∧
    ∀ r rest, s.reports = r :: rest →
      let b := s.harbour.box
      ((b.mtail - b.mhead).toNat < 32 → exec .mailboxPost s = .next { s with reports := rest, harbour := { s.harbour with
        box := { b with mtail := b.mtail + 1, entries := b.entries.set (b.mtail.toNat % 32) r.bytes } } }) ∧
      (32 ≤ (b.mtail - b.mhead).toNat → exec .mailboxPost s = .next s)

/-- R452 to R455, R460: a reset leaves no program, no memory and unlocked features, and begins the next start; a
watchdog reset begins one or two; the journal never exceeds 4,096 entries; margins are planned anew after 1,024 hours, to
multiples of 100 MHz up to each island's ceiling; the power limit lowers the next island above it and raises one after ten
calm windows; and an excursion of the coolant gates every cluster island, which its end lifts. That memory holds nothing
after a reset (logs 4 and 5), and that of the islands those lowered least come first (log 39), are the model's choice. -/
def Obligations.StartsAndPower : Prop :=
  ∀ s : State,
    (∃ t, exec .powerOnReset s = .next t ∧ exec .i3cReset s = .next t ∧ t.harbour.start = s.harbour.start + 1 ∧
      t.ident.flock = false ∧ t.gangs = [] ∧ t.pilots = [] ∧ t.grids = [] ∧ t.mem = [] ∧ t.tiers = [] ∧ t.scratch = [] ∧
      t.keys = [] ∧ t.ident.facc = Vector.replicate 4 0 ∧
      (s.harbour.journal.length ≤ 4096 → t.harbour.journal.length ≤ 4096)) ∧
    (∃ t, exec .watchdogReset s = .next t ∧ t.gangs = [] ∧ t.mem = [] ∧ t.ident.flock = false ∧
      (t.harbour.start = s.harbour.start + 1 ∨ t.harbour.start = s.harbour.start + 2)) ∧
    (s.clk.hours < s.harbour.power.planned + 1024 → exec .marginReplan s = .next s) ∧
    (s.harbour.power.planned + 1024 ≤ s.clk.hours → ∃ t, exec .marginReplan s = .next t ∧
      t.harbour.power.planned = s.clk.hours ∧ t.gangs = s.gangs ∧ SameMemory s t ∧
      ∀ n < 128, ∃ i, t.harbour.power.islands.get? n = some i ∧ i.freq % 100 = 0 ∧
        i.freq ≤ s.harbour.power.ceiling n) ∧
    (∀ watts,
      let p := s.harbour.power
      let limit := min p.pcap p.pmax
      let calm := if watts * 100 < limit * 95 then p.calm + 1 else 0
      let u : State := { s with harbour := { s.harbour with power := { p with calm := calm } } }
      (∀ n, limit < watts → p.nextDown = some n → exec (.powerWindowTimer watts) s =
        .next (u.setIsland n fun i => { i with freq := i.freq - 100, lowered := i.lowered + 1 })) ∧
      (∀ n, watts ≤ limit → 10 ≤ calm → p.nextUp = some n → exec (.powerWindowTimer watts) s =
        .next (u.setIsland n fun i => { i with freq := i.freq + 100, lowered := i.lowered - 1 })) ∧
      (watts ≤ limit → calm < 10 → exec (.powerWindowTimer watts) s = .next u)) ∧
    (∀ v : W32, exec (.pcapWrite v) s =
      .next { s with harbour := { s.harbour with power := { s.harbour.power with pcap := v.toNat % 2 ^ 16 } } }) ∧
    (s.harbour.power.coolantOut = false → ∃ t, exec .coolantExcursion s = .next t ∧ t.harbour.power.coolantOut = true ∧
      (∀ n < 128, n % 32 < 16 → ∃ i, t.harbour.power.islands.get? n = some i ∧ i.gated = true) ∧
      t.reports = s.reports ++ [⟨reportBytes [] (BitVec.allOnes 32) .coolant ⟨0, 0, 0⟩ 0 0 0 0⟩]) ∧
    (s.harbour.power.coolantOut = true → ∃ t, exec .coolantRestored s = .next t ∧ t.harbour.power.coolantOut = false ∧
      ∀ n < 128, n % 32 < 16 → ∃ i, t.harbour.power.islands.get? n = some i ∧ i.gated = false)

/-- R419 to R421, R427, R457: the Balane links. The last word of NRX loads a pair of keys; a trained link comes up under it
and asks for the next; a frame in its place that verifies is taken and one that does not is asked for again, three times;
the other end's requests make the frame and those after it go out again; and totals frames carry SENT and FREED. Which
word of NRX completes a pair (log 41) and that a link is restarted at the frame counter 2^62 (log 38) are the model's
choice. -/
def Obligations.LinkEvents : Prop :=
  ∀ (s : State) (p : Fin 16),
    let x := s.port p.val
    let seen : Port := { x with failed := none, fctrRx := x.fctrRx + 1, ackc := x.ackc + 1 }
    (∀ v, exec (.linkKeyLoad p v) s = .next (s.setPort p.val { x with nrx := setWord x.nrx 3 v, nval := true })) ∧
    (x.trained = true → x.nval = true → (x.up = false ∨ 2 ^ 62 ≤ x.fctrTx.toNat) →
      ∃ t, exec (.linkBringup p) s = .next t ∧ (t.port p.val).up = true ∧ (t.port p.val).nval = false ∧
        (t.port p.val).txkey = x.ntx ∧ (t.port p.val).rxkey = x.nrx ∧ t.reports.length = s.reports.length + 1) ∧
    ((x.trained = false ∨ x.nval = false) → exec (.linkBringup p) s = .next s) ∧
    (∀ f : Frame, x.up = true → frameSized f = true → frameFctr f = x.fctrRx →
      (frameVerifies f x.rxkey x.linkid = true → s.frameArrives (x.packets f) = true →
        exec (.frameReceive p f) s = .next (s.takeFrame p.val f)) ∧
      (frameVerifies f x.rxkey x.linkid = false → s.frameArrives f.sent = true →
        let times := match x.failed with
          | some (_, k) => k + 1
          | none => 1
        exec (.frameReceive p f) s = .next (s.failFrame p.val f) ∧
        (times < 4 → s.failFrame p.val f =
          (s.setPort p.val { x with failed := some (frameFctr f, times) }).sendFrame p.val .retry [frameFctr f]))) ∧
    (∀ f : Frame, (x.up = false ∨ frameSized f = false ∨ frameFctr f ≠ x.fctrRx) →
      exec (.frameReceive p f) s = .next s) ∧
    (∀ n : W64, x.up = true → x.failed = none →
      let again (k : Nat) : State := s.setPort p.val { seen with
        asked := some (n, k),
        kept := x.kept.map fun e => if n.toNat ≤ (frameFctr e.1).toNat then (e.1, e.2 + 1) else e }
      (∀ k, x.asked = some (n, k) → k < 3 → exec (.retryRequestReceive p n) s = .next (again (k + 1))) ∧
      ((∀ k, x.asked ≠ some (n, k)) → exec (.retryRequestReceive p n) s = .next (again 1))) ∧
    (let f := sealFrame x.txkey x.linkid x.fctrTx 1 x.ackc (padTo 64 (bytes64 x.sent ++ bytes64 x.freed)) []
     x.up = true → x.spent = false → exec (.totalsFrameTimer p) s =
      .next (s.setPort p.val { x with kept := x.kept ++ [(f, 1)], fctrTx := x.fctrTx + 1 })) ∧
    ∀ sent freed : W64, x.up = true → x.failed = none → ∃ t, exec (.totalsFrameReceive p sent freed) s = .next t ∧
      (t.port p.val).peerFreed = freed ∧ (t.port p.val).fctrRx = x.fctrRx + 1 ∧ (t.port p.val).ackc = x.ackc + 1 ∧
      (x.rcvd.toNat < sent.toNat → (t.port p.val).rcvd = sent ∧ (t.port p.val).freed = x.freed + (sent - x.rcvd)) ∧
      (sent.toNat ≤ x.rcvd.toNat → (t.port p.val).rcvd = x.rcvd ∧ (t.port p.val).freed = x.freed)

/-- R210, R212, R292, R418, R424, R426, R428: requests of other packages at their home slices here. A read answers the
line and may be monitored from then on; a write stores the bytes of its mask and no other of its line; an atomic answers
the old value and stores the new one, and a reduction is acknowledged; bulk bytes under a reservation are taken; a
reservation is granted for a window, which lapses; and a request that cannot be reached is answered with its cause. Whether
bulk bytes without a reservation find room is a free value. -/
def Obligations.FabricRequests : Prop :=
  ∀ (s u : State) (k : FabPacket),
    let x : Xl := { pa := k.pa, home := u.ident.pkg, key := k.keyid, rc := false, cache := 0 }
    let v := u.atHome x
    (∀ c, k.pa % 128 = 0 → u.homeFault k 128 = some c →
      (s.take k .rd = some u → exec (.fabRd k) s = .next (u.refuseWith k c)) ∧
      (s.take k .wr = some u → exec (.fabWr k) s = .next (u.refuseWith k c))) ∧
    (s.take k .rd = some u → k.pa % 128 = 0 → u.homeFault k 128 = none → v.poisoned k.pa 128 = false →
      exec (.fabRd k) s = .next ((v.watch (k.pa / 128) k.spkg).answer k .rdr (v.readPa k.pa 128))) ∧
    (s.take k .wr = some u → k.pa % 128 = 0 → u.homeFault k 128 = none → k.payload.length = 144 →
      ∃ t, exec (.fabWr k) s = .next t ∧
        (∀ i < 128, t.mem.byte (k.pa + i) =
          if leNat (k.payload.take 16) / 2 ^ i % 2 = 1 then k.payload.getD (16 + i) 0 else v.mem.byte (k.pa + i)) ∧
        ∀ a, a / 128 ≠ k.pa / 128 → t.mem.byte a = v.mem.byte a) ∧
    (∀ e w64, atmEntries 40 k.payload = [e] → k.sz = (if w64 then .b64 else .b32) →
      let n := if w64 then 8 else 4
      let pa := k.pa + e.off
      let old := valOf (v.readPa pa n)
      k.pa % 128 = 0 → e.off % n = 0 → u.homeFault k 128 = none → v.poisoned pa n = false →
      (∀ op, s.take k .atm = some u → k.aop ≠ 14 → k.aop ≠ 15 → AtomOp.ofCode k.aop = .ok op →
        entriesClean (op == .cas) 40 k.payload = true →
        exec (.fabAtm k) s =
          .next ((v.writePa noCore pa (leBytes n (atomValue op w64 old e.v e.cmp).toNat)).answer k .atr (bytes64 old))) ∧
      (∀ op, s.take k .red = some u → RedOp.ofCode k.aop = .ok op → entriesClean false 40 k.payload = true →
        exec (.fabRed k) s =
          .next ((v.writePa noCore pa (leBytes n (redValue op w64 old e.v).toNat)).answer k .wra []))) ∧
    (s.take k .blk = some u →
      let n := k.payload.length
      (∀ p, (List.range 16).find? (fun p => k.rsv && (u.port p).covers k.spkg n u.clk.cache) = some p →
        exec (.fabBlk k) s = .next ((u.setPort p ((u.port p).spend k.spkg n u.clk.cache)).takeBulk k)) ∧
      ((∀ p < 16, (k.rsv && (u.port p).covers k.spkg n u.clk.cache) = false) →
        let w : State := { u with choice := u.choice + 1 }
        exec (.fabBlk k) s = .next (w.takeBulk k) ∨
        exec (.fabBlk k) s = .next (w.answer k .drop (leBytes 8 k.pa)))) ∧
    (s.take k .resv = some u →
      let n := min (leNat (k.payload.take 8)) grantBytes
      let p := u.portFor k
      let w := (k.spkg, n, u.clk.cache + grantCycles)
      exec (.fabResv k) s =
        .next ((u.setPort p { u.port p with windows := (u.port p).windows ++ [w] }).answer k .rgnt (leBytes 8 n))) ∧
    ∀ p : Fin 16, exec (.reservationWindowExpiry p) s =
      .next (s.setPort p.val { s.port p.val with
        windows := (s.port p.val).windows.filter fun w => decide (s.clk.cache < w.2.2) })

/-- R161, R292, R358, R421, R424, R425, R428: answers and notices of other packages. An answer of the kind that belongs
to its request reaches the one that waits for it; an error is PAGE with its cause for 0 to 7 and FABRIC else; a notice
fires the monitors of its line; a weight message is a request served at the record, a grant or a return; a dropped
packet's source asks for a reservation, and sends the packet again under the grant. The numbers of the kinds of `WGT` are
the model's (log 23). -/
def Obligations.FabricAnswers : Prop :=
  ∀ (s u : State) (k : FabPacket),
    (∀ r, u.asked k = some r →
      (s.take k .rdr = some u → r.packet.opc = Opc.rd.num → exec (.fabRdr k) s = .next (u.deliver r k.payload).goOn) ∧
      (s.take k .wra = some u →
        (r.packet.opc = Opc.wr.num ∨ r.packet.opc = Opc.red.num ∨ r.packet.opc = Opc.atm.num) →
        exec (.fabWra k) s = .next (u.deliver r k.payload).goOn) ∧
      (s.take k .atr = some u → r.packet.opc = Opc.atm.num → exec (.fabAtr k) s = .next (u.deliver r k.payload).goOn) ∧
      (s.take k .blka = some u → r.packet.opc = Opc.blk.num → exec (.fabBlka k) s = .next (u.deliver r k.payload).goOn) ∧
      (∀ (a : Issuer) (c : ScalarCtx) bs, r.for_ = .scalar a → u.sctx a = some c → c.wait = .remote r.rid →
        u.deliver r bs = (u.dropReq r).setWait a (.answered bs)) ∧
      (∀ (a : Issuer) (c : ScalarCtx) f, r.for_ = .scalar a → u.sctx a = some c → c.wait = .remote r.rid →
        u.failReq r f = (u.dropReq r).setWait a (.answerErr f)) ∧
      (s.take k .err = some u →
        exec (.fabErr k) s = .next (u.failReq r (errTrap (leNat (k.payload.take 1)))).goOn) ∧
      (s.take k .rgnt = some u →
        let left := u.granted.getD k.spkg 0
        exec (.fabRgnt k) s =
          .next ({ u with granted := u.granted.set k.spkg (left + leNat (k.payload.take 8)) }.send r.packet))) ∧
    (∀ r, u.dropped k = some r → s.take k .drop = some u → exec (.fabDrop k) s =
      .next (u.send { u.packet r.dst .resv (leBytes 8 r.packet.payload.length) with rid := k.rid })) ∧
    (∀ n, (errTrap n).hard = true ∧
      (n < 8 → (errTrap n).code = .page ∧ ∃ c, (errTrap n).cause = some c ∧ c.num = n) ∧
      (8 ≤ n → (errTrap n).code = .fabric)) ∧
    (s.take k .mon = some u → exec (.fabMon k) s = .next (u.fireLine (k.spkg * 2 ^ 35 + k.pa / 128))) ∧
    (s.take k .wgt = some u →
      let v := word64 k.payload
      let x : Xl := { pa := k.pa, home := u.ident.pkg, key := k.keyid, rc := false, cache := 0 }
      let kind := leNat ((k.payload.drop 8).take 8)
      (kind = 0 → u.homeFault k 32 = none →
        exec (.fabWgt k) s = .next ((u.addOut x v).answer k .wgt (bytes64 v ++ leBytes 8 1))) ∧
      (kind = 1 → exec (.fabWgt k) s = .next (u.takeGrant k v)) ∧
      (kind = 2 → u.homeFault k 32 = none → exec (.fabWgt k) s = .next (u.subOut x v)))

/-- R431 to R435, R437 to R441, R487: collectives and barriers of the fabric. A contribution reaches the slot of its
switch, which a first one opens; sums and extremes of 64-bit elements are combined as integers; an answer reaches its
collective; a slot is closed by its timeout and freed after its period. An arrival at a barrier of this package is
counted at its home, an instance that is not complete in its time fails, and any other stays. -/
def Obligations.CollectivesAndBarriers : Prop :=
  ∀ s : State,
    (∀ (k : FabPacket) (t : State), s.takeCtb k = some t →
      let c := k.pa % 2 ^ 32
      let cid := k.pa / 2 ^ 32
      (∀ x u, t.slot? k.sw (collPort k.aux2) cid = some x → t.intoSlot x k c = some u →
        exec (.fabCtb k) s = .next u) ∧
      (∀ x u v, t.slot? k.sw (collPort k.aux2) cid = none → t.openSlot k = some (x, u) → u.intoSlot x k c = some v →
        exec (.fabCtb k) s = .next v ∧ x.word = k.aux2 ∧ x.opened = s.clk.link)) ∧
    (∀ (w : W64) (a b : List Byte), collTy w = 1 → (collOpc w = 0 ∨ collOpc w = 1 ∨ collOpc w = 2) →
      let p := word64 a
      let q := word64 b
      (collOpc w = 0 → word64 (combine w a b) = p + q) ∧
      (collOpc w = 1 → (word64 (combine w a b)).toInt = max p.toInt q.toInt) ∧
      (collOpc w = 2 → (word64 (combine w a b)).toInt = min p.toInt q.toInt)) ∧
    (∀ (k : FabPacket) (t : State),
      (s.take k .crs = some t → exec (.fabCrs k) s = .next (t.answerChunk k)) ∧
      (s.take k .closed = some t → exec (.fabClosed k) s = .next (t.answerChunk k))) ∧
    (∀ (n : Nat) (x : Slot), s.slots.find? (fun x => x.id == n) = some x →
      let waits := x.chunks.filter x.isOpen
      (x.closed = none → x.tout ≤ s.clk.link - x.opened → waits ≠ [] →
        exec (.collectiveSlotTimeout n) s = .next (waits.foldl (fun s c => match s.slots.find? fun y => y.id == n with
          | some y => s.endChunk y c
          | none => s) (s.putSlot { x with closed := some s.clk.link }))) ∧
      (x.closed ≠ none → exec (.collectiveSlotTimeout n) s = .next s) ∧
      ((match x.closed with
          | some t => t + x.tout ≤ s.clk.link
          | none => x.sent + 2 * x.tout ≤ s.clk.link) →
        (∀ c ∈ x.chunks, ∃ e ∈ x.results, e.1 = c) →
        exec (.collectiveSlotFree n) s =
          .next (x.late.foldl (fun s e => s.closedTo x e.2 e.1 none)
            { s with slots := s.slots.filter fun y => y.id != n }))) ∧
    (∀ (i : Nat) (a : Arrival), s.arrivals[i]? = some a →
      exec (.fbarArrival i) s = .next ({ s with arrivals := s.arrivals.eraseIdx i }.countArrival a)) ∧
    ∀ (i : Nat) (a : Arrival), s.waiting[i]? = some a →
      let d := s.fbarAt a.pa
      let die := dieOfPa a.pa
      let over_ := d.arr ≠ 0 ∧ d.arr ≠ d.nmem ∧ d.tout ≤ (s.cyc die - d.t0).toNat
      (over_ → exec (.fbarTimeout i) s =
        .next ((s.waiting.filter fun x => x.pa == a.pa).foldl State.failFbar
          ({ s with waiting := s.waiting.filter fun x => x.pa != a.pa }.report none [] .fabric
            { die := die, from_ := 7, unit := 0 } 0 0 (BitVec.ofNat 64 a.pa) 0))) ∧
      (¬over_ → exec (.fbarTimeout i) s = .next s)

/-! ## The step, words, memory and reset -/

/-- R48, R49, R51, R54, R76: a step executes what its turn fetches and decodes: the instruction at SPC of a scalar stream
that may issue, with its second word where the first one's opcode asks for it; the lane word of the run that holds an
issue slot; or an event of the package. The bytes are those that stand at the translated address. What else a step does is
the turn itself: the head of the agenda with the time that passes before it (log 1), and `cur`. -/
def Obligations.StepRuns : Prop :=
  (∀ (s : State) (t : Agenda) (rest : List Agenda), s.agenda = t :: rest →
    s.turn = (t.turn, ({ s with agenda := rest }.pass t.pass).tick t.turn)) ∧
  (∀ (s t u : State) (a : Issuer) (c : ScalarCtx) (w w1 : Nat) (i : Instr),
    (s.turn = match a with
      | .gang g => (.gang g, t)
      | .pilot cl => (.pilot cl, t)) →
    t.scalarReady a = true → (t.takePort a).1 = true → (t.takePort a).2.sctx a = some c → c.pc.toNat % 4 = 0 →
    (let v : State := { (t.takePort a).2 with cur := match a with
        | .gang g => .gang g
        | .pilot cl => .pilot cl }
     v.fetchScalar a c.pc = .ok (w, w1, u)) →
    decodeScalar w w1 = .ok i → step s = exec i u) ∧
  (∀ (s t u : State) (core slot g : Nat) (sl : Fin 2) (y : Gang) (k : Kernel) (w : Nat) (i : Instr),
    s.turn = (.lane core slot, t) → t.laneReady core slot = some (g, sl) → t.gang? g = some y →
    t.kernel (.gang g) = some k → y.lpc[sl].live = true → y.lpc[sl].index < k.laneCount →
    { t with cur := .lane g sl }.fetchLane (.gang g) (.slot g sl.val)
      (k.image + BitVec.ofNat 64 (k.laneOff + 12 * y.lpc[sl].index)) = .ok (w, u) →
    decodeLane w = .ok i → step s = exec i u) ∧
  (∀ (s t : State) (e : Instr), s.turn = (.event e, t) → isEvent e = true → step s = exec e { t with cur := .none }) ∧
  (∀ (s : State) (a : Issuer) (r : Reader) (va : W64) (x : Xl) (t : State) (n : Nat),
    s.access (s.who a) va n false false = .ok (x, t) → s.fetchBytes a r va n = .ok (t.mem.bytes x.pa n, t)) ∧
  (∀ (s t : State) (a : Issuer) (pc : W64) (bs : List Byte), s.fetchBytes a (.scalar a) pc 4 = .ok (bs, t) →
    (leNat bs / 2 ^ 25 % 2 ^ 7 < 0x70 → s.fetchScalar a pc = .ok (leNat bs, 0, t)) ∧
    (∀ cs u, 0x70 ≤ leNat bs / 2 ^ 25 % 2 ^ 7 → t.fetchBytes a (.scalar a) (pc + 4) 4 = .ok (cs, u) →
      s.fetchScalar a pc = .ok (leNat bs, leNat cs, u)))

/-- The words that the spec writes out for its own examples decode to the instructions that they stand for: scalar words of
forms A to D, L and M, and lane words of the integer, floating-point, conversion, control and render rows. -/
def Obligations.DecodeWords : Prop :=
  let lane (w2 w1 w0 : Nat) : Option Instr := decodeTableWord 96 (w2 * 2 ^ 64 + w1 * 2 ^ 32 + w0)
  let hdr (e : Bool) (stall : Fin 16) (gn : Bool) (gp : PReg) (wm : BitVec 6) : LaneHdr :=
    { u := false, e := e, stall := stall, gn := gn, gp := gp, st := 0, wm := wm }
  let plain : FMod := { rm := .rne, sat := false, na := false, nb := false, nc := false }
  decodeTableWord 32 0x1C18000A = some (.smovi 3 10) ∧
  decodeTableWord 32 0x02104180 = some (.sadd 2 2 3) ∧
  decodeTableWord 32 0x04187FFF = some (.saddImm 3 3 (-1)) ∧
  decodeTableWord 32 0x18486000 = some (.scmpImm .ne 1 3 0) ∧
  decodeTableWord 32 0x22BFFFFD = some (.sbk 1 false (-3)) ∧
  decodeTableWord 32 0x2C000000 = some .sexit ∧
  decodeTableWord 32 0x60008280 = some (.xcpy 4 5) ∧
  decodeTableWord 32 0x66008000 = some (.xcol 4) ∧
  decodeTableWord 32 0x6A428000 = some (.tqSteal 8 20) ∧
  lane 0x08952008 0x20081018 0 = some (.ffma (hdr true 5 false 2 1) .f32 plain (.v 4) (.v 1) (.reg (.v 2)) (.reg (.v 3))) ∧
  lane 0x08457000 0x38280002 0x3F000000 = some (.fmul (hdr false 5 false 7 0) .f32 plain (.v 7) (.v 5) (.imm 0x3F000000)) ∧
  lane 0x00437000 0x40480802 1 = some (.iadd (hdr false 3 false 7 0) .n32 false (.v 8) (.v 9) (.imm 1)) ∧
  lane 0x0283700E 0x88098002 1 = some (.icmp (hdr false 3 false 7 1) .i32 .tst 1 (.v 1) (.imm 1)) ∧
  lane 0x10457000 0x50404800 0x00080002 =
    some (.cvtSr (hdr false 5 false 7 0) ⟨.bf16, false, 0, 8⟩ (.v 10) (.v 8) (.v 9)) ∧
  lane 0x24109000 0x00000070 0x0000000A = some (.bra (hdr true 0 true 1 0) 10 14) ∧
  lane 0x24107000 0x000000A8 0x40000013 = some (.braLoop (hdr true 0 false 7 0) 19 21) ∧
  lane 0x24503000 0 0 = some (.brk (hdr true 0 false 3 0)) ∧
  lane 0x33407000 0x07A83880 0x00000002 = some (.fbw (hdr false 0 false 7 0) 0 .rgba32f (.s 21) (.v 7) 16)

/-- Decoding what the encoder makes of a well-formed instruction gives the instruction back, with every operand: no bit of
an encoding is dropped (R49 to R56, R68 to R73). -/
def Obligations.DecodeEncode : Prop := ∀ i : Instr, Laws.WordRoundTrip.Statement i

/-- Every step keeps the three memories in their canonical form: addresses strictly rising, and no byte listed that reads
as an unlisted one does. The form, and the 0 that an unlisted byte reads as, are the model's choice (logs 4 and 5). -/
def Obligations.MemoriesStayCanonical : Prop :=
  ∀ s t : State, State.canonical s → step s = .next t → State.canonical t

/-- R116, R450, R460: what reset leaves: memories in canonical form with nothing listed, no stream, no grid, no key but 0,
no accepted feature and no lock, HKEY 0, no link up, and the code table of every core at c - 8 for entry c in `bf16`. -/
def Obligations.ResetState : Prop :=
  let r := State.reset
  State.canonical r ∧ (∀ a, r.mem.byte a = 0) ∧ r.gangs = [] ∧ r.pilots = [] ∧ r.crews = [] ∧ r.grids = [] ∧
  (∀ k, r.keyLoaded k = true ↔ k = 0) ∧ r.ident.flock = false ∧ r.serving = false ∧
  (∀ n : Fin 4, r.ident.facc[n] = 0 ∧ r.launch.pf[n] = 0) ∧ (∀ l : Fin 2, r.harbour.hkey[l] = 0) ∧
  (∀ p, (r.port p).up = false ∧ (r.port p).nval = false) ∧
  (∀ core, (r.core core).lut.toList = [0xC100, 0xC0E0, 0xC0C0, 0xC0A0, 0xC080, 0xC040, 0xC000, 0xBF80, 0, 0x3F80, 0x4000,
    0x4040, 0x4080, 0x40A0, 0x40C0, 0x40E0]) ∧
  ∀ core i, (r.berth core i).state = .free

/-- R22, R59, R61, R64, R128, R206, R318: frames. What `wrote` and `advanced` say of a register-only scalar instruction
leaves every other register, stream and memory as it was; a scalar store of memory of this package, whose line stands under
its page's key with no contribution on its way to it and has room in its slice, changes the bytes stored to and no other,
and of the machine nothing but its line's stamp, copies and monitors, the sleeps that these end, its crew's log and its own
stream; and a scalar load under the same conditions, of a gang that holds no effects, changes no byte. A fixed-latency lane
word changes no lane register, predicate or byte of memory when it issues, and of other gangs nothing; a word that performs or holds
effects changes no lane register, predicate or scalar register of any gang then; when results land, by its latency or by the
completion of a `var` word, the lanes of the registers and predicates that they name take them, and every other lane,
register, predicate and byte stands, with the gang's scalar stream and slots, and other gangs. -/
def Obligations.StoreFrame : Prop :=
  (∀ (s : State) (a : Issuer) (c : ScalarCtx) (n : Nat) (d : SReg) (v : W64), s.sctx a = some c →
    let t := wrote s a c n d v
    let u := advanced s a c n
    SameMemory s t ∧ SameMemory s u ∧ t.crews = s.crews ∧ u.crews = s.crews ∧ t.cores = s.cores ∧ u.cores = s.cores ∧
    (∀ b, b ≠ a → t.sctx b = s.sctx b ∧ u.sctx b = s.sctx b) ∧
    (∃ x, u.sctx a = some x ∧ x.s = c.s ∧ x.k = c.k ∧ x.mode = c.mode) ∧
    (∃ x, t.sctx a = some x ∧ x.k = c.k ∧ x.mode = c.mode ∧ x.s[d.val] = v ∧
      ∀ r : SReg, r ≠ d → x.s[r.val] = c.s[r.val]) ∧
    ∀ g y, s.gang? g = some y → ∃ z w, t.gang? g = some z ∧ u.gang? g = some w ∧ z.v = y.v ∧ w.v = y.v ∧ z.p = y.p ∧
      w.p = y.p ∧ z.lpc = y.lpc ∧ w.lpc = y.lpc ∧ z.queue = y.queue ∧ w.queue = y.queue) ∧
  (∀ (c : LaneCtx) (o : LaneOut) (t u : State), Produces c t o u →
    (∀ g n, u.vreg g n = t.vreg g n) ∧ (∀ g p, u.preg g p = t.preg g p) ∧ SameMemory t u ∧ u.crews = t.crews ∧
    u.pilots = t.pilots ∧ (∀ g, g ≠ c.g → u.gang? g = t.gang? g) ∧
    ∀ y, t.gang? c.g = some y → ∃ z, u.gang? c.g = some z ∧ z.sc = y.sc ∧ z.lpc[1 - c.slot] = y.lpc[1 - c.slot]) ∧
  (∀ (t u : State) (c : LaneCtx) (o : WordOrder) (ops : List (Fin 32 × MemOp)), t.wordEffects c o ops = .ok u →
    ∀ g y, t.gang? g = some y → ∃ z, u.gang? g = some z ∧ z.v = y.v ∧ z.p = y.p ∧ z.sc.s = y.sc.s ∧ z.sc.k = y.sc.k) ∧
  (∀ (s : State) (g : Nat) (ws : List LaneWrite) (token : Nat) (v : VarPend),
    let lands (ws : List LaneWrite) (t : State) : Prop :=
      (∀ (n : VReg) (l : Fin 32), (∀ w ∈ ws, w.dst = .v n → w.mask.getLsbD l.val = false) →
        (t.vreg g n.val)[l] = (s.vreg g n.val)[l]) ∧
      (∀ (p : PReg) (l : Fin 32), (∀ w ∈ ws, w.dst = .p p → w.mask.getLsbD l.val = false) →
        (t.preg g p).getLsbD l.val = (s.preg g p).getLsbD l.val) ∧
      SameMemory s t ∧ (∀ h, h ≠ g → t.gang? h = s.gang? h) ∧
      ∀ y, s.gang? g = some y → ∃ z, t.gang? g = some z ∧ z.sc = y.sc ∧ z.lpc = y.lpc
    lands ws (s.complete g ws token) ∧ lands v.writes (s.completeVar g v)) ∧
  (∀ (s : State) (g : Nat) (y : Gang) (w : LaneWrite) (l : Fin 32), s.gang? g = some y → w.mask.getLsbD l.val = true →
    (∀ n : VReg, w.dst = .v n → (n.val < 64 ∨ ∃ b k e, y.ext = some b ∧ s.crew? y.crew = some k ∧ k.ext[b]? = some e) →
      ((s.landWrite g w).vreg g n.val)[l] = w.vals[l]) ∧
    ∀ p : PReg, w.dst = .p p → p.val < 7 → ((s.landWrite g w).preg g p).getLsbD l.val = (w.vals[l]).getLsbD 0) ∧
  ∀ (s : State) (a : Issuer) (c : ScalarCtx) (d b : SReg) (i : BitVec 13) (j : BitVec 32) (sz : ScalarSize) (sg : Bool),
    Issues s a c → c.wait = .none →
    let near := c.s[b.val] + i.signExtend 64
    let far := c.s[b.val] + j.signExtend 64
    let n := sizeBytes sz
    let changed (l : Nat) : Nat := (s.lines.filter fun e => e.2.dirty && sliceOf e.1 == sliceOf l).length
    let roomy (l : Nat) : Prop := (s.line l).dirty = true ∨ changed l < 3072
    let unheld : Prop := ∀ g y, a = .gang g → s.gang? g = some y → y.held = [] ∧ y.commits = []
    let still (x : Xl) : Prop := x.home = s.ident.pkg ∧ (∀ t ∈ s.tun, lineOf t.addr ≠ lineOf x.pa) ∧
      ∀ l, s.lines.get? (lineOf x.pa) = some l → (l.key = 0 ↔ x.key = 0) ∧ l.load = s.keyNo x.key
    let kept (t : State) : Prop := t.tiers = s.tiers ∧ t.scratch = s.scratch ∧ t.grids = s.grids ∧ t.clusters = s.clusters ∧
      t.dies = s.dies ∧ t.ident = s.ident ∧ t.launch = s.launch ∧ t.clk = s.clk ∧ ∀ e, e ≠ a → (t.sctx e).map awakeCtx = (s.sctx e).map awakeCtx
    let stored (x : Xl) (bs : List Byte) (t : State) : Prop := kept t ∧ (∀ k < bs.length, t.mem.byte (x.pa + k) = bs.getD k 0) ∧
      ∀ p, (p < x.pa ∨ x.pa + bs.length ≤ p) → t.mem.byte p = s.mem.byte p
    (∀ x u, near.toNat % 8 = 0 → s.xlate (s.who a) near true = .ok x → still x → roomy (lineOf x.pa) →
      s.plainStore (s.who a) near (leBytes 8 c.s[d.val].toNat) = .ok u →
      ∃ t, exec (.sst d b i) s = .next t ∧ stored x (leBytes 8 c.s[d.val].toNat) t) ∧
    (∀ x u, far.toNat % n = 0 → s.xlate (s.who a) far true = .ok x → still x → roomy (lineOf x.pa) →
      s.plainStore (s.who a) far (leBytes n c.s[d.val].toNat) = .ok u →
      ∃ t, exec (.sstLong sz d b j) s = .next t ∧ stored x (leBytes n c.s[d.val].toNat) t) ∧
    (∀ x bs u, unheld → Writable s a d → near.toNat % 8 = 0 → s.xlate (s.who a) near false = .ok x → still x →
      s.plainLoad (s.who a) near 8 = .ok (bs, u) →
      ∃ t, exec (.sld d b i) s = .next t ∧ kept t ∧ t.mem = s.mem ∧ bs = s.mem.bytes x.pa 8) ∧
    ∀ x bs u, unheld → Writable s a d → far.toNat % n = 0 → s.xlate (s.who a) far false = .ok x → still x →
      s.plainLoad (s.who a) far n = .ok (bs, u) →
      ∃ t, exec (.sldLong sz sg d b j) s = .next t ∧ kept t ∧ t.mem = s.mem ∧ bs = s.mem.bytes x.pa n

/-- R74, R75, R77: a gang-only opcode in a pilot's stream, a pilot-only opcode in a gang's stream, and an instruction of a
feature that was not accepted raise ILLEGAL_OP at their own address; so do the lane words of RENDER and of BLOCKFP. The
faults of a lane word that depend on no operand come first, in the order of R77: ILLEGAL_OP, EXTREG, QUEUE_MAP,
STALL_SHORT. -/
def Obligations.StreamKinds : Prop :=
  (∀ (s : State) (cl : Nat) (c : ScalarCtx), Issues s (.pilot cl) c →
    ∀ (d x y : SReg) (n : BitVec 13) (b : BitVec 7) (q : Fin 64) (p : DrainPath) (l : LaneSel) (k : Fin 16),
      let fault := Host.Outcome.next (trapped s (.pilot cl) c { code := .illegalOp })
      ∀ i ∈ [Instr.ldisp n, .ldispReg x n, .lsync, .slrd d q l, .barArr d b, .barWt b x, .barSync b, .barExp b x,
          .barInit b x, .fbar d x, .xregAcq, .xregRel, .xcpy x y, .xdrain p, .srt x, .xcol x, .tqTake d x, .tqSteal d x,
          .tqGive x y, .glaunch q d x y, .wsplit d x, .wret x, .spchk k],
        exec i s = fault) ∧
  (∀ (s : State) (g : Nat) (c : ScalarCtx), Issues s (.gang g) c → Traps s (.gang g) →
    ∀ (d x y : SReg) (m : MmaMod) (t : AccSel) (f : MmaFmt) (n : Fin 64) (sc : MfenceScope) (q : Fin 32),
      ∀ i ∈ [mmaInstr f m d x y t, Instr.mwt n, .mfence sc, .mbxTake d x, .rqSend q x],
        exec i s = .next (trapped s (.gang g) c { code := .illegalOp })) ∧
  (∀ (s : State) (a : Issuer) (c : ScalarCtx), Issues s a c → Traps s a →
    ∀ (d x y : SReg) (m : MmaMod) (t : AccSel) (core q : Fin 4),
      (s.hasFeature a .fabric = false → exec (.fbar d x) s = .next (trapped s a c { code := .illegalOp }) ∧
        exec (.xcol x) s = .next (trapped s a c { code := .illegalOp })) ∧
      (s.hasFeature a .lut4 = false → exec (.mmaLut4 m d x y t) s = .next (trapped s a c { code := .illegalOp }) ∧
        exec (.ctabW core q x) s = .next (trapped s a c { code := .illegalOp })) ∧
      (s.hasFeature a .sparse = false → m.p = true → ∀ f,
        exec (mmaInstr f m d x y t) s = .next (trapped s a c { code := .illegalOp })) ∧
      (s.hasFeature a .blockfp = false → exec (.mmaBx8 m d x y t) s = .next (trapped s a c { code := .illegalOp }) ∧
        exec (.mmaBx6 m d x y t) s = .next (trapped s a c { code := .illegalOp }) ∧
        exec (.mmaBx4 m d x y t) s = .next (trapped s a c { code := .illegalOp }))) ∧
  (∀ (h : LaneHdr) (d a b e : Opd) (r : QReg) (vp : PReg) (va vb vc vd : VReg) (sa pt word : Fin 32) (off tm : BitVec 16)
    (fmt : PixelFmt) (w64 fx : Bool) (pb fp : Fin 64) (m : QPackMod) (k bsa bsb : Fin 4) (rm : Rm),
    (∀ i ∈ [Instr.gproj h r a pt, .pproj h r a pt, .geval h vd a b, .gblend h vp vd a b, .gback h vp vd a b vc,
        .gscat h tm fx fp a vc, .rgen h sa b e, .trace h pb r a pt e, .rayld h word w64 d sa b, .rayst h word w64 sa b e,
        .hitq h vd sa b, .rpush h d sa, .rpop h sa b, .fbw h off fmt a b vc], laneFeature i = some .render) ∧
    ∀ i ∈ [Instr.qpackBx8 h m vd va vc, .qpackBx6 h m vd va vc, .qpackBx4 h m vd va vc, .qunpackBx8 h k bsa d va vc,
        .qunpackBx6 h k bsa d va vc, .qunpackBx4 h k bsa d va vc, .bxdotBx8 h rm bsa bsb d va vb e,
        .bxdotBx6 h rm bsa bsb d va vb e, .bxdotBx4 h rm bsa bsb d va vb e], laneFeature i = some .blockfp) ∧
  ∀ (s : State) (i : Instr) (li : LaneInfo) (g : Nat) (slot : Fin 2) (y : Gang), s.cur = .lane g slot →
    i.laneInfo = some li → s.gang? g = some y → LaneTraps s g y →
    let l := y.lpc[slot]
    let now := s.clk.arith
    l.live = true → l.earliest ≤ now → (l.wait = .none ∨ ∃ n, l.wait = .nap n ∧ n ≤ now) → (l.fresh = true → y.fix = []) →
    s.landFix g now = s →
    let declined := ∃ f, laneFeature i = some f ∧ s.hasFeature (.gang g) f = false
    let repeated := li.ends = true ∧ ∃ m, y.arm = some m ∧ m.active = true ∧ m.start ≤ l.index ∧ l.index < m.start + m.len
    let illegal := declined ∨ repeated
    let ext := y.ext = none ∧ ∃ x ∈ wordNames li, ∃ n, x.vnum = some n ∧ 64 ≤ n
    let queue := (∃ q ∈ li.pops, (y.bound q).1 ≠ 5 ∧ (y.bound q).1 ≠ 6) ∨
      ∃ q, li.push = some q ∧ (y.bound q).1 ∉ pushKinds i
    let stops (code : Code) : Prop := exec i s = .next (laneTrapped s g slot y { code := code })
    (illegal → stops .illegalOp) ∧ (¬illegal → ext → stops .extreg) ∧ (¬illegal → ¬ext → queue → stops .queueMap) ∧
      (¬illegal → ¬ext → ¬queue → stallShort y li = true → stops .stallShort)
end

