-- ==== Sys2Proof/Laws/Memory.lean ====
section
/-!
SUPPORT. Tables and memory: what a write leaves at its key and everywhere else, and that every memory operation keeps
the canonical form.
-/

namespace Sys2Proof.Machine

/-! ## Tables -/

@[simp] theorem Tbl.get?_set_self {α : Type} (t : Tbl α) (k : Nat) (x : α) : (t.set k x).get? k = some x := by
  induction t with
  | nil => simp [Tbl.set, Tbl.get?]
  | cons e t ih =>
    obtain ⟨j, y⟩ := e
    simp only [Tbl.set]
    split
    · simp [Tbl.get?]
    · split
      · simp [Tbl.get?]
      · next h => simp [Tbl.get?, h, ih]

theorem Tbl.get?_set_ne {α : Type} (t : Tbl α) {j k : Nat} (x : α) (h : j ≠ k) :
    (t.set k x).get? j = t.get? j := by
  induction t with
  | nil => simp [Tbl.set, Tbl.get?, h]
  | cons e t ih =>
    obtain ⟨i, y⟩ := e
    simp only [Tbl.set]
    split
    · simp [Tbl.get?, h]
    · split
      · next hk => subst hk; simp [Tbl.get?, h]
      · simp [Tbl.get?, ih]

theorem Tbl.get?_set {α : Type} (t : Tbl α) (j k : Nat) (x : α) :
    (t.set k x).get? j = if j = k then some x else t.get? j := by
  split
  · next h => subst h; simp
  · next h => exact Tbl.get?_set_ne t x h

@[simp] theorem Tbl.set_set {α : Type} (t : Tbl α) (k : Nat) (x y : α) : (t.set k x).set k y = t.set k y := by
  induction t with
  | nil => simp [Tbl.set]
  | cons e t ih =>
    obtain ⟨j, z⟩ := e
    simp only [Tbl.set]
    split
    · simp [Tbl.set]
    · split
      · simp [Tbl.set]
      · next h h' => simp [Tbl.set, h, h', ih]

@[simp] theorem Tbl.getD_set_self {α : Type} (t : Tbl α) (k : Nat) (x y : α) : (t.set k x).getD k y = x := by
  simp [Tbl.getD]

theorem Tbl.getD_set_ne {α : Type} (t : Tbl α) {j k : Nat} (x y : α) (h : j ≠ k) :
    (t.set k x).getD j y = t.getD j y := by
  simp [Tbl.getD, Tbl.get?_set_ne t x h]

@[simp] theorem Tbl.get?_erase_self {α : Type} (t : Tbl α) (k : Nat) : (t.erase k).get? k = none := by
  induction t with
  | nil => rfl
  | cons e t ih =>
    obtain ⟨j, y⟩ := e
    by_cases h : j = k
    · subst h; simpa [Tbl.erase] using ih
    · have h' : ¬k = j := fun e => h e.symm
      simpa [Tbl.erase, h, Tbl.get?, h'] using ih

theorem Tbl.get?_erase_ne {α : Type} (t : Tbl α) {j k : Nat} (h : j ≠ k) : (t.erase k).get? j = t.get? j := by
  induction t with
  | nil => rfl
  | cons e t ih =>
    obtain ⟨i, y⟩ := e
    by_cases hk : i = k
    · subst hk; simpa [Tbl.erase, Tbl.get?, h] using ih
    · simp only [Tbl.erase, bne_iff_ne, ne_eq, hk, not_false_eq_true, List.filter_cons_of_pos, Tbl.get?]
      split
      · rfl
      · exact ih

/-! ## Bytes -/

@[simp] theorem Memory.byte_setByte_self (m : Memory) (a : Nat) (b : Byte) : (m.setByte a b).byte a = b := by
  simp only [Memory.setByte, Memory.byte, Tbl.getD]
  split
  · next h => simp [h]
  · simp

theorem Memory.byte_setByte_ne (m : Memory) {a c : Nat} (b : Byte) (h : c ≠ a) :
    (m.setByte a b).byte c = m.byte c := by
  simp only [Memory.setByte, Memory.byte, Tbl.getD]
  split
  · rw [Tbl.get?_erase_ne m h]
  · rw [Tbl.get?_set_ne m b h]

/-- A store leaves every byte outside the stored ones. -/
theorem Memory.byte_store_outside (m : Memory) (a : Nat) (bs : List Byte) (c : Nat)
    (h : c < a ∨ a + bs.length ≤ c) : (m.store a bs).byte c = m.byte c := by
  induction bs generalizing m a with
  | nil => rfl
  | cons b bs ih =>
    simp only [List.length_cons] at h
    rw [Memory.store, ih _ _ (by omega), Memory.byte_setByte_ne _ _ (by omega)]

/-- A store leaves its bytes at its addresses. -/
theorem Memory.byte_store_inside (m : Memory) (a : Nat) (bs : List Byte) (i : Nat) (h : i < bs.length) :
    (m.store a bs).byte (a + i) = bs[i] := by
  induction bs generalizing m a i with
  | nil => simp at h
  | cons b bs ih =>
    cases i with
    | zero => simp [Memory.store, Memory.byte_store_outside]
    | succ i =>
      have := ih (m.setByte a b) (a + 1) i (by simpa using h)
      simpa [Memory.store, Nat.add_assoc, Nat.add_comm 1 i] using this

@[simp] theorem Memory.length_bytes (m : Memory) (a n : Nat) : (m.bytes a n).length = n := by
  induction n generalizing a with
  | zero => rfl
  | succ n ih => simp [Memory.bytes, ih]

theorem Memory.getElem_bytes (m : Memory) (a n i : Nat) (h : i < (m.bytes a n).length) :
    (m.bytes a n)[i] = m.byte (a + i) := by
  induction n generalizing a i with
  | zero => simp at h
  | succ n ih =>
    cases i with
    | zero => simp [Memory.bytes]
    | succ i => simp [Memory.bytes, ih, Nat.add_assoc, Nat.add_comm 1 i]

/-- Reading what was stored. -/
theorem Memory.bytes_store_self (m : Memory) (a : Nat) (bs : List Byte) : (m.store a bs).bytes a bs.length = bs := by
  apply List.ext_getElem (by simp)
  intro i h h'
  rw [Memory.getElem_bytes, Memory.byte_store_inside _ _ _ _ h']

/-- A read of bytes that a store does not touch. -/
theorem Memory.bytes_store_outside (m : Memory) (a c n : Nat) (bs : List Byte)
    (h : c + n ≤ a ∨ a + bs.length ≤ c) : (m.store a bs).bytes c n = m.bytes c n := by
  apply List.ext_getElem (by simp)
  intro i h1 h2
  rw [Memory.length_bytes] at h1
  rw [Memory.getElem_bytes, Memory.getElem_bytes, Memory.byte_store_outside _ _ _ _ (by omega)]

/-! ## The canonical form -/

theorem Memory.wf_iff (m : Memory) : m.wf = true ↔ m.Pairwise (fun x y => x.1 < y.1) ∧ ∀ e ∈ m, e.2 ≠ 0 := by
  induction m with
  | nil => simp [Memory.wf]
  | cons e t ih =>
    obtain ⟨a, b⟩ := e
    cases t with
    | nil => simp [Memory.wf]
    | cons f t =>
      obtain ⟨c, d⟩ := f
      rw [Memory.wf, Bool.and_eq_true, Bool.and_eq_true, ih]
      simp only [bne_iff_ne, ne_eq, decide_eq_true_eq, List.pairwise_cons, List.mem_cons, forall_eq_or_imp]
      constructor
      · rintro ⟨⟨hb, hac⟩, ⟨hc, ht⟩, hd, hr⟩
        exact ⟨⟨⟨hac, fun x hx => Nat.lt_trans hac (hc x hx)⟩, hc, ht⟩, hb, hd, hr⟩
      · rintro ⟨⟨⟨hac, -⟩, hc, ht⟩, hb, hd, hr⟩
        exact ⟨⟨hb, hac⟩, ⟨hc, ht⟩, hd, hr⟩

theorem Tbl.mem_set {α : Type} {t : Tbl α} {k : Nat} {x : α} {e : Nat × α} (h : e ∈ t.set k x) :
    e = (k, x) ∨ e ∈ t := by
  induction t with
  | nil => simp [Tbl.set] at h; exact .inl h
  | cons f t ih =>
    obtain ⟨j, y⟩ := f
    simp only [Tbl.set] at h
    split at h
    · simpa using h
    · split at h
      · rcases List.mem_cons.1 h with h | h
        · exact .inl h
        · exact .inr (List.mem_cons_of_mem _ h)
      · rcases List.mem_cons.1 h with h | h
        · exact .inr (by simp [h])
        · rcases ih h with h | h
          · exact .inl h
          · exact .inr (List.mem_cons_of_mem _ h)

/-- Ascending keys stay ascending. -/
theorem Tbl.pairwise_set {α : Type} {t : Tbl α} (h : t.Pairwise fun x y => x.1 < y.1) (k : Nat) (x : α) :
    (t.set k x).Pairwise fun x y => x.1 < y.1 := by
  induction t with
  | nil => simp [Tbl.set]
  | cons e t ih =>
    obtain ⟨j, y⟩ := e
    obtain ⟨hj, ht⟩ := List.pairwise_cons.1 h
    simp only [Tbl.set]
    split
    · next hk =>
      refine List.pairwise_cons.2 ⟨fun e he => ?_, h⟩
      rcases List.mem_cons.1 he with rfl | he
      · exact hk
      · exact Nat.lt_trans hk (hj e he)
    · split
      · next hk => subst hk; exact List.pairwise_cons.2 ⟨hj, ht⟩
      · next hk hk' =>
        refine List.pairwise_cons.2 ⟨fun e he => ?_, ih ht⟩
        rcases Tbl.mem_set he with rfl | he
        · show j < k
          omega
        · exact hj e he

@[simp] theorem Memory.wf_nil : Memory.wf [] = true := rfl

theorem Memory.wf_setByte {m : Memory} (h : m.wf = true) (a : Nat) (b : Byte) : (m.setByte a b).wf = true := by
  obtain ⟨hp, hz⟩ := (Memory.wf_iff m).1 h
  rw [Memory.wf_iff, Memory.setByte]
  split
  · exact ⟨hp.filter _, fun e he => hz e (List.mem_filter.1 he).1⟩
  · next hb =>
    refine ⟨Tbl.pairwise_set hp a b, fun e he => ?_⟩
    rcases Tbl.mem_set he with rfl | he
    · exact hb
    · exact hz e he

/-- Every store keeps the canonical form. -/
theorem Memory.wf_store {m : Memory} (h : m.wf = true) (a : Nat) (bs : List Byte) : (m.store a bs).wf = true := by
  induction bs generalizing m a with
  | nil => exact h
  | cons b bs ih => exact ih (Memory.wf_setByte h a b) _

/-- Canonical memories that read alike are equal. -/
theorem Memory.ext {m n : Memory} (hm : m.wf = true) (hn : n.wf = true) (h : ∀ a, m.byte a = n.byte a) : m = n := by
  rw [Memory.wf_iff] at hm hn
  induction m generalizing n with
  | nil =>
    cases n with
    | nil => rfl
    | cons f n =>
      have := h f.1
      simp [Memory.byte, Tbl.getD, Tbl.get?] at this
      exact absurd this.symm (hn.2 f (by simp))
  | cons e m ih =>
    cases n with
    | nil =>
      have := h e.1
      simp [Memory.byte, Tbl.getD, Tbl.get?] at this
      exact absurd this (hm.2 e (by simp))
    | cons f n =>
      obtain ⟨a, b⟩ := e
      obtain ⟨c, d⟩ := f
      obtain ⟨⟨ha, hm1⟩, hb, hm2⟩ : ((∀ e ∈ m, a < e.1) ∧ m.Pairwise fun x y => x.1 < y.1) ∧ b ≠ 0 ∧ ∀ e ∈ m, e.2 ≠ 0 := by
        simpa using hm
      obtain ⟨⟨hc, hn1⟩, hd, hn2⟩ : ((∀ e ∈ n, c < e.1) ∧ n.Pairwise fun x y => x.1 < y.1) ∧ d ≠ 0 ∧ ∀ e ∈ n, e.2 ≠ 0 := by
        simpa using hn
      have absent : ∀ {t : Memory} {k x : Nat}, (∀ e ∈ t, k < e.1) → x ≤ k → Memory.byte t x = 0 := by
        intro t k x ht hx
        induction t with
        | nil => rfl
        | cons g t iht =>
          have hg := ht g (by simp)
          have hne : ¬x = g.1 := by omega
          have := iht fun e he => ht e (List.mem_cons_of_mem _ he)
          simpa [Memory.byte, Tbl.getD, Tbl.get?, hne] using this
      have hac : a = c := by
        rcases Nat.lt_trichotomy a c with hlt | heq | hgt
        · have h1 := h a
          have hne : ¬a = c := by omega
          simp only [Memory.byte, Tbl.getD, Tbl.get?, if_true, Option.getD_some, hne, if_false] at h1
          exact absurd (h1.trans (absent hc (by omega))) hb
        · exact heq
        · have h1 := h c
          have hne : ¬c = a := by omega
          simp only [Memory.byte, Tbl.getD, Tbl.get?, if_true, Option.getD_some, hne, if_false] at h1
          exact absurd (h1.symm.trans (absent ha (by omega))) hd
      subst hac
      have hbd : b = d := by simpa [Memory.byte, Tbl.getD, Tbl.get?] using h a
      subst hbd
      have : m = n := by
        refine ih ⟨hm1, hm2⟩ ⟨hn1, hn2⟩ fun x => ?_
        by_cases hx : x = a
        · subst hx
          rw [absent ha (Nat.le_refl _), absent hc (Nat.le_refl _)]
        · have := h x
          simpa only [Memory.byte, Tbl.getD, Tbl.get?, hx, if_false] using this
      rw [this]

end Sys2Proof.Machine
end

