-- ==== Sys2Proof/Laws/State.lean ====
section
/-!
SUPPORT. What each named update of the state leaves as it was, field by field, so that no later proof unfolds a record
update; what it writes is the last lemma of each group.
-/

namespace Sys2Proof.Machine

/-! ## `setCore` -/

@[simp] theorem State.setCore_agenda (s : State) (k : Nat) (x : Core) : (s.setCore k x).agenda = s.agenda := rfl
@[simp] theorem State.setCore_choice (s : State) (k : Nat) (x : Core) : (s.setCore k x).choice = s.choice := rfl
@[simp] theorem State.setCore_cur (s : State) (k : Nat) (x : Core) : (s.setCore k x).cur = s.cur := rfl
@[simp] theorem State.setCore_clk (s : State) (k : Nat) (x : Core) : (s.setCore k x).clk = s.clk := rfl
@[simp] theorem State.setCore_ticked (s : State) (k : Nat) (x : Core) : (s.setCore k x).ticked = s.ticked := rfl
@[simp] theorem State.setCore_gangs (s : State) (k : Nat) (x : Core) : (s.setCore k x).gangs = s.gangs := rfl
@[simp] theorem State.setCore_crews (s : State) (k : Nat) (x : Core) : (s.setCore k x).crews = s.crews := rfl
@[simp] theorem State.setCore_away (s : State) (k : Nat) (x : Core) : (s.setCore k x).away = s.away := rfl
@[simp] theorem State.setCore_pilots (s : State) (k : Nat) (x : Core) : (s.setCore k x).pilots = s.pilots := rfl
@[simp] theorem State.setCore_cores (s : State) (k : Nat) (x : Core) : (s.setCore k x).cores = s.cores.set k x := rfl
@[simp] theorem State.setCore_clusters (s : State) (k : Nat) (x : Core) : (s.setCore k x).clusters = s.clusters := rfl
@[simp] theorem State.setCore_dies (s : State) (k : Nat) (x : Core) : (s.setCore k x).dies = s.dies := rfl
@[simp] theorem State.setCore_mem (s : State) (k : Nat) (x : Core) : (s.setCore k x).mem = s.mem := rfl
@[simp] theorem State.setCore_tiers (s : State) (k : Nat) (x : Core) : (s.setCore k x).tiers = s.tiers := rfl
@[simp] theorem State.setCore_scratch (s : State) (k : Nat) (x : Core) : (s.setCore k x).scratch = s.scratch := rfl
@[simp] theorem State.setCore_poison (s : State) (k : Nat) (x : Core) : (s.setCore k x).poison = s.poison := rfl
@[simp] theorem State.setCore_spoison (s : State) (k : Nat) (x : Core) : (s.setCore k x).spoison = s.spoison := rfl
@[simp] theorem State.setCore_lines (s : State) (k : Nat) (x : Core) : (s.setCore k x).lines = s.lines := rfl
@[simp] theorem State.setCore_tun (s : State) (k : Nat) (x : Core) : (s.setCore k x).tun = s.tun := rfl
@[simp] theorem State.setCore_grids (s : State) (k : Nat) (x : Core) : (s.setCore k x).grids = s.grids := rfl
@[simp] theorem State.setCore_gens (s : State) (k : Nat) (x : Core) : (s.setCore k x).gens = s.gens := rfl
@[simp] theorem State.setCore_xlat (s : State) (k : Nat) (x : Core) : (s.setCore k x).xlat = s.xlat := rfl
@[simp] theorem State.setCore_launch (s : State) (k : Nat) (x : Core) : (s.setCore k x).launch = s.launch := rfl
@[simp] theorem State.setCore_ident (s : State) (k : Nat) (x : Core) : (s.setCore k x).ident = s.ident := rfl
@[simp] theorem State.setCore_keys (s : State) (k : Nat) (x : Core) : (s.setCore k x).keys = s.keys := rfl
@[simp] theorem State.setCore_watchers (s : State) (k : Nat) (x : Core) : (s.setCore k x).watchers = s.watchers := rfl
@[simp] theorem State.setCore_reports (s : State) (k : Nat) (x : Core) : (s.setCore k x).reports = s.reports := rfl
@[simp] theorem State.setCore_ports (s : State) (k : Nat) (x : Core) : (s.setCore k x).ports = s.ports := rfl
@[simp] theorem State.setCore_streams (s : State) (k : Nat) (x : Core) : (s.setCore k x).streams = s.streams := rfl
@[simp] theorem State.setCore_reqs (s : State) (k : Nat) (x : Core) : (s.setCore k x).reqs = s.reqs := rfl
@[simp] theorem State.setCore_peer (s : State) (k : Nat) (x : Core) : (s.setCore k x).peer = s.peer := rfl
@[simp] theorem State.setCore_granted (s : State) (k : Nat) (x : Core) : (s.setCore k x).granted = s.granted := rfl
@[simp] theorem State.setCore_nextId (s : State) (k : Nat) (x : Core) : (s.setCore k x).nextId = s.nextId := rfl
@[simp] theorem State.setCore_ingress (s : State) (k : Nat) (x : Core) : (s.setCore k x).ingress = s.ingress := rfl
@[simp] theorem State.setCore_net (s : State) (k : Nat) (x : Core) : (s.setCore k x).net = s.net := rfl
@[simp] theorem State.setCore_colls (s : State) (k : Nat) (x : Core) : (s.setCore k x).colls = s.colls := rfl
@[simp] theorem State.setCore_slots (s : State) (k : Nat) (x : Core) : (s.setCore k x).slots = s.slots := rfl
@[simp] theorem State.setCore_strays (s : State) (k : Nat) (x : Core) : (s.setCore k x).strays = s.strays := rfl
@[simp] theorem State.setCore_arrivals (s : State) (k : Nat) (x : Core) : (s.setCore k x).arrivals = s.arrivals := rfl
@[simp] theorem State.setCore_waiting (s : State) (k : Nat) (x : Core) : (s.setCore k x).waiting = s.waiting := rfl
@[simp] theorem State.setCore_paused (s : State) (k : Nat) (x : Core) : (s.setCore k x).paused = s.paused := rfl
@[simp] theorem State.setCore_grants (s : State) (k : Nat) (x : Core) : (s.setCore k x).grants = s.grants := rfl
@[simp] theorem State.setCore_holds (s : State) (k : Nat) (x : Core) : (s.setCore k x).holds = s.holds := rfl
@[simp] theorem State.setCore_harbour (s : State) (k : Nat) (x : Core) : (s.setCore k x).harbour = s.harbour := rfl

/-! ## `setCluster` -/

@[simp] theorem State.setCluster_agenda (s : State) (k : Nat) (x : Cluster) : (s.setCluster k x).agenda = s.agenda := rfl
@[simp] theorem State.setCluster_choice (s : State) (k : Nat) (x : Cluster) : (s.setCluster k x).choice = s.choice := rfl
@[simp] theorem State.setCluster_cur (s : State) (k : Nat) (x : Cluster) : (s.setCluster k x).cur = s.cur := rfl
@[simp] theorem State.setCluster_clk (s : State) (k : Nat) (x : Cluster) : (s.setCluster k x).clk = s.clk := rfl
@[simp] theorem State.setCluster_ticked (s : State) (k : Nat) (x : Cluster) : (s.setCluster k x).ticked = s.ticked := rfl
@[simp] theorem State.setCluster_gangs (s : State) (k : Nat) (x : Cluster) : (s.setCluster k x).gangs = s.gangs := rfl
@[simp] theorem State.setCluster_crews (s : State) (k : Nat) (x : Cluster) : (s.setCluster k x).crews = s.crews := rfl
@[simp] theorem State.setCluster_away (s : State) (k : Nat) (x : Cluster) : (s.setCluster k x).away = s.away := rfl
@[simp] theorem State.setCluster_pilots (s : State) (k : Nat) (x : Cluster) : (s.setCluster k x).pilots = s.pilots := rfl
@[simp] theorem State.setCluster_cores (s : State) (k : Nat) (x : Cluster) : (s.setCluster k x).cores = s.cores := rfl
@[simp] theorem State.setCluster_clusters (s : State) (k : Nat) (x : Cluster) : (s.setCluster k x).clusters = s.clusters.set k x := rfl
@[simp] theorem State.setCluster_dies (s : State) (k : Nat) (x : Cluster) : (s.setCluster k x).dies = s.dies := rfl
@[simp] theorem State.setCluster_mem (s : State) (k : Nat) (x : Cluster) : (s.setCluster k x).mem = s.mem := rfl
@[simp] theorem State.setCluster_tiers (s : State) (k : Nat) (x : Cluster) : (s.setCluster k x).tiers = s.tiers := rfl
@[simp] theorem State.setCluster_scratch (s : State) (k : Nat) (x : Cluster) : (s.setCluster k x).scratch = s.scratch := rfl
@[simp] theorem State.setCluster_poison (s : State) (k : Nat) (x : Cluster) : (s.setCluster k x).poison = s.poison := rfl
@[simp] theorem State.setCluster_spoison (s : State) (k : Nat) (x : Cluster) : (s.setCluster k x).spoison = s.spoison := rfl
@[simp] theorem State.setCluster_lines (s : State) (k : Nat) (x : Cluster) : (s.setCluster k x).lines = s.lines := rfl
@[simp] theorem State.setCluster_tun (s : State) (k : Nat) (x : Cluster) : (s.setCluster k x).tun = s.tun := rfl
@[simp] theorem State.setCluster_grids (s : State) (k : Nat) (x : Cluster) : (s.setCluster k x).grids = s.grids := rfl
@[simp] theorem State.setCluster_gens (s : State) (k : Nat) (x : Cluster) : (s.setCluster k x).gens = s.gens := rfl
@[simp] theorem State.setCluster_xlat (s : State) (k : Nat) (x : Cluster) : (s.setCluster k x).xlat = s.xlat := rfl
@[simp] theorem State.setCluster_launch (s : State) (k : Nat) (x : Cluster) : (s.setCluster k x).launch = s.launch := rfl
@[simp] theorem State.setCluster_ident (s : State) (k : Nat) (x : Cluster) : (s.setCluster k x).ident = s.ident := rfl
@[simp] theorem State.setCluster_keys (s : State) (k : Nat) (x : Cluster) : (s.setCluster k x).keys = s.keys := rfl
@[simp] theorem State.setCluster_watchers (s : State) (k : Nat) (x : Cluster) : (s.setCluster k x).watchers = s.watchers := rfl
@[simp] theorem State.setCluster_reports (s : State) (k : Nat) (x : Cluster) : (s.setCluster k x).reports = s.reports := rfl
@[simp] theorem State.setCluster_ports (s : State) (k : Nat) (x : Cluster) : (s.setCluster k x).ports = s.ports := rfl
@[simp] theorem State.setCluster_streams (s : State) (k : Nat) (x : Cluster) : (s.setCluster k x).streams = s.streams := rfl
@[simp] theorem State.setCluster_reqs (s : State) (k : Nat) (x : Cluster) : (s.setCluster k x).reqs = s.reqs := rfl
@[simp] theorem State.setCluster_peer (s : State) (k : Nat) (x : Cluster) : (s.setCluster k x).peer = s.peer := rfl
@[simp] theorem State.setCluster_granted (s : State) (k : Nat) (x : Cluster) : (s.setCluster k x).granted = s.granted := rfl
@[simp] theorem State.setCluster_nextId (s : State) (k : Nat) (x : Cluster) : (s.setCluster k x).nextId = s.nextId := rfl
@[simp] theorem State.setCluster_ingress (s : State) (k : Nat) (x : Cluster) : (s.setCluster k x).ingress = s.ingress := rfl
@[simp] theorem State.setCluster_net (s : State) (k : Nat) (x : Cluster) : (s.setCluster k x).net = s.net := rfl
@[simp] theorem State.setCluster_colls (s : State) (k : Nat) (x : Cluster) : (s.setCluster k x).colls = s.colls := rfl
@[simp] theorem State.setCluster_slots (s : State) (k : Nat) (x : Cluster) : (s.setCluster k x).slots = s.slots := rfl
@[simp] theorem State.setCluster_strays (s : State) (k : Nat) (x : Cluster) : (s.setCluster k x).strays = s.strays := rfl
@[simp] theorem State.setCluster_arrivals (s : State) (k : Nat) (x : Cluster) : (s.setCluster k x).arrivals = s.arrivals := rfl
@[simp] theorem State.setCluster_waiting (s : State) (k : Nat) (x : Cluster) : (s.setCluster k x).waiting = s.waiting := rfl
@[simp] theorem State.setCluster_paused (s : State) (k : Nat) (x : Cluster) : (s.setCluster k x).paused = s.paused := rfl
@[simp] theorem State.setCluster_grants (s : State) (k : Nat) (x : Cluster) : (s.setCluster k x).grants = s.grants := rfl
@[simp] theorem State.setCluster_holds (s : State) (k : Nat) (x : Cluster) : (s.setCluster k x).holds = s.holds := rfl
@[simp] theorem State.setCluster_harbour (s : State) (k : Nat) (x : Cluster) : (s.setCluster k x).harbour = s.harbour := rfl

/-! ## `setDie` -/

@[simp] theorem State.setDie_agenda (s : State) (k : Nat) (x : Die) : (s.setDie k x).agenda = s.agenda := rfl
@[simp] theorem State.setDie_choice (s : State) (k : Nat) (x : Die) : (s.setDie k x).choice = s.choice := rfl
@[simp] theorem State.setDie_cur (s : State) (k : Nat) (x : Die) : (s.setDie k x).cur = s.cur := rfl
@[simp] theorem State.setDie_clk (s : State) (k : Nat) (x : Die) : (s.setDie k x).clk = s.clk := rfl
@[simp] theorem State.setDie_ticked (s : State) (k : Nat) (x : Die) : (s.setDie k x).ticked = s.ticked := rfl
@[simp] theorem State.setDie_gangs (s : State) (k : Nat) (x : Die) : (s.setDie k x).gangs = s.gangs := rfl
@[simp] theorem State.setDie_crews (s : State) (k : Nat) (x : Die) : (s.setDie k x).crews = s.crews := rfl
@[simp] theorem State.setDie_away (s : State) (k : Nat) (x : Die) : (s.setDie k x).away = s.away := rfl
@[simp] theorem State.setDie_pilots (s : State) (k : Nat) (x : Die) : (s.setDie k x).pilots = s.pilots := rfl
@[simp] theorem State.setDie_cores (s : State) (k : Nat) (x : Die) : (s.setDie k x).cores = s.cores := rfl
@[simp] theorem State.setDie_clusters (s : State) (k : Nat) (x : Die) : (s.setDie k x).clusters = s.clusters := rfl
@[simp] theorem State.setDie_dies (s : State) (k : Nat) (x : Die) : (s.setDie k x).dies = s.dies.set k x := rfl
@[simp] theorem State.setDie_mem (s : State) (k : Nat) (x : Die) : (s.setDie k x).mem = s.mem := rfl
@[simp] theorem State.setDie_tiers (s : State) (k : Nat) (x : Die) : (s.setDie k x).tiers = s.tiers := rfl
@[simp] theorem State.setDie_scratch (s : State) (k : Nat) (x : Die) : (s.setDie k x).scratch = s.scratch := rfl
@[simp] theorem State.setDie_poison (s : State) (k : Nat) (x : Die) : (s.setDie k x).poison = s.poison := rfl
@[simp] theorem State.setDie_spoison (s : State) (k : Nat) (x : Die) : (s.setDie k x).spoison = s.spoison := rfl
@[simp] theorem State.setDie_lines (s : State) (k : Nat) (x : Die) : (s.setDie k x).lines = s.lines := rfl
@[simp] theorem State.setDie_tun (s : State) (k : Nat) (x : Die) : (s.setDie k x).tun = s.tun := rfl
@[simp] theorem State.setDie_grids (s : State) (k : Nat) (x : Die) : (s.setDie k x).grids = s.grids := rfl
@[simp] theorem State.setDie_gens (s : State) (k : Nat) (x : Die) : (s.setDie k x).gens = s.gens := rfl
@[simp] theorem State.setDie_xlat (s : State) (k : Nat) (x : Die) : (s.setDie k x).xlat = s.xlat := rfl
@[simp] theorem State.setDie_launch (s : State) (k : Nat) (x : Die) : (s.setDie k x).launch = s.launch := rfl
@[simp] theorem State.setDie_ident (s : State) (k : Nat) (x : Die) : (s.setDie k x).ident = s.ident := rfl
@[simp] theorem State.setDie_keys (s : State) (k : Nat) (x : Die) : (s.setDie k x).keys = s.keys := rfl
@[simp] theorem State.setDie_watchers (s : State) (k : Nat) (x : Die) : (s.setDie k x).watchers = s.watchers := rfl
@[simp] theorem State.setDie_reports (s : State) (k : Nat) (x : Die) : (s.setDie k x).reports = s.reports := rfl
@[simp] theorem State.setDie_ports (s : State) (k : Nat) (x : Die) : (s.setDie k x).ports = s.ports := rfl
@[simp] theorem State.setDie_streams (s : State) (k : Nat) (x : Die) : (s.setDie k x).streams = s.streams := rfl
@[simp] theorem State.setDie_reqs (s : State) (k : Nat) (x : Die) : (s.setDie k x).reqs = s.reqs := rfl
@[simp] theorem State.setDie_peer (s : State) (k : Nat) (x : Die) : (s.setDie k x).peer = s.peer := rfl
@[simp] theorem State.setDie_granted (s : State) (k : Nat) (x : Die) : (s.setDie k x).granted = s.granted := rfl
@[simp] theorem State.setDie_nextId (s : State) (k : Nat) (x : Die) : (s.setDie k x).nextId = s.nextId := rfl
@[simp] theorem State.setDie_ingress (s : State) (k : Nat) (x : Die) : (s.setDie k x).ingress = s.ingress := rfl
@[simp] theorem State.setDie_net (s : State) (k : Nat) (x : Die) : (s.setDie k x).net = s.net := rfl
@[simp] theorem State.setDie_colls (s : State) (k : Nat) (x : Die) : (s.setDie k x).colls = s.colls := rfl
@[simp] theorem State.setDie_slots (s : State) (k : Nat) (x : Die) : (s.setDie k x).slots = s.slots := rfl
@[simp] theorem State.setDie_strays (s : State) (k : Nat) (x : Die) : (s.setDie k x).strays = s.strays := rfl
@[simp] theorem State.setDie_arrivals (s : State) (k : Nat) (x : Die) : (s.setDie k x).arrivals = s.arrivals := rfl
@[simp] theorem State.setDie_waiting (s : State) (k : Nat) (x : Die) : (s.setDie k x).waiting = s.waiting := rfl
@[simp] theorem State.setDie_paused (s : State) (k : Nat) (x : Die) : (s.setDie k x).paused = s.paused := rfl
@[simp] theorem State.setDie_grants (s : State) (k : Nat) (x : Die) : (s.setDie k x).grants = s.grants := rfl
@[simp] theorem State.setDie_holds (s : State) (k : Nat) (x : Die) : (s.setDie k x).holds = s.holds := rfl
@[simp] theorem State.setDie_harbour (s : State) (k : Nat) (x : Die) : (s.setDie k x).harbour = s.harbour := rfl

/-! ## `setGang` -/

@[simp] theorem State.setGang_agenda (s : State) (k : Nat) (x : Gang) : (s.setGang k x).agenda = s.agenda := rfl
@[simp] theorem State.setGang_choice (s : State) (k : Nat) (x : Gang) : (s.setGang k x).choice = s.choice := rfl
@[simp] theorem State.setGang_cur (s : State) (k : Nat) (x : Gang) : (s.setGang k x).cur = s.cur := rfl
@[simp] theorem State.setGang_clk (s : State) (k : Nat) (x : Gang) : (s.setGang k x).clk = s.clk := rfl
@[simp] theorem State.setGang_ticked (s : State) (k : Nat) (x : Gang) : (s.setGang k x).ticked = s.ticked := rfl
@[simp] theorem State.setGang_gangs (s : State) (k : Nat) (x : Gang) : (s.setGang k x).gangs = s.gangs.set k x := rfl
@[simp] theorem State.setGang_crews (s : State) (k : Nat) (x : Gang) : (s.setGang k x).crews = s.crews := rfl
@[simp] theorem State.setGang_away (s : State) (k : Nat) (x : Gang) : (s.setGang k x).away = s.away := rfl
@[simp] theorem State.setGang_pilots (s : State) (k : Nat) (x : Gang) : (s.setGang k x).pilots = s.pilots := rfl
@[simp] theorem State.setGang_cores (s : State) (k : Nat) (x : Gang) : (s.setGang k x).cores = s.cores := rfl
@[simp] theorem State.setGang_clusters (s : State) (k : Nat) (x : Gang) : (s.setGang k x).clusters = s.clusters := rfl
@[simp] theorem State.setGang_dies (s : State) (k : Nat) (x : Gang) : (s.setGang k x).dies = s.dies := rfl
@[simp] theorem State.setGang_mem (s : State) (k : Nat) (x : Gang) : (s.setGang k x).mem = s.mem := rfl
@[simp] theorem State.setGang_tiers (s : State) (k : Nat) (x : Gang) : (s.setGang k x).tiers = s.tiers := rfl
@[simp] theorem State.setGang_scratch (s : State) (k : Nat) (x : Gang) : (s.setGang k x).scratch = s.scratch := rfl
@[simp] theorem State.setGang_poison (s : State) (k : Nat) (x : Gang) : (s.setGang k x).poison = s.poison := rfl
@[simp] theorem State.setGang_spoison (s : State) (k : Nat) (x : Gang) : (s.setGang k x).spoison = s.spoison := rfl
@[simp] theorem State.setGang_lines (s : State) (k : Nat) (x : Gang) : (s.setGang k x).lines = s.lines := rfl
@[simp] theorem State.setGang_tun (s : State) (k : Nat) (x : Gang) : (s.setGang k x).tun = s.tun := rfl
@[simp] theorem State.setGang_grids (s : State) (k : Nat) (x : Gang) : (s.setGang k x).grids = s.grids := rfl
@[simp] theorem State.setGang_gens (s : State) (k : Nat) (x : Gang) : (s.setGang k x).gens = s.gens := rfl
@[simp] theorem State.setGang_xlat (s : State) (k : Nat) (x : Gang) : (s.setGang k x).xlat = s.xlat := rfl
@[simp] theorem State.setGang_launch (s : State) (k : Nat) (x : Gang) : (s.setGang k x).launch = s.launch := rfl
@[simp] theorem State.setGang_ident (s : State) (k : Nat) (x : Gang) : (s.setGang k x).ident = s.ident := rfl
@[simp] theorem State.setGang_keys (s : State) (k : Nat) (x : Gang) : (s.setGang k x).keys = s.keys := rfl
@[simp] theorem State.setGang_watchers (s : State) (k : Nat) (x : Gang) : (s.setGang k x).watchers = s.watchers := rfl
@[simp] theorem State.setGang_reports (s : State) (k : Nat) (x : Gang) : (s.setGang k x).reports = s.reports := rfl
@[simp] theorem State.setGang_ports (s : State) (k : Nat) (x : Gang) : (s.setGang k x).ports = s.ports := rfl
@[simp] theorem State.setGang_streams (s : State) (k : Nat) (x : Gang) : (s.setGang k x).streams = s.streams := rfl
@[simp] theorem State.setGang_reqs (s : State) (k : Nat) (x : Gang) : (s.setGang k x).reqs = s.reqs := rfl
@[simp] theorem State.setGang_peer (s : State) (k : Nat) (x : Gang) : (s.setGang k x).peer = s.peer := rfl
@[simp] theorem State.setGang_granted (s : State) (k : Nat) (x : Gang) : (s.setGang k x).granted = s.granted := rfl
@[simp] theorem State.setGang_nextId (s : State) (k : Nat) (x : Gang) : (s.setGang k x).nextId = s.nextId := rfl
@[simp] theorem State.setGang_ingress (s : State) (k : Nat) (x : Gang) : (s.setGang k x).ingress = s.ingress := rfl
@[simp] theorem State.setGang_net (s : State) (k : Nat) (x : Gang) : (s.setGang k x).net = s.net := rfl
@[simp] theorem State.setGang_colls (s : State) (k : Nat) (x : Gang) : (s.setGang k x).colls = s.colls := rfl
@[simp] theorem State.setGang_slots (s : State) (k : Nat) (x : Gang) : (s.setGang k x).slots = s.slots := rfl
@[simp] theorem State.setGang_strays (s : State) (k : Nat) (x : Gang) : (s.setGang k x).strays = s.strays := rfl
@[simp] theorem State.setGang_arrivals (s : State) (k : Nat) (x : Gang) : (s.setGang k x).arrivals = s.arrivals := rfl
@[simp] theorem State.setGang_waiting (s : State) (k : Nat) (x : Gang) : (s.setGang k x).waiting = s.waiting := rfl
@[simp] theorem State.setGang_paused (s : State) (k : Nat) (x : Gang) : (s.setGang k x).paused = s.paused := rfl
@[simp] theorem State.setGang_grants (s : State) (k : Nat) (x : Gang) : (s.setGang k x).grants = s.grants := rfl
@[simp] theorem State.setGang_holds (s : State) (k : Nat) (x : Gang) : (s.setGang k x).holds = s.holds := rfl
@[simp] theorem State.setGang_harbour (s : State) (k : Nat) (x : Gang) : (s.setGang k x).harbour = s.harbour := rfl

/-! ## `setCrew` -/

@[simp] theorem State.setCrew_agenda (s : State) (k : Nat) (x : Crew) : (s.setCrew k x).agenda = s.agenda := rfl
@[simp] theorem State.setCrew_choice (s : State) (k : Nat) (x : Crew) : (s.setCrew k x).choice = s.choice := rfl
@[simp] theorem State.setCrew_cur (s : State) (k : Nat) (x : Crew) : (s.setCrew k x).cur = s.cur := rfl
@[simp] theorem State.setCrew_clk (s : State) (k : Nat) (x : Crew) : (s.setCrew k x).clk = s.clk := rfl
@[simp] theorem State.setCrew_ticked (s : State) (k : Nat) (x : Crew) : (s.setCrew k x).ticked = s.ticked := rfl
@[simp] theorem State.setCrew_gangs (s : State) (k : Nat) (x : Crew) : (s.setCrew k x).gangs = s.gangs := rfl
@[simp] theorem State.setCrew_crews (s : State) (k : Nat) (x : Crew) : (s.setCrew k x).crews = s.crews.set k x := rfl
@[simp] theorem State.setCrew_away (s : State) (k : Nat) (x : Crew) : (s.setCrew k x).away = s.away := rfl
@[simp] theorem State.setCrew_pilots (s : State) (k : Nat) (x : Crew) : (s.setCrew k x).pilots = s.pilots := rfl
@[simp] theorem State.setCrew_cores (s : State) (k : Nat) (x : Crew) : (s.setCrew k x).cores = s.cores := rfl
@[simp] theorem State.setCrew_clusters (s : State) (k : Nat) (x : Crew) : (s.setCrew k x).clusters = s.clusters := rfl
@[simp] theorem State.setCrew_dies (s : State) (k : Nat) (x : Crew) : (s.setCrew k x).dies = s.dies := rfl
@[simp] theorem State.setCrew_mem (s : State) (k : Nat) (x : Crew) : (s.setCrew k x).mem = s.mem := rfl
@[simp] theorem State.setCrew_tiers (s : State) (k : Nat) (x : Crew) : (s.setCrew k x).tiers = s.tiers := rfl
@[simp] theorem State.setCrew_scratch (s : State) (k : Nat) (x : Crew) : (s.setCrew k x).scratch = s.scratch := rfl
@[simp] theorem State.setCrew_poison (s : State) (k : Nat) (x : Crew) : (s.setCrew k x).poison = s.poison := rfl
@[simp] theorem State.setCrew_spoison (s : State) (k : Nat) (x : Crew) : (s.setCrew k x).spoison = s.spoison := rfl
@[simp] theorem State.setCrew_lines (s : State) (k : Nat) (x : Crew) : (s.setCrew k x).lines = s.lines := rfl
@[simp] theorem State.setCrew_tun (s : State) (k : Nat) (x : Crew) : (s.setCrew k x).tun = s.tun := rfl
@[simp] theorem State.setCrew_grids (s : State) (k : Nat) (x : Crew) : (s.setCrew k x).grids = s.grids := rfl
@[simp] theorem State.setCrew_gens (s : State) (k : Nat) (x : Crew) : (s.setCrew k x).gens = s.gens := rfl
@[simp] theorem State.setCrew_xlat (s : State) (k : Nat) (x : Crew) : (s.setCrew k x).xlat = s.xlat := rfl
@[simp] theorem State.setCrew_launch (s : State) (k : Nat) (x : Crew) : (s.setCrew k x).launch = s.launch := rfl
@[simp] theorem State.setCrew_ident (s : State) (k : Nat) (x : Crew) : (s.setCrew k x).ident = s.ident := rfl
@[simp] theorem State.setCrew_keys (s : State) (k : Nat) (x : Crew) : (s.setCrew k x).keys = s.keys := rfl
@[simp] theorem State.setCrew_watchers (s : State) (k : Nat) (x : Crew) : (s.setCrew k x).watchers = s.watchers := rfl
@[simp] theorem State.setCrew_reports (s : State) (k : Nat) (x : Crew) : (s.setCrew k x).reports = s.reports := rfl
@[simp] theorem State.setCrew_ports (s : State) (k : Nat) (x : Crew) : (s.setCrew k x).ports = s.ports := rfl
@[simp] theorem State.setCrew_streams (s : State) (k : Nat) (x : Crew) : (s.setCrew k x).streams = s.streams := rfl
@[simp] theorem State.setCrew_reqs (s : State) (k : Nat) (x : Crew) : (s.setCrew k x).reqs = s.reqs := rfl
@[simp] theorem State.setCrew_peer (s : State) (k : Nat) (x : Crew) : (s.setCrew k x).peer = s.peer := rfl
@[simp] theorem State.setCrew_granted (s : State) (k : Nat) (x : Crew) : (s.setCrew k x).granted = s.granted := rfl
@[simp] theorem State.setCrew_nextId (s : State) (k : Nat) (x : Crew) : (s.setCrew k x).nextId = s.nextId := rfl
@[simp] theorem State.setCrew_ingress (s : State) (k : Nat) (x : Crew) : (s.setCrew k x).ingress = s.ingress := rfl
@[simp] theorem State.setCrew_net (s : State) (k : Nat) (x : Crew) : (s.setCrew k x).net = s.net := rfl
@[simp] theorem State.setCrew_colls (s : State) (k : Nat) (x : Crew) : (s.setCrew k x).colls = s.colls := rfl
@[simp] theorem State.setCrew_slots (s : State) (k : Nat) (x : Crew) : (s.setCrew k x).slots = s.slots := rfl
@[simp] theorem State.setCrew_strays (s : State) (k : Nat) (x : Crew) : (s.setCrew k x).strays = s.strays := rfl
@[simp] theorem State.setCrew_arrivals (s : State) (k : Nat) (x : Crew) : (s.setCrew k x).arrivals = s.arrivals := rfl
@[simp] theorem State.setCrew_waiting (s : State) (k : Nat) (x : Crew) : (s.setCrew k x).waiting = s.waiting := rfl
@[simp] theorem State.setCrew_paused (s : State) (k : Nat) (x : Crew) : (s.setCrew k x).paused = s.paused := rfl
@[simp] theorem State.setCrew_grants (s : State) (k : Nat) (x : Crew) : (s.setCrew k x).grants = s.grants := rfl
@[simp] theorem State.setCrew_holds (s : State) (k : Nat) (x : Crew) : (s.setCrew k x).holds = s.holds := rfl
@[simp] theorem State.setCrew_harbour (s : State) (k : Nat) (x : Crew) : (s.setCrew k x).harbour = s.harbour := rfl

/-! ## `setGrid` -/

@[simp] theorem State.setGrid_agenda (s : State) (k : Nat) (x : Grid) : (s.setGrid k x).agenda = s.agenda := rfl
@[simp] theorem State.setGrid_choice (s : State) (k : Nat) (x : Grid) : (s.setGrid k x).choice = s.choice := rfl
@[simp] theorem State.setGrid_cur (s : State) (k : Nat) (x : Grid) : (s.setGrid k x).cur = s.cur := rfl
@[simp] theorem State.setGrid_clk (s : State) (k : Nat) (x : Grid) : (s.setGrid k x).clk = s.clk := rfl
@[simp] theorem State.setGrid_ticked (s : State) (k : Nat) (x : Grid) : (s.setGrid k x).ticked = s.ticked := rfl
@[simp] theorem State.setGrid_gangs (s : State) (k : Nat) (x : Grid) : (s.setGrid k x).gangs = s.gangs := rfl
@[simp] theorem State.setGrid_crews (s : State) (k : Nat) (x : Grid) : (s.setGrid k x).crews = s.crews := rfl
@[simp] theorem State.setGrid_away (s : State) (k : Nat) (x : Grid) : (s.setGrid k x).away = s.away := rfl
@[simp] theorem State.setGrid_pilots (s : State) (k : Nat) (x : Grid) : (s.setGrid k x).pilots = s.pilots := rfl
@[simp] theorem State.setGrid_cores (s : State) (k : Nat) (x : Grid) : (s.setGrid k x).cores = s.cores := rfl
@[simp] theorem State.setGrid_clusters (s : State) (k : Nat) (x : Grid) : (s.setGrid k x).clusters = s.clusters := rfl
@[simp] theorem State.setGrid_dies (s : State) (k : Nat) (x : Grid) : (s.setGrid k x).dies = s.dies := rfl
@[simp] theorem State.setGrid_mem (s : State) (k : Nat) (x : Grid) : (s.setGrid k x).mem = s.mem := rfl
@[simp] theorem State.setGrid_tiers (s : State) (k : Nat) (x : Grid) : (s.setGrid k x).tiers = s.tiers := rfl
@[simp] theorem State.setGrid_scratch (s : State) (k : Nat) (x : Grid) : (s.setGrid k x).scratch = s.scratch := rfl
@[simp] theorem State.setGrid_poison (s : State) (k : Nat) (x : Grid) : (s.setGrid k x).poison = s.poison := rfl
@[simp] theorem State.setGrid_spoison (s : State) (k : Nat) (x : Grid) : (s.setGrid k x).spoison = s.spoison := rfl
@[simp] theorem State.setGrid_lines (s : State) (k : Nat) (x : Grid) : (s.setGrid k x).lines = s.lines := rfl
@[simp] theorem State.setGrid_tun (s : State) (k : Nat) (x : Grid) : (s.setGrid k x).tun = s.tun := rfl
@[simp] theorem State.setGrid_grids (s : State) (k : Nat) (x : Grid) : (s.setGrid k x).grids = s.grids.set k x := rfl
@[simp] theorem State.setGrid_gens (s : State) (k : Nat) (x : Grid) : (s.setGrid k x).gens = s.gens := rfl
@[simp] theorem State.setGrid_xlat (s : State) (k : Nat) (x : Grid) : (s.setGrid k x).xlat = s.xlat := rfl
@[simp] theorem State.setGrid_launch (s : State) (k : Nat) (x : Grid) : (s.setGrid k x).launch = s.launch := rfl
@[simp] theorem State.setGrid_ident (s : State) (k : Nat) (x : Grid) : (s.setGrid k x).ident = s.ident := rfl
@[simp] theorem State.setGrid_keys (s : State) (k : Nat) (x : Grid) : (s.setGrid k x).keys = s.keys := rfl
@[simp] theorem State.setGrid_watchers (s : State) (k : Nat) (x : Grid) : (s.setGrid k x).watchers = s.watchers := rfl
@[simp] theorem State.setGrid_reports (s : State) (k : Nat) (x : Grid) : (s.setGrid k x).reports = s.reports := rfl
@[simp] theorem State.setGrid_ports (s : State) (k : Nat) (x : Grid) : (s.setGrid k x).ports = s.ports := rfl
@[simp] theorem State.setGrid_streams (s : State) (k : Nat) (x : Grid) : (s.setGrid k x).streams = s.streams := rfl
@[simp] theorem State.setGrid_reqs (s : State) (k : Nat) (x : Grid) : (s.setGrid k x).reqs = s.reqs := rfl
@[simp] theorem State.setGrid_peer (s : State) (k : Nat) (x : Grid) : (s.setGrid k x).peer = s.peer := rfl
@[simp] theorem State.setGrid_granted (s : State) (k : Nat) (x : Grid) : (s.setGrid k x).granted = s.granted := rfl
@[simp] theorem State.setGrid_nextId (s : State) (k : Nat) (x : Grid) : (s.setGrid k x).nextId = s.nextId := rfl
@[simp] theorem State.setGrid_ingress (s : State) (k : Nat) (x : Grid) : (s.setGrid k x).ingress = s.ingress := rfl
@[simp] theorem State.setGrid_net (s : State) (k : Nat) (x : Grid) : (s.setGrid k x).net = s.net := rfl
@[simp] theorem State.setGrid_colls (s : State) (k : Nat) (x : Grid) : (s.setGrid k x).colls = s.colls := rfl
@[simp] theorem State.setGrid_slots (s : State) (k : Nat) (x : Grid) : (s.setGrid k x).slots = s.slots := rfl
@[simp] theorem State.setGrid_strays (s : State) (k : Nat) (x : Grid) : (s.setGrid k x).strays = s.strays := rfl
@[simp] theorem State.setGrid_arrivals (s : State) (k : Nat) (x : Grid) : (s.setGrid k x).arrivals = s.arrivals := rfl
@[simp] theorem State.setGrid_waiting (s : State) (k : Nat) (x : Grid) : (s.setGrid k x).waiting = s.waiting := rfl
@[simp] theorem State.setGrid_paused (s : State) (k : Nat) (x : Grid) : (s.setGrid k x).paused = s.paused := rfl
@[simp] theorem State.setGrid_grants (s : State) (k : Nat) (x : Grid) : (s.setGrid k x).grants = s.grants := rfl
@[simp] theorem State.setGrid_holds (s : State) (k : Nat) (x : Grid) : (s.setGrid k x).holds = s.holds := rfl
@[simp] theorem State.setGrid_harbour (s : State) (k : Nat) (x : Grid) : (s.setGrid k x).harbour = s.harbour := rfl

/-! ## `setPilot` -/

@[simp] theorem State.setPilot_agenda (s : State) (k : Nat) (x : Pilot) : (s.setPilot k x).agenda = s.agenda := rfl
@[simp] theorem State.setPilot_choice (s : State) (k : Nat) (x : Pilot) : (s.setPilot k x).choice = s.choice := rfl
@[simp] theorem State.setPilot_cur (s : State) (k : Nat) (x : Pilot) : (s.setPilot k x).cur = s.cur := rfl
@[simp] theorem State.setPilot_clk (s : State) (k : Nat) (x : Pilot) : (s.setPilot k x).clk = s.clk := rfl
@[simp] theorem State.setPilot_ticked (s : State) (k : Nat) (x : Pilot) : (s.setPilot k x).ticked = s.ticked := rfl
@[simp] theorem State.setPilot_gangs (s : State) (k : Nat) (x : Pilot) : (s.setPilot k x).gangs = s.gangs := rfl
@[simp] theorem State.setPilot_crews (s : State) (k : Nat) (x : Pilot) : (s.setPilot k x).crews = s.crews := rfl
@[simp] theorem State.setPilot_away (s : State) (k : Nat) (x : Pilot) : (s.setPilot k x).away = s.away := rfl
@[simp] theorem State.setPilot_pilots (s : State) (k : Nat) (x : Pilot) : (s.setPilot k x).pilots = s.pilots.set k x := rfl
@[simp] theorem State.setPilot_cores (s : State) (k : Nat) (x : Pilot) : (s.setPilot k x).cores = s.cores := rfl
@[simp] theorem State.setPilot_clusters (s : State) (k : Nat) (x : Pilot) : (s.setPilot k x).clusters = s.clusters := rfl
@[simp] theorem State.setPilot_dies (s : State) (k : Nat) (x : Pilot) : (s.setPilot k x).dies = s.dies := rfl
@[simp] theorem State.setPilot_mem (s : State) (k : Nat) (x : Pilot) : (s.setPilot k x).mem = s.mem := rfl
@[simp] theorem State.setPilot_tiers (s : State) (k : Nat) (x : Pilot) : (s.setPilot k x).tiers = s.tiers := rfl
@[simp] theorem State.setPilot_scratch (s : State) (k : Nat) (x : Pilot) : (s.setPilot k x).scratch = s.scratch := rfl
@[simp] theorem State.setPilot_poison (s : State) (k : Nat) (x : Pilot) : (s.setPilot k x).poison = s.poison := rfl
@[simp] theorem State.setPilot_spoison (s : State) (k : Nat) (x : Pilot) : (s.setPilot k x).spoison = s.spoison := rfl
@[simp] theorem State.setPilot_lines (s : State) (k : Nat) (x : Pilot) : (s.setPilot k x).lines = s.lines := rfl
@[simp] theorem State.setPilot_tun (s : State) (k : Nat) (x : Pilot) : (s.setPilot k x).tun = s.tun := rfl
@[simp] theorem State.setPilot_grids (s : State) (k : Nat) (x : Pilot) : (s.setPilot k x).grids = s.grids := rfl
@[simp] theorem State.setPilot_gens (s : State) (k : Nat) (x : Pilot) : (s.setPilot k x).gens = s.gens := rfl
@[simp] theorem State.setPilot_xlat (s : State) (k : Nat) (x : Pilot) : (s.setPilot k x).xlat = s.xlat := rfl
@[simp] theorem State.setPilot_launch (s : State) (k : Nat) (x : Pilot) : (s.setPilot k x).launch = s.launch := rfl
@[simp] theorem State.setPilot_ident (s : State) (k : Nat) (x : Pilot) : (s.setPilot k x).ident = s.ident := rfl
@[simp] theorem State.setPilot_keys (s : State) (k : Nat) (x : Pilot) : (s.setPilot k x).keys = s.keys := rfl
@[simp] theorem State.setPilot_watchers (s : State) (k : Nat) (x : Pilot) : (s.setPilot k x).watchers = s.watchers := rfl
@[simp] theorem State.setPilot_reports (s : State) (k : Nat) (x : Pilot) : (s.setPilot k x).reports = s.reports := rfl
@[simp] theorem State.setPilot_ports (s : State) (k : Nat) (x : Pilot) : (s.setPilot k x).ports = s.ports := rfl
@[simp] theorem State.setPilot_streams (s : State) (k : Nat) (x : Pilot) : (s.setPilot k x).streams = s.streams := rfl
@[simp] theorem State.setPilot_reqs (s : State) (k : Nat) (x : Pilot) : (s.setPilot k x).reqs = s.reqs := rfl
@[simp] theorem State.setPilot_peer (s : State) (k : Nat) (x : Pilot) : (s.setPilot k x).peer = s.peer := rfl
@[simp] theorem State.setPilot_granted (s : State) (k : Nat) (x : Pilot) : (s.setPilot k x).granted = s.granted := rfl
@[simp] theorem State.setPilot_nextId (s : State) (k : Nat) (x : Pilot) : (s.setPilot k x).nextId = s.nextId := rfl
@[simp] theorem State.setPilot_ingress (s : State) (k : Nat) (x : Pilot) : (s.setPilot k x).ingress = s.ingress := rfl
@[simp] theorem State.setPilot_net (s : State) (k : Nat) (x : Pilot) : (s.setPilot k x).net = s.net := rfl
@[simp] theorem State.setPilot_colls (s : State) (k : Nat) (x : Pilot) : (s.setPilot k x).colls = s.colls := rfl
@[simp] theorem State.setPilot_slots (s : State) (k : Nat) (x : Pilot) : (s.setPilot k x).slots = s.slots := rfl
@[simp] theorem State.setPilot_strays (s : State) (k : Nat) (x : Pilot) : (s.setPilot k x).strays = s.strays := rfl
@[simp] theorem State.setPilot_arrivals (s : State) (k : Nat) (x : Pilot) : (s.setPilot k x).arrivals = s.arrivals := rfl
@[simp] theorem State.setPilot_waiting (s : State) (k : Nat) (x : Pilot) : (s.setPilot k x).waiting = s.waiting := rfl
@[simp] theorem State.setPilot_paused (s : State) (k : Nat) (x : Pilot) : (s.setPilot k x).paused = s.paused := rfl
@[simp] theorem State.setPilot_grants (s : State) (k : Nat) (x : Pilot) : (s.setPilot k x).grants = s.grants := rfl
@[simp] theorem State.setPilot_holds (s : State) (k : Nat) (x : Pilot) : (s.setPilot k x).holds = s.holds := rfl
@[simp] theorem State.setPilot_harbour (s : State) (k : Nat) (x : Pilot) : (s.setPilot k x).harbour = s.harbour := rfl

/-! ## `setPort` -/

@[simp] theorem State.setPort_agenda (s : State) (k : Nat) (x : Port) : (s.setPort k x).agenda = s.agenda := rfl
@[simp] theorem State.setPort_choice (s : State) (k : Nat) (x : Port) : (s.setPort k x).choice = s.choice := rfl
@[simp] theorem State.setPort_cur (s : State) (k : Nat) (x : Port) : (s.setPort k x).cur = s.cur := rfl
@[simp] theorem State.setPort_clk (s : State) (k : Nat) (x : Port) : (s.setPort k x).clk = s.clk := rfl
@[simp] theorem State.setPort_ticked (s : State) (k : Nat) (x : Port) : (s.setPort k x).ticked = s.ticked := rfl
@[simp] theorem State.setPort_gangs (s : State) (k : Nat) (x : Port) : (s.setPort k x).gangs = s.gangs := rfl
@[simp] theorem State.setPort_crews (s : State) (k : Nat) (x : Port) : (s.setPort k x).crews = s.crews := rfl
@[simp] theorem State.setPort_away (s : State) (k : Nat) (x : Port) : (s.setPort k x).away = s.away := rfl
@[simp] theorem State.setPort_pilots (s : State) (k : Nat) (x : Port) : (s.setPort k x).pilots = s.pilots := rfl
@[simp] theorem State.setPort_cores (s : State) (k : Nat) (x : Port) : (s.setPort k x).cores = s.cores := rfl
@[simp] theorem State.setPort_clusters (s : State) (k : Nat) (x : Port) : (s.setPort k x).clusters = s.clusters := rfl
@[simp] theorem State.setPort_dies (s : State) (k : Nat) (x : Port) : (s.setPort k x).dies = s.dies := rfl
@[simp] theorem State.setPort_mem (s : State) (k : Nat) (x : Port) : (s.setPort k x).mem = s.mem := rfl
@[simp] theorem State.setPort_tiers (s : State) (k : Nat) (x : Port) : (s.setPort k x).tiers = s.tiers := rfl
@[simp] theorem State.setPort_scratch (s : State) (k : Nat) (x : Port) : (s.setPort k x).scratch = s.scratch := rfl
@[simp] theorem State.setPort_poison (s : State) (k : Nat) (x : Port) : (s.setPort k x).poison = s.poison := rfl
@[simp] theorem State.setPort_spoison (s : State) (k : Nat) (x : Port) : (s.setPort k x).spoison = s.spoison := rfl
@[simp] theorem State.setPort_lines (s : State) (k : Nat) (x : Port) : (s.setPort k x).lines = s.lines := rfl
@[simp] theorem State.setPort_tun (s : State) (k : Nat) (x : Port) : (s.setPort k x).tun = s.tun := rfl
@[simp] theorem State.setPort_grids (s : State) (k : Nat) (x : Port) : (s.setPort k x).grids = s.grids := rfl
@[simp] theorem State.setPort_gens (s : State) (k : Nat) (x : Port) : (s.setPort k x).gens = s.gens := rfl
@[simp] theorem State.setPort_xlat (s : State) (k : Nat) (x : Port) : (s.setPort k x).xlat = s.xlat := rfl
@[simp] theorem State.setPort_launch (s : State) (k : Nat) (x : Port) : (s.setPort k x).launch = s.launch := rfl
@[simp] theorem State.setPort_ident (s : State) (k : Nat) (x : Port) : (s.setPort k x).ident = s.ident := rfl
@[simp] theorem State.setPort_keys (s : State) (k : Nat) (x : Port) : (s.setPort k x).keys = s.keys := rfl
@[simp] theorem State.setPort_watchers (s : State) (k : Nat) (x : Port) : (s.setPort k x).watchers = s.watchers := rfl
@[simp] theorem State.setPort_reports (s : State) (k : Nat) (x : Port) : (s.setPort k x).reports = s.reports := rfl
@[simp] theorem State.setPort_ports (s : State) (k : Nat) (x : Port) : (s.setPort k x).ports = s.ports.set k x := rfl
@[simp] theorem State.setPort_streams (s : State) (k : Nat) (x : Port) : (s.setPort k x).streams = s.streams := rfl
@[simp] theorem State.setPort_reqs (s : State) (k : Nat) (x : Port) : (s.setPort k x).reqs = s.reqs := rfl
@[simp] theorem State.setPort_peer (s : State) (k : Nat) (x : Port) : (s.setPort k x).peer = s.peer := rfl
@[simp] theorem State.setPort_granted (s : State) (k : Nat) (x : Port) : (s.setPort k x).granted = s.granted := rfl
@[simp] theorem State.setPort_nextId (s : State) (k : Nat) (x : Port) : (s.setPort k x).nextId = s.nextId := rfl
@[simp] theorem State.setPort_ingress (s : State) (k : Nat) (x : Port) : (s.setPort k x).ingress = s.ingress := rfl
@[simp] theorem State.setPort_net (s : State) (k : Nat) (x : Port) : (s.setPort k x).net = s.net := rfl
@[simp] theorem State.setPort_colls (s : State) (k : Nat) (x : Port) : (s.setPort k x).colls = s.colls := rfl
@[simp] theorem State.setPort_slots (s : State) (k : Nat) (x : Port) : (s.setPort k x).slots = s.slots := rfl
@[simp] theorem State.setPort_strays (s : State) (k : Nat) (x : Port) : (s.setPort k x).strays = s.strays := rfl
@[simp] theorem State.setPort_arrivals (s : State) (k : Nat) (x : Port) : (s.setPort k x).arrivals = s.arrivals := rfl
@[simp] theorem State.setPort_waiting (s : State) (k : Nat) (x : Port) : (s.setPort k x).waiting = s.waiting := rfl
@[simp] theorem State.setPort_paused (s : State) (k : Nat) (x : Port) : (s.setPort k x).paused = s.paused := rfl
@[simp] theorem State.setPort_grants (s : State) (k : Nat) (x : Port) : (s.setPort k x).grants = s.grants := rfl
@[simp] theorem State.setPort_holds (s : State) (k : Nat) (x : Port) : (s.setPort k x).holds = s.holds := rfl
@[simp] theorem State.setPort_harbour (s : State) (k : Nat) (x : Port) : (s.setPort k x).harbour = s.harbour := rfl

/-! ## `setStream` -/

@[simp] theorem State.setStream_agenda (s : State) (k : Nat) (x : Stream) : (s.setStream k x).agenda = s.agenda := rfl
@[simp] theorem State.setStream_choice (s : State) (k : Nat) (x : Stream) : (s.setStream k x).choice = s.choice := rfl
@[simp] theorem State.setStream_cur (s : State) (k : Nat) (x : Stream) : (s.setStream k x).cur = s.cur := rfl
@[simp] theorem State.setStream_clk (s : State) (k : Nat) (x : Stream) : (s.setStream k x).clk = s.clk := rfl
@[simp] theorem State.setStream_ticked (s : State) (k : Nat) (x : Stream) : (s.setStream k x).ticked = s.ticked := rfl
@[simp] theorem State.setStream_gangs (s : State) (k : Nat) (x : Stream) : (s.setStream k x).gangs = s.gangs := rfl
@[simp] theorem State.setStream_crews (s : State) (k : Nat) (x : Stream) : (s.setStream k x).crews = s.crews := rfl
@[simp] theorem State.setStream_away (s : State) (k : Nat) (x : Stream) : (s.setStream k x).away = s.away := rfl
@[simp] theorem State.setStream_pilots (s : State) (k : Nat) (x : Stream) : (s.setStream k x).pilots = s.pilots := rfl
@[simp] theorem State.setStream_cores (s : State) (k : Nat) (x : Stream) : (s.setStream k x).cores = s.cores := rfl
@[simp] theorem State.setStream_clusters (s : State) (k : Nat) (x : Stream) : (s.setStream k x).clusters = s.clusters := rfl
@[simp] theorem State.setStream_dies (s : State) (k : Nat) (x : Stream) : (s.setStream k x).dies = s.dies := rfl
@[simp] theorem State.setStream_mem (s : State) (k : Nat) (x : Stream) : (s.setStream k x).mem = s.mem := rfl
@[simp] theorem State.setStream_tiers (s : State) (k : Nat) (x : Stream) : (s.setStream k x).tiers = s.tiers := rfl
@[simp] theorem State.setStream_scratch (s : State) (k : Nat) (x : Stream) : (s.setStream k x).scratch = s.scratch := rfl
@[simp] theorem State.setStream_poison (s : State) (k : Nat) (x : Stream) : (s.setStream k x).poison = s.poison := rfl
@[simp] theorem State.setStream_spoison (s : State) (k : Nat) (x : Stream) : (s.setStream k x).spoison = s.spoison := rfl
@[simp] theorem State.setStream_lines (s : State) (k : Nat) (x : Stream) : (s.setStream k x).lines = s.lines := rfl
@[simp] theorem State.setStream_tun (s : State) (k : Nat) (x : Stream) : (s.setStream k x).tun = s.tun := rfl
@[simp] theorem State.setStream_grids (s : State) (k : Nat) (x : Stream) : (s.setStream k x).grids = s.grids := rfl
@[simp] theorem State.setStream_gens (s : State) (k : Nat) (x : Stream) : (s.setStream k x).gens = s.gens := rfl
@[simp] theorem State.setStream_xlat (s : State) (k : Nat) (x : Stream) : (s.setStream k x).xlat = s.xlat := rfl
@[simp] theorem State.setStream_launch (s : State) (k : Nat) (x : Stream) : (s.setStream k x).launch = s.launch := rfl
@[simp] theorem State.setStream_ident (s : State) (k : Nat) (x : Stream) : (s.setStream k x).ident = s.ident := rfl
@[simp] theorem State.setStream_keys (s : State) (k : Nat) (x : Stream) : (s.setStream k x).keys = s.keys := rfl
@[simp] theorem State.setStream_watchers (s : State) (k : Nat) (x : Stream) : (s.setStream k x).watchers = s.watchers := rfl
@[simp] theorem State.setStream_reports (s : State) (k : Nat) (x : Stream) : (s.setStream k x).reports = s.reports := rfl
@[simp] theorem State.setStream_ports (s : State) (k : Nat) (x : Stream) : (s.setStream k x).ports = s.ports := rfl
@[simp] theorem State.setStream_streams (s : State) (k : Nat) (x : Stream) : (s.setStream k x).streams = s.streams.set k x := rfl
@[simp] theorem State.setStream_reqs (s : State) (k : Nat) (x : Stream) : (s.setStream k x).reqs = s.reqs := rfl
@[simp] theorem State.setStream_peer (s : State) (k : Nat) (x : Stream) : (s.setStream k x).peer = s.peer := rfl
@[simp] theorem State.setStream_granted (s : State) (k : Nat) (x : Stream) : (s.setStream k x).granted = s.granted := rfl
@[simp] theorem State.setStream_nextId (s : State) (k : Nat) (x : Stream) : (s.setStream k x).nextId = s.nextId := rfl
@[simp] theorem State.setStream_ingress (s : State) (k : Nat) (x : Stream) : (s.setStream k x).ingress = s.ingress := rfl
@[simp] theorem State.setStream_net (s : State) (k : Nat) (x : Stream) : (s.setStream k x).net = s.net := rfl
@[simp] theorem State.setStream_colls (s : State) (k : Nat) (x : Stream) : (s.setStream k x).colls = s.colls := rfl
@[simp] theorem State.setStream_slots (s : State) (k : Nat) (x : Stream) : (s.setStream k x).slots = s.slots := rfl
@[simp] theorem State.setStream_strays (s : State) (k : Nat) (x : Stream) : (s.setStream k x).strays = s.strays := rfl
@[simp] theorem State.setStream_arrivals (s : State) (k : Nat) (x : Stream) : (s.setStream k x).arrivals = s.arrivals := rfl
@[simp] theorem State.setStream_waiting (s : State) (k : Nat) (x : Stream) : (s.setStream k x).waiting = s.waiting := rfl
@[simp] theorem State.setStream_paused (s : State) (k : Nat) (x : Stream) : (s.setStream k x).paused = s.paused := rfl
@[simp] theorem State.setStream_grants (s : State) (k : Nat) (x : Stream) : (s.setStream k x).grants = s.grants := rfl
@[simp] theorem State.setStream_holds (s : State) (k : Nat) (x : Stream) : (s.setStream k x).holds = s.holds := rfl
@[simp] theorem State.setStream_harbour (s : State) (k : Nat) (x : Stream) : (s.setStream k x).harbour = s.harbour := rfl

/-! ## `setLine` -/

@[simp] theorem State.setLine_agenda (s : State) (k : Nat) (x : Line) : (s.setLine k x).agenda = s.agenda := rfl
@[simp] theorem State.setLine_choice (s : State) (k : Nat) (x : Line) : (s.setLine k x).choice = s.choice := rfl
@[simp] theorem State.setLine_cur (s : State) (k : Nat) (x : Line) : (s.setLine k x).cur = s.cur := rfl
@[simp] theorem State.setLine_clk (s : State) (k : Nat) (x : Line) : (s.setLine k x).clk = s.clk := rfl
@[simp] theorem State.setLine_ticked (s : State) (k : Nat) (x : Line) : (s.setLine k x).ticked = s.ticked := rfl
@[simp] theorem State.setLine_gangs (s : State) (k : Nat) (x : Line) : (s.setLine k x).gangs = s.gangs := rfl
@[simp] theorem State.setLine_crews (s : State) (k : Nat) (x : Line) : (s.setLine k x).crews = s.crews := rfl
@[simp] theorem State.setLine_away (s : State) (k : Nat) (x : Line) : (s.setLine k x).away = s.away := rfl
@[simp] theorem State.setLine_pilots (s : State) (k : Nat) (x : Line) : (s.setLine k x).pilots = s.pilots := rfl
@[simp] theorem State.setLine_cores (s : State) (k : Nat) (x : Line) : (s.setLine k x).cores = s.cores := rfl
@[simp] theorem State.setLine_clusters (s : State) (k : Nat) (x : Line) : (s.setLine k x).clusters = s.clusters := rfl
@[simp] theorem State.setLine_dies (s : State) (k : Nat) (x : Line) : (s.setLine k x).dies = s.dies := rfl
@[simp] theorem State.setLine_mem (s : State) (k : Nat) (x : Line) : (s.setLine k x).mem = s.mem := rfl
@[simp] theorem State.setLine_tiers (s : State) (k : Nat) (x : Line) : (s.setLine k x).tiers = s.tiers := rfl
@[simp] theorem State.setLine_scratch (s : State) (k : Nat) (x : Line) : (s.setLine k x).scratch = s.scratch := rfl
@[simp] theorem State.setLine_poison (s : State) (k : Nat) (x : Line) : (s.setLine k x).poison = s.poison := rfl
@[simp] theorem State.setLine_spoison (s : State) (k : Nat) (x : Line) : (s.setLine k x).spoison = s.spoison := rfl
@[simp] theorem State.setLine_lines (s : State) (k : Nat) (x : Line) : (s.setLine k x).lines = s.lines.set k x := rfl
@[simp] theorem State.setLine_tun (s : State) (k : Nat) (x : Line) : (s.setLine k x).tun = s.tun := rfl
@[simp] theorem State.setLine_grids (s : State) (k : Nat) (x : Line) : (s.setLine k x).grids = s.grids := rfl
@[simp] theorem State.setLine_gens (s : State) (k : Nat) (x : Line) : (s.setLine k x).gens = s.gens := rfl
@[simp] theorem State.setLine_xlat (s : State) (k : Nat) (x : Line) : (s.setLine k x).xlat = s.xlat := rfl
@[simp] theorem State.setLine_launch (s : State) (k : Nat) (x : Line) : (s.setLine k x).launch = s.launch := rfl
@[simp] theorem State.setLine_ident (s : State) (k : Nat) (x : Line) : (s.setLine k x).ident = s.ident := rfl
@[simp] theorem State.setLine_keys (s : State) (k : Nat) (x : Line) : (s.setLine k x).keys = s.keys := rfl
@[simp] theorem State.setLine_watchers (s : State) (k : Nat) (x : Line) : (s.setLine k x).watchers = s.watchers := rfl
@[simp] theorem State.setLine_reports (s : State) (k : Nat) (x : Line) : (s.setLine k x).reports = s.reports := rfl
@[simp] theorem State.setLine_ports (s : State) (k : Nat) (x : Line) : (s.setLine k x).ports = s.ports := rfl
@[simp] theorem State.setLine_streams (s : State) (k : Nat) (x : Line) : (s.setLine k x).streams = s.streams := rfl
@[simp] theorem State.setLine_reqs (s : State) (k : Nat) (x : Line) : (s.setLine k x).reqs = s.reqs := rfl
@[simp] theorem State.setLine_peer (s : State) (k : Nat) (x : Line) : (s.setLine k x).peer = s.peer := rfl
@[simp] theorem State.setLine_granted (s : State) (k : Nat) (x : Line) : (s.setLine k x).granted = s.granted := rfl
@[simp] theorem State.setLine_nextId (s : State) (k : Nat) (x : Line) : (s.setLine k x).nextId = s.nextId := rfl
@[simp] theorem State.setLine_ingress (s : State) (k : Nat) (x : Line) : (s.setLine k x).ingress = s.ingress := rfl
@[simp] theorem State.setLine_net (s : State) (k : Nat) (x : Line) : (s.setLine k x).net = s.net := rfl
@[simp] theorem State.setLine_colls (s : State) (k : Nat) (x : Line) : (s.setLine k x).colls = s.colls := rfl
@[simp] theorem State.setLine_slots (s : State) (k : Nat) (x : Line) : (s.setLine k x).slots = s.slots := rfl
@[simp] theorem State.setLine_strays (s : State) (k : Nat) (x : Line) : (s.setLine k x).strays = s.strays := rfl
@[simp] theorem State.setLine_arrivals (s : State) (k : Nat) (x : Line) : (s.setLine k x).arrivals = s.arrivals := rfl
@[simp] theorem State.setLine_waiting (s : State) (k : Nat) (x : Line) : (s.setLine k x).waiting = s.waiting := rfl
@[simp] theorem State.setLine_paused (s : State) (k : Nat) (x : Line) : (s.setLine k x).paused = s.paused := rfl
@[simp] theorem State.setLine_grants (s : State) (k : Nat) (x : Line) : (s.setLine k x).grants = s.grants := rfl
@[simp] theorem State.setLine_holds (s : State) (k : Nat) (x : Line) : (s.setLine k x).holds = s.holds := rfl
@[simp] theorem State.setLine_harbour (s : State) (k : Nat) (x : Line) : (s.setLine k x).harbour = s.harbour := rfl

/-! ## A free value and a fresh number are taken -/

@[simp] theorem State.free_agenda (s : State) : s.free.2.agenda = s.agenda := rfl
@[simp] theorem State.free_choice (s : State) : s.free.2.choice = s.choice + 1 := rfl
@[simp] theorem State.free_cur (s : State) : s.free.2.cur = s.cur := rfl
@[simp] theorem State.free_clk (s : State) : s.free.2.clk = s.clk := rfl
@[simp] theorem State.free_ticked (s : State) : s.free.2.ticked = s.ticked := rfl
@[simp] theorem State.free_gangs (s : State) : s.free.2.gangs = s.gangs := rfl
@[simp] theorem State.free_crews (s : State) : s.free.2.crews = s.crews := rfl
@[simp] theorem State.free_away (s : State) : s.free.2.away = s.away := rfl
@[simp] theorem State.free_pilots (s : State) : s.free.2.pilots = s.pilots := rfl
@[simp] theorem State.free_cores (s : State) : s.free.2.cores = s.cores := rfl
@[simp] theorem State.free_clusters (s : State) : s.free.2.clusters = s.clusters := rfl
@[simp] theorem State.free_dies (s : State) : s.free.2.dies = s.dies := rfl
@[simp] theorem State.free_mem (s : State) : s.free.2.mem = s.mem := rfl
@[simp] theorem State.free_tiers (s : State) : s.free.2.tiers = s.tiers := rfl
@[simp] theorem State.free_scratch (s : State) : s.free.2.scratch = s.scratch := rfl
@[simp] theorem State.free_poison (s : State) : s.free.2.poison = s.poison := rfl
@[simp] theorem State.free_spoison (s : State) : s.free.2.spoison = s.spoison := rfl
@[simp] theorem State.free_lines (s : State) : s.free.2.lines = s.lines := rfl
@[simp] theorem State.free_tun (s : State) : s.free.2.tun = s.tun := rfl
@[simp] theorem State.free_grids (s : State) : s.free.2.grids = s.grids := rfl
@[simp] theorem State.free_gens (s : State) : s.free.2.gens = s.gens := rfl
@[simp] theorem State.free_xlat (s : State) : s.free.2.xlat = s.xlat := rfl
@[simp] theorem State.free_launch (s : State) : s.free.2.launch = s.launch := rfl
@[simp] theorem State.free_ident (s : State) : s.free.2.ident = s.ident := rfl
@[simp] theorem State.free_keys (s : State) : s.free.2.keys = s.keys := rfl
@[simp] theorem State.free_watchers (s : State) : s.free.2.watchers = s.watchers := rfl
@[simp] theorem State.free_reports (s : State) : s.free.2.reports = s.reports := rfl
@[simp] theorem State.free_ports (s : State) : s.free.2.ports = s.ports := rfl
@[simp] theorem State.free_streams (s : State) : s.free.2.streams = s.streams := rfl
@[simp] theorem State.free_reqs (s : State) : s.free.2.reqs = s.reqs := rfl
@[simp] theorem State.free_peer (s : State) : s.free.2.peer = s.peer := rfl
@[simp] theorem State.free_granted (s : State) : s.free.2.granted = s.granted := rfl
@[simp] theorem State.free_nextId (s : State) : s.free.2.nextId = s.nextId := rfl
@[simp] theorem State.free_ingress (s : State) : s.free.2.ingress = s.ingress := rfl
@[simp] theorem State.free_net (s : State) : s.free.2.net = s.net := rfl
@[simp] theorem State.free_colls (s : State) : s.free.2.colls = s.colls := rfl
@[simp] theorem State.free_slots (s : State) : s.free.2.slots = s.slots := rfl
@[simp] theorem State.free_strays (s : State) : s.free.2.strays = s.strays := rfl
@[simp] theorem State.free_arrivals (s : State) : s.free.2.arrivals = s.arrivals := rfl
@[simp] theorem State.free_waiting (s : State) : s.free.2.waiting = s.waiting := rfl
@[simp] theorem State.free_paused (s : State) : s.free.2.paused = s.paused := rfl
@[simp] theorem State.free_grants (s : State) : s.free.2.grants = s.grants := rfl
@[simp] theorem State.free_holds (s : State) : s.free.2.holds = s.holds := rfl
@[simp] theorem State.free_harbour (s : State) : s.free.2.harbour = s.harbour := rfl

@[simp] theorem State.fresh_agenda (s : State) : s.fresh.2.agenda = s.agenda := rfl
@[simp] theorem State.fresh_choice (s : State) : s.fresh.2.choice = s.choice := rfl
@[simp] theorem State.fresh_cur (s : State) : s.fresh.2.cur = s.cur := rfl
@[simp] theorem State.fresh_clk (s : State) : s.fresh.2.clk = s.clk := rfl
@[simp] theorem State.fresh_ticked (s : State) : s.fresh.2.ticked = s.ticked := rfl
@[simp] theorem State.fresh_gangs (s : State) : s.fresh.2.gangs = s.gangs := rfl
@[simp] theorem State.fresh_crews (s : State) : s.fresh.2.crews = s.crews := rfl
@[simp] theorem State.fresh_away (s : State) : s.fresh.2.away = s.away := rfl
@[simp] theorem State.fresh_pilots (s : State) : s.fresh.2.pilots = s.pilots := rfl
@[simp] theorem State.fresh_cores (s : State) : s.fresh.2.cores = s.cores := rfl
@[simp] theorem State.fresh_clusters (s : State) : s.fresh.2.clusters = s.clusters := rfl
@[simp] theorem State.fresh_dies (s : State) : s.fresh.2.dies = s.dies := rfl
@[simp] theorem State.fresh_mem (s : State) : s.fresh.2.mem = s.mem := rfl
@[simp] theorem State.fresh_tiers (s : State) : s.fresh.2.tiers = s.tiers := rfl
@[simp] theorem State.fresh_scratch (s : State) : s.fresh.2.scratch = s.scratch := rfl
@[simp] theorem State.fresh_poison (s : State) : s.fresh.2.poison = s.poison := rfl
@[simp] theorem State.fresh_spoison (s : State) : s.fresh.2.spoison = s.spoison := rfl
@[simp] theorem State.fresh_lines (s : State) : s.fresh.2.lines = s.lines := rfl
@[simp] theorem State.fresh_tun (s : State) : s.fresh.2.tun = s.tun := rfl
@[simp] theorem State.fresh_grids (s : State) : s.fresh.2.grids = s.grids := rfl
@[simp] theorem State.fresh_gens (s : State) : s.fresh.2.gens = s.gens := rfl
@[simp] theorem State.fresh_xlat (s : State) : s.fresh.2.xlat = s.xlat := rfl
@[simp] theorem State.fresh_launch (s : State) : s.fresh.2.launch = s.launch := rfl
@[simp] theorem State.fresh_ident (s : State) : s.fresh.2.ident = s.ident := rfl
@[simp] theorem State.fresh_keys (s : State) : s.fresh.2.keys = s.keys := rfl
@[simp] theorem State.fresh_watchers (s : State) : s.fresh.2.watchers = s.watchers := rfl
@[simp] theorem State.fresh_reports (s : State) : s.fresh.2.reports = s.reports := rfl
@[simp] theorem State.fresh_ports (s : State) : s.fresh.2.ports = s.ports := rfl
@[simp] theorem State.fresh_streams (s : State) : s.fresh.2.streams = s.streams := rfl
@[simp] theorem State.fresh_reqs (s : State) : s.fresh.2.reqs = s.reqs := rfl
@[simp] theorem State.fresh_peer (s : State) : s.fresh.2.peer = s.peer := rfl
@[simp] theorem State.fresh_granted (s : State) : s.fresh.2.granted = s.granted := rfl
@[simp] theorem State.fresh_nextId (s : State) : s.fresh.2.nextId = s.nextId + 1 := rfl
@[simp] theorem State.fresh_ingress (s : State) : s.fresh.2.ingress = s.ingress := rfl
@[simp] theorem State.fresh_net (s : State) : s.fresh.2.net = s.net := rfl
@[simp] theorem State.fresh_colls (s : State) : s.fresh.2.colls = s.colls := rfl
@[simp] theorem State.fresh_slots (s : State) : s.fresh.2.slots = s.slots := rfl
@[simp] theorem State.fresh_strays (s : State) : s.fresh.2.strays = s.strays := rfl
@[simp] theorem State.fresh_arrivals (s : State) : s.fresh.2.arrivals = s.arrivals := rfl
@[simp] theorem State.fresh_waiting (s : State) : s.fresh.2.waiting = s.waiting := rfl
@[simp] theorem State.fresh_paused (s : State) : s.fresh.2.paused = s.paused := rfl
@[simp] theorem State.fresh_grants (s : State) : s.fresh.2.grants = s.grants := rfl
@[simp] theorem State.fresh_holds (s : State) : s.fresh.2.holds = s.holds := rfl
@[simp] theorem State.fresh_harbour (s : State) : s.fresh.2.harbour = s.harbour := rfl

/-! ## The scalar context of an issuer is replaced -/

@[simp] theorem State.setSctx_agenda (s : State) (a : Issuer) (x : ScalarCtx) : (s.setSctx a x).agenda = s.agenda := by
  cases a <;> simp only [State.setSctx] <;> split <;> rfl
@[simp] theorem State.setSctx_choice (s : State) (a : Issuer) (x : ScalarCtx) : (s.setSctx a x).choice = s.choice := by
  cases a <;> simp only [State.setSctx] <;> split <;> rfl
@[simp] theorem State.setSctx_cur (s : State) (a : Issuer) (x : ScalarCtx) : (s.setSctx a x).cur = s.cur := by
  cases a <;> simp only [State.setSctx] <;> split <;> rfl
@[simp] theorem State.setSctx_clk (s : State) (a : Issuer) (x : ScalarCtx) : (s.setSctx a x).clk = s.clk := by
  cases a <;> simp only [State.setSctx] <;> split <;> rfl
@[simp] theorem State.setSctx_ticked (s : State) (a : Issuer) (x : ScalarCtx) : (s.setSctx a x).ticked = s.ticked := by
  cases a <;> simp only [State.setSctx] <;> split <;> rfl
@[simp] theorem State.setSctx_crews (s : State) (a : Issuer) (x : ScalarCtx) : (s.setSctx a x).crews = s.crews := by
  cases a <;> simp only [State.setSctx] <;> split <;> rfl
@[simp] theorem State.setSctx_away (s : State) (a : Issuer) (x : ScalarCtx) : (s.setSctx a x).away = s.away := by
  cases a <;> simp only [State.setSctx] <;> split <;> rfl
@[simp] theorem State.setSctx_cores (s : State) (a : Issuer) (x : ScalarCtx) : (s.setSctx a x).cores = s.cores := by
  cases a <;> simp only [State.setSctx] <;> split <;> rfl
@[simp] theorem State.setSctx_clusters (s : State) (a : Issuer) (x : ScalarCtx) : (s.setSctx a x).clusters = s.clusters := by
  cases a <;> simp only [State.setSctx] <;> split <;> rfl
@[simp] theorem State.setSctx_dies (s : State) (a : Issuer) (x : ScalarCtx) : (s.setSctx a x).dies = s.dies := by
  cases a <;> simp only [State.setSctx] <;> split <;> rfl
@[simp] theorem State.setSctx_mem (s : State) (a : Issuer) (x : ScalarCtx) : (s.setSctx a x).mem = s.mem := by
  cases a <;> simp only [State.setSctx] <;> split <;> rfl
@[simp] theorem State.setSctx_tiers (s : State) (a : Issuer) (x : ScalarCtx) : (s.setSctx a x).tiers = s.tiers := by
  cases a <;> simp only [State.setSctx] <;> split <;> rfl
@[simp] theorem State.setSctx_scratch (s : State) (a : Issuer) (x : ScalarCtx) : (s.setSctx a x).scratch = s.scratch := by
  cases a <;> simp only [State.setSctx] <;> split <;> rfl
@[simp] theorem State.setSctx_poison (s : State) (a : Issuer) (x : ScalarCtx) : (s.setSctx a x).poison = s.poison := by
  cases a <;> simp only [State.setSctx] <;> split <;> rfl
@[simp] theorem State.setSctx_spoison (s : State) (a : Issuer) (x : ScalarCtx) : (s.setSctx a x).spoison = s.spoison := by
  cases a <;> simp only [State.setSctx] <;> split <;> rfl
@[simp] theorem State.setSctx_lines (s : State) (a : Issuer) (x : ScalarCtx) : (s.setSctx a x).lines = s.lines := by
  cases a <;> simp only [State.setSctx] <;> split <;> rfl
@[simp] theorem State.setSctx_tun (s : State) (a : Issuer) (x : ScalarCtx) : (s.setSctx a x).tun = s.tun := by
  cases a <;> simp only [State.setSctx] <;> split <;> rfl
@[simp] theorem State.setSctx_grids (s : State) (a : Issuer) (x : ScalarCtx) : (s.setSctx a x).grids = s.grids := by
  cases a <;> simp only [State.setSctx] <;> split <;> rfl
@[simp] theorem State.setSctx_gens (s : State) (a : Issuer) (x : ScalarCtx) : (s.setSctx a x).gens = s.gens := by
  cases a <;> simp only [State.setSctx] <;> split <;> rfl
@[simp] theorem State.setSctx_xlat (s : State) (a : Issuer) (x : ScalarCtx) : (s.setSctx a x).xlat = s.xlat := by
  cases a <;> simp only [State.setSctx] <;> split <;> rfl
@[simp] theorem State.setSctx_launch (s : State) (a : Issuer) (x : ScalarCtx) : (s.setSctx a x).launch = s.launch := by
  cases a <;> simp only [State.setSctx] <;> split <;> rfl
@[simp] theorem State.setSctx_ident (s : State) (a : Issuer) (x : ScalarCtx) : (s.setSctx a x).ident = s.ident := by
  cases a <;> simp only [State.setSctx] <;> split <;> rfl
@[simp] theorem State.setSctx_keys (s : State) (a : Issuer) (x : ScalarCtx) : (s.setSctx a x).keys = s.keys := by
  cases a <;> simp only [State.setSctx] <;> split <;> rfl
@[simp] theorem State.setSctx_watchers (s : State) (a : Issuer) (x : ScalarCtx) : (s.setSctx a x).watchers = s.watchers := by
  cases a <;> simp only [State.setSctx] <;> split <;> rfl
@[simp] theorem State.setSctx_reports (s : State) (a : Issuer) (x : ScalarCtx) : (s.setSctx a x).reports = s.reports := by
  cases a <;> simp only [State.setSctx] <;> split <;> rfl
@[simp] theorem State.setSctx_ports (s : State) (a : Issuer) (x : ScalarCtx) : (s.setSctx a x).ports = s.ports := by
  cases a <;> simp only [State.setSctx] <;> split <;> rfl
@[simp] theorem State.setSctx_streams (s : State) (a : Issuer) (x : ScalarCtx) : (s.setSctx a x).streams = s.streams := by
  cases a <;> simp only [State.setSctx] <;> split <;> rfl
@[simp] theorem State.setSctx_reqs (s : State) (a : Issuer) (x : ScalarCtx) : (s.setSctx a x).reqs = s.reqs := by
  cases a <;> simp only [State.setSctx] <;> split <;> rfl
@[simp] theorem State.setSctx_peer (s : State) (a : Issuer) (x : ScalarCtx) : (s.setSctx a x).peer = s.peer := by
  cases a <;> simp only [State.setSctx] <;> split <;> rfl
@[simp] theorem State.setSctx_granted (s : State) (a : Issuer) (x : ScalarCtx) : (s.setSctx a x).granted = s.granted := by
  cases a <;> simp only [State.setSctx] <;> split <;> rfl
@[simp] theorem State.setSctx_nextId (s : State) (a : Issuer) (x : ScalarCtx) : (s.setSctx a x).nextId = s.nextId := by
  cases a <;> simp only [State.setSctx] <;> split <;> rfl
@[simp] theorem State.setSctx_ingress (s : State) (a : Issuer) (x : ScalarCtx) : (s.setSctx a x).ingress = s.ingress := by
  cases a <;> simp only [State.setSctx] <;> split <;> rfl
@[simp] theorem State.setSctx_net (s : State) (a : Issuer) (x : ScalarCtx) : (s.setSctx a x).net = s.net := by
  cases a <;> simp only [State.setSctx] <;> split <;> rfl
@[simp] theorem State.setSctx_colls (s : State) (a : Issuer) (x : ScalarCtx) : (s.setSctx a x).colls = s.colls := by
  cases a <;> simp only [State.setSctx] <;> split <;> rfl
@[simp] theorem State.setSctx_slots (s : State) (a : Issuer) (x : ScalarCtx) : (s.setSctx a x).slots = s.slots := by
  cases a <;> simp only [State.setSctx] <;> split <;> rfl
@[simp] theorem State.setSctx_strays (s : State) (a : Issuer) (x : ScalarCtx) : (s.setSctx a x).strays = s.strays := by
  cases a <;> simp only [State.setSctx] <;> split <;> rfl
@[simp] theorem State.setSctx_arrivals (s : State) (a : Issuer) (x : ScalarCtx) : (s.setSctx a x).arrivals = s.arrivals := by
  cases a <;> simp only [State.setSctx] <;> split <;> rfl
@[simp] theorem State.setSctx_waiting (s : State) (a : Issuer) (x : ScalarCtx) : (s.setSctx a x).waiting = s.waiting := by
  cases a <;> simp only [State.setSctx] <;> split <;> rfl
@[simp] theorem State.setSctx_paused (s : State) (a : Issuer) (x : ScalarCtx) : (s.setSctx a x).paused = s.paused := by
  cases a <;> simp only [State.setSctx] <;> split <;> rfl
@[simp] theorem State.setSctx_grants (s : State) (a : Issuer) (x : ScalarCtx) : (s.setSctx a x).grants = s.grants := by
  cases a <;> simp only [State.setSctx] <;> split <;> rfl
@[simp] theorem State.setSctx_holds (s : State) (a : Issuer) (x : ScalarCtx) : (s.setSctx a x).holds = s.holds := by
  cases a <;> simp only [State.setSctx] <;> split <;> rfl
@[simp] theorem State.setSctx_harbour (s : State) (a : Issuer) (x : ScalarCtx) : (s.setSctx a x).harbour = s.harbour := by
  cases a <;> simp only [State.setSctx] <;> split <;> rfl

end Sys2Proof.Machine
end

