-- ==== Sys2Proof/Laws/Scalar.lean ====
section
/-!
SUPPORT. Scalar contexts: what replacing one leaves, and what a scalar instruction comes to once its issuer is known and
the checks of R74 and R75 pass.
-/

namespace Sys2Proof.Machine

/-- A context that has been replaced reads as the new one. -/
theorem State.sctx_setSctx {s : State} {a : Issuer} {c : ScalarCtx} (h : s.sctx a = some c) (x : ScalarCtx) :
    (s.setSctx a x).sctx a = some x := by
  cases a with
  | gang g =>
    simp only [State.sctx, State.gang?] at h ⊢
    cases hg : s.gangs.get? g with
    | none => simp [hg] at h
    | some y => simp [State.setSctx, State.gang?, hg, State.setGang]
  | pilot cl =>
    simp only [State.sctx, State.pilot?] at h ⊢
    cases hg : s.pilots.get? cl with
    | none => simp [hg] at h
    | some y => simp [State.setSctx, State.pilot?, hg, State.setPilot]

/-- Of two replacements the second stands. -/
@[simp] theorem State.setSctx_setSctx (s : State) (a : Issuer) (x y : ScalarCtx) :
    (s.setSctx a x).setSctx a y = s.setSctx a y := by
  cases a with
  | gang g =>
    simp only [State.setSctx, State.gang?]
    cases hg : s.gangs.get? g with
    | none => simp [hg]
    | some z => simp [State.setGang]
  | pilot cl =>
    simp only [State.setSctx, State.pilot?]
    cases hg : s.pilots.get? cl with
    | none => simp [hg]
    | some z => simp [State.setPilot]

theorem State.putS_eq {s : State} {a : Issuer} {c : ScalarCtx} (h : s.sctx a = some c) (d : SReg) (v : W64) :
    s.putS a d v = s.setSctx a { c with s := c.s.set d.val v } := by simp [State.putS, h]

theorem State.putK_eq {s : State} {a : Issuer} {c : ScalarCtx} (h : s.sctx a = some c) (d : KReg) (v : Bool) :
    s.putK a d v = s.setSctx a { c with k := c.k.set d.val v } := by simp [State.putK, h]

theorem State.goto_eq {s : State} {a : Issuer} {c : ScalarCtx} (h : s.sctx a = some c) (pc : W64) :
    s.goto a pc = s.setSctx a { c with pc := pc, wait := .none } := by simp [State.goto, h]

theorem State.next_eq {s : State} {a : Issuer} {c : ScalarCtx} (h : s.sctx a = some c) (pc : W64) (n : Nat) :
    s.next a pc n = s.setSctx a { c with pc := pc + BitVec.ofNat 64 n, wait := .none } := State.goto_eq h _

/-- A result in sd, and the stream goes on: one replacement of the context. -/
theorem State.finish_eq {s : State} {a : Issuer} {c x : ScalarCtx} (h : s.sctx a = some x) (n : Nat) (d : SReg) (v : W64) :
    s.finish a c n d v =
      s.setSctx a { x with pc := c.pc + BitVec.ofNat 64 n, s := x.s.set d.val v, wait := .none } := by
  rw [State.finish, State.putS_eq h, State.next_eq (State.sctx_setSctx h _), State.setSctx_setSctx]

/-! ### The context as an instruction that checks again finds it: only a wait may have ended -/

@[simp] theorem ScalarCtx.rechecked_pc (c : ScalarCtx) : c.rechecked.pc = c.pc := by
  simp only [ScalarCtx.rechecked]; split <;> rfl
@[simp] theorem ScalarCtx.rechecked_s (c : ScalarCtx) : c.rechecked.s = c.s := by
  simp only [ScalarCtx.rechecked]; split <;> rfl
@[simp] theorem ScalarCtx.rechecked_k (c : ScalarCtx) : c.rechecked.k = c.k := by
  simp only [ScalarCtx.rechecked]; split <;> rfl
@[simp] theorem ScalarCtx.rechecked_mode (c : ScalarCtx) : c.rechecked.mode = c.mode := by
  simp only [ScalarCtx.rechecked]; split <;> rfl
@[simp] theorem ScalarCtx.rechecked_trapslot (c : ScalarCtx) : c.rechecked.trapslot = c.trapslot := by
  simp only [ScalarCtx.rechecked]; split <;> rfl
@[simp] theorem ScalarCtx.rechecked_get (c : ScalarCtx) (r : SReg) : c.rechecked.get r = c.get r := by
  simp [ScalarCtx.get]

/-- A context that has not waited is found as it is. -/
theorem ScalarCtx.rechecked_eq {c : ScalarCtx} (h : c.wait ≠ .stall) : c.rechecked = c := by
  simp [ScalarCtx.rechecked, h]

/-- A scalar instruction of a known issuer whose stream and features are legal. -/
theorem scalar_of {s : State} {k : StreamKind} {fs : List Feature} {f : Issuer → ScalarCtx → Act State} {a : Issuer}
    {c : ScalarCtx} (hc : curIssuer s.cur = some a) (hs : s.sctx a = some c)
    (hl : (k.legal a && fs.all (s.hasFeature a)) = true) :
    scalar s k fs f = scalarEnd s a c.pc c.pc (f a c.rechecked) := by
  simp only [scalar, hc, hs, hl]
  rfl

/-- The same, when the effect is a next state. -/
theorem scalar_next {s t : State} {k : StreamKind} {fs : List Feature} {f : Issuer → ScalarCtx → Act State} {a : Issuer}
    {c : ScalarCtx} (hc : curIssuer s.cur = some a) (hs : s.sctx a = some c)
    (hl : (k.legal a && fs.all (s.hasFeature a)) = true) (hf : f a c.rechecked = .ok t) : scalar s k fs f = .next t := by
  rw [scalar_of hc hs hl, hf]; rfl

/-- The interlock of R22 lets a write pass. -/
theorem State.interlock_ok {s : State} {a : Issuer} {d : SReg} (h : d.val < 32 → s.blocked a = false) :
    s.interlock a d = .ok () := by
  unfold State.interlock waitFor
  rw [if_pos]
  by_cases hd : d.val < 32
  · simp [h hd]
  · simp [hd]

/-- A register instruction writes sd and advances. -/
theorem scalarReg_next {s : State} {n : Nat} {d : SReg} {f : ScalarCtx → W64} {a : Issuer} {c : ScalarCtx}
    (hc : curIssuer s.cur = some a) (hs : s.sctx a = some c) (hd : d.val < 32 → s.blocked a = false) :
    scalarReg s n d f =
      .next (s.setSctx a { c with pc := c.pc + BitVec.ofNat 64 n, s := c.s.set d.val (f c.rechecked), wait := .none }) := by
  rw [← State.finish_eq hs]
  refine scalar_next hc hs rfl ?_
  simp only [State.interlock_ok hd, ScalarCtx.rechecked_pc]
  rfl

end Sys2Proof.Machine
end

