-- ==== Sys2Proof/Laws/Access.lean ====
section
/-!
SUPPORT. What accesses of memory leave: the streams but for sleeps that end, the grids, the identity and the clocks stand,
and memories in canonical form stay so.
-/

namespace Sys2Proof.Machine

/-! ## Sleeps that end -/

/-- A stream that a line wakes is awake. -/
theorem awakeCtx_wake (c : ScalarCtx) (l : Nat) (h : c.wait = .asleep l ∨ c.wait = .polling) :
    awakeCtx { c with wait := .none } = awakeCtx c := by
  rcases h with h | h <;> simp [awakeCtx, h]

/-- An awake stream is the same stream but for its wait. -/
theorem awakeCtx_eq {c x : ScalarCtx} (h : awakeCtx x = awakeCtx c) (f : ScalarCtx) :
    ({ f with pc := x.pc, s := x.s, k := x.k, mode := x.mode, trapslot := x.trapslot } : ScalarCtx) =
      { f with pc := c.pc, s := c.s, k := c.k, mode := c.mode, trapslot := c.trapslot } := by
  have key : ∀ y : ScalarCtx, y.pc = (awakeCtx y).pc ∧ y.s = (awakeCtx y).s ∧ y.k = (awakeCtx y).k ∧
      y.mode = (awakeCtx y).mode ∧ y.trapslot = (awakeCtx y).trapslot := by
    intro y; simp only [awakeCtx]; split <;> exact ⟨rfl, rfl, rfl, rfl, rfl⟩
  obtain ⟨a1, a2, a3, a4, a5⟩ := key x
  obtain ⟨b1, b2, b3, b4, b5⟩ := key c
  rw [a1, a2, a3, a4, a5, h, ← b1, ← b2, ← b3, ← b4, ← b5]

theorem sameStreams_refl (s : State) : SameStreams s s := ⟨fun _ => rfl, fun _ => rfl⟩

theorem sameStreams_trans {s t u : State} (h : SameStreams s t) (k : SameStreams t u) : SameStreams s u :=
  ⟨fun g => (k.1 g).trans (h.1 g), fun c => (k.2 c).trans (h.2 c)⟩

/-- A gang replaced by one that differs in sleeps alone. -/
theorem sameStreams_setGang {s : State} {g : Nat} {y z : Gang} (h : s.gang? g = some y) (e : awakeGang z = awakeGang y) :
    SameStreams s (s.setGang g z) := by
  refine ⟨fun j => ?_, fun _ => rfl⟩
  by_cases hj : j = g
  · subst hj
    simp [State.gang?, State.setGang, e]
    simp only [State.gang?] at h
    simp [h]
  · simp [State.gang?, State.setGang, Tbl.get?_set_ne _ _ hj]

/-- A pilot replaced by one that differs in sleeps alone. -/
theorem sameStreams_setPilot {s : State} {c : Nat} {y z : Pilot} (h : s.pilot? c = some y)
    (e : awakePilot z = awakePilot y) : SameStreams s (s.setPilot c z) := by
  refine ⟨fun _ => rfl, fun j => ?_⟩
  by_cases hj : j = c
  · subst hj
    simp [State.pilot?, State.setPilot, e]
    simp only [State.pilot?] at h
    simp [h]
  · simp [State.pilot?, State.setPilot, Tbl.get?_set_ne _ _ hj]

/-! ## The frame -/

/-- What an operation on memory leaves. -/
structure MemFrame (s t : State) : Prop where
  streams : SameStreams s t
  grids : t.grids = s.grids
  cur : t.cur = s.cur
  clk : t.clk = s.clk
  ident : t.ident = s.ident
  launch : t.launch = s.launch
  clusters : t.clusters = s.clusters
  dies : t.dies = s.dies
  scratch : t.scratch = s.scratch
  mem : Memory.wf s.mem = true → Memory.wf t.mem = true
  tiers : Memory.wf s.tiers = true → Memory.wf t.tiers = true

theorem MemFrame.refl (s : State) : MemFrame s s :=
  ⟨sameStreams_refl s, rfl, rfl, rfl, rfl, rfl, rfl, rfl, rfl, id, id⟩

theorem MemFrame.trans {s t u : State} (h : MemFrame s t) (k : MemFrame t u) : MemFrame s u :=
  ⟨sameStreams_trans h.streams k.streams, k.grids.trans h.grids, k.cur.trans h.cur, k.clk.trans h.clk,
   k.ident.trans h.ident, k.launch.trans h.launch, k.clusters.trans h.clusters, k.dies.trans h.dies,
   k.scratch.trans h.scratch, k.mem ∘ h.mem, k.tiers ∘ h.tiers⟩

/-- An operation that touches nothing of the frame. -/
theorem MemFrame.same {s t : State} (g : t.gangs = s.gangs) (p : t.pilots = s.pilots) (a : t.grids = s.grids)
    (b : t.cur = s.cur) (c : t.clk = s.clk) (d : t.ident = s.ident) (e : t.launch = s.launch)
    (f : t.clusters = s.clusters) (h : t.dies = s.dies) (i : t.scratch = s.scratch)
    (m : Memory.wf s.mem = true → Memory.wf t.mem = true) (n : Memory.wf s.tiers = true → Memory.wf t.tiers = true) :
    MemFrame s t :=
  ⟨⟨fun _ => by simp [State.gang?, g], fun _ => by simp [State.pilot?, p]⟩, a, b, c, d, e, f, h, i, m, n⟩

/-- A fold of operations that each leave the frame. -/
theorem MemFrame.foldl {α : Type} {f : State → α → State} (h : ∀ s x, MemFrame s (f s x)) (l : List α) (s : State) :
    MemFrame s (l.foldl f s) := by
  induction l generalizing s with
  | nil => exact .refl s
  | cons x l ih => exact (h s x).trans (ih (f s x))

/-- A stream is the same one, but for a sleep that has ended. -/
theorem State.sctx_frame {s t : State} (h : MemFrame s t) (a : Issuer) :
    (t.sctx a).map awakeCtx = (s.sctx a).map awakeCtx := by
  cases a with
  | gang g =>
    have e := h.streams.1 g
    simp only [State.sctx]
    cases hs : s.gang? g <;> cases ht : t.gang? g <;> simp_all [awakeGang]
  | pilot c =>
    have e := h.streams.2 c
    simp only [State.sctx]
    cases hs : s.pilot? c <;> cases ht : t.pilot? c <;> simp_all [awakePilot]

/-- The context of a stream after an operation on memory, as an instruction leaves it that ends a wait. -/
theorem State.sctx_after {s t : State} (h : MemFrame s t) {a : Issuer} {c : ScalarCtx} (hc : s.sctx a = some c) :
    ∃ x, t.sctx a = some x ∧ x.pc = c.pc ∧ x.s = c.s ∧ x.k = c.k ∧ x.mode = c.mode ∧ x.trapslot = c.trapslot := by
  have e := State.sctx_frame h a
  rw [hc] at e
  cases ht : t.sctx a with
  | none => simp [ht] at e
  | some x =>
    rw [ht] at e
    simp only [Option.map_some, Option.some.injEq] at e
    refine ⟨x, rfl, ?_⟩
    have k := awakeCtx_eq e { pc := 0, s := Vector.replicate 64 0, k := Vector.replicate 4 false, mode := none,
                              trapslot := 0, wait := .none }
    simpa using k

/-! ## Pieces of State that the frame does not name -/

theorem State.setCore_frame (s : State) (n : Nat) (x : Core) : MemFrame s (s.setCore n x) :=
  .same rfl rfl rfl rfl rfl rfl rfl rfl rfl rfl id id

theorem State.setCrew_frame (s : State) (n : Nat) (x : Crew) : MemFrame s (s.setCrew n x) :=
  .same rfl rfl rfl rfl rfl rfl rfl rfl rfl rfl id id

theorem State.setPort_frame (s : State) (n : Nat) (x : Port) : MemFrame s (s.setPort n x) :=
  .same rfl rfl rfl rfl rfl rfl rfl rfl rfl rfl id id

theorem State.setStream_frame (s : State) (n : Nat) (x : Stream) : MemFrame s (s.setStream n x) :=
  .same rfl rfl rfl rfl rfl rfl rfl rfl rfl rfl id id

theorem State.setLine_frame (s : State) (l : Nat) (x : Line) : MemFrame s (s.setLine l x) :=
  .same rfl rfl rfl rfl rfl rfl rfl rfl rfl rfl id id

theorem State.free_frame (s : State) : MemFrame s s.free.2 :=
  .same rfl rfl rfl rfl rfl rfl rfl rfl rfl rfl id id

theorem State.store_frame (s : State) (a : Nat) (bs : List Byte) : MemFrame s { s with mem := s.mem.store a bs } :=
  .same rfl rfl rfl rfl rfl rfl rfl rfl rfl rfl (fun h => Memory.wf_store h _ _) id

theorem State.storeTier_frame (s : State) (a : Nat) (bs : List Byte) :
    MemFrame s { s with tiers := s.tiers.store a bs } :=
  .same rfl rfl rfl rfl rfl rfl rfl rfl rfl rfl id (fun h => Memory.wf_store h _ _)

/-! ## Packets -/

theorem State.emitFrame_frame (s : State) (n : Nat) (k : FrameKind) (bs : List Byte) (ps : List FabPacket) :
    MemFrame s (s.emitFrame n k bs ps) := by
  unfold State.emitFrame
  exact State.setPort_frame _ _ _

theorem State.transmit_frame (s : State) (n : Nat) (p : FabPacket) : MemFrame s (s.transmit n p) := by
  unfold State.transmit
  generalize hx : ({ s.port n with
    sent := if lossless p then (s.port n).sent + BitVec.ofNat 64 (pktFlits p) else (s.port n).sent } : Port) = x
  generalize packetBytes p = bs
  refine ((State.setPort_frame s n x).trans (State.emitFrame_frame _ n .data bs [p])).trans ?_
  exact .same rfl rfl rfl rfl rfl rfl rfl rfl rfl rfl id id

theorem State.flush_frame (s : State) (n k : Nat) : MemFrame s (s.flush n k) := by
  induction k generalizing s with
  | zero => exact .refl s
  | succ k ih =>
    unfold State.flush
    dsimp only
    split
    · exact .refl s
    · split
      · exact .refl s
      · split
        · exact ((State.setPort_frame s n _).trans (State.transmit_frame _ n _)).trans (ih _)
        · exact .refl s

theorem State.sendAt_frame (s : State) (n : Nat) (p : FabPacket) : MemFrame s (s.sendAt n p) := by
  unfold State.sendAt
  exact (State.setPort_frame s n _).trans (State.flush_frame _ _ _)

theorem State.reserve_frame (s : State) (p : FabPacket) : MemFrame s (s.reserve p).2 := by
  simp only [State.reserve]
  split
  · exact .refl s
  · exact .same rfl rfl rfl rfl rfl rfl rfl rfl rfl rfl id id

theorem State.send_frame (s : State) (p : FabPacket) : MemFrame s (s.send p) := by
  unfold State.send
  split
  · exact (State.setStream_frame s p.dpkg _).trans (State.sendAt_frame _ _ _)
  · exact (State.reserve_frame s p).trans (State.sendAt_frame _ _ _)

theorem State.notify_frame (s : State) (l : Nat) : MemFrame s (s.notify l) := by
  unfold State.notify
  refine MemFrame.trans ?_ (MemFrame.foldl (fun s e => State.send_frame s _) _ _)
  exact .same rfl rfl rfl rfl rfl rfl rfl rfl rfl rfl id id

theorem State.request_frame (s : State) (p : FabPacket) (f : ReqFor) (l : Nat) (ops : List (Fin 32 × MemOp)) :
    MemFrame s (s.request p f l ops).2 := by
  unfold State.request
  refine (State.send_frame s { p with rid := s.newRid }).trans ?_
  exact .same rfl rfl rfl rfl rfl rfl rfl rfl rfl rfl id id

/-! ## Line monitors -/

theorem State.wakeScalar_frame (s : State) (a : Issuer) : SameStreams s (s.wakeScalar a) := by
  have step : ∀ c : ScalarCtx, s.sctx a = some c → (∃ l, c.wait = .asleep l ∨ c.wait = .polling) →
      SameStreams s (s.setSctx a { c with wait := .none }) := by
    intro c hc ⟨l, hw⟩
    cases a with
    | gang g =>
      cases hg : s.gang? g with
      | none => simp [State.sctx, hg] at hc
      | some y =>
        simp only [State.sctx, hg, Option.map_some, Option.some.injEq] at hc
        subst hc
        simp only [State.setSctx, hg]
        exact sameStreams_setGang hg (by simp only [awakeGang, awakeCtx_wake _ l hw])
    | pilot cl =>
      cases hg : s.pilot? cl with
      | none => simp [State.sctx, hg] at hc
      | some y =>
        simp only [State.sctx, hg, Option.map_some, Option.some.injEq] at hc
        subst hc
        simp only [State.setSctx, hg]
        exact sameStreams_setPilot hg (by simp only [awakePilot, awakeCtx_wake _ l hw])
  unfold State.wakeScalar
  cases hc : s.sctx a with
  | none => exact sameStreams_refl s
  | some c =>
    dsimp only
    split
    · next l hw => exact step c hc ⟨l, .inl hw⟩
    · next hw => exact step c hc ⟨0, .inr hw⟩
    · exact sameStreams_refl s

theorem State.slotWait_frame (s : State) (g n : Nat) (f : LaneWait → LaneWait)
    (h : ∀ l : Lpc, awakeLpc { l with wait := f l.wait } = awakeLpc l) : SameStreams s (s.slotWait g n f) := by
  unfold State.slotWait
  cases hg : s.gang? g with
  | none => exact sameStreams_refl s
  | some y =>
    refine sameStreams_setGang hg ?_
    simp only [awakeGang]
    congr 1
    ext i hi : 1
    simp only [Vector.getElem_map, Vector.getElem_ofFn]
    split
    · exact h _
    · rfl

theorem State.wakeWaiter_frame (s : State) (w : Waiter) : SameStreams s (s.wakeWaiter w) := by
  cases w with
  | scalar g => exact State.wakeScalar_frame s _
  | pilot cl => exact State.wakeScalar_frame s _
  | lane g n =>
    refine State.slotWait_frame s g n _ fun l => ?_
    obtain ⟨live, index, mask, earliest, fresh, wait, got, lines⟩ := l
    cases wait <;> rfl

/-- Waking a waiter touches no other piece. -/
theorem State.setSctx_frame {s : State} {a : Issuer} {x : ScalarCtx} (h : SameStreams s (s.setSctx a x)) :
    MemFrame s (s.setSctx a x) := by
  revert h
  cases a with
  | gang g =>
    simp only [State.setSctx]
    cases s.gang? g with
    | none => exact fun _ => .refl s
    | some y => exact fun h => ⟨h, rfl, rfl, rfl, rfl, rfl, rfl, rfl, rfl, id, id⟩
  | pilot cl =>
    simp only [State.setSctx]
    cases s.pilot? cl with
    | none => exact fun _ => .refl s
    | some y => exact fun h => ⟨h, rfl, rfl, rfl, rfl, rfl, rfl, rfl, rfl, id, id⟩

theorem State.wake_memFrame (s : State) (w : Waiter) : MemFrame s (s.wakeWaiter w) := by
  have scal : ∀ a, SameStreams s (s.wakeScalar a) → MemFrame s (s.wakeScalar a) := by
    intro a
    unfold State.wakeScalar
    cases s.sctx a with
    | none => exact fun _ => .refl s
    | some c =>
      dsimp only
      split
      · exact State.setSctx_frame
      · exact State.setSctx_frame
      · exact fun _ => .refl s
  have h := State.wakeWaiter_frame s w
  revert h
  cases w with
  | scalar g => exact scal _
  | pilot cl => exact scal _
  | lane g n =>
    simp only [State.wakeWaiter, State.slotWait]
    cases s.gang? g with
    | none => exact fun _ => .refl s
    | some y => exact fun h => ⟨h, rfl, rfl, rfl, rfl, rfl, rfl, rfl, rfl, id, id⟩

theorem State.fireWaiter_frame (s : State) (w : Waiter) : MemFrame s (s.fireWaiter w) := by
  unfold State.fireWaiter
  exact (State.setCore_frame s _ _).trans (State.wake_memFrame _ w)

theorem State.fireLine_frame (s : State) (l : Nat) : MemFrame s (s.fireLine l) := by
  unfold State.fireLine
  exact MemFrame.foldl State.fireWaiter_frame _ s

/-! ## Lines -/

theorem State.invalidate_frame (s : State) (c l : Nat) : MemFrame s (s.invalidate c l) :=
  .same rfl rfl rfl rfl rfl rfl rfl rfl rfl rfl id id

theorem State.written_frame (s : State) (c l : Nat) : MemFrame s (s.written c l) := by
  unfold State.written
  exact ((State.invalidate_frame s c l).trans (State.fireLine_frame _ _)).trans (State.notify_frame _ l)

theorem State.evict_frame (s : State) (l : Nat) : MemFrame s (s.evict l) := by
  unfold State.evict
  dsimp only
  generalize xtsLine false (keyBits (s.line l).key (s.line l).load) l (s.mem.bytes (l * 128) 128) = bs
  exact (State.storeTier_frame s _ bs).trans (State.setLine_frame _ l _)

theorem State.evictOne_frame (s : State) (l n : Nat) (p : Line → Bool) : MemFrame s (s.evictOne l n p) := by
  unfold State.evictOne
  dsimp only
  split
  · exact .refl s
  · split
    · exact (State.free_frame s).trans (State.evict_frame _ _)
    · exact State.free_frame s

theorem State.cacheRoom_frame (s : State) (l : Nat) : MemFrame s (s.cacheRoom l) := by
  unfold State.cacheRoom
  split
  · exact .refl s
  · exact State.evictOne_frame s _ _ _

theorem State.tunPlace_frame (s : State) (l : Nat) : MemFrame s (s.tunPlace l) := by
  unfold State.tunPlace
  split
  · exact .refl s
  · exact (State.cacheRoom_frame s l).trans (State.evictOne_frame _ _ _ _)

theorem State.mergeTun_frame (s : State) (t : TunAdd) : MemFrame s (s.mergeTun t) := by
  unfold State.mergeTun
  dsimp only
  generalize hu : s.tunPlace (lineOf t.addr) = u
  have h : MemFrame s u := hu ▸ State.tunPlace_frame s _
  exact ((h.trans (State.store_frame u _ _)).trans (State.setLine_frame _ _ _)).trans (State.written_frame _ _ _)

theorem State.drainLine_frame (s : State) (l : Nat) : MemFrame s (s.drainLine l) := by
  unfold State.drainLine
  refine MemFrame.trans ?_ (MemFrame.foldl State.mergeTun_frame _ _)
  exact .same rfl rfl rfl rfl rfl rfl rfl rfl rfl rfl id id

theorem State.drainTun_frame (s : State) : MemFrame s s.drainTun := by
  unfold State.drainTun
  refine MemFrame.trans ?_ (MemFrame.foldl State.mergeTun_frame _ _)
  exact .same rfl rfl rfl rfl rfl rfl rfl rfl rfl rfl id id

/-- A line with new bytes and a new record. -/
theorem State.reline_frame (s : State) (a l : Nat) (bs : List Byte) (x : Line) :
    MemFrame s ({ s with mem := s.mem.store a bs }.setLine l x) :=
  (State.store_frame s a bs).trans (State.setLine_frame _ l x)

theorem State.rekey_frame (s : State) (l key : Nat) : MemFrame s (s.rekey l key) := by
  unfold State.rekey
  exact (State.evict_frame s l).trans (State.reline_frame (s.evict l) _ l _ _)

theorem State.underKey_frame (s : State) (pa key : Nat) : MemFrame s (s.underKey pa key) := by
  unfold State.underKey
  dsimp only
  split
  · split
    · exact .refl s
    · exact State.setLine_frame s _ _
  · split
    · exact .refl s
    · exact (State.drainLine_frame s _).trans (State.rekey_frame _ _ _)

theorem State.fillL1_frame (s : State) (c l key : Nat) : MemFrame s (s.fillL1 c l key) := by
  unfold State.fillL1
  dsimp only
  split
  · exact .refl s
  · exact State.setCore_frame s _ _

theorem State.l1Store_frame (s : State) (c pa n : Nat) : MemFrame s (s.l1Store c pa n) := by
  unfold State.l1Store
  dsimp only
  split
  · exact .refl s
  · exact State.setCore_frame s _ _

theorem State.unpoison_frame (s : State) (pa n : Nat) : MemFrame s (s.unpoison pa n) :=
  .same rfl rfl rfl rfl rfl rfl rfl rfl rfl rfl id id

theorem State.writePa_frame (s : State) (c pa : Nat) (bs : List Byte) : MemFrame s (s.writePa c pa bs) := by
  unfold State.writePa
  dsimp only
  generalize hu : ((s.cacheRoom (lineOf pa)).unpoison pa bs.length).l1Store c pa bs.length = u
  have h : MemFrame s u := hu ▸ ((State.cacheRoom_frame s _).trans (State.unpoison_frame _ _ _)).trans
    (State.l1Store_frame _ _ _ _)
  exact ((h.trans (State.store_frame u _ _)).trans (State.setLine_frame _ _ _)).trans (State.written_frame _ _ _)

theorem State.openStamp_frame (s : State) (w : Who) (x : Xl) : MemFrame s (s.openStamp w x) := by
  unfold State.openStamp
  dsimp only
  split
  · exact .refl s
  · split
    · exact .refl s
    · split
      · exact .refl s
      · split
        · exact State.setLine_frame s _ _
        · split
          · exact State.setLine_frame s _ _
          · exact (State.setLine_frame s _ _).trans (State.setCrew_frame _ _ _)

theorem State.closeStamp_frame (s : State) (t : Nat) (q : BitVec 5) (x : Xl) : MemFrame s (s.closeStamp t q x) := by
  unfold State.closeStamp
  dsimp only
  split
  · exact State.setLine_frame s _ _
  · exact .refl s

theorem State.closeLog_frame (s : State) (c : Nat) : MemFrame s (s.closeLog c) := by
  simp only [State.closeLog]
  split
  · exact .refl s
  · exact .same rfl rfl rfl rfl rfl rfl rfl rfl rfl rfl id id

theorem State.release_frame (s : State) (w : Who) (sc : Scope) : MemFrame s (s.release w sc) := by
  simp only [State.release]
  split
  · exact .refl s
  · split
    · exact .refl s
    · exact State.closeLog_frame s _

theorem State.releaseFor_frame {s t : State} {a : Issuer} {sc : Scope} (h : s.releaseFor a sc = .ok t) :
    MemFrame s t := by
  simp only [State.releaseFor] at h
  split at h
  · cases h; exact State.release_frame _ _ _
  · cases h

/-! ## Accesses -/

theorem State.access_frame {s t : State} {w : Who} {va : W64} {n : Nat} {write check : Bool} {x : Xl}
    (h : s.access w va n write check = .ok (x, t)) : MemFrame s t := by
  simp only [State.access] at h
  split at h
  · cases h
  · split at h
    · cases h
    · split at h
      · cases h
      · split at h
        · cases h
        · cases h
          exact (State.underKey_frame s _ _).trans (State.drainLine_frame _ _)

theorem State.plainLoad_frame {s t : State} {w : Who} {va : W64} {n : Nat} {bs : List Byte}
    (h : s.plainLoad w va n = .ok (bs, t)) : MemFrame s t := by
  unfold State.plainLoad at h
  split at h
  · cases h
  · dsimp only at h
    split at h
    · cases h
    · split at h
      · cases h
      · rename_i e
        cases h
        refine (State.access_frame e).trans ?_
        split
        · exact .refl _
        · exact State.fillL1_frame _ _ _ _

theorem State.plainStore_frame {s t : State} {w : Who} {va : W64} {bs : List Byte}
    (h : s.plainStore w va bs = .ok t) : MemFrame s t := by
  simp only [State.plainStore] at h
  split at h
  · cases h
  · rename_i e
    cases h
    exact ((State.access_frame e).trans (State.writePa_frame _ _ _ _)).trans (State.openStamp_frame _ _ _)

theorem State.strongLoad_frame {s t : State} {w : Who} {va : W64} {n : Nat} {bs : List Byte}
    (h : s.strongLoad w va n = .ok (bs, t)) : MemFrame s t := by
  simp only [State.strongLoad] at h
  split at h
  · cases h
  · rename_i e
    cases h
    exact State.access_frame e

theorem State.strongStore_frame {s t : State} {w : Who} {va : W64} {bs : List Byte}
    (h : s.strongStore w va bs = .ok t) : MemFrame s t := by
  simp only [State.strongStore] at h
  split at h
  · cases h
  · rename_i e
    cases h
    exact (State.access_frame e).trans (State.writePa_frame _ _ _ _)

theorem State.atomic_frame {s t : State} {w : Who} {va : W64} {n : Nat} {f : List Byte → List Byte} {bs : List Byte}
    (h : s.atomic w va n f = .ok (bs, t)) : MemFrame s t := by
  simp only [State.atomic] at h
  split at h
  · cases h
  · rename_i e
    split at h
    · cases h
    · cases h
      exact (State.access_frame e).trans (State.writePa_frame _ _ _ _)

end Sys2Proof.Machine
end

