-- ==== Sys2Proof/Laws/Lane.lean ====
section
/-!
SUPPORT. What the issue of a lane word comes to once its conditions hold: one lemma for a word of fixed latency, one for
a `var` word and one for a control word, from which the statements about single words follow.
-/

namespace Sys2Proof.Machine

/-- A word that issues ends in what its effect makes. -/
theorem laneIssue_of {s t : State} {i : Instr} {ctl : Bool} {y : Gang} {c : LaneCtx} (h : LaneIssues s i ctl y c t)
    (body : LaneCtx → State → Act State) :
    laneIssue s i ctl body = match body c t with
      | .ok u => .next u
      | .error (.wait u) => .next ({ u with clusters := s.clusters, dies := s.dies }.runWaits c.g)
      | .error (.trap x) => .next (s.laneTrap c.g c.slot c.index x) := by
  obtain ⟨u, hp, hf⟩ := h.ready
  have hfr : ((y.lpc[c.slot]).fresh && !y.fix.isEmpty) = false := by
    cases hf : (y.lpc[c.slot]).fresh with
    | false => rfl
    | true => simp [h.start hf]
  have htok : ((List.range 6).all fun n => !c.info.hdr.wm.getLsbD n || y.token (n + 1) == 0) = true := by
    rw [List.all_eq_true]
    intro n hn
    simp only [List.mem_range] at hn
    cases hb : c.info.hdr.wm.getLsbD n with
    | false => rfl
    | true => simp [h.tokens n hn hb]
  have hdue : ((some y).any fun z => z.late.any (·.due)) = false := by simp [h.late]
  have hen : (!ctl && s.fencedQueue y c.g c.info) = false := by
    cases ctl with
    | true => simp
    | false => simp [(h.enabled rfl).2]
  have hsome : (c.en == 0 && !ctl) = false := by
    cases ctl with
    | true => simp
    | false => simpa using (h.enabled rfl).1
  have hlf : s.landFix c.g s.clk.arith = s := by rw [← h.now]; exact h.landed
  have hst : (y.token c.info.hdr.st.val == 63) = false := by simp [h.token]
  have hctx : ({ g := c.g, slot := c.slot, index := c.index, act := c.act, en := c.en, now := s.clk.arith, info := c.info,
                 view := t.readView c.g, pops := c.pops } : LaneCtx) = c := by
    rw [← h.now, ← h.view]
  have hpo : (((readNames c.info).filterMap LaneDst.vnum).any fun n => t.regPoisoned c.g n c.en) = false := by
    rw [List.any_eq_false]
    intro n hn
    simp [h.whole n hn]
  simp only [laneIssue, h.cur, h.info, h.gang]
  rw [if_neg ?hw]
  case hw =>
    have h2 := h.earliest
    rw [h.now] at h2
    rw [h.live, decide_eq_false (by omega)]
    obtain h3 | ⟨n, h3, h4⟩ := h.awake
    · rw [h3]; simp
    · rw [h3]
      rw [h.now] at h4
      simpa using h4
  simp only [Bool.false_eq_true, if_false, hlf, h.gang, hfr, h.index, h.legal, h.act, ← h.en, hen, h.due, hdue, htok, hst,
    hsome, Bool.not_true, Bool.or_self, Bool.false_eq_true, if_false, hp, hf, hpo, hctx] <;> rfl

/-- ... in the state that its effect makes. -/
theorem laneIssue_next {s t u : State} {i : Instr} {ctl : Bool} {y : Gang} {c : LaneCtx} (h : LaneIssues s i ctl y c t)
    {body : LaneCtx → State → Act State} (hb : body c t = .ok u) : laneIssue s i ctl body = .next u := by
  rw [laneIssue_of h, hb]

/-- An endpoint that takes an entry takes the push. -/
theorem State.pushQueue_ok {s : State} {g : Nat} {q : QReg} {v : LaneVec} {m : Mask}
    (h : ∀ y, s.gang? g = some y → (y.bound q).1 = 4 → (s.cluster (clusterOf (coreOf g))).mailbox.length < 16) :
    ∃ t, s.pushQueue g q v m = some t := by
  unfold State.pushQueue
  cases hg : s.gang? g with
  | none => exact ⟨s, rfl⟩
  | some y =>
    dsimp only
    split
    · exact ⟨_, rfl⟩
    · next e => rw [if_neg (by have := h y hg (by rw [e]); omega)]; exact ⟨_, rfl⟩
    · exact ⟨s, rfl⟩

/-- ... and the place of a `var` word's push. -/
theorem State.pushHole_ok {s : State} {g : Nat} {q : QReg} {i : Nat}
    (h : ∀ y, s.gang? g = some y → (y.bound q).1 = 4 → (s.cluster (clusterOf (coreOf g))).mailbox.length < 16) :
    ∃ t, s.pushHole g q i = some t := by
  unfold State.pushHole
  cases hg : s.gang? g with
  | none => exact ⟨s, rfl⟩
  | some y =>
    dsimp only
    split
    · exact ⟨_, rfl⟩
    · next e => rw [if_neg (by have := h y hg (by rw [e]); omega)]; exact ⟨_, rfl⟩
    · exact ⟨s, rfl⟩

/-- A push that its endpoint takes is made. -/
theorem State.pushResult_ok {s t : State} {c : LaneCtx} {o : LaneOut} (h : Accepts c t) (hg : s.gangs = t.gangs)
    (hc : s.clusters = t.clusters) : ∃ u, s.pushResult c o = some u := by
  unfold State.pushResult
  split
  · next q v hq _ =>
    refine State.pushQueue_ok fun y hy hb => ?_
    have := h q y hq (by simpa [State.gang?, hg] using hy) hb
    simpa [State.cluster, hc] using this
  · exact ⟨s, rfl⟩

/-- A word of fixed latency computes what its function gives. -/
theorem laneFix_computes {i : Instr} {o f : LaneCtx → LaneOut} (h : ∀ s, exec i s = laneFix s i f) (e : ∀ c, f c = o c) :
    Computes i o := by
  intro s y c t hi ha
  obtain ⟨u, hu⟩ := State.pushResult_ok (s := t.skipChoice c.view) (o := o c) ha rfl rfl
  refine ⟨_, ⟨u, hu, rfl⟩, ?_⟩
  rw [h s, laneFix]
  refine laneIssue_next hi ?_
  simp only [e c, hu]

/-- A word of one 32-bit result. -/
theorem lane32_computes {i : Instr} {d : Opd} {o : LaneCtx → LaneOut} {f : LaneCtx → Fin 32 → W32}
    (h : ∀ s, exec i s = lane32 s i d f) (e : ∀ c, c.put d (f c) = o c) : Computes i o :=
  laneFix_computes h e

/-- A check of every enabled lane passes. -/
theorem LaneCtx.check_ok {c : LaneCtx} {ok : Fin 32 → Bool} {t : Fin 32 → Trap}
    (h : ∀ n : Fin 32, c.en.getLsbD n.val = true → ok n = true) : c.check ok t = .ok () := by
  simp only [LaneCtx.check, LaneCtx.first]
  have : ((maskLanes c.en).find? fun n => !ok n) = none := by
    rw [List.find?_eq_none]
    intro n hn
    simp only [maskLanes, List.mem_filter] at hn
    simp [h n hn.2]
  rw [this]

/-- The addresses of R204 pass their checks. -/
theorem LaneCtx.checkVa_ok {c : LaneCtx} {size : Nat} {va : Fin 32 → W64} (h : GoodAddresses c size va) :
    c.checkVa size va = .ok () := by
  simp only [LaneCtx.checkVa, LaneCtx.checkAlign, LaneCtx.checkRange]
  rw [LaneCtx.check_ok (fun n hn => by simp [(h n hn).1]), LaneCtx.check_ok (fun n hn => by simpa using (h n hn).2)]
  rfl

/-- The place of a push is found, or none is needed. -/
theorem State.placePush_ok {s t : State} {c : LaneCtx} {i : Nat} (h : Accepts c t) (hg : s.gangs = t.gangs)
    (hc : s.clusters = t.clusters) : ∃ u, s.placePush c i = .ok u := by
  unfold State.placePush
  cases hq : c.info.push with
  | none => exact ⟨s, rfl⟩
  | some q =>
    obtain ⟨u, hu⟩ := State.pushHole_ok (s := s) (g := c.g) (q := q) (i := i) fun y hy hb => by
      have := h q y hq (by simpa [State.gang?, hg] using hy) hb
      simpa [State.cluster, hc] using this
    exact ⟨u, by simp only [hu]⟩

theorem State.closeLog_gangs (s : State) (c : Nat) : (s.closeLog c).gangs = s.gangs := by
  simp only [State.closeLog]; split <;> rfl
theorem State.closeLog_clusters (s : State) (c : Nat) : (s.closeLog c).clusters = s.clusters := by
  simp only [State.closeLog]; split <;> rfl

/-- A word that is in order has no operations in rounds before it. -/
theorem State.inRounds_of_inOrder {s : State} {g : Nat} {b : Bool} (h : s.inOrder g b = true) :
    s.inRounds (.gang g) = false := by
  unfold State.inOrder Gang.mustWait at h
  unfold State.inRounds
  cases hg : s.gang? g <;> simp_all

/-- What a release waits for has come when no word of the issuer is in rounds and nothing of it is out at another
package. -/
theorem State.releasable_of {s : State} {a : Issuer} {sc : Scope} (hr : s.inRounds a = false)
    (h : sc = .fabric → s.outstanding a = false) : s.releasable a sc = true := by
  unfold State.releasable
  cases sc <;> simp_all

/-- A release that has nothing to wait for is made, and leaves gangs and clusters. -/
theorem State.releaseFor_ok {s : State} {a : Issuer} {sc : Scope} (h : s.releasable a sc = true) :
    ∃ t, s.releaseFor a sc = .ok t ∧ t.gangs = s.gangs ∧ t.clusters = s.clusters := by
  unfold State.releaseFor
  rw [if_pos h]
  refine ⟨_, rfl, ?_⟩
  unfold State.release
  split
  · exact ⟨rfl, rfl⟩
  · split
    · exact ⟨rfl, rfl⟩
    · exact ⟨State.closeLog_gangs _ _, State.closeLog_clusters _ _⟩

/-- A held word that may be performed keeps its region's count within its bound. -/
theorem State.checkRegion_ok {s : State} {c : LaneCtx} {o : WordOrder} (h : MayPerform c o s) :
    s.checkRegion c o = .ok () := by
  unfold State.checkRegion
  cases hn : o.held with
  | none => rfl
  | some n =>
    have : (!s.replayable c.g || (s.gang? c.g).all fun y => decide (y.region + n ≤ 4096)) = true := by
      cases hp : s.replayable c.g with
      | false => rfl
      | true =>
        cases hy : s.gang? c.g with
        | none => rfl
        | some y => simp [(h.2.2.1 n hn hp y hy).1]
    simp [require, this]

/-- The checks of a held word pass. -/
theorem LaneCtx.checkHeld_ok {c : LaneCtx} {s : State} {o : WordOrder} {size : Nat} {va : Fin 32 → W64}
    (h : GoodAddresses c size va) (hm : MayPerform c o s) : c.checkHeld s o size va = .ok () := by
  simp only [LaneCtx.checkHeld, State.checkRegion_ok hm, LaneCtx.checkAlign, LaneCtx.checkRange]
  rw [LaneCtx.check_ok (fun n hn => by simp [(h n hn).1]), LaneCtx.check_ok (fun n hn => by simpa using (h n hn).2)]
  rfl

/-- Effects that nothing holds back are performed or held. -/
theorem State.wordEffects_ok {s : State} {c : LaneCtx} {o : WordOrder} (h : MayPerform c o s)
    (ops : List (Fin 32 × MemOp)) : ∃ u, s.wordEffects c o ops = .ok u := by
  have hr := State.checkRegion_ok h
  obtain ⟨h1, h2, h3, h4⟩ := h
  have hrep : s.fresh.2.replayable c.g = s.replayable c.g := rfl
  unfold State.wordEffects
  simp only [hr, h1, h2, bind, Except.bind, holdUntil, Bool.and_self, if_true, hrep]
  split
  · next n hp hn =>
    unfold State.holdWord
    have hg : s.fresh.2.gang? c.g = s.gang? c.g := rfl
    have hb : s.fresh.2.bufferRoom c.g n = decide (s.buffered (coreOf c.g) + n ≤ 65536) := rfl
    rw [hg]
    cases hy : s.gang? c.g with
    | none => exact ⟨_, rfl⟩
    | some y =>
      simp only [hb, holdUntil, (h3 n hn hp y hy).2, decide_true, if_true, bind, Except.bind]
      exact ⟨_, rfl⟩
  · next hx =>
    have hne : o.held = none ∨ s.replayable c.g = false := by
      cases hn : o.held with
      | none => exact .inl rfl
      | some n =>
        cases hp : s.replayable c.g with
        | false => exact .inr rfl
        | true => exact absurd hn (hx n hp)
    obtain ⟨ha, hf⟩ := h4 hne
    obtain ⟨u, hu⟩ := State.placePush_ok (s := s.fresh.2) (i := s.fresh.1) ha rfl rfl
    simp only [hu]
    cases hrel : o.rel with
    | false => simp only [Bool.false_eq_true, Bool.not_false, Bool.true_or, if_true, if_false]; exact ⟨_, rfl⟩
    | true =>
      have hk : s.fresh.2.releasable (.gang c.g) o.scope = true :=
        State.releasable_of (s := s.fresh.2) (State.inRounds_of_inOrder (s := s) h1) (hf hrel)
      obtain ⟨v, hv, hvg, hvc⟩ := State.releaseFor_ok hk
      obtain ⟨w, hw⟩ := State.placePush_ok (s := v) (i := s.fresh.1) ha hvg hvc
      simp only [hk, Bool.not_true, Bool.false_or, if_true, hv, hw]
      exact ⟨_, rfl⟩

/-- A `var` word with one effect in each lane. -/
theorem laneVar_performs {i : Instr} {o : LaneCtx → WordOrder} {ok : LaneCtx → State → Prop}
    {ops : LaneCtx → State → Fin 32 → MemOp} {o' : LaneCtx → WordOrder} {check : LaneCtx → State → Act Unit}
    {ops' : LaneCtx → State → Fin 32 → MemOp} (h : ∀ s, exec i s = laneVar s i o' check ops') (ho : ∀ c, o' c = o c)
    (hc : ∀ c t, ok c t → MayPerform c (o c) t → check c t = .ok ()) (hp : ∀ (c : LaneCtx) (t : State), c.ops (ops' c t) = c.ops (ops c t)) : Performs i o ok ops := by
  intro s y c t hi hok hm
  obtain ⟨u, hw⟩ := State.wordEffects_ok hm (c.ops (ops c (t.skipChoice c.view)))
  refine ⟨u, hw, ?_⟩
  rw [h s, laneVar, laneMany]
  refine laneIssue_next hi ?_
  simp only [hc c _ hok hm, ho c, hp c, bind, Except.bind, hw]

/-- A control word. -/
theorem control_controls {i : Instr} {always : Bool} {f : LaneCtx → Kernel → Paths → Paths → Prop}
    {g : LaneCtx → Kernel → Paths → Act Paths} (h : ∀ s, exec i s = control s i always g)
    (e : ∀ c k p q, f c k p q → g c k p = .ok q) : Controls i always f := by
  intro s y z c t k st p u hi hk hst hz hf hu
  rw [h s, control]
  refine laneIssue_next hi ?_
  simp only [hk, hst, hz, e c k _ p hf]
  exact hu

end Sys2Proof.Machine
end

