-- ==== Sys2Proof/Tests/Slice0.lean ====
section
/-!
SUPPORT. The model's own tests: terms that WellFormed refuses, words written out from the spec's encodings, values worked
from the spec, and for each obligation a state and operands that meet its hypotheses.
-/

namespace Sys2Proof.Tests

open Sys2Proof.Machine

set_option Elab.async false

/-! ## Words of the encoding tables -/

/-- Timing and guard fields: a plain word, a guarded one, a uniform one, one that sets token 1, a run end, and
two guarded run ends. -/
def hp : LaneHdr := ⟨false, false, 3, false, 7, 0, 0⟩
def hg : LaneHdr := ⟨false, false, 5, true, 2, 0, 0x21⟩
def hu : LaneHdr := ⟨true, false, 0, false, 7, 0, 2⟩
def hv : LaneHdr := ⟨false, false, 0, false, 7, 1, 0⟩
def hc : LaneHdr := ⟨false, true, 0, false, 7, 0, 0⟩
def hb : LaneHdr := ⟨false, true, 0, true, 1, 0, 0⟩
def hn : LaneHdr := ⟨false, true, 0, false, 3, 0, 0⟩
def hq : LaneHdr := ⟨false, false, 0, false, 7, 0, 0⟩
def hm : LaneHdr := ⟨false, false, 5, false, 7, 0, 0⟩
def hf : LaneHdr := ⟨false, true, 5, false, 2, 0, 1⟩

/-- Each word of n bits decodes to the instruction beside it, and that instruction is well formed. -/
def reads (n : Nat) (l : List (Nat × Instr)) : Bool :=
  l.all fun x => decodeTableWord n x.1 == some x.2 && x.2.illForm == none

/-- Words of chapter 05 (R130 to R133): the worked words of R50 and of its scalar loop among them. -/
def words_arithmetic : List (Nat × Instr) :=
  [(0x0228C380, .sadd 5 6 7),
   (0x0228C381, .ssub 5 6 7),
   (0x0228C382, .smul 5 6 7),
   (0x0228C387, .sand 5 6 7),
   (0x0228C388, .sor 5 6 7),
   (0x0228C389, .sxor 5 6 7),
   (0x0228C38A, .sshl 5 6 7),
   (0x0228C38B, .sshr 5 6 7),
   (0x0228C38C, .ssra 5 6 7),
   (0x0228C391, .ssel 5 6 7),
   (0x0228C392, .slea 5 6 7),
   (0x0228C380, .sadd 5 6 7),
   (0x0228C3C3, .smulh true 5 6 7),
   (0x0228C3C4, .sdiv true 5 6 7),
   (0x0228C3C5, .smin true 5 6 7),
   (0x0228C3C6, .smax true 5 6 7),
   (0x02085F84, .sdiv false 1 2 63),
   (0x0228C00D, .sclz 5 6),
   (0x0228C00E, .spopc 5 6),
   (0x0228C00F, .smov 5 6),
   (0x029082D0, .scmp .lt true 2 4 5),
   (0x0428DFFC, .saddImm 5 6 (-4)),
   (0x0628DFFC, .smulImm 5 6 (-4)),
   (0x0828DFFC, .sandImm 5 6 (-4)),
   (0x0A28DFFC, .sorImm 5 6 (-4)),
   (0x0C28DFFC, .sxorImm 5 6 (-4)),
   (0x1428DFFC, .sminImm 5 6 (-4)),
   (0x1628DFFC, .smaxImm 5 6 (-4)),
   (0x0E28C03F, .sshlImm 5 6 63),
   (0x1028C03F, .sshrImm 5 6 63),
   (0x1228C03F, .ssraImm 5 6 63),
   (0x18486000, .scmpImm .ne 1 3 0),
   (0x1A281FFD, .sleaImm 5 (-3)),
   (0x1C18000A, .smovi 3 10),
   (0x1E100040, .smovh 2 0x40)]

theorem test_decode_arithmetic : reads 32 words_arithmetic = true := by decide +kernel

/-- Words of chapter 05: control, scalar memory and lane dispatch (R134 to R146). -/
def words_control : List (Nat × Instr) :=
  [(0x203FFFFE, .sb (-2)),
   (0x22FFFFFD, .sbk 1 true (-3)),
   (0x22BFFFFD, .sbk 1 false (-3)),
   (0x24000005, .scall 5),
   (0x2607E000, .sret 63),
   (0x28012000, .sjmpr 9),
   (0x28412001, .sjmprL 8 9),
   (0x2A012FFF, .sloop 9 4095),
   (0x2C000000, .sexit),
   (0x2E000000, .snop),
   (0x3028DFF8, .sld 5 6 (-8)),
   (0x3228C010, .sst 5 6 16),
   (0x3400000B, .sfence .rel .fabric),
   (0x3628C38A, .swait .geu true 5 6 7),
   (0x38001FFF, .ldisp 8191),
   (0x3808C00C, .ldispReg 6 12),
   (0x3A000000, .lsync),
   (0x3C2FE01F, .slrd 5 63 (.imm 31)),
   (0x3C2923A0, .slrd 5 9 (.reg 7))]

theorem test_decode_control : reads 32 words_control = true := by decide +kernel

/-- Words of chapter 05: barriers, berths, engines, queues and the system words (R147 to R166), with words of chapters 17, 22 and 23. -/
def words_system : List (Nat × Instr) :=
  [(0x4000C07F, .barInit 127 6),
   (0x42280003, .barArr 5 3),
   (0x4400C003, .barWt 3 6),
   (0x46000004, .barSync 4),
   (0x4800C005, .barExp 5 6),
   (0x4A28C000, .fbar 5 6),
   (0x4C28C380, .bthTake 5 6 7),
   (0x4E00C380, .bthPass 6 7),
   (0x5000C002, .bthWait 6 .full),
   (0x5200C382, .bthSet 6 7 .full),
   (0x5200C003, .bthSet 6 0 .draining),
   (0x5400C000, .bthFree 6),
   (0x5628C001, .bthQuery true 5 6),
   (0x58000000, .xregAcq),
   (0x5A000000, .xregRel),
   (0x60010880, .xcpy 8 17),
   (0x62000004, .xdrain .tun),
   (0x6400C000, .srt 6),
   (0x66004000, .xcol 2),
   (0x6828C000, .tqTake 5 6),
   (0x6A428000, .tqSteal 8 20),
   (0x6C00C380, .tqGive 6 7),
   (0x6E28C3BF, .glaunch 63 5 6 7),
   (0x7028C000, .wsplit 5 6),
   (0x7200C000, .wret 6),
   (0x80280ABC, .csrr 0xABC 5),
   (0x8200C123, .csrw 0x123 6),
   (0x84000FFF, .trap 0xFFF),
   (0x86000000, .eret),
   (0x88000009, .spchk 9)]

theorem test_decode_system : reads 32 words_system = true := by decide +kernel

/-- Long forms (R51, R71): the simm and smem groups, the matrix words (R233), the accumulator words (R250, R251) and the mctl group (R257). -/
def words_long : List (Nat × Instr) :=
  [(0xFFFFFFFEF6280000, .smoviLong 5 0xFFFFFFFE),
   (0xFFFFFFFEF6280001, .smovhLong 5 0xFFFFFFFE),
   (0xFFFFFFFEF628C002, .saddLong 5 6 0xFFFFFFFE),
   (0xFFFFFFFEF628C003, .sandLong 5 6 0xFFFFFFFE),
   (0xFFFFFFFEF628C004, .sorLong 5 6 0xFFFFFFFE),
   (0xFFFFFFFEF628C005, .sxorLong 5 6 0xFFFFFFFE),
   (0x00012345F828C070, .sldLong .n8 true 5 6 0x12345),
   (0x00012345F828C021, .sstLong .n32 5 6 0x12345),
   (0xFFFFFFF8F828C392, .sldv .device 5 6 7 0xFFFFFFF8),
   (0xE0FFFFF8F828C3CB, .satom .cas .rel .fabric 5 6 7 0xFFFFF8),
   (0x00000823E8014581, .mmaBx8 ⟨false, false, .none, false, true⟩ 0 10 11 ⟨2, 1, 3⟩),
   (0x00000823E0014580, .mmaBf16 ⟨false, false, .none, false, false⟩ 0 10 11 ⟨2, 1, 3⟩),
   (0x00000823E24945C4, .mmaF16 ⟨true, false, .hd16, false, false⟩ 9 10 11 ⟨2, 1, 3⟩),
   (0x00000823E40145A8, .mmaE4m3 ⟨false, true, .hd32, false, false⟩ 0 10 11 ⟨2, 1, 3⟩),
   (0x00000823E64945E0, .mmaE5m2 ⟨true, true, .none, false, false⟩ 9 10 11 ⟨2, 1, 3⟩),
   (0x00000823E8014586, .mmaBx8 ⟨false, false, .hd16, true, false⟩ 0 10 11 ⟨2, 1, 3⟩),
   (0x00000823EA4945CA, .mmaBx6 ⟨true, false, .hd32, true, false⟩ 9 10 11 ⟨2, 1, 3⟩),
   (0x00000823EC0145A2, .mmaBx4 ⟨false, true, .none, true, false⟩ 0 10 11 ⟨2, 1, 3⟩),
   (0x00000823EE4945E6, .mmaLut4 ⟨true, true, .hd16, true, false⟩ 9 10 11 ⟨2, 1, 3⟩),
   (0x00000823F0014588, .mmaI8 ⟨false, false, .hd32, false, false⟩ 0 10 11 ⟨2, 1, 3⟩),
   (0x00FC0000F2000000, .accClr ⟨0, 0, 0⟩ 0 63),
   (0x001C8823F200C001, .accLd ⟨2, 1, 3⟩ 8 7 6),
   (0x02FC0005F2018002, .accSt .bf16 .rne false ⟨0, 0, 5⟩ 0 63 12 0),
   (0xC3081823F200C382, .accSt .e4m3 .sr true ⟨2, 1, 3⟩ 1 2 6 7),
   (0x001C8823F200C003, .accAdd ⟨2, 1, 3⟩ 8 7 6),
   (0x001C8823F200C004, .accRenorm ⟨2, 1, 3⟩ 8 7 6),
   (0x00000000F2800005, .accHdr false 16 ⟨0, 0, 0⟩ 0),
   (0x00048823F2280005, .accHdr true 5 ⟨2, 1, 3⟩ 8),
   (0x001C8823F200C006, .accScale ⟨2, 1, 3⟩ 8 7 6),
   (0x00000009F400C000, .ctabW 2 1 6),
   (0x0000003FF4000001, .mwt 63),
   (0x00000001F4000002, .mfence .cluster),
   (0x00000000F428C003, .mbxTake 5 6),
   (0x0000001FF400C004, .rqSend 31 6)]

theorem test_decode_long : reads 64 words_long = true := by decide +kernel

/-- Lane words of R170 to R176: the worked word of R171 among them. -/
def words_integer : List (Nat × Instr) :=
  [(0x004370004048080200000001, .iadd hp .n32 false (.v 8) (.v 9) (.imm 1)),
   (0x0045A1082037300000000002, .iadd hg .i64 false (.v 4) (.v 6) (.reg (.s 6))),
   (0x00A070102028300000000004, .isub hu .i32 true (.v 4) (.v 5) (.reg (.v 6))),
   (0x00C370002028300000000001, .imul hp .n32 false (.v 4) (.v 5) (.reg (.v 6))),
   (0x010370002028302BFFFFFFFF, .imad hp .n32 true (.v 4) (.v 5) (.reg (.v 6)) (.imm 0xFFFFFFFF)),
   (0x014370002028080200000007, .imulh hp true (.v 4) (.v 5) (.imm 7)),
   (0x018370002028303800000002, .idp4 hp false true false (.v 4) (.v 5) (.reg (.v 6)) (.reg (.v 7))),
   (0x01C370002030000000000006, .iabs hp true true (.v 4) (.v 6)),
   (0x020370002037400000000003, .imin hp .n64 (.v 4) (.v 6) (.reg (.s 8))),
   (0x02437006182E100000000000, .imax hp .i32 (.q 3) (.v 5) (.reg (.q 2))),
   (0x028370068828300000000029, .icmp hp .n32 .ge 1 (.v 5) (.reg (.v 6))),
   (0x02C370002000369900000009, .isel hp .i32 (.v 4) (.imm 9) (.reg (.v 6)) 3),
   (0x030370002028303800000080, .bool3 hp 0x80 (.v 4) (.reg (.v 5)) (.reg (.v 6)) (.reg (.v 7))),
   (0x034370002028000000000000, .popc hp (.v 4) (.v 5)),
   (0x038370002028000000000000, .clz hp (.v 4) (.v 5)),
   (0x03C370002028000000000000, .brev hp (.v 4) (.v 5)),
   (0x04037000203000020000001F, .ishl hp .i32 (.v 4) (.v 6) (.imm 31)),
   (0x04437000203008020000001F, .ishr hp .n32 (.v 4) (.v 6) (.imm 31)),
   (0x04837000203010020000001F, .isra hp .i64 (.v 4) (.v 6) (.imm 31)),
   (0x04C370002028320300000008, .ishf hp true (.v 4) (.v 5) (.v 6) (.imm 8)),
   (0x050370002028080200000804, .bfe hp true (.v 4) (.v 5) (.imm 0x0804)),
   (0x054370002028303800000000, .bfi hp (.v 4) (.v 5) (.v 6) (.reg (.v 7)))]

theorem test_decode_integer : reads 96 words_integer = true := by decide +kernel

/-- Lane words of R177 to R191: the worked words of R56 and of chapters 20 and 22 among them. -/
def words_float : List (Nat × Instr) :=
  [(0x089520082008101800000000, .ffma hf .f32 ⟨.rne, false, false, false, false⟩ (.v 4) (.v 1) (.reg (.v 2)) (.reg (.v 3))),
   (0x48037000202830000000002B, .fadd hp .f16 ⟨.ru, true, false, true, false⟩ (.v 4) (.v 5) (.reg (.v 6))),
   (0x08457000382800023F000000, .fmul hm .f32 ⟨.rne, false, false, false, false⟩ (.v 7) (.v 5) (.imm 0x3F000000)),
   (0x888370002028328B40000000, .ffma hp .bf16 ⟨.rz, false, true, false, true⟩ (.v 4) (.v 5) (.reg (.v 6)) (.imm 0x40000000)),
   (0x88C370002028300000000000, .fmin hp .bf16 (.v 4) (.v 5) (.reg (.v 6))),
   (0x090370002028300000000000, .fmax hp .f32 (.v 4) (.v 5) (.reg (.v 6))),
   (0x49437006902830000000000E, .fcmp hp .f16 .num true 2 (.v 5) (.reg (.v 6))),
   (0x098370002028000000000000, .fclass hp .f32 (.v 4) (.v 5)),
   (0x09C3700020285002FFFFFFFF, .fscale hp .rd true (.v 4) (.v 5) (.imm 0xFFFFFFFF)),
   (0x8A0370002028303800000040, .fdot2 hp true ⟨.rne, false, false, false, true⟩ (.v 4) (.v 5) (.v 6) (.v 7)),
   (0x0C0370002028000000000000, .frcp hp (.v 4) (.v 5)),
   (0x0C4370002028000000000000, .frsq hp (.v 4) (.v 5)),
   (0x0C8370002028000000000000, .fsqrt hp (.v 4) (.v 5)),
   (0x0CC370002028000000000000, .fex2 hp (.v 4) (.v 5)),
   (0x0D0370002028000000000000, .flg2 hp (.v 4) (.v 5)),
   (0x0D4370002028000000000000, .fsin hp (.v 4) (.v 5)),
   (0x0D8370002028000000000000, .fcos hp (.v 4) (.v 5)),
   (0x100370001810000000004102, .cvt hp ⟨.bf16, .f32, .rz, false, 0, 1, 0⟩ (.v 3) (.v 2)),
   (0x10037000201000000020000B, .cvt hp ⟨.fx64, .f32, .rne, false, 0, 0, 32⟩ (.v 4) (.v 2)),
   (0x104570005040480000080002, .cvtSr hm ⟨.bf16, false, 0, 8⟩ (.v 10) (.v 8) (.v 9)),
   (0x108370002028000000000000, .hdm16 hp (.v 4) 5),
   (0x10C370002028000000000000, .hdm32 hp (.v 4) 5),
   (0x110370004008486000004409, .qpackBx8 hp ⟨1, 2, .none, .sr 8 (.v 9)⟩ 8 1 12),
   (0x11437000400800600000012E, .qpackBx6 hp ⟨2, 3, .hd32, .fixed .rz⟩ 8 1 12),
   (0x118370004008006000000013, .qpackBx4 hp ⟨3, 0, .hd16, .fixed .rne⟩ 8 1 12),
   (0x120370002028003800000004, .qunpackBx8 hp 0 1 (.v 4) 5 7),
   (0x124370002028003800000009, .qunpackBx6 hp 1 2 (.v 4) 5 7),
   (0x12837000202800380000000E, .qunpackBx4 hp 2 3 (.v 4) 5 7),
   (0x130370002030403800000004, .bxdotBx8 hp .rne 0 1 (.v 4) 6 8 (.v 7)),
   (0x134370002030403800000019, .bxdotBx6 hp .rz 1 2 (.v 4) 6 8 (.v 7)),
   (0x13837000203040380000002E, .bxdotBx4 hp .rd 2 3 (.v 4) 6 8 (.v 7))]

theorem test_decode_float : reads 96 words_float = true := by decide +kernel

/-- Lane words of R192 to R200 and of row 8 (R202 to R215). -/
def words_memory : List (Nat × Instr) :=
  [(0x140370002030000000000001, .mov hp true (.v 4) (.v 6)),
   (0x14437000200000013F800000, .movi hp (.v 4) 0x3F800000),
   (0x148370001008280200000010, .xlane hp .rel 1 false (.v 2) (.v 1) (.imm 16)),
   (0x14837000102030000000003F, .xlane hp .rot 7 true (.v 2) (.v 4) (.reg (.v 6))),
   (0x14C3700036B8000000000003, .vote hp .mask (.v 6) 7),
   (0x150370002028E0020000001F, .rdlane hp 7 (.v 4) 5 (.imm 31)),
   (0x15437000202800000000000F, .lscan hp .maxF32 true (.v 4) 5),
   (0x158370002030000000000001, .cmp24 hp .f16 4 6),
   (0x15C370068E969EB800000080, .pset hp 0x80 1 2 3 7),
   (0x160370069720000000000001, .pmov hp true (.p 2) (.s 4)),
   (0x2000720030104000FFF00600, .ld hv (-16) .b16 true (.v 6) (.v 2) (.v 8)),
   (0x204370000726C05000080C00, .st hp 8 .b64 (.s 4) .zero (.v 10)),
   (0x208072003010400000109800, .ldR hv 16 .device true false (.v 6) (.v 2) (.v 8)),
   (0x20C37000001040300010EC00, .stR hp 16 .fabric true true (.v 2) (.v 8) (.v 6)),
   (0x210072003010405000004C00, .ldv hv 0 .cluster (.v 6) (.v 2) (.v 8) (.v 10)),
   (0x214072003018400000040800, .lds hv 4 .b32 false (.v 6) (.v 3) (.v 8)),
   (0x218370000018402800040000, .sts hp 4 .b8 (.v 3) (.v 8) (.v 5)),
   (0x21C072002F30003800008800, .atom hv 0 .add .relaxed .device false (.v 5) (.s 6) (.v 0) (.v 7)),
   (0x21C07200301040500000FC90, .atom hv 0 .cas .acqrel .fabric true (.v 6) (.v 2) (.v 8) (.v 10)),
   (0x22007200301000380008ADA0, .atomX hv 8 true 40 true .device (.v 6) (.v 2) (.v 7)),
   (0x2243700000100038000888A0, .red hp 8 .fadd false .device false (.v 2) (.v 7)),
   (0x229070000010403000000800, .mwait hc 0 false (.v 2) (.v 8) (.v 6)),
   (0x22C37000000000000000A000, .fence hp .rel .device)]

theorem test_decode_memory : reads 96 words_memory = true := by decide +kernel

/-- Control words (R216) and render words (R262): the worked words of R216 and of chapters 19 to 21 among them. -/
def words_branches : List (Nat × Instr) :=
  [(0x24109000000000700000000A, .bra hb 10 14),
   (0x24107000000000A840000013, .braLoop hc 0x13 0x15),
   (0x245030000000000000000000, .brk hn),
   (0x249070000000000000000000, .cont hc),
   (0x24D070000000000000000000, .join hc),
   (0x24D070000000000000000001, .joinLatch hc),
   (0x25107000000000003FFFFFFF, .call hc 0x3FFFFFFF),
   (0x255090000000000000000000, .ret hb),
   (0x259090000000000000000000, .exit hb),
   (0x259070000000000000000001, .exitKill hc),
   (0x25D07000000000000000FFFF, .nap hc 65535),
   (0x261070000000000000000000, .rgn hc),
   (0x30037006182F300000000000, .gproj hp 3 (.v 5) 6),
   (0x30437006182F300000000000, .pproj hp 3 (.v 5) 6),
   (0x308072002730380000000000, .geval hv 4 (.s 6) (.v 7)),
   (0x30C07200802F300000000004, .gblend hv 1 16 (.v 5) (.s 6)),
   (0x31007200873029000000001C, .gback hv 7 16 (.s 6) (.v 5) 32),
   (0x31437000073000800440D000, .gscat hp 0x0440 true 40 (.s 6) 16),
   (0x318370000730283800000000, .rgen hp 6 (.v 5) (.v 7)),
   (0x31C37006202F303800000021, .trace hp 33 4 (.v 5) 6 (.v 7)),
   (0x320072002730280000000036, .rayld hv 22 true (.v 4) 6 (.v 5)),
   (0x324370000730283800000017, .rayst hp 23 false 6 (.v 5) (.v 7)),
   (0x328072002730280000000000, .hitq hv 4 6 (.v 5)),
   (0x32C072002730000000000000, .rpush hv (.v 4) 6),
   (0x330370000730280000000000, .rpop hp 6 (.v 5)),
   (0x3340700007A8388000000002, .fbw hq 0 .rgba32f (.s 21) (.v 7) 16)]

theorem test_decode_branches : reads 96 words_branches = true := by decide +kernel

/-! ## Ill-formed terms and words -/

/-- Each term fails the check beside it. -/
def illForms : List (Instr × IllForm) :=
  [(.iadd hp .i64 false (.v 3) (.v 0) (.reg (.v 2)), .slotClass),
   (.iadd hp .i64 false (.v 4) (.v 0) (.reg (.q 2)), .slotClass),
   (.iadd hp .i32 false (.s 4) (.v 0) (.reg (.v 2)), .slotClass),
   (.st hp 0 .b32 (.v 3) .zero (.v 2), .slotClass),
   (.imad hp .i32 false (.v 4) (.v 0) (.imm 1) (.imm 2), .twoImmediates),
   (.imad hp .i32 false (.v 4) (.q 1) (.reg (.q 1)) (.reg (.v 2)), .queueTwice),
   (.st ⟨true, false, 3, false, 7, 0, 0⟩ 0 .b32 (.v 4) .zero (.v 2), .uniform),
   (.iadd hu .i32 false (.q 4) (.v 0) (.reg (.v 2)), .uniform),
   (.iadd ⟨false, false, 3, false, 7, 7, 0⟩ .i32 false (.v 4) (.v 0) (.reg (.v 2)), .tokenSeven),
   (.ld hp 0 .b32 false (.v 6) (.v 2) .zero, .varNeedsToken),
   (.brk hp, .runEnd),
   (.mwait hp 0 false (.v 2) .zero (.v 6), .runEnd),
   (.brk ⟨false, true, 1, false, 7, 0, 0⟩, .controlFields),
   (.join hb, .guarded),
   (.fadd hp .f32 ⟨.rne, false, false, false, true⟩ (.v 4) (.v 0) (.reg (.v 2)), .modifier),
   (.sshlImm 5 6 64, .immediate),
   (.sloop 6 0, .immediate),
   (.sloop 6 4096, .immediate),
   (.nap hc 0, .immediate),
   (.mmaBf16 ⟨false, false, .none, false, false⟩ 9 10 11 ⟨0, 0, 0⟩, .unusedRegister)]

theorem test_ill_formed : illForms.all (fun x => x.1.illForm == some x.2) = true := by decide +kernel

/-- Legal terms at the edge of a check: a 64-bit pair, no destination, a shift count of 63, a guard that is p7. -/
theorem test_well_formed :
    ([.iadd hp .i64 false (.v 4) (.v 0) (.reg (.s 3)), .ld hp 0 .b32 false .zero (.v 2) .zero,
      .sshlImm 5 6 63, .sloop 6 4095, .join hc, .nap hc 1, .brk hb] : List Instr).all
        (fun i => i.illForm == none) = true := by decide +kernel

/-- Scalar words that R76 refuses: zeros, an unassigned opcode, an unassigned func, N on `sadd`, SENSE on `sb`, a
register field that `sclz` does not use, COND 7, a reserved bit of `scmp`, `slrd` with bit 6, kind 0 of `sfence`,
state 0 of `bth.wait`. -/
theorem test_refused_scalar :
    [0, 0xA0000000, 0x02000013, 0x02000040, 0x20400000, 0x0200008D, 0x19C00000, 0x18200000, 0x3C000040,
      0x34000000, 0x50000000].all (fun w => (decodeTableWord 32 w).isNone) = true := by decide +kernel

/-- Long forms that R76 refuses: opcode 0x7D, func 7 of the acc group, func[3] of the mctl group, a reserved bit
of a matrix word, and HD 3. -/
theorem test_refused_long :
    [0xFA000000, 0xF2000007, 0xF4000009, 0xE0000010, 0xE000000C].all
      (fun w => (decodeTableWord 64 w).isNone) = true := by decide +kernel

/-- Lane words that R76 refuses: zeros; row 6; page 3; `frcp` on page 1; `iadd` with F 4, with a reserved modifier
bit, with an operand name 0xDE, with ST 7. -/
theorem test_refused_lane :
    [0, 0x180070000000000000000000, 0xC04370000000000000000000, 0x4C0070000000000000000000,
      0x004370000000000400000000, 0x004370000000000000000100, 0x0043700006F0000000000000,
      0x00437E000000000000000000].all (fun w => (decodeTableWord 96 w).isNone) = true := by decide +kernel

/-! ## States -/

/-- A computation that does not fail has a result. -/
theorem okGet {ε α : Type} (x : Except ε α) (h : x.isOk = true) : ∃ a, x = .ok a := by
  cases x with
  | ok a => exact ⟨a, rfl⟩
  | error e => cases h

/-- A computation that ends in a value that can be compared with. -/
theorem okIs {ε α : Type} [DecidableEq α] (x : Except ε α) (a : α)
    (h : (match x with
      | .ok b => decide (b = a)
      | .error _ => false) = true) : x = .ok a := by
  cases x with
  | ok b => exact congrArg _ (of_decide_eq_true h)
  | error e => cases h

/-- Scalar registers: s1 the least integer, s2 -1, s4 9, s5 and s6 data, s7 and s8 inside `.text`, s9 misaligned, s10
outside, s11 1, s12 32, s13 16,384; s14 to s17 a tile queue, a copy, a collective and a launch packet; s18 and s20 to s22
the handles of berths 1 to 4; s23 and s24 the lines of a new berth; s25 to s28 the bounds of `acc.renorm` and `acc.scale`;
s29 and s30 berths 5 and 6; s31 on the page of package 1. -/
def regs : Vector W64 64 :=
  Vector.ofFn fun n => BitVec.ofNat 64
    ([0, 2 ^ 63, 2 ^ 64 - 1, 0, 9, 0x1000, 0x1003, 0x100, 0x1FC, 0x102, 0x200, 1, 32, 16384, 0x1100, 0x1140, 0x1180,
      0x1200, 128, 0, 256, 384, 512, 1187, 349, 511, 2 ^ 64 - 512, 1023, 2 ^ 64 - 1023, 640, 768, 2 ^ 30].getD n.val 0)

def gangSc : ScalarCtx := { ScalarCtx.start 0x100 0x10000 with s := regs, k := #v[true, false, false, false] }
def pilotSc : ScalarCtx := { ScalarCtx.start 0x100 0x20000 with s := regs }

def gang0 : Gang := Gang.start 0 0 gangSc

/-- A crew of two tiles and two extended blocks, with weight 100. -/
def crew0 : Crew :=
  { placedCrew with part := { total := 10, ext := 2, acc := 2, rf := 4 }, wgt := 100,
                    tiles := List.replicate 2 { rows := [], events := 0, drops := 0 },
                    ext := List.replicate 2 { regs := [], absent := 0, holder := none } }

def berthFor (h : Holder) (st : BerthState) (base size : Nat) : Berth :=
  { own := 1, gen := 0, state := st, holder := h, count := 0, size := size, base := base }

/-- Berths of core 0: the crew's and the pilot's. -/
def berths0 : Tbl Berth :=
  [(0, berthFor (.crew 0 0) .filling 3584 128), (1, berthFor (.crew 0 0) .full 3712 400),
   (2, berthFor .pilot .full 4112 128), (3, berthFor .pilot .full 4240 128), (4, berthFor .pilot .full 4368 2),
   (5, berthFor (.crew 0 0) .filling 4370 400), (6, berthFor (.crew 0 0) .draining 4770 1)]

/-- Memory with the number 9 at 0x1000; at 0x1100 a tile queue of head 3, tail 9, GIVE 5 and W 4; at 0x1140 a copy of 64
bytes from 0x1000 into berth 0; at 0x1180 an all-reduce of a single member; at 0x2000 entry 0 of the queue table, enabled,
with 16 slots at 0x3000; and from 0x30000010 on the placed page tables,
with a second page, at 2^30, of frame 0 of package 1. -/
def mem0 : Memory :=
  [(0x1000, 9), (0x1100, 3), (0x1104, 9), (0x1108, 5), (0x1110, 4), (0x1141, 16), (0x1154, 64), (0x1160, 64), (0x1164, 1),
   (0x1173, 63), (0x1190, 1), (0x2001, 48), (0x2010, 1), (0x2012, 4), (0x2014, 16), (0x30000012, 2), (0x30000013, 48),
   (0x30000018, 1), (0x30020000, 1), (0x30020002, 4), (0x30020003, 48), (0x30040000, 2), (0x3004000C, 241),
   (0x30040010, 2), (0x3004001C, 241), (0x3004001D, 1)]

/-- The package with that program on core 0; an agent of it executes. -/
def base0 (c : Cur) : State :=
  let s := State.reset.place
  let s := (s.setCrew 0 crew0).setCore 0 { s.core 0 with berths := berths0 }
  let s := s.setPilot 0 { grid := 0, sc := pilotSc, chk := false, ctx := 0x20000 }
  { s with cur := c, mem := mem0, launch := { s.launch with qtbase := 0x2000 } }

/-- Gang 0 of crew 0 executes, or the pilot of cluster 0. -/
def gs : State := (base0 (.gang 0)).setGang 0 gang0
def ps : State := (base0 (.pilot 0)).setGang 0 gang0

/-- The gang otherwise. -/
def gsWith (y : Gang) : State := gs.setGang 0 y

theorem issues_gang : Issues gs (.gang 0) gangSc := by unfold Issues; decide +kernel
theorem issues_pilot : Issues ps (.pilot 0) pilotSc := by unfold Issues; decide +kernel
theorem writable_gang (d : SReg) : Writable gs (.gang 0) d := fun _ => by decide +kernel
theorem settled_gang : Settled gs (.gang 0) := by exact okIs _ _ (by decide +kernel)
theorem traps_gang : Traps gs (.gang 0) := by unfold Traps; decide +kernel

/-! ## Witnesses: scalar instructions -/

theorem witness_ScalarArithmetic : Issues gs (.gang 0) gangSc ∧ Writable gs (.gang 0) 3 ∧
    Issues ps (.pilot 0) pilotSc ∧ Writable ps (.pilot 0) 63 :=
  ⟨issues_gang, writable_gang 3, issues_pilot, fun _ => by decide +kernel⟩

theorem witness_ScalarDivide : Issues gs (.gang 0) gangSc ∧ Writable gs (.gang 0) 3 ∧ gangSc.s[3] = 0 ∧
    gangSc.s[1] = 0x8000000000000000 ∧ gangSc.s[2] = 0xFFFFFFFFFFFFFFFF ∧ gangSc.s[4] ≠ 0 :=
  ⟨issues_gang, writable_gang 3, by decide +kernel⟩

theorem witness_ScalarBits : Issues gs (.gang 0) gangSc ∧ Writable gs (.gang 0) 3 ∧ gangSc.s[4] = 9 :=
  ⟨issues_gang, writable_gang 3, by decide +kernel⟩

theorem witness_ScalarCompare : Issues gs (.gang 0) gangSc ∧ gangSc.s[1] = 2 ^ 63 ∧ gangSc.s[4] = 9 :=
  ⟨issues_gang, by decide +kernel, by decide +kernel⟩

theorem witness_ScalarLiterals : Issues gs (.gang 0) gangSc ∧ Writable gs (.gang 0) 3 ∧ (63#13).toNat < 64 :=
  ⟨issues_gang, writable_gang 3, by decide⟩

theorem witness_ScalarTransfers : Issues gs (.gang 0) gangSc ∧ Writable gs (.gang 0) 3 ∧
    (gangSc.pc + 4 * (63#22).signExtend 64).toNat % 4 = 0 ∧ gs.inText (.gang 0) (gangSc.pc + 4 * (63#22).signExtend 64) = true ∧
    (gangSc.k[0] ^^ false) = true ∧ (gangSc.k[1] ^^ false) = false ∧ gangSc.s[8].toNat % 4 = 0 ∧
    gs.inText (.gang 0) gangSc.s[8] = true :=
  ⟨issues_gang, writable_gang 3, by decide +kernel⟩

theorem witness_TransferTraps : Issues gs (.gang 0) gangSc ∧ Traps gs (.gang 0) ∧ gangSc.s[9].toNat % 4 ≠ 0 ∧
    (gangSc.pc + 4 * (64#22).signExtend 64).toNat % 4 = 0 ∧
    gs.inText (.gang 0) (gangSc.pc + 4 * (64#22).signExtend 64) = false :=
  ⟨issues_gang, traps_gang, by decide +kernel⟩

theorem gang0_issues : GangIssues gs 0 gang0 := by unfold GangIssues; decide +kernel
theorem gang0_crew : InCrew gs (.gang 0) 0 crew0 := by unfold InCrew; decide +kernel

/-- The gang with a full queue but for one entry, or with an arm that waits for its block. -/
def armed0 : Gang :=
  { gang0 with queue := List.replicate 7 { index := 0, arm := false },
               arm := some { count := 2, len := 1, start := 0, active := false, left := 0 } }

theorem witness_LaneDispatch : Issues ps (.pilot 0) pilotSc ∧ GangIssues gs 0 gang0 ∧ Settled gs (.gang 0) ∧
    Writable gs (.gang 0) 3 ∧ gang0.armAttached = false ∧
    gs.kernel (.gang 0) = some placedKernel ∧ gang0.sc.mode ≠ some .trap ∧ gang0.queue.length < 8 ∧
    gang0.armPending = none ∧ (3#13).toNat < placedKernel.laneCount ∧
    gang0.sc.s[0].toNat % 2 ^ 30 + (3#13).toNat < placedKernel.laneCount ∧
    GangIssues (gsWith armed0) 0 armed0 ∧ armed0.queue.length < 8 ∧ armed0.armPending = armed0.arm ∧
    armed0.arm.all (fun m => decide ((3#13).toNat + m.len ≤ placedKernel.laneCount)) = true ∧ gs.absentAt 0 63 = false ∧
    (∀ l : Fin 32, gs.regPoisoned 0 63 (maskOf fun k => k == l) = false) ∧
    gs.regPoisoned 0 63 (maskOf fun k => k.val == gang0.sc.s[12].toNat % 32) = false :=
  ⟨issues_pilot, gang0_issues, settled_gang, writable_gang 3, by unfold GangIssues; decide +kernel⟩

theorem witness_StreamExit : GangIssues gs 0 gang0 ∧ Settled gs (.gang 0) ∧ gs.crew? gang0.crew = some crew0 ∧
    crew0.preempt = none ∧ Issues ps (.pilot 0) pilotSc :=
  ⟨gang0_issues, settled_gang, by decide +kernel, by decide, issues_pilot⟩

/-- The gang with an answered line. -/
def answered0 : Gang := { gang0 with sc := { gangSc with wait := .answered (List.replicate 128 1) } }

/-- The access is one of another package, to which a stream has room. -/
def abroad {α : Type} (x : Except AccErr α) (room : Nat → Bool) : Bool :=
  match x with
  | .error (.remote p) => room p.home
  | _ => false

theorem witness_ScalarLoadStore : Issues gs (.gang 0) gangSc ∧ Unbegun gangSc ∧ Writable gs (.gang 0) 3 ∧
    (gangSc.s[5] + (120#13).signExtend 64).toNat % 8 = 0 ∧
    (gs.plainLoad (gs.who (.gang 0)) (gangSc.s[5] + (120#13).signExtend 64) 8).isOk = true ∧
    (gangSc.s[5] + (127#32).signExtend 64).toNat % sizeBytes .n8 = 0 ∧
    (gs.plainLoad (gs.who (.gang 0)) (gangSc.s[5] + (127#32).signExtend 64) 1).isOk = true ∧
    (gs.plainStore (gs.who (.gang 0)) (gangSc.s[5] + (120#13).signExtend 64) (leBytes 8 7)).isOk = true ∧
    (gs.plainStore (gs.who (.gang 0)) (gangSc.s[5] + (127#32).signExtend 64) (leBytes 1 7)).isOk = true ∧
    Issues (gsWith answered0) (.gang 0) answered0.sc ∧ answered0.sc.wait = .answered (List.replicate 128 1) ∧
    Writable (gsWith answered0) (.gang 0) 3 ∧
    abroad (gs.plainStore (gs.who (.gang 0)) (gangSc.s[31] + (120#13).signExtend 64) (leBytes 8 7)) gs.streamRoom = true ∧
    abroad (gs.plainStore (gs.who (.gang 0)) (gangSc.s[31] + (127#32).signExtend 64) (leBytes 1 7)) gs.streamRoom = true :=
  ⟨issues_gang, .inl rfl, writable_gang 3, by unfold Issues Writable; decide +kernel⟩

theorem witness_ScalarAlign : Issues gs (.gang 0) gangSc ∧ Traps gs (.gang 0) ∧
    (gangSc.s[6] + (0#13).signExtend 64).toNat % 8 ≠ 0 ∧ (gangSc.s[6] + (0#32).signExtend 64).toNat % sizeBytes .n16 ≠ 0 :=
  ⟨issues_gang, traps_gang, by decide +kernel⟩

theorem witness_ScalarOrdered : Issues gs (.gang 0) gangSc ∧ Unbegun gangSc ∧ Writable gs (.gang 0) 3 ∧
    gangSc.s[5].toNat % 8 = 0 ∧ gs.strongLoad (gs.who (.gang 0)) gangSc.s[5] 8 = .ok (bytes64 9, gs) ∧
    gangSc.s[4].toNat ≤ (word64 (bytes64 9)).toNat ∧ word64 (bytes64 9) ≠ gangSc.s[11] ∧ word64 (bytes64 9) = gangSc.s[4] ∧
    gangSc.s[4].toInt ≤ (word64 (bytes64 9)).toInt ∧ (word64 (bytes64 9)).toNat < gangSc.s[2].toNat ∧
    (word64 (bytes64 9)).toInt < gangSc.s[12].toInt ∧
    ((gs.releaseFor (.gang 0) .device).isOk = true) ∧
    (gs.atomic (gs.who (.gang 0)) gangSc.s[5] 8 (fun b => b)).isOk = true :=
  ⟨issues_gang, .inl rfl, writable_gang 3, by decide +kernel, okIs _ _ (by decide +kernel), by decide +kernel⟩

/-- Barrier z, and barrier 1 of it in the crew. -/
def barred (z : Barrier) : Crew := { crew0 with bars := crew0.bars.set 15 z }

/-- The gang after its wait at a barrier. -/
def barDone0 : Gang := { gang0 with sc := { gangSc with wait := .barDone } }

theorem witness_Barriers : Issues gs (.gang 0) gangSc ∧ InCrew gs (.gang 0) 0 crew0 ∧ Traps gs (.gang 0) ∧
    Settled gs (.gang 0) ∧ Writable gs (.gang 0) 3 ∧ crew0.bars.length ≤ (16#7).toNat ∧ crew0.bars[(15#7).toNat]? = some { pend := 0, phase := false, expect := 1, arrived := 0 } ∧
    gangSc.s[11].toNat = 1 ∧ gangSc.s[12].toNat = 32 ∧ gs.hasWaiter 0 15 = false ∧
    false ≠ gangSc.s[11].getLsbD 0 ∧ gangSc.wait ≠ .barDone ∧
    Issues (gsWith barDone0) (.gang 0) barDone0.sc ∧ InCrew (gsWith barDone0) (.gang 0) 0 crew0 ∧
    barDone0.sc.wait = .barDone :=
  ⟨issues_gang, gang0_crew, traps_gang, settled_gang, writable_gang 3, by unfold Issues InCrew; decide +kernel⟩

/-- The machine whose berths of core 0 are all in use. -/
def crowded : State :=
  gs.setCore 0 { gs.core 0 with berths := (List.range 128).map fun i => (i, berthFor (.crew 0 0) .full (3584 + i) 1) }

theorem witness_BerthTake : Issues gs (.gang 0) gangSc ∧ Writable gs (.gang 0) 3 ∧
    gs.takeFor (.gang 0) gangSc.s[24] = some (0, crew0) ∧ 1 ≤ gangSc.s[24].toNat % 2 ^ 15 ∧
    gangSc.s[24].toNat / 2 ^ 15 = 0 ∧ gangSc.s[23].toNat + gangSc.s[24].toNat = crew0.pad.2 ∧
    (∀ e ∈ (gs.core 0).berths, e.2.state ≠ .free → e.2.base + e.2.size ≤ crew0.pad.1 + gangSc.s[23].toNat) ∧
    (gs.berth 0 7).state = .free ∧ (∀ j, j < 7 → (gs.berth 0 j).state ≠ .free) ∧
    Issues ps (.pilot 0) pilotSc ∧ Writable ps (.pilot 0) 3 ∧ ps.takeFor (.pilot 0) pilotSc.s[24] = some (0, crew0) ∧
    pilotSc.s[24].toNat / 2 ^ 15 % 2 ^ 33 = 0 ∧ pilotSc.s[24].toNat / 2 ^ 55 = 0 ∧
    Issues crowded (.gang 0) gangSc ∧ crowded.takeFor (.gang 0) gangSc.s[11] = some (0, crew0) ∧
    (∀ e ∈ (crowded.core 0).berths, e.2.base + e.2.size ≤ crew0.pad.1 + gangSc.s[23].toNat) ∧
    (∀ j, j < 128 → (crowded.berth 0 j).state ≠ .free) :=
  ⟨issues_gang, writable_gang 3, by unfold Issues Writable; decide +kernel⟩

theorem witness_BerthChanges : Issues gs (.gang 0) gangSc ∧ Settled gs (.gang 0) ∧ Settled ps (.pilot 0) ∧
    gs.berthOf (.gang 0) gangSc.s[0] = some ⟨0, 0, gs.berth 0 0⟩ ∧ gs.holdsBerth (.gang 0) (gs.berth 0 0) = true ∧
    (gs.berth 0 0).state = .filling ∧ gangSc.s[12].toNat ≤ 64 * (gs.berth 0 0).size ∧
    (gs.releaseFor (.gang 0) .cluster).isOk = true ∧
    gs.berthOf (.gang 0) gangSc.s[18] = some ⟨0, 1, gs.berth 0 1⟩ ∧ gs.holdsBerth (.gang 0) (gs.berth 0 1) = true ∧
    (gs.berth 0 1).state = .full ∧ gs.passTo (.gang 0) gangSc.s[20] = some .pilot ∧
    gs.passTo (.gang 0) gangSc.s[18] = some (.crew 0 0) ∧
    gs.berthOf (.gang 0) gangSc.s[30] = some ⟨0, 6, gs.berth 0 6⟩ ∧ (gs.berth 0 6).state = .draining ∧
    gs.berthGrid (gs.berth 0 6) = some 0 ∧ gs.issuerGrid (.gang 0) = some 0 ∧
    Issues ps (.pilot 0) pilotSc ∧ ps.berthOf (.pilot 0) pilotSc.s[20] = some ⟨0, 2, ps.berth 0 2⟩ ∧
    ps.holdsBerth (.pilot 0) (ps.berth 0 2) = true ∧ ps.berthRead 0 2 = false :=
  ⟨issues_gang, settled_gang, rfl, by unfold Issues; decide +kernel⟩

/-- The gang that holds block 0. -/
def extGang : Gang := { gang0 with ext := some 0 }
def extCrew : Crew :=
  { crew0 with ext := [{ regs := [], absent := 0, holder := some 0 }, { regs := [], absent := 0, holder := none }] }
def exts : State := (gsWith extGang).setCrew 0 extCrew

theorem witness_ExtendedBlocks : GangIssues gs 0 gang0 ∧ InCrew gs (.gang 0) 0 crew0 ∧ gang0.ext = none ∧
    crew0.part.ext ≠ 0 ∧ crew0.acqs = [] ∧ (crew0.ext[0]?).any (·.holder.isNone) = true ∧
    GangIssues exts 0 extGang ∧ InCrew exts (.gang 0) 0 extCrew ∧ extGang.ext = some 0 ∧ extGang.quiet = true ∧
    (extCrew.ext[0]?).isSome = true :=
  ⟨gang0_issues, gang0_crew, rfl, by decide, rfl, rfl, by unfold GangIssues; decide +kernel,
    by unfold InCrew; decide +kernel, rfl, rfl, rfl⟩

/-- The machine with a link up, on which a collective may go out. -/
def linked : State := gs.setPort 0 { Port.new with up := true }

/-- The gang that waits for copy 5, which has completed. -/
def drained0 : Gang := { gang0 with sc := { gangSc with wait := .drain [5] } }

theorem witness_EngineCommands : GangIssues gs 0 gang0 ∧ Settled gs (.gang 0) ∧ InCrew gs (.gang 0) 0 crew0 ∧
    Unbegun gang0.sc ∧ Settled linked (.gang 0) ∧
    linked.strongLoad (linked.who (.gang 0)) gang0.sc.s[16] 64 = .ok (leBytes 64 (2 ^ 128), linked) ∧
    GangIssues linked 0 gang0 ∧ Accepted linked (.gang 0) [.fabric] ∧ InCrew linked (.gang 0) 0 crew0 ∧
    gang0.sc.s[15].toNat % 64 = 0 ∧ gs.hasSort 0 = true ∧ (gs.die 0).sorts < 16 ∧
    (gs.releaseFor (.gang 0) .device).isOk = true ∧ (gs.strongLoad (gs.who (.gang 0)) gang0.sc.s[15] 64).isOk = true ∧
    (gs.sliceChecks (.gang 0) crew0 (copyDesc (gs.mem.bytes 0x1140 64))).isOk = true ∧
    gang0.sc.s[0].toNat < 2 ^ 10 ∧ gang0.sc.s[12].toNat / 32 % 32 + 1 = 2 ∧ (gs.core 0).slices = [] ∧
    sliceFits none 0 2 0 = true ∧ sliceFits none 0 1 0 = true ∧ (gs.cluster 0).copies = [] ∧
    (linked.releaseFor (.gang 0) .device).isOk = true ∧ linked.collBad (leBytes 64 (2 ^ 128)) = false ∧
    GangIssues (gsWith drained0) 0 drained0 ∧ drained0.sc.wait = .drain [5] :=
  ⟨gang0_issues, settled_gang, gang0_crew, .inl rfl, by exact okIs _ _ (by decide +kernel), okIs _ _ (by decide +kernel),
    by unfold GangIssues Accepted InCrew; decide +kernel⟩

theorem witness_TileQueues : Issues gs (.gang 0) gangSc ∧ Writable gs (.gang 0) 3 ∧
    gs.strongLoad (gs.who (.gang 0)) gangSc.s[14] 24 = .ok (gs.mem.bytes 0x1100 24, gs) ∧
    Unbegun gangSc ∧ (∃ z, gs.xlate (gs.who (.gang 0)) gangSc.s[14] true = .ok z) ∧
    (∃ z, gs.xlate (gs.who (.gang 0)) (gangSc.s[14] + 8) true = .ok z) ∧ gangSc.s[14].toNat % 64 = 0 ∧ (gs.releaseFor (.gang 0) .device).isOk = true ∧
    (let q := tileQueueOf (gs.mem.bytes 0x1100 24)
     q.head.toNat = 3 ∧ q.tail.toNat = 9 ∧ q.give.toNat = 5 ∧ q.lag = false ∧ q.w = 4) ∧
    (gs.atomic (gs.who (.gang 0)) gangSc.s[14] 8 (fun _ => bytes64 0)).isOk = true ∧
    (gs.atomic (gs.who (.gang 0)) (gangSc.s[14] + 8) 4 (fun b => b)).isOk = true ∧
    (let q := tileQueueOf (gs.mem.bytes 0x1200 24)
     q.tail.toNat ≤ q.head.toNat) ∧ (gs.strongLoad (gs.who (.gang 0)) gangSc.s[17] 24).isOk = true :=
  ⟨issues_gang, writable_gang 3, okIs _ _ (by decide +kernel), .inl rfl, okGet _ (by decide +kernel),
    okGet _ (by decide +kernel), by decide +kernel⟩

/-- The gang whose grant has been answered. -/
def granted0 : Gang := { gang0 with sc := { gangSc with wait := .granted 32 } }

theorem witness_WeightAndLaunch : Issues gs (.gang 0) gangSc ∧ InCrew gs (.gang 0) 0 crew0 ∧ Writable gs (.gang 0) 3 ∧
    Settled gs (.gang 0) ∧ Unbegun gangSc ∧ Issues (gsWith granted0) (.gang 0) granted0.sc ∧
    Writable (gsWith granted0) (.gang 0) 3 ∧ granted0.sc.wait = .granted granted0.sc.s[12] ∧ gs.farPhase 0 = false ∧
    gangSc.s[12] ≠ 0 ∧ gangSc.s[12].toNat < crew0.wgt.toNat ∧ gangSc.s[0] = 0 ∧
    (gs.releaseFor (.gang 0) .device).isOk = true ∧ gs.issuerGridOf (.gang 0) = some (0, placedGrid) ∧
    gangSc.s[17].toNat % 64 = 0 ∧ placedGrid.nest ≠ 10 ∧ (gs.plainLoad (gs.who (.gang 0)) gangSc.s[17] 64).isOk = true ∧
    gs.queueOn (gs.queueEntry 1) = false ∧ gs.queueOn (gs.queueEntry 0) = true ∧ (gs.queueEntry 0).room = true ∧
    ((gs.putQueue 0 12 (bytes32 1)).slotPage (gs.queueEntry 0) (gs.queueEntry 0).tail true).isOk = true ∧
    ((gs.putQueue 0 12 (bytes32 1)).issuerCrew (.gang 0)) = some (0, crew0) :=
  ⟨issues_gang, gang0_crew, writable_gang 3, settled_gang, .inl rfl, by unfold Issues Writable; decide +kernel⟩

theorem witness_ControlRegisters : Issues gs (.gang 0) gangSc ∧ Writable gs (.gang 0) 3 ∧ GangIssues gs 0 gang0 ∧
    InCrew gs (.gang 0) 0 crew0 ∧ Traps gs (.gang 0) ∧ 0x00B < (0x00C#12).toNat ∧
    (gs.issuerGridOf (.gang 0)).isSome = true ∧ ps.cur = .pilot 0 ∧
    ps.pilot? 0 = some { grid := 0, sc := pilotSc, chk := false, ctx := 0x20000 } ∧ gs.blocked (.gang 0) = false ∧
    gang0.quiet = true ∧ (leBytes 8 gang0.sc.s[12].toNat).any (badBinding crew0.part.acc) = false :=
  ⟨issues_gang, writable_gang 3, gang0_issues, gang0_crew, traps_gang, by decide +kernel⟩

/-- The kernel with a handler, and the gang in handler mode. -/
def handled : State :=
  gs.setGrid 0 { placedGrid with kernel := { placedKernel with handler := 0x40, phandler := 0x40 } }
def trapped0 : Gang := { gang0 with sc := { gangSc with mode := some .trap } }

theorem witness_TrapEntry : Issues handled (.gang 0) gangSc ∧ Traps handled (.gang 0) ∧
    handled.demandStop (.gang 0) { code := .userTrap } = none ∧ gangSc.mode = none ∧
    ((handled.finishLanes 0).unqueue 0).sctx (.gang 0) = some gangSc ∧
    (((handled.finishLanes 0).unqueue 0).kernel (.gang 0)).any (fun k => k.handlerOf (.gang 0) != 0xFFFFFFFF) = true ∧
    ({ code := .userTrap } : Trap).deviceLevel = false ∧
    (((handled.finishLanes 0).unqueue 0).ctxStore (((handled.finishLanes 0).unqueue 0).who (.gang 0)) gangSc.trapslot
      (recordBytes { code := .userTrap } { faddr := 0x100, sres := 0x104, lane := none } 0 0 0)).isOk = true :=
  ⟨by unfold Issues; decide +kernel, by unfold Traps; decide +kernel, by decide +kernel⟩

theorem witness_TrapReturn : Issues gs (.gang 0) gangSc ∧ gangSc.mode = none ∧ Traps gs (.gang 0) ∧
    Issues (gsWith trapped0) (.gang 0) trapped0.sc ∧ trapped0.sc.mode = some .trap ∧
    (gsWith trapped0).ctxLoad ((gsWith trapped0).who (.gang 0)) trapped0.sc.trapslot 64 = .ok (List.replicate 64 0) ∧
    (word64 (List.replicate 64 0)).getLsbD 12 = false ∧ gs.kernel (.gang 0) = some placedKernel ∧ crew0.preempt = none :=
  ⟨issues_gang, rfl, traps_gang, by unfold Issues; decide +kernel, rfl, okIs _ _ (by decide +kernel), by decide +kernel⟩

/-- Block-scaled operands need scales behind SOFF, a sparse one twice the elements, a gathered one an index berth. -/
theorem witness_MmaIssue : Issues ps (.pilot 0) pilotSc ∧
    (∀ f m, f ≠ .lut4 → m.p = false → f.scaled = false → Accepted ps (.pilot 0) (mmaFeatures f m)) ∧
    Accepted ps (.pilot 0) (mmaFeatures .bx4 { g := false, p := true, hd := .none, ta := false, tb := false }) ∧
    Selects ps (.pilot 0) { core := 0, slot := 0, tile := 1 } 0 crew0 ∧
    CleanReference false pilotSc.s[20] ∧ CleanReference false pilotSc.s[21] ∧ CleanReference true pilotSc.s[20] ∧
    MmaOperand ps 0 pilotSc.s[20] ⟨0, 2, ps.berth 0 2⟩ 8192 ∧ MmaOperand ps 0 pilotSc.s[21] ⟨0, 3, ps.berth 0 3⟩ 8192 ∧
    ScalesFit true pilotSc.s[20] ⟨0, 2, ps.berth 0 2⟩ (2 * (MmaFmt.k .bx4 / 32) * 64) ∧
    ScalesFit true pilotSc.s[21] ⟨0, 3, ps.berth 0 3⟩ (128 * (2 * MmaFmt.k .bx4 / 32)) ∧
    CleanReference false pilotSc.s[22] ∧ MmaOperand ps 0 pilotSc.s[22] ⟨0, 4, ps.berth 0 4⟩ 128 ∧
    (ps.core (coreOf 0)).mmaCount < 4 ∧ MmaFmt.columns .bx8 = true ∧ topIndex (ps.indexVector (opRef ⟨0, 4, ps.berth 0 4⟩ pilotSc.s[22])) = 0 ∧
    ps.operandPoisoned (opRef ⟨0, 4, ps.berth 0 4⟩ pilotSc.s[22]) 2 0 = false :=
  ⟨issues_pilot, fun f m h p q => by simp [Accepted, mmaFeatures, h, p, q],
    by unfold Accepted Selects CleanReference MmaOperand ScalesFit; decide +kernel⟩

/-- The gang whose contribution has been applied. -/
def accDone0 : Gang := { gang0 with sc := { gangSc with wait := .accDone 5 } }
def ownTile : AccSel := { core := 0, slot := 0, tile := 1 }

theorem witness_AccumulatorIssue : Issues gs (.gang 0) gangSc ∧ Unbegun gangSc ∧ Selects gs (.gang 0) ownTile 0 crew0 ∧
    Writable gs (.gang 0) 3 ∧ Issues (gsWith accDone0) (.gang 0) accDone0.sc ∧ Writable (gsWith accDone0) (.gang 0) 3 ∧
    accDone0.sc.wait = .accDone 5 ∧ CleanReference true gangSc.s[18] ∧ CleanReference true gangSc.s[29] ∧
    ScalesFit true gangSc.s[29] ⟨0, 5, gs.berth 0 5⟩ (4 * (63 + 1)) ∧
    gs.mmaAhead (.gang 0) 0 1 = false ∧ gangSc.s[25].toInt = 511 ∧ gangSc.s[26].toInt = -512 ∧
    gangSc.s[27].toInt = 1023 ∧ gangSc.s[28].toInt = -1023 ∧
    gs.handle 0 (gangSc.s[18].toNat % 2 ^ 16) = some ⟨0, 1, gs.berth 0 1⟩ ∧ gs.holdsBerth (.gang 0) (gs.berth 0 1) = true ∧
    (gs.berth 0 1).state = .full ∧ gs.spoisoned (64 * 3712) (388 * (63 + 1)) = false ∧
    gs.spoisoned (64 * 3712) (256 * (63 + 1)) = false ∧ 388 * (63 + 1) ≤ 64 * (gs.berth 0 1).size ∧
    (∀ i, i ≤ 63 → badImage (gs.rawRow (opRef ⟨0, 1, gs.berth 0 1⟩ gangSc.s[18]) i) = false) ∧
    gs.handle 0 (gangSc.s[29].toNat % 2 ^ 16) = some ⟨0, 5, gs.berth 0 5⟩ ∧ gs.holdsBerth (.gang 0) (gs.berth 0 5) = true ∧
    (gs.berth 0 5).state = .filling ∧ 388 * (63 + 1) ≤ 64 * (gs.berth 0 5).size :=
  ⟨issues_gang, .inl rfl, by unfold Selects; decide +kernel, writable_gang 3,
    by unfold Issues Writable CleanReference ScalesFit; decide +kernel⟩

def mmaMod0 : MmaMod := { g := false, p := false, hd := .none, ta := false, tb := false }
def job0 : EngineJob := .mma .bf16 mmaMod0 ⟨0, 2, 4112, 0, 0⟩ ⟨0, 3, 4240, 0, 0⟩ none [] 0 1 0

/-- Core 0 with a contribution at its port and an MMA, or a table write, at the head of its engine's queue. -/
def busy (j : EngineJob) : State := gs.setCore 0 { gs.core 0 with port := [.clr 0 1 0 64 (.gang 0)], engine := [j] }

theorem witness_AccumulatorPort : (busy job0).gated (clusterOf 0) = false ∧
    ((busy job0).core 0).port = [.clr 0 1 0 64 (.gang 0)] ∧ ((busy job0).core 0).engine = [job0] ∧
    ((busy (.ctab 3 1)).core 0).engine = [.ctab 3 1] ∧ mmaMod0.g = false ∧ (busy job0).spoison = [] ∧
    ((gs.setCore 0 { gs.core 0 with port := [.hole 0 7 0 0 0] }).core 0).port = [.hole 0 7 0 0 0] := by decide +kernel

/-- One product, 3 * 2^-7, for element 5 of row 2, which is empty or holds a mantissa of 100 at exponent -15. -/
def batch0 : Batch := { row := 2, products := [{ elem := 5, sig := 3, exp := -7 }], count := 1, drops := 1 }
def tile0 : Tile := { rows := [], events := 0, drops := 0 }
def tile1 : Tile := { rows := [(2, { exp := -15, head := 8, empty := false, m := [(5, 100)] })], events := 0, drops := 0 }

theorem witness_AccumulatorBatch : batch0.row < 64 ∧ batch0.products ≠ [] ∧ (tile0.row 2).empty = true ∧
    (tile0.row 2).m = [] ∧ batch0.firstExp ≤ 511 ∧ (tile1.row 2).empty = false ∧ (tile1.row 2).exp ≤ 511 ∧
    (∀ j, j < 64 → -(2 ^ 47) ≤ (tile1.row 2).mant j + (batch0.sums (-15)).getD j 0 ∧
      (tile1.row 2).mant j + (batch0.sums (-15)).getD j 0 < 2 ^ 47) ∧
    (∀ j, j < 64 → -(2 ^ 47) ≤ (tile0.row 2).mant j + (batch0.sums batch0.firstExp).getD j 0 ∧
      (tile0.row 2).mant j + (batch0.sums batch0.firstExp).getD j 0 < 2 ^ 47) := by decide +kernel

def mail0 : QEntry := { grid := 0, vals := laneConst 1, mask := 1, core := 0, gslot := 0, hole := none }

/-- The pilot's cluster with an entry of its grid in the mailbox. -/
def mailed : State := ps.setCluster 0 { ps.cluster 0 with mailbox := [mail0] }

/-- The gang that the fabric barrier has answered with rank 0. -/
def ranked0 : Gang := { gang0 with sc := { gangSc with wait := .fbarDone 0 } }

theorem witness_PilotCommands : Issues mailed (.pilot 0) pilotSc ∧ Accepted ps (.pilot 0) [.lut4] ∧
    Accepted gs (.gang 0) [.lut4] ∧ Issues (gsWith ranked0) (.gang 0) ranked0.sc ∧
    Accepted (gsWith ranked0) (.gang 0) [.fabric] ∧ Writable (gsWith ranked0) (.gang 0) 3 ∧
    Unbegun pilotSc ∧ ranked0.sc.wait = .fbarDone 0 ∧ ranked0.sc.s[15].toNat % 64 = 0 ∧
    mailed.pilotMmas 0 = 0 ∧ mail0.hole = none ∧ pilotSc.s[5].toNat % 128 = 0 ∧
    ((mailed.cluster 0).mailbox.find? fun e => some e.grid == mailed.issuerGrid (.pilot 0)) = some mail0 ∧
    (mailed.plainStore (mailed.who (.pilot 0)) pilotSc.s[5] (vecBytes mail0.vals)).isOk = true ∧
    ((mailed.cluster 0).rq.getD 31 []).length < 8 ∧ mailed.issuerGrid (.pilot 0) = some 0 ∧
    (mailed.plainLoad (mailed.who (.pilot 0)) pilotSc.s[5] 128).isOk = true ∧ ps.corePresent 3 = true ∧
    gs.corePresent (coreOf 0) = true :=
  ⟨by unfold Issues; decide +kernel, by unfold Accepted; decide +kernel, by unfold Accepted; decide +kernel,
    by unfold Issues; decide +kernel, by unfold Accepted; decide +kernel, fun _ => by decide +kernel, .inl rfl,
    by decide +kernel⟩

/-! ## Witnesses: lane words -/

/-- The header of an unguarded word that waits for nothing, and one that p1 guards. -/
def h0 : LaneHdr := { u := false, e := false, stall := 0, gn := false, gp := 7, st := 0, wm := 0 }
def h1 : LaneHdr := { h0 with gp := 1 }

/-- The same with token 1, and ending a run. -/
def ht : LaneHdr := { h0 with st := 1 }
def hE : LaneHdr := { h0 with e := true }
def hE1 : LaneHdr := { h1 with e := true }

/-- A gang with lanes 0 and 1 active at lane word 0, p1 true in lane 0. v0 and v1 hold the address 0x1000, v4 the handle
of berth 0, and v6 the number 640. -/
def laneGang : Gang :=
  { gang0 with
    lpc := gang0.lpc.set 0 { Lpc.off with live := true, mask := 3 },
    run := some { slot := 0, words := 0, waiting := false },
    v := (gang0.v.set 0 (laneConst 0x1000)).set 6 (laneConst 640),
    p := gang0.p.set 1 1 }

/-- The gang y, whose slot 0 executes. -/
def laneWith (y : Gang) : State := (base0 (.lane 0 0)).setGang 0 y
def ls : State := laneWith laneGang

/-- The context in which a word of slot 0 executes. -/
def ctxOf (s : State) (y : Gang) (i : Instr) : LaneCtx :=
  let li : LaneInfo := i.laneInfo.getD { hdr := h0, lat := .var }
  { g := 0, slot := 0, index := 0, act := y.lpc[0].mask, en := guardLanes s 0 li.hdr y.lpc[0].mask, now := 0, info := li,
    view := s.readView 0, pops := [] }

/-- What does not depend on the word: slot 0 of gang 0, which is y, is due and waits for nothing. -/
structure Stands (s : State) (y : Gang) : Prop where
  cur : s.cur = .lane 0 0
  now : s.clk.arith = 0
  gang : s.gang? 0 = some y
  live : y.lpc[(0 : Fin 2)].live = true
  index : y.lpc[(0 : Fin 2)].index = 0
  earliest : y.lpc[(0 : Fin 2)].earliest = 0
  awake : y.lpc[(0 : Fin 2)].wait = .none
  fix : y.fix = []
  landed : s.landFix 0 0 = s
  due : s.dueOnToken 0 0 0 = s
  late : y.late = []

/-- What depends on the word: that it is well formed, its names, its faults, its guard, its queues and its registers. -/
def laneOk (s : State) (y : Gang) (i : Instr) (ctl : Bool) : Bool :=
  match i.laneInfo with
  | none => false
  | some li => i.illForm.isNone && li.hdr.wm == 0 && y.token li.hdr.st.val != 63 && li.pops.isEmpty && (s.laneFault 0 y 0 i li).isNone
      && (ctl || guardLanes s 0 li.hdr y.lpc[0].mask != 0 && !s.fencedQueue y 0 li)
      && ((wordNames li).filterMap LaneDst.vnum).all (fun n => !s.absentAt 0 n)
      && ((readNames li).filterMap LaneDst.vnum).all fun n => !s.regPoisoned 0 n (guardLanes s 0 li.hdr y.lpc[0].mask)

theorem fillAll_present (s : State) (g : Nat) (ns : List Nat) (h : ns.all (fun n => !s.absentAt g n) = true) :
    s.fillAll g ns = .ok s := by
  induction ns with
  | nil => rfl
  | cons n ns ih =>
    simp only [List.all_cons, Bool.and_eq_true, Bool.not_eq_true'] at h
    simp [State.fillAll, State.fillGranule, h.1, ih (by simpa using h.2)]

/-- A word that passes those checks issues. -/
theorem issuesLane {s : State} {y : Gang} (hs : Stands s y) (i : Instr) (ctl : Bool) (h : laneOk s y i ctl = true) :
    LaneIssues s i ctl y (ctxOf s y i) s := by
  unfold laneOk at h
  split at h
  · cases h
  · rename_i li hi
    simp only [Bool.and_eq_true, beq_iff_eq, List.isEmpty_iff, Option.isNone_iff_eq_none, Bool.or_eq_true, bne_iff_ne,
      ne_eq, Bool.not_eq_true'] at h
    obtain ⟨⟨⟨⟨⟨⟨⟨-, hw⟩, ht⟩, hp⟩, hf⟩, he⟩, hn⟩, hr⟩ := h
    have hc : (ctxOf s y i).info = li := by simp [ctxOf, hi]
    have en : (ctxOf s y i).en = guardLanes s 0 li.hdr y.lpc[0].mask := by simp [ctxOf, hi]
    refine ⟨hs.cur, by simp [hc, hi], hs.now.symm, hs.gang, hs.live, hs.index, rfl, ?_, .inl hs.awake, fun _ => hs.fix,
      hs.landed, ?_, by simp [hs.late], ?_, ?_, ?_, by rw [hc, en] <;> rfl, ?_, ⟨s, ?_, ?_⟩, ?_, rfl⟩
    · show y.lpc[(0 : Fin 2)].earliest ≤ 0
      exact Nat.le_of_eq hs.earliest
    · rw [hc, hw]; exact hs.due
    · rw [hc, hw]; intro n _ h; simp at h
    · rw [hc]; exact ht
    · rw [hc]; exact hf
    · intro hctl
      rw [hc, en]
      exact he.resolve_left (by simp [hctl])
    · rw [hc, hp] <;> rfl
    · rw [hc]; exact fillAll_present s 0 _ hn
    · rw [hc, en]
      intro n hm
      have := List.all_eq_true.mp hr n hm
      simp only [Bool.not_eq_true'] at this
      exact this

theorem stands_lane : Stands ls laneGang := by
  constructor <;> decide +kernel

/-- Every word of a list issues in lanes 0 and 1 of the gang, and the endpoint of a queue in D would take an entry. -/
def Computing (s : State) (y : Gang) (l : List Instr) : Prop :=
  ∀ i ∈ l, LaneIssues s i false y (ctxOf s y i) s ∧ Accepts (ctxOf s y i) s

theorem computing {s : State} {y : Gang} (hs : Stands s y) {l : List Instr}
    (h : (l.all fun i => laneOk s y i false) = true) (hm : (s.cluster (clusterOf (coreOf 0))).mailbox.length < 16) : Computing s y l :=
  fun i hi => ⟨issuesLane hs i false (List.all_eq_true.mp h i hi), fun _ _ _ _ _ => hm⟩

theorem computes {l : List Instr} (h : (l.all fun i => laneOk ls laneGang i false) = true) : Computing ls laneGang l :=
  computing stands_lane h (by decide +kernel)

/-- The gang with the mailbox behind its queue 4. -/
def mailGang : Gang := { laneGang with qmap := laneGang.qmap.set 4 128 }

theorem stands_mail : Stands (laneWith mailGang) mailGang := by constructor <;> decide +kernel

def src (n : VReg) : Src := .reg (.v n)
def fmod0 : FMod := { rm := .rne, sat := false, na := false, nb := false, nc := false }

theorem witness_LaneArithmetic : Computing ls laneGang
    [.iadd h0 .i64 true (.v 8) (.v 0) (src 2), .isub h0 .n32 false (.v 8) (.v 0) (.imm 1), .imul h0 .i32 true (.v 8) (.v 0) (src 2),
     .imad h0 .n64 false (.v 8) (.v 0) (src 2) (src 4), .imulh h0 true (.v 8) (.v 0) (src 2),
     .idp4 h0 true false true (.v 8) (.v 0) (src 2) (src 4), .iabs h0 true true (.v 8) (.v 0),
     .imin h0 .i32 (.v 8) (.v 0) (src 2), .imax h0 .n64 (.v 8) (.v 0) (src 2),
     .popc h0 (.v 8) (.v 0), .clz h0 (.v 8) (.v 0), .brev h0 (.v 8) (.v 0)] := computes (by decide +kernel)

/-- A word whose result goes to the mailbox. -/
theorem witness_LanePush : Computing (laneWith mailGang) mailGang [.iadd h0 .i32 false (.q 4) (.v 0) (.imm 1)] ∧
    (mailGang.bound 4).1 = 4 :=
  ⟨computing stands_mail (by decide +kernel) (by decide +kernel), by decide⟩

theorem witness_LaneBits : Computing ls laneGang
    [.icmp h0 .i64 .tst 6 (.v 0) (src 2), .isel h0 .i32 (.v 8) (src 0) (src 2) 1, .bool3 h0 0x96 (.v 8) (src 0) (src 2) (src 4),
     .ishl h0 .i32 (.v 8) (.v 0) (.imm 32),
     .ishr h0 .n64 (.v 8) (.v 0) (.imm 64), .isra h0 .i32 (.v 8) (.v 0) (.imm 33), .ishf h0 true (.v 8) (.v 0) (.v 1) (src 2),
     .bfe h0 false (.v 8) (.v 0) (src 2), .bfi h0 (.v 8) (.v 0) (.v 1) (src 2)] := computes (by decide +kernel)

theorem witness_LaneFloat : Computing ls laneGang
    [.fadd h0 .f32 fmod0 (.v 8) (.v 0) (src 2), .fmul h0 .f16 fmod0 (.v 8) (.v 0) (src 2),
     .ffma h0 .bf16 fmod0 (.v 8) (.v 0) (src 2) (src 4), .fmin h0 .f32 (.v 8) (.v 0) (src 2), .fmax h0 .f16 (.v 8) (.v 0) (src 2),
     .fcmp h0 .f16 .num true 0 (.v 0) (src 2), .fclass h0 .f32 (.v 8) (.v 0), .fscale h0 .rne false (.v 8) (.v 0) (src 2),
     .fdot2 h0 true fmod0 (.v 8) (.v 0) (.v 2) (.v 4)] := computes (by decide +kernel)

theorem witness_LaneSpecial : Computing ls laneGang
    [.frcp h0 (.v 8) (.v 0), .frsq h0 (.v 8) (.v 0), .fsqrt h0 (.v 8) (.v 0), .fex2 h0 (.v 8) (.v 0), .flg2 h0 (.v 8) (.v 0),
     .fsin h0 (.v 8) (.v 0), .fcos h0 (.v 8) (.v 0)] := computes (by decide +kernel)

def cvt0 (d s : CvtTy) : CvtMod := { dty := d, sty := s, rm := .rne, sat := false, spos := 0, dpos := 0, p := 0 }
def qpack0 : QPackMod := { k := 3, bsel := 0, hd := .none, rnd := .fixed .rne }

theorem witness_LaneConversions : Computing ls laneGang
    [.cvt h0 (cvt0 .bf16 .f32) (.v 8) (.v 0), .cvt h0 (cvt0 .fx64 .f32) (.v 8) (.v 0), .cvt h0 (cvt0 .f32 .fx64) (.v 8) (.v 0),
     .cvtSr h0 { dty := .bf16, sat := false, dpos := 0, rbits := 8 } (.v 8) (.v 0) (.v 2), .hdm16 h0 (.v 8) 0,
     .hdm32 h0 (.v 8) 0, .qpackBx8 h0 qpack0 8 0 12, .qpackBx6 h0 qpack0 8 0 12, .qpackBx4 h0 qpack0 8 0 12,
     .qunpackBx8 h0 3 0 (.v 8) 0 12, .qunpackBx6 h0 3 0 (.v 8) 0 12, .qunpackBx4 h0 3 0 (.v 8) 0 12,
     .bxdotBx8 h0 .rd 0 1 (.v 8) 0 2 (.v 4), .bxdotBx6 h0 .rd 0 1 (.v 8) 0 2 (.v 4), .bxdotBx4 h0 .rd 0 1 (.v 8) 0 2 (.v 4)] :=
  computes (by decide +kernel)

theorem witness_LaneCross : Computing ls laneGang
    [.mov h0 true (.v 8) (.v 0), .movi h0 (.v 8) 5, .xlane h0 .abs 0 false (.v 8) (.v 0) (.imm 31),
     .xlane h0 .rot 0 true (.v 8) (.s 2) (.imm 1), .rdlane h0 0 (.v 8) 0 (.imm 32), .vote h0 .count (.v 8) 1, .lscan h0 .addI32 true (.v 8) 0, .cmp24 h0 .bf16 8 0, .pset h0 0x80 0 1 2 7,
     .pmov h0 true (.p 0) (.v 0), .pmov h0 false (.v 8) (.p 1)] := computes (by decide +kernel)

/-- Every word of a list issues, and nothing holds its effects back. -/
def Performing (s : State) (y : Gang) (l : List (Instr × WordOrder)) : Prop :=
  ∀ e ∈ l, LaneIssues s e.1 false y (ctxOf s y e.1) s ∧
    MayPerform (ctxOf s y e.1) e.2 (s.skipChoice (ctxOf s y e.1).view)

theorem performing {s : State} {y : Gang} (hs : Stands s y) {l : List (Instr × WordOrder)}
    (h : (l.all fun e => laneOk s y e.1 false) = true) (hv : s.readView 0 = s)
    (hm : (∀ e ∈ l, s.inOrder 0 e.2.strong = true ∧ ∀ n ∈ e.2.held, y.region + n ≤ 4096 ∧ s.buffered (coreOf 0) + n ≤ 65536) ∧
      s.requestRoom = true ∧ s.outstanding (.gang 0) = false ∧ (s.cluster (clusterOf (coreOf 0))).mailbox.length < 16) :
    Performing s y l := by
  intro e he
  have hk : s.skipChoice (ctxOf s y e.1).view = s := by
    show s.skipChoice (s.readView 0) = s
    rw [hv]; simp [State.skipChoice]
  refine ⟨issuesLane hs e.1 false (List.all_eq_true.mp h e he), ?_⟩
  rw [hk]
  refine ⟨(hm.1 e he).1, hm.2.1, fun n hn _ z hz => ?_, fun _ => ⟨fun _ _ _ _ _ => hm.2.2.2, fun _ _ => hm.2.2.1⟩⟩
  cases hs.gang.symm.trans hz
  exact (hm.1 e he).2 n hn

theorem performs {l : List (Instr × WordOrder)} (h : (l.all fun e => laneOk ls laneGang e.1 false) = true)
    (hm : (∀ e ∈ l, ls.inOrder 0 e.2.strong = true ∧ ∀ n ∈ e.2.held, laneGang.region + n ≤ 4096 ∧
      ls.buffered (coreOf 0) + n ≤ 65536) ∧ ls.requestRoom = true ∧ ls.outstanding (.gang 0) = false ∧
      (ls.cluster (clusterOf (coreOf 0))).mailbox.length < 16) : Performing ls laneGang l :=
  performing stands_lane h (by decide +kernel) hm

/-- The addresses that v0 and v1 hold, at an offset. -/
def vaAt (c : LaneCtx) (off : BitVec 16) (n : Fin 32) : W64 :=
  c.opd64 (.v 0) n + (c.opd .zero n).signExtend 64 + off.signExtend 64
def atAt (c : LaneCtx) (off : BitVec 16) (n : Fin 32) : W64 := c.opd64 (.v 0) n + off.signExtend 64

/-- Berth 0 as the handle in v4 names it: its last word stands at byte 8,188. -/
def pads (c : LaneCtx) (size : Nat) : Prop :=
  ∀ n : Fin 32, padRef ls c (.v 4) n = some ⟨0, 0, ls.berth 0 0⟩ ∧ ls.holdsBerth (.gang 0) (ls.berth 0 0) = true ∧
    (ls.berth 0 0).state = .filling ∧ ((c.opd .zero n).toNat + (8188#16).toInt : Int) % size = 0 ∧
    (0 : Int) ≤ (c.opd .zero n).toNat + (8188#16).toInt ∧
    ((c.opd .zero n).toNat + (8188#16).toInt : Int) + size ≤ 64 * (ls.berth 0 0).size

theorem witness_LaneLoads :
    Performing ls laneGang [(.ld ht 1 .b8 true (.v 8) (.v 0) .zero, {}), (.ld ht 0x7FF8 .b64 false (.v 8) (.v 0) .zero, {}),
      (.ldR ht 8 .device true true (.v 8) (.v 0) .zero, { scope := .device, order := .acq, strong := true }),
      (.lds ht 8188 .b32 false (.v 8) (.v 4) .zero, {})] ∧
    (let c := ctxOf ls laneGang (.ld ht 1 .b8 true (.v 8) (.v 0) .zero)
     GoodAddresses c 1 (vaAt c 1) ∧ GoodAddresses c 8 (vaAt c 0x7FF8) ∧ GoodAddresses c 8 (vaAt c 8) ∧ pads c 4) ∧
    (let i : Instr := .ldv ht 0 .device (.v 8) (.v 0) .zero (.v 2)
     let c := ctxOf ls laneGang i
     LaneIssues ls i false laneGang c ls ∧ ls.inOrder 0 false = true ∧ ls.requestRoom = true ∧
     (ldvScan 0 (ls.ownLoads 0) [] (vaAt c 0) (c.opd64 (.v 2)) (some { reg := .v 8, fmt := .w64 }) (maskLanes c.en)
       { st := ls, got := [], errs := [], stop := none }).stop = none) :=
  ⟨performs (by decide +kernel) (by decide +kernel), by unfold GoodAddresses pads; decide +kernel,
    issuesLane stands_lane _ _ (by decide +kernel), by decide +kernel⟩

/-- A gang of a replayable crew: the kernel that says so. -/
def replays : State :=
  (laneWith laneGang).setGrid 0 { placedGrid with kernel := { placedKernel with replay := true } }

theorem stands_replays : Stands replays laneGang := by
  constructor <;> decide +kernel

theorem witness_LaneStores :
    Performing ls laneGang [(.st h0 0 .b64 (.v 0) .zero (.v 2), { held := some 16 }),
      (.stR h0 8 .device true false (.v 0) .zero (.v 2), { scope := .device, order := .rel, strong := true, held := some 8 }),
      (.sts h0 8188 .b32 (.v 4) .zero (.v 2), { held := some 8 }),
      (.atom ht 0 .cas .acqrel .device true (.v 8) (.v 0) (.v 2) (.v 2), { scope := .device, order := .acqrel, strong := true }),
      (.red h0 4 .fadd false .cluster false (.v 0) (.v 2), { scope := .cluster, strong := true, held := some 8 }),
      (.atomX h0 8 true 40 false .device .zero (.v 0) (.v 2), { scope := .device, strong := true, held := some 16 })] ∧
    (let c := ctxOf ls laneGang (.st h0 0 .b64 (.v 0) .zero (.v 2))
     GoodAddresses c 8 (vaAt c 0) ∧ GoodAddresses c 4 (vaAt c 8) ∧ GoodAddresses c 8 (atAt c 0) ∧
     GoodAddresses c 4 (atAt c 4) ∧ GoodAddresses c 8 (atAt c 8) ∧ pads c 4) ∧
    Performing replays laneGang [(.st h0 0 .b64 (.v 0) .zero (.v 2), { held := some 16 })] ∧ replays.replayable 0 = true :=
  ⟨performs (by decide +kernel) (by decide +kernel), by unfold GoodAddresses pads; decide +kernel,
    performing stands_replays (by decide +kernel) (by decide +kernel) (by decide +kernel), by decide +kernel⟩

theorem witness_LaneAtomicEffect :
    (gs.atomic (gs.who (.gang 0)) 0x1000 8 fun b => leBytes 8 (BitVec.ofNat 64 (leNat b)).toNat).isOk = true ∧
    (gs.atomic (gs.who (.gang 0)) 0x107C 4 fun b => leBytes 4 (BitVec.ofNat 64 (leNat b)).toNat).isOk = true := by
  decide +kernel

/-- Word 0 of the placed kernel divides: the stack of a gang, from its base on. -/
def stacked (es : List DEntry) (l : Lpc) : Gang :=
  { laneGang with lpc := #v[{ Lpc.off with live := true, mask := 3 }, l], dbase := 0x4000, depth := es.length }
def stackedState (es : List DEntry) (l : Lpc) : State :=
  let s := laneWith (stacked es l)
  { s with mem := s.mem.store 0x4000 (es.flatMap DEntry.bytes) }

/-- A slot that waits at index 2 with lanes 2 and 3. -/
def off1 : Lpc := { Lpc.off with live := true, index := 2, mask := 12 }
def loopEntry : DEntry := { kind := 1, join := 3, jmask := 3, path := 2, pmask := 1 }
def callEntry : DEntry := { kind := 2, join := 1, jmask := 3, path := 0, pmask := 0 }
def joinEntry : DEntry := { kind := 0, join := 0, jmask := 3, path := 0, pmask := 0 }

/-- The paths that p makes of the stack es and slot 1 take their places, behind a word that issues there. -/
def pathsOk (es : List DEntry) (l : Lpc) (i : Instr) (ctl : Bool) (p : LaneCtx → Paths → Paths) : Bool :=
  let s := stackedState es l
  let c := ctxOf s (stacked es l) i
  laneOk s (stacked es l) i ctl && (s.kernel (.gang 0)).isSome && (match s.dstack 0 with
    | .ok st => decide (st = es) && match (s.advance c).gang? 0 with
      | some z => ((s.advance c).putPaths 0 st (p c { lpc := z.lpc, st := st, killed := z.killed })).isOk
      | none => false
    | .error _ => false)

theorem witness_LaneControl :
    Stands (stackedState [] off1) (stacked [] off1) ∧ Stands (stackedState [loopEntry] off1) (stacked [loopEntry] off1) ∧
    Stands (stackedState [callEntry] off1) (stacked [callEntry] off1) ∧
    Stands (stackedState [joinEntry] off1) (stacked [joinEntry] off1) ∧ placedKernel.laneCount = 4 ∧
    placedKernel.capacity = 16 ∧
    -- a branch that no lane, every lane or one of two lanes takes
    pathsOk [] off1 (.bra { hE with gp := 0 } 3 2) true (fun _ p => p) = true ∧
    pathsOk [] off1 (.bra hE 3 2) true (fun c p => { p with lpc := p.lpc.set 0 (p.lpc[0].take 3 c.act) }) = true ∧
    pathsOk [] off1 (.bra hE1 3 2) true (fun _ p =>
      { p with lpc := #v[{ p.lpc[0] with mask := 2 }, p.lpc[1].take 3 1],
               st := [{ kind := 0, join := 2, jmask := 3, path := 2, pmask := 12 }] }) = true ∧
    (ctxOf (stackedState [] off1) (stacked [] off1) (.bra { hE with gp := 0 } 3 2)).en = 0 ∧
    (ctxOf (stackedState [] off1) (stacked [] off1) (.bra hE 3 2)).en = 3 ∧
    (ctxOf (stackedState [] off1) (stacked [] off1) (.bra hE1 3 2)).en = 1 ∧
    pathsOk [] off1 (.braLoop hE 2 3) true (fun _ p =>
      { p with st := [{ kind := 1, join := 3, jmask := 3, path := 2, pmask := 0 }] }) = true ∧
    pathsOk [loopEntry] off1 (.brk hE1) true (fun _ p => { p with lpc := #v[{ p.lpc[0] with mask := 2 }, p.lpc[1]] }) = true ∧
    pathsOk [loopEntry] off1 (.cont hE1) true (fun _ p => { p with lpc := #v[{ p.lpc[0] with mask := 2 }, p.lpc[1]] }) = true ∧
    pathsOk [joinEntry] off1 (.join hE) true (fun _ p => { p with lpc := #v[Lpc.off, p.lpc[1]] }) = true ∧
    pathsOk [loopEntry] off1 (.joinLatch hE) true (fun _ p =>
      { p with st := [{ loopEntry with pmask := 0 }] }) = true ∧
    pathsOk [] off1 (.call hE 3) true (fun c p =>
      { p with lpc := p.lpc.set 0 (p.lpc[0].take 3 c.act), st := [callEntry] }) = true ∧
    pathsOk [callEntry] off1 (.ret hE1) false (fun _ p =>
      { p with lpc := #v[{ p.lpc[0] with mask := 2 }, p.lpc[1]] }) = true ∧
    pathsOk [] off1 (.exit hE1) false (fun _ p => { p with lpc := #v[{ p.lpc[0] with mask := 2 }, p.lpc[1]] }) = true ∧
    pathsOk [] off1 (.exitKill hE1) false (fun _ p =>
      { p with lpc := #v[{ p.lpc[0] with mask := 2 }, p.lpc[1]], killed := 1 }) = true := by
  refine ⟨?_, ?_, ?_, ?_, rfl, by decide +kernel, ?_⟩
  · constructor <;> decide +kernel
  · constructor <;> decide +kernel
  · constructor <;> decide +kernel
  · constructor <;> decide +kernel
  · decide +kernel

theorem witness_LaneWaits :
    (∀ i ∈ [Instr.fence h0 .acq .device, .fence h0 .acqrel .device, .mwait hE 0 true (.v 0) .zero (.v 2)],
      LaneIssues ls i false laneGang (ctxOf ls laneGang i) ls) ∧
    (∀ i ∈ [Instr.nap hE 1, .rgn hE], LaneIssues ls i true laneGang (ctxOf ls laneGang i) ls) ∧
    LaneIssues replays (.rgn hE) true laneGang (ctxOf replays laneGang (.rgn hE)) replays ∧
    laneGang.awaits = false ∧ ls.inOrder 0 false = true ∧ ls.requestRoom = true ∧
    ((ls.commitHeld 0).gang? 0).any Gang.uncommitted = false ∧ ((ls.commitHeld 0).releaseFor (.gang 0) .device).isOk = true ∧
    (let c := ctxOf ls laneGang (.mwait hE 0 true (.v 0) .zero (.v 2))
     let r (off : BitVec 16) := mwaitScan 0 (ls.ownLoads 0) [] 8 (vaAt c off) (c.opd64 (.v 2)) (maskLanes c.en)
       { st := ls, differs := false, errs := [], far := false }
     -- word 0x1000 holds 9, and word 0x1008 holds the 0 of v2 and v3
     (r 0).differs = true ∧ (r 0).far = false ∧ (r 8).differs = false ∧ (r 8).errs = [] ∧ (r 8).far = false ∧
     (ls.yieldSlot c fun x => x.laneSleep 0 0 []).isOk = true) ∧
    ls.replayable 0 = false ∧ replays.replayable 0 = true ∧ laneGang.quiet = true ∧
    laneGang.lpc[(1 : Fin 2)].live = false ∧ (replays.dstack 0).isOk = true ∧
    ((replays.commitHeld 0).gang? 0).any Gang.uncommitted = false := by
  refine ⟨?_, ?_, issuesLane stands_replays _ _ (by decide +kernel), ?_⟩
  · exact fun i hi => issuesLane stands_lane i false
      (List.all_eq_true.mp (by decide +kernel : ([Instr.fence h0 .acq .device, .fence h0 .acqrel .device,
        .mwait hE 0 true (.v 0) .zero (.v 2)].all fun i => laneOk ls laneGang i false) = true) i hi)
  · exact fun i hi => issuesLane stands_lane i true
      (List.all_eq_true.mp (by decide +kernel : ([Instr.nap hE 1, .rgn hE].all fun i =>
        laneOk ls laneGang i true) = true) i hi)
  · decide +kernel

/-- The gang with the projection and the traversal input behind its queues 2 and 3. -/
def renderGang : Gang := { laneGang with qmap := (laneGang.qmap.set 2 64).set 3 96 }
def rs : State := laneWith renderGang

theorem stands_render : Stands rs renderGang := by
  constructor <;> decide +kernel

/-- The kernel allows rays of depth 1 and 64 payload bytes. -/
def traces : State := rs.setGrid 0 { placedGrid with kernel := { placedKernel with depth := 1, payload := 64 } }

theorem stands_traces : Stands traces renderGang := by
  constructor <;> decide +kernel

theorem witness_RenderWords :
    Performing ls laneGang [(.geval ht 8 (.v 0) (.v 2), {}), (.gblend ht 0 16 (.v 2) (.v 0), {}),
      (.gback ht 0 32 (.v 0) (.v 2) 48, {}),
      (.fbw h0 0 .rgba32f (.v 0) .zero 8, { held := some 32 }), (.rpush ht (.v 8) 5, { strong := true }),
      (.rpop h0 5 (.v 2), { strong := true }), (.rgen h0 5 (.v 2) (.v 4), { strong := true }),
      (.rayld ht 22 true (.v 8) 5 (.v 2), {}), (.rayld ht 23 false (.v 8) 5 (.v 2), {}),
      (.rayst h0 8 false 5 (.v 2) (.v 4), {}), (.rayst h0 15 false 5 (.v 2) (.v 4), {}),
      (.gscat h0 0x8001 true 40 (.v 0) 16, { strong := true, held := some 32 })] ∧
    (let c := ctxOf ls laneGang (.geval ht 8 (.v 0) (.v 2))
     ∀ l : Fin 32, (c.opd64 (.v 0) l).toNat % 128 = 0 ∧ (vaAt c 0 l).toNat % 16 = 0) ∧
    LaneIssues rs (.gproj h0 2 (.v 2) 5) false renderGang (ctxOf rs renderGang (.gproj h0 2 (.v 2) 5)) rs ∧
    LaneIssues rs (.pproj h0 2 (.v 2) 5) false renderGang (ctxOf rs renderGang (.pproj h0 2 (.v 2) 5)) rs ∧
    Performing traces renderGang [(.trace h0 60 3 (.v 2) 5 (.v 2), { strong := true })] ∧
    LaneIssues ls (.hitq ht 8 5 (.v 2)) false laneGang (ctxOf ls laneGang (.hitq ht 8 5 (.v 2))) ls ∧
    (let c := ctxOf rs renderGang (.gproj h0 2 (.v 2) 5)
     (c.sreg 5).toNat % 128 = 0 ∧ (rs.cluster 0).projQ.length < 16 ∧ rs.laneCrew c = some crew0) ∧
    (let c := ctxOf traces renderGang (.trace h0 60 3 (.v 2) 5 (.v 2))
     (traces.kernel (.gang 0)).any (fun k => decide (60 ≤ k.payload) && (maskLanes c.en).all fun l =>
       decide ((c.opd (.v 2) l).toNat < k.depth)) = true ∧ traces.tracing 0 = false ∧
     (traces.cluster 0).travQ.length < 16) ∧
    (let c := ctxOf ls laneGang (.hitq ht 8 5 (.v 2))
     let r := hitScan { ls.who (.gang 0) with reader := some (.slot 0 0) } (ls.ownLoads 0) (fun l => .hitq (c.sreg 5) (c.opd (.v 2) l) 8) (maskLanes c.en)
       { st := ls, got := [], errs := [], far := [], stop := none }
     ls.inOrder 0 false = true ∧ ls.requestRoom = true ∧ r.stop = none ∧ r.far = []) :=
  ⟨performs (by decide +kernel) (by decide +kernel), by decide +kernel, issuesLane stands_render _ _ (by decide +kernel),
    issuesLane stands_render _ _ (by decide +kernel),
    performing stands_traces (by decide +kernel) (by decide +kernel) (by decide +kernel),
    issuesLane stands_lane _ _ (by decide +kernel), by decide +kernel⟩

/-! ## Values worked in the spec -/

/-- The gang of the lane words with the vectors of a list in place: v0, v1, … in order, and all 32 lanes active. -/
def withVecs (l : List LaneVec) : State :=
  laneWith { laneGang with
    lpc := gang0.lpc.set 0 { Lpc.off with live := true, mask := 0xFFFFFFFF },
    v := Vector.ofFn fun n => l.getD n.val laneGang.v[n] }

/-- What a word writes at its landing to a destination: a list of lanes' values. -/
def writes (l : List LaneVec) (i : Instr) (d : LaneDst) (lanes : List (Fin 32)) : List W32 :=
  match exec i (withVecs l) with
  | .next s => match s.gang? 0 with
    | some y => (y.fix.flatMap FixPend.writes).filter (·.dst == d) |>.flatMap fun w => lanes.map fun n => w.vals[n]
    | none => []
  | .fault _ | .refused _ => []

/-- The register that a word writes to when every lane holds the same value, in lane 0. -/
def writes0 (l : List W32) (i : Instr) (d : VReg) : List W32 := writes (l.map laneConst) i (.v d) [0]

/-- The conversions of the table of R185: v3 is D before and v2 is A. -/
theorem test_cvt :
    (writes0 [0, 0, 0x43960000, 0x11111111] (.cvt h0 ⟨.e4m3, .f32, .rne, false, 0, 2, 0⟩ (.v 3) (.v 2)) 3 == [0x11791111] &&
      writes0 [0, 0, 0xC3480000, 0] (.cvt h0 ⟨.i8, .f32, .rne, false, 0, 0, 0⟩ (.v 3) (.v 2)) 3 == [0x80] &&
      writes0 [0, 0, 0x12C, 0] (.cvt h0 ⟨.n8, .i32, .rne, true, 0, 0, 0⟩ (.v 3) (.v 2)) 3 == [0xFF] &&
      writes0 [0, 0, 0x12C, 0] (.cvt h0 ⟨.n8, .i32, .rne, false, 0, 0, 0⟩ (.v 3) (.v 2)) 3 == [0x2C] &&
      writes0 [0, 0, 0x3F801234, 0] (.cvt h0 ⟨.f32, .bf16, .rne, false, 1, 0, 0⟩ (.v 3) (.v 2)) 3 == [0x3F800000] &&
      writes0 [0, 0, 0x3DCCCCCD, 0] (.cvt h0 ⟨.fx64, .f32, .rne, false, 0, 0, 32⟩ (.v 4) (.v 2)) 4 == [0x199999A0] &&
      writes0 [0, 0, 0x3DCCCCCD, 0] (.cvt h0 ⟨.fx64, .f32, .rne, false, 0, 0, 32⟩ (.v 4) (.v 2)) 5 == [0]) = true := by
  decide +kernel

/-- The stochastic conversion of R186. -/
theorem test_cvt_sr : writes0 [0, 0, 0x3F806000, 0, 0, 0, 0, 0, 0, 0xA0]
    (.cvtSr h0 ⟨.bf16, false, 0, 8⟩ (.v 3) (.v 2) (.v 9)) 3 = [0x3F81] := by decide +kernel

/-- The example of R189: bytes 0 of v8 and of v12. -/
theorem test_qpack :
    let x : LaneVec := Vector.ofFn fun n => BitVec.ofNat 32 ([0x3CA3D70A, 0xC0F80000, 0x417C0000, 0x80000000].getD n.val 0)
    (writes [laneConst 0, x] (.qpackBx8 h0 ⟨0, 0, .none, .fixed .rne⟩ 8 1 12) (.v 8) [0, 1, 2, 3, 31] ==
        [0x85, 0x5F, 0x3F, 0xC0, 0x80] &&
      writes [laneConst 0, x] (.qpackBx8 h0 ⟨0, 0, .none, .fixed .rne⟩ 8 1 12) (.v 12) [0, 1] == [0x82, 0x7C]) = true := by
  decide +kernel

/-- `xlane.rel v2, v1, 16, p1` with v1 = laneid (R194). -/
theorem test_xlane :
    let x : LaneVec := Vector.ofFn fun n => BitVec.ofNat 32 n.val
    (writes [laneConst 0, x] (.xlane h0 .rel 1 false (.v 2) (.v 1) (.imm 16)) (.v 2) [0, 15, 16, 31] == [16, 31, 16, 31] &&
      (writes [laneConst 0, x] (.xlane h0 .rel 1 false (.v 2) (.v 1) (.imm 16)) (.p 1) [15, 16]).map (·.getLsbD 0) == [true, false] &&
      writes [laneConst 0, x] (.xlane h0 .rel 1 false (.v 2) (.v 1) (.imm 0xFFFFFFFF)) (.v 2) [0, 1, 31] == [0, 0, 30] &&
      writes [laneConst 0, x] (.xlane h0 .rot 1 false (.v 2) (.v 1) (.imm 16)) (.v 2) [0, 16] == [16, 0]) = true := by
  decide +kernel

/-- The two folds of R197. -/
theorem test_lscan :
    let x : LaneVec := Vector.ofFn fun n => if n.val = 1 then 0x4B800000 else 0x3F800000
    let y : LaneVec := Vector.ofFn fun n => if n.val = 31 then 0x4B800000 else 0x3F800000
    (writes [laneConst 0, x] (.lscan h0 .addF32 false (.v 2) 1) (.v 2) [0, 1, 31] == [0x3F800000, 0x4B800000, 0x4B800000] &&
      writes [laneConst 0, y] (.lscan h0 .addF32 false (.v 2) 1) (.v 2) [30, 31] == [0x41F80000, 0x4B800010]) = true := by
  decide +kernel

/-- The example of R198. -/
theorem test_cmp24 :
    (writes0 [0, 0, 0xC0403F80, 0x40407FC1] (.cmp24 h0 .bf16 4 2) 4 == [0x7FC1C040] &&
      writes0 [0, 0, 0xC0403F80, 0x40407FC1] (.cmp24 h0 .bf16 4 2) 5 == [9] &&
      writes0 [0, 0, 0x80000000, 0x8000] (.cmp24 h0 .bf16 4 2) 5 == [4]) = true := by decide +kernel

/-- Shifts of the full width (R175), and the sign of a saturated sum (R173). -/
theorem test_ishl_isra :
    (writes0 [0, 0, 0x80000001] (.ishl h0 .i32 (.v 4) (.v 2) (.imm 32)) 4 == [0] &&
      writes0 [0, 0, 0x80000001] (.isra h0 .i32 (.v 4) (.v 2) (.imm 99)) 4 == [0xFFFFFFFF]) = true := by decide +kernel

theorem test_iadd :
    (writes0 [0, 0, 0x7FFFFFFF] (.iadd h0 .i32 true (.v 4) (.v 2) (.imm 1)) 4 == [0x7FFFFFFF] &&
      writes0 [0, 0, 0x7FFFFFFF] (.iadd h0 .i32 false (.v 4) (.v 2) (.imm 1)) 4 == [0x80000000]) = true := by decide +kernel

/-- The truth tables of R176. -/
theorem test_bool3 :
    (writes0 [0, 0, 0b0011, 0b0101] (.bool3 h0 0x66 (.v 4) (src 2) (src 3) (src 0)) 4 == [0b0110] &&
      writes0 [0, 0, 0b0011, 0b0101] (.bool3 h0 0x88 (.v 4) (src 2) (src 3) (src 0)) 4 == [0b0001]) = true := by decide +kernel

/-- Field extraction by R175: 8 bits from bit 4, by sign and by zeros. -/
theorem test_bfe :
    (writes0 [0, 0, 0xF80] (.bfe h0 false (.v 4) (.v 2) (.imm 0x0804)) 4 == [0xFFFFFFF8] &&
      writes0 [0, 0, 0xF80] (.bfe h0 true (.v 4) (.v 2) (.imm 0x0804)) 4 == [0xF8]) = true := by decide +kernel

/-- Exact sums that round once (R178): 1 + 2^-24 is a tie that goes to even, and 1 * 1 - 1 is +0, -0 under RD. -/
theorem test_fadd : writes0 [0, 0, 0x3F800000, 0x33800000] (.fadd h0 .f32 fmod0 (.v 4) (.v 2) (src 3)) 4 = [0x3F800000] := by
  decide +kernel

theorem test_ffma :
    (writes0 [0, 0, 0x3F800000, 0xBF800000] (.ffma h0 .f32 fmod0 (.v 4) (.v 2) (src 2) (src 3)) 4 == [0] &&
      writes0 [0, 0, 0x3F800000, 0xBF800000] (.ffma h0 .f32 { fmod0 with rm := .rd } (.v 4) (.v 2) (src 2) (src 3)) 4 ==
        [0x80000000]) = true := by decide +kernel

/-- The first column of R183's table, and its example of overflow. -/
theorem test_frcp :
    (writes0 [0, 0, 0] (.frcp h0 (.v 4) (.v 2)) 4 == [0x7F800000] && writes0 [0, 0, 1] (.frcp h0 (.v 4) (.v 2)) 4 == [0x7F800000]) =
      true := by decide +kernel

/-- Division by R131, and the arithmetic of R130, in a gang whose s1 holds -2^63 and s2 holds -1. -/
def scalar (i : Instr) (d : SReg) : Option W64 :=
  match exec i gs with
  | .next s => (s.gang? 0).map (·.sc.s[d])
  | .fault _ | .refused _ => none

theorem test_sdiv : (scalar (.sdiv false 3 1 2) 3 == some 0x8000000000000000 && scalar (.sdiv true 3 4 0) 3 == some (0 - 1)) = true := by
  decide +kernel
theorem test_smulh : (scalar (.smulh false 3 2 2) 3 == some 0 && scalar (.smulh true 3 2 2) 3 == some 0xFFFFFFFFFFFFFFFE) = true := by
  decide +kernel
theorem test_ssra : scalar (.ssraImm 3 1 63) 3 = some 0xFFFFFFFFFFFFFFFF := by decide +kernel
theorem test_smovh : scalar (.smovhLong 4 0x40) 4 = some 0x0000004000000009 := by decide +kernel

/-- Step 5 of the table of R160, with LAG set, at the tile queue of head 3, tail 9 in s14: k = min(3, 6). -/
theorem test_tq_take : scalar (.tqTake 3 14) 3 = some 3 := by decide +kernel

/-! ## Witnesses: events -/

/-- A fixed-latency result and a `var` word that can complete. -/
def fix0 (t : Nat) : FixPend := { writes := [], landAt := t, token := 0 }
def var0 : VarPend :=
  { id := 0, slot := 0, index := 0, dsts := [], writes := [], token := 0, remote := [], reads := [], got := [], own := [],
    rays := [], traces := [], pays := [], acq := false, strong := false, ended := false }
def late0 : LateFault := { no := 0, slot := 0, index := 0, token := 0, trap := { code := .align }, ops := [], due := true }

/-- A gang whose dispatched block carries an arm of count 0; one with pending results; one with a nap that is over; one
with a late fault; one whose scalar stream sleeps. -/
def blockGang : Gang :=
  { gang0 with queue := [{ index := 1, arm := true }],
               arm := some { count := 0, len := 2, start := 1, active := false, left := 0 } }
def pendGang : Gang := { gang0 with fix := [fix0 0, fix0 0], var := [var0] }
def napGang : Gang := { gang0 with lpc := gang0.lpc.set 1 { Lpc.off with wait := .nap 0 } }
def lateGang : Gang := { gang0 with late := [late0] }
def asleepGang : Gang := { gang0 with sc := { gangSc with wait := .asleep 32 } }
def runGang : Gang := { laneGang with run := none }

theorem witness_LaneSequencer :
    ((gsWith blockGang).gang? 0 = some blockGang ∧ (gsWith blockGang).gangIssues 0 false = true ∧
      blockGang.sc.mode ≠ some .trap ∧ (∀ n : Fin 2, blockGang.lpc[n].live = false) ∧ blockGang.depth = 0 ∧
      blockGang.killed ≠ BitVec.allOnes 32) ∧
    (((gsWith runGang).core 0).issue.toList.getD 3 none = none ∧ ((gsWith runGang).issueWinner 0).isSome = true) ∧
    ((gsWith pendGang).gang? 0 = some pendGang ∧ pendGang.fix = [fix0 0, fix0 0] ∧
      (fix0 0).landAt ≤ (gsWith pendGang).clk.arith ∧ pendGang.var[0]? = some var0 ∧ var0.far = false ∧
      ((gsWith pendGang).landFix 0 (gsWith pendGang).clk.arith).gang? 0 = some { pendGang with fix := [] }) ∧
    ((gsWith napGang).gang? 0 = some napGang ∧ napGang.lpc[(1 : Fin 2)].wait = .nap 0 ∧ 0 ≤ (gsWith napGang).clk.arith) ∧
    ((gs.setCore 0 { gs.core 0 with monitors := [(.scalar 0, 32)] }).core 0).monitors.any (fun e => e.1 == .scalar 0) = true ∧
    (gs.core 0).monitors.any (fun e => e.1 == .scalar 0) = false ∧
    ((gsWith asleepGang).gang? 0 = some asleepGang ∧ asleepGang.sc.wait = .asleep 32) ∧
    ((gsWith lateGang).gang? 0 = some lateGang ∧ (gsWith lateGang).gangIssues 0 false = true ∧ lateGang.faultDue = true ∧
      lateGang.mayTrap = true ∧ (∀ e ∈ lateGang.late, e = late0) ∧ (gsWith lateGang).demandStop (.gang 0) late0.trap = none) := by
  decide +kernel

/-- The crew at its end, and its grid after it. -/
def endingCrew : Crew := { crew0 with gangs := [none], ending := true }
def ended : State := { gs.setCrew 0 endingCrew with gangs := [], pilots := [] }
def doneGrid : Grid := { placedGrid with retired := 1 }
def emptied : State := { ended with crews := [], grids := [(0, doneGrid)] }

theorem witness_Retirement : ended.crew? 0 = some endingCrew ∧ endingCrew.ending = true ∧
    ended.grid? endingCrew.grid = some placedGrid ∧ placedGrid.stopped = false ∧ ended.crewInUse 0 endingCrew = false ∧
    ended.crewOut 0 endingCrew = false ∧
    emptied.grid? 0 = some doneGrid ∧ doneGrid.ncrew ≤ doneGrid.retired ∧ doneGrid.live = 0 ∧ doneGrid.launched = [] ∧
    (emptied.pilots.any fun p => p.2.grid == 0) = false ∧
    (let s : State := { gs with grants := [(.gang 0, 5)] }
     s.grants[0]? = some (.gang 0, 5) ∧ s.issuerGridOf (.gang 0) = some (0, placedGrid) ∧
     (match s.phaseAt placedGrid.asid placedGrid.part placedGrid.phase with
      | .ok x => x.home == s.ident.pkg
      | .error _ => false) = true) := by decide +kernel

/-- A packet of a root grid of n crews at 0x3000, its kernel at 256 * img; and at 0x8000 a kernel header of 1,024 bytes of
`.text`, one gang, no barrier, 16 stack entries, no handler and 2 units, with a reserved bit or a feature word. -/
def packet0 (img n : Nat) : Memory :=
  [(0x3001, BitVec.ofNat 8 img), (0x3003, BitVec.ofNat 8 (img / 65536)), (0x3010, BitVec.ofNat 8 n), (0x3014, 1),
   (0x3016, 0x40), (0x3038, 255), (0x3039, 255), (0x303A, 255), (0x303B, 255)]
def header0 (bad req : Nat) : Memory :=
  [(0x8000, 0x48), (0x8001, 0x4B), (0x8002, 0x4C), (0x8003, 0x47), (0x8004, 1), (0x8006, BitVec.ofNat 8 bad), (0x800C, 1),
   (0x800E, 1), (0x8011, 1), (0x8015, 4), (0x802C, 255), (0x802D, 255), (0x802E, 255), (0x802F, 255), (0x8030, 255),
   (0x8031, 255), (0x8032, 255), (0x8033, 255), (0x8034, 1), (0x8038, 16), (0x8040, BitVec.ofNat 8 req), (0x80E0, 255),
   (0x80E1, 255), (0x80E2, 255), (0x80E3, 255)]

/-- The machine whose feature words are locked, with the packet at the head of queue 0. Its context areas have a length
unless it is to place nothing. -/
def queued (image n bad req len : Nat) : State :=
  { gs with mem := mem0.take 15 ++ (packet0 (image / 256) n ++ header0 bad req).filter (fun e => e.2 != 0) ++ mem0.drop 15,
            ident := { gs.ident with flock := true, facc := gs.ident.facc.set 0 0x0F },
            launch := { gs.launch with ctxlen := gs.launch.ctxlen.set 0 (BitVec.ofNat 64 len) } }

def ready0 (s : State) : Bool := match s.queueHead 0 with
  | .ready e _ _ => s.serving && s.choosesQueue 0 e
  | .off | .stuck | .asks _ _ => false

/-- The answer to the packet at the head of queue 0. -/
def judged (s : State) : Option Verdict := match s.queueHead 0 with
  | .ready e _ bs => some (s.judge 0 e (launchPacketOf bs)).1
  | .off | .stuck | .asks _ _ => none

/-- A grid of class 0 whose crew is still to be placed. -/
def waitingGrid : Grid := { placedGrid with id := 1, placed := 0, kernel := { placedKernel with part := crew0.part } }
def waitingState (g : Grid) : State :=
  let s := queued 0x8000 1 0 0 0x100000
  s.setGrid 1 g

theorem witness_Admission_packet : ready0 (queued 0x8000 0 0 0 0x100000) = true ∧
    judged (queued 0x8000 0 0 0 0x100000) = some (.refuse .packet) := by decide +kernel

theorem witness_Admission_unread : ready0 (queued 0x80000000 1 0 0 0x100000) = true ∧
    judged (queued 0x80000000 1 0 0 0x100000) = some (.refuse .header) := by decide +kernel

theorem witness_Admission_header : judged (queued 0x8000 1 4 0 0x100000) = some (.refuse .header) := by decide +kernel

theorem witness_Admission_feature : judged (queued 0x8000 1 0 16 0x100000) = some (.refuse .feature) := by decide +kernel

theorem witness_Admission_place : judged (queued 0x8000 1 0 0 0) = some (.refuse .place) := by decide +kernel

theorem witness_Admission_seat : (match judged (queued 0x8000 1 0 0 0x100000) with
    | some (.seatGrid k _) => k == 1
    | _ => false) = true := by decide +kernel

theorem witness_Admission_placement : (waitingState waitingGrid).serving = true ∧
    (waitingState waitingGrid).grid? 1 = some waitingGrid ∧
    waitingGrid.unplaced = true ∧ waitingGrid.coop = false ∧ waitingGrid.conv = 0 ∧
    (waitingState waitingGrid).restoreFirst waitingGrid = false ∧
    (∀ e ∈ (waitingState waitingGrid).grids, e.1 ≠ 1 → e.2.unplaced = false) ∧
    ((waitingState waitingGrid).placeNext 1).isSome = true := by decide +kernel

/-- Crew 0 of a grid of class 2, replayable or not, on the one core there is, where a grid of class 0 does not fit beside
it. -/
def quietCrew : Crew :=
  { crew0 with part := { total := 10, ext := 0, acc := 0, rf := 4 }, tiles := [], ext := [], bars := [] }
def lowGrid (replay : Bool) : Grid :=
  { placedGrid with cls := 2, kernel := { placedKernel with pilot := false, replay := replay } }
def highGrid : Grid :=
  { placedGrid with id := 1, placed := 0, kernel := { placedKernel with pilot := false, part := { total := 30, ext := 0, acc := 0, rf := 4 } } }
def contested (replay : Bool) : State :=
  { ((gs.setGrid 0 (lowGrid replay)).setGrid 1 highGrid).setCrew 0 quietCrew with
    cores := [], ident := { gs.ident with cores := #v[1, 0, 0, 0] },
    launch := { gs.launch with ctxva := Vector.replicate 4 0x100000, ctxlen := Vector.replicate 4 0x100000 } }

/-- The crew with a request, and at a time when it has lapsed. -/
def askedCrew : Crew := { quietCrew with preempt := some { at_ := 0 } }
def asked0 (t : Nat) : State := { (contested false).setCrew 0 askedCrew with clk := { Clocks.zero with refc := t } }

/-- The crew with a frozen gang, whose registers are absent, and its pages in the core's TLB. -/
def page0 : TlbEntry :=
  { asid := 1, va := 0, size := 2 ^ 30, frame := 0, key := 0, home := 0, pmask := 15, rc := false, cache := 0, wr := true }
def doomed0 : State :=
  let s := (contested true).setGang 0 { gang0 with dbase := 0x4000, frozen := true, absent := 255 }
  s.setCore 0 { s.core 0 with tlb := [page0] }

/-- The crew away from its core, killed or not, and its fault entry acknowledged with 1 at 0x5000. -/
def away0 (killed : Bool) : AwayCrew :=
  { crew := quietCrew, killed := killed, parked := [none], holds := [none], starts := [none] }
def gone0 (killed : Bool) : State :=
  { contested true with crews := [], gangs := [], away := [(1, away0 killed)], grids := [(0, lowGrid true)] }
def paused0 (agent : Nat) (entry : Option Nat) : Paused :=
  { agent := agent, sub := 0, key := 1, who := { asid := 1, part := 0, grid := 0, gid := 0, index := 0, tag := 1 },
    cause := .demand, va := 0, resume_ := 0, sel := 0, entry := entry }
def acked (agent ack : Nat) (s : State) : State :=
  { s with paused := [paused0 agent (some 0x5000)], mem := s.mem.store 0x5010 (leBytes 8 ack) }

theorem witness_LeavingCores :
    (∀ r : Bool, let s := contested r
      s.grid? 1 = some highGrid ∧ highGrid.cls = 0 ∧ highGrid.unplaced = true ∧ highGrid.coop = false ∧
      s.placeNext 1 = none ∧ s.victim highGrid.part = some (0, quietCrew) ∧ s.grid? quietCrew.grid = some (lowGrid r) ∧
      (s.mapGangs 0 Gang.wake).killable 0 quietCrew (lowGrid r).kernel = r) ∧
    ((asked0 (2 ^ 20)).crew? 0 = some askedCrew ∧ 0 + 2 ^ 20 ≤ (asked0 (2 ^ 20)).clk.refc ∧
      (asked0 (2 ^ 20 - 1)).crew? 0 = some askedCrew ∧ (asked0 (2 ^ 20 - 1)).clk.refc < 0 + 2 ^ 20) ∧
    (doomed0.crew? 0 = some quietCrew ∧ doomed0.grid? quietCrew.grid = some (lowGrid true) ∧ doomed0.doomed 0 = true ∧
      (lowGrid true).stopped = false ∧ (∀ x ∈ quietCrew.live, doomed0.mayKill x = true) ∧
      doomed0.killable 0 quietCrew (lowGrid true).kernel = true ∧
      (let u := quietCrew.live.foldl State.quench doomed0
       u.crew? 0 = some quietCrew ∧
       (u.ctxWrites (u.crewWho 0 quietCrew) (killWrites quietCrew (u.crewGangs quietCrew) (lowGrid true).kernel)).isOk = true)) ∧
    (∀ k : Bool, (gone0 k).away.get? 1 = some (away0 k) ∧ (gone0 k).running (away0 k).crew.grid = true ∧
      (gone0 k).heldBack (away0 k) = false ∧ (gone0 k).paused = []) ∧
    (let s := acked 0 1 (gone0 true)
     s.away.get? 1 = some (away0 true) ∧ s.heldBack (away0 true) = false ∧
     s.paused.find? (fun p => p.agent == 0 && p.key == 1) = some (paused0 0 (some 0x5000)) ∧
     word64 (s.readPa (0x5000 + 0x10) 8) = 1) ∧
    ((∀ e ∈ gs.grids, e.2.id ≠ (7#64).setWidth 32) ∧
      gs.grids.find? (fun e => e.2.id == (0#64).setWidth 32) = some (0, placedGrid)) := by
  decide +kernel

/-- A starter; a copy of 64 bytes from memory to berth 0, between berths of two cores, or from berth 1 to memory. -/
def starter0 : Starter := { asid := 1, part := 0, grid := 0, gid := 0, index := 0, tag := 1 }
def copyBytes (src dst kinds : Nat) : List Byte :=
  leBytes 64 (src + dst * 2 ^ 64 + kinds * 2 ^ 128 + 64 * 2 ^ 256 + 2 ^ 288 + 63 * 2 ^ 408)
def copy0 (desc : List Byte) (done : Nat) (failed : Option Trap) (part : Option CopyPart) : Copy :=
  { id := 0, crew := 0, who := starter0, addr := 0x1140, desc := desc, done := done, paid := 0, part := part, dtag := none,
    ended := false, work := [], paused := false, failed := failed }
def copying (c : Copy) : State := gs.setCluster 0 { gs.cluster 0 with copies := [c] }
def inward : List Byte := copyBytes 0x1000 0 (2 ^ 38)
def outward : List Byte := copyBytes 128 0x6000 (2 ^ 40)
def across : List Byte := copyBytes 128 0x4000 (2 ^ 40 + 2 ^ 38)
def part0 : CopyPart := { len := 64, moved := 0, src := none, dst := none, line := none }

/-- The attempt is made. -/
def made {α : Type} : UnitEnd α → Bool
  | .done _ => true
  | .waits _ | .demand _ | .fails _ => false

/-- The sort engine of die 0 at a command at va whose descriptor, and whose steps, are known or not. -/
def sort0 (va : W64) (desc : List Byte) (work : Option (List UnitStep)) : SortJob :=
  { who := starter0, addr := va, desc := desc, work := work }
def sorting0 (j : SortJob) : State := gs.setDie 0 { gs.die 0 with sorting := some j }
def step0 : UnitStep := .add 0x1158 4 1 false

/-- The descriptor of the command in work can be read. -/
def sortReads (va : W64) : Bool :=
  let j := sort0 va [] none
  let s := sorting0 j
  decide ((s.die 0).sorting = some j) && !s.isPaused (sortPoster 0)
    && made (s.tryAct (sortOp 0 j) (s.unitLoad (sortOp 0 j) va 64))

theorem witness_EngineEvents_parts :
    (∀ d ∈ [inward, outward, across], let s := copying (copy0 d 0 none none)
      (s.cluster 0).copies[0]? = some (copy0 d 0 none none) ∧ s.gated 0 = false ∧ s.inLighter 0 0 = true ∧
      0 < (copyDesc d).total) ∧
    ((copying (copy0 inward 0 none (some part0))).cluster 0).copies[0]? = some (copy0 inward 0 none (some part0)) ∧
    (copyDesc across).skind = 1 ∧ (copyDesc across).dkind = 1 ∧ (copyDesc inward).skind = 0 ∧ (copyDesc inward).dkind = 1 ∧
    (copyDesc outward).skind = 1 ∧ (copyDesc outward).dkind = 0 ∧
    (let s := copying (copy0 across 0 none none)
     s.spoisoned (s.padBase 0 (copyDesc across).src + 64 * endOff (copyDesc across).src) (copyDesc across).image = false) := by decide +kernel

theorem witness_EngineEvents_ends :
    (∀ f ∈ [none, some { code := .page }], let c := copy0 inward 64 f none
      let w : Copy := { c with ended := true, work := [step0] }
      (copying c).copyWaits 0 0 = false ∧ (copying { c with ended := true }).copyWaits 0 0 = false ∧
      ((copying w).cluster 0).copies[0]? = some w ∧ made ((copying w).tryStep (copyOp 0 w) step0) = true) ∧
    gs.gated 0 = false ∧ (copyDesc inward).total = 64 ∧ (copyDesc outward).total = 64 ∧
    (let o := copyOp 0 (copy0 inward 0 none none)
     (match gs.xlate o.agent 0x1158 true with
      | .ok x => x.home == gs.ident.pkg && !(gs.atHome x).poisoned x.pa 4
      | .error _ => false) = true) := by decide +kernel

theorem witness_EngineEvents_sorts :
    (let s := gs.setDie 0 { gs.die 0 with sortQ := [sort0 0x1140 [] none] }
     (s.die 0).sorting = none ∧ (s.die 0).sortQ = [sort0 0x1140 [] none] ∧ s.hasSort 0 = true) ∧
    sortReads 0x1140 = true ∧ sortReads 0x1100 = true ∧
    sortBad (gs.mem.bytes 0x1140 64) = false ∧ sortBad (gs.mem.bytes 0x1100 64) = true ∧
    (let j := sort0 0x1140 (List.replicate 64 0) none
     made ((sorting0 j).tryAct (sortOp 0 j) ((sorting0 j).sorted (sortOp 0 j) j.desc)) = true) ∧
    (let j := sort0 0x1140 (List.replicate 64 0) (some [step0])
     made ((sorting0 j).tryStep (sortOp 0 j) step0) = true) := by decide +kernel

theorem witness_EngineEvents_faults :
    (let s : State := { gs with paused := [paused0 1 none], xlat := { gs.xlat with fqbase := 0x5000, fqsize := 4 } }
     s.paused[0]? = some (paused0 1 none) ∧ s.xlat.room = true ∧ s.populated s.xlat.next 32 = true) ∧
    (∀ a ∈ [1, 2, 3], let s := acked 1 a gs
      s.paused[0]? = some (paused0 1 (some 0x5000)) ∧
      word64 ((s.atHome (s.plainAt 0x5000)).readPa 0x5010 8) = BitVec.ofNat 64 a) := by decide +kernel

/-- Memory with a pool of four rays at 0x9000, whose records lie at 0xA000 and of which ray 0 is in use; its parameter block
of one view of one tile at 0x9100; and a projection job of that block at 0x9200. -/
def renderMem : Memory :=
  [(0x9000, leBytes 64 (0xA000 + 0xB000 * 2 ^ 64 + 0xC000 * 2 ^ 128 + 4 * 2 ^ 256 + 2 ^ 288 + 0xFFFFFFFF * 2 ^ 320 + 0x9100 * 2 ^ 384)),
   (0x9100, leBytes 64 1), (0x91B8, leBytes 4 0x10001), (0x9208, leBytes 8 0x9100), (0x9230, [1]),
   (0xA010, leBytes 4 0x3F800000), (0xA024, leBytes 4 (2 ^ 24))].foldl (fun (m : Memory) (e : Nat × List Byte) => m.store e.1 e.2) gs.mem
def rendered : State := { gs with mem := renderMem }
def rendering (c : Cluster → Cluster) : State := rendered.setCluster 0 (c (gs.cluster 0))

/-- A projection entry of item 0, what is read of its block, and the item. -/
def proj0 : ProjEntry :=
  { who := starter0, items := [0], addr := 0x9200, point := false, block := none, item := none }
def block0 : ProjBlock :=
  { job := renderMem.bytes 0x9200 128, head := renderMem.bytes 0x9100 64, views := [(0, renderMem.bytes 0x9140 128)] }
def item0 : ProjItem := { splats := [], first := none, work := none, lost := false }
def projecting (b : Option ProjBlock) (x : Option ProjItem) : State :=
  rendering fun c => { c with proj := some { proj0 with block := b, item := x } }

/-- An entry of ray 0, whose payload is to be read or is not wanted; the ray, and its traversal at its root. -/
def trav0 (pb : Nat) : TravEntry :=
  { who := starter0, rays := [0], pays := [none], pool := 0x9000, pb := pb, gen := none }
def ray0 : Ray :=
  { id := 0, who := starter0, index := 0, pool := 0x9000, gen := none, payload := [], trav := none, work := none,
    lost := false, depth := 0, mapped := false }
def begun0 : Trav := { Trav.first (renderMem.bytes 0x9000 64) with rec_ := renderMem.bytes 0xA000 64 }
def hit0 : Hit := { t := rootOf (1, 1), inst := 0, prim := 0, u := (0, 1), v := (0, 1) }
def tracing0 (y : Ray) : State := rendering fun c => { c with rays := [y] }

/-- The generator of die 0 serves a ring at 0x7000 whose first slot is published or not, and has taken a slot or not. -/
def genState (valid : Nat) (g : Option GenSlot) : State :=
  { rendered with ident := { gs.ident with flock := true }, mem := renderMem.store 0x7058 (leBytes 4 (valid * 2 ^ 31)),
                  dies := [(0, { gs.die 0 with gen := true, gasid := 1, gring := 0x7000, genSlot := g })] }

/-- A job of view 0, a malformed one, and the slots that hold them. -/
def genDesc (bad : Bool) : List Byte := leBytes 64 (0x9000 + 2 ^ 256 + if bad then 2 ^ 194 else 0)
def genSlot0 (bad : Bool) (work : List UnitStep) : GenSlot := { slot := 0, job := genDesc bad, work := work, bad := false }
def genJob0 (taken : Option (W32 × Bool)) : GenJob :=
  { id := 0, desc := genDesc false, emitted := 0, finished := 0, closed := false, ready := [], taken := taken,
    head := renderMem.bytes 0x9100 64, views := [(0, renderMem.bytes 0x9140 128)], work := none }
def emitting (taken : Option (W32 × Bool)) : State :=
  (genState 0 none).setDie 0 { (genState 0 none).die 0 with jobList := [genJob0 taken] }

theorem witness_RenderUnits_projection :
    (let s := rendering fun c => { c with projQ := [proj0] }
     (s.cluster 0).proj = none ∧ (s.cluster 0).projQ = [proj0] ∧ s.hasRender 0 = true) ∧
    (let s := projecting none none
     let o := projOp 0 proj0
     (s.cluster 0).proj = some proj0 ∧ s.isPaused (projPoster 0) = false ∧
     made (s.tryAct o (s.projectBlock o proj0)) = true ∧ made (s.tryAct o (s.projectItem o proj0 block0 0)) = true ∧
     made (s.tryAct o (s.unitReserve o (proj0.addr + 0x40) 8 0)) = true ∧
     made (s.tryAct o (s.unitReserve o (proj0.addr + 0x48) 8 0)) = true ∧ made (s.tryStep o step0) = true) ∧
    (∀ x ∈ [item0, { item0 with first := some 0 }, { item0 with first := some 0, work := some [step0] },
        { item0 with first := some 0, work := some [] }],
      ((projecting (some block0) (some x)).cluster 0).proj = some { proj0 with block := some block0, item := some x }) := by decide +kernel

theorem witness_RenderUnits_traversal :
    (∀ n ∈ [0, 4], let s := rendering fun c => { c with travQ := [trav0 n] }
     (s.cluster 0).travQ = [trav0 n] ∧ s.hasRender 0 = true ∧ s.travPaused 0 = false ∧
     made (s.tryAct (travOp 0 starter0 (.travIn 0)) (s.takeEntry (travOp 0 starter0 (.travIn 0)) (trav0 n))) = true) ∧
    (let y := { ray0 with trav := some (Trav.first (renderMem.bytes 0x9000 64)) }
     let s := tracing0 y
     let o := travOp 0 starter0 (.trav 0 0)
     let x := { begun0 with chip := [0] }
     (s.cluster 0).rays[0]? = some y ∧ s.travPaused 0 = false ∧
     made (s.tryAct o (s.unitLoad o ((poolOf (renderMem.bytes 0x9000 64)).recAt 0) 64)) = true ∧
     begun0.rec_ ≠ [] ∧ begun0.over = true ∧ x.over = false ∧
     (travCtx o x 0).any (fun c => made (s.tryAct o (travStep c x s))) = true ∧ made (s.tryStep o step0) = true) ∧
    (∀ w ∈ [[], [step0]], ((tracing0 { ray0 with work := some w }).cluster 0).rays[0]? = some { ray0 with work := some w }) ∧
    ({ begun0 with spent := true }.spent = true ∧ begun0.spent = false ∧ begun0.odd = false ∧ begun0.best = none ∧
      { begun0 with best := some hit0 }.best = some hit0) := by decide +kernel

theorem witness_RenderUnits_ring :
    (∀ v ∈ [0, 1], let s := genState v none
      s.genServes 0 = true ∧ s.genPaused 0 = false ∧ (s.die 0).jobList.all (·.closed) = true ∧ (s.die 0).genSlot = none ∧
      (match s.tryAct (s.genOp 0 (.gen 0 0)) (s.readSlot (s.genOp 0 (.gen 0 0)) (s.die 0).gring) with
       | .done (g, _) => g.isSome == (v == 1)
       | .waits _ | .demand _ | .fails _ => false) = true) ∧
    (∀ bad : Bool, let g := genSlot0 bad []
      let s := genState 1 (some g)
      s.genServes 0 = true ∧ (s.die 0).genSlot = some g ∧ g.bad = false ∧
      made (s.tryStep (s.genOp 0 (.gen 0 0)) step0) = true ∧
      (match s.tryAct (s.genOp 0 (.gen 0 0)) (s.genViews (s.genOp 0 (.gen 0 0)) g.job) with
       | .done (v, _) => v.isNone == bad
       | .waits _ | .demand _ | .fails _ => false) = true) ∧
    (genSlot0 false []).refused.bad = true := by decide +kernel

/-- The job of the state stands and may emit the ray of the first pixel. -/
def mayEmit (x : Option (W32 × Bool)) : Bool :=
  let s := emitting x
  (s.die 0).jobList[0]? == some (genJob0 x) && !s.genPaused 0 && s.hasGen 0
    && (genOrder (genJob0 x).desc (genJob0 x).head (genJob0 x).views).head? == some (0, 0, 0)

theorem witness_RenderUnits_emission :
    mayEmit none = true ∧ mayEmit (some (0, false)) = true ∧ mayEmit (some (0, true)) = true := by decide +kernel

theorem witness_RenderUnits_taken : let s := emitting none
    let o := s.genOp 0 (.gen 0 1)
    (match s.tryAct o (s.takeRay o.agent (word64 (genJob0 none).desc)) with
     | .done (n, _) => n == some 1
     | .waits _ | .demand _ | .fails _ => false) = true := by decide +kernel

theorem witness_RenderUnits_pixel : let s := emitting (some (0, false))
    let o := s.genOp 0 (.gen 0 1)
    made (s.tryAct o (s.genPixel o (word64 (genJob0 none).desc) 0 (0, 0, 0))) = true := by decide +kernel

theorem witness_RenderUnits_traced : let s := emitting (some (0, true))
    let o := s.genOp 0 (.gen 0 1)
    made (s.tryAct o (s.genTrace o (word64 (genJob0 none).desc) 0)) = true := by decide +kernel

/-- A contribution on its way, a changed line, a translation and an invalidation command. -/
def tun0 (fx : Bool) : TunAdd := { core := 0, addr := 0x1000, fx := fx, val := 1 }

theorem witness_MemoryEvents :
    (∀ fx : Bool, ({ gs with tun := [tun0 fx] } : State).tun[0]? = some (tun0 fx)) ∧
    (let l : Line := { Line.new with dirty := true }
     ((gs.setLine 32 l).line 32).dirty = true ∧ ((gs.setLine 32 l).line 32).tun = false ∧
     ((gs.setLine 32 { l with tun := true }).line 32).tun = true) ∧
    (match gs.walk 0 1 0x3FFFFFFF with
     | .leaf _ bad => !bad
     | .fail _ => false) = true ∧ gs.walk 0 1 0x80000000 = .fail .absent ∧ (0x3FFFFFFF#64).toNat < 2 ^ 52 ∧
    (let s : State := { gs with xlat := { gs.xlat with cmds := [(3, 0, 0, 0)] } }
     s.xlat.cmds = [(3, 0, 0, 0)] ∧ s.reqs = [] ∧ s.partUses (3, 0, 0, 0) = false) := by decide +kernel

/-- A read or a write of 8 bytes at 0x1078 through link 1. -/
def hostReq (w : Option (List Byte)) : HostRequest := { link := 1, control := false, addr := 0x1078, write := w, len := 8 }
def attesting : State :=
  { gs with harbour := { gs.harbour with attest := { gs.harbour.attest with pending := some (List.replicate 64 0) } } }
def commanded (kop kid : Nat) : State :=
  { gs with harbour := { gs.harbour with key := { gs.harbour.key with cmds := [(kop, kid, 5)] } } }
def boxed (n : Nat) : State :=
  { gs with reports := [⟨List.replicate 128 0⟩],
            harbour := { gs.harbour with box := { gs.harbour.box with mtail := BitVec.ofNat 64 n } } }

theorem witness_HostEvents :
    (gs.linkPresent 1 = true ∧ gs.harbour.recovery = false ∧ gs.keyLoaded gs.harbour.hkey[1] = true ∧ 0x1078 % 128 + 8 ≤ 128 ∧
      gs.populated 0x1078 8 = true ∧ (hostReq (some (List.replicate 8 1))).write = some (List.replicate 8 1) ∧
      (hostReq none).write = none ∧ gs.poisoned 0x1078 8 = false) ∧
    gs.linkPresent 0 = true ∧ 0x1078 % 8 = 0 ∧
    ({ gs with ident := { gs.ident with clusters := Vector.replicate 4 0 } } : State).linkPresent 1 = false ∧
    ({ gs with harbour := { gs.harbour with recovery := true } } : State).harbour.recovery = true ∧
    ({ gs with harbour := { gs.harbour with hkey := #v[4095, 4095] } } : State).keyLoaded 4095 = false ∧
    gs.ident.flock = false ∧ ({ gs with ident := { gs.ident with flock := true } } : State).ident.flock = true ∧
    (1#64).getLsbD 0 = true ∧
    (commanded 1 4095).harbour.key.cmds = [(1, 4095, 5)] ∧ (commanded 2 1).harbour.key.cmds = [(2, 1, 5)] ∧
    (commanded 3 0).harbour.key.cmds = [(3, 0, 5)] ∧
    attesting.harbour.attest.pending = some (List.replicate 64 0) ∧
    (boxed 31).reports = [⟨List.replicate 128 0⟩] ∧ ((boxed 31).harbour.box.mtail - (boxed 31).harbour.box.mhead).toNat < 32 ∧
    32 ≤ ((boxed 32).harbour.box.mtail - (boxed 32).harbour.box.mhead).toNat := by decide +kernel

/-- Power: the hours that have passed, and the calm windows so far. -/
def powered (hours calm : Nat) : State :=
  { gs with clk := { gs.clk with hours := hours }, harbour := { gs.harbour with power := { gs.harbour.power with calm := calm } } }

/-- Every island lowered once. -/
def lowered0 : State :=
  let i : Island := { freq := 2300, mv := 0, slack := 0, temp := 0, gated := false, fenced := false, lowered := 1 }
  { powered 0 10 with harbour := { (powered 0 10).harbour with power :=
    { (powered 0 10).harbour.power with islands := (List.range 128).map fun n => (n, i) } } }

theorem witness_StartsAndPower :
    (powered 1023 0).clk.hours < (powered 1023 0).harbour.power.planned + 1024 ∧
    (powered 1024 0).harbour.power.planned + 1024 ≤ (powered 1024 0).clk.hours ∧
    (let p := lowered0.harbour.power
     min p.pcap p.pmax = 3000 ∧ p.nextDown.isSome = true ∧ p.nextUp.isSome = true ∧ 2849 * 100 < 3000 * 95 ∧ 10 ≤ p.calm + 1) ∧
    (powered 0 8).harbour.power.calm + 1 < 10 ∧ gs.harbour.power.coolantOut = false ∧
    ({ gs with harbour := { gs.harbour with power := { gs.harbour.power with coolantOut := true } } } : State).harbour.power.coolantOut
      = true ∧ gs.harbour.journal.length ≤ 4096 := by decide +kernel

/-- Link 15 up; a frame of totals in its place that verifies, or one whose tag was changed. -/
def up0 (x : Port) : State := gs.setPort 15 { x with up := true }
def frame0 (intact : Bool) : Frame :=
  let f := sealFrame 0 0 0 1 0 (List.replicate 64 0) []
  if intact then f else { f with tag := List.replicate 16 0 }

theorem witness_LinkEvents_ports :
    (let x : Port := { Port.new with nval := true }
     ((gs.setPort 15 x).port 15).trained = true ∧ ((gs.setPort 15 x).port 15).nval = true ∧
     ((gs.setPort 15 x).port 15).up = false ∧
     2 ^ 62 ≤ ((up0 { x with fctrTx := BitVec.ofNat 64 (2 ^ 62) }).port 15).fctrTx.toNat) ∧
    (gs.port 15).nval = false ∧ ({ Port.new with trained := false } : Port).trained = false ∧
    ((up0 { Port.new with failed := some (0, 2) }).port 15).failed = some (0, 2) ∧ (gs.port 15).up = false ∧
    ((up0 { Port.new with asked := some (0, 2) }).port 15).asked = some (0, 2) ∧
    ((up0 Port.new).port 15).asked ≠ some (0, 0) ∧ ((up0 Port.new).port 15).failed = none ∧
    ((up0 Port.new).port 15).rcvd.toNat < (1#64).toNat := by decide +kernel

theorem witness_LinkEvents_frames (b : Bool) : let x := (up0 Port.new).port 15
    x.up = true ∧ frameSized (frame0 b) = true ∧ frameFctr (frame0 b) = x.fctrRx ∧
    frameVerifies (frame0 b) x.rxkey x.linkid = b ∧ (up0 Port.new).frameArrives (x.packets (frame0 b)) = true ∧
    (up0 Port.new).frameArrives (frame0 b).sent = true ∧ x.spent = false ∧ x.failed = none := by
  cases b <;> decide +kernel

/-- A packet of package 1 in the ingress. -/
def pack (op : Opc) (pa : Nat) (payload : List Byte) : FabPacket :=
  { gs.packet 0 op payload with spkg := 1, pa := pa, control := false, rid := 4 }
def arrived (k : FabPacket) : State := { gs with ingress := [k] }

theorem witness_FabricRequests :
    (∀ k ∈ [pack .rd 0x1080 [], pack .wr 0x1080 (List.replicate 144 1), pack .wr 0xFFFFFFFFF80 [], pack .rd 0xFFFFFFFFF80 [],
        { pack .atm 0x1080 (atmEntry 0 120 1 0) with sz := .b64 }, { pack .red 0x1080 (atmEntry 0 124 1 0) with sz := .b32 },
        pack .blk 0x1080 (List.replicate 16 0), pack .resv 0 (leBytes 8 64)],
      k.pa % 128 = 0 ∧ ([Opc.rd, .wr, .atm, .red, .blk, .resv].any fun o => ((arrived k).take k o).isSome) = true) ∧
    gs.homeFault (pack .rd 0x1080 []) 128 = none ∧ gs.homeFault (pack .rd 0xFFFFFFFFF80 []) 128 = some 7 ∧
    gs.poisoned 0x1080 128 = false ∧ (List.replicate 144 (1 : Byte)).length = 144 ∧
    (atmEntries 40 (atmEntry 0 120 1 0)).map (·.off) = [120] ∧ (atmEntries 40 (atmEntry 0 124 1 0)).map (·.off) = [124] ∧
    entriesClean false 40 (atmEntry 0 120 1 0) = true ∧ (AtomOp.ofCode 0).toOption = some .add ∧ (RedOp.ofCode 0).toOption = some .add ∧
    (let x : Port := { Port.new with up := true, windows := [(1, 16, 1)] }
     x.covers 1 16 0 = true ∧ x.covers 1 17 0 = false ∧ x.covers 1 16 1 = false) := by decide +kernel

/-- The gang waits for request 4 to package 1, which is a read or another kind. -/
def asking (op : Opc) : State :=
  { gs with gangs := [(0, { gang0 with sc := { gangSc with wait := .remote 4 } })],
            reqs := [{ rid := 4, dst := 1, for_ := .scalar (.gang 0), line := 32, ops := [], packet := gs.packet 1 op [] }] }

theorem witness_FabricAnswers :
    (∀ e ∈ [(Opc.rdr, Opc.rd), (.wra, .wr), (.wra, .red), (.atr, .atm), (.blka, .blk), (.err, .rd), (.drop, .blk), (.rgnt, .blk)],
      let k := pack e.1 0x1080 (List.replicate 8 0)
      let s : State := { asking e.2 with ingress := [k] }
      (s.take k e.1).isSome = true ∧ (s.asked k).any (fun r => r.packet.opc == e.2.num) = true ∧
      (s.sctx (.gang 0)).any (fun c => c.wait == .remote 4) = true) ∧
    ((asking .blk).dropped (pack .drop 0x1080 (List.replicate 8 0))).isSome = true ∧
    (∀ o ∈ [Opc.mon, .wgt], ((arrived (pack o 0 (List.replicate 16 0))).take (pack o 0 (List.replicate 16 0)) o).isSome = true) ∧
    gs.homeFault (pack .wgt 0 (List.replicate 16 0)) 32 = none := by decide +kernel

/-- A chunk of the collective of packages 0 and 1 that word0 describes, from package 1 to switch 0, and its slot. -/
def word0 : W64 := BitVec.ofNat 64 (2 ^ 40)
def chunk0 : FabPacket := { pack .ctb (7 * 2 ^ 32) (List.replicate 960 0) with aux2 := word0, sw := 0, tout := 1 }
def slot0 (closed : Option Nat) : Slot :=
  { id := 3, sw := 0, plane := collPort word0, cid := 7, word := word0, tout := 0, opened := 0,
    parts := [(0, { src := 0, data := [], nanc := 0, rank := 0, miss := 0 })], passed := [], results := [], late := [],
    sent := 0, closed := closed }
def slotted (c : Option Nat) : State := { gs with slots := [slot0 c] }
def arrival0 : Arrival := { pkg := 0, crew := 0, asid := 1, gang := some 0, rid := 0, pa := 0xA000 }

theorem witness_CollectivesAndBarriers :
    ((gs.takeCtb chunk0).isSome = true ∧ ((slotted none).takeCtb chunk0).isSome = true ∧
      (slotted none).slot? 0 (collPort word0) 7 = some (slot0 none) ∧
      ((slotted none).intoSlot (slot0 none) chunk0 0).isSome = true ∧ gs.slot? 0 (collPort word0) 7 = none ∧
      (gs.openSlot chunk0).any (fun e => (e.2.intoSlot e.1 chunk0 0).isSome) = true) ∧
    (∀ o : Fin 3, collTy (BitVec.ofNat 64 (2 ^ 30 + o.val * 2 ^ 32)) = 1 ∧
      collOpc (BitVec.ofNat 64 (2 ^ 30 + o.val * 2 ^ 32)) = o.val) ∧
    (∀ o ∈ [Opc.crs, .closed], ((arrived (pack o 0 [])).take (pack o 0 []) o).isSome = true) ∧
    ((slotted none).slots.find? (fun x => x.id == 3) = some (slot0 none) ∧
      (slot0 none).tout ≤ (slotted none).clk.link - (slot0 none).opened ∧ (slot0 none).chunks.filter (slot0 none).isOpen ≠ [] ∧
      (slotted (some 0)).slots.find? (fun x => x.id == 3) = some (slot0 (some 0)) ∧ (slot0 (some 0)).closed ≠ none) ∧
    (({ gs with arrivals := [arrival0] } : State).arrivals[0]? = some arrival0 ∧
      ({ gs with waiting := [arrival0] } : State).waiting[0]? = some arrival0 ∧ (gs.fbarAt 0xA000).arr = 0) := by
  decide +kernel

/-! ## Witnesses: the step, memory and streams -/

/-- The package right after reset, with one instruction placed: `smovi s3, 10`, the pilot's `mfence.cluster`, or a lane
`iadd`. -/
def placedScalar : State := State.reset.withFetchWord 32 0x1C18000A
def placedPilot : State := State.reset.withFetchWord 64 0x1F4000002
def placedLane : State := State.reset.withFetchWord 96 0x004370004048080200000001

theorem witness_StepRuns :
    placedScalar.agenda = placedTurn (.gang 0) ∧ placedLane.agenda = placedTurn (.lane 0 0) ∧
    (let t := (placedScalar.turn.2.takePort (.gang 0)).2
     placedScalar.turn.2.scalarReady (.gang 0) = true ∧ (placedScalar.turn.2.takePort (.gang 0)).1 = true ∧ (t.sctx (.gang 0)).any (fun c => c.pc.toNat % 4 == 0) = true ∧
     (match { t with cur := .gang 0 }.fetchScalar (.gang 0) 0x100 with
      | .ok (w, w1, _) => (decodeScalar w w1).toOption == some (.smovi 3 10)
      | .error _ => false) = true ∧
     (t.fetchBytes (.gang 0) (.scalar (.gang 0)) 0x100 4).isOk = true) ∧
    (let t := (placedPilot.turn.2.takePort (.pilot 0)).2
     placedPilot.turn.2.scalarReady (.pilot 0) = true ∧ (placedPilot.turn.2.takePort (.pilot 0)).1 = true ∧
     (match { t with cur := .pilot 0 }.fetchScalar (.pilot 0) 0x100 with
      | .ok (w, w1, _) => (decodeScalar w w1).toOption == some (.mfence .cluster)
      | .error _ => false) = true ∧
     (t.fetchBytes (.pilot 0) (.scalar (.pilot 0)) 0x100 4).isOk = true ∧ 0x70 ≤ 0xF4000002 / 2 ^ 25 % 2 ^ 7) ∧
    (let t := placedLane.turn.2
     t.laneReady 0 0 = some (0, 0) ∧ (t.gang? 0).any (fun y => y.lpc[(0 : Fin 2)].live && y.lpc[(0 : Fin 2)].index == 0) = true ∧
     (match { t with cur := .lane 0 0 }.fetchLane (.gang 0) (.slot 0 0) 0x200 with
      | .ok (w, _) => (decodeLane w).toOption.any (·.laneInfo.isSome)
      | .error _ => false) = true) ∧
    ({ gs with agenda := placedTurn (.event .mailboxPost) } : State).turn.1 = .event .mailboxPost ∧
    isEvent .mailboxPost = true ∧ (gs.access (gs.who (.gang 0)) 0x100 4 false false).isOk = true := by decide +kernel

theorem witness_DecodeEncode : Instr.wf (.smovi 3 10) = true ∧ Instr.wf .mailboxPost = true := by decide

theorem witness_MemoriesStayCanonical : State.canonical placedScalar ∧ ∃ t, step placedScalar = .next t := by
  refine ⟨by unfold State.canonical; decide +kernel, ?_⟩
  have h : (match step placedScalar with
    | .next _ => true
    | .fault _ | .refused _ => false) = true := by decide +kernel
  cases hs : step placedScalar with
  | next t => exact ⟨t, rfl⟩
  | fault _ => rw [hs] at h; cases h
  | refused _ => rw [hs] at h; cases h

theorem witness_StoreFrame : gs.sctx (.gang 0) = some gangSc ∧ Issues gs (.gang 0) gangSc ∧ Writable gs (.gang 0) 3 ∧
    gangSc.wait = .none ∧ (gangSc.s[5] + (120#13).signExtend 64).toNat % 8 = 0 ∧
    (∀ w : Bool, gs.xlate (gs.who (.gang 0)) (gangSc.s[5] + (120#13).signExtend 64) w =
      .ok { pa := 0x1078, home := 0, key := 0, rc := false, cache := 0 }) ∧
    (∀ w : Bool, gs.xlate (gs.who (.gang 0)) (gangSc.s[5] + (127#32).signExtend 64) w =
      .ok { pa := 0x107F, home := 0, key := 0, rc := false, cache := 0 }) ∧
    gs.ident.pkg = 0 ∧ gs.tun = [] ∧ gs.lines = [] ∧
    (gs.plainStore (gs.who (.gang 0)) (gangSc.s[5] + (120#13).signExtend 64) (leBytes 8 7)).isOk = true ∧
    (gs.plainStore (gs.who (.gang 0)) (gangSc.s[5] + (127#32).signExtend 64) (leBytes 1 7)).isOk = true ∧
    (gs.plainLoad (gs.who (.gang 0)) (gangSc.s[5] + (120#13).signExtend 64) 8).isOk = true ∧
    (gs.plainLoad (gs.who (.gang 0)) (gangSc.s[5] + (127#32).signExtend 64) 1).isOk = true :=
  ⟨by decide +kernel, issues_gang, writable_gang 3, rfl, by decide +kernel, fun w => okIs _ _ (by cases w <;> decide +kernel),
    fun w => okIs _ _ (by cases w <;> decide +kernel), by decide +kernel⟩

/-- The machine whose partition declines every feature. -/
def declined (s : State) : State := { s with launch := { s.launch with pf := Vector.replicate 4 0 } }

theorem witness_StreamKinds : Issues ps (.pilot 0) pilotSc ∧ Issues gs (.gang 0) gangSc ∧ Traps gs (.gang 0) ∧
    Issues (declined gs) (.gang 0) gangSc ∧ Traps (declined gs) (.gang 0) ∧
    Issues (declined ps) (.pilot 0) pilotSc ∧ Traps (declined ps) (.pilot 0) ∧
    (∀ f ∈ [Feature.fabric, .lut4, .sparse, .blockfp], (declined gs).hasFeature (.gang 0) f = false ∧
      (declined ps).hasFeature (.pilot 0) f = false) :=
  ⟨issues_pilot, issues_gang, traps_gang, by unfold Issues Traps; decide +kernel⟩

/-! ## Witnesses: faults at issue, frames and the arithmetic of the accumulators -/

theorem witness_TransferTraps_range : gangSc.s[10].toNat % 4 = 0 ∧ gs.inText (.gang 0) gangSc.s[10] = false ∧
    Writable gs (.gang 0) 3 ∧ (gangSc.k[0] ^^ false) = true :=
  ⟨by decide +kernel, by decide +kernel, writable_gang 3, by decide +kernel⟩

theorem witness_ScalarAlign_descriptors : Issues gs (.gang 0) gangSc ∧ Traps gs (.gang 0) ∧ gangSc.s[6].toNat % 8 ≠ 0 ∧
    gangSc.s[6].toNat % 64 ≠ 0 ∧ Accepted gs (.gang 0) [.fabric] ∧ Settled gs (.gang 0) ∧ Unbegun gangSc ∧
    (gs.issuerGridOf (.gang 0)).isSome = true ∧ Issues ps (.pilot 0) pilotSc ∧ Traps ps (.pilot 0) ∧
    pilotSc.s[6].toNat % 128 ≠ 0 ∧ (gangSc.s[6] + (8#24).signExtend 64).toNat % 8 ≠ 0 :=
  ⟨issues_gang, traps_gang, by decide +kernel, by decide +kernel, by unfold Accepted; decide +kernel, settled_gang, .inl rfl,
    by decide +kernel, issues_pilot, by unfold Traps; decide +kernel, by decide +kernel⟩

/-- The gang in handler mode, with the record of a lane word's trap at TRAPSLOT: LANE and DONE are set. -/
def doneRecord : State :=
  let s := gsWith trapped0
  { s with mem := s.mem.store 0x10000 (leBytes 64 (2 ^ 12 + 2 ^ 15)) }

/-- The gang at the end of a save routine that its crew's pre-emption asked for, or that nobody asks for any more; gang 1 of
the crew has still to park. -/
def saving0 : Gang := { gang0 with sc := { gangSc with mode := some (.save 1) } }
def saving (p : Option PreReq) : State :=
  ((gsWith saving0).setCrew 0 { crew0 with preempt := p, gangs := [some 0, some 1] }).setGang 1 (Gang.start 0 1 gangSc)

theorem witness_TrapReturn_lane : Issues doneRecord (.gang 0) trapped0.sc ∧ trapped0.sc.mode = some .trap ∧
    (∀ n, Routine.trap ≠ .save n) ∧ doneRecord.gang? 0 = some trapped0 ∧
    doneRecord.ctxLoad (doneRecord.who (.gang 0)) trapped0.sc.trapslot 64 = .ok (leBytes 64 (2 ^ 12 + 2 ^ 15)) ∧
    (word64 (leBytes 64 (2 ^ 12 + 2 ^ 15))).getLsbD 12 = true ∧ (word64 (leBytes 64 (2 ^ 12 + 2 ^ 15))).getLsbD 15 = true :=
  ⟨by unfold Issues; decide +kernel, rfl, fun _ h => (by cases h), by decide +kernel, okIs _ _ (by decide +kernel),
    by decide +kernel⟩

theorem witness_TrapReturn_park :
    (∀ p, Issues (saving p) (.gang 0) saving0.sc ∧ (saving p).gang? 0 = some saving0 ∧
      (saving p).crew? 0 = some { crew0 with preempt := p, gangs := [some 0, some 1] }) ∧
    saving0.sc.mode = some (.save 1) ∧ (saving none).storesOut (.gang 0) = false ∧
    (saving (some ⟨0⟩)).storesOut (.gang 0) = false ∧
    1 ∈ ({ crew0 with gangs := [some 0, some 1] } : Crew).live ∧
    ((saving (some ⟨0⟩)).gang? 1).any (fun z => z.parked.isNone) = true := by
  refine ⟨fun p => ⟨⟨rfl, rfl⟩, rfl, rfl⟩, rfl, by decide +kernel, by decide +kernel, by decide +kernel, by decide +kernel⟩

/-- The gang, which waits for its contribution to a tile whose row 2 holds the mantissa 100. -/
def accGang : Gang := { gang0 with sc := { gangSc with wait := .acc } }
def accState : State := (gsWith accGang).setCrew 0 { crew0 with tiles := [tile0, tile1] }

theorem witness_AccumulatorPort_jobs :
    accState.crew? 0 = some { crew0 with tiles := [tile0, tile1] } ∧ [tile0, tile1][1]? = some tile1 ∧
    accState.sctx (.gang 0) = some accGang.sc ∧ accGang.sc.wait = .acc ∧ 2 + 1 ≤ 64 ∧
    (tile1.row 2).empty = false ∧ (tile1.row 2).exp < 0 ∧ -512 ≤ (tile1.row 2).exp + 511 ∧ (tile1.row 2).exp + 511 ≤ 511 ∧
    511 < (tile1.row 2).exp + 1023 ∧ (tile1.row 2).exp - 1023 < -512 := by
  refine ⟨by decide +kernel, by decide +kernel, by decide +kernel, rfl, by decide, by decide +kernel⟩

/-- A row whose element 5 is the greatest mantissa, at an exponent; and a product of 3 * 2^-7 or of 2^511 for it. -/
def fullTile (e : Int) : Tile :=
  { rows := [(2, { exp := e, head := 0, empty := false, m := [(5, 2 ^ 47 - 1)] })], events := 0, drops := 0 }
def batch1 : Batch := { batch0 with products := [{ elem := 5, sig := 1, exp := 511 }] }

/-- Row 2 takes the batch at a shift of 1 and not at one of 0. -/
theorem witness_AccumulatorBatch_renorm :
    (∀ j, j < 64 → -(2 ^ 47) ≤ roundShift (((fullTile (-15)).row 2).mant j) 1 + (batch0.sums (-14)).getD j 0 ∧
      roundShift (((fullTile (-15)).row 2).mant j) 1 + (batch0.sums (-14)).getD j 0 < 2 ^ 47) ∧
    ¬(roundShift (((fullTile (-15)).row 2).mant 5) 0 + (batch0.sums (-15)).getD 5 0 < 2 ^ 47) := by decide +kernel

/-- At exponent 511 that shift passes the greatest exponent, so that the batch is dropped. -/
theorem witness_AccumulatorBatch_drop :
    (∀ j, j < 64 → -(2 ^ 47) ≤ roundShift (((fullTile 511).row 2).mant j) 1 + (batch1.sums 512).getD j 0 ∧
      roundShift (((fullTile 511).row 2).mant j) 1 + (batch1.sums 512).getD j 0 < 2 ^ 47) ∧
    ¬(roundShift (((fullTile 511).row 2).mant 5) 0 + (batch1.sums 511).getD 5 0 < 2 ^ 47) ∧ ((511 : Int) < 511 + 1) := by
  decide +kernel

/-- Values at which the clauses of the special functions meet: -1 is a negative integer, 0.25 a quarter turn, 2^23 a value
with no fraction. -/
theorem witness_LaneSpecial_values :
    f32v 0xBF800000 = .fin true (2 ^ 23) (2 ^ 23) ∧ f32v 0x3E800000 = .fin false (2 ^ 23) (2 ^ 25) ∧
    4 * 2 ^ 23 % (2 * 2 ^ 25) = 2 ^ 25 ∧ (f32v 0x7FC00000 = .nan) := by decide +kernel

/-- The conversions' clauses meet values: an FX64 input of -1, a block with a NaN, an infinity or zeros only. -/
theorem witness_LaneConversions_values :
    (f32v 0x3F800000).shift 32 = .fin false (2 ^ 55) (2 ^ 23) ∧ f32v 0xFF800000 = .inf true ∧
    (maxMag [.inf true]) = .inf true ∧ (maxMag [Ex.ofInt 3]) = .fin false 3 1 := by decide +kernel

/-- The memory whose first page is tun-eligible. -/
def tunState : State := { gs with mem := gs.mem.store 0x3004000C [0xF5] }

/-- The word at 0x1000 is on such a page, or on one that is not. -/
theorem witness_LaneAtomicEffect_tun :
    (match tunState.access (tunState.who (.gang 0)) 0x1000 8 true true with
      | .ok (x, t) => x.cache == 2 && !t.poisoned x.pa 8
      | .error _ => false) = true ∧
    (match gs.access (gs.who (.gang 0)) 0x1000 4 true true with
      | .ok (x, _) => x.cache != 2
      | .error _ => false) = true := by decide +kernel

/-- v2 and v3 hold the address 2^52, v8 and v9 the handles of berths 2 and 1, which the pilot and the crew hold; the region
counts 4,096 bytes. -/
def faultGang : Gang :=
  { laneGang with v := ((laneGang.v.set 3 (laneConst 0x00100000)).set 8 (laneConst 256)).set 9 (laneConst 128), region := 4096 }
def faulty : State :=
  (laneWith faultGang).setGrid 0 { placedGrid with kernel := { placedKernel with replay := true } }

theorem stands_faulty : Stands faulty faultGang := by constructor <;> decide +kernel

/-- Each word issues, and its fault would be delivered. -/
def Faulting (l : List Instr) : Prop := ∀ i ∈ l, LaneIssues faulty i false faultGang (ctxOf faulty faultGang i) faulty

theorem faulting {l : List Instr} (h : (l.all fun i => laneOk faulty faultGang i false) = true) : Faulting l :=
  fun i hi => issuesLane stands_faulty i false (List.all_eq_true.mp h i hi)

/-- A decision that a condition holds first in lane 0. -/
theorem lowest0 (c : LaneCtx) (bad : Fin 32 → Prop) (h : c.en.getLsbD 0 = true) (hb : bad 0) : Lowest c bad 0 :=
  ⟨h, hb, fun l hl => absurd hl (by omega)⟩

def ld0 : Instr := .ld ht 4 .b64 false (.v 10) (.v 0) .zero
def ld1 : Instr := .ld ht 0 .b64 false (.v 10) (.v 2) .zero
def st0 : Instr := .st h0 8 .b64 (.v 0) .zero (.v 4)

theorem witness_LaneFaults_memory : Faulting [ld0, ld1, st0, .atomX h0 4 false 0 false .device .zero (.v 0) (.v 4)] ∧
    LaneTraps faulty 0 faultGang ∧ faulty.replayable 0 = true ∧
    (let c := ctxOf faulty faultGang ld0
     Lowest c (fun n => (vaAt c 4 n).toNat % 8 ≠ 0) 0 ∧ Lowest c (fun n => (atAt c 4 n).toNat % 8 ≠ 0) 0) ∧
    (let c := ctxOf faulty faultGang ld1
     let va (n : Fin 32) : W64 := c.opd64 (.v 2) n + (c.opd .zero n).signExtend 64 + (0#16).signExtend 64
     (∀ n, (va n).toNat % 8 = 0) ∧ Lowest c (fun n => 2 ^ 52 ≤ (va n).toNat) 0) ∧
    (let c := ctxOf faulty faultGang st0
     (∀ n, (vaAt c 8 n).toNat % 8 = 0) ∧ 4096 < faultGang.region + maskCount c.en * 8) :=
  ⟨faulting (by decide +kernel), by unfold LaneTraps; decide +kernel, by decide +kernel,
    ⟨lowest0 _ _ (by decide +kernel) (by decide +kernel), lowest0 _ _ (by decide +kernel) (by decide +kernel)⟩,
    ⟨by decide +kernel, lowest0 _ _ (by decide +kernel) (by decide +kernel)⟩, by decide +kernel⟩

/-- Places 1, 8,192 and 0 of a berth of 8,192 bytes; the pilot's berth; a full one, which takes no store. -/
theorem witness_LaneFaults_pad :
    Faulting [.lds ht 1 .b32 false (.v 10) (.v 4) .zero, .lds ht 8192 .b32 false (.v 10) (.v 4) .zero,
      .lds ht 0 .b32 false (.v 10) (.v 8) .zero, .sts ht 0 .b32 (.v 9) .zero (.v 4)] ∧
    (let c := ctxOf faulty faultGang (.lds ht 0 .b32 false (.v 10) (.v 8) .zero)
     ((c.opd .zero 0).toNat + (1#16).toInt : Int) % 4 ≠ 0 ∧
     (padEntry faulty c (.v 4) 0).any (fun x => decide (64 * x.size < 8192 + 4)) = true ∧
     (padRef faulty c (.v 8) 0).any (fun x => !padOwner faulty 0 false x.entry) = true ∧
     (padRef faulty c (.v 9) 0).any (fun x => padOwner faulty 0 true x.entry && x.entry.state != .filling) = true) :=
  ⟨faulting (by decide +kernel), by decide +kernel⟩

/-- A control word issues on a stack, which can be read. -/
def onStack (es : List DEntry) (i : Instr) (ctl : Bool) : Bool := pathsOk es off1 i ctl (fun _ p => p)

/-- The targets of a kernel of four words, a full stack, and stacks with no entry of the kind that a word needs. -/
theorem witness_LaneFaults_control :
    placedKernel.laneCount = 4 ∧ placedKernel.capacity = 16 ∧
    ([Instr.bra hE1 4 2, .bra hE1 3 4, .braLoop hE 2 4, .call hE 4, .brk hE1, .cont hE1, .join hE, .joinLatch hE].all
      fun i => onStack [] i true) = true ∧ onStack [] (.ret hE1) false = true ∧
    onStack [loopEntry, callEntry] (.brk hE1) true = true ∧
    ([Instr.bra hE1 3 2, .braLoop hE 2 3, .call hE 3].all fun i =>
      laneOk (stackedState (List.replicate 16 joinEntry) off1) (stacked (List.replicate 16 joinEntry) off1) i true) = true ∧
    ((stackedState (List.replicate 16 joinEntry) off1).dstack 0).toOption = some (List.replicate 16 joinEntry) ∧
    LaneTraps (stackedState [] off1) 0 (stacked [] off1) := by
  refine ⟨rfl, by decide +kernel, by decide +kernel, by decide +kernel, by decide +kernel, by decide +kernel,
    by decide +kernel, ?_⟩
  unfold LaneTraps; decide +kernel

/-- Results that land: lanes 0 and 1 of v8 and lane 0 of p2. -/
def landing : List LaneWrite :=
  [{ dst := .v 8, mask := 3, vals := laneConst 7 }, { dst := .p 2, mask := 1, vals := laneConst 1 }]

theorem witness_StoreFrame_lanes :
    ls.gang? 0 = some laneGang ∧ (3#32).getLsbD 1 = true ∧ (8 : VReg).val < 64 ∧ (2 : PReg).val < 7 ∧
    ((ls.complete 0 landing 1).vreg 0 8)[(1 : Fin 32)] = 7 ∧ ((ls.complete 0 landing 1).vreg 0 8)[(2 : Fin 32)] = 0 ∧
    (let i : Instr := .iadd h0 .i32 false (.v 8) (.v 0) (.imm 1)
     let c := ctxOf ls laneGang i
     ((ls.skipChoice c.view).pushResult c { writes := landing, push := none }).isSome = true) ∧
    (let i : Instr := .st h0 0 .b64 (.v 0) .zero (.v 2)
     let c := ctxOf ls laneGang i
     (ls.wordEffects c { held := some 16 } (c.ops fun _ => .store 0x1000 false (leBytes 8 7))).isOk = true) := by decide +kernel

/-- A gang in which the first faults of a lane word meet: it declines nothing, has no block and no queue bound, checks stalls,
and a result for v8 is still to land. -/
def firstGang : Gang :=
  { laneGang with chk := true, fix := [{ writes := landing, landAt := 5, token := 0 }],
                  arm := some { count := 2, len := 1, start := 0, active := true, left := 1 } }
def firstState : State := laneWith firstGang

theorem witness_StreamKinds_lanes :
    firstState.cur = .lane 0 0 ∧ firstState.gang? 0 = some firstGang ∧ LaneTraps firstState 0 firstGang ∧
    firstGang.lpc[(0 : Fin 2)].live = true ∧ firstGang.lpc[(0 : Fin 2)].earliest ≤ firstState.clk.arith ∧
    firstGang.lpc[(0 : Fin 2)].wait = .none ∧ firstGang.lpc[(0 : Fin 2)].fresh = false ∧
    firstState.landFix 0 firstState.clk.arith = firstState ∧
    (declined firstState).hasFeature (.gang 0) .render = false ∧ (declined firstState).hasFeature (.gang 0) .blockfp = false ∧
    (declined firstState).landFix 0 firstState.clk.arith = declined firstState ∧
    (declined firstState).gang? 0 = some firstGang ∧
    laneFeature (.hitq ht 8 5 (.v 2)) = some .render ∧ laneFeature (.hdm16 h0 (.v 8) 0) = none ∧
    ((Instr.exit hE).laneInfo.map (·.ends)) = some true ∧ firstGang.ext = none ∧
    ((Instr.popc h0 (.v 64) (.v 0)).laneInfo.map fun l => (wordNames l).any fun x => x == .v 64) = some true ∧
    ((Instr.popc h0 (.q 4) (.v 0)).laneInfo.map fun l => l.push) = some (some 4) ∧ (firstGang.bound 4).1 = 0 ∧
    ((Instr.popc h0 (.v 8) (.v 0)).laneInfo.map (stallShort firstGang)) = some true := by
  refine ⟨by decide +kernel, by decide +kernel, by unfold LaneTraps; decide +kernel, ?_⟩
  decide +kernel

end Sys2Proof.Tests
end

section
/-! The register forms of the scalar ALU: what the words compute on integers, and the one rule by which each completes. -/

namespace Sys2Proof.Machine

/-- The rule of a register form: an instruction that is `scalarReg` writes the value of its function of the registers. -/
theorem exec_scalarReg_wrote {s : State} {a : Issuer} {c : ScalarCtx} {i : Instr} {n : Nat} {d : SReg}
    {f : ScalarCtx → W64} {v : W64} (hi : Issues s a c) (hw : Writable s a d) (he : exec i s = scalarReg s n d f)
    (hf : f c.rechecked = v) : exec i s = .next (wrote s a c n d v) := by
  obtain ⟨hcur, hctx⟩ := hi
  rw [he, scalarReg_next hcur hctx hw, hf, wrote]

/-! ## Values as integers modulo 2^64 (R130) -/

theorem sub_eq_ofInt_toInt_sub (p q : W64) : p - q = BitVec.ofInt 64 (p.toInt - q.toInt) := by
  apply BitVec.eq_of_toInt_eq
  rw [BitVec.toInt_sub, BitVec.toInt_ofInt]

theorem add_eq_ofNat_toNat_add (p q : W64) : p + q = BitVec.ofNat 64 (p.toNat + q.toNat) := by
  simp [BitVec.ofNat_add]

theorem mul_eq_ofNat_toNat_mul (p q : W64) : p * q = BitVec.ofNat 64 (p.toNat * q.toNat) := by
  simp [BitVec.ofNat_mul]

theorem smaller_unsigned (p q : W64) : smaller true p q = BitVec.ofNat 64 (min p.toNat q.toNat) := by
  by_cases h : p.toNat ≤ q.toNat
  · rw [Nat.min_eq_left h, BitVec.ofNat_toNat, BitVec.setWidth_eq]
    exact if_pos h
  · rw [Nat.min_eq_right (Nat.le_of_not_le h), BitVec.ofNat_toNat, BitVec.setWidth_eq]
    exact if_neg h

theorem smaller_signed (p q : W64) : smaller false p q = BitVec.ofInt 64 (min p.toInt q.toInt) := by
  by_cases h : p.toInt ≤ q.toInt
  · rw [Int.min_eq_left h, BitVec.ofInt_toInt]
    exact if_pos h
  · rw [Int.min_eq_right (Int.le_of_not_le h), BitVec.ofInt_toInt]
    exact if_neg h

theorem larger_unsigned (p q : W64) : larger true p q = BitVec.ofNat 64 (max p.toNat q.toNat) := by
  by_cases h : q.toNat ≤ p.toNat
  · rw [Nat.max_eq_left h, BitVec.ofNat_toNat, BitVec.setWidth_eq]
    exact if_pos h
  · rw [Nat.max_eq_right (Nat.le_of_not_le h), BitVec.ofNat_toNat, BitVec.setWidth_eq]
    exact if_neg h

theorem larger_signed (p q : W64) : larger false p q = BitVec.ofInt 64 (max p.toInt q.toInt) := by
  by_cases h : q.toInt ≤ p.toInt
  · rw [Int.max_eq_left h, BitVec.ofInt_toInt]
    exact if_pos h
  · rw [Int.max_eq_right (Int.le_of_not_le h), BitVec.ofInt_toInt]
    exact if_neg h

/-- Settles O1: each instruction is a register form, and its function is the integer operation modulo 2^64. -/
theorem scalarArithmetic : Obligations.ScalarArithmetic := by
  unfold Obligations.ScalarArithmetic
  intro s a c d x y hi hw p q
  have value {f : W64 → W64 → W64} {i : Instr} {v : W64} (he : exec i s = scalarReg s 4 d fun c => f (c.get x) (c.get y))
      (hf : f p q = v) : exec i s = .next (wrote s a c 4 d v) :=
    exec_scalarReg_wrote hi hw he (by rw [ScalarCtx.rechecked_get, ScalarCtx.rechecked_get]; exact hf)
  exact ⟨value (f := (· + ·)) rfl (add_eq_ofNat_toNat_add p q), value (f := (· - ·)) rfl (sub_eq_ofInt_toInt_sub p q),
    value (f := (· * ·)) rfl (mul_eq_ofNat_toNat_mul p q), value (f := mulHigh true) rfl rfl,
    value (f := mulHigh false) rfl rfl, value (f := smaller true) rfl (smaller_unsigned p q),
    value (f := smaller false) rfl (smaller_signed p q), value (f := larger true) rfl (larger_unsigned p q),
    value (f := larger false) rfl (larger_signed p q)⟩

end Sys2Proof.Machine
end

section
/-!
What the host does to the package (chapter 18): its requests of the two apertures, the registers of the control aperture
block by block, keys, attestation and the mailbox.
-/

namespace Sys2Proof.Machine

/-! ## Which aperture a request reaches (R7, R446, R448) -/

theorem hostMemoryAccess_absent {s : State} {r : HostRequest} (h : s.linkPresent r.link = false) :
    exec (.hostMemoryAccess r) s = .next s := by
  change execHostMemoryAccess r s = _
  simp [execHostMemoryAccess, h]

theorem hostMemoryAccess_memory {s : State} {r : HostRequest} (h : s.linkPresent r.link = true) (hc : r.control = false) :
    exec (.hostMemoryAccess r) s = .next (s.hostMemory r) := by
  change execHostMemoryAccess r s = _
  simp [execHostMemoryAccess, h, hc]

theorem hostMemoryAccess_control {s : State} {r : HostRequest} (h : s.linkPresent r.link = true) (hc : r.control = true) :
    exec (.hostMemoryAccess r) s = .next (s.hostControl r) := by
  change execHostMemoryAccess r s = _
  simp [execHostMemoryAccess, h, hc]

/-! ## The memory aperture (R446, R449) -/

theorem State.hostMemory_fails {s : State} {r : HostRequest}
    (h : s.harbour.recovery = true ∨ s.keyLoaded s.harbour.hkey[r.link] = false) : s.hostMemory r = s := by
  rcases h with h | h <;> simp [State.hostMemory, State.hostFails, h, -Fin.getElem_fin]

theorem spanParts_zero (k a : Nat) : spanParts k a 0 = [] := by
  cases k <;> rfl

/-- A range within one line is its one part. -/
theorem spanParts_line {k a n : Nat} (h0 : 0 < n) (h : a % 128 + n ≤ 128) : spanParts (k + 1) a n = [(a, n)] := by
  have hm : min n (128 - a % 128) = n := by omega
  rw [spanParts, if_neg (by omega)]
  simp only [hm, Nat.sub_self, spanParts_zero]

/-- The bytes of a host access within one line where there is memory, under the key of its link. -/
structure HostLine (s : State) (r : HostRequest) : Prop where
  alive : s.harbour.recovery = false
  key : s.keyLoaded s.harbour.hkey[r.link] = true
  nonempty : 0 < hostSize r
  line : r.addr % 128 + hostSize r ≤ 128
  memory : s.populated r.addr (hostSize r) = true

theorem HostLine.parts {s : State} {r : HostRequest} (h : HostLine s r) : hostParts r = [(r.addr, hostSize r)] :=
  spanParts_line h.nonempty h.line

theorem HostLine.served {s : State} {r : HostRequest} (h : HostLine s r) : s.hostFails r = false := by
  simp [State.hostFails, h.alive, h.key, -Fin.getElem_fin]

theorem HostLine.hostMemory_write {s : State} {r : HostRequest} (h : HostLine s r) {bs : List Byte}
    (hw : r.write = some bs) :
    s.hostMemory r = (s.atHome (s.hostXl s.harbour.hkey[r.link] r.addr)).writePa noCore r.addr bs := by
  have hn : hostSize r = bs.length := by simp [hostSize, hw]
  have hr : s.hostReach (r.addr, bs.length) = true := hn ▸ h.memory
  simp [State.hostMemory, h.served, hw, h.parts, hn, State.hostWrite, hr]

theorem HostLine.hostMemory_read {s : State} {r : HostRequest} (h : HostLine s r) (hw : r.write = none)
    (hp : (s.atHome (s.hostXl s.harbour.hkey[r.link] r.addr)).poisoned r.addr (hostSize r) = false) :
    s.hostMemory r = (s.atHome (s.hostXl s.harbour.hkey[r.link] r.addr)).returned
      ((s.atHome (s.hostXl s.harbour.hkey[r.link] r.addr)).readPa r.addr (hostSize r)) := by
  have hr : s.hostReach (r.addr, hostSize r) = true := h.memory
  simp [State.hostMemory, h.served, hw, h.parts, State.hostRead, hr, hp, -Fin.getElem_fin]

/-! ## The control aperture: accesses (R448) -/

theorem State.hostControl_write {s : State} {r : HostRequest} {bs : List Byte} (hw : r.write = some bs)
    (hn : bs.length = 8) (ha : r.addr % 8 = 0) : s.hostControl r = s.writeRegister r.link r.addr (word64 bs) := by
  simp [State.hostControl, hostSize, hw, hn, ha]

theorem State.hostControl_read {s : State} {r : HostRequest} (hw : r.write = none) (hn : r.len = 8)
    (ha : r.addr % 8 = 0) : s.hostControl r = s.returned (bytes64 (s.readRegister r.link r.addr)) := by
  simp [State.hostControl, hostSize, hw, hn, ha]

theorem State.hostControl_misread {s : State} {r : HostRequest} (hw : r.write = none) (h : r.len ≠ 8 ∨ r.addr % 8 ≠ 0) :
    s.hostControl r = s.returned (List.replicate r.len 0) := by
  rcases h with h | h <;> simp [State.hostControl, hostSize, hw, h]

/-! ## The control aperture: where a read goes (R448) -/

/-- The n-th of four words of a register. -/
theorem toList_getD_fin (x : Vector W64 4) (n : Fin 4) : x.toList.getD n.val 0 = x[n] := by
  simp [List.getD]

theorem State.readRegister_ident {s : State} {l : Fin 2} {o : Nat} (h : o < 0x118) :
    s.readRegister l o = s.readIdent l o := by
  rw [State.readRegister, if_pos h]

theorem State.readRegister_launch {s : State} {l : Fin 2} {r : Nat} (h : r < 0x80) :
    s.readRegister l (0x2000 + r) = s.readLaunch r := by
  rw [State.readRegister, if_neg (by omega), if_neg (by omega), if_pos (by omega), Nat.add_sub_cancel_left]

theorem State.readRegister_gen {s : State} {l : Fin 2} {o d r : Nat} (ho : o = 0x3000 + 0x40 * d + r) (hd : d < 4)
    (hr : r < 0x40) : s.readRegister l o = (s.die d).readGen r := by
  have hq : (o - 0x3000) / 0x40 = d := by omega
  have hm : (o - 0x3000) % 0x40 = r := by omega
  rw [State.readRegister, if_neg (by omega), if_neg (by omega), if_neg (by omega), if_pos (by omega), hq, hm]

theorem State.readRegister_key {s : State} {l : Fin 2} {r : Nat} (h : r < 0x58) :
    s.readRegister l (0x4000 + r) = s.harbour.key.read r := by
  rw [State.readRegister, if_neg (by omega), if_neg (by omega), if_neg (by omega), if_neg (by omega), if_pos (by omega),
    Nat.add_sub_cancel_left]

theorem State.readRegister_port {s : State} {l : Fin 2} {o p r : Nat} (ho : o = 0x4100 + 0x80 * p + r) (hp : p < 16)
    (hr : r < 0x80) : s.readRegister l o = (s.port p).read r := by
  have hq : (o - 0x4100) / 0x80 = p := by omega
  have hm : (o - 0x4100) % 0x80 = r := by omega
  rw [State.readRegister, if_neg (by omega), if_neg (by omega), if_neg (by omega), if_neg (by omega), if_neg (by omega),
    if_pos (by omega), hq, hm]

/-! ### The words of four (R360, R449, R450) -/

theorem State.readRegister_cores (s : State) (l : Fin 2) (n : Fin 4) :
    s.readRegister l (0x010 + 8 * n.val) = s.ident.cores[n] := by
  have hq : (0x010 + 8 * n.val - 0x010) / 8 = n.val := by omega
  rw [State.readRegister_ident (by omega), State.readIdent, if_neg (by omega), if_neg (by omega), if_pos (by omega), hq,
    toList_getD_fin]

theorem State.readRegister_clusters (s : State) (l : Fin 2) (n : Fin 4) :
    s.readRegister l (0x030 + 8 * n.val) = s.ident.clusters[n] := by
  have hq : (0x030 + 8 * n.val - 0x030) / 8 = n.val := by omega
  rw [State.readRegister_ident (by omega), State.readIdent, if_neg (by omega), if_neg (by omega), if_neg (by omega),
    if_pos (by omega), hq, toList_getD_fin]

theorem State.readRegister_feat (s : State) (l : Fin 2) (n : Fin 4) :
    s.readRegister l (0x050 + 8 * n.val) = s.ident.feat[n] := by
  have hq : (0x050 + 8 * n.val - 0x050) / 8 = n.val := by omega
  rw [State.readRegister_ident (by omega), State.readIdent, if_neg (by omega), if_neg (by omega), if_neg (by omega),
    if_neg (by omega), if_pos (by omega), hq, toList_getD_fin]

theorem State.readRegister_facc (s : State) (l : Fin 2) (n : Fin 4) :
    s.readRegister l (0x070 + 8 * n.val) = s.ident.facc[n] := by
  have hq : (0x070 + 8 * n.val - 0x070) / 8 = n.val := by omega
  rw [State.readRegister_ident (by omega), State.readIdent, if_neg (by omega), if_neg (by omega), if_neg (by omega),
    if_neg (by omega), if_neg (by omega), if_pos (by omega), hq, toList_getD_fin]

theorem State.readRegister_ctxva (s : State) (l : Fin 2) (n : Fin 4) :
    s.readRegister l (0x2010 + 8 * n.val) = s.launch.ctxva[n] := by
  have ho : 0x2010 + 8 * n.val = 0x2000 + (0x10 + 8 * n.val) := by omega
  have hq : (0x10 + 8 * n.val - 0x10) / 8 = n.val := by omega
  rw [ho, State.readRegister_launch (by omega), State.readLaunch, if_neg (by omega), if_neg (by omega), if_pos (by omega),
    hq, toList_getD_fin]

theorem State.readRegister_ctxlen (s : State) (l : Fin 2) (n : Fin 4) :
    s.readRegister l (0x2030 + 8 * n.val) = s.launch.ctxlen[n] := by
  have ho : 0x2030 + 8 * n.val = 0x2000 + (0x30 + 8 * n.val) := by omega
  have hq : (0x30 + 8 * n.val - 0x30) / 8 = n.val := by omega
  rw [ho, State.readRegister_launch (by omega), State.readLaunch, if_neg (by omega), if_neg (by omega), if_neg (by omega),
    if_pos (by omega), hq, toList_getD_fin]

/-! ### Write-only registers (R11, R456, R457) -/

theorem KeyBlock.read_kmat (k : KeyBlock) {r : Nat} (h : r < 0x40) : k.read r = 0 := by
  unfold KeyBlock.read
  split
  · exact absurd h (by decide)
  · exact absurd h (by decide)
  · rfl

theorem Port.read_linkKeys (x : Port) {r : Nat} (h : r < 0x40) : x.read r = 0 := by
  unfold Port.read
  split
  · exact absurd h (by decide)
  · exact absurd h (by decide)
  · rfl

/-! ## The control aperture: where a write goes (R448) -/

/-- Bit 16 of an offset, as 0 or 1, is its link. -/
theorem link_of_bit_eq (l : Fin 2) : (if l.val = 0 then 0 else 1 : Fin 2) = l := by
  match l with
  | 0 => rfl
  | 1 => rfl

/-- A register write through link l (log 41). -/
theorem registerWrite_link {s : State} {l : Fin 2} {o : Nat} {v : W64} (h : s.linkPresent l = true) (ho : o < 0x10000) :
    exec (.registerWrite (0x10000 * l.val + o) v) s = .next (s.writeRegister l o v) := by
  have hlt : 0x10000 * l.val + o < 0x20000 := by omega
  have hq : (0x10000 * l.val + o) / 0x10000 = l.val := by omega
  have hm : (0x10000 * l.val + o) % 0x10000 = o := by omega
  have hl : (if l.val = 0 then 0 else 1 : Fin 2) = l := link_of_bit_eq l
  change execRegisterWrite _ v s = _
  rw [execRegisterWrite, if_pos hlt, hq, hm, hl, State.linkWrite, if_pos h]

/-- A register write through link 0. -/
theorem registerWrite_link0 {s : State} {o : Nat} {v : W64} (h : s.linkPresent 0 = true) (ho : o < 0x10000) :
    exec (.registerWrite o v) s = .next (s.writeRegister 0 o v) := by
  simpa using registerWrite_link (v := v) h ho

theorem State.writeRegister_facc (s : State) (l : Fin 2) (n : Fin 4) (v : W64) :
    s.writeRegister l (0x070 + 8 * n.val) v = s.writeFacc n v := by
  have hn : (⟨(0x070 + 8 * n.val - 0x070) / 8, by omega⟩ : Fin 4) = n := Fin.ext (by simp)
  rw [State.writeRegister, if_neg (by omega), if_neg (by omega), dif_pos ⟨by omega, by omega⟩, hn]

theorem State.writeRegister_launch {s : State} {l : Fin 2} {r : Nat} {v : W64} (h : r < 0x80) (h8 : r % 8 = 0) :
    s.writeRegister l (0x2000 + r) v = s.writeLaunch r v := by
  rw [State.writeRegister, if_neg (by omega), if_neg (by omega), dif_neg (by omega), if_neg (by omega), if_neg (by omega),
    if_pos (by omega), Nat.add_sub_cancel_left]

theorem State.writeRegister_gen {s : State} {l : Fin 2} {o d r : Nat} {v : W64} (ho : o = 0x3000 + 0x40 * d + r)
    (hd : d < 4) (hr : r < 0x40) (h8 : r % 8 = 0) : s.writeRegister l o v = s.writeGen d r v := by
  have hq : (o - 0x3000) / 0x40 = d := by omega
  have hm : (o - 0x3000) % 0x40 = r := by omega
  rw [State.writeRegister, if_neg (by omega), if_neg (by omega), dif_neg (by omega), if_neg (by omega), if_neg (by omega),
    if_neg (by omega), if_pos (by omega), hq, hm]

theorem State.writeRegister_ctxva (s : State) (l : Fin 2) (n : Fin 4) (v : W64) :
    s.writeRegister l (0x2010 + 8 * n.val) v = { s with launch := { s.launch with ctxva := s.launch.ctxva.set n v } } := by
  have ho : 0x2010 + 8 * n.val = 0x2000 + (0x10 + 8 * n.val) := by omega
  have hq : (0x10 + 8 * n.val - 0x10) / 8 = n.val := by omega
  rw [ho, State.writeRegister_launch (by omega) (by omega), State.writeLaunch, if_neg (by omega), if_neg (by omega),
    dif_pos ⟨by omega, by omega⟩]
  simp only [hq]

theorem State.writeRegister_ctxlen (s : State) (l : Fin 2) (n : Fin 4) (v : W64) :
    s.writeRegister l (0x2030 + 8 * n.val) v =
      { s with launch := { s.launch with ctxlen := s.launch.ctxlen.set n v } } := by
  have ho : 0x2030 + 8 * n.val = 0x2000 + (0x30 + 8 * n.val) := by omega
  have hq : (0x30 + 8 * n.val - 0x30) / 8 = n.val := by omega
  rw [ho, State.writeRegister_launch (by omega) (by omega), State.writeLaunch, if_neg (by omega), if_neg (by omega),
    dif_neg (by omega), dif_pos ⟨by omega, by omega⟩]
  simp only [hq]

theorem State.writeRegister_gring (s : State) (l : Fin 2) (n : Fin 4) (v : W64) :
    s.writeRegister l (0x3000 + 0x40 * n.val) v = s.setDie n.val { s.die n.val with gring := v } := by
  rw [State.writeRegister_gen (o := 0x3000 + 0x40 * n.val) (d := n.val) (r := 0) rfl n.isLt (by decide) (by decide)]
  rfl

theorem State.writeRegister_gctl (s : State) (l : Fin 2) (n : Fin 4) (v : W64) :
    s.writeRegister l (0x3008 + 0x40 * n.val) v =
      s.setDie n.val { s.die n.val with gen := v.getLsbD 12, gasid := v.toNat % 2 ^ 12 } := by
  rw [State.writeRegister_gen (d := n.val) (r := 8) (by omega) n.isLt (by decide) (by decide)]
  simp only [State.writeGen, fld, Nat.pow_zero, Nat.div_one]

/-- PCAP takes the low 16 bits, whether 32 or 64 are written. -/
theorem State.putPcap_setWidth (s : State) (v : W64) : s.putPcap (v.setWidth 32).toNat = s.putPcap v.toNat := by
  have h : v.toNat % 2 ^ 32 % 2 ^ 16 = v.toNat % 2 ^ 16 := by omega
  rw [BitVec.toNat_setWidth, State.putPcap, h, State.putPcap]

/-! ## Keys (R301, R456) -/

theorem State.removeKey_keys (s : State) (kid : Nat) : (s.removeKey kid).keys.get? kid = none := by
  simp [State.removeKey]

/-- A command of KID 0, or of an unassigned KOP, is refused. -/
theorem keyCommandComplete_refused {s : State} {kop kid mat : Nat} {rest : List (Nat × Nat × Nat)}
    (h : s.harbour.key.cmds = (kop, kid, mat) :: rest) (hr : kid = 0 ∨ (kop ≠ 1 ∧ kop ≠ 2)) :
    exec .keyCommandComplete s = .next { s with harbour := { s.harbour with
      key := { s.harbour.key with cmds := rest, kseq := s.harbour.key.kseq + 1, kstat := 1 } } } := by
  have hok : (kid != 0 && (kop == 1 || kop == 2)) = false := by
    rcases hr with hr | ⟨h1, h2⟩
    · simp [hr]
    · simp [h1, h2]
  change execKeyCommandComplete s = _
  simp [execKeyCommandComplete, h, hok]

/-- A load of a key: what stood under its id is removed first. -/
theorem keyCommandComplete_load {s : State} {kid mat : Nat} {rest : List (Nat × Nat × Nat)}
    (h : s.harbour.key.cmds = (1, kid, mat) :: rest) (hk : kid ≠ 0) :
    exec .keyCommandComplete s = .next { s.removeKey kid with
      keys := (s.removeKey kid).keys.set kid mat
      harbour := { (s.removeKey kid).harbour with
        key := { s.harbour.key with cmds := rest, kseq := s.harbour.key.kseq + 1, kstat := 0 } } } := by
  change execKeyCommandComplete s = _
  simp [execKeyCommandComplete, h, hk]

theorem keyCommandComplete_remove {s : State} {kid mat : Nat} {rest : List (Nat × Nat × Nat)}
    (h : s.harbour.key.cmds = (2, kid, mat) :: rest) (hk : kid ≠ 0) :
    exec .keyCommandComplete s = .next { s.removeKey kid with harbour := { (s.removeKey kid).harbour with
      key := { s.harbour.key with cmds := rest, kseq := s.harbour.key.kseq + 1, kstat := 0 } } } := by
  change execKeyCommandComplete s = _
  simp [execKeyCommandComplete, h, hk]

/-! ## Attestation (R458) -/

@[simp] theorem State.length_freeBytes (s : State) (n : Nat) : (s.freeBytes n).1.length = n := by
  induction n generalizing s with
  | zero => rfl
  | succ n ih => simp [State.freeBytes, ih]

theorem attestRequest_other {s : State} {v : W64} (h : v ≠ 1) : exec (.attestRequest v) s = .next s := by
  change execAttestRequest v s = _
  rw [execAttestRequest, State.requestReport, if_neg h]

/-- A pending request ends with the signed bytes and, behind them, a signature, whose many free bytes stay one term. -/
theorem attestReportDone_pending {s : State} {nonce : List Byte} (h : s.harbour.attest.pending = some nonce) :
    ∃ t, exec .attestReportDone s = .next t ∧ t.harbour.attest.done = true ∧ t.harbour.attest.pending = none ∧
      t.harbour.attest.report = s.reportBody nonce ++ (s.freeBytes signatureBytes).1 := by
  change ∃ t, execAttestReportDone s = _ ∧ _
  rw [execAttestReportDone, h]
  cases s.freeBytes signatureBytes
  exact ⟨_, rfl, rfl, rfl, rfl⟩

/-! ## The mailbox (R459) -/

theorem mailboxPost_room {s : State} {r : Report} {rest : List Report} (h : s.reports = r :: rest)
    (hn : (s.harbour.box.mtail - s.harbour.box.mhead).toNat < 32) :
    exec .mailboxPost s = .next { s with reports := rest, harbour := { s.harbour with
      box := { s.harbour.box with mtail := s.harbour.box.mtail + 1,
                                  entries := s.harbour.box.entries.set (s.harbour.box.mtail.toNat % 32) r.bytes } } } := by
  change execMailboxPost s = _
  simp only [execMailboxPost, h]
  rw [if_neg (by omega)]

theorem mailboxPost_full {s : State} (hn : 32 ≤ (s.harbour.box.mtail - s.harbour.box.mhead).toNat) :
    exec .mailboxPost s = .next s := by
  change execMailboxPost s = _
  unfold execMailboxPost
  cases s.reports with
  | nil => rfl
  | cons r rest => simp only [if_pos hn]

/-- Settles O48: each clause is one of the rules above, and the registers at fixed offsets are evaluated. -/
theorem hostEvents : Obligations.HostEvents := by
  unfold Obligations.HostEvents
  intro s
  refine ⟨fun r => ⟨fun h => hostMemoryAccess_absent h, fun hl hc => ?memory, fun hl hc => ?control⟩, fun l => ?reads,
    fun v => ?writes, fun h => ?locked, fun h => ?locks, fun n v => ?mask, fun id => ⟨rfl, rfl⟩,
    fun kop kid mat rest h => ?key, rfl, fun v h => attestRequest_other h, fun nonce h => ?report,
    fun r rest h => ⟨mailboxPost_room h, mailboxPost_full⟩⟩
  case memory =>
    rw [hostMemoryAccess_memory hl hc]
    refine ⟨fun hf => congrArg _ (State.hostMemory_fails hf), fun alive key nonempty line memory => ?_⟩
    have part : HostLine s r := ⟨alive, key, nonempty, line, memory⟩
    exact ⟨fun bs hw => congrArg _ (part.hostMemory_write hw), fun hw hp => congrArg _ (part.hostMemory_read hw hp)⟩
  case control =>
    rw [hostMemoryAccess_control hl hc]
    exact ⟨fun bs hw hn ha => congrArg _ (State.hostControl_write hw hn ha),
      fun hw hn ha => congrArg _ (State.hostControl_read hw hn ha),
      fun hw h => congrArg _ (State.hostControl_misread hw h)⟩
  case reads =>
    refine ⟨rfl, fun n => ⟨s.readRegister_cores l n, s.readRegister_clusters l n, s.readRegister_feat l n,
      s.readRegister_facc l n, s.readRegister_ctxva l n, s.readRegister_ctxlen l n,
      State.readRegister_gen (r := 0) rfl n.isLt (by decide),
      State.readRegister_gen (r := 0x10) (by omega) n.isLt (by decide)⟩,
      rfl, rfl, rfl, rfl, rfl, rfl, rfl, rfl, rfl, rfl, rfl, fun k => ?_, fun p k => ?_⟩
    · exact (State.readRegister_key (by omega)).trans (KeyBlock.read_kmat _ (by omega))
    · exact (State.readRegister_port (p := p.val) rfl p.isLt (by omega)).trans (Port.read_linkKeys _ (by omega))
  case writes =>
    refine ⟨fun h1 => registerWrite_link (l := 1) (o := 8) h1 (by decide), fun h0 => ?_⟩
    have wr {o : Nat} {t : State} (ho : o < 0x10000) (ht : s.writeRegister 0 o v = t) :
        exec (.registerWrite o v) s = .next t := ht ▸ registerWrite_link0 h0 ho
    exact ⟨wr (by decide) rfl, fun n => wr (by omega) (s.writeRegister_facc 0 n v), wr (by decide) rfl, wr (by decide) rfl,
      wr (by decide) rfl, wr (by decide) rfl, wr (by decide) rfl, wr (by decide) rfl, wr (by decide) rfl,
      fun n => ⟨wr (by omega) (s.writeRegister_ctxva 0 n v), wr (by omega) (s.writeRegister_ctxlen 0 n v),
        wr (by omega) (s.writeRegister_gring 0 n v), wr (by omega) (s.writeRegister_gctl 0 n v)⟩,
      wr (by decide) rfl, wr (by decide) rfl, wr (by decide) (s.putPcap_setWidth v).symm, wr (by decide) rfl,
      fun hv => wr (by decide) (if_pos hv)⟩
  case locked => exact congrArg _ (if_pos h)
  case locks => exact congrArg _ (if_neg (by simp [h]))
  case mask =>
    refine ⟨s.clearMask n v, rfl, ?_, fun m hm => ?_, rfl⟩
    · simp [State.clearMask]
    · have hne : n.val ≠ m.val := fun e => hm (Fin.ext e.symm)
      simp [State.clearMask, hne]
  case key =>
    by_cases hr : kid = 0 ∨ (kop ≠ 1 ∧ kop ≠ 2)
    · exact ⟨_, keyCommandComplete_refused h hr, rfl, rfl, fun _ => ⟨rfl, rfl⟩, by omega, by omega⟩
    · have hk : kid ≠ 0 := by omega
      obtain rfl | rfl : kop = 1 ∨ kop = 2 := by omega
      · exact ⟨_, keyCommandComplete_load h hk, rfl, rfl, fun hc => absurd hc hr,
          fun _ _ => ⟨rfl, Tbl.get?_set_self _ _ _⟩, by omega⟩
      · exact ⟨_, keyCommandComplete_remove h hk, rfl, rfl, fun hc => absurd hc hr, by omega,
          fun _ _ => ⟨rfl, s.removeKey_keys kid⟩⟩
  case report =>
    obtain ⟨t, ht, hdone, hpend, hrep⟩ := attestReportDone_pending h
    refine ⟨t, ht, hdone, hpend, ?_, ?_⟩
    · rw [hrep, List.take_left]
    · rw [hrep, List.length_append, State.length_freeBytes, signatureBytes]

end Sys2Proof.Machine
end

section
/-! Decoding inverts the encoder, and the words that the spec writes out decode as it says. -/

namespace Sys2Proof

open Laws.WordRoundTrip

/-- Settles O56, by cases on the instruction: each argument is the round trip of one constructor, in their order. The words
decode from the fields that the encoder writes; the events of the package have no words. -/
theorem decodeEncode : Obligations.DecodeEncode :=
  @Instr.rec Statement
    -- scalar words
    sadd ssub smul smulh sdiv smin smax sand sor sxor sshl sshr ssra sclz spopc smov scmp ssel slea saddImm smulImm
    sandImm sorImm sxorImm sshlImm sshrImm ssraImm sminImm smaxImm scmpImm sleaImm smovi smovh smoviLong smovhLong
    saddLong sandLong sorLong sxorLong sb sbk scall sret sjmpr sjmprL sloop sexit snop sld sst sldLong sstLong sldv
    satom sfence swait ldisp ldispReg lsync slrd barInit barArr barWt barSync barExp fbar bthTake bthPass bthWait
    bthSet bthFree bthQuery xregAcq xregRel xcpy xdrain srt xcol tqTake tqSteal tqGive glaunch wsplit wret csrr csrw
    trap eret spchk mmaBf16 mmaF16 mmaE4m3 mmaE5m2 mmaBx8 mmaBx6 mmaBx4 mmaLut4 mmaI8 accClr accLd accSt accAdd
    accRenorm accHdr accScale ctabW mwt mfence mbxTake rqSend
    -- lane words
    iadd isub imul imad imulh idp4 iabs imin imax icmp isel bool3 popc clz brev ishl ishr isra ishf bfe bfi fadd fmul
    ffma fmin fmax fcmp fclass fscale fdot2 frcp frsq fsqrt fex2 flg2 fsin fcos cvt cvtSr hdm16 hdm32 qpackBx8
    qpackBx6 qpackBx4 qunpackBx8 qunpackBx6 qunpackBx4 bxdotBx8 bxdotBx6 bxdotBx4 mov movi xlane vote rdlane lscan
    cmp24 pset pmov ld st ldR stR ldv lds sts atom atomX red mwait fence bra braLoop brk cont join joinLatch call ret
    exit exitKill nap rgn gproj pproj geval gblend gback gscat rgen trace rayld rayst hitq rpush rpop fbw
    -- events
    laneDispatch issueSlotArbitration resultLanding varCompletion napExpiry monitorFire monitorPollTimer trapDelivery
    crewRetire gridRetire weightGrant packetAdmission crewPlacement placementBackoffExpiry preemptRequest
    preemptWithdrawTimeout crewRestore crewKill killedCrewRestore mmaExecute accBatchApply ctabApply copyPartComplete
    copyComplete copyErrorComplete faultQueuePost engineResumeOnAck sortStart sortComplete projectionEntryStart
    projectionItemDone traversalStart traversalEnd genJobConsume genRayEmit tunMerge tunEviction lineEviction
    pageWalk eccError xcmdInvalidatePage xcmdInvalidateRange xcmdInvalidateAsid xcmdInvalidateAll
    invalidationComplete hostMemoryAccess registerWrite featureLock partitionFeatureMaskWrite generatorEnable keyLoad
    keyRemove linkKeyLoad linkBringup attestRequest attestReportDone mkill mailboxPost powerOnReset watchdogReset
    i3cReset marginReplan powerWindowTimer pcapWrite coolantExcursion coolantRestored frameReceive
    retryRequestReceive totalsFrameTimer totalsFrameReceive fabRd fabRdr fabWr fabWra fabAtm fabAtr fabRed fabBlk
    fabBlka fabDrop fabResv fabRgnt reservationWindowExpiry fabMon fabCtb fabCrs fabClosed collectiveSlotTimeout
    collectiveSlotFree fabWgt fabErr fbarArrival fbarTimeout keyCommandComplete

/-- Settles O55: the decoder runs on each word. -/
theorem decodeWords : Obligations.DecodeWords := by
  unfold Obligations.DecodeWords
  exact ⟨rfl, rfl, rfl, rfl, rfl, rfl, rfl, rfl, rfl, rfl, rfl, rfl, rfl, rfl, rfl, rfl, rfl, rfl⟩

end Sys2Proof
end

section
/-! The immediate and long forms of the scalar ALU, and the scalar transfers of control. -/

namespace Sys2Proof.Machine

/-! ## Literals (R71, R130) -/

/-- A long literal keeps its 32 bits when it is sign-extended and cut again. -/
theorem setWidth_sx (j : W32) : (sx j).setWidth 32 = j := by
  ext i hi
  have : i < 64 := by omega
  simp [sx, BitVec.getElem_signExtend, hi, this]

/-- Settles O4: each form is a register form whose function takes the literal, sign-extended, as an operand. -/
theorem scalarLiterals : Obligations.ScalarLiterals := by
  unfold Obligations.ScalarLiterals
  intro s a c d x y i j hi hw p k l
  have ofReg {n : Nat} {r : SReg} {f : W64 → W64} {m : Instr} {v : W64}
      (he : exec m s = scalarReg s n d fun c => f (c.get r)) (hf : f c.s[r.val] = v) :
      exec m s = .next (wrote s a c n d v) :=
    exec_scalarReg_wrote hi hw he (by rw [ScalarCtx.rechecked_get]; exact hf)
  have ofCtx {n : Nat} {f : ScalarCtx → W64} {m : Instr} (he : exec m s = scalarReg s n d f) (hf : f c.rechecked = f c) :
      exec m s = .next (wrote s a c n d (f c)) := exec_scalarReg_wrote hi hw he hf
  refine ⟨ofReg (f := (· + sx i)) rfl rfl, ofReg (f := (· * sx i)) rfl rfl, ofReg (f := (· &&& sx i)) rfl rfl,
    ofReg (f := (· ||| sx i)) rfl rfl, ofReg (f := (· ^^^ sx i)) rfl rfl,
    fun _ => ⟨ofReg (f := (· <<< i.toNat)) rfl rfl, ofReg (f := (· >>> i.toNat)) rfl rfl,
      ofReg (f := (·.sshiftRight i.toNat)) rfl rfl⟩,
    ofReg (f := (smaller false · (sx i))) rfl (smaller_signed p k),
    ofReg (f := (larger false · (sx i))) rfl (larger_signed p k),
    ofCtx (f := fun _ => sx i) rfl rfl, ofReg (f := highHalf (sx i)) rfl rfl,
    ofCtx (f := fun c => c.get x + 4 * c.get y) rfl ?slea, ofCtx (f := fun c => c.pc + 4 * sx i) rfl ?sleaImm,
    ofCtx (f := fun _ => sx j) rfl rfl, ofReg (f := highHalf (sx j)) rfl ?smovhLong, ofReg (f := (· + sx j)) rfl rfl,
    ofReg (f := (· &&& sx j)) rfl rfl, ofReg (f := (· ||| sx j)) rfl rfl, ofReg (f := (· ^^^ sx j)) rfl rfl⟩
  case slea => simp only [ScalarCtx.rechecked_get]
  case sleaImm => simp only [ScalarCtx.rechecked_pc]
  case smovhLong => rw [highHalf, setWidth_sx]

/-! ## Transfers (R134) -/

/-- A jump to a word-aligned target in `.text` makes its link and goes there. -/
theorem State.jump_ok {s : State} {a : Issuer} {target : W64} (ha : target.toNat % 4 = 0)
    (ht : s.inText a target = true) (link : State → State) : s.jump a target link = .ok ((link s).goto a target) := by
  simp [State.jump, require, ha, ht, bind, Except.bind]

/-- ... which, of a transfer without a link, is a change of the address alone. -/
theorem State.jump_jumped {s : State} {a : Issuer} {c : ScalarCtx} {target : W64} (hs : s.sctx a = some c)
    (ha : target.toNat % 4 = 0) (ht : s.inText a target = true) : s.jump a target id = .ok (jumped s a c target) := by
  rw [State.jump_ok ha ht, id, State.goto_eq hs, jumped]

/-- ... and of one with a link, of the link register too. -/
theorem State.jump_linked {s : State} {a : Issuer} {c : ScalarCtx} {target : W64} (hs : s.sctx a = some c)
    (ha : target.toNat % 4 = 0) (ht : s.inText a target = true) (r : SReg) (v : W64) :
    (s.jump a target fun t => t.putS a r v) = .ok (jumped s a { c with s := c.s.set r.val v } target) := by
  rw [State.jump_ok ha ht, State.putS_eq hs, State.goto_eq (State.sctx_setSctx hs _), State.setSctx_setSctx, jumped]

/-- Settles O6: each transfer is a scalar instruction of any stream whose effect is the jump, with or without a link. -/
theorem scalarTransfers : Obligations.ScalarTransfers := by
  unfold Obligations.ScalarTransfers
  intro s a c x d k sense off hi target link
  obtain ⟨hcur, hctx⟩ := hi
  have effect {i : Instr} (f : Issuer → ScalarCtx → Act State) {t : State} (he : exec i s = scalar s .any [] f)
      (hf : f a c.rechecked = .ok t) : exec i s = .next t := he.trans (scalar_next hcur hctx rfl hf)
  have htarget : branchTarget c.rechecked.pc off = target := by rw [ScalarCtx.rechecked_pc]; rfl
  have hcond : (c.rechecked.cond k != sense) = (c.k[k.val] ^^ sense) := by rw [ScalarCtx.cond, c.rechecked_k, Bool.xor]
  have hbranch : exec (.sbk k sense off) s = scalar s .any [] fun a c =>
    if c.cond k != sense then s.jump a (branchTarget c.pc off) id else .ok (s.next a c.pc 4) := rfl
  refine ⟨fun ha ht => ?inside, fun hk => ?untaken, fun ha ht => ?register⟩
  case inside =>
    have jump : s.jump a (branchTarget c.rechecked.pc off) id = .ok (jumped s a c target) := by
      rw [htarget, State.jump_jumped hctx ha ht]
    refine ⟨effect (fun a c => s.jump a (branchTarget c.pc off) id) rfl jump,
      effect (fun a c => s.jump a (branchTarget c.pc off) fun t => t.putS a 63 (c.pc + 4)) rfl ?call,
      fun hk => effect _ hbranch ?taken⟩
    case call => rw [htarget, ScalarCtx.rechecked_pc, State.jump_linked hctx ha ht]
    case taken => rw [hcond, if_pos hk, jump]
  case untaken =>
    refine effect _ hbranch ?_
    rw [hcond, if_neg (by simp [hk]), ScalarCtx.rechecked_pc, State.next_eq hctx]
    rfl
  case register =>
    have jump : s.jump a (c.rechecked.get x) id = .ok (jumped s a c c.s[x.val]) := by
      rw [ScalarCtx.rechecked_get]
      exact State.jump_jumped hctx ha ht
    refine ⟨effect (fun a c => s.jump a (c.get x) id) rfl jump, effect (fun a c => s.jump a (c.get x) id) rfl jump,
      fun hw => effect (fun a c => do s.interlock a d; s.jump a (c.get x) fun t => t.putS a d (c.pc + 4)) rfl ?linked⟩
    rw [ScalarCtx.rechecked_get, ScalarCtx.rechecked_pc, State.interlock_ok hw]
    exact State.jump_linked hctx ha ht d _

end Sys2Proof.Machine
end

section
/-! What a turn comes to: the instruction or event that a step executes, fetched from the bytes that stand at its address. -/

namespace Sys2Proof.Machine

/-! ## Turns that execute something -/

theorem step_of_prepare {s t : State} {i : Instr} (h : s.prepare = .run i t) : step s = exec i t := by
  rw [step, h]

/-- What `cur` names while a scalar stream executes. -/
def Issuer.asCur : Issuer → Cur
  | .gang g => .gang g
  | .pilot cl => .pilot cl

/-- The turn of a scalar stream. -/
def Issuer.asTurn : Issuer → Turn
  | .gang g => .gang g
  | .pilot cl => .pilot cl

theorem State.prepare_scalar {s t : State} {a : Issuer} (h : s.turn = (a.asTurn, t)) : s.prepare = t.prepareScalar a := by
  cases a <;> simp only [State.prepare, h, Issuer.asTurn]

/-- A stream that may execute, at a word-aligned address, executes the instruction that it fetches and decodes. -/
theorem State.prepareScalar_run {t u : State} {a : Issuer} {c : ScalarCtx} {w w1 : Nat} {i : Instr}
    (hr : t.scalarReady a = true) (hp : (t.takePort a).1 = true) (hc : (t.takePort a).2.sctx a = some c)
    (hpc : c.pc.toNat % 4 = 0)
    (hf : ({ (t.takePort a).2 with cur := a.asCur } : State).fetchScalar a c.pc = .ok (w, w1, u))
    (hd : decodeScalar w w1 = .ok i) : t.prepareScalar a = .run i u := by
  cases a <;> simp only [Issuer.asCur] at hf <;> simp [State.prepareScalar, hr, hp, hc, hpc, hf, hd]

/-- An issue slot executes the lane word of its run that it fetches and decodes. -/
theorem State.prepareLane_run {t u : State} {core slot g w : Nat} {sl : Fin 2} {y : Gang} {k : Kernel} {i : Instr}
    (hr : t.laneReady core slot = some (g, sl)) (hg : t.gang? g = some y) (hk : t.kernel (.gang g) = some k)
    (hl : y.lpc[sl].live = true) (hn : y.lpc[sl].index < k.laneCount)
    (hf : ({ t with cur := .lane g sl } : State).fetchLane (.gang g) (.slot g sl.val) (k.laneAt y.lpc[sl].index) = .ok (w, u))
    (hd : decodeLane w = .ok i) : t.prepareLane core slot = .run i u := by
  simp only [State.prepareLane, hr, hg, hk, hl, Bool.not_true, Bool.false_eq_true, if_false, Nat.not_le.2 hn, hf, hd]

/-! ## Fetches (R48, R51) -/

/-- A fetch whose access passes takes the bytes at the translated address. -/
theorem State.fetchBytes_ok {s t : State} {a : Issuer} {va : W64} {n : Nat} {x : Xl}
    (h : s.access (s.who a) va n false false = .ok (x, t)) (r : Reader) :
    s.fetchBytes a r va n = .ok (t.mem.bytes x.pa n, t) := by
  rw [State.fetchBytes, h]
  rfl

/-- A first word of another form is fetched alone. -/
theorem State.fetchScalar_short {s t : State} {a : Issuer} {pc : W64} {bs : List Byte}
    (h : s.fetchBytes a (.scalar a) pc 4 = .ok (bs, t)) (hs : isLong (leNat bs) = false) :
    s.fetchScalar a pc = .ok (leNat bs, 0, t) := by
  simp [State.fetchScalar, h, hs]

/-- The first word of a long form is fetched with the word behind it. -/
theorem State.fetchScalar_long {s t u : State} {a : Issuer} {pc : W64} {bs cs : List Byte}
    (h : s.fetchBytes a (.scalar a) pc 4 = .ok (bs, t)) (hl : isLong (leNat bs) = true)
    (h' : t.fetchBytes a (.scalar a) (pc + 4) 4 = .ok (cs, u)) : s.fetchScalar a pc = .ok (leNat bs, leNat cs, u) := by
  simp only [State.fetchScalar, h, hl, h', if_true]

/-- Settles O54: each kind of turn is prepared into what it executes, and a fetch reads what stands at its address. -/
theorem stepRuns : Obligations.StepRuns := by
  unfold Obligations.StepRuns
  refine ⟨fun s t rest h => ?turn, fun s t u a c w w1 i ht hr hp hc hpc hf hd => ?scalar,
    fun s t u core slot g sl y k w i ht hr hg hk hl hn hf hd => ?lane, fun s t e ht he => ?event,
    fun s a r va x t n h => State.fetchBytes_ok h r,
    fun s t a pc bs h => ⟨fun hs => State.fetchScalar_short h ?_, fun cs u hl h' => State.fetchScalar_long h ?_ h'⟩⟩
  case turn => rw [State.turn, h]
  case scalar =>
    refine step_of_prepare ((State.prepare_scalar (a := a) (ht.trans ?_)).trans
      (State.prepareScalar_run hr hp hc hpc (Eq.trans ?_ hf) hd))
    · cases a <;> rfl
    · cases a <;> rfl
  case lane =>
    refine step_of_prepare (Eq.trans ?_ (State.prepareLane_run hr hg hk hl hn hf hd))
    rw [State.prepare, ht]
  case event =>
    refine step_of_prepare ?_
    rw [State.prepare, ht]
    exact if_pos he
  · exact decide_eq_false (Nat.not_le.2 hs)
  · exact decide_eq_true hl

end Sys2Proof.Machine
end

section
/-! Illegal opcodes: streams of the other kind, features that are not accepted, and the first faults of a lane word. -/

namespace Sys2Proof.Machine

/-! ## Scalar instructions (R74, R75) -/

/-- A scalar instruction that its stream or its features make illegal raises ILLEGAL_OP, whatever its effect. -/
theorem scalar_illegal {s : State} {a : Issuer} {c : ScalarCtx} {k : StreamKind} {fs : List Feature}
    (hi : Issues s a c) (ht : Traps s a) (hl : k.legal a = false ∨ fs.all (s.hasFeature a) = false)
    (f : Issuer → ScalarCtx → Act State) : scalar s k fs f = .next (trapped s a c { code := .illegalOp }) := by
  obtain ⟨hcur, hctx⟩ := hi
  obtain ⟨hmay, hkill⟩ := ht
  have hill : (!(k.legal a && fs.all (s.hasFeature a))) = true := by
    rw [Bool.and_eq_false_iff.2 hl, Bool.not_false]
  simp only [scalar, hcur, hctx, hill, if_true, raise, scalarEnd, hkill, hmay, Bool.false_eq_true, if_false, trapped]

/-- A pilot's traps are never held back. -/
theorem pilot_traps (s : State) (cl : Nat) : Traps s (.pilot cl) := ⟨rfl, rfl⟩

theorem exec_mmaInstr (s : State) (f : MmaFmt) (m : MmaMod) (d a b : SReg) (t : AccSel) :
    exec (mmaInstr f m d a b t) s = mmaIssue s f m d a b t := by
  cases f <;> rfl

/-- A pilot has no opcode that is legal in gangs only (R74). -/
theorem pilot_gang_opcodes {s : State} {cl : Nat} {c : ScalarCtx} (hi : Issues s (.pilot cl) c) (d x y : SReg)
    (n : BitVec 13) (b : BitVec 7) (q : Fin 64) (p : DrainPath) (l : LaneSel) (k : Fin 16) :
    ∀ i ∈ [Instr.ldisp n, .ldispReg x n, .lsync, .slrd d q l, .barArr d b, .barWt b x, .barSync b, .barExp b x,
        .barInit b x, .fbar d x, .xregAcq, .xregRel, .xcpy x y, .xdrain p, .srt x, .xcol x, .tqTake d x, .tqSteal d x,
        .tqGive x y, .glaunch q d x y, .wsplit d x, .wret x, .spchk k],
      exec i s = .next (trapped s (.pilot cl) c { code := .illegalOp }) := by
  have ill (fs : List Feature) (f : Issuer → ScalarCtx → Act State) :=
    scalar_illegal (k := .gangs) (fs := fs) hi (pilot_traps s cl) (.inl rfl) f
  simp only [List.forall_mem_cons]
  refine ⟨?_, ?_, ?_, ?_, ?_, ?_, ?_, ?_, ?_, ?_, ?_, ?_, ?_, ?_, ?_, ?_, ?_, ?_, ?_, ?_, ?_, ?_, ?_, by simp⟩
  all_goals
    simp only [exec, execLdisp, execLdispReg, scalarDispatch, execLsync, execSlrd, execBarArr, execBarWt, execBarSync,
      execBarExp, execBarInit, barrierOp, execFbar, execXregAcq, execXregRel, execXcpy, execXdrain, execSrt, execXcol,
      execTqTake, execTqSteal, tileTake, execTqGive, execGlaunch, execWsplit, execWret, execSpchk, ill]

/-- A gang has no opcode that is legal in pilots only (R74). -/
theorem gang_pilot_opcodes {s : State} {g : Nat} {c : ScalarCtx} (hi : Issues s (.gang g) c) (ht : Traps s (.gang g))
    (d x y : SReg) (m : MmaMod) (t : AccSel) (f : MmaFmt) (n : Fin 64) (sc : MfenceScope) (q : Fin 32) :
    ∀ i ∈ [mmaInstr f m d x y t, Instr.mwt n, .mfence sc, .mbxTake d x, .rqSend q x],
      exec i s = .next (trapped s (.gang g) c { code := .illegalOp }) := by
  have ill (fs : List Feature) (f : Issuer → ScalarCtx → Act State) :=
    scalar_illegal (k := .pilots) (fs := fs) hi ht (.inl rfl) f
  simp only [List.forall_mem_cons, exec_mmaInstr]
  refine ⟨?_, ?_, ?_, ?_, ?_, by simp⟩
  all_goals simp only [exec, mmaIssue, execMwt, execMfence, execMbxTake, execRqSend, ill]

/-- An instruction of a feature that was not accepted is illegal (R75). -/
theorem declined_opcodes {s : State} {a : Issuer} {c : ScalarCtx} (hi : Issues s a c) (ht : Traps s a) (d x y : SReg)
    (m : MmaMod) (t : AccSel) (core q : Fin 4) :
    (s.hasFeature a .fabric = false → exec (.fbar d x) s = .next (trapped s a c { code := .illegalOp }) ∧
      exec (.xcol x) s = .next (trapped s a c { code := .illegalOp })) ∧
    (s.hasFeature a .lut4 = false → exec (.ctabW core q x) s = .next (trapped s a c { code := .illegalOp })) ∧
    ∀ f, ∀ u ∈ mmaFeatures f m, s.hasFeature a u = false →
      exec (mmaInstr f m d x y t) s = .next (trapped s a c { code := .illegalOp }) := by
  have ill {k : StreamKind} {fs : List Feature} {u : Feature} (hm : u ∈ fs) (hu : s.hasFeature a u = false)
      (f : Issuer → ScalarCtx → Act State) : scalar s k fs f = .next (trapped s a c { code := .illegalOp }) :=
    scalar_illegal hi ht (.inr (List.all_eq_false.2 ⟨u, hm, by simp [hu]⟩)) f
  refine ⟨fun h => ?_, fun h => ?_, fun f u hu h => ?_⟩
  · simp only [exec, execFbar, execXcol]
    exact ⟨ill (List.mem_singleton_self _) h _, ill (List.mem_singleton_self _) h _⟩
  · simp only [exec, execCtabW]
    exact ill (List.mem_singleton_self _) h _
  · rw [exec_mmaInstr]
    exact ill hu h _

/-! ## Lane words (R75, R77) -/

theorem State.laneTrap_eq {s : State} {g : Nat} {y : Gang} (hg : s.gang? g = some y) (ht : LaneTraps s g y)
    (slot : Fin 2) (t : Trap) : s.laneTrap g slot y.lpc[slot].index t = laneTrapped s g slot y t := by
  obtain ⟨hmay, hkill⟩ := ht
  simp only [State.laneTrap, hg, hmay, hkill, Bool.not_true, Bool.or_self, Bool.false_eq_true, if_false, laneTrapped]

/-- A word that comes to be checked at issue raises the fault that depends on no operand, whatever its effect. -/
theorem laneIssue_of_laneFault {s : State} {i : Instr} {li : LaneInfo} {g : Nat} {slot : Fin 2} {y : Gang} {code : Code}
    (hcur : s.cur = .lane g slot) (hli : i.laneInfo = some li) (hg : s.gang? g = some y) (ht : LaneTraps s g y)
    (hlive : y.lpc[slot].live = true) (hearly : y.lpc[slot].earliest ≤ s.clk.arith)
    (hwait : y.lpc[slot].wait = .none ∨ ∃ n, y.lpc[slot].wait = .nap n ∧ n ≤ s.clk.arith)
    (hfresh : y.lpc[slot].fresh = true → y.fix = []) (hland : s.landFix g s.clk.arith = s)
    (hf : s.laneFault g y y.lpc[slot].index i li = some code) (ctl : Bool) (body : LaneCtx → State → Act State) :
    laneIssue s i ctl body = .next (laneTrapped s g slot y { code := code }) := by
  have hfr : (y.lpc[slot].fresh && !y.fix.isEmpty) = false := by
    cases hf : y.lpc[slot].fresh with
    | false => rfl
    | true => simp [hfresh hf]
  simp only [laneIssue, hcur, hli, hg]
  rw [if_neg ?due]
  case due =>
    rw [hlive, decide_eq_false (by omega)]
    obtain hw | ⟨n, hw, hn⟩ := hwait
    · rw [hw]
      simp
    · rw [hw]
      simpa using hn
  simp only [hland, hg, hfr, Bool.false_eq_true, if_false, hf, State.laneTrap_eq hg ht]

/-- The word belongs to a feature that is not accepted, or ends its block inside a repeated body (R75, R135). -/
def LaneIllegal (s : State) (g : Nat) (y : Gang) (index : Nat) (i : Instr) (li : LaneInfo) : Prop :=
  (∃ f, laneFeature i = some f ∧ s.hasFeature (.gang g) f = false) ∨
    li.ends = true ∧ ∃ m, y.arm = some m ∧ m.active = true ∧ m.start ≤ index ∧ index < m.start + m.len

/-- The word names an extended register, and the gang has no extended block (R25). -/
def LaneExtended (y : Gang) (li : LaneInfo) : Prop :=
  y.ext = none ∧ ∃ x ∈ wordNames li, ∃ n, x.vnum = some n ∧ 64 ≤ n

/-- The word uses a queue against its binding (R29, R265). -/
def LaneMisqueued (y : Gang) (i : Instr) (li : LaneInfo) : Prop :=
  (∃ q ∈ li.pops, (y.bound q).1 ≠ 5 ∧ (y.bound q).1 ≠ 6) ∨ ∃ q, li.push = some q ∧ (y.bound q).1 ∉ pushKinds i

theorem queueFault_iff (y : Gang) (i : Instr) (li : LaneInfo) : queueFault y i li = true ↔ LaneMisqueued y i li := by
  cases hp : li.push <;> simp [queueFault, LaneMisqueued, hp]

section
variable {s : State} {g index : Nat} {y : Gang} {i : Instr} {li : LaneInfo}

theorem State.laneFault_illegal (h : LaneIllegal s g y index i li) : s.laneFault g y index i li = some .illegalOp := by
  unfold State.laneFault
  obtain ⟨f, hf, hs⟩ | ⟨he, m, hm, ha, hlo, hhi⟩ := h
  · simp [hf, hs]
  · simp [he, hm, ha, hlo, hhi]

open Classical in
/-- The other faults, of a word that is legal, in the order of R77. -/
theorem State.laneFault_legal (hl : ¬LaneIllegal s g y index i li) :
    s.laneFault g y index i li = if LaneExtended y li then some .extreg
      else if LaneMisqueued y i li then some .queueMap else if stallShort y li = true then some .stallShort else none := by
  obtain ⟨hf, hb⟩ := not_or.1 hl
  unfold State.laneFault
  rw [if_neg ?feature, if_neg ?body]
  case feature => cases h : laneFeature i <;> simp_all
  case body => cases h : y.arm <;> simp_all
  refine ite_congr (propext ?_) (fun _ => rfl) fun _ =>
    ite_congr (propext (queueFault_iff y i li)) (fun _ => rfl) fun _ => ite_congr rfl (fun _ => rfl) fun _ => rfl
  simp only [LaneExtended, Bool.and_eq_true, Option.isNone_iff_eq_none, List.any_eq_true]
  refine and_congr_right fun _ => exists_congr fun x => and_congr_right fun _ => ?_
  cases x.vnum <;> simp
end

/-- Every lane word is issued as a lane word, with an effect of its own. -/
theorem exec_of_laneInfo {i : Instr} {li : LaneInfo} (h : i.laneInfo = some li) (s : State) :
    ∃ ctl body, exec i s = laneIssue s i ctl body := by
  cases i with
  | iadd | isub | imul | imad | imulh | idp4 | iabs | imin | imax | icmp | isel | bool3 | popc | clz | brev | ishl
  | ishr | isra | ishf | bfe | bfi | fadd | fmul | ffma | fmin | fmax | fcmp | fclass | fscale | fdot2 | frcp | frsq
  | fsqrt | fex2 | flg2 | fsin | fcos | cvt | cvtSr | hdm16 | hdm32 | qpackBx8 | qpackBx6 | qpackBx4 | qunpackBx8
  | qunpackBx6 | qunpackBx4 | bxdotBx8 | bxdotBx6 | bxdotBx4 | mov | movi | xlane | vote | rdlane | lscan | cmp24
  | pset | pmov | ld | st | ldR | stR | ldv | lds | sts | atom | atomX | red | mwait | fence | bra | braLoop | brk
  | cont | join | joinLatch | call | ret | exit | exitKill | nap | rgn | gproj | pproj | geval | gblend | gback
  | gscat | rgen | trace | rayld | rayst | hitq | rpush | rpop | fbw =>
    simp only [exec,
      execIadd, execIsub, execImul, execImad, execImulh, execIdp4, execIabs, execImin, execImax, execIcmp, execIsel,
      execBool3, execPopc, execClz, execBrev, execIshl, execIshr, execIsra, execIshf, execBfe, execBfi, execFadd,
      execFmul, execFfma, execFmin, execFmax, execFcmp, execFclass, execFscale, execFdot2, execFrcp, execFrsq,
      execFsqrt, execFex2, execFlg2, execFsin, execFcos, execCvt, execCvtSr, execHdm16, execHdm32, execQpackBx8,
      execQpackBx6, execQpackBx4, execQunpackBx8, execQunpackBx6, execQunpackBx4, execBxdotBx8, execBxdotBx6,
      execBxdotBx4, execMov, execMovi, execXlane, execVote, execRdlane, execLscan, execCmp24, execPset, execPmov,
      execLd, execSt, execLdR, execStR, execLdv, execLds, execSts, execAtom, execAtomX, execRed, execMwait,
      execFence, execBra, execBraLoop, execBrk, execCont, execJoin, execJoinLatch, execCall, execRet, execExit,
      execExitKill, execNap, execRgn, execGproj, execPproj, execGeval, execGblend, execGback, execGscat, execRgen,
      execTrace, execRayld, execRayst, execHitq, execRpush, execRpop, execFbw, laneExact, laneShift, laneElems,
      laneSpecial, qpack, qunpack, bxdot, laneLoad, laneStore, laneProject, lane32, laneFix, laneVar, laneMany,
      control]
    exact ⟨_, _, rfl⟩
  | _ => cases h

/-- Settles O60: a stream of the other kind and a declined feature fail the check of R74 and R75, and a lane word that comes
to be checked at issue raises the first of its faults. -/
theorem streamKinds : Obligations.StreamKinds := by
  unfold Obligations.StreamKinds
  refine ⟨fun s cl c hi d x y n b q p l k => pilot_gang_opcodes hi d x y n b q p l k,
    fun s g c hi ht d x y m t f n sc q => gang_pilot_opcodes hi ht d x y m t f n sc q,
    fun s a c hi ht d x y m t core q => ?declined, ?features, ?faults⟩
  case declined =>
    obtain ⟨hfabric, hctab, hmma⟩ := declined_opcodes hi ht d x y m t core q
    exact ⟨hfabric, fun h => ⟨hmma .lut4 .lut4 (by simp [mmaFeatures]) h, hctab h⟩,
      fun h hp f => hmma f .sparse (by simp [mmaFeatures, hp]) h,
      fun h => ⟨hmma .bx8 .blockfp (by simp [mmaFeatures, MmaFmt.scaled]) h,
        hmma .bx6 .blockfp (by simp [mmaFeatures, MmaFmt.scaled]) h, hmma .bx4 .blockfp (by simp [mmaFeatures, MmaFmt.scaled]) h⟩⟩
  case features =>
    intros
    simp [laneFeature]
  case faults =>
    intro s i li g slot y hcur hli hg ht l now hlive hearly hwait hfresh hland declined repeated illegal ext queue stops
    have raises {code : Code} (hf : s.laneFault g y l.index i li = some code) : stops code := by
      obtain ⟨ctl, body, he⟩ := exec_of_laneInfo hli s
      exact he.trans (laneIssue_of_laneFault hcur hli hg ht hlive hearly hwait hfresh hland hf ctl body)
    have legal (hl : ¬illegal) := State.laneFault_legal (s := s) (g := g) (index := l.index) hl
    exact ⟨fun h => raises (State.laneFault_illegal h), fun hl he => raises ((legal hl).trans (if_pos he)),
      fun hl he hq => raises ((legal hl).trans ((if_neg he).trans (if_pos hq))),
      fun hl he hq hs => raises ((legal hl).trans ((if_neg he).trans ((if_neg hq).trans (if_pos hs))))⟩

end Sys2Proof.Machine
end

section
/-! The accumulator port and the engine of a core: what they take, and what a contribution makes of its tile. -/

namespace Sys2Proof.Machine

/-! ## Rows of a tile, one after another -/

@[simp] theorem Tile.row_setRow_self (t : Tile) (i : Nat) (r : AccRow) : (t.setRow i r).row i = r := by
  simp [Tile.row, Tile.setRow]

theorem Tile.row_setRow_ne (t : Tile) {i j : Nat} (r : AccRow) (h : j ≠ i) : (t.setRow i r).row j = t.row j := by
  simp [Tile.row, Tile.setRow, Tbl.getD_set_ne _ _ _ h]

/-- Row row + i of a tile replaced by what f i makes of it, for each i below n in turn. -/
def Tile.mapRows (t : Tile) (row n : Nat) (f : Nat → AccRow → AccRow) : Tile :=
  (List.range n).foldl (fun t i => t.setRow (row + i) (f i (t.row (row + i)))) t

theorem Tile.mapRows_succ (t : Tile) (row n : Nat) (f : Nat → AccRow → AccRow) :
    t.mapRows row (n + 1) f =
      (t.mapRows row n f).setRow (row + n) (f n ((t.mapRows row n f).row (row + n))) := by
  simp [Tile.mapRows, List.range_succ]

theorem Tile.changeRows_eq (t : Tile) (row n : Nat) (f : AccRow → AccRow) :
    t.changeRows row n f = t.mapRows row n fun _ => f := rfl

/-- Rows loaded from images one after another. -/
theorem Tile.loadRows_eq (t : Tile) (row n : Nat) (g : Nat → List Byte) :
    ((List.range n).map fun j => (row + j, g j)).foldl (fun t x => t.setRow x.1 (rowOfImage x.2)) t =
      t.mapRows row n fun i _ => rowOfImage (g i) := List.foldl_map

@[simp] theorem Tile.mapRows_events (t : Tile) (row n : Nat) (f : Nat → AccRow → AccRow) :
    (t.mapRows row n f).events = t.events := by
  induction n with
  | zero => rfl
  | succ n ih => rw [Tile.mapRows_succ]; exact ih

@[simp] theorem Tile.mapRows_drops (t : Tile) (row n : Nat) (f : Nat → AccRow → AccRow) :
    (t.mapRows row n f).drops = t.drops := by
  induction n with
  | zero => rfl
  | succ n ih => rw [Tile.mapRows_succ]; exact ih

theorem Tile.row_mapRows_outside (t : Tile) {row n j : Nat} (f : Nat → AccRow → AccRow) (h : j < row ∨ row + n ≤ j) :
    (t.mapRows row n f).row j = t.row j := by
  induction n with
  | zero => rfl
  | succ n ih => rw [Tile.mapRows_succ, Tile.row_setRow_ne _ _ (by omega), ih (by omega)]

theorem Tile.row_mapRows_inside (t : Tile) {row n j : Nat} (f : Nat → AccRow → AccRow) (h : j < n) :
    (t.mapRows row n f).row (row + j) = f j (t.row (row + j)) := by
  induction n with
  | zero => exact absurd h (Nat.not_lt_zero j)
  | succ n ih =>
    rw [Tile.mapRows_succ]
    obtain rfl | hj := Nat.eq_or_lt_of_le (Nat.le_of_lt_succ h)
    · rw [Tile.row_setRow_self, Tile.row_mapRows_outside _ _ (by omega)]
    · rw [Tile.row_setRow_ne _ _ (by omega), ih hj]

/-- The rows of a tile in a range that are not empty and have a property, by their numbers. -/
theorem Tile.length_live_filter (t : Tile) (row n : Nat) (p : AccRow → Bool) :
    ((t.live row n).filter p).length = (List.range n).countP fun j => !(t.row (row + j)).empty && p (t.row (row + j)) := by
  rw [Tile.live, List.filter_filter, ← List.countP_eq_length_filter, List.countP_map]
  exact List.countP_congr fun j _ => by simp [And.comm]

theorem Tile.live_any (t : Tile) (row n : Nat) (p : AccRow → Bool) :
    (t.live row n).any p = true ↔ ∃ j < n, (t.row (row + j)).empty = false ∧ p (t.row (row + j)) = true := by
  simp [Tile.live, List.any_eq_true]

/-! ## The answer to the stream -/

theorem State.setWait_eq {s : State} {a : Issuer} {c : ScalarCtx} (h : s.sctx a = some c) (w : ScalarWait) :
    s.setWait a w = s.setSctx a { c with wait := w } := by simp [State.setWait, h]

/-- The stream that waits for the port is answered. -/
theorem State.accAnswer_ok {s : State} {a : Issuer} {c : ScalarCtx} (h : s.sctx a = some c) (hw : c.wait = .acc)
    (v : W64) : s.accAnswer a (.ok v) = s.setWait a (.accDone v) := by simp [State.accAnswer, h, hw]

theorem State.accAnswer_error {s : State} {a : Issuer} {c : ScalarCtx} (h : s.sctx a = some c) (hw : c.wait = .acc)
    (t : Trap) : s.accAnswer a (.error t) = s.setWait a (.answerErr t) := by simp [State.accAnswer, h, hw]

@[simp] theorem State.setCrew_sctx (s : State) (k : Nat) (x : Crew) (a : Issuer) : (s.setCrew k x).sctx a = s.sctx a := by
  cases a <;> rfl

@[simp] theorem State.poolStore_sctx (s : State) (pa : Nat) (bs : List Byte) (a : Issuer) :
    (s.poolStore pa bs).sctx a = s.sctx a := by
  cases a <;> rfl

/-- What every step of a fold leaves, the fold leaves. -/
theorem foldl_invariant {α β γ : Type} (g : β → γ) (f : β → α → β) (h : ∀ b x, g (f b x) = g b) (l : List α) (b : β) :
    g (l.foldl f b) = g b := by
  induction l generalizing b with
  | nil => rfl
  | cons x l ih => rw [List.foldl_cons, ih, h]

theorem State.storeRow_sctx (s : State) (fmt : AccFmt) (rm : RmSr) (sat : Bool) (seed : W64) (o : OpRef) (t row : Nat)
    (r : AccRow) (a : Issuer) : (s.storeRow fmt rm sat seed o t row r).sctx a = s.sctx a := by
  have put (s : State) (bs : List Byte) : (s.putRow o.core (o.line + o.off) t (accLines fmt) bs).sctx a = s.sctx a :=
    foldl_invariant (·.sctx a) _ (fun _ _ => State.poolStore_sctx _ _ _ a) _ s
  unfold State.storeRow
  split
  · exact State.poolStore_sctx _ _ _ a
  · dsimp only
    split
    · exact put s _
    · rw [State.poolStore_sctx, put]

/-- A contribution that changes a tile of a crew and answers its stream: the tile is what it makes of it, and the crew's
other tiles stand. -/
theorem State.changeTile_answered {s : State} {k tile : Nat} {y : Crew} {t : Tile} {i : Issuer} {c : ScalarCtx}
    (hk : s.crew? k = some y) (ht : y.tiles[tile]? = some t) (hs : s.sctx i = some c) (hw : c.wait = .acc) (v : W64)
    (f : Tile → Tile) {P : Tile → Prop} (hP : P (f t)) :
    ∃ u, ((s.changeTile k tile f).accAnswer i (.ok v)).crew? k = some u ∧
      (((s.changeTile k tile f).accAnswer i (.ok v)).sctx i).map (·.wait) = some (.accDone v) ∧
      P (u.tiles.getD tile Tile.new) ∧ ∀ n, n ≠ tile → u.tiles[n]? = y.tiles[n]? := by
  have hc : s.changeTile k tile f = s.setCrew k { y with tiles := y.tiles.modify tile f } := by
    rw [State.changeTile, hk]
  have hs' : (s.changeTile k tile f).sctx i = some c := by rw [hc, State.setCrew_sctx, hs]
  rw [State.accAnswer_ok hs' hw, State.setWait_eq hs', State.sctx_setSctx hs']
  refine ⟨{ y with tiles := y.tiles.modify tile f }, ?_, rfl, ?_, fun n hn => ?_⟩
  · simp [State.crew?, hc]
  · simpa [List.getD, ht] using hP
  · simp [hn.symm]

/-! ## The port and the engine -/

theorem length_operand (s : State) (f : MmaFmt) (lut : Vector (BitVec 16) 16) (o : OpRef) (n : Nat) (b : Bool) :
    (s.operand f lut o n b).length = 64 := by
  cases b <;> simp [State.operand]

/-- An A operand has 64 rows. -/
theorem length_operandA (s : State) (f : MmaFmt) (m : MmaMod) (lut : Vector (BitVec 16) 16) (o : OpRef) (idx : List Nat)
    (h : m.g = true → idx.length = 64) : (s.operandA f m lut o idx).length = 64 := by
  unfold State.operandA
  split
  · simp
  · split
    · next hg => simp [h hg]
    · simp [length_operand]

/-- The port applies the contribution that arrived first. -/
theorem accBatchApply_next {s : State} {core : Nat} (hg : s.gated (clusterOf core) = false) {j : AccJob}
    {rest : List AccJob} (hp : (s.core core).port = j :: rest) (hj : ∀ g v x k t, j ≠ .hole g v x k t) :
    exec (.accBatchApply core) s = .next (((s.setCore core { s.core core with port := rest }).tileEcc j).applyJob j) := by
  simp only [exec, execAccBatchApply, hg, hp, Bool.false_eq_true, if_false]

/-- The values of a quarter of the code table, one after another. -/
theorem getElem_foldl_set_quarter (lut : Vector (BitVec 16) 16) (q : Fin 4) (g : Nat → BitVec 16) (i : Fin 16) {n : Nat}
    (hn : n ≤ 4) :
    ((List.range n).foldl (fun (l : Vector (BitVec 16) 16) k =>
      l.set ((4 * q.val + k) % 16) (g k) (Nat.mod_lt _ (by decide))) lut)[i] =
      if i.val / 4 = q.val ∧ i.val % 4 < n then g (i.val % 4) else lut[i] := by
  induction n with
  | zero => simp
  | succ n ih =>
    rw [List.range_succ, List.foldl_append, List.foldl_cons, List.foldl_nil, Fin.getElem_fin, Vector.getElem_set]
    split
    · next h =>
      rw [if_pos (by omega), show i.val % 4 = n by omega]
    · next h =>
      rw [← Fin.getElem_fin, ih (by omega)]
      exact ite_congr (propext (by omega)) (fun _ => rfl) fun _ => rfl

/-! ## What a contribution makes of a tile (R251, R252, R255) -/

section
variable {s : State} {k tile : Nat} {y : Crew} {t : Tile} {i : Issuer} {c : ScalarCtx} {row n : Nat} {e : Int}

theorem State.tile_eq (hk : s.crew? k = some y) (ht : y.tiles[tile]? = some t) : s.tile k tile = t := by
  simp [State.tile, hk, List.getD, ht]

/-- Some row of a scaling leaves the range of exponents: RANGE, and the tile stands. -/
theorem State.applyJob_scale_range (hk : s.crew? k = some y) (ht : y.tiles[tile]? = some t) (hs : s.sctx i = some c)
    (hw : c.wait = .acc) (h : ∃ j < n, (t.row (row + j)).empty = false ∧
      ((t.row (row + j)).exp + e < -512 ∨ 511 < (t.row (row + j)).exp + e)) :
    s.applyJob (.scale e k tile row n i) = s.setWait i (.answerErr { code := .range }) := by
  refine (if_pos ?_).trans (State.accAnswer_error hs hw _)
  rw [State.tile_eq hk ht, Tile.live_any]
  simpa using h

/-- Otherwise every row that is not empty is scaled. -/
theorem State.applyJob_scale_ok (hk : s.crew? k = some y) (ht : y.tiles[tile]? = some t)
    (h : ∀ j, j < n → (t.row (row + j)).empty = false → -512 ≤ (t.row (row + j)).exp + e ∧ (t.row (row + j)).exp + e ≤ 511) :
    s.applyJob (.scale e k tile row n i) = (s.changeTile k tile fun t =>
      t.changeRows row n fun r => if r.empty then r else { r with exp := r.exp + e }).accAnswer i (.ok 0) := by
  refine if_neg ?_
  rw [State.tile_eq hk ht, Tile.live_any]
  rintro ⟨j, hj, he, hb⟩
  have := h j hj he
  simp only [Bool.or_eq_true, decide_eq_true_eq] at hb
  omega

end

/-- Settles O26: the port and the engine take the head of their queues, and each contribution changes the rows of its range
one after another and answers its stream. -/
theorem accumulatorPort : Obligations.AccumulatorPort := by
  unfold Obligations.AccumulatorPort
  intro s core hg
  refine ⟨fun j rest hp hj => accBatchApply_next hg hp hj, fun g v x k t rest hp => ?hole,
    fun f m a b ix idx k tile cl rest he hidx => ?mma, fun k tile y t i c hk ht hs hw => ?tile, fun q v rest he => ?ctab⟩
  case hole => simp only [exec, execAccBatchApply, hg, hp, Bool.false_eq_true, if_false]
  case mma =>
    refine ⟨?_, ?_⟩
    · simp [length_operandA s f m _ a idx hidx]
    · simp only [exec, execMmaExecute, hg, he, Bool.false_eq_true, if_false] <;> rfl
  case tile =>
    intro goes still row n hr hn
    have changed {j : AccJob} (f : Tile → Tile) (he : s.applyJob j = (s.changeTile k tile f).accAnswer i (.ok 0))
        {P : Tile → Prop} (hP : P (f t)) : goes j 0 P := by
      simp only [goes, he]
      exact State.changeTile_answered hk ht hs hw 0 f hP
    clear_value goes
    have outside (f : Nat → AccRow → AccRow) : still (t.mapRows row n f) row n := fun j => Tile.row_mapRows_outside t f
    refine ⟨?clr, fun g owner => ?ld, fun e => ?renorm, fun e he => ?scale,
      fun e j hj hne hb => State.applyJob_scale_range hk ht hs hw ⟨j, hj, hne, hb⟩, fun w => ?hdr, fun r => rfl,
      fun f rm sat seed o => ?st⟩
    case clr =>
      refine changed _ rfl ?_
      have inside {j : Nat} (hlo : row ≤ j) (hhi : j < row + n) :
          (t.mapRows row n fun _ _ => AccRow.cleared).row j = AccRow.cleared := by
        have := Tile.row_mapRows_inside t (row := row) (n := n) (j := j - row) (fun _ _ => AccRow.cleared) (by omega)
        rwa [Nat.add_sub_cancel' hlo] at this
      simp only [Tile.changeRows_eq]
      split
      · exact ⟨outside fun _ _ => AccRow.cleared, fun j => inside, rfl, rfl⟩
      · exact ⟨outside _, fun j => inside, Tile.mapRows_events .., Tile.mapRows_drops ..⟩
    case ld =>
      refine changed _ rfl ?_
      rw [Tile.loadRows_eq]
      exact ⟨outside _, Tile.mapRows_events .., Tile.mapRows_drops .., fun j => Tile.row_mapRows_inside t _⟩
    case renorm =>
      refine changed _ rfl ?_
      simp only [Tile.changeRows_eq, Tile.length_live_filter, Tile.mapRows_events]
      refine ⟨outside fun _ r => if !r.empty && decide (r.exp < e) then r.renorm (e - r.exp).toNat else r,
        Tile.mapRows_drops .., trivial, fun j hj => (Tile.row_mapRows_inside t _ hj).trans ?_⟩
      simp
    case scale =>
      refine changed _ (State.applyJob_scale_ok hk ht he) ?_
      rw [Tile.changeRows_eq]
      exact ⟨outside _, Tile.mapRows_events .., Tile.mapRows_drops .., fun j => Tile.row_mapRows_inside t _⟩
    case hdr =>
      rw [State.applyJob, State.accAnswer_ok hs hw, State.tile_eq hk ht]
    case st =>
      have hst (l : List Nat) : (l.foldl (fun u j => u.storeRow f rm sat seed o j (row + j) (t.row (row + j))) s).sctx i =
          some c := (foldl_invariant (·.sctx i) _ (fun u j => State.storeRow_sctx u ..) l s).trans hs
      rw [State.applyJob, State.tile_eq hk ht, State.accAnswer_ok (hst _) hw]
  case ctab =>
    refine ⟨_, by simp only [exec, execCtabApply, he]; rfl, fun i => ?_⟩
    refine (getElem_foldl_set_quarter _ q _ i (Nat.le_refl 4)).trans
      (ite_congr (propext (by omega)) (fun _ => ?_) fun _ => rfl)
    exact BitVec.eq_of_toNat_eq (by simp [fld])

end Sys2Proof.Machine
end

section
/-! The matrix instructions and the `acc.*` at issue: a reference that passes its checks, the contribution that goes to the
port, and the job that joins the engine. -/

namespace Sys2Proof.Machine

/-! ## Checks that pass (R128, R234, R242) -/

/-- No condition holds, so that no fault is raised. -/
theorem firstFault_ok {l : List (Bool × Trap)} (h : ∀ x ∈ l, x.1 = false) : firstFault l = .ok () := by
  induction l with
  | nil => rfl
  | cons x l ih =>
    obtain ⟨hx, hl⟩ := List.forall_mem_cons.1 h
    rw [firstFault, hx, if_neg Bool.false_ne_true, ih hl]

theorem badRef_eq_false {scales : Bool} {v : W64} (h : CleanReference scales v) : badRef scales v = false := by
  obtain ⟨hlow, hmid, hsoff⟩ := h
  simp only [badRef, refSoff, fld, Nat.div_eq_of_lt hlow, hmid]
  cases scales with
  | true => rfl
  | false => rw [hsoff rfl]; rfl

theorem badTile_eq_false {s : State} {a : Issuer} {t : AccSel} {k : Nat} {w : Crew} (h : Selects s a t k w) :
    badTile (some (k, w)) t = false := decide_eq_false (Nat.not_le.2 h.2)

/-- A reference to a berth that the issuer holds in one of the states. -/
theorem State.checkRef_held {s : State} {a : Issuer} {states : List BerthState} {v : W64} {r : BerthRef}
    (hr : s.handle a.cluster (v.toNat % 2 ^ 16) = some r) (hh : s.holdsBerth a r.entry = true)
    (hst : r.entry.state ∈ states) :
    s.checkRef a states v = { ref := some r, owner := false, state := false } := by
  simp only [State.checkRef, refHandle, hr, State.heldByOther, hh, Bool.not_true, Bool.and_false,
    List.contains_iff_mem.2 hst]

/-- An extent that lies in the berth is not beyond it. -/
theorem beyond_eq_false {r : BerthRef} {o b : Bool} {n : Nat} (h : n ≤ 64 * r.entry.size) :
    ({ ref := some r, owner := o, state := b } : RefCheck).beyond n = false :=
  decide_eq_false (by omega)

theorem absent_beyond (o b : Bool) (n : Nat) : ({ ref := none, owner := o, state := b } : RefCheck).beyond n = false := rfl

/-- Scales that fit are not beyond the berth. -/
theorem scales_beyond_eq_false {scales : Bool} {v : W64} {r : BerthRef} {o b : Bool} {n : Nat}
    (h : ScalesFit scales v r n) :
    (scales && ({ ref := some r, owner := o, state := b } : RefCheck).beyond (64 * refSoff v + n)) = false := by
  cases scales with
  | false => rfl
  | true => exact beyond_eq_false (o := o) (b := b) (h rfl)

/-! ## The issue of an `acc.*` (R247, R250) -/

theorem ScalarCtx.rechecked_wait {c : ScalarCtx} (h : Unbegun c) : c.rechecked.wait = .none := by
  obtain h | h := h <;> simp [ScalarCtx.rechecked, h]

section
variable {s : State} {a : Issuer} {c : ScalarCtx} {t : AccSel} {rows : Option (Nat × Nat)}
  {faults : Issuer → ScalarCtx → AccFaults} {job : Issuer → ScalarCtx → Nat → Option AccJob}

/-- An `acc.*` without faults, with no MMA of the pilot's ahead of it, sends its contribution to the port of the tile's
core. -/
theorem accIssue_contributed {d : Option SReg} {k : Nat} {w : Crew} {v : W64} {j : AccJob} (hi : Issues s a c)
    (hu : Unbegun c) (hd : ∀ r, d = some r → Writable s a r) (hsel : Selects s a t k w)
    (hm : s.mmaAhead a k t.tile.val = false) (hrows : ∀ r n, rows = some (r, n) → r + n ≤ 64)
    (hf : faults a c.rechecked = { handle := v }) (hj : job a c.rechecked k = some j) :
    accIssue s t rows faults job d = .next (contributed s a (coreOf k) j) := by
  refine scalar_next hi.1 hi.2 rfl ?_
  have htile := badTile_eq_false hsel
  obtain ⟨hcrew, -⟩ := hsel
  simp only [ScalarCtx.rechecked_wait hu, hcrew, hf, hm, hj]
  rw [firstFault_ok ?checks]
  case checks =>
    cases rows with
    | none => simp [htile]
    | some x => simpa [htile] using hrows x.1 x.2 rfl
  cases d with
  | none => rfl
  | some r => simp only [State.interlock_ok (hd r rfl)]; rfl

/-- The contribution has been applied, and the stream goes on. -/
theorem accIssue_advanced {v : W64} (hi : Issues s a c) (hw : c.wait = .accDone v) :
    accIssue s t rows faults job none = .next (advanced s a c 8) := by
  refine scalar_next hi.1 hi.2 rfl ?_
  rw [ScalarCtx.rechecked_eq (by simp [hw]), advanced, ← State.next_eq hi.2]
  simp only [hw]
  rfl

/-- ... with the value answered. -/
theorem accIssue_wrote {v : W64} {d : SReg} (hi : Issues s a c) (hw : c.wait = .accDone v) (hd : Writable s a d) :
    accIssue s t rows faults job (some d) = .next (wrote s a c 8 d v) := by
  refine scalar_next hi.1 hi.2 rfl ?_
  rw [ScalarCtx.rechecked_eq (by simp [hw]), wrote, ← State.finish_eq hi.2]
  simp only [State.interlock_ok hd, hw]
  rfl

end

/-- The berth that an `acc.*` names has no fault: it is held in one of the states, its extents lie in it, what it reads is
not poisoned, and its bytes pass the further check. -/
theorem refFaults_none {s : State} {a : Issuer} {v : W64} {scales : Bool} {states : List BerthState} {elems scale : Nat}
    {bad : OpRef → Nat → Bool} {r : BerthRef} (hr : s.handle a.cluster (v.toNat % 2 ^ 16) = some r)
    (hh : s.holdsBerth a r.entry = true) (hst : r.entry.state ∈ states) (hv : CleanReference scales v)
    (hoff : 64 * refOff v ≤ 64 * r.entry.size) (hel : elems ≤ 64 * r.entry.size - 64 * refOff v)
    (hsc : ScalesFit scales v r scale)
    (hp : BerthState.filling ∈ states ∨ s.spoisoned (r.core * 2 ^ 20 + 64 * (r.entry.base + refOff v)) elems = false)
    (hbad : bad (opRef r v) (64 * r.entry.size - 64 * refOff v) = false) :
    refFaults s a v scales states elems scale bad = { handle := v } := by
  have hclean : (!states.contains .filling && s.spoisoned (r.core * 2 ^ 20 + 64 * (r.entry.base + refOff v)) elems) =
      false := by
    obtain h | h := hp
    · rw [List.contains_iff_mem.2 h]; rfl
    · rw [h, Bool.and_false]
  simp only [refFaults, State.checkRef_held hr hh hst, badRef_eq_false hv, scales_beyond_eq_false hsc, hclean, hbad,
    beyond_eq_false (show 64 * refOff v + elems ≤ 64 * r.entry.size by omega), Bool.or_self]

/-! ## The instructions on rows of a tile (R251 to R256) -/

/-- An `acc.*` on rows ROW0 to ROW0 + NROWS of a tile of crew k is to be issued: it has not begun, the rows lie in the
tile, and no MMA of the pilot's is ahead of it. -/
structure AccReady (s : State) (a : Issuer) (c : ScalarCtx) (t : AccSel) (k : Nat) (row n : Fin 64) : Prop where
  issues : Issues s a c
  unbegun : Unbegun c
  selects : ∃ w, Selects s a t k w
  first : s.mmaAhead a k t.tile.val = false
  inside : row.val + n.val + 1 ≤ 64

section
variable {s : State} {a : Issuer} {c : ScalarCtx} {t : AccSel} {k : Nat} {row n : Fin 64} {x : SReg} {r : BerthRef}

/-- Without faults of its own, it sends its contribution. -/
theorem AccReady.accIssue_eq {faults : Issuer → ScalarCtx → AccFaults} {job : Issuer → ScalarCtx → Nat → Option AccJob}
    {v : W64} {j : AccJob} (h : AccReady s a c t k row n) (hf : faults a c.rechecked = { handle := v })
    (hj : job a c.rechecked k = some j) :
    accIssue s t (rowSpan row n) faults job none = .next (contributed s a (coreOf k) j) := by
  obtain ⟨w, hsel⟩ := h.selects
  refine accIssue_contributed h.issues h.unbegun nofun hsel h.first (fun r m he => ?_) hf hj
  obtain ⟨rfl, rfl⟩ := Prod.mk.inj (Option.some.inj he)
  exact h.inside

theorem AccReady.exec_accClr (h : AccReady s a c t k row n) :
    exec (.accClr t row n) s = .next (contributed s a (coreOf k) (.clr k t.tile.val row.val (n.val + 1) a)) := by
  simp only [exec, execAccClr]
  exact h.accIssue_eq (v := 0) rfl rfl

/-- An `acc.*` whose amount, in sa, lies in its range (R255, R256). -/
theorem AccReady.accIssue_amount (h : AccReady s a c t k row n) {v : W64} (hv : c.s[x.val] = v) {lo hi : Int}
    (hlo : lo ≤ v.toInt) (hhi : v.toInt ≤ hi) (job : Int → Nat → Issuer → AccJob) :
    accIssue s t (rowSpan row n)
      (fun _ c => { range := decide ((c.get x).toInt < lo) || decide (hi < (c.get x).toInt) })
      (fun i c k => some (job (c.get x).toInt k i)) none = .next (contributed s a (coreOf k) (job v.toInt k a)) := by
  refine h.accIssue_eq (v := 0) ?_ ?_ <;> rw [ScalarCtx.rechecked_get, ScalarCtx.get, hv]
  rw [decide_eq_false (Int.not_lt.2 hlo), decide_eq_false (Int.not_lt.2 hhi)]
  rfl

theorem AccReady.exec_accRenorm (h : AccReady s a c t k row n) {v : W64} (hv : c.s[x.val] = v) (hlo : -512 ≤ v.toInt)
    (hhi : v.toInt ≤ 511) : exec (.accRenorm t row n x) s =
      .next (contributed s a (coreOf k) (.renorm v.toInt k t.tile.val row.val (n.val + 1) a)) := by
  simp only [exec, execAccRenorm]
  exact h.accIssue_amount hv hlo hhi fun e k i => .renorm e k t.tile.val row.val (n.val + 1) i

theorem AccReady.exec_accScale (h : AccReady s a c t k row n) {v : W64} (hv : c.s[x.val] = v) (hlo : -1023 ≤ v.toInt)
    (hhi : v.toInt ≤ 1023) : exec (.accScale t row n x) s =
      .next (contributed s a (coreOf k) (.scale v.toInt k t.tile.val row.val (n.val + 1) a)) := by
  simp only [exec, execAccScale]
  exact h.accIssue_amount hv hlo hhi fun e k i => .scale e k t.tile.val row.val (n.val + 1) i

/-- `acc.ld` from a berth without poison, none of whose images is ill-formed (R252). -/
theorem AccReady.exec_accLd (h : AccReady s a c t k row n) {v : W64} (hv : c.s[x.val] = v)
    (hr : s.handle a.cluster (refHandle v) = some r)
    (hf : ∀ bad : OpRef → Nat → Bool, bad (opRef r v) (64 * r.entry.size - 64 * refOff v) = false →
      refFaults s a v false [.full, .draining] (388 * (n.val + 1)) 0 bad = { handle := v })
    (himg : ∀ i, 388 * (i + 1) ≤ 64 * r.entry.size - 64 * refOff v → i ≤ n.val →
      badImage (s.rawRow (opRef r v) i) = false) :
    exec (.accLd t row n x) s = .next (contributed s a (coreOf k)
      (.ld ((List.range (n.val + 1)).map fun i => (row.val + i, s.rawRow (opRef r v) i)) k t.tile.val a
        (s.ownerOf (opRef r v)))) := by
  simp only [exec, execAccLd]
  refine h.accIssue_eq (v := v) ?_ ?_ <;> rw [ScalarCtx.rechecked_get, ScalarCtx.get, hv]
  · refine hf _ (List.any_eq_false.2 fun i hi => ?_)
    simpa using fun hfit => himg i hfit (Nat.le_of_lt_succ (List.mem_range.1 hi))
  · simp only [hr]

/-- `acc.add` from a berth without poison (R254). -/
theorem AccReady.exec_accAdd (h : AccReady s a c t k row n) {v : W64} (hv : c.s[x.val] = v)
    (hr : s.handle a.cluster (refHandle v) = some r)
    (hf : refFaults s a v false [.full, .draining] (256 * (n.val + 1)) 0 (fun _ _ => false) = { handle := v }) :
    exec (.accAdd t row n x) s = .next (contributed s a (coreOf k)
      (.batches ((List.range (n.val + 1)).map fun i =>
        addBatch (row.val + i) (s.storedRow r.core (r.entry.base + refOff v) i 4)) k t.tile.val a
        (.add (s.ownerOf (opRef r v))))) := by
  simp only [exec, execAccAdd]
  refine h.accIssue_eq (v := v) ?_ ?_ <;> rw [ScalarCtx.rechecked_get, ScalarCtx.get, hv]
  · exact hf
  · simp only [hr]
    rfl

/-- `acc.st` to a berth (R253). -/
theorem AccReady.exec_accSt (h : AccReady s a c t k row n) {y : SReg} {f : AccFmt} {rm : RmSr} {sat : Bool} {v : W64}
    (hv : c.s[x.val] = v) (hr : s.handle a.cluster (refHandle v) = some r)
    (hf : refFaults s a v (bxBits f != 0) [.filling] (if f = .raw then 388 * (n.val + 1) else 64 * accLines f * (n.val + 1))
      (4 * (n.val + 1)) (fun _ _ => false) = { handle := v }) :
    exec (.accSt f rm sat t row n x y) s = .next (contributed s a (coreOf k)
      (.st f rm sat c.s[y.val] (opRef r v) k t.tile.val row.val (n.val + 1) a)) := by
  simp only [exec, execAccSt]
  refine h.accIssue_eq (v := v) ?_ ?_ <;> rw [ScalarCtx.rechecked_get, ScalarCtx.get, hv]
  · exact hf
  · simp only [hr, ScalarCtx.rechecked_get]
    rfl

end

/-- Settles O25: every `acc.*` is issued in the same way, with its own faults, which the premises exclude, and its own
contribution. -/
theorem accumulatorIssue : Obligations.AccumulatorIssue := by
  unfold Obligations.AccumulatorIssue
  intro s a c x y d t row n hi
  refine ⟨fun k w hu hsel hm => ⟨fun hrows => ?rows, fun hd q => ?hdr⟩, fun v hw => ?answered⟩
  case rows =>
    have h : AccReady s a c t k row n := ⟨hi, hu, ⟨w, hsel⟩, hm, hrows⟩
    refine ⟨h.exec_accClr, h.exec_accRenorm rfl, h.exec_accScale rfl, fun r hr hh => ⟨fun hv hst hoff =>
      ⟨fun hel himg hp => ?ld, fun hel hp => ?add⟩, fun hst hoff f rm sat hv hel hsc => ?st⟩⟩
    case ld =>
      exact h.exec_accLd rfl hr
        (fun bad => refFaults_none hr hh (by simpa using hst) hv hoff hel nofun (.inr hp)) himg
    case add =>
      exact h.exec_accAdd rfl hr (refFaults_none hr hh (by simpa using hst) hv hoff hel nofun (.inr hp) rfl)
    case st =>
      exact h.exec_accSt rfl hr (refFaults_none hr hh (by simpa using hst) hv hoff hel hsc (.inl (by simp)) rfl)
  case hdr =>
    simp only [exec, execAccHdr]
    exact accIssue_contributed (v := 0) hi hu (fun r hr => Option.some.inj hr ▸ hd) hsel hm nofun rfl rfl
  case answered =>
    simp only [exec, execAccClr, execAccLd, execAccSt, execAccAdd, execAccRenorm, execAccScale, execAccHdr]
    exact ⟨accIssue_advanced hi hw, accIssue_advanced hi hw, fun f rm sat => accIssue_advanced hi hw,
      accIssue_advanced hi hw, accIssue_advanced hi hw, accIssue_advanced hi hw,
      fun hd q => accIssue_wrote hi hw hd⟩

/-! ## The issue of an MMA (R231 to R244) -/

@[simp] theorem State.setCore_sctx (s : State) (core : Nat) (u : Core) (a : Issuer) :
    (s.setCore core u).sctx a = s.sctx a := by
  cases a <;> rfl

@[simp] theorem State.drainBerth_sctx (s : State) (o : OpRef) (a : Issuer) : (s.drainBerth o).sctx a = s.sctx a := by
  simp only [State.drainBerth]
  split
  · exact State.setCore_sctx ..
  · rfl

/-- The job joins the engine's queue, and the stream goes on. -/
theorem enqueued_next {s : State} {a : Issuer} {c : ScalarCtx} (h : s.sctx a = some c) (core : Nat) (j : EngineJob)
    (n : Nat) : (enqueued s core j).next a c.pc n = advanced (enqueued s core j) a c n :=
  State.next_eq ((State.setCore_sctx ..).trans h) ..

/-- The reference of an operand passes its checks. -/
theorem checkRef_of_mmaOperand {s : State} {cl n : Nat} {v : W64} {r : BerthRef} (h : MmaOperand s cl v r n) :
    s.checkRef (.pilot cl) [.full, .draining] v = { ref := some r, owner := false, state := false } := by
  obtain ⟨hr, hh, hst, -⟩ := h
  exact State.checkRef_held hr hh (by simpa using hst)

/-- The extent of an operand lies in its berth. -/
theorem extent_beyond_eq_false {s : State} {cl n : Nat} {v : W64} {r : BerthRef} {o b : Bool}
    (h : MmaOperand s cl v r n) :
    ({ ref := some r, owner := o, state := b } : RefCheck).beyond (64 * refOff v + n) = false := by
  obtain ⟨-, -, -, hn⟩ := h
  exact beyond_eq_false hn

/-- ... when it is counted in lines of 64 bytes. -/
theorem lines_beyond_eq_false {s : State} {cl n : Nat} {v : W64} {r : BerthRef} {o b : Bool}
    (h : MmaOperand s cl v r (64 * n)) :
    ({ ref := some r, owner := o, state := b } : RefCheck).beyond (64 * (refOff v + n)) = false := by
  rw [Nat.mul_add]
  exact extent_beyond_eq_false h

/-- The extents of an operand (R239): 128 lines with sparsity, n lines without. -/
theorem mul_operandLines (p : Bool) (n : Nat) : (64 * if p then 128 else n) = if p then 8192 else 64 * n := by
  cases p <;> rfl

/-- An MMA of a pilot whose operands A, of a number of rows, and B pass the checks of R243, and whose engine has room. -/
structure MmaReady (s : State) (cl : Nat) (c : ScalarCtx) (f : MmaFmt) (m : MmaMod) (va vb : W64) (t : AccSel) (k : Nat)
    (ra rb : BerthRef) (rows : Nat) : Prop where
  issues : Issues s (.pilot cl) c
  accepted : Accepted s (.pilot cl) (mmaFeatures f m)
  selects : ∃ w, Selects s (.pilot cl) t k w
  room : (s.core (coreOf k)).mmaCount < 4
  columns : m.ta = true ∨ m.tb = true → f.columns = true
  sparse : ¬(m.p = true ∧ m.ta = true)
  cleanA : CleanReference f.scaled va
  cleanB : CleanReference f.scaled vb
  operandA : MmaOperand s cl va ra (64 * if m.p then 128 else rows)
  operandB : MmaOperand s cl vb rb (64 * if m.p then 128 else 64)
  scalesA : ScalesFit f.scaled va ra (2 * (f.k / 32) * rows)
  scalesB : ScalesFit f.scaled vb rb (128 * ((if m.p then 2 * f.k else f.k) / 32))

section
variable {s : State} {cl : Nat} {c : ScalarCtx} {f : MmaFmt} {m : MmaMod} {d x y : SReg} {t : AccSel} {k : Nat}
  {ra rb ri : BerthRef}

/-- Without gather, the two operands are the MMA's only references. -/
theorem MmaReady.mmaIssue_plain (h : MmaReady s cl c f m c.s[x.val] c.s[y.val] t k ra rb 64) (hg : m.g = false) :
    let a := opRef ra c.s[x.val]
    let b := opRef rb c.s[y.val]
    mmaIssue s f m d x y t = .next (advanced
      (enqueued ((s.drainBerth a).drainBerth b) (coreOf k) (.mma f m a b none [] k t.tile.val cl)) (.pilot cl) c 8) := by
  obtain ⟨w, hsel⟩ := h.selects
  have htile := badTile_eq_false hsel
  obtain ⟨hcrew, -⟩ := hsel
  refine scalar_next h.issues.1 h.issues.2 (Bool.and_eq_true_iff.2 ⟨rfl, h.accepted⟩) ?_
  rw [← enqueued_next (by simp [h.issues.2])]
  simp only [ScalarCtx.get, ScalarCtx.rechecked_s, ScalarCtx.rechecked_pc, hg, hcrew,
    checkRef_of_mmaOperand h.operandA, checkRef_of_mmaOperand h.operandB, Bool.false_eq_true, if_false]
  rw [firstFault_ok ?checks, decide_eq_true h.room]
  case checks =>
    simpa [htile, badRef_eq_false h.cleanA, badRef_eq_false h.cleanB, lines_beyond_eq_false h.operandA,
      lines_beyond_eq_false h.operandB, scales_beyond_eq_false h.scalesA, scales_beyond_eq_false h.scalesB, absent_beyond]
      using ⟨h.columns, by simpa using h.sparse⟩
  rfl

/-- With gather, the rows of A are those that the index vector names, whose berth drains too (R240). -/
theorem MmaReady.mmaIssue_gathered
    (h : MmaReady s cl c f m c.s[x.val] c.s[y.val] t k ra rb (topIndex (s.indexVector (opRef ri c.s[d.val])) + 1))
    (hg : m.g = true) (hm : ¬(m.ta = true ∨ m.p = true)) (hclean : CleanReference false c.s[d.val])
    (hI : MmaOperand s cl c.s[d.val] ri 128) (hpoison : s.operandPoisoned (opRef ri c.s[d.val]) 2 0 = false) :
    let a := opRef ra c.s[x.val]
    let b := opRef rb c.s[y.val]
    let i := opRef ri c.s[d.val]
    mmaIssue s f m d x y t = .next (advanced
      (enqueued (((s.drainBerth a).drainBerth b).drainBerth i) (coreOf k)
        (.mma f m a b (some i) (s.indexVector i) k t.tile.val cl)) (.pilot cl) c 8) := by
  obtain ⟨w, hsel⟩ := h.selects
  have htile := badTile_eq_false hsel
  obtain ⟨hcrew, -⟩ := hsel
  refine scalar_next h.issues.1 h.issues.2 (Bool.and_eq_true_iff.2 ⟨rfl, h.accepted⟩) ?_
  rw [← enqueued_next (by simp [h.issues.2])]
  simp only [ScalarCtx.get, ScalarCtx.rechecked_s, ScalarCtx.rechecked_pc, hg, hcrew, checkRef_of_mmaOperand hI,
    checkRef_of_mmaOperand h.operandA, checkRef_of_mmaOperand h.operandB, extent_beyond_eq_false hI, if_true,
    Bool.false_eq_true, if_false]
  rw [firstFault_ok ?checks, decide_eq_true h.room]
  case checks =>
    simpa [htile, badRef_eq_false h.cleanA, badRef_eq_false h.cleanB, badRef_eq_false hclean,
      lines_beyond_eq_false h.operandA, lines_beyond_eq_false h.operandB, scales_beyond_eq_false h.scalesA,
      scales_beyond_eq_false h.scalesB, hpoison] using ⟨⟨h.columns, by simpa using hm⟩, by simpa using h.sparse⟩
  rfl
end

end Sys2Proof.Machine

namespace Sys2Proof

open Sys2Proof.Machine

/-- Settles O24: with gather or without, no check of R243 fails, and the job joins the engine. -/
theorem mmaIssue : Obligations.MmaIssue := by
  unfold Obligations.MmaIssue
  intro s cl c f m d x y t k w ra rb ri hi hacc hsel hroom va vb vi idx rows n hcol hg hpt hva hvb hA hB hsA hsB hix ix u v
  rw [exec_mmaInstr]
  have ready : MmaReady s cl c f m va vb t k ra rb rows :=
    ⟨hi, hacc, ⟨w, hsel⟩, hroom, hcol, hpt, hva, hvb, by rw [mul_operandLines]; exact hA,
      by rw [mul_operandLines]; exact hB, hsA, hsB⟩
  cases hmg : m.g with
  | false =>
    simp only [rows, v, ix, idx, hmg, Bool.false_eq_true, if_false] at ready ⊢
    exact ready.mmaIssue_plain hmg
  | true =>
    obtain ⟨hvi, hI, hpoison⟩ := hix hmg
    simp only [rows, v, ix, idx, hmg, if_true] at ready ⊢
    exact ready.mmaIssue_gathered hmg (fun h => hg ⟨hmg, h⟩) hvi hI hpoison

end Sys2Proof
end

section
/-! The render words at issue: the checks that pass, the effects that each performs, the entry of a projection and the end
of a `hitq`. -/

namespace Sys2Proof.Machine

/-! ## Checks that pass (R264, R265) -/

/-- The addresses of a word are aligned. -/
theorem LaneCtx.checkAlign_ok {c : LaneCtx} {size : Nat} {va : Fin 32 → W64}
    (h : ∀ l : Fin 32, c.en.getLsbD l.val = true → (va l).toNat % size = 0) : c.checkAlign size va = .ok () :=
  LaneCtx.check_ok fun l hl => by simp [h l hl]

/-- A ray word's field lies in the record, a pair at an even WORD, and a store's outside of words 9 to 14 (R264, R280). -/
theorem checkRayWord_ok {c : LaneCtx} {word : Fin 32} {w64 store : Bool}
    (heven : w64 = true → word.val % 2 = 0) (hlast : word.val + (if w64 then 1 else 0) < 24)
    (hstore : store = true → ¬(9 ≤ word.val + (if w64 then 1 else 0) ∧ word.val ≤ 14)) :
    checkRayWord c word w64 store = .ok () := by
  have hodd : (w64 && word.val % 2 == 1) = false := by
    cases w64 with
    | false => rfl
    | true => simp [heven rfl]
  have hfield : (store && decide (9 ≤ word.val + if w64 then 1 else 0) && decide (word.val ≤ 14)) = false := by
    cases store with
    | false => rfl
    | true => simpa using hstore rfl
  simp only [checkRayWord]
  rw [LaneCtx.check_ok fun _ _ => by rw [hodd]; rfl,
    LaneCtx.check_ok fun _ _ => by rw [hfield, decide_eq_true hlast]; rfl]
  rfl

/-- A `trace` passes its checks: the level of every lane and PB lie within the kernel's, and the traversal input takes its
entry (R264, R265, R282). -/
theorem traceCheck_ok {pb : Fin 64} {lev : Opd} {c : LaneCtx} {s : State} (hpb : pb.val % 4 = 0)
    (hroom : (s.cluster (clusterOf (coreOf c.g))).travQ.length < 16) (htr : s.tracing (coreOf c.g) = false)
    (hk : ∀ k, s.kernel (.gang c.g) = some k → pb.val ≤ k.payload ∧
      ∀ l : Fin 32, c.en.getLsbD l.val = true → (c.opd lev l).toNat < k.depth) :
    traceCheck pb lev c s = .ok () := by
  have hdepth : ∀ l : Fin 32, c.en.getLsbD l.val = true →
      ((s.kernel (.gang c.g)).all fun k => decide ((c.opd lev l).toNat < k.depth)) = true := fun l hl =>
    (Option.all_eq_true _ _).2 fun k e => decide_eq_true ((hk k e).2 l hl)
  have hpay : (pb.val % 4 == 0 && (s.kernel (.gang c.g)).all fun k => decide (pb.val ≤ k.payload)) = true :=
    Bool.and_eq_true_iff.2 ⟨by simp [hpb], (Option.all_eq_true _ _).2 fun k e => decide_eq_true (hk k e).1⟩
  simp only [traceCheck]
  rw [LaneCtx.check_ok hdepth, LaneCtx.check_ok fun _ _ => hpay, htr, decide_eq_true hroom]
  rfl

/-! ## Words that perform their effects -/

/-- A word of one effect in each lane whose only check at issue is the alignment of its addresses. -/
theorem aligned_performs {i : Instr} {o : LaneCtx → WordOrder} {k : Nat} {va : LaneCtx → Fin 32 → W64}
    {ops : LaneCtx → State → Fin 32 → MemOp}
    (he : ∀ s, exec i s = laneVar s i o (fun c _ => c.checkAlign k (va c)) ops) :
    Performs i o (fun c _ => ∀ l : Fin 32, c.en.getLsbD l.val = true → (va c l).toNat % k = 0) ops :=
  laneVar_performs he (fun _ => rfl) (fun _ _ hok _ => LaneCtx.checkAlign_ok hok) fun _ _ => rfl

/-- A word of one effect in each lane that checks nothing at issue. -/
theorem unchecked_performs {i : Instr} {o : LaneCtx → WordOrder} {ops : LaneCtx → State → Fin 32 → MemOp}
    (he : ∀ s, exec i s = laneVar s i o (fun _ _ => .ok ()) ops) : Performs i o (fun _ _ => True) ops :=
  laneVar_performs he (fun _ => rfl) (fun _ _ _ _ => rfl) fun _ _ => rfl

/-- A `var` word whose checks pass and whose effects nothing holds back performs them, and the slot goes on. -/
theorem laneMany_performs {s t : State} {i : Instr} {y : Gang} {c : LaneCtx} {o : LaneCtx → WordOrder}
    {check : LaneCtx → State → Act Unit} {ops : LaneCtx → State → List (Fin 32 × MemOp) × State}
    {l : List (Fin 32 × MemOp)} (he : exec i s = laneMany s i o check ops) (hi : LaneIssues s i false y c t)
    (hm : MayPerform c (o c) (t.skipChoice c.view))
    (hc : check c (t.skipChoice c.view) = .ok ()) (hl : ops c (t.skipChoice c.view) = (l, t.skipChoice c.view)) :
    ∃ u, (t.skipChoice c.view).wordEffects c (o c) l = .ok u ∧ exec i s = .next (u.advance c) := by
  obtain ⟨u, hu⟩ := State.wordEffects_ok hm l
  rw [he]
  refine ⟨u, hu, laneIssue_next hi ?_⟩
  simp only [hc, hl, hu, bind, Except.bind]

/-- Of two groups that are not one, a `gback` takes no free value: each lane has the one effect of R274. -/
theorem backOps_of_ne {c : LaneCtx} {vp : PReg} {d r : VReg} (h : d ≠ r) (a b : Opd) (l : List (Fin 32)) (s : State) :
    backOps c vp d a b r l s =
      (l.map fun n => (n, .gback (c.opd64 a n) (c.opd b n) (c.grp16 r n) d r vp none), s) := by
  induction l with
  | nil => rfl
  | cons n l ih => simp only [backOps, if_neg h, ih, List.map_cons]

/-- `gback` performs its lanes' effects. -/
theorem gback_performs {h : LaneHdr} {vp : PReg} {d r : VReg} {a b : Opd} (hne : d ≠ r) :
    Performs (.gback h vp d a b r) (fun _ => {})
      (fun c _ => ∀ l : Fin 32, c.en.getLsbD l.val = true → (c.opd64 a l).toNat % 4 = 0)
      fun c _ l => .gback (c.opd64 a l) (c.opd b l) (c.grp16 r l) d r vp none := by
  intro s y c t hi hok hm
  have he : exec (.gback h vp d a b r) s = execGback h vp d a b r s := rfl
  exact laneMany_performs he hi hm (LaneCtx.checkAlign_ok hok) (backOps_of_ne hne ..)

/-- The order of a `gscat`: strong accesses, and the bytes of its terms where a crew holds it (R229, R275). -/
def gscatOrder (tm : BitVec 16) (fx : Bool) (c : LaneCtx) : WordOrder :=
  { strong := true, held := some (maskCount c.en * (termsOf tm).length * if fx then 8 else 4) }

/-- The additions of a `gscat`: in each lane one for each term of its mask (R275). -/
def gscatOps (tm : BitVec 16) (fx : Bool) (p : Fin 64) (a : Opd) (r : VReg) (c : LaneCtx) : List (Fin 32 × MemOp) :=
  (maskLanes c.en).flatMap fun l => (termsOf tm).map fun i =>
    let va := c.opd64 a l + BitVec.ofNat 64 ((if fx then 8 else 4) * i)
    (l, if fx then .fx va (fx64OfF32 .rne p.val (c.grp r i l)) p.val none
      else .red .fadd false va ((c.grp r i l).setWidth 64))

theorem exec_gscat (h : LaneHdr) (tm : BitVec 16) (fx : Bool) (p : Fin 64) (a : Opd) (r : VReg) (s : State) :
    exec (.gscat h tm fx p a r) s = laneMany s (.gscat h tm fx p a r) (gscatOrder tm fx)
      (fun c _ => c.checkAlign (16 * if fx then 8 else 4) (c.opd64 a)) fun c s => (gscatOps tm fx p a r c, s) := rfl

/-! ## Pushes to the projection input (R269) -/

/-- The entry of a projection joins the input of the cluster, and the slot goes on. -/
theorem laneProject_next {s t : State} {i : Instr} {y : Gang} {c : LaneCtx} {w : Crew} {point : Bool} {a : Opd}
    {b : Fin 32} (hi : LaneIssues s i false y c t) (halign : (c.sreg b).toNat % 128 = 0)
    (hroom : ((t.skipChoice c.view).cluster (clusterOf (coreOf c.g))).projQ.length < 16)
    (hw : (t.skipChoice c.view).laneCrew c = some w) :
    let u := t.skipChoice c.view
    let cl := clusterOf (coreOf c.g)
    laneProject s i point a b = .next ((u.setCluster cl { u.cluster cl with projQ := (u.cluster cl).projQ ++
      [{ who := u.crewStarter w, items := (maskLanes c.en).map (c.opd a), addr := c.sreg b, point := point,
         block := none, item := none }] }).advance c) := by
  refine laneIssue_next hi ?_
  dsimp only
  rw [LaneCtx.check_ok fun _ _ => by simp [halign], decide_eq_true hroom, hw]
  rfl

/-! ## `hitq` (R284) -/

/-- A `hitq` whose lanes' rays are all done, and of which nothing is out at another package, completes with their
results. -/
theorem execHitq_next {s t : State} {h : LaneHdr} {d : VReg} {a : Fin 32} {b : Opd} {y z : Gang} {c : LaneCtx}
    (hi : LaneIssues s (.hitq h d a b) false y c t) (hg : (t.skipChoice c.view).gang? c.g = some z)
    (ho : (t.skipChoice c.view).inOrder c.g false = true) (hr : (t.skipChoice c.view).requestRoom = true) :
    let u := t.skipChoice c.view
    let r := hitScan { u.who (.gang c.g) with reader := some (.slot c.g c.slot.val) } (u.ownLoads c.g)
      (fun l => .hitq (c.sreg a) (c.opd b l) d) (maskLanes c.en)
      { st := { u with peer := u.slotPeers c.g c.slot z.lpc[c.slot].lines }, got := z.lpc[c.slot].got, errs := [],
        far := [], stop := none }
    r.stop = none → r.far = [] →
      execHitq h d a b s = .next (({ r.st with peer := u.peer }.fresh.2.addVar c.g
        (c.pend { strong := true } r.st.nextId (laneWrites (hitResults d r.got))) r.errs).advance c) := by
  intro u r hstop hfar
  refine laneIssue_next hi ?_
  dsimp only
  rw [ho, hr, hg]
  simp only [holdUntil, Bool.and_self, if_true, bind, Except.bind]
  rw [hfar, hstop]
  rfl

end Sys2Proof.Machine

namespace Sys2Proof

open Sys2Proof.Machine

/-- Settles O40: each `var` word performs its lanes' effects once its checks pass, and the pushes of a projection and the
results of a `hitq` are as their lemmas say. -/
theorem renderWords : Obligations.RenderWords := by
  unfold Obligations.RenderWords
  intro h d a b e vp vd vc q sa off tm fx w64 pt word pb fp n last aligned grp strong free always back dst
  refine ⟨?geval, ?gblend, gback_performs, fun f => ?fbw, ?rpush, ?rpop, ?rgen,
    fun hlast heven => ⟨?rayld, fun hstore => ?rayst⟩, ?gscat, ?project, ?trace, ?hitq⟩
  case geval => exact aligned_performs fun s => show execGeval h vd a b s = _ from rfl
  case gblend => exact aligned_performs fun s => show execGblend h vp vd a b s = _ from rfl
  case fbw => exact aligned_performs fun s => show execFbw h off f a b vc s = _ from rfl
  case rpush => exact unchecked_performs fun s => show execRpush h d sa s = _ from rfl
  case rpop => exact unchecked_performs fun s => show execRpop h sa b s = _ from rfl
  case rgen => exact unchecked_performs fun s => show execRgen h sa b e s = _ from rfl
  case rayld =>
    refine laneVar_performs (fun s => show execRayld h word w64 d sa b s = _ from rfl) (fun _ => rfl)
      (fun _ _ _ _ => checkRayWord_ok heven hlast nofun) fun _ _ => ?_
    cases d <;> rfl
  case rayst =>
    refine laneVar_performs (fun s => show execRayst h word w64 sa b e s = _ from rfl) (fun _ => rfl)
      (fun _ _ _ _ => checkRayWord_ok heven hlast fun _ => hstore) fun _ _ => ?_
    cases w64 <;> rfl
  case gscat =>
    intro s y c t hi hok terms k ops o hm
    exact laneMany_performs (l := gscatOps tm fx fp a vc c) (exec_gscat h tm fx fp a vc s) hi hm
      (LaneCtx.checkAlign_ok hok) rfl
  case project =>
    intro s y c t w u cl entry pushed halign hroom hw
    exact ⟨fun hi => laneProject_next hi halign hroom hw, fun hi => laneProject_next hi halign hroom hw⟩
  case trace =>
    refine laneVar_performs (fun s => show execTrace h pb q a pt e s = _ from rfl) (fun _ => rfl) (fun c t hok _ => ?_)
      fun _ _ => rfl
    obtain ⟨hpb, hroom, htr, hk⟩ := hok
    exact traceCheck_ok hpb hroom htr hk
  case hitq =>
    intro s y c t z hi u hg ho hr
    exact execHitq_next hi hg ho hr

end Sys2Proof
end

section
/-! The render units at work: an attempt that is made, the steps of the projection stage, of the traversal unit and of the
generator, and the result of a ray. -/

namespace Sys2Proof.Machine

/-! ## Attempts that are made (R305, R486) -/

/-- An attempt that is made has its value. -/
theorem State.attempt_eq_done {α : Type} {s : State} {o : UnitOp} {r : UnitAct α} {x : α} (h : s.attempt o r = .done x) :
    r = .ok x := by
  cases r with
  | ok y => exact congrArg _ (UnitEnd.done.inj h)
  | error e =>
    simp only [State.attempt] at h
    split at h <;> cases h

/-- Reads that are made give what they read. -/
theorem State.tryAct_eq_done {α : Type} {s t : State} {o : UnitOp} {r : UnitAct (α × State)} {x : α}
    (h : s.tryAct o r = .done (x, t)) : ∃ u, r = .ok (x, u) := by
  simp only [State.tryAct] at h
  split at h
  · cases h
  · split at h
    · next y u hy =>
      cases h
      exact ⟨u, State.attempt_eq_done hy⟩
    · next hne => exact absurd h (hne x t)

/-! ## The projection stage (R269 to R271) -/

section
variable {s t : State} {cl : Nat} {e : ProjEntry} {g : W32}

/-- The stage goes on with the first item of its entry. -/
theorem exec_projectionItemDone {gs : List W32} (h : (s.cluster cl).proj = some e) (hi : e.items = g :: gs)
    (hp : s.isPaused (projPoster cl) = false) :
    exec (.projectionItemDone cl) s = .next (s.projectMore cl e g) := by
  simp only [exec, execProjectionItemDone, h, hi, hp]
  rfl

/-- The job and its block are read first. -/
theorem State.projectMore_block {b : ProjBlock} (hb : e.block = none) (hi : e.item = none)
    (ha : s.tryAct (projOp cl e) (s.projectBlock (projOp cl e) e) = .done (b, t)) :
    s.projectMore cl e g = t.setProj cl { e with block := some b } := by
  simp only [State.projectMore, hb, hi, ha]
  rfl

/-- An item is read and projected under the block. -/
theorem State.projectMore_item {b : ProjBlock} {x : ProjItem} (hb : e.block = some b) (hi : e.item = none)
    (ha : s.tryAct (projOp cl e) (s.projectItem (projOp cl e) e b g) = .done (x, t)) :
    s.projectMore cl e g = t.setProj cl { e with item := some x } := by
  simp only [State.projectMore, hb, hi, ha]
  rfl

/-- Its splats have their indices reserved. -/
theorem State.projectMore_indices {x : ProjItem} {n : W64} (hi : e.item = some x) (hf : x.first = none)
    (ha : s.tryAct (projOp cl e) (s.unitReserve (projOp cl e) (e.addr + 0x40) 8 (BitVec.ofNat 64 x.splats.length)) =
      .done (n, t)) :
    s.projectMore cl e g = t.setProj cl { e with item := some { x with first := some n.toNat } } := by
  simp only [State.projectMore, hi, hf, ha]
  rfl

/-- ... and its keys their slots, from which the writes follow. -/
theorem State.projectMore_slots {b : ProjBlock} {x : ProjItem} {i : Nat} {n : W64} (hb : e.block = some b)
    (hi : e.item = some x) (hf : x.first = some i) (hw : x.work = none)
    (ha : s.tryAct (projOp cl e) (s.unitReserve (projOp cl e) (e.addr + 0x48) 8
      (BitVec.ofNat 64 (x.keys (fieldAt b.job 0x28 4) i).length)) = .done (n, t)) :
    s.projectMore cl e g = t.setProj cl { e with item := some { x with work := some (x.steps e b.job i n.toNat) } } := by
  simp only [State.projectMore, hb, hi, hf, hw, Option.map_some, Option.getD_some, ha]
  rfl

/-- A write of the item is made. -/
theorem State.projectMore_write {x : ProjItem} {i : Nat} {y : UnitStep} {l : List UnitStep} (hi : e.item = some x)
    (hf : x.first = some i) (hw : x.work = some (y :: l)) (ha : s.tryStep (projOp cl e) y = .done t) :
    s.projectMore cl e g = t.setProj cl { e with item := some { x with work := some l } } := by
  simp only [State.projectMore, hi, hf, hw, ha]
  rfl

/-- An item without writes left is finished. -/
theorem State.projectMore_finished {x : ProjItem} {i : Nat} (hi : e.item = some x) (hf : x.first = some i)
    (hw : x.work = some []) : s.projectMore cl e g = s.dropItem cl e := by
  simp only [State.projectMore, hi, hf, hw]

/-- Behind a finished item the entry's next one comes, or none is left. -/
theorem State.dropItem_cons {gs : List W32} (h : e.items = g :: gs) :
    s.dropItem cl e = s.setCluster cl { s.cluster cl with
      proj := if gs = [] then none else some { e with items := gs, item := none } } := by
  cases gs <;> simp [State.dropItem, h]
end

/-- A splat has one key for every tile of its range (R270). -/
theorem Splat.length_keys (p : Splat) : p.keys.length = (p.ty1 + 1 - p.ty0) * (p.tx1 + 1 - p.tx0) := by
  have h (m n : Nat) : ((List.range m).map fun _ => n).sum = m * n := by
    rw [List.map_const', List.length_range, List.sum_replicate_nat]
  simp only [Splat.keys, List.length_flatMap, List.length_map, List.length_range, h]

/-! ## The traversal unit (R281 to R283) -/

/-- The rays that are taken are those of the list. -/
theorem State.takeRays_index {o : UnitOp} {e : TravEntry} {p : Pool} {k : List (W32 × Option (List Byte))} {s t : State}
    {l : List Ray} (h : s.takeRays o e p k = .ok (l, t)) : l.map (·.index) = k.map (·.1) := by
  induction k generalizing s t l with
  | nil => cases h; rfl
  | cons x k ih =>
    simp only [State.takeRays] at h
    split at h
    · cases h
    · split at h
      · cases h
      · next r hr =>
        cases h
        rw [List.map_cons, ih hr]
        rfl

/-- What is known of an entry's payloads names its rays in their order. -/
theorem TravEntry.known_rays (e : TravEntry) : e.known.map (·.1) = e.rays := by
  simp [TravEntry.known, Function.comp_def]

/-- An entry gives the rays that it names. -/
theorem State.takeEntry_index {o : UnitOp} {e : TravEntry} {s t : State} {l : List Ray}
    (h : s.takeEntry o e = .ok (l, t)) : l.map (·.index) = e.rays := by
  simp only [State.takeEntry] at h
  split at h
  · exact (State.takeRays_index h).trans e.known_rays
  · split at h
    · cases h
    · exact (State.takeRays_index h).trans e.known_rays

/-- The unit takes the rays of its first entry. -/
theorem exec_traversalStart {s t : State} {cl : Nat} {e : TravEntry} {rest : List TravEntry} {l : List Ray}
    (hq : (s.cluster cl).travQ = e :: rest) (hr : s.hasRender cl = true) (hp : s.travPaused cl = false)
    (ha : s.tryAct (travOp cl e.who (.travIn cl)) (s.takeEntry (travOp cl e.who (.travIn cl)) e) = .done (l, t)) :
    exec (.traversalStart cl) s = .next (t.addRays cl l) := by
  simp only [exec, execTraversalStart, hq, hr, hp, ha]
  rfl

section
variable {s t : State} {cl : Nat} {y : Ray} {x : Trav}

/-- The unit goes on with a ray. -/
theorem exec_traversalEnd {i : Nat} (h : (s.cluster cl).rays[i]? = some y) (hp : s.travPaused cl = false) :
    exec (.traversalEnd cl i) s = .next (s.rayMore cl y) := by
  simp only [exec, execTraversalEnd, h, hp]
  rfl

/-- A ray without writes is traversed. -/
theorem State.rayMore_traverse (hw : y.work = none) : s.rayMore cl y = s.traverseMore cl y := by
  simp only [State.rayMore, hw]

/-- Its record is read once. -/
theorem State.traverseMore_record {bs : List Byte} (hx : y.trav = some x) (hr : x.rec_ = [])
    (ha : s.tryAct (travOp cl y.who (.trav cl y.id))
      (s.unitLoad (travOp cl y.who (.trav cl y.id)) ((poolOf x.pool).recAt y.index) 64) = .done (bs, t)) :
    s.traverseMore cl y = t.setRay cl y.id fun z => { z with trav := some (x.begin bs) } := by
  simp only [State.traverseMore, hx, hr, List.isEmpty_nil, if_true, ha]
  rfl

/-- An entry of its stack is visited. -/
theorem State.traverseMore_visit {c : TravCtx} {z : Trav} (hx : y.trav = some x) (hr : x.rec_ ≠ []) (ho : x.over = false)
    (hc : travCtx (travOp cl y.who (.trav cl y.id)) x y.index = some c)
    (ha : s.tryAct (travOp cl y.who (.trav cl y.id)) (travStep c x s) = .done (z, t)) :
    s.traverseMore cl y = t.setRay cl y.id fun r => { r with trav := some z } := by
  simp only [State.traverseMore, hx, List.isEmpty_eq_false_iff.2 hr, ho, hc, ha, Bool.false_eq_true, if_false]
  rfl

/-- A traversal that is over ends its ray. -/
theorem State.traverseMore_over (hx : y.trav = some x) (hr : x.rec_ ≠ []) (ho : x.over = true) :
    s.traverseMore cl y = s.endRay cl y x := by
  simp only [State.traverseMore, hx, List.isEmpty_eq_false_iff.2 hr, ho, Bool.false_eq_true, if_false, if_true]

/-- A write of a ray's end is made. -/
theorem State.rayMore_write {st : UnitStep} {l : List UnitStep} (hw : y.work = some (st :: l)) (hm : y.mapped = false)
    (ha : s.tryStep (travOp cl y.who (.trav cl y.id)) st = .done t) :
    s.rayMore cl y = t.setRay cl y.id fun z => { z with work := some l } := by
  simp only [State.rayMore, hw, hm, Bool.false_and, Bool.false_eq_true, if_false, ha]
  rfl

/-- A ray of a `trace` whose writes are made leaves the unit. -/
theorem State.rayMore_leave (hw : y.work = some []) (hg : y.gen = none) :
    s.rayMore cl y = s.setCluster cl { s.cluster cl with rays := (s.cluster cl).rays.filter fun z => z.id != y.id } := by
  simp only [State.rayMore, hw, State.mapRay, hg, State.leaveRay]
end

/-- A stack that has overflowed ends in a miss of STATUS 3 (R283). -/
theorem State.rayResult_spent (s : State) {x : Trav} (h : x.spent = true) : s.rayResult x = (rayMiss 3, s) := by
  simp only [State.rayResult, h, if_true]

/-- Otherwise the result is the best hit's, or a miss (R282). -/
theorem State.rayResult_best (s : State) {x : Trav} (hs : x.spent = false) (ho : x.odd = false) :
    s.rayResult x = (x.best.elim (rayMiss 2) rayHit, s) := by
  simp only [State.rayResult, hs, ho, Bool.false_eq_true, if_false]
  cases x.best <;> rfl

/-! ## The generator (R397 to R402) -/

section
variable {s t : State} {d : Nat} {g : GenSlot}

/-- The generator goes on with its ring when every earlier job has emitted its rays. -/
theorem exec_genJobConsume (he : s.genServes d = true) (hp : s.genPaused d = false)
    (hj : (s.die d).jobList.all (·.closed) = true) : exec (.genJobConsume d) s = .next (s.ringMore d) := by
  simp only [exec, execGenJobConsume, he, hp, hj]
  rfl

/-- A published slot is taken. -/
theorem State.ringMore_take {x : Option GenSlot} (hg : (s.die d).genSlot = none)
    (ha : s.tryAct (s.ringOp d) (s.readSlot (s.ringOp d) (s.die d).gring) = .done (x, t)) :
    s.ringMore d = t.setSlot d x := by
  simp only [State.ringMore, hg, ha]
  rfl

/-- A step of the slot's consumption is made. -/
theorem State.ringMore_step {x : UnitStep} {l : List UnitStep} (hg : (s.die d).genSlot = some g) (hw : g.work = x :: l)
    (ha : s.tryStep (s.ringOp d) x = .done t) : s.ringMore d = t.setSlot d (some { g with work := l }) := by
  simp only [State.ringMore, hg, hw, ha]
  rfl

/-- A slot whose job has been turned away is left. -/
theorem State.ringMore_leave (hg : (s.die d).genSlot = some g) (hw : g.work = []) (hb : g.bad = true) :
    s.ringMore d = s.setSlot d none := by
  simp only [State.ringMore, hg, hw, hb, if_true]

/-- The job of a consumed slot joins those in progress. -/
theorem State.ringMore_job {hd : List Byte} {vs : List (Nat × List Byte)} (hg : (s.die d).genSlot = some g)
    (hw : g.work = []) (hb : g.bad = false)
    (ha : s.tryAct (s.ringOp d) (s.genViews (s.ringOp d) g.job) = .done (some (hd, vs), t)) :
    s.ringMore d = t.addJob d g.job hd vs := by
  simp only [State.ringMore, hg, hw, hb, ha, Bool.false_eq_true, if_false]
  rfl

/-- ... or is turned away where it is malformed. -/
theorem State.ringMore_refuse (hg : (s.die d).genSlot = some g) (hw : g.work = []) (hb : g.bad = false)
    (ha : s.tryAct (s.ringOp d) (s.genViews (s.ringOp d) g.job) = .done (none, t)) :
    s.ringMore d = (t.setSlot d (some g.refused)).badJob (s.ringOp d) g.slot := by
  simp only [State.ringMore, hg, hw, hb, ha, Bool.false_eq_true, if_false]
  rfl
end

section
variable {s t : State} {d : Nat} {j : GenJob} {x : Nat × Nat × Nat} {xs : List (Nat × Nat × Nat)}

/-- A job that still emits goes on. -/
theorem exec_genRayEmit {i : Nat} (h : (s.die d).jobList[i]? = some j) (hc : j.closed = false)
    (hp : s.genPaused d = false) (hg : s.hasGen d = true) : exec (.genRayEmit d i) s = .next (s.emitMore d j) := by
  simp only [exec, execGenRayEmit, h, hp, hg, hc]
  rfl

/-- A free ray is taken for the job's next pixel. -/
theorem State.emitMore_take {n : W32} (hr : j.ready.length < 32)
    (hx : (genOrder j.desc j.head j.views).drop (j.emitted + j.ready.length) = x :: xs) (ht : j.taken = none)
    (ha : s.tryAct (s.genOp d (.gen d (2 * j.id + 1)))
      (s.takeRay (s.genOp d (.gen d (2 * j.id + 1))).agent (word64 j.desc)) = .done (some n, t)) :
    s.emitMore d j = t.setJob d j.id fun z => { z with taken := some (n, false) } := by
  simp only [State.emitMore, if_neg (Nat.ne_of_lt hr), hx, ht, ha]
  rfl

/-- ... it is written for the pixel ... -/
theorem State.emitMore_pixel {n : W32} (hr : j.ready.length < 32)
    (hx : (genOrder j.desc j.head j.views).drop (j.emitted + j.ready.length) = x :: xs) (ht : j.taken = some (n, false))
    (ha : s.tryAct (s.genOp d (.gen d (2 * j.id + 1)))
      (s.genPixel (s.genOp d (.gen d (2 * j.id + 1))) (word64 j.desc) n x) = .done ((), t)) :
    s.emitMore d j = t.setJob d j.id fun z => { z with taken := some (n, true) } := by
  simp only [State.emitMore, if_neg (Nat.ne_of_lt hr), hx, ht, ha]
  rfl

/-- ... and put in flight. -/
theorem State.emitMore_trace {n : W32} (hr : j.ready.length < 32)
    (hx : (genOrder j.desc j.head j.views).drop (j.emitted + j.ready.length) = x :: xs) (ht : j.taken = some (n, true))
    (ha : s.tryAct (s.genOp d (.gen d (2 * j.id + 1)))
      (s.genTrace (s.genOp d (.gen d (2 * j.id + 1))) (word64 j.desc) n) = .done ((), t)) :
    s.emitMore d j = t.setJob d j.id fun z => { z with taken := none, ready := z.ready ++ [n] } := by
  simp only [State.emitMore, if_neg (Nat.ne_of_lt hr), hx, ht, ha]
  rfl
end

end Sys2Proof.Machine

namespace Sys2Proof

open Sys2Proof.Machine

/-- Settles O46: each clause is the step of one unit, in the order of the lemmas above. -/
theorem renderUnits : Obligations.RenderUnits := by
  unfold Obligations.RenderUnits
  refine ⟨?entry, ?project, Splat.length_keys, ?rays, ?ray, ?result, ?ring, ?emit, fun _ _ _ => rfl⟩
  case entry =>
    intro s cl e rest hp hq hr
    simp only [exec, execProjectionEntryStart, hp, hq, hr, if_true]
  case project =>
    intro s cl e g gs he hi hp
    dsimp only
    rw [exec_projectionItemDone he hi hp]
    refine ⟨fun b t hb hi ha => ?_, fun b x t hb hi ha => ?_, fun x hx =>
      ⟨fun n t hf ha => ?_, fun b i n t hb hf hw ha => ?_, fun i y l t hf hw ha => ?_, fun i hf hw => ?_⟩⟩
    · rw [State.projectMore_block hb hi ha, State.setProj]
    · rw [State.projectMore_item hb hi ha, State.setProj]
    · rw [State.projectMore_indices hx hf ha, State.setProj]
    · rw [State.projectMore_slots hb hx hf hw ha, State.setProj]
    · rw [State.projectMore_write hx hf hw ha, State.setProj]
    · rw [State.projectMore_finished hx hf hw, State.dropItem_cons hi]
  case rays =>
    intro s t cl e rest l hq hr hp o ha
    obtain ⟨u, hu⟩ := State.tryAct_eq_done ha
    exact ⟨exec_traversalStart hq hr hp ha, State.takeEntry_index hu⟩
  case ray =>
    intro s cl i y h hp
    dsimp only
    rw [exec_traversalEnd h hp]
    refine ⟨fun x bs t hw hx hr ha => ?_, fun x c z t hw hx hr ho hc ha => ?_, fun x hw hx hr ho => ?_,
      fun x l t hw hm ha => ?_, fun hw hg => ?_⟩
    · rw [State.rayMore_traverse hw, State.traverseMore_record hx hr ha, State.setRay]
    · rw [State.rayMore_traverse hw, State.traverseMore_visit hx hr ho hc ha, State.setRay]
    · rw [State.rayMore_traverse hw, State.traverseMore_over hx hr ho]
    · rw [State.rayMore_write hw hm ha, State.setRay]
    · rw [State.rayMore_leave hw hg]
  case result =>
    exact fun s x => ⟨fun h => s.rayResult_spent h, fun hs ho =>
      ⟨fun h hb => by rw [s.rayResult_best hs ho, hb]; rfl, fun hb => by rw [s.rayResult_best hs ho, hb]; rfl⟩⟩
  case ring =>
    intro s d he hp hj
    dsimp only
    rw [exec_genJobConsume he hp hj]
    refine ⟨fun g t hg ha => ?_, fun g hg => ⟨fun x l t hw ha => ?_, fun hw hb => ?_, fun hd vs t hw hb ha => ?_,
      fun t hw hb ha => ?_⟩⟩
    · rw [State.ringMore_take hg ha, State.setSlot]
    · rw [State.ringMore_step hg hw ha, State.setSlot]
    · rw [State.ringMore_leave hg hw hb, State.setSlot]
    · rw [State.ringMore_job hg hw hb ha]
    · rw [State.ringMore_refuse hg hw hb ha]; rfl
  case emit =>
    intro s d i j x xs h hc hp hg hr hx
    dsimp only
    rw [exec_genRayEmit h hc hp hg]
    refine ⟨fun n t ht ha => ?_, fun n t ht ha => ?_, fun n t ht ha => ?_⟩
    · rw [State.emitMore_take hr hx ht ha, State.setJob]
    · rw [State.emitMore_pixel hr hx ht ha, State.setJob]
    · rw [State.emitMore_trace hr hx ht ha, State.setJob]

end Sys2Proof
end

section
/-!
The memory hierarchy (chapter 12): contributions merged at their home slice, evictions through the cipher, walks, soft
errors and invalidation commands.
-/

namespace Sys2Proof.Machine

/-! ## What the upkeep of a slice leaves

Room made by evictions, copies invalidated and monitors fired change neither a byte of the line's level, nor the
contributions on their way, nor the translation registers. -/

/-- The bytes of the lines' level, the contributions on their way and the translation registers are as before. -/
structure LevelFrame (s t : State) : Prop where
  mem : t.mem = s.mem
  tun : t.tun = s.tun
  xlat : t.xlat = s.xlat

theorem LevelFrame.refl (s : State) : LevelFrame s s := ⟨rfl, rfl, rfl⟩

theorem LevelFrame.trans {s t u : State} (h : LevelFrame s t) (k : LevelFrame t u) : LevelFrame s u :=
  ⟨k.mem.trans h.mem, k.tun.trans h.tun, k.xlat.trans h.xlat⟩

theorem LevelFrame.foldl {α : Type} {f : State → α → State} (h : ∀ s x, LevelFrame s (f s x)) (l : List α) (s : State) :
    LevelFrame s (l.foldl f s) := by
  induction l generalizing s with
  | nil => exact .refl s
  | cons x l ih => exact (h s x).trans (ih (f s x))

theorem State.setPort_levelFrame (s : State) (n : Nat) (x : Port) : LevelFrame s (s.setPort n x) := ⟨rfl, rfl, rfl⟩

theorem State.setLine_levelFrame (s : State) (l : Nat) (x : Line) : LevelFrame s (s.setLine l x) := ⟨rfl, rfl, rfl⟩

theorem State.storeTier_levelFrame (s : State) (a : Nat) (bs : List Byte) :
    LevelFrame s { s with tiers := s.tiers.store a bs } := ⟨rfl, rfl, rfl⟩

theorem State.transmit_levelFrame (s : State) (n : Nat) (p : FabPacket) : LevelFrame s (s.transmit n p) :=
  ⟨rfl, rfl, rfl⟩

theorem State.flush_levelFrame (s : State) (n k : Nat) : LevelFrame s (s.flush n k) := by
  induction k generalizing s with
  | zero => exact .refl s
  | succ k ih =>
    unfold State.flush
    dsimp only
    split
    · exact .refl s
    · split
      · exact .refl s
      · split
        · exact ((s.setPort_levelFrame n _).trans (State.transmit_levelFrame _ n _)).trans (ih _)
        · exact .refl s

theorem State.sendAt_levelFrame (s : State) (n : Nat) (p : FabPacket) : LevelFrame s (s.sendAt n p) :=
  (s.setPort_levelFrame n _).trans (State.flush_levelFrame _ _ _)

theorem State.reserve_levelFrame (s : State) (p : FabPacket) : LevelFrame s (s.reserve p).2 := by
  simp only [State.reserve]
  split <;> exact ⟨rfl, rfl, rfl⟩

theorem State.send_levelFrame (s : State) (p : FabPacket) : LevelFrame s (s.send p) := by
  unfold State.send
  split
  · exact LevelFrame.trans (t := s.setStream p.dpkg _) ⟨rfl, rfl, rfl⟩ (State.sendAt_levelFrame _ _ _)
  · exact (s.reserve_levelFrame p).trans (State.sendAt_levelFrame _ _ _)

theorem State.notify_levelFrame (s : State) (l : Nat) : LevelFrame s (s.notify l) :=
  LevelFrame.trans (t := { s with watchers := s.watchers.filter fun e => e.1 != l }) ⟨rfl, rfl, rfl⟩
    (.foldl (fun _ _ => State.send_levelFrame _ _) _ _)

theorem State.wakeScalar_levelFrame (s : State) (a : Issuer) : LevelFrame s (s.wakeScalar a) := by
  unfold State.wakeScalar
  split
  · exact .refl s
  · split
    · exact ⟨s.setSctx_mem a _, s.setSctx_tun a _, s.setSctx_xlat a _⟩
    · exact ⟨s.setSctx_mem a _, s.setSctx_tun a _, s.setSctx_xlat a _⟩
    · exact .refl s

theorem State.wakeWaiter_levelFrame (s : State) (w : Waiter) : LevelFrame s (s.wakeWaiter w) := by
  cases w with
  | scalar g => exact s.wakeScalar_levelFrame _
  | pilot cl => exact s.wakeScalar_levelFrame _
  | lane g n =>
    simp only [State.wakeWaiter, State.slotWait]
    split <;> exact ⟨rfl, rfl, rfl⟩

theorem State.fireWaiter_levelFrame (s : State) (w : Waiter) : LevelFrame s (s.fireWaiter w) :=
  LevelFrame.trans (t := s.setCore (waiterCore w) _) ⟨rfl, rfl, rfl⟩ (State.wakeWaiter_levelFrame _ w)

theorem State.written_levelFrame (s : State) (c l : Nat) : LevelFrame s (s.written c l) :=
  have fired (u : State) (n : Nat) : LevelFrame u (u.fireLine n) := .foldl State.fireWaiter_levelFrame _ u
  LevelFrame.trans (t := s.invalidate c l) ⟨rfl, rfl, rfl⟩ ((fired _ _).trans (State.notify_levelFrame _ l))

/-- The bytes of a line as memory gets them: enciphered under the line's key. -/
def State.enciphered (s : State) (l : Nat) : List Byte :=
  xtsLine false (keyBits (s.line l).key (s.line l).load) l (s.mem.bytes (l * 128) 128)

theorem State.evict_eq (s : State) (l : Nat) :
    s.evict l = { s with tiers := s.tiers.store (l * 128) (s.enciphered l) }.setLine l
      { s.line l with dirty := false, tun := false } := by
  unfold State.evict State.enciphered
  dsimp only

theorem State.evict_levelFrame (s : State) (l : Nat) : LevelFrame s (s.evict l) := by
  rw [State.evict_eq]
  exact (s.storeTier_levelFrame _ _).trans (State.setLine_levelFrame _ l _)

theorem State.evictOne_levelFrame (s : State) (l n : Nat) (p : Line → Bool) : LevelFrame s (s.evictOne l n p) := by
  unfold State.evictOne
  dsimp only
  split
  · exact .refl s
  · split
    · exact LevelFrame.trans (t := s.free.2) ⟨rfl, rfl, rfl⟩ (State.evict_levelFrame _ _)
    · exact ⟨rfl, rfl, rfl⟩

theorem State.cacheRoom_levelFrame (s : State) (l : Nat) : LevelFrame s (s.cacheRoom l) := by
  unfold State.cacheRoom
  split
  · exact .refl s
  · exact s.evictOne_levelFrame _ _ _

theorem State.tunPlace_levelFrame (s : State) (l : Nat) : LevelFrame s (s.tunPlace l) := by
  unfold State.tunPlace
  split
  · exact .refl s
  · exact (s.cacheRoom_levelFrame l).trans (State.evictOne_levelFrame _ _ _ _)

/-! ## Contributions (R294) -/

theorem State.mergeTun_levelFrame (s : State) (t : TunAdd) :
    LevelFrame { s with mem := s.mem.store t.addr (tunWord s.mem t) } (s.mergeTun t) := by
  obtain ⟨hmem, htun, hxlat⟩ := s.tunPlace_levelFrame (lineOf t.addr)
  refine LevelFrame.trans (t := State.setLine { s.tunPlace (lineOf t.addr) with
    mem := (s.tunPlace (lineOf t.addr)).mem.store t.addr (tunWord (s.tunPlace (lineOf t.addr)).mem t) } _ _)
    ⟨?_, htun, hxlat⟩ (State.written_levelFrame _ _ _)
  rw [State.setLine_mem, hmem]

theorem State.foldl_mergeTun_tun_xlat (l : List TunAdd) (s : State) :
    (l.foldl State.mergeTun s).tun = s.tun ∧ (l.foldl State.mergeTun s).xlat = s.xlat := by
  induction l generalizing s with
  | nil => exact ⟨rfl, rfl⟩
  | cons t l ih =>
    obtain ⟨htun, hxlat⟩ := ih (s.mergeTun t)
    exact ⟨htun.trans (s.mergeTun_levelFrame t).tun, hxlat.trans (s.mergeTun_levelFrame t).xlat⟩

@[simp] theorem State.drainTun_tun (s : State) : s.drainTun.tun = [] := (State.foldl_mergeTun_tun_xlat _ _).1

@[simp] theorem State.drainTun_xlat (s : State) : s.drainTun.xlat = s.xlat := (State.foldl_mergeTun_tun_xlat _ _).2

theorem word64_bytes64 (w : W64) : word64 (bytes64 w) = w := by
  rw [word64, bytes64, List.take_of_length_le (by simp), leNat_leBytes]
  exact BitVec.eq_of_toNat_eq (by simpa using w.isLt)

theorem word32_bytes32 (w : W32) : word32 (bytes32 w) = w := by
  rw [word32, bytes32, List.take_of_length_le (by simp), leNat_leBytes]
  exact BitVec.eq_of_toNat_eq (by simpa using w.isLt)

theorem length_tunWord (m : Memory) (t : TunAdd) : (tunWord m t).length = if t.fx then 8 else 4 := by
  unfold tunWord
  split <;> exact length_leBytes _ _

theorem exec_tunMerge {s : State} {i : Nat} {t : TunAdd} (h : s.tun[i]? = some t) :
    exec (.tunMerge i) s = .next (State.mergeTun { s with tun := s.tun.eraseIdx i } t) := by
  change execTunMerge i s = _
  rw [execTunMerge, h]

/-- What stands at the address of a contribution once it is merged. -/
theorem State.mergeTun_word (s : State) (t : TunAdd) :
    (s.mergeTun t).readPa t.addr (tunWord s.mem t).length = tunWord s.mem t := by
  rw [State.readPa, (s.mergeTun_levelFrame t).mem]
  exact Memory.bytes_store_self _ _ _

/-- An FX64 contribution is an exact sum modulo 2^64. -/
theorem State.mergeTun_fx {s : State} {t : TunAdd} (h : t.fx = true) :
    word64 ((s.mergeTun t).readPa t.addr 8) = word64 (s.readPa t.addr 8) + t.val := by
  have hw := s.mergeTun_word t
  rw [length_tunWord, if_pos h] at hw
  rw [hw, tunWord, if_pos h, word64_bytes64, State.readPa]

/-- An FP32 contribution is one rounded addition. -/
theorem State.mergeTun_f32 {s : State} {t : TunAdd} (h : t.fx = false) :
    word32 ((s.mergeTun t).readPa t.addr 4) = fadd32 (word32 (s.readPa t.addr 4)) (t.val.setWidth 32) := by
  have hf : ¬t.fx = true := by simp [h]
  have hw := s.mergeTun_word t
  rw [length_tunWord, if_neg hf] at hw
  rw [hw, tunWord, if_neg hf, word32_bytes32, State.readPa]

theorem State.mergeTun_outside (s : State) (t : TunAdd) {a : Nat}
    (h : a < t.addr ∨ t.addr + (if t.fx then 8 else 4) ≤ a) : (s.mergeTun t).mem.byte a = s.mem.byte a := by
  rw [(s.mergeTun_levelFrame t).mem]
  exact Memory.byte_store_outside _ _ _ _ (by rwa [length_tunWord])

/-! ## The cipher of a line is as long as the line (R301)

Each round combines a block with its key byte by byte, so that the length turns on the schedule having whole words. -/

theorem length_xorBytes {n : Nat} {a b : List Nat} (ha : a.length = n) (hb : b.length = n) :
    (xorBytes a b).length = n := by
  simp [xorBytes, ha, hb]

@[simp] theorem length_numBytes (n x : Nat) : (numBytes n x).length = n := by simp [numBytes]

@[simp] theorem length_aesShift (d : Nat) (b : List Nat) : (aesShift d b).length = 16 := by simp [aesShift]

@[simp] theorem length_aesMix (r b : List Nat) : (aesMix r b).length = 16 := by simp [aesMix]

/-- A state of the key schedule: words of four bytes, and enough of them for the next one. -/
structure WholeWords (ws : List (List Nat)) : Prop where
  enough : 8 ≤ ws.length
  four : ∀ w ∈ ws, w.length = 4

theorem WholeWords.length_getD {ws : List (List Nat)} (h : WholeWords ws) {i : Nat} (hi : i < 8) :
    (ws.getD i []).length = 4 := by
  have hlt : i < ws.length := Nat.lt_of_lt_of_le hi h.enough
  rw [List.getD_eq_getElem?_getD, List.getElem?_eq_getElem hlt, Option.getD_some]
  exact h.four _ (List.getElem_mem hlt)

theorem WholeWords.length_aesWord {ws : List (List Nat)} (h : WholeWords ws) (i : Nat) : (aesWord ws i).length = 4 := by
  have hlast : (ws.headD []).length = 4 := by
    rw [List.headD_eq_head?_getD, List.head?_eq_getElem?, ← List.getD_eq_getElem?_getD]
    exact h.length_getD (by decide)
  refine length_xorBytes (h.length_getD (by decide)) ?_
  dsimp only
  split
  · refine length_xorBytes ?_ rfl
    rw [List.length_map, List.length_append, List.length_drop, List.length_take, hlast]
    rfl
  · split
    · rw [List.length_map, hlast]
    · exact hlast

theorem WholeWords.cons_aesWord {ws : List (List Nat)} (h : WholeWords ws) (i : Nat) : WholeWords (aesWord ws i :: ws) :=
  ⟨Nat.le_succ_of_le h.enough, List.forall_mem_cons.2 ⟨h.length_aesWord i, h.four⟩⟩

theorem WholeWords.aesWords {ws : List (List Nat)} (h : WholeWords ws) (n i : Nat) :
    WholeWords (Machine.aesWords n i ws) ∧ (Machine.aesWords n i ws).length = n + ws.length := by
  induction n generalizing i ws with
  | zero => exact ⟨h, (Nat.zero_add _).symm⟩
  | succ n ih =>
    obtain ⟨hw, hn⟩ := ih (h.cons_aesWord i) (i + 1)
    exact ⟨hw, hn.trans (by simp only [List.length_cons]; omega)⟩

/-- The words of the schedule of a key begin with the key's own. -/
theorem wholeWords_first (key : Nat) :
    WholeWords ((List.range 8).map fun i => (numBytes 32 key).drop (4 * i) |>.take 4).reverse := by
  refine ⟨by simp, fun w hw => ?_⟩
  simp only [List.mem_reverse, List.mem_map, List.mem_range] at hw
  obtain ⟨i, hi, rfl⟩ := hw
  simp only [List.length_take, List.length_drop, length_numBytes]
  omega

theorem length_of_mem_aesKeys {key : Nat} {k : List Nat} (h : k ∈ aesKeys key) : k.length = 16 := by
  obtain ⟨hw, hn⟩ := (wholeWords_first key).aesWords 52 8
  simp only [aesKeys, List.mem_map, List.mem_range] at h
  obtain ⟨r, hr, rfl⟩ := h
  rw [List.length_flatten, List.eq_replicate_of_mem (a := 4) (l := List.map _ _), List.sum_replicate_nat]
  · simp only [List.length_map, List.length_take, List.length_drop, List.length_reverse, hn, List.length_range]
    omega
  · intro n hmem
    obtain ⟨w, hw', rfl⟩ := List.mem_map.1 hmem
    exact hw.four w (List.mem_reverse.1 (List.mem_of_mem_drop (List.mem_of_mem_take hw')))

theorem length_aesRounds {ks : List (List Nat)} {b : List Nat} (hk : ∀ k ∈ ks, k.length = 16) (hb : b.length = 16) :
    (aesRounds ks b).length = 16 := by
  induction ks generalizing b with
  | nil => exact hb
  | cons k ks ih =>
    obtain ⟨hfirst, hrest⟩ := List.forall_mem_cons.1 hk
    cases ks with
    | nil => exact length_xorBytes hfirst (length_aesShift _ _)
    | cons k' ks => exact ih hrest (length_xorBytes hfirst (length_aesMix _ _))

theorem length_aesEnc {ks : List (List Nat)} {b : List Nat} (hk : ∀ k ∈ ks, k.length = 16) (hb : b.length = 16) :
    (aesEnc ks b).length = 16 := by
  cases ks with
  | nil => exact hb
  | cons k ks =>
    obtain ⟨hfirst, hrest⟩ := List.forall_mem_cons.1 hk
    exact length_aesRounds hrest (length_xorBytes hfirst hb)

theorem length_xtsBlocks {f : List Nat → List Nat} (hf : ∀ b, b.length = 16 → (f b).length = 16) {n : Nat} (t : Nat)
    {l : List Nat} (hl : l.length = 16 * n) : (xtsBlocks f n t l).length = 16 * n := by
  induction n generalizing t l with
  | zero => rfl
  | succ n ih =>
    have hblock : (xorBytes (numBytes 16 t) (f (xorBytes (numBytes 16 t) (l.take 16)))).length = 16 :=
      length_xorBytes (length_numBytes _ _)
        (hf _ (length_xorBytes (length_numBytes _ _) (by rw [List.length_take]; omega)))
    rw [xtsBlocks, List.length_append, hblock, ih _ (by rw [List.length_drop]; omega)]
    omega

theorem length_xtsLine_enc (key l : Nat) {bs : List Byte} (h : bs.length = 128) :
    (xtsLine false key l bs).length = 128 := by
  have henc (k : Nat) (b : List Nat) (hb : b.length = 16) : (aesEnc (aesKeys k) b).length = 16 :=
    length_aesEnc (fun _ => length_of_mem_aesKeys) hb
  have hbs : (bs.map BitVec.toNat).length = 16 * 8 := by rw [List.length_map, h]
  simp only [xtsLine, List.length_map, Bool.false_eq_true, if_false]
  exact length_xtsBlocks (henc _) _ hbs

/-! ## Evictions (R293, R295, R301) -/

@[simp] theorem State.length_enciphered (s : State) (l : Nat) : (s.enciphered l).length = 128 :=
  length_xtsLine_enc _ _ (Memory.length_bytes _ _ _)

theorem State.evict_tiers (s : State) (l : Nat) : (s.evict l).tiers = s.tiers.store (l * 128) (s.enciphered l) := by
  rw [State.evict_eq, State.setLine_tiers]

theorem State.evict_bytes (s : State) (l : Nat) : (s.evict l).tiers.bytes (l * 128) 128 = s.enciphered l := by
  have h := s.tiers.bytes_store_self (l * 128) (s.enciphered l)
  rwa [State.length_enciphered, ← State.evict_tiers] at h

theorem State.evict_outside (s : State) {l a : Nat} (h : a / 128 ≠ l) : (s.evict l).tiers.byte a = s.tiers.byte a := by
  rw [State.evict_tiers]
  exact Memory.byte_store_outside _ _ _ _ (by rw [State.length_enciphered]; omega)

/-- A line that has been replaced reads as the new one. -/
@[simp] theorem State.line_setLine (s : State) (l : Nat) (x : Line) : (s.setLine l x).line l = x := Tbl.getD_set_self _ _ _ _

theorem State.evict_line (s : State) (l : Nat) : (s.evict l).line l = { s.line l with dirty := false, tun := false } :=
  (congrArg (State.line · l) (s.evict_eq l)).trans (State.line_setLine _ _ _)

theorem exec_tunEviction {s : State} {l : Nat} (h : (s.line l).tun = true) :
    exec (.tunEviction l) s = .next (s.evict l) := by
  change execTunEviction l s = _
  rw [execTunEviction, if_pos h]

theorem exec_lineEviction {s : State} {l : Nat} (hd : (s.line l).dirty = true) (ht : (s.line l).tun = false) :
    exec (.lineEviction l) s = .next (s.evict l) := by
  change execLineEviction l s = _
  rw [execLineEviction, if_pos (by simp [hd, ht])]

/-! ## Walks (R302) -/

theorem sameMemory_of_eq {s t : State} (hm : t.mem = s.mem) (ht : t.tiers = s.tiers) (hs : t.scratch = s.scratch) :
    SameMemory s t := fun _ => ⟨by rw [hm], by rw [ht], by rw [hs]⟩

/-- A die that has been replaced reads as the new one. -/
@[simp] theorem State.die_setDie (s : State) (d : Nat) (x : Die) : (s.setDie d x).die d = x := Tbl.getD_set_self _ _ _ _

/-- A core that has been replaced reads as the new one ... -/
@[simp] theorem State.core_setCore (s : State) (c : Nat) (x : Core) : (s.setCore c x).core c = x :=
  Tbl.getD_set_self _ _ _ _

/-- ... and every other one as before. -/
theorem State.core_setCore_ne (s : State) {b c : Nat} (x : Core) (h : b ≠ c) : (s.setCore c x).core b = s.core b :=
  Tbl.getD_set_ne _ _ _ h

/-- What the choice of the node entries that a die keeps changes: its node cache alone. -/
theorem State.keepNodes_frame (s : State) (die asid va : Nat) :
    SameMemory s (s.keepNodes die asid va) ∧ (s.keepNodes die asid va).cores = s.cores ∧
      ((s.keepNodes die asid va).die die).tcache = (s.die die).tcache :=
  ⟨sameMemory_of_eq rfl rfl rfl, rfl, by
    simp only [State.keepNodes, State.die_setDie]⟩

/-- A node entry that a die keeps is one that it had or one that the walk read. -/
theorem State.mem_keepNodes {s : State} {die asid va : Nat} {n : NodeEntry}
    (h : n ∈ ((s.keepNodes die asid va).die die).nodes) : n ∈ (s.die die).nodes ∨ n ∈ s.nodesRead die asid va := by
  rw [State.keepNodes] at h
  simp only [State.die_setDie, List.mem_map, List.mem_filter] at h
  obtain ⟨e, ⟨he, -⟩, rfl⟩ := h
  exact List.mem_append.1 (List.fst_mem_of_mem_zipIdx he)

/-- The TLB of core c of a die takes a translation, where bit c of x says that the core waits for it. -/
def State.tlbGets (t : TlbEntry) (die x : Nat) (s : State) (c : Nat) : State :=
  if flag x c then s.setCore (64 * die + c) { s.core (64 * die + c) with tlb := tlbTake t (s.core (64 * die + c)).tlb }
  else s

/-- The first n cores of a die in turn. -/
def State.tlbsGet (s : State) (t : TlbEntry) (die x n : Nat) : State := (List.range n).foldl (State.tlbGets t die x) s

theorem State.tlbsGet_succ (s : State) (t : TlbEntry) (die x n : Nat) :
    s.tlbsGet t die x (n + 1) = State.tlbGets t die x (s.tlbsGet t die x n) n := by
  rw [State.tlbsGet, List.range_succ, List.foldl_append]; rfl

theorem State.tlbGets_frame (s : State) (t : TlbEntry) (die x c : Nat) :
    SameMemory s (State.tlbGets t die x s c) ∧ (State.tlbGets t die x s c).dies = s.dies := by
  unfold State.tlbGets
  split <;> exact ⟨sameMemory_of_eq rfl rfl rfl, rfl⟩

theorem sameMemory_trans {s t u : State} (h : SameMemory s t) (k : SameMemory t u) : SameMemory s u := fun x =>
  ⟨(k x).1.trans (h x).1, (k x).2.1.trans (h x).2.1, (k x).2.2.trans (h x).2.2⟩

theorem State.tlbsGet_frame (s : State) (t : TlbEntry) (die x n : Nat) :
    SameMemory s (s.tlbsGet t die x n) ∧ (s.tlbsGet t die x n).dies = s.dies := by
  induction n with
  | zero => exact ⟨sameMemory_of_eq rfl rfl rfl, rfl⟩
  | succ n ih =>
    obtain ⟨hm, hd⟩ := (s.tlbsGet t die x n).tlbGets_frame t die x n
    rw [State.tlbsGet_succ]
    exact ⟨sameMemory_trans ih.1 hm, hd.trans ih.2⟩

/-- A TLB is as before, or it is one of the die's first n and has taken the translation once. -/
theorem State.tlbsGet_tlb (s : State) (t : TlbEntry) (die x n c : Nat) :
    ((s.tlbsGet t die x n).core c).tlb = (s.core c).tlb ∨
      ((s.tlbsGet t die x n).core c).tlb = tlbTake t (s.core c).tlb ∧ 64 * die ≤ c ∧ c < 64 * die + n := by
  induction n with
  | zero => exact .inl rfl
  | succ n ih =>
    rw [State.tlbsGet_succ, State.tlbGets]
    split
    · by_cases hc : c = 64 * die + n
      · subst hc
        have hfirst : ((s.tlbsGet t die x n).core (64 * die + n)).tlb = (s.core (64 * die + n)).tlb :=
          ih.resolve_right fun h => absurd h.2.2 (Nat.lt_irrefl _)
        rw [State.core_setCore, hfirst]
        exact .inr ⟨rfl, by omega, by omega⟩
      · rw [State.core_setCore_ne _ _ hc]
        exact ih.imp_right fun ⟨ht, hlo, hhi⟩ => ⟨ht, hlo, by omega⟩
    · exact ih.imp_right fun ⟨ht, hlo, hhi⟩ => ⟨ht, hlo, by omega⟩

/-- A die's translation cache takes a translation, and a free value says which of its cores do. -/
def State.takeLeaf (s : State) (die : Nat) (t : TlbEntry) : State :=
  (s.free.2.setDie die { s.die die with tcache := tcacheTake 16384 t (s.die die).tcache }).tlbsGet t die s.free.1 64

theorem State.takeLeaf_sameMemory (s : State) (die : Nat) (t : TlbEntry) : SameMemory s (s.takeLeaf die t) :=
  (State.tlbsGet_frame (s.free.2.setDie die _) t die _ 64).1

theorem State.takeLeaf_die (s : State) (die : Nat) (t : TlbEntry) :
    (s.takeLeaf die t).die die = { s.die die with tcache := tcacheTake 16384 t (s.die die).tcache } := by
  rw [State.die, State.takeLeaf, (State.tlbsGet_frame _ _ _ _ _).2]
  exact Tbl.getD_set_self _ _ _ _

theorem State.takeLeaf_tlb (s : State) (die : Nat) (t : TlbEntry) (c : Nat) :
    ((s.takeLeaf die t).core c).tlb = (s.core c).tlb ∨
      ((s.takeLeaf die t).core c).tlb = tlbTake t (s.core c).tlb ∧ c / 64 = die :=
  (State.tlbsGet_tlb (s.free.2.setDie die _) t die _ 64 c).imp_right fun ⟨ht, hlo, hhi⟩ => ⟨ht, by omega⟩

section
variable {s : State} {die asid : Nat} {va : W64}

theorem exec_pageWalk_leaf {t : TlbEntry} (hd : die < 4) (ha : asid < 2 ^ 12) (hv : va.toNat < 2 ^ 52)
    (h : s.walk die asid va.toNat = .leaf t false) :
    exec (.pageWalk die asid va) s = .next ((s.keepNodes die asid va.toNat).takeLeaf die t) := by
  change execPageWalk die asid va s = _
  rw [execPageWalk, if_neg (by omega), h]
  rfl

theorem exec_pageWalk_fail (hd : die < 4) (ha : asid < 2 ^ 12) (hv : va.toNat < 2 ^ 52)
    (h : ∀ t, s.walk die asid va.toNat ≠ .leaf t false) :
    exec (.pageWalk die asid va) s = .next (s.keepNodes die asid va.toNat) := by
  change execPageWalk die asid va s = _
  rw [execPageWalk, if_neg (by omega)]
  dsimp only
  split
  · next t ht => exact absurd ht (h t)
  · rfl
end

/-! ## Soft errors (R296) -/

theorem mem_cons_unless_contains {l : List Nat} {g x : Nat} :
    x ∈ (if l.contains g then l else g :: l) ↔ x = g ∨ x ∈ l := by
  split
  · next h => exact ⟨.inr, fun hx => hx.elim (fun e => e ▸ List.contains_iff_mem.1 h) id⟩
  · exact List.mem_cons

/-- The state with a granule of memory poisoned. -/
def State.poisonMem (s : State) (g : Nat) : State :=
  { s with poison := if s.poison.contains g then s.poison else g :: s.poison }

/-- The state with a granule of an SRAM pool poisoned. -/
def State.poisonPool (s : State) (g : Nat) : State :=
  { s with spoison := if s.spoison.contains g then s.spoison else g :: s.spoison }

theorem State.poisoned_of_mem {s : State} {g : Nat} (h : g ∈ s.poison) : s.poisoned (8 * g) 8 = true :=
  List.any_eq_true.2 ⟨g, h, by simp only [Bool.and_eq_true, decide_eq_true_eq]; omega⟩

theorem exec_eccError_mem {s : State} {g : Nat} (h : g < 2 ^ 39) : exec (.eccError g true) s = .next (s.poisonMem g) := by
  change execEccError g true s = _
  rw [execEccError, if_neg (by decide), firstPoolGranule, if_pos h, State.poisonMem]
  split <;> rfl

theorem exec_eccError_pool {s : State} {g : Nat} (h : 2 ^ 39 ≤ g) (h' : g < 2 ^ 40) :
    exec (.eccError g true) s = .next (s.poisonPool (g - 2 ^ 39)) := by
  change execEccError g true s = _
  rw [execEccError, if_neg (by decide), firstPoolGranule, firstL1Granule, if_neg (Nat.not_lt.2 h),
    if_neg (Nat.not_le.2 h'), State.poisonPool]
  generalize g - 2 ^ 39 = p
  dsimp only
  split <;> rfl

theorem exec_eccError_l1 {s : State} {g : Nat} (h : 2 ^ 40 ≤ g) :
    exec (.eccError g true) s = .next (s.poisonL1 ((g - 2 ^ 40) / 2 ^ 39) ((g - 2 ^ 40) % 2 ^ 39)) := by
  change execEccError g true s = _
  rw [execEccError, if_neg (by decide), firstPoolGranule, firstL1Granule, if_neg (by omega), if_pos h]

/-- A copy with granule g of its core's lines poisoned, where it is a copy of that line. -/
def L1Line.poison (g : Nat) (e : L1Line) : L1Line := if e.line = g / 16 then { e with bad := g % 16 :: e.bad } else e

/-- The model changes a core that holds a copy of the line alone; in another one the map changes no copy either. -/
theorem State.poisonL1_l1 (s : State) (c g : Nat) : ((s.poisonL1 c g).core c).l1 = (s.core c).l1.map (L1Line.poison g) := by
  rw [State.poisonL1]
  split
  · rw [State.core_setCore]; rfl
  · next h =>
    have hmap : ∀ e ∈ (s.core c).l1, L1Line.poison g e = e := fun e he =>
      if_neg fun hl => h (List.any_eq_true.2 ⟨e, he, beq_iff_eq.2 hl⟩)
    exact ((List.map_congr_left hmap).trans (List.map_id' _)).symm

theorem State.poisonL1_frame (s : State) (c g : Nat) :
    SameMemory s (s.poisonL1 c g) ∧ (s.poisonL1 c g).poison = s.poison ∧ (s.poisonL1 c g).spoison = s.spoison := by
  rw [State.poisonL1]
  split <;> exact ⟨sameMemory_of_eq rfl rfl rfl, rfl, rfl⟩

/-! ## Invalidation (R304) -/

/-- The translations of a cache that a command leaves. -/
def keptBy (c : Nat × Nat × W64 × Nat) (l : List TlbEntry) : List TlbEntry := l.filter fun t => !removes c t

theorem removes_of_mem_keptBy {c : Nat × Nat × W64 × Nat} {l : List TlbEntry} {e : TlbEntry} (h : e ∈ keptBy c l) :
    removes c e = false := by
  simpa using (List.mem_filter.1 h).2

/-- The caches of translations without those that a command removes. -/
def State.invalidated (s : State) (c : Nat × Nat × W64 × Nat) : State :=
  { s with
    cores := s.cores.map fun (e : Nat × Core) => (e.1, { e.2 with tlb := keptBy c e.2.tlb }),
    dies := s.dies.map fun (e : Nat × Die) =>
      (e.1, { e.2 with tcache := keptBy c e.2.tcache, nodes := if c.1 = 3 then [] else e.2.nodes }) }

/-- An entry of a table of changed entries is a changed entry. -/
theorem Tbl.get?_map {α : Type} (f : α → α) (t : Tbl α) (k : Nat) :
    Tbl.get? (t.map fun e => (e.1, f e.2)) k = (t.get? k).map f := by
  induction t with
  | nil => rfl
  | cons e t ih =>
    obtain ⟨j, y⟩ := e
    simp only [List.map_cons, Tbl.get?]
    split
    · rfl
    · exact ih

theorem State.invalidated_core (s : State) (c : Nat × Nat × W64 × Nat) (n : Nat) :
    (s.invalidated c).core n = { s.core n with tlb := keptBy c (s.core n).tlb } := by
  simp only [State.core, State.invalidated, Tbl.getD, Tbl.get?_map (fun x : Core => { x with tlb := keptBy c x.tlb })]
  cases s.cores.get? n <;> rfl

theorem State.invalidated_die (s : State) (c : Nat × Nat × W64 × Nat) (n : Nat) :
    (s.invalidated c).die n = { s.die n with
      tcache := keptBy c (s.die n).tcache, nodes := if c.1 = 3 then [] else (s.die n).nodes } := by
  simp only [State.die, State.invalidated, Tbl.getD, Tbl.get?_map
    (fun x : Die => { x with tcache := keptBy c x.tcache, nodes := if c.1 = 3 then [] else x.nodes })]
  cases s.dies.get? n with
  | some x => rfl
  | none => split <;> rfl

theorem exec_invalidationComplete {s : State} {c : Nat × Nat × W64 × Nat} {rest : List (Nat × Nat × W64 × Nat)}
    (h : s.xlat.cmds = c :: rest) (hr : s.reqs = []) (hp : s.partUses c = false) :
    exec .invalidationComplete s = .next { s.drainTun.invalidated c with
      xlat := { s.xlat with cmds := rest, xseq := s.xlat.xseq + 1 } } := by
  change execInvalidationComplete s = _
  simp only [execInvalidationComplete, h, hr, hp, State.drainTun_xlat]
  rfl

end Sys2Proof.Machine

namespace Sys2Proof

open Sys2Proof.Machine

/-- Settles O47: each event of the memory hierarchy is one step, and the lemmas above say what that step leaves. -/
theorem memoryEvents : Obligations.MemoryEvents := by
  unfold Obligations.MemoryEvents
  intro s
  refine ⟨?merge, ?evict, ?walk, fun _ => rfl, ?poison, fun _ _ => ⟨rfl, rfl, rfl, rfl⟩, ?invalidate⟩
  case merge =>
    intro i t h
    exact ⟨_, exec_tunMerge h, (State.mergeTun_levelFrame _ t).tun, State.mergeTun_fx, State.mergeTun_f32,
      fun a ha => State.mergeTun_outside _ t ha⟩
  case evict =>
    exact fun l => ⟨s.evict l, exec_tunEviction, exec_lineEviction, (s.evict_levelFrame l).mem, s.evict_bytes l,
      fun a ha => s.evict_outside ha, s.evict_line l⟩
  case walk =>
    intro die asid va hd ha hv
    obtain ⟨hmem, hcores, htcache⟩ := s.keepNodes_frame die asid va.toNat
    refine ⟨fun t ht => ⟨_, exec_pageWalk_leaf hd ha hv ht, ?_, fun c => ?_, fun n hn => ?_,
      sameMemory_trans hmem (State.takeLeaf_sameMemory _ die t)⟩,
      fun hf => ⟨_, exec_pageWalk_fail hd ha hv hf, htcache, hcores, hmem⟩⟩
    · rw [State.takeLeaf_die, htcache]
    · have hcore : (s.keepNodes die asid va.toNat).core c = s.core c := congrArg (Tbl.getD · c Core.new) hcores
      have htlb := (s.keepNodes die asid va.toNat).takeLeaf_tlb die t c
      rwa [hcore] at htlb
    · rw [State.takeLeaf_die] at hn
      exact State.mem_keepNodes hn
  case poison =>
    intro g
    rcases Nat.lt_or_ge g (2 ^ 39) with hlt | hge
    · exact ⟨_, exec_eccError_mem hlt, sameMemory_of_eq rfl rfl rfl,
        fun _ => ⟨State.poisoned_of_mem (mem_cons_unless_contains.2 (.inl rfl)), rfl,
          fun _ hx => mem_cons_unless_contains.2 (.inr hx)⟩, fun _ => by omega, fun _ => by omega⟩
    · rcases Nat.lt_or_ge g (2 ^ 40) with hlt | hge'
      · exact ⟨_, exec_eccError_pool hge hlt, sameMemory_of_eq rfl rfl rfl, fun _ => by omega,
          fun _ _ => ⟨rfl, mem_cons_unless_contains.2 (.inl rfl)⟩, fun _ => by omega⟩
      · obtain ⟨hmem, hpoison, hspoison⟩ := s.poisonL1_frame ((g - 2 ^ 40) / 2 ^ 39) ((g - 2 ^ 40) % 2 ^ 39)
        exact ⟨_, exec_eccError_l1 hge', hmem, fun _ => by omega, fun _ _ => by omega,
          fun _ => ⟨hpoison, hspoison, s.poisonL1_l1 _ _⟩⟩
  case invalidate =>
    intro c rest hc hr hp
    refine ⟨_, exec_invalidationComplete hc hr hp, rfl, s.drainTun_tun, fun n e he => ?_,
      fun d => ⟨fun e he => ?_, fun h3 => ?_⟩⟩
    · exact removes_of_mem_keptBy (congrArg Core.tlb (s.drainTun.invalidated_core c n) ▸ he)
    · exact removes_of_mem_keptBy (congrArg Die.tcache (s.drainTun.invalidated_die c d) ▸ he)
    · exact (congrArg Die.nodes (s.drainTun.invalidated_die c d)).trans (if_pos h3)

end Sys2Proof
end

section
/-! Launch and placement (chapter 13): the verdict on a packet, its consumption, the placement of crews and their shares. -/

namespace Sys2Proof.Machine

/-! ## The verdict on a packet (R351, R352)

Each check decides only where the ones before it have passed. -/

section
variable {s u : State} {q : Nat} {e : QueueEntry} {p : LaunchPacket} {h : List Byte}

theorem State.judge_malformed (hp : s.badPacket e.part p = true) : s.judge q e p = (.refuse .packet, s) := by
  rw [State.judge, if_pos hp]

theorem State.judge_headerUnread {r : AccErr} (hp : s.badPacket e.part p = false)
    (hr : s.readHeader q p.asid e.part p.kimg = .error r) (hx : ∀ x, r ≠ .remote x) :
    s.judge q e p = (.refuse .header, s) := by
  rw [State.judge, if_neg (by simp [hp]), hr]
  cases r with
  | remote x => exact absurd rfl (hx x)
  | _ => rfl

variable (hp : s.badPacket e.part p = false) (hr : s.readHeader q p.asid e.part p.kimg = .ok (h, u))
include hp hr

theorem State.judge_headerBad (hh : headerOk (kernelOf p.kimg h) h = false) : s.judge q e p = (.refuse .header, u) := by
  rw [State.judge, if_neg (by simp [hp]), hr]
  exact if_pos (by simp [hh])

theorem State.judge_featureDeclined (hh : headerOk (kernelOf p.kimg h) h = true) (hf : u.featuresOk e.part h = false) :
    s.judge q e p = (.refuse .feature, u) := by
  rw [State.judge, if_neg (by simp [hp]), hr]
  exact (if_neg (by simp [hh])).trans (if_pos (by simp [hf]))

theorem State.judge_misfit (hh : headerOk (kernelOf p.kimg h) h = true) (hf : u.featuresOk e.part h = true)
    (hm : u.mayPlace (u.freeGrid.getD 4096) (u.gridOf (u.freeGrid.getD 4096) q e p (kernelOf p.kimg h)) = false) :
    s.judge q e p = (.refuse .place, u) := by
  rw [State.judge, if_neg (by simp [hp]), hr]
  exact (if_neg (by simp [hh])).trans ((if_neg (by simp [hf])).trans (if_pos (by simp [hm])))

end

/-! ## The head packet of the queue that is served (R349, R353) -/

/-- As whom the dispatcher writes for a packet that is no grid yet: in the packet's address space, with no grid's id. -/
def packetStarter (e : QueueEntry) (p : LaunchPacket) : Starter :=
  { asid := p.asid, part := e.part, grid := 4096, gid := BitVec.allOnes 32, index := 0, tag := 0 }

section
variable {s t : State} {q : Nat} {e : QueueEntry} {x : Xl} {bs : List Byte} (hs : s.serving = true) (hq : q < 64)
  (hd : s.queueHead q = .ready e x bs) (hc : s.choosesQueue q e = true)
include hs hq hd hc

theorem exec_packetAdmission_refuse {c : Status} (hj : s.judge q e (launchPacketOf bs) = (.refuse c, t)) :
    exec (.packetAdmission q) s = .next ((t.consume q e x (packetStarter e (launchPacketOf bs))).refuse q e.head
      (packetStarter e (launchPacketOf bs)) (launchPacketOf bs) c) := by
  change execPacketAdmission q s = _
  simp [execPacketAdmission, hs, Nat.not_le.2 hq, hd, hc, hj, packetStarter]

theorem exec_packetAdmission_seat {k : Nat} {g : Grid} (hj : s.judge q e (launchPacketOf bs) = (.seatGrid k g, t))
    (hp : (launchPacketOf bs).coop = false) :
    exec (.packetAdmission q) s =
      .next ((t.consume q e x (packetStarter e (launchPacketOf bs))).seatGrid q e.head k g) := by
  change execPacketAdmission q s = _
  simp [execPacketAdmission, hs, Nat.not_le.2 hq, hd, hc, hj, hp, packetStarter]

end

/-! ## The placement of the next crew (R363) -/

/-- Another grid of the dispatcher goes before grid k and can be placed. -/
def State.ahead (s : State) (k : Nat) (gr : Grid) : Bool :=
  s.grids.any fun e => e.1 != k && e.2.unplaced && !e.2.coop && s.sameDispatcher e.2 gr && e.2.before gr
    && !s.restoreFirst e.2 && !s.backedOff e.2 && (s.placeNext e.1).isSome

theorem State.ahead_eq_false {s : State} {k : Nat} {gr : Grid}
    (h : ∀ e ∈ s.grids, e.1 ≠ k → e.2.unplaced = true → e.2.coop = false → s.sameDispatcher e.2 gr = true →
      e.2.before gr = true → s.restoreFirst e.2 = true ∨ s.backedOff e.2 = true ∨ s.placeNext e.1 = none) :
    s.ahead k gr = false := by
  simp only [State.ahead, List.any_eq_false, Bool.and_eq_true, bne_iff_ne, Bool.not_eq_true', not_and,
    Bool.not_eq_true, Option.isSome_eq_false_iff, Option.isNone_iff_eq_none]
  rintro e he ⟨⟨⟨⟨⟨⟨hk, hu⟩, hc⟩, hd⟩, hb⟩, hr⟩, hw⟩
  simpa only [hr, hw, Bool.false_eq_true, false_or] using h e he hk hu hc hd hb

/-- Crews that are placed one by one take no holds, so their dispatcher never backs off for them. -/
theorem State.backedOff_of_conv_zero (s : State) {gr : Grid} (h : gr.conv = 0) : s.backedOff gr = false := by
  simp [State.backedOff, h]

theorem exec_crewPlacement {s t : State} {k : Nat} {gr : Grid} (hs : s.serving = true) (hg : s.grid? k = some gr)
    (hu : gr.unplaced = true) (hc : gr.coop = false) (hv : gr.conv = 0) (hr : s.restoreFirst gr = false)
    (ha : s.ahead k gr = false) (hp : s.placeNext k = some t) : exec (.crewPlacement k) s = .next (t.heldAll gr) := by
  change execCrewPlacement k s = _
  rw [State.ahead] at ha
  simp [execCrewPlacement, hg, ha, hs, hu, hc, hr, s.backedOff_of_conv_zero hv, hp, hv]

/-! ## The shares of a weight (R358) -/

theorem shareOf_toNat (w : W64) {n i : Nat} (h : i < n) :
    (shareOf w n i).toNat = w.toNat * (i + 1) / n - w.toNat * i / n := by
  have hle : w.toNat * (i + 1) / n ≤ w.toNat := Nat.div_le_of_le_mul (Nat.mul_comm n _ ▸ Nat.mul_le_mul_left _ h)
  rw [shareOf, BitVec.toNat_ofNat, Nat.mod_eq_of_lt (Nat.lt_of_le_of_lt (Nat.le_trans (Nat.sub_le _ _) hle) w.isLt)]

/-- The shares telescope: those of the first m crews add up to what the last of them reaches. -/
theorem sum_shareOf (w : W64) {n m : Nat} (h : m ≤ n) :
    ((List.range m).map fun i => (shareOf w n i).toNat).foldl (· + ·) 0 = w.toNat * m / n := by
  induction m with
  | zero => simp
  | succ m ih =>
    have hmono : w.toNat * m / n ≤ w.toNat * (m + 1) / n := Nat.div_le_div_right (Nat.mul_le_mul_left _ m.le_succ)
    rw [List.range_succ, List.map_append, List.foldl_append, ih (by omega)]
    simp only [List.map_cons, List.map_nil, List.foldl_cons, List.foldl_nil, shareOf_toNat w h]
    omega

end Sys2Proof.Machine

namespace Sys2Proof

open Sys2Proof.Machine

/-- Settles O43: the codes are the branches of the verdict, in its order, and the shares telescope. -/
theorem admission : Obligations.Admission := by
  unfold Obligations.Admission
  refine ⟨?packet, ?crew, ?shares, fun _ _ => rfl⟩
  case packet =>
    intro s q e x bs hs hq hd hc
    refine ⟨fun hp => by rw [State.judge_malformed hp], fun r hp hr hx => by rw [State.judge_headerUnread hp hr hx],
      fun h u hp hr => ⟨fun hh => by rw [State.judge_headerBad hp hr hh],
        fun hh hf => by rw [State.judge_featureDeclined hp hr hh hf],
        fun hh hf hm => by rw [State.judge_misfit hp hr hh hf hm]⟩,
      fun c t hj => exec_packetAdmission_refuse hs hq hd hc hj,
      fun k g t hj hp => exec_packetAdmission_seat hs hq hd hc hj hp⟩
  case crew =>
    exact fun s t k gr hs hg hu hc hv hr ha hp => exec_crewPlacement hs hg hu hc hv hr (State.ahead_eq_false ha) hp
  case shares =>
    exact fun w n hn => (sum_shareOf w n.le_refl).trans (Nat.mul_div_cancel _ hn)

end Sys2Proof
end

section
/-! Crews that leave their core and come back (chapters 13 and 14): requests, kills, restores and MKILL. -/

namespace Sys2Proof.Machine

/-! ## Reports

A report changes no crew that is away and no agent that is paused: it stops the grid that it names. -/

/-- What the stop of a grid leaves: the crews that are away, the agents that are paused, and the reports. -/
theorem State.stopGrid_frame (s : State) (g : Nat) :
    (s.stopGrid g).away = s.away ∧ (s.stopGrid g).paused = s.paused ∧ (s.stopGrid g).reports = s.reports := by
  have hfold : ∀ (l : List (Nat × Gang)) (s : State), let t := l.foldl (fun s e => s.dropHoles e.1) s
      t.away = s.away ∧ t.paused = s.paused ∧ t.reports = s.reports := by
    intro l
    induction l with
    | nil => exact fun _ => ⟨rfl, rfl, rfl⟩
    | cons e l ih => exact fun s => ih (s.dropHoles e.1)
  exact hfold _ s

/-- A report that names a grid: one more report, and the crews away and the agents paused as before. -/
theorem State.report_frame (s : State) (g : Option Nat) (bs : List Byte) (code : Code) (src : Source) (a b c d : W64) :
    let t := s.report g bs code src a b c d
    t.away = s.away ∧ t.paused = s.paused ∧ t.reports.length = s.reports.length + 1 := by
  cases g with
  | none => exact ⟨rfl, rfl, List.length_append⟩
  | some k =>
    obtain ⟨haway, hpaused, hreports⟩ := State.stopGrid_frame
      { s with reports := s.reports ++ [{ bytes := reportBytes bs (s.gridId (some k)) code src a b c d }] } k
    exact ⟨haway, hpaused, (congrArg List.length hreports).trans List.length_append⟩

/-! ## Requests (R371, R383, R386) -/

/-- The victim's sleeping gangs wake; it is then frozen for a kill, or asked to leave at a safe point. -/
theorem exec_preemptRequest {s : State} {k key : Nat} {g h : Grid} {c : Crew} (hg : s.grid? k = some g)
    (hcls : g.cls = 0) (hu : g.unplaced = true) (hc : g.coop = false) (hp : s.placeNext k = none)
    (hv : s.victim g.part = some (key, c)) (hh : s.grid? c.grid = some h) :
    exec (.preemptRequest k) s =
      let u := s.mapGangs key Gang.wake
      if u.killable key c h.kernel then .next (u.mapGangs key fun y => { y with frozen := true })
      else .next (u.setCrew key { c with preempt := some { at_ := s.clk.refc } }) := by
  change execPreemptRequest k s = _
  have hwoken : (s.mapGangs key Gang.wake).grid? c.grid = some h := hh
  simp only [execPreemptRequest, hg, hcls, hu, hc, hp, hv, hwoken]
  rfl

theorem exec_preemptWithdrawTimeout {s : State} {key : Nat} {c : Crew} {r : PreReq} (hc : s.crew? key = some c)
    (hr : c.preempt = some r) :
    exec (.preemptWithdrawTimeout key) s = if r.at_ + 2 ^ 20 ≤ s.clk.refc then .next (s.withdraw key) else .next s := by
  change execPreemptWithdrawTimeout key s = _
  simp only [execPreemptWithdrawTimeout, hc, hr]

/-! ## Kills (R386) -/

theorem exec_crewKill {s t : State} {key : Nat} {c d : Crew} {g : Grid} (hc : s.crew? key = some c)
    (hg : s.grid? c.grid = some g) (hd : s.doomed key = true) (hs : g.stopped = false)
    (hm : ∀ x ∈ c.live, s.mayKill x = true) (hk : s.killable key c g.kernel = true)
    (hq : (c.live.foldl State.quench s).crew? key = some d)
    (hw : (c.live.foldl State.quench s).ctxWrites ((c.live.foldl State.quench s).crewWho key d)
      (killWrites d ((c.live.foldl State.quench s).crewGangs d) g.kernel) = .ok t) :
    exec (.crewKill key) s = .next (t.leaveCore key d true) := by
  change execCrewKill key s = _
  simp only [execCrewKill, hc, hg, hd, hs, List.all_eq_true.2 hm, hk, hq, hw, Bool.not_true, Bool.or_self,
    Bool.false_eq_true, if_false]

/-! ## Restores (R305, R306, R384, R389) -/

/-- Where nothing holds a crew back, no poisoned acknowledgement does. -/
theorem State.ackPoisoned_of_heldBack {s : State} {a : AwayCrew} (h : s.heldBack a = false) : s.ackPoisoned a = false := by
  rw [State.heldBack, Bool.or_eq_false_iff] at h
  exact h.1

/-- No agent that is paused is the crew of a tag. -/
theorem Paused.find?_eq_none {l : List Paused} {tag : Nat} (h : ∀ p ∈ l, ¬(p.agent = 0 ∧ p.key = tag)) :
    l.find? (fun p => p.agent == 0 && p.key == tag) = none :=
  List.find?_eq_none.2 fun p hp => by simpa using h p hp

section
variable {s : State} {tag : Nat} {a : AwayCrew} (ha : s.away.get? tag = some a) (hr : s.running a.crew.grid = true)
  (hb : s.heldBack a = false)
include ha hr hb

theorem exec_crewRestore (hk : a.killed = false) : exec (.crewRestore tag) s = .next (s.comeBack tag a) := by
  change execCrewRestore tag s = _
  simp only [execCrewRestore, ha, hk, hr, hb, Bool.not_true, Bool.or_self, Bool.false_eq_true, if_false]

theorem exec_killedCrewRestore_unfaulted (hk : a.killed = true)
    (hf : s.paused.find? (fun p => p.agent == 0 && p.key == tag) = none) :
    exec (.killedCrewRestore tag) s = .next (s.comeBack tag a) := by
  change execKilledCrewRestore tag s = _
  simp only [execKilledCrewRestore, ha, hk, hr, hb, State.ackPoisoned_of_heldBack hb, hf, Bool.not_true, Bool.or_self, Bool.false_eq_true, if_false]

/-- The crew's page fault stands in an entry of the fault queue: what its acknowledgement says is done. -/
theorem exec_killedCrewRestore_posted {p : Paused} {pa : Nat} (hk : a.killed = true)
    (hf : s.paused.find? (fun p => p.agent == 0 && p.key == tag) = some p) (he : p.entry = some pa) :
    let t := s.atHome (s.plainAt pa)
    let rest : State := { t with paused := s.paused.filter fun q => !(q.agent == 0 && q.key == tag) }
    let ack := word64 (t.readPa (pa + 0x10) 8)
    exec (.killedCrewRestore tag) s =
      if ack = 1 then .next (rest.comeBack tag a)
      else if ack = 2 then .next (rest.report (some a.crew.grid) [] .page
        { die := dieOf (clusterOf (coreOf p.sel)), from_ := 0, unit := 0 } 0 0 0 (crewWord a.crew.index a.crew.tag))
      else .next s := by
  change execKilledCrewRestore tag s = _
  simp only [execKilledCrewRestore, ha, hk, hr, hb, State.ackPoisoned_of_heldBack hb, hf, he, Bool.not_true, Bool.or_self, Bool.false_eq_true, if_false]
  split
  · next h => exact (if_pos h).symm
  · next h => rw [h]; rfl
  · next h1 h2 => exact ((if_neg h1).trans (if_neg h2)).symm

end

/-! ## MKILL (R459) -/

theorem exec_mkill_unknown {s : State} {id : W64} (h : ∀ e ∈ s.grids, e.2.id ≠ id.setWidth 32) :
    exec (.mkill id) s = .next s := by
  have hf : s.grids.find? (fun e => e.2.id == id.setWidth 32) = none :=
    List.find?_eq_none.2 fun e he => by simpa using h e he
  change execMkill id s = _
  rw [execMkill, State.killId, hf]

theorem exec_mkill_live {s : State} {id : W64} {e : Nat × Grid}
    (h : s.grids.find? (fun e => e.2.id == id.setWidth 32) = some e) :
    exec (.mkill id) s =
      .next ((s.grids.filter fun x => descends s.grids e.1 11 x.1).foldl (fun s x => s.killGrid x.1) s) := by
  change execMkill id s = _
  rw [execMkill, State.killId, h]

end Sys2Proof.Machine

namespace Sys2Proof

open Sys2Proof.Machine

/-- Settles O44: each clause is one branch of its event, by the lemmas above. -/
theorem leavingCores : Obligations.LeavingCores := by
  unfold Obligations.LeavingCores
  refine ⟨?request, ?lapse, ?kill, ?restore, fun s id => ⟨exec_mkill_unknown, fun e => exec_mkill_live⟩⟩
  case request =>
    intro s k key g h c hg hcls hu hc hp hv hh
    rw [exec_preemptRequest hg hcls hu hc hp hv hh]
    exact ⟨fun hk => if_pos hk, fun hk => if_neg (by simp [hk])⟩
  case lapse =>
    intro s key c r hc hr
    rw [exec_preemptWithdrawTimeout hc hr]
    exact ⟨fun h => if_pos h, fun h => if_neg (Nat.not_le.2 h)⟩
  case kill =>
    exact fun s t key c d g hc hg hd hs hm hk hq hw => exec_crewKill hc hg hd hs hm hk hq hw
  case restore =>
    intro s tag a ha hr hb
    refine ⟨exec_crewRestore ha hr hb,
      fun hk hf => exec_killedCrewRestore_unfaulted ha hr hb hk (Paused.find?_eq_none hf), fun p pa hk hf he => ?_⟩
    dsimp only
    rw [exec_killedCrewRestore_posted ha hr hb hk hf he]
    exact ⟨fun h1 => if_pos h1,
      fun h2 => ⟨_, (if_neg (by rw [h2]; decide)).trans (if_pos h2), State.report_frame _ _ _ _ _ _ _ _ _⟩,
      fun h1 h2 => (if_neg h1).trans (if_neg h2)⟩

end Sys2Proof
end

section
/-! The words of a trap record (R374): eight words, of which the first packs the trap's numbers. -/

namespace Sys2Proof.Machine

/-! ## Words in bytes and in halves -/

/-- Word k of a list of words in bytes. -/
theorem word64_drop_flatMap {ws : List W64} {k : Nat} (h : k < ws.length) :
    word64 ((ws.flatMap bytes64).drop (8 * k)) = ws[k] := by
  induction ws generalizing k with
  | nil => exact absurd h (Nat.not_lt_zero k)
  | cons w ws ih =>
    have hw : (bytes64 w).length = 8 := length_leBytes 8 w.toNat
    rw [List.flatMap_cons]
    cases k with
    | zero =>
      rw [Nat.mul_zero, List.drop_zero, word64, List.take_left' hw, ← List.take_of_length_le hw.le]
      exact word64_bytes64 w
    | succ k =>
      rw [Nat.mul_succ, Nat.add_comm, ← List.drop_drop, List.drop_left' hw]
      exact ih (Nat.lt_of_succ_lt_succ h)

theorem toNat_halves (hi lo : W32) : (hi ++ lo).toNat = hi.toNat * 2 ^ 32 + lo.toNat := by
  rw [BitVec.toNat_append, Nat.shiftLeft_eq, Nat.mul_comm, Nat.two_pow_add_eq_or_of_lt lo.isLt]

/-- The bytes of a word from the numbers of its halves. -/
theorem leBytes_halves (hi lo : W32) : leBytes 8 (hi.toNat * 2 ^ 32 + lo.toNat) = bytes64 (hi ++ lo) := by
  rw [bytes64, toNat_halves]

theorem setWidth_halves (hi lo : W32) : (hi ++ lo).setWidth 32 = lo := by
  apply BitVec.eq_of_toNat_eq
  rw [BitVec.toNat_setWidth, toNat_halves, Nat.mul_add_mod_of_lt lo.isLt]

theorem setWidth_ushiftRight_halves (hi lo : W32) : ((hi ++ lo) >>> 32).setWidth 32 = hi := by
  have hlo := lo.isLt
  have hhi := hi.isLt
  apply BitVec.eq_of_toNat_eq
  rw [BitVec.toNat_setWidth, BitVec.toNat_ushiftRight, toNat_halves, Nat.shiftRight_eq_div_pow]
  omega

/-! ## The words of a trap record -/

/-- The lane bits of a record's first word. -/
def TrapPoint.laneBits (p : TrapPoint) : Nat :=
  match p.lane with
  | some (l, _) => 2 ^ 12 + 2 ^ 13 * l.val
  | none => 0

/-- Where the lanes resume. -/
def TrapPoint.resume (p : TrapPoint) : Nat :=
  match p.lane with
  | some (_, l) => l % 2 ^ 30
  | none => 0

/-- The cause's field of a record's first word. -/
def Trap.causeBits (t : Trap) : Nat :=
  match t.cause with
  | some c => 256 * c.num
  | none => 0

/-- The words of a trap record. -/
def recordWords (t : Trap) (p : TrapPoint) (cyc s62 s63 : W64) : List W64 :=
  [t.info ++ BitVec.ofNat 32 (t.code.num + t.causeBits + p.laneBits), p.faddr, p.sres,
    cyc.setWidth 32 ++ BitVec.ofNat 32 p.resume, t.stamp ++ t.nmask, t.va, s62, s63]

theorem Code.num_lt (c : Code) : c.num < 2 ^ 8 := by cases c <;> decide

theorem PageCause.num_lt (c : PageCause) : c.num < 2 ^ 4 := by cases c <;> decide

theorem Trap.causeBits_lt (t : Trap) : t.causeBits < 2 ^ 12 := by
  unfold Trap.causeBits
  split
  · next c _ => have := c.num_lt; omega
  · decide

theorem TrapPoint.laneBits_lt (p : TrapPoint) : p.laneBits < 2 ^ 15 := by
  unfold TrapPoint.laneBits
  split
  · next l _ _ => have := l.isLt; omega
  · decide

theorem TrapPoint.resume_lt (p : TrapPoint) : p.resume < 2 ^ 32 := by
  unfold TrapPoint.resume
  split
  · exact (Nat.mod_lt _ (by decide)).trans (by decide)
  · decide

/-- A record's first word: its fields do not reach into INFO. -/
theorem leBytes_recordCode (t : Trap) (p : TrapPoint) :
    leBytes 8 (t.info.toNat * 2 ^ 32 + (match p.lane with
      | some (sl, _) => sl.val * 2 ^ 13 + 2 ^ 12
      | none => 0) + (match t.cause with
      | some c => c.num * 2 ^ 8
      | none => 0) + t.code.num) = bytes64 (t.info ++ BitVec.ofNat 32 (t.code.num + t.causeBits + p.laneBits)) := by
  have hlt : t.code.num + t.causeBits + p.laneBits < 2 ^ 32 := by
    have hcode := t.code.num_lt
    have hcause := t.causeBits_lt
    have hlane := p.laneBits_lt
    omega
  rw [← leBytes_halves, BitVec.toNat_ofNat, Nat.mod_eq_of_lt hlt]
  refine congrArg (leBytes 8) ?_
  unfold Trap.causeBits TrapPoint.laneBits
  cases p.lane <;> cases t.cause <;> dsimp only <;> omega

theorem leBytes_resume (cyc : W64) (p : TrapPoint) :
    leBytes 8 (cyc.toNat % 2 ^ 32 * 2 ^ 32 + p.resume) = bytes64 (cyc.setWidth 32 ++ BitVec.ofNat 32 p.resume) := by
  rw [← leBytes_halves, BitVec.toNat_setWidth, BitVec.toNat_ofNat, Nat.mod_eq_of_lt p.resume_lt]

theorem recordBytes_eq (t : Trap) (p : TrapPoint) (cyc s62 s63 : W64) :
    recordBytes t p cyc s62 s63 = (recordWords t p cyc s62 s63).flatMap bytes64 := by
  calc recordBytes t p cyc s62 s63
      = bytes64 (t.info ++ BitVec.ofNat 32 (t.code.num + t.causeBits + p.laneBits)) ++ bytes64 p.faddr ++ bytes64 p.sres
          ++ bytes64 (cyc.setWidth 32 ++ BitVec.ofNat 32 p.resume) ++ bytes64 (t.stamp ++ t.nmask) ++ bytes64 t.va
          ++ bytes64 s62 ++ bytes64 s63 := by
        rw [← leBytes_recordCode, ← leBytes_resume, ← leBytes_halves]; rfl
    _ = (recordWords t p cyc s62 s63).flatMap bytes64 := by simp [recordWords]

end Sys2Proof.Machine

namespace Sys2Proof

open Sys2Proof.Machine

/-- Settles O22: the record is its eight words one behind another, and two of them are cut into their halves. -/
theorem trapRecord : Obligations.TrapRecord := by
  unfold Obligations.TrapRecord
  intro t p cyc s62 s63
  dsimp only
  rw [recordBytes_eq]
  have word (k : Nat) (hk : k < 8) : word64 (((recordWords t p cyc s62 s63).flatMap bytes64).drop (8 * k)) =
      (recordWords t p cyc s62 s63)[k]'hk := word64_drop_flatMap hk
  rw [word 3 (by decide)]
  exact ⟨by simp [recordWords, bytes64], word 1 (by decide), word 2 (by decide), word 5 (by decide), word 6 (by decide),
    word 7 (by decide), word 0 (by decide), word 4 (by decide), setWidth_halves _ _, setWidth_ushiftRight_halves _ _⟩

end Sys2Proof
end

section
/-! Starts and power (chapter 18): the boot journal, resets, margins, the power limit and the coolant. -/

namespace Sys2Proof.Machine

/-! ## Starts (R452, R453) -/

@[simp] theorem Boot.note_start (b : Boot) (u : BootUnit) (att out : Nat) : (b.note u att out).start = b.start := by
  simp only [Boot.note]
  rfl

theorem Boot.note_journal_le (b : Boot) (u : BootUnit) (att out : Nat) : (b.note u att out).journal.length ≤ 4096 := by
  simp only [Boot.note, Boot.free, List.length_drop, List.length_append, List.length_singleton]
  omega

/-- What the attempts of a start keep: its number, and a journal of at most 4,096 entries. -/
structure Boot.Keeps (b c : Boot) : Prop where
  start : c.start = b.start
  journal : b.journal.length ≤ 4096 → c.journal.length ≤ 4096

theorem Boot.Keeps.refl (b : Boot) : b.Keeps b := ⟨rfl, id⟩

theorem Boot.Keeps.trans {b c d : Boot} (h : b.Keeps c) (k : c.Keeps d) : b.Keeps d :=
  ⟨k.start.trans h.start, k.journal ∘ h.journal⟩

theorem Boot.Keeps.foldl {f : Boot → BootUnit → Boot} (h : ∀ b u, Boot.Keeps b (f b u)) (l : List BootUnit) (b : Boot) :
    b.Keeps (l.foldl f b) := by
  induction l generalizing b with
  | nil => exact .refl b
  | cons u l ih => exact (h b u).trans (ih _)

theorem Boot.note_keeps (b : Boot) (u : BootUnit) (att out : Nat) : b.Keeps (b.note u att out) :=
  ⟨b.note_start u att out, fun _ => b.note_journal_le u att out⟩

@[simp] theorem Boot.free_start (b : Boot) : b.free.2.start = b.start := rfl

theorem Boot.attempt_keeps (b : Boot) (u : BootUnit) (att : Nat) : b.Keeps (b.attempt u att).2 := by
  unfold Boot.attempt
  dsimp only
  generalize (if u.step = 2 then imageGood (b.note u att 0).free.2.images[att % 2]
    else (b.note u att 0).free.1 % 2 == 0) = ok
  split
  · exact ⟨by simp, fun _ => by simp [Boot.note_journal_le]⟩
  · cases ok
    · exact ⟨by simp, fun _ => by simp [Boot.note_journal_le]⟩
    · exact ⟨by simp, fun _ => by simp [Boot.note_journal_le]⟩

theorem Boot.fence_keeps (b : Boot) (u : BootUnit) : b.Keeps (b.fence u) := ⟨rfl, id⟩

theorem Boot.unit_keeps (b : Boot) (u : BootUnit) : b.Keeps (b.unit u) := by
  have hsecond (b : Boot) : b.Keeps (if (b.attempt u 1).1 then (b.attempt u 1).2 else (b.attempt u 1).2.fence u) := by
    split
    · exact b.attempt_keeps u 1
    · exact (b.attempt_keeps u 1).trans (Boot.fence_keeps _ u)
  unfold Boot.unit
  dsimp only
  split
  · exact ⟨rfl, id⟩
  · split
    · exact (b.note_keeps u 0 3).trans (Boot.fence_keeps _ u)
    · exact hsecond b
    · split
      · exact b.attempt_keeps u 0
      · split
        · exact (b.attempt_keeps u 0).trans (hsecond _)
        · exact (b.attempt_keeps u 0).trans (Boot.fence_keeps _ u)

theorem Boot.hang_keeps (b : Boot) (n : Nat) : b.Keeps (b.hang n) := by
  refine (Boot.Keeps.foldl Boot.unit_keeps (bootUnits.take n) b).trans ?_
  unfold Boot.hang
  dsimp only
  split
  · exact .refl _
  · split
    · exact .refl _
    · split
      · exact .refl _
      · exact Boot.note_keeps _ _ 1 0
      · exact Boot.note_keeps _ _ 0 0

/-! ## Islands (R454, R455) -/

/-- What the operations on islands leave: all but the next free value and the islands' power, whose ceilings stand. -/
structure PowerFrame (s t : State) : Prop where
  state : ∃ c p, t = { s with choice := c, harbour := { s.harbour with power := p } }
  ceiling : t.harbour.power.ceiling = s.harbour.power.ceiling

theorem PowerFrame.refl (s : State) : PowerFrame s s := ⟨⟨_, _, rfl⟩, rfl⟩

theorem PowerFrame.trans {s t u : State} (h : PowerFrame s t) (k : PowerFrame t u) : PowerFrame s u := by
  obtain ⟨⟨c, p, rfl⟩, hc⟩ := h
  obtain ⟨⟨d, q, rfl⟩, kc⟩ := k
  exact ⟨⟨d, q, rfl⟩, kc.trans hc⟩

theorem PowerFrame.foldl {α : Type} {f : State → α → State} (h : ∀ s x, PowerFrame s (f s x)) (l : List α) (s : State) :
    PowerFrame s (l.foldl f s) := by
  induction l generalizing s with
  | nil => exact .refl s
  | cons x l ih => exact (h s x).trans (ih _)

theorem State.planIsland_powerFrame (s : State) (n : Nat) : PowerFrame s (s.planIsland n) := ⟨⟨_, _, rfl⟩, rfl⟩

theorem State.setIsland_powerFrame (s : State) (n : Nat) (f : Island → Island) : PowerFrame s (s.setIsland n f) :=
  ⟨⟨_, _, rfl⟩, rfl⟩

/-- The hour of a plan is noted. -/
def State.notePlan (s : State) : State :=
  { s with harbour := { s.harbour with power := { s.harbour.power with planned := s.clk.hours } } }

theorem State.planAll_eq (s : State) : s.planAll = (islandNos.foldl State.planIsland s).notePlan := rfl

theorem State.notePlan_powerFrame (s : State) : PowerFrame s s.notePlan := ⟨⟨_, _, rfl⟩, rfl⟩

theorem State.planAll_powerFrame (s : State) : PowerFrame s s.planAll :=
  s.planAll_eq ▸ (PowerFrame.foldl State.planIsland_powerFrame islandNos s).trans (State.notePlan_powerFrame _)

theorem State.lowerPlanned_powerFrame (s : State) (b : Boot) : PowerFrame s (s.lowerPlanned b) :=
  PowerFrame.foldl (fun s _ => s.setIsland_powerFrame _ _) _ s

/-- An operation for each of a list's numbers, which makes something true of its own number and leaves it true of the
others, makes it true of every one. -/
theorem foldl_establishes {P : State → Nat → Prop} {f : State → Nat → State} (own : ∀ s n, P (f s n) n)
    (others : ∀ s n m, m ≠ n → P s m → P (f s n) m) (l : List Nat) (s : State) : ∀ n ∈ l, P (l.foldl f s) n := by
  have kept (m : Nat) : ∀ (l : List Nat) (s : State), P s m → P (l.foldl f s) m := by
    intro l
    induction l with
    | nil => exact fun _ h => h
    | cons k l ih =>
      intro s h
      refine ih (f s k) ?_
      by_cases hk : m = k
      · exact hk ▸ own s m
      · exact others s k m hk h
  induction l generalizing s with
  | nil => exact fun n hn => absurd hn List.not_mem_nil
  | cons k l ih =>
    intro n hn
    rcases List.mem_cons.1 hn with rfl | hn
    · exact kept n l _ (own s n)
    · exact ih (f s k) n hn

/-! ## Margins (R454) -/

/-- The island has a frequency that is a multiple of 100 MHz up to its ceiling. -/
def State.Planned (s : State) (n : Nat) : Prop :=
  ∃ i, s.harbour.power.islands.get? n = some i ∧ i.freq % 100 = 0 ∧ i.freq ≤ s.harbour.power.ceiling n

theorem State.planIsland_planned_self (s : State) (n : Nat) : (s.planIsland n).Planned n := by
  refine ⟨_, Tbl.get?_set_self _ n _, Nat.mul_mod_left _ 100, ?_⟩
  refine (Nat.mul_le_mul_right 100 (Nat.le_of_lt_succ (Nat.mod_lt _ (Nat.succ_pos _)))).trans ?_
  exact Nat.div_mul_le_self _ 100

theorem State.planIsland_planned_ne (s : State) (n m : Nat) (h : m ≠ n) (hp : s.Planned m) : (s.planIsland n).Planned m := by
  obtain ⟨i, hi, hfreq, hceil⟩ := hp
  exact ⟨i, (Tbl.get?_set_ne _ _ h).trans hi, hfreq, hceil⟩

/-- Noting a plan's hour changes no island. -/
theorem State.notePlan_planned {s : State} {n : Nat} (h : s.Planned n) : s.notePlan.Planned n := h

theorem State.planAll_planned (s : State) (n : Nat) (h : n < 128) : s.planAll.Planned n :=
  s.planAll_eq ▸ State.notePlan_planned (foldl_establishes State.planIsland_planned_self State.planIsland_planned_ne
    islandNos s n (List.mem_range.2 h))

/-- The hour of a plan is that of the clock, which plans do not change. -/
theorem State.planAll_hours (s : State) : s.planAll.harbour.power.planned = s.clk.hours := by
  obtain ⟨⟨c, p, h⟩, -⟩ := PowerFrame.foldl State.planIsland_powerFrame islandNos s
  rw [State.planAll_eq, h]
  rfl

theorem exec_marginReplan_early {s : State} (h : s.clk.hours < s.harbour.power.planned + 1024) :
    exec .marginReplan s = .next s :=
  congrArg Host.Outcome.next (if_neg (Nat.not_le.2 h))

theorem exec_marginReplan_due {s : State} (h : s.harbour.power.planned + 1024 ≤ s.clk.hours) :
    exec .marginReplan s = .next s.planAll :=
  congrArg Host.Outcome.next (if_pos h)

/-! ## The power limit (R455) -/

/-- The windows below 95 % of the limit that have passed when one ends with an average power. -/
def Power.calmAfter (p : Power) (watts : Nat) : Nat := if watts * 100 < p.limit * 95 then p.calm + 1 else 0

/-- The machine as a window that ends counts it. -/
def State.countWindow (s : State) (watts : Nat) : State :=
  { s with harbour := { s.harbour with power := { s.harbour.power with calm := s.harbour.power.calmAfter watts } } }

section
variable {s : State} {watts : Nat}

theorem exec_powerWindowTimer_down {n : Nat} (hl : s.harbour.power.limit < watts)
    (hn : s.harbour.power.nextDown = some n) :
    exec (.powerWindowTimer watts) s = .next ((s.countWindow watts).setIsland n fun i =>
      { i with freq := i.freq - 100, lowered := i.lowered + 1 }) := by
  change execPowerWindowTimer watts s = _
  simp only [execPowerWindowTimer, if_pos hl, hn]
  rfl

theorem exec_powerWindowTimer_up {n : Nat} (hl : watts ≤ s.harbour.power.limit)
    (hc : 10 ≤ s.harbour.power.calmAfter watts) (hn : s.harbour.power.nextUp = some n) :
    exec (.powerWindowTimer watts) s = .next ((s.countWindow watts).setIsland n fun i =>
      { i with freq := i.freq + 100, lowered := i.lowered - 1 }) := by
  rw [Power.calmAfter] at hc
  change execPowerWindowTimer watts s = _
  simp only [execPowerWindowTimer, if_neg (Nat.not_lt.2 hl), if_pos hc, hn]
  rfl

theorem exec_powerWindowTimer_calm (hl : watts ≤ s.harbour.power.limit) (hc : s.harbour.power.calmAfter watts < 10) :
    exec (.powerWindowTimer watts) s = .next (s.countWindow watts) :=
  (if_neg (Nat.not_lt.2 hl)).trans (if_neg (Nat.not_le.2 hc))

end

/-! ## The coolant (R455) -/

/-- The island is gated, or runs. -/
def State.Gated (on : Bool) (s : State) (n : Nat) : Prop :=
  ∃ i, s.harbour.power.islands.get? n = some i ∧ i.gated = on

theorem mem_clusterIslands {n : Nat} (h : n < 128) (hc : n % 32 < 16) : n ∈ clusterIslands :=
  List.mem_filter.2 ⟨List.mem_range.2 h, decide_eq_true hc⟩

theorem State.gateAll_gated (s : State) (on : Bool) (n : Nat) (h : n ∈ clusterIslands) :
    State.Gated on (s.gateAll on) n := by
  unfold State.gateAll
  exact foldl_establishes (fun _ n => ⟨_, Tbl.get?_set_self _ n _, rfl⟩)
    (fun _ _ _ hm ⟨i, hi, hg⟩ => ⟨i, (Tbl.get?_set_ne _ _ hm).trans hi, hg⟩) _ _ n h

/-- Gating leaves the reports, and notes whether the coolant is in its range. -/
theorem State.gateAll_frame (s : State) (on : Bool) :
    (s.gateAll on).harbour.power.coolantOut = on ∧ (s.gateAll on).reports = s.reports := by
  have fold (l : List Nat) (s : State) : let t := l.foldl (fun s n => s.setIsland n fun i => { i with gated := on }) s
      t.harbour.power.coolantOut = s.harbour.power.coolantOut ∧ t.reports = s.reports := by
    induction l generalizing s with
    | nil => exact ⟨rfl, rfl⟩
    | cons n l ih => exact ih (s.setIsland n _)
  unfold State.gateAll
  exact fold clusterIslands _

/-- A report that names no grid. -/
theorem State.report_none_harbour (s : State) (bs : List Byte) (code : Code) (src : Source) (a b c d : W64) :
    (s.report none bs code src a b c d).harbour = s.harbour := rfl

theorem State.report_none_reports (s : State) (bs : List Byte) (code : Code) (src : Source) (a b c d : W64) :
    (s.report none bs code src a b c d).reports =
      s.reports ++ [⟨reportBytes bs (BitVec.allOnes 32) code src a b c d⟩] := rfl

theorem exec_coolantExcursion {s : State} (h : s.harbour.power.coolantOut = false) :
    exec .coolantExcursion s =
      .next ((s.gateAll true).report none [] .coolant { die := 0, from_ := 0, unit := 0 } 0 0 0 0) :=
  if_neg (by simp [h])

theorem exec_coolantRestored {s : State} (h : s.harbour.power.coolantOut = true) :
    exec .coolantRestored s = .next (s.gateAll false) :=
  congrArg Host.Outcome.next (if_pos h)

/-! ## Resets (R460) -/

/-- What stands after a start: no program, no memory, no key but 0, and features that are neither accepted nor locked. -/
structure State.Restarted (t : State) : Prop where
  flock : t.ident.flock = false
  facc : t.ident.facc = Vector.replicate 4 0
  gangs : t.gangs = []
  pilots : t.pilots = []
  grids : t.grids = []
  mem : t.mem = []
  tiers : t.tiers = []
  scratch : t.scratch = []
  keys : t.keys = []

theorem State.started_restarted (s : State) (b : Boot) :
    (s.started b).Restarted ∧ (s.started b).harbour.start = b.start ∧ (s.started b).harbour.journal = b.journal := by
  have frame (t : State) : PowerFrame t (t.planAll.lowerPlanned b) :=
    t.planAll_powerFrame.trans (t.planAll.lowerPlanned_powerFrame b)
  unfold State.started
  obtain ⟨⟨c, p, h⟩, -⟩ := frame _
  rw [h]
  exact ⟨⟨rfl, rfl, rfl, rfl, rfl, rfl, rfl, rfl, rfl⟩, rfl, rfl⟩

/-- The machine after the attempts of a start. -/
theorem State.started_of_keeps {s : State} {b : Boot} (h : s.bootBegin.Keeps b) :
    (s.started b).Restarted ∧ (s.started b).harbour.start = s.harbour.start + 1 ∧
      (s.harbour.journal.length ≤ 4096 → (s.started b).harbour.journal.length ≤ 4096) := by
  obtain ⟨restarted, hstart, hjournal⟩ := s.started_restarted b
  exact ⟨restarted, hstart.trans h.start, fun hj => hjournal ▸ h.journal hj⟩

theorem State.boot_restarted (s : State) :
    s.boot.Restarted ∧ s.boot.harbour.start = s.harbour.start + 1 ∧
      (s.harbour.journal.length ≤ 4096 → s.boot.harbour.journal.length ≤ 4096) := by
  unfold State.boot
  exact State.started_of_keeps (Boot.Keeps.foldl Boot.unit_keeps bootUnits s.bootBegin)

/-- A watchdog reset is one start, or one that hung and the next. -/
theorem exec_watchdogReset (s : State) :
    ∃ u : State, exec .watchdogReset s = .next u.boot ∧
      (u.harbour.start = s.harbour.start ∨ u.harbour.start = s.harbour.start + 1) := by
  change ∃ u : State, execWatchdogReset s = .next u.boot ∧ _
  unfold execWatchdogReset
  dsimp only
  split
  · exact ⟨_, rfl, .inl rfl⟩
  · exact ⟨_, rfl, .inr (Boot.hang_keeps _ _).start⟩

end Sys2Proof.Machine

namespace Sys2Proof

open Sys2Proof.Machine

/-- Settles O49: a reset is a start, and each other clause is one event of the harbourmaster, by the lemmas above. -/
theorem startsAndPower : Obligations.StartsAndPower := by
  unfold Obligations.StartsAndPower
  intro s
  refine ⟨?reset, ?watchdog, exec_marginReplan_early, ?replan, fun watts => ⟨fun n => exec_powerWindowTimer_down,
    fun n => exec_powerWindowTimer_up, exec_powerWindowTimer_calm⟩, fun v => rfl, ?excursion, ?restored⟩
  case reset =>
    obtain ⟨r, hstart, hjournal⟩ := s.boot_restarted
    exact ⟨s.boot, rfl, rfl, hstart, r.flock, r.gangs, r.pilots, r.grids, r.mem, r.tiers, r.scratch, r.keys, r.facc, hjournal⟩
  case watchdog =>
    obtain ⟨u, hu, hstart⟩ := exec_watchdogReset s
    obtain ⟨r, hnext, -⟩ := u.boot_restarted
    refine ⟨u.boot, hu, r.gangs, r.mem, r.flock, ?_⟩
    rw [hnext]
    rcases hstart with h | h
    · exact .inl (by rw [h])
    · exact .inr (by rw [h, BitVec.add_assoc]; rfl)
  case replan =>
    intro h
    obtain ⟨⟨c, p, hs⟩, hceil⟩ := s.planAll_powerFrame
    refine ⟨_, exec_marginReplan_due h, s.planAll_hours, ?_, ?_, fun n hn => ?_⟩
    · rw [hs]
    · exact sameMemory_of_eq (by rw [hs]) (by rw [hs]) (by rw [hs])
    · obtain ⟨i, hi, hfreq, hle⟩ := s.planAll_planned n hn
      exact ⟨i, hi, hfreq, hceil ▸ hle⟩
  case excursion =>
    intro h
    obtain ⟨hout, hreports⟩ := s.gateAll_frame true
    refine ⟨_, exec_coolantExcursion h, ?_, fun n hn hc => ?_, ?_⟩
    · rw [State.report_none_harbour, hout]
    · rw [State.report_none_harbour]
      exact s.gateAll_gated true n (mem_clusterIslands hn hc)
    · rw [State.report_none_reports, hreports]
  case restored =>
    intro h
    exact ⟨_, exec_coolantRestored h, (s.gateAll_frame false).1,
      fun n hn hc => s.gateAll_gated false n (mem_clusterIslands hn hc)⟩

end Sys2Proof
end

section
/-! The Balane links (chapter 16): what a port's flush leaves, and the events of frames, retries and totals. -/

namespace Sys2Proof.Machine

@[simp] theorem State.port_setPort_self (s : State) (n : Nat) (x : Port) : (s.setPort n x).port n = x :=
  Tbl.getD_set_self _ _ _ _

@[simp] theorem State.setPort_setPort (s : State) (n : Nat) (x y : Port) :
    (s.setPort n x).setPort n y = s.setPort n y := by
  simp [State.setPort]

/-! ## Packets that leave (R427) -/

/-- A port before and after packets have left it: the link, its keys, and its receiving side. -/
structure Port.SameLink (x y : Port) : Prop where
  up : y.up = x.up
  nval : y.nval = x.nval
  txkey : y.txkey = x.txkey
  rxkey : y.rxkey = x.rxkey
  fctrRx : y.fctrRx = x.fctrRx
  ackc : y.ackc = x.ackc
  rcvd : y.rcvd = x.rcvd
  freed : y.freed = x.freed
  peerFreed : y.peerFreed = x.peerFreed

theorem Port.SameLink.trans {x y z : Port} (h : x.SameLink y) (k : y.SameLink z) : x.SameLink z :=
  ⟨k.up.trans h.up, k.nval.trans h.nval, k.txkey.trans h.txkey, k.rxkey.trans h.rxkey, k.fctrRx.trans h.fctrRx,
    k.ackc.trans h.ackc, k.rcvd.trans h.rcvd, k.freed.trans h.freed, k.peerFreed.trans h.peerFreed⟩

/-- What packets that leave port n keep: its link, and the reports. -/
structure Leaves (n : Nat) (s t : State) : Prop where
  link : (s.port n).SameLink (t.port n)
  reports : t.reports = s.reports

theorem Leaves.trans {n : Nat} {s t u : State} (h : Leaves n s t) (k : Leaves n t u) : Leaves n s u :=
  ⟨h.link.trans k.link, k.reports.trans h.reports⟩

theorem Leaves.refl (n : Nat) (s : State) : Leaves n s s := ⟨⟨rfl, rfl, rfl, rfl, rfl, rfl, rfl, rfl, rfl⟩, rfl⟩

theorem Leaves.setPort {n : Nat} {s : State} {x : Port} (h : (s.port n).SameLink x) : Leaves n s (s.setPort n x) :=
  ⟨by rwa [State.port_setPort_self], rfl⟩

theorem State.emitFrame_leaves (s : State) (n : Nat) (k : FrameKind) (bs : List Byte) (ps : List FabPacket) :
    Leaves n s (s.emitFrame n k bs ps) :=
  .setPort ⟨rfl, rfl, rfl, rfl, rfl, rfl, rfl, rfl, rfl⟩

theorem State.transmit_leaves (s : State) (n : Nat) (p : FabPacket) : Leaves n s (s.transmit n p) := by
  have hsent (b : W64) : Leaves n s (s.setPort n { s.port n with sent := b }) :=
    .setPort ⟨rfl, rfl, rfl, rfl, rfl, rfl, rfl, rfl, rfl⟩
  obtain ⟨link, reports⟩ := (hsent _).trans (State.emitFrame_leaves _ n .data (packetBytes p) [p])
  exact ⟨link, reports⟩

theorem State.flush_leaves (s : State) (n k : Nat) : Leaves n s (s.flush n k) := by
  induction k generalizing s with
  | zero => exact .refl n s
  | succ k ih =>
    have hqueue (l : List FabPacket) : Leaves n s (s.setPort n { s.port n with queue := l }) :=
      .setPort ⟨rfl, rfl, rfl, rfl, rfl, rfl, rfl, rfl, rfl⟩
    unfold State.flush
    dsimp only
    split
    · exact .refl n s
    · split
      · exact .refl n s
      · split
        · exact ((hqueue _).trans (State.transmit_leaves _ n _)).trans (ih _)
        · exact .refl n s

/-! ## Keys and bring-up (R457) -/

theorem State.bringUp_link (s : State) (n : Nat) :
    let t := s.bringUp n
    (t.port n).up = true ∧ (t.port n).nval = false ∧ (t.port n).txkey = (s.port n).ntx ∧
      (t.port n).rxkey = (s.port n).nrx ∧ t.reports.length = s.reports.length + 1 := by
  obtain ⟨link, reports⟩ := State.flush_leaves ((s.setPort n (s.port n).rekeyed).askKeys n) n ((s.port n).queue.length + 1)
  have hport : ((s.setPort n (s.port n).rekeyed).askKeys n).port n = (s.port n).rekeyed := State.port_setPort_self s n _
  rw [hport] at link
  exact ⟨link.up, link.nval, link.txkey, link.rxkey, (congrArg List.length reports).trans List.length_append⟩

theorem exec_linkBringup {s : State} {p : Fin 16} (ht : (s.port p.val).trained = true) (hn : (s.port p.val).nval = true)
    (h : (s.port p.val).up = false ∨ 2 ^ 62 ≤ (s.port p.val).fctrTx.toNat) :
    exec (.linkBringup p) s = .next (s.bringUp p.val) := by
  refine if_pos ?_
  rw [ht, hn]
  rcases h with h | h
  · simp [h]
  · simp only [h, true_or, decide_true, Bool.or_true, Bool.and_self]

theorem exec_linkBringup_idle {s : State} {p : Fin 16} (h : (s.port p.val).trained = false ∨ (s.port p.val).nval = false) :
    exec (.linkBringup p) s = .next s := by
  refine if_neg ?_
  rcases h with h | h <;> simp [h]

/-! ## Frames (R419 to R421) -/

section
variable {s : State} {p : Fin 16} {f : Frame}

theorem exec_frameReceive_out
    (h : (s.port p.val).up = false ∨ frameSized f = false ∨ frameFctr f ≠ (s.port p.val).fctrRx) :
    exec (.frameReceive p f) s = .next s := by
  refine if_pos ?_
  rcases h with h | h | h <;> simp [h]

theorem exec_frameReceive (hu : (s.port p.val).up = true) (hs : frameSized f = true)
    (hf : frameFctr f = (s.port p.val).fctrRx) :
    exec (.frameReceive p f) s =
      if frameVerifies f (s.port p.val).rxkey (s.port p.val).linkid then
        .next (if s.frameArrives ((s.port p.val).packets f) then s.takeFrame p.val f else s)
      else .next (if s.frameArrives f.sent then s.failFrame p.val f else s) :=
  if_neg (by simp [hu, hs, hf])

end

/-- A copy that fails for less than the fourth time is asked for again. -/
theorem State.failFrame_again (s : State) (n : Nat) (f : Frame) {times : Nat} (h : (match (s.port n).failed with
      | some (_, k) => k + 1
      | none => 1) = times) (hlt : times < 4) :
    s.failFrame n f =
      (s.setPort n { s.port n with failed := some (frameFctr f, times) }).sendFrame n .retry [frameFctr f] := by
  subst h
  exact if_pos hlt

/-! ## Retries (R421) -/

/-- The frame that the other end asks for less than the fourth time goes out again, with those after it. -/
theorem State.resend_again (s : State) (n : Nat) (c : W64) {times : Nat} (h : (match (s.port n).asked with
      | some (d, k) => if d = c then k + 1 else 1
      | none => 1) = times) (hlt : times < 4) :
    s.resend n c =
      s.setPort n { s.port n with asked := some (c, times), kept := resent c (s.port n).kept } := by
  subst h
  exact if_pos hlt

theorem exec_retryRequestReceive {s : State} {p : Fin 16} (c : W64) (hu : (s.port p.val).up = true)
    (hf : (s.port p.val).failed = none) :
    exec (.retryRequestReceive p c) s = .next ((s.setPort p.val ((s.port p.val).counted 1)).resend p.val c) :=
  congrArg Host.Outcome.next (if_pos (by simp [hu, hf]))

/-! ## Totals (R427) -/

theorem flitOf_pair (a b : W64) : flitOf [a, b] = padTo 64 (bytes64 a ++ bytes64 b) := by
  simp [flitOf]

theorem length_flitOf_pair (a b : W64) : (flitOf [a, b]).length = 64 := by
  simp [flitOf, padTo, bytes64]

theorem exec_totalsFrameTimer {s : State} {p : Fin 16} (hu : (s.port p.val).up = true)
    (hs : (s.port p.val).spent = false) :
    exec (.totalsFrameTimer p) s =
      .next (s.emitFrame p.val .totals (flitOf [(s.port p.val).sent, (s.port p.val).freed]) []) :=
  congrArg Host.Outcome.next ((if_pos hu).trans (if_neg (by simp [hs])))

theorem exec_totalsFrameReceive {s : State} {p : Fin 16} (sent freed : W64) (hu : (s.port p.val).up = true)
    (hf : (s.port p.val).failed = none) :
    exec (.totalsFrameReceive p sent freed) s =
      .next ((s.setPort p.val ((s.port p.val).counted 1)).takeTotals p.val sent freed) :=
  congrArg Host.Outcome.next (if_pos (by simp [hu, hf]))

/-- A totals frame where no retry is pending: the counters that stand in it, and those that stay. -/
theorem State.takeTotals_port (s : State) (n : Nat) (sent freed : W64) (hf : (s.port n).failed = none) :
    let x := s.port n
    let y := (s.takeTotals n sent freed).port n
    y.peerFreed = freed ∧ y.fctrRx = x.fctrRx ∧ y.ackc = x.ackc ∧
      (x.rcvd.toNat < sent.toNat → y.rcvd = sent ∧ y.freed = x.freed + (sent - x.rcvd)) ∧
      (sent.toNat ≤ x.rcvd.toNat → y.rcvd = x.rcvd ∧ y.freed = x.freed) := by
  obtain ⟨link, -⟩ := State.flush_leaves (s.setPort n { s.port n with
    peerFreed := freed
    rcvd := if decide ((s.port n).rcvd.toNat < sent.toNat) && (s.port n).failed.isNone then sent else (s.port n).rcvd
    freed := if decide ((s.port n).rcvd.toNat < sent.toNat) && (s.port n).failed.isNone then
      (s.port n).freed + (sent - (s.port n).rcvd) else (s.port n).freed }) n ((s.port n).queue.length + 1)
  rw [State.port_setPort_self] at link
  refine ⟨link.peerFreed, link.fctrRx, link.ackc, fun h => ?more, fun h => ?less⟩
  case more => exact ⟨link.rcvd.trans (if_pos (by simp [h, hf])), link.freed.trans (if_pos (by simp [h, hf]))⟩
  case less =>
    have hn : ¬(s.port n).rcvd.toNat < sent.toNat := Nat.not_lt.2 h
    exact ⟨link.rcvd.trans (if_neg (by simp [hn])), link.freed.trans (if_neg (by simp [hn]))⟩

end Sys2Proof.Machine

namespace Sys2Proof

open Sys2Proof.Machine

/-- Settles O50: each clause is one event of a port, by the lemmas above. -/
theorem linkEvents : Obligations.LinkEvents := by
  unfold Obligations.LinkEvents
  intro s p
  refine ⟨fun _ => rfl, ?bringup, exec_linkBringup_idle, ?frame, fun f => exec_frameReceive_out, ?retry, ?totals, ?taken⟩
  case bringup => exact fun ht hn h => ⟨_, exec_linkBringup ht hn h, State.bringUp_link s p.val⟩
  case frame =>
    intro f hu hs hf
    rw [exec_frameReceive hu hs hf]
    refine ⟨fun hv ha => (if_pos hv).trans (congrArg _ (if_pos ha)), fun hv ha => ⟨?_, ?_⟩⟩
    · exact (if_neg (by simp [hv])).trans (congrArg _ (if_pos ha))
    · exact State.failFrame_again s p.val f rfl
  case retry =>
    intro n hu hf
    rw [exec_retryRequestReceive n hu hf]
    have again {times : Nat} (h : (match (s.port p.val).asked with
        | some (d, k) => if d = n then k + 1 else 1
        | none => 1) = times) (hlt : times < 4) := State.resend_again (s.setPort p.val ((s.port p.val).counted 1)) p.val n
          (by rw [State.port_setPort_self]; exact h) hlt
    simp only [State.port_setPort_self, State.setPort_setPort] at again
    refine ⟨fun k hk hlt => ?_, fun hk => ?_⟩
    · exact congrArg _ (again (by rw [hk]; exact if_pos rfl) (Nat.succ_lt_succ hlt))
    · refine congrArg _ (again ?_ (by decide))
      split
      · next d k h => exact if_neg fun e => hk k (by rw [h, e])
      · rfl
  case totals =>
    intro f hu hs
    rw [exec_totalsFrameTimer hu hs, State.emitFrame, length_flitOf_pair, flitOf_pair]
    rfl
  case taken =>
    intro sent freed hu hf
    refine ⟨_, exec_totalsFrameReceive sent freed hu hf, ?_⟩
    have := State.takeTotals_port (s.setPort p.val ((s.port p.val).counted 1)) p.val sent freed
    rw [State.port_setPort_self] at this
    exact this rfl

end Sys2Proof
end

section
/-! Collectives and barriers of the fabric (chapter 16): contributions at their slots, combined elements, answers, and the
ends of slots and instances. -/

namespace Sys2Proof.Machine

/-! ## Contributions (R431) -/

theorem State.takeCtb_clk {s t : State} {k : FabPacket} (h : s.takeCtb k = some t) : t.clk = s.clk := by
  unfold State.takeCtb at h
  split at h
  · cases h
  · split at h
    · cases h; rfl
    · split at h
      · cases h; rfl
      · cases h

/-- The slot that a first chunk opens is of its word, and opened now. -/
theorem State.openSlot_word {s u : State} {k : FabPacket} {x : Slot} (h : s.openSlot k = some (x, u)) :
    x.word = k.aux2 ∧ x.opened = s.clk.link := by
  unfold State.openSlot at h
  dsimp only at h
  split at h
  · cases h
  · split at h
    · cases h
    · cases h; exact ⟨rfl, rfl⟩

theorem exec_fabCtb_slot {s t u : State} {k : FabPacket} {x : Slot} (ht : s.takeCtb k = some t)
    (hx : t.slot? k.sw (collPort k.aux2) (k.pa / 2 ^ 32) = some x) (hu : t.intoSlot x k (k.pa % 2 ^ 32) = some u) :
    exec (.fabCtb k) s = .next u := by
  change execFabCtb k s = _
  simp only [execFabCtb, ht, hx, hu, Option.getD_some]

theorem exec_fabCtb_first {s t u v : State} {k : FabPacket} {x : Slot} (ht : s.takeCtb k = some t)
    (hx : t.slot? k.sw (collPort k.aux2) (k.pa / 2 ^ 32) = none) (ho : t.openSlot k = some (x, u))
    (hv : u.intoSlot x k (k.pa % 2 ^ 32) = some v) : exec (.fabCtb k) s = .next v := by
  change execFabCtb k s = _
  simp only [execFabCtb, ht, hx, ho, hv, Option.getD_some]

/-! ## Combining (R432) -/

section
variable {w : W64} (a b : List Byte) (ht : collTy w = 1)
include ht

theorem combine_sum64 (ho : collOpc w = 0) : word64 (combine w a b) = word64 a + word64 b := by
  simp only [combine, ho, ht, word64_bytes64]

theorem combine_max64 (ho : collOpc w = 1) :
    (word64 (combine w a b)).toInt = max (word64 a).toInt (word64 b).toInt := by
  simp only [combine, ho, ht, word64_bytes64]
  split <;> omega

theorem combine_min64 (ho : collOpc w = 2) :
    (word64 (combine w a b)).toInt = min (word64 a).toInt (word64 b).toInt := by
  simp only [combine, ho, ht, word64_bytes64]
  split <;> omega

end

/-! ## Slots that end (R434) -/

section
variable {s : State} {n : Nat} {x : Slot} (hx : s.slots.find? (fun x => x.id == n) = some x)
include hx

theorem exec_collectiveSlotTimeout_due (hc : x.closed = none) (ho : x.tout ≤ s.clk.link - x.opened)
    (hw : x.chunks.filter x.isOpen ≠ []) : exec (.collectiveSlotTimeout n) s = .next (s.closeSlot x) := by
  have hany : x.chunks.any x.isOpen = true := by
    obtain ⟨c, hc⟩ := List.exists_mem_of_ne_nil _ hw
    exact List.any_eq_true.2 ⟨c, List.mem_filter.1 hc⟩
  change execCollectiveSlotTimeout n s = _
  simp only [execCollectiveSlotTimeout, hx]
  exact if_neg (by simp [hc, State.slotOver, ho, hany])

theorem exec_collectiveSlotTimeout_closed (hc : x.closed ≠ none) : exec (.collectiveSlotTimeout n) s = .next s := by
  change execCollectiveSlotTimeout n s = _
  simp only [execCollectiveSlotTimeout, hx]
  exact if_pos (by simp [Option.isSome_iff_ne_none.2 hc])

/-- The period of a slot is over and each of its chunks has its result. -/
theorem exec_collectiveSlotFree_done (he : match x.closed with
      | some t => t + x.tout ≤ s.clk.link
      | none => x.sent + 2 * x.tout ≤ s.clk.link) (hd : ∀ c ∈ x.chunks, ∃ e ∈ x.results, e.1 = c) :
    exec (.collectiveSlotFree n) s = .next (x.unanswered.foldl (fun s e => s.closedTo x e.2 e.1 none)
      { s with slots := s.slots.filter fun y => y.id != n }) := by
  have hall : (x.chunks.all fun c => x.results.any fun e => e.1 == c) = true :=
    List.all_eq_true.2 fun c hc => by simpa using hd c hc
  change execCollectiveSlotFree n s = _
  simp only [execCollectiveSlotFree, hx]
  cases hclosed : x.closed with
  | some t => rw [hclosed] at he; exact if_neg (by simpa using he)
  | none => rw [hclosed] at he; exact if_neg (by simpa [hall] using he)

end

/-- Where every chunk has its result, the contributions that wait are those that came too late. -/
theorem Slot.unanswered_eq_late {x : Slot} (hd : ∀ c ∈ x.chunks, ∃ e ∈ x.results, e.1 = c) : x.unanswered = x.late := by
  have hnone : (x.parts.filter fun e => decide (x.sw < 64) && !(x.results.any fun r => r.1 == e.1)) = [] := by
    refine List.filter_eq_nil_iff.2 fun e he => ?_
    obtain ⟨r, hr, hre⟩ := hd e.1 (List.mem_eraseDups.2 (List.mem_map_of_mem he))
    have hany : (x.results.any fun r => r.1 == e.1) = true := List.any_eq_true.2 ⟨r, hr, by simpa using hre⟩
    simp [hany]
  rw [Slot.unanswered, hnone, List.map_nil, List.append_nil]

/-! ## Barriers (R439, R441) -/

theorem exec_fbarArrival {s : State} {i : Nat} {a : Arrival} (h : s.arrivals[i]? = some a) :
    exec (.fbarArrival i) s = .next ({ s with arrivals := s.arrivals.eraseIdx i }.countArrival a) := by
  change execFbarArrival i s = _
  simp only [execFbarArrival, h]

theorem exec_fbarTimeout {s : State} {i : Nat} {a : Arrival} (h : s.waiting[i]? = some a) :
    let d := s.fbarAt a.pa
    let die := dieOfPa a.pa
    exec (.fbarTimeout i) s =
      if d.arr = 0 ∨ d.arr = d.nmem ∨ (s.cyc die - d.t0).toNat < d.tout then .next s
      else .next ((s.waiting.filter fun x => x.pa == a.pa).foldl State.failFbar
        ({ s with waiting := s.waiting.filter fun x => x.pa != a.pa }.report none [] .fabric
          { die := die, from_ := 7, unit := 0 } 0 0 (BitVec.ofNat 64 a.pa) 0)) := by
  change execFbarTimeout i s = _
  simp only [execFbarTimeout, h]

end Sys2Proof.Machine

namespace Sys2Proof

open Sys2Proof.Machine

/-- Settles O53: each clause is one event of a switch or a barrier, by the lemmas above. -/
theorem collectivesAndBarriers : Obligations.CollectivesAndBarriers := by
  unfold Obligations.CollectivesAndBarriers
  intro s
  refine ⟨?ctb, ?combine, ?answers, ?slot, fun i a => exec_fbarArrival, ?timeout⟩
  case ctb =>
    refine fun k t ht => ⟨fun x u => exec_fabCtb_slot ht, fun x u v hx ho hv => ⟨exec_fabCtb_first ht hx ho hv, ?_⟩⟩
    obtain ⟨hword, hopened⟩ := State.openSlot_word ho
    exact ⟨hword, hopened.trans (by rw [State.takeCtb_clk ht])⟩
  case combine => exact fun w a b ht _ => ⟨combine_sum64 a b ht, combine_max64 a b ht, combine_min64 a b ht⟩
  case answers =>
    intro k t
    constructor <;> intro ht
    · change withPacket s k .crs _ = _
      simp only [withPacket, ht]
    · change withPacket s k .closed _ = _
      simp only [withPacket, ht]
  case slot =>
    intro n x hx
    have hid : x.id = n := by simpa using List.find?_some hx
    refine ⟨fun hc ho hw => ?_, exec_collectiveSlotTimeout_closed hx, fun he hd => ?_⟩
    · rw [exec_collectiveSlotTimeout_due hx hc ho hw, State.closeSlot, hid]
    · rw [exec_collectiveSlotFree_done hx he hd, Slot.unanswered_eq_late hd]
  case timeout =>
    intro i a ha
    dsimp only
    rw [exec_fbarTimeout ha]
    refine ⟨fun h => ?_, fun h => if_pos (by omega)⟩
    obtain ⟨hstarted, hopen, hdue⟩ := h
    exact if_neg (by omega)

end Sys2Proof
end

section
/-!
Every step keeps the memories canonical. `State.Wf` is the invariant. A lemma `f_wf` says that f keeps it: of a state,
of the state in a pair or an answer, or, for an action (`Act.Wf`, `UnitEnd.Wf`), of the state it goes on with and of the
one it waits in. Only the writes of memory (`Memory.store`, `Memory.setByte`) have content; the lemma of any other
function follows the branches of its definition and cites the lemmas of the functions that it calls. Below stand the
invariant and the rules for folds, branches and sequences of actions.
-/

namespace Sys2Proof.Machine

/-- The three memories are in canonical form. -/
structure State.Wf (s : State) : Prop where
  mem : Memory.wf s.mem = true
  tiers : Memory.wf s.tiers = true
  scratch : Memory.wf s.scratch = true

theorem State.wf_iff_canonical (s : State) : s.Wf ↔ Sys2Proof.State.canonical s :=
  ⟨fun h => ⟨h.mem, h.tiers, h.scratch⟩, fun ⟨mem, tiers, scratch⟩ => ⟨mem, tiers, scratch⟩⟩

/-- An operation on memory keeps the canonical form. -/
theorem MemFrame.wf {s t : State} (h : MemFrame s t) (hs : s.Wf) : t.Wf :=
  ⟨h.mem hs.mem, h.tiers hs.tiers, h.scratch ▸ hs.scratch⟩

theorem State.wf_ite {p : Prop} [Decidable p] {s t : State} (hs : s.Wf) (ht : t.Wf) : (if p then s else t).Wf := by
  split
  · exact hs
  · exact ht

theorem State.wf_dite {p : Prop} [Decidable p] {f : p → State} {g : ¬p → State} (hf : ∀ h, (f h).Wf)
    (hg : ∀ h, (g h).Wf) : (if h : p then f h else g h).Wf := by
  split
  · exact hf _
  · exact hg _

theorem foldl_wf {α : Type} {f : State → α → State} {l : List α} {s : State} (hf : ∀ s x, s.Wf → (f s x).Wf)
    (h : s.Wf) : (l.foldl f s).Wf := by
  induction l generalizing s with
  | nil => exact h
  | cons x l ih => exact ih (hf s x h)

/-! ## Actions, and what instructions come to -/

/-- Every next state is canonical. -/
def Out.Wf (o : Out) : Prop :=
  match o with
  | .next t => t.Wf
  | _ => True

/-- An action that is done has the property, and the state in which one waits is canonical. -/
def Act.Wf {α : Type} (Q : α → Prop) (r : Act α) : Prop :=
  match r with
  | .ok x => Q x
  | .error (.wait t) => t.Wf
  | .error (.trap _) => True

theorem Out.wf_ite {p : Prop} [Decidable p] {a b : Out} (ha : Out.Wf a) (hb : Out.Wf b) :
    Out.Wf (if p then a else b) := by
  split
  · exact ha
  · exact hb

theorem Out.wf_next (t : State) : Out.Wf (.next t) = t.Wf := rfl

section
variable {α β : Type} {Q : α → Prop}

theorem Act.wf_ok (x : α) : Act.Wf Q (.ok x) = Q x := rfl
theorem Act.wf_wait (t : State) : Act.Wf Q (.error (.wait t)) = t.Wf := rfl
theorem Act.wf_raise (t : Trap) : Act.Wf Q (raise t) = True := rfl

theorem Act.Wf.of_ok {r : Act α} {x : α} (h : r.Wf Q) (e : r = .ok x) : Q x := by
  subst e
  exact h

theorem Act.Wf.of_wait {r : Act α} {t : State} (h : r.Wf Q) (e : r = .error (.wait t)) : t.Wf := by
  subst e
  exact h

theorem Act.wf_ite {p : Prop} [Decidable p] {a b : Act α} (ha : a.Wf Q) (hb : b.Wf Q) : (if p then a else b).Wf Q := by
  split
  · exact ha
  · exact hb

theorem Act.wf_bind {Q : β → Prop} (x : Act α) (f : α → Act β) :
    Act.Wf Q (x >>= f) = Act.Wf (fun a => (f a).Wf Q) x := by
  rcases x with (_ | _) | _ <;> rfl

/-- An action that can only wait in canonical states may come first. -/
theorem Act.wf_bind_of_waits {Q : β → Prop} {x : Act α} {f : α → Act β} (hx : x.Wf fun _ => True)
    (hf : ∀ a, (f a).Wf Q) : (x >>= f).Wf Q := by
  rw [Act.wf_bind]
  rcases x with (_ | _) | a
  · trivial
  · exact hx
  · exact hf a

end

/-- A unit's attempt that is done has the property, and the state in which one waits is canonical. -/
def UnitEnd.Wf {α : Type} (Q : α → Prop) (r : UnitEnd α) : Prop :=
  match r with
  | .done x => Q x
  | .waits t => t.Wf
  | .demand _ => True
  | .fails _ => True

theorem UnitEnd.Wf.of_done {α : Type} {Q : α → Prop} {r : UnitEnd α} {x : α} (h : r.Wf Q) (e : r = .done x) : Q x := by
  subst e
  exact h

theorem UnitEnd.Wf.of_waits {α : Type} {Q : α → Prop} {r : UnitEnd α} {t : State} (h : r.Wf Q) (e : r = .waits t) :
    t.Wf := by
  subst e
  exact h

theorem foldlM_wf {α ε : Type} {f : State → α → Except ε State} {l : List α} {s t : State}
    (hf : ∀ s x t, s.Wf → f s x = .ok t → t.Wf) (h : s.Wf) (e : l.foldlM f s = .ok t) : t.Wf := by
  induction l generalizing s with
  | nil => exact Except.ok.inj e ▸ h
  | cons x l ih =>
    rw [List.foldlM_cons] at e
    cases hx : f s x with
    | error c =>
      rw [hx] at e
      cases e
    | ok u =>
      rw [hx] at e
      exact ih (hf s x u h hx) e

theorem UnitEnd.Wf.imp_of_not_done {α : Type} {P Q : α → Prop} {r : UnitEnd α} (h : r.Wf P) (hr : ∀ x, r ≠ .done x) :
    r.Wf Q := by
  cases r with
  | done x => exact absurd rfl (hr x)
  | waits t => exact h
  | _ => trivial

/-- An answer that names its address is the same answer. -/
theorem atVa_ok {α : Type} {a : Nat} {r : Except AccErr α} {x : α} (e : atVa a r = .ok x) : r = .ok x := by
  unfold atVa at e
  split at e
  · cases e
  · cases e
  · cases e
  · exact e

end Sys2Proof.Machine
end

section
/-!
What the accessors, the packets, and the operations on memory, translation and traps keep (`State.Wf`).
-/

namespace Sys2Proof.Machine

/-! ## Accessors -/

theorem State.free_wf {s : State} (h : s.Wf) : (s.free).2.Wf := ⟨h.mem, h.tiers, h.scratch⟩

theorem State.setCore_wf {s : State} {c x} (h : s.Wf) : (s.setCore c x).Wf := ⟨h.mem, h.tiers, h.scratch⟩

theorem State.setCluster_wf {s : State} {c x} (h : s.Wf) : (s.setCluster c x).Wf := ⟨h.mem, h.tiers, h.scratch⟩

theorem State.setDie_wf {s : State} {d x} (h : s.Wf) : (s.setDie d x).Wf := ⟨h.mem, h.tiers, h.scratch⟩

theorem State.setGang_wf {s : State} {g x} (h : s.Wf) : (s.setGang g x).Wf := ⟨h.mem, h.tiers, h.scratch⟩

theorem State.setCrew_wf {s : State} {c x} (h : s.Wf) : (s.setCrew c x).Wf := ⟨h.mem, h.tiers, h.scratch⟩

theorem State.setGrid_wf {s : State} {g x} (h : s.Wf) : (s.setGrid g x).Wf := ⟨h.mem, h.tiers, h.scratch⟩

theorem State.setPilot_wf {s : State} {c x} (h : s.Wf) : (s.setPilot c x).Wf := ⟨h.mem, h.tiers, h.scratch⟩

theorem State.setPort_wf {s : State} {p x} (h : s.Wf) : (s.setPort p x).Wf := ⟨h.mem, h.tiers, h.scratch⟩

theorem State.setStream_wf {s : State} {p x} (h : s.Wf) : (s.setStream p x).Wf := ⟨h.mem, h.tiers, h.scratch⟩

theorem State.fresh_wf {s : State} (h : s.Wf) : (s.fresh).2.Wf := ⟨h.mem, h.tiers, h.scratch⟩

theorem State.setSctx_wf {s : State} {a x} (h : s.Wf) : (s.setSctx a x).Wf := by
  constructor
  · rw [State.setSctx_mem]; exact h.mem
  · rw [State.setSctx_tiers]; exact h.tiers
  · rw [State.setSctx_scratch]; exact h.scratch

theorem State.setVreg_wf {s : State} {g n x} (h : s.Wf) : (s.setVreg g n x).Wf := by
  grind [State.setVreg, State.setGang_wf, State.setCrew_wf]

theorem State.setPreg_wf {s : State} {g n m} (h : s.Wf) : (s.setPreg g n m).Wf := by
  grind [State.setPreg, State.setGang_wf]

/-! ## Packets that are sent -/

theorem State.emitFrame_wf {s : State} {n kind clear sent} (h : s.Wf) : (s.emitFrame n kind clear sent).Wf :=
  (State.emitFrame_frame _ _ _ _ _).wf h

theorem State.flush_wf {s : State} {n k} (h : s.Wf) : (s.flush n k).Wf :=
  (State.flush_frame _ _ _).wf h

theorem State.sendAt_wf {s : State} {n p} (h : s.Wf) : (s.sendAt n p).Wf := (State.sendAt_frame _ _ _).wf h

theorem State.send_wf {s : State} {p} (h : s.Wf) : (s.send p).Wf := (State.send_frame _ _).wf h

theorem State.request_wf {s : State} {p for_ line ops} (h : s.Wf) : (s.request p for_ line ops).2.Wf :=
  (State.request_frame _ _ _ _ _).wf h

/-! ## Memory, translation and traps -/

theorem State.freeBytes_wf {s : State} {n} (h : s.Wf) : (s.freeBytes n).2.Wf := by
  induction n generalizing s with
  | zero => exact h
  | succ n ih => grind [State.freeBytes, State.free_wf]

theorem State.slotWait_wf {s : State} {g n f} (h : s.Wf) : (s.slotWait g n f).Wf := by
  grind [State.slotWait, State.setGang_wf]

theorem State.fireWaiter_wf {s : State} {w} (h : s.Wf) : (s.fireWaiter w).Wf := (State.fireWaiter_frame _ _).wf h

theorem State.fireLine_wf {s : State} {l} (h : s.Wf) : (s.fireLine l).Wf := (State.fireLine_frame _ _).wf h

theorem State.evict_wf {s : State} {l} (h : s.Wf) : (s.evict l).Wf := (State.evict_frame _ _).wf h

theorem State.writeBack_wf {s : State} {l} (h : s.Wf) : (s.writeBack l).Wf := by
  grind [State.writeBack, State.evict_wf]

theorem State.mergeTun_wf {s : State} {t} (h : s.Wf) : (s.mergeTun t).Wf := (State.mergeTun_frame _ _).wf h

theorem State.drainLine_wf {s : State} {l} (h : s.Wf) : (s.drainLine l).Wf := (State.drainLine_frame _ _).wf h

theorem State.drainTun_wf {s : State} (h : s.Wf) : (s.drainTun).Wf := (State.drainTun_frame _).wf h

theorem State.underKey_wf {s : State} {pa key} (h : s.Wf) : (s.underKey pa key).Wf := (State.underKey_frame _ _ _).wf h

theorem State.writePa_wf {s : State} {core pa bs} (h : s.Wf) : (s.writePa core pa bs).Wf :=
  (State.writePa_frame _ _ _ _).wf h

theorem State.closeStamp_wf {s : State} {tag seq x} (h : s.Wf) : (s.closeStamp tag seq x).Wf :=
  (State.closeStamp_frame _ _ _ _).wf h

theorem State.access_wf {s t : State} {w va n write check} {b₁} (h : s.Wf)
    (e : s.access w va n write check = .ok (b₁, t)) : t.Wf :=
  (State.access_frame e).wf h

theorem State.plainLoad_wf {s t : State} {w va n} {b₁} (h : s.Wf) (e : s.plainLoad w va n = .ok (b₁, t)) : t.Wf :=
  (State.plainLoad_frame e).wf h

theorem State.plainStore_wf {s t : State} {w va bs} (h : s.Wf) (e : s.plainStore w va bs = .ok t) : t.Wf :=
  (State.plainStore_frame e).wf h

theorem State.strongLoad_wf {s t : State} {w va n} {b₁} (h : s.Wf) (e : s.strongLoad w va n = .ok (b₁, t)) : t.Wf :=
  (State.strongLoad_frame e).wf h

theorem State.strongStore_wf {s t : State} {w va bs} (h : s.Wf) (e : s.strongStore w va bs = .ok t) : t.Wf :=
  (State.strongStore_frame e).wf h

theorem State.atomic_wf {s t : State} {w va n f} {b₁} (h : s.Wf) (e : s.atomic w va n f = .ok (b₁, t)) : t.Wf :=
  (State.atomic_frame e).wf h

theorem State.closeLog_wf {s : State} {c} (h : s.Wf) : (s.closeLog c).Wf := (State.closeLog_frame _ _).wf h

theorem State.release_wf {s : State} {w sc} (h : s.Wf) : (s.release w sc).Wf := (State.release_frame _ _ _).wf h

theorem State.dropPeer_wf {s : State} {r} (h : s.Wf) : (s.dropPeer r).Wf := ⟨h.mem, h.tiers, h.scratch⟩

theorem State.dropPeerLine_wf {s : State} {r x} (h : s.Wf) : (s.dropPeerLine r x).Wf := ⟨h.mem, h.tiers, h.scratch⟩

theorem State.askPeer_wf {s : State} {r e sc} (h : s.Wf) : (s.askPeer r e sc).Wf := by
  grind [State.askPeer, State.request_wf]

theorem State.pushQueue_wf {s t : State} {g q vals mask} (h : s.Wf) (e : s.pushQueue g q vals mask = some t) :
    t.Wf := by
  grind [State.pushQueue, State.setGang_wf, State.setCore_wf, State.setCluster_wf]

theorem State.pushHole_wf {s t : State} {g q var} (h : s.Wf) (e : s.pushHole g q var = some t) : t.Wf := by
  grind [State.pushHole, State.setGang_wf, State.setCore_wf, State.setCluster_wf]

theorem State.fillHole_wf {s : State} {g var vals mask} (h : s.Wf) : (s.fillHole g var vals mask).Wf :=
  State.setCluster_wf (State.setCore_wf h)

theorem State.dropHoles_wf {s : State} {g} (h : s.Wf) : (s.dropHoles g).Wf := State.setCluster_wf (State.setCore_wf h)

theorem State.regWritten_wf {s : State} {g n m} (h : s.Wf) : (s.regWritten g n m).Wf := by
  grind [State.regWritten, State.Wf]

theorem State.landWrite_wf {s : State} {g x} (h : s.Wf) : (s.landWrite g x).Wf := by
  grind [State.landWrite, State.regWritten_wf, State.setVreg_wf, State.setPreg_wf]

theorem State.dropToken_wf {s : State} {g n} (h : s.Wf) : (s.dropToken g n).Wf := by
  grind [State.dropToken, State.setGang_wf]

theorem State.complete_wf {s : State} {g ws token} (h : s.Wf) : (s.complete g ws token).Wf := by
  grind [State.complete, State.dropToken_wf, State.landWrite_wf, foldl_wf]

theorem State.fillPush_wf {s : State} {g var ws} (h : s.Wf) : (s.fillPush g var ws).Wf := State.fillHole_wf h

theorem State.completeVar_wf {s : State} {g v} (h : s.Wf) : (s.completeVar g v).Wf := by
  grind [State.completeVar, State.complete_wf, State.setGang_wf, State.fillPush_wf]

theorem State.landFix_wf {s : State} {g now} (h : s.Wf) : (s.landFix g now).Wf := by
  grind [State.landFix, State.setGang_wf, State.complete_wf, foldl_wf]

theorem State.finishLanes_wf {s : State} {g} (h : s.Wf) : (s.finishLanes g).Wf := by
  grind [State.finishLanes, State.setGang_wf, State.complete_wf, State.completeVar_wf, foldl_wf]

theorem State.ctxStore_wf {s t : State} {w va bs} (h : s.Wf) (e : s.ctxStore w va bs = .ok t) : t.Wf := by
  grind [State.ctxStore, State.writePa_wf, State.underKey_wf, State.request_wf, State.dropPeer_wf, foldl_wf]

theorem State.stopGrid_wf {s : State} {g} (h : s.Wf) : (s.stopGrid g).Wf := by
  grind [State.stopGrid, State.dropHoles_wf, foldl_wf, State.Wf]

theorem State.report_wf {s : State} {g bs code src w72 w80 w88 w96} (h : s.Wf) :
    (s.report g bs code src w72 w80 w88 w96).Wf := by
  cases g with
  | none => exact ⟨h.mem, h.tiers, h.scratch⟩
  | some k => exact State.stopGrid_wf ⟨h.mem, h.tiers, h.scratch⟩

theorem State.engineFault_wf {s : State} {w code src} (h : s.Wf) : (s.engineFault w code src).Wf := by
  grind [State.engineFault, State.stopGrid_wf, State.Wf]

theorem State.enter_wf {s : State} {a r addr} (h : s.Wf) : (s.enter a r addr).Wf := by
  grind [State.enter, State.setSctx_wf]

theorem State.areaFault_wf {s : State} {a} (h : s.Wf) : (s.areaFault a).Wf := State.report_wf h

theorem State.areaMiss_wf {s : State} {a e} (h : s.Wf) : (s.areaMiss a e).Wf := by
  unfold State.areaMiss
  split
  · exact State.askPeer_wf h
  · exact State.areaFault_wf h

theorem State.demandStop_wf {s u : State} {a t} (h : s.Wf) (e : s.demandStop a t = some u) : u.Wf := by
  grind [State.demandStop, State.Wf]

theorem State.unqueue_wf {s : State} {g} (h : s.Wf) : (s.unqueue g).Wf := by
  grind [State.unqueue, State.setCrew_wf]

theorem State.takeTrap_wf {s : State} {a t p} (h : s.Wf) : (s.takeTrap a t p).Wf := by
  unfold State.takeTrap
  split
  next t' e => exact State.demandStop_wf h e
  dsimp only
  have hu : (match a with
      | .gang g => (s.finishLanes g).unqueue g
      | .pilot _ => s).Wf := by
    cases a with
    | gang g => exact State.unqueue_wf (State.finishLanes_wf h)
    | pilot cl => exact h
  split
  · split
    · exact State.report_wf hu
    · split
      · exact State.areaFault_wf hu
      next v e =>
        have hv := State.ctxStore_wf hu e
        split
        · exact State.report_wf hv
        · refine State.enter_wf ?_
          grind [State.setGang_wf]
  · exact hu

theorem State.payOwed_wf {s : State} {g bs} (h : s.Wf) : (s.payOwed g bs).Wf := by
  grind [State.payOwed, State.fillPush_wf, State.setGang_wf]

theorem State.leave_wf {s : State} {a bs} (h : s.Wf) : (s.leave a bs).Wf := by
  grind [State.leave, State.setSctx_wf, State.payOwed_wf, State.setGang_wf]

theorem State.putS_wf {s : State} {a d v} (h : s.Wf) : (s.putS a d v).Wf := by
  grind [State.putS, State.setSctx_wf]

theorem State.putK_wf {s : State} {a d v} (h : s.Wf) : (s.putK a d v).Wf := by
  grind [State.putK, State.setSctx_wf]

theorem State.goto_wf {s : State} {a pc} (h : s.Wf) : (s.goto a pc).Wf := by
  grind [State.goto, State.setSctx_wf]

theorem State.next_wf {s : State} {a pc n} (h : s.Wf) : (s.next a pc n).Wf := State.goto_wf h

theorem State.setWait_wf {s : State} {a w} (h : s.Wf) : (s.setWait a w).Wf := by
  grind [State.setWait, State.setSctx_wf]

theorem State.stalls_wf {s : State} {a} (h : s.Wf) : (s.stalls a).Wf := by
  grind [State.stalls, State.setSctx_wf]

theorem scalarEnd_wf {s : State} {a pc sres r} (h : s.Wf) (hr : r.Wf State.Wf) : Out.Wf (scalarEnd s a pc sres r) := by
  rcases r with (t | t) | t
  · unfold scalarEnd
    simp only [Out.wf_next]
    split
    · exact State.setWait_wf h
    · split
      · exact State.takeTrap_wf h
      · exact State.stalls_wf h
  · exact State.stalls_wf (s := t) hr
  · exact hr

theorem scalar_wf {s : State} {k fs f} (h : s.Wf) (hf : ∀ a c, (f a c).Wf State.Wf) : Out.Wf (scalar s k fs f) := by
  unfold scalar
  split
  · trivial
  · split
    · trivial
    · refine scalarEnd_wf h ?_
      split
      · trivial
      · exact hf _ _

end Sys2Proof.Machine
end

section
/-!
What the effects of lanes keep: single ones, those made in rounds, and those that are held.
-/

namespace Sys2Proof.Machine

/-! ## The effects of a lane -/

theorem State.readParts_wf {s t : State} {w strong l} {b₁} (h : s.Wf) (e : s.readParts w strong l = .ok (b₁, t)) :
    t.Wf := by
  induction l generalizing s w strong t b₁ with
  | nil => grind [State.readParts, → State.strongLoad_wf, → State.plainLoad_wf]
  | cons x l ih => grind [State.readParts, → State.strongLoad_wf, → State.plainLoad_wf]

theorem State.readSpan_wf {s t : State} {w strong va n} {b₁} (h : s.Wf) (e : s.readSpan w strong va n = .ok (b₁, t)) :
    t.Wf :=
  State.readParts_wf h e

theorem State.rayLoad_wf {s t : State} {w strong a n} {b₁} (h : s.Wf) (e : s.rayLoad w strong a n = .ok (b₁, t)) :
    t.Wf := by
  grind [State.rayLoad, → State.strongLoad_wf, → State.plainLoad_wf, → atVa_ok]

theorem State.rayParts_wf {s t : State} {w strong l} {b₁} (h : s.Wf) (e : s.rayParts w strong l = .ok (b₁, t)) :
    t.Wf := by
  induction l generalizing s w strong t b₁ with
  | nil => grind [State.rayParts, → State.rayLoad_wf]
  | cons x l ih => grind [State.rayParts, → State.rayLoad_wf]

theorem State.rayRead_wf {s t : State} {w strong va n} {b₁} (h : s.Wf) (e : s.rayRead w strong va n = .ok (b₁, t)) :
    t.Wf :=
  State.rayParts_wf h e

theorem State.rayStore_wf {s t : State} {w plain a bs} (h : s.Wf) (e : s.rayStore w plain a bs = .ok t) : t.Wf := by
  grind [State.rayStore, → State.plainStore_wf, → State.strongStore_wf, State.request_wf, → atVa_ok]

theorem State.rayPuts_wf {s t : State} {w plain bs l} (h : s.Wf) (e : s.rayPuts w plain bs l = .ok t) : t.Wf := by
  induction l generalizing s w plain bs t with
  | nil => grind [State.rayPuts, → State.rayStore_wf]
  | cons x l ih => grind [State.rayPuts, → State.rayStore_wf]

theorem State.rayWrite_wf {s t : State} {w plain va bs} (h : s.Wf) (e : s.rayWrite w plain va bs = .ok t) : t.Wf :=
  State.rayPuts_wf h e

theorem State.raySwap_wf {s t : State} {w x n old new} (h : s.Wf) (e : s.raySwap w x n old new = .ok t) : t.Wf := by
  grind [State.raySwap]

theorem State.poolSwap_wf {s t : State} {w va old new} (h : s.Wf) (e : s.poolSwap w va old new = .ok t) : t.Wf := by
  grind [State.poolSwap, → State.rayWrite_wf, → State.raySwap_wf]

theorem State.rayTurn_wf {s t : State} {w va old new} (h : s.Wf) (e : s.rayTurn w va old new = .ok t) : t.Wf := by
  grind [State.rayTurn, → State.rayWrite_wf]

theorem State.rayLink_wf {s t : State} {w va bs next} (h : s.Wf) (e : s.rayLink w va bs next = .ok t) : t.Wf := by
  grind [State.rayLink, → State.rayWrite_wf, → State.raySwap_wf]

theorem State.pool_wf {s t : State} {w a} {b₁} (h : s.Wf) (e : s.pool w a = .ok (b₁, t)) : t.Wf := by
  grind [State.pool, → State.rayRead_wf]

theorem State.ray_wf {s t : State} {w pool i} {b₁ b₂} (h : s.Wf) (e : s.ray w pool i = .ok (b₁, b₂, t)) : t.Wf := by
  grind [State.ray, → State.pool_wf, → State.rayRead_wf]

theorem State.takeRay_wf {s t : State} {w pool} {b₁} (h : s.Wf) (e : s.takeRay w pool = .ok (b₁, t)) : t.Wf := by
  unfold State.takeRay at e
  split at e
  · cases e
  next p u hp =>
    have hu : u.Wf := State.pool_wf h hp
    split at e
    · grind [→ State.rayRead_wf, → State.poolSwap_wf, → State.rayWrite_wf]
    · grind [→ State.poolSwap_wf, → State.rayWrite_wf]

theorem State.freeRay_wf {s t : State} {w pool i} (h : s.Wf) (e : s.freeRay w pool i = .ok t) : t.Wf := by
  grind [State.freeRay, → State.ray_wf, → State.rayLink_wf, → State.poolSwap_wf]

theorem State.camera_wf {s t : State} {w pool i pix} {b₁ b₂ b₃} (h : s.Wf)
    (e : s.camera w pool i pix = .ok (b₁, b₂, b₃, t)) : t.Wf := by
  grind [State.camera, → State.ray_wf, → State.rayRead_wf]

theorem State.genRay_wf {s t : State} {w pool i pix} (h : s.Wf) (e : s.genRay w pool i pix = .ok t) : t.Wf := by
  grind [State.genRay, → State.camera_wf, → State.rayTurn_wf]

theorem State.tunAdd_wf {s t : State} {w fx va v} (h : s.Wf) (e : s.tunAdd w fx va v = .ok t) : t.Wf := by
  unfold State.tunAdd at e
  split at e
  · cases e
  next x u hx =>
    have hu : u.Wf := State.access_wf h hx
    have hadd (l) : ({ u with tun := l } : State).Wf := ⟨hu.mem, hu.tiers, hu.scratch⟩
    grind [→ State.atomic_wf]

theorem State.fxAtomic_wf {s t : State} {w va v} {b₁} (h : s.Wf) (e : s.fxAtomic w va v = .ok (b₁, t)) : t.Wf := by
  grind [State.fxAtomic, → State.access_wf, State.mergeTun_wf, → State.atomic_wf]

theorem State.poolStore_wf {s : State} {pa bs} (h : s.Wf) : (s.poolStore pa bs).Wf :=
  ⟨h.mem, h.tiers, Memory.wf_store h.scratch _ _⟩

theorem State.readOp_wf {s t : State} {w op strong va n} {b₁} (h : s.Wf) (e : s.readOp w op strong va n = .ok (t, b₁)) :
    t.Wf := by
  grind [State.readOp, → State.readSpan_wf]

theorem State.perform_wf {s t : State} {w op} {b₁} (h : s.Wf) (e : s.perform w op = .ok (t, b₁)) : t.Wf := by
  cases op with
  | red o w64 va v => cases o <;> grind [State.perform, → State.tunAdd_wf, → State.atomic_wf]
  | fx va v p d => cases d <;> grind [State.perform, → State.tunAdd_wf, → State.fxAtomic_wf]
  | _ => grind [State.perform, → State.readOp_wf, → State.strongStore_wf, → State.plainStore_wf, State.poolStore_wf,
      → State.atomic_wf, → State.strongLoad_wf, → State.takeRay_wf, → State.freeRay_wf, → State.genRay_wf,
      → State.ray_wf, → State.rayTurn_wf, → State.rayRead_wf, → State.rayWrite_wf]

theorem State.strongView_wf {s t : State} {w view va n} {b₁} (h : s.Wf) (e : s.strongView w view va n = .ok (b₁, t)) :
    t.Wf := by
  grind [State.strongView, → State.strongLoad_wf]

theorem State.performIn_wf {s t : State} {w view op b} (h : s.Wf) (e : s.performIn w view op = .ok (t, b)) : t.Wf := by
  unfold State.performIn at e
  split at e
  · grind [→ State.strongView_wf]
  · grind [→ State.perform_wf]
  · grind [→ State.perform_wf]

theorem State.performAll_wf {s : State} {w view l} (h : s.Wf) : (s.performAll w view l).st.Wf := by
  induction l generalizing s with
  | nil => exact h
  | cons x l ih => grind [State.performAll, → State.performIn_wf]

theorem State.performWhole_wf {s : State} {w view l} (h : s.Wf) : (s.performWhole w view l).st.Wf := by
  grind [State.performWhole, State.performAll_wf]

theorem State.pushTrace_wf {s : State} {g ops pays} (h : s.Wf) : (s.pushTrace g ops pays).Wf := by
  grind [State.pushTrace, State.setCluster_wf]

theorem State.addLate_wf {s : State} {g f} (h : s.Wf) : (s.addLate g f).Wf := by
  grind [State.addLate, State.setGang_wf]

theorem State.requests_wf {s : State} {for_ l} (h : s.Wf) : (s.requests for_ l).2.Wf := by
  induction l generalizing s for_ with
  | nil => grind [State.requests, State.request_wf]
  | cons x l ih => grind [State.requests, State.request_wf]

theorem State.sendFar_wf {s : State} {w r sc o ops} (h : s.Wf) : (s.sendFar w r sc o ops).st.Wf :=
  State.requests_wf h

/-! ## Rounds of operations on rays -/

theorem State.peerPut_wf {s : State} {r x bs} (h : s.Wf) : (s.peerPut r x bs).Wf := ⟨h.mem, h.tiers, h.scratch⟩

theorem State.turnAt_wf {s t : State} {w va bs f b} (h : s.Wf) (hf : ∀ t, f s = .ok t → t.Wf)
    (e : s.turnAt w va bs f = .ok (t, b)) : t.Wf := by
  grind [State.turnAt, State.peerPut_wf]

theorem State.storeParts_wf {s t : State} {w plain bs l} {b₁} (h : s.Wf) (e : s.storeParts w plain bs l = .ok (t, b₁)) :
    t.Wf := by
  induction l generalizing s w plain bs t b₁ with
  | nil => grind [State.storeParts, → State.plainStore_wf, → State.strongStore_wf, → atVa_ok]
  | cons x l ih => grind [State.storeParts, → State.plainStore_wf, → State.strongStore_wf, → atVa_ok]

theorem State.storeAt_wf {s t : State} {w plain va bs} {b₁} (h : s.Wf) (e : s.storeAt w plain va bs = .ok (t, b₁)) :
    t.Wf :=
  State.storeParts_wf h e

theorem State.settled_wf {s t : State} {w pool i} {b₁ b₂} (h : s.Wf) (e : s.settled w pool i = .ok (b₁, b₂, t)) :
    t.Wf := by
  grind [State.settled, → State.ray_wf]

theorem State.turnRecord_wf {s t : State} {w l va new b} (h : s.Wf) (e : s.turnRecord w l va new = .ok (t, b)) :
    t.Wf := by
  unfold State.turnRecord at e
  split at e
  · cases e
  next u x hu =>
    have : u.Wf := State.turnAt_wf h (fun _ => State.rayWrite_wf h) hu
    grind

theorem State.turnRayWrite_wf {s t : State} {w va bs w' p va' bs' x} (h : s.Wf)
    (e : s.turnAt w va bs (fun s => s.rayWrite w' p va' bs') = .ok (t, x)) : t.Wf :=
  State.turnAt_wf h (fun _ => State.rayWrite_wf h) e

/-- An addition in a round: the bytes are read, and changed in place. -/
theorem State.rayLane_wf_of_add {s t : State} {w n op b} (h : s.Wf)
    (hop : s.rayLane w n op = match s.rayRead w true op.va op.size with
      | .error e => .error e
      | .ok (bs, s) => match s.turnAt w op.va (op.effect bs) fun s => s.rayWrite w false op.va (op.effect bs) with
        | .error e => .error e
        | .ok (s, x) => .ok (s, { lane := n, op := op, at_ := x }, [])) (e : s.rayLane w n op = .ok (t, b)) : t.Wf := by
  rw [hop] at e
  split at e
  · cases e
  next bs u hu =>
    split at e
    · cases e
    next v x hv =>
      obtain rfl := (Prod.mk.inj (Except.ok.inj e)).1
      exact State.turnRayWrite_wf (State.rayRead_wf h hu) hv

theorem State.rayLane_wf {s t : State} {w n op b} (h : s.Wf) (e : s.rayLane w n op = .ok (t, b)) : t.Wf := by
  cases op with
  | rtake va i d => cases i <;> grind [State.rayLane, → State.storeAt_wf]
  | red o w64 va v => exact State.rayLane_wf_of_add h rfl e
  | fx va v p d => exact State.rayLane_wf_of_add h rfl e
  | rayst pool i word bs =>
    unfold State.rayLane at e
    dsimp only at e
    split at e
    · cases e
    next p _ u hu =>
      have hu : u.Wf := State.settled_wf h hu
      split at e
      · split at e
        · cases e
        next v x hv =>
          obtain rfl := (Prod.mk.inj (Except.ok.inj e)).1
          exact State.turnRayWrite_wf hu hv
      · grind [→ State.storeAt_wf]
  | _ => grind [State.rayLane, → State.camera_wf, → State.settled_wf, → State.turnRecord_wf, → State.storeAt_wf,
      → State.rayRead_wf, → State.perform_wf]

theorem RayRound.fail_st (x : RayRound) (n : Fin 32) (op : MemOp) (e : AccErr) : (x.fail n op e).st = x.st := by
  unfold RayRound.fail
  split <;> rfl

theorem RayRound.foldl_wf {α : Type} {f : RayRound → α → RayRound} {l : List α} {x : RayRound}
    (hf : ∀ x a, x.st.Wf → (f x a).st.Wf) (h : x.st.Wf) : (l.foldl f x).st.Wf := by
  induction l generalizing x with
  | nil => exact h
  | cons a l ih => exact ih (hf x a h)

theorem State.rayLanes_wf {s : State} {w ops} (h : s.Wf) : (s.rayLanes w ops).st.Wf :=
  RayRound.foldl_wf (by grind [RayRound.fail_st, → State.rayLane_wf]) h

theorem State.takeChain_st (w : Who) (p : Pool) (l : List (Fin 32 × MemOp)) (head : W32) (next k : Nat) (x : RayRound) :
    (State.takeChain w p l head next k x).1.st = x.st := by
  induction l generalizing head next k x with
  | nil => rfl
  | cons e l ih =>
    unfold State.takeChain
    dsimp only
    split
    · split
      · exact (ih ..).trans (RayRound.fail_st ..)
      · exact (ih ..).trans (RayRound.fail_st ..)
      · exact ih ..
    · split
      · split
        · exact (ih ..).trans (RayRound.fail_st ..)
        · exact ih ..
      · exact ih ..

/-- A round in which every lane fails leaves the state. -/
theorem RayRound.foldl_fail_st (l : List (Fin 32 × MemOp)) (e : AccErr) (x : RayRound) :
    (l.foldl (fun x o => x.fail o.1 o.2 e) x).st = x.st := by
  induction l generalizing x with
  | nil => rfl
  | cons o l ih => exact (ih _).trans (RayRound.fail_st ..)

theorem State.takeAll_wf {s : State} {w pool ops} (h : s.Wf) : (s.takeAll w pool ops).st.Wf := by
  unfold State.takeAll
  dsimp only
  split
  · rwa [RayRound.foldl_fail_st]
  next p u hp =>
    have hu : u.Wf := State.pool_wf h hp
    split
    · rwa [State.takeChain_st]
    · split
      · rwa [RayRound.foldl_fail_st]
      next t y ht => exact State.turnAt_wf hu (fun _ => State.rayWrite_wf hu) ht

theorem State.linkAll_wf {s : State} {w pool ops} (h : s.Wf) : (s.linkAll w pool ops).st.Wf := by
  unfold State.linkAll
  dsimp only
  split
  · rwa [RayRound.foldl_fail_st]
  next p u hp =>
    have hu : u.Wf := State.pool_wf h hp
    split
    · split
      · rwa [RayRound.foldl_fail_st]
      next t y ht => exact State.turnAt_wf hu (fun _ => State.rayWrite_wf hu) ht
    · exact RayRound.foldl_wf (by grind [RayRound.fail_st, → State.storeAt_wf]) hu

theorem State.rayRound_wf {s : State} {w ops} (h : s.Wf) : (s.rayRound w ops).st.Wf := by
  unfold State.rayRound
  split
  · split
    · split
      · exact State.takeAll_wf h
      · exact State.linkAll_wf h
    · exact State.rayLanes_wf h
  · exact h

theorem State.askAll_wf {s : State} {r l} (h : s.Wf) : (s.askAll r l).Wf :=
  foldl_wf (fun _ _ hs => State.request_wf hs) h

theorem State.sendSwaps_wf {s : State} {r l} (h : s.Wf) : (s.sendSwaps r l).Wf :=
  foldl_wf (fun _ _ hs => State.request_wf hs) h

theorem State.sendPuts_wf {s : State} {r l} (h : s.Wf) : (s.sendPuts r l).Wf :=
  foldl_wf (fun _ _ hs => State.request_wf hs) h

theorem State.noted_wf {s : State} {w r ops} (h : s.Wf) : (s.noted w r ops).Wf := by
  grind [State.noted, State.dropPeer_wf, State.Wf]

theorem State.makeRound_wf {s : State} {g v} (h : s.Wf) : (s.makeRound g v).1.Wf := by
  unfold State.makeRound
  dsimp only
  generalize ({ s.who (.gang g) with reader := some (.word g v.id) } : Who) = w
  have hn : (s.noted w (.word g v.id) v.rays).Wf := State.noted_wf h
  have hx : ((s.noted w (.word g v.id) v.rays).rayRound w v.rays).st.Wf := State.rayRound_wf hn
  have hp (l) : ({ ((s.noted w (.word g v.id) v.rays).rayRound w v.rays).st with peer := l } : State).Wf :=
    ⟨hx.mem, hx.tiers, hx.scratch⟩
  split
  · exact State.askAll_wf hn
  · grind [State.sendPuts_wf, State.sendSwaps_wf, State.askAll_wf, State.dropPeer_wf, State.addLate_wf]

theorem State.rayRounds_wf {s : State} {g l m} (h : s.Wf) : (s.rayRounds g l m).1.Wf := by
  induction l generalizing s g m with
  | zero => grind [State.rayRounds, State.makeRound_wf]
  | succ l ih => grind [State.rayRounds, State.makeRound_wf]

theorem State.goRays_wf {s : State} {g v} (h : s.Wf) : (s.goRays g v).Wf := by
  grind [State.goRays, State.rayRounds_wf, State.setGang_wf, State.pushTrace_wf, State.dropPeer_wf]

theorem State.swapAnswer_wf {s : State} {g var r k olds} (h : s.Wf) : (s.swapAnswer g var r k olds).Wf := by
  grind [State.swapAnswer, State.dropPeerLine_wf, State.peerPut_wf, State.setGang_wf, foldl_wf]

/-! ## Held effects -/

theorem State.goHeld_wf {s : State} {g h rays} (hs : s.Wf) : (s.goHeld g h rays).Wf := by
  grind [State.goHeld, State.goRays_wf, State.setGang_wf]

theorem State.commitOne_wf {s : State} {g h} (hs : s.Wf) : (s.commitOne g h).Wf := by
  grind [State.commitOne, State.release_wf, State.performAll_wf, State.sendFar_wf, State.goHeld_wf, State.addLate_wf]

theorem State.commitList_wf {s : State} {g l} (h : s.Wf) : (s.commitList g l).1.Wf := by
  induction l generalizing s g with
  | nil => grind [State.commitList, State.commitOne_wf]
  | cons x l ih => grind [State.commitList, State.commitOne_wf]

theorem State.commitHeld_wf {s : State} {g} (h : s.Wf) : (s.commitHeld g).Wf := by
  grind [State.commitHeld, State.commitList_wf, State.setGang_wf]

theorem State.commitMore_wf {s : State} {g} (h : s.Wf) : (s.commitMore g).Wf := by
  grind [State.commitMore, State.commitList_wf, State.setGang_wf]

theorem State.settle_wf {s : State} {a} {Q} (h : s.Wf) (hQ : ∀ t, t.Wf → Q t) : (s.settle a).Wf Q := by
  cases a with
  | pilot cl => exact hQ _ h
  | gang g => grind [State.settle, State.drainTun_wf, State.commitHeld_wf, Act.wf_ok, Act.wf_wait]

theorem State.releaseFor_wf {s : State} {a sc} {Q} (h : s.Wf) (hQ : ∀ t, t.Wf → Q t) : (s.releaseFor a sc).Wf Q := by
  grind [State.releaseFor, State.release_wf, Act.wf_ok, Act.wf_wait]

end Sys2Proof.Machine
end

section
/-!
What checks keep, and what the issue of a word, a turn, a fetch and a scalar access keep.
-/

namespace Sys2Proof.Machine

/-! ## Checks -/

theorem require_wf {b c} {Q : Unit → Prop} (hQ : b = true → Q ()) : (require b c).Wf Q := by
  unfold require
  split
  next hb => exact hQ hb
  · trivial

theorem requireHandle_wf {b c v} {Q : Unit → Prop} (hQ : b = true → Q ()) : (requireHandle b c v).Wf Q := by
  unfold requireHandle
  split
  next hb => exact hQ hb
  · trivial

theorem waitFor_wf {b} {s : State} {Q : Unit → Prop} (h : s.Wf) (hQ : Q ()) : (waitFor b s).Wf Q := by
  unfold waitFor
  split
  · exact hQ
  · exact h

theorem aligned_wf {va n} {Q : Unit → Prop} (hQ : Q ()) : (aligned va n).Wf Q := by
  unfold aligned
  split
  · exact hQ
  · trivial

theorem State.interlock_wf {s : State} {a d} {Q : Unit → Prop} (h : s.Wf) (hQ : Q ()) : (s.interlock a d).Wf Q :=
  waitFor_wf h hQ

theorem State.ask_wf {α : Type} {s : State} {a p wait} {Q : α → Prop} (h : s.Wf) : (s.ask a p wait).Wf Q := by
  unfold State.ask
  split
  · exact State.setWait_wf (State.request_wf h)
  · exact h

theorem State.berthRef_wf {s : State} {a v} {Q : BerthRef → Prop} (hQ : ∀ r, Q r) : (s.berthRef a v).Wf Q := by
  unfold State.berthRef
  split
  · exact hQ _
  · trivial

theorem State.held_wf {s : State} {a v} {Q : BerthRef → Prop} (hQ : ∀ r, Q r) : (s.held a v).Wf Q := by
  unfold State.held
  rw [Act.wf_bind]
  refine State.berthRef_wf fun r => ?_
  rw [Act.wf_bind]
  exact requireHandle_wf fun _ => hQ r

theorem State.awaitReads_wf {s : State} {a r} {Q : Unit → Prop} (h : s.Wf) (hQ : Q ()) : (s.awaitReads a r).Wf Q := by
  cases a with
  | pilot cl => exact waitFor_wf h hQ
  | gang g => exact hQ

theorem firstFault_wf {l} {Q : Unit → Prop} (hQ : Q ()) : (firstFault l).Wf Q := by
  induction l with
  | nil => exact hQ
  | cons x l ih =>
    unfold firstFault
    split
    · trivial
    · exact ih

theorem State.checkWord_wf {s : State} {i va} {Q : Unit → Prop} (hQ : Q ()) : (s.checkWord i va).Wf Q := by
  unfold State.checkWord
  split
  · exact hQ
  · trivial

theorem State.checkFbar_wf {s : State} {i va bs} {Q : Unit → Prop} (hQ : Q ()) : (s.checkFbar i va bs).Wf Q := by
  unfold State.checkFbar
  split
  · trivial
  · rw [Act.wf_bind]
    exact require_wf fun _ => State.checkWord_wf hQ

theorem State.csrWait_wf {s : State} {i} {Q : Unit → Prop} (h : s.Wf) (hQ : Q ()) : (s.csrWait i).Wf Q :=
  waitFor_wf h hQ

/-! ## Checks of lane words -/

theorem State.stallRun_wf {s : State} {g x} (h : s.Wf) : (s.stallRun g x).Wf := by
  grind [State.stallRun, State.setGang_wf]

theorem holdUntil_wf {b} {s : State} {g x} {Q : Unit → Prop} (h : s.Wf) (hQ : Q ()) : (holdUntil b s g x).Wf Q := by
  unfold holdUntil
  split
  · exact hQ
  · exact State.stallRun_wf h

theorem LaneCtx.check_wf {c : LaneCtx} {ok t} {Q : Unit → Prop} (hQ : Q ()) : (c.check ok t).Wf Q := by
  unfold LaneCtx.check
  split
  · trivial
  · exact hQ

theorem LaneCtx.checkAlign_wf {c : LaneCtx} {n va} {Q : Unit → Prop} (hQ : Q ()) : (c.checkAlign n va).Wf Q :=
  LaneCtx.check_wf hQ

theorem LaneCtx.checkRange_wf {c : LaneCtx} {va} {Q : Unit → Prop} (hQ : Q ()) : (c.checkRange va).Wf Q :=
  LaneCtx.check_wf hQ

theorem LaneCtx.checkVa_wf {c : LaneCtx} {n va} {Q : Unit → Prop} (hQ : Q ()) : (c.checkVa n va).Wf Q := by
  unfold LaneCtx.checkVa
  rw [Act.wf_bind]
  exact LaneCtx.checkAlign_wf (LaneCtx.checkRange_wf hQ)

theorem State.checkRegion_wf {s : State} {c o} {Q : Unit → Prop} (hQ : Q ()) : (s.checkRegion c o).Wf Q := by
  unfold State.checkRegion
  split
  · exact hQ
  · exact require_wf fun _ => hQ

theorem LaneCtx.checkHeld_wf {c : LaneCtx} {s : State} {o n va} {Q : Unit → Prop} (hQ : Q ()) :
    (c.checkHeld s o n va).Wf Q := by
  unfold LaneCtx.checkHeld
  simp only [Act.wf_bind]
  exact LaneCtx.checkAlign_wf (State.checkRegion_wf (LaneCtx.checkRange_wf hQ))

theorem padCheck_wf {s : State} {c a b off n l} {Q : Unit → Prop} (hQ : Q ()) : (padCheck s c a b off n l).Wf Q := by
  unfold padCheck
  simp only [Act.wf_bind]
  exact LaneCtx.check_wf (LaneCtx.check_wf (LaneCtx.check_wf (LaneCtx.check_wf hQ)))

theorem traceCheck_wf {pb lev x} {s : State} {Q : Unit → Prop} (h : s.Wf) (hQ : Q ()) :
    (traceCheck pb lev x s).Wf Q := by
  unfold traceCheck
  simp only [Act.wf_bind]
  exact LaneCtx.check_wf (LaneCtx.check_wf (waitFor_wf h hQ))

theorem checkRayWord_wf {c : LaneCtx} {word w64 store} {Q : Unit → Prop} (hQ : Q ()) :
    (checkRayWord c word w64 store).Wf Q := by
  unfold checkRayWord
  simp only [Act.wf_bind]
  exact LaneCtx.check_wf (LaneCtx.check_wf hQ)

theorem Kernel.target_wf {k : Kernel} {n} {Q : Unit → Prop} (hQ : Q ()) : (k.target n).Wf Q :=
  require_wf fun _ => hQ

theorem Paths.push_wf {p : Paths} {k e} {Q : Paths → Prop} (hQ : ∀ p, Q p) : (p.push k e).Wf Q := by
  unfold Paths.push
  rw [Act.wf_bind]
  exact require_wf fun _ => hQ _

theorem Paths.loop_wf {p : Paths} {Q : Nat → Prop} (hQ : ∀ i, Q i) : (p.loop).Wf Q := by
  unfold Paths.loop
  split
  · trivial
  · rw [Act.wf_bind]
    exact require_wf fun _ => hQ _

theorem State.sliceChecks_wf {s : State} {i y d} {Q : Unit → Prop} (hQ : Q ()) : (s.sliceChecks i y d).Wf Q := by
  unfold State.sliceChecks
  simp only [Act.wf_bind]
  refine require_wf fun _ => require_wf fun _ => require_wf fun _ => ?_
  split
  · trivial
  · split
    · trivial
    · exact require_wf fun _ => hQ

/-! ## The issue of a lane word -/

theorem State.popQueue_wf {s t : State} {g kind idx} {b₁} (h : s.Wf) (e : s.popQueue g kind idx = some (b₁, t)) :
    t.Wf := by
  grind [State.popQueue, State.setCluster_wf, State.setDie_wf]

theorem State.popAll_wf {s t : State} {g y l} {b₁} (h : s.Wf) (e : s.popAll g y l = some (b₁, t)) : t.Wf := by
  induction l generalizing s g y t b₁ with
  | nil => grind [State.popAll, → State.popQueue_wf]
  | cons x l ih => grind [State.popAll, → State.popQueue_wf]

theorem State.markPresent_wf {s : State} {g n} (h : s.Wf) : (s.markPresent g n).Wf := by
  grind [State.markPresent, State.setGang_wf, State.setCrew_wf]

theorem State.fillGranule_ok_wf {s t : State} {g n} (h : s.Wf) (e : s.fillGranule g n = .ok t) : t.Wf := by
  grind [State.fillGranule, State.setVreg_wf, State.regWritten_wf, State.dropPeer_wf, State.markPresent_wf, foldl_wf]

theorem State.fillGranule_error_wf {s t : State} {g n} (h : s.Wf) (e : s.fillGranule g n = .error t) : t.Wf := by
  grind [State.fillGranule, State.areaMiss_wf]

theorem State.fillAll_ok_wf {s t : State} {g l} (h : s.Wf) (e : s.fillAll g l = .ok t) : t.Wf := by
  induction l generalizing s with
  | nil => grind [State.fillAll]
  | cons n l ih => grind [State.fillAll, → State.fillGranule_ok_wf]

theorem State.fillAll_error_wf {s t : State} {g l} (h : s.Wf) (e : s.fillAll g l = .error t) : t.Wf := by
  induction l generalizing s with
  | nil => grind [State.fillAll]
  | cons n l ih => grind [State.fillAll, → State.fillGranule_ok_wf, → State.fillGranule_error_wf]

theorem State.freeIssue_wf {s : State} {g} (h : s.Wf) : (s.freeIssue g).Wf := State.setCore_wf h

theorem State.runWaits_wf {s : State} {g} (h : s.Wf) : (s.runWaits g).Wf := by
  grind [State.runWaits, State.freeIssue_wf, State.setGang_wf]

theorem State.runEnds_wf {s : State} {g slot} (h : s.Wf) : (s.runEnds g slot).Wf := by
  grind [State.runEnds, State.freeIssue_wf, State.setGang_wf]

theorem State.advance_wf {s : State} {c} (h : s.Wf) : (s.advance c).Wf := by
  grind [State.advance, State.setGang_wf, State.runEnds_wf]

theorem State.addToken_wf {s : State} {g n} (h : s.Wf) : (s.addToken g n).Wf := by
  grind [State.addToken, State.setGang_wf]

theorem State.laneTrap_wf {s : State} {g slot index t} (h : s.Wf) : (s.laneTrap g slot index t).Wf := by
  grind [State.laneTrap, State.takeTrap_wf, State.runWaits_wf]

theorem State.dueOnToken_wf {s : State} {g slot wm} (h : s.Wf) : (s.dueOnToken g slot wm).Wf := by
  grind [State.dueOnToken, State.setGang_wf]

theorem State.addIdle_wf {s : State} {c} (h : s.Wf) : (s.addIdle c).Wf := by
  grind [State.addIdle, State.setGang_wf]

theorem laneIssue_wf {s : State} {i ctl body} (h : s.Wf) (hb : ∀ c t, t.Wf → (body c t).Wf State.Wf) :
    Out.Wf (laneIssue s i ctl body) := by
  unfold laneIssue
  split
  next g slot li _ _ =>
    split
    · trivial
    next y _ =>
    have hl : (s.landFix g s.clk.arith).Wf := State.landFix_wf h
    have hd (wm) : ((s.landFix g s.clk.arith).dueOnToken g slot wm).Wf := State.dueOnToken_wf hl
    dsimp only
    refine Out.wf_ite h ?_
    split
    · trivial
    refine Out.wf_ite hl ?_
    split
    · exact State.laneTrap_wf hl
    refine Out.wf_ite (State.runWaits_wf (hd _)) (Out.wf_ite (State.advance_wf (State.addIdle_wf (hd _))) ?_)
    refine Out.wf_ite (State.laneTrap_wf (hd _)) ?_
    split
    · exact State.runWaits_wf (hd _)
    next u hu =>
    split
    next t ht => exact State.fillAll_error_wf (State.popAll_wf (hd _) hu) ht
    next t ht =>
    have ht : t.Wf := State.fillAll_ok_wf (State.popAll_wf (hd _) hu) ht
    refine Out.wf_ite (State.laneTrap_wf (hd _)) ?_
    split
    next v e => exact Act.Wf.of_ok (Q := State.Wf) (hb _ _ ht) e
    next v e =>
      have hv : v.Wf := Act.Wf.of_wait (hb _ _ ht) e
      exact State.runWaits_wf ⟨hv.mem, hv.tiers, hv.scratch⟩
    · exact State.laneTrap_wf (hd _)
  · trivial

theorem State.addFix_wf {s : State} {c l ws} (h : s.Wf) : (s.addFix c l ws).Wf := by
  grind [State.addFix, State.addToken_wf, State.setGang_wf]

theorem State.skipChoice_wf {s : State} (t : State) (h : s.Wf) : (s.skipChoice t).Wf := ⟨h.mem, h.tiers, h.scratch⟩

theorem State.pushResult_wf {s t : State} {c o} (h : s.Wf) (e : s.pushResult c o = some t) : t.Wf := by
  grind [State.pushResult, → State.pushQueue_wf]

theorem laneFix_wf {s : State} {i f} (h : s.Wf) : Out.Wf (laneFix s i f) := by
  grind [laneFix, laneIssue_wf, State.skipChoice_wf, → State.pushResult_wf, State.advance_wf, State.addFix_wf,
    Act.wf_ok, Act.wf_wait]

theorem lane32_wf {s : State} {i d f} (h : s.Wf) : Out.Wf (lane32 s i d f) := laneFix_wf h

/-! ## Turns and fetches -/

theorem State.pass_wf {s : State} {d} (h : s.Wf) : (s.pass d).Wf := ⟨h.mem, h.tiers, h.scratch⟩

theorem State.tick_wf {s : State} {t} (h : s.Wf) : (s.tick t).Wf := by
  grind [State.tick, State.Wf]

theorem State.turn_wf {s : State} (h : s.Wf) : (s.turn).2.Wf := by
  grind [State.turn, State.tick_wf, State.pass_wf, State.Wf]

theorem State.scalarArbitrate_wf {s : State} {core} (h : s.Wf) : (s.scalarArbitrate core).Wf := by
  grind [State.scalarArbitrate, State.fresh_wf, State.setCore_wf, State.Wf]

theorem State.clearSlept_wf {s : State} {a} (h : s.Wf) : (s.clearSlept a).Wf := by
  grind [State.clearSlept, State.setSctx_wf]

theorem State.takePort_wf {s : State} {a} (h : s.Wf) : (s.takePort a).2.Wf := by
  unfold State.takePort
  split
  · split
    · exact State.clearSlept_wf h
    · dsimp only
      split
      · exact State.clearSlept_wf (State.setCore_wf (State.scalarArbitrate_wf h))
      · exact State.scalarArbitrate_wf h
  · exact h

theorem State.fetchBytes_wf {s t : State} {a r va n} {b₁} (h : s.Wf) (e : s.fetchBytes a r va n = .ok (b₁, t)) :
    t.Wf := by
  grind [State.fetchBytes, → State.access_wf]

theorem State.askFetch_wf {s : State} {r e} (h : s.Wf) : (s.askFetch r e).Wf := by
  grind [State.askFetch, State.askPeer_wf, State.dropPeer_wf]

theorem State.fetchScalar_wf {s t : State} {a pc} {b₁ b₂} (h : s.Wf) (e : s.fetchScalar a pc = .ok (b₁, b₂, t)) :
    t.Wf := by
  grind [State.fetchScalar, → State.fetchBytes_wf]

theorem State.fetchLane_wf {s t : State} {a r va} {b₁} (h : s.Wf) (e : s.fetchLane a r va = .ok (b₁, t)) : t.Wf := by
  grind [State.fetchLane, → State.fetchBytes_wf]

/-! ## What scalar instructions share -/

theorem scalarReg_wf {s : State} {n d f} (h : s.Wf) : Out.Wf (scalarReg s n d f) := by
  refine scalar_wf h fun a c => ?_
  grind [State.interlock_wf, State.next_wf, State.putS_wf, Act.wf_bind, Act.wf_ok]

theorem State.finish_wf {s : State} {a c n d v} (h : s.Wf) : (s.finish a c n d v).Wf := State.next_wf (State.putS_wf h)

theorem State.jump_wf {s : State} {a target link} {Q} (hQ : ∀ t, t.Wf → Q t) (hl : (link s).Wf) :
    (s.jump a target link).Wf Q := by
  unfold State.jump
  simp only [Act.wf_bind]
  exact require_wf fun _ => require_wf fun _ => hQ _ (State.goto_wf hl)

theorem State.readOwn_wf {s : State} {a x n} {Q} (h : s.Wf) (hQ : ∀ b₁ t, t.Wf → Q (b₁, t)) :
    (s.readOwn a x n).Wf Q := by
  grind [State.readOwn, State.dropPeer_wf, State.askPeer_wf, Act.wf_ok, Act.wf_wait]

theorem State.scalarRead_wf {s : State} {a c strong sc va n} {Q} (h : s.Wf) (hQ : ∀ b₁ t, t.Wf → Q (b₁, t)) :
    (s.scalarRead a c strong sc va n).Wf Q := by
  grind [State.scalarRead, → State.strongLoad_wf, → State.plainLoad_wf, State.readOwn_wf, State.ask_wf, Act.wf_ok,
    Act.wf_raise]

theorem State.scalarWrite_wf {s : State} {a va bs} {Q} (h : s.Wf) (hQ : ∀ t, t.Wf → Q t) :
    (s.scalarWrite a va bs).Wf Q := by
  grind [State.scalarWrite, → State.plainStore_wf, State.request_wf, Act.wf_ok, Act.wf_wait, Act.wf_raise]

theorem State.scalarAtomic_wf {s : State} {a c op o sc va v cmp} {Q} (h : s.Wf) (hQ : ∀ b₁ t, t.Wf → Q (b₁, t)) :
    (s.scalarAtomic a c op o sc va v cmp).Wf Q := by
  grind [State.scalarAtomic, → State.atomic_wf, State.ask_wf, Act.wf_ok, Act.wf_raise]

theorem State.setSlept_wf {s : State} {a} (h : s.Wf) : (s.setSlept a).Wf := by
  grind [State.setSlept, State.setSctx_wf]

theorem State.sleep_wf {s : State} {a va} (h : s.Wf) : (s.sleep a va).Wf := by
  grind [State.sleep, State.setSlept_wf, State.setWait_wf, State.setCore_wf]

theorem State.detach_wf {s : State} {a granted x wait} {Q} (h : s.Wf) (hQ : ∀ t, t.Wf → Q t) :
    (s.detach a granted x wait).Wf Q := by
  grind [State.detach, State.setCrew_wf, State.setWait_wf, State.Wf, Act.wf_ok, Act.wf_wait, Act.wf_raise]

theorem State.addWeight_wf {s : State} {a x} (h : s.Wf) : (s.addWeight a x).Wf := by
  grind [State.addWeight, State.setCrew_wf]

end Sys2Proof.Machine
end

section
/-!
What the berth, matrix, accumulator and scalar memory instructions keep.
-/

namespace Sys2Proof.Machine

/-! ## Berths -/

theorem State.setBerth_wf {s : State} {core idx b} (h : s.Wf) : (s.setBerth core idx b).Wf := State.setCore_wf h

theorem execBthTake_wf {s : State} {d a b} (h : s.Wf) : Out.Wf (execBthTake d a b s) := by
  refine scalar_wf h fun i c => ?_
  rw [Act.wf_bind]
  refine State.interlock_wf h ?_
  rw [Act.wf_bind]
  refine require_wf fun _ => ?_
  split
  · trivial
  · simp only [Act.wf_bind]
    refine require_wf fun _ => require_wf fun _ => ?_
    grind [State.finish_wf, State.setBerth_wf, Act.wf_ok]

theorem execBthSet_wf {s : State} {a b t} (h : s.Wf) : Out.Wf (execBthSet a b t s) := by
  refine scalar_wf h fun i c => ?_
  simp only [Act.wf_bind]
  refine State.settle_wf h fun u hu => require_wf fun _ => State.berthRef_wf fun r => ?_
  refine require_wf fun _ => requireHandle_wf fun _ => requireHandle_wf fun _ => State.awaitReads_wf hu ?_
  grind [State.releaseFor_wf, State.setBerth_wf, State.next_wf, Act.wf_ok, Act.wf_bind]

theorem execBthPass_wf {s : State} {a b} (h : s.Wf) : Out.Wf (execBthPass a b s) := by
  refine scalar_wf h fun i c => ?_
  simp only [Act.wf_bind]
  refine State.settle_wf h fun u hu => State.held_wf fun r => ?_
  split
  · trivial
  · simp only [Act.wf_bind]
    exact State.awaitReads_wf hu (State.releaseFor_wf hu fun v hv => State.next_wf (State.setBerth_wf hv))

theorem execBthFree_wf {s : State} {a} (h : s.Wf) : Out.Wf (execBthFree a s) := by
  refine scalar_wf h fun i c => ?_
  grind [State.settle_wf, State.next_wf, State.setBerth_wf, State.held_wf, State.awaitReads_wf, Act.wf_bind, Act.wf_ok]

theorem execBthWait_wf {s : State} {a t} (h : s.Wf) : Out.Wf (execBthWait a t s) := by
  refine scalar_wf h fun i c => ?_
  grind [State.next_wf, waitFor_wf, State.berthRef_wf, Act.wf_bind, Act.wf_ok]

theorem execBthQuery_wf {s : State} {hi d a} (h : s.Wf) : Out.Wf (execBthQuery hi d a s) := by
  refine scalar_wf h fun i c => ?_
  grind [State.finish_wf, requireHandle_wf, State.interlock_wf, State.berthRef_wf, Act.wf_bind, Act.wf_ok]

theorem State.giveBlock_wf {s : State} {k g b} (h : s.Wf) : (s.giveBlock k g b).Wf := by
  grind [State.giveBlock, State.setGang_wf, State.setCrew_wf]

theorem execXregAcq_wf {s : State} (h : s.Wf) : Out.Wf (execXregAcq s) := by
  refine scalar_wf h fun i c => ?_
  grind [State.next_wf, State.giveBlock_wf, State.setCrew_wf, Act.wf_ok, Act.wf_wait, Act.wf_raise]

theorem execXregRel_wf {s : State} (h : s.Wf) : Out.Wf (execXregRel s) := by
  refine scalar_wf h fun i c => ?_
  split
  · split
    · exact h
    · split
      · exact State.next_wf h
      · refine Act.wf_ite h ?_
        split
        · exact State.next_wf h
        · exact State.next_wf (State.setGang_wf (State.setCrew_wf h))
  · exact h

/-! ## Matrix engines -/

theorem State.putRow_wf {s : State} {core line r lines bs} (h : s.Wf) : (s.putRow core line r lines bs).Wf :=
  foldl_wf (fun _ _ hs => State.poolStore_wf hs) h

theorem State.drainBerth_wf {s : State} {o} (h : s.Wf) : (s.drainBerth o).Wf := by
  grind [State.drainBerth, State.setBerth_wf]

theorem State.crewEcc_wf {s : State} {key bad} (h : s.Wf) : (s.crewEcc key bad).Wf := by
  grind [State.crewEcc, State.report_wf]

theorem mmaIssue_wf {s : State} {fmt m d a b t} (h : s.Wf) : Out.Wf (mmaIssue s fmt m d a b t) := by
  refine scalar_wf h fun i c => ?_
  simp only [Act.wf_bind]
  refine firstFault_wf ?_
  split
  · simp only [Act.wf_bind]
    refine waitFor_wf h (State.next_wf (State.setCore_wf ?_))
    split
    · exact State.drainBerth_wf (State.drainBerth_wf (State.drainBerth_wf h))
    · exact State.drainBerth_wf (State.drainBerth_wf h)
  · exact h

theorem execMmaExecute_wf {s : State} {core} (h : s.Wf) : Out.Wf (execMmaExecute core s) := by
  grind [execMmaExecute, State.crewEcc_wf, State.setCore_wf, Out.wf_next]

theorem execCtabApply_wf {s : State} {core} (h : s.Wf) : Out.Wf (execCtabApply core s) := by
  grind [execCtabApply, State.setCore_wf, Out.wf_next]

theorem execCtabW_wf {s : State} {core q a} (h : s.Wf) : Out.Wf (execCtabW core q a s) := by
  refine scalar_wf h fun i c => ?_
  grind [State.next_wf, State.setCore_wf, require_wf, Act.wf_bind, Act.wf_ok]

theorem execMwt_wf {s : State} {n} (h : s.Wf) : Out.Wf (execMwt n s) := by
  refine scalar_wf h fun i c => ?_
  grind [State.next_wf, waitFor_wf, Act.wf_bind, Act.wf_ok]

theorem execMfence_wf {s : State} {sc} (h : s.Wf) : Out.Wf (execMfence sc s) := by
  refine scalar_wf h fun i c => ?_
  grind [State.releaseFor_wf, State.next_wf, waitFor_wf, Act.wf_bind, Act.wf_ok]

theorem execMbxTake_wf {s : State} {d a} (h : s.Wf) : Out.Wf (execMbxTake d a s) := by
  refine scalar_wf h fun i c => ?_
  simp only [Act.wf_bind]
  refine aligned_wf ?_
  split
  · exact h
  · simp only [Act.wf_bind]
    exact waitFor_wf h (State.scalarWrite_wf h fun t ht => State.finish_wf (State.setCluster_wf ht))

theorem execRqSend_wf {s : State} {q a} (h : s.Wf) : Out.Wf (execRqSend q a s) := by
  refine scalar_wf h fun i c => ?_
  grind [State.scalarRead_wf, State.next_wf, State.setCluster_wf, waitFor_wf, aligned_wf, Act.wf_bind, Act.wf_ok]

/-! ## Accumulators -/

theorem accIssue_wf {s : State} {t rows faults job d} (h : s.Wf) : Out.Wf (accIssue s t rows faults job d) := by
  refine scalar_wf h fun i c => ?_
  cases d
  all_goals
    refine Act.wf_bind_of_waits (by grind [State.interlock_wf, Act.wf_ok]) fun _ => ?_
    split
    · grind [State.finish_wf, State.next_wf, Act.wf_ok]
    · trivial
    · simp only [Act.wf_bind]
      refine firstFault_wf ?_
      split
      · exact h
      · rw [Act.wf_bind]
        refine waitFor_wf h ?_
        split
        · exact h
        · exact State.setWait_wf (State.setCore_wf h)

theorem execAccLd_wf {s : State} {t row n a} (h : s.Wf) : Out.Wf (execAccLd t row n a s) := by
  grind [execAccLd, accIssue_wf]

theorem execAccSt_wf {s : State} {f rm sat t row n a b} (h : s.Wf) : Out.Wf (execAccSt f rm sat t row n a b s) := by
  grind [execAccSt, accIssue_wf]

theorem State.changeTile_wf {s : State} {k tile f} (h : s.Wf) : (s.changeTile k tile f).Wf := by
  grind [State.changeTile, State.setCrew_wf]

theorem State.accAnswer_wf {s : State} {a r} (h : s.Wf) : (s.accAnswer a r).Wf := by
  unfold State.accAnswer
  split
  · exact h
  · split
    · exact State.setWait_wf h
    · exact h

theorem State.storeRow_wf {s : State} {fmt rm sat seed o t row r} (h : s.Wf) :
    (s.storeRow fmt rm sat seed o t row r).Wf := by
  grind [State.storeRow, State.poolStore_wf, State.putRow_wf]

theorem State.tileEcc_wf {s : State} {j} (h : s.Wf) : (s.tileEcc j).Wf := by
  grind [State.tileEcc, State.crewEcc_wf, State.Wf]

theorem State.applyJob_wf {s : State} {j} (h : s.Wf) : (s.applyJob j).Wf := by
  unfold State.applyJob
  split
  next bs k tile i src =>
    cases src with
    | add r => exact State.accAnswer_wf (State.changeTile_wf h)
    | _ => exact State.changeTile_wf h
  · exact State.accAnswer_wf (State.changeTile_wf h)
  · exact State.accAnswer_wf (State.changeTile_wf h)
  · exact State.accAnswer_wf (foldl_wf (fun _ _ hs => State.storeRow_wf hs) h)
  · exact State.accAnswer_wf (State.changeTile_wf h)
  · split
    · exact State.accAnswer_wf h
    · exact State.accAnswer_wf (State.changeTile_wf h)
  · exact State.accAnswer_wf h
  · exact h

theorem execAccBatchApply_wf {s : State} {core} (h : s.Wf) : Out.Wf (execAccBatchApply core s) := by
  grind [execAccBatchApply, State.applyJob_wf, State.tileEcc_wf, State.setCore_wf, Out.wf_next]

/-! ## Scalar memory -/

theorem scalarLoad_wf {s : State} {len sz sgn d a off} (h : s.Wf) : Out.Wf (scalarLoad s len sz sgn d a off) := by
  refine scalar_wf h fun i c => ?_
  grind [State.scalarRead_wf, State.finish_wf, aligned_wf, State.interlock_wf, Act.wf_bind, Act.wf_ok]

theorem scalarStore_wf {s : State} {len sz d a off} (h : s.Wf) : Out.Wf (scalarStore s len sz d a off) := by
  refine scalar_wf h fun i c => ?_
  grind [State.scalarWrite_wf, State.next_wf, aligned_wf, Act.wf_bind, Act.wf_ok]

theorem scalarWaitWord_wf {s : State} {len sc d va ok} (h : s.Wf) : Out.Wf (scalarWaitWord s len sc d va ok) := by
  refine scalar_wf h fun i c => ?_
  grind [State.scalarRead_wf, State.finish_wf, State.sleep_wf, aligned_wf, State.interlock_wf, Act.wf_bind, Act.wf_ok,
    Act.wf_wait]

theorem State.releaseOnce_wf {s : State} {i c rel sc} {Q} (h : s.Wf) (hQ : ∀ t, t.Wf → Q t) :
    (s.releaseOnce i c rel sc).Wf Q := by
  grind [State.releaseOnce, State.releaseFor_wf, Act.wf_ok]

theorem execSatom_wf {s : State} {op o sc d a b i} (h : s.Wf) : Out.Wf (execSatom op o sc d a b i s) := by
  refine scalar_wf h fun x c => ?_
  simp only [Act.wf_bind]
  exact aligned_wf (State.interlock_wf h (State.releaseOnce_wf h fun t ht =>
    State.scalarAtomic_wf ht fun old u hu => State.finish_wf hu))

theorem execSfence_wf {s : State} {o sc} (h : s.Wf) : Out.Wf (execSfence o sc s) := by
  refine scalar_wf h fun i c => ?_
  grind [State.next_wf, State.releaseFor_wf, Act.wf_bind, Act.wf_ok]

end Sys2Proof.Machine
end

section
/-!
What the steps of units, weight, launches, safe points, placement and admission keep.
-/

namespace Sys2Proof.Machine

/-! ## What units share -/

theorem State.atHome_wf {s : State} {x} (h : s.Wf) : (s.atHome x).Wf := State.drainLine_wf (State.underKey_wf h)

theorem State.unitStamp_wf {s : State} {u x} (h : s.Wf) : (s.unitStamp u x).Wf := State.closeStamp_wf h

theorem State.unitRead_wf {s : State} {u x n} (h : s.Wf) : (s.unitRead u x n).2.Wf := by
  grind [State.unitRead, State.atHome_wf, State.engineFault_wf]

theorem State.unitWrite_wf {s : State} {u x bs} (h : s.Wf) : (s.unitWrite u x bs).Wf :=
  State.unitStamp_wf (State.writePa_wf (State.atHome_wf h))

theorem State.unitAdd_wf {s : State} {u x fx v} (h : s.Wf) : (s.unitAdd u x fx v).Wf := by
  grind [State.unitAdd, State.underKey_wf, State.engineFault_wf, State.unitStamp_wf, State.drainLine_wf,
    State.writePa_wf, State.Wf]

theorem State.unitPart_wf {s t : State} {u a n} {b₁} (h : s.Wf) (e : s.unitPart u a n = .ok (b₁, t)) : t.Wf := by
  grind [State.unitPart, State.unitRead_wf, → atVa_ok]

theorem State.unitParts_wf {s t : State} {u l} {b₁} (h : s.Wf) (e : s.unitParts u l = .ok (b₁, t)) : t.Wf := by
  induction l generalizing s u t b₁ with
  | nil => grind [State.unitParts, → State.unitPart_wf]
  | cons x l ih => grind [State.unitParts, → State.unitPart_wf]

theorem State.unitLoad_wf {s t : State} {u va n} {b₁} (h : s.Wf) (e : s.unitLoad u va n = .ok (b₁, t)) : t.Wf :=
  State.unitParts_wf h e

theorem State.unitRequest_wf {s : State} {u p} (h : s.Wf) : (s.unitRequest u p).Wf := State.request_wf h

theorem State.unitPut_wf {s t : State} {u bs l} (h : s.Wf) (e : s.unitPut u bs l = .ok t) : t.Wf := by
  induction l generalizing s u bs t with
  | nil => grind [State.unitPut, State.unitWrite_wf, State.unitRequest_wf, → atVa_ok]
  | cons x l ih => grind [State.unitPut, State.unitWrite_wf, State.unitRequest_wf, → atVa_ok]

theorem State.unitStore_wf {s t : State} {u va bs} (h : s.Wf) (e : s.unitStore u va bs = .ok t) : t.Wf :=
  State.unitPut_wf h e

theorem State.unitAtomic_wf {s t : State} {u x n check f} {b₁} (h : s.Wf)
    (e : s.unitAtomic u x n check f = .ok (b₁, t)) : t.Wf := by
  grind [State.unitAtomic, State.atHome_wf, State.writePa_wf, State.unitStamp_wf]

theorem State.unitReserve_wf {s t : State} {u va n v} {b₁} (h : s.Wf) (e : s.unitReserve u va n v = .ok (b₁, t)) :
    t.Wf := by
  grind [State.unitReserve, → State.unitAtomic_wf, → atVa_ok]

theorem State.unitChange_wf {s t : State} {u va n check op v f} (h : s.Wf)
    (e : s.unitChange u va n check op v f = .ok t) : t.Wf := by
  grind [State.unitChange, → State.unitAtomic_wf, State.unitRequest_wf, → atVa_ok]

theorem State.unitDone_wf {s t : State} {u va status} (h : s.Wf) (e : s.unitDone u va status = .ok t) : t.Wf := by
  grind [State.unitDone, → State.unitAtomic_wf, → State.unitLoad_wf, → State.raySwap_wf, → atVa_ok]

theorem State.pushEmit_wf {s : State} {d k l} (h : s.Wf) : (s.pushEmit d k l).Wf := State.setDie_wf h

theorem State.unitStep_wf {s t : State} {u x} (h : s.Wf) (e : s.unitStep u x = .ok t) : t.Wf := by
  cases x with
  | put => exact State.unitStore_wf h e
  | add => exact State.unitChange_wf h e
  | set => exact State.unitChange_wf h e
  | done => exact State.unitDone_wf h e
  | free => exact State.freeRay_wf h e
  | emit => exact Except.ok.inj e ▸ State.pushEmit_wf h

theorem State.pause_wf {s : State} {p u va resume_} (h : s.Wf) : (s.pause p u va resume_).Wf :=
  ⟨h.mem, h.tiers, h.scratch⟩

/-- An attempt ends well where what it makes is well. -/
theorem State.attempt_wf {α : Type} {s : State} {u} {r : UnitAct α} {Q : α → Prop} (h : s.Wf)
    (hr : ∀ x, r = .ok x → Q x) : (s.attempt u r).Wf Q := by
  cases r with
  | ok x => exact hr x rfl
  | error e =>
    unfold State.attempt
    dsimp only
    split
    · exact State.askPeer_wf h
    · exact State.askPeer_wf h
    · exact State.dropPeerLine_wf h
    · exact h
    · trivial
    · trivial
    · trivial
    · trivial
    · trivial
    · trivial
    · exact h

theorem State.tryStep_wf {s : State} {u x} {Q} (h : s.Wf) (hQ : ∀ t, t.Wf → Q t) : (s.tryStep u x).Wf Q := by
  unfold State.tryStep
  split
  · exact h
  · have ha : (s.attempt u (s.unitStep u x)).Wf State.Wf := State.attempt_wf h fun t e => State.unitStep_wf h e
    split
    next t e => exact hQ _ (State.dropPeer_wf (UnitEnd.Wf.of_done ha e))
    next r hd => exact ha.imp_of_not_done hd

theorem State.tryAct_wf {α : Type} {s : State} {u} {r : UnitAct (α × State)} {Q : α × State → Prop} (h : s.Wf)
    (hr : ∀ x t, r = .ok (x, t) → t.Wf) (hQ : ∀ x t, t.Wf → Q (x, t)) : (s.tryAct u r).Wf Q := by
  unfold State.tryAct
  split
  · exact h
  · have ha : (s.attempt u r).Wf fun x => x.2.Wf := State.attempt_wf h fun x e => hr x.1 x.2 e
    split
    next x t e => exact hQ _ _ (State.dropPeer_wf (UnitEnd.Wf.of_done (x := (x, t)) ha e))
    next r hd => exact ha.imp_of_not_done fun x => hd x.1 x.2

theorem State.unitReport_wf {s : State} {u c} (h : s.Wf) : (s.unitReport u c).Wf := State.engineFault_wf h

/-! ## Weight -/

theorem State.devStore_wf {s : State} {w x bs} (h : s.Wf) : (s.devStore w x bs).Wf := by
  grind [State.devStore, State.request_wf, State.writePa_wf, State.atHome_wf]

theorem State.devLoad_wf {s t : State} {r x n} {b₁} (h : s.Wf) (e : s.devLoad r x n = .ok (b₁, t)) : t.Wf := by
  grind [State.devLoad, State.atHome_wf]

theorem State.recordPoison_wf {s : State} {x n} (h : s.Wf) : (s.recordPoison x n).Wf := by
  grind [State.recordPoison, State.report_wf]

theorem State.addOut_wf {s : State} {x v} (h : s.Wf) : (s.addOut x v).Wf := by
  grind [State.addOut, State.recordPoison_wf, State.atHome_wf, State.writePa_wf]

theorem State.subOut_wf {s : State} {x v} (h : s.Wf) : (s.subOut x v).Wf := by
  have hs : ((s.atHome x).recordPoison x 24).Wf := State.recordPoison_wf (State.atHome_wf h)
  unfold State.subOut
  dsimp only
  split
  · exact State.writePa_wf (State.writePa_wf hs)
  · exact State.writePa_wf hs

theorem State.returnTo_wf {s : State} {k asid part phase v} (h : s.Wf) : (s.returnTo k asid part phase v).Wf := by
  grind [State.returnTo, State.report_wf, State.send_wf, State.subOut_wf]

theorem State.sendWeight_wf {s : State} {k v} (h : s.Wf) : (s.sendWeight k v).Wf := by
  grind [State.sendWeight, State.returnTo_wf]

theorem State.returnWeight_wf {s : State} {k v} (h : s.Wf) : (s.returnWeight k v).Wf := by
  grind [State.returnWeight, State.sendWeight_wf, State.setCrew_wf]

theorem State.sendOwed_wf {s : State} {key} (h : s.Wf) : (s.sendOwed key).Wf := by
  grind [State.sendOwed, State.sendWeight_wf, State.setCrew_wf, foldl_wf]

theorem execWsplit_wf {s : State} {d a} (h : s.Wf) : Out.Wf (execWsplit d a s) := by
  refine scalar_wf h fun i c => ?_
  grind [State.detach_wf, State.finish_wf, State.interlock_wf, Act.wf_bind, Act.wf_ok, Act.wf_raise]

theorem execWret_wf {s : State} {a} (h : s.Wf) : Out.Wf (execWret a s) := by
  refine scalar_wf h fun i c => ?_
  split
  · exact h
  · rw [Act.wf_bind]
    refine require_wf fun _ => Act.wf_ite (State.next_wf h) ?_
    rw [Act.wf_bind]
    exact State.releaseFor_wf h fun t ht => State.next_wf (State.returnWeight_wf (by grind [State.setCrew_wf]))

theorem State.grantTo_wf {s : State} {a} (h : s.Wf) : (s.grantTo a).Wf := by
  grind [State.grantTo, State.setWait_wf]

theorem execWeightGrant_wf {s : State} {i} (h : s.Wf) : Out.Wf (execWeightGrant i s) := by
  have ht (l) : ({ s with grants := l } : State).Wf := ⟨h.mem, h.tiers, h.scratch⟩
  unfold execWeightGrant
  split
  · exact h
  · dsimp only
    split
    · exact ht _
    · split
      · exact State.report_wf (ht _)
      · exact Out.wf_ite (State.grantTo_wf (State.addOut_wf (ht _))) (Out.wf_ite (State.request_wf (ht _)) h)

theorem State.askQueue_wf {s : State} {i va line op n v cmp o} {Q} (h : s.Wf) :
    (s.askQueue i va line op n v cmp o).Wf Q := by
  unfold State.askQueue
  rw [Act.wf_bind]
  refine State.releaseFor_wf h fun t ht => ?_
  split
  · trivial
  · exact State.ask_wf ht

theorem State.readQueue_wf {s : State} {i va} {Q} (h : s.Wf) (hQ : ∀ b₁ t, t.Wf → Q (b₁, t)) :
    (s.readQueue i va).Wf Q := by
  grind [State.readQueue, → State.strongLoad_wf, State.ask_wf, Act.wf_ok, Act.wf_raise]

theorem tileTake_wf {s : State} {d a f} (h : s.Wf) : Out.Wf (tileTake s d a f) := by
  refine scalar_wf h fun i c => ?_
  simp only [Act.wf_bind]
  refine aligned_wf (State.interlock_wf h ?_)
  split
  · trivial
  · exact State.askQueue_wf h
  · exact Act.wf_ite (State.finish_wf (State.addWeight_wf h)) (State.setWait_wf h)
  · simp only [Act.wf_bind]
    refine State.checkWord_wf (State.readQueue_wf h fun q t ht => State.releaseFor_wf ht fun u hu => ?_)
    split
    · trivial
    next v e => exact State.finish_wf (State.addWeight_wf (State.atomic_wf hu e))

theorem execTqGive_wf {s : State} {a b} (h : s.Wf) : Out.Wf (execTqGive a b s) := by
  refine scalar_wf h fun i c => ?_
  simp only [Act.wf_bind]
  refine aligned_wf ?_
  split
  · trivial
  · exact State.askQueue_wf h
  · exact State.next_wf h
  · simp only [Act.wf_bind]
    refine State.checkWord_wf (State.readQueue_wf h fun q t ht => State.releaseFor_wf ht fun u hu => ?_)
    split
    · trivial
    next v e => exact State.next_wf (State.atomic_wf hu e)

/-! ## Launch queues -/

theorem State.reportPoison_wf {s : State} {q} (h : s.Wf) : (s.reportPoison q).Wf := by
  grind [State.reportPoison, State.report_wf, State.Wf]

theorem State.putQueue_wf {s : State} {q off bs} (h : s.Wf) : (s.putQueue q off bs).Wf :=
  State.writePa_wf (State.atHome_wf (State.reportPoison_wf h))

theorem State.launchPage_error_wf {s t : State} {k q e slot} (h : s.Wf) (he : s.launchPage k q e slot = .error t) :
    t.Wf := by
  unfold State.launchPage at he
  split at he
  · cases he
  · exact Except.error.inj he ▸ State.report_wf h

theorem State.publish_wf {s : State} {i c k gr d q slot x bs} {Q} (h : s.Wf) (hQ : ∀ t, t.Wf → Q t) :
    (s.publish i c k gr d q slot x bs).Wf Q := by
  grind [State.publish, State.releaseFor_wf, State.devStore_wf, State.setGrid_wf, State.finish_wf, Act.wf_bind,
    Act.wf_ok]

theorem State.launchPacket_wf {s : State} {i c k gr q d w bs} {Q} (h : s.Wf) (hQ : ∀ t, t.Wf → Q t) :
    (s.launchPacket i c k gr q d w bs).Wf Q := by
  unfold State.launchPacket
  refine Act.wf_ite (hQ _ (State.finish_wf h)) ?_
  dsimp only
  split
  next t e => exact hQ _ (State.launchPage_error_wf (State.putQueue_wf h) e)
  · rw [Act.wf_bind]
    exact State.detach_wf (State.putQueue_wf h) fun u hu => State.publish_wf hu hQ

theorem execGlaunch_wf {s : State} {q d a b} (h : s.Wf) : Out.Wf (execGlaunch q d a b s) := by
  refine scalar_wf h fun i c => ?_
  split
  · exact h
  · dsimp only
    split
    · split
      next t e => exact State.setWait_wf (State.launchPage_error_wf h e)
      · exact State.publish_wf h fun _ ht => ht
    · simp only [Act.wf_bind]
      refine aligned_wf (require_wf fun _ => require_wf fun _ => State.settle_wf h fun t ht => State.interlock_wf ht ?_)
      exact State.scalarRead_wf ht fun _ u hu => State.launchPacket_wf hu fun _ hv => hv

theorem State.putStatus_wf {s : State} {w args q id c} (h : s.Wf) : (s.putStatus w args q id c).Wf := by
  grind [State.putStatus, State.devStore_wf, State.report_wf]

/-! ## Safe points -/

theorem State.ctxParts_wf {s t : State} {w bs l} (h : s.Wf) (e : s.ctxParts w bs l = .ok t) : t.Wf := by
  induction l generalizing s w bs t with
  | nil => grind [State.ctxParts, → State.ctxStore_wf]
  | cons x l ih => grind [State.ctxParts, → State.ctxStore_wf]

theorem State.ctxStores_wf {s t : State} {w va bs} (h : s.Wf) (e : s.ctxStores w va bs = .ok t) : t.Wf :=
  State.ctxParts_wf h e

theorem State.ctxWrites_wf {s t : State} {w l} (h : s.Wf) (e : s.ctxWrites w l = .ok t) : t.Wf := by
  induction l generalizing s w t with
  | nil => grind [State.ctxWrites, → State.ctxStores_wf]
  | cons x l ih => grind [State.ctxWrites, → State.ctxStores_wf]

theorem State.dropGang_wf {s : State} {g} (h : s.Wf) : (s.dropGang g).Wf := ⟨h.mem, h.tiers, h.scratch⟩

theorem State.leaveCore_wf {s : State} {key c killed} (h : s.Wf) : (s.leaveCore key c killed).Wf := by
  grind [State.leaveCore, State.dropGang_wf, foldl_wf, State.Wf]

theorem State.present_wf {s : State} {g} (h : s.Wf) : (s.present g).Wf := by
  grind [State.present, → State.fillAll_ok_wf, → State.fillAll_error_wf]

theorem State.restoreInPlace_wf {s : State} {g} (h : s.Wf) : (s.restoreInPlace g).Wf := by
  grind [State.restoreInPlace, State.present_wf, State.enter_wf, State.setGang_wf]

theorem State.withdraw_wf {s : State} {key} (h : s.Wf) : (s.withdraw key).Wf := by
  grind [State.withdraw, State.restoreInPlace_wf, State.setCrew_wf, foldl_wf]

theorem State.lastPark_wf {s : State} {key} (h : s.Wf) : (s.lastPark key).Wf := by
  grind [State.lastPark, State.withdraw_wf, → State.ctxWrites_wf, State.report_wf, State.leaveCore_wf]

theorem execPreemptWithdrawTimeout_wf {s : State} {c} (h : s.Wf) : Out.Wf (execPreemptWithdrawTimeout c s) := by
  unfold execPreemptWithdrawTimeout
  split
  · exact h
  · split
    · exact h
    · exact Out.wf_ite (State.withdraw_wf h) h

/-! ## Placement -/

theorem State.startPilot_wf {s : State} {k cl ctx} (h : s.Wf) : (s.startPilot k cl ctx).Wf := by
  unfold State.startPilot
  split
  · split
    · exact State.setPilot_wf (State.setGrid_wf h)
    · exact h
  · exact h

theorem State.startCrew_wf {s : State} {k gr b} (h : s.Wf) : (s.startCrew k gr b).Wf := by
  grind [State.startCrew, State.setCrew_wf, State.setGrid_wf, State.setGang_wf, State.startPilot_wf, foldl_wf, State.Wf]

theorem State.placeOn_wf {s t : State} {k core} (h : s.Wf) (e : s.placeOn k core = some t) : t.Wf := by
  grind [State.placeOn, State.startCrew_wf]

theorem State.placeAll_wf {s t : State} {k l} (h : s.Wf) (e : s.placeAll k l = some t) : t.Wf := by
  induction l generalizing s k t with
  | nil => grind [State.placeAll, → State.placeOn_wf]
  | cons x l ih => grind [State.placeAll, → State.placeOn_wf]

theorem firstOf_some {α : Type} {f : Nat → Option α} {l : List Nat} {a : Nat} {b : α} (e : firstOf f l = some (a, b)) :
    f a = some b := by
  induction l with
  | nil => cases e
  | cons x l ih => grind [firstOf]

theorem State.convoyOn_wf {s t : State} {k n cl} (h : s.Wf) (e : s.convoyOn k n cl = some t) : t.Wf := by
  obtain ⟨⟨c, u⟩, hu, rfl⟩ := Option.map_eq_some_iff.mp e
  exact State.placeAll_wf h (firstOf_some hu)

theorem State.placeNext_wf {s t : State} {k} (h : s.Wf) (e : s.placeNext k = some t) : t.Wf := by
  have hl {u : State} (l) (hu : u.Wf) : ({ u with launch := l } : State).Wf := ⟨hu.mem, hu.tiers, hu.scratch⟩
  unfold State.placeNext at e
  split at e
  · cases e
  · dsimp only at e
    split at e
    · split at e
      next c u hu => exact Option.some.inj e ▸ hl _ (State.placeOn_wf h (firstOf_some hu))
      · cases e
    · split at e
      next c u hu => exact Option.some.inj e ▸ hl _ (State.convoyOn_wf h (firstOf_some hu))
      · cases e

theorem State.placeCoop_wf {s t : State} {k l} (h : s.Wf) (e : s.placeCoop k l = some t) : t.Wf := by
  induction l generalizing s k t with
  | zero => grind [State.placeCoop, → State.placeNext_wf]
  | succ l ih => grind [State.placeCoop, → State.placeNext_wf]

theorem State.backOff_wf {s : State} {g} (h : s.Wf) : (s.backOff g).Wf := ⟨h.mem, h.tiers, h.scratch⟩

theorem State.heldAll_wf {s : State} {g} (h : s.Wf) : (s.heldAll g).Wf := by
  grind [State.heldAll, State.Wf]

theorem execCrewPlacement_wf {s : State} {k} (h : s.Wf) : Out.Wf (execCrewPlacement k s) := by
  grind [execCrewPlacement, → State.placeNext_wf, State.free_wf, State.backOff_wf, State.heldAll_wf, State.Wf,
    Out.wf_next]

/-! ## Admission and retirement -/

theorem State.readHeader_wf {s t : State} {q asid part image} {b₁} (h : s.Wf)
    (e : s.readHeader q asid part image = .ok (b₁, t)) : t.Wf := by
  grind [State.readHeader, → State.devLoad_wf]

theorem State.reportHead_wf {s : State} {q} (h : s.Wf) : (s.reportHead q).Wf := by
  grind [State.reportHead, State.report_wf, State.Wf]

theorem State.judge_wf {s : State} {q e p} (h : s.Wf) : (s.judge q e p).2.Wf := by
  grind [State.judge, → State.readHeader_wf]

theorem State.headerPoison_wf {s : State} {q e x} (h : s.Wf) : (s.headerPoison q e x).Wf := by
  grind [State.headerPoison, State.report_wf]

theorem State.consume_wf {s : State} {q e x w} (h : s.Wf) : (s.consume q e x w).Wf := by
  grind [State.consume, State.headerPoison_wf, State.reportPoison_wf, State.devStore_wf, State.dropPeer_wf,
    State.putQueue_wf, State.Wf]

theorem State.changeGrid_wf {s : State} {p f} (h : s.Wf) : (s.changeGrid p f).Wf := by
  unfold State.changeGrid
  split
  · exact h
  · split
    · exact h
    · exact State.setGrid_wf h

theorem State.refuse_wf {s : State} {q slot w p c} (h : s.Wf) : (s.refuse q slot w p c).Wf := by
  grind [State.refuse, State.putStatus_wf, State.changeGrid_wf, State.returnTo_wf]

theorem State.startPhase_wf {s : State} {w g} (h : s.Wf) : (s.startPhase w g).Wf := by
  grind [State.startPhase, State.devStore_wf]

theorem State.seatGrid_wf {s : State} {q slot k g} (h : s.Wf) : (s.seatGrid q slot k g).Wf := by
  have hl (l) : ({ s with launch := l } : State).Wf := ⟨h.mem, h.tiers, h.scratch⟩
  have hu {l p f w args id} :
      ((((({ s with launch := l } : State).setGrid k g).changeGrid p f).startPhase w g).putStatus w args q id
        .admitted).Wf :=
    State.putStatus_wf (State.startPhase_wf (State.changeGrid_wf (State.setGrid_wf (hl l))))
  unfold State.seatGrid
  dsimp only
  split
  · cases e : State.placeCoop _ k (g.ncrew + 1) with
    | none => exact hu
    | some t => exact State.placeCoop_wf hu e
  · exact hu

theorem execPacketAdmission_wf {s : State} {q} (h : s.Wf) : Out.Wf (execPacketAdmission q s) := by
  unfold execPacketAdmission
  refine Out.wf_ite h ?_
  split
  · exact State.dropPeer_wf (State.reportPoison_wf h)
  · exact State.reportHead_wf (State.reportPoison_wf h)
  · exact State.askPeer_wf (State.reportPoison_wf h)
  · refine Out.wf_ite h ?_
    have ht {e p} : (s.judge q e p).2.Wf := State.judge_wf h
    have hc {n : Nat} {e x w p} : (({ (s.judge q e p).2 with choice := n } : State).consume q e x w).Wf :=
      State.consume_wf ⟨ht.mem, ht.tiers, ht.scratch⟩
    dsimp only
    split
    · exact h
    · exact State.askPeer_wf h
    · exact State.refuse_wf (State.consume_wf ht)
    · refine Out.wf_ite h (Out.wf_ite h (Out.wf_ite (State.backOff_wf (State.free_wf h)) (State.seatGrid_wf ?_)))
      grind [State.heldAll_wf, State.consume_wf]

theorem State.freeBerths_wf {s : State} {key c} (h : s.Wf) : (s.freeBerths key c).Wf := State.setCore_wf h

theorem execCrewRetire_wf {s : State} {key} (h : s.Wf) : Out.Wf (execCrewRetire key s) := by
  grind [execCrewRetire, State.freeBerths_wf, State.closeLog_wf, State.setCore_wf, State.returnWeight_wf,
    State.setGrid_wf, State.Wf, Out.wf_next]

theorem execGridRetire_wf {s : State} {k} (h : s.Wf) : Out.Wf (execGridRetire k s) := by
  grind [execGridRetire, State.putStatus_wf, State.changeGrid_wf, State.Wf, Out.wf_next]

end Sys2Proof.Machine
end

section
/-!
What barriers and copies keep.
-/

namespace Sys2Proof.Machine

/-! ## Fabric barriers -/

theorem State.putPa64_wf {s : State} {pa v} (h : s.Wf) : (s.putPa64 pa v).Wf := State.writePa_wf h

theorem State.sendArrival_wf {s : State} {i y x} {Q} (h : s.Wf) : (s.sendArrival i y x).Wf Q := by
  refine Act.wf_ite (State.ask_wf h) (State.setWait_wf ⟨h.mem, h.tiers, h.scratch⟩)

theorem State.readFbar_wf {s : State} {i c va} {Q} (h : s.Wf) (hQ : ∀ b t, t.Wf → Q (b, t)) :
    (s.readFbar i c va).Wf Q := by
  unfold State.readFbar
  dsimp only
  split
  all_goals
    simp only [Act.wf_bind]
  · exact State.checkFbar_wf (State.scalarRead_wf h fun b t ht => State.checkFbar_wf (hQ b t ht))
  · exact State.scalarRead_wf h fun b t ht => State.checkFbar_wf (hQ b t ht)

theorem State.arriveFbar_wf {s : State} {i va bs} {Q} (h : s.Wf) (hQ : ∀ t, t.Wf → Q t) :
    (s.arriveFbar i va bs).Wf Q := by
  have waits {r : Act State} {Q : State → Prop} : r.Wf Q → Act.Wf Q (match r with
      | .error (.wait t) => .error (.wait (t.setWait i (.fbarRead bs)))
      | r => r) := by
    intro hr
    split
    · exact State.setWait_wf (Act.Wf.of_wait hr rfl)
    · exact hr
  unfold State.arriveFbar
  dsimp only
  split
  · trivial
  · rw [Act.wf_bind]
    refine waits (State.settle_wf h fun t ht => ?_)
    split
    · exact hQ _ ht
    · simp only [Act.wf_bind]
      refine waits (Act.wf_ite ht (waits (State.releaseFor_wf ht fun u hu => ?_)))
      split
      next v e =>
        have hv : v.Wf := Act.Wf.of_wait (Q := Q) (State.sendArrival_wf hu) e
        show State.Wf _
        split
        · exact hv
        · exact State.setWait_wf hv
      · exact State.sendArrival_wf hu

theorem execFbar_wf {s : State} {d a} (h : s.Wf) : Out.Wf (execFbar d a s) := by
  refine scalar_wf h fun i c => ?_
  simp only [Act.wf_bind]
  refine aligned_wf (State.interlock_wf h ?_)
  split
  · exact h
  · rw [Act.wf_bind]
    exact require_wf fun _ => State.finish_wf h
  · exact State.arriveFbar_wf h fun _ ht => ht
  · rw [Act.wf_bind]
    exact State.readFbar_wf h fun bs t ht => State.arriveFbar_wf ht fun _ hu => hu

theorem State.answerFbar_wf {s : State} {a r} (h : s.Wf) : (s.answerFbar a r).Wf := by
  grind [State.answerFbar, State.setWait_wf, State.send_wf]

theorem State.failFbar_wf {s : State} {a} (h : s.Wf) : (s.failFbar a).Wf := by
  grind [State.failFbar, State.setWait_wf, State.send_wf]

theorem State.lagReport_wf {s : State} {who c} (h : s.Wf) : (s.lagReport who c).Wf := by
  unfold State.lagReport
  split
  · exact State.engineFault_wf h
  · exact State.report_wf h

theorem State.setLag_wf {s : State} {who asid tq on r} (h : s.Wf) : (s.setLag who asid tq on r).1.Wf := by
  unfold State.setLag
  dsimp only
  split
  · exact State.lagReport_wf h
  · split
    · exact State.request_wf h
    · exact State.writePa_wf (State.atHome_wf h)

theorem State.putFlag_wf {s : State} {pa m on} (h : s.Wf) : (s.putFlag pa m on).Wf := State.putPa64_wf h

theorem State.evalMember_wf {s : State} {pa d m} (h : s.Wf) : (s.evalMember pa d m).Wf := by
  grind [State.evalMember, State.putPa64_wf, State.putFlag_wf, State.setLag_wf, State.request_wf]

theorem State.endInstance_wf {s : State} {pa} (h : s.Wf) : (s.endInstance pa).Wf := by
  grind [State.endInstance, State.writePa_wf, State.putPa64_wf, State.answerFbar_wf, foldl_wf, State.Wf]

theorem State.completeInstance_wf {s : State} {pa} (h : s.Wf) : (s.completeInstance pa).Wf := by
  grind [State.completeInstance, State.evalMember_wf, State.endInstance_wf, foldl_wf]

theorem State.countArrival_wf {s : State} {a} (h : s.Wf) : (s.countArrival a).Wf := by
  grind [State.countArrival, State.drainLine_wf, State.answerFbar_wf, State.putPa64_wf, State.completeInstance_wf,
    State.Wf]

theorem execFbarArrival_wf {s : State} {i} (h : s.Wf) : Out.Wf (execFbarArrival i s) := by
  grind [execFbarArrival, State.countArrival_wf, State.Wf, Out.wf_next]

theorem execFbarTimeout_wf {s : State} {i} (h : s.Wf) : Out.Wf (execFbarTimeout i s) := by
  grind [execFbarTimeout, State.report_wf, State.failFbar_wf, foldl_wf, State.Wf, Out.wf_next]

/-! ## Named barriers -/

theorem State.releaseWaiters_wf {s : State} {crew b} (h : s.Wf) : (s.releaseWaiters crew b).Wf :=
  ⟨h.mem, h.tiers, h.scratch⟩

theorem State.changeBarrier_wf {s : State} {crew b f} (h : s.Wf) : (s.changeBarrier crew b f).Wf := by
  grind [State.changeBarrier, State.releaseWaiters_wf, State.setCrew_wf]

theorem State.announce_wf {s : State} {crew b v} (h : s.Wf) : (s.announce crew b v).Wf := State.changeBarrier_wf h

theorem barrierOp_wf {s : State} {b f} (h : s.Wf) (hf : ∀ a c k x, (f a c k x).Wf State.Wf) :
    Out.Wf (barrierOp s b f) := by
  refine scalar_wf h fun a c => ?_
  split
  · exact h
  · split
    · trivial
    · exact hf ..

theorem State.arrive_wf {s : State} {crew b} (h : s.Wf) : (s.arrive crew b).Wf := State.changeBarrier_wf h

theorem execBarInit_wf {s : State} {b a} (h : s.Wf) : Out.Wf (execBarInit b a s) := by
  grind [execBarInit, barrierOp_wf, State.next_wf, State.changeBarrier_wf, require_wf, Act.wf_bind, Act.wf_ok]

theorem execBarArr_wf {s : State} {d b} (h : s.Wf) : Out.Wf (execBarArr d b s) := by
  refine barrierOp_wf h fun i c k x => ?_
  simp only [Act.wf_bind]
  exact State.settle_wf h fun t ht => require_wf fun _ => State.interlock_wf ht (State.finish_wf (State.arrive_wf ht))

theorem execBarWt_wf {s : State} {b a} (h : s.Wf) : Out.Wf (execBarWt b a s) := by
  grind [execBarWt, barrierOp_wf, State.next_wf, State.setWait_wf, Act.wf_ok, Act.wf_wait]

theorem execBarSync_wf {s : State} {b} (h : s.Wf) : Out.Wf (execBarSync b s) := by
  grind [execBarSync, barrierOp_wf, State.next_wf, State.settle_wf, State.arrive_wf, State.setWait_wf, require_wf,
    Act.wf_bind, Act.wf_ok]

theorem execBarExp_wf {s : State} {b a} (h : s.Wf) : Out.Wf (execBarExp b a s) := by
  grind [execBarExp, barrierOp_wf, State.next_wf, State.announce_wf, Act.wf_ok]

/-! ## Copies -/

theorem State.toLighter_wf {s : State} {i e st} (h : s.Wf) : (s.toLighter i e st).Wf := by
  grind [State.toLighter, State.setBerth_wf]

theorem State.startCopy_wf {s : State} {i key y addr bs} (h : s.Wf) : (s.startCopy i key y addr bs).Wf := by
  grind [State.startCopy, State.toLighter_wf, State.setCluster_wf]

theorem State.readDesc_wf {s : State} {i c addr fits} {Q} (h : s.Wf) (hQ : ∀ b₁ t, t.Wf → Q (b₁, t)) :
    (s.readDesc i c addr fits).Wf Q := by
  grind [State.readDesc, State.scalarRead_wf, require_wf, Act.wf_bind, Act.wf_raise]

theorem execXcpy_wf {s : State} {a b} (h : s.Wf) : Out.Wf (execXcpy a b s) := by
  refine scalar_wf h fun i c => ?_
  rw [Act.wf_bind]
  refine State.settle_wf h fun t ht => ?_
  simp only [Act.wf_bind]
  refine aligned_wf (require_wf fun _ => ?_)
  split
  · exact ht
  · simp only [Act.wf_bind]
    refine State.readDesc_wf ht fun bs u hu => State.sliceChecks_wf (require_wf fun _ => waitFor_wf hu ?_)
    refine State.releaseFor_wf hu fun v hv => State.next_wf ?_
    grind [State.setCore_wf, State.announce_wf, State.startCopy_wf]

theorem execXdrain_wf {s : State} {p} (h : s.Wf) : Out.Wf (execXdrain p s) := by
  refine scalar_wf h fun i c => ?_
  grind [State.setWait_wf, State.next_wf, Act.wf_ok, Act.wf_wait]

theorem State.setCopy_wf {s : State} {cl i c} (h : s.Wf) : (s.setCopy cl i c).Wf := State.setCluster_wf h

theorem State.takeElem_wf {s : State} {cl c src line e} (h : s.Wf) : (s.takeElem cl c src line e).2.Wf := by
  unfold State.takeElem
  dsimp only
  split
  · dsimp only
    split
    · exact State.engineFault_wf h
    · exact h
  · split
    · exact h
    · exact State.unitRead_wf h

theorem State.putElem_wf {s : State} {cl c dst e bs} (h : s.Wf) : (s.putElem cl c dst e bs).Wf := by
  unfold State.putElem
  dsimp only
  split
  · exact foldl_wf (fun _ _ hs => State.poolStore_wf hs) h
  · split
    · exact State.unitWrite_wf h
    · exact State.unitAdd_wf h

theorem State.moveElems_wf {s : State} {cl c src dst line es} (h : s.Wf) : (s.moveElems cl c src dst line es).Wf := by
  grind [State.moveElems, State.takeElem_wf, State.putElem_wf, foldl_wf]

theorem State.payCopy_wf {s : State} {c n} (h : s.Wf) : (s.payCopy c n).Wf := by
  grind [State.payCopy, State.announce_wf]

theorem State.partDone_wf {s : State} {cl i c n} (h : s.Wf) : (s.partDone cl i c n).Wf :=
  State.setCopy_wf (State.payCopy_wf h)

theorem State.takeElems_wf {s : State} {cl c x l} (h : s.Wf) : (s.takeElems cl c x l).2.Wf := by
  induction l generalizing s cl c x with
  | nil => grind [State.takeElems, State.takeElem_wf]
  | cons x l ih => grind [State.takeElems, State.takeElem_wf]

theorem State.failCopy_wf {s : State} {cl i c t} (h : s.Wf) : (s.failCopy cl i c t).Wf := State.setCopy_wf h

theorem State.farPart_wf {s : State} {cl i c x} (h : s.Wf) : (s.farPart cl i c x).Wf := by
  grind [State.farPart, State.partDone_wf, State.failCopy_wf, State.request_wf, State.takeElems_wf, State.setCopy_wf,
    State.moveElems_wf]

theorem State.nextPart_wf {s : State} {cl i c} (h : s.Wf) : (s.nextPart cl i c).Wf := by
  grind [State.nextPart, State.engineFault_wf, State.partDone_wf, State.poolStore_wf, State.pause_wf, State.setCopy_wf,
    State.failCopy_wf, State.moveElems_wf]

theorem execCopyPartComplete_wf {s : State} {cl i} (h : s.Wf) : Out.Wf (execCopyPartComplete cl i s) := by
  grind [execCopyPartComplete, State.farPart_wf, State.nextPart_wf, Out.wf_next]

theorem State.changeEnd_wf {s : State} {cl e f} (h : s.Wf) : (s.changeEnd cl e f).Wf := State.setBerth_wf h

theorem State.padZeros_wf {s : State} {cl d} (h : s.Wf) : (s.padZeros cl d).Wf := by
  have hz (l : List Nat) (b : Nat) :
      (l.foldl (fun s a => { s with scratch := s.scratch.setByte (b + a) 0 }) s : State).Wf :=
    foldl_wf (fun _ a hs => ⟨hs.mem, hs.tiers, Memory.wf_setByte hs.scratch (b + a) 0⟩) h
  exact ⟨(hz _ _).mem, (hz _ _).tiers, (hz _ _).scratch⟩

theorem State.dropCopy_wf {s : State} {cl i} (h : s.Wf) : (s.dropCopy cl i).Wf := State.setCluster_wf h

theorem State.giveBerths_wf {s : State} {cl c} (h : s.Wf) : (s.giveBerths cl c).Wf := by
  grind [State.giveBerths, State.padZeros_wf, State.changeEnd_wf, State.payCopy_wf]

theorem State.returnBerths_wf {s : State} {cl c} (h : s.Wf) : (s.returnBerths cl c).Wf := by
  grind [State.returnBerths, State.payCopy_wf, State.changeEnd_wf]

theorem State.endCopy_wf {s : State} {cl i c} (h : s.Wf) : (s.endCopy cl i c).Wf := State.setCopy_wf h

theorem State.copyEnd_wf {s : State} {cl i c f fails r} (h : s.Wf) (hf : ∀ x, (fails x).Wf) :
    UnitEnd.Wf (fun t => (f t).Wf) r → (s.copyEnd cl i c f fails r).Wf := by
  intro hr
  cases r with
  | done t => exact hr
  | waits t => exact hr
  | demand va => exact State.pause_wf (State.setCopy_wf h)
  | fails x => exact hf x

theorem State.completeCopy_wf {s : State} {cl i c} (h : s.Wf) : (s.completeCopy cl i c).Wf := by
  grind [State.completeCopy, State.endCopy_wf, State.giveBerths_wf, State.dropCopy_wf, State.copyEnd_wf,
    State.setCopy_wf, State.failCopy_wf, State.tryStep_wf]

theorem execCopyComplete_wf {s : State} {cl i} (h : s.Wf) : Out.Wf (execCopyComplete cl i s) := by
  grind [execCopyComplete, State.completeCopy_wf, Out.wf_next]

theorem State.completeFailed_wf {s : State} {cl i c t} (h : s.Wf) : (s.completeFailed cl i c t).Wf := by
  grind [State.completeFailed, State.copyEnd_wf, State.setCopy_wf, State.tryStep_wf, State.endCopy_wf,
    State.returnBerths_wf, State.engineFault_wf, State.dropCopy_wf]

theorem execCopyErrorComplete_wf {s : State} {cl i} (h : s.Wf) : Out.Wf (execCopyErrorComplete cl i s) := by
  grind [execCopyErrorComplete, State.completeFailed_wf, Out.wf_next]

end Sys2Proof.Machine
end

section
/-!
What the render units, the sort engines and the fault queue keep.
-/

namespace Sys2Proof.Machine

/-! ## Projection -/

theorem State.viewEntries_wf {s t : State} {o ppb l} {b₁} (h : s.Wf) (e : s.viewEntries o ppb l = .ok (b₁, t)) :
    t.Wf := by
  induction l generalizing s o ppb t b₁ with
  | nil => grind [State.viewEntries, → State.unitLoad_wf]
  | cons x l ih => grind [State.viewEntries, → State.unitLoad_wf]

theorem State.readBlock_wf {s t : State} {o ppb views} {b₁} (h : s.Wf) (e : s.readBlock o ppb views = .ok (b₁, t)) :
    t.Wf := by
  grind [State.readBlock, → State.unitLoad_wf, → State.viewEntries_wf]

theorem State.projectBlock_wf {s t : State} {o e} {b₁} (h : s.Wf) (e : s.projectBlock o e = .ok (b₁, t)) : t.Wf := by
  grind [State.projectBlock, → State.unitLoad_wf, → State.readBlock_wf]

theorem State.projectItem_wf {s t : State} {o e b g} {b₁} (h : s.Wf) (e : s.projectItem o e b g = .ok (b₁, t)) :
    t.Wf := by
  grind [State.projectItem, → State.unitLoad_wf]

theorem execProjectionEntryStart_wf {s : State} {cl} (h : s.Wf) : Out.Wf (execProjectionEntryStart cl s) := by
  grind [execProjectionEntryStart, State.setCluster_wf, Out.wf_next]

theorem State.setProj_wf {s : State} {cl e} (h : s.Wf) : (s.setProj cl e).Wf := State.setCluster_wf h

theorem State.dropItem_wf {s : State} {cl e} (h : s.Wf) : (s.dropItem cl e).Wf := State.setCluster_wf h

theorem State.abandonItem_wf {s : State} {cl e c} (h : s.Wf) : (s.abandonItem cl e c).Wf := by
  grind [State.abandonItem, State.dropPeer_wf, State.setProj_wf, State.unitReport_wf]

theorem State.projEnd_wf {α : Type} {s : State} {cl e} {f : α → State} {r : UnitEnd α} (h : s.Wf)
    (hr : r.Wf fun x => (f x).Wf) : (s.projEnd cl e f r).Wf := by
  cases r with
  | done t => exact hr
  | waits t => exact hr
  | demand va => exact State.pause_wf h
  | fails x => exact State.abandonItem_wf h

theorem State.projectMore_wf {s : State} {cl e g} (h : s.Wf) : (s.projectMore cl e g).Wf := by
  unfold State.projectMore
  dsimp only
  split
  · exact State.projEnd_wf h (State.tryAct_wf h (fun _ _ => State.projectBlock_wf h) fun _ _ ht => State.setProj_wf ht)
  · exact State.projEnd_wf h (State.tryAct_wf h (fun _ _ => State.projectItem_wf h) fun _ _ ht => State.setProj_wf ht)
  · split
    · exact State.projEnd_wf h (State.tryAct_wf h (fun _ _ => State.unitReserve_wf h) fun _ _ ht => State.setProj_wf ht)
    · exact State.projEnd_wf h (State.tryAct_wf h (fun _ _ => State.unitReserve_wf h) fun _ _ ht => State.setProj_wf ht)
    · exact State.dropItem_wf h
    · exact State.projEnd_wf h (State.tryStep_wf h fun _ ht => State.setProj_wf ht)

theorem execProjectionItemDone_wf {s : State} {cl} (h : s.Wf) : Out.Wf (execProjectionItemDone cl s) := by
  grind [execProjectionItemDone, State.dropItem_wf, State.projectMore_wf, Out.wf_next]

/-! ## Traversal -/

theorem travPush_wf {c x r y} (h : x.2.Wf) (e : travPush c x r = .ok y) : y.2.Wf := by
  grind [travPush, → State.unitStore_wf]

theorem travPushAll_wf {c l x y} (h : x.2.Wf) (e : travPushAll c l x = .ok y) : y.2.Wf := by
  induction l generalizing x with
  | nil => grind [travPushAll]
  | cons r l ih => grind [travPushAll, → travPush_wf]

theorem travRefill_wf {c x y} (h : x.2.Wf) (e : travRefill c x = .ok y) : y.2.Wf := by
  grind [travRefill, → State.unitLoad_wf]

theorem visitBox_wf {c x node y} (h : x.2.Wf) (e : visitBox c x node = .ok y) : y.2.Wf := by
  unfold visitBox at e
  split at e
  · exact Except.ok.inj e ▸ h
  · dsimp only at e
    refine travPushAll_wf ?_ e
    exact h

theorem visitLeaf_wf {c x r size rsvd test y} (h : x.2.Wf) (e : visitLeaf c x r size rsvd test = .ok y) : y.2.Wf := by
  unfold visitLeaf at e
  split at e
  · cases e
  next bs u hu => exact Except.ok.inj e ▸ State.unitLoad_wf h hu

theorem visitInstance_wf {c x r y} (h : x.2.Wf) (e : visitInstance c x r = .ok y) : y.2.Wf := by
  unfold visitInstance at e
  split at e
  · cases e
  next bs u hu =>
    have hu : u.Wf := State.unitLoad_wf h hu
    dsimp only at e
    split at e
    · exact Except.ok.inj e ▸ hu
    · exact travPushAll_wf (x := (_, u)) hu e

theorem travVisit_wf {c x r y} (h : x.2.Wf) (e : travVisit c x r = .ok y) : y.2.Wf := by
  unfold travVisit at e
  split at e
  · exact Except.ok.inj e ▸ h
  · split at e
    · exact Except.ok.inj e ▸ h
    · split at e
      · split at e
        · cases e
        next bs u hu => exact visitBox_wf (x := (_, u)) (State.unitLoad_wf h hu) e
      · exact visitLeaf_wf h e
      · exact visitLeaf_wf h e
      · split at e
        · exact Except.ok.inj e ▸ h
        · exact visitInstance_wf h e

theorem travStep_wf {s t : State} {c x b} (h : s.Wf) (e : travStep c x s = .ok (b, t)) : t.Wf := by
  unfold travStep at e
  split at e
  · exact travRefill_wf (y := (b, t)) h e
  · exact travVisit_wf (y := (b, t)) h e

theorem State.oddRay_wf {s : State} (h : s.Wf) : (s.oddRay).2.Wf := ⟨h.mem, h.tiers, h.scratch⟩

theorem State.rayResult_wf {s : State} {x} (h : s.Wf) : (s.rayResult x).2.Wf := by
  grind [State.rayResult, State.oddRay_wf]

theorem State.setJob_wf {s : State} {d id f} (h : s.Wf) : (s.setJob d id f).Wf := State.setDie_wf h

theorem State.abandonJob_wf {s : State} {d id c} (h : s.Wf) : (s.abandonJob d id c).Wf :=
  State.unitReport_wf (State.setJob_wf h)

theorem State.endRecord_wf {s t : State} {o y p} {b₁} (h : s.Wf) (e : s.endRecord o y p = .ok (b₁, t)) : t.Wf := by
  grind [State.endRecord, → State.unitLoad_wf]

theorem State.mapSteps_wf {s t : State} {o j y p} {b₁} (h : s.Wf) (e : s.mapSteps o j y p = .ok (b₁, t)) : t.Wf := by
  grind [State.mapSteps, → State.endRecord_wf, → State.unitLoad_wf]

theorem State.setRay_wf {s : State} {cl id f} (h : s.Wf) : (s.setRay cl id f).Wf := State.setCluster_wf h

theorem State.leaveRay_wf {s : State} {cl y} (h : s.Wf) : (s.leaveRay cl y).Wf := by
  grind [State.leaveRay, State.setCluster_wf, State.setJob_wf]

theorem State.abandonRay_wf {s : State} {cl y c} (h : s.Wf) : (s.abandonRay cl y c).Wf := by
  grind [State.abandonRay, State.dropPeer_wf, State.abandonJob_wf, State.setRay_wf, State.unitReport_wf,
    State.leaveRay_wf]

theorem State.lostPut_wf {s : State} {cl y home line c} (h : s.Wf) : (s.lostPut cl y home line c).Wf := by
  grind [State.lostPut, State.abandonJob_wf, State.unitReport_wf, State.leaveRay_wf, State.setRay_wf]

theorem State.rayEnd_wf {α : Type} {s : State} {cl y} {f : α → State} {r : UnitEnd α} (h : s.Wf)
    (hr : r.Wf fun x => (f x).Wf) : (s.rayEnd cl y f r).Wf := by
  cases r with
  | done x => exact hr
  | waits t => exact hr
  | demand va => grind [State.rayEnd, State.pause_wf]
  | fails c => exact State.abandonRay_wf h

theorem State.endRay_wf {s : State} {cl y x} (h : s.Wf) : (s.endRay cl y x).Wf := State.setRay_wf (State.rayResult_wf h)

theorem State.traverseMore_wf {s : State} {cl y} (h : s.Wf) : (s.traverseMore cl y).Wf := by
  unfold State.traverseMore
  dsimp only
  split
  · exact State.rayEnd_wf h (State.tryAct_wf h (fun _ _ => State.unitLoad_wf h) fun _ _ ht => State.setRay_wf ht)
  · split
    · exact State.rayEnd_wf h (State.tryAct_wf h (fun _ _ => State.unitLoad_wf h) fun _ _ ht => State.setRay_wf ht)
    · split
      · exact State.endRay_wf h
      · split
        · exact State.endRay_wf h
        · exact State.rayEnd_wf h (State.tryAct_wf h (fun _ _ => travStep_wf h) fun _ _ ht => State.setRay_wf ht)

theorem State.mapRay_wf {s : State} {cl y} (h : s.Wf) : (s.mapRay cl y).Wf := by
  unfold State.mapRay
  dsimp only
  split
  · split
    · exact State.leaveRay_wf h
    · split
      · split
        · exact h
        · exact State.leaveRay_wf h
      · split
        · exact h
        · exact State.rayEnd_wf h (State.tryAct_wf h (fun _ _ => State.mapSteps_wf h) fun _ _ ht => State.setRay_wf ht)
  · exact State.leaveRay_wf h

theorem State.rayMore_wf {s : State} {cl y} (h : s.Wf) : (s.rayMore cl y).Wf := by
  unfold State.rayMore
  split
  · exact State.traverseMore_wf h
  · exact State.mapRay_wf h
  · split
    · exact h
    · exact State.rayEnd_wf h (State.tryStep_wf h fun _ ht => State.setRay_wf ht)

theorem State.takeRays_wf {s t : State} {o e p l b} (h : s.Wf) (he : s.takeRays o e p l = .ok (b, t)) : t.Wf := by
  induction l generalizing s b with
  | nil => grind [State.takeRays]
  | cons x l ih =>
    obtain ⟨i, bs⟩ := x
    cases bs <;> grind [State.takeRays, → State.unitLoad_wf, State.fresh_wf]

theorem State.takeEntry_wf {s t : State} {o e} {b₁} (h : s.Wf) (e : s.takeEntry o e = .ok (b₁, t)) : t.Wf := by
  grind [State.takeEntry, → State.takeRays_wf, → State.unitLoad_wf]

theorem State.addRays_wf {s : State} {cl l} (h : s.Wf) : (s.addRays cl l).Wf := State.setCluster_wf h

theorem State.abandonEntry_wf {s : State} {cl e c} (h : s.Wf) : (s.abandonEntry cl e c).Wf := by
  grind [State.abandonEntry, State.dropPeer_wf, → State.takeRays_wf, State.addRays_wf, State.unitReport_wf, foldl_wf]

theorem execTraversalStart_wf {s : State} {cl} (h : s.Wf) : Out.Wf (execTraversalStart cl s) := by
  unfold execTraversalStart
  split
  · exact h
  next e l _ =>
    dsimp only
    refine Out.wf_ite h ?_
    have ht {o} : (s.tryAct o (s.takeEntry o e)).Wf fun x => x.2.Wf :=
      State.tryAct_wf h (fun _ _ => State.takeEntry_wf h) fun _ _ ht => ht
    split
    next v t e => exact State.addRays_wf (UnitEnd.Wf.of_done (x := (v, t)) ht e)
    next t e => exact UnitEnd.Wf.of_waits ht e
    · exact State.pause_wf h
    · exact State.abandonEntry_wf h

theorem execTraversalEnd_wf {s : State} {cl i} (h : s.Wf) : Out.Wf (execTraversalEnd cl i s) := by
  grind [execTraversalEnd, State.rayMore_wf, Out.wf_next]

/-! ## Camera-ray generators -/

theorem State.readSlot_wf {s t : State} {o ring} {b₁} (h : s.Wf) (e : s.readSlot o ring = .ok (b₁, t)) : t.Wf := by
  grind [State.readSlot, → State.unitLoad_wf]

theorem State.genViews_wf {s t : State} {o j} {b₁} (h : s.Wf) (e : s.genViews o j = .ok (b₁, t)) : t.Wf := by
  grind [State.genViews, → State.unitLoad_wf, → State.readBlock_wf]

theorem State.setSlot_wf {s : State} {d g} (h : s.Wf) : (s.setSlot d g).Wf := State.setDie_wf h

theorem State.stopGen_wf {s : State} {d c} (h : s.Wf) : (s.stopGen d c).Wf := State.unitReport_wf (State.setDie_wf h)

theorem State.badJob_wf {s : State} {o slot} (h : s.Wf) : (s.badJob o slot).Wf := State.engineFault_wf h

theorem State.addJob_wf {s : State} {d job head views} (h : s.Wf) : (s.addJob d job head views).Wf := State.setDie_wf h

theorem State.abandonRing_wf {s : State} {d c} (h : s.Wf) : (s.abandonRing d c).Wf := by
  grind [State.abandonRing, State.dropPeer_wf, State.setSlot_wf, State.unitReport_wf, State.stopGen_wf]

theorem State.ringEnd_wf {α : Type} {s : State} {d} {f : α → State} {r : UnitEnd α} (h : s.Wf)
    (hr : r.Wf fun x => (f x).Wf) : (s.ringEnd d f r).Wf := by
  cases r with
  | done x => exact hr
  | waits t => exact hr
  | demand va => exact State.pause_wf h
  | fails c => exact State.abandonRing_wf h

theorem State.ringMore_wf {s : State} {d} (h : s.Wf) : (s.ringMore d).Wf := by
  unfold State.ringMore
  dsimp only
  split
  · exact State.ringEnd_wf h (State.tryAct_wf h (fun _ _ => State.readSlot_wf h) fun _ _ ht => State.setSlot_wf ht)
  · split
    · exact State.ringEnd_wf h (State.tryStep_wf h fun _ ht => State.setSlot_wf ht)
    · split
      · exact State.setSlot_wf h
      · refine State.ringEnd_wf h (State.tryAct_wf h (fun _ _ => State.genViews_wf h) fun v t ht => ?_)
        cases v with
        | none => exact State.badJob_wf (State.setSlot_wf ht)
        | some v => exact State.addJob_wf ht

theorem execGenJobConsume_wf {s : State} {d} (h : s.Wf) : Out.Wf (execGenJobConsume d s) := by
  grind [execGenJobConsume, State.ringMore_wf, Out.wf_next]

theorem State.pushEntry_wf {s : State} {d j} (h : s.Wf) : (s.pushEntry d j).Wf := by
  grind [State.pushEntry, State.setCluster_wf, State.setJob_wf, State.setDie_wf]

theorem State.jobEnd_wf {α : Type} {s : State} {d j o} {f : α → State} {r : UnitEnd α} (h : s.Wf)
    (hr : r.Wf fun x => (f x).Wf) : (s.jobEnd d j o f r).Wf := by
  cases r with
  | done x => exact hr
  | waits t => exact hr
  | demand va => exact State.pause_wf h
  | fails c => grind [State.jobEnd, State.unitReport_wf, State.setJob_wf, State.dropPeer_wf, State.abandonJob_wf]

theorem State.genPixel_wf {s t : State} {o pool i x} {b₁} (h : s.Wf) (e : s.genPixel o pool i x = .ok (b₁, t)) :
    t.Wf := by
  grind [State.genPixel, → State.genRay_wf]

theorem State.genTrace_wf {s t : State} {o pool i} {b₁} (h : s.Wf) (e : s.genTrace o pool i = .ok (b₁, t)) : t.Wf := by
  grind [State.genTrace, → State.perform_wf]

theorem State.emitMore_wf {s : State} {d j} (h : s.Wf) : (s.emitMore d j).Wf := by
  unfold State.emitMore
  dsimp only
  split
  · exact State.pushEntry_wf h
  · split
    · split
      · exact State.setJob_wf h
      · exact State.pushEntry_wf h
    · split
      · refine State.jobEnd_wf h (State.tryAct_wf h (fun _ _ => State.takeRay_wf h) fun v t ht => ?_)
        cases v with
        | none => exact h
        | some i => exact State.setJob_wf ht
      · exact State.jobEnd_wf h (State.tryAct_wf h (fun _ _ => State.genPixel_wf h) fun _ _ ht => State.setJob_wf ht)
      · exact State.jobEnd_wf h (State.tryAct_wf h (fun _ _ => State.genTrace_wf h) fun _ _ ht => State.setJob_wf ht)

theorem State.closeMore_wf {s : State} {d j} (h : s.Wf) : (s.closeMore d j).Wf := by
  unfold State.closeMore
  dsimp only
  split
  · exact State.pushEntry_wf h
  · split
    · exact h
    · split
      · exact State.setJob_wf h
      · exact State.jobEnd_wf h (State.tryStep_wf h fun _ ht => State.setJob_wf ht)
      · split
        · exact h
        · exact State.setDie_wf h

theorem execGenRayEmit_wf {s : State} {d i} (h : s.Wf) : Out.Wf (execGenRayEmit d i s) := by
  grind [execGenRayEmit, State.closeMore_wf, State.emitMore_wf, Out.wf_next]

/-! ## Sorts -/

theorem execSrt_wf {s : State} {a} (h : s.Wf) : Out.Wf (execSrt a s) := by
  refine scalar_wf h fun i c => ?_
  simp only [Act.wf_bind]
  refine State.settle_wf h fun t ht => aligned_wf (require_wf fun _ => waitFor_wf ht ?_)
  refine State.releaseFor_wf ht fun u hu => ?_
  split
  · exact hu
  · exact State.next_wf (State.setDie_wf hu)

theorem State.endSort_wf {s : State} {d} (h : s.Wf) : (s.endSort d).Wf := State.setDie_wf h

theorem execSortStart_wf {s : State} {d} (h : s.Wf) : Out.Wf (execSortStart d s) := by
  grind [execSortStart, State.setDie_wf, Out.wf_next]

theorem State.sorted_wf {s t : State} {o desc} {b₁} (h : s.Wf) (e : s.sorted o desc = .ok (b₁, t)) : t.Wf := by
  grind [State.sorted, → State.unitLoad_wf, State.freeBytes_wf]

theorem State.setSort_wf {s : State} {d j} (h : s.Wf) : (s.setSort d j).Wf := State.setDie_wf h

theorem State.abandonSort_wf {s : State} {d j c} (h : s.Wf) : (s.abandonSort d j c).Wf :=
  State.unitReport_wf (State.endSort_wf (State.dropPeer_wf h))

theorem State.sortEnd_wf {α : Type} {s : State} {d j} {f : α → State} {r : UnitEnd α} (h : s.Wf)
    (hr : r.Wf fun x => (f x).Wf) : (s.sortEnd d j f r).Wf := by
  cases r with
  | done x => exact hr
  | waits t => exact hr
  | demand va => exact State.pause_wf h
  | fails c => exact State.abandonSort_wf h

theorem State.sortMore_wf {s : State} {d j} (h : s.Wf) : (s.sortMore d j).Wf := by
  unfold State.sortMore
  dsimp only
  split
  · split
    · refine State.sortEnd_wf h (State.tryAct_wf h (fun _ _ => State.unitLoad_wf h) fun bs t ht => ?_)
      show State.Wf (if sortBad bs then _ else _)
      split
      · exact State.engineFault_wf (State.endSort_wf ht)
      · exact State.setSort_wf ht
    · exact State.sortEnd_wf h (State.tryAct_wf h (fun _ _ => State.sorted_wf h) fun _ _ ht => State.setSort_wf ht)
  · exact State.endSort_wf h
  · exact State.sortEnd_wf h (State.tryStep_wf h fun _ ht => State.setSort_wf ht)

theorem execSortComplete_wf {s : State} {d} (h : s.Wf) : Out.Wf (execSortComplete d s) := by
  grind [execSortComplete, State.sortMore_wf, Out.wf_next]

/-! ## The fault queue -/

theorem execFaultQueuePost_wf {s : State} {i} (h : s.Wf) : Out.Wf (execFaultQueuePost i s) := by
  grind [execFaultQueuePost, State.writePa_wf, State.atHome_wf, State.Wf, Out.wf_next]

theorem State.resumeCopy_wf {s : State} {cl id} (h : s.Wf) : (s.resumeCopy cl id).Wf := State.setCluster_wf h

theorem State.refuseCopy_wf {s : State} {cl id} (h : s.Wf) : (s.refuseCopy cl id).Wf := by
  grind [State.refuseCopy, State.setCopy_wf, State.failCopy_wf]

theorem State.refuseRay_wf {s : State} {cl id c} (h : s.Wf) : (s.refuseRay cl id c).Wf := by
  grind [State.refuseRay, State.abandonRay_wf]

theorem State.refuseTrav_wf {s : State} {cl sel c} (h : s.Wf) : (s.refuseTrav cl sel c).Wf := by
  grind [State.refuseTrav, State.abandonEntry_wf, State.refuseRay_wf]

theorem State.loseGen_wf {s : State} {d sel c} (h : s.Wf) : (s.loseGen d sel c).Wf := by
  unfold State.loseGen
  split
  · exact State.abandonRing_wf h
  · split
    · exact h
    · exact State.jobEnd_wf h trivial

theorem State.refuseGen_wf {s : State} {d sel} (h : s.Wf) : (s.refuseGen d sel).Wf := by
  grind [State.refuseGen, State.abandonRing_wf, State.refuseRay_wf, State.loseGen_wf]

theorem State.ackRead_wf {s : State} {p} (h : s.Wf) : (s.ackRead p).Wf := by
  grind [State.ackRead, State.engineFault_wf]

theorem State.refusePaused_wf {s : State} {p} (h : s.Wf) : (s.refusePaused p).Wf := by
  grind [State.refusePaused, State.ackRead_wf, State.refuseCopy_wf, State.abandonItem_wf, State.refuseTrav_wf,
    State.refuseGen_wf, State.abandonSort_wf]

theorem State.resumePaused_wf {s : State} {p} (h : s.Wf) : (s.resumePaused p).Wf := by
  grind [State.resumePaused, State.ackRead_wf, State.resumeCopy_wf]

theorem execEngineResumeOnAck_wf {s : State} {i} (h : s.Wf) : Out.Wf (execEngineResumeOnAck i s) := by
  unfold execEngineResumeOnAck
  split
  · exact h
  · split
    · exact h
    · exact h
    next pa _ _ =>
      have ht : (s.atHome (s.plainAt pa)).Wf := State.atHome_wf h
      dsimp only
      split
      · exact State.resumePaused_wf ⟨ht.mem, ht.tiers, ht.scratch⟩
      · exact State.refusePaused_wf ⟨ht.mem, ht.tiers, ht.scratch⟩
      · exact h

end Sys2Proof.Machine
end

section
/-!
What the lane words with variable latency and the lane sequencer keep.
-/

namespace Sys2Proof.Machine

/-! ## What `var` words share -/

theorem State.addVar_wf {s : State} {g v errs} (h : s.Wf) : (s.addVar g v errs).Wf := by
  grind [State.addVar, State.addLate_wf, State.addToken_wf, State.setGang_wf]

theorem State.performWord_wf {s : State} {c o id ops} (h : s.Wf) : (s.performWord c o id ops).Wf := by
  grind [State.performWord, State.addVar_wf, State.pushTrace_wf, State.goRays_wf, State.performWhole_wf,
    State.sendFar_wf]

theorem State.holdWord_wf {s : State} {c o id n ops} {Q} (h : s.Wf) (hQ : ∀ t, t.Wf → Q t) :
    (s.holdWord c o id n ops).Wf Q := by
  grind [State.holdWord, State.setGang_wf, State.addVar_wf, holdUntil_wf, Act.wf_bind, Act.wf_ok]

theorem State.placePush_wf {s : State} {c id} {Q} (h : s.Wf) (hQ : ∀ t, t.Wf → Q t) : (s.placePush c id).Wf Q := by
  grind [State.placePush, → State.pushHole_wf, Act.wf_ok, Act.wf_wait]

theorem State.wordEffects_wf {s : State} {c o ops} {Q} (h : s.Wf) (hQ : ∀ t, t.Wf → Q t) :
    (s.wordEffects c o ops).Wf Q := by
  unfold State.wordEffects
  simp only [Act.wf_bind]
  refine State.checkRegion_wf (holdUntil_wf h ?_)
  have hf : s.fresh.2.Wf := State.fresh_wf h
  split
  · exact State.holdWord_wf hf hQ
  · simp only [Act.wf_bind]
    refine State.placePush_wf hf fun _ _ => holdUntil_wf hf ?_
    have hp {t : State} (ht : t.Wf) :
        Act.Wf Q (t.placePush c s.fresh.1 >>= fun u => .ok (u.performWord c o s.fresh.1 ops)) := by
      rw [Act.wf_bind]
      exact State.placePush_wf ht fun u hu => hQ _ (State.performWord_wf hu)
    split
    · rw [Act.wf_bind]
      exact State.releaseFor_wf hf fun t ht => hp ht
    · exact hp hf

theorem laneMany_wf {s : State} {i o check ops} (h : s.Wf) (hc : ∀ c t, t.Wf → (check c t).Wf fun _ => True)
    (ho : ∀ c t, t.Wf → (ops c t).2.Wf) : Out.Wf (laneMany s i o check ops) := by
  refine laneIssue_wf h fun c t ht => ?_
  have ht : (t.skipChoice c.view).Wf := State.skipChoice_wf _ ht
  refine Act.wf_bind_of_waits (hc c _ ht) fun _ => ?_
  dsimp only
  rw [Act.wf_bind]
  exact State.wordEffects_wf (ho c _ ht) fun u hu => State.advance_wf hu

theorem laneVar_wf {s : State} {i o check ops} (h : s.Wf) (hc : ∀ c t, t.Wf → (check c t).Wf fun _ => True) :
    Out.Wf (laneVar s i o check ops) :=
  laneMany_wf h hc fun _ _ ht => ht

theorem execVarCompletion_wf {s : State} {g i} (h : s.Wf) : Out.Wf (execVarCompletion g i s) := by
  grind [execVarCompletion, State.landFix_wf, State.completeVar_wf, State.setGang_wf, Out.wf_next]

/-! ## Memory words -/

theorem laneLoad_wf {s : State} {i o off sz sgn d a b} (h : s.Wf) : Out.Wf (laneLoad s i o off sz sgn d a b) :=
  laneVar_wf h fun _ _ _ => LaneCtx.checkVa_wf trivial

theorem laneStore_wf {s : State} {i o off sz a b c} (h : s.Wf) : Out.Wf (laneStore s i o off sz a b c) :=
  laneVar_wf h fun _ _ _ => LaneCtx.checkHeld_wf trivial

theorem ldvScan_wf {g view lines va want d l x} (h : x.st.Wf) : (ldvScan g view lines va want d l x).st.Wf := by
  induction l generalizing x with
  | nil => exact h
  | cons n l ih =>
    unfold ldvScan
    dsimp only
    split
    · exact ih h
    · split
      next bs t e =>
        have ht : t.Wf := State.strongView_wf h e
        split
        · exact ih ht
        · exact ht
      · split
        · split
          · exact ih h
          · exact h
        · exact h
      · exact ih h

theorem State.changeLpc_wf {s : State} {g slot f} (h : s.Wf) : (s.changeLpc g slot f).Wf := by
  grind [State.changeLpc, State.setGang_wf]

theorem State.laneSleep_wf {s : State} {g slot ls} (h : s.Wf) : (s.laneSleep g slot ls).Wf := by
  grind [State.laneSleep, State.changeLpc_wf, State.setCore_wf]

theorem State.askEach_wf {s : State} {g slot sc l} (h : s.Wf) : (s.askEach g slot sc l).2.Wf := by
  induction l generalizing s with
  | nil => exact h
  | cons x l ih =>
    cases x with
    | nil => exact ih h
    | cons e x => exact ih (State.request_wf h)

theorem State.askLines_wf {s : State} {g slot sc xs} (h : s.Wf) : (s.askLines g slot sc xs).Wf := by
  grind [State.askLines, State.askEach_wf, State.changeLpc_wf]

theorem execLdv_wf {s : State} {h off sc d a b c} (hs : s.Wf) : Out.Wf (execLdv h off sc d a b c s) := by
  refine laneIssue_wf hs fun x t ht => ?_
  have ht : (t.skipChoice x.view).Wf := State.skipChoice_wf _ ht
  simp only [Act.wf_bind]
  refine LaneCtx.checkVa_wf (holdUntil_wf ht ?_)
  split
  · exact ht
  next y _ =>
    have hr (view lines va want back l got) : (ldvScan x.g view lines va want back l
        { st := t.skipChoice x.view, got := got, errs := [], stop := none }).st.Wf :=
      ldvScan_wf ht
    split
    · exact State.askLines_wf (State.changeLpc_wf (hr ..))
    · exact State.laneSleep_wf (State.changeLpc_wf (hr ..))
    · exact State.advance_wf (State.addVar_wf (State.fresh_wf (hr ..)))

theorem execFence_wf {s : State} {h o sc} (hs : s.Wf) : Out.Wf (execFence h o sc s) := by
  refine laneIssue_wf hs fun x t ht => ?_
  have ht : (t.skipChoice x.view).Wf := State.skipChoice_wf _ ht
  simp only [Act.wf_bind]
  refine holdUntil_wf ht (Act.wf_ite (Act.wf_ite ?_ ?_) (State.advance_wf ht))
  · exact State.stallRun_wf (State.commitHeld_wf ht)
  · simp only [Act.wf_bind]
    exact holdUntil_wf (State.commitHeld_wf ht)
      (State.releaseFor_wf (State.commitHeld_wf ht) fun u hu => State.advance_wf hu)

/-! ## Control words -/

theorem State.areaWait_wf {s : State} {g e} (h : s.Wf) : (s.areaWait g e).Wf := State.stallRun_wf (State.areaMiss_wf h)

theorem State.putEntries_wf {s t : State} {g base old new l} (h : s.Wf) (e : s.putEntries g base old new l = .ok t) :
    t.Wf := by
  induction l generalizing s g base old new t with
  | nil => grind [State.putEntries, → State.ctxStore_wf]
  | cons x l ih => grind [State.putEntries, → State.ctxStore_wf]

theorem State.endBlock_wf {s : State} {g} (h : s.Wf) : (s.endBlock g).Wf := by
  grind [State.endBlock, State.commitHeld_wf, State.setGang_wf]

theorem State.putPaths_wf {s : State} {g old p} {Q} (h : s.Wf) (hQ : ∀ t, t.Wf → Q t) : (s.putPaths g old p).Wf Q := by
  grind [State.putPaths, → State.putEntries_wf, State.areaFault_wf, State.setGang_wf, State.endBlock_wf, Act.wf_ok,
    Act.wf_wait]

theorem control_wf {s : State} {i always f} (h : s.Wf) (hf : ∀ c k p, (f c k p).Wf fun _ => True) :
    Out.Wf (control s i always f) := by
  refine laneIssue_wf h fun c t ht => ?_
  split
  · exact State.areaWait_wf ht
  · exact ht
  · dsimp only
    split
    · exact State.advance_wf ht
    · exact Act.wf_bind_of_waits (hf ..) fun p => State.putPaths_wf (State.advance_wf ht) fun _ hu => hu

theorem execBra_wf {s : State} {h target join} (hs : s.Wf) : Out.Wf (execBra h target join s) := by
  refine control_wf hs fun c k p => Act.wf_ite trivial (Act.wf_ite ?_ ?_)
  · rw [Act.wf_bind]
    exact Kernel.target_wf trivial
  · simp only [Act.wf_bind]
    exact Kernel.target_wf (Kernel.target_wf (Paths.push_wf fun _ => trivial))

theorem execBraLoop_wf {s : State} {h latch exitJoin} (hs : s.Wf) : Out.Wf (execBraLoop h latch exitJoin s) := by
  refine control_wf hs fun c k p => ?_
  rw [Act.wf_bind]
  exact Kernel.target_wf (Paths.push_wf fun _ => trivial)

theorem execBrk_wf {s : State} {h} (hs : s.Wf) : Out.Wf (execBrk h s) := by
  refine control_wf hs fun c k p => ?_
  rw [Act.wf_bind]
  exact Paths.loop_wf fun _ => trivial

theorem execCont_wf {s : State} {h} (hs : s.Wf) : Out.Wf (execCont h s) := by
  refine control_wf hs fun c k p => ?_
  rw [Act.wf_bind]
  exact Paths.loop_wf fun _ => trivial

theorem execJoin_wf {s : State} {h} (hs : s.Wf) : Out.Wf (execJoin h s) := by
  refine control_wf hs fun c k p => ?_
  rw [Act.wf_bind]
  exact require_wf fun _ => trivial

theorem execJoinLatch_wf {s : State} {h} (hs : s.Wf) : Out.Wf (execJoinLatch h s) := by
  refine control_wf hs fun c k p => ?_
  split <;> trivial

theorem execCall_wf {s : State} {h target} (hs : s.Wf) : Out.Wf (execCall h target s) := by
  refine control_wf hs fun c k p => ?_
  simp only [Act.wf_bind]
  exact Kernel.target_wf (Paths.push_wf fun _ => trivial)

theorem execRet_wf {s : State} {h} (hs : s.Wf) : Out.Wf (execRet h s) := by
  refine control_wf hs fun c k p => ?_
  split <;> trivial

theorem execExit_wf {s : State} {h} (hs : s.Wf) : Out.Wf (execExit h s) :=
  control_wf hs fun _ _ _ => trivial

theorem execExitKill_wf {s : State} {h} (hs : s.Wf) : Out.Wf (execExitKill h s) :=
  control_wf hs fun _ _ _ => trivial

theorem State.yieldSlot_wf {s : State} {c f} {Q} (h : s.Wf) (hf : ∀ t, t.Wf → (f t).Wf) (hQ : ∀ t, t.Wf → Q t) :
    (s.yieldSlot c f).Wf Q := by
  unfold State.yieldSlot
  have ha : (s.advance c).Wf := State.advance_wf h
  split
  · exact State.areaWait_wf h
  · dsimp only
    split
    · exact hQ _ ha
    · split
      · exact hQ _ (hf _ ha)
      · exact State.putPaths_wf (State.setGang_wf ha) hQ

theorem execNap_wf {s : State} {h n} (hs : s.Wf) : Out.Wf (execNap h n s) :=
  laneIssue_wf hs fun _ _ ht => State.yieldSlot_wf ht (fun _ hu => State.changeLpc_wf hu) fun _ hu => hu

theorem mwaitScan_wf {g view lines n va want l x} (h : x.st.Wf) : (mwaitScan g view lines n va want l x).st.Wf := by
  induction l generalizing x with
  | nil => exact h
  | cons n l ih =>
    unfold mwaitScan
    dsimp only
    split
    next bs t e =>
      have ht : t.Wf := State.strongView_wf h e
      exact ih ht
    · split
      · exact ih h
      · exact h
    · exact ih h

theorem execMwait_wf {s : State} {h off w64 a b c} (hs : s.Wf) : Out.Wf (execMwait h off w64 a b c s) := by
  refine laneIssue_wf hs fun x t ht => ?_
  have ht : (t.skipChoice x.view).Wf := State.skipChoice_wf _ ht
  simp only [Act.wf_bind]
  refine LaneCtx.checkVa_wf (holdUntil_wf ht ?_)
  split
  · exact ht
  next y _ =>
    have hr (view lines n va want l) : (mwaitScan x.g view lines n va want l
        { st := t.skipChoice x.view, differs := false, errs := [], far := false }).st.Wf :=
      mwaitScan_wf ht
    refine Act.wf_ite (State.askLines_wf (hr ..)) ?_
    refine Act.wf_ite (State.advance_wf (State.addVar_wf (State.fresh_wf (hr ..)))) ?_
    exact State.yieldSlot_wf (hr ..) (fun _ hu => State.laneSleep_wf hu) fun _ hu => hu

theorem execRgn_wf {s : State} {h} (hs : s.Wf) : Out.Wf (execRgn h s) := by
  refine laneIssue_wf hs fun c t ht => Act.wf_ite (State.advance_wf ht) ?_
  split
  · exact State.areaWait_wf ht
  · exact ht
  · simp only [Act.wf_bind]
    have hc : (t.commitHeld c.g).Wf := State.commitHeld_wf ht
    refine holdUntil_wf ht (require_wf fun _ => Act.wf_ite (State.stallRun_wf hc) ?_)
    split
    · exact State.advance_wf hc
    · exact State.setGang_wf (State.advance_wf hc)

/-! ## Render words -/

theorem laneProject_wf {s : State} {i point a b} (h : s.Wf) : Out.Wf (laneProject s i point a b) := by
  refine laneIssue_wf h fun c t ht => ?_
  have ht : (t.skipChoice c.view).Wf := State.skipChoice_wf _ ht
  simp only [Act.wf_bind]
  refine LaneCtx.check_wf (waitFor_wf ht ?_)
  split
  · exact ht
  · exact State.advance_wf (State.setCluster_wf ht)

theorem State.freeSix_wf {s : State} (h : s.Wf) : (s.freeSix).2.Wf := ⟨h.mem, h.tiers, h.scratch⟩

theorem backOps_wf {m : State} {c vp d a b r l} (h : m.Wf) : (backOps c vp d a b r l m).2.Wf := by
  induction l generalizing m c vp d a b r with
  | nil => grind [backOps, State.freeSix_wf]
  | cons x l ih => grind [backOps, State.freeSix_wf]

theorem execGscat_wf {s : State} {h tmask fx p a c} (hs : s.Wf) : Out.Wf (execGscat h tmask fx p a c s) := by
  unfold execGscat
  refine laneMany_wf hs ?_ ?_
  · exact fun _ _ _ => LaneCtx.checkAlign_wf trivial
  · exact fun _ _ ht => ht

theorem hitScan_wf {w view op l x} (h : x.st.Wf) : (hitScan w view op l x).st.Wf := by
  induction l generalizing x with
  | nil => exact h
  | cons n l ih =>
    unfold hitScan
    split
    · exact ih h
    · split
      next t r e =>
        have ht : t.Wf := State.performIn_wf h e
        exact ih ht
      · exact h
      · exact ih h
      · exact ih h

theorem execHitq_wf {s : State} {h d a b} (hs : s.Wf) : Out.Wf (execHitq h d a b s) := by
  refine laneIssue_wf hs fun c t ht => ?_
  have ht : (t.skipChoice c.view).Wf := State.skipChoice_wf _ ht
  have hp (l) : ({ t.skipChoice c.view with peer := l } : State).Wf := ⟨ht.mem, ht.tiers, ht.scratch⟩
  simp only [Act.wf_bind]
  refine holdUntil_wf ht ?_
  split
  · exact ht
  next y _ =>
    have hr {w view op l p got q} : ({ (hitScan w view op l
        { st := { t.skipChoice c.view with peer := p }, got := got, errs := [], far := [], stop := none }).st with
          peer := q } : State).Wf :=
      have hx := hitScan_wf (w := w) (view := view) (op := op) (l := l)
        (x := { st := { t.skipChoice c.view with peer := p }, got := got, errs := [], far := [], stop := none }) (hp p)
      ⟨hx.mem, hx.tiers, hx.scratch⟩
    split
    · exact State.laneSleep_wf (State.changeLpc_wf hr)
    · exact State.advance_wf (State.addVar_wf (State.fresh_wf hr))
    · exact State.askLines_wf (State.changeLpc_wf hr)

/-! ## The lane sequencer -/

theorem execLaneDispatch_wf {s : State} {g} (h : s.Wf) : Out.Wf (execLaneDispatch g s) := by
  grind [execLaneDispatch, State.endBlock_wf, State.setGang_wf, Out.wf_next]

theorem execIssueSlotArbitration_wf {s : State} {core slot} (h : s.Wf) :
    Out.Wf (execIssueSlotArbitration core slot s) := by
  grind [execIssueSlotArbitration, State.fresh_wf, State.setGang_wf, State.setCore_wf, State.Wf, Out.wf_next]

theorem execMonitorFire_wf {s : State} {w} (h : s.Wf) : Out.Wf (execMonitorFire w s) := by
  grind [execMonitorFire, State.fireWaiter_wf, Out.wf_next]

theorem execMonitorPollTimer_wf {s : State} {w} (h : s.Wf) : Out.Wf (execMonitorPollTimer w s) := by
  grind [execMonitorPollTimer, State.fireWaiter_wf, Out.wf_next]

theorem execTrapDelivery_wf {s : State} {g slot} (h : s.Wf) : Out.Wf (execTrapDelivery g slot s) := by
  grind [execTrapDelivery, → State.demandStop_wf, State.runWaits_wf, State.setGang_wf, State.takeTrap_wf, Out.wf_next]

end Sys2Proof.Machine
end

section
/-!
What answers and requests of other packages, pre-emption and kills keep.
-/

namespace Sys2Proof.Machine

/-! ## Collectives at a member -/

theorem State.emitChunk_wf {s : State} {x bs} (h : s.Wf) : (s.emitChunk x bs).2.Wf := State.sendAt_wf h

/-- The state in which a step of a collective ends. -/
def CollEnd.st : CollEnd → State
  | .goes _ s => s
  | .waits _ s => s
  | .over s => s

theorem State.collStep_wf {s : State} {x} (h : s.Wf) : (s.collStep x).st.Wf := by
  unfold State.collStep
  dsimp only
  split
  · split
    · exact State.emitChunk_wf h
    · have ht {va n} : (s.tryAct (collUnit x) (s.unitLoad (collUnit x) va n)).Wf fun y => y.2.Wf :=
        State.tryAct_wf h (fun _ _ => State.unitLoad_wf h) fun _ _ ht => ht
      split
      next bs t e => exact State.emitChunk_wf (UnitEnd.Wf.of_done (x := (bs, t)) ht e)
      next t e => exact UnitEnd.Wf.of_waits ht e
      · exact State.unitReport_wf h
      · exact State.unitReport_wf h
  · split
    · split <;> exact h
    · split <;> exact h
    next y l _ =>
      split
      · exact h
      · have ht : (s.tryStep (collUnit x) y).Wf State.Wf := State.tryStep_wf h fun _ ht => ht
        split
        next t e => exact UnitEnd.Wf.of_done (Q := State.Wf) ht e
        next t e => exact UnitEnd.Wf.of_waits ht e
        · exact State.unitReport_wf h
        · exact State.unitReport_wf h

theorem State.collRun_wf {s : State} {x n} (h : s.Wf) : (s.collRun x n).Wf := by
  induction n generalizing s x with
  | zero => exact ⟨h.mem, h.tiers, h.scratch⟩
  | succ n ih =>
    have hx : (s.collStep x).st.Wf := State.collStep_wf h
    unfold State.collRun
    split
    next e =>
      rw [e] at hx
      exact ih hx
    next e =>
      rw [e] at hx
      exact ⟨hx.mem, hx.tiers, hx.scratch⟩
    next e =>
      rw [e] at hx
      exact hx

theorem State.collMore_wf {s : State} {x} (h : s.Wf) : (s.collMore x).Wf := by
  grind [State.collMore, State.collRun_wf, State.Wf]

/-! ## Answers of other packages -/

theorem State.take_wf {s t : State} {k op} (h : s.Wf) (e : s.take k op = some t) : t.Wf := by
  grind [State.take, State.Wf]

theorem withPacket_wf {s : State} {k op f} (h : s.Wf) (hf : ∀ t, t.Wf → (f t).Wf) : Out.Wf (withPacket s k op f) := by
  unfold withPacket
  split
  · exact h
  next t e => exact hf t (State.take_wf h e)

theorem State.answer_wf {s : State} {k op payload} (h : s.Wf) : (s.answer k op payload).Wf := State.send_wf h

theorem State.refuseWith_wf {s : State} {k cause} (h : s.Wf) : (s.refuseWith k cause).Wf := State.answer_wf h

theorem State.discard_wf {s : State} (h : s.Wf) : (s.discard).Wf := ⟨h.mem, h.tiers, h.scratch⟩

theorem State.dropReq_wf {s : State} {r} (h : s.Wf) : (s.dropReq r).Wf := ⟨h.mem, h.tiers, h.scratch⟩

theorem State.changeVar_wf {s : State} {g id f} (h : s.Wf) : (s.changeVar g id f).Wf := by
  grind [State.changeVar, State.setGang_wf]

theorem State.changeCopy_wf {s : State} {cl id f} (h : s.Wf) : (s.changeCopy cl id f).Wf := State.setCluster_wf h

theorem State.lagDone_wf {s : State} {pa m on} (h : s.Wf) : (s.lagDone pa m on).Wf :=
  State.endInstance_wf (State.putFlag_wf h)

theorem State.lagLost_wf {s : State} {who r c} (h : s.Wf) : (s.lagLost who r c).Wf := by
  grind [State.lagLost, State.lagReport_wf]

theorem State.goWord_wf {s : State} {g var} (h : s.Wf) : (s.goWord g var).Wf := by
  grind [State.goWord, State.goRays_wf]

theorem State.peerAnswer_wf {s : State} {r q bs} (h : s.Wf) : (s.peerAnswer r q bs).Wf := by
  have hu : (match q, decide (r.packet.opc = Opc.rd.num), decide (r.packet.opc = Opc.atm.num) with
      | .word g v, _, true => s.swapAnswer g v r (packetAsk r.packet) bs
      | _, true, _ | _, _, true => { s with peer := s.peer ++ [r.learned q bs] }
      | _, false, false => s).Wf := by
    split
    · exact State.swapAnswer_wf h
    · exact ⟨h.mem, h.tiers, h.scratch⟩
    · exact ⟨h.mem, h.tiers, h.scratch⟩
    · exact h
  unfold State.peerAnswer
  dsimp only
  split
  · exact State.goWord_wf (State.changeVar_wf hu)
  all_goals exact hu

theorem State.changeSlot_wf {s : State} {g n f} (h : s.Wf) : (s.changeSlot g n f).Wf := by
  grind [State.changeSlot, State.setGang_wf]

theorem State.deliver_wf {s : State} {r bs} (h : s.Wf) : (s.deliver r bs).Wf := by
  grind [State.deliver, State.dropReq_wf, State.setWait_wf, State.changeVar_wf, State.changeSlot_wf,
    State.changeCopy_wf, State.lagDone_wf, State.send_wf, State.peerAnswer_wf]

theorem State.crewReport_wf {s : State} {a c} (h : s.Wf) : (s.crewReport a c).Wf := State.report_wf h

theorem State.wordFault_wf {s : State} {g v r t} (h : s.Wf) : (s.wordFault g v r t).Wf := State.addLate_wf h

theorem State.slotFault_wf {s : State} {g n t} (h : s.Wf) : (s.slotFault g n t).Wf := by
  grind [State.slotFault, State.fresh_wf, State.addLate_wf]

theorem State.loseCopy_wf {s : State} {cl id t} (h : s.Wf) : (s.loseCopy cl id t).Wf := by
  grind [State.loseCopy, State.failCopy_wf]

theorem State.loseColl_wf {s : State} {cid c} (h : s.Wf) : (s.loseColl cid c).Wf := by
  grind [State.loseColl, State.unitReport_wf, State.Wf]

theorem State.loseHeader_wf {s : State} {q} (h : s.Wf) : (s.loseHeader q).Wf := by
  grind [State.loseHeader, State.refuse_wf, State.consume_wf]

theorem State.awayAreaFault_wf {s : State} {tag} (h : s.Wf) : (s.awayAreaFault tag).Wf := by
  grind [State.awayAreaFault, State.report_wf]

theorem State.peerFails_wf {s : State} {r q t} (h : s.Wf) : (s.peerFails r q t).Wf := by
  have hd : (s.dropPeer q).Wf := State.dropPeer_wf h
  cases q with
  | scalar a => exact State.setWait_wf hd
  | slot g n => exact State.slotFault_wf hd
  | word g v =>
    unfold State.peerFails
    dsimp only
    split
    · exact h
    · exact State.goWord_wf (State.changeVar_wf (State.dropPeer_wf (State.wordFault_wf h)))
  | proj cl => grind [State.peerFails, State.abandonItem_wf]
  | trav cl id => grind [State.peerFails, State.refuseRay_wf, State.lostPut_wf]
  | travIn cl => exact State.refuseTrav_wf h
  | sort d => grind [State.peerFails, State.abandonSort_wf]
  | gen d sel => exact State.loseGen_wf h
  | copy cl id => exact State.loseCopy_wf hd
  | coll cid => exact State.loseColl_wf hd
  | queue n => exact State.reportHead_wf hd
  | header n => exact State.loseHeader_wf hd
  | ctx a => exact State.areaFault_wf hd
  | area tag => exact State.awayAreaFault_wf hd

theorem State.failReq_wf {s : State} {r t} (h : s.Wf) : (s.failReq r t).Wf := by
  grind [State.failReq, State.dropReq_wf, State.setWait_wf, State.changeVar_wf, State.wordFault_wf, State.slotFault_wf,
    State.changeSlot_wf, State.crewReport_wf, State.loseCopy_wf, State.engineFault_wf, State.lagDone_wf,
    State.lagLost_wf, State.send_wf, State.lagReport_wf, State.peerFails_wf]

theorem State.goOn_wf {s : State} (h : s.Wf) : (s.goOn).Wf := by
  grind [State.goOn, State.commitMore_wf, State.sendOwed_wf, State.collMore_wf, foldl_wf]

theorem answered_wf {s : State} {k op ops} (h : s.Wf) : Out.Wf (answered s k op ops) := by
  grind [answered, withPacket_wf, State.goOn_wf, State.deliver_wf, State.discard_wf]

theorem execFabErr_wf {s : State} {k} (h : s.Wf) : Out.Wf (execFabErr k s) := by
  grind [execFabErr, withPacket_wf, State.goOn_wf, State.failReq_wf]

theorem State.takeGrant_wf {s : State} {k v} (h : s.Wf) : (s.takeGrant k v).Wf := by
  grind [State.takeGrant, State.dropReq_wf, State.grantTo_wf, State.send_wf]

theorem execFabWgt_wf {s : State} {k} (h : s.Wf) : Out.Wf (execFabWgt k s) := by
  grind [execFabWgt, withPacket_wf, State.refuseWith_wf, State.answer_wf, State.addOut_wf, State.takeGrant_wf,
    State.discard_wf, State.subOut_wf]

theorem execFabDrop_wf {s : State} {k} (h : s.Wf) : Out.Wf (execFabDrop k s) := by
  grind [execFabDrop, withPacket_wf, State.send_wf]

theorem execFabRgnt_wf {s : State} {k} (h : s.Wf) : Out.Wf (execFabRgnt k s) := by
  grind [execFabRgnt, withPacket_wf, State.send_wf, State.Wf]

/-! ## Crews that leave and come back -/

theorem State.mapGangs_wf {s : State} {key f} (h : s.Wf) : (s.mapGangs key f).Wf := ⟨h.mem, h.tiers, h.scratch⟩

theorem execPreemptRequest_wf {s : State} {k} (h : s.Wf) : Out.Wf (execPreemptRequest k s) := by
  grind [execPreemptRequest, State.mapGangs_wf, State.setCrew_wf, Out.wf_next]

theorem State.abandonWait_wf {s : State} {g} (h : s.Wf) : (s.abandonWait g).Wf := by
  unfold State.abandonWait
  split
  · exact h
  next y _ =>
    have hu : (match y.sc.wait with
        | .barWait b true => match s.crew? y.crew with
          | none => s
          | some c => match c.bars[b]? with
            | none => s
            | some x => s.setCrew y.crew { c with bars := c.bars.set b { x with arrived := x.arrived - 1 } }
        | _ => s).Wf := by
      grind [State.setCrew_wf]
    exact State.setWait_wf ⟨hu.mem, hu.tiers, hu.scratch⟩

theorem State.quench_wf {s : State} {g} (h : s.Wf) : (s.quench g).Wf := by
  grind [State.quench, State.finishLanes_wf, State.abandonWait_wf, State.setGang_wf]

theorem State.crewAreaFault_wf {s : State} {key c} (h : s.Wf) : (s.crewAreaFault key c).Wf := State.report_wf h

theorem State.reprieve_wf {s : State} {key c} (h : s.Wf) : (s.reprieve key c).Wf := ⟨h.mem, h.tiers, h.scratch⟩

theorem execCrewKill_wf {s : State} {key} (h : s.Wf) : Out.Wf (execCrewKill key s) := by
  unfold execCrewKill
  split
  · exact h
  next c _ =>
    split
    · exact h
    · have hq : (c.live.foldl State.quench s).Wf := foldl_wf (fun _ _ hs => State.quench_wf hs) h
      refine Out.wf_ite h (Out.wf_ite (State.reprieve_wf h) ?_)
      dsimp only
      split
      · exact hq
      · split
        · exact State.crewAreaFault_wf hq
        next t e => exact State.leaveCore_wf (State.ctxWrites_wf hq e)

theorem State.loadBlock_wf {s t : State} {key w save gangs n} (h : s.Wf) (e : s.loadBlock key w save gangs n = .ok t) :
    t.Wf :=
  foldlM_wf (fun _ _ _ _ _ => by grind [State.setCrew_wf]) h e

theorem State.reviveGang_wf {s t : State} {a k b blk i g n} (h : s.Wf) (e : s.reviveGang a k b blk i g n = .ok t) :
    t.Wf := by
  grind [State.reviveGang, State.setGang_wf, State.enter_wf]

theorem State.reviveAll_wf {s t : State} {a k b blk l} (h : s.Wf) (e : s.reviveAll a k b blk l = .ok t) : t.Wf := by
  induction l generalizing s with
  | nil => exact Except.ok.inj e ▸ h
  | cons x l ih =>
    obtain ⟨g, i⟩ := x
    cases g with
    | none => exact ih h e
    | some g => grind [State.reviveAll, → State.reviveGang_wf]

theorem State.revive_wf {s t : State} {tag a g b} (h : s.Wf) (e : s.revive tag a g b = .ok t) : t.Wf := by
  have ha (l) : ({ s with away := l } : State).Wf := ⟨h.mem, h.tiers, h.scratch⟩
  unfold State.revive at e
  dsimp only at e
  split at e
  · cases e
  · split at e
    · cases e
    next u hu =>
      have hp {l k c cl a} : ((({ s with away := l } : State).setCrew k c).startPilot c.grid cl a).Wf :=
        State.startPilot_wf (State.setCrew_wf (ha l))
      exact State.reviveAll_wf (foldlM_wf (fun _ _ _ => State.loadBlock_wf) hp hu) e

theorem State.comeBack_wf {s : State} {tag a} (h : s.Wf) : (s.comeBack tag a).Wf := by
  grind [State.comeBack, → State.revive_wf, State.askPeer_wf, State.report_wf, State.dropPeer_wf, State.Wf]

theorem execCrewRestore_wf {s : State} {c} (h : s.Wf) : Out.Wf (execCrewRestore c s) := by
  grind [execCrewRestore, State.comeBack_wf, Out.wf_next]

theorem execKilledCrewRestore_wf {s : State} {c} (h : s.Wf) : Out.Wf (execKilledCrewRestore c s) := by
  unfold execKilledCrewRestore
  split
  · exact h
  · refine Out.wf_ite h (Out.wf_ite (State.report_wf h) (Out.wf_ite h ?_))
    split
    · exact State.comeBack_wf h
    · split
      · exact h
      next pa _ =>
        have ht : (s.atHome (s.plainAt pa)).Wf := State.atHome_wf h
        dsimp only
        split
        · exact State.comeBack_wf ⟨ht.mem, ht.tiers, ht.scratch⟩
        · exact State.report_wf ⟨ht.mem, ht.tiers, ht.scratch⟩
        · exact h

/-! ## The kill of a grid -/

theorem State.forget_wf {s : State} {a mine} (h : s.Wf) : (s.forget a mine).Wf := ⟨h.mem, h.tiers, h.scratch⟩

theorem State.killGang_wf {s : State} {key g} (h : s.Wf) : (s.killGang key g).Wf := by
  grind [State.killGang, State.dropGang_wf, State.forget_wf, State.setCrew_wf]

theorem State.endCrew_wf {s : State} {key c} (h : s.Wf) : (s.endCrew key c).Wf := by
  grind [State.endCrew, State.killGang_wf, State.setCrew_wf, foldl_wf]

theorem State.countRetired_wf {s : State} {k n} (h : s.Wf) : (s.countRetired k n).Wf := by
  grind [State.countRetired, State.setGrid_wf]

theorem State.closeStamps_wf {s : State} {y} (h : s.Wf) : (s.closeStamps y).Wf := ⟨h.mem, h.tiers, h.scratch⟩

theorem State.endAway_wf {s : State} {tag a} (h : s.Wf) : (s.endAway tag a).Wf := by
  grind [State.endAway, State.returnWeight_wf, State.closeStamps_wf, State.countRetired_wf, State.Wf]

theorem State.endUnplaced_wf {s : State} {k g} (h : s.Wf) : (s.endUnplaced k g).Wf :=
  State.returnWeight_wf (State.setGrid_wf h)

theorem State.endPilots_wf {s : State} {k} (h : s.Wf) : (s.endPilots k).Wf := by
  grind [State.endPilots, State.forget_wf, State.setCore_wf, foldl_wf, State.Wf]

theorem State.killGrid_wf {s : State} {k} (h : s.Wf) : (s.killGrid k).Wf := by
  grind [State.killGrid, State.setGrid_wf, State.endCrew_wf, State.endAway_wf, State.endUnplaced_wf, State.endPilots_wf,
    foldl_wf, State.Wf]

theorem State.killId_wf {s : State} {id} (h : s.Wf) : (s.killId id).Wf := by
  grind [State.killId, State.killGrid_wf, foldl_wf]

/-! ## Requests at the home slices -/

theorem State.serve_wf {s : State} {k n f} (h : s.Wf) (hf : ∀ t, t.Wf → (f t).Wf) : (s.serve k n f).Wf := by
  unfold State.serve
  split
  · exact State.refuseWith_wf h
  · exact hf _ (State.atHome_wf h)

theorem State.servePoison_wf {s : State} {k n} (h : s.Wf) : (s.servePoison k n).Wf := by
  grind [State.servePoison, State.report_wf]

theorem State.watch_wf {s : State} {l pkg} (h : s.Wf) : (s.watch l pkg).Wf := by
  grind [State.watch, State.Wf]

theorem execFabRd_wf {s : State} {k} (h : s.Wf) : Out.Wf (execFabRd k s) := by
  grind [execFabRd, withPacket_wf, State.refuseWith_wf, State.discard_wf, State.serve_wf, State.servePoison_wf,
    State.answer_wf, State.watch_wf]

theorem execFabWr_wf {s : State} {k} (h : s.Wf) : Out.Wf (execFabWr k s) := by
  grind [execFabWr, withPacket_wf, State.refuseWith_wf, State.discard_wf, State.serve_wf, State.answer_wf,
    State.writePa_wf, foldl_wf]

theorem State.doEntries_wf {s : State} {k n f l} (h : s.Wf) : (s.doEntries k n f l).2.Wf := by
  induction l generalizing s k n f with
  | nil => grind [State.doEntries, State.writePa_wf]
  | cons x l ih => grind [State.doEntries, State.writePa_wf]

theorem State.serveAtomics_wf {s : State} {k olds compares f} (h : s.Wf) : (s.serveAtomics k olds compares f).Wf := by
  have hd : (s.discard.refuseWith k 0xFF).Wf := State.refuseWith_wf (State.discard_wf h)
  unfold State.serveAtomics
  dsimp only
  split
  next f n _ =>
    refine State.wf_ite hd (State.serve_wf h fun t ht => ?_)
    have hp : ((atmEntries 40 k.payload).foldl (fun s e => s.servePoison { k with pa := k.pa + e.off } n) t).Wf :=
      foldl_wf (fun _ _ hs => State.servePoison_wf hs) ht
    exact State.wf_ite (State.answer_wf (State.doEntries_wf hp)) (State.answer_wf (State.doEntries_wf hp))
  · exact hd

theorem State.farArrival_wf {s : State} {k} (h : s.Wf) : (s.farArrival k).Wf := by
  grind [State.farArrival, State.refuseWith_wf, State.serve_wf, State.countArrival_wf]

theorem State.farLag_wf {s : State} {k} (h : s.Wf) : (s.farLag k).Wf := by
  grind [State.farLag, State.refuseWith_wf, State.setLag_wf, State.answer_wf]

theorem State.serveSwap_wf {s : State} {k} (h : s.Wf) : (s.serveSwap k).Wf := by
  grind [State.serveSwap, State.refuseWith_wf, State.discard_wf, State.serve_wf, State.servePoison_wf,
    State.doEntries_wf, State.answer_wf, foldl_wf]

theorem execFabAtm_wf {s : State} {k} (h : s.Wf) : Out.Wf (execFabAtm k s) := by
  grind [execFabAtm, withPacket_wf, State.farArrival_wf, State.farLag_wf, State.serveSwap_wf, State.serveAtomics_wf]

theorem State.takeBulk_wf {s : State} {k} (h : s.Wf) : (s.takeBulk k).Wf := by
  grind [State.takeBulk, State.serve_wf, State.atHome_wf, State.writePa_wf, State.answer_wf, foldl_wf]

theorem execFabBlk_wf {s : State} {k} (h : s.Wf) : Out.Wf (execFabBlk k s) := by
  grind [execFabBlk, withPacket_wf, State.takeBulk_wf, State.setPort_wf, State.free_wf, State.answer_wf]

theorem execFabResv_wf {s : State} {k} (h : s.Wf) : Out.Wf (execFabResv k s) := by
  grind [execFabResv, withPacket_wf, State.answer_wf, State.setPort_wf]

end Sys2Proof.Machine
end

section
/-!
What links, memory events, the host, starts and the switches keep.
-/

namespace Sys2Proof.Machine

/-! ## Links -/

theorem State.handOn_wf {s : State} {p} (h : s.Wf) : (s.handOn p).Wf := by
  grind [State.handOn, State.refuseWith_wf, State.discard_wf, State.Wf]

theorem State.handEarly_wf {s : State} {src l} (h : s.Wf) : (s.handEarly src l).Wf := by
  induction l generalizing s src with
  | zero => grind [State.handEarly, State.setStream_wf, State.handOn_wf]
  | succ l ih => grind [State.handEarly, State.setStream_wf, State.handOn_wf]

theorem State.handStream_wf {s : State} {src} (h : s.Wf) : (s.handStream src).Wf := State.handEarly_wf h

theorem State.arriveAt_wf {s : State} {p} (h : s.Wf) : (s.arriveAt p).Wf := by
  grind [State.arriveAt, State.handOn_wf, State.handStream_wf, State.setStream_wf]

theorem State.sendFrame_wf {s : State} {n kind ws} (h : s.Wf) : (s.sendFrame n kind ws).Wf := by
  grind [State.sendFrame, State.emitFrame_wf]

theorem State.askKeys_wf {s : State} {n} (h : s.Wf) : (s.askKeys n).Wf := State.report_wf h

theorem State.reroute_wf {s : State} {n} (h : s.Wf) : (s.reroute n).Wf := by
  grind [State.reroute, State.sendAt_wf, State.setPort_wf, foldl_wf]

theorem State.bringUp_wf {s : State} {n} (h : s.Wf) : (s.bringUp n).Wf :=
  State.flush_wf (State.askKeys_wf (State.setPort_wf h))

theorem State.retrain_wf {s : State} {n} (h : s.Wf) : (s.retrain n).Wf := by
  grind [State.retrain, State.bringUp_wf, State.reroute_wf, State.setPort_wf]

theorem execLinkBringup_wf {s : State} {p} (h : s.Wf) : Out.Wf (execLinkBringup p s) := by
  grind [execLinkBringup, State.bringUp_wf, Out.wf_next]

theorem State.losePacket_wf {s : State} {p} (h : s.Wf) : (s.losePacket p).Wf := by
  grind [State.losePacket, State.handStream_wf, State.setStream_wf, State.goOn_wf, State.failReq_wf]

theorem State.loseAll_wf {s : State} {ps} (h : s.Wf) : (s.loseAll ps).Wf := by
  grind [State.loseAll, State.losePacket_wf, foldl_wf, State.Wf]

theorem State.failFrame_wf {s : State} {n f} (h : s.Wf) : (s.failFrame n f).Wf := by
  grind [State.failFrame, State.sendFrame_wf, State.setPort_wf, State.retrain_wf, State.loseAll_wf]

theorem State.resend_wf {s : State} {n fctr} (h : s.Wf) : (s.resend n fctr).Wf := by
  grind [State.resend, State.setPort_wf, State.retrain_wf, State.loseAll_wf]

theorem State.takeTotals_wf {s : State} {n sent freed} (h : s.Wf) : (s.takeTotals n sent freed).Wf :=
  State.flush_wf (State.setPort_wf h)

theorem execTotalsFrameTimer_wf {s : State} {p} (h : s.Wf) : Out.Wf (execTotalsFrameTimer p s) := by
  grind [execTotalsFrameTimer, State.sendFrame_wf, Out.wf_next]

theorem State.takeFrame_wf {s : State} {n f} (h : s.Wf) : (s.takeFrame n f).Wf := by
  grind [State.takeFrame, State.setPort_wf, State.arriveAt_wf, State.takeTotals_wf, State.resend_wf, foldl_wf, State.Wf]

theorem execFrameReceive_wf {s : State} {p f} (h : s.Wf) : Out.Wf (execFrameReceive p f s) := by
  grind [execFrameReceive, State.takeFrame_wf, State.failFrame_wf, Out.wf_next]

theorem execTotalsFrameReceive_wf {s : State} {p rcvd freed} (h : s.Wf) :
    Out.Wf (execTotalsFrameReceive p rcvd freed s) := by
  grind [execTotalsFrameReceive, State.takeTotals_wf, State.setPort_wf, Out.wf_next]

theorem execRetryRequestReceive_wf {s : State} {p n} (h : s.Wf) : Out.Wf (execRetryRequestReceive p n s) := by
  grind [execRetryRequestReceive, State.resend_wf, State.setPort_wf, Out.wf_next]

/-! ## Events of memory and translation -/

theorem execTunMerge_wf {s : State} {i} (h : s.Wf) : Out.Wf (execTunMerge i s) := by
  grind [execTunMerge, State.mergeTun_wf, State.Wf, Out.wf_next]

theorem execTunEviction_wf {s : State} {l} (h : s.Wf) : Out.Wf (execTunEviction l s) := by
  grind [execTunEviction, State.evict_wf, Out.wf_next]

theorem execLineEviction_wf {s : State} {l} (h : s.Wf) : Out.Wf (execLineEviction l s) := by
  grind [execLineEviction, State.evict_wf, Out.wf_next]

theorem State.poisonL1_wf {s : State} {core g} (h : s.Wf) : (s.poisonL1 core g).Wf := by
  grind [State.poisonL1, State.setCore_wf]

theorem execEccError_wf {s : State} {granule hard} (h : s.Wf) : Out.Wf (execEccError granule hard s) := by
  grind [execEccError, State.poisonL1_wf, State.Wf, Out.wf_next]

theorem State.keepNodes_wf {s : State} {die asid va} (h : s.Wf) : (s.keepNodes die asid va).Wf :=
  State.free_wf (State.setDie_wf h)

theorem execPageWalk_wf {s : State} {die asid va} (h : s.Wf) : Out.Wf (execPageWalk die asid va s) := by
  grind [execPageWalk, State.keepNodes_wf, State.free_wf, State.setDie_wf, State.setCore_wf, foldl_wf, Out.wf_next]

theorem State.queueXcmd_wf {s : State} {kind asid n} (h : s.Wf) : (s.queueXcmd kind asid n).Wf :=
  ⟨h.mem, h.tiers, h.scratch⟩

theorem execInvalidationComplete_wf {s : State} (h : s.Wf) : Out.Wf (execInvalidationComplete s) := by
  grind [execInvalidationComplete, State.drainTun_wf, State.Wf, Out.wf_next]

/-! ## The host and the registers -/

theorem State.hostWrite_wf {s : State} {key bs l} (h : s.Wf) : (s.hostWrite key bs l).Wf := by
  induction l generalizing s key bs with
  | nil => grind [State.hostWrite, State.writePa_wf, State.atHome_wf, State.discard_wf]
  | cons x l ih => grind [State.hostWrite, State.writePa_wf, State.atHome_wf, State.discard_wf]

theorem State.hostRead_wf {s : State} {key l} (h : s.Wf) : (s.hostRead key l).2.Wf := by
  induction l generalizing s key with
  | nil => grind [State.hostRead, State.atHome_wf, State.report_wf, State.discard_wf]
  | cons x l ih => grind [State.hostRead, State.atHome_wf, State.report_wf, State.discard_wf]

theorem State.returned_wf {s : State} {bs} (h : s.Wf) : (s.returned bs).Wf := ⟨h.mem, h.tiers, h.scratch⟩

theorem State.hostMemory_wf {s : State} {r} (h : s.Wf) : (s.hostMemory r).Wf := by
  grind [State.hostMemory, State.hostWrite_wf, State.hostRead_wf, State.returned_wf]

theorem State.lockFeatures_wf {s : State} (h : s.Wf) : (s.lockFeatures).Wf := by
  grind [State.lockFeatures, State.Wf]

theorem State.clearMask_wf {s : State} {n v} (h : s.Wf) : (s.clearMask n v).Wf := ⟨h.mem, h.tiers, h.scratch⟩

theorem State.keyCommand_wf {s : State} {kop kid} (h : s.Wf) : (s.keyCommand kop kid).Wf := ⟨h.mem, h.tiers, h.scratch⟩

theorem State.removeKey_wf {s : State} {kid} (h : s.Wf) : (s.removeKey kid).Wf := by
  grind [State.removeKey, State.writeBack_wf, State.drainTun_wf, foldl_wf, State.Wf]

theorem execKeyCommandComplete_wf {s : State} (h : s.Wf) : Out.Wf (execKeyCommandComplete s) := by
  grind [execKeyCommandComplete, State.removeKey_wf, State.Wf, Out.wf_next]

theorem State.loadLink_wf {s : State} {p v} (h : s.Wf) : (s.loadLink p v).Wf := State.setPort_wf h

theorem State.requestReport_wf {s : State} {v} (h : s.Wf) : (s.requestReport v).Wf := by
  grind [State.requestReport, State.Wf]

theorem execAttestReportDone_wf {s : State} (h : s.Wf) : Out.Wf (execAttestReportDone s) := by
  have hb : (s.freeBytes signatureBytes).2.Wf := State.freeBytes_wf h
  cases hp : s.harbour.attest.pending with
  | none =>
    rw [execAttestReportDone, hp]
    exact h
  | some n =>
    rw [execAttestReportDone, hp]
    cases e : s.freeBytes signatureBytes with
    | mk sig t =>
      rw [e] at hb
      exact ⟨hb.mem, hb.tiers, hb.scratch⟩

theorem execMailboxPost_wf {s : State} (h : s.Wf) : Out.Wf (execMailboxPost s) := by
  grind [execMailboxPost, State.Wf, Out.wf_next]

/-! ## Starts, islands and power -/

theorem State.planIsland_wf {s : State} {n} (h : s.Wf) : (s.planIsland n).Wf := ⟨h.mem, h.tiers, h.scratch⟩

theorem State.planAll_wf {s : State} (h : s.Wf) : (s.planAll).Wf := by
  grind [State.planAll, State.planIsland_wf, foldl_wf, State.Wf]

theorem execMarginReplan_wf {s : State} (h : s.Wf) : Out.Wf (execMarginReplan s) := by
  grind [execMarginReplan, State.planAll_wf, Out.wf_next]

theorem State.setIsland_wf {s : State} {n f} (h : s.Wf) : (s.setIsland n f).Wf := ⟨h.mem, h.tiers, h.scratch⟩

theorem execPowerWindowTimer_wf {s : State} {watts} (h : s.Wf) : Out.Wf (execPowerWindowTimer watts s) := by
  grind [execPowerWindowTimer, State.setIsland_wf, State.Wf, Out.wf_next]

theorem State.putPcap_wf {s : State} {v} (h : s.Wf) : (s.putPcap v).Wf := ⟨h.mem, h.tiers, h.scratch⟩

theorem State.gateAll_wf {s : State} {on} (h : s.Wf) : (s.gateAll on).Wf := by
  grind [State.gateAll, State.setIsland_wf, foldl_wf, State.Wf]

theorem execCoolantExcursion_wf {s : State} (h : s.Wf) : Out.Wf (execCoolantExcursion s) := by
  grind [execCoolantExcursion, State.report_wf, State.gateAll_wf, Out.wf_next]

theorem execCoolantRestored_wf {s : State} (h : s.Wf) : Out.Wf (execCoolantRestored s) := by
  grind [execCoolantRestored, State.gateAll_wf, Out.wf_next]

theorem State.lowerPlanned_wf {s : State} {b} (h : s.Wf) : (s.lowerPlanned b).Wf :=
  foldl_wf (fun _ _ hs => State.setIsland_wf hs) h

theorem State.started_wf {s : State} {b} : (s.started b).Wf :=
  State.lowerPlanned_wf (State.planAll_wf ⟨rfl, rfl, rfl⟩)

theorem State.boot_wf {s : State} : s.boot.Wf := State.started_wf

theorem execPowerOnReset_wf {s : State} : Out.Wf (execPowerOnReset s) := State.boot_wf

theorem execI3cReset_wf {s : State} : Out.Wf (execI3cReset s) := State.boot_wf

theorem execWatchdogReset_wf {s : State} : Out.Wf (execWatchdogReset s) := by
  unfold execWatchdogReset
  exact Out.wf_ite State.boot_wf State.boot_wf

/-! ## The apertures -/

theorem State.writeXlat_wf {s : State} {o v} (h : s.Wf) : (s.writeXlat o v).Wf := by
  have hx (l) : ({ s with xlat := l } : State).Wf := ⟨h.mem, h.tiers, h.scratch⟩
  unfold State.writeXlat
  split
  case h_6 => exact State.queueXcmd_wf h
  case h_7 => exact h
  all_goals exact hx _

theorem State.writeLaunch_wf {s : State} {o v} (h : s.Wf) : (s.writeLaunch o v).Wf := by
  grind [State.writeLaunch, State.clearMask_wf, State.Wf]

theorem State.writeGen_wf {s : State} {d o v} (h : s.Wf) : (s.writeGen d o v).Wf := by
  unfold State.writeGen
  split
  · exact State.setDie_wf h
  · exact State.setDie_wf h
  · exact h

theorem State.writeLink_wf {s : State} {p o v} (h : s.Wf) : (s.writeLink p o v).Wf := by
  grind [State.writeLink, State.setPort_wf, State.loadLink_wf]

theorem State.writeKey_wf {s : State} {o v} (h : s.Wf) : (s.writeKey o v).Wf := by
  grind [State.writeKey, State.keyCommand_wf, State.Wf]

theorem State.writeHkey_wf {s : State} {link v} (h : s.Wf) : (s.writeHkey link v).Wf := ⟨h.mem, h.tiers, h.scratch⟩

theorem State.writeFacc_wf {s : State} {n v} (h : s.Wf) : (s.writeFacc n v).Wf := by
  grind [State.writeFacc, State.Wf]

theorem State.writeNonce_wf {s : State} {o v} (h : s.Wf) : (s.writeNonce o v).Wf := ⟨h.mem, h.tiers, h.scratch⟩

theorem State.writeMhead_wf {s : State} {v} (h : s.Wf) : (s.writeMhead v).Wf := ⟨h.mem, h.tiers, h.scratch⟩

theorem State.writeRegister_wf {s : State} {link o v} (h : s.Wf) : (s.writeRegister link o v).Wf := by
  unfold State.writeRegister
  refine State.wf_ite h (State.wf_ite (State.writeHkey_wf h) ?_)
  refine State.wf_dite (fun _ => State.writeFacc_wf h) fun _ => ?_
  refine State.wf_ite (State.wf_ite (State.lockFeatures_wf h) h) ?_
  refine State.wf_ite (State.writeXlat_wf h) (State.wf_ite (State.writeLaunch_wf h) ?_)
  refine State.wf_ite (State.writeGen_wf h) (State.wf_ite (State.writeKey_wf h) ?_)
  refine State.wf_ite (State.writeLink_wf h) (State.wf_ite (State.killId_wf h) ?_)
  refine State.wf_ite (State.writeMhead_wf h) (State.wf_ite (State.putPcap_wf h) ?_)
  exact State.wf_ite (State.writeNonce_wf h) (State.wf_ite (State.requestReport_wf h) h)

theorem State.linkWrite_wf {s : State} {link o v} (h : s.Wf) : (s.linkWrite link o v).Wf := by
  grind [State.linkWrite, State.writeRegister_wf]

theorem State.readI3c_wf {s : State} {o} (h : s.Wf) : (s.readI3c o).Wf := State.returned_wf h

theorem execRegisterWrite_wf {s : State} {off v} (h : s.Wf) : Out.Wf (execRegisterWrite off v s) := by
  grind [execRegisterWrite, State.linkWrite_wf, State.readI3c_wf, Out.wf_next]

theorem State.hostControl_wf {s : State} {r} (h : s.Wf) : (s.hostControl r).Wf := by
  grind [State.hostControl, State.writeRegister_wf, State.returned_wf]

theorem execHostMemoryAccess_wf {s : State} {r} (h : s.Wf) : Out.Wf (execHostMemoryAccess r s) := by
  grind [execHostMemoryAccess, State.hostControl_wf, State.hostMemory_wf, Out.wf_next]

/-! ## Collectives at the switches -/

theorem execXcol_wf {s : State} {a} (h : s.Wf) : Out.Wf (execXcol a s) := by
  refine scalar_wf h fun i c => ?_
  simp only [Act.wf_bind]
  refine aligned_wf (State.settle_wf h fun t ht => State.scalarRead_wf ht fun bs u hu => require_wf fun _ => ?_)
  split
  · exact hu
  · rw [Act.wf_bind]
    exact State.releaseFor_wf hu fun v hv => State.next_wf (State.collRun_wf hv)

theorem State.putSlot_wf {s : State} {x} (h : s.Wf) : (s.putSlot x).Wf := ⟨h.mem, h.tiers, h.scratch⟩

theorem State.toMember_wf {s : State} {x op m c r} (h : s.Wf) :
    (s.toMember x op m c r).Wf := ⟨h.mem, h.tiers, h.scratch⟩

theorem State.closedTo_wf {s : State} {x m c r} (h : s.Wf) : (s.closedTo x m c r).Wf := State.toMember_wf h

theorem State.leafResult_wf {s : State} {x c r combined} (h : s.Wf) : (s.leafResult x c r combined).Wf := by
  grind [State.leafResult, State.putSlot_wf, State.toMember_wf, State.closedTo_wf, foldl_wf]

theorem State.topResult_wf {s : State} {x c} (h : s.Wf) : (s.topResult x c).Wf := by
  grind [State.topResult, State.leafResult_wf, State.putSlot_wf, foldl_wf]

theorem State.forward_wf {s : State} {x c} (h : s.Wf) : (s.forward x c).Wf := by
  grind [State.forward, State.putSlot_wf, State.Wf]

theorem State.endChunk_wf {s : State} {x c} (h : s.Wf) : (s.endChunk x c).Wf := by
  grind [State.endChunk, State.topResult_wf, State.forward_wf, State.Wf]

theorem State.refuseChunk_wf {s : State} {x k c r} (h : s.Wf) : (s.refuseChunk x k c r).Wf := by
  grind [State.refuseChunk, State.closedTo_wf, State.leafResult_wf, foldl_wf]

theorem State.closeSlot_wf {s : State} {x} (h : s.Wf) : (s.closeSlot x).Wf := by
  grind [State.closeSlot, State.endChunk_wf, State.putSlot_wf, foldl_wf]

theorem State.atSlot_wf {s t : State} {x k c} (h : s.Wf) (e : s.atSlot x k c = some t) : t.Wf := by
  grind [State.atSlot, State.refuseChunk_wf, State.putSlot_wf, State.endChunk_wf, State.Wf]

theorem State.heard_wf {s : State} {k} (h : s.Wf) : (s.heard k).Wf := ⟨h.mem, h.tiers, h.scratch⟩

theorem State.intoSlot_wf {s t : State} {x k c} (h : s.Wf) (e : s.intoSlot x k c = some t) : t.Wf := by
  grind [State.intoSlot, State.heard_wf, State.closeSlot_wf, → State.atSlot_wf]

theorem State.takeCtb_wf {s t : State} {k} (h : s.Wf) (e : s.takeCtb k = some t) : t.Wf := by
  grind [State.takeCtb, State.Wf]

theorem State.openSlot_wf {s t : State} {k} {b₁} (h : s.Wf) (e : s.openSlot k = some (b₁, t)) : t.Wf := by
  grind [State.openSlot, State.fresh_wf, State.Wf]

theorem execFabCtb_wf {s : State} {k} (h : s.Wf) : Out.Wf (execFabCtb k s) := by
  unfold execFabCtb
  split
  · exact h
  next t e =>
    have ht : t.Wf := State.takeCtb_wf h e
    have getD {r : Option State} (hr : ∀ u, r = some u → u.Wf) : (r.getD s).Wf := by
      cases r with
      | none => exact h
      | some u => exact hr u rfl
    refine getD fun u hu => ?_
    split at hu
    · exact State.intoSlot_wf ht hu
    · split at hu
      · grind [State.refuseChunk_wf, State.heard_wf]
      next x v e => exact State.intoSlot_wf (State.openSlot_wf ht e) hu

theorem execCollectiveSlotTimeout_wf {s : State} {slot} (h : s.Wf) : Out.Wf (execCollectiveSlotTimeout slot s) := by
  grind [execCollectiveSlotTimeout, State.closeSlot_wf, Out.wf_next]

theorem execCollectiveSlotFree_wf {s : State} {slot} (h : s.Wf) : Out.Wf (execCollectiveSlotFree slot s) := by
  grind [execCollectiveSlotFree, State.closedTo_wf, foldl_wf, State.Wf, Out.wf_next]

theorem State.answerChunk_wf {s : State} {k} (h : s.Wf) : (s.answerChunk k).Wf := by
  grind [State.answerChunk, State.collRun_wf, State.Wf]

end Sys2Proof.Machine
end

section
/-!
What the remaining lane and scalar instructions keep.
-/

namespace Sys2Proof.Machine

/-! ## Floating-point words -/

theorem laneElems_wf {s : State} {i p d f} (h : s.Wf) : Out.Wf (laneElems s i p d f) := lane32_wf h

theorem laneSpecial_wf {s : State} {i d a f} (h : s.Wf) : Out.Wf (laneSpecial s i d a f) := lane32_wf h

/-! ## Integer words -/

theorem laneExact_wf {s : State} {i t sat d f} (h : s.Wf) : Out.Wf (laneExact s i t sat d f) := laneFix_wf h

theorem laneShift_wf {s : State} {i ty d a b f} (h : s.Wf) : Out.Wf (laneShift s i ty d a b f) := laneFix_wf h

/-! ## Conversions -/

theorem qpack_wf {s : State} {i mb m d a c} (h : s.Wf) : Out.Wf (qpack s i mb m d a c) := laneFix_wf h

theorem qunpack_wf {s : State} {i mb k bsel d a c} (h : s.Wf) : Out.Wf (qunpack s i mb k bsel d a c) := lane32_wf h

theorem bxdot_wf {s : State} {i mb rm bsa bsb d a b c} (h : s.Wf) : Out.Wf (bxdot s i mb rm bsa bsb d a b c) :=
  lane32_wf h

/-! ## Scalar arithmetic -/

theorem scalarCmp_wf {s : State} {cc n k f} (h : s.Wf) : Out.Wf (scalarCmp s cc n k f) :=
  scalar_wf h fun _ _ => State.next_wf (State.putK_wf h)

/-! ## Scalar control and dispatch -/

theorem execSbk_wf {s : State} {k sense off} (h : s.Wf) : Out.Wf (execSbk k sense off s) := by
  refine scalar_wf h fun a c => ?_
  grind [State.jump_wf, State.next_wf, Act.wf_ok]

theorem execScall_wf {s : State} {off} (h : s.Wf) : Out.Wf (execScall off s) := by
  refine scalar_wf h fun a c => ?_
  grind [State.jump_wf, State.putS_wf]

theorem execSret_wf {s : State} {a} (h : s.Wf) : Out.Wf (execSret a s) := by
  grind [execSret, scalar_wf, State.jump_wf]

theorem execSjmpr_wf {s : State} {a} (h : s.Wf) : Out.Wf (execSjmpr a s) := by
  grind [execSjmpr, scalar_wf, State.jump_wf]

theorem execSjmprL_wf {s : State} {d a} (h : s.Wf) : Out.Wf (execSjmprL d a s) := by
  refine scalar_wf h fun i c => ?_
  grind [State.jump_wf, State.putS_wf, State.interlock_wf, Act.wf_bind]

theorem execSloop_wf {s : State} {a n} (h : s.Wf) : Out.Wf (execSloop a n s) := by
  refine scalar_wf h fun i c => ?_
  grind [State.next_wf, State.setGang_wf, Act.wf_ok, Act.wf_wait]

theorem State.endGang_wf {s : State} {g} (h : s.Wf) : (s.endGang g).Wf := by
  grind [State.endGang, State.dropGang_wf, State.lastPark_wf, State.setCrew_wf]

theorem execSexit_wf {s : State} (h : s.Wf) : Out.Wf (execSexit s) := by
  refine scalar_wf h fun a _ => ?_
  grind [State.settle_wf, State.endGang_wf, State.Wf, Act.wf_bind, Act.wf_ok]

theorem execSnop_wf {s : State} (h : s.Wf) : Out.Wf (execSnop s) :=
  scalar_wf h fun _ _ => State.next_wf h

theorem State.dispatch_wf {s : State} {g target} {Q} (h : s.Wf) (hQ : ∀ t, t.Wf → Q t) :
    (s.dispatch g target).Wf Q := by
  unfold State.dispatch
  split
  · simp only [Act.wf_bind]
    refine require_wf fun _ => require_wf fun _ => ?_
    split
    · simp only [Act.wf_bind]
      exact require_wf fun _ => waitFor_wf h (hQ _ (State.setGang_wf h))
    · simp only [Act.wf_bind]
      exact waitFor_wf h (hQ _ (State.setGang_wf h))
  · exact hQ _ h

theorem scalarDispatch_wf {s : State} {target} (h : s.Wf) : Out.Wf (scalarDispatch s target) := by
  refine scalar_wf h fun a c => ?_
  grind [State.dispatch_wf, State.next_wf, Act.wf_bind, Act.wf_ok]

theorem execLsync_wf {s : State} (h : s.Wf) : Out.Wf (execLsync s) := by
  refine scalar_wf h fun a c => ?_
  grind [State.settle_wf, State.next_wf, Act.wf_bind, Act.wf_ok]

theorem execSlrd_wf {s : State} {d n l0} (h : s.Wf) : Out.Wf (execSlrd d n l0 s) := by
  refine scalar_wf h fun a c => ?_
  split
  · exact h
  · simp only [Act.wf_bind]
    refine State.settle_wf h fun t ht => State.interlock_wf ht ?_
    split
    next u e => exact State.fillGranule_error_wf ht e
    next u e => exact Act.wf_ite trivial (State.finish_wf (State.fillGranule_ok_wf ht e))

/-! ## Control registers, traps and handlers -/

theorem State.usedFree_wf {s : State} {i n} (h : s.Wf) : (s.usedFree i n).Wf := by
  cases i with
  | gang g => exact h
  | pilot cl => exact State.wf_ite ⟨h.mem, h.tiers, h.scratch⟩ h

theorem execCsrr_wf {s : State} {n d} (h : s.Wf) : Out.Wf (execCsrr n d s) := by
  refine scalar_wf h fun i c => ?_
  grind [State.finish_wf, State.usedFree_wf, State.interlock_wf, Act.wf_bind, Act.wf_ok, Act.wf_raise]

theorem execCsrw_wf {s : State} {n a} (h : s.Wf) : Out.Wf (execCsrw n a s) := by
  refine scalar_wf h fun i c => ?_
  have bindAs (hi : Bool) : Act.Wf State.Wf (match i, s.issuerCrew i with
      | .gang g, some (_, w) => do
        s.csrWait i
        require (!(leBytes 8 (c.get a).toNat).any (badBinding w.part.acc)) .queueMap
        match s.gang? g with
        | none => .ok s
        | some y => .ok ((s.setGang g (y.bind hi (c.get a))).next i c.pc 4)
      | _, _ => raise { code := .illegalOp }) := by
    split
    · simp only [Act.wf_bind]
      refine State.csrWait_wf h (require_wf fun _ => ?_)
      split
      · exact h
      · exact State.next_wf (State.setGang_wf h)
    · trivial
  dsimp only
  split
  · rw [Act.wf_bind]
    refine State.csrWait_wf h (State.next_wf ?_)
    grind [State.setGang_wf, State.setPilot_wf]
  · exact bindAs false
  · exact bindAs true
  · split
    · trivial
    · exact State.next_wf h

theorem execTrap_wf {s : State} {n} (h : s.Wf) : Out.Wf (execTrap n s) := by
  refine scalar_wf h fun i c => ?_
  grind [State.takeTrap_wf, Act.wf_ok, Act.wf_wait]

theorem State.again_wf {s : State} {g id slot index ops} (h : s.Wf) : (s.again g id slot index ops).st.Wf := by
  have hs {y : Gang} {l : List (Fin 32 × MemOp)} {x : Held} :
      (if l.isEmpty then s else s.setGang g { y with held := y.held ++ [x] }).Wf :=
    State.wf_ite h (State.setGang_wf h)
  refine State.performWhole_wf ?_
  split
  · exact hs
  · exact h

theorem State.redoWord_wf {s : State} {g v} (h : s.Wf) : (s.redoWord g v).Wf := by
  grind [State.redoWord, State.pushTrace_wf, State.completeVar_wf, State.setGang_wf, State.goRays_wf]

theorem State.park_wf {s : State} {g n} (h : s.Wf) : (s.park g n).Wf := by
  grind [State.park, State.setGang_wf, State.lastPark_wf, State.restoreInPlace_wf]

theorem State.setOwes_wf {s : State} {g l} (h : s.Wf) : (s.setOwes g l).Wf := by
  grind [State.setOwes, State.setGang_wf]

theorem State.trapAgain_wf {s : State} {g bs slot t} (h : s.Wf) : (s.trapAgain g bs slot t).Wf := by
  grind [State.trapAgain, State.setOwes_wf, State.leave_wf, State.addLate_wf, → State.demandStop_wf, State.takeTrap_wf]

theorem State.retry_wf {s : State} {g slot index nmask} (h : s.Wf) : (s.retry g slot index nmask).st.Wf := by
  unfold State.retry
  split
  · exact h
  next y _ =>
    split
    · exact h
    · split
      · exact State.finishLanes_wf h
      · have hw {w r sc o v id ops l} :
            (((s.fresh.2.again g id slot index ops).st.sendFar w r sc o l).st.redoWord g v).Wf :=
          State.redoWord_wf (State.sendFar_wf (State.again_wf (State.fresh_wf h)))
        dsimp only
        rw [apply_ite Retry.st]
        refine State.wf_ite ?_ ?_
        all_goals
          dsimp only
          split
          · exact hw
          · exact State.setGang_wf hw

theorem execEret_wf {s : State} (h : s.Wf) : Out.Wf (execEret s) := by
  refine scalar_wf h fun i c => ?_
  split
  · trivial
  · split
    · exact Act.wf_ite h (State.park_wf h)
    · exact h
  · split
    · exact State.askPeer_wf h
    · exact State.areaFault_wf h
    · have hl {u : State} {bs} (hu : u.Wf) : ((u.leave i bs).dropPeer (.ctx i)).Wf :=
        State.dropPeer_wf (State.leave_wf hu)
      split
      · exact hl h
      next bs _ g _ =>
        have hr {r : Retry} {slot} (hr : r.st.Wf) : Act.Wf State.Wf (match r.trap with
            | some t => .ok ((r.st.trapAgain g bs slot t).dropPeer (.ctx (.gang g)))
            | none =>
              if r.wait then .error (.wait r.st) else .ok ((r.st.leave (.gang g) bs).dropPeer (.ctx (.gang g)))) := by
          split
          · exact State.dropPeer_wf (State.trapAgain_wf hr)
          · exact Act.wf_ite hr (hl hr)
        exact Act.wf_ite (hr (State.retry_wf h)) (hl h)

theorem State.takeSave_wf {s : State} {i c n k off} (h : s.Wf) : (s.takeSave i c n k off).Wf := by
  grind [State.takeSave, → State.ctxStore_wf, State.areaFault_wf, State.enter_wf]

theorem execSpchk_wf {s : State} {n} (h : s.Wf) : Out.Wf (execSpchk n s) := by
  refine scalar_wf h fun i c => ?_
  grind [State.next_wf, State.settle_wf, State.takeSave_wf, Act.wf_bind, Act.wf_ok]

end Sys2Proof.Machine
end

section
/-!
A step keeps the memories canonical: the turn that it prepares, and what it executes.
-/

namespace Sys2Proof.Machine

/-! ## A step -/

/-- Every instruction and event leaves the memories canonical. -/
theorem exec_wf {s : State} (h : s.Wf) (i : Instr) : Out.Wf (exec i s) := by
  unfold exec
  cases i with
  | sadd => exact scalarReg_wf h
  | ssub => exact scalarReg_wf h
  | smul => exact scalarReg_wf h
  | smulh => exact scalarReg_wf h
  | sdiv => exact scalarReg_wf h
  | smin => exact scalarReg_wf h
  | smax => exact scalarReg_wf h
  | sand => exact scalarReg_wf h
  | sor => exact scalarReg_wf h
  | sxor => exact scalarReg_wf h
  | sshl => exact scalarReg_wf h
  | sshr => exact scalarReg_wf h
  | ssra => exact scalarReg_wf h
  | sclz => exact scalarReg_wf h
  | spopc => exact scalarReg_wf h
  | smov => exact scalarReg_wf h
  | scmp => exact scalarCmp_wf h
  | ssel => exact scalarReg_wf h
  | slea => exact scalarReg_wf h
  | saddImm => exact scalarReg_wf h
  | smulImm => exact scalarReg_wf h
  | sandImm => exact scalarReg_wf h
  | sorImm => exact scalarReg_wf h
  | sxorImm => exact scalarReg_wf h
  | sshlImm => exact scalarReg_wf h
  | sshrImm => exact scalarReg_wf h
  | ssraImm => exact scalarReg_wf h
  | sminImm => exact scalarReg_wf h
  | smaxImm => exact scalarReg_wf h
  | scmpImm => exact scalarCmp_wf h
  | sleaImm => exact scalarReg_wf h
  | smovi => exact scalarReg_wf h
  | smovh => exact scalarReg_wf h
  | smoviLong => exact scalarReg_wf h
  | smovhLong => exact scalarReg_wf h
  | saddLong => exact scalarReg_wf h
  | sandLong => exact scalarReg_wf h
  | sorLong => exact scalarReg_wf h
  | sxorLong => exact scalarReg_wf h
  | sb => exact scalar_wf h fun _ _ => State.jump_wf (fun _ ht => ht) h
  | sbk => exact execSbk_wf h
  | scall => exact execScall_wf h
  | sret => exact execSret_wf h
  | sjmpr => exact execSjmpr_wf h
  | sjmprL => exact execSjmprL_wf h
  | sloop => exact execSloop_wf h
  | sexit => exact execSexit_wf h
  | snop => exact execSnop_wf h
  | sld => exact scalarLoad_wf h
  | sst => exact scalarStore_wf h
  | sldLong => exact scalarLoad_wf h
  | sstLong => exact scalarStore_wf h
  | sldv => exact scalarWaitWord_wf h
  | satom => exact execSatom_wf h
  | sfence => exact execSfence_wf h
  | swait => exact scalarWaitWord_wf h
  | ldisp => exact scalarDispatch_wf h
  | ldispReg => exact scalarDispatch_wf h
  | lsync => exact execLsync_wf h
  | slrd => exact execSlrd_wf h
  | barInit => exact execBarInit_wf h
  | barArr => exact execBarArr_wf h
  | barWt => exact execBarWt_wf h
  | barSync => exact execBarSync_wf h
  | barExp => exact execBarExp_wf h
  | fbar => exact execFbar_wf h
  | bthTake => exact execBthTake_wf h
  | bthPass => exact execBthPass_wf h
  | bthWait => exact execBthWait_wf h
  | bthSet => exact execBthSet_wf h
  | bthFree => exact execBthFree_wf h
  | bthQuery => exact execBthQuery_wf h
  | xregAcq => exact execXregAcq_wf h
  | xregRel => exact execXregRel_wf h
  | xcpy => exact execXcpy_wf h
  | xdrain => exact execXdrain_wf h
  | srt => exact execSrt_wf h
  | xcol => exact execXcol_wf h
  | tqTake => exact tileTake_wf h
  | tqSteal => exact tileTake_wf h
  | tqGive => exact execTqGive_wf h
  | glaunch => exact execGlaunch_wf h
  | wsplit => exact execWsplit_wf h
  | wret => exact execWret_wf h
  | csrr => exact execCsrr_wf h
  | csrw => exact execCsrw_wf h
  | trap => exact execTrap_wf h
  | eret => exact execEret_wf h
  | spchk => exact execSpchk_wf h
  | mmaBf16 => exact mmaIssue_wf h
  | mmaF16 => exact mmaIssue_wf h
  | mmaE4m3 => exact mmaIssue_wf h
  | mmaE5m2 => exact mmaIssue_wf h
  | mmaBx8 => exact mmaIssue_wf h
  | mmaBx6 => exact mmaIssue_wf h
  | mmaBx4 => exact mmaIssue_wf h
  | mmaLut4 => exact mmaIssue_wf h
  | mmaI8 => exact mmaIssue_wf h
  | accClr => exact accIssue_wf h
  | accLd => exact execAccLd_wf h
  | accSt => exact execAccSt_wf h
  | accAdd => exact accIssue_wf h
  | accRenorm => exact accIssue_wf h
  | accHdr => exact accIssue_wf h
  | accScale => exact accIssue_wf h
  | ctabW => exact execCtabW_wf h
  | mwt => exact execMwt_wf h
  | mfence => exact execMfence_wf h
  | mbxTake => exact execMbxTake_wf h
  | rqSend => exact execRqSend_wf h
  | iadd => exact laneExact_wf h
  | isub => exact laneExact_wf h
  | imul => exact laneExact_wf h
  | imad => exact laneExact_wf h
  | imulh => exact lane32_wf h
  | idp4 => exact laneExact_wf h
  | iabs => exact laneExact_wf h
  | imin => exact laneExact_wf h
  | imax => exact laneExact_wf h
  | icmp => exact laneFix_wf h
  | isel => exact laneFix_wf h
  | bool3 => exact lane32_wf h
  | popc => exact lane32_wf h
  | clz => exact lane32_wf h
  | brev => exact lane32_wf h
  | ishl => exact laneShift_wf h
  | ishr => exact laneShift_wf h
  | isra => exact laneShift_wf h
  | ishf => exact lane32_wf h
  | bfe => exact lane32_wf h
  | bfi => exact lane32_wf h
  | fadd => exact laneElems_wf h
  | fmul => exact laneElems_wf h
  | ffma => exact laneElems_wf h
  | fmin => exact laneElems_wf h
  | fmax => exact laneElems_wf h
  | fcmp => exact laneFix_wf h
  | fclass => exact lane32_wf h
  | fscale => exact lane32_wf h
  | fdot2 => exact lane32_wf h
  | frcp => exact laneSpecial_wf h
  | frsq => exact laneSpecial_wf h
  | fsqrt => exact laneSpecial_wf h
  | fex2 => exact laneSpecial_wf h
  | flg2 => exact laneSpecial_wf h
  | fsin => exact laneSpecial_wf h
  | fcos => exact laneSpecial_wf h
  | cvt => exact laneFix_wf h
  | cvtSr => exact lane32_wf h
  | hdm16 => exact laneFix_wf h
  | hdm32 => exact laneFix_wf h
  | qpackBx8 => exact qpack_wf h
  | qpackBx6 => exact qpack_wf h
  | qpackBx4 => exact qpack_wf h
  | qunpackBx8 => exact qunpack_wf h
  | qunpackBx6 => exact qunpack_wf h
  | qunpackBx4 => exact qunpack_wf h
  | bxdotBx8 => exact bxdot_wf h
  | bxdotBx6 => exact bxdot_wf h
  | bxdotBx4 => exact bxdot_wf h
  | mov => exact laneFix_wf h
  | movi => exact lane32_wf h
  | xlane => exact laneFix_wf h
  | vote => exact lane32_wf h
  | rdlane => exact laneFix_wf h
  | lscan => exact lane32_wf h
  | cmp24 => exact laneFix_wf h
  | pset => exact laneFix_wf h
  | pmov => exact laneFix_wf h
  | ld => exact laneLoad_wf h
  | st => exact laneStore_wf h
  | ldR => exact laneLoad_wf h
  | stR => exact laneStore_wf h
  | ldv => exact execLdv_wf h
  | lds => exact laneVar_wf h fun _ _ _ => padCheck_wf trivial
  | sts => exact laneVar_wf h fun _ _ _ => padCheck_wf trivial
  | atom => exact laneVar_wf h fun _ _ _ => LaneCtx.checkVa_wf trivial
  | atomX => exact laneVar_wf h fun _ _ _ => LaneCtx.checkHeld_wf trivial
  | red => exact laneVar_wf h fun _ _ _ => LaneCtx.checkHeld_wf trivial
  | mwait => exact execMwait_wf h
  | fence => exact execFence_wf h
  | bra => exact execBra_wf h
  | braLoop => exact execBraLoop_wf h
  | brk => exact execBrk_wf h
  | cont => exact execCont_wf h
  | join => exact execJoin_wf h
  | joinLatch => exact execJoinLatch_wf h
  | call => exact execCall_wf h
  | ret => exact execRet_wf h
  | exit => exact execExit_wf h
  | exitKill => exact execExitKill_wf h
  | nap => exact execNap_wf h
  | rgn => exact execRgn_wf h
  | gproj => exact laneProject_wf h
  | pproj => exact laneProject_wf h
  | geval => exact laneVar_wf h fun _ _ _ => LaneCtx.checkAlign_wf trivial
  | gblend => exact laneVar_wf h fun _ _ _ => LaneCtx.checkAlign_wf trivial
  | gback => exact laneMany_wf h (fun _ _ _ => LaneCtx.checkAlign_wf trivial) fun _ _ ht => backOps_wf ht
  | gscat => exact execGscat_wf h
  | rgen => exact laneVar_wf h fun _ _ _ => trivial
  | trace => exact laneVar_wf h fun _ _ ht => traceCheck_wf ht trivial
  | rayld => exact laneVar_wf h fun _ _ _ => checkRayWord_wf trivial
  | rayst => exact laneVar_wf h fun _ _ _ => checkRayWord_wf trivial
  | hitq => exact execHitq_wf h
  | rpush => exact laneVar_wf h fun _ _ _ => trivial
  | rpop => exact laneVar_wf h fun _ _ _ => trivial
  | fbw => exact laneVar_wf h fun _ _ _ => LaneCtx.checkAlign_wf trivial
  | laneDispatch => exact execLaneDispatch_wf h
  | issueSlotArbitration => exact execIssueSlotArbitration_wf h
  | resultLanding => exact State.landFix_wf h
  | varCompletion => exact execVarCompletion_wf h
  | napExpiry => exact State.slotWait_wf h
  | monitorFire => exact execMonitorFire_wf h
  | monitorPollTimer => exact execMonitorPollTimer_wf h
  | trapDelivery => exact execTrapDelivery_wf h
  | crewRetire => exact execCrewRetire_wf h
  | gridRetire => exact execGridRetire_wf h
  | weightGrant => exact execWeightGrant_wf h
  | packetAdmission => exact execPacketAdmission_wf h
  | crewPlacement => exact execCrewPlacement_wf h
  | placementBackoffExpiry => exact ⟨h.mem, h.tiers, h.scratch⟩
  | preemptRequest => exact execPreemptRequest_wf h
  | preemptWithdrawTimeout => exact execPreemptWithdrawTimeout_wf h
  | crewRestore => exact execCrewRestore_wf h
  | crewKill => exact execCrewKill_wf h
  | killedCrewRestore => exact execKilledCrewRestore_wf h
  | mmaExecute => exact execMmaExecute_wf h
  | accBatchApply => exact execAccBatchApply_wf h
  | ctabApply => exact execCtabApply_wf h
  | copyPartComplete => exact execCopyPartComplete_wf h
  | copyComplete => exact execCopyComplete_wf h
  | copyErrorComplete => exact execCopyErrorComplete_wf h
  | faultQueuePost => exact execFaultQueuePost_wf h
  | engineResumeOnAck => exact execEngineResumeOnAck_wf h
  | sortStart => exact execSortStart_wf h
  | sortComplete => exact execSortComplete_wf h
  | projectionEntryStart => exact execProjectionEntryStart_wf h
  | projectionItemDone => exact execProjectionItemDone_wf h
  | traversalStart => exact execTraversalStart_wf h
  | traversalEnd => exact execTraversalEnd_wf h
  | genJobConsume => exact execGenJobConsume_wf h
  | genRayEmit => exact execGenRayEmit_wf h
  | tunMerge => exact execTunMerge_wf h
  | tunEviction => exact execTunEviction_wf h
  | lineEviction => exact execLineEviction_wf h
  | pageWalk => exact execPageWalk_wf h
  | eccError => exact execEccError_wf h
  | xcmdInvalidatePage => exact State.queueXcmd_wf h
  | xcmdInvalidateRange => exact State.queueXcmd_wf h
  | xcmdInvalidateAsid => exact State.queueXcmd_wf h
  | xcmdInvalidateAll => exact State.queueXcmd_wf h
  | invalidationComplete => exact execInvalidationComplete_wf h
  | hostMemoryAccess => exact execHostMemoryAccess_wf h
  | registerWrite => exact execRegisterWrite_wf h
  | featureLock => exact State.lockFeatures_wf h
  | partitionFeatureMaskWrite => exact State.clearMask_wf h
  | generatorEnable => exact State.setDie_wf h
  | keyLoad => exact State.keyCommand_wf h
  | keyRemove => exact State.keyCommand_wf h
  | linkKeyLoad => exact State.loadLink_wf h
  | linkBringup => exact execLinkBringup_wf h
  | attestRequest => exact State.requestReport_wf h
  | attestReportDone => exact execAttestReportDone_wf h
  | mkill => exact State.killId_wf h
  | mailboxPost => exact execMailboxPost_wf h
  | powerOnReset => exact execPowerOnReset_wf
  | watchdogReset => exact execWatchdogReset_wf
  | i3cReset => exact execI3cReset_wf
  | marginReplan => exact execMarginReplan_wf h
  | powerWindowTimer => exact execPowerWindowTimer_wf h
  | pcapWrite => exact State.putPcap_wf h
  | coolantExcursion => exact execCoolantExcursion_wf h
  | coolantRestored => exact execCoolantRestored_wf h
  | frameReceive => exact execFrameReceive_wf h
  | retryRequestReceive => exact execRetryRequestReceive_wf h
  | totalsFrameTimer => exact execTotalsFrameTimer_wf h
  | totalsFrameReceive => exact execTotalsFrameReceive_wf h
  | fabRd => exact execFabRd_wf h
  | fabRdr => exact answered_wf h
  | fabWr => exact execFabWr_wf h
  | fabWra => exact answered_wf h
  | fabAtm => exact execFabAtm_wf h
  | fabAtr => exact answered_wf h
  | fabRed => exact withPacket_wf h fun _ ht => State.serveAtomics_wf ht
  | fabBlk => exact execFabBlk_wf h
  | fabBlka => exact answered_wf h
  | fabDrop => exact execFabDrop_wf h
  | fabResv => exact execFabResv_wf h
  | fabRgnt => exact execFabRgnt_wf h
  | reservationWindowExpiry => exact State.setPort_wf h
  | fabMon => exact withPacket_wf h fun _ ht => State.fireLine_wf ht
  | fabCtb => exact execFabCtb_wf h
  | fabCrs => exact withPacket_wf h fun _ ht => State.answerChunk_wf ht
  | fabClosed => exact withPacket_wf h fun _ ht => State.answerChunk_wf ht
  | collectiveSlotTimeout => exact execCollectiveSlotTimeout_wf h
  | collectiveSlotFree => exact execCollectiveSlotFree_wf h
  | fabWgt => exact execFabWgt_wf h
  | fabErr => exact execFabErr_wf h
  | fbarArrival => exact execFbarArrival_wf h
  | fbarTimeout => exact execFbarTimeout_wf h
  | keyCommandComplete => exact execKeyCommandComplete_wf h

/-- The state that a turn is prepared to is canonical. -/
def Prep.Wf (p : Prep) : Prop :=
  match p with
  | .run _ s => s.Wf
  | .stay s => s.Wf

theorem Prep.wf_ite {p : Prop} [Decidable p] {a b : Prep} (ha : a.Wf) (hb : b.Wf) : (if p then a else b).Wf := by
  split
  · exact ha
  · exact hb

theorem State.prepareScalar_wf {s : State} {a} (h : s.Wf) : (s.prepareScalar a).Wf := by
  have hp : (s.takePort a).2.Wf := State.takePort_wf h
  unfold State.prepareScalar
  refine Prep.wf_ite h (Prep.wf_ite hp ?_)
  dsimp only
  split
  · exact hp
  next c _ =>
    have hc (l) : ({ (s.takePort a).2 with cur := l } : State).Wf := ⟨hp.mem, hp.tiers, hp.scratch⟩
    have trap {u : State} {t p} (hu : u.Wf) :
        (if u.killHeld a then u else if u.mayTrap a then u.takeTrap a t p else u).Wf :=
      State.wf_ite hu (State.wf_ite (State.takeTrap_wf hu) hu)
    refine Prep.wf_ite (trap (hc _)) ?_
    split
    · split
      · exact trap (hc _)
      · exact trap (hc _)
      · exact State.askFetch_wf (hc _)
    next u e =>
      have hu : u.Wf := State.fetchScalar_wf (hc _) e
      split
      · exact trap hu
      · exact hu

theorem State.prepareLane_wf {s : State} {core slot} (h : s.Wf) : (s.prepareLane core slot).Wf := by
  have hc (l) : ({ s with cur := l } : State).Wf := ⟨h.mem, h.tiers, h.scratch⟩
  unfold State.prepareLane
  split
  · exact h
  · split
    · refine Prep.wf_ite (hc _) (Prep.wf_ite (State.laneTrap_wf (hc _)) ?_)
      split
      · exact State.wf_ite (State.askFetch_wf (hc _)) (State.laneTrap_wf (hc _))
      next u e =>
        have hu : u.Wf := State.fetchLane_wf (hc _) e
        split
        · exact State.laneTrap_wf hu
        · exact hu
    · exact h

theorem State.prepare_wf {s : State} (h : s.Wf) : s.prepare.Wf := by
  have ht : s.turn.2.Wf := State.turn_wf h
  unfold State.prepare
  split
  next e =>
    rw [e] at ht
    exact State.prepareScalar_wf ht
  next e =>
    rw [e] at ht
    exact State.prepareScalar_wf ht
  next e =>
    rw [e] at ht
    exact State.prepareLane_wf ht
  next e =>
    rw [e] at ht
    exact Prep.wf_ite ⟨ht.mem, ht.tiers, ht.scratch⟩ ht
  next e =>
    rw [e] at ht
    exact ht

theorem step_wf {s : State} (h : s.Wf) : Out.Wf (step s) := by
  have hp : s.prepare.Wf := State.prepare_wf h
  unfold step
  split
  next i t e =>
    rw [e] at hp
    exact exec_wf hp i
  next t e =>
    rw [e] at hp
    exact hp

end Sys2Proof.Machine
namespace Sys2Proof
open Sys2Proof.Machine

/-- Settles O57: a step prepares a turn and executes what it finds, and each of the two keeps `State.Wf`, which is the
canonical form. -/
theorem memoriesStayCanonical : Obligations.MemoriesStayCanonical := by
  unfold Obligations.MemoriesStayCanonical
  intro s t hs e
  have ht : Out.Wf (step s) := step_wf ((State.wf_iff_canonical s).mpr hs)
  rw [e] at ht
  exact (State.wf_iff_canonical t).mp ht

end Sys2Proof
end
